-- ==== Sys2Proof/Word.lean ====
section
/-! DEFINITION. The plain words of the model: byte and word abbreviations, and the sparse tables in which the model
keeps every numbered collection of the K4 (heads, streams, sites, functions, ...). -/

namespace Sys2Proof

abbrev B8 := BitVec 8
abbrev B16 := BitVec 16
abbrev B32 := BitVec 32
abbrev B48 := BitVec 48
abbrev B64 := BitVec 64
abbrev Bytes := List (BitVec 8)

/-- A numbered collection: entries that were written, by number. A number with no entry holds the collection's
default, which is its reset value. -/
abbrev Tab (α : Type) := List (Nat × α)

/-- Entry `i` of a table whose unwritten entries hold `d`. -/
def Tab.get {α : Type} (d : α) : List (Nat × α) → Nat → α
  | [], _ => d
  | (j, v) :: t, i => if j = i then v else Tab.get d t i

/-- The table with entry `i` holding `v`; the other entries stand, and the order of entries is kept rising. -/
def Tab.set {α : Type} : List (Nat × α) → Nat → α → List (Nat × α)
  | [], i, v => [(i, v)]
  | (j, w) :: t, i, v =>
    if j = i then (i, v) :: t
    else if i < j then (i, v) :: (j, w) :: t
    else (j, w) :: Tab.set t i v

/-- Apply `f` to the entries of the numbers in `is`. -/
def Tab.upd {α : Type} (d : α) (f : α → α) (t : List (Nat × α)) (is : List Nat) : List (Nat × α) :=
  is.foldl (fun t i => Tab.set t i (f (Tab.get d t i))) t

/-- The table without the entries whose number satisfies `p`. -/
def Tab.drop {α : Type} (p : Nat → Bool) (t : List (Nat × α)) : List (Nat × α) :=
  t.filter (fun e => !p e.1)

/-- Apply `f` to every entry. -/
def Tab.mapVals {α : Type} (f : α → α) (t : List (Nat × α)) : List (Nat × α) := t.map (fun e => (e.1, f e.2))

/-- Whether every entry satisfies `p`. -/
def Tab.allVals {α : Type} (p : α → Bool) (t : List (Nat × α)) : Bool := t.all (fun e => p e.2)

/-- Number read little-endian from bytes (R10). -/
def leNat : Bytes → Nat
  | [] => 0
  | b :: t => b.toNat + 256 * leNat t

/-- The low `n` bytes of a number, little-endian (R10). -/
def toLe : Nat → Nat → Bytes
  | 0, _ => []
  | n + 1, v => BitVec.ofNat 8 v :: toLe n (v / 256)

/-- Field of `n` bytes at offset `o`, little-endian. -/
def fieldLe (bs : Bytes) (o n : Nat) : Nat := leNat ((bs.drop o).take n)

/-- Byte `o`, 0 past the end. -/
def byteAt (bs : Bytes) (o : Nat) : Nat := (bs.getD o 0).toNat

/-- Bits `lo` to `lo + n - 1` of a number. -/
def bits (v lo n : Nat) : Nat := v / 2 ^ lo % 2 ^ n

/-- Bit `i` of a number. -/
def bit (v i : Nat) : Bool := v / 2 ^ i % 2 == 1

/-- A field of `n` bits read as two's complement. -/
def sext (n v : Nat) : Int := if v % 2 ^ n < 2 ^ (n - 1) then (v % 2 ^ n : Nat) else ((v % 2 ^ n : Nat) : Int) - (2 ^ n : Nat)

/-- A signed number as `n` bits of two's complement. -/
def uns (n : Nat) (v : Int) : Nat := (v % ((2 ^ n : Nat) : Int)).toNat

/-- Clamp to a range. -/
def clampI (lo hi v : Int) : Int := if v < lo then lo else if hi < v then hi else v

end Sys2Proof
end

