-- ==== Sys2Proof/Syntax.lean ====
section
/-! DEFINITION. The commands of the K4: one constructor of `Instr` per row of the opcode table, and the plain data their
operands carry. -/

namespace Sys2Proof

abbrev HeadId := Fin 16
abbrev StreamId := Fin 64
abbrev Site := Fin 768
abbrev FnId := Fin 64
abbrev Owner := Fin 16

/-- A flit: 48-bit tag, 7-bit check code, 256-bit payload, 8 parity bits (R124-R127). -/
structure Flit where
  tag : BitVec 48 := 0
  chk : BitVec 7 := 0
  pay : BitVec 256 := 0
  par : BitVec 8 := 0
  deriving DecidableEq, Repr

/-- How a stored word read back: good, one bit corrected, or uncorrectable. -/
inductive Ecc where
  | clean | corrected | bad
  deriving DecidableEq, Repr

/-- The header of a received CSI-2 packet as the Head Link sees it (R28, R32): its ECC outcome, and whether it is the
first packet of an HS transmission. -/
structure CsiHdr where
  ecc : Ecc := .clean
  first : Bool := true
  deriving DecidableEq, Repr

/-- What an attach reads over I3C (R36): the passport, whether every SETDASA was acknowledged, and the bytes of the three starting
set-points as the bus gave them (R34, R57); none is a failed read. -/
structure AttachRead where
  passport : Option Bytes := none
  assigned : Bool := true
  expo : Option Bytes := none
  gain : Option Bytes := none
  act : Option Bytes := none
  deriving DecidableEq, Repr

/-- Unfrozen cycles a unit spent before an issue, by the class of Table 11-2: waiting for a match, held by a lane,
everything else. With them what befell the words read for the issue: how many of the group's program words were corrected (R251),
and the error of a T-unit's node memory read with the word it struck (R112). -/
structure Waits where
  tag : Nat := 0
  x : Nat := 0
  active : Nat := 0
  fixed : Nat := 0
  ecc : Ecc := .clean
  eccAt : Fin 2048 := 0
  deriving DecidableEq, Repr

/-- A word of an S-unit that a read found in error (R110). -/
structure SramErr where
  site : Site
  word : Fin 16384
  ecc : Ecc
  deriving DecidableEq, Repr

/-- A unit that has waited for a match past its timeout, and what it spent on the wait (R94, R276). -/
structure DeadUnit where
  site : Site
  waits : Waits := {}
  deriving DecidableEq, Repr

/-- The model an evaluation starts, and the table word its reads found in error (R110, R244). -/
structure ModelRead where
  model : B8
  err : Option SramErr := none
  deriving DecidableEq, Repr

/-- A word offered to a queue's producer port, and the source that offers it (R160). -/
structure SrcWord where
  src : Fin 17
  word : B64
  deriving DecidableEq, Repr

/-- Where a router's slot ejects or an edge port delivers a flit (R93, R119). -/
inductive EjectAt where
  | unit (site : Site)
  | tail (engine : Fin 16) (stripe : Fin 8)
  deriving DecidableEq, Repr

/-- A member of a stall group (R136). -/
inductive Member where
  | unit (site : Site)
  | stream (st : StreamId)
  | gate (g : Fin 112)
  deriving DecidableEq, Repr

/-- A framed queue of Table 06-2. -/
inductive QId where
  | reply (fn : FnId)
  | ctrl (site : Site) (out : Fin 5)
  | spore (port : Fin 4)
  | mailbox
  | eventLog
  | completion (p : Fin 64)
  deriving DecidableEq, Repr

/-- An arbiter of Table 06-1, or that of a framed queue's producer port (R160). -/
inductive ArbId where
  | service (site : Site)
  | hbm (stack : Fin 4)
  | ctrl (site : Site) (out : Fin 5)
  | cmdRing
  | pool (p : Fin 64)
  | broadcast
  | sequencer
  | port (q : QId)
  deriving DecidableEq, Repr

/-- The access path of a register access (R352): one function's BAR, or CSPI. -/
inductive Path where
  | bar (fn : FnId)
  | cspi
  deriving DecidableEq, Repr

/-- The header of a dispatched command packet (Table 13-4): issuing function, CSEQ, the three flags, and whether it came
over CSPI. -/
structure Pkt where
  fn : FnId := 0
  cseq : BitVec 32 := 0
  urgent : Bool := false
  fence : Bool := false
  reply : Bool := true
  cspi : Bool := false
  deriving DecidableEq, Repr

/-- One virtual channel of HEAD_ATTACH (Table 13-6). -/
structure VcDecl where
  dt : B8 := 0
  role : B8 := 0
  embDt : B8 := 0
  fnWrap : B16 := 0
  width : B16 := 0
  height : B16 := 0
  expoMax : B32 := 0
  deriving DecidableEq, Repr

/-- The parameters of HEAD_ATTACH (Table 13-6), kept by the Head Link (R37). -/
structure AttachParams where
  settleMs : B8 := 0
  auto : B8 := 0
  vcMask : B8 := 0
  lanes : B8 := 1
  polarity : B8 := 0
  laneOrder : B16 := 0
  report : B64 := 0
  vc : List VcDecl := []
  deriving DecidableEq, Repr

/-- One bind entry of CONTEXT_LOAD (Table 13-6). -/
structure Bind where
  stream : B8 := 0
  source : B8 := 0
  route : B8 := 0
  routeIndex : B8 := 0
  deriving DecidableEq, Repr

/-- A trim group of an image (R201): the virtual sites of its producer layer, or none where an Edge engine is the producer; its
consumers by virtual site and input queue, a Tail engine by its code and queue 0; its declared range; and what a trim moves:
exponents, and the shifts e - e_V of V-unit and Tail engine consumers. -/
structure TrimDecl where
  producerEdge : Bool := false
  producers : List Nat := []
  consumers : List (Nat × Nat) := []
  lo : Int := 0
  hi : Int := 0
  exps : List Int := []
  shifts : List Int := []
  deriving DecidableEq, Repr

/-- One parameter-table entry of an M-unit (R103). -/
structure Param where
  ew : Int := 0
  zw : Int := 0
  cs : Nat := 0
  bias : Nat := 0
  deriving DecidableEq, Repr

/-- A window descriptor of an S-unit generator (R209-R215, R270): the gill it reads, the window, the padding codes and
the stripe flags, the width of the stripe it computes, and the first of its channels (R229). -/
structure WinDesc where
  gd : Nat := 0
  chan0 : Nat := 0
  kh : Nat := 1
  kw : Nat := 1
  stride : Nat := 1
  dil : Nat := 1
  pt : Nat := 0
  pb : Nat := 0
  pl : Nat := 0
  pr : Nat := 0
  mt : Nat := 0
  mb : Nat := 0
  ml : Nat := 0
  mr : Nat := 0
  padc : B8 := 0
  zp : B8 := 0
  cin : Nat := 1
  height : Nat := 1
  width : Nat := 1
  edgeL : Bool := true
  edgeR : Bool := true
  halo : Nat := 0
  oy : Nat := 0
  ox : Nat := 0
  outW : Nat := 32
  deriving DecidableEq, Repr

/-- A gill descriptor (R206, R211, R212, R224, R228): base word, rows of the ring, channels, stripe width, the log2 of the
tensor's scale, the layout (0 plain, 1 PHASE2, 2 INTERLEAVE2), and what the write stream brings: the column at which its chunk 0
begins, how many columns (0: as many as come), and whether they are exchanged segments. `chan0` is the first channel of the range
the gill holds (R229). -/
structure GillDesc where
  base : Nat := 0
  chan0 : Nat := 0
  rows : Nat := 1
  chans : Nat := 1
  width : Nat := 32
  scale : Nat := 0
  layout : Nat := 0
  shift : Nat := 0
  cols : Nat := 0
  exch : Bool := false
  deriving DecidableEq, Repr

/-- The tables of a V-unit (Table 07-2): the activation look-up, the DWC taps and biases, the quantisation of its inputs,
the global-average scale; e_V of the operations by program word, `eV` where a word names none (R190); and for its row window (R104)
the left reach, the padding codes and binary16 constants of the left and right side (R213), the stripe's edge flags and inner halo
(R214), its width, and its owned columns (R218), by stripe in ascending order where the unit sums several. -/
structure VTable where
  x0 : Nat := 0
  d : Int := 0
  base : List Nat := []
  slope : List Nat := []
  taps : List (List Nat) := []
  dwcBias : List Nat := []
  eIn : List Int := []
  zIn : List Int := []
  u8In : List Bool := []
  eV : Int := 0
  eVat : List (Nat × Int) := []
  gapScale : Nat := 0
  gapShift : Int := 0
  pl : Nat := 1
  pad : Nat := 0
  padc : Nat := 0
  padR : Nat := 0
  padcR : Nat := 0
  edgeL : Bool := true
  edgeR : Bool := true
  halo : Nat := 0
  width : Nat := 32
  own : List (Nat × Nat) := [(0, 32)]
  deriving DecidableEq, Repr

/-- A region of an S-unit (R106): its base bank, first word, words, kind 0 CONST, 1 GILL, 2 STATE, 3 TABLE, and its words when
INIT. -/
structure RegionDecl where
  bank : Nat := 0
  first : Nat := 0
  words : Nat := 0
  kind : Nat := 0
  init : Bool := false
  data : List (BitVec 256) := []
  deriving DecidableEq, Repr

/-- Sections an image writes to one virtual site at one word address (Table 12-2, Table 12-3): replica 255 is every replica, `addr`
the first word or entry of every memory it names. An SRAM region lies at its own first word. `stream` is the stream slot CUR begins
with, `exchange` the inject lanes of exchange routes (R225), `codeW` the stripe widths of the tensors that flits tagged by a key
descriptor belong to (R207). -/
structure SiteDecl where
  vsite : Nat := 0
  replica : Nat := 255
  addr : Nat := 0
  program : List (BitVec 64) := []
  endW : Nat := 0
  restart : Nat := 0
  hasProgram : Bool := false
  keys : List (BitVec 64) := []
  wins : List WinDesc := []
  gills : List GillDesc := []
  params : List Param := []
  weights : List (BitVec 256) := []
  regions : List RegionDecl := []
  tnode : Bytes := []
  vtab : Option VTable := none
  qbound : List Nat := []
  laneBound : List Nat := []
  satLimit : Option Nat := none
  codeW : List (Nat × Nat) := []
  stream : Nat := 0
  exchange : List Nat := []
  deriving DecidableEq, Repr

/-- A route record (Table 12-6). -/
structure RouteDecl where
  src : Nat := 0
  lane : Nat := 0
  slot : Nat := 0
  hops : Nat := 1
  dst : Nat := 0
  queue : Nat := 0
  path : List Nat := []
  deriving DecidableEq, Repr

/-- An Edge or Tail engine layer (R115, R117, R192, R193, R219). `w` holds binary16 weights by output channel in the order of
R183, an Edge engine's raw channels before the two conditioning channels at each window position. Padding widths and modes
(0 ZERO, 1 CONST, 2 MIRROR, 3 REPLICATE) are per side; `padc` is the declared constant, binary16 at an Edge engine and a code
at a Tail engine (R213, R214). -/
structure LayerDecl where
  k : Nat := 1
  cin : Nat := 1
  cout : Nat := 1
  w : List (List Nat) := []
  bias : List Nat := []
  eo : Int := 0
  zo : Int := 0
  u8 : Bool := false
  sigma : List Int := []
  eIn : Int := 0
  zIn : Int := 0
  u8In : Bool := false
  eT : Int := 0
  pt : Nat := 0
  pb : Nat := 0
  pl : Nat := 0
  pr : Nat := 0
  mt : Nat := 0
  mb : Nat := 0
  ml : Nat := 0
  mr : Nat := 0
  padc : Nat := 0
  deriving DecidableEq, Repr

/-- A stream descriptor of an image (Table 12-3). -/
structure StreamDecl where
  live : Bool := true
  replay : Bool := true
  pattern : Bool := true
  width : Nat := 16
  height : Nat := 1
  outWidth : Nat := 16
  outChans : Nat := 1
  edge : Option LayerDecl := none
  tail : Nat := 0
  tailLayer : Option LayerDecl := none
  stripes : List (Nat × List Nat) := []
  halo : Nat := 0
  linePeriod : Nat := 1
  frameLines : Nat := 1
  oqLines : Nat := 4
  ringBase : Nat := 0
  ringLines : Nat := 0
  reorder : Nat := 2
  edgeTrim : Option Nat := none
  deriving DecidableEq, Repr

/-- A scalable block (R300): a rectangle of virtual sites of one virtual Field and the replica step. -/
structure ScaleDecl where
  vf : Nat := 0
  r0 : Nat := 0
  c0 : Nat := 0
  rows : Nat := 1
  cols : Nat := 1
  dr : Int := 0
  dc : Int := 0
  deriving DecidableEq, Repr

/-- An entity table of an image (R240): the parts of its rows in order, each an S-unit site, a first word and a row count, its
key source (0 HEAD, 1 STREAM, 2 LENS, 3 REGION, 4 HOST) and the feature of a REGION key. -/
structure EntityDecl where
  parts : List (Nat × Nat × Nat) := []
  key : Nat := 0
  feat : Nat := 0
  deriving DecidableEq, Repr

/-- A model of an image (R230-R240). Link: 0 identity, 1 logistic, 2 exponential, 3 softmax. Features are entries of
Table 09-4. By T-unit in chain order: its site, its groups, how many are resident, its extended nodes, and where an S-unit
holds its streamed groups (site and first word). Triggers are stream slots. Role: 0 AE-T, 1 SC-T, 2 neither. -/
structure ModelDecl where
  link : Nat := 0
  outputs : Nat := 1
  features : List Nat := []
  base : List Nat := []
  chain : List Nat := []
  groups : List Nat := []
  resident : List Nat := []
  extended : List Nat := []
  streamed : List (Nat × Nat) := []
  linkSite : Nat := 0
  triggers : List Nat := []
  role : Nat := 2
  deriving DecidableEq, Repr

/-- A cut route of a LINK section (R389): its ROUTE index, and the local endpoint as a route record names it. -/
structure CutDecl where
  route : Nat := 0
  endpoint : Nat := 0xA000
  transmit : Bool := true
  port : Nat := 0
  linkSlots : Nat := 0
  sync : Bool := false
  deriving DecidableEq, Repr

/-- A LINK section (R389). -/
structure LinkDecl where
  graph : BitVec 32 := 0
  devices : Nat := 2
  self : Nat := 0
  ports : List (Nat × Nat) := []
  cuts : List CutDecl := []
  deriving DecidableEq, Repr

/-- A window layer as its image declares it (R209, R215, R221, R226): `mirror` lists its MIRROR sides, 0 top, 1 bottom, 2 left,
3 right; `exchange` is the input channel count of an EXCHANGE layer. -/
structure WindowDecl where
  sec : Nat := 0
  h : Nat := 1
  w : Nat := 1
  kh : Nat := 1
  kw : Nat := 1
  s : Nat := 1
  d : Nat := 1
  pt : Nat := 0
  pb : Nat := 0
  pl : Nat := 0
  pr : Nat := 0
  mirror : List Nat := []
  outH : Nat := 1
  outW : Nat := 1
  decomposed : Bool := false
  zw : List Int := []
  exchange : Option Nat := none
  deriving DecidableEq, Repr

/-- What the bodies of an image's sections declare. The spec fixes the header and the section table of an image by byte
(R292) and not the bodies, so a staged image carries its bodies' content in this form (log 9). Exponents come with the section
that declares them, zero points with their code kind too (0 S8, 1 U8, 2 S4), constants are binary32, spans are the least and greatest
shift e - e_V of a V-unit or Tail engine operation (R190). What the spec gives by byte is read from the image itself: the route
records, programs, key descriptors, weights, SRAM words and node memories of its sections take the place of `routes` and of those
parts of `sites`. A side link
(vf, vc) joins the virtual columns vc - 1 and vc. `statsUnits` are the V-units that keep statistics. -/
structure ImageDecl where
  exponents : List (Nat × Int) := []
  zeros : List (Nat × Nat × Int) := []
  consts : List (Nat × Nat) := []
  spans : List (Nat × Int × Int) := []
  windows : List WindowDecl := []
  trims : List TrimDecl := []
  sites : List SiteDecl := []
  sideLinks : List (Nat × Nat) := []
  routes : List RouteDecl := []
  streams : List StreamDecl := []
  scales : List ScaleDecl := []
  models : List ModelDecl := []
  entities : List EntityDecl := []
  statsUnits : List Nat := []
  link : Option LinkDecl := none
  deriving DecidableEq, Repr

/-- A service-port access (R108): its arbiter input, the word, and the data of a write. -/
structure ServiceAcc where
  input : Fin 4 := 0
  word : Fin 16384 := 0
  data : Option (BitVec 256) := none
  ecc : Ecc := .clean
  deriving DecidableEq, Repr

/-- A granted HBM burst (R374, Table 06-1): its arbiter input, its burst number within the stack, the bytes of a write. -/
structure HbmAcc where
  input : Fin 11 := 0
  burst : Fin 268435456 := 0
  data : Option Bytes := none
  ecc : Ecc := .clean
  deriving DecidableEq, Repr

/-- A pool descriptor (R169). -/
structure PoolDesc where
  addr : B64 := 0
  size : B32 := 0
  tag : B32 := 0
  deriving DecidableEq, Repr

/-- What a PCIe read of host memory delivers to (R378, Table 13-6): a replay line of a stream, or the command that named
the address. -/
inductive HostRead where
  | replay (st : StreamId)
  | source (addr : B64)
  deriving DecidableEq, Repr

/-- A peer lock operation or its result (R388). -/
inductive PeerLock where
  | acquire (fn : Fin 64) (lock : B8)
  | release (fn : Fin 64) (lock : B8)
  | result (word : B32)
  deriving DecidableEq, Repr

/-- A CONTROL BIND (R390, R447). -/
structure BindMsg where
  graph : BitVec 32 := 0
  index : B8 := 0
  owner : B8 := 0
  epoch : B8 := 0
  hazard : Bool := false
  deriving DecidableEq, Repr

/-- A capture record (R458). -/
structure CapRec where
  typ : Fin 6 := 1
  src : B8 := 0
  fseq : B16 := 0
  line : B16 := 0
  arg : B32 := 0
  flags : B32 := 0
  payload : Bytes := []
  deriving DecidableEq, Repr

/-- The lists of an expert placement: ROWS_f and COLS_f per used Field (R320). -/
abbrev Lists := List (Nat × List Nat × List Nat)

/-- A slot-table patch entry (R321). -/
structure PatchEntry where
  site : B16 := 0
  output : B8 := 0
  slot : B8 := 0
  entry : B16 := 0
  deriving DecidableEq, Repr

/-- A PTP announced data set, best compared first to last (R402). -/
structure PtpMaster where
  priority1 : B8 := 0
  quality : B32 := 0
  priority2 : B8 := 0
  clockId : B64 := 0
  deriving DecidableEq, Repr

/-- The commands of the K4, one constructor per row of the opcode table, in the table's order. -/
inductive Instr where
  | headInserted (h : HeadId)
  | headRemoved (h : HeadId)
  | headInt (h : HeadId)
  | headIbi (h : HeadId) (target : Fin 4) (data : B8)
  | frameStart (h : HeadId) (vc : Fin 4) (hdr : CsiHdr) (fn : B16)
  | frameEnd (h : HeadId) (vc : Fin 4) (hdr : CsiHdr)
  | lineStartPacket (h : HeadId) (vc : Fin 4) (hdr : CsiHdr) (number : B16) (err : Fin 21)
  | lineEndPacket (h : HeadId) (vc : Fin 4) (hdr : CsiHdr)
  | linePayload (h : HeadId) (vc : Fin 4) (hdr : CsiHdr) (dt : B8) (payload : Bytes) (crc : B16) (err : Fin 21)
  | embeddedData (h : HeadId) (vc : Fin 4) (hdr : CsiHdr) (dt : B8) (payload : Bytes) (crc : B16)
  | linkTimeout (st : StreamId)
  | missingLineSupply (st : StreamId)
  | lineTake (st : StreamId)
  | fsyncPulse (h : HeadId)
  | fsyncPulseEnd (h : HeadId)
  | headTempRead (h : HeadId) (value : Option Bytes)
  | ledgerCommit (h : HeadId)
  | ledgerReadback (h : HeadId) (copy : Bytes)
  | attachSettled (h : HeadId) (r : AttachRead)
  | authPoll (h : HeadId) (signature : Option Bytes)
  | authTimeout (h : HeadId)
  | reauthentication (h : HeadId)
  | focusWrite (st : StreamId) (fseq : B16) (focus : B16) (conf : B16)
  | exposureWrite (h : HeadId)
  | i3cTransferComplete (h : HeadId)
  | edgeLineAdmit (st : StreamId)
  | pacedLineStart (st : StreamId)
  | replayPrefetch (st : StreamId) (ecc : Ecc)
  | flitForward (site : Site) (slot : Fin 64)
  | flitEject (dst : EjectAt) (ecc : Ecc)
  | sideLinkFlit (site : Site) (east : Bool)
  | gateWrite (g : Fin 112)
  | gateFlitVisible (g : Fin 112)
  | gateSlotFreed (g : Fin 112)
  | exchangeCreditReturn (site : Site) (lane : Fin 4) (n : Fin 64)
  | tagDeadlock (u : DeadUnit)
  | microNop (site : Site) (w : Waits)
  | pop (site : Site) (w : Waits)
  | push (site : Site) (w : Waits)
  | ldw (site : Site) (w : Waits)
  | mac (site : Site) (w : Waits)
  | acc (site : Site) (w : Waits)
  | bias (site : Site) (w : Waits)
  | req (site : Site) (w : Waits)
  | reqDrain (site : Site)
  | act (site : Site) (w : Waits)
  | pool (site : Site) (w : Waits)
  | add (site : Site) (w : Waits)
  | mul (site : Site) (w : Waits)
  | mov (site : Site) (w : Waits)
  | loop (site : Site) (w : Waits)
  | endl (site : Site) (w : Waits)
  | emit (site : Site) (w : Waits)
  | sync (site : Site) (w : Waits)
  | spill (site : Site) (w : Waits)
  | rot (site : Site) (w : Waits)
  | dwc (site : Site) (w : Waits)
  | stats (site : Site) (w : Waits)
  | tcmp (site : Site) (w : Waits)
  | tleaf (site : Site) (w : Waits)
  | illegalOp (site : Site) (w : Waits)
  | progUe (site : Site)
  | generatorSequence (site : Site) (gen : Fin 2) (n : Fin 65) (ecc : Ecc)
  | statsRecordSend (site : Site)
  | statsBankClose (site : Site)
  | statsBankRelease (site : Site)
  | scrubRead (site : Site) (ecc : Ecc) (raced : Bool)
  | serviceAccess (site : Site) (a : ServiceAcc)
  | tailLineRelease (st : StreamId)
  | treeEvalStart (o : Owner) (model : ModelRead)
  | treeResultPost (o : Owner) (model : B8)
  | sceneLatch (st : StreamId)
  | eclosionStart (o : Owner)
  | eclosionDone (o : Owner)
  | contextCocoon (o : Owner)
  | contextAborted (o : Owner)
  | contextReleased (o : Owner)
  | ecloseTimeout (o : Owner)
  | stallAssert (g : Owner)
  | freezeSet (m : Member)
  | stallMinHoldEnd (g : Owner)
  | freezeClear (m : Member) (cycles : B64)
  | stallOff (g : Owner)
  | arbitration (a : ArbId) (present : List (Fin 64)) (cycles : B16)
  | backoffEnd (a : ArbId) (input : Fin 64)
  | forced (a : ArbId) (input : Fin 64)
  | withdraw (a : ArbId) (input : Fin 64)
  | queueWordWrite (q : QId) (word : SrcWord) (endMark : Bool) (crcOk : Bool)
  | queueAbort (q : QId)
  | queueReserve (q : QId) (producer : B8) (len : B16)
  | queueSlotWrite (q : QId) (producer : B8) (slot : B32) (body : List B32)
  | queueRead (q : QId)
  | outputFlit (st : StreamId)
  | outputLineSend (st : StreamId)
  | poolDescriptorFetch (p : Fin 64) (data : Bytes)
  | cmdFetch (f : FnId) (packet : Option Bytes)
  | cmdDispatch (f : FnId) (cspi : Bool)
  | replyWrite (f : FnId) (ok : Bool)
  | replyInterrupt (f : FnId)
  | logInterrupt (f : FnId)
  | completionInterrupt (f : FnId)
  | eventRecord (input : Fin 28)
  | overrun (input : Fin 28)
  | logDistribute
  | frameRecord (st : StreamId)
  | clkLoss (clk : Fin 17) (count : B32)
  | clkFast (clk : Fin 17) (count : B32)
  | clkRestored (clk : Fin 17)
  | xinRestored
  | dtbStep
  | dtbShadowRealign
  | ptpSync (port : Fin 2) (t1 : B64) (t2 : B64)
  | ptpDelayReq (port : Fin 2) (t3 : B64) (t4 : B64)
  | ptpAnnounce (port : Fin 2) (domain : B8) (m : PtpMaster)
  | ptpHoldover (port : Fin 2)
  | ptpPort
  | vidSettled
  | dvfsSlewDone (f : Fin 4)
  | pwarn (mv : B16)
  | vddArrWarning (f : Fin 4) (mv : B16)
  | vrFault (mv : B16)
  | diapauseExit
  | bor (rail : Fin 3)
  | borRelease
  | por (pin : Bool)
  | startupComplete
  | qspiBootRead (copy : Fin 2) (image : Option Bytes)
  | hostBootRead (image : Option Bytes)
  | tempReading (t : B16)
  | thermalClear
  | thermalRecovery
  | mcRestart (firmwareFault : Bool) (verified : Bool)
  | flr (f : FnId)
  | pcieAPerst
  | pcieBPerst
  | pcieLinkDown (ep : Fin 2)
  | hbmBurst (k : Fin 4) (a : HbmAcc)
  | hbmPowerDown (k : Fin 4)
  | hbmRefresh (k : Fin 4)
  | yallekIdentSend (p : Fin 4)
  | yallekBringupTimeout (p : Fin 4)
  | sporeIdent (p : Fin 4) (spore : Bytes) (die : B64)
  | sporeFlit (p : Fin 4) (spore : Bytes)
  | sporeLine (p : Fin 4) (spore : Bytes)
  | sporeLock (p : Fin 4) (spore : Bytes) (op : PeerLock)
  | sporeBind (p : Fin 4) (spore : Bytes) (b : BindMsg)
  | sporeUnbind (p : Fin 4) (spore : Bytes) (graph : B32)
  | peerReset (p : Fin 4) (spore : Bytes)
  | sporeAck (p : Fin 4) (spore : Bytes)
  | sporeNak (p : Fin 4) (spore : Bytes)
  | sporeStall (p : Fin 4) (spore : Bytes)
  | sporeAlign (p : Fin 4) (spore : Bytes) (route : B8) (stamp : B16)
  | sporeRetransmitTimeout (p : Fin 4)
  | nakRepeat (p : Fin 4)
  | ackSend (p : Fin 4)
  | flitSporeClose (p : Fin 4)
  | yallekDown (p : Fin 4) (cause : Fin 4)
  | syncEntryVisible (p : Fin 4) (route : B8)
  | ethLinkChange (p : Fin 2) (up : Bool)
  | arpRequest (p : Fin 2) (mac : B48) (ip : B32) (target : B32)
  | igmpReport (p : Fin 2)
  | ethFrameDiscard (p : Fin 2)
  | st2110Packet (d : Fin 32)
  | metadataDatagram (p : Fin 2) (sent : Bool)
  | captureRecord (r : CapRec) (room : Bool)
  | dumpDone (ok : Bool)
  | snapshotComplete (o : Owner)
  | lockWaitTimeout (l : Fin 64) (cseq : B32)
  | ringResetDone (f : FnId)
  | cmdTail (f : FnId) (v : B32)
  | ringReset (f : FnId)
  | poolDoorbell (f : FnId) (v : B32)
  | registerWrite (p : Path) (off : B32) (bytes : B8) (v : B64)
  | registerLowRead (p : Path) (off : B32)
  | fcFseqRead (site : Site)
  | badAccessRead
  | logDropRead (f : FnId)
  | capDropRead
  | lockAcq (p : Path) (l : Fin 64)
  | lockReleaseWrite (p : Path) (l : Fin 64)
  | lockForceWrite (p : Path) (l : Fin 64)
  | memData (site : Site) (w : Option B64) (ecc : Ecc)
  | unitCtrlUnitReset (site : Site)
  | warmReset
  | capEn (on : Bool)
  | dumpGo
  | bootGo
  | writePacket (bytes : Bytes)
  | readReply
  | readStatus
  | readReg (off : B32)
  | writeReg (off : B32) (v : B32)
  | readResult (off : B16) (n : B16)
  | nop (k : Pkt)
  | streamStart (k : Pkt) (stream policy switching oqLines pool when_ : B8) (atDtb : B64)
  | streamStop (k : Pkt) (target kind immediate : B8)
  | ecloseVariant (k : Pkt) (owner slot when_ : B8)
  | statsSnapshot (k : Pkt) (owner stream which : B8) (vmask : B32) (dest : B64) (length : B32)
  | lockAcquire (k : Pkt) (lock wait : B8) (timeoutUs : B16)
  | lockRelease (k : Pkt) (lock : B8)
  | lockQuery (k : Pkt) (lock : B8)
  | contextAbort (k : Pkt) (owner : B8)
  | queueFlush (k : Pkt) (cls index : B8)
  | dropThreshold (k : Pkt) (stream lines : B8)
  | unitCounters (k : Pkt) (owner : B8) (dest : B64) (length : B32)
  | entityWrite (k : Pkt) (owner table : B8) (row count : B16) (src : B64)
  | exponentTrim (k : Pkt) (owner group t : B8)
  | fwNop (k : Pkt)
  | fnGrant (k : Pkt) (fn expert : B8)
  | vfMap (k : Pkt) (map : B64)
  | headAssign (k : Pkt) (head fn : B8)
  | poolAssign (k : Pkt) (pool fn : B8)
  | poolSetup (k : Pkt) (pool ringOrder cplOrder : B8) (ring cpl : B64)
  | modeSet (k : Pkt) (axis value : B8)
  | powerMode (k : Pkt) (mode : B8)
  | logRing (k : Pkt) (order filter : B8) (dest : B64)
  | hbmWrite (k : Pkt) (length : B16) (hbm : B64) (data : Bytes)
  | headAttach (k : Pkt) (head : B8) (params : AttachParams)
  | headDetach (k : Pkt) (head : B8)
  | headAuth (k : Pkt) (head : B8)
  | headFsync (k : Pkt) (head enable widthUs : B8) (periodNs : B32) (t0 : B64)
  | headGain (k : Pkt) (head : B8) (gain : B16)
  | headExposure (k : Pkt) (head : B8) (gain : B16) (lines : B32)
  | headActuator (k : Pkt) (head mode : B8) (triggerLine confMin : B16) (actMin actMax : B32)
  | headLens (k : Pkt) (head : B8) (lens : B16)
  | slotDefine (k : Pkt) (slot where_ : B8) (length : B32) (src : B64)
  | slotUndefine (k : Pkt) (slot : B8)
  | slotStage (k : Pkt) (slot : B8) (decl : ImageDecl) (memError : Bool)
  | slotUnstage (k : Pkt) (slot : B8)
  | contextLoad (k : Pkt) (slot replicas flags owner : B8) (dest : B64) (binds : List Bind)
  | contextUnload (k : Pkt) (owner : B8)
  | placeVariant (k : Pkt) (owner slot : B8)
  | unplaceVariant (k : Pkt) (owner slot : B8)
  | sceneSet (k : Pkt) (stream model hold : B8) (confMin : B16) (table : List B8)
  | replaySet (k : Pkt) (stream where_ loop : B8) (frames frameBytes : B32) (src : B64)
  | patternSet (k : Pkt) (stream pattern : B8) (seed : B16)
  | modelLoad (k : Pkt) (owner model where_ : B8) (length : B32) (src : B64) (memError : Bool)
  | entityKey (k : Pkt) (owner table : B8) (key : B16)
  | timeMode (k : Pkt) (mode policy : B8) (slewPpm : B16) (thresholdNs : B32)
  | timeAdjust (k : Pkt) (kind : B8) (value : B64)
  | st2110Sender (k : Pkt) (sender enable : B8) (record : Bytes)
  | loadPlaced (k : Pkt) (slot replicas flags owner : B8) (dest : B64) (binds : List Bind) (lists : Option Lists)
  | placeVariantPlaced (k : Pkt) (owner slot : B8) (lists : Option Lists)
  | slotPatch (k : Pkt) (owner : B8) (entries : Option (List PatchEntry))
  | i3cRaw (k : Pkt) (head address wlen rlen : B8) (data : Bytes) (reply : Option Bytes)
  | dvfsSet (k : Pkt) (field point : B8)
  | fieldReset (k : Pkt) (field : B8)
  | unitReset (k : Pkt) (site : B16)
  | ethRaw (k : Pkt) (port : B8) (length : B16) (src : B64)
  | yallekAlign (k : Pkt) (port : B8) (record : Bytes)
  | porRelease (bootSrc : BitVec 2)
  | yallekBlockLock (p : Fin 4)
  | dtbOffsetRemoved
  | hostMemoryRead (r : HostRead) (data : Option Bytes)
  | pcieLinkUp (ep : Fin 2)
  | pciePerstRelease
  | hbmTrainingDone (k : Fin 4) (ok : Bool)
  deriving DecidableEq, Repr

end Sys2Proof
end

