-- ==== Sys2Proof/Machine/Codes.lean ====
section
/-! DEFINITION. Check codes and signatures: the tag code of R126 and payload parity of R127, CRC-32 (Table 02-8), the CSI-2
payload CRC-16, SHA-256 and ECDSA P-256 (the standards R11 and R38 cite; log 10). -/

namespace Sys2Proof.Machine

/-- Codeword position of tag bit `i`: the positions that are no power of two, ascending (R126). -/
def tagPos (i : Nat) : Nat :=
  if i < 1 then 3 else if i < 4 then i + 4 else if i < 11 then i + 5 else if i < 26 then i + 6 else i + 7

/-- XOR of the tag bits whose position has bit `k` set (R126). -/
def tagCheckBit (tag : BitVec 48) (k : Nat) : Bool :=
  (List.range 48).foldl (fun a i => a != (tag.getLsbD i && bit (tagPos i) k)) false

/-- C[5:0] as a number. -/
def tagSyndromeBits (tag : BitVec 48) : Nat :=
  (List.range 6).foldl (fun a k => a + (if tagCheckBit tag k then 2 ^ k else 0)) 0

/-- Parity of the low `n` bits of a number. -/
def parityN (n v : Nat) : Bool := (List.range n).foldl (fun a i => a != bit v i) false

/-- The check code C[6:0] of a tag (R126). -/
def tagCode (tag : BitVec 48) : BitVec 7 :=
  let c := tagSyndromeBits tag
  let p := parityN 48 tag.toNat != parityN 6 c
  BitVec.ofNat 7 (c + (if p then 64 else 0))

/-- What a unit finds in a received tag: unchanged, corrected, or uncorrectable (R126). -/
inductive TagCheck where
  | good | fixed (tag : BitVec 48) | bad
  deriving DecidableEq, Repr

/-- The syndrome decode of R126. -/
def tagDecode (tag : BitVec 48) (c : BitVec 7) : TagCheck :=
  let s := Nat.xor (tagSyndromeBits tag) (c.toNat % 64)
  let p := parityN 48 tag.toNat != parityN 7 c.toNat
  if s = 0 then (if p then .fixed tag else .good)
  else if !p || 54 < s then .bad
  else
    match (List.range 48).find? (fun i => tagPos i == s) with
    | some i => .fixed (tag ^^^ BitVec.ofNat 48 (2 ^ i))
    | none => .fixed tag

/-- Payload parity: bit `i` gives even parity over payload bits 32i to 32i + 31 (R127). -/
def payParity (p : BitVec 256) : BitVec 8 :=
  BitVec.ofNat 8 ((List.range 8).foldl
    (fun a i => a + (if parityN 32 (p.toNat / 2 ^ (32 * i)) then 2 ^ i else 0)) 0)

/-- One byte of a reflected CRC. -/
def crcByte (poly : Nat) (crc : Nat) (b : BitVec 8) : Nat :=
  (List.range 8).foldl (fun c _ => if c % 2 == 1 then Nat.xor (c / 2) poly else c / 2) (Nat.xor crc b.toNat)

/-- CRC-32, IEEE 802.3 polynomial, reflected, initial value all ones, final complement (Table 02-8). -/
def crc32 (bs : Bytes) : Nat := Nat.xor (bs.foldl (crcByte 0xEDB88320) 0xFFFFFFFF) 0xFFFFFFFF

/-- The CSI-2 payload CRC-16: polynomial x^16 + x^12 + x^5 + 1, reflected, initial value all ones (R28; log 10). -/
def crc16 (bs : Bytes) : Nat := bs.foldl (crcByte 0x8408) 0xFFFF

/-- SHA-256 round constants. -/
def shaK : List (BitVec 32) := [
  0x428a2f98#32, 0x71374491#32, 0xb5c0fbcf#32, 0xe9b5dba5#32, 0x3956c25b#32, 0x59f111f1#32, 0x923f82a4#32, 0xab1c5ed5#32,
  0xd807aa98#32, 0x12835b01#32, 0x243185be#32, 0x550c7dc3#32, 0x72be5d74#32, 0x80deb1fe#32, 0x9bdc06a7#32, 0xc19bf174#32,
  0xe49b69c1#32, 0xefbe4786#32, 0x0fc19dc6#32, 0x240ca1cc#32, 0x2de92c6f#32, 0x4a7484aa#32, 0x5cb0a9dc#32, 0x76f988da#32] ++ [
  0x983e5152#32, 0xa831c66d#32, 0xb00327c8#32, 0xbf597fc7#32, 0xc6e00bf3#32, 0xd5a79147#32, 0x06ca6351#32, 0x14292967#32,
  0x27b70a85#32, 0x2e1b2138#32, 0x4d2c6dfc#32, 0x53380d13#32, 0x650a7354#32, 0x766a0abb#32, 0x81c2c92e#32, 0x92722c85#32,
  0xa2bfe8a1#32, 0xa81a664b#32, 0xc24b8b70#32, 0xc76c51a3#32, 0xd192e819#32, 0xd6990624#32, 0xf40e3585#32, 0x106aa070#32] ++ [
  0x19a4c116#32, 0x1e376c08#32, 0x2748774c#32, 0x34b0bcb5#32, 0x391c0cb3#32, 0x4ed8aa4a#32, 0x5b9cca4f#32, 0x682e6ff3#32,
  0x748f82ee#32, 0x78a5636f#32, 0x84c87814#32, 0x8cc70208#32, 0x90befffa#32, 0xa4506ceb#32, 0xbef9a3f7#32, 0xc67178f2#32]

def rotr (x : BitVec 32) (n : Nat) : BitVec 32 := (x >>> n) ||| (x <<< (32 - n))

/-- The message schedule, newest word first. -/
def shaExpand : Nat → List (BitVec 32) → List (BitVec 32)
  | 0, w => w
  | n + 1, w =>
    let a := w.getD 14 0
    let b := w.getD 1 0
    let s0 := rotr a 7 ^^^ rotr a 18 ^^^ (a >>> 3)
    let s1 := rotr b 17 ^^^ rotr b 19 ^^^ (b >>> 10)
    shaExpand n ((w.getD 15 0 + s0 + w.getD 6 0 + s1) :: w)

/-- The eight working words of SHA-256. -/
structure Sha where
  a : BitVec 32
  b : BitVec 32
  c : BitVec 32
  d : BitVec 32
  e : BitVec 32
  f : BitVec 32
  g : BitVec 32
  h : BitVec 32
  deriving DecidableEq, Repr

def shaInit : Sha := {
  a := 0x6a09e667, b := 0xbb67ae85, c := 0x3c6ef372, d := 0xa54ff53a
  e := 0x510e527f, f := 0x9b05688c, g := 0x1f83d9ab, h := 0x5be0cd19 }

def shaRound (s : Sha) (kw : BitVec 32 × BitVec 32) : Sha :=
  let s1 := rotr s.e 6 ^^^ rotr s.e 11 ^^^ rotr s.e 25
  let ch := (s.e &&& s.f) ^^^ (~~~s.e &&& s.g)
  let t1 := s.h + s1 + ch + kw.1 + kw.2
  let s0 := rotr s.a 2 ^^^ rotr s.a 13 ^^^ rotr s.a 22
  let mj := (s.a &&& s.b) ^^^ (s.a &&& s.c) ^^^ (s.b &&& s.c)
  { a := t1 + (s0 + mj), b := s.a, c := s.b, d := s.c, e := s.d + t1, f := s.e, g := s.f, h := s.g }

/-- Big-endian words of a byte list. -/
def beWords : Nat → Bytes → List (BitVec 32)
  | 0, _ => []
  | n + 1, bs =>
    BitVec.ofNat 32 (byteAt bs 0 * 16777216 + byteAt bs 1 * 65536 + byteAt bs 2 * 256 + byteAt bs 3) :: beWords n (bs.drop 4)

def shaBlock (s : Sha) (blk : Bytes) : Sha :=
  let w := (shaExpand 48 (beWords 16 blk).reverse).reverse
  let t := (shaK.zip w).foldl shaRound s
  { a := s.a + t.a, b := s.b + t.b, c := s.c + t.c, d := s.d + t.d, e := s.e + t.e, f := s.f + t.f, g := s.g + t.g, h := s.h + t.h }

def shaBlocks : Nat → Sha → Bytes → Sha
  | 0, s, _ => s
  | n + 1, s, bs => shaBlocks n (shaBlock s (bs.take 64)) (bs.drop 64)

/-- SHA-256 as 32 bytes. -/
def sha256 (bs : Bytes) : Bytes :=
  let len := bs.length
  let zeros := (119 - len % 64) % 64
  let msg := bs ++ [0x80] ++ List.replicate zeros 0 ++ (toLe 8 (len * 8)).reverse
  let s := shaBlocks (msg.length / 64) shaInit msg
  [s.a, s.b, s.c, s.d, s.e, s.f, s.g, s.h].flatMap (fun w => (toLe 4 w.toNat).reverse)

-- ECDSA P-256
def p256p : Nat := 0xffffffff00000001000000000000000000000000ffffffffffffffffffffffff
def p256n : Nat := 0xffffffff00000000ffffffffffffffffbce6faada7179e84f3b9cac2fc632551
def p256b : Nat := 0x5ac635d8aa3a93e7b3ebbd55769886bc651d06b0cc53b0f63bce3c3e27d2604b
def p256g : Nat × Nat :=
  (0x6b17d1f2e12c4247f8bce6e563a440f277037d812deb33a0f4a13945d898c296,
   0x4fe342e2fe1a7f9b8ee7eb4a7c0f9e162bce33576b315ececbb6406837bf51f5)

/-- Modular power by the exponent's bits. -/
def powMod (m : Nat) : Nat → Nat → Nat → Nat → Nat
  | 0, _, _, acc => acc
  | n + 1, b, e, acc => powMod m n (b * b % m) (e / 2) (if e % 2 = 1 then acc * b % m else acc)

def invMod (m a : Nat) : Nat := powMod m 256 (a % m) (m - 2) 1

/-- Sum of two points of the curve; none is the point at infinity. -/
def ecAdd : Option (Nat × Nat) → Option (Nat × Nat) → Option (Nat × Nat)
  | none, q => q
  | p, none => p
  | some (x1, y1), some (x2, y2) =>
    let p := p256p
    if x1 = x2 ∧ (y1 + y2) % p = 0 then none
    else
      let l := if x1 = x2 then (3 * x1 * x1 + (p - 3)) * invMod p (2 * y1) % p
        else (y2 + p - y1) * invMod p (x2 + p - x1) % p
      let x3 := (l * l + 2 * p - x1 - x2) % p
      some (x3, (l * (x1 + p - x3) + p - y1) % p)

def ecMul : Nat → Nat → Option (Nat × Nat) → Option (Nat × Nat) → Option (Nat × Nat)
  | 0, _, _, acc => acc
  | n + 1, k, q, acc => ecMul n (k / 2) (ecAdd q q) (if k % 2 = 1 then ecAdd acc q else acc)

/-- The big-endian number of a byte list. -/
def beNat (bs : Bytes) : Nat := leNat bs.reverse

/-- Whether (r, s) is a P-256 signature over the message under the key (qx, qy). -/
def ecdsaOk (qx qy r s : Nat) (msg : Bytes) : Bool :=
  let n := p256n
  if r = 0 || n ≤ r || s = 0 || n ≤ s || p256p ≤ qx || p256p ≤ qy
      || (qy * qy + 3 * qx) % p256p != (qx * qx * qx + p256b) % p256p then false
  else
    let w := invMod n s
    let u1 := beNat (sha256 msg) * w % n
    let u2 := r * w % n
    match ecAdd (ecMul 256 u1 (some p256g) none) (ecMul 256 u2 (some (qx, qy)) none) with
    | none => false
    | some (x, _) => x % n == r

end Sys2Proof.Machine
end

