-- ==== Sys2Proof/Config.lean ====
section
/-! DEFINITION. What an implementation fixes, and the free values: constants with no body, so that no proof sees a value.
Each is named in the assumption log. -/

namespace Sys2Proof.Config

/-- The 32-byte challenge of the n-th draw from the random generator (R40; log 1). -/
opaque challenge : Nat → BitVec 256

/-- The payload of a poison flit (R125; log 1). -/
opaque poison : Nat → BitVec 256

/-- A byte the K4 drives during a turnaround byte (R330; log 1). -/
opaque turnaround : Nat → BitVec 8

/-- The sample of a PATTERN stream: pattern, seed, frame, line, column (R341 names the pattern; log 16). -/
opaque patternCode : Nat → Nat → Nat → Nat → Nat → BitVec 16

/-- A unit-memory word whose byte layout the spec does not give, read through MEM_DATA (R363; log 18). -/
opaque memWord : Nat → BitVec 64

/-- Capacity in words of a framed queue whose size the spec does not give, by queue code (R160, R161; log 19). -/
opaque queueWords : Nat → Nat

/-- The Syvel head root public key, X and Y (R38; log 10). -/
opaque headRootX : Nat
opaque headRootY : Nat

/-- The Syvel firmware root public key, X and Y (R432; log 10). -/
opaque fwRootX : Nat
opaque fwRootY : Nat

/-- A result for which the spec states no value, by draw (log 1). -/
opaque unstated : Nat → BitVec 64

/-- A payload that the spec does not state (log 1). -/
opaque unstatedPay : Nat → BitVec 256

/-- What a V-unit reads in a column past a stripe border inside the image, beyond the halo its rows hold (R104, R214; log 28). -/
opaque outsideRow : Int → BitVec 16

/-- The lowest Field monitor reading while none has come with a command (R437; log 1). -/
opaque monitorMv : Nat → BitVec 16

/-- What a unit's window and gill descriptors, parameter table and V-unit tables hold after a write through MEM_DATA, whose byte
layout the spec does not give (R363; log 18). -/
opaque winsAfter : Nat → List (Nat × WinDesc)
opaque gillsAfter : Nat → List (Nat × GillDesc)
opaque paramsAfter : Nat → List (Nat × Param)

/-- The parameter table entry that a word of its memory belongs to (R363, R204; log 18). -/
opaque paramAt : Nat → Nat
opaque vtabAfter : Nat → List VTable

end Sys2Proof.Config
end

