-- ==== Sys2Proof/Machine/State.lean ====
section
/-! DEFINITION. The state of the K4 as plain data. Each field's comment gives its width, the rule that names it, its reset value
and its meaning. A numbered collection is a sparse table whose unwritten entries hold the reset value (log 4). -/

namespace Sys2Proof.Machine

/-- The assembly variants of Table 00-2. -/
inductive Variant where
  | k1108 | k2216 | k2416
  deriving DecidableEq, Repr

/-- What is fixed per part at manufacture or by its assembly (R2, R4, R90, R356). -/
structure Part where
  /-- W: 3 values | 00_scope R2 | Reset: DESIGN CHOICE K4-2416 (log 3) | assembly variant -/
  variant : Variant := .k2416
  /-- W: 1 bit | 00_scope R4 | Reset: DESIGN CHOICE grade -A (log 3) | harvest grade, true = -B -/
  gradeB : Bool := false
  /-- W: 768-bit map | 04 R90 | Reset: DESIGN CHOICE none fused (log 3) | fused sites, the zero bits of the fuse map -/
  fused : List Nat := []
  /-- W: 8 bits | 14 R356 | Reset: DESIGN CHOICE 0 (log 3) | STEP -/
  step : BitVec 8 := 0
  /-- W: 64 bits | 14 R356 | Reset: DESIGN CHOICE 1, never 0 (log 3) | DIE_ID -/
  dieId : BitVec 64 := 1
  /-- W: 32 bits | 14 R356, 16 R432 | Reset: DESIGN CHOICE 0 (log 3) | fused minimum SECVER -/
  minSecver : BitVec 32 := 0
  deriving DecidableEq, Repr

/-- Where the machine stands between POR and READY (R424, R435, R434, R417, R423, R85). -/
inductive Phase where
  | por | borHold | thermalHold | clockHold | startup | waitHost | halted | ready
  deriving DecidableEq, Repr

/-- Start-up, boot and reset cause (Table 16-6, Table 16-7). -/
structure Boot where
  /-- W: 8 values | 16 R435, R436 | Reset: por (the state under POR) | phase; READY is phase = ready -/
  phase : Phase := .por
  /-- W: 2 bits | 16 R431 | Reset: sampled at POR release; DESIGN CHOICE 0 before (log 4) | BOOT_SRC -/
  bootSrc : BitVec 2 := 0
  /-- W: 8 bits | 16 R437 | Reset: 0 | BOOT_STEP -/
  bootStep : BitVec 8 := 0
  /-- W: 8 bits | 16 R437 | Reset: 0 | BOOT_ERR -/
  bootErr : BitVec 8 := 0
  /-- W: 64 bits | 16 R437 | Reset: 0 | BOOT_ADDR -/
  bootAddr : BitVec 64 := 0
  /-- W: 21 bits | 16 R437 | Reset: 0 | BOOT_LEN -/
  bootLen : BitVec 21 := 0
  /-- W: 1 bit | 16 R437 | Reset: 0 | BOOT_GO pending -/
  bootGo : Bool := false
  /-- W: 4 bits | 16 R430, R437 | Reset: 0 POR | RESET_CAUSE -/
  resetCause : BitVec 4 := 0
  /-- W: 32 bits | 14 R356 | Reset: 0 | version of the running firmware -/
  fwVersion : BitVec 32 := 0
  /-- W: 32 bits | 14 R358, 16 R432 | Reset: DESIGN CHOICE 0, no image runs (log 4) | SECVER of the running image -/
  secver : BitVec 32 := 0
  /-- W: 1 bit | 16 R432, R435 | Reset: 0 | a verified firmware image is in the instruction memory -/
  fwLoaded : Bool := false
  /-- W: 1 bit | 16 R435, 15 R374 | Reset: 1 | the start-up in course runs HBM training -/
  trainHbm : Bool := true
  /-- W: stacks | 16 R435, 15 R374 | Reset: empty | stacks whose training in the start-up has not reported -/
  trainLeft : List Nat := []
  /-- W: 1 bit | 03 R80, 16 R430 | Reset: 1 | POWER_ON is owed as the first record after POR -/
  powerOnOwed : Bool := true
  deriving DecidableEq, Repr

/-- Device modes (Table 17-1, GLOBAL modes word of Table 14-5). -/
structure Modes where
  /-- W: 1 bit | 17 R439, 11 R286 | Reset: 0 PRODUCTION | check mode, true = HAZARD -/
  hazard : Bool := false
  /-- W: 1 bit | 17 R439, 02 R41 | Reset: 0 STRICT | head trust, true = OPEN -/
  openTrust : Bool := false
  /-- W: 1 bit | 17 R439, 02 R51 | Reset: 0 WARN | life policy, true = LIMIT -/
  limit : Bool := false
  /-- W: 1 bit | 11 R289 | Reset: 0 LOG | HAZ_POLICY, true = FAULT -/
  hazFault : Bool := false
  /-- W: 1 bit | 16 R415 | Reset: 0 FULL | commanded power mode, true = ECO -/
  eco : Bool := false
  deriving DecidableEq, Repr

/-- One Field's clock (R59-R63, R414, R392). -/
structure FieldClk where
  /-- W: 3 bits | 16 R414 | Reset: 6 | requested DVFS point -/
  requested : Nat := 6
  /-- W: 3 bits | 03 R59, R62 | Reset: 6 | point the Field PLL has reached -/
  point : Nat := 6
  /-- W: point | 03 R62 | Reset: none | target of the change in progress -/
  target : Option Nat := none
  /-- W: 1 bit | 03 R62 | Reset: 0 | the change in progress waits for VDD_ARR (step 1) -/
  raising : Bool := false
  /-- W: 1 bit | 03 R62 | Reset: 0 | the change in progress is in step 3, lowering VDD_ARR -/
  lowering : Bool := false
  /-- W: function | 13 R486 | Reset: 0xFFFF | function named by the DVFS_DONE of the change -/
  changeFn : BitVec 16 := 0xFFFF
  /-- W: 1 bit | 03 R85, 14 R359 | Reset: 0 | FIELD_DOWN, ACLK lost -/
  down : Bool := false
  /-- W: 16 bits | 15 R392, 05 R128 | Reset: 0 | FCYC; its low 6 bits are the slot counter -/
  fcyc : BitVec 16 := 0
  deriving DecidableEq, Repr

/-- Supply, Diapause and thermal state (R412-R423). -/
structure Supply where
  /-- W: 6 bits | 16 R412 | Reset: 60 | VID_CODE -/
  vid : Nat := 60
  /-- W: 6 bits | 16 R418 | Reset: 60 | the target before the latest VID change -/
  vidOld : Nat := 60
  /-- W: 1 bit | 16 R412, R418 | Reset: 0 | VID_SETTLE of the latest change is still running -/
  settling : Bool := false
  /-- W: 7 bits | 16 R437 | Reset: 10 | VID_SETTLE in microseconds -/
  vidSettle : Nat := 10
  /-- W: 1 pin | 16 R412, R437 | Reset: DESIGN CHOICE high (log 4) | VR_PGOOD -/
  vrPgood : Bool := true
  /-- W: 1 pin | 16 R418 | Reset: DESIGN CHOICE high (log 4) | PWARN_N is low -/
  pwarnLow : Bool := false
  /-- W: 16 bits | 16 R437 | Reset: 0 | VDD_ARR_MV, lowest monitor reading -/
  vddMv : Nat := 0
  /-- W: 1 bit | 16 R419 | Reset: 0 | Diapause in force -/
  diapause : Bool := false
  /-- W: 32 bits | 16 R421 | Reset: 0 | KCLK cycles of the Diapause in course -/
  dipNow : Nat := 0
  /-- W: 16 bits | 16 R421 | Reset: 0 | lowest reading of the Diapause in course, mV -/
  dipLow : Nat := 0
  /-- W: 32 bits | 16 R437 | Reset: 0 | DIP_COUNT -/
  dipCount : BitVec 32 := 0
  /-- W: 64 bits | 16 R437 | Reset: 0 | DIP_TIME -/
  dipTime : BitVec 64 := 0
  /-- W: 32 bits | 16 R437 | Reset: 0 | DIP_LONGEST -/
  dipLongest : BitVec 32 := 0
  /-- W: 16 bits | 14 R359, 16 R417 | Reset: 0 | TEMP, 1/256 degC signed -/
  temp : BitVec 16 := 0
  /-- W: 16 bits | 14 R359 | Reset: 0x8000 | TEMP_MAX -/
  tempMax : BitVec 16 := 0x8000
  /-- W: 1 bit | 16 R417, 14 R359 | Reset: 0 | THROTTLE; THERM_ALERT_N is low while set -/
  throttle : Bool := false
  /-- W: 1 bit | 16 R417 | Reset: 0 | shutdown committed; THERM_TRIP_N is low while set -/
  shutdown : Bool := false
  deriving DecidableEq, Repr

/-- The DTB discipline modes (R70). -/
inductive DtbMode where
  | free | host | ptp
  deriving DecidableEq, Repr

/-- A step accepted and not yet applied (R72). -/
structure DtbStepReq where
  tApply : BitVec 64
  delta : Int
  fn : BitVec 16
  pkt : Option Pkt
  deriving DecidableEq, Repr

/-- The Device Time Base and its discipline (R69-R75). -/
structure Dtb where
  /-- W: 64 bits | 03 R69 | Reset: 0 | master DTB, ns -/
  now : BitVec 64 := 0
  /-- W: 32 bits | 03 R69 | Reset: DESIGN CHOICE 0 (log 4) | fraction of the DTB in 2^-32 ns -/
  frac : Nat := 0
  /-- W: 64 bits | 03 R69, 14 R359 | Reset: 0x5_0000_0000 | base addend in 2^-32 ns -/
  base : Nat := 0x500000000
  /-- W: mode | 03 R70 | Reset: FREE | discipline mode -/
  mode : DtbMode := .free
  /-- W: 1 bit | 03 R71 | Reset: ALLOW | STEP_POLICY, true = SLEW_ONLY -/
  slewOnly : Bool := false
  /-- W: ppm | 03 R71 | Reset: 500 | SLEW_MAX -/
  slewMax : Nat := 500
  /-- W: ns | 03 R71 | Reset: 100000 | STEP_THRESHOLD -/
  threshold : Nat := 100000
  /-- W: signed, 2^-32 ns | 03 R71 | Reset: 0 | offset still to be removed by slewing -/
  slew : Int := 0
  /-- W: 1 bit | 03 R71 | Reset: 0 | an offset is being removed by slewing -/
  slewing : Bool := false
  /-- W: option | 03 R72 | Reset: none | step accepted and not applied -/
  pendingStep : Option DtbStepReq := none
  /-- W: 1 bit | 03 R70, 14 R359 | Reset: 0 | DTB_HOLDOVER -/
  holdover : Bool := false
  /-- W: 1 bit | 03 R85, 14 R359 | Reset: 0 | DTB_UNCERTAIN -/
  uncertain : Bool := false
  /-- W: 64 bits each | 03 R74, 15 R403 | Reset: 0 | shadows: 0,1 Port dies; 2,3 Ethernet ports -/
  shadows : Tab (BitVec 64) := []
  /-- W: port | 15 R404 | Reset: 0 | Ethernet port the servo takes its time from -/
  ptpPort : Nat := 0
  deriving DecidableEq, Repr

/-- A record or reply on its way to the Event Sequencer (Table 13-10, Table 13-5); `esnTo` is where the ESN of a reply is also
written (R454). For the order of cause and effect (R79), `seq` counts the records posted, `row` is the count at the last dispatch
before, and `after` gives by their counts the records that a reply follows. -/
structure Rec where
  isReply : Bool := false
  cspi : Bool := false
  urgent : Bool := false
  typ : Nat := 0
  code : Nat := 0
  source : Nat := 0
  fn : BitVec 16 := 0xFFFF
  arg0 : BitVec 32 := 0
  arg1 : BitVec 64 := 0
  ext : List (BitVec 8) := []
  cseq : BitVec 32 := 0
  status : BitVec 16 := 0
  result : List (BitVec 32) := []
  esn : BitVec 48 := 0
  dtb : BitVec 64 := 0
  esnTo : Option (BitVec 64) := none
  seq : Nat := 0
  row : Nat := 0
  after : Nat × Nat := (0, 0)
  deriving DecidableEq, Repr

/-- One input of the Event Sequencer (R78). -/
structure SeqInput where
  /-- W: 8 records | 03 R78 | Reset: empty | input DCQ, oldest first -/
  dcq : List Rec := []
  /-- W: 16 records | 03 R78 | Reset: empty | the source's own buffer -/
  buf : List Rec := []
  /-- W: 32 bits | 03 R78 | Reset: 0 | records lost and not yet reported -/
  lost : Nat := 0
  deriving DecidableEq, Repr

/-- The Event Sequencer and the log (R76-R80, R349, R377). -/
structure Seqr where
  /-- W: 48 bits | 03 R76, R80 | Reset: 0 | last ESN issued, ESN_LAST -/
  esn : BitVec 48 := 0
  /-- W: count | MODEL'S OWN: records posted so far, for R79 (log 38) | Reset: DESIGN CHOICE 0 (log 38) -/
  posts : Nat := 0
  /-- W: count | MODEL'S OWN: records posted before the last dispatch, for R79 (log 38) | Reset: DESIGN CHOICE 0 (log 38) -/
  row : Nat := 0
  /-- W: 28 inputs | 03 R77 | Reset: empty | the inputs -/
  inputs : Tab SeqInput := []
  /-- W: list | 13 R345, 06 R163 | Reset: empty | numbered records not yet distributed -/
  logQ : List Rec := []
  /-- W: 32 bits | 13 R349 | Reset: 0 | LOG_WIN_PROD -/
  winProd : Nat := 0
  /-- W: 4096 x 16 bytes | 13 R349 | Reset: all ones | log window units -/
  window : Tab (BitVec 128) := []
  /-- W: 64 bits | 15 R377 | Reset: 0 | LL_PROD, units written to the long log -/
  llProd : Nat := 0
  deriving DecidableEq, Repr
/-- One requester of an arbiter (R150-R155). -/
structure Requester where
  present : Bool := false
  wait : Nat := 0
  losses : Nat := 0
  backoff : Nat := 0
  forced : Bool := false
  deriving DecidableEq, Repr

/-- One arbiter instance (Table 06-1). -/
structure Arbiter where
  /-- W: per input | 06 R152, R153 | Reset: idle | requesters by input number -/
  reqs : Tab Requester := []
  /-- W: input | 06 R150 | Reset: none | input holding the resource -/
  holder : Option Nat := none
  /-- W: option | 06 R154 | Reset: none | the requester whose withdrawal left the dead cycle that is running -/
  dead : Option Nat := none
  deriving DecidableEq, Repr

/-- A length-prefix item (R161). -/
structure LpItem where
  producer : Nat
  len : Nat
  slot : Option (BitVec 32)
  body : List (BitVec 32)
  deriving DecidableEq, Repr

/-- A framed queue (R158-R167). -/
structure FQueue where
  /-- W: words | 06 R158 | Reset: empty | committed items, oldest first (commit mode) -/
  items : List (List (BitVec 64)) := []
  /-- W: words | 06 R158 | Reset: empty | words of the open item -/
  opened : List (BitVec 64) := []
  /-- W: 1 bit | 06 R158 | Reset: 0 | an item is open -/
  isOpen : Bool := false
  /-- W: 1 bit | 06 R166 | Reset: 0 | the open item is poisoned by a flush -/
  poisoned : Bool := false
  /-- W: 1 bit | 06 R160 | Reset: 0 | the open item was rewound as TOO_LONG -/
  tooLong : Bool := false
  /-- W: items | 06 R161 | Reset: empty | reserved items in reservation order (length-prefix mode) -/
  lp : List LpItem := []
  /-- W: producers | 06 R167 | Reset: empty | producers whose released reservation is poisoned -/
  lpPoisoned : List Nat := []
  /-- W: 8 bits | 06 R165 | Reset: 0 | FLUSH_EPOCH -/
  flushEpoch : BitVec 8 := 0
  /-- W: 32 bits | 06 R159 | Reset: DESIGN CHOICE 0 (log 4) | CRC_DROP -/
  crcDrop : Nat := 0
  /-- W: code | 06 R160, R166 | Reset: 0 | what the last commit or slot write returned: 0 done, 1 FLUSHED, 2 TOO_LONG, 3 wait -/
  lastReturn : Nat := 0
  /-- W: words | 06 R164 | Reset: DESIGN CHOICE empty (log 4) | what the last read returned -/
  lastRead : List (BitVec 64) := []
  deriving DecidableEq, Repr

/-- A command packet fetched or received (Table 13-4). -/
structure Packet where
  bytes : List (BitVec 8)
  fn : Nat
  cspi : Bool
  deriving DecidableEq, Repr

/-- A dispatched packet in flight (R337, R338): whether it has finished, the reply it then waits to post behind earlier
packets of its interpreter, whether that reply is posted and not yet numbered, and the count of records posted before its dispatch (R79). -/
structure InFlight where
  cseq : BitVec 32
  opcode : Nat
  cspi : Bool
  fence : Bool
  done : Bool := false
  reply : Option Rec := none
  posted : Bool := false
  at_ : Nat := 0
  deriving DecidableEq, Repr

/-- A function's log ring (R349). -/
structure LogRing where
  dest : BitVec 64
  order : Nat
  filter : Nat
  deriving DecidableEq, Repr

/-- A device function: its ring block and its permissions (Table 13-2, R335). -/
structure Fn where
  /-- W: 64 bits | 13 R325 | Reset: 0 | CMD_BASE -/
  cmdBase : BitVec 64 := 0
  /-- W: 4 bits | 13 R325 | Reset: 4 | CMD_ORDER -/
  cmdOrder : Nat := 4
  /-- W: 12 bits | 13 R325 | Reset: 0 | CMD_TAIL -/
  cmdTail : Nat := 0
  /-- W: 12 bits | 13 R325 | Reset: 0 | CMD_HEAD -/
  cmdHead : Nat := 0
  /-- W: 1 bit | 13 R325 | Reset: 0 | ENABLE -/
  enable : Bool := false
  /-- W: 1 bit | 13 R325, R328 | Reset: 0 | RESET in progress -/
  reset : Bool := false
  /-- W: 1 bit | 13 R328, 12 R318 | Reset: 0 | the ring reset in progress is part of an FLR -/
  flr : Bool := false
  /-- W: 1 bit | 13 R325, R335 | Reset: 0; the PF reads 1 | EXPERT grant -/
  expert : Bool := false
  /-- W: 64 bits | 13 R325 | Reset: 0 | RPL_BASE -/
  rplBase : BitVec 64 := 0
  /-- W: 4 bits | 13 R325 | Reset: 4 | RPL_ORDER -/
  rplOrder : Nat := 4
  /-- W: 12 bits | 13 R325 | Reset: 0 | RPL_PROD -/
  rplProd : Nat := 0
  /-- W: 12 bits | 13 R325 | Reset: 0 | RPL_CONS -/
  rplCons : Nat := 0
  /-- W: 1 bit | 13 R325 | Reset: 0 | FETCH_ERR -/
  fetchErr : Bool := false
  /-- W: 1 bit | 13 R325 | Reset: 0 | BAD_DOORBELL -/
  badDoorbell : Bool := false
  /-- W: 1 bit | 13 R325 | Reset: 0 | WB_ERR -/
  wbErr : Bool := false
  /-- W: 64 bits | 13 R325 | Reset: 0 | RPL_WB -/
  rplWb : BitVec 64 := 0
  /-- W: 16 bits | 13 R325 | Reset: 0 | COAL_US -/
  coalUs : Nat := 0
  /-- W: 8 bits | 13 R325 | Reset: 1 | COAL_N -/
  coalN : Nat := 1
  /-- W: 32 bits | 13 R325 | Reset: 0 | POOL_DOORBELL as last written -/
  poolDoorbell : BitVec 32 := 0
  /-- W: 16 bits | 13 R325 | Reset: 0 | LOG_CONS -/
  logCons : Nat := 0
  /-- W: 16 bits | 13 R325 | Reset: 0 | LOG_PROD -/
  logProd : Nat := 0
  /-- W: 32 bits | 13 R325 | Reset: 0 | LOG_DROP -/
  logDrop : BitVec 32 := 0
  /-- W: 32 bits | 13 R349 | Reset: 0 | drops since the last LOG_GAP -/
  gapCount : Nat := 0
  /-- W: option | 13 R349 | Reset: none | log ring set up by LOG_RING -/
  logRing : Option LogRing := none
  /-- W: counts | 13 R324 | Reset: 0 each | MSI-X messages raised, by vector -/
  irqs : Tab Nat := []
  /-- W: list | 13 R326 | Reset: empty | packets fetched, not yet dispatched -/
  fetched : List Packet := []
  /-- W: list | 13 R337 | Reset: empty | packets dispatched, not completed -/
  inFlight : List InFlight := []
  /-- W: 64 replies | 13 R327 | Reset: empty | reply queue -/
  replyQ : List Rec := []
  /-- W: 8 bits | 06 R165 | Reset: 0 | FLUSH_EPOCH of the reply queue -/
  replyEpoch : BitVec 8 := 0
  /-- W: count | 13 R336 | Reset: 0 | replies written and not signalled -/
  unsigReplies : Nat := 0
  /-- W: count | 13 R324 | Reset: 0 | log records written and not signalled -/
  unsigLogs : Nat := 0
  /-- W: count | 13 R324 | Reset: 0 | completion records written and not signalled -/
  unsigCpls : Nat := 0
  deriving DecidableEq, Repr

/-- The Control SPI port (R330-R332). -/
structure Cspi where
  /-- W: 4 packets | 13 R331 | Reset: empty | packet queue -/
  pktQ : List Packet := []
  /-- W: list | 13 R331 | Reset: empty | CSPI packets dispatched, not completed -/
  inFlight : List InFlight := []
  /-- W: 16 replies | 13 R331 | Reset: empty | reply queue -/
  replyQ : List Rec := []
  /-- W: 1 bit | 13 R330 | Reset: 0 | PKT_ERR -/
  pktErr : Bool := false
  /-- W: 4096 bytes | 13 R332 | Reset: DESIGN CHOICE empty, zeros (log 4) | result buffer -/
  result : List (BitVec 8) := []
  /-- W: units | 13 R330 | Reset: 0 | log units the CSPI reader has read -/
  logRead : Nat := 0
  /-- W: bytes | 13 R330 | Reset: DESIGN CHOICE empty (log 4) | bytes last driven on MISO -/
  miso : List (BitVec 8) := []
  /-- W: 1 bit | 13 R331 | Reset: 0 | which of the PF ring and the CSPI queue input 0 presents next -/
  alternate : Bool := false
  deriving DecidableEq, Repr

/-- A queued acquirer of a lock (R367). -/
structure Waiter where
  code : BitVec 10
  reply : Option Pkt
  deriving DecidableEq, Repr

/-- A hardware lock (Table 14-9). -/
structure Lock where
  /-- W: 10 bits | 14 R366 | Reset: 0 | HOLDER -/
  holder : BitVec 10 := 0
  /-- W: 16 bits | 14 R365 | Reset: 0 | EPOCH -/
  epoch : BitVec 16 := 0
  /-- W: 1 bit | 14 R365 | Reset: 0 | OWNER_LOST -/
  ownerLost : Bool := false
  /-- W: 8 acquirers | 14 R367 | Reset: empty | waiters, oldest first -/
  waiters : List Waiter := []
  deriving DecidableEq, Repr

/-- Global registers (Table 14-5) that are kept nowhere else. -/
structure GReg where
  /-- W: 1 bit | 14 R359 | Reset: 0 | GLOBAL_EVENTS.CLK_EVENT -/
  clkEvent : Bool := false
  /-- W: 1 bit | 14 R359 | Reset: 0 | GLOBAL_EVENTS.DIP -/
  dip : Bool := false
  /-- W: 1 bit | 14 R359 | Reset: 0 | GLOBAL_EVENTS.THERMAL -/
  thermal : Bool := false
  /-- W: 1 bit | 14 R359 | Reset: 0 | GLOBAL_EVENTS.UE -/
  ue : Bool := false
  /-- W: 1 bit | 14 R359 | Reset: 0 | GLOBAL_EVENTS.HAZARD -/
  hazard : Bool := false
  /-- W: 1 bit | 14 R359 | Reset: 0 | GLOBAL_EVENTS.LOCK_LOST -/
  lockLost : Bool := false
  /-- W: 32 bits | 14 R359 | Reset: 0 | BAD_ACCESS -/
  badAccess : BitVec 32 := 0
  /-- W: 5 bits | 14 R359 | Reset: 20 | TAG_TIMEOUT -/
  tagTimeout : Nat := 20
  /-- W: 14 bits | 14 R359 | Reset: 100 | ECLOSE_TIMEOUT -/
  ecloseTimeout : Nat := 100
  /-- W: 10 x 16 bits | 06 R156, 14 R359 | Reset: Table 14-5 | WAIT_LIMIT registers written: 0 command ring, 1 and 2 pools of
  Port dies A and B, 3 broadcast, 4 control plane, 5 service ports, 6-9 HBM stacks; an unwritten one holds its default -/
  wl : Tab Nat := []
  /-- W: 64 bits | 14 R359 | Reset: 0 | LOCK_LOST_MASK -/
  lockLostMask : BitVec 64 := 0
  /-- W: 32 bits per path | 14 R352 | Reset: DESIGN CHOICE 0 (log 4) | high-word shadows by access path: (path, offset, word) -/
  hiShadow : List (Nat × Nat × BitVec 32) := []
  /-- W: 64 bits | 14 R354 | Reset: DESIGN CHOICE 0 (log 4) | value the last register read returned -/
  lastRead : BitVec 64 := 0
  deriving DecidableEq, Repr

/-- The head states of Table 02-4, in the code order of R342. -/
inductive HeadState where
  | absent | powering | ident | auth | ready | untrusted | fault
  deriving DecidableEq, Repr

/-- Frame-sync settings of a head (R35). -/
structure Fsync where
  on : Bool := false
  t0 : Nat := 0
  period : Nat := 0
  width : Nat := 0
  deriving DecidableEq, Repr

/-- An authentication in course (R40): its challenge, whether it is a re-authentication (R42), and the command waiting
for it. -/
structure AuthRun where
  challenge : Bytes
  again : Bool
  pkt : Option Pkt
  deriving DecidableEq, Repr

/-- A ledger commit in course (R45, R373). -/
structure Commit where
  copyB : Bool
  seq : Nat
  data : Bytes
  retried : Bool := false
  deriving DecidableEq, Repr

/-- A transfer queued on a head's I3C bus (R22): the bus address of its target (R34), first register, data bytes of a write or the
length of a read, the dynamic address that a SETDASA assigns, whether it is an unsplit raw transfer, and whether it is an
actuator or set-point write of a frame. -/
structure I3cXfer where
  target : Nat := 0
  reg : Nat := 0
  data : Bytes := []
  rlen : Nat := 0
  setdasa : Option Nat := none
  raw : Bool := false
  decision : Bool := false
  deriving DecidableEq, Repr

/-- A focus write that waits for its trigger line (R55): the stream and frame it was decided in, AF-6's step, and the next frame
of the stream once one has begun. -/
structure FocusHeld where
  stream : Nat
  fseq : BitVec 16
  step : Int
  next : Option (BitVec 16) := none
  deriving DecidableEq, Repr

/-- One Head Link and the head behind it (chapter 02). -/
structure Head where
  /-- W: 1 pin | 02 R27 | Reset: 0, not recognised | HEAD_n_PRES_N recognised low -/
  present : Bool := false
  /-- W: 1 pin | 02 R27, R487 | Reset: 0 | HEAD_n_PWR_EN -/
  pwrEn : Bool := false
  /-- W: 1 pin | 02 R35, R487 | Reset: 0 | HEAD_n_FSYNC -/
  fsyncPin : Bool := false
  /-- W: 3 bits | 02 Table 02-4, 14 R364 | Reset: 0 ABSENT | HEAD_STATE -/
  state : HeadState := .absent
  /-- W: 8 bits | 13 R342, 14 R364 | Reset: 0 | CAUSE -/
  cause : Nat := 0
  /-- W: option | 02 R37 | Reset: none | parameters of the last HEAD_ATTACH -/
  params : Option AttachParams := none
  /-- W: function | 02 R37 | Reset: 0 | function that issued the kept HEAD_ATTACH -/
  paramsFn : FnId := 0
  /-- W: 1 bit | 02 R37, 13 R332 | Reset: 0 | the kept HEAD_ATTACH came over CSPI -/
  paramsCspi : Bool := false
  /-- W: 1 bit | 02 R37 | Reset: 0 | AUTO_ATTACH -/
  autoAttach : Bool := false
  /-- W: option | 02 R36 | Reset: none | HEAD_ATTACH command waiting for the attach; none for an automatic one -/
  attachPkt : Option Pkt := none
  /-- W: 1 bit | 02 R37 | Reset: 0 | the attach in course is an automatic one -/
  autoRun : Bool := false
  /-- W: option | 13 R341 | Reset: none | HEAD_DETACH in course -/
  detach : Option Pkt := none
  /-- W: function | 13 R335 | Reset: DESIGN CHOICE 0, the PF (log 4) | function HEAD_ASSIGN gave the head to -/
  fn : FnId := 0
  /-- W: 640 bytes | 02 R38 | Reset: DESIGN CHOICE none read (log 4) | passport as read at attach -/
  passport : Bytes := []
  /-- W: 32 bits | 02 R45, R46 | Reset: 0 | last committed sequence -/
  lastSeq : Nat := 0
  /-- W: 32 bits | 02 R46 | Reset: 0 | WEAR of the ledger in force -/
  wear : Nat := 0
  /-- W: 8 bits | 02 Table 02-8 | Reset: 0xF8, no flag seen | LFLAGS of the ledger in force -/
  lflags : BitVec 8 := 0xF8
  /-- W: 16 bits signed | 02 Table 02-8 | Reset: DESIGN CHOICE -32768 (log 4) | highest head die temperature seen -/
  maxTemp : Int := -32768
  /-- W: 1 bit | 02 R51 | Reset: 0 | WEAR_WARN logged -/
  warnSeen : Bool := false
  /-- W: 1 bit | 02 R51 | Reset: 0 | WEAR_LIMIT logged, or LIFE_SEEN recovered -/
  lifeSeen : Bool := false
  /-- W: 1 bit | 02 R51 | Reset: 0 | the life policy applies (from the frame start after the crossing) -/
  lifeInForce : Bool := false
  /-- W: 1 bit | 02 R43 | Reset: 0 | UNTRUSTED_USE is owed to the next commit -/
  untrustedUse : Bool := false
  /-- W: 1 bit | 02 R49 | Reset: 0 | NVM_EXHAUSTED -/
  exhausted : Bool := false
  /-- W: 1 bit | 02 R49 | Reset: 0 | NVM_BUDGET logged, the periodic interval is 60 minutes -/
  budget : Bool := false
  /-- W: 16 bits signed, 1/256 degC | 02 R44 | Reset: DESIGN CHOICE 0 (log 4) | last head die temperature -/
  temp : Int := 0
  /-- W: count | 02 R44 | Reset: 0 | consecutive failed temperature reads -/
  tempFails : Nat := 0
  /-- W: seconds | 02 R45 | Reset: 0 | streaming seconds since the last commit -/
  sinceCommit : Nat := 0
  /-- W: 1 bit | 02 R45, R50 | Reset: 0 | a commit is due -/
  commitDue : Bool := false
  /-- W: option | 02 R45 | Reset: none | commit in course -/
  commit : Option Commit := none
  /-- W: seconds | 02 R42 | Reset: 0 | streaming seconds since the last authentication -/
  sinceAuth : Nat := 0
  /-- W: option | 02 R40 | Reset: none | authentication in course -/
  auth : Option AuthRun := none
  /-- W: 1 bit | 02 R42 | Reset: 0 | a failed re-authentication takes effect at the next frame start -/
  authFailed : Bool := false
  /-- W: 1 bit | 17 R442, 02 R41 | Reset: 0 | head trust in force at this head, true = OPEN -/
  openTrust : Bool := false
  /-- W: 1 bit | 17 R443, 02 R51 | Reset: 0 | life policy in force at this head, true = LIMIT -/
  limit : Bool := false
  /-- W: settings | 02 R35, R487 | Reset: off | frame-sync settings in force -/
  fsync : Fsync := {}
  /-- W: option | 02 R35 | Reset: none | frame-sync settings that wait for a pulse at least 1 us away -/
  fsyncNext : Option (Fsync × Nat) := none
  /-- W: ns | 02 R35, 03 R75 | Reset: 0 | DTB time from which the next pulse is sought -/
  fsyncFrom : Nat := 0
  /-- W: binary16 | 02 R52 | Reset: DESIGN CHOICE 0x3C00 (log 4) | analog gain latched for the frame -/
  gain : Nat := 0x3C00
  /-- W: binary16 | 02 R52 | Reset: none set | gain set by HEAD_GAIN -/
  hostGain : Option Nat := none
  /-- W: 24 bits | 02 R57 | Reset: DESIGN CHOICE 0 (log 4) | exposure lines last written, x -/
  x : Nat := 0
  /-- W: binary32 | 02 R57 | Reset: DESIGN CHOICE 1.0 (log 4) | gain last written, g -/
  g : Nat := 0x3F800000
  /-- W: 24 bits | 02 R57 | Reset: DESIGN CHOICE 0 (log 4) | actuator position last written -/
  actPos : Int := 0
  /-- W: 1 bit | 02 R55 | Reset: RELATIVE | actuator mode, true = ABSOLUTE -/
  actAbs : Bool := false
  /-- W: 13 bits | 02 R55 | Reset: 0 | trigger line -/
  actTrigger : Nat := 0
  /-- W: binary16 | 02 R55 | Reset: DESIGN CHOICE 0 (log 4) | ACT_CONF_MIN -/
  actConfMin : Nat := 0
  /-- W: 32 bits signed | 02 R55 | Reset: DESIGN CHOICE -2^31 (log 4) | ACT_MIN -/
  actMin : Int := -2147483648
  /-- W: 32 bits signed | 02 R55 | Reset: DESIGN CHOICE 2^31 - 1 (log 4) | ACT_MAX -/
  actMax : Int := 2147483647
  /-- W: binary16 | 09 Table 09-4 | Reset: DESIGN CHOICE 0 (log 4) | EV last applied -/
  evLast : Nat := 0
  /-- W: option | 09 R245, 02 R56 | Reset: none | AE-T result posted and not written: stream, FSEQ, binary16 EV -/
  evPosted : Option (Nat × BitVec 16 × Nat) := none
  /-- W: option | 02 R55 | Reset: none | focus write waiting for its trigger line -/
  focusHeld : Option FocusHeld := none
  /-- W: 16 bits | 09 R240 | Reset: DESIGN CHOICE 0 (log 4) | lens id -/
  lens : BitVec 16 := 0
  /-- W: list | 02 R22 | Reset: empty | I3C transfers, the first in flight -/
  i3c : List I3cXfer := []
  /-- W: 1 bit | 02 R50 | Reset: 0 | the ledger write in flight is held by SCL -/
  sclHeld : Bool := false
  /-- W: 1 bit | 02 R32 | Reset: 0 | the rest of the HS transmission is discarded -/
  hsDiscard : Bool := false
  /-- W: 32 bits | 14 R364 | Reset: 0 | CRC_ERR -/
  crcErr : BitVec 32 := 0
  /-- W: 32 bits | 14 R364 | Reset: 0 | HDR_ERR -/
  hdrErr : BitVec 32 := 0
  /-- W: 32 bits | 14 R364, 02 R29 | Reset: 0 | UNKNOWN_DT -/
  unknownDt : BitVec 32 := 0
  /-- W: 32 bits | 14 R364 | Reset: 0 | OUTSIDE_FRAME -/
  outsideFrame : BitVec 32 := 0
  /-- W: 32 bits | 14 R364 | Reset: 0 | FRAMES_DROPPED -/
  framesDropped : BitVec 32 := 0
  deriving DecidableEq, Repr

/-- One entry of the pending store (R47, R373). -/
structure Pending where
  id : BitVec 128
  wear : Nat := 0
  opened : Option (Bool × Nat) := none
  forced : Bool := false
  head : Nat := 16
  deriving DecidableEq, Repr

/-- A received line on its way to the Edge engine (R15, R30, R32): identity, stamp, 16-bit codes, and line flags
(bit 0 CRC_ERR, 1 HDR_ERR, 2 LINE_LEN, 3 flagged by a Yallek peer, 4 binary16 samples of a Yallek peer, 5 stamped before a
DTB step); supplied marks a line put in place of a missing one. -/
structure Line where
  fseq : BitVec 16 := 0
  line : Nat := 0
  stamp : BitVec 64 := 0
  codes : List (BitVec 16) := []
  flags : Nat := 0
  supplied : Bool := false
  deriving DecidableEq, Repr

/-- One item of a stream buffer (R146, R147). -/
inductive BufItem where
  | line (l : Line)
  | eof (fseq : BitVec 16)
  deriving DecidableEq, Repr

/-- The open frame of a stream at its Head Link (R31-R33); `old` marks a line in progress that was stamped before a DTB step. -/
structure LinkFrame where
  fseq : BitVec 16
  last : Option Nat := none
  cur : Option (Nat × BitVec 64) := none
  old : Bool := false
  hdrFrame : Bool := false
  repaired : Bool := false
  prevStamp : Option (BitVec 64) := none
  best : Option Nat := none
  lines : Nat := 0
  dropping : Bool := false
  deriving DecidableEq, Repr

/-- What a frame record will say of one frame (R347, Table 13-12): `emb` holds its embedded-data packets in order (R29), `marks` the
lines that carry a Head Link flag (Table 06-4),
`stepped` marks a DTB step after one of its lines was stamped (R75), `focused` that AF-6's step of the frame has been formed (R56), `tagOut` that its end-of-frame tag has left the region. -/
structure FrameInfo where
  fseq : BitVec 16
  cause : Nat := 0
  flags : Nat := 0
  lines : Nat := 0
  variant : Nat := 0
  dec : Nat := 0
  stamp : BitVec 64 := 0
  focus : BitVec 16 := 0
  afConf : Nat := 0
  ev : Nat := 0
  scene : Nat := 0
  gain : Nat := 0
  nwear : Nat := 0
  evRaw : Nat := 0
  linked : List Nat := []
  emb : List Bytes := []
  marks : List Nat := []
  stepped : Bool := false
  focused : Bool := false
  tagOut : Bool := false
  out : Bool := false
  written : Bool := false
  esn : BitVec 48 := 0
  deriving DecidableEq, Repr

/-- An output line at or past the Tail engine (R17, R171, R193). `untimed` marks a line that R453 does not time: one supplied for
a missing line, or one that a DTB step came after; `drop` marks the end of a frame cut by R174. -/
structure OutLine where
  fseq : BitVec 16 := 0
  line : Nat := 0
  stamp : BitVec 64 := 0
  vals : List (BitVec 16) := []
  flagged : Bool := false
  untimed : Bool := false
  eof : Bool := false
  dataErr : Bool := false
  drop : Bool := false
  deriving DecidableEq, Repr

/-- The open host buffer of a stream (R170, R171). -/
structure OpenBuf where
  desc : PoolDesc
  fseq : BitVec 16
  first : Nat
  lines : Nat
  bytes : Nat
  stamp : BitVec 64
  flags : Nat
  ticket : Nat
  deriving DecidableEq, Repr

/-- A line of a stream's HBM output ring (R379): identity, stamp, address, bytes and FLAGS of Table 06-4, or the end of its frame. -/
structure RingLine where
  fseq : BitVec 16
  line : Nat := 0
  stamp : BitVec 64 := 0
  addr : Nat := 0
  bytes : Nat := 0
  flags : Nat := 0
  eof : Bool := false
  drop : Bool := false
  deriving DecidableEq, Repr

/-- The per-frame values an Edge engine latches (R52-R54, R203), its gill of input rows by line and raw channel (R116), the
lines received, and the next output row. -/
structure EdgeFrame where
  fseq : BitVec 16
  black : Nat := 0
  nwear : Nat := 0
  ngain : Nat := 0
  trim : Int := 0
  rows : List (Nat × List (List Nat)) := []
  got : Nat := 0
  next : Nat := 0
  deriving DecidableEq, Repr

/-- A SCHEDULED stream's scene settings (R248). -/
structure Scene where
  model : Nat := 255
  hold : Nat := 0
  confMin : Nat := 0
  table : List (BitVec 8) := []
  deriving DecidableEq, Repr

/-- The source of a REPLAY stream (R378). -/
structure Replay where
  host : Bool
  loop : Bool
  frames : Nat
  frameBytes : Nat
  src : Nat
  deriving DecidableEq, Repr

/-- A stream (chapters 01, 02, 05, 06, 09, 12, 15, 18). -/
structure Strm where
  /-- W: option | 12 R303 | Reset: none | OWNER of the context the stream is bound to -/
  ctx : Option Nat := none
  /-- W: 4 bits | 12 R303 | Reset: 0 | stream slot of the image -/
  slotIx : Nat := 0
  /-- W: 3 values | 12 R303, 17 R439 | Reset: 0 LIVE | source mode: 0 LIVE, 1 REPLAY, 2 PATTERN -/
  source : Nat := 0
  /-- W: 3 values | 12 R303 | Reset: 0 PCIe | output route: 0 PCIe, 1 ST 2110, 2 Yallek -/
  route : Nat := 0
  /-- W: 8 bits | 13 R341 | Reset: 0 | route index -/
  routeIx : Nat := 0
  /-- W: 1 bit | 14 R364 | Reset: 0 | STARTED -/
  started : Bool := false
  /-- W: 1 bit | 14 R364 | Reset: 0 | SCHEDULED -/
  scheduled : Bool := false
  /-- W: 1 bit | 14 R364 | Reset: 0 | STALL_POLICY -/
  stall : Bool := false
  /-- W: 4 bits | 06 R168 | Reset: 4 | OQ_LINES -/
  oqLines : Nat := 4
  /-- W: 8 bits | 06 R169 | Reset: 0xFF none | pool -/
  pool : Nat := 255
  /-- W: 4 bits | 13 R343 | Reset: 8 | drop threshold D -/
  dropD : Nat := 8
  /-- W: option | 13 R341 | Reset: none | start waiting: none immediate, or the DTB value to start at -/
  startAt : Option (BitVec 64) := none
  /-- W: 1 bit | 12 R313 | Reset: 0 | admitting frames (set at the frame start that follows the start) -/
  admitting : Bool := false
  /-- W: 1 bit | 12 R313 | Reset: 0 | a stop takes effect at the next frame start -/
  stopNext : Bool := false
  /-- W: 1 bit | 12 R313 | Reset: 0 | an IMMEDIATE stop takes effect after the line in progress -/
  stopNow : Bool := false
  /-- W: 16 bits | 02 R31 | Reset: 0 | FSEQ -/
  fseq : BitVec 16 := 0
  /-- W: 16 bits | 02 R31 | Reset: 0 | fn_last -/
  fnLast : Nat := 0
  /-- W: 1 bit | 02 R31 | Reset: 0 | a frame start has come since attach -/
  fnSeen : Bool := false
  /-- W: option | 02 R31 | Reset: none | frame open at the Head Link -/
  frame : Option LinkFrame := none
  /-- W: 1 bit | 02 R32 | Reset: 0 | a header error since the last line received -/
  hdrSince : Bool := false
  /-- W: 64 bits | 03 R73 | Reset: none | the stream's last line stamp since the last DTB step -/
  stampLast : Option (BitVec 64) := none
  /-- W: ns | 02 R33 | Reset: 250000 | T_meas -/
  tMeas : Nat := 250000
  /-- W: line and bytes | 15 R399 | Reset: none | line being received over Yallek: the line, and its bytes so far -/
  rxLine : Option (Line × Bytes) := none
  /-- W: 8 lines | 05 R146 | Reset: empty | stream buffer, untaken items, oldest first -/
  buf : List BufItem := []
  /-- W: lines | 02 R32 | Reset: empty | missing lines still to be supplied -/
  missing : List BufItem := []
  /-- W: 4 bits | 14 R364 | Reset: 0 | BUF_PEAK -/
  bufPeak : Nat := 0
  /-- W: items | 04 R113 | Reset: empty | items taken by the P-unit, waiting at the Edge engine -/
  atEdge : List BufItem := []
  /-- W: option | 04 R115 | Reset: none | frame in progress at the Edge engine -/
  edge : Option EdgeFrame := none
  /-- W: option | 12 R312 | Reset: none | admitted frame of a SCHEDULED stream whose tag has not left the Tail engine -/
  held : Option (BitVec 16) := none
  /-- W: list | 13 R347 | Reset: empty | frames whose record is not written, and the last four written -/
  frames : List FrameInfo := []
  /-- W: chunks | 04 R117, R118 | Reset: empty | Tail engine's received flits: stripe, FSEQ8, line, chan, chunk, payload -/
  tailRows : List (Nat × Nat × Nat × Nat × Nat × BitVec 256) := []
  /-- W: stripes | 04 R119, 01 R17 | Reset: empty | end-of-line and end-of-frame tags seen: stripe, FSEQ8, line or 8191 -/
  tailTags : List (Nat × Nat × Nat) := []
  /-- W: 13 bits | 01 R17 | Reset: 0 | next line the Tail engine releases -/
  tailNext : Nat := 0
  /-- W: option | 01 R24 | Reset: none | frame of a SCHEDULED stream whose tag has left the Tail engine, not yet latched -/
  tailDone : Option (BitVec 16) := none
  /-- W: lines | 01 R15 | Reset: empty | identity of the lines in the region: FSEQ, line, stamp, carries a flag, is not timed (R453) -/
  lineTags : List (BitVec 16 × Nat × BitVec 64 × Bool × Bool) := []
  /-- W: lines | 06 R173 | Reset: empty | released lines on the way to the output queue -/
  toOut : List OutLine := []
  /-- W: lines | 04 R113 | Reset: empty | released lines in the output gate between Fields 3 and 1, on an assembly without Port die B -/
  atGate : List OutLine := []
  /-- W: flits | 04 R113 | Reset: empty | payloads of the line being received at the outbound P-unit from the Mycelium -/
  portRow : List (BitVec 256) := []
  /-- W: 8 lines and 24 skid entries | 06 R168 | Reset: empty | output queue -/
  oq : List OutLine := []
  /-- W: flits | 05 R144, 06 R168 | Reset: 0 | flits of the items on the path that have arrived and are not yet in the queue -/
  oqIn : Nat := 0
  /-- W: 24 flits | 05 R144, 06 R168 | Reset: 0 | of these, the flits that lie in the skid -/
  skid : Nat := 0
  /-- W: option | 06 R174 | Reset: none | frame whose output is being discarded -/
  outDrop : Option (BitVec 16) := none
  /-- W: option | 06 R170 | Reset: none | open host buffer -/
  openBuf : Option OpenBuf := none
  /-- W: option | 06 R170 | Reset: none | descriptor granted and not opened -/
  granted : Option PoolDesc := none
  /-- W: 32 bits | 14 R364, 06 R174 | Reset: 0 | LINES_DROPPED -/
  linesDropped : BitVec 32 := 0
  /-- W: 8 bits | 14 R364, 06 R165 | Reset: 0 | FLUSH_EPOCH of the output queue -/
  flushEpoch : BitVec 8 := 0
  /-- W: 32 bits | 14 R364 | Reset: 0 | FRAMES -/
  frameCount : BitVec 32 := 0
  /-- W: 32 bits | 18 R453 | Reset: 0 | LAT_MAX -/
  latMax : Nat := 0
  /-- W: 32 bits | 18 R453 | Reset: 0 | LAT_LAST -/
  latLast : Nat := 0
  /-- W: 64 bits | 18 R453 | Reset: 0 | LAT_SUM -/
  latSum : BitVec 64 := 0
  /-- W: 32 bits | 18 R453 | Reset: 0 | LAT_COUNT -/
  latCount : BitVec 32 := 0
  /-- W: settings | 09 R248 | Reset: none set, hold 0, SCENE_CONF_MIN 0 | scene source and table -/
  scene : Scene := {}
  /-- W: 4 bits | 09 R248 | Reset: DESIGN CHOICE none (log 4) | class that selected the running variant -/
  runClass : Option Nat := none
  /-- W: class and count | 09 R248 | Reset: none | class being held and its consecutive frames -/
  heldClass : Option (Nat × Nat) := none
  /-- W: option | 01 R24 | Reset: none | selection posted and not latched: FSEQ and class (none: keep the variant) -/
  posted : Option (BitVec 16 × Option Nat) := none
  /-- W: 16 bits | 01 R24 | Reset: none | FSEQ of the last frame latched -/
  latched : Option (BitVec 16) := none
  /-- W: option | 15 R378 | Reset: none | source of a REPLAY stream -/
  replay : Option Replay := none
  /-- W: option | 13 R341 | Reset: none | source of a PATTERN stream: pattern and seed -/
  pattern : Option (Nat × BitVec 16) := none
  /-- W: frame and line | 11 R280, 15 R378 | Reset: 0, 0 | next paced frame and line -/
  paceFrame : Nat := 0
  paceLine : Nat := 0
  /-- W: frame and line | 15 R378 | Reset: 0, 0 | next line to prefetch -/
  fetchFrame : Nat := 0
  fetchLine : Nat := 0
  /-- W: 4 lines | 15 R378 | Reset: empty | prefetched replay lines; true marks an uncorrectable burst -/
  prefetch : List (List (BitVec 16) × Bool) := []
  /-- W: 1 bit | 05 R138 | Reset: 0 | the paced schedule waits for a late replay segment -/
  late : Bool := false
  /-- W: 1 bit | 05 R141 | Reset: 0 | freeze of the stream's path -/
  frozen : Bool := false
  /-- W: frames and ns | 18 R453 | Reset: empty | latencies of lines sent, counted when their frame ends -/
  latPend : List (BitVec 16 × Nat) := []
  /-- W: lines | 15 R379 | Reset: empty | lines held by the stream's HBM output ring, oldest first -/
  ring : List RingLine := []
  /-- W: flits | 15 R379 | Reset: empty | payloads of the ring line being received -/
  ringRow : List (BitVec 256) := []
  /-- W: lines | 15 R379 | Reset: 0 | lines written to the ring -/
  ringNext : Nat := 0
  /-- W: option | 15 R379 | Reset: none | frame of the ring whose lines are being discarded -/
  ringDrop : Option (BitVec 16) := none
  /-- W: option | 15 R379, 06 R170 | Reset: none | open host buffer of the ring's copies -/
  ringBuf : Option OpenBuf := none
  /-- W: trims | 07 R203 | Reset: empty | trims in force by FSEQ and group -/
  frameTrims : List (BitVec 16 × Nat × Int) := []
  deriving DecidableEq, Repr

/-- A completion record of a pool: reserved while `record` is none (R161, R171). -/
structure Cpl where
  ticket : Nat
  record : Option Bytes := none
  deriving DecidableEq, Repr

/-- An output descriptor pool (R169-R172). -/
structure Pool where
  /-- W: function | 13 R335 | Reset: DESIGN CHOICE 0, the PF (log 4) | function POOL_ASSIGN gave the pool to -/
  fn : FnId := 0
  /-- W: 1 bit | 06 R169 | Reset: 0 | POOL_SETUP has run -/
  ready : Bool := false
  /-- W: 64 bits | 13 R341 | Reset: DESIGN CHOICE 0 (log 4) | descriptor ring address -/
  ring : BitVec 64 := 0
  /-- W: 4 bits | 13 R341 | Reset: DESIGN CHOICE 4 (log 4) | ring order -/
  order : Nat := 4
  /-- W: 64 bits | 13 R341 | Reset: DESIGN CHOICE 0 (log 4) | completion ring address -/
  cplRing : BitVec 64 := 0
  /-- W: 4 bits | 13 R341 | Reset: DESIGN CHOICE 4 (log 4) | completion ring order -/
  cplOrder : Nat := 4
  /-- W: 16 bits | 13 R329 | Reset: 0 | producer index of the descriptor ring -/
  prod : Nat := 0
  /-- W: 16 bits | 06 R169 | Reset: 0 | next descriptor to fetch -/
  cons : Nat := 0
  /-- W: 16 descriptors | 06 R169 | Reset: empty | descriptor cache -/
  cache : List PoolDesc := []
  /-- W: 32-byte records | 06 R171 | Reset: empty | completion queue -/
  cpl : List Cpl := []
  /-- W: count | 06 R171 | Reset: 0 | completion records written to the ring -/
  cplProd : Nat := 0
  /-- W: count | 06 R161 | Reset: 0 | reservations made (the model's own ticket) -/
  tickets : Nat := 0
  /-- W: 8 bits | 06 R165 | Reset: 0 | FLUSH_EPOCH -/
  flushEpoch : BitVec 8 := 0
  deriving DecidableEq, Repr

/-- A staged image (R292, R295): its header's fields and the content of its sections. -/
structure Image where
  grade : Nat := 0
  variant : Bool := false
  bytes : Nat := 64
  streams : Nat := 1
  fields : Nat := 0
  vrows : List Nat := []
  vcols : List Nat := []
  repMin : Nat := 1
  repMax : Nat := 1
  multi : Bool := false
  decl : ImageDecl := {}
  deriving DecidableEq, Repr

/-- The slot states of Table 12-4. -/
inductive SlotState where
  | empty | stored | staged
  deriving DecidableEq, Repr

/-- A context slot (R293). -/
structure Slot where
  /-- W: 3 values | 12 R293 | Reset: EMPTY | state -/
  state : SlotState := .empty
  /-- W: function | 12 R293 | Reset: 0 while EMPTY | owning function -/
  fn : FnId := 0
  /-- W: 1 bit | 13 R341 | Reset: 0 while EMPTY | image in host memory -/
  host : Bool := false
  /-- W: 32 bits | 13 R341 | Reset: 0 while EMPTY | image length -/
  length : Nat := 0
  /-- W: 64 bits | 13 R341 | Reset: 0 while EMPTY | image address -/
  src : BitVec 64 := 0
  /-- W: image | 12 R295 | Reset: none | image held in the Chrysalis store -/
  image : Option Image := none
  deriving DecidableEq, Repr

/-- The context states of Table 12-7; `aborting` and `releasing` are the spans of R315 and R319. -/
inductive CtxState where
  | eclosing | running | stopping | cocoon | fault | aborting | releasing
  deriving DecidableEq, Repr

/-- Where a laid endpoint route meets its endpoint (Table 12-6, R389): the router and slot, whether the endpoint sends,
its kind (0 Edge engine, 1 Tail engine, 2 stream P-unit, 3 store P-unit), stream, stripe, and the cut route with its port. -/
structure EndSlot where
  site : Nat
  slot : Nat
  sends : Bool
  kind : Nat
  stream : Nat
  stripe : Nat
  cut : Option (Nat × Nat) := none
  deriving DecidableEq, Repr

/-- A placement: virtual to physical sites, laid slot entries (site, output, slot, entry), gates with their source lanes
(R133), endpoints (R297-R299), the lanes that feed a Yallek port (port, site, lane; R391), and where exchange routes end (site, slot
of arrival, sending site and lane; R225). -/
structure Placement where
  slot : Nat := 0
  image : Image := {}
  replicas : Nat := 1
  map : List (Nat × Nat) := []
  entries : List (Nat × Nat × Nat × BitVec 16) := []
  gates : List Nat := []
  gateLanes : List (Nat × Nat × Nat) := []
  ends : List EndSlot := []
  cutLanes : List (Nat × Nat × Nat) := []
  exch : List (Nat × Nat × Nat × Nat) := []
  deriving DecidableEq, Repr

/-- An eclosion waiting for the broadcast port or in course (R304). Kind: 0 LOAD, 1 REPLACE, 2 ECLOSE_VARIANT, 3 scheduled. One
that is not due waits for an end-of-frame tag (Table 13-6). -/
structure Eclosion where
  kind : Nat
  place : Placement
  started : Bool := false
  pkt : Option Pkt := none
  dest : BitVec 64 := 0
  binds : List Bind := []
  cls : Option Nat := none
  due : Bool := true
  deriving DecidableEq, Repr

/-- A REPLACE waiting for COCOON (R317). -/
structure ReplaceReq where
  slot : Nat
  replicas : Nat
  pkt : Pkt
  dest : BitVec 64
  binds : List Bind
  lists : Option Lists := none
  deriving DecidableEq, Repr

/-- The run-time state of a model (R242-R246): pending requests and the running evaluation by trigger stream and FSEQ, the
latter with its raw outputs, whether a load is in progress, and the feature map and BASE that the last load put in place. -/
structure ModelSt where
  pending : List (Nat × BitVec 16) := []
  running : Option (Nat × BitVec 16 × List Nat × ModelDecl) := none
  loading : Bool := false
  decl : Option ModelDecl := none
  deriving DecidableEq, Repr

/-- A statistics snapshot in course (R456). -/
structure Snapshot where
  pkt : Pkt
  stream : Nat
  next : Bool
  vmask : BitVec 32
  dest : BitVec 64
  length : Nat
  deriving DecidableEq, Repr

/-- A running context (chapter 12). -/
structure Ctx where
  /-- W: 7 values | 12 R302, R315, R319 | Reset: none running | state -/
  state : CtxState := .eclosing
  /-- W: function | 13 R335 | Reset: none | owning function -/
  fn : FnId := 0
  /-- W: placement | 12 R297 | Reset: none | placement in force: slot, image, region, entries, gates -/
  place : Placement := {}
  /-- W: sites | 12 R297, R317 | Reset: none | region held: mapped sites, and old sites until released -/
  region : List Nat := []
  /-- W: 1 bit | 12 R302 | Reset: none | the first Open has been reached -/
  opened : Bool := false
  /-- W: list | 12 R308 | Reset: empty | placed variants and their reservations -/
  variants : List Placement := []
  /-- W: option | 12 R304 | Reset: none | eclosion waiting or in course -/
  ecl : Option Eclosion := none
  /-- W: option | 12 R317 | Reset: none | REPLACE waiting for COCOON -/
  replace : Option ReplaceReq := none
  /-- W: option | 12 R315 | Reset: none | abort that waits for Open, with its frame cause -/
  abortPend : Option Nat := none
  /-- W: 8 bits | 13 R347 | Reset: 0 | cause of the abort or fault -/
  cause : Nat := 0
  /-- W: 1 bit | 12 R316 | Reset: 0 | the abort that waits for Open is a fault entry -/
  faulting : Bool := false
  /-- W: 1 bit | 12 R318 | Reset: 0 | FLR releases the context when its abort ends -/
  releaseAfter : Bool := false
  /-- W: commands | 12 R315 | Reset: empty | CONTEXT_ABORT commands that wait for Open, or for the abort to end -/
  abortPkts : List Pkt := []
  /-- W: option | 12 R319 | Reset: none | CONTEXT_UNLOAD that waits for the release -/
  unload : Option Pkt := none
  /-- W: trims | 07 R202 | Reset: 0 each | trims accepted, by group -/
  trims : Tab Int := []
  /-- W: keys | 09 R240 | Reset: DESIGN CHOICE 0 each (log 4) | HOST key registers, by table -/
  keys : Tab (BitVec 16) := []
  /-- W: models | 09 R242 | Reset: idle each | models, by index -/
  models : Tab ModelSt := []
  /-- W: frames | 04 R110 | Reset: empty | frames (stream, low 8 bits of FSEQ) at whose end-of-frame tag a CONST or TABLE
  word read uncorrectable faults the context -/
  ueFault : List (Nat × Nat) := []
  /-- W: option | 18 R456 | Reset: none | snapshot in course -/
  snap : Option Snapshot := none
  /-- W: ports | 15 R390 | Reset: empty | Yallek ports bound -/
  boundPorts : List Nat := []
  /-- W: 8 bits | 15 R390 | Reset: 0 | binding epoch -/
  bindEpoch : BitVec 8 := 0
  deriving DecidableEq, Repr

/-- An entry of an input queue (R92, R259): bound by a WAITTAG, and kept by KEEP; `ex` is the site and lane that an entry of an
exchange route came from (R225). -/
structure QEnt where
  flit : Flit
  ex : Option (Nat × Nat) := none
  bound : Bool := false
  keep : Bool := false
  deriving DecidableEq, Repr

/-- A loop counter (R264). -/
structure Loop where
  index : Nat
  count : Nat
  start : Nat
  finish : Nat
  deriving DecidableEq, Repr

/-- The frame a unit has in progress (Table 10-1). -/
structure Cur where
  stream : Nat := 0
  fseq : Nat := 0
  opened : Bool := false
  deriving DecidableEq, Repr

/-- The registers that results reach after more than a cycle (Table 10-7). -/
inductive RegRef where
  | h (i : Nat) | z (i : Nat)
  deriving DecidableEq, Repr

/-- A register value that becomes usable at a later unit cycle (R275). -/
structure PendW where
  reg : RegRef
  at_ : Nat
  lo : Nat
  vals : List Nat
  deriving DecidableEq, Repr

/-- An M-unit block (R261, R262): reduction length, steps taken, partial-sum key, parameter-table base, mode, the
activation and weight word of each step, the partial-sum payloads, the REQ that armed its drain with the tag it formed, and
the cycle in which the block closes. -/
structure Block where
  k : Nat
  done : Nat := 0
  psum : Option (Option Nat × Option Nat × Option Nat) := none
  c0 : Nat := 0
  sf8 : Option Bool := none
  steps : List (BitVec 256 × BitVec 256) := []
  psums : List (BitVec 256) := []
  req : Option Nat := none
  stream : Nat := 0
  fseq : Nat := 0
  line : Nat := 0
  chan : Nat := 0
  chunk : Nat := 0
  closeAt : Nat := 0
  deriving DecidableEq, Repr

/-- A DWC or POOL still reading ROW (R267): issue cycle, rows, instruction word, the rows as read, the output chunk. -/
structure RowOp where
  at_ : Nat
  k : Nat
  word : Nat
  rows : List (Tab (List Nat))
  chunk : Nat
  deriving DecidableEq, Repr

/-- A ROT taking its flits (R266): issue cycle, instruction word, queue, the key of its first input and the tag it sends with, the
frame, and the flits taken in order. -/
structure RotRun where
  at_ : Nat
  word : Nat
  queue : Nat
  line : Option Nat
  chan : Option Nat
  chunk : Option Nat
  outLine : Nat
  outChan : Nat
  outChunk : Nat
  stream : Nat
  fseq : Nat
  eV : Int
  got : List Flit := []
  deriving DecidableEq, Repr

/-- A queued window sequence of a generator (R271): `pos` is its next flit, `at_` the cycle from which that flit may go. -/
structure GenSeq where
  wd : Nat
  kd : Nat
  nchunk : Nat
  half : Bool
  stream : Nat
  fseq : Nat
  line : Nat
  chunk : Nat
  pos : Nat := 0
  at_ : Nat := 0
  deriving DecidableEq, Repr

/-- A statistics bank of a V-unit (R105), and the models whose assembler has still to read it once closed (R242). -/
structure Bank where
  fseq : Nat := 0
  stream : Nat := 0
  maxabs : Tab Nat := []
  sat : Tab Nat := []
  sum : Tab Nat := []
  hist : Tab Nat := []
  gap : Tab Nat := []
  channels : Nat := 0
  readers : List Nat := []
  deriving DecidableEq, Repr

/-- A last closed counting window (R279, R362). -/
structure Window where
  valid : Bool := false
  fseq : Nat := 0
  stream : Nat := 0
  frame : BitVec 32 := 0
  active : BitVec 32 := 0
  tagWait : BitVec 32 := 0
  xwait : BitVec 32 := 0
  stall : BitVec 32 := 0
  bank : BitVec 32 := 0
  deriving DecidableEq, Repr

/-- A unit site (chapters 04, 10, 14). -/
structure Unit where
  /-- W: 1 bit | 14 R362 | Reset: 0 | IN_CONTEXT -/
  inCtx : Bool := false
  /-- W: 4 bits | 14 R362 | Reset: 0 | OWNER and stall group -/
  owner : Nat := 0
  /-- W: 1 bit | 04 R99, 14 R362 | Reset: 0 | FROZEN, the freeze register -/
  frozen : Bool := false
  /-- W: 1 bit | 14 R362 | Reset: 0 | HALTED -/
  halted : Bool := false
  /-- W: 1 bit | 12 R305 | Reset: 0 | the image carries a PROGRAM for the site -/
  hasProg : Bool := false
  /-- W: 10 bits | 14 R362, 10 R251 | Reset: 0 | PC -/
  pc : Nat := 0
  /-- W: 10 bits | 10 R251 | Reset: DESIGN CHOICE 1023 (log 4) | END word -/
  endW : Nat := 1023
  /-- W: 10 bits | 10 R251 | Reset: DESIGN CHOICE 0 (log 4) | RESTART word -/
  restart : Nat := 0
  /-- W: 3 x 64 flits | 04 R92 | Reset: empty | input queues, oldest first -/
  queues : Tab (List QEnt) := []
  /-- W: 16 x 32 bits | 10 R252 | Reset: 0 | X0-X15 -/
  x : Tab (BitVec 32) := []
  /-- W: 4 counters | 10 R252 | Reset: inactive | LC0-LC3; the list is the order of opening, innermost first -/
  lc : Tab Loop := []
  loops : List Nat := []
  /-- W: 15 bits | 10 R252 | Reset: stream 0, FSEQ 0, OPEN 0 | CUR -/
  cur : Cur := {}
  /-- W: 13 bits | 04 R110, 11 R288 | Reset: 0 | LINE being processed, that of the entry bound last -/
  line : Nat := 0
  /-- W: 2 x 10 bits | 11 R288, 07 R190 | Reset: 0, 0 | program counters of the issue group in course and of its instruction -/
  issuePc : Nat × Nat := (0, 0)
  /-- W: 6 bits | 10 R252 | Reset: 0 | the image's stream, CUR's value after eclosion -/
  curStream : Nat := 0
  /-- W: 10 bits | 10 R252 | Reset: 0 | WP -/
  wp : Nat := 0
  /-- W: 8 x 64 x binary16 | 10 R252 | Reset: +0 | H0-H7 -/
  h : Tab (List Nat) := []
  /-- W: 4 x 64 x binary32 | 10 R252 | Reset: +0 | Z0-Z3 -/
  z : Tab (List Nat) := []
  /-- W: 5 row slots | 10 R252, 04 R104 | Reset: +0 | ROW: by chunk, its most recent rows, oldest first -/
  row : Tab (List (List Nat)) := []
  /-- W: chan, chunk, queue | 04 R104, 08 R218 | Reset: none | tag of the newest row, and the input queue it came from -/
  rowLast : Option (Nat × Nat × Nat) := none
  /-- W: 8 bits | 04 R104 | Reset: 0 | POOLs issued since the newest row -/
  rowOut : Nat := 0
  /-- W: queues | 08 R218 | Reset: empty | queues whose end of the frame the global average has seen -/
  gapEofs : List Nat := []
  /-- W: option | 10 R266 | Reset: none | ROT taking its flits -/
  rot : Option RotRun := none
  /-- W: option | 10 R267 | Reset: none | DWC or POOL reading ROW -/
  rowOp : Option RowOp := none
  /-- W: register code | 10 R267 | Reset: none | DST of the last global-average POOL -/
  gapDst : Option Nat := none
  /-- W: 256 x binary16 | 10 R252 | Reset: 0x7E00 | FV -/
  fv : Tab Nat := []
  /-- W: 16 x binary32 | 10 R252 | Reset: +0 | TACC -/
  tacc : Tab Nat := []
  /-- W: 512 bits | 04 R112, 10 R275 | Reset: DESIGN CHOICE none (log 4) | direction bits of the last TCMP, by tree -/
  dirs : List (List Bool) := []
  /-- W: 3,072 bytes | 09 R236 | Reset: empty | streamed group being received, 32-byte flits -/
  streamed : List (BitVec 256) := []
  /-- W: 32 KiB, 64 KiB, 512 KiB, ... in 8-byte words | 14 R362, R363 | Reset: zero (16 R435) | unit memories by
  MEM_SEL x 2^24 + address: program, keys, generator descriptors, parameter table, weight buffer, SRAM, node memory, V tables -/
  mem : Tab (BitVec 64) := []
  /-- W: 256 entries | 04 R103 | Reset: zero | parameter table -/
  params : Tab Param := []
  /-- W: 8 descriptors | 10 R252 | Reset: zero | WD0-WD7 -/
  wins : Tab WinDesc := []
  /-- W: 8 descriptors | 10 R252 | Reset: zero | GD0-GD7 -/
  gills : Tab GillDesc := []
  /-- W: tables | 10 R252, 07 R191 | Reset: zero | V-unit tables -/
  vtab : VTable := {}
  /-- W: regions | 04 R106 | Reset: none | regions of an S-unit: first word, words, kind, base bank -/
  regions : List (Nat × Nat × Nat × Nat) := []
  /-- W: accesses | 04 R107 | Reset: empty | recent uses of the schedule port: cycle, bank, rank (2 the write, 1 and 0 the generators) -/
  port : List (Nat × Nat × Nat) := []
  /-- W: widths by key descriptor | 08 R207 | Reset: none | stripe widths of the tensors the unit sends -/
  codeW : List (Nat × Nat) := []
  /-- W: addresses | 04 R110, 11 R287 | Reset: none | words that read as zero until written (uncorrectable GILL or STATE) -/
  zeroed : List Nat := []
  /-- W: option | 10 R261 | Reset: none | open block -/
  block : Option Block := none
  /-- W: option | 04 R100 | Reset: none | drain set -/
  drain : Option Block := none
  /-- W: 8 bits | 10 R261 | Reset: 0 | BIAS selection C0 -/
  c0 : Nat := 0
  /-- W: flits | 10 R262, R266, R267 | Reset: empty | flits of REQ, ROT, DWC and POOL waiting for their lane -/
  pipe : List (Nat × Flit) := []
  /-- W: 4 x 16 flits | 05 R129 | Reset: empty | inject lanes -/
  lanes : Tab (List Flit) := []
  /-- W: 4 bits | 05 R133 | Reset: 0 | HOLD on each lane -/
  hold : List Nat := []
  /-- W: 4 x 6 bits | 08 R225 | Reset: no exchange route | exchange credits by lane -/
  credits : Tab Nat := []
  /-- W: counts by sending site x 4 + lane | 08 R225 | Reset: 0 | exchange entries removed whose credit has not returned -/
  backs : Tab Nat := []
  /-- W: flits | 04 R113 | Reset: empty | checked flits at a P-unit, with slot and OWNER, for the path of their route -/
  portQ : List (Nat × Nat × Flit) := []
  /-- W: flits | 04 R98 | Reset: empty | flits on the side links: true east, and the flit -/
  side : List (Bool × Flit) := []
  /-- W: 2 sequences | 10 R271 | Reset: empty | generator 0 and 1: the sequence in course and the queued one -/
  gens : Tab (List GenSeq) := []
  /-- W: flit | 08 R211, 10 R272 | Reset: none | first flit of a PHASE2 or INTERLEAVE2 pair, by write stream (input queue) -/
  pairs : Tab Flit := []
  /-- W: 2 sets x 256 | 07 R199 | Reset: 0 | MAXABS and SATCOUNT: set x 256 + channel -/
  maxabs : Tab Nat := []
  satcount : Tab Nat := []
  /-- W: lane and KD | 10 R268 | Reset: none | where the M-unit sends its statistics record -/
  statsTo : Option (Nat × Nat) := none
  /-- W: frame | 07 R199 | Reset: none | end of frame consumed, record not yet sent: stream, FSEQ -/
  statsDue : Option (Nat × Nat) := none
  /-- W: 8 bits | 10 R268 | Reset: 0 | histogram channel -/
  histChan : Nat := 0
  /-- W: bank | 04 R105 | Reset: empty | active statistics bank -/
  bankA : Bank := {}
  /-- W: option | 04 R105 | Reset: none | closed bank not released -/
  bankC : Option Bank := none
  /-- W: option | 18 R456 | Reset: none | last closed bank, kept for a snapshot of the latest -/
  lastClosed : Option Bank := none
  /-- W: 1 bit | 18 R456 | Reset: 0 | closed bank held by a snapshot -/
  bankHeld : Bool := false
  /-- W: frames | 04 R105 | Reset: empty | statistics lost by FSEQ (for R243) -/
  statsLost : List (Nat × Nat) := []
  /-- W: 14 bits | 04 R111 | Reset: 0 | next word the scrubber reads -/
  scrub : Nat := 0
  /-- W: unit cycles | 10 R275, R276 | Reset: 0 | unfrozen ACLK cycles (the model's own count of the unit's time) -/
  cyc : Nat := 0
  /-- W: list | 10 R275 | Reset: empty | register results not yet usable -/
  pend : List PendW := []
  /-- W: 64 bits | 14 R362 | Reset: 0 | ACTIVE_CYCLES -/
  active : BitVec 64 := 0
  /-- W: 64 bits | 14 R362 | Reset: 0 | TAG_WAIT -/
  tagWait : BitVec 64 := 0
  /-- W: 64 bits | 14 R362 | Reset: 0 | XWAIT -/
  xwait : BitVec 64 := 0
  /-- W: 64 bits | 14 R362 | Reset: 0 | STALL_CYCLES -/
  stallCyc : BitVec 64 := 0
  /-- W: 32 bits | 14 R362 | Reset: 0 | BANK_CONFLICT -/
  bankConf : BitVec 32 := 0
  /-- W: window | 11 R279 | Reset: 0, invalid | last closed counting window -/
  fc : Window := {}
  /-- W: window | 14 R362 | Reset: 0, invalid | the set an FC_FSEQ read latched -/
  fcLatched : Window := {}
  /-- W: window | 11 R279 | Reset: none | the window as it stood when the last end-of-frame entry was consumed -/
  winEof : Option Window := none
  /-- W: cycle and word | 04 R102 | Reset: none | last MAC and the weight word it reads -/
  macAt : Option (Nat × Nat) := none
  /-- W: rows by gill | 11 R287 | Reset: none stored | newest row stored in each gill -/
  gillTop : Tab (Option Nat) := []
  /-- W: counts | 11 R279 | Reset: 0 | counters at the start of the window in course, and whether it is the first -/
  winBase : Window := {}
  winFirst : Bool := true
  /-- W: 10 x 32 bits | 14 R362 | Reset: 0 | HAZ_COUNT by kind -/
  haz : Tab (BitVec 32) := []
  /-- W: kinds | 11 R288 | Reset: empty | hazard kinds logged in the window in course -/
  hazLogged : List Nat := []
  /-- W: 32 bits | 14 R362 | Reset: 0 | TAG_CE -/
  tagCe : BitVec 32 := 0
  /-- W: 32 bits | 14 R362 | Reset: 0 | ECC_CE -/
  eccCe : BitVec 32 := 0
  /-- W: 32 bits | 14 R362 | Reset: 0 | PROG_CE -/
  progCe : BitVec 32 := 0
  /-- W: 32 bits | 14 R362 | Reset: 0 | EPOCH_DISCARD -/
  epochDisc : BitVec 32 := 0
  /-- W: 32 bits | 14 R362 | Reset: 0 | POISON_DISCARD -/
  poisonDisc : BitVec 32 := 0
  /-- W: 32 bits | 14 R362 | Reset: 0 | ECL_CYCLES -/
  eclCyc : BitVec 32 := 0
  /-- W: 3 x 8 bits | 18 R452 | Reset: 0 | QPEAK_0-2 -/
  qpeak : Tab Nat := []
  /-- W: 8 bits | 18 R452 | Reset: 0 | LANE_PEAK -/
  lanePeak : Nat := 0
  /-- W: 3 x 8 bits | 18 R452 | Reset: 0 | SKID_PEAK_0-2 -/
  skidPeak : Tab Nat := []
  /-- W: queues | 18 R452, 11 R290 | Reset: empty | queues not yet back at their bound since a freeze -/
  skidding : List Nat := []
  /-- W: bounds | 11 R287 | Reset: 64 each | QBOUND by queue -/
  qbound : Tab Nat := []
  /-- W: bounds | 11 R287 | Reset: 16 each | LANE_BOUND by lane -/
  laneBound : Tab Nat := []
  /-- W: 32 bits | 11 R287 | Reset: 2^32 - 1 | SAT_LIMIT -/
  satLimit : Nat := 4294967295
  /-- W: frames | 11 R287 | Reset: empty | frames whose end-of-frame entry was consumed -/
  eofSeen : List (Nat × Nat) := []
  /-- W: addresses | 11 R287 | Reset: empty | words written since eclosion -/
  written : List Nat := []
  /-- W: 4 bits | 14 R362 | Reset: 0 | MEM_SEL -/
  memSel : Nat := 0
  /-- W: 24 bits | 14 R362 | Reset: 0 | MEM_ADDR -/
  memAddr : Nat := 0
  deriving DecidableEq, Repr

/-- A router (R122, R123, R128): its five slot tables by output x 64 + slot, and its input registers (slot received and
flit). -/
structure Router where
  /-- W: 5 x 64 x 16 bits | 05 R128 | Reset: 0 | slot tables -/
  slots : Tab (BitVec 16) := []
  /-- W: 4 flits | 05 R123 | Reset: empty | input registers north, east, south, west: the slot of receipt and the flit; a flit of the
  next slot may lie there before this router's row of its own slot has taken the one before it -/
  regs : Tab (List (Nat × Flit)) := []
  /-- W: flits | 05 R130 | Reset: empty | flits ejected, with queue, OWNER and slot, on the way to the unit -/
  eject : List (Nat × Nat × Nat × Flit) := []
  /-- W: flits | 05 R132, 04 R119 | Reset: empty | flits leaving over the Field's edge: output, slot and flit -/
  border : List (Nat × Nat × Flit) := []
  /-- W: patches | 12 R321 | Reset: empty | patch entries waiting for slot 0 -/
  patch : List (Nat × BitVec 16) := []
  deriving DecidableEq, Repr

/-- A Border Gate (R132-R134). -/
structure Gate where
  /-- W: context | 05 R132 | Reset: none | owner -/
  owner : Option Nat := none
  /-- W: site and lane | 05 R133 | Reset: none | source lane of the gate's route -/
  source : Option (Nat × Nat) := none
  /-- W: 96 entries | 05 R132 | Reset: empty | entries; true once visible to the reader -/
  q : List (Flit × Bool) := []
  /-- W: count | 03 R67 | Reset: 0 | slots freed by the reader and not yet seen free by the writer -/
  freed : Nat := 0
  /-- W: 1 bit | 05 R133 | Reset: 0 | HOLD -/
  hold : Bool := false
  /-- W: 1 bit | 05 R134 | Reset: 0 | the reader side is frozen -/
  frozen : Bool := false
  deriving DecidableEq, Repr

/-- A stall group at the Hub (Table 14-6). -/
structure Group where
  /-- W: 1 bit | 14 R361 | Reset: 0 | ASSERTED -/
  asserted : Bool := false
  /-- W: 1 bit | 14 R361 | Reset: 0 | MASKED -/
  masked : Bool := false
  /-- W: 8 bits | 14 R361 | Reset: 0 | FIRST_ORIGIN -/
  first : Nat := 0
  /-- W: 1 bit | 05 R139 | Reset: 0 | the 16 ns minimum hold is running -/
  minHold : Bool := false
  /-- W: 32 bits | 14 R361 | Reset: 0 | STALL_COUNT -/
  count : BitVec 32 := 0
  /-- W: 64 bits | 14 R361 | Reset: 0 | STALL_TIME -/
  time : BitVec 64 := 0
  /-- W: 32 bits | 14 R361 | Reset: 0 | STALL_LONGEST -/
  longest : Nat := 0
  /-- W: KCLK cycles | 05 R149 | Reset: 0 | when the assertion in course began -/
  since : Nat := 0
  /-- W: counts | 05 R149 | Reset: none | pending STALL_OFF: asserted time and assertions -/
  off : Option (Nat × Nat) := none
  deriving DecidableEq, Repr

/-- A stall origin (R138, Table 14-6). -/
structure Origin where
  /-- W: 4 bits | 14 R361 | Reset: 0 | ORIGIN_GROUP -/
  group : Nat := 0
  /-- W: 1 bit | 14 R361 | Reset: 0 | ORIGIN_EN -/
  en : Bool := false
  /-- W: 1 bit | 14 R361 | Reset: 0 | ORIGIN_REQ -/
  req : Bool := false
  /-- W: order | 05 R149 | Reset: 0 | when the request in course began (the model's own count) -/
  since : Nat := 0
  deriving DecidableEq, Repr

/-- An Edge or Tail engine's window (R362): its error counters. -/
structure Engine where
  /-- W: 5 x 32 bits | 14 R362 | Reset: 0 | TAG_CE, ECC_CE, PROG_CE, EPOCH_DISCARD, POISON_DISCARD -/
  errs : Tab (BitVec 32) := []
  /-- W: 8 x 64 flits | 04 R119 | Reset: empty | stripe-input queues of a Tail engine -/
  queues : Tab (List Flit) := []
  /-- W: 256 channels x 2 | 07 R198 | Reset: 0 | MAXABS and SATCOUNT of an Edge engine's output quantiser by FSEQ bit 0 -/
  maxabs : Tab Nat := []
  sat : Tab Nat := []
  deriving DecidableEq, Repr

/-- An HBM stack (R374, R380, R415). -/
structure Stack where
  /-- W: 1 bit | 15 R374 | Reset: 0 until trained | in the stack mask -/
  trained : Bool := false
  /-- W: 1 bit | 16 R415 | Reset: 0 | in power-down -/
  down : Bool := false
  /-- W: 1 bit | 16 R427 | Reset: 0 | in self-refresh -/
  selfRefresh : Bool := false
  /-- W: count | 15 R380 | Reset: 0 | corrections since the last HBM_CE -/
  ce : BitVec 32 := 0
  /-- W: KCLK cycles | 15 R380 | Reset: none | when the last HBM_CE was logged -/
  ceAt : Option Nat := none
  /-- W: count | 15 R374 | Reset: 0 | refreshes performed -/
  refreshes : BitVec 32 := 0
  deriving DecidableEq, Repr

/-- A Yallek port (R381-R398). -/
structure Yport where
  /-- W: 1 bit | 15 R382 | Reset: DESIGN CHOICE enabled (log 4) | port enabled -/
  enabled : Bool := true
  /-- W: 1 bit | 15 R382 | Reset: 0 | block lock and deskew -/
  locked : Bool := false
  /-- W: 1 bit | 15 R382 | Reset: 0 | link up -/
  up : Bool := false
  /-- W: 64 bits | 15 R382 | Reset: DESIGN CHOICE 0 (log 4) | peer DIE_ID -/
  peerDie : BitVec 64 := 0
  /-- W: 16 bits | 15 R384 | Reset: DESIGN CHOICE 0 (log 4) | next SEQ to send -/
  txSeq : BitVec 16 := 0
  /-- W: 16 bits | 15 R384 | Reset: DESIGN CHOICE 0 (log 4) | next SEQ expected -/
  rxSeq : BitVec 16 := 0
  /-- W: 64 KiB | 15 R384 | Reset: empty | replay buffer: SEQ, retransmissions, Spore -/
  replay : List (BitVec 16 × Nat × Bytes) := []
  /-- W: Spores | 15 R383, 06 R163 | Reset: empty | Spore transmit queue -/
  tx : List Bytes := []
  /-- W: Spores | 15 R382 | Reset: empty | Spores on the link, last first -/
  sent : List Bytes := []
  /-- W: 768 entries | 15 R391 | Reset: empty | transmit flit queue: route, FCYC, flit -/
  txFlits : List (Nat × Nat × Flit) := []
  /-- W: 768 entries | 15 R391 | Reset: empty | receive flit queue: route, FCYC visible, visible, flit -/
  rxFlits : List (Nat × Nat × Bool × Flit) := []
  /-- W: 16 bits | 15 R391 | Reset: 0 | receive entries freed, cumulative CREDIT -/
  freed : BitVec 16 := 0
  /-- W: 16 bits | 15 R391 | Reset: 512 | credits held for the peer's receive queue -/
  credit : Nat := 512
  /-- W: 16 bits | 15 R391 | Reset: 0 | last CREDIT received -/
  lastCredit : BitVec 16 := 0
  /-- W: 1 bit | 15 R391 | Reset: 0 | the transmit flit queue raises HOLD -/
  holding : Bool := false
  /-- W: 1 bit | 15 R385, R398 | Reset: 0 | a NAK is outstanding -/
  nak : Bool := false
  /-- W: count | 15 R385 | Reset: 0 | retransmissions since the last YALLEK_RETRY -/
  retries : BitVec 32 := 0
  /-- W: KCLK cycles | 15 R385 | Reset: none | when the last YALLEK_RETRY was logged -/
  retryAt : Option Nat := none
  /-- W: context | 15 R389 | Reset: none | OWNER of the context the port serves -/
  owner : Option Nat := none
  /-- W: option | 15 R390 | Reset: none | the peer's latest BIND -/
  peer : Option BindMsg := none
  /-- W: 1 bit | 15 R390 | Reset: 0 | our BIND has been sent -/
  bindSent : Bool := false
  /-- W: 1 bit | 15 R390 | Reset: 0 | GRAPH_BOUND -/
  bound : Bool := false
  /-- W: 16 bits | 15 R395 | Reset: 0 | STALLMAP last received -/
  stallIn : BitVec 16 := 0
  /-- W: 32 bits | 15 R390 | Reset: 0 | EPOCH_DISCARD of the port -/
  epochDisc : BitVec 32 := 0
  /-- W: 32 bits | 15 R392 | Reset: 0 | LINK_LATE -/
  linkLate : BitVec 32 := 0
  /-- W: alignments | 15 R393 | Reset: none in force | ALIGN_OFFSET by route -/
  align : Tab (Option (BitVec 16)) := []
  /-- W: probes | 15 R393 | Reset: empty | measured deltas by route -/
  probes : Tab (List Nat) := []
  /-- W: 16 bits | 15 R393 | Reset: 0 | last Delta_max by route -/
  deltaMax : Tab Nat := []
  /-- W: option | 15 R393 | Reset: none | YALLEK_ALIGN that waits for an alignment: its route and packet -/
  alignPkt : Option (Nat × Pkt) := none
  deriving DecidableEq, Repr

/-- An Ethernet port (R400-R404). -/
structure Eth where
  /-- W: 1 bit | 15 R401 | Reset: 0 | enabled by its port record -/
  enabled : Bool := false
  /-- W: 1 bit | 15 R401 | Reset: 0 | link up -/
  up : Bool := false
  /-- W: 208 bytes | 15 R401 | Reset: DESIGN CHOICE zeros (log 4) | port record -/
  record : Bytes := []
  /-- W: option | 15 R402 | Reset: none | best master -/
  master : Option PtpMaster := none
  /-- W: 1 bit | 15 R404 | Reset: 0 | Sync messages are arriving -/
  synced : Bool := false
  /-- W: 64 bits | 15 R402 | Reset: DESIGN CHOICE 0 (log 4) | path delay last measured, ns -/
  delay : Int := 0
  /-- W: 64 bits each | 15 R402 | Reset: DESIGN CHOICE 0 (log 4) | t1 and t2 of the last Sync -/
  t1 : BitVec 64 := 0
  t2 : BitVec 64 := 0
  /-- W: 32 bits | 15 R400 | Reset: DESIGN CHOICE 0 (log 4) | received frames discarded -/
  discards : BitVec 32 := 0
  /-- W: 32 bits | 15 R408 | Reset: 0 | metadata datagrams dropped since META_DROP -/
  metaDrop : BitVec 32 := 0
  /-- W: KCLK cycles | 15 R408 | Reset: none | when the last META_DROP was logged -/
  metaAt : Option Nat := none
  /-- W: frames | 15 R400 | Reset: empty | frames sent, last first, without preamble and FCS -/
  sent : List Bytes := []
  /-- W: frame records | 15 R408 | Reset: empty | frame records waiting for their datagram: stream, FSEQ -/
  metaQ : List (Nat × BitVec 16) := []
  deriving DecidableEq, Repr

/-- An ST 2110 sender (R405-R407). -/
structure Sender where
  /-- W: 1 bit | 13 R341 | Reset: 0 | enabled -/
  enabled : Bool := false
  /-- W: function | 13 R335 | Reset: 0 | function that wrote the record -/
  fn : FnId := 0
  /-- W: 208 bytes | 15 R405 | Reset: DESIGN CHOICE zeros (log 4) | sender record -/
  record : Bytes := []
  /-- W: 32 bits | 15 R405 | Reset: DESIGN CHOICE 0 (log 4) | extended RTP sequence number -/
  seq : BitVec 32 := 0
  /-- W: count | 15 R407 | Reset: 0 | next packet of the frame -/
  next : Nat := 0
  /-- W: frame | 15 R407 | Reset: none | frame being sent: FSEQ and line-0 stamp -/
  frame : Option (BitVec 16 × BitVec 64) := none
  /-- W: count | 15 R407 | Reset: 0 | late packets of the frame -/
  late : BitVec 32 := 0
  deriving DecidableEq, Repr

/-- Capture and dump (Table 18-3). -/
structure Capture where
  /-- W: 1 bit | 18 R457 | Reset: 0 | CAP_EN -/
  en : Bool := false
  /-- W: 1 bit | 18 R457 | Reset: 0 | CAP_MODE, true = STOP -/
  stop : Bool := false
  /-- W: 2 bits | 18 R457 | Reset: 0 | CAP_TRIG -/
  trig : Nat := 0
  /-- W: 1 bit | 18 R457 | Reset: 0 | CAP_TRIGGERED -/
  triggered : Bool := false
  /-- W: 5 bits | 18 R457 | Reset: 0 | CAP_SRC -/
  src : Nat := 0
  /-- W: 6 bits | 18 R457 | Reset: 0 | CAP_STREAM -/
  stream : Nat := 0
  /-- W: 16 bits | 18 R457 | Reset: 0 | CAP_ARG -/
  arg : Nat := 0
  /-- W: 16 bits | 18 R457 | Reset: 0 | CAP_POST -/
  post : Nat := 0
  /-- W: frames | 18 R460 | Reset: 0 | frames captured since the trigger -/
  frames : Nat := 0
  /-- W: 64 bits | 18 R457 | Reset: 0 | CAP_PROD -/
  prod : BitVec 64 := 0
  /-- W: 32 bits | 18 R457 | Reset: 0 | CAP_DROP -/
  drop : BitVec 32 := 0
  /-- W: count | 18 R459 | Reset: 0 | records discarded since the last CAP_DROP record -/
  lost : Nat := 0
  /-- W: KCLK cycles | 18 R459 | Reset: none | when the last CAP_DROP was logged -/
  lostAt : Option Nat := none
  /-- W: 64 bits | 18 R457 | Reset: 0 | DUMP_SRC -/
  dumpSrc : BitVec 64 := 0
  /-- W: 64 bits | 18 R457 | Reset: 0 | DUMP_DST -/
  dumpDst : BitVec 64 := 0
  /-- W: 24 bits | 18 R457 | Reset: 0 | DUMP_LEN -/
  dumpLen : Nat := 0
  /-- W: 1 bit | 18 R457 | Reset: 0 | DUMP_GO, a dump is running -/
  dumpGo : Bool := false
  /-- W: 1 bit | 18 R461 | Reset: 0 | a further DUMP_GO is kept -/
  dumpAgain : Bool := false
  /-- W: 1 bit | 18 R457 | Reset: 0 | DUMP_ERR -/
  dumpErr : Bool := false
  deriving DecidableEq, Repr

/-- A PCIe endpoint (R322, R426, R436). -/
structure Endpoint where
  /-- W: 1 bit | 03 R85, 16 R426 | Reset: 0 | link up -/
  up : Bool := false
  /-- W: 1 pin | 16 R426 | Reset: DESIGN CHOICE low (log 4) | PERST_N is low -/
  perst : Bool := true
  /-- W: 1 bit | 16 R436 | Reset: 0 | answers configuration requests -/
  config : Bool := false
  deriving DecidableEq, Repr

/-- The outcomes of the block's faults: there is none, every fault of the K4 is an effect on its state. -/
inductive Fault where
  /-- Raised by no command; kept so that the type has a member. Safe. -/
  | none
  deriving DecidableEq, Repr

/-- Why a command has no meaning here. -/
inductive Refusal where
  /-- The command's meaning is not written; raised by the dispatch alone. Safe. -/
  | notModelled (mnemonic : String)
  deriving DecidableEq, Repr

/-- The K4. -/
structure State where
  /-- W: list | the block's queue of waiting commands, first in, first out | Reset: empty -/
  pending : List Instr := []
  /-- W: count | MODEL'S OWN: free values drawn so far (log 1) | Reset: DESIGN CHOICE 0 (log 1) -/
  freeCount : Nat := 0
  /-- W: count | MODEL'S OWN: KCLK cycles since reset (log 5) | Reset: DESIGN CHOICE 0 (log 5) -/
  kcycles : Nat := 0
  part : Part := {}
  boot : Boot := {}
  modes : Modes := {}
  supply : Supply := {}
  dtb : Dtb := {}
  seqr : Seqr := {}
  greg : GReg := {}
  cspi : Cspi := {}
  cap : Capture := {}
  /-- W: 4 Fields | 03 R59 -/
  fields : Tab FieldClk := []
  /-- W: 17 clocks | 03 R84, R85 | Reset: running | clocks declared lost, by the codes of R486 -/
  lostClocks : List Nat := []
  /-- W: 16 Head Links | 02 -/
  heads : Tab Head := []
  /-- W: 16 entries | 02 R47 | Reset: empty | pending store, oldest update first -/
  store : List Pending := []
  /-- W: 64 streams | 01 -/
  streams : Tab Strm := []
  /-- W: 768 sites | 04 -/
  units : Tab Unit := []
  /-- W: 768 routers | 05 R122 -/
  routers : Tab Router := []
  /-- W: 112 gates | 05 R132 -/
  gates : Tab Gate := []
  /-- W: 16 groups | 05 R136 -/
  groups : Tab Group := []
  /-- W: 136 origins | 05 R138 -/
  origins : Tab Origin := []
  /-- W: 16 Edge engines | 04 R115 -/
  edges : Tab Engine := []
  /-- W: 16 Tail engines | 04 R117 -/
  tails : Tab Engine := []
  /-- W: arbiters | 06 R157 | by the arbiter codes of Ops -/
  arbs : Tab Arbiter := []
  /-- W: queues | 06 R163 | by the queue codes of Ops -/
  queues : Tab FQueue := []
  /-- W: 64 functions | 13 R323 -/
  fns : Tab Fn := []
  /-- W: 64 locks | 14 R365 -/
  locks : Tab Lock := []
  /-- W: 64 pools | 06 R169 -/
  pools : Tab Pool := []
  /-- W: 64 slots | 12 R293 -/
  slots : Tab Slot := []
  /-- W: 16 contexts | 12 R302 | Reset: none running -/
  ctxs : Tab (Option Ctx) := []
  /-- W: 16 x 2 bits | 12 R309 | Reset: 0 | EPOCH of each OWNER -/
  epochs : Tab (BitVec 2) := []
  /-- W: 4 stacks | 15 R374 -/
  hbmStacks : Tab Stack := []
  /-- W: 64 GiB | 15 R375 | Reset: nothing listed; an unlisted byte reads 0, DESIGN CHOICE (log 7) | HBM contents -/
  hbm : List Host.Cell := []
  /-- W: 2^64 bytes | 13 R327 | MODEL'S OWN: bytes the K4 has written to host memory (log 8) | Reset: nothing listed -/
  hostMem : List Host.Cell := []
  /-- W: list | MODEL'S OWN: host reads completed and not used, by address (log 8) | Reset: empty -/
  hostIn : List (Nat × Option Bytes) := []
  /-- W: 4 ports | 15 R381 -/
  yports : Tab Yport := []
  /-- W: 2 ports | 15 R400 -/
  eths : Tab Eth := []
  /-- W: 32 senders | 15 R405 -/
  senders : Tab Sender := []
  /-- W: 2 endpoints | 13 R322 -/
  eps : Tab Endpoint := []
  /-- W: 64 bits | 13 R323 | Reset: 0, endpoint A | VF_MAP -/
  vfMap : BitVec 64 := 0
  /-- W: 1 bit | 13 R341 | Reset: DESIGN CHOICE 0 (log 4) | VF Enable set on an endpoint -/
  vfEnable : Bool := false
  deriving DecidableEq, Repr

/-- The machine under POR, before its release (log 2): every field at its reset value. -/
def State.reset : State := {}

end Sys2Proof.Machine
end

