-- ==== Sys2Proof/Machine/Access.lean ====
section
/-! DEFINITION. Reading and writing one entry of each numbered collection of the state: `s.head h` reads, `s.setHead h v`
writes, `s.modHead h f` applies a function to the entry. -/

namespace Sys2Proof.Machine

def State.field (s : State) (i : Nat) : FieldClk := Tab.get {} s.fields i
def State.setField (s : State) (i : Nat) (v : FieldClk) : State := { s with fields := Tab.set s.fields i v }
def State.modField (s : State) (i : Nat) (f : FieldClk → FieldClk) : State := s.setField i (f (s.field i))

def State.head (s : State) (i : Nat) : Head := Tab.get {} s.heads i
def State.setHead (s : State) (i : Nat) (v : Head) : State := { s with heads := Tab.set s.heads i v }
def State.modHead (s : State) (i : Nat) (f : Head → Head) : State := s.setHead i (f (s.head i))

def State.strm (s : State) (i : Nat) : Strm := Tab.get {} s.streams i
def State.setStrm (s : State) (i : Nat) (v : Strm) : State := { s with streams := Tab.set s.streams i v }
def State.modStrm (s : State) (i : Nat) (f : Strm → Strm) : State := s.setStrm i (f (s.strm i))

def State.unit (s : State) (i : Nat) : Unit := Tab.get {} s.units i
def State.setUnit (s : State) (i : Nat) (v : Unit) : State := { s with units := Tab.set s.units i v }
def State.modUnit (s : State) (i : Nat) (f : Unit → Unit) : State := s.setUnit i (f (s.unit i))

def State.router (s : State) (i : Nat) : Router := Tab.get {} s.routers i
def State.setRouter (s : State) (i : Nat) (v : Router) : State := { s with routers := Tab.set s.routers i v }
def State.modRouter (s : State) (i : Nat) (f : Router → Router) : State := s.setRouter i (f (s.router i))

def State.gate (s : State) (i : Nat) : Gate := Tab.get {} s.gates i
def State.setGate (s : State) (i : Nat) (v : Gate) : State := { s with gates := Tab.set s.gates i v }
def State.modGate (s : State) (i : Nat) (f : Gate → Gate) : State := s.setGate i (f (s.gate i))

def State.group (s : State) (i : Nat) : Group := Tab.get {} s.groups i
def State.setGroup (s : State) (i : Nat) (v : Group) : State := { s with groups := Tab.set s.groups i v }
def State.modGroup (s : State) (i : Nat) (f : Group → Group) : State := s.setGroup i (f (s.group i))

def State.origin (s : State) (i : Nat) : Origin := Tab.get {} s.origins i
def State.setOrigin (s : State) (i : Nat) (v : Origin) : State := { s with origins := Tab.set s.origins i v }
def State.modOrigin (s : State) (i : Nat) (f : Origin → Origin) : State := s.setOrigin i (f (s.origin i))

def State.edgeEng (s : State) (i : Nat) : Engine := Tab.get {} s.edges i
def State.setEdgeEng (s : State) (i : Nat) (v : Engine) : State := { s with edges := Tab.set s.edges i v }
def State.modEdgeEng (s : State) (i : Nat) (f : Engine → Engine) : State := s.setEdgeEng i (f (s.edgeEng i))

def State.tailEng (s : State) (i : Nat) : Engine := Tab.get {} s.tails i
def State.setTailEng (s : State) (i : Nat) (v : Engine) : State := { s with tails := Tab.set s.tails i v }
def State.modTailEng (s : State) (i : Nat) (f : Engine → Engine) : State := s.setTailEng i (f (s.tailEng i))

def State.arb (s : State) (i : Nat) : Arbiter := Tab.get {} s.arbs i
def State.setArb (s : State) (i : Nat) (v : Arbiter) : State := { s with arbs := Tab.set s.arbs i v }
def State.modArb (s : State) (i : Nat) (f : Arbiter → Arbiter) : State := s.setArb i (f (s.arb i))

def State.queue (s : State) (i : Nat) : FQueue := Tab.get {} s.queues i
def State.setQueue (s : State) (i : Nat) (v : FQueue) : State := { s with queues := Tab.set s.queues i v }
def State.modQueue (s : State) (i : Nat) (f : FQueue → FQueue) : State := s.setQueue i (f (s.queue i))

def State.fn (s : State) (i : Nat) : Fn := Tab.get {} s.fns i
def State.setFn (s : State) (i : Nat) (v : Fn) : State := { s with fns := Tab.set s.fns i v }
def State.modFn (s : State) (i : Nat) (f : Fn → Fn) : State := s.setFn i (f (s.fn i))

def State.lock (s : State) (i : Nat) : Lock := Tab.get {} s.locks i
def State.setLock (s : State) (i : Nat) (v : Lock) : State := { s with locks := Tab.set s.locks i v }
def State.modLock (s : State) (i : Nat) (f : Lock → Lock) : State := s.setLock i (f (s.lock i))

def State.pool (s : State) (i : Nat) : Pool := Tab.get {} s.pools i
def State.setPool (s : State) (i : Nat) (v : Pool) : State := { s with pools := Tab.set s.pools i v }
def State.modPool (s : State) (i : Nat) (f : Pool → Pool) : State := s.setPool i (f (s.pool i))

def State.slot (s : State) (i : Nat) : Slot := Tab.get {} s.slots i
def State.setSlot (s : State) (i : Nat) (v : Slot) : State := { s with slots := Tab.set s.slots i v }
def State.modSlot (s : State) (i : Nat) (f : Slot → Slot) : State := s.setSlot i (f (s.slot i))

def State.ctx (s : State) (i : Nat) : Option Ctx := Tab.get none s.ctxs i
def State.setCtx (s : State) (i : Nat) (v : Option Ctx) : State := { s with ctxs := Tab.set s.ctxs i v }
def State.modCtx (s : State) (i : Nat) (f : Option Ctx → Option Ctx) : State := s.setCtx i (f (s.ctx i))

def State.epoch (s : State) (i : Nat) : BitVec 2 := Tab.get 0 s.epochs i
def State.setEpoch (s : State) (i : Nat) (v : BitVec 2) : State := { s with epochs := Tab.set s.epochs i v }
def State.modEpoch (s : State) (i : Nat) (f : BitVec 2 → BitVec 2) : State := s.setEpoch i (f (s.epoch i))

def State.stackOf (s : State) (i : Nat) : Stack := Tab.get {} s.hbmStacks i
def State.setStackOf (s : State) (i : Nat) (v : Stack) : State := { s with hbmStacks := Tab.set s.hbmStacks i v }
def State.modStackOf (s : State) (i : Nat) (f : Stack → Stack) : State := s.setStackOf i (f (s.stackOf i))

def State.yport (s : State) (i : Nat) : Yport := Tab.get {} s.yports i
def State.setYport (s : State) (i : Nat) (v : Yport) : State := { s with yports := Tab.set s.yports i v }
def State.modYport (s : State) (i : Nat) (f : Yport → Yport) : State := s.setYport i (f (s.yport i))

def State.eth (s : State) (i : Nat) : Eth := Tab.get {} s.eths i
def State.setEth (s : State) (i : Nat) (v : Eth) : State := { s with eths := Tab.set s.eths i v }
def State.modEth (s : State) (i : Nat) (f : Eth → Eth) : State := s.setEth i (f (s.eth i))

def State.sender (s : State) (i : Nat) : Sender := Tab.get {} s.senders i
def State.setSender (s : State) (i : Nat) (v : Sender) : State := { s with senders := Tab.set s.senders i v }
def State.modSender (s : State) (i : Nat) (f : Sender → Sender) : State := s.setSender i (f (s.sender i))

def State.ep (s : State) (i : Nat) : Endpoint := Tab.get {} s.eps i
def State.setEp (s : State) (i : Nat) (v : Endpoint) : State := { s with eps := Tab.set s.eps i v }
def State.modEp (s : State) (i : Nat) (f : Endpoint → Endpoint) : State := s.setEp i (f (s.ep i))

end Sys2Proof.Machine
end

