-- ==== Sys2Proof/Machine/Ops.lean ====
section
/-! DEFINITION. The shared operations: host and stack memory, event records and their sequencer inputs, replies and the
packets they complete, the variant's limits, arbiter and queue numbers. -/

namespace Sys2Proof.Machine

-- Memory: cells in rising address order, none of them zero; an address with no cell reads 0 (log 7, log 8).

/-- The byte at an address. -/
def Memory.read : List Host.Cell → Nat → B8
  | [], _ => 0
  | (j, b) :: t, a => if j = a then b else Memory.read t a

/-- The memory with one byte written, in canonical form. -/
def Memory.write : List Host.Cell → Nat → B8 → List Host.Cell
  | [], a, b => if b = 0 then [] else [(a, b)]
  | (j, c) :: t, a, b =>
    if j = a then (if b = 0 then t else (a, b) :: t)
    else if a < j then (if b = 0 then (j, c) :: t else (a, b) :: (j, c) :: t)
    else (j, c) :: Memory.write t a b

/-- Bytes written at rising addresses. -/
def Memory.writeBytes (m : List Host.Cell) (a : Nat) : Bytes → List Host.Cell
  | [] => m
  | b :: t => Memory.writeBytes (Memory.write m a b) (a + 1) t

/-- `n` bytes read at rising addresses. -/
def Memory.readBytes (m : List Host.Cell) (a : Nat) : Nat → Bytes
  | 0 => []
  | n + 1 => Memory.read m a :: Memory.readBytes m (a + 1) n

/-- Addresses above `lo`, rising, no zero byte. -/
def Memory.wfFrom : Nat → List Host.Cell → Bool
  | _, [] => true
  | lo, (a, b) :: t => decide (lo ≤ a) && (b != 0) && Memory.wfFrom (a + 1) t

/-- The canonical form of a memory. -/
def Memory.wf (m : List Host.Cell) : Bool := Memory.wfFrom 0 m

/-- Bytes the K4 writes to host memory (R327; log 8). -/
def State.hostWrite (s : State) (addr : B64) (bs : Bytes) : State :=
  { s with hostMem := Memory.writeBytes s.hostMem addr.toNat bs }

/-- Bytes the K4 writes to a stack (R374). -/
def State.hbmWrite (s : State) (addr : Nat) (bs : Bytes) : State :=
  { s with hbm := Memory.writeBytes s.hbm addr bs }

/-- One more free value drawn (log 1). -/
def State.draw (s : State) : State := { s with freeCount := s.freeCount + 1 }

-- What the variant carries (Table 00-2, R3).

def Variant.ports : Variant → Nat
  | .k1108 => 1
  | _ => 2

def Variant.stackCount : Variant → Nat
  | .k1108 => 1
  | .k2216 => 2
  | .k2416 => 4

def Variant.heads (v : Variant) : Nat := 8 * v.ports
def Variant.streams (v : Variant) : Nat := 32 * v.ports
def Variant.yalleks (v : Variant) : Nat := 2 * v.ports

/-- Port die of a stream, a head, a pool (R3, R169). -/
def dieOfStream (st : Nat) : Nat := st / 32
def dieOfHead (h : Nat) : Nat := h / 8
def dieOfPool (p : Nat) : Nat := p / 32
def dieOfYallek (p : Nat) : Nat := p / 2

/-- Field of a site: 12 by 16 sites each, Fields 0 and 1 in the top rows (R86). -/
def fieldOfSite (site : Nat) : Nat := (if 384 ≤ site then 2 else 0) + (if site % 32 < 16 then 0 else 1)

/-- The kinds of unit (R87), by the codes of UNIT_ID (Table 14-7): M 1, V 2, S 3, T 4, P 5. -/
inductive UKind where
  | m | v | s | t | p
  deriving DecidableEq, Repr

def UKind.code : UKind → Nat
  | .m => 1 | .v => 2 | .s => 3 | .t => 4 | .p => 5

/-- The unit kind of a local row and column (Table 04-1, Table 04-2). -/
def kindAt (row col : Nat) : UKind :=
  if col = 1 || col = 4 || col = 11 || col = 14 then .s
  else if col = 6 || col = 9 then .v
  else if col = 7 then (if row < 8 then .t else .m)
  else if col = 8 then (if row < 4 then .m else if row < 9 then .p else if row < 11 then .s else .v)
  else .m

def kindOf (site : Nat) : UKind := kindAt (site / 32 % 12) (site % 16)

/-- Input queues by kind (Table 04-3). -/
def UKind.queues : UKind → Nat
  | .m => 3 | .v => 2 | .s => 2 | .t => 1 | .p => 1

/-- Whether a site's unit works (R90). -/
def State.works (s : State) (site : Nat) : Bool := !s.part.fused.contains site

/-- Whether the part is past start-up (R436). -/
def State.ready (s : State) : Bool := s.boot.phase == .ready

/-- Whether a Port die is out of reset and its clock runs (R85, R435). -/
def State.portUp (s : State) (d : Nat) : Bool := s.ready && d < s.part.variant.ports && !s.lostClocks.contains (5 + d)

-- Event records (Table 13-10, Table 13-11, Table 13-13).

/-- The events of the log. -/
inductive Ev where
  | frame | hazard | powerOn | overrun | logGap | queueFlush
  | headInt | headIbi | frameGap | fnRepeat | headAuthFail | tempFail | nvmFault | ledgerTorn | ledgerLost | pendingLost
  | nvmBudget | nvmExhausted | wearWarn | wearLimit | headAttached
  | dvfsDone | ptpHoldover | dtbStep | clkLoss | clkFast | clkRestored
  | tagUe | parErr | epochDiscard | skidOvf | sramUe | statsLost | illegalOp | tagDeadlock | fusedDrop | progUe
  | progWriteDenied | unitReset
  | stallOn | stallOff | trimApplied
  | treeSkipped | sceneUnstaged | sceneLate | eclosionStart | eclosionDone | contextCocoon | contextAborted | contextFault
  | contextReleased
  | cmdFetchErr | cspiPktErr
  | hbmCe | hbmUe | hbmTrainFail | yallekUp | yallekDown | yallekRetry | peerReset | graphBound | alignDone | alignFail
  | ethUp | ethDown | ptpMaster | ptpPort | st2110Late | metaDrop
  | diapauseEnter | diapauseExit | vrFault | thermalThrottle | thermalClear | thermalShutdown | resetDone | fieldReset
  | mcRestart | bootFail | powerMode | dvfsCap
  | capTrigger | capDone | capDrop | dumpDone | dumpErr
  deriving DecidableEq, Repr

/-- Event codes (Table 13-11, R409, and the code lists of chapters 16 and 18). -/
def Ev.code : Ev → Nat
  | .frame => 0x0001 | .hazard => 0x0002 | .powerOn => 0x0003 | .overrun => 0x0004 | .logGap => 0x0005 | .queueFlush => 0x0006
  | .headInt => 0x0100 | .headIbi => 0x0101 | .frameGap => 0x0102 | .fnRepeat => 0x0103 | .headAuthFail => 0x0104
  | .tempFail => 0x0105 | .nvmFault => 0x0106 | .ledgerTorn => 0x0107 | .ledgerLost => 0x0108 | .pendingLost => 0x0109
  | .nvmBudget => 0x010A | .nvmExhausted => 0x010B | .wearWarn => 0x010C | .wearLimit => 0x010D | .headAttached => 0x010E
  | .dvfsDone => 0x0200 | .ptpHoldover => 0x0201 | .dtbStep => 0x0202 | .clkLoss => 0x0203 | .clkFast => 0x0204
  | .clkRestored => 0x0205
  | .tagUe => 0x0300 | .parErr => 0x0301 | .epochDiscard => 0x0302 | .skidOvf => 0x0303 | .sramUe => 0x0304
  | .statsLost => 0x0305 | .illegalOp => 0x0306 | .tagDeadlock => 0x0307 | .fusedDrop => 0x0308 | .progUe => 0x0309
  | .progWriteDenied => 0x030A | .unitReset => 0x030B
  | .stallOn => 0x0400 | .stallOff => 0x0401 | .trimApplied => 0x0402
  | .treeSkipped => 0x0500 | .sceneUnstaged => 0x0501 | .sceneLate => 0x0502 | .eclosionStart => 0x0503
  | .eclosionDone => 0x0504 | .contextCocoon => 0x0505 | .contextAborted => 0x0506 | .contextFault => 0x0507
  | .contextReleased => 0x0508
  | .cmdFetchErr => 0x0600 | .cspiPktErr => 0x0601
  | .hbmCe => 0x0700 | .hbmUe => 0x0701 | .hbmTrainFail => 0x0702 | .yallekUp => 0x0703 | .yallekDown => 0x0704
  | .yallekRetry => 0x0705 | .peerReset => 0x0706 | .graphBound => 0x0707 | .alignDone => 0x0708 | .alignFail => 0x0709
  | .ethUp => 0x070A | .ethDown => 0x070B | .ptpMaster => 0x070C | .ptpPort => 0x070D | .st2110Late => 0x070E
  | .metaDrop => 0x070F
  | .diapauseEnter => 0x0800 | .diapauseExit => 0x0801 | .vrFault => 0x0802 | .thermalThrottle => 0x0803
  | .thermalClear => 0x0804 | .thermalShutdown => 0x0805 | .resetDone => 0x0806 | .fieldReset => 0x0807
  | .mcRestart => 0x0808 | .bootFail => 0x0809 | .powerMode => 0x080A | .dvfsCap => 0x080B
  | .capTrigger => 0x0900 | .capDone => 0x0901 | .capDrop => 0x0902 | .dumpDone => 0x0903 | .dumpErr => 0x0904

/-- Fields of the given bit widths, the first lowest. -/
def packBits : List (Nat × Nat) → Nat
  | [] => 0
  | (w, v) :: t => v % 2 ^ w + 2 ^ w * packBits t

/-- An event record (TYPE 0x0). -/
def evRec (e : Ev) (source fn arg0 arg1 : Nat) (ext : Bytes := []) : Rec :=
  { typ := 0, code := e.code, source := source, fn := BitVec.ofNat 16 fn, arg0 := BitVec.ofNat 32 arg0
    arg1 := BitVec.ofNat 64 arg1, ext := ext }

def Seqr.input (q : Seqr) (i : Nat) : SeqInput := Tab.get {} q.inputs i

/-- Move records from a source's buffer into its DCQ of 8 while there is room (R78). -/
def SeqInput.pump (i : SeqInput) : SeqInput :=
  let n := 8 - i.dcq.length
  { i with dcq := i.dcq ++ i.buf.take n, buf := i.buf.drop n }

/-- The OVERRUN record of a source (R78, R486). -/
def overrunRec (inp count : Nat) : Rec := evRec .overrun inp 0xFFFF count 0

/-- A source writes one record: into its DCQ, or its own buffer of 16, or it is lost and counted; an OVERRUN owed goes
first (R78). -/
def SeqInput.put (inp : Nat) (i : SeqInput) (r : Rec) : SeqInput :=
  let i := i.pump
  let i := if i.lost != 0 && i.buf.length < 16
    then { i with buf := i.buf ++ [overrunRec inp (min i.lost 0xFFFFFFFE)], lost := 0 }.pump else i
  if i.buf.length < 16 then { i with buf := i.buf ++ [r] }.pump else { i with lost := i.lost + 1 }

/-- A source posts a record to the Event Sequencer. -/
def State.post (s : State) (inp : Nat) (r : Rec) : State :=
  let r := { r with seq := s.seqr.posts + 1, row := s.seqr.row }
  { s with seqr := { s.seqr with inputs := Tab.set s.seqr.inputs inp ((s.seqr.input inp).put inp r), posts := s.seqr.posts + 1 } }

/-- Records of an input not numbered yet, oldest first. -/
def SeqInput.all (i : SeqInput) : List Rec := i.dcq ++ i.buf

/-- Whether a record must wait for another to be numbered (R79): a reply for the records posted since its packet's dispatch, those its
command caused among them, and a record for a reply of the last dispatch posted before it (log 38). -/
def Rec.follows (r q : Rec) : Bool :=
  if r.isReply then decide (r.after.1 < q.seq) && decide (q.seq ≤ r.after.2)
  else q.isReply && decide (r.row < q.seq) && decide (q.seq < r.seq)

/-- A source posts an event record with its own input as SOURCE. -/
def State.log (s : State) (e : Ev) (inp fn arg0 arg1 : Nat) (ext : Bytes := []) : State :=
  s.post inp (evRec e inp fn arg0 arg1 ext)

/-- A reset of the source's die: its buffer and loss count are discarded, and an OVERRUN of unknown count comes first
afterwards if anything was discarded (R78). -/
def State.resetSource (s : State) (inp : Nat) : State :=
  let i := s.seqr.input inp
  let j : SeqInput := if i.buf.isEmpty && i.lost == 0 then i
    else { i with buf := [overrunRec inp 0xFFFFFFFF], lost := 0 }.pump
  { s with seqr := { s.seqr with inputs := Tab.set s.seqr.inputs inp j } }

/-- Sequencer input numbers (R77). -/
def inField (f : Nat) : Nat := 16 + f
def inPort (d : Nat) : Nat := 20 + d
def inHbm : Nat := 22
def inMc : Nat := 23
def inFast : Nat := 24
def inHub : Nat := 25
def inClk : Nat := 26
def inPower : Nat := 27
def noFn : Nat := 0xFFFF

-- Status codes (Table 13-7).

inductive Status where
  | ok | clamped | truncated | okLost
  | badOpcode | badHeader | badParam | notPermitted | notOwner | noResource
  | busy | badState | lockHeld | timeout | stalled
  | storeFull | badImage | digestMismatch | checkFail | noFit | slackExceeded | slotConflict | noContext | memError
  | headFault | i3cNack | hwError
  deriving DecidableEq, Repr

def Status.code : Status → Nat
  | .ok => 0x0000 | .clamped => 0x0001 | .truncated => 0x0002 | .okLost => 0x0003
  | .badOpcode => 0x0101 | .badHeader => 0x0102 | .badParam => 0x0103 | .notPermitted => 0x0104 | .notOwner => 0x0105
  | .noResource => 0x0106
  | .busy => 0x0201 | .badState => 0x0202 | .lockHeld => 0x0203 | .timeout => 0x0204 | .stalled => 0x0205
  | .storeFull => 0x0301 | .badImage => 0x0302 | .digestMismatch => 0x0303 | .checkFail => 0x0304 | .noFit => 0x0305
  | .slackExceeded => 0x0306 | .slotConflict => 0x0307 | .noContext => 0x0308 | .memError => 0x0309
  | .headFault => 0x0401 | .i3cNack => 0x0402 | .hwError => 0x0F01

-- Replies and packets in flight (R336-R338).

/-- Whether an opcode runs on the fast path (R337). -/
def fastOpcode (op : Nat) : Bool := op < 0x1000 || (0x8000 ≤ op && op < 0x9000)

/-- The packets in flight of a ring: a function's, or the CSPI queue's (R331). -/
def State.ring (s : State) (f : Nat) (cspi : Bool) : List InFlight :=
  if cspi then s.cspi.inFlight else (s.fn f).inFlight

def State.setRing (s : State) (f : Nat) (cspi : Bool) (l : List InFlight) : State :=
  if cspi then { s with cspi := { s.cspi with inFlight := l } } else s.modFn f (fun x => { x with inFlight := l })

/-- Which entries of a ring may post their reply now: an interpreter's finished packets up to its first unfinished one;
a finished packet with no reply leaves the ring (R337, R338). Gives the entries left and the replies posted. -/
def ringPump : List InFlight → Bool → Bool → List InFlight × List (Bool × Rec)
  | [], _, _ => ([], [])
  | e :: t, bf, bm =>
    let fast := fastOpcode e.opcode
    let blocked := if fast then bf else bm
    if e.posted then let r := ringPump t bf bm; (e :: r.1, r.2)
    else if e.done && !blocked then
      let r := ringPump t bf bm
      match e.reply with
      | none => r
      | some x => ({ e with posted := true } :: r.1, (fast, x) :: r.2)
    else
      let r := if fast then ringPump t true bm else ringPump t bf true
      (e :: r.1, r.2)

/-- The first unfinished entry of a CSEQ and interpreter becomes finished. -/
def ringDone (cseq : B32) (fast : Bool) (out : Option Rec) : List InFlight → List InFlight
  | [] => []
  | e :: t =>
    if e.cseq == cseq && fastOpcode e.opcode == fast && !e.done then
      { e with done := true, reply := out.map (fun r => { r with after := (e.at_, r.after.2) }) } :: t
    else e :: ringDone cseq fast out t

def State.postReply (s : State) (p : Bool × Rec) : State := s.post (if p.1 then inFast else inMc) p.2

/-- A command finishes: it replies when REPLY is set or STATUS is not OK (R336), behind the earlier packets of its ring and
interpreter (R337). A command that no ring holds replies at once. -/
def State.finish (s : State) (k : Pkt) (fast : Bool) (st : Status) (res : List Nat := []) (esnTo : Option B64 := none) : State :=
  let r : Rec := { isReply := true, cspi := k.cspi, urgent := k.urgent, fn := BitVec.ofNat 16 k.fn, cseq := k.cseq
                   status := BitVec.ofNat 16 st.code, result := res.map (BitVec.ofNat 32), esnTo := esnTo
                   after := (s.seqr.row, s.seqr.posts) }
  let out := if k.reply || st != .ok then some r else none
  let ring := s.ring k.fn k.cspi
  if ring.any (fun e => e.cseq == k.cseq && fastOpcode e.opcode == fast && !e.done) then
    let p := ringPump (ringDone k.cseq fast out ring) false false
    p.2.foldl State.postReply (s.setRing k.fn k.cspi p.1)
  else
    match out with
    | none => s
    | some x => s.postReply (fast, x)

-- Functions and their rights (R323, R335).

/-- Whether a function holds EXPERT permission: the PF always does (R335). -/
def State.expertOk (s : State) (f : Nat) : Bool := f == 0 || (s.fn f).expert

/-- Whether a function may act on an object that another function owns (R335). -/
def mayAct (f owner : Nat) : Bool := f == 0 || f == owner

/-- The function that owns a running context. -/
def State.ctxFn (s : State) (o : Nat) : Nat :=
  match s.ctx o with
  | some c => c.fn
  | none => noFn

/-- The function that owns the head of a stream. -/
def State.streamFn (s : State) (st : Nat) : Nat := (s.head (st / 4)).fn

-- Arbiter and queue numbers.

/-- The number under which a framed queue is kept. -/
def queueCode : QId → Nat
  | .reply f => f
  | .spore p => 100 + p
  | .mailbox => 110
  | .eventLog => 111
  | .completion p => 200 + p
  | .ctrl site out => 1000 + site * 5 + out

/-- The number under which an arbiter instance is kept. The control plane has one router with five outputs, and a packet queue per output,
at each of the 768 sites (DESIGN CHOICE, log 38: R135 and R157 give no number and no place). -/
def arbCode : ArbId → Nat
  | .service site => site
  | .hbm k => 768 + k
  | .ctrl site out => 1000 + site * 5 + out
  | .cmdRing => 5000
  | .pool p => 5100 + p
  | .broadcast => 5200
  | .sequencer => 5201
  | .port q => 6000 + queueCode q

/-- Default WAIT_LIMIT by register (Table 06-1, Table 14-5): 0 command ring, 1 and 2 pools, 3 broadcast, 4 control plane,
5 service ports, 6-9 stacks. -/
def wlDefault (i : Nat) : Nat :=
  if i = 3 then 16384 else if i = 5 then 128 else if 6 ≤ i then 512 else 64

/-- The WAIT_LIMIT register in force. -/
def State.wlReg (s : State) (i : Nat) : Nat := Tab.get (wlDefault i) s.greg.wl i

/-- The WAIT_LIMIT of an arbiter (R156, R157); that of a queue's producer port is 64, fixed (DESIGN CHOICE, log 38: R160 gives none). -/
def State.waitLimit (s : State) : ArbId → Nat
  | .service _ => s.wlReg 5
  | .hbm k => s.wlReg (6 + k)
  | .ctrl _ _ => s.wlReg 4
  | .cmdRing => s.wlReg 0
  | .pool p => s.wlReg (1 + dieOfPool p)
  | .broadcast => s.wlReg 3
  | .sequencer => 64
  | .port _ => 64

end Sys2Proof.Machine
end

