-- ==== Sys2Proof/Machine/Flags.lean ====
section
/-! DEFINITION. The flags and identity of a frame (Table 13-12), and the record the K4 keeps of each frame until its record is
written (R347). -/

namespace Sys2Proof.Machine

/-- Frame flag bits of Table 13-12. -/
inductive FFlag where
  | dropped | crcErr | hdrErr | lineLen | short | long | untrusted | worn | limited | clkChg | timeStep | stalled | outDrop
  | dataErr | hazard | dip
  deriving DecidableEq, Repr

def FFlag.ix : FFlag → Nat
  | .dropped => 0 | .crcErr => 1 | .hdrErr => 2 | .lineLen => 3 | .short => 4 | .long => 5 | .untrusted => 6 | .worn => 7
  | .limited => 8 | .clkChg => 9 | .timeStep => 10 | .stalled => 11 | .outDrop => 12 | .dataErr => 13 | .hazard => 14
  | .dip => 15

/-- Frame causes of R347. -/
inductive Cause where
  | none | bufOvf | linkTimeout | headLost | clkLoss | stopped | aborted | flr | tagUe | skidOvf | illegalOp | tagDeadlock
  | fusedDrop | progUe | hazard | unitReset | sramUe
  deriving DecidableEq, Repr

def Cause.code : Cause → Nat
  | .none => 0 | .bufOvf => 1 | .linkTimeout => 2 | .headLost => 3 | .clkLoss => 4 | .stopped => 5 | .aborted => 6 | .flr => 7
  | .tagUe => 8 | .skidOvf => 9 | .illegalOp => 10 | .tagDeadlock => 11 | .fusedDrop => 12 | .progUe => 13 | .hazard => 14
  | .unitReset => 15 | .sramUe => 16

def orBit (v i : Nat) : Nat := if bit v i then v else v + 2 ^ i

def FrameInfo.flag (f : FrameInfo) (b : FFlag) : FrameInfo := { f with flags := orBit f.flags b.ix }
def FrameInfo.has (f : FrameInfo) (b : FFlag) : Bool := bit f.flags b.ix

/-- A frame becomes DROPPED with a cause; the first cause stands (R21, R441). -/
def FrameInfo.drop (c : Nat) (f : FrameInfo) : FrameInfo :=
  if f.has .dropped then f else { f.flag .dropped with cause := c }

/-- Apply a function to one frame of a stream. -/
def Strm.modFrame (x : Strm) (fseq : B16) (f : FrameInfo → FrameInfo) : Strm :=
  { x with frames := x.frames.map (fun y => if y.fseq == fseq then f y else y) }

/-- The frame of a stream with a full frame sequence. -/
def Strm.info (x : Strm) (fseq : B16) : Option FrameInfo := x.frames.find? (fun y => y.fseq == fseq)

/-- The full frame sequence a stream recorded for the low 8 bits a flit carries (R81). -/
def Strm.fullSeq (x : Strm) (f8 : Nat) : B16 :=
  match x.frames.reverse.find? (fun y => y.fseq.toNat % 256 == f8) with
  | some y => y.fseq
  | none => BitVec.ofNat 16 f8

/-- Frames in flight: those whose record is not written. -/
def Strm.inFlight (x : Strm) : List FrameInfo := x.frames.filter (fun f => !f.written)

def State.modFrame (s : State) (st : Nat) (fseq : B16) (f : FrameInfo → FrameInfo) : State :=
  s.modStrm st (fun x => x.modFrame fseq f)

/-- Set a flag on a frame named by a flit's 8 bits. -/
def State.flagFrame8 (s : State) (st f8 : Nat) (b : FFlag) : State :=
  s.modFrame st ((s.strm st).fullSeq f8) (fun f => f.flag b)

/-- Set a flag on every frame of a stream in flight. -/
def Strm.flagOpen (x : Strm) (b : FFlag) : Strm :=
  { x with frames := x.frames.map (fun f => if f.written || f.out then f else f.flag b) }

/-- Drop every frame of a stream that is in flight, and let its record be written. -/
def Strm.dropOpen (x : Strm) (c : Nat) : Strm :=
  { x with frames := x.frames.map (fun f => if f.written || f.out then f else { f.drop c with out := true }) }

/-- Numbers of a table's entries that satisfy a predicate. -/
def Tab.keys {α : Type} (t : List (Nat × α)) (p : α → Bool) : List Nat := (t.filter (fun e => p e.2)).map (·.1)

/-- Streams bound to a running context (R303). -/
def State.ctxStreams (s : State) (o : Nat) : List Nat := Tab.keys s.streams (fun x => x.ctx == some o)

/-- Running contexts. -/
def State.liveCtxs (s : State) : List Nat := Tab.keys s.ctxs (fun c => c.isSome)

def State.modRunning (s : State) (o : Nat) (f : Ctx → Ctx) : State := s.setCtx o ((s.ctx o).map f)

/-- Whether a context's region has a site in a Field. -/
def Ctx.touchesField (c : Ctx) (f : Nat) : Bool := c.region.any (fun site => fieldOfSite site == f)

end Sys2Proof.Machine
end

