-- ==== Sys2Proof/Machine/CtxOps.lean ====
section
/-! DEFINITION. Operations on running contexts: masking a stall group, flushing output queues and pools, stopping streams,
the clearing of R315 that an ABORT and a fault share, and the emptiness of a region. -/

namespace Sys2Proof.Machine

/-- A counter that stops at its largest value (R354). -/
def sat32 (v : BitVec 32) (n : Nat) : BitVec 32 := BitVec.ofNat 32 (min (v.toNat + n) 0xFFFFFFFF)

/-- KIND, STREAM, FSEQ, LINE, CHAN, CHUNK and EPOCH of a flit (Table 05-1). -/
def flitKind (f : Flit) : Nat := bits f.tag.toNat 45 3
def flitStream (f : Flit) : Nat := bits f.tag.toNat 39 6
def flitFseq (f : Flit) : Nat := bits f.tag.toNat 31 8
def flitLine (f : Flit) : Nat := bits f.tag.toNat 18 13
def flitChan (f : Flit) : Nat := bits f.tag.toNat 10 8
def flitChunk (f : Flit) : Nat := bits f.tag.toNat 2 8
def flitEpoch (f : Flit) : Nat := bits f.tag.toNat 0 2

/-- KIND codes (R125). -/
def kBubble : Nat := 0
def kData : Nat := 1
def kEol : Nat := 2
def kEof : Nat := 3
def kPoison : Nat := 4

/-- Slot-table entry fields (Table 05-2). -/
def slotValid (e : B16) : Bool := e.getLsbD 15 && bits e.toNat 12 3 ≤ 4
def slotSrc (e : B16) : Nat := bits e.toNat 12 3
def slotOwner (e : B16) : Nat := bits e.toNat 8 4
def slotLane (e : B16) : Nat := bits e.toNat 6 2
def slotQueue (e : B16) : Nat := bits e.toNat 4 2

-- Spores (R383, R384, Table 15-4).

/-- The yallek origin of a port (R361). -/
def yOrigin (p : Nat) : Nat := if p < 2 then 68 + p else 132 + p

/-- The STALLMAP a port sends: groups asserted by an origin other than its own (R395). -/
def State.stallmap (s : State) (p : Nat) : Nat :=
  (List.range 16).foldl (fun a g =>
    let x := s.group g
    let others := Tab.keys s.origins (fun o => o.en && o.req && o.group == g)
    let mine := if others.isEmpty then x.first == yOrigin p else others == [yOrigin p]
    if x.asserted && !mine then a + 2 ^ g else a) 0

/-- A whole Spore of a port: header, body padded to the least length, CRC-32 trailer (R383). -/
def State.spore (s : State) (p typ epoch seq : Nat) (body : Bytes) : Bytes :=
  let y := s.yport p
  let len := max 64 (16 + (body.length + 7) / 8 * 8 + 8)
  let b := toLe 1 typ ++ toLe 1 epoch ++ toLe 2 len ++ toLe 2 seq ++ toLe 2 (y.rxSeq.toNat + 65535) ++ toLe 2 y.freed.toNat
    ++ toLe 2 (s.stallmap p) ++ toLe 4 0 ++ body
  let b := b ++ List.replicate (len - 8 - b.length) 0
  b ++ toLe 4 (crc32 b) ++ toLe 4 0

/-- Sequenced Spores go out while fewer than 64 are unacknowledged and the 64 KiB replay buffer has room (R384). -/
def Yport.pump : Nat → Yport → Yport
  | 0, y => y
  | n + 1, y =>
    match y.tx with
    | [] => y
    | b :: t =>
      if y.replay.length < 64 && (y.replay.map (fun r => r.2.2.length)).sum + b.length ≤ 65536 then
        Yport.pump n { y with tx := t, sent := b :: y.sent, replay := y.replay ++ [(BitVec.ofNat 16 (fieldLe b 4 2), 0, b)] }
      else y

/-- Queue a sequenced Spore of a port. -/
def State.queueSpore (s : State) (p typ epoch : Nat) (body : Bytes) : State :=
  let b := s.spore p typ epoch (s.yport p).txSeq.toNat body
  s.modYport p (fun y => ({ y with tx := y.tx ++ [b], txSeq := y.txSeq + 1 } : Yport).pump 64)

/-- Send an unsequenced Spore of a port. -/
def State.sendSpore (s : State) (p typ : Nat) (body : Bytes) : State :=
  let b := s.spore p typ 0 0 body
  s.modYport p (fun y => { y with sent := b :: y.sent })

/-- A change of a group's state: two STALL Spores on every up port that serves its context (R395). -/
def State.stallChanged (s : State) (g : Nat) : State :=
  (Tab.keys s.yports (fun y => y.up && y.owner == some g)).foldl (fun s p => (s.sendSpore p 0x12 []).sendSpore p 0x12 []) s

-- Stall groups.

/-- An assertion of a group ends: its time and its longest are counted, and STALL_OFF is owed (R149). -/
def Group.release (g : Group) (now : Nat) (held : Bool) : Group :=
  if g.asserted then
    let t := max (if held then 32 else 0) (10 * (now - g.since))
    let o := g.off.getD (0, 0)
    { g with asserted := false, minHold := false, time := g.time + BitVec.ofNat 64 t
             longest := max g.longest (min t 0xFFFFFFFF), off := some (o.1 + t, o.2 + 1) }
  else g

/-- Queues and lanes (3 + lane) still above their bound since a freeze (R290). -/
def Unit.stillAbove (u : Unit) : List Nat :=
  u.skidding.filter (fun i =>
    if i < 3 then decide (Tab.get 64 u.qbound i < (Tab.get [] u.queues i).length)
    else decide (Tab.get 16 u.laneBound (i - 3) < (Tab.get [] u.lanes (i - 3)).length))

/-- A unit leaves its freeze after `n` frozen cycles (R149, R279, R290). -/
def Unit.unfreeze (n : BitVec 64) (u : Unit) : Unit :=
  if u.frozen then { u with frozen := false, stallCyc := u.stallCyc + n, skidding := u.stillAbove } else u

/-- Clear the freeze of every member of a group when a mask ends its assertion (R139, R143). The unit's frozen cycles count; the mask
brings no count of them, so that their number is a free value (log 1). -/
def State.unfreezeGroup (s : State) (o : Nat) : State :=
  let region := match s.ctx o with | some c => c.region | none => []
  let s := (region.filter (fun i => (s.unit i).frozen)).foldl (fun (s : State) i =>
    ({ s with units := Tab.upd {} (Unit.unfreeze (Config.unstated s.freeCount)) s.units [i] } : State).draw) s
  let s := { s with streams := Tab.upd {} (fun x : Strm => { x with frozen := false }) s.streams
                      ((s.ctxStreams o).filter (fun i => (s.strm i).frozen)) }
  { s with gates := Tab.mapVals (fun g : Gate => if g.owner == some o then { g with frozen := false } else g) s.gates }

/-- Mask a stall group: an assertion in course ends at once, and its members unfreeze (R139, R307, R315). -/
def State.maskGroup (s : State) (g : Nat) : State :=
  let was := (s.group g).asserted
  let s := s.modGroup g (fun x => { x.release s.kcycles false with masked := true })
  (if was then s.stallChanged g else s).unfreezeGroup g

/-- Whether an enabled origin of a group requests a stall. -/
def State.groupWanted (s : State) (g : Nat) : Bool := Tab.keys s.origins (fun o => o.en && o.req && o.group == g) != []

/-- A group whose minimum hold is over and whose origins are all quiet is released (R139, R143). -/
def State.settleGroup (s : State) (g : Nat) : State :=
  let x := s.group g
  if x.asserted && !x.minHold && !s.groupWanted g then (s.setGroup g (x.release s.kcycles true)).stallChanged g else s

/-- An origin raises or drops its request (R138). -/
def State.request (s : State) (o : Nat) (on : Bool) : State :=
  let x := s.origin o
  if on == x.req then s
  else if on then s.setOrigin o { x with req := true, since := s.kcycles }
  else (s.setOrigin o { x with req := false }).settleGroup x.group

/-- Origins of a stream: its replay input and its output queue (R361). -/
def replayOrigin (st : Nat) : Nat := if st < 32 then 4 + st else 38 + st
def outOrigin (st : Nat) : Nat := if st < 32 then 36 + st else 70 + st

-- Output queues, buffers and pools.

/-- A completion record (Table 06-4). -/
def cplBytes (status st flags fseq line lines pool tag bytes stamp : Nat) : Bytes :=
  toLe 4 2 ++ toLe 2 status ++ toLe 1 st ++ toLe 1 flags ++ toLe 2 fseq ++ toLe 2 line ++ toLe 2 lines ++ toLe 2 pool
    ++ toLe 4 tag ++ toLe 4 bytes ++ toLe 8 stamp

/-- Written records at the front of a completion queue, and the rest: the consumer stops at an unwritten slot (R161). -/
def cplReady : List Cpl → List Bytes × List Cpl
  | [] => ([], [])
  | c :: t =>
    match c.record with
    | none => ([], c :: t)
    | some r => let x := cplReady t; (r :: x.1, x.2)

/-- Deliver the written records at the front of a pool's completion queue to its ring in host memory (R171). -/
def State.deliverCpl (s : State) (p : Nat) : State :=
  let x := s.pool p
  let r := cplReady x.cpl
  let s := r.1.foldl (fun s b =>
      let y := s.pool p
      (s.hostWrite (y.cplRing + BitVec.ofNat 64 (32 * (y.cplProd % 2 ^ y.cplOrder))) b).modPool p
        (fun z => { z with cplProd := z.cplProd + 1 })) s
  let s := s.modPool p (fun z => { z with cpl := r.2 })
  s.modFn x.fn (fun f => { f with unsigCpls := f.unsigCpls + r.1.length })

/-- Reserve a completion record (R161, R171): its ticket, and the state. -/
def State.reserveCpl (s : State) (p : Nat) : Nat × State :=
  let t := (s.pool p).tickets
  (t, s.modPool p (fun z => { z with tickets := t + 1, cpl := z.cpl ++ [{ ticket := t }] }))

/-- Write a reserved completion record, and deliver what is ready. -/
def State.writeCpl (s : State) (p ticket : Nat) (r : Bytes) : State :=
  (s.modPool p (fun z => { z with cpl := z.cpl.map (fun c => if c.ticket == ticket then { c with record := some r } else c) })).deliverCpl p

/-- FLAGS of a buffer's completion record (Table 06-4): END_OF_FRAME at the frame's end, and FRAME_MARK once the frame carries a mark. -/
def Strm.bufFlags (x : Strm) (b : OpenBuf) (eof : Bool) : Nat :=
  Nat.lor (Nat.lor b.flags (if eof then 1 else 0)) (if (x.info b.fseq).any (fun i => i.flags != 0) then 2 else 0)

/-- Close the open buffer of a stream with a status (R170-R174). -/
def State.closeBuf (s : State) (st status : Nat) (eof : Bool) : State :=
  let x := s.strm st
  match x.openBuf with
  | none => s
  | some b =>
    let fl := x.bufFlags b eof
    (s.modStrm st (fun y => { y with openBuf := none })).writeCpl x.pool b.ticket
      (cplBytes status st fl b.fseq.toNat b.first b.lines x.pool b.desc.tag.toNat b.bytes b.stamp.toNat)

/-- Close the open buffer of a stream's HBM output ring (R379). -/
def State.closeRing (s : State) (st status : Nat) (eof : Bool) : State :=
  let x := s.strm st
  match x.ringBuf with
  | none => s
  | some b =>
    let fl := x.bufFlags b eof
    (s.modStrm st (fun y => { y with ringBuf := none })).writeCpl x.pool b.ticket
      (cplBytes status st fl b.fseq.toNat b.first b.lines x.pool b.desc.tag.toNat b.bytes b.stamp.toNat)

/-- Flush a framed queue in its own right: committed items and open words go, the open item and every reservation are
poisoned, and the epoch counts (R165-R167). -/
def FQueue.flush (q : FQueue) : FQueue :=
  { q with items := [], opened := [], poisoned := q.isOpen || q.poisoned, tooLong := false
           lp := [], lpPoisoned := q.lpPoisoned ++ (q.lp.filter (fun i => i.slot.isNone)).map (·.producer)
           flushEpoch := q.flushEpoch + 1 }

/-- The flush of some producers' reservations in a length-prefix queue: they are released, and their producers poisoned (R166, R167). -/
def FQueue.flushOf (who : Nat → Bool) (q : FQueue) : FQueue :=
  { q with lp := q.lp.filter (fun i => !who i.producer)
           lpPoisoned := q.lpPoisoned ++ ((q.lp.filter (fun i => i.slot.isNone && who i.producer)).map (·.producer)) }

/-- Return one unused cached descriptor: LINES 0; the fields of Table 06-4 that name a frame have no stated value (log 17). -/
def State.returnDesc (s : State) (p status : Nat) (d : PoolDesc) : State :=
  let u := (Config.unstated s.freeCount).toNat
  let v := (Config.unstated (s.freeCount + 1)).toNat
  let r := s.draw.draw.reserveCpl p
  r.2.writeCpl p r.1 (cplBytes status (bits u 0 8) (bits u 8 8) (bits u 16 16) (bits u 32 16) 0 p d.tag.toNat 0 v)

/-- The 32-byte flits of an output line on the path to the Port die; an end-of-frame tag is one flit (R168). -/
def OutLine.flits (l : OutLine) : Nat := if l.eof then 1 else max 1 ((l.vals.length + 15) / 16)

/-- What is left of the items on the path to an output queue when the flits that have arrived are flushed: an item of which a flit has
arrived goes, but for an end-of-frame tag, which closes the frame. -/
def unarrived : Nat → List OutLine → List OutLine
  | _, [] => []
  | n, l :: t => if n = 0 then l :: t else if l.eof then l :: unarrived (n - l.flits) t else unarrived (n - l.flits) t

/-- Flush a stream's output queue (R165, R172): status 2 FLUSHED or 3 ABORTED; cause as Table 13-13 numbers it. Its request for a
stall ends with the lines that made it. -/
def State.flushOutput (s : State) (st status cause : Nat) : State :=
  let p := (s.strm st).pool
  let s := (s.closeBuf st status false).closeRing st status false
  let s := match (s.strm st).granted with | some d => s.returnDesc p status d | none => s
  let s := if status == 3 then s.modQueue (200 + p) (FQueue.flushOf (fun i => i == st)) else s
  let s := s.modStrm st (fun y => { y with
    oq := [], latPend := [], ring := [], ringRow := [], granted := none
    toOut := unarrived y.oqIn y.toOut, oqIn := 0, skid := 0
    outDrop := if status == 3 then none else y.outDrop, ringDrop := if status == 3 then none else y.ringDrop
    flushEpoch := BitVec.ofNat 8 (y.flushEpoch.toNat + 1) })
  let s := s.request (outOrigin st) false
  s.log .queueFlush (inPort (dieOfStream st)) (s.streamFn st) (packBits [(8, 1), (8, 0), (16, st)])
    (packBits [(8, (s.strm st).flushEpoch.toNat), (8, cause)])

/-- Flush a pool (R172): the open buffers of its streams complete, its cached descriptors return. -/
def State.flushPool (s : State) (p status cause : Nat) : State :=
  let owned := Tab.keys s.streams (fun x => x.pool == p)
  let s := owned.foldl (fun s st => (s.closeBuf st status false).closeRing st status false) s
  let held := owned.filterMap (fun st => (s.strm st).granted)
  let s := owned.foldl (fun s st => s.modStrm st (fun y => { y with granted := none })) s
  let s := ((s.pool p).cache ++ held).foldl (fun s d => s.returnDesc p status d) s
  let s := (s.modPool p (fun z => { z with cache := [], flushEpoch := z.flushEpoch + 1 })).modQueue (200 + p) FQueue.flush
  s.log .queueFlush (inPort (dieOfPool p)) (s.pool p).fn (packBits [(8, 2), (8, 0), (16, p)])
    (packBits [(8, (s.pool p).flushEpoch.toNat), (8, cause)])

/-- Flush a function's reply queue (R165). -/
def State.flushReplies (s : State) (f cause : Nat) : State :=
  let s := (s.modFn f (fun x => { x with replyQ := [], replyEpoch := x.replyEpoch + 1 })).modQueue f FQueue.flush
  s.log .queueFlush inFast f (packBits [(8, 0), (8, 0), (16, f)]) (packBits [(8, (s.fn f).replyEpoch.toNat), (8, cause)])

-- Stopping streams (R313).

/-- Whether a stream counts as stopped: not started, or with a stop in force. -/
def Strm.stopping (x : Strm) : Bool := !x.started || x.stopNext || x.stopNow

/-- Whether a head is streaming: one of its LIVE streams runs (R44, R444). -/
def State.headStreaming (s : State) (h : Nat) : Bool :=
  [0, 1, 2, 3].any (fun v => let x := s.strm (4 * h + v); x.started && x.source == 0)

/-- The power of a head goes off: ABSENT, with nothing left on its bus (R27, R341). -/
def Head.off (x : Head) : Head :=
  { x with pwrEn := false, state := .absent, cause := 0, i3c := [], sclHeld := false, commitDue := false, detach := none
           authFailed := false, evPosted := none, focusHeld := none, hsDiscard := false }

/-- A HEAD_DETACH whose streams have stopped and whose commit has ended, or can not be made (R43, R49), turns the head off. -/
def State.detachStep (s : State) (h : Nat) : State :=
  let x := s.head h
  match x.detach with
  | none => s
  | some k =>
    if s.headStreaming h || x.commit.isSome || (x.commitDue && x.state == .ready && !x.exhausted) then s
    else
      let s := match x.auth with
        | some a => match a.pkt with | some q => s.finish q false .headFault | none => s
        | none => s
      (s.modHead h (fun y => { y.off with auth := none })).finish k false .ok

/-- When the last running stream of a head stops, a ledger commit is due (R45). -/
def State.stopCommit (s : State) (h : Nat) : State :=
  if s.headStreaming h then s else (s.modHead h (fun x => { x with commitDue := true })).detachStep h

/-- A stream is stopped: it admits no more, and no next frame comes for a focus write that waits for one (log 40). -/
def State.endStream (s : State) (st : Nat) : State :=
  let was := (s.strm st).started && (s.strm st).source == 0
  let s := s.modHead (st / 4) (fun y => { y with focusHeld := y.focusHeld.filter (fun f => f.stream != st) })
  let s := s.modStrm st (fun x => { x with started := false, admitting := false, startAt := none, stopNext := false, stopNow := false })
  if was then s.stopCommit (st / 4) else s

/-- A context whose started streams are all stopped enters STOPPING (R313). -/
def State.checkStopping (s : State) (o : Nat) : State :=
  match s.ctx o with
  | none => s
  | some c =>
    if c.state == .running && (s.ctxStreams o).all (fun st => (s.strm st).stopping) then
      -- an evaluation that has started is discarded with the stop (R244)
      s.setCtx o (some { c with state := .stopping, models := Tab.mapVals (fun m : ModelSt => { m with running := none }) c.models })
    else s

/-- Truncate the open frame of a LIVE stream after the lines admitted: a synthetic end-of-frame tag follows, and the frame
is DROPPED with a cause (R32, R146, R313). -/
def State.truncate (s : State) (st : Nat) (c : Cause) : State :=
  let x := s.strm st
  match x.frame with
  | none => s
  | some f =>
    if f.dropping then s
    else
      let x := { x with frame := some { f with dropping := true, cur := none } }
      let x := if !x.admitting then x
        else if x.missing.isEmpty then { x with buf := x.buf ++ [BufItem.eof f.fseq] }
        else { x with missing := x.missing ++ [BufItem.eof f.fseq] }
      (s.setStrm st (x.modFrame f.fseq (FrameInfo.drop c.code))).modHead (st / 4)
        (fun h => { h with framesDropped := h.framesDropped + 1 })

/-- The stream descriptor a bound stream has in its image. -/
def State.sdecl (s : State) (st : Nat) : StreamDecl :=
  let x := s.strm st
  match x.ctx with
  | some o => match s.ctx o with
    | some c => c.place.image.decl.streams.getD x.slotIx {}
    | none => {}
  | none => {}

/-- The Field whose store P-unit serves an Edge engine's stream (R378). -/
def storeField (st : Nat) : Nat := if st < 32 then 0 else 2

/-- The stall origin of a replay stream (Table 05-3): its replay input for a host source, else the store P-unit. -/
def Replay.origin (r : Replay) (st : Nat) : Nat := if r.host then replayOrigin st else storeField st

/-- A stream's late flag changes: its origin requests while any of its streams is late (R138). -/
def State.setLate (s : State) (st : Nat) (r : Replay) (on : Bool) : State :=
  let s := s.modStrm st (fun x => { x with late := on })
  let other := !r.host && s.streams.any (fun e => e.2.late && storeField e.1 == storeField st
    && (match e.2.replay with | some q => !q.host | none => false))
  s.request (r.origin st) (on || other)

/-- A replay stream that no longer waits for a late segment makes no request. -/
def State.dropLate (s : State) (st : Nat) : State :=
  match (s.strm st).late, (s.strm st).replay with
  | true, some r => s.setLate st r false
  | _, _ => s

/-- A basic stop of one stream (R313). -/
def State.stopStream (s : State) (st : Nat) (immediate : Bool) : State :=
  let x := s.strm st
  if !x.started then s
  else
    let live := x.source == 0
    let inFrame := if live then x.admitting && x.frame.any (fun f => !f.dropping) else x.admitting && 0 < x.paceLine && decide (x.paceLine < (s.sdecl st).height)
    let s :=
      if !inFrame then s.endStream st
      else if !immediate then s.modStrm st (fun y => { y with stopNext := true })
      else if live then
        if x.frame.any (fun f => f.cur.isSome) then s.modStrm st (fun y => { y with stopNow := true })
        else (s.truncate st .stopped).endStream st
      else
        let s := s.dropLate st
        let fs := BitVec.ofNat 16 x.paceFrame
        let y := { x with late := false, atEdge := x.atEdge ++ [BufItem.eof fs], paceLine := 0, paceFrame := x.paceFrame + 1 }
        (s.setStrm st (y.modFrame fs (FrameInfo.drop Cause.stopped.code))).endStream st
    match x.ctx with
    | some o => s.checkStopping o
    | none => s

/-- The FSEQ of the last frame a stream admitted. -/
def Strm.lastAdmitted (x : Strm) : Nat :=
  match x.frames.getLast? with
  | some f => f.fseq.toNat
  | none => x.fseq.toNat

-- ABORT and faults (R315, R316).

/-- A removed entry of an exchange route owes its sender a credit (R225). -/
def Unit.owe (u : Unit) (e : QEnt) : Unit :=
  match e.ex with
  | some (site, lane) => { u with backs := Tab.set u.backs (4 * site + lane) (Tab.get 0 u.backs (4 * site + lane) + 1) }
  | none => u

/-- What an ABORT clears in a unit: queue entries are discarded as poison, accumulators, drain sets, generator queues and
inject lanes are cleared, and nothing is left on its side links. -/
def Unit.abort (u : Unit) : Unit :=
  let n := (u.queues.map (fun e => e.2.length)).sum
  let u := (u.queues.flatMap (fun e : Nat × List QEnt => e.2)).foldl Unit.owe u
  { u with queues := [], block := none, drain := none, gens := [], lanes := [], pipe := [], side := [], hold := [], rot := none
           skidding := [], tacc := [], pairs := [], statsDue := none, bankC := u.bankC.map (fun b : Bank => { b with readers := [] }), bankHeld := false
           poisonDisc := u.poisonDisc + BitVec.ofNat 32 n }

/-- Rewrite a flit to poison: its KIND changes, its check code follows, its payload has no defined value (R125, R315). -/
def poisonFlit (n : Nat) (f : Flit) : Flit :=
  { f with tag := BitVec.ofNat 48 (f.tag.toNat % 2 ^ 45 + kPoison * 2 ^ 45), pay := Config.poison n }

/-- A stream of an aborted context: nothing admitted, untaken lines gone, open frames DROPPED. -/
def Strm.abort (x : Strm) (cause : Nat) : Strm :=
  let x := x.dropOpen cause
  { x with started := false, admitting := false, startAt := none, stopNext := false, stopNow := false, buf := [], missing := []
           atEdge := [], edge := none, held := none, tailRows := [], tailTags := [], tailNext := 0, tailDone := none, lineTags := [], toOut := [], late := false
           atGate := [], portRow := [], oqIn := 0, skid := 0
           prefetch := [], posted := none, frame := x.frame.map (fun f => { f with dropping := true, cur := none }) }

/-- CONTROL subtypes: the spec names the four and gives no codes (log 20). -/
def ctlIdent : Nat := 0
def ctlBind : Nat := 1
def ctlUnbind : Nat := 2
def ctlReset : Nat := 3

/-- Send CONTROL UNBIND on every bound port of a context (R448). -/
def State.sendUnbind (s : State) (o : Nat) : State :=
  match s.ctx o with
  | none => s
  | some c =>
    let graph := match c.place.image.decl.link with | some l => l.graph.toNat | none => 0
    (c.boundPorts.filter (fun p => (s.yport p).up)).foldl (fun s p => s.queueSpore p 4 0 (toLe 1 ctlUnbind ++ toLe 4 graph)) s

/-- Steps 1 to 4 of R315 for a context: mask the group, stop the streams, clear the region, flush the outputs. -/
def State.clearContext (s : State) (o : Nat) (cause : Nat) (flushCause : Nat) : State :=
  match s.ctx o with
  | none => s
  | some c =>
    let s := (s.sendUnbind o).maskGroup o
    let sts := s.ctxStreams o
    let s := sts.foldl State.dropLate s
    let heads := (sts.filter (fun st => (s.strm st).started && (s.strm st).source == 0)).map (· / 4)
    let s := { s with streams := Tab.upd {} (fun x : Strm => x.abort cause) s.streams sts }
    let s := heads.foldl (fun s h => s.stopCommit h) s
    let s := { s with units := Tab.upd {} Unit.abort s.units c.region }
    let s := { s with units := Tab.mapVals (fun u : Unit => { u with portQ := u.portQ.filter (fun p => p.2.1 != o) }) s.units }
    let s := { s with gates := Tab.mapVals (fun g : Gate => if g.owner == some o then { g with q := [], freed := 0, hold := false } else g) s.gates }
    let s := { s with tails := Tab.mapVals (fun g : Engine => { g with queues := Tab.mapVals (fun q : List Flit => q.filter (fun f => !sts.contains (flitStream f))) g.queues }) s.tails }
    let s := match c.snap with | some n => s.finish n.pkt true .badState | none => s
    let s := match c.ecl with
      | some e => match e.pkt with | some k => s.finish k (e.kind == 2) .badState | none => s
      | none => s
    let s := sts.foldl (fun s st => s.modEdgeEng (st / 4) (fun g : Engine =>
      { g with queues := Tab.drop (fun i => i / 8 == st % 4) g.queues })) s
    let s := s.modRunning o (fun c =>
      { c with models := Tab.mapVals (fun m : ModelSt => { m with pending := [], running := none }) c.models, snap := none, ecl := none })
    sts.foldl (fun s st => s.flushOutput st 3 flushCause) s

/-- CONTEXT_COCOON, CONTEXT_ABORTED, CONTEXT_FAULT and CONTEXT_RELEASED records (Table 13-13). -/
def State.logCtx (s : State) (e : Ev) (o slot cause fn : Nat) : State :=
  s.log e 16 fn o (packBits [(8, slot), (8, cause)])

/-- The Fields a Border Gate leaves and enters: 24 gates between Fields 0 and 1, 24 between 2 and 3, 32 between 0 and 2, 32 between
1 and 3, the two directions of a row or column in turn (R132; log 26). -/
def gateFields (g : Nat) : Nat × Nat :=
  let p := if g < 24 then (0, 1) else if g < 48 then (2, 3) else if g < 80 then (0, 2) else (1, 3)
  if g % 2 = 0 then p else (p.2, p.1)

/-- Whether a context's region, routes, gates or engines touch a Field (R85, R429). -/
def State.usesField (s : State) (o f : Nat) : Bool :=
  match s.ctx o with
  | none => false
  | some c =>
    c.touchesField f || c.place.entries.any (fun e => fieldOfSite e.1 == f)
      || c.place.gates.any (fun g => (gateFields g).1 == f || (gateFields g).2 == f)
      || (s.ctxStreams o).any (fun st => (if st < 32 then 0 else 2) == f || (if (s.sdecl st).tail < 8 then 1 else 3) == f)

/-- A context enters FAULT (R316). During an eclosion the fault takes effect when Open ends, as an ABORT does (log 21). A REPLACE
that waits needs no stop any more (R317). -/
def State.faultCtx (s : State) (o : Nat) (cause : Cause) : State :=
  match s.ctx o with
  | none => s
  | some c =>
    match c.state with
    | .fault | .releasing | .aborting => s
    | .eclosing =>
      if c.abortPend.isSome then s else s.setCtx o (some { c with abortPend := some cause.code, faulting := true })
    | _ =>
      let s := s.clearContext o cause.code 1
      let s := s.modRunning o (fun c => { c with state := .fault, cause := cause.code })
      s.logCtx .contextFault o c.place.slot cause.code c.fn

/-- Whether a unit holds anything that an empty region must not (R314). -/
def Unit.idle (u : Unit) : Bool :=
  Tab.allVals List.isEmpty u.queues && Tab.allVals List.isEmpty u.lanes && u.pipe.isEmpty && u.drain.isNone && u.rot.isNone
    && u.side.isEmpty && Tab.allVals List.isEmpty u.gens

/-- Whether a stream has nothing on its way to its output queue (R314). -/
def Strm.drained (x : Strm) : Bool :=
  x.buf.isEmpty && x.missing.isEmpty && x.atEdge.isEmpty && x.edge.isNone && x.tailRows.isEmpty && x.atGate.isEmpty && x.toOut.isEmpty
    && x.frames.all (fun f => f.written || f.out)

/-- Whether the region of a context is empty (R314). -/
def State.regionEmpty (s : State) (o : Nat) : Bool :=
  match s.ctx o with
  | none => true
  | some c =>
    c.region.all (fun i => (s.unit i).idle) && (s.ctxStreams o).all (fun st => !(s.strm st).started && (s.strm st).drained)
      && Tab.allVals (fun g : Gate => !(g.owner == some o) || g.q.isEmpty) s.gates

/-- Clear every slot entry of an OWNER number (R304, R319). -/
def State.clearSlots (s : State) (o : Nat) : State :=
  { s with routers := Tab.mapVals (fun r : Router =>
      { r with slots := r.slots.filter (fun x => slotOwner x.2 != o), patch := r.patch.filter (fun x => slotOwner x.2 != o) }) s.routers }

end Sys2Proof.Machine
end

