-- ==== Sys2Proof/Machine/PowerOps.lean ====
section
/-! DEFINITION. Operations on clocks, supply and resets: the effective DVFS point and the course of a change (R62, R63, R414,
R416), Diapause (R418-R421), forced lock releases (R371), and what each reset leaves (R425). -/

namespace Sys2Proof.Machine

-- DVFS points (Table 16-2).

def pointVid : Nat → Nat
  | 0 => 36 | 1 => 38 | 2 => 40 | 3 => 44 | 4 => 48 | 5 => 54 | _ => 60

/-- Frequency of a point in kHz (R59). -/
def pointKhz : Nat → Nat
  | 0 => 400000 | 1 => 550000 | 2 => 700000 | 3 => 850000 | 4 => 1000000 | 5 => 1125000 | _ => 1250000

/-- Warning and exit levels in mV of a VID code: those of its point (Table 16-2). -/
def warnMv (vid : Nat) : Nat := if vid = 36 then 630 else if vid = 38 then 640 else if vid = 40 then 650 else
  if vid = 44 then 670 else if vid = 48 then 690 else if vid = 54 then 720 else 750

/-- The warning level in force (R418). -/
def Supply.warnLevel (p : Supply) : Nat := if p.settling then min (warnMv p.vid) (warnMv p.vidOld) else warnMv p.vid

/-- Whether a bound peer of a graph is in HAZARD mode (R447). -/
def State.hazardPeer (s : State) : Bool :=
  Tab.keys s.yports (fun y => y.bound && (match y.peer with | some b => b.hazard | none => false)) != []

/-- Whether a graph with a device in HAZARD mode is bound here (R447). -/
def State.graphCap (s : State) : Bool := s.hazardPeer

/-- The cap in force on every Field (R414, R441). -/
def State.cap3 (s : State) : Bool := s.modes.hazard || s.supply.throttle || s.graphCap

def State.capPoint (s : State) : Nat := if s.cap3 then 3 else if s.modes.eco then 4 else 6

/-- The effective point of a Field (R414). -/
def State.effective (s : State) (f : Nat) : Nat := min (s.field f).requested s.capPoint

/-- The VID that the Fields not held down need: their effective points, the points they still run at, and those a change in progress
slews to (R62, R416; log 22). -/
def State.neededVid (s : State) : Nat :=
  ((List.range 4).map (fun f => let x := s.field f
    if x.down then 36 else max (max (pointVid (s.effective f)) (pointVid x.point)) (pointVid (x.target.getD x.point)))).foldl max 36

/-- Change the VID code; its settling begins (R412). -/
def State.setVid (s : State) (v : Nat) : State :=
  { s with supply := { s.supply with vidOld := s.supply.vid, vid := v, settling := true } }

/-- The Field that the Yallek ports of a Port die deliver to (R389). -/
def fieldOfYallek (p : Nat) : Nat := if p < 2 then 1 else 3

/-- A change at a Field takes the alignments of its SYNC routes out of force (R393). -/
def State.unalign (s : State) (f : Nat) : State :=
  [0, 1, 2, 3].foldl (fun s p =>
    if fieldOfYallek p == f then s.modYport p (fun y => { y with align := [], probes := [] }) else s) s

/-- Frames in flight in a region with a site in Field `f` carry CLK_CHG (R64). -/
def State.markClkChg (s : State) (f : Nat) : State :=
  let s := s.unalign f
  let os := Tab.keys s.ctxs (fun c => match c with | some c => c.touchesField f | none => false)
  { s with streams := Tab.mapVals (fun x : Strm =>
      match x.ctx with
      | some o => if os.contains o then x.flagOpen .clkChg else x
      | none => x) s.streams }

/-- Whether a Field PLL of a context's region is slewing (R64). -/
def State.slewsUnder (s : State) (o : Nat) : Bool :=
  match s.ctx o with
  | some c => (List.range 4).any (fun f => let x := s.field f; x.target.isSome && !x.raising && !x.lowering && c.touchesField f)
  | none => false

/-- Begin a change of a Field when its effective point differs and none is in progress (R62, R63): step 1 when VDD_ARR must
rise, else the slew at once. -/
def State.retarget (s : State) (f : Nat) (fn : B16) : State :=
  let x := s.field f
  let e := s.effective f
  if x.target.isSome || x.down || e == x.point then s
  else
    let up := s.supply.vid < s.neededVid
    let s := if up then s.setVid s.neededVid else s
    let wait := up || (s.supply.settling && x.point < e)
    let s := s.setField f { x with target := some e, raising := wait, lowering := false, changeFn := fn }
    if wait then s else s.markClkChg f

/-- Every Field follows a cap that was added or removed (R414). -/
def State.retargetAll (s : State) : State :=
  (List.range 4).foldl (fun s f => s.retarget f 0xFFFF) s

/-- Step 3 of a change ends: DVFS_DONE, and the most recent request next (R62, R63). -/
def State.dvfsEnd (s : State) (f : Nat) : State :=
  let x := s.field f
  let s := s.setField f { x with target := none, raising := false, lowering := false }
  let s := s.log .dvfsDone inPower x.changeFn.toNat f (packBits [(8, x.point), (8, s.supply.vid)])
  s.retarget f 0xFFFF

/-- A cap is logged when it is added or removed: 0 ECO, 1 HAZARD, 2 THROTTLE, 3 HAZARD peer (R438, R486). The Fields affected are
those whose effective point it changes; `old` is the machine before. -/
def State.logCap (s old : State) (cap : Nat) (added : Bool) : State :=
  let mask := packBits ((List.range 4).map (fun f => (1, if s.effective f == old.effective f then 0 else 1)))
  s.log .dvfsCap inPower noFn (packBits [(8, cap), (8, if added then 1 else 0), (8, mask)]) 0

-- Diapause.

/-- Whether the Field PLLs run, so that a warning enters Diapause (R419, R435). -/
def State.pllsRun (s : State) : Bool := s.boot.phase == .ready || (s.boot.phase == .startup && 4 ≤ s.boot.bootStep.toNat)

/-- I3C bus addresses (R34): the NVM's static address, and the dynamic addresses of the four targets. -/
def nvmStatic : Nat := 0x50
def nvmAddr : Nat := 0x08
def sensorAddr : Nat := 0x09
def seAddr : Nat := 0x0A
def actAddr : Nat := 0x0B

/-- Whether the transfer in flight of a head is a ledger write: only that is suspended (R50). -/
def Head.ledgerInFlight (h : Head) : Bool :=
  match h.i3c with
  | x :: _ => h.commit.isSome && x.target == nvmAddr && x.rlen == 0
  | [] => false

/-- In Diapause SCL holds a ledger write that is in flight, whenever it came to the front of the queue (R50). -/
def State.sclSettle (s : State) (h : Nat) : State :=
  s.modHead h (fun y => { y with sclHeld := s.supply.diapause && y.ledgerInFlight })

/-- A supply warning (R418-R420): source 0 Field monitor, 1 PWARN_N, 2 VR_FAULT. -/
def State.warning (s : State) (source field mv : Nat) : State :=
  let s := { s with supply := { s.supply with vddMv := mv } }
  if !s.pllsRun then s
  else if s.supply.diapause then { s with supply := { s.supply with dipLow := min s.supply.dipLow mv } }
  else
    let s := { s with supply := { s.supply with diapause := true, dipNow := 0, dipLow := mv, dipCount := s.supply.dipCount + 1 }
                      greg := { s.greg with dip := true } }
    let s := { s with streams := Tab.mapVals (fun x : Strm =>
        if x.ctx.isSome then (x.flagOpen .dip).flagOpen .clkChg else x) s.streams }
    let s := { s with heads := Tab.mapVals (fun h : Head => { h with sclHeld := h.ledgerInFlight }) s.heads }
    let s := [0, 1, 2, 3].foldl (fun s f => s.unalign f) s
    s.log .diapauseEnter inPower noFn (packBits [(8, source), (8, field)]) mv

-- Locks (R366-R371).

/-- Holder codes (R366). -/
def fnCode (f : Nat) : BitVec 10 := BitVec.ofNat 10 (2 * 256 + f)
def peerCode (port f : Nat) : BitVec 10 := BitVec.ofNat 10 (256 + port * 64 + f)
def mcCode : BitVec 10 := BitVec.ofNat 10 (3 * 256)

/-- The word a LOCK_ACQ attempt returns (Table 14-9). -/
def lockResult (granted lost self : Bool) (holder : BitVec 10) (epoch : B16) : Nat :=
  packBits [(16, epoch.toNat), (10, holder.toNat), (3, 0), (1, if self then 1 else 0), (1, if lost then 1 else 0),
    (1, if granted then 1 else 0)]

/-- The LOCK_STATE word (Table 14-9). -/
def Lock.word (l : Lock) : Nat :=
  packBits [(16, l.epoch.toNat), (4, l.waiters.length), (10, l.holder.toNat), (1, if l.ownerLost then 1 else 0),
    (1, if l.holder == 0 then 0 else 1)]

/-- A LOCK Spore with a result word goes to a peer (R388). -/
def lockOpBody (op fnum lock : Nat) (word : Nat) : Bytes := toLe 1 op ++ toLe 1 fnum ++ toLe 1 lock ++ toLe 1 0 ++ toLe 4 word

/-- What an acquire attempt meets (R367). -/
inductive Attempt where
  | granted (lost : Bool)
  | self
  | held
  deriving DecidableEq, Repr

/-- An acquire attempt of a lock by a party (R367). -/
def State.tryLock (s : State) (l : Nat) (code : BitVec 10) : Attempt × State :=
  let x := s.lock l
  if x.holder == 0 then (.granted x.ownerLost, s.setLock l { x with holder := code, ownerLost := false })
  else if x.holder == code then (.self, s)
  else (.held, s)

/-- The lock passes to its oldest waiter, who is granted (R367, R368), or becomes free. -/
def State.handLock (s : State) (l : Nat) : State :=
  let x := s.lock l
  match x.waiters with
  | [] => s.setLock l { x with holder := 0 }
  | w :: t =>
    let lost := x.ownerLost
    let s := s.setLock l { x with holder := w.code, ownerLost := false, waiters := t }
    match w.reply with
    | some k => s.finish k true (if lost then .okLost else .ok) [x.epoch.toNat]
    | none =>
      if bits w.code.toNat 8 2 = 1 then
        s.queueSpore (bits w.code.toNat 6 2) 3 0
          (lockOpBody 2 (bits w.code.toNat 0 6) l (lockResult true lost false w.code x.epoch))
      else s

/-- A forced release of a lock that has a holder (R371). -/
def State.forceLock (s : State) (l : Nat) : State :=
  let x := s.lock l
  if x.holder == 0 then s
  else
    let s := s.setLock l { x with epoch := x.epoch + 1, ownerLost := true, holder := 0 }
    let s := { s with greg := { s.greg with lockLost := true, lockLostMask := s.greg.lockLostMask ||| BitVec.ofNat 64 (2 ^ l) } }
    s.handLock l

/-- A command ends without a reply (R371). -/
def State.silence (s : State) (k : Pkt) (fast : Bool) : State :=
  let p := ringPump (ringDone k.cseq fast none (s.ring k.fn k.cspi)) false false
  p.2.foldl State.postReply (s.setRing k.fn k.cspi p.1)

/-- A party is reset: its queued acquires go, and the locks it holds are released by force (R370, R371). -/
def State.resetHolder (s : State) (p : BitVec 10 → Bool) : State :=
  let gone := s.locks.flatMap (fun e : Nat × Lock => (e.2.waiters.filter (fun w => p w.code)).filterMap (fun w : Waiter => w.reply))
  let s := gone.foldl (fun s k => s.silence k true) s
  let s := { s with locks := Tab.mapVals (fun x : Lock => { x with waiters := x.waiters.filter (fun w => !p w.code) }) s.locks }
  (Tab.keys s.locks (fun x => x.holder != 0 && p x.holder)).foldl (fun s l => s.forceLock l) s

-- Unit resets.

/-- The program-visible state of a unit at the values of Table 10-1 (R252), and its program counter at 0. -/
def Unit.progReset (u : Unit) : Unit :=
  { u with pc := 0, x := [], lc := [], loops := [], cur := { stream := u.curStream }, wp := 0, h := [], z := [], row := []
           fv := [], tacc := [], dirs := [], pend := [], c0 := 0, streamed := [], rowLast := none, rowOut := 0
           rowOp := none, gapDst := none, gapEofs := [], rot := none, macAt := none, line := 0, issuePc := (0, 0), port := [] }

/-- The live counters and peaks of a unit at zero, its counting not begun (Table 14-7, R452, R279). -/
def Unit.clearLive (u : Unit) : Unit :=
  { u with active := 0, tagWait := 0, xwait := 0, stallCyc := 0, bankConf := 0, winBase := {}, winFirst := true, winEof := none
           eclCyc := 0, qpeak := [], lanePeak := 0, skidPeak := [], skidding := [] }

/-- The live counters and the frame counts of a unit at zero (R425). -/
def Unit.clearCounters (u : Unit) : Unit :=
  { u.clearLive with fc := {}, fcLatched := {} }

/-- An expert unit reset: input queues, accumulators, loop counters, statistics banks and the freeze register; SRAM, weight
buffer, parameter table, program and descriptors stay (R121, R252, R425). -/
def Unit.reset (u : Unit) : Unit :=
  { ((u.queues.flatMap (fun e : Nat × List QEnt => e.2)).foldl Unit.owe u).progReset.clearCounters with
      frozen := false, halted := false, queues := [], block := none, drain := none, pipe := [], gens := [], pairs := []
      maxabs := [], satcount := [], statsDue := none, bankA := {}, bankC := none, bankHeld := false, lastClosed := none
      haz := [], hazLogged := [], tagCe := 0, eccCe := 0, progCe := 0, epochDisc := 0, poisonDisc := 0 }

/-- The Field of a site code of the log: a site, Edge engine 0x400 + n, Tail engine 0x410 + n (R486). -/
def fieldOfCode (c : Nat) : Nat :=
  if c < 768 then fieldOfSite c else if c < 0x410 then (if c < 0x408 then 0 else 2) else (if c < 0x418 then 1 else 3)

/-- The UNIT-kind records of a site (Table 13-13): SOURCE is the site's Field. -/
def State.logSite (s : State) (e : Ev) (site owner st f8 line extra : Nat) : State :=
  s.log e (inField (fieldOfCode site)) (s.ctxFn owner) (packBits [(16, site), (8, owner)])
    (packBits [(8, st), (8, f8), (16, line), (32, extra)])

/-- Unit reset of a site: in a running context, that context enters FAULT with UNIT_RESET (R121). -/
def State.unitReset (s : State) (site : Nat) : State :=
  let u := s.unit site
  let s := if u.inCtx then s.faultCtx u.owner .unitReset else s
  let s := s.modUnit site Unit.reset
  s.logSite .unitReset site (if u.inCtx then u.owner else 255) u.cur.stream u.cur.fseq 0 0

/-- Field reset (R429). -/
def State.fieldReset (s : State) (f fn cause : Nat) : State :=
  let os := s.liveCtxs.filter (fun o => s.usesField o f)
  let s := os.foldl (fun s o => s.faultCtx o .unitReset) s
  let s := { s with
    units := s.units.map (fun e : Nat × Unit => if fieldOfSite e.1 == f then (e.1, e.2.reset) else e)
    edges := s.edges.filter (fun e : Nat × Engine => (if e.1 < 8 then 0 else 2) != f)
    tails := s.tails.filter (fun e : Nat × Engine => (if e.1 < 8 then 1 else 3) != f)
    gates := s.gates.map (fun e : Nat × Gate => if (gateFields e.1).1 == f || (gateFields e.1).2 == f
      then (e.1, { e.2 with q := [], freed := 0, hold := false }) else e) }
  let s := (s.modField f (fun x => { x with point := s.effective f, target := none, raising := false, lowering := false, down := false, fcyc := 0 })).unalign f
  let s := if s.neededVid != s.supply.vid then s.setVid s.neededVid else s
  s.log .fieldReset inMc fn f cause

-- Resets (Table 16-4).

/-- The state every reset of the Array and Port dies leaves: BOR and warm reset (R424, R425). What lies in the always-on
domain is kept: DTB, ESN and its input DCQs, pending store, log window, locks, BOOT_SRC, the Diapause counters, the thermal
state and the event bits of the global block (log 23). -/
def State.dieReset (s : State) (cause : Nat) (hbmKept : Bool) : State :=
  let up := Tab.keys s.yports (fun y => y.up)
  let s := up.foldl (fun s p => s.queueSpore p 4 0 (toLe 1 ctlReset)) s
  let s := (List.range 26).foldl (fun s i => s.resetSource i) s
  let s := { s with fns := [], cspi := {} }
  let s := s.resetHolder (fun _ => true)
  { s with
    boot := { s.boot with resetCause := BitVec.ofNat 4 cause, fwVersion := 0, secver := 0, fwLoaded := false
                          bootStep := 0, bootErr := 0, bootAddr := 0, bootLen := 0, bootGo := false, trainHbm := !hbmKept
                          trainLeft := [] }
    modes := {}
    supply := { s.supply with diapause := false, dipNow := 0, vidSettle := 10 }
    dtb := { s.dtb with pendingStep := s.dtb.pendingStep.map (fun r => { r with pkt := none }) }
    greg := { s.greg with tagTimeout := 20, ecloseTimeout := 100, wl := [], hiShadow := [], lastRead := 0 }
    cap := {}, fields := [], heads := [], store := s.store.map (fun e => { e with head := 16 })
    streams := [], units := [], routers := [], gates := [], groups := [], origins := [], edges := [], tails := [], arbs := []
    queues := [], fns := [], pools := [], slots := [], ctxs := [], epochs := []
    hbmStacks := if hbmKept then Tab.mapVals (fun k : Stack => { trained := k.trained }) s.hbmStacks else []
    hbm := if hbmKept then s.hbm else []
    seqr := if hbmKept then s.seqr else { s.seqr with llProd := 0 }
    yports := Tab.mapVals (fun y : Yport => { sent := y.sent }) s.yports
    eths := Tab.mapVals (fun y : Eth => { sent := y.sent }) s.eths
    senders := [], eps := Tab.mapVals (fun e : Endpoint => { perst := e.perst }) s.eps, vfMap := 0, vfEnable := false
    hostIn := [], lostClocks := s.lostClocks.filter (fun c => c == 15 || c == 16) }

/-- Whether the Array and Port dies are out of reset. -/
def State.diesUp (s : State) : Bool :=
  s.boot.phase == .startup || s.boot.phase == .waitHost || s.boot.phase == .halted || s.ready

/-- Start-up begins: step 1, VID to code 60, and the strap decides where step 2 reads (R431, R435). -/
def State.startUp (s : State) : State :=
  let s := { s with supply := { s.supply with vid := 60, vidOld := s.supply.vid, settling := s.supply.vid != 60 || s.supply.settling } }
  -- endpoint A answers configuration requests once its pin is released too (R436)
  let s := if (s.ep 0).perst then s else s.modEp 0 (fun e => { e with config := true })
  let b := s.boot
  if b.bootSrc == 3 then { s with boot := { b with phase := .halted, bootStep := 2, bootErr := 5 } }
  else if b.bootSrc == 2 then { s with boot := { b with phase := .waitHost, bootStep := 0xF0 } }
  else { s with boot := { b with phase := .startup, bootStep := 2 } }

/-- A device warm reset (R424, R427): the stacks go to self-refresh first unless the reset follows a clock loss. -/
def State.warmReset (s : State) (cause : Nat) (hbmKept : Bool) : State := (s.dieReset cause hbmKept).startUp

/-- A hold in reset with the always-on domain kept: BOR, thermal shutdown, clock loss. -/
def State.holdReset (s : State) (cause : Nat) (hbmKept : Bool) (ph : Phase) : State :=
  let s := s.dieReset cause hbmKept
  { s with boot := { s.boot with phase := ph } }

end Sys2Proof.Machine
end

