-- ==== Sys2Proof/Machine/Power.lean ====
section
/-! DEFINITION. Supply, Diapause, thermal limits, resets, boot and start-up (chapter 16). -/

namespace Sys2Proof.Machine

/-- VID_SETTLE has passed since the latest VID change with VR_PGOOD high (R412): step 1 of a change ends and its slew begins;
step 3 ends (R62). -/
def vidSettle (s : State) : State :=
  if !s.supply.settling || !s.supply.vrPgood then s
  else
    let s := { s with supply := { s.supply with settling := false, vidOld := s.supply.vid } }
    let up := Tab.keys s.fields (fun x => x.raising)
    let s := { s with fields := Tab.mapVals (fun x : FieldClk => { x with raising := false }) s.fields }
    let s := up.foldl (fun s f => s.markClkChg f) s
    (Tab.keys s.fields (fun x => x.lowering)).foldl (fun s f => s.dvfsEnd f) s

def execVidSettled (s : State) : Host.Outcome State Fault Refusal := .next (vidSettle s)

/-- A Field PLL reaches its new point; VDD_ARR is lowered next if the change allows it, else the change ends (R62). -/
def slewDone (f : Nat) (s : State) : State :=
  let x := s.field f
  match x.target with
  | none => s
  | some t =>
    if x.raising || x.lowering then s
    else
      let s := (s.setField f { x with point := t }).markClkChg f
      if s.neededVid < s.supply.vid then (s.setVid s.neededVid).modField f (fun y => { y with lowering := true })
      else s.dvfsEnd f

def execDvfsSlewDone (f : Fin 4) (s : State) : Host.Outcome State Fault Refusal := .next (slewDone f s)

/-- PWARN_N goes low (R418). -/
def execPwarn (mv : B16) (s : State) : Host.Outcome State Fault Refusal :=
  .next (if s.boot.phase == .por then s
    else ({ s with supply := { s.supply with pwarnLow := true } }).warning 1 255 mv.toNat)

/-- A Field monitor reads VDD_ARR below the warning level in force (R418). -/
def execVddArrWarning (f : Fin 4) (mv : B16) (s : State) : Host.Outcome State Fault Refusal :=
  .next (if s.boot.phase == .por || s.supply.warnLevel ≤ mv.toNat then s else s.warning 0 f mv.toNat)

/-- VR_PGOOD low for more than 10 us: VR_FAULT is logged and handled as a warning (R412). -/
def execVrFault (mv : B16) (s : State) : Host.Outcome State Fault Refusal :=
  .next (if s.boot.phase == .por then s
    else (({ s with supply := { s.supply with vrPgood := false } }).log .vrFault inPower noFn s.supply.vid 0).warning 2 255 mv.toNat)

/-- The exit conditions of R421 have held for 20 us. -/
def execDiapauseExit (s : State) : Host.Outcome State Fault Refusal :=
  .next (
    if !s.supply.diapause then s
    else
      let p := s.supply
      let s := { s with supply := { p with diapause := false, dipNow := 0, pwarnLow := false, vrPgood := true }
                        heads := Tab.mapVals (fun h : Head => { h with sclHeld := false }) s.heads
                        streams := Tab.mapVals (fun x : Strm => if x.ctx.isSome then (x.flagOpen .dip).flagOpen .clkChg else x) s.streams }
      let s := [0, 1, 2, 3].foldl (fun s f => s.unalign f) s
      s.log .diapauseExit inPower noFn 0 (packBits [(32, min p.dipNow 0xFFFFFFFF), (16, p.dipLow)]))

/-- Brown-out reset: rail 0 VDD_ARR, 1 VDD_PORT, 2 VDD_IO (R423, Table 16-7). -/
def execBor (rail : Fin 3) (s : State) : Host.Outcome State Fault Refusal :=
  .next (if s.boot.phase == .por then s else s.holdReset (5 + rail) false .borHold)

/-- Every monitored rail in range for 1 ms: start-up runs, unless a thermal shutdown or a lost XIN or KCLK still holds the
dies (R423, R417, R85). -/
def execBorRelease (s : State) : Host.Outcome State Fault Refusal :=
  .next (
    if s.boot.phase != .borHold then s
    else if s.supply.shutdown then { s with boot := { s.boot with phase := .thermalHold } }
    else if s.lostClocks.any (fun c => c == 15 || c == 16) then { s with boot := { s.boot with phase := .clockHold } }
    else s.startUp)

/-- POR, by SYS_RST_N or by VDD_AON: everything returns to its reset value (R424, R425). The waiting commands, the host's
memory and the part itself are not the K4's to reset. -/
def execPor (pin : Bool) (s : State) : Host.Outcome State Fault Refusal :=
  .next { State.reset with
    pending := s.pending, freeCount := s.freeCount, kcycles := s.kcycles, part := s.part, hostMem := s.hostMem
    boot := { State.reset.boot with resetCause := if pin then 1 else 0 }
    eps := Tab.mapVals (fun e : Endpoint => { perst := e.perst }) s.eps }

/-- POR is released: BOOT_SRC is sampled, POWER_ON is the first record, and start-up begins (R431, R80, R435). -/
def execPorRelease (bootSrc : BitVec 2) (s : State) : Host.Outcome State Fault Refusal :=
  .next (
    if s.boot.phase != .por then s
    else
      let s := { s with boot := { s.boot with bootSrc := bootSrc, trainHbm := true } }
      let s := s.log .powerOn inPower noFn 0 0
      s.startUp)

/-- Why a firmware image is not accepted (R432): the codes of BOOT_ERR. -/
def fwError (minSecver : Nat) (image : Option Bytes) : Nat :=
  match image with
  | none => 4
  | some b =>
    let len := fieldLe b 12 4
    if b.take 4 != [0x4B, 0x46, 0x57, 0x31] || fieldLe b 4 2 != 1 || len == 0 || 1048576 < len || b.length < 128 + len then 1
    else if !ecdsaOk Config.fwRootX Config.fwRootY (fieldLe b 64 32) (fieldLe b 96 32) (b.take 64 ++ (b.drop 128).take len) then 2
    else if fieldLe b 8 4 < minSecver then 3
    else 0

/-- A verified image is in the instruction memory: the PLLs run at the effective points, every on-chip SRAM is zero, and the
stacks are trained or leave self-refresh (steps 4 and 5 of Table 16-6). -/
def fwAccepted (s : State) (b : Bytes) : State :=
  let s := { s with boot := { s.boot with phase := .startup, fwLoaded := true, fwVersion := BitVec.ofNat 32 (fieldLe b 20 4)
                                          secver := BitVec.ofNat 32 (fieldLe b 8 4), bootGo := false } }
  let s := (List.range 4).foldl (fun s f => s.setField f { point := min 6 s.capPoint }) s
  if s.boot.trainHbm then
    { s with boot := { s.boot with bootStep := 5, trainLeft := List.range s.part.variant.stackCount } }
  else
    { s with boot := { s.boot with bootStep := 6 }
             hbmStacks := Tab.mapVals (fun k : Stack => { k with selfRefresh := false }) s.hbmStacks }

/-- A QSPI copy has been read: copy 0 first, copy 1 only if it fails (R433); then the host, or the start-up halts (R431). -/
def execQspiBootRead (copy : Fin 2) (image : Option Bytes) (s : State) : Host.Outcome State Fault Refusal :=
  .next (
    let due := if s.boot.bootErr == 0 then 0 else 1
    if s.boot.phase != .startup || s.boot.bootStep != 2 || copy.val != due then s
    else
      match fwError s.part.minSecver.toNat image with
      | 0 => fwAccepted s (image.getD [])
      | e =>
        let s := { s with boot := { s.boot with bootErr := BitVec.ofNat 8 e } }
        let s := s.log .bootFail inMc noFn copy e
        if copy.val == 0 then s
        else if s.boot.bootSrc == 1 then { s with boot := { s.boot with phase := .waitHost, bootStep := 0xF0 } }
        else { s with boot := { s.boot with phase := .halted } })

/-- BOOT_GO starts the host image read (R434). -/
def execBootGo (s : State) : Host.Outcome State Fault Refusal :=
  .next (if s.ready || s.boot.phase == .por then s else { s with boot := { s.boot with bootGo := true } })

/-- The DMA read of a host image ends (R434). -/
def execHostBootRead (image : Option Bytes) (s : State) : Host.Outcome State Fault Refusal :=
  .next (
    if s.boot.phase != .waitHost || !s.boot.bootGo then s
    else
      let img := image.bind (fun b => if b.length < s.boot.bootLen.toNat then none else some (b.take s.boot.bootLen.toNat))
      match fwError s.part.minSecver.toNat img with
      | 0 => fwAccepted s (img.getD [])
      | e =>
        let s := { s with boot := { s.boot with bootErr := BitVec.ofNat 8 e, bootGo := false } }
        s.log .bootFail inMc noFn 2 e)

/-- Training of a stack ends, at start-up or after an MCLK relock (R374, R85). With every stack failing, start-up halts. -/
def execHbmTrainingDone (k : Fin 4) (ok : Bool) (s : State) : Host.Outcome State Fault Refusal :=
  .next (
    if !s.boot.trainLeft.contains k.val then s
    else
      let s := s.modStackOf k (fun x => { x with trained := ok, selfRefresh := false, down := false })
      let s := { s with boot := { s.boot with trainLeft := s.boot.trainLeft.filter (· != k.val) } }
      let s := if ok then s else s.log .hbmTrainFail inHbm noFn k 0
      if s.boot.phase != .startup || s.boot.trainLeft != [] then s
      else if Tab.keys s.hbmStacks (fun x => x.trained) == [] then { s with boot := { s.boot with phase := .halted, bootErr := 6 } }
      else { s with boot := { s.boot with bootStep := 6 } })

/-- The start-up sequence completes: READY, and RESET_DONE with the cause (R430, R435). -/
def execStartupComplete (s : State) : Host.Outcome State Fault Refusal :=
  .next (
    if s.boot.phase != .startup || s.boot.bootStep != 6 then s
    else
      ({ s with boot := { s.boot with phase := .ready, bootStep := 8 } }).log .resetDone inMc noFn s.boot.resetCause.toNat 0)

/-- A reading of the junction sensors (R417): TEMP, TEMP_MAX, the throttle at 105.0 degC, the shutdown at 120.0 degC. -/
def tempReading (t : B16) (s : State) : State :=
  let p := s.supply
  let p := { p with temp := t, tempMax := if p.tempMax.toInt < t.toInt then t else p.tempMax }
  let s := { s with supply := p }
  let s :=
    if 26880 ≤ t.toInt && !p.throttle then
      let old := s
      let s := { s with supply := { p with throttle := true }, greg := { s.greg with thermal := true } }
      let s := (s.log .thermalThrottle inPower noFn (packBits [(16, t.toNat)]) 0).logCap old 2 true
      s.retargetAll
    else s
  if 30720 ≤ t.toInt && !s.supply.shutdown then
    let s := { s with supply := { s.supply with shutdown := true } }
    let s := s.log .thermalShutdown inPower noFn (packBits [(16, t.toNat)]) 0
    if s.boot.phase == .borHold || s.boot.phase == .clockHold then s
    else
      let s := s.holdReset 8 (!s.boot.trainHbm || s.ready) .thermalHold
      { s with hbmStacks := Tab.mapVals (fun k : Stack => { k with selfRefresh := true }) s.hbmStacks }
  else s

def execTempReading (t : B16) (s : State) : Host.Outcome State Fault Refusal :=
  .next (if s.boot.phase == .por then s else tempReading t s)

/-- TEMP has stayed at or below 100.0 degC for 1 s (R417). -/
def execThermalClear (s : State) : Host.Outcome State Fault Refusal :=
  .next (
    if !s.supply.throttle || 25600 < s.supply.temp.toInt then s
    else
      let old := s
      let s := { s with supply := { s.supply with throttle := false } }
      let s := (s.log .thermalClear inPower noFn (packBits [(16, s.supply.temp.toNat)]) 0).logCap old 2 false
      s.retargetAll)

/-- TEMP has stayed at or below 95.0 degC for 1 s after a shutdown: a device warm reset with cause THERMAL (R417). -/
def execThermalRecovery (s : State) : Host.Outcome State Fault Refusal :=
  .next (
    if !s.supply.shutdown || 24320 < s.supply.temp.toInt then s
    else
      let s := { s with supply := { s.supply with shutdown := false } }
      if s.boot.phase != .thermalHold then s
      else if s.lostClocks.any (fun c => c == 15 || c == 16) then { s with boot := { s.boot with phase := .clockHold } }
      else s.warmReset 8 (!s.boot.trainHbm))

/-- A write to WARM_RESET: the device warm reset (R359, R424). -/
def execWarmReset (s : State) : Host.Outcome State Fault Refusal :=
  .next (if s.ready then s.warmReset 2 true else s)

/-- The firmware commands that the blocks hold are completed with HW_ERROR (R428). -/
def State.failFirmware (s : State) : State :=
  let hw := fun (s : State) (k : Pkt) => s.finish k false .hwError
  let hs := (s.heads.filterMap (fun e : Nat × Head => e.2.attachPkt)) ++ (s.heads.filterMap (fun e : Nat × Head => e.2.auth.bind (·.pkt)))
    ++ (s.heads.filterMap (fun e : Nat × Head => e.2.detach))
  let s := { s with heads := Tab.mapVals (fun h : Head => { h with attachPkt := none, detach := none, auth := h.auth.map (fun a : AuthRun => { a with pkt := none }) }) s.heads }
  let cs := s.ctxs.filterMap (fun e : Nat × Option Ctx => e.2)
  let es := cs.filterMap (fun c : Ctx => c.ecl.bind (fun e => if e.kind == 2 then none else e.pkt))
  let rs := cs.filterMap (fun c : Ctx => c.replace.map (fun r : ReplaceReq => r.pkt)) ++ cs.filterMap (fun c : Ctx => c.unload)
  let s := { s with ctxs := Tab.mapVals (fun c : Option Ctx => c.map (fun c : Ctx =>
      { c with replace := none, unload := none, ecl := c.ecl.map (fun e : Eclosion => if e.kind == 2 then e else { e with pkt := none }) })) s.ctxs }
  let ds := (s.dtb.pendingStep.bind (·.pkt)).toList ++ s.yports.filterMap (fun e : Nat × Yport => e.2.alignPkt.map (fun x : Nat × Pkt => x.2))
  let s := { s with yports := Tab.mapVals (fun y : Yport => { y with alignPkt := none }) s.yports }
  let s := { s with dtb := { s.dtb with pendingStep := s.dtb.pendingStep.map (fun r : DtbStepReq => { r with pkt := none }) } }
  (hs ++ es ++ rs ++ ds).foldl hw s

/-- MC-held locks go by force, and a commit in course rolls back: its open record is rewritten by the next commit (R48,
R370, R373). -/
def State.resetMcLocks (s : State) : State :=
  let busy := Tab.keys s.heads (fun h => h.commit.isSome)
  let s := { s with store := s.store.map (fun e : Pending => if busy.contains e.head && e.opened.isSome then { e with forced := true } else e)
                    heads := Tab.mapVals (fun h : Head => { h with commit := none, sclHeld := false, i3c := h.i3c.filter (fun x => x.decision || x.raw)
                                                                   commitDue := h.commitDue || h.commit.isSome }) s.heads }
  s.resetHolder (fun c => c == mcCode)

/-- MC restart (R428). -/
def execMcRestart (firmwareFault verified : Bool) (s : State) : Host.Outcome State Fault Refusal :=
  .next (
    if !s.ready then s
    else
      let s := (s.failFirmware).resetMcLocks
      if verified then s.log .mcRestart inMc noFn (if firmwareFault then 1 else 0) 0
      else s.warmReset 9 true)

-- Function level reset and the PCIe resets (R318, R426).

/-- The ring block of a function after a reset, while its ring reset runs (R318, R325, R328). -/
def Fn.resetRing (x : Fn) : Fn :=
  { reset := true, flr := true, inFlight := x.inFlight, replyQ := x.replyQ, replyEpoch := x.replyEpoch }

/-- FLR of one function (R318). -/
def State.flrFn (s : State) (f : Nat) : State :=
  let owned := Tab.keys s.ctxs (fun c => match c with | some c => c.fn.val == f | none => false)
  let s := owned.foldl (fun s o =>
    match s.ctx o with
    | none => s
    | some c =>
      let s := match c.replace with | some r => s.finish r.pkt false .badState | none => s
      let s := s.modRunning o (fun c => { c with replace := none })
      let c := { c with replace := none }
      match c.state with
      | .eclosing => s.setCtx o (some { c with abortPend := some Cause.flr.code, faulting := false, releaseAfter := true })
      | .releasing => s
      | .aborting => s.setCtx o (some { c with releaseAfter := true })
      | .fault => s.setCtx o (some { c with state := .aborting, cause := Cause.flr.code, releaseAfter := true })
      | _ => (s.clearContext o Cause.flr.code 2).modRunning o (fun c => { c with state := .aborting, cause := Cause.flr.code
                                                                                 releaseAfter := true, variants := [] })) s
  let s := { s with slots := s.slots.filter (fun e : Nat × Slot => e.2.state == SlotState.empty || e.2.fn.val != f)
                    heads := Tab.mapVals (fun h : Head => if h.paramsFn.val == f then { h with autoAttach := false } else h) s.heads }
  let pools := Tab.keys s.pools (fun p => p.ready && p.fn.val == f)
  let s := pools.foldl (fun s p => s.flushPool p 2 2) s
  let s := pools.foldl (fun s p => s.modPool p (fun x => { x with ready := false, prod := 0, cons := 0, cpl := [], cplProd := 0 })) s
  let s := s.resetHolder (fun c => c == fnCode f)
  s.modFn f Fn.resetRing

/-- Which functions an FLR reaches: that of the PF reaches every function (R318). -/
def flrTargets (f : Nat) : List Nat := if f = 0 then List.range 64 else [f]

def State.flr (s : State) (f : Nat) : State := (flrTargets f).foldl (fun s g => s.flrFn g) s

def execFlr (f : FnId) (s : State) : Host.Outcome State Fault Refusal := .next (if s.ready then s.flr f else s)

/-- Whether a function lies on endpoint B: PF_B, and the VFs that VF_MAP sends there (R323). -/
def State.fnOnB (s : State) (f : Nat) : Bool :=
  s.part.variant.ports == 2 && (f == 1 || (2 ≤ f && s.vfMap.getLsbD f))

/-- The PCIe reset of endpoint B and FLR of its functions (R426). -/
def State.resetEpB (s : State) : State :=
  ((List.range 64).filter s.fnOnB).foldl (fun s f => s.flrFn f) s

/-- PCIE_A_PERST_N low: a device warm reset (R426). -/
def execPcieAPerst (s : State) : Host.Outcome State Fault Refusal :=
  .next (
    let s := s.modEp 0 (fun e => { e with perst := true, config := false, up := false })
    if s.ready || s.boot.phase == .startup || s.boot.phase == .waitHost then s.warmReset 3 (!s.boot.trainHbm || s.ready) else s)

/-- PCIE_B_PERST_N low (R426). -/
def execPcieBPerst (s : State) : Host.Outcome State Fault Refusal :=
  .next (
    let s := s.modEp 1 (fun e => { e with perst := true, config := false, up := false })
    if s.ready && s.part.variant.ports == 2 then s.resetEpB else s)

/-- Hot reset or link-down of an endpoint (R426). -/
def execPcieLinkDown (ep : Fin 2) (s : State) : Host.Outcome State Fault Refusal :=
  .next (
    if ep.val < s.part.variant.ports then
      let s := s.modEp ep (fun e => { e with up := false })
      if !s.ready then s else if ep.val == 0 then s.flr 0 else s.resetEpB
    else s)

/-- An endpoint's link comes up: endpoint A from start-up on, endpoint B from READY (Table 16-6). -/
def execPcieLinkUp (ep : Fin 2) (s : State) : Host.Outcome State Fault Refusal :=
  .next (
    let lost := s.lostClocks.contains (7 + ep) || s.lostClocks.contains (5 + ep)
    let can := ep.val < s.part.variant.ports && !lost
      && (if ep.val == 0 then s.boot.phase == .startup || s.boot.phase == .waitHost || s.ready else s.ready)
    if can then s.modEp ep (fun e => { e with up := true, config := true }) else s)

/-- PCIE_A_PERST_N rises: endpoint A answers configuration requests once reset is released too (R436). -/
def execPciePerstRelease (s : State) : Host.Outcome State Fault Refusal :=
  .next (s.modEp 0 (fun e => { e with perst := false, config := s.diesUp }))

end Sys2Proof.Machine
end

