-- ==== Sys2Proof/Machine/Arbiters.lean ====
section
/-! DEFINITION. The arbiter rule set (R150-R157), the framed queues (R158-R164; log 19), and a pool's handout and fetch of
descriptors (R169, R170). -/

namespace Sys2Proof.Machine

-- The arbiter rule set.

/-- Inputs of an arbiter (Table 06-1). -/
def arbInputs : ArbId → Nat
  | .service _ => 4
  | .hbm _ => 11
  | .ctrl _ _ => 5
  | .cmdRing => 64
  | .pool _ => 64
  | .broadcast => 16
  | .sequencer => 28
  | .port (.reply _) => 2
  | .port .mailbox => 17
  | .port _ => 1

/-- Whether the part carries an arbiter (R3, R157): service ports are those of S-units, and a producer port has an arbiter where several
sources feed the queue (R160). -/
def State.hasArb (s : State) : ArbId → Bool
  | .service site => kindOf site == .s
  | .hbm k => k < s.part.variant.stackCount
  | .pool p => p < 32 * s.part.variant.ports
  | .port (.reply _) => true
  | .port .mailbox => true
  | .port _ => false
  | _ => true

/-- `n` cycles pass for a requester: its counter saturates at the limit, and at the limit it is FORCED and its back-off ends; a
FORCED requester stays FORCED (R152, R156). -/
def Requester.elapse (limit n : Nat) (r : Requester) : Requester :=
  let w := min (r.wait + n) limit
  if r.forced || limit ≤ w then { r with wait := w, forced := true, backoff := 0 }
  else { r with wait := w, backoff := r.backoff - n }

/-- The cycles from the n-th consecutive loss until the requester presents again: the back-off of R153, and the cycle after. -/
def backoffFor (n : Nat) : Nat := min 1024 (4 * 2 ^ (n - 1)) + 1

/-- A requester that presents and is not granted: one loss and BACKOFF, unless it is FORCED (R153). -/
def Requester.lose (r : Requester) : Requester :=
  if r.forced then r else { r with losses := r.losses + 1, backoff := backoffFor (r.losses + 1) }

/-- Whether a requester is in the arbitration: it presents, and is FORCED or out of its back-off. -/
def Requester.contends (r : Requester) : Bool := r.present && (r.forced || r.backoff == 0)

/-- `n` cycles pass and the requesters named present their requests, whether the resource is held or free; their counters run from
here. One that withdrew sits out the arbitration after its dead cycle (R152, R154). -/
def Arbiter.gather (limit n inputs : Nat) (present : List Nat) (a : Arbiter) : Arbiter :=
  let reqs := Tab.mapVals (Requester.elapse limit n) a.reqs
  let in_ := present.filter (fun i => i < inputs && a.dead != some i && a.holder != some i)
  { a with reqs := in_.foldl (fun t i => Tab.set t i { Tab.get {} t i with present := true }) reqs }

/-- The grant unit of the holder ends: the resource is free, and the win clears the winner's counters (R150, R152). -/
def Arbiter.free (a : Arbiter) : Arbiter :=
  match a.holder with
  | some h => { a with holder := none, reqs := Tab.drop (fun i => i == h) a.reqs }
  | none => a

/-- The highest input in a list. -/
def highest (l : List Nat) : Option Nat := l.foldl (fun a i => match a with | some j => some (max i j) | none => some i) none

/-- The winner of an arbitration: the highest FORCED input, else the highest input (R151, R152). -/
def Arbiter.winner (a : Arbiter) : Option Nat :=
  let c := a.reqs.filter (fun e => e.2.contends)
  let f := c.filter (fun e => e.2.forced)
  highest ((if f.isEmpty then c else f).map (fun e => e.1))

/-- The winner holds the resource, and every other requester in the arbitration loses (R150, R153). -/
def Arbiter.grant (w : Nat) (a : Arbiter) : Arbiter :=
  { a with holder := some w
           reqs := a.reqs.map (fun e : Nat × Requester => if e.1 != w && e.2.contends then (e.1, e.2.lose) else e) }

/-- One arbitration; none is held while the resource is, and then the requests named only start to wait (R150, R152). -/
def Arbiter.arbitrate (limit n inputs : Nat) (present : List Nat) (a : Arbiter) : Arbiter :=
  let b := a.gather limit n inputs present
  if b.holder.isSome then b
  else
    let b := { b with dead := none }
    match b.winner with
    | some w => b.grant w
    | none => b

/-- A requester that presents now has no back-off left. -/
def Arbiter.ready (i : Nat) (a : Arbiter) : Arbiter :=
  { a with reqs := a.reqs.map (fun e : Nat × Requester => if e.1 == i then (e.1, { e.2 with backoff := 0 }) else e) }

/-- An input comes to use the resource: on its grant, or, the resource being free, on an arbitration held in the cycle before among it and
the requests known, `present` among them (log 38). None where another input holds the resource or wins it. -/
def Arbiter.take (limit inputs : Nat) (present : List Nat) (i : Nat) (a : Arbiter) : Option Arbiter :=
  if a.holder == some i then some a
  else if a.holder.isSome then none
  else
    let b := ({ a with dead := none }.gather limit 1 inputs (i :: present)).ready i
    if b.winner == some i then some (b.grant i) else none

/-- The machine in which an input uses an arbiter's resource for one grant unit, which ends with it (R150, R157). -/
def State.useArb (s : State) (a : ArbId) (i : Nat) (present : List Nat := []) : Option State :=
  ((s.arb (arbCode a)).take (s.waitLimit a) (arbInputs a) present i).map (fun x => s.setArb (arbCode a) x.free)

/-- The machine in which an input holds an arbiter's resource, for a grant unit of more than one command. -/
def State.holdArb (s : State) (a : ArbId) (i : Nat) : Option State :=
  ((s.arb (arbCode a)).take (s.waitLimit a) (arbInputs a) [] i).map (fun x => s.setArb (arbCode a) x)

/-- The grant unit of an input that holds a resource ends. -/
def State.freeArb (s : State) (a : ArbId) (i : Nat) : State :=
  s.modArb (arbCode a) (fun x => if x.holder == some i then x.free else x)

-- Pools (R155, R169-R171).

/-- Bytes of an output line. -/
def OutLine.bytes (l : OutLine) : Nat := 2 * l.vals.length

/-- The line a stream would write first: of its output queue, or a line of its HBM output ring (R170, R379). Gives its frame,
line, stamp and bytes. -/
def Strm.nextLine (x : Strm) : Option (B16 × Nat × B64 × Nat) :=
  match x.oq with
  | l :: _ => if l.eof || x.openBuf.isSome then none else some (l.fseq, l.line, l.stamp, l.bytes)
  | [] =>
    match x.ring with
    | r :: _ => if r.eof || x.ringBuf.isSome then none else some (r.fseq, r.line, r.stamp, r.bytes)
    | [] => none

/-- Whether a stream requests a buffer of a pool: also for lines that outlast its context (R314). -/
def Strm.wantsBuffer (x : Strm) (p : Nat) : Bool :=
  x.route == 0 && x.pool == p && x.granted.isNone && x.nextLine.isSome

/-- The winner draws the descriptor at the front of the cache. One too small for a line completes at once with TOO_SMALL: its
record names the line that waits (log 31), and the stream may request again (R170). -/
def State.handOut (s : State) (p w : Nat) (a : Arbiter) : State :=
  match (s.pool p).cache with
  | [] => s.setArb (arbCode (.pool (Fin.ofNat 64 p))) a
  | d :: t =>
    let s := s.modPool p (fun z => { z with cache := t })
    match (s.strm w).nextLine with
    | none => s
    | some (fseq, line, stamp, n) =>
      if d.size.toNat < n then
        let r := s.reserveCpl p
        (r.2.writeCpl p r.1 (cplBytes 4 w 0 fseq.toNat line 0 p d.tag.toNat 0 stamp.toNat)).setArb (arbCode (.pool (Fin.ofNat 64 p)))
          { a with holder := none, reqs := Tab.drop (fun i => i == w) a.reqs }
      else (s.modStrm w (fun x => { x with granted := some d })).setArb (arbCode (.pool (Fin.ofNat 64 p))) a

/-- An arbitration of a pool: only streams that want a buffer present. With an empty cache FORCED requesters wait, and every other
one takes pool-empty as a loss (R155, R170). -/
def State.arbitratePool (s : State) (p n : Nat) (present : List Nat) : State :=
  let wants := fun (i : Nat) => (s.strm i).wantsBuffer p
  let code := arbCode (.pool (Fin.ofNat 64 p))
  let a := { (s.arb code).free.gather (s.waitLimit (.pool (Fin.ofNat 64 p))) n 64 (present.filter wants) with dead := none }
  let a := { a with reqs := Tab.drop (fun i => !wants i) a.reqs }
  if (s.pool p).cache.isEmpty then
    s.setArb code { a with reqs := a.reqs.map (fun e : Nat × Requester => if e.2.contends then (e.1, e.2.lose) else e) }
  else
    match a.winner with
    | none => s.setArb code a
    | some w => s.handOut p w (a.grant w)

/-- Whether a reply's queue has room for it. -/
def State.replyRoom (s : State) (r : Rec) : Bool :=
  !r.isReply || (if r.cspi then decide (s.cspi.replyQ.length < 16)
    else (s.fn (r.fn.toNat % 64)).reset || decide ((s.fn (r.fn.toNat % 64)).replyQ.length < 64))

/-- Whether something that a record follows is still to be numbered, a reply that has no room set aside (R79). -/
def State.causeWaits (s : State) (r : Rec) : Bool :=
  s.seqr.inputs.any (fun e => e.2.all.any (fun q => r.follows q && (r.isReply || s.replyRoom q)))

/-- Whether the front record of a sequencer input may be numbered now: POWER_ON is the first record after POR (R80), a reply has room
in its queue, and no cause of it is behind (R79). -/
def State.seqPresents (s : State) (i : Nat) : Bool :=
  match (s.seqr.input i).dcq with
  | [] => false
  | r :: _ => !(s.boot.powerOnOwed && i != inPower) && s.replyRoom r && !s.causeWaits r

/-- An arbitration: `cycles` cycles of the arbiter's clock after the last one (R150-R155). At the Event Sequencer only inputs with a
record present (R77). -/
def arbitration (a : ArbId) (present : List Nat) (n : Nat) (s : State) : State :=
  if !s.hasArb a then s
  else
    match a with
    | .pool p => s.arbitratePool p n present
    | .sequencer => s.modArb (arbCode a) (Arbiter.arbitrate (s.waitLimit a) n (arbInputs a) (present.filter s.seqPresents))
    | _ => s.modArb (arbCode a) (Arbiter.arbitrate (s.waitLimit a) n (arbInputs a) present)

def execArbitration (a : ArbId) (present : List (Fin 64)) (cycles : B16) (s : State) : Host.Outcome State Fault Refusal :=
  .next (arbitration a (present.map (fun i => i.val)) cycles.toNat s)

/-- Apply a function to a requester that an arbiter knows and has not granted. -/
def Arbiter.modWaiting (a : Arbiter) (i : Nat) (f : Requester → Requester) : Arbiter :=
  if a.holder == some i then a else { a with reqs := a.reqs.map (fun e : Nat × Requester => if e.1 == i then (e.1, f e.2) else e) }

/-- A back-off ends: the requester presents again (R153). -/
def execBackoffEnd (a : ArbId) (input : Fin 64) (s : State) : Host.Outcome State Fault Refusal :=
  .next (s.modArb (arbCode a) (fun x => x.modWaiting input (fun r => { r with backoff := 0 })))

/-- A wait counter reaches WAIT_LIMIT, whether or not the resource is held: the requester is FORCED and does not pre-empt the
holder (R152, R155). One that began to request while the resource was held becomes known here. -/
def execForced (a : ArbId) (input : Fin 64) (s : State) : Host.Outcome State Fault Refusal :=
  .next (
    if !s.hasArb a || arbInputs a ≤ input then s
    else
      s.modArb (arbCode a) (fun x =>
        if x.holder == some input.val then x
        else
          let r : Requester := Tab.get { present := true } x.reqs input
          { x with reqs := Tab.set x.reqs input { r with wait := s.waitLimit a, forced := true, backoff := 0 } }))

/-- A requester withdraws: after its grant it leaves a dead cycle and keeps its counter, and a buffer it was handed stays in the
cache; before a grant it stops presenting (R154, R155). -/
def withdraw (a : ArbId) (i : Nat) (s : State) : State :=
  let x := s.arb (arbCode a)
  if x.holder == some i then
    let y := { x with holder := none, dead := some i
                      reqs := x.reqs.map (fun e : Nat × Requester => if e.1 == i then (e.1, { e.2 with present := false }) else e) }
    match a with
    | .pool p =>
      match (s.strm i).granted with
      | none => s
      | some d => ((s.modStrm i (fun z => { z with granted := none })).modPool p (fun z => { z with cache := d :: z.cache })).setArb (arbCode a) y
    | _ => s.setArb (arbCode a) y
  else s.setArb (arbCode a) { x with reqs := Tab.drop (fun j => j == i) x.reqs }

def execWithdraw (a : ArbId) (input : Fin 64) (s : State) : Host.Outcome State Fault Refusal := .next (withdraw a input s)

/-- The 16-byte descriptors of a buffer-descriptor ring: ADDR at 0, SIZE at 8, BUF_TAG at 12 (R169). -/
def poolDescs (b : Bytes) : List PoolDesc :=
  (List.range (b.length / 16)).map (fun i =>
    { addr := BitVec.ofNat 64 (fieldLe b (16 * i) 8), size := BitVec.ofNat 32 (fieldLe b (16 * i + 8) 4)
      tag := BitVec.ofNat 32 (fieldLe b (16 * i + 12) 4) })

/-- A pool's fetch of descriptors completes: with fewer than 8 in the cache, up to 8 more that the host has put in the ring
(R169). -/
def poolDescriptorFetch (p : Nat) (data : Bytes) (s : State) : State :=
  let x := s.pool p
  let ds := poolDescs data
  if !x.ready || 8 ≤ x.cache.length then s
  else
    let avail := (x.prod + 2 ^ x.order - x.cons) % 2 ^ x.order
    let got := ds.take (min 8 avail)
    s.setPool p { x with cache := x.cache ++ got, cons := (x.cons + got.length) % 2 ^ x.order }

def execPoolDescriptorFetch (p : Fin 64) (data : Bytes) (s : State) : Host.Outcome State Fault Refusal :=
  .next (poolDescriptorFetch p data s)

-- Framed queues (R158-R164; log 19).

/-- Whether a queue runs in commit mode (Table 06-2). -/
def commitMode : QId → Bool
  | .eventLog => false
  | .completion _ => false
  | _ => true

/-- Whether a queue's words are of 32 bits (Table 06-2). -/
def words32 : QId → Bool
  | .reply _ => true
  | .mailbox => true
  | _ => false

/-- Whether a queue checks a CRC in an item's last word (Table 06-2). -/
def checksCrc : QId → Bool
  | .ctrl _ _ => true
  | _ => false

/-- 32-bit words in one word of a length-prefix queue: 16-byte and 32-byte records (Table 06-2). -/
def lpUnit : QId → Nat
  | .completion _ => 8
  | _ => 4

/-- Capacity of a queue in its words: a reply queue holds 64 replies of 8 words (R327); the rest is open (log 19). -/
def capacity (q : QId) : Nat :=
  match q with
  | .reply _ => 512
  | _ => Config.queueWords (queueCode q)

/-- The longest item of a queue in its words: a control-plane packet has up to 256 bytes (R135). -/
def itemLimit (q : QId) : Nat :=
  match q with
  | .ctrl _ _ => min 32 (capacity q)
  | _ => capacity q

/-- A word of a commit-mode item arrives (R158-R160, R166): the end marker commits the item, a poisoned or too long one is
swallowed to its end marker, and a wrong CRC in the last word rewinds it. -/
def FQueue.write (cap lim : Nat) (w : B64) (endMark crcOk : Bool) (x : FQueue) : FQueue :=
  if x.poisoned then { x with poisoned := !endMark, isOpen := !endMark, lastReturn := if endMark then 1 else x.lastReturn }
  else if x.tooLong then { x with tooLong := !endMark, isOpen := !endMark, lastReturn := if endMark then 2 else x.lastReturn }
  else if lim ≤ x.opened.length then { x with opened := [], tooLong := !endMark, isOpen := !endMark, lastReturn := 2 }
  else if cap ≤ (x.items.map List.length).sum + x.opened.length then { x with lastReturn := 3 }
  else if !endMark then { x with opened := x.opened ++ [w], isOpen := true, lastReturn := 0 }
  else if crcOk then { x with items := x.items ++ [x.opened ++ [w]], opened := [], isOpen := false, lastReturn := 0 }
  else { x with opened := [], isOpen := false, crcDrop := x.crcDrop + 1, lastReturn := 0 }

/-- The arbiter of a queue's producer port (R157, R160): the router output's own for a control-plane queue; one source needs none. -/
def prodArb : QId → Option ArbId
  | .reply f => some (.port (.reply f))
  | .mailbox => some (.port .mailbox)
  | .ctrl site out => some (.ctrl site out)
  | _ => none

/-- A source writes a word of its open item. One packet is the grant unit of the producer port: the port is held from the first word to
the end marker (R160). -/
def queueWordWrite (q : QId) (src : Nat) (w : B64) (endMark crcOk : Bool) (s : State) : State :=
  let put := fun (s : State) => s.modQueue (queueCode q) (FQueue.write (capacity q) (itemLimit q) w endMark crcOk)
  match prodArb q with
  | none => put s
  | some a =>
    match s.holdArb a src with
    | none => s
    | some s =>
      let t := put s
      if endMark && (t.queue (queueCode q)).lastReturn != 3 then t.freeArb a src else t

def execQueueWordWrite (q : QId) (word : SrcWord) (endMark crcOk : Bool) (s : State) : Host.Outcome State Fault Refusal :=
  .next (
    if !commitMode q then s
    else queueWordWrite q word.src (if words32 q then BitVec.ofNat 64 (word.word.toNat % 2 ^ 32) else word.word) endMark (crcOk || !checksCrc q) s)

/-- A producer's ABORT rewinds its open item; a poisoned item returns FLUSHED (R159, R166). -/
def FQueue.abort (x : FQueue) : FQueue :=
  { x with opened := [], isOpen := false, poisoned := false, tooLong := false
           lastReturn := if x.poisoned then 1 else if x.tooLong then 2 else 0 }

/-- The producer that has an item open signals ABORT, and the producer port is free again. -/
def queueAbort (q : QId) (s : State) : State :=
  if commitMode q && (s.queue (queueCode q)).isOpen then
    let s := s.modQueue (queueCode q) FQueue.abort
    match prodArb q with
    | some a => s.modArb (arbCode a) Arbiter.free
    | none => s
  else s

def execQueueAbort (q : QId) (s : State) : Host.Outcome State Fault Refusal := .next (queueAbort q s)

/-- A reservation at the tail of a length-prefix queue: at once TOO_LONG beyond the whole capacity, else it waits for room
(R161). -/
def FQueue.reserve (cap producer len : Nat) (x : FQueue) : FQueue :=
  if cap < len then { x with lastReturn := 2 }
  else if cap < (x.lp.map LpItem.len).sum + len then { x with lastReturn := 3 }
  else { x with lp := x.lp ++ [{ producer := producer, len := len, slot := none, body := [] }], lastReturn := 0 }

def execQueueReserve (q : QId) (producer : B8) (len : B16) (s : State) : Host.Outcome State Fault Refusal :=
  .next (if commitMode q || len == 0 then s else s.modQueue (queueCode q) (FQueue.reserve (capacity q) producer.toNat len.toNat))

/-- The first unwritten item of a producer takes its body and slot. -/
def fillSlot (unit producer : Nat) (slot : B32) (body : List B32) : List LpItem → List LpItem
  | [] => []
  | i :: t =>
    if i.producer == producer && i.slot.isNone then { i with slot := some slot, body := body.take (unit * i.len - 1) } :: t
    else i :: fillSlot unit producer slot body t

/-- A producer writes the slot of its reserved item, last; that of a poisoned item returns FLUSHED (R161, R162, R166, R167). -/
def FQueue.writeSlot (unit producer : Nat) (slot : B32) (body : List B32) (x : FQueue) : FQueue :=
  if x.lpPoisoned.contains producer then { x with lpPoisoned := x.lpPoisoned.erase producer, lastReturn := 1 }
  else { x with lp := fillSlot unit producer slot body x.lp, lastReturn := 0 }

/-- A slot with bit 31 set is not a written one (R162). -/
def execQueueSlotWrite (q : QId) (producer : B8) (slot : B32) (body : List B32) (s : State) : Host.Outcome State Fault Refusal :=
  .next (if commitMode q || slot.getLsbD 31 then s
    else s.modQueue (queueCode q) (FQueue.writeSlot (lpUnit q) producer.toNat slot body))

/-- Items the consumer discards at the front: written, with SKIP set (R162). -/
def dropSkipped : List LpItem → List LpItem
  | [] => []
  | i :: t =>
    match i.slot with
    | some w => if w.getLsbD 27 then dropSkipped t else i :: t
    | none => i :: t

/-- The idle item of a queue (Table 06-3): none where the consumer waits. -/
def idleItem : QId → List B64
  | .reply _ => [0xFFFF0000]
  | .mailbox => [0xFFFF0000]
  | .eventLog => List.replicate 4 0xFFFFFFFF
  | _ => []

/-- The consumer takes the oldest item, or receives the idle item (R158, R161, R164). -/
def FQueue.read (commit : Bool) (idle : List B64) (x : FQueue) : FQueue :=
  if commit then
    match x.items with
    | [] => { x with lastRead := idle }
    | i :: t => { x with items := t, lastRead := i }
  else
    match dropSkipped x.lp with
    | [] => { x with lp := [], lastRead := idle }
    | i :: t =>
      match i.slot with
      | none => { x with lp := i :: t, lastRead := idle }
      | some w => { x with lp := t, lastRead := (w :: i.body).map (fun v => BitVec.ofNat 64 v.toNat) }

end Sys2Proof.Machine
end

