-- ==== Sys2Proof/Machine/Issue.lean ====
section
/-! DEFINITION. How a unit program issues: the words of a unit's memories, the instruction word and the
legality of R255, key descriptors, the matching of WAITTAG groups, and a unit's own time (chapters 04 and 10; logs 13, 28). -/

namespace Sys2Proof.Machine

-- A unit's memories, by MEM_SEL (Table 14-7).

def memAt (sel addr : Nat) : Nat := sel * 2 ^ 24 + addr

/-- Program word, key descriptor (R251, R252). -/
def Unit.prog (u : Unit) (pc : Nat) : Nat := (Tab.get 0 u.mem (memAt 0 pc)).toNat
def Unit.keyWord (u : Unit) (k : Nat) : Nat := (Tab.get 0 u.mem (memAt 1 k)).toNat

/-- A 32-byte word of the weight buffer (4), the SRAM (5) or the node memory (6). -/
def Unit.wide (u : Unit) (sel w : Nat) : BitVec 256 :=
  let g := fun i => (Tab.get 0 u.mem (memAt sel (4 * w + i))).toNat
  BitVec.ofNat 256 (g 0 + 2 ^ 64 * (g 1 + 2 ^ 64 * (g 2 + 2 ^ 64 * g 3)))

def Unit.setWide (u : Unit) (sel w : Nat) (v : BitVec 256) : Unit :=
  { u with mem := (List.range 4).foldl (fun m i => Tab.set m (memAt sel (4 * w + i)) (BitVec.ofNat 64 (bits v.toNat (64 * i) 64))) u.mem }

/-- Byte `i` of a payload, and a payload of bytes in order (R124). -/
def payByte (p : BitVec 256) (i : Nat) : Nat := bits p.toNat (8 * i) 8
def payOf (l : List Nat) : BitVec 256 := BitVec.ofNat 256 (packBits ((l.take 32).map (fun b => (8, b))))

-- The instruction word (R254, Table 10-6).

def fOp (w : Nat) : Nat := bits w 56 8
def fFlag (w i : Nat) : Bool := bit w (48 + i)

/-- The bit ranges (low bit, width) that Table 10-6 defines for a word in a unit kind, apart from the opcode; none where
the opcode is not defined for the kind. HALF stays defined without WIN, and the fields of WIN only with it (log 13). -/
def definedRanges (k : UKind) (w : Nat) : Option (List (Nat × Nat)) :=
  match k, fOp w with
  | .p, _ => none
  | _, 0x00 => some [(0, 16)]
  | _, 0x01 => some [(38, 10), (48, 3)]
  | _, 0x02 => some [(45, 3)]
  | .s, 0x03 => some (if fFlag w 0 then [(28, 20), (48, 2)] else [(43, 5), (48, 2)])
  | .t, 0x03 => none
  | _, 0x03 => some [(43, 5), (49, 1)]
  | .m, 0x04 => some [(38, 10)]
  | .m, 0x05 => some [(48, 1)]
  | .m, 0x06 => some [(18, 30), (48, 1)]
  | .t, 0x06 => some [(49, 1)]
  | .m, 0x07 => some [(40, 8)]
  | .m, 0x08 => some [(14, 34), (48, 4)]
  | .v, 0x09 => some [(38, 10), (48, 1)]
  | .v, 0x0A => some [(40, 8), (48, 1)]
  | .v, 0x0B => some [(36, 12), (48, 1)]
  | .v, 0x0C => some [(36, 12), (48, 1)]
  | k, 0x0D =>
    match bits w 46 2 with
    | 0 => some [(38, 10)]
    | 1 => some [(42, 6), (0, 32)]
    | 2 => some [(38, 10), (0, 32)]
    | _ => if k = .s then some [(43, 5)] else if k = .t then some [(46, 2)] else none
  | _, 0x0E => some [(20, 28)]
  | _, 0x0F => some []
  | _, 0x10 => some [(21, 27), (48, 3)]
  | _, 0x11 => some [(43, 5)]
  | .v, 0x13 => some [(19, 29), (48, 1)]
  | .v, 0x14 => some [(21, 27), (48, 1)]
  | .m, 0x15 => some [(42, 6)]
  | .v, 0x15 => some [(37, 11)]
  | .t, 0x16 => some [(43, 5)]
  | .t, 0x17 => some [(43, 5)]
  | _, _ => none

/-- Whether a bit that Table 10-6 does not define is set. -/
def undefinedBit (rs : List (Nat × Nat)) (w : Nat) : Bool :=
  (List.range 56).any (fun i => bit w i && !rs.any (fun r : Nat × Nat => r.1 ≤ i && i < r.1 + r.2))

/-- Register codes a unit kind may read (Table 10-2), and those an operation may write: H and Z in a V-unit, TACC in a
T-unit (log 13). -/
def srcOk (k : UKind) (c : Nat) : Bool :=
  if 8 ≤ c && c < 11 then c - 8 < k.queues else if c = 12 then k = .v || k = .t else k = .v
def dstOk (k : UKind) (c : Nat) : Bool := (k = .v && (c < 8 || 12 ≤ c)) || (k = .t && c = 12)

/-- Whether a mask of queues at bits 47:45 names only queues of the kind; bit 45 + i is queue i (log 28). -/
def maskOk (k : UKind) (m : Nat) : Bool := m < 2 ^ k.queues

/-- Whether the registers, queue masks and selectors a word names are defined in its kind. -/
def fieldsOk (k : UKind) (w : Nat) : Bool :=
  match fOp w with
  | 0x01 => maskOk k (bits w 45 3)
  | 0x02 => maskOk k (bits w 45 3)
  | 0x03 => if k = .s && fFlag w 0 then true else srcOk k (bits w 43 4)
  | 0x09 => dstOk k (bits w 44 4) && srcOk k (bits w 40 4) && decide (bits w 38 2 < 3)
  | 0x0A => dstOk k (bits w 44 4) && decide (bits w 42 2 < 3)
  | 0x0B => dstOk k (bits w 44 4) && srcOk k (bits w 40 4) && srcOk k (bits w 36 4)
  | 0x0C => dstOk k (bits w 44 4) && srcOk k (bits w 40 4) && srcOk k (bits w 36 4)
  | 0x0D => if bits w 46 2 = 0 then (dstOk k (bits w 42 4) || (k = .v && bits w 42 4 = 11)) && srcOk k (bits w 38 4) else true
  | 0x10 => srcOk k (bits w 42 4)
  | 0x13 => decide (bits w 44 2 < 3) && maskOk k (bits w 41 3)
  | 0x15 => if k = .v then maskOk k (bits w 45 3) else true
  | 0x16 => decide (bits w 43 5 ≤ 20) || bits w 43 5 = 31
  | 0x17 => decide (bits w 43 5 ≤ 20) || bits w 43 5 = 31
  | _ => true

/-- Whether a word is illegal to issue in a unit as it stands (R255, R260, R261). -/
def Unit.illegal (u : Unit) (k : UKind) (w : Nat) : Bool :=
  match definedRanges k w with
  | none => true
  | some rs =>
    undefinedBit rs w || !fieldsOk k w ||
    match fOp w with
    | 0x05 => u.block.any (fun b => decide (b.done < b.k) && b.sf8.any (fun m => m != fFlag w 0))
    | 0x06 => k = .m && u.block.any (fun b => decide (b.done < b.k))
    | 0x0E => u.loops.contains (bits w 46 2) || decide (4 ≤ u.loops.length) || fOp (u.prog (bits w 20 10)) != 0x0F
    | 0x0F => u.loops.isEmpty
    | _ => false

-- Issue groups (R251, R259).

def Unit.nextPc (u : Unit) (pc : Nat) : Nat := if pc = u.endW then u.restart else (pc + 1) % 1024

/-- Consecutive WAITTAGs and the instruction they fuse with. -/
structure IssueGroup where
  waits : List Nat
  pc : Nat
  word : Nat
  deriving DecidableEq, Repr

def Unit.groupFrom : Nat → Unit → Nat → IssueGroup
  | 0, u, pc => { waits := [], pc := pc, word := u.prog pc }
  | n + 1, u, pc =>
    let w := u.prog pc
    if fOp w = 1 then
      let g := Unit.groupFrom n u (u.nextPc pc)
      { g with waits := w :: g.waits }
    else { waits := [], pc := pc, word := w }

def Unit.group (u : Unit) : IssueGroup := Unit.groupFrom 1024 u u.pc

/-- Whether a word of a group is illegal, the WAITTAGs first. -/
def Unit.badWait (u : Unit) (k : UKind) (g : IssueGroup) : Bool := g.waits.any (fun w => u.illegal k w)

-- Key descriptors (R256).

/-- A spec's field value; none is a wildcard. The index of an inactive counter counts as 0 (log 13). -/
def Unit.spec (u : Unit) (sp width : Nat) : Option Nat :=
  if sp = 0xFFFF then none
  else
    let l := bits sp 9 2
    let ix := if u.loops.contains l then (Tab.get { index := 0, count := 0, start := 0, finish := 0 } u.lc l).index else 0
    let wr := bits sp 1 5
    let ix := if wr = 0 then ix else ix % 2 ^ wr
    some (((Tab.get 0 u.x (bits sp 12 4)).toNat + (if bit sp 11 then ix * 2 ^ bits sp 6 3 else 0)) % 2 ^ width)

/-- LINE, CHAN and CHUNK of a key descriptor. -/
def Unit.key (u : Unit) (kd : Nat) : Option Nat × Option Nat × Option Nat :=
  let w := u.keyWord kd
  (u.spec (bits w 48 16) 13, u.spec (bits w 32 16) 8, u.spec (bits w 16 16) 8)

def keyFits (k : Option Nat × Option Nat × Option Nat) (f : Flit) : Bool :=
  k.1.all (· == flitLine f) && k.2.1.all (· == flitChan f) && k.2.2.all (· == flitChunk f)

-- Matching (R94, R95, R258).

/-- Whether an entry is of the frame in progress, or may open one. -/
def curFits (c : Cur) (anys : Bool) (f : Flit) : Bool :=
  if c.opened then flitStream f == c.stream && flitFseq f == c.fseq else anys || flitStream f == c.stream

def Unit.fits (u : Unit) (w : Nat) (e : QEnt) : Bool :=
  let kind := bits w 38 3
  flitKind e.flit == kind && curFits u.cur (fFlag w 1) e.flit && (kind == kEof || keyFits (u.key (bits w 41 4)) e.flit)

/-- The match window a WAITTAG searches. -/
def waitWindow (w : Nat) : Nat := if fFlag w 0 then 1 else 8

/-- Bind the oldest matching entry of a queue; the match opens the frame. -/
def Unit.bindOne (u : Unit) (w q : Nat) : Option Unit :=
  let l := Tab.get [] u.queues q
  match (l.take (waitWindow w)).findIdx? (fun e => u.fits w e) with
  | none => none
  | some i =>
    match l[i]? with
    | none => none
    | some e =>
      let l := (l.map (fun x => { x with bound := false })).set i { e with bound := true, keep := fFlag w 2 }
      some { u with queues := Tab.set u.queues q l, line := flitLine e.flit
                    cur := if u.cur.opened then u.cur
                           else { stream := flitStream e.flit, fseq := flitFseq e.flit, opened := true } }

/-- The queues a mask names. -/
def maskQueues (m : Nat) : List Nat := [0, 1, 2].filter (fun i => bit m i)

/-- The matches a group still needs, in order. -/
def needs (ws : List Nat) : List (Nat × Nat) := ws.flatMap (fun w => (maskQueues (bits w 45 3)).map (fun q => (w, q)))

/-- Bind every match of a group, or give the first one that is missing with the bindings so far. -/
def Unit.bindAll : List (Nat × Nat) → Unit → Option (Nat × Nat) × Unit
  | [], u => (none, u)
  | (w, q) :: t, u =>
    match u.bindOne w q with
    | none => (some (w, q), u)
    | some v => Unit.bindAll t v

/-- The bound entry of a queue. -/
def Unit.bound (u : Unit) (q : Nat) : Option QEnt := (Tab.get [] u.queues q).find? (fun e => e.bound)

-- Whether a unit runs, and its time (R99, R276).

/-- Whether a unit may issue: a running context, a program, and neither halted, frozen nor without its clock. -/
def State.mayIssue (s : State) (site : Nat) : Bool :=
  let u := s.unit site
  s.ready && s.works site && u.inCtx && u.hasProg && !u.halted && !u.frozen && !(s.field (fieldOfSite site)).down
    && (match s.ctx u.owner with
        | some c => c.opened && (c.state == .running || c.state == .stopping || c.state == .cocoon)
        | none => false)

def setLanes (l : List Nat) (lo : Nat) (v : List Nat) : List Nat :=
  (List.range 64).map (fun i => if lo ≤ i && i < lo + v.length then v.getD (i - lo) 0 else l.getD i 0)

def Unit.writeReg (u : Unit) (r : RegRef) (lo : Nat) (v : List Nat) : Unit :=
  match r with
  | .h i => { u with h := Tab.set u.h i (setLanes (Tab.get [] u.h i) lo v) }
  | .z i => { u with z := Tab.set u.z i (setLanes (Tab.get [] u.z i) lo v) }

/-- Results usable by a cycle reach their registers, in the order they become usable (R275). -/
def Unit.settle (u : Unit) (t : Nat) : Unit :=
  let done := u.pend.filter (fun p => decide (p.at_ ≤ t))
  { done.foldl (fun v p => v.writeReg p.reg p.lo p.vals) u with pend := u.pend.filter (fun p => !decide (p.at_ ≤ t)) }

/-- A result enters the pending list, which is kept in the order of R275. -/
def insertPend (p : PendW) : List PendW → List PendW
  | [] => [p]
  | q :: t => if p.at_ < q.at_ then p :: q :: t else q :: insertPend p t

/-- A unit waits before an issue: its counters follow (R276, Table 11-2). Up to cycle `busy` an earlier instruction occupies the block
that the issue needs, so that those of its cycles count as ACTIVE even while a match is missing (row 3 before row 4). The corrected
words of its program count (R251). -/
def Unit.advance (u : Unit) (busy : Nat) (w : Waits) : Unit :=
  let t := u.cyc + w.tag + w.x + w.active
  let m := min w.tag (busy - u.cyc)
  { u.settle t with cyc := t, tagWait := u.tagWait + BitVec.ofNat 64 (w.tag - m), xwait := u.xwait + BitVec.ofNat 64 w.x
                    active := u.active + BitVec.ofNat 64 (w.active + m), progCe := sat32 u.progCe w.fixed }

/-- A unit spends active cycles. -/
def Unit.spend (u : Unit) (n : Nat) : Unit := { u with cyc := u.cyc + n, active := u.active + BitVec.ofNat 64 n }

/-- The cycle until which the block an instruction needs is busy (R274): the multiply array, the row and rotation block, or for
SYNC DRAIN the array and the pipelines. -/
def Unit.busyUntil (u : Unit) (w : Nat) : Nat :=
  let array := match u.macAt with | some (t, _) => t + 2 | none => 0
  let rows := match u.rowOp with | some r => r.at_ + r.k | none => 0
  match fOp w with
  | 0x05 => array
  | 0x0A => rows
  | 0x13 => rows
  | 0x14 => rows
  | 0x11 => if bit w 47 then u.pend.foldl (fun a p => max a p.at_) (max array rows) else 0
  | _ => 0

/-- Wait, in active cycles, for a block that is busy until a cycle (Table 11-2, row 3). -/
def Unit.untilCyc (u : Unit) (t : Nat) : Unit := if u.cyc < t then (u.spend (t - u.cyc)).settle t else u

/-- The entry that would match beyond a full window of the match a unit waits for (Table 11-6, WINDOW_MISS). -/
def Unit.missed (u : Unit) : Option (Nat × Flit) :=
  match Unit.bindAll (needs u.group.waits) u with
  | (none, _) => none
  | (some (w, q), v) =>
    ((Tab.get [] v.queues q).drop (waitWindow w)).findSome? (fun e => if v.fits w e then some (q, e.flit) else none)

end Sys2Proof.Machine
end

