-- ==== Sys2Proof/Machine/CapOps.lean ====
section
/-! DEFINITION. The capture trigger (R460), which frame starts, numbered events and CAP_EN reach. -/

namespace Sys2Proof.Machine

/-- The CAP_SRC mask of the CAP records (Table 13-13). -/
def State.logCapture (s : State) (e : Ev) (arg1 : Nat) : State := s.log e inHbm 0 s.cap.src arg1

/-- The capture trigger fires once while CAP_EN is set (R460). -/
def State.capFire (s : State) : State :=
  if s.cap.en && !s.cap.triggered then
    ({ s with cap := { s.cap with triggered := true, frames := 0 } }).logCapture .capTrigger 0
  else s

/-- A frame start of a stream (CAP_TRIG 1). -/
def State.capFrameStart (s : State) (st : Nat) (fseq : B16) : State :=
  if s.cap.trig == 1 && s.cap.stream == st && s.cap.arg == fseq.toNat then s.capFire else s

/-- An event that the Event Sequencer numbers (CAP_TRIG 2). -/
def State.capEvent (s : State) (code : Nat) : State :=
  if s.cap.trig == 2 && s.cap.arg == code then s.capFire else s

/-- CAP_EN clears by hardware (R460). -/
def State.capEnd (s : State) : State :=
  ({ s with cap := { s.cap with en := false } }).logCapture .capDone s.cap.prod.toNat

/-- An end-of-frame tag of CAP_STREAM has been captured: CAP_POST counts it (R460). -/
def State.capFrameEnd (s : State) (st : Nat) : State :=
  if s.cap.en && s.cap.triggered && s.cap.stream == st && s.cap.post != 0 then
    let s := { s with cap := { s.cap with frames := s.cap.frames + 1 } }
    if s.cap.post ≤ s.cap.frames then s.capEnd else s
  else s

end Sys2Proof.Machine
end

