-- ==== Sys2Proof/Machine/Num.lean ====
section
/-! DEFINITION. The arithmetic of chapter 07: binary32 and binary16 as their bit patterns, every operation computed exactly
and rounded once to nearest even, saturating, with the NaN rules of R184 and R189; SF12 and SF8 expansion; requantisation. -/

namespace Sys2Proof.Machine

/-- An exact value: NaN, or sign, significand and exponent of two. -/
inductive Real2 where
  | nan
  | fin (neg : Bool) (m : Nat) (e : Int)
  deriving DecidableEq, Repr

/-- A floating format: precision, exponent of the least subnormal, largest finite encoding, NaN encoding, sign weight. -/
structure Fmt where
  p : Nat
  emin : Int
  maxEnc : Nat
  nan : Nat
  sign : Nat

def f32 : Fmt := { p := 24, emin := -149, maxEnc := 0x7F7FFFFF, nan := 0x7FC00000, sign := 0x80000000 }
def f16 : Fmt := { p := 11, emin := -24, maxEnc := 0x7BFF, nan := 0x7E00, sign := 0x8000 }

/-- The value of an encoding; an infinity counts as the largest finite value (R184, R189). -/
def Fmt.dec (F : Fmt) (v : Nat) : Real2 :=
  let neg := F.sign ≤ v % (2 * F.sign)
  let a := v % F.sign
  let lim := F.maxEnc + 1
  let a' := if a = lim then F.maxEnc else a
  if lim < a then .nan
  else
    let be := a' / 2 ^ (F.p - 1)
    let fr := a' % 2 ^ (F.p - 1)
    if be = 0 then .fin neg fr F.emin else .fin neg (fr + 2 ^ (F.p - 1)) (F.emin + (be - 1))

/-- Round `m * 2^e` (plus a nonzero remainder when `sticky`) to nearest even, saturating at the largest finite value. -/
def Fmt.round (F : Fmt) (neg : Bool) (m : Nat) (e : Int) (sticky : Bool) : Nat :=
  let s := if neg then F.sign else 0
  if m = 0 then s
  else
    let len : Int := Nat.log2 m + 1
    let q : Int := max (e + len - F.p) F.emin
    let enc : Nat :=
      if q ≤ e then (q - F.emin).toNat * 2 ^ (F.p - 1) + m * 2 ^ (e - q).toNat
      else
        let sh := (q - e).toNat
        let hi := m / 2 ^ sh
        let lo := m % 2 ^ sh
        let half := 2 ^ (sh - 1)
        let up := half < lo || (lo == half && (sticky || hi % 2 == 1))
        (q - F.emin).toNat * 2 ^ (F.p - 1) + hi + (if up then 1 else 0)
    s + min enc F.maxEnc

/-- The encoding of an exact value. -/
def Fmt.enc (F : Fmt) : Real2 → Nat
  | .nan => F.nan
  | .fin neg m e => F.round neg m e false

/-- Exact sum; equal magnitudes of opposite sign give +0 (R184). -/
def Real2.add : Real2 → Real2 → Real2
  | .nan, _ => .nan
  | _, .nan => .nan
  | .fin n1 m1 e1, .fin n2 m2 e2 =>
    let e := min e1 e2
    let a : Int := (if n1 then -1 else 1) * (m1 * 2 ^ (e1 - e).toNat : Nat)
    let b : Int := (if n2 then -1 else 1) * (m2 * 2 ^ (e2 - e).toNat : Nat)
    let c := a + b
    if c = 0 then .fin (n1 && n2) 0 0 else .fin (c < 0) c.natAbs e

def Real2.neg : Real2 → Real2
  | .nan => .nan
  | .fin n m e => .fin (!n) m e

/-- Exact product. -/
def Real2.mul : Real2 → Real2 → Real2
  | .fin n1 m1 e1, .fin n2 m2 e2 => .fin (n1 != n2) (m1 * m2) (e1 + e2)
  | _, _ => .nan

/-- Exact scaling by a power of two. -/
def Real2.scale (k : Int) : Real2 → Real2
  | .nan => .nan
  | .fin n m e => .fin n m (e + k)

/-- An integer as an exact value. -/
def Real2.int (v : Int) : Real2 := .fin (v < 0) v.natAbs 0

/-- Strict order of two values that are not NaN. -/
def Real2.lt : Real2 → Real2 → Bool
  | .fin n1 m1 e1, .fin n2 m2 e2 =>
    let e := min e1 e2
    let a : Int := (if n1 then -1 else 1) * (m1 * 2 ^ (e1 - e).toNat : Nat)
    let b : Int := (if n2 then -1 else 1) * (m2 * 2 ^ (e2 - e).toNat : Nat)
    a < b
  | _, _ => false

/-- Round half to even to an integer (R188); NaN gives none. -/
def Real2.toInt : Real2 → Option Int
  | .nan => none
  | .fin n m e =>
    let v : Nat :=
      if 0 ≤ e then m * 2 ^ e.toNat
      else
        let sh := (-e).toNat
        let hi := m / 2 ^ sh
        let lo := m % 2 ^ sh
        let half := 2 ^ (sh - 1)
        if half < lo || (lo == half && hi % 2 == 1) then hi + 1 else hi
    some (if n then -(v : Int) else v)

/-- Floor of a value that is not NaN. -/
def Real2.floor : Real2 → Int
  | .nan => 0
  | .fin n m e =>
    let a : Int := if n then -(m : Int) else m
    if 0 ≤ e then a * 2 ^ e.toNat else a / 2 ^ (-e).toNat

/-- The integer a value equals, if it is one. -/
def Real2.isInt (r : Real2) : Option Int :=
  match r with
  | .nan => none
  | _ => let f := r.floor; if (Real2.int f).lt r then none else some f

-- one binary32 operation each (R184)
def add32 (a b : Nat) : Nat := f32.enc ((f32.dec a).add (f32.dec b))
def sub32 (a b : Nat) : Nat := f32.enc ((f32.dec a).add (f32.dec b).neg)
def mul32 (a b : Nat) : Nat := f32.enc ((f32.dec a).mul (f32.dec b))
def int32 (v : Int) : Nat := f32.enc (Real2.int v)
def to32 (v : Nat) : Nat := f32.enc (f16.dec v)
def to16 (v : Nat) : Nat := f16.enc (f32.dec v)
def isNan32 (v : Nat) : Bool := f32.dec v == .nan
def isNan16 (v : Nat) : Bool := f16.dec v == .nan
def lt32 (a b : Nat) : Bool := (f32.dec a).lt (f32.dec b)
def lt16 (a b : Nat) : Bool := (f16.dec a).lt (f16.dec b)

/-- One division in a format: a nonzero over 0 gives the largest finite value with the quotient's sign; 0 over 0 NaN (R184). -/
def Fmt.div (F : Fmt) (a b : Nat) : Nat :=
  match F.dec a, F.dec b with
  | .fin n1 m1 e1, .fin n2 m2 e2 =>
    let n := n1 != n2
    if m2 = 0 then (if m1 = 0 then F.nan else (if n then F.sign else 0) + F.maxEnc)
    else
      let sh := 80 + Nat.log2 m2
      let num := m1 * 2 ^ sh
      F.round n (num / m2) (e1 - e2 - sh) (num % m2 != 0)
  | _, _ => F.nan

def div32 (a b : Nat) : Nat := f32.div a b

/-- Clamp in binary32. -/
def clamp32 (v lo hi : Nat) : Nat := if lt32 v lo then lo else if lt32 hi v then hi else v

/-- Round half to even of a binary32, 0 for NaN. -/
def round32 (v : Nat) : Int := (f32.dec v).toInt.getD 0

/-- Fixed point used for the exponential: 2^-320. -/
def fxBits : Nat := 320

/-- Partial sums of `exp` in fixed point: `t` is the last term, `k` counts it. -/
def fxExpSum : Nat → Nat → Nat → Nat → Nat
  | 0, _, _, acc => acc
  | n + 1, x, t, acc =>
    let t' := t * x / 2 ^ fxBits / (160 - n)
    fxExpSum n x t' (acc + t')

/-- `exp` of a fixed-point value of at most 40, by 160 terms. -/
def fxExp (x : Nat) : Nat := fxExpSum 160 x (2 ^ fxBits) (2 ^ fxBits)

/-- ln 2 in fixed point, by its series. -/
def fxLn2 : Nat := (List.range 330).foldl (fun a n => a + 2 ^ fxBits / ((n + 1) * 2 ^ (n + 1))) 0

/-- A value not above 40 in magnitude as fixed point. -/
def Real2.fx : Real2 → Nat
  | .fin _ m e => if 0 ≤ e + fxBits then m * 2 ^ (e + fxBits).toNat else m / 2 ^ (-(e + fxBits)).toNat
  | .nan => 0

/-- The exponential of a value, rounded once to a format (R191, R238). -/
def Fmt.expR (F : Fmt) (r : Real2) (scale : Nat) : Nat :=
  match r with
  | .nan => F.nan
  | .fin n m _ =>
    if m = 0 then F.round false 1 0 false
    else if (Real2.int 40).lt r then F.maxEnc
    else if r.lt (Real2.int (-40)) then 0
    else
      let x := fxExp (r.fx * scale / 2 ^ fxBits)
      if n then F.round false (2 ^ (2 * fxBits) / x) (-(fxBits : Int)) true
      else F.round false x (-(fxBits : Int)) true

/-- exp16: correctly rounded binary16 exponential. -/
def exp16 (v : Nat) : Nat := f16.expR (f16.dec v) (2 ^ fxBits)

/-- recip16: correctly rounded binary16 reciprocal; of zero, 65,504 with its sign. -/
def recip16 (v : Nat) : Nat := f16.div 0x3C00 v

/-- 2^v as the correctly rounded binary32 value (R56, R205); v is a binary16 or binary32 value. -/
def pow2of32 (r : Real2) : Nat :=
  match r.isInt with
  | some k => if 130 < k then f32.maxEnc else if k < -160 then 0 else f32.enc (.fin false 1 k)
  | none => f32.expR r fxLn2

/-- floor(log2 n) for n ≥ 1. -/
def ilog2 (n : Nat) : Nat := Nat.log2 n

/-- Expansion of an integer code to SF12 (R181). -/
def sf12 (n : Int) : Nat :=
  if n = 0 then 0
  else
    let a := n.natAbs
    let p := ilog2 a
    (if n < 0 then 2048 else 0) + (p + 15) * 64 + (a * 64 / 2 ^ p - 64)

/-- Expansion of an integer code to SF8 (R181). -/
def sf8 (n : Int) : Nat :=
  if n = 0 then 0
  else
    let a := n.natAbs
    let p := ilog2 a
    (if n < 0 then 128 else 0) + (p + 7) * 8 + (a * 8 / 2 ^ p - 8)

/-- The value of an SF12 encoding (Table 07-1). -/
def sf12Val (v : Nat) : Real2 :=
  let e := v / 64 % 32
  let m := v % 64
  if e = 0 then .fin (bit v 11) m (-20) else .fin (bit v 11) (m + 64) ((e : Int) - 21)

/-- The value of an SF8 encoding (Table 07-1). -/
def sf8Val (v : Nat) : Real2 :=
  let e := v / 8 % 16
  let m := v % 8
  if e = 0 then .fin (bit v 7) m (-9) else .fin (bit v 7) (m + 8) ((e : Int) - 10)

/-- A U8 or S8 code as the integer the datapath uses (R179). -/
def codeInt (u8 : Bool) (c : Nat) : Int := if u8 then (c : Int) - 128 else sext 8 c

/-- The output range of a code kind (R187). -/
def codeLo (u8 : Bool) : Int := if u8 then 0 else -128
def codeHi (u8 : Bool) : Int := if u8 then 255 else 127

/-- Requantisation of an exact value to a code (R187, R189, R191): the code's 8 bits and whether it saturated. A NaN gives
the zero point and counts as a saturation. -/
def requant (r : Real2) (zo : Int) (u8 : Bool) : Nat × Bool :=
  match r.toInt with
  | none => (uns 8 zo, true)
  | some v =>
    let q := v + zo
    let c := clampI (codeLo u8) (codeHi u8) q
    (uns 8 c, c != q)

/-- A value rounded toward zero to binary32 for MAXABS (R198); above the range, the largest finite value. -/
def maxabs32 (r : Real2) : Nat :=
  match r with
  | .nan => 0
  | .fin _ m e =>
    if m = 0 then 0
    else
      let q : Int := max (e + (Nat.log2 m + 1 : Nat) - 24) (-149)
      let enc : Nat :=
        if q ≤ e then (q + 149).toNat * 2 ^ 23 + m * 2 ^ (e - q).toNat
        else (q + 149).toNat * 2 ^ 23 + m / 2 ^ (q - e).toNat
      min enc f32.maxEnc

/-- The larger of two nonnegative binary32 values. -/
def max32 (a b : Nat) : Nat := if a < b then b else a

/-- The larger binary16 operand; of equals, +0 over -0; a NaN gives NaN (Table 07-2). -/
def max16 (a b : Nat) : Nat :=
  if isNan16 a || isNan16 b then 0x7E00
  else if lt16 a b then b else if lt16 b a then a else if a = 0x8000 then b else a

/-- Binary32 sum of a list from a start value, in order (R183). -/
def sum32 (z : Nat) (l : List Nat) : Nat := l.foldl add32 z

/-- Binary32 sum of exact products of binary16 pairs, from a start value, in order (R191). -/
def dot16 (z : Nat) (a b : List Nat) : Nat :=
  (a.zip b).foldl (fun s p => f32.enc ((f32.dec s).add (f32.dec (f32.enc ((f16.dec p.1).mul (f16.dec p.2)))))) z

/-- One butterfly stage over pairs at distance `d` (R194). -/
def butterfly (d : Nat) (x : List Nat) : List Nat :=
  (List.range x.length).map (fun i =>
    if i / d % 2 == 0 then add32 (x.getD i 0) (x.getD (i + d) 0) else sub32 (x.getD (i - d) 0) (x.getD i 0))

/-- The Hadamard rotation of size 2^k, scaled by 2^(-k/2) exactly (R194). -/
def hadamard (k : Nat) (x : List Nat) : List Real2 :=
  ((List.range k).foldl (fun v j => butterfly (2 ^ j) v) x).map (fun v => (f32.dec v).scale (-((k / 2 : Nat) : Int)))

end Sys2Proof.Machine
end

