-- ==== Sys2Proof/Machine/HeadOps.lean ====
section
/-! DEFINITION. Operations of the Head Links: passport fields, wear and the pending store, the I3C queue, attach and
authentication, and the opening, placing and closing of lines and frames (chapter 02). -/

namespace Sys2Proof.Machine

-- The passport (Table 02-5, Table 02-6).

def Head.pp (h : Head) (o n : Nat) : Nat := fieldLe h.passport o n
def Head.id (h : Head) : BitVec 128 := BitVec.ofNat 128 (h.pp 8 16)
def Head.numGains (h : Head) : Nat := h.pp 6 2
def Head.ratedLife (h : Head) : Nat := h.pp 0x38 4
def Head.actSa (h : Head) : Nat := h.pp 0x3E 1
def Head.gainSrc (h : Head) : Nat := h.pp 0x3F 1
def Head.expoBytes (h : Head) : Nat := h.pp 0x143 1
def Head.gainBytes (h : Head) : Nat := h.pp 0x148 1
def Head.actBytes (h : Head) : Nat := h.pp 0x149 1
def Head.gainUnit (h : Head) : Nat := h.pp 0x14A 2

/-- Calibration entries in use: GAIN, BLACK, SHOT, READ, LOW_GAIN_OK. -/
def Head.cal (h : Head) : List (Nat × Nat × Nat × Nat × Bool) :=
  (List.range h.numGains).map (fun i =>
    let o := 0x40 + 16 * i
    (h.pp o 2, h.pp (o + 2) 2, h.pp (o + 4) 4, h.pp (o + 8) 4, h.pp (o + 12) 1 % 2 == 1))

def Head.gainLo (h : Head) : Nat := (h.cal.head?.map (fun c : Nat × Nat × Nat × Nat × Bool => c.1)).getD 0x3C00
def Head.gainMax (h : Head) : Nat := (h.cal.getLast?.map (fun c : Nat × Nat × Nat × Nat × Bool => c.1)).getD 0x3C00

/-- The low-gain ceiling (Table 02-9). -/
def Head.ceiling (h : Head) : Nat :=
  match (h.cal.filter (fun c => c.2.2.2.2)).getLast? with
  | some c => c.1
  | none => h.gainLo

/-- Whether binary16 values strictly ascend, each finite and at least 1.0 (R39). -/
def gainsOk : List Nat → Bool
  | [] => true
  | [a] => 0x3C00 ≤ a && a < 0x7C00
  | a :: b :: t => 0x3C00 ≤ a && a < 0x7C00 && a < b && gainsOk (b :: t)

/-- The passport check of R38 and R39. -/
def Head.passportOk (h : Head) : Bool :=
  h.passport.length == 640 && h.passport.take 4 == [0x4B, 0x48, 0x50, 0x50] && h.pp 4 2 == 1
    && 1 ≤ h.numGains && h.numGains ≤ 16 && gainsOk (h.cal.map (fun c : Nat × Nat × Nat × Nat × Bool => c.1))
    && ecdsaOk Config.headRootX Config.headRootY (h.pp 0x190 32) (h.pp 0x1B0 32) (h.passport.take 0x190)

/-- Linear interpolation of a calibration quantity at G (R53), each step one binary32 operation; `pick` gives it in
binary32. -/
def interp (g : Nat) (pick : Nat × Nat × Nat × Nat × Bool → Nat) : List (Nat × Nat × Nat × Nat × Bool) → Nat
  | [] => 0
  | [a] => pick a
  | a :: b :: t =>
    if g ≤ a.1 then pick a
    else if g < b.1 then
      add32 (pick a) (div32 (mul32 (sub32 (pick b) (pick a)) (sub32 (to32 g) (to32 a.1))) (sub32 (to32 b.1) (to32 a.1)))
    else interp g pick (b :: t)

/-- The black level at a gain (R53). -/
def Head.black (h : Head) (g : Nat) : Nat := (round32 (interp g (fun c => int32 c.2.1) h.cal)).toNat

/-- SHOT and READ at a gain, for the metadata (R408). -/
def Head.shot (h : Head) (g : Nat) : Nat := interp g (fun c => c.2.2.1) h.cal
def Head.readNoise (h : Head) (g : Nat) : Nat := interp g (fun c => c.2.2.2.1) h.cal

-- Wear and the pending store (R44-R51).

/-- The pending-store entry of a head. -/
def State.entry (s : State) (h : Nat) : Option Pending := s.store.find? (fun e => e.id == (s.head h).id)

/-- The head's wear: the ledger in force plus what is pending (R47, R54). -/
def State.wear (s : State) (h : Nat) : Nat := (s.head h).wear + ((s.entry h).map (fun e : Pending => e.wear)).getD 0

/-- Wear that makes 100 % of rated life, in weighted deciseconds. -/
def Head.lifeWear (h : Head) : Nat := h.ratedLife * 36000

/-- Whether a head is at or above 100 % of rated life (R49, R51). -/
def State.worn (s : State) (h : Nat) : Bool := (s.head h).exhausted || (s.head h).lifeWear ≤ s.wear h

/-- An attached head with a HEAD_ID, else 0xFFFF_FFFF (PENDING_LOST). -/
def State.headOfId (s : State) (id : BitVec 128) : Nat :=
  match s.heads.find? (fun e => e.2.state != .absent && e.2.passport.length == 640 && e.2.id == id) with
  | some e => e.1
  | none => 0xFFFFFFFF

/-- The entry of a head becomes the most recently updated; a missing one is made, evicting the oldest of a full store
(R47). -/
def State.touchEntry (s : State) (h : Nat) (f : Pending → Pending) : State :=
  let id := (s.head h).id
  let old := s.entry h
  let rest := s.store.filter (fun e => e.id != id)
  let e := f ((old.getD { id := id }))
  let e := { e with head := h }
  if rest.length < 16 then { s with store := rest ++ [e] }
  else
    match rest with
    | [] => { s with store := [e] }
    | v :: t =>
      let s := s.log .pendingLost inMc noFn (s.headOfId v.id) (min v.wear 0xFFFFFFFF) (toLe 16 v.id.toNat)
      { s with store := t ++ [e] }

/-- The life thresholds are passed once each (R51). A head whose commits are used up (R49) logs no WEAR_LIMIT for that and sets no
LIFE_SEEN (DESIGN CHOICE, log 41: the spec does not say). -/
def State.checkLife (s : State) (h : Nat) : State :=
  let x := s.head h
  let w := s.wear h
  let args := packBits [(32, min w 0xFFFFFFFF), (32, x.ratedLife)]
  let s := if !x.warnSeen && 9 * x.lifeWear ≤ 10 * w then
    (s.log .wearWarn inMc x.fn h args).modHead h (fun y => { y with warnSeen := true }) else s
  if !x.lifeSeen && x.lifeWear ≤ w then
    (s.log .wearLimit inMc x.fn h args).modHead h (fun y => { y with lifeSeen := true }) else s

/-- The commit budget of R49, by the last committed sequence. Its two events are logged once per attach, so again at a later attach of
a head past its budget (DESIGN CHOICE, log 41: the spec does not say). -/
def State.checkBudget (s : State) (h : Nat) : State :=
  let x := s.head h
  let s := if !x.budget && 190000 ≤ x.lastSeq then
    (s.log .nvmBudget inMc x.fn h x.lastSeq).modHead h (fun y => { y with budget := true }) else s
  if !x.exhausted && 200000 ≤ x.lastSeq then
    (s.log .nvmExhausted inMc x.fn h x.lastSeq).modHead h (fun y => { y with exhausted := true }) else s

/-- The weight of a temperature in 1/256 degC (Table 02-7). -/
def wearWeight (t : Int) : Nat :=
  if t ≤ 40 * 256 then 10 else if t ≤ 55 * 256 then 16 else if t ≤ 70 * 256 then 28 else 50

/-- Seconds of streaming between periodic commits (R45, R49). -/
def Head.commitEvery (h : Head) : Nat := if h.budget then 3600 else 600

-- Ledger copies (Table 02-8).

def ledgerBytes (seq wear flags : Nat) (maxTemp : Int) : Bytes :=
  let b := toLe 4 seq ++ toLe 4 wear ++ toLe 1 flags ++ [0xFF] ++ toLe 2 (uns 16 maxTemp)
  b ++ toLe 4 (crc32 b)

/-- Whether a copy is valid in its place: its CRC and the parity of its COMMIT_SEQ. -/
def ledgerValid (copyB : Bool) (b : Bytes) : Bool :=
  fieldLe b 12 4 == crc32 (b.take 12) && (fieldLe b 0 4 % 2 == 1) == copyB && !b.all (· == 0xFF)

-- I3C (R22, R34).

/-- Queue an ordinary transfer behind everything else. -/
def Head.i3cPut (h : Head) (x : I3cXfer) : Head := { h with i3c := h.i3c ++ [x] }

/-- A read of the Head Link's own, in transfers of at most 16 data bytes (R22). -/
def readXfers (target reg n : Nat) : List I3cXfer :=
  (List.range ((n + 15) / 16)).map (fun i => { target := target, reg := reg + 16 * i, rlen := min 16 (n - 16 * i) })

/-- Queue a read of the Head Link's own (R22; log 40). -/
def Head.i3cRead (h : Head) (target reg n : Nat) : Head := { h with i3c := h.i3c ++ readXfers target reg n }

/-- The SETDASA transfers of an attach (R34): each present target's static address with its dynamic one. -/
def Head.setdasas (h : Head) : List I3cXfer :=
  ([(nvmStatic, nvmAddr), (h.pp 0x3C 1, sensorAddr), (h.pp 0x3D 1, seAddr)] ++ (if h.actSa == 0 then [] else [(h.actSa, actAddr)])).map
    (fun p : Nat × Nat => { target := p.1, setdasa := some p.2 })

/-- What a sensor register of `n` bytes holds, most significant byte first (R34); none when the read gave too few. -/
def sensorValue (n : Nat) (bs : Bytes) : Option Nat := if bs.length < n then none else some (beNat (bs.take n))

/-- What the actuator's register holds, in the byte order of the passport (R34, R57). -/
def Head.actValue (h : Head) (bs : Bytes) : Option Nat :=
  if bs.length < h.actBytes then none
  else some (if h.pp 0x14F 1 == 1 then beNat (bs.take h.actBytes) else leNat (bs.take h.actBytes))

/-- Queue a decision write: behind the transfer in flight and the decisions already waiting; an actuator write goes ahead
of waiting exposure writes (R20, R22). -/
def Head.i3cDecision (h : Head) (x : I3cXfer) : Head :=
  match h.i3c with
  | [] => { h with i3c := [x] }
  | f :: t =>
    let ahead := fun (y : I3cXfer) => y.decision && (x.target != actAddr || y.target == actAddr)
    { h with i3c := f :: (t.takeWhile ahead ++ [x] ++ t.dropWhile ahead) }

/-- Big-endian bytes of a register value (R34). -/
def beBytes (n v : Nat) : Bytes := (toLe n v).reverse

-- Head states.

def HeadState.code : HeadState → Nat
  | .absent => 0 | .powering => 1 | .ident => 2 | .auth => 3 | .ready => 4 | .untrusted => 5 | .fault => 6

/-- Whether streams of the head may run (Table 02-4). -/
def Head.usable (h : Head) : Bool := h.state == .ready || h.state == .untrusted

/-- Whether a Head Link is on this variant and its Port die is out of reset. The die leaves reset, and the presence filter of R487
restarts, at READY or when its PXCLK returns (DESIGN CHOICE, log 43: the start-up sequence names no moment). -/
def State.linkUp (s : State) (h : Nat) : Bool := h < s.part.variant.heads && s.portUp (dieOfHead h)

def State.headFn (s : State) (h : Nat) : Nat := (s.head h).fn

/-- Begin an attach: power on, the settle time runs (R36). -/
def State.startAttach (s : State) (h : Nat) (k : Option Pkt) : State :=
  s.modHead h (fun x => { x with pwrEn := true, state := .powering, cause := 0, attachPkt := k, autoRun := k.isNone, auth := none, authFailed := false })

/-- An attach ends: by reply, or by HEAD_ATTACHED when it was automatic (R36, R37, R342). -/
def State.attachDone (s : State) (h : Nat) : State :=
  let x := s.head h
  let sc := packBits [(8, x.state.code), (8, x.cause)]
  let w := if x.passport.length == 640 then min (s.wear h) 0xFFFFFFFF else 0
  let s := s.modHead h (fun y => { y with attachPkt := none })
  match x.attachPkt with
  | some k => if x.state == .fault then s.finish k false .headFault [sc] else s.finish k false .ok [sc, w, x.lastSeq]
  | none =>
    if x.autoRun then s.log .headAttached inMc x.paramsFn h (packBits [(8, x.state.code), (8, x.cause), (16, 0), (32, w)]) else s

/-- The attach ends in FAULT. -/
def State.attachFault (s : State) (h : Nat) (cause : Nat) : State :=
  (s.modHead h (fun x => { x with state := .fault, cause := cause, auth := none })).attachDone h

/-- The passport report of an attach (R342): to its address, or the CSPI result buffer (R332). -/
def State.passportReport (s : State) (h : Nat) (b : Bytes) : State :=
  let x := s.head h
  match x.params with
  | none => s
  | some p =>
    if x.paramsCspi then { s with cspi := { s.cspi with result := b.take 640 } }
    else s.hostWrite p.report (b.take 640)

/-- Start an authentication: a fresh challenge, its two writes and the start register (R40). -/
def State.startAuth (s : State) (h : Nat) (again : Bool) (k : Option Pkt) : State :=
  let c := toLe 32 (Config.challenge s.freeCount).toNat
  s.draw.modHead h (fun x =>
    (((({ x with auth := some { challenge := c, again := again, pkt := k } } : Head).i3cPut { target := seAddr, reg := 0x10, data := c.take 16 }).i3cPut
      { target := seAddr, reg := 0x20, data := c.drop 16 }).i3cPut { target := seAddr, reg := 0x00, data := [0x01] }))

/-- The signed message of R40. -/
def authMessage (challenge : Bytes) (id : BitVec 128) : Bytes := [0x4B, 0x34, 0x48, 0x41] ++ challenge ++ toLe 16 id.toNat

/-- Stop every LIVE stream of a head as STREAM_STOP does, at its frame boundary (R42). -/
def State.stopHead (s : State) (h : Nat) : State :=
  [0, 1, 2, 3].foldl (fun s v => if (s.strm (4 * h + v)).source == 0 then s.stopStream (4 * h + v) false else s) s

/-- A failed authentication takes effect (R41, R42): FAULT under STRICT, UNTRUSTED under OPEN. -/
def State.authFail (s : State) (h : Nat) : State :=
  let x := s.head h
  if x.openTrust then s.modHead h (fun y => { y with state := .untrusted, cause := 2, authFailed := false, untrustedUse := true })
  else (s.modHead h (fun y => { y with state := .fault, cause := 2, authFailed := false })).stopHead h

/-- The authentication in course ends (R40-R43); cause as HEAD_AUTH_FAIL numbers it. -/
def State.authEnd (s : State) (h : Nat) (ok : Bool) (cause : Nat) : State :=
  let x := s.head h
  match x.auth with
  | none => s
  | some a =>
    let s := s.modHead h (fun y => { y with auth := none, sinceAuth := 0 })
    -- a head with no running stream takes the device's trust at once (R442)
    let s := if s.headStreaming h then s else s.modHead h (fun y => { y with openTrust := s.modes.openTrust })
    let s := if ok then s else
      s.log .headAuthFail h x.fn h (packBits [(8, cause), (8, if (s.head h).openTrust then 1 else 0)])
    if !a.again then
      let s := if ok then s.modHead h (fun y => { y with state := .ready, cause := 0 }) else s.authFail h
      s.attachDone h
    else
      let s :=
        if ok then s.modHead h (fun y => { y with state := .ready, cause := 0, authFailed := false
                                                  untrustedUse := y.untrustedUse || y.state == .untrusted })
        else if s.headStreaming h && x.usable then s.modHead h (fun y => { y with authFailed := true })
        else s.authFail h
      let s := match a.pkt with
        | some k => s.finish k false .ok
        | none => s
      s.detachStep h

-- Lines and frames (R30-R33, R146, R147).

/-- The declaration of a virtual channel, where the attach declared it. -/
def Head.chan (h : Head) (v : Nat) : Option VcDecl :=
  match h.params with
  | none => none
  | some p => if p.vcMask.getLsbD v then some (p.vc.getD v {}) else none

/-- The DTB value a Head Link's Port die shadow gives (R74); an unwritten shadow follows the master. -/
def State.shadow (s : State) (i : Nat) : B64 := Tab.get s.dtb.now s.dtb.shadows i

/-- A line stamp is not less than the one before it of the same stream, except across a DTB step (R73). -/
def Strm.notBefore (x : Strm) (t : B64) : B64 :=
  match x.stampLast with
  | some p => if t.toNat < p.toNat then p else t
  | none => t

/-- A stamp within the bound of R74: the shadow plus an error of -10 to 10 ns, kept in order with the stream's others (R73). -/
def State.stamp (s : State) (st : Nat) (err : Nat) : B64 :=
  (s.strm st).notBefore (s.shadow (dieOfStream st) + BitVec.ofNat 64 err - 10)

/-- What becomes of a packet's header (R32): discarded, or handled. An uncorrectable one discards the rest of its HS
transmission and is remembered by every stream of the head. -/
def State.header (s : State) (h : Nat) (hdr : CsiHdr) : Bool × State :=
  let s := if hdr.first then s.modHead h (fun x => { x with hsDiscard := false }) else s
  if (s.head h).hsDiscard then (false, s)
  else if hdr.ecc == .bad then
    let s := s.modHead h (fun x => { x with hsDiscard := true, hdrErr := x.hdrErr + 1 })
    (false, [0, 1, 2, 3].foldl (fun s v => s.modStrm (4 * h + v) (fun x =>
      { x with hdrSince := true, frame := x.frame.map (fun f : LinkFrame => { f with hdrFrame := true }) })) s)
  else (true, s)

/-- Whether a Head Link takes its head's packets: from the end of the attach on, also of a powered head in FAULT, whose frames it
goes on counting (R31) and whose frames in progress end at their boundary (R42). -/
def Head.receives (h : Head) : Bool := h.usable || (h.state == .fault && h.pwrEn)

/-- A packet that reaches a declared channel of an attached head: its header passed and its channel is known (R29, R32). -/
def State.packet (s : State) (h vc : Nat) (hdr : CsiHdr) : Option VcDecl × State :=
  if !s.linkUp h || !(s.head h).receives then (none, s)
  else
    let r := s.header h hdr
    if !r.1 then (none, r.2)
    else
      match (r.2.head h).chan vc with
      | none => (none, r.2.modHead h (fun x => { x with unknownDt := x.unknownDt + 1 }))
      | some d => (some d, r.2)

/-- A packet outside any frame (Table 02-3). -/
def State.outside (s : State) (h : Nat) : State := s.modHead h (fun x => { x with outsideFrame := x.outsideFrame + 1 })

/-- Untaken received lines of a stream. -/
def Strm.untaken (x : Strm) : Nat :=
  (x.buf.filter (fun i => match i with | .line _ => true | .eof _ => false)).length
    + (x.missing.filter (fun i => match i with | .line l => !l.supplied | .eof _ => false)).length

/-- Put an item in the stream buffer, behind missing lines still to be supplied; BUF_PEAK follows. -/
def Strm.push (x : Strm) (i : BufItem) : Strm :=
  let x := if x.missing.isEmpty then { x with buf := x.buf ++ [i] } else { x with missing := x.missing ++ [i] }
  { x with bufPeak := max x.bufPeak x.untaken }

/-- A line begins while D lines are untaken: the rest of the frame is dropped (R146, R343). -/
def State.lineBegins (s : State) (st : Nat) : State :=
  let x := s.strm st
  if x.admitting && x.frame.any (fun f => !f.dropping) && x.dropD ≤ x.untaken then s.truncate st .bufOvf else s

/-- Flags of a delivered line reach its frame (R32). -/
def FrameInfo.lineFlags (f : FrameInfo) (fl : Nat) : FrameInfo :=
  let f := if bit fl 0 then f.flag .crcErr else f
  let f := if bit fl 1 then f.flag .hdrErr else f
  if bit fl 2 then f.flag .lineLen else f

/-- Deliver one line of the open frame: to the stream buffer, and to the frame's account. -/
def Strm.deliver (x : Strm) (l : Line) : Strm :=
  if x.admitting && x.frame.any (fun f => !f.dropping) then
    (x.push (.line l)).modFrame l.fseq (fun f =>
      let f := { f.lineFlags l.flags with lines := f.lines + 1, stamp := if l.line == 0 then l.stamp else f.stamp }
      if f.stepped && !bit l.flags 5 then f.flag .timeStep else f)
  else x

-- Focus writes (R20, R21, R55, R57).

/-- The bytes an actuator write carries: a value that ACT_BYTES bytes do not hold loses its higher bits (DESIGN CHOICE, log 40: the
spec states no clamp of it). -/
def Head.actData (h : Head) (v : Int) : Bytes :=
  let n := uns (8 * h.actBytes) v
  if h.pp 0x14F 1 == 1 then beBytes h.actBytes n else toLe h.actBytes n

/-- A focus write issues: AF-6's step, or in ABSOLUTE mode the last written position plus the step, clamped (R55); what is written
becomes the position (R57). A frame DROPPED meanwhile writes nothing (R21). -/
def State.issueFocus (s : State) (st : Nat) (fseq : B16) (step : Int) : State :=
  let h := st / 4
  let y := s.head h
  if !y.usable || !((s.strm st).info fseq).any (fun i => !i.has .dropped) then s
  else
    let v := if y.actAbs then clampI y.actMin y.actMax (y.actPos + step) else step
    (s.modHead h (fun y => { (y.i3cDecision { target := actAddr, reg := y.pp 0x14E 1, data := y.actData v, decision := true })
                             with actPos := v })).modFrame st fseq (fun i => { i with dec := orBit i.dec 0 })

/-- Lines `lo` to `hi` of a frame are stamped: a focus write that waits for one of them issues (R55). -/
def State.focusLines (s : State) (st : Nat) (fseq : B16) (lo hi : Nat) : State :=
  let y := s.head (st / 4)
  match y.focusHeld with
  | some f =>
    if f.stream == st && f.next == some fseq && decide (lo ≤ y.actTrigger) && decide (y.actTrigger ≤ hi) then
      (s.modHead (st / 4) (fun y => { y with focusHeld := none })).issueFocus st f.fseq f.step
    else s
  | none => s

/-- A frame ends: a focus write that waited for one of its lines can not issue any more (log 40). -/
def State.focusEnd (s : State) (st : Nat) (fseq : B16) : State :=
  s.modHead (st / 4) (fun y =>
    { y with focusHeld := y.focusHeld.filter (fun f => !(f.stream == st && f.next == some fseq)) })

/-- A frame begins: it is the next frame of a focus write that waits for one (R55). -/
def State.focusBegin (s : State) (st : Nat) (fseq : B16) : State :=
  s.modHead (st / 4) (fun y =>
    { y with focusHeld := y.focusHeld.map (fun f =>
        if f.stream == st && f.next.isNone && f.fseq != fseq then { f with next := some fseq } else f) })

/-- The next line of an open frame by count (R32). -/
def LinkFrame.count (f : LinkFrame) : Nat := match f.last with | some l => l + 1 | none => 0

/-- The line number a packet gives its line: its own, or the next by count (R32). -/
def LinkFrame.place (f : LinkFrame) (number : Nat) : Nat := if number == 0 then f.count else number - 1

/-- Place a received line (R32, R33): extra lines go, skipped numbers are supplied first. `pre` marks a line stamped before a DTB
step. -/
def State.placeLine (s : State) (st number height : Nat) (stamp : B64) (codes : List B16) (fl : Nat) : State :=
  let x := s.strm st
  match x.frame with
  | none => s
  | some f =>
    let next := f.count
    let n := f.place number
    let pre := f.old && f.cur.isSome
    if n < next || height ≤ n then
      let f := { f with cur := none, old := false, repaired := true }
      s.setStrm st ({ x with frame := some f, hdrSince := false }.modFrame f.fseq (fun i => i.flag .long))
    else
      let skipped := List.range (n - next)
      let skFlags := (if x.hdrSince then 2 else 0) + (if pre then 32 else 0)
      let gap : Int := match f.prevStamp with | some p => (stamp - p).toInt | none => 0
      let good := 0 < gap && skipped.isEmpty && !pre
      let hdr := x.hdrSince
      let x := skipped.foldl (fun y i => y.deliver { fseq := f.fseq, line := next + i, stamp := stamp, flags := skFlags, supplied := true }) x
      let x := x.deliver { fseq := f.fseq, line := n, stamp := stamp, codes := codes, flags := if pre then fl + 32 else fl }
      let x := if skipped.isEmpty || hdr then x else x.modFrame f.fseq (fun i => i.flag .short)
      let f' := { f with last := some n, cur := none, old := false, prevStamp := if pre then none else some stamp, lines := f.lines + 1
                         repaired := f.repaired || fl != 0 || !skipped.isEmpty
                         best := if good then some (match f.best with | some b => min b gap.toNat | none => gap.toNat) else f.best }
      s.setStrm st { x with frame := some f', hdrSince := false }

/-- An IMMEDIATE stop takes effect once the line in progress is in (R313). -/
def State.afterLine (s : State) (st : Nat) : State :=
  if (s.strm st).stopNow then
    let s := (s.truncate st .stopped).endStream st
    match (s.strm st).ctx with | some o => s.checkStopping o | none => s
  else s

/-- The line-start packet of a line with no long packet: a line of 0 pixels (Table 02-3). -/
def State.flushCur (s : State) (st height : Nat) : State :=
  match (s.strm st).frame with
  | some f =>
    match f.cur with
    | some (n, stamp) => (s.placeLine st n height stamp [] 4).afterLine st
    | none => s
  | none => s

/-- Close the open frame of a stream at the Head Link (R32, R33): missing lines are owed at the buffer's drain rate, the
end-of-frame tag follows them, and a clean frame updates T_meas. -/
def State.closeFrame (s : State) (st height : Nat) : State :=
  let x := s.strm st
  match x.frame with
  | none => s
  | some f =>
    let next := f.count
    let owed := List.range (height - next)
    let now := x.notBefore (s.shadow (dieOfStream st))
    let clean := 2 ≤ f.lines && !f.repaired && owed.isEmpty && !f.dropping
    let tm := if clean then f.best.getD x.tMeas else x.tMeas
    let supplied := x.admitting && !f.dropping && !owed.isEmpty
    let x := { x with frame := none, tMeas := tm, stampLast := if supplied then some now else x.stampLast }
    let x :=
      if x.admitting && !f.dropping then
        let items := owed.map (fun i => BufItem.line { fseq := f.fseq, line := next + i, stamp := now
                                                       flags := if f.hdrFrame then 2 else 0, supplied := true })
        let x := { x with missing := x.missing ++ items ++ [BufItem.eof f.fseq] }
        x.modFrame f.fseq (fun i =>
          let i := if owed.isEmpty then i else i.flag .short
          let i := if !owed.isEmpty && f.hdrFrame then i.flag .hdrErr else i
          let i := if !owed.isEmpty && i.stepped then i.flag .timeStep else i
          if !owed.isEmpty && next == 0 then { i with stamp := now } else i)
      else x
    let x := match x.missing with | [.eof q] => { x with missing := [], buf := x.buf ++ [.eof q] } | _ => x
    let s := s.setStrm st x
    let s := (if supplied then s.focusLines st f.fseq next (height - 1) else s).focusEnd st f.fseq
    if x.stopNext then
      let s := s.endStream st
      match x.ctx with | some o => s.checkStopping o | none => s
    else s

/-- FSEQ and fn_last at a frame start (R31): the new pair, frames skipped, and whether the number repeats. -/
def fseqNext (wrap fn last : Nat) (seen : Bool) (fseq : B16) : B16 × Nat × Bool :=
  if !seen then (0, 0, false)
  else if wrap == 0 || fn == 0 then (fseq + 1, 0, false)
  else
    let d := (fn + wrap - last % wrap) % wrap
    if d == 0 then (fseq + 1, 0, true) else (fseq + BitVec.ofNat 16 d, d - 1, false)

/-- Whether a delayed stream start is due at a DTB value (Table 13-6). -/
def Strm.startDue (x : Strm) (now : B64) : Bool :=
  x.started && !x.admitting && !x.stopNext && !x.stopNow && (match x.startAt with | some t => t.toNat ≤ now.toNat | none => true)

/-- Pending trust and life changes take effect at a frame start of the head's streams (R42, R51, R442, R443). -/
def State.frameEdge (s : State) (h : Nat) : State :=
  let s := s.modHead h (fun x => { x with openTrust := s.modes.openTrust, limit := s.modes.limit, lifeInForce := s.worn h })
  let x := s.head h
  if x.authFailed then s.authFail h
  else if x.state == .untrusted && !x.openTrust then s.authFail h
  else s

/-- What a frame's record starts from (R42, R51, R54, R149, R420, R444). A frame whose source is not the head takes what a
head that is attached gives it. -/
def State.frameInfo (s : State) (st h : Nat) (fseq : B16) (live : Bool) : FrameInfo :=
  let y := s.head h
  let use := live || y.usable
  -- a head whose commits are used up counts as at 100 % (R49; log 34)
  let life := if y.exhausted then 0x3F800000 else div32 (int32 (s.wear h)) (mul32 (int32 y.ratedLife) (int32 36000))
  let i : FrameInfo := { fseq := fseq, nwear := if use then to16 (clamp32 life 0 0x3F800000) else 0 }
  let i := if use && y.state == .untrusted then i.flag .untrusted else i
  let i := if (if live then y.lifeInForce else use && s.worn h) then i.flag .worn else i
  let i := if s.supply.diapause then (i.flag .dip).flag .clkChg else i
  match (s.strm st).ctx with
  | some o =>
    let i := if s.slewsUnder o then i.flag .clkChg else i
    if (s.group o).asserted then i.flag .stalled else i
  | none => i

/-- The account of a stream's frames with a new one: of the written ones the last stays. -/
def Strm.addFrame (x : Strm) (i : FrameInfo) : Strm :=
  { x with frames := ((x.frames.filter (fun f => f.written)).reverse.take 4).reverse ++ x.frames.filter (fun f => !f.written) ++ [i] }

/-- Open a frame of a stream (R31, R147): a started stream that is due begins to admit, and a frame that is admitted has
a record. -/
def State.openFrame (s : State) (st h : Nat) (fseq : B16) : State :=
  let x := s.strm st
  let x := if (s.head h).state != .fault && x.startDue (s.shadow (dieOfHead h)) then { x with admitting := true, startAt := none } else x
  let x := { x with frame := some { fseq := fseq, dropping := !x.admitting } }
  let x :=
    if x.admitting then
      -- what is left of dropped frames goes, but for their end-of-frame tags (R147)
      let dead := (x.frames.filter (fun f => f.has .dropped)).map (fun f : FrameInfo => f.fseq)
      let keep := fun (i : BufItem) => match i with | .line l => !dead.contains l.fseq | .eof _ => true
      let y : Strm := { x with buf := x.buf.filter keep, missing := x.missing.filter keep }
      y.addFrame (s.frameInfo st h fseq (s.head h).usable)
    else x
  ((s.setStrm st x).focusBegin st fseq).capFrameStart st fseq

/-- Commands that wait for a head end with a status, a HEAD_DETACH with one of its own. -/
def State.dropHeadCmds (s : State) (h : Nat) (st dst : Status) : State :=
  let x := s.head h
  let k1 := match x.attachPkt with | some k => [k] | none => []
  let k2 := match x.auth with | some a => a.pkt.toList | none => []
  let s := s.modHead h (fun y => { y with attachPkt := none, auth := none, detach := none })
  let s := match x.detach with | some k => s.finish k false dst | none => s
  (k1 ++ k2).foldl (fun s k => s.finish k false st) s

/-- Every open LIVE frame of a head closes as DROPPED, and its streams end. -/
def State.loseFrames (s : State) (h : Nat) (c : Cause) : State :=
  [0, 1, 2, 3].foldl (fun s v =>
    let st := 4 * h + v
    let x := s.strm st
    if x.source != 0 then s
    else
      let s := (s.truncate st c).modStrm st (fun y => { y with frame := none, stopNext := false, stopNow := false })
      let s := match x.frame with | some f => s.focusEnd st f.fseq | none => s
      let s := if x.started then s.endStream st else s
      match x.ctx with | some o => s.checkStopping o | none => s) s

/-- A commit in course is abandoned: its open record stands (R373), and the MC lets go of the ledger lock (R48). -/
def State.dropCommit (s : State) (h : Nat) : State :=
  if (s.head h).commit.isSome then (s.modHead h (fun x => { x with commit := none })).handLock (48 + h) else s


end Sys2Proof.Machine
end

