-- ==== Sys2Proof/Machine/Links.lean ====
section
/-! DEFINITION. HBM bursts, Yallek links and their Spores, peer locks and binding, slot alignment, and the Ethernet ports
(chapter 15). -/

namespace Sys2Proof.Machine

-- HBM (R374-R380, R415, R446).

/-- First address of a stack (R375). -/
def stackBase (k : Nat) : Nat := k * 17179869184

/-- Where an arbiter input may write a stack (Table 15-2). -/
def hbmInputWrites (input addr : Nat) : Bool :=
  let log := 0x3C0000000 ≤ addr && addr < 0x3D0000000
  let dbg := 0x3D0000000 ≤ addr && addr < 0x400000000
  if input = 1 then log else if input = 2 then dbg else (input = 0 || input = 3) && !log && !dbg

/-- Whether a stack answers accesses. -/
def State.stackOk (s : State) (k : Nat) : Bool := (s.stackOf k).trained && !s.lostClocks.contains (11 + k)

/-- A corrected word of a stack: HBM_CE at most once per millisecond, with the count since the last (R380). -/
def State.hbmCe (s : State) (k : Nat) : State :=
  let x := s.stackOf k
  let due := match x.ceAt with | some t => decide (t + 200000 ≤ s.kcycles) | none => true
  let n := min (x.ce.toNat + 1) 0xFFFFFFFF
  if due then (s.setStackOf k { x with ce := 0, ceAt := some s.kcycles }).log .hbmCe inHbm noFn k n
  else s.setStackOf k { x with ce := BitVec.ofNat 32 n }

/-- A burst of the input that the stack's arbiter grants (R157, R374, R380): a write of 64 bytes by an input that may write there, or a
read, whose errors are reported. -/
def hbmBurst (k : Fin 4) (a : HbmAcc) (s : State) : State :=
  let addr := stackBase k + 64 * a.burst
  if !s.ready || !(s.stackOf k).trained then s
  else
    match s.useArb (.hbm k) a.input with
    | none => s
    | some s =>
      let s := s.modStackOf k (fun x => { x with down := false })
      match a.data with
      | some d =>
        if s.stackOk k && hbmInputWrites a.input addr then s.hbmWrite addr ((d ++ List.replicate 64 0).take 64) else s
      | none =>
        if !s.stackOk k || a.ecc == .bad then s.log .hbmUe inHbm noFn k addr
        else if a.ecc == .corrected then s.hbmCe k else s

def execHbmBurst (k : Fin 4) (a : HbmAcc) (s : State) : Host.Outcome State Fault Refusal := .next (hbmBurst k a s)

/-- Whether a stack holds the source of a running replay stream or an output ring of a running stream (R446). -/
def State.stackHeld (s : State) (k : Nat) : Bool :=
  s.streams.any (fun e =>
    let d := s.sdecl e.1
    e.2.started && ((match e.2.replay with | some r => !r.host && r.src / 17179869184 == k | none => false)
      || (d.ringLines != 0 && d.ringBase / 17179869184 == k)))

/-- 1 us without an access under ECO (R415). -/
def execHbmPowerDown (k : Fin 4) (s : State) : Host.Outcome State Fault Refusal :=
  .next (if s.ready && s.modes.eco && s.stackOk k && !s.stackHeld k then s.modStackOf k (fun x => { x with down := true }) else s)

/-- A refresh of a stack (R374). -/
def execHbmRefresh (k : Fin 4) (s : State) : Host.Outcome State Fault Refusal :=
  .next (if s.ready && s.stackOk k && !(s.stackOf k).selfRefresh then s.modStackOf k (fun x => { x with refreshes := x.refreshes + 1 }) else s)

-- Yallek links.

/-- Whether a port is on this variant and its die runs. -/
def State.yLive (s : State) (p : Nat) : Bool := p < s.part.variant.yalleks && s.portUp (dieOfYallek p)

/-- Block lock on every lane and deskew (steps 1 and 2 of R382); sequence numbers and credits start afresh (log 20). -/
def execYallekBlockLock (p : Fin 4) (s : State) : Host.Outcome State Fault Refusal :=
  .next (if s.yLive p && !(s.yport p).up then
    s.modYport p (fun y => { y with enabled := true, locked := true, txSeq := 0, rxSeq := 0, replay := [], tx := [], txFlits := [], rxFlits := []
                                    freed := 0, credit := 512, lastCredit := 0, nak := false })
    else s)

def Variant.code : Variant → Nat
  | .k1108 => 0 | .k2216 => 1 | .k2416 => 2

/-- CONTROL IDENT every 1 us until the peer's has come (R382). -/
def execYallekIdentSend (p : Fin 4) (s : State) : Host.Outcome State Fault Refusal :=
  .next (if s.yLive p && (s.yport p).locked && !(s.yport p).up then
    s.sendSpore p 4 (toLe 1 ctlIdent ++ toLe 8 s.part.dieId.toNat ++ toLe 1 s.part.variant.code) else s)

/-- 1 ms after block lock the link is not up: bring-up starts again (R382). -/
def execYallekBringupTimeout (p : Fin 4) (s : State) : Host.Outcome State Fault Refusal :=
  .next (if (s.yport p).locked && !(s.yport p).up then s.modYport p (fun y => { y with locked := false }) else s)

/-- A Spore that passes R383. -/
def sporeOk (b : Bytes) : Bool :=
  let n := b.length
  64 ≤ n && n ≤ 1024 && n % 8 == 0 && fieldLe b 2 2 == n
    && fieldLe b (n - 8) 4 == crc32 (b.take (n - 8)) && [1, 2, 3, 4, 0x10, 0x11, 0x12, 0x13].contains (byteAt b 0)

/-- The Yallek origin of a port requests a stall while a NAK is outstanding, or while the bound peer's group is asserted (R395,
R398). -/
def State.yRequest (s : State) (p : Nat) : State :=
  let y := s.yport p
  let mapped := match y.peer with | some b => y.bound && y.stallIn.getLsbD b.owner.toNat | none => false
  s.request (yOrigin p) (y.nak || mapped)

/-- A NAK goes out and stays outstanding (R385). -/
def State.sendNak (s : State) (p : Nat) : State := ((s.sendSpore p 0x11 []).modYport p (fun y => { y with nak := true })).yRequest p

/-- What an accepted Spore's header says (Table 15-4): acknowledgement, credits, the peer's STALLMAP. -/
def Yport.header (y : Yport) (b : Bytes) : Yport :=
  let ack := BitVec.ofNat 16 (fieldLe b 6 2)
  let cr := BitVec.ofNat 16 (fieldLe b 8 2)
  { y with replay := y.replay.filter (fun r => 32768 ≤ (ack - r.1).toNat), credit := y.credit + (cr - y.lastCredit).toNat
           lastCredit := cr, stallIn := BitVec.ofNat 16 (fieldLe b 10 2) }

/-- A Spore reaches an up port (R383-R385): discarded with a NAK, or accepted and its header used. -/
def State.rxSpore (s : State) (p typ : Nat) (seqd : Bool) (b : Bytes) : Bool × State :=
  if !s.yLive p || !(s.yport p).up then (false, s)
  else if !sporeOk b then (false, s.sendNak p)
  else if byteAt b 0 != typ then (false, s)
  else if seqd && BitVec.ofNat 16 (fieldLe b 4 2) != (s.yport p).rxSeq then (false, s.sendNak p)
  else
    let s := s.modYport p (fun y =>
      let y := y.header b
      let y := if seqd then { y with rxSeq := y.rxSeq + 1, nak := false } else y
      y.pump 64)
    (true, s.yRequest p)

/-- The body of a Spore. -/
def sporeBody (b : Bytes) : Bytes := (b.drop 16).take (b.length - 24)

/-- The peer's IDENT brings the link up (R382). -/
def sporeIdent (p : Nat) (b : Bytes) (die : B64) (s : State) : State :=
  let y := s.yport p
  if !s.yLive p || !y.locked then s
  else if !sporeOk b then (if y.up then s.sendNak p else s)
  else if byteAt b 0 != 4 || y.up then s
  else (s.setYport p { y with up := true, peerDie := die }).log .yallekUp (inPort (dieOfYallek p)) noFn p 0

def execSporeIdent (p : Fin 4) (spore : Bytes) (die : B64) (s : State) : Host.Outcome State Fault Refusal := .next (sporeIdent p spore die s)

/-- The LINK section of the context a port serves. -/
def State.portLink (s : State) (p : Nat) : Option LinkDecl :=
  match (s.yport p).owner with
  | some o => match s.ctx o with | some c => c.place.image.decl.link | none => none
  | none => none

/-- The cut route of a port's context. -/
def State.cut (s : State) (p route : Nat) : Option CutDecl :=
  match s.portLink p with
  | some l => l.cuts.find? (fun c => c.route == route && c.port == p)
  | none => none

/-- Recompute the check code of a flit with another EPOCH (R126, R390). -/
def reEpoch (f : Flit) (e : BitVec 2) : Flit :=
  let tag := f.tag - BitVec.ofNat 48 (f.tag.toNat % 4) + BitVec.ofNat 48 e.toNat
  { f with tag := tag, chk := tagCode tag }

/-- One flit entry arrives (R390-R392): a stale binding epoch discards it; on an aligned SYNC route it waits for its cycle. -/
def State.rxFlit (s : State) (p epoch : Nat) (e : Bytes) : State :=
  let y := s.yport p
  let good := match y.peer with | some b => y.bound && b.epoch.toNat == epoch | none => false
  if !good then s.setYport p { y with epochDisc := y.epochDisc + 1 }
  else
    let route := byteAt e 0
    let f : Flit := { tag := BitVec.ofNat 48 (fieldLe e 4 6), chk := BitVec.ofNat 7 (byteAt e 10), par := BitVec.ofNat 8 (byteAt e 11)
                      pay := BitVec.ofNat 256 (fieldLe e 12 32) }
    let f := reEpoch f (s.epoch (y.owner.getD 0))
    let sync := match s.cut p route with | some c => c.sync | none => false
    let now := (s.field (fieldOfYallek p)).fcyc
    match (if sync then Tab.get none y.align route else none) with
    | none => s.setYport p { y with rxFlits := y.rxFlits ++ [(route, now.toNat, true, f)] }
    | some off =>
      let v := BitVec.ofNat 16 (fieldLe e 2 2) + off
      let late := (now - v).toNat
      s.setYport p { y with rxFlits := y.rxFlits ++ [(route, v.toNat, decide (late < 32768), f)]
                            linkLate := if 0 < late && late < 32768 then y.linkLate + 1 else y.linkLate }

/-- A FLIT Spore (Table 15-6). -/
def sporeFlit (p : Nat) (b : Bytes) (s : State) : State :=
  match s.rxSpore p 1 true b with
  | (false, s) => s
  | (true, s) =>
    (List.range ((b.length - 24) / 48)).foldl (fun s i => s.rxFlit p (byteAt b 1) ((b.drop (16 + 48 * i)).take 48)) s

def execSporeFlit (p : Fin 4) (spore : Bytes) (s : State) : Host.Outcome State Fault Refusal := .next (sporeFlit p spore s)

/-- The entry of a SYNC route whose cycle V is reached becomes visible (R392). -/
def syncVisible (p route : Nat) (s : State) : State :=
  let now := (s.field (fieldOfYallek p)).fcyc
  let rec go : List (Nat × Nat × Bool × Flit) → List (Nat × Nat × Bool × Flit)
    | [] => []
    | e :: t => if e.1 == route && !e.2.2.1 && (now - BitVec.ofNat 16 e.2.1).toNat < 32768 then (e.1, e.2.1, true, e.2.2.2) :: t else e :: go t
  s.modYport p (fun y => { y with rxFlits := go y.rxFlits })

def execSyncEntryVisible (p : Fin 4) (route : B8) (s : State) : Host.Outcome State Fault Refusal := .next (syncVisible p route.toNat s)

/-- Raise or drop HOLD on the lanes that feed a port's transmit flit queue (R391). -/
def State.yHold (s : State) (p : Nat) : State :=
  let y := s.yport p
  let want := decide (512 ≤ y.txFlits.length)
  if want == y.holding then s
  else
    let lanes := match y.owner with
      | some o => match s.ctx o with | some c => c.place.cutLanes.filter (fun x : Nat × Nat × Nat => x.1 == p) | none => []
      | none => []
    let s := s.setYport p { y with holding := want }
    lanes.foldl (fun (s : State) (x : Nat × Nat × Nat) => s.modUnit x.2.1 (fun u => { u with hold := if want then x.2.2 :: u.hold else u.hold.erase x.2.2 })) s

/-- The bytes of a flit entry (Table 15-6). -/
def flitEntry (route fcyc : Nat) (f : Flit) : Bytes :=
  toLe 1 route ++ [0] ++ toLe 2 fcyc ++ toLe 6 f.tag.toNat ++ toLe 1 f.chk.toNat ++ toLe 1 f.par.toNat ++ toLe 32 f.pay.toNat ++ toLe 4 0

/-- The transmitter closes a FLIT Spore: up to 20 entries, each against a credit (R383, R391). -/
def flitClose (p : Nat) (s : State) : State :=
  let y := s.yport p
  let n := min 20 (min y.txFlits.length y.credit)
  if !s.yLive p || !y.up || n == 0 then s
  else
    let epoch := match y.owner with | some o => (match s.ctx o with | some c => c.bindEpoch.toNat | none => 0) | none => 0
    let body := (y.txFlits.take n).flatMap (fun x => flitEntry x.1 x.2.1 x.2.2)
    let s := s.setYport p { y with txFlits := y.txFlits.drop n, credit := y.credit - n }
    (s.queueSpore p 1 epoch body).yHold p

def execFlitSporeClose (p : Fin 4) (s : State) : Host.Outcome State Fault Refusal := .next (flitClose p s)

/-- A segment of an output line of a peer (R399): the line enters its stream's buffer when it is whole, keeping the sender's
LINE, FSEQ and STAMP; a line that begins with D lines untaken drops the rest of its frame (R146). -/
def sporeLine (p : Nat) (b : Bytes) (s : State) : State :=
  match s.rxSpore p 2 true b with
  | (false, s) => s
  | (true, s) =>
    let y := sporeBody b
    let st := byteAt y 0
    let h := st / 4
    if 64 ≤ st || (s.strm st).ctx.isNone || (s.strm st).source != 0 || (s.head h).state != .absent then s
    else
      let line := fieldLe y 2 2
      let fseq := BitVec.ofNat 16 (fieldLe y 4 2)
      let fl := fieldLe y 6 2
      let stamp := BitVec.ofNat 64 (fieldLe y 8 8)
      let off := fieldLe y 16 4
      let data := (y.drop 24).take (fieldLe y 20 2)
      let d := s.sdecl st
      let s := match (s.strm st).frame with
        | some f => if f.fseq == fseq then s else
            let s := s.modFrame st f.fseq (fun i => i.flag .short)
            ((s.closeFrame st d.height).modStrm st (fun x => { x with fseq := fseq })).openFrame st h fseq
        | none => (s.modStrm st (fun x => { x with fseq := fseq })).openFrame st h fseq
      let s := if off == 0 then (s.lineBegins st).modStrm st (fun x => { x with rxLine := some ({ fseq := fseq, line := line, stamp := stamp
                                                                                                  flags := 16 + (if bit fl 1 then 8 else 0) }, []) }) else s
      match (s.strm st).rxLine with
      | none => s
      | some (l, got) =>
        if l.line != line || l.fseq != fseq || got.length != off then s
        else
          let got := got ++ data
          let whole := d.width * (match d.edge with | some e => e.cin | none => 1) * 2
          if got.length < whole then s.modStrm st (fun x => { x with rxLine := some (l, got) })
          else
            let codes := (groups16 (got.take whole))
            let s := s.modStrm st (fun x =>
              let x := ({ x with rxLine := none } : Strm).deliver { l with codes := codes }
              { x with frame := x.frame.map (fun f : LinkFrame => { f with last := some line }) })
            let s := s.afterLine st
            if bit fl 0 then s.closeFrame st (line + 1) else s
where
  /-- Little-endian 16-bit samples. -/
  groups16 : Bytes → List B16
    | a :: b :: t => BitVec.ofNat 16 (a.toNat + 256 * b.toNat) :: groups16 t
    | _ => []

def execSporeLine (p : Fin 4) (spore : Bytes) (s : State) : Host.Outcome State Fault Refusal := .next (sporeLine p spore s)

/-- A peer acquires or releases a lock 0-47 (R388, R367, R368); the result goes back as a LOCK Spore, when a queued acquire is
granted. -/
def sporeLock (p : Nat) (b : Bytes) (op : PeerLock) (s : State) : State :=
  match s.rxSpore p 3 true b with
  | (false, s) => s
  | (true, s) =>
    let answer := fun (s : State) (fn l : Nat) (w : Nat) => s.queueSpore p 3 0 (lockOpBody 2 fn l w)
    match op with
    | .result _ => s
    | .acquire fn lock =>
      let l := lock.toNat
      if 48 ≤ l then s
      else
        let code := peerCode p fn
        match s.tryLock l code with
        | (.granted lost, s) => answer s fn l (lockResult true lost false code (s.lock l).epoch)
        | (.self, s) => answer s fn l (lockResult true false true code (s.lock l).epoch)
        | (.held, s) =>
          let x := s.lock l
          if x.waiters.length < 8 then s.setLock l { x with waiters := x.waiters ++ [{ code := code, reply := none }] }
          else answer s fn l (lockResult false false false x.holder x.epoch)
    | .release fn lock =>
      let l := lock.toNat
      if 48 ≤ l || (s.lock l).holder != peerCode p fn then s else s.handLock l

def execSporeLock (p : Fin 4) (spore : Bytes) (op : PeerLock) (s : State) : Host.Outcome State Fault Refusal := .next (sporeLock p spore op s)

/-- A port whose two BINDs agree becomes bound (R390): GRAPH_BOUND, and a HAZARD peer caps every Field (R447). -/
def State.tryBind (s : State) (p : Nat) : State :=
  let y := s.yport p
  match y.owner, y.peer, s.portLink p with
  | some o, some b, some l =>
    let want := (l.ports.find? (fun e => e.1 == p)).map (fun e : Nat × Nat => e.2)
    if !y.bindSent || y.bound || l.graph != b.graph || want != some b.index.toNat then s
    else
      let old := s
      let s := s.setYport p { y with bound := true, align := [], probes := [] }
      let s := s.modRunning o (fun c => { c with boundPorts := c.boundPorts ++ [p] })
      let s := s.log .graphBound (inPort (dieOfYallek p)) (s.ctxFn o) p (packBits [(32, l.graph.toNat), (8, o)])
      let s := if b.hazard && !old.hazardPeer then (s.logCap old 3 true).retargetAll else s
      s.yRequest p
  | _, _, _ => s

/-- Send our BIND on a port (R390, R447). -/
def State.sendBind (s : State) (p o : Nat) : State :=
  match s.ctx o with
  | none => s
  | some c =>
    match c.place.image.decl.link with
    | none => s
    | some l =>
      let s := s.queueSpore p 4 0 (toLe 1 ctlBind ++ toLe 4 l.graph.toNat ++ toLe 1 l.self ++ toLe 1 o ++ toLe 1 c.bindEpoch.toNat
        ++ toLe 1 (if s.modes.hazard then 1 else 0))
      (s.modYport p (fun y => { y with bindSent := true })).tryBind p

/-- The YALLEK_ALIGN that waits at a port ends: the greatest delta and the offset in force, 0 while there is none (R393). -/
def State.alignReply (s : State) (p : Nat) (st : Status) : State :=
  let y := s.yport p
  match y.alignPkt with
  | none => s
  | some (route, k) =>
    (s.setYport p { y with alignPkt := none }).finish k false st
      (if st == .ok then [Tab.get 0 y.deltaMax route, (Tab.get none y.align route).elim 0 (fun v : B16 => v.toNat)] else [])

/-- A binding ends; the last one to a HAZARD peer lifts the cap (R447). -/
def State.unbindPort (s : State) (p : Nat) : State :=
  let s := s.alignReply p .badState
  let y := s.yport p
  let old := s
  let s := s.setYport p { y with bound := false, peer := none, bindSent := false, stallIn := 0, align := [], probes := [] }
  let s := match y.owner with
    | some o => s.modRunning o (fun c => { c with boundPorts := c.boundPorts.filter (fun q => q != p) })
    | none => s
  let s := if old.hazardPeer && !s.hazardPeer then (s.logCap old 3 false).retargetAll else s
  s.yRequest p

/-- A CONTROL BIND of the peer (R390). -/
def sporeBind (p : Nat) (b : Bytes) (m : BindMsg) (s : State) : State :=
  match s.rxSpore p 4 true b with
  | (false, s) => s
  | (true, s) => (s.modYport p (fun y => { y with peer := some m })).tryBind p

def execSporeBind (p : Fin 4) (spore : Bytes) (b : BindMsg) (s : State) : Host.Outcome State Fault Refusal := .next (sporeBind p spore b s)

/-- A CONTROL UNBIND of the peer (R448): this device's context of the graph enters FAULT with ABORTED. -/
def sporeUnbind (p : Nat) (b : Bytes) (graph : B32) (s : State) : State :=
  match s.rxSpore p 4 true b with
  | (false, s) => s
  | (true, s) =>
    match (s.yport p).owner, s.portLink p with
    | some o, some l => if l.graph == graph then (s.unbindPort p).faultCtx o .aborted else s
    | _, _ => s

def execSporeUnbind (p : Fin 4) (spore : Bytes) (graph : B32) (s : State) : Host.Outcome State Fault Refusal := .next (sporeUnbind p spore graph s)

/-- Contexts and locks that depend on a peer: FAULT with LINK_TIMEOUT, and forced releases (R387, R388). -/
def State.losePeer (s : State) (p : Nat) : State :=
  let o := (s.yport p).owner
  let s := s.unbindPort p
  let s := match o with | some o => s.faultCtx o .linkTimeout | none => s
  s.resetHolder (fun c => bits c.toNat 8 2 == 1 && bits c.toNat 6 2 == p)

/-- A CONTROL RESET of the peer (R388). -/
def peerReset (p : Nat) (b : Bytes) (s : State) : State :=
  match s.rxSpore p 4 true b with
  | (false, s) => s
  | (true, s) => (s.log .peerReset (inPort (dieOfYallek p)) noFn p 0).losePeer p

def execPeerReset (p : Fin 4) (spore : Bytes) (s : State) : Host.Outcome State Fault Refusal := .next (peerReset p spore s)

/-- An ACK Spore (R384). -/
def execSporeAck (p : Fin 4) (spore : Bytes) (s : State) : Host.Outcome State Fault Refusal := .next (s.rxSpore p 0x10 false spore).2

/-- Go-back-N: every unacknowledged Spore goes out again (R385); YALLEK_RETRY at most once per microsecond. -/
def State.retransmit (s : State) (p : Nat) : State :=
  let y := s.yport p
  if y.replay.isEmpty then s
  else
    let n := y.retries.toNat + y.replay.length
    let due := match y.retryAt with | some t => decide (t + 200 ≤ s.kcycles) | none => true
    let y := { y with sent := (y.replay.map (fun r : BitVec 16 × Nat × Bytes => r.2.2)).reverse ++ y.sent
                      replay := y.replay.map (fun r : BitVec 16 × Nat × Bytes => (r.1, r.2.1 + 1, r.2.2))
                      retries := if due then 0 else BitVec.ofNat 32 (min n 0xFFFFFFFF), retryAt := if due then some s.kcycles else y.retryAt }
    let s := s.setYport p y
    if due then s.log .yallekRetry (inPort (dieOfYallek p)) noFn p (min n 0xFFFFFFFF) else s

/-- A NAK Spore: its ACK is used, and the rest goes out again. -/
def execSporeNak (p : Fin 4) (spore : Bytes) (s : State) : Host.Outcome State Fault Refusal :=
  .next (match s.rxSpore p 0x11 false spore with
    | (true, s) => s.retransmit p
    | (false, s) => s)

/-- A STALL Spore: its STALLMAP has been taken with its header (R395). -/
def execSporeStall (p : Fin 4) (spore : Bytes) (s : State) : Host.Outcome State Fault Refusal := .next (s.rxSpore p 0x12 false spore).2

/-- The oldest unacknowledged Spore is 2 us old (R385). -/
def execSporeRetransmitTimeout (p : Fin 4) (s : State) : Host.Outcome State Fault Refusal :=
  .next (if s.yLive p && (s.yport p).up then s.retransmit p else s)

/-- 1 us since the last NAK, and the expected Spore has not come (R385). -/
def execNakRepeat (p : Fin 4) (s : State) : Host.Outcome State Fault Refusal :=
  .next (if s.yLive p && (s.yport p).up && (s.yport p).nak then s.sendSpore p 0x11 [] else s)

/-- An ACK, at least every 1 us (Table 15-5). -/
def execAckSend (p : Fin 4) (s : State) : Host.Outcome State Fault Refusal :=
  .next (if s.yLive p && (s.yport p).up then s.sendSpore p 0x10 [] else s)

/-- A link goes down (R387), and bring-up restarts. -/
def State.linkDown (s : State) (p cause : Nat) : State :=
  if !(s.yport p).up then s.modYport p (fun y => { y with locked := false })
  else
    let s := s.log .yallekDown (inPort (dieOfYallek p)) noFn p cause
    let s := s.modYport p (fun y => { y with up := false, locked := false, tx := [], replay := [], txFlits := [], rxFlits := [], nak := false
                                             enabled := y.enabled && cause != 3 })
    let s := (s.modQueue (100 + p) FQueue.flush).yHold p
    let s := s.log .queueFlush (inPort (dieOfYallek p)) noFn (packBits [(8, 3), (8, 0), (16, p)])
      (packBits [(8, (s.queue (100 + p)).flushEpoch.toNat), (8, 4)])
    s.losePeer p

/-- The link is declared down (R386): cause 0 needs a Spore retransmitted 8 times. -/
def execYallekDown (p : Fin 4) (cause : Fin 4) (s : State) : Host.Outcome State Fault Refusal :=
  .next (if !s.yLive p || (cause.val == 0 && !(s.yport p).replay.any (fun r => 8 ≤ r.2.1)) then s else s.linkDown p cause)

/-- The alignment of a route from 64 probes (R393). -/
def alignOffset (linkSlots khz dmax : Nat) : Nat :=
  let least := dmax + (48 * khz + 999999) / 1000000 + 8
  least + (linkSlots + 64 - least % 64) % 64

/-- One ALIGN probe; the 64th fixes the offset or fails the alignment (R393). -/
def sporeAlign (p : Nat) (b : Bytes) (route : Nat) (stamp : B16) (s : State) : State :=
  match s.rxSpore p 0x13 false b with
  | (false, s) => s
  | (true, s) =>
    match s.cut p route with
    | none => s
    | some c =>
      if !c.sync || (Tab.get none (s.yport p).align route).isSome then s
      else
        let f := fieldOfYallek p
        let l := Tab.get [] (s.yport p).probes route ++ [((s.field f).fcyc - stamp).toNat]
        if l.length < 64 then s.modYport p (fun y => { y with probes := Tab.set y.probes route l })
        else
          let hi := l.foldl max 0
          let lo := l.foldl min hi
          let fn := s.ctxFn ((s.yport p).owner.getD 16)
          let s := s.modYport p (fun y => { y with probes := Tab.set y.probes route [], deltaMax := Tab.set y.deltaMax route hi })
          let s := if 16 < hi - lo || s.supply.diapause || (s.field f).target.isSome then
            s.log .alignFail (inPort (dieOfYallek p)) fn p (packBits [(8, route), (8, 0), (16, 0), (16, hi)])
          else
            let off := alignOffset c.linkSlots (pointKhz (s.field f).point) hi
            (s.modYport p (fun y => { y with align := Tab.set y.align route (some (BitVec.ofNat 16 off)) })).log .alignDone
              (inPort (dieOfYallek p)) fn p (packBits [(8, route), (8, 0), (16, off), (16, hi)])
          if (s.yport p).alignPkt.any (fun e : Nat × Pkt => e.1 == route) then s.alignReply p .ok else s

def execSporeAlign (p : Fin 4) (spore : Bytes) (route : B8) (stamp : B16) (s : State) : Host.Outcome State Fault Refusal :=
  .next (sporeAlign p spore route.toNat stamp s)

-- Ethernet (R400, R401).

/-- Whether a port is on this variant and its clocks run. -/
def State.ethLive (s : State) (p : Nat) : Bool := p < s.part.variant.ports && s.portUp p && !s.lostClocks.contains (9 + p)

def Eth.field (e : Eth) (o n : Nat) : Nat := fieldLe e.record o n

/-- An Ethernet header from a port: destination, source, VLAN tag if set, type. -/
def Eth.head (e : Eth) (dst : Bytes) (typ : Nat) : Bytes :=
  dst ++ e.record.take 6 ++ (if e.field 6 2 == 0 then [] else [0x81, 0x00] ++ beBytes 2 (e.field 6 2)) ++ beBytes 2 typ

/-- One's complement checksum of bytes. -/
def inetSum : Bytes → Nat → Nat
  | a :: b :: t, acc => inetSum t ((acc + a.toNat * 256 + b.toNat) % 65536 + (acc + a.toNat * 256 + b.toNat) / 65536)
  | [a], acc => (acc + a.toNat * 256) % 65536 + (acc + a.toNat * 256) / 65536
  | [], acc => acc

def inetCheck (b : Bytes) : Bytes := beBytes 2 (65535 - inetSum b 0)

/-- An IPv4 packet with no options and DF set (Table 15-8). -/
def ipv4 (dscp ttl proto : Nat) (src dst body : Bytes) : Bytes :=
  let a := [0x45, BitVec.ofNat 8 (dscp * 4)] ++ beBytes 2 (20 + body.length) ++ [0, 0, 0x40, 0, BitVec.ofNat 8 ttl, BitVec.ofNat 8 proto]
  a ++ inetCheck (a ++ [0, 0] ++ src ++ dst) ++ src ++ dst ++ body

/-- A UDP datagram in IPv4; the UDP checksum is not used. -/
def udp (dscp ttl sport dport : Nat) (src dst body : Bytes) : Bytes :=
  ipv4 dscp ttl 17 src dst (beBytes 2 sport ++ beBytes 2 dport ++ beBytes 2 (8 + body.length) ++ [0, 0] ++ body)

/-- A frame leaves a port, padded to the least length. -/
def State.ethSend (s : State) (p : Nat) (b : Bytes) : State :=
  s.modEth p (fun e => { e with sent := (b ++ List.replicate (60 - b.length) 0) :: e.sent })

/-- A port's link comes up or goes down (R401); a lost Sync follows a link that is down. -/
def State.ethLink (s : State) (p : Nat) (up : Bool) : State :=
  let e := s.eth p
  if e.up == up then s
  else (s.setEth p { e with up := up, synced := e.synced && up }).log (if up then .ethUp else .ethDown) (inPort p) noFn p 0

def execEthLinkChange (p : Fin 2) (up : Bool) (s : State) : Host.Outcome State Fault Refusal :=
  .next (if up && !(s.ethLive p && (s.eth p).enabled) then s else s.ethLink p up)

/-- An ARP request for the port's address is answered (R401). -/
def execArpRequest (p : Fin 2) (mac : B48) (ip : B32) (target : B32) (s : State) : Host.Outcome State Fault Refusal :=
  .next (
    let e := s.eth p
    if !s.ethLive p || !e.up || target.toNat != e.field 8 4 then s
    else
      let m := toLe 6 mac.toNat
      s.ethSend p (e.head m 0x0806 ++ [0, 1, 8, 0, 6, 4, 0, 2] ++ e.record.take 6 ++ (e.record.drop 8).take 4 ++ m ++ toLe 4 ip.toNat))

/-- The IGMPv2 report for 224.0.1.129, with PTP over UDP (R401). -/
def execIgmpReport (p : Fin 2) (s : State) : Host.Outcome State Fault Refusal :=
  .next (
    let e := s.eth p
    if !s.ethLive p || !e.up || e.field 17 1 != 0 then s
    else
      let g : Bytes := [224, 0, 1, 129]
      let body : Bytes := [0x16, 0]
      s.ethSend p (e.head [0x01, 0, 0x5E, 0, 0x01, 0x81] 0x0800
        ++ ipv4 0 1 2 ((e.record.drop 8).take 4) g (body ++ inetCheck (body ++ [0, 0] ++ g) ++ g)))

/-- A received frame of no use, or with an FCS error, is discarded and counted (Table 15-8). -/
def execEthFrameDiscard (p : Fin 2) (s : State) : Host.Outcome State Fault Refusal :=
  .next (if s.ethLive p && (s.eth p).up then s.modEth p (fun e => { e with discards := e.discards + 1 }) else s)

end Sys2Proof.Machine
end

