-- ==== Sys2Proof/Machine/MeshOps.lean ====
section
/-! DEFINITION. Operations of the Mycelium: neighbours and Border Gates, hazard detections, and what a receiver
does with an arriving flit (chapters 04, 05, 11). -/

namespace Sys2Proof.Machine

/-- Where an output of a router leads: 0 north, 1 east, 2 south, 3 west (R122, R119, R132). -/
inductive Lead where
  | router (site inp : Nat)
  | gate (g : Nat)
  | tail
  | nowhere
  deriving DecidableEq, Repr

/-- Border Gates by row and column (log 26): the even one of a pair leads east or south. -/
def rowGate (row : Nat) : Nat := if row < 12 then 2 * row else 24 + 2 * (row - 12)
def colGate (col : Nat) : Nat := if col < 16 then 48 + 2 * col else 80 + 2 * (col - 16)

def lead (site out : Nat) : Lead :=
  let r := site / 32
  let c := site % 32
  if out = 0 then (if r = 0 then .nowhere else if r = 12 then .gate (colGate c + 1) else .router (site - 32) 2)
  else if out = 1 then (if c = 31 then .tail else if c = 15 then .gate (rowGate r) else .router (site + 1) 3)
  else if out = 2 then (if r = 23 then .nowhere else if r = 11 then .gate (colGate c) else .router (site + 32) 0)
  else (if c = 0 then .nowhere else if c = 16 then .gate (rowGate r + 1) else .router (site - 1) 1)

/-- The gate that feeds an input of a router, if that input faces another Field. -/
def gateInto (site inp : Nat) : Option Nat :=
  let r := site / 32
  let c := site % 32
  if inp = 0 && r = 12 then some (colGate c)
  else if inp = 2 && r = 11 then some (colGate c + 1)
  else if inp = 3 && c = 16 then some (rowGate r)
  else if inp = 1 && c = 15 then some (rowGate r + 1)
  else none

/-- The router and output that write a gate. -/
def gateWriter (g : Nat) : Nat × Nat :=
  if g < 48 then
    let r := if g < 24 then g / 2 else 12 + (g - 24) / 2
    if g % 2 = 0 then (32 * r + 15, 1) else (32 * r + 16, 3)
  else
    let c := if g < 80 then (g - 48) / 2 else 16 + (g - 80) / 2
    if g % 2 = 0 then (32 * 11 + c, 2) else (32 * 12 + c, 0)

/-- The router an Edge engine attaches to (R115). -/
def edgeSite (n : Nat) : Nat := (if n < 8 then 0 else 32 * 12) + 32 * (2 + n % 8)

/-- The Edge engine at a router's west input. -/
def edgeAt (site : Nat) : Option Nat := (List.range 16).find? (fun n => edgeSite n == site)

/-- The endpoint meeting point of a router and slot among the running contexts' placements: an Edge engine's, or a P-unit's. -/
def State.endAt (s : State) (site slot : Nat) (sends edge : Bool) : Option EndSlot :=
  (s.ctxs.filterMap (fun e : Nat × Option Ctx => e.2)).findSome? (fun c : Ctx =>
    c.place.ends.find? (fun e => e.site == site && e.slot == slot && e.sends == sends && (e.kind == 0) == edge))

/-- Build a flit: tag, check code and payload parity (R124-R127, R263). -/
def mkFlit (kind st f8 line chan chunk : Nat) (ep : BitVec 2) (pay : BitVec 256) : Flit :=
  let tag := BitVec.ofNat 48 (packBits [(2, ep.toNat), (8, chunk), (8, chan), (13, line), (8, f8), (6, st), (3, kind)])
  { tag := tag, chk := tagCode tag, pay := pay, par := payParity pay }

-- Hazards (R286-R290).

/-- Whether the end-of-frame tag of a stream's frame has left the region. -/
def State.tagGone (s : State) (st f8 : Nat) : Bool :=
  let x := s.strm st
  (x.info (x.fullSeq f8)).all (fun i => i.out || i.tagOut)

/-- Whether a context of an OWNER number runs (R302). -/
def State.running (s : State) (o : Nat) : Bool :=
  match s.ctx o with
  | some c => c.opened
  | none => false

/-- A detection of the hazard monitor at a unit of a running context: counted, the first of its kind in the window
logged, and the frame flagged (R288, R348). The program counter is that of the issue group at which the unit stands, or `pc`. A
context that has sent the frame on already still enters FAULT under HAZ_POLICY (R289). -/
def State.hazard (s : State) (site kind st f8 line : Nat) (pc : Option Nat := none) : State :=
  let u := s.unit site
  let o := if u.inCtx then some u.owner else (s.strm st).ctx
  match o with
  | none => s
  | some o =>
    if !s.modes.hazard || !s.running o then s
    else
      let first := !u.hazLogged.contains kind
      let n := (Tab.get 0 u.haz kind).toNat
      let s := s.setUnit site { u with haz := Tab.set u.haz kind (BitVec.ofNat 32 (min (n + 1) 0xFFFFFFFF))
                                       hazLogged := if first then u.hazLogged ++ [kind] else u.hazLogged }
      let s := if first then
          s.post (inField (fieldOfSite site)) { typ := 2, code := Ev.hazard.code, source := inField (fieldOfSite site), fn := BitVec.ofNat 16 (s.ctxFn o)
                                                arg0 := BitVec.ofNat 32 (packBits [(8, kind), (8, o), (16, site)])
                                                arg1 := BitVec.ofNat 64 (packBits [(16, pc.getD u.pc), (8, st), (8, f8), (16, line), (16, 0)]) }
        else s
      let s := { s with greg := { s.greg with hazard := true } }
      let s := s.flagFrame8 st f8 .hazard
      if s.modes.hazFault && s.tagGone st f8 then s.faultCtx o .hazard else s

/-- A detection at the issue in course (R288). -/
def State.hazardNow (s : State) (site kind : Nat) : State :=
  let u := s.unit site
  s.hazard site kind u.cur.stream u.cur.fseq u.line (some u.issuePc.1)

-- Arrival of a flit (R93, R97, Table 04-7).

/-- What the entry checks find in a flit. -/
inductive Arrival where
  | take (f : Flit) (corrected parity : Bool)
  | bubble
  | tagUe
  | stale
  | poison
  deriving DecidableEq, Repr

/-- The entry checks: tag code and KIND, EPOCH, poison, payload parity. `ecc` is what befell the tag on the way. -/
def arrive (ep : BitVec 2) (ecc : Ecc) (f : Flit) : Arrival :=
  if f.tag == 0 && f.chk == 0 then .bubble
  else
    match (if ecc == .bad then TagCheck.bad else tagDecode f.tag f.chk) with
    | .bad => .tagUe
    | d =>
      let g := match d with | .fixed t => { f with tag := t, chk := tagCode t } | _ => f
      let fixed := ecc == .corrected || (match d with | .fixed _ => true | _ => false)
      if 5 ≤ flitKind g then .tagUe
      else if flitKind g = kBubble then .bubble
      else if flitEpoch g != ep.toNat then .stale
      else if flitKind g = kPoison then .poison
      else
        let ok := payParity g.pay == g.par
        .take (if ok then g else { g with pay := 0, par := 0 }) fixed !ok

/-- A flit is lost to an uncorrectable tag (Table 04-7). -/
def State.tagUe (s : State) (site o : Nat) (f : Flit) : State :=
  let s := { s with greg := { s.greg with ue := true } }
  (s.logSite .tagUe site o (flitStream f) (flitFseq f) (flitLine f) 0).faultCtx o .tagUe

/-- A queue that already holds 64 entries loses a flit (R97). -/
def State.skidOvf (s : State) (site o : Nat) (f : Flit) : State :=
  (s.logSite .skidOvf site o (flitStream f) (flitFseq f) (flitLine f) 0).faultCtx o .skidOvf

/-- A payload parity error is logged and its frame flagged (Table 04-7). -/
def State.parErr (s : State) (site o : Nat) (f : Flit) : State :=
  (s.logSite .parErr site o (flitStream f) (flitFseq f) (flitLine f) 0).flagFrame8 (flitStream f) (flitFseq f) .dataErr

/-- A flit ejected at a fused site (R91). -/
def State.fusedDrop (s : State) (site o : Nat) (f : Flit) : State :=
  (s.logSite .fusedDrop site o (flitStream f) (flitFseq f) (flitLine f) 0).faultCtx o .fusedDrop

-- The Tail engine's reorder buffer (R17, R118).

/-- The frame a Tail engine is rebuilding for a stream: the first it holds anything of (R227). -/
def Strm.tailCur (x : Strm) : Option Nat :=
  match x.tailTags with
  | t :: _ => some t.2.1
  | [] => x.tailRows.head?.map (fun r => r.2.1)

/-- Input rows below an output row that its window reaches. -/
def tailReach (d : StreamDecl) : Nat := match d.tailLayer with | some l => l.k - 1 - l.pt | none => 0

/-- Whether a flit's line has a place in the reorder buffer of N_REORDER lines, the lines of the next frame behind those of
this one (R118). -/
def State.tailPlace (s : State) (st : Nat) (f : Flit) : Bool :=
  let x := s.strm st
  let d := s.sdecl st
  match x.tailCur with
  | none => decide (flitLine f < d.reorder + tailReach d)
  | some c =>
    if flitFseq f == c then flitKind f == kEof || decide (flitLine f < x.tailNext + d.reorder + tailReach d)
    else decide (d.height + flitLine f < x.tailNext + d.reorder + tailReach d)

/-- The Tail engine keeps one flit. -/
def Strm.tailKeep (x : Strm) (stripe : Nat) (f : Flit) : Strm :=
  if flitKind f == kData then
    { x with tailRows := x.tailRows ++ [(stripe, flitFseq f, flitLine f, flitChan f, flitChunk f, f.pay)] }
  else { x with tailTags := x.tailTags ++ [(stripe, flitFseq f, if flitKind f == kEof then 8191 else flitLine f)] }

/-- A Tail engine takes the oldest flits of a stream in a stripe input while their lines have a place: the stripe inputs of one number
share a list, and each belongs to its stream (R119, R137). -/
def State.tailTakeFrom : Nat → Nat → Nat → Nat → State → State
  | 0, _, _, _, s => s
  | k + 1, st, n, stripe, s =>
    let q := Tab.get [] (s.tailEng n).queues stripe
    match q.find? (fun f => flitStream f == st) with
    | none => s
    | some f =>
      if s.tailPlace st f then
        tailTakeFrom k st n stripe (((s.modTailEng n (fun e =>
          { e with queues := Tab.set e.queues stripe (q.eraseP (fun g => flitStream g == st)) }))).modStrm st (fun x => x.tailKeep stripe f))
      else s

/-- A Tail engine takes what it can of a stream whose group is not frozen (R117, R118, R137). -/
def State.tailTake (s : State) (st : Nat) : State :=
  let x := s.strm st
  if x.frozen || x.ctx.isNone then s
  else (List.range 8).foldl (fun s i => State.tailTakeFrom 64 st (s.sdecl st).tail i s) s

/-- A flit reaches a stripe input of a Tail engine (R119). -/
def State.tailEnter (s : State) (n stripe o : Nat) (ecc : Ecc) (f : Flit) : State :=
  let e := s.tailEng n
  let code := 0x410 + n
  let count := fun (e : Engine) (i : Nat) => { e with errs := Tab.set e.errs i (sat32 (Tab.get 0 e.errs i) 1) }
  match arrive (s.epoch o) ecc f with
  | .bubble => s
  | .tagUe => s.tagUe code o f
  | .stale => (s.setTailEng n (count e 3)).logSite .epochDiscard code o (flitStream f) (flitFseq f) (flitLine f) 0
  | .poison => s.setTailEng n (count e 4)
  | .take g fixed par =>
    let s := if fixed then s.setTailEng n (count e 0) else s
    let s := if par then s.parErr code o g else s
    let e := s.tailEng n
    if 64 ≤ ((Tab.get [] e.queues stripe).filter (fun x => flitStream x == flitStream g)).length then s.skidOvf code o g
    else (s.setTailEng n { e with queues := Tab.set e.queues stripe (Tab.get [] e.queues stripe ++ [g]) }).tailTake (flitStream g)

/-- Move what a unit has waiting for its lanes into them, each lane holding 16 flits (R129). -/
def Unit.fill : Nat → Unit → Unit
  | 0, u => u
  | n + 1, u =>
    match u.pipe.findIdx? (fun p => (Tab.get [] u.lanes p.1).length < 16) with
    | none => u
    | some i =>
      match u.pipe[i]? with
      | none => u
      | some p =>
        let l := Tab.get [] u.lanes p.1 ++ [p.2]
        Unit.fill n { u with pipe := u.pipe.eraseIdx i, lanes := Tab.set u.lanes p.1 l
                             lanePeak := if u.frozen then u.lanePeak else max u.lanePeak l.length }

/-- A unit's lanes take what waits for them; a lane above its LANE_BOUND is a QUEUE_BOUND hazard (Table 11-6, R290). -/
def State.fillLanes (s : State) (site : Nat) : State :=
  let u := s.unit site
  let v := Unit.fill 512 u
  let s := s.setUnit site v
  [0, 1, 2, 3].foldl (fun s l =>
    let was := (Tab.get [] u.lanes l).length
    let now := Tab.get [] v.lanes l
    if was < now.length && Tab.get 16 v.laneBound l < now.length && !v.skidding.contains (3 + l) then
      match now.getLast? with
      | some f => s.hazard site 6 (flitStream f) (flitFseq f) (flitLine f)
      | none => s
    else s) s

/-- Whether an inject lane sends bubbles: held by HOLD, or with no exchange credit left (R133, R225). -/
def Unit.laneHeld (u : Unit) (lane : Nat) : Bool := u.hold.contains lane || u.credits.any (fun e => e.1 == lane && e.2 == 0)

/-- Raise HOLD on the source lane of a gate at 72 entries, drop it below 64, as the writer side counts them (R133). -/
def State.gateHold (s : State) (g : Nat) : State :=
  let x := s.gate g
  let n := x.q.length + x.freed
  let want := if x.hold then 64 ≤ n else 72 ≤ n
  if want == x.hold then s
  else
    let s := s.setGate g { x with hold := want }
    match x.source with
    | some (site, lane) => s.modUnit site (fun u => { u with hold := if want then lane :: u.hold else u.hold.erase lane })
    | none => s

end Sys2Proof.Machine
end

