-- ==== Sys2Proof/Machine/Forming.lean ====
section
/-! DEFINITION. Forming and taking flits at a unit: trims, counting windows, the flits a unit sends, the codes a V-unit expands and
sends, the rotation block, and the entry of a flit into a queue (R93, R97, R190, R191, R201-R203, R207, R263, R266, R279). -/

namespace Sys2Proof.Machine

-- Trims (R202, R203).

/-- The virtual site of a mapped site, and the context's image. -/
def State.vsite (s : State) (site : Nat) : Option (Nat × Ctx) :=
  match s.ctx (s.unit site).owner with
  | none => none
  | some c => (c.place.map.find? (fun p : Nat × Nat => p.2 == site)).map (fun p => (p.1, c))

/-- The trim of a group in force for a frame named by 8 bits. -/
def Strm.trimFor (x : Strm) (f8 g : Nat) : Int :=
  match x.frameTrims.reverse.find? (fun e => e.1.toNat % 256 == f8 && e.2.1 == g) with
  | some e => e.2.2
  | none => 0

/-- The trims of the groups that `p` picks, for a frame at a unit. -/
def State.trimSum (s : State) (site st f8 : Nat) (p : Nat → TrimDecl → Bool) : Int :=
  match s.vsite site with
  | none => 0
  | some (v, c) =>
    let gs := c.place.image.decl.trims
    (((List.range gs.length).filter (fun i => (gs[i]?).any (p v))).map (fun i => (s.strm st).trimFor f8 i)).sum

/-- The trim of the tensor a unit produces (R202): every unit of the producer layer applies it. -/
def State.prodTrim (s : State) (site st f8 : Nat) : Int := s.trimSum site st f8 (fun v g => !g.producerEdge && g.producers.contains v)

/-- The trim of the tensor a unit takes in one of its input queues (R202). -/
def State.consTrim (s : State) (site q st f8 : Nat) : Int := s.trimSum site st f8 (fun v g => g.consumers.contains (v, q))

/-- Latch a group's trim for a frame at its producer: TRIM_APPLIED when it differs from the last one (R203). -/
def State.latchTrim (s : State) (code st : Nat) (fseq : B16) (o g : Nat) (t : Int) : State :=
  let x := s.strm st
  if x.frameTrims.any (fun e => e.1 == fseq && e.2.1 == g) then s
  else
    let last := match x.frameTrims.reverse.find? (fun e => e.2.1 == g) with | some e => e.2.2 | none => 0
    let s := s.setStrm st { x with frameTrims := (x.frameTrims.reverse.take 63).reverse ++ [(fseq, g, t)] }
    if t == last then s
    else s.log .trimApplied (inField (fieldOfCode code)) (s.ctxFn o) st (packBits [(16, fseq.toNat), (8, g), (8, uns 8 t)])

/-- A line of a frame enters a unit of a group's producer layer: the first latches the trim in force (R203). -/
def State.enterTrims (s : State) (site st f8 : Nat) : State :=
  match s.vsite site with
  | none => s
  | some (v, c) =>
    let gs := c.place.image.decl.trims
    ((List.range gs.length).filter (fun i => (gs[i]?).any (fun g => !g.producerEdge && g.producers.contains v))).foldl (fun s i =>
      s.latchTrim site st ((s.strm st).fullSeq f8) (s.unit site).owner i (Tab.get 0 c.trims i)) s

-- Counting windows (R279).

/-- The counts since the start of a unit's window. -/
def Unit.windowNow (u : Unit) : Window :=
  let d := fun (a : BitVec 64) (b : BitVec 32) => BitVec.ofNat 32 a.toNat - b
  let a := d u.active u.winBase.active
  let t := d u.tagWait u.winBase.tagWait
  let x := d u.xwait u.winBase.xwait
  let f := d u.stallCyc u.winBase.stall
  { valid := true, fseq := u.winBase.fseq, stream := u.winBase.stream, frame := a + t + x + f, active := a, tagWait := t
    xwait := x, stall := f, bank := u.bankConf - u.winBase.bank }

/-- A match opens the next frame of a unit's counting stream: the window in course closes, and a new one starts. -/
def Unit.openWindow (u : Unit) : Unit :=
  let w := u.windowNow
  { u with fc := if u.winFirst || !u.winBase.valid then u.fc else w
           eclCyc := if u.winFirst then w.frame else u.eclCyc
           winFirst := false, winEof := none, hazLogged := []
           winBase := { valid := true, fseq := u.cur.fseq, stream := u.cur.stream
                        active := BitVec.ofNat 32 u.active.toNat, tagWait := BitVec.ofNat 32 u.tagWait.toNat
                        xwait := BitVec.ofNat 32 u.xwait.toNat, stall := BitVec.ofNat 32 u.stallCyc.toNat, bank := u.bankConf } }

/-- A match has opened a frame at a unit. -/
def State.unitOpens (s : State) (site : Nat) : State :=
  let u := s.unit site
  if u.cur.stream == u.curStream then s.setUnit site u.openWindow else s

-- Sending flits (R263).

/-- A flit of a unit with a key descriptor's fields; a wildcard sends 0, and an end of frame carries 0 everywhere. -/
def State.keyFlit (s : State) (site kind kd dChan dChunk : Nat) (pay : BitVec 256) : Flit :=
  let u := s.unit site
  let k := u.key kd
  let e := kind == kEof
  mkFlit kind u.cur.stream u.cur.fseq (if e then 0 else k.1.getD 0) (if e then 0 else k.2.1.getD 0 + dChan)
    (if e then 0 else k.2.2.getD 0 + dChunk) (s.epoch u.owner) pay

/-- Flits join an inject lane in order. -/
def State.toLane (s : State) (site lane : Nat) (fs : List Flit) : State :=
  (s.modUnit site (fun u => { u with pipe := u.pipe ++ fs.map (fun f => (lane, f)) })).fillLanes site

/-- Whether a lane can take `n` more flits now (R129, R274). -/
def Unit.laneRoom (u : Unit) (lane n : Nat) : Bool :=
  decide ((Tab.get [] u.lanes lane).length + n ≤ 16) && u.pipe.all (fun p => p.1 != lane)

-- Codes of a V-unit (R189-R191).

/-- Codes of binary32 values: `clamp(round_half_even(y * 2^shift) + zo)` (R191, R266). -/
def codesOf (ys : List Nat) (shift : Int) (zo : Int) (u8 : Bool) : List Nat :=
  ys.map (fun y => (requant ((f32.dec y).scale shift) zo u8).1)

/-- A code's zero point field: a U8 code, or two's complement (R188). -/
def zoOf (u8 : Bool) (v : Nat) : Int := if u8 then v else sext 8 v

/-- The histogram of a V-unit's active bank counts the output codes of the chosen channel (R200). -/
def Unit.histogram (u : Unit) (chan : Nat) (u8 : Bool) (codes : List Nat) : Unit :=
  if chan % 256 != u.histChan then u
  else
    let h := codes.foldl (fun h c =>
      let b := if u8 then c else (c + 128) % 256
      Tab.set h b (min (Tab.get 0 h b + 1) 0xFFFFFFFF)) u.bankA.hist
    { u with bankA := { u.bankA with hist := h } }

/-- The codes of a chunk of a tensor that key descriptor `kd` tags: past the stripe's width they are the zero-point code (R207). -/
def Unit.fillUp (u : Unit) (kd chunk : Nat) (zo : Int) (codes : List Nat) : List Nat :=
  match u.codeW.find? (fun e : Nat × Nat => e.1 == kd) with
  | none => codes
  | some e => (List.range 32).map (fun i => if 32 * chunk + i < e.2 then codes.getD i 0 else uns 8 zo)

/-- Send a chunk of codes of a frame into a lane, counting them in the histogram. -/
def State.sendAs (s : State) (site lane kd st f8 line chan chunk : Nat) (zo : Int) (u8 : Bool) (codes : List Nat) : State :=
  let u := s.unit site
  let f := mkFlit kData st f8 line chan chunk (s.epoch u.owner) (payOf (u.fillUp kd chunk zo codes))
  (s.modUnit site (fun u => u.histogram (flitChan f) u8 codes)).toLane site lane [f]

/-- Send codes under a key descriptor. -/
def State.sendCodes (s : State) (site lane kd dChan dChunk : Nat) (zo : Int) (u8 : Bool) (codes : List Nat) : State :=
  let u := s.unit site
  let k := u.key kd
  s.sendAs site lane kd u.cur.stream u.cur.fseq (k.1.getD 0) (k.2.1.getD 0 + dChan) (k.2.2.getD 0 + dChunk) zo u8 codes

/-- The working exponent e_V that the operation at a program word declares (R190). -/
def Unit.opEv (u : Unit) : Int :=
  match u.vtab.eVat.find? (fun e : Nat × Int => e.1 == u.issuePc.2) with
  | some e => e.2
  | none => u.vtab.eV

/-- The expanded codes of a flit in a V-unit (R190): tensor `q` of its tables, with the trim of the flit's frame and the
operation's working exponent. -/
def Unit.expand (u : Unit) (q : Nat) (trim eV : Int) (p : BitVec 256) : List Nat :=
  let e := u.vtab.eIn.getD q 0 + trim
  let z := u.vtab.zIn.getD q 0
  let u8 := u.vtab.u8In.getD q false
  let z' := if u8 then z - 128 else z
  (List.range 32).map (fun i => f16.enc ((Real2.int (codeInt u8 (payByte p i) - z')).scale (e - eV)))

-- ROT (R194, R266).

/-- The size of a ROT, and log2 of it. -/
def rotLog (w : Nat) : Nat := 2 * (bits w 44 2 + 1)
def rotSize (w : Nat) : Nat := 2 ^ rotLog w

/-- Occupancies are checked again once they are at their bound (R290). -/
def Unit.relax (u : Unit) : Unit := { u with skidding := if u.frozen then u.skidding else u.stillAbove }

/-- The place in its queue's match window of the flit a ROT takes next. -/
def Unit.rotNext (u : Unit) (r : RotRun) : Option Nat :=
  ((Tab.get [] u.queues r.queue).take 8).findIdx? (fun e => flitKind e.flit == kData && flitStream e.flit == r.stream && flitFseq e.flit == r.fseq
    && keyFits (r.line, r.chan.map (fun c => (c + r.got.length) % 256), r.chunk) e.flit)

/-- The ROT in course takes the flits that are there, in ascending CHAN. -/
def Unit.rotTake : Nat → Unit → Unit
  | 0, u => u
  | n + 1, u =>
    match u.rot with
    | none => u
    | some r =>
      if rotSize r.word ≤ r.got.length then u
      else
        match u.rotNext r with
        | none => u
        | some j =>
          let l := Tab.get [] u.queues r.queue
          match l[j]? with
          | none => u
          | some e =>
            Unit.rotTake n ({ u with queues := Tab.set u.queues r.queue (l.eraseIdx j), rot := some { r with got := r.got ++ [e.flit] } }.owe e).relax

/-- A ROT goes on as its flits come: with the last one it transforms the channels of each column and sends n flits (R194, R266). -/
def State.rotRun (s : State) (site : Nat) : State :=
  let u := Unit.rotTake 64 (s.unit site)
  match u.rot with
  | none => s
  | some r =>
    let n := rotSize r.word
    if r.got.length < n then s.setUnit site u
    else
      let s := s.setUnit site { u with rot := none, rowOp := some { at_ := r.at_, k := n, word := r.word, rows := [], chunk := 0 } }
      let xs := r.got.map (fun f => (u.expand r.queue (s.consTrim site r.queue r.stream r.fseq) r.eV f.pay).map to32)
      let cols := (List.range 32).map (fun i => hadamard (rotLog r.word) (xs.map (fun x => x.getD i 0)))
      let u8 := fFlag r.word 0
      let zo := zoOf u8 (bits r.word 19 8)
      (List.range n).foldl (fun s j =>
        s.sendAs site (bits r.word 46 2) (bits r.word 33 4) r.stream r.fseq r.outLine (r.outChan + j) r.outChunk zo u8
          (cols.map (fun c => (requant ((c.getD j .nan).scale (sext 6 (bits r.word 27 6))) zo u8).1))) s

-- Entry of a flit (R93, R97, Table 04-7).

/-- The checks on entry, with their counts and logs: the flit that goes on, if one does. -/
def State.unitCheck (s : State) (site o : Nat) (ecc : Ecc) (f : Flit) : Option Flit × State :=
  match arrive (s.epoch o) ecc f with
  | .bubble => (none, s)
  | .tagUe => (none, s.tagUe site o f)
  | .stale =>
    (none, (s.modUnit site (fun u => { u with epochDisc := sat32 u.epochDisc 1 })).logSite .epochDiscard site o (flitStream f) (flitFseq f) (flitLine f) 0)
  | .poison => (none, s.modUnit site (fun u => { u with poisonDisc := sat32 u.poisonDisc 1 }))
  | .take g fixed par =>
    let s := if fixed then s.modUnit site (fun u => { u with tagCe := sat32 u.tagCe 1 }) else s
    (some g, if par then s.parErr site o g else s)

/-- An entry of a unit's input queue: its peaks follow (R452). -/
def Unit.enqueue (u : Unit) (q : Nat) (e : QEnt) : Unit :=
  let l := Tab.get [] u.queues q ++ [e]
  let n := l.length
  { u with queues := Tab.set u.queues q l
           qpeak := if u.frozen then u.qpeak else Tab.set u.qpeak q (max n (Tab.get 0 u.qpeak q))
           skidPeak := if u.skidding.contains q then Tab.set u.skidPeak q (max n (Tab.get 0 u.skidPeak q)) else u.skidPeak }

/-- A flit reaches an input queue of a unit (R93, R97); `o` is the OWNER of the slot or of the sending unit, `ex` the lane an exchange
route brings it from (R225). Hazards found with it go in ascending kind (R288). -/
def State.unitEnter (s : State) (site q o : Nat) (ecc : Ecc) (f : Flit) (ex : Option (Nat × Nat)) : State :=
  let u := s.unit site
  let own := if u.inCtx then u.owner else o
  match s.unitCheck site own ecc f with
  | (none, s) => s
  | (some g, s) =>
    let u := s.unit site
    let l := Tab.get [] u.queues q
    if 64 ≤ l.length then s.skidOvf site own g
    else
      let st := flitStream g
      let f8 := flitFseq g
      let s := s.setUnit site (u.enqueue q { flit := g, ex := ex })
      let s := if flitKind g == kData then s.enterTrims site st f8 else s
      let haz := fun (s : State) (k : Nat) (c : Bool) => if c then s.hazard site k st f8 (flitLine g) else s
      let s := haz s 3 (u.eofSeen.contains (st, f8))
      let s := haz s 5 ((s.unit site).missed == some (q, g) && s.mayIssue site)
      let s := haz s 6 (!u.skidding.contains q && !u.frozen && decide (Tab.get 64 u.qbound q < l.length + 1))
      let s := haz s 7 (u.inCtx && o != u.owner)
      if s.mayIssue site then s.rotRun site else s

/-- A flit of a streamed group reaches a T-unit over its west side link: one group is held while the next is received
(R236; log 28). -/
def State.streamEnter (s : State) (site o : Nat) (f : Flit) : State :=
  match s.unitCheck site o .clean f with
  | (none, s) => s
  | (some g, s) =>
    if 192 ≤ (s.unit site).streamed.length then s.skidOvf site o g
    else s.modUnit site (fun u => { u with streamed := u.streamed ++ [g.pay] })

end Sys2Proof.Machine
end

