-- ==== Sys2Proof/Machine/Mesh.lean ====
section
/-! DEFINITION. The Mycelium and the Stall Hub: routers, Border Gates, side links, exchange credits, stall groups and freezes
(chapter 05). -/

namespace Sys2Proof.Machine

/-- Advance a Field's FCYC to the next value whose slot is `slot` (R128, R392). -/
def State.toSlot (s : State) (f slot : Nat) : State :=
  s.modField f (fun x => { x with fcyc := x.fcyc + BitVec.ofNat 16 ((slot + 64 - x.fcyc.toNat % 64) % 64) })

/-- What a router's inputs offer in a slot: the four input registers, a gate's visible head, an Edge engine's next flit of
the route that starts here, and for the local input the head of a lane or a port's visible flit. Engines and P-units give nothing for a
frozen stream (R137). -/
def State.offer (s : State) (site slot src lane : Nat) : Option Flit :=
  let r := s.router site
  if src < 4 then
    match gateInto site src with
    | some g =>
      let x := s.gate g
      if x.frozen then none else match x.q with | (f, true) :: _ => some f | _ => none
    | none =>
      match (if src = 3 then edgeAt site else none) with
      | some n =>
        match s.endAt site slot true true with
        | some e => if (s.strm e.stream).frozen then none else (Tab.get [] (s.edgeEng n).queues (e.stream % 4 * 8 + e.stripe)).head?
        | none => none
      | none => ((Tab.get [] r.regs src).find? (fun x => (x.1 + 1) % 64 == slot)).map (fun x : Nat × Flit => x.2)
  else
    match s.endAt site slot true false with
    | some e =>
      match (if (s.strm e.stream).frozen then none else e.cut) with
      | some (p, route) => ((s.yport p).rxFlits.find? (fun x : Nat × Nat × Bool × Flit => x.1 == route && x.2.2.1)).map (fun x => x.2.2.2)
      | none => none
    | none =>
      let u := s.unit site
      if u.frozen || u.laneHeld lane then none else (Tab.get [] u.lanes lane).head?

/-- Take what an input offered, once it has been copied to the outputs that name it. -/
def State.taken (s : State) (site slot src lane : Nat) : State :=
  if src < 4 then
    match gateInto site src with
    | some g => s.modGate g (fun x => { x with q := x.q.drop 1, freed := x.freed + 1 })
    | none =>
      match (if src = 3 then edgeAt site else none) with
      | some n =>
        match s.endAt site slot true true with
        | some e =>
          let i := e.stream % 4 * 8 + e.stripe
          s.modEdgeEng n (fun x => { x with queues := Tab.set x.queues i ((Tab.get [] x.queues i).drop 1) })
        | none => s
      | none => s.modRouter site (fun r =>
          { r with regs := Tab.set r.regs src ((Tab.get [] r.regs src).filter (fun x => (x.1 + 1) % 64 != slot)) })
  else
    match s.endAt site slot true false with
    | some e =>
      match e.cut with
      | some (p, route) =>
        (s.modYport p (fun y => { y with rxFlits := y.rxFlits.eraseP (fun x => x.1 == route && x.2.2.1), freed := y.freed + 1 }))
      | none => s
    | none =>
      (s.modUnit site (fun u =>
        let u := { u with lanes := Tab.set u.lanes lane ((Tab.get [] u.lanes lane).drop 1)
                          credits := u.credits.map (fun c : Nat × Nat => if c.1 == lane then (c.1, c.2 - 1) else c) }
        { u with skidding := u.stillAbove })).fillLanes site

/-- Whether flits forwarded for a context turn to poison: it is being aborted, or is in FAULT (R315, R316). -/
def State.poisons (s : State) (o : Nat) : Bool :=
  match s.ctx o with
  | some c => c.state == .aborting || c.state == .fault
  | none => false

/-- Put a flit on an output of a router (R123, R130). -/
def State.putOut (s : State) (site slot out : Nat) (e : B16) (f : Flit) : State :=
  let f := if s.poisons (slotOwner e) && flitKind f != kBubble then
      let g := poisonFlit s.freeCount f
      { g with chk := tagCode g.tag }
    else f
  let s := if s.poisons (slotOwner e) then s.draw else s
  if out = 4 then s.modRouter site (fun r => { r with eject := r.eject ++ [(slotQueue e, slotOwner e, slot, f)] })
  else
    match lead site out with
    | .router n i => s.modRouter n (fun r =>
        { r with regs := Tab.set r.regs i ((Tab.get [] r.regs i).filter (fun x => x.1 != slot) ++ [(slot, f)]) })
    | .gate _ => s.modRouter site (fun r => { r with border := r.border ++ [(out, slot, f)] })
    | .tail => s.modRouter site (fun r => { r with border := r.border ++ [(out, slot, f)] })
    | .nowhere => s

/-- Whether the slot entries of an OWNER send bubbles: its region is between Seal and Open (R304, R307). -/
def State.sealed (s : State) (o : Nat) : Bool :=
  match s.ctx o with
  | some c => c.ecl.any (fun e => e.started)
  | none => false

/-- A flit that reaches a router input in a slot and goes to no output is discarded: that of an input register, or one that an Edge
engine sends. In HAZARD mode it is reported where no output names the input (R131). A gate's head, which no entry takes, stays in its
gate (R132). -/
def State.dropReg (s : State) (site slot : Nat) (named : List Nat) (i : Nat) : State :=
  if (gateInto site i).isSome then s
  else
    let edge := if i = 3 then edgeAt site else none
    let f := if edge.isNone then s.offer site slot i 0
      else if named.contains i || (s.endAt site slot true true).any (fun e => ((s.strm e.stream).ctx).any s.sealed) then none
      else s.offer site slot i 0
    match f with
    | none => s
    | some f =>
      let s := s.taken site slot i 0
      if flitKind f == kBubble || named.contains i then s else s.hazard site 7 (flitStream f) (flitFseq f) (flitLine f)

/-- A router in one slot (R123, R128): slot 0 first applies waiting patches (R321). -/
def flitForward (site slot : Nat) (s : State) : State :=
  if !s.ready || (s.field (fieldOfSite site)).down then s
  else
    let s := s.toSlot (fieldOfSite site) slot
    let s := if slot = 0 then s.modRouter site (fun r =>
        { r with slots := r.patch.foldl (fun t p => Tab.set t p.1 p.2) r.slots, patch := [] }) else s
    let r := s.router site
    let named := (List.range 5).filterMap (fun o =>
      let e := Tab.get 0 r.slots (o * 64 + slot)
      if slotValid e then some (o, e) else none)
    -- the local port injects one flit in a cycle: the lane that the first of the entries names (R122; log 28)
    let lane := ((named.find? (fun x : Nat × B16 => slotSrc x.2 == 4)).map (fun x => slotLane x.2)).getD 0
    let live := named.filter (fun x : Nat × B16 => !s.sealed (slotOwner x.2) && (slotSrc x.2 != 4 || slotLane x.2 == lane))
    let moves := live.filterMap (fun x : Nat × B16 => (s.offer site slot (slotSrc x.2) (slotLane x.2)).map (fun f => (x.1, x.2, f)))
    let srcs := (moves.map (fun x : Nat × B16 × Flit => (slotSrc x.2.1, if slotSrc x.2.1 < 4 then 0 else slotLane x.2.1))).eraseDups
    let s := srcs.foldl (fun s x => s.taken site slot x.1 x.2) s
    let s := moves.foldl (fun s x => s.putOut site slot x.1 x.2.1 x.2.2) s
    (List.range 4).foldl (fun s i => s.dropReg site slot (named.map (fun x : Nat × B16 => slotSrc x.2)) i) s

def execFlitForward (site : Site) (slot : Fin 64) (s : State) : Host.Outcome State Fault Refusal := .next (flitForward site slot s)

/-- The queue a side-link flit enters: A of an M- or V-unit, the features of a T-unit (Table 04-3). That an S-unit, which that table gives
no side receive, takes one into write stream 0 is a DESIGN CHOICE (log 28). -/
def sideQueue : Nat := 0

/-- A side-link flit enters the neighbour's queue (R98). One toward a P-unit, a fused site or the Field's border is lost without a mark
(DESIGN CHOICE, log 28: the spec gives such a neighbour no side link and says nothing of a flit sent to it). -/
def sideLinkFlit (site : Nat) (east : Bool) (s : State) : State :=
  let u := s.unit site
  match u.side.find? (fun x => x.1 == east) with
  | none => s
  | some (_, f) =>
    let n := if east then site + 1 else site - 1
    let edge := if east then site % 16 == 15 else site % 16 == 0
    let s := s.setUnit site { u with side := u.side.eraseP (fun x => x.1 == east) }
    if edge || !s.works n || kindOf n = .p then s
    else if kindOf n = .t && east then s.streamEnter n u.owner f
    else s.unitEnter n sideQueue u.owner .clean f none

def execSideLinkFlit (site : Site) (east : Bool) (s : State) : Host.Outcome State Fault Refusal := .next (sideLinkFlit site east s)

/-- A flit enters a Border Gate (R132, R133); a gate with no room has overflowed its skid (Table 11-1). -/
def gateWrite (g : Nat) (s : State) : State :=
  let w := gateWriter g
  let r := s.router w.1
  match r.border.find? (fun b => b.1 == w.2) with
  | none => s
  | some (_, _, f) =>
    let s := s.setRouter w.1 { r with border := r.border.eraseP (fun b => b.1 == w.2) }
    let x := s.gate g
    if flitKind f == kBubble then s
    else if 96 ≤ x.q.length + x.freed then
      match x.owner with
      | some o => s.skidOvf w.1 o f
      | none => s
    else (s.setGate g { x with q := x.q ++ [(f, false)] }).gateHold g

def execGateWrite (g : Fin 112) (s : State) : Host.Outcome State Fault Refusal := .next (gateWrite g s)

/-- The oldest entry not yet visible becomes visible to a gate's reader (R67). -/
def showFirst : List (Flit × Bool) → List (Flit × Bool)
  | [] => []
  | (f, true) :: t => (f, true) :: showFirst t
  | (f, false) :: t => (f, true) :: t

/-- The gate through which the outputs of a Tail engine of Field 3 reach the Port die of an assembly that has only one (R113; log 26). -/
def outGate (n : Nat) : Nat := 81 + 2 * (n % 8)

/-- The oldest line in an output gate comes out of it, while its stream is not frozen (R113, R134). -/
def State.showOut (s : State) (g : Nat) : State :=
  match s.streams.find? (fun e : Nat × Strm => !e.2.atGate.isEmpty && !e.2.frozen && outGate (s.sdecl e.1).tail == g) with
  | none => s
  | some (st, x) => s.setStrm st { x with atGate := x.atGate.drop 1, toOut := x.toOut ++ x.atGate.take 1 }

def gateFlitVisible (g : Nat) (s : State) : State := (s.modGate g (fun x => { x with q := showFirst x.q })).showOut g

def execGateFlitVisible (g : Fin 112) (s : State) : Host.Outcome State Fault Refusal := .next (gateFlitVisible g s)

/-- A freed slot becomes free for a gate's writer, and HOLD drops below 64 (R67, R133). -/
def execGateSlotFreed (g : Fin 112) (s : State) : Host.Outcome State Fault Refusal :=
  .next ((s.modGate g (fun x => { x with freed := x.freed - 1 })).gateHold g)

/-- Exchange credits return to a sending lane: one for each entry of its route that the consumer has removed, at most `n` now and 40 in
all (R225). -/
def exchangeCreditReturn (site lane n : Nat) (s : State) : State :=
  let k := 4 * site + lane
  match s.units.find? (fun e : Nat × Unit => decide (0 < Tab.get 0 e.2.backs k)) with
  | none => s
  | some (c, u) =>
    let m := min n (Tab.get 0 u.backs k)
    (s.setUnit c { u with backs := Tab.set u.backs k (Tab.get 0 u.backs k - m) }).modUnit site (fun u =>
      { u with credits := u.credits.map (fun c : Nat × Nat => if c.1 == lane then (c.1, min 40 (c.2 + m)) else c) })

def execExchangeCreditReturn (site : Site) (lane : Fin 4) (n : Fin 64) (s : State) : Host.Outcome State Fault Refusal :=
  .next (exchangeCreditReturn site lane n s)

-- The Stall Hub (R138-R143, R149).

/-- The origin that asserted a group: the longest requesting, the lowest of equals (R149). -/
def State.firstOrigin (s : State) (g : Nat) : Nat :=
  let os := s.origins.filter (fun e : Nat × Origin => e.2.en && e.2.req && e.2.group == g)
  match os with
  | [] => 0
  | e :: t => (t.foldl (fun (b : Nat × Origin) (x : Nat × Origin) => if x.2.since < b.2.since || (x.2.since == b.2.since && x.1 < b.1) then x else b) e).1

/-- The Hub asserts a group on a request of an enabled origin (R139): STALL_ON unless within 1 us of the last release,
and the frames of its streams are flagged (R149). -/
def stallAssert (g : Nat) (s : State) : State :=
  let x := s.group g
  if x.asserted || x.masked || !s.groupWanted g || !s.running g then s
  else
    let o := s.firstOrigin g
    let s := s.setGroup g { x with asserted := true, minHold := true, first := if x.off.isNone then o else x.first, count := sat32 x.count 1, since := s.kcycles }
    let s := if x.off.isNone then s.log .stallOn inHub (s.ctxFn g) g o else s
    let s := (s.ctxStreams g).foldl (fun s st => s.modStrm st (fun y => y.flagOpen .stalled)) s
    s.stallChanged g

def execStallAssert (g : Owner) (s : State) : Host.Outcome State Fault Refusal := .next (stallAssert g s)

/-- The minimum hold of 32 SCLK cycles ends (R139). -/
def execStallMinHoldEnd (g : Owner) (s : State) : Host.Outcome State Fault Refusal :=
  .next ((s.modGroup g (fun x => { x with minHold := false })).settleGroup g)

/-- The stall group of a member (R136). -/
def State.memberGroup (s : State) : Member → Option Nat
  | .unit site => if (s.unit site).inCtx then some (s.unit site).owner else none
  | .stream st => (s.strm st).ctx
  | .gate g => (s.gate g).owner

/-- The assertion reaches a member, which freezes (R141). -/
def freezeSet (m : Member) (s : State) : State :=
  match s.memberGroup m with
  | none => s
  | some g =>
    if !(s.group g).asserted || (s.group g).masked then s
    else
      match m with
      | .unit site => s.modUnit site (fun u => if u.frozen then u else { u with frozen := true, skidding := [0, 1, 2, 3, 4, 5, 6] })
      | .stream st => s.modStrm st (fun x => { x with frozen := true })
      | .gate i => s.modGate i (fun x => { x with frozen := true })

def execFreezeSet (m : Member) (s : State) : Host.Outcome State Fault Refusal := .next (freezeSet m s)

/-- A group has stayed released for 1 us: STALL_OFF with its asserted time and assertions (R149). -/
def execStallOff (g : Owner) (s : State) : Host.Outcome State Fault Refusal :=
  .next (
    let x := s.group g
    match x.off with
    | none => s
    | some (t, n) =>
      if x.asserted then s
      else
        (s.setGroup g { x with off := none }).log .stallOff inHub (s.ctxFn g) g
          (packBits [(32, min t 0xFFFFFFFF), (32, min n 0xFFFFFFFF)]))

end Sys2Proof.Machine
end

