-- ==== Sys2Proof/Machine/MicroOps.lean ====
section
/-! DEFINITION. What the instructions of a unit program share: consuming bound entries, opening and closing frames, forming
and sending flits, reading and writing V-unit lanes, and the issue of an instruction (chapters 07, 10, 11; logs 13, 28). -/

namespace Sys2Proof.Machine

-- Consuming entries (R258, R259).

/-- The flit an instruction reads from a queue: its bound entry's, or a bubble. -/
def Unit.readQ (u : Unit) (q : Nat) : Flit :=
  match u.bound q with
  | some e => e.flit
  | none => {}

/-- The stripe that a V-unit's input queue brings, of those its global average sums (R218; log 28). -/
def gapStripe (t : VTable) (q : Nat) : Nat := min q (t.own.length - 1)

/-- A channel's sum over the frame: the sums of the stripes, in ascending order (R191). -/
def Bank.total (b : Bank) (stripes c : Nat) : Nat :=
  ((List.range (stripes - 1)).map (fun i => Tab.get 0 b.sum (256 * (i + 1) + c))).foldl add32 (Tab.get 0 b.sum c)

/-- The global average of a V-unit at an end of frame (Table 07-2, R218, R267): once the end-of-frame tag of every stripe has come, each
channel's sum, scaled, and the lanes of the last POOL's destination. -/
def Unit.closeGap (u : Unit) (q : Nat) : Unit :=
  let n := max u.vtab.own.length 1
  let seen := (gapStripe u.vtab q :: u.gapEofs).eraseDups
  if seen.length < n then { u with gapEofs := seen }
  else
  let sum := ((u.bankA.sum.map (fun e : Nat × Nat => e.1 % 256)).eraseDups).map (fun c : Nat => (c, u.bankA.total n c))
  let gap := sum.map (fun e : Nat × Nat =>
    (e.1, f32.enc ((f32.dec (f32.enc ((f32.dec e.2).mul (f16.dec u.vtab.gapScale)))).scale u.vtab.gapShift)))
  let u := { u with bankA := { u.bankA with sum := sum, gap := gap }, gapEofs := [] }
  match u.gapDst with
  | none => u
  | some d =>
    let v := (List.range 64).map (fun c => Tab.get 0 gap c)
    if d < 8 then u.writeReg (.h d) 0 (v.map to16) else u.writeReg (.z (d - 12)) 0 v

/-- A unit consumes an end-of-frame entry: the frame is over at the unit (R199, R105, R279, Table 11-6). -/
def State.endFrameAt (s : State) (site q : Nat) (f : Flit) : State :=
  let u := s.unit site
  let st := flitStream f
  let f8 := flitFseq f
  let left := (Tab.get [] u.queues q).any (fun e => flitKind e.flit == kData && flitStream e.flit == st && flitFseq e.flit == f8)
  let k := kindOf site
  let u := { u with cur := { u.cur with opened := false }, eofSeen := ((st, f8) :: u.eofSeen).take 127
                    winEof := if st == u.curStream then some (u.spend 1).windowNow else u.winEof
                    statsDue := if k = .m || k = .v then some (st, f8) else u.statsDue }
  let u := if k = .v then u.closeGap q else u
  let s := s.setUnit site u
  if left then s.hazard site 4 st f8 (flitLine f) (some u.issuePc.1) else s

/-- Remove the bound entry of a queue (R259). -/
def State.removeQ (s : State) (site q : Nat) : State :=
  let u := s.unit site
  match u.bound q with
  | none => s
  | some e =>
    let s := s.setUnit site ({ u with queues := Tab.set u.queues q ((Tab.get [] u.queues q).eraseP (fun x => x.bound)) }.owe e).relax
    if flitKind e.flit == kEof then s.endFrameAt site q e.flit else s

/-- An instruction has used the bound entry of a queue: it goes, unless its WAITTAG had KEEP. -/
def State.useQ (s : State) (site q : Nat) : State :=
  match (s.unit site).bound q with
  | some e => if e.keep then s else s.removeQ site q
  | none => s

/-- The queues that source codes name, each once. -/
def codeQueues (cs : List Nat) : List Nat := ((cs.filter (fun c => 8 ≤ c && c < 11)).map (· - 8)).eraseDups

def State.useCodes (s : State) (site : Nat) (cs : List Nat) : State := (codeQueues cs).foldl (fun s q => s.useQ site q) s

-- V-unit lanes (R189-R191, Table 10-2; log 28).

/-- A register's pending result at lanes `lo` to `lo + 31` that is not usable yet: a RAW read (R275). -/
def Unit.rawRead (u : Unit) (c lo t : Nat) : Bool :=
  u.pend.any (fun p =>
    decide (t < p.at_) && decide (p.lo < lo + 32) && decide (lo < p.lo + p.vals.length)
      && (match p.reg with | .h i => c == i | .z i => c == i + 12))

/-- The newest row's last appended chunk. -/
def Unit.newestRow (u : Unit) : List Nat :=
  match u.rowLast with
  | some (_, ck, _) => (Tab.get [] u.row ck).getLastD []
  | none => []

/-- The 32 values of a source as binary32, from lane `lo`, at cycle `t`: a register sees the results usable by then. -/
def State.src32 (s : State) (site c lo t : Nat) : List Nat :=
  let u := (s.unit site).settle t
  if c < 8 then (List.range 32).map (fun i => to32 ((Tab.get [] u.h c).getD (lo + i) 0))
  else if c < 11 then
    let f := u.readQ (c - 8)
    (u.expand (c - 8) (s.consTrim site (c - 8) (flitStream f) (flitFseq f)) u.opEv f.pay).map to32
  else if c = 11 then (List.range 32).map (fun i => to32 (u.newestRow.getD i 0))
  else (List.range 32).map (fun i => (Tab.get [] u.z (c - 12)).getD (lo + i) 0)

/-- The same values as the binary16 operands of an elementwise operation. -/
def State.src16 (s : State) (site c lo t : Nat) : List Nat := (s.src32 site c lo t).map to16

/-- Report a RAW read of any of these registers. -/
def State.rawCheck (s : State) (site lo t : Nat) (cs : List Nat) : State :=
  if cs.any (fun c => (s.unit site).rawRead c lo t) then s.hazardNow site 1 else s

/-- A result of binary32 values becomes usable at cycle `t` in a V-unit register. -/
def State.result (s : State) (site dst lo t : Nat) (v : List Nat) : State :=
  let p : PendW := if dst < 8 then { reg := .h dst, at_ := t, lo := lo, vals := v.map to16 }
    else { reg := .z (dst - 12), at_ := t, lo := lo, vals := v }
  s.modUnit site (fun u => { u with pend := insertPend p u.pend })

-- The row window of a V-unit (R104, R267; log 28).

/-- Append a chunk to ROW as its newest row; each chunk keeps its five most recent rows, +0 before there are as many (R104, R267). -/
def Unit.rowAppend (u : Unit) (chan chunk q : Nat) (v : List Nat) : Unit :=
  let rows := Tab.get [] u.row chunk ++ [v]
  { u with row := Tab.set u.row chunk (rows.drop (rows.length - 5)), rowLast := some (chan, chunk, q), rowOut := 0 }

/-- The `k` most recent rows, oldest first: of a chunk with fewer, the oldest are missing and read as +0. -/
def Unit.lastRows (u : Unit) (k : Nat) : List (Tab (List Nat)) :=
  (List.range k).map (fun j => u.row.map (fun e : Nat × List (List Nat) =>
    (e.1, if j + e.2.length < k then [] else e.2.getD (j + e.2.length - k) [])))

/-- What a column outside the stripe reads under a side's padding code (R213). -/
def rowPad (mode const : Nat) (edge mirror : Nat) (at_ : Nat → Nat) : Nat :=
  if mode = 0 then 0 else if mode = 1 then const else if mode = 2 then at_ edge else at_ mirror

/-- Column `x` of the image, counted from the stripe's first owned column, in a row that holds the inner halo before it: padded by the
side's code at an image edge; past a stripe border inside the image it has no stated value (R104, R213, R214; log 28). -/
def rowColumn (t : VTable) (row : Tab (List Nat)) (x : Int) : Nat :=
  let at_ := fun (i : Nat) => (Tab.get [] row (i / 32)).getD (i % 32) 0
  let n := t.width
  let x := x + (if t.edgeL then 0 else (t.halo : Int))
  if x < 0 then (if t.edgeL then rowPad t.pad t.padc 0 (-x).toNat at_ else (Config.outsideRow x).toNat)
  else if (n : Int) ≤ x then (if t.edgeR then rowPad t.padR t.padcR (n - 1) (2 * (n : Int) - 2 - x).toNat at_ else (Config.outsideRow x).toNat)
  else at_ x.toNat

/-- Output chunks of a POOL of stride `st` that are complete once the chunks up to `c` have come (R104). -/
def rowChunks (t : VTable) (st c : Nat) : Nat :=
  if t.width ≤ 32 * (c + 1) then (t.width + 32 * st - 1) / (32 * st) else c / st

/-- The output chunk that the next POOL forms: the first one that the newest row completes, and one more for each POOL since (log 28). -/
def Unit.poolChunk (u : Unit) (st : Nat) : Nat :=
  match u.rowLast with
  | none => u.rowOut
  | some (_, c, _) => (if c = 0 then 0 else rowChunks u.vtab st (c - 1)) + u.rowOut

/-- The binary32 results of a DWC over rows for an output chunk (Table 07-2). -/
def Unit.dwcY (u : Unit) (w : Nat) (rows : List (Tab (List Nat))) (chunk : Nat) : List Nat :=
  let k := if bit w 45 then 5 else 3
  let c := bits w 39 6
  let taps := (u.vtab.taps.getD c []).take (k * k)
  (List.range 32).map (fun i =>
    let v := (List.range k).flatMap (fun ky => (List.range k).map (fun kx =>
      rowColumn u.vtab (rows.getD ky []) ((32 * chunk + i + kx : Nat) - (u.vtab.pl : Int))))
    add32 (dot16 0 v taps) (u.vtab.dwcBias.getD c 0))

/-- The results of a window POOL, in binary32 (Table 07-2). -/
def Unit.poolY (u : Unit) (w : Nat) (rows : List (Tab (List Nat))) (chunk : Nat) : List Nat :=
  let k := if bit w 41 then 3 else 2
  let st := if bit w 40 then 2 else 1
  (List.range 32).map (fun i =>
    let v := (List.range k).flatMap (fun ky => (List.range k).map (fun kx =>
      rowColumn u.vtab (rows.getD ky []) ((st * (32 * chunk + i) + kx : Nat) - (u.vtab.pl : Int))))
    if bits w 42 2 = 0 then to32 (match v with | [] => 0 | x :: t => t.foldl max16 x)
    else
      let y := sum32 0 (v.map to32)
      if k = 2 then f32.enc ((f32.dec y).scale (-2)) else f32.enc ((f32.dec y).mul (f16.dec 0x2F1C)))

-- The issue of an instruction (R259, R274).

/-- Issue the group at a unit's program counter if its instruction has opcode `op`, is legal, its WAITTAGs match and `can`
holds: the unit waits as told, the frame opens, the program counter moves on, `act` takes effect at the issue cycle,
and the unit spends `cost` active cycles. -/
def State.issue (s : State) (site : Nat) (w : Waits) (op : Nat) (can : Unit → Nat → Bool) (cost : Nat → Nat)
    (act : State → Nat → State) : State :=
  if !s.mayIssue site then s
  else
    let u := s.unit site
    let g := u.group
    let k := kindOf site
    if fOp g.word != op || u.badWait k g then s
    else
      match Unit.bindAll (needs g.waits) u with
      | (some _, _) => s
      | (none, v) =>
        let busy := v.busyUntil g.word
        let v := (v.advance busy w).untilCyc busy
        if v.illegal k g.word || !can v g.word then s
        else
          let s := s.setUnit site { v with issuePc := (u.pc, g.pc) }
          let s := if !u.cur.opened && v.cur.opened then s.unitOpens site else s
          let s := s.modUnit site (fun x => { x with pc := x.nextPc g.pc })
          let s := (act s g.word).modUnit site (fun x => x.spend (cost g.word))
          match (s.unit site).missed with
          | some (_, f) => s.hazard site 5 (flitStream f) (flitFseq f) (flitLine f)
          | none => s

/-- An instruction that any legal state can issue. -/
def always (_ : Unit) (_ : Nat) : Bool := true

end Sys2Proof.Machine
end

