-- ==== Sys2Proof/Machine/Micro.lean ====
section
/-! DEFINITION. The instructions of unit programs (chapter 10), with the drains of the M-units and the faults of a program. -/

namespace Sys2Proof.Machine

-- Deadlock and illegal words (R96, R251, R255).

/-- A unit has waited 2^TAG_TIMEOUT unfrozen cycles on a WAITTAG whose queues' windows are all full: TAG_DEADLOCK (R96). The cycles
waited count (R94, R276). -/
def tagDeadlock (site : Nat) (ws : Waits) (s : State) : State :=
  let u := s.unit site
  if !s.mayIssue site then s
  else
    match Unit.bindAll (needs u.group.waits) u with
    | (some (w, _), _) =>
      if decide (2 ^ s.greg.tagTimeout ≤ ws.tag) && (maskQueues (bits w 45 3)).all (fun q => decide (waitWindow w ≤ (Tab.get [] u.queues q).length)) then
        ((s.setUnit site (u.advance u.cyc ws)).logSite .tagDeadlock site u.owner u.cur.stream u.cur.fseq ((u.key (bits w 41 4)).1.getD 0) 0).faultCtx u.owner .tagDeadlock
      else s
    | (none, _) => s

def execTagDeadlock (d : DeadUnit) (s : State) : Host.Outcome State Fault Refusal := .next (tagDeadlock d.site d.waits s)

/-- A unit halts: the event, and the context's FAULT (R251, R255). -/
def State.haltUnit (s : State) (site pc : Nat) (e : Ev) (c : Cause) : State :=
  let u := s.unit site
  ((s.setUnit site { u with halted := true }).logSite e site u.owner u.cur.stream u.cur.fseq 0 pc).faultCtx u.owner c

/-- A unit is about to issue an illegal word: a WAITTAG of its group, or the instruction once its matches are there. -/
def illegalOp (site : Nat) (spill : Bool) (w : Waits) (s : State) : State :=
  if !s.mayIssue site then s
  else
    let u := s.unit site
    let k := kindOf site
    let g := u.group
    if u.badWait k g then (if spill then s else (s.setUnit site (u.advance u.cyc w)).haltUnit site u.pc .illegalOp .illegalOp)
    else
      match Unit.bindAll (needs g.waits) u with
      | (some _, _) => s
      | (none, v) =>
        let v := v.advance (v.busyUntil g.word) w
        if (fOp g.word == 0x12) != spill || !v.illegal k g.word then s
        else (s.setUnit site v).haltUnit site g.pc .illegalOp .illegalOp

def execIllegalOp (site : Site) (w : Waits) (s : State) : Host.Outcome State Fault Refusal := .next (illegalOp site false w s)
def execSpill (site : Site) (w : Waits) (s : State) : Host.Outcome State Fault Refusal := .next (illegalOp site true w s)

def execProgUe (site : Site) (s : State) : Host.Outcome State Fault Refusal :=
  .next (if !s.mayIssue site then s
    else ({ s with greg := { s.greg with ue := true } }).haltUnit site (s.unit site).pc .progUe .progUe)

-- Control (R264, R273, R274).

def execMicroNop (site : Site) (w : Waits) (s : State) : Host.Outcome State Fault Refusal :=
  .next (s.issue site w 0x00 always (fun w => bits w 0 16 + 1) (fun s _ => s))

/-- POP removes the bound entries of the named queues (R259). -/
def execPop (site : Site) (w : Waits) (s : State) : Host.Outcome State Fault Refusal :=
  .next (s.issue site w 0x02 always (fun _ => 1) (fun s w => (maskQueues (bits w 45 3)).foldl (fun s q => s.removeQ site q) s))

/-- LOOP opens a counted loop (R264). -/
def Unit.openLoop (u : Unit) (w : Nat) : Unit :=
  let l := bits w 46 2
  { u with lc := Tab.set u.lc l { index := 0, count := bits w 30 16, start := u.pc, finish := bits w 20 10 }
           loops := l :: u.loops }

def execLoop (site : Site) (w : Waits) (s : State) : Host.Outcome State Fault Refusal :=
  .next (s.issue site w 0x0E always (fun _ => 1) (fun s w => s.modUnit site (fun u => u.openLoop w)))

/-- ENDL repeats the innermost loop, or closes it after its last iteration; a count of 0 runs for ever (R264). -/
def Unit.endLoop (u : Unit) : Unit :=
  match u.loops with
  | [] => u
  | l :: t =>
    let c := Tab.get { index := 0, count := 0, start := 0, finish := 0 } u.lc l
    if c.count = 0 || c.index + 1 < c.count then
      { u with lc := Tab.set u.lc l { c with index := (c.index + 1) % 65536 }, pc := c.start }
    else { u with loops := t }

def execEndl (site : Site) (w : Waits) (s : State) : Host.Outcome State Fault Refusal :=
  .next (s.issue site w 0x0F always (fun _ => 0) (fun s _ => s.modUnit site Unit.endLoop))

/-- The conditions SYNC waits for (R273): DRAIN waits for the drain, the rotation block and every flit still on its way to a lane. -/
def Unit.synced (u : Unit) (w : Nat) : Bool :=
  (!bit w 47 || (u.drain.isNone && u.rot.isNone && u.pipe.isEmpty)) && (!bit w 46 || (Tab.allVals List.isEmpty u.lanes && u.pipe.isEmpty))
    && (!bit w 45 || u.side.isEmpty) && (!bit w 44 || Tab.allVals (fun l => decide (l.length ≤ 1)) u.gens)
    && (!bit w 43 || Tab.allVals List.isEmpty u.gens)

def execSync (site : Site) (w : Waits) (s : State) : Host.Outcome State Fault Refusal :=
  .next (s.issue site w 0x11 Unit.synced (fun _ => 1) (fun s _ => s))

-- PUSH and EMIT (R263, R271).

/-- The payload of a register sent unrounded: 16 binary16 or 8 binary32 values (log 28). -/
def pay16 (l : List Nat) : BitVec 256 := BitVec.ofNat 256 (packBits ((l.take 16).map (fun b => (16, b))))
def pay32 (l : List Nat) : BitVec 256 := BitVec.ofNat 256 (packBits ((l.take 8).map (fun b => (32, b))))

/-- Put a flit on a side link (R98). -/
def State.toSide (s : State) (site : Nat) (east : Bool) (f : Flit) : State :=
  s.modUnit site (fun u => { u with side := u.side ++ [(east, f)] })

/-- PUSH of a value: a bound entry goes on with its own key; a register's flit has no stated key (log 28). -/
def State.pushValue (s : State) (site c : Nat) (east : Bool) : State :=
  let u := s.unit site
  let s := s.rawCheck site 0 u.cyc [c]
  if 8 ≤ c && c < 11 then
    let f := u.readQ (c - 8)
    let s := if flitKind f == kBubble then s
      else s.toSide site east (mkFlit (flitKind f) u.cur.stream u.cur.fseq (flitLine f) (flitChan f) (flitChunk f) (s.epoch u.owner) f.pay)
    s.useQ site (c - 8)
  else
    let r := (Config.unstated s.freeCount).toNat
    let v := s.src32 site c 0 u.cyc
    (s.draw).toSide site east (mkFlit kData u.cur.stream u.cur.fseq (bits r 0 13) (bits r 13 8) (bits r 21 8) (s.epoch u.owner)
      (if 12 ≤ c then pay32 v else pay16 (v.map to16)))

/-- PUSH with WIN queues a window sequence (R271). -/
def Unit.pushWin (u : Unit) (w : Nat) : Unit :=
  let g := if bit w 47 then 1 else 0
  let k := u.key (bits w 36 4)
  { u with gens := Tab.set u.gens g (Tab.get [] u.gens g ++
      [{ wd := bits w 40 3, kd := bits w 36 4, nchunk := bits w 28 8, half := fFlag w 1, stream := u.cur.stream
         fseq := u.cur.fseq, line := k.1.getD 0, chunk := k.2.2.getD 0, at_ := u.cyc + 3 }]) }

def execPush (site : Site) (w : Waits) (s : State) : Host.Outcome State Fault Refusal :=
  .next (s.issue site w 0x03
    (fun u w => !fFlag w 0 || decide ((Tab.get [] u.gens (if bit w 47 then 1 else 0)).length < 2)) (fun _ => 1)
    (fun s w => if fFlag w 0 then s.modUnit site (fun u => u.pushWin w) else s.pushValue site (bits w 43 4) (bit w 47)))

/-- The accumulators of a T-unit. -/
def Unit.accs (u : Unit) : List Nat := (List.range 16).map (fun i => Tab.get 0 u.tacc i)

/-- EMIT sends a flit with a payload that is at hand. -/
def State.emitPay (s : State) (site w dChan dChunk : Nat) (p : BitVec 256) : State :=
  s.toLane site (bits w 46 2) [s.keyFlit site (bits w 39 3) (bits w 35 4) dChan dChunk p]

/-- EMIT sends the second flit of WIDE where the source has no lanes 32 to 63: its payload has no stated value. -/
def State.emitFree (s : State) (site w : Nat) : State := s.draw.emitPay site w 0 1 (Config.unstatedPay s.freeCount)

/-- EMIT sends 32 lanes of a V-unit's source from lane `lo`, unrounded with RAW, else as codes (R191). -/
def State.emitLanes (s : State) (site w lo : Nat) : State :=
  let u := s.unit site
  let c := bits w 42 4
  let v := s.src32 site c lo (u.cyc + lo / 32)
  if fFlag w 2 then s.emitPay site w 0 (lo / 32) (if 12 ≤ c then pay32 v else pay16 (v.map to16))
  else
    let u8 := fFlag w 0
    let zo := zoOf u8 (bits w 21 8)
    let codes := codesOf v (sext 6 (bits w 29 6)) zo u8
    if bits w 39 3 == kData then s.sendCodes site (bits w 46 2) (bits w 35 4) 0 (lo / 32) zo u8 codes
    else s.emitPay site w 0 (lo / 32) (payOf codes)

/-- EMIT (R263, R269). -/
def State.emit (s : State) (site w : Nat) : State :=
  let u := s.unit site
  let c := bits w 42 4
  let raw := fFlag w 2
  let wide := fFlag w 1
  let queue := decide (8 ≤ c) && decide (c < 11)
  let s := s.rawCheck site 0 u.cyc [c]
  let s := if wide then s.rawCheck site 32 (u.cyc + 1) [c] else s
  let s :=
    if kindOf site = .t && !queue && raw then
      (s.emitPay site w 0 0 (pay32 (u.accs.take 8))).emitPay site w 1 0 (pay32 (u.accs.drop 8))
    else
      let s :=
        if queue && (kindOf site != .v || bits w 39 3 == kEof || raw) then s.emitPay site w 0 0 (u.readQ (c - 8)).pay
        else if kindOf site = .t then
          s.emitPay site w 0 0 (payOf (codesOf u.accs (sext 6 (bits w 29 6)) (zoOf (fFlag w 0) (bits w 21 8)) (fFlag w 0)))
        else s.emitLanes site w 0
      if !wide then s else if kindOf site = .v && (c < 8 || 12 ≤ c) then s.emitLanes site w 32 else s.emitFree site w
  s.useCodes site [c]

/-- How many flits an EMIT sends. -/
def emitCount (site w : Nat) : Nat := if fFlag w 1 || (kindOf site = .t && fFlag w 2) then 2 else 1

def execEmit (site : Site) (w : Waits) (s : State) : Host.Outcome State Fault Refusal :=
  .next (s.issue site w 0x10 (fun u w => u.laneRoom (bits w 46 2) (emitCount site w)) (fun w => if fFlag w 1 then 2 else 1)
    (fun s w => s.emit site w))

-- M-unit (R100-R103, R183-R188, R260-R262).

/-- LDW writes the bound weight flit into a weight-buffer word; a MAC in its second cycle keeps the old word, a RAW hazard
(R102). -/
def State.ldw (s : State) (site w : Nat) : State :=
  let u := s.unit site
  let a := bits w 38 10
  let s := if u.macAt == some (u.cyc - 1, a) && u.cyc != 0 then s.hazardNow site 1 else s
  (s.modUnit site (fun u => u.setWide 4 a (u.readQ 2).pay)).useQ site 2

def execLdw (site : Site) (w : Waits) (s : State) : Host.Outcome State Fault Refusal :=
  .next (s.issue site w 0x04 always (fun _ => 1) (fun s w => s.ldw site w))

/-- Channels of a block by its mode (Table 04-4). -/
def Block.chans (b : Block) : Nat := if b.sf8 == some true then 64 else 32

/-- Take the partial-sum flits of a block that are next in its order and in queue P's window (R183, R261). -/
def Unit.takePsums : Nat → Unit → Block → Unit × Block
  | 0, u, b => (u, b)
  | n + 1, u, b =>
    match b.psum with
    | none => (u, b)
    | some k =>
      let i := b.psums.length
      if 4 * b.chans ≤ i then (u, b)
      else
        let l := Tab.get [] u.queues 1
        let k' := (k.1, k.2.1.map (fun c => (c + i / 4) % 256), k.2.2)
        match (l.take 8).findIdx? (fun e => flitKind e.flit == kData && u.cur.opened && curFits u.cur false e.flit && keyFits k' e.flit) with
        | none => (u, b)
        | some j =>
          match l[j]? with
          | none => (u, b)
          | some e =>
            Unit.takePsums n ({ u with queues := Tab.set u.queues 1 (l.eraseIdx j) }.owe e).relax { b with psums := b.psums ++ [e.flit.pay] }

/-- One reduction step: the weight word at WP and the activation codes join the open block; the K-th closes it, to the drain
set if REQ has armed it (R100, R261). -/
def State.mac (s : State) (site w : Nat) : State :=
  let u := s.unit site
  let act := (u.readQ 0).pay
  let wgt := u.wide 4 u.wp
  let u := { u with wp := (u.wp + 1) % 1024, macAt := some (u.cyc, u.wp) }
  let u := match u.block with
    | none => u
    | some b =>
      if b.k ≤ b.done then u
      else
        let b := { b with sf8 := some (fFlag w 0), steps := (act, wgt) :: b.steps, done := b.done + 1 }
        let r := Unit.takePsums 256 u b
        let u := r.1
        let b := r.2
        if b.done < b.k then { u with block := some b }
        else
          let b := { b with closeAt := u.cyc + 2, stream := u.cur.stream, fseq := u.cur.fseq }
          if b.req.isSome then { u with block := none, drain := some b } else { u with block := some b }
  (s.setUnit site u).useQ site 0

/-- Whether the drain set is free: no drain waits, and every flit of the last one has entered its lane (R274). -/
def Unit.drainFree (u : Unit) : Bool := u.drain.isNone && u.pipe.isEmpty

/-- Whether a MAC can go on: the one that closes an armed block needs the drain set (R274). -/
def Unit.macCan (u : Unit) (_ : Nat) : Bool :=
  match u.block with
  | some b => !(b.done + 1 == b.k && b.req.isSome) || u.drainFree
  | none => true

def execMac (site : Site) (w : Waits) (s : State) : Host.Outcome State Fault Refusal :=
  .next (s.issue site w 0x05 Unit.macCan (fun _ => 1) (fun s w => s.mac site w))

/-- The BASE values of the model whose chain a T-unit belongs to (R237). -/
def State.modelBase (s : State) (site : Nat) : List Nat :=
  match s.vsite site with
  | none => []
  | some (v, c) =>
    let ms := c.place.image.decl.models
    match ms.findIdx? (fun m => m.chain.contains v) with
    | none => []
    | some i =>
      match (Tab.get {} c.models i).decl with
      | some d => d.base
      | none => (ms.getD i {}).base

/-- The two accumulator flits of a chain, CHAN 0x80 and 0x81, in a T-unit's window (R269). -/
def Unit.chainFlits (u : Unit) : Option (QEnt × QEnt) :=
  let l := (Tab.get [] u.queues 0).take 8
  let f := fun (c : Nat) => l.find? (fun e => flitKind e.flit == kData && curFits u.cur false e.flit && flitChan e.flit == c)
  match f 0x80, f 0x81 with
  | some a, some b => some (a, b)
  | _, _ => none

def u32sOf (p : BitVec 256) : List Nat := (List.range 8).map (fun i => bits p.toNat (32 * i) 32)
def u16sOf (p : BitVec 256) : List Nat := (List.range 16).map (fun i => bits p.toNat (16 * i) 16)

def Unit.setAccs (u : Unit) (l : List Nat) : Unit :=
  { u with tacc := (List.range 16).map (fun i => (i, l.getD i 0)) }

/-- ACC of a T-unit: BASE, or with CHAIN the accumulators of the previous T-unit (R237, R269). -/
def State.accTree (s : State) (site w : Nat) : State :=
  let u := s.unit site
  if !fFlag w 1 then s.setUnit site (u.setAccs (s.modelBase site))
  else
    match u.chainFlits with
    | none => s
    | some (a, b) =>
      let u := u.setAccs (u32sOf a.flit.pay ++ u32sOf b.flit.pay)
      s.setUnit site (({ u with queues := Tab.set u.queues 0 (((Tab.get [] u.queues 0).erase a).erase b) }.owe a).owe b).relax

/-- ACC of an M-unit opens a block (R261). -/
def State.accBlock (s : State) (site w : Nat) : State :=
  let u := s.unit site
  let p := fFlag w 0
  let first := if p then (u.bound 1).toList.map (fun e => e.flit.pay) else []
  let b : Block := { k := bits w 32 16, psum := if p then some (u.key (bits w 18 4)) else none, c0 := u.c0, psums := first }
  let s := s.setUnit site { u with block := some b, wp := bits w 22 10 }
  if p then s.useQ site 1 else s

def execAcc (site : Site) (w : Waits) (s : State) : Host.Outcome State Fault Refusal :=
  .next (s.issue site w 0x06 (fun u w => kindOf site != .t || !fFlag w 1 || u.chainFlits.isSome) (fun _ => 1)
    (fun s w => if kindOf site = .t then s.accTree site w else s.accBlock site w))

def execBias (site : Site) (w : Waits) (s : State) : Host.Outcome State Fault Refusal :=
  .next (s.issue site w 0x07 always (fun _ => 1) (fun s w => s.modUnit site (fun u => { u with c0 := bits w 40 8 })))

/-- REQ arms the drain of the open block, with the key it forms (R262, R263); in the cycle in which the block closes it still
does. -/
def Unit.armDrain (u : Unit) (w : Nat) : Unit :=
  match u.block with
  | none => u
  | some b =>
    let k := u.key (bits w 42 4)
    let b := { b with req := some w, line := k.1.getD 0, chan := k.2.1.getD 0, chunk := k.2.2.getD 0 }
    if b.done < b.k then { u with block := some b }
    else if u.cyc < b.closeAt then { u with block := none, drain := some b }
    else u

def execReq (site : Site) (w : Waits) (s : State) : Host.Outcome State Fault Refusal :=
  .next (s.issue site w 0x08
    (fun u _ => u.drainFree || u.block.all (fun b => decide (b.done < b.k) || decide (b.closeAt ≤ u.cyc))) (fun _ => 1)
    (fun s w => s.modUnit site (fun u => u.armDrain w)))

/-- The weight code of a channel in a weight word: an S8 code, or an S4 code, the lower channel in the low bits (R177, R260). -/
def weightCode (sf8 : Bool) (w : BitVec 256) (c : Nat) : Int :=
  if sf8 then sext 4 (bits w.toNat (4 * c) 4) else sext 8 (payByte w c)

/-- The accumulator of one column and channel of a block: its start, then the products in order (R182, R183). -/
def Block.acc (b : Block) (u8in : Bool) (col ch : Nat) : Nat :=
  let sf8 := b.sf8 == some true
  let z := match b.psum with
    | none => 0
    | some _ => bits (b.psums.getD (4 * ch + col / 8) 0).toNat (32 * (col % 8)) 32
  b.steps.reverse.foldl (fun a st =>
    let x := sf12Val (sf12 (codeInt u8in (payByte st.1 col)))
    let wc := weightCode sf8 st.2 ch
    let y := if sf8 then sf8Val (Machine.sf8 wc) else sf12Val (sf12 wc)
    add32 a (f32.enc (x.mul y))) z

/-- The row sum of a column (R187). -/
def Block.rowSum (b : Block) (u8in : Bool) (col : Nat) : Int := (b.steps.map (fun st => codeInt u8in (payByte st.1 col))).sum

/-- The requantiser of R187 up to the scaled value: `t` are the trims of the producer and of the consumer. -/
def reqValue (w : Nat) (p : Param) (t : Int × Int) (acc : Nat) (rs : Int) : Real2 :=
  let u8 := fFlag w 1
  let za := if u8 then (bits w 22 8 : Int) - 128 else sext 8 (bits w 22 8)
  let y := sub32 acc (int32 (p.zw * rs))
  let y := sub32 y (mul32 (int32 za) p.cs)
  let y := add32 y (f32.enc ((f32.dec p.bias).scale (-t.2)))
  let y := if fFlag w 0 && lt32 y 0 then 0 else y
  (f32.dec y).scale (sext 6 (bits w 36 6) + t.2 + p.ew - (sext 6 (bits w 30 6) + t.1))

/-- One channel of a drain: its codes in the first `n` columns, the largest magnitude and the saturations. -/
def Block.drainChan (b : Block) (w : Nat) (p : Param) (t : Int × Int) (n ch : Nat) : List Nat × Nat × Nat :=
  let u8o := fFlag w 2
  let zo := zoOf u8o (bits w 14 8)
  let vs := (List.range n).map (fun col => reqValue w p t (b.acc (fFlag w 1) col ch) (b.rowSum (fFlag w 1) col))
  let qs := vs.map (fun v => requant v zo u8o)
  (qs.map (·.1), vs.foldl (fun m v => max32 m (maxabs32 v)) 0, (qs.filter (·.2)).length)

/-- The drain set is requantised, its statistics count toward the frame of its block, and its flits go to the lane (R187,
R198, R199, R262). With RAW the accumulators leave unrounded (R221). -/
def reqDrain (site : Nat) (s : State) : State :=
  let u := s.unit site
  match u.drain with
  | none => s
  | some b =>
    let r := Unit.takePsums 256 u b
    let u := r.1
    let b := r.2
    if !s.mayIssue site || (b.psum.isSome && b.psums.length < 4 * b.chans) then s
    else
      let w := b.req.getD 0
      let lane := bits w 46 2
      let ep := s.epoch u.owner
      let flit := fun (ch : Nat) (p : BitVec 256) => mkFlit kData b.stream b.fseq b.line (b.chan + ch) b.chunk ep p
      let u := { u with drain := none }
      if fFlag w 3 then
        let fs := (List.range b.chans).flatMap (fun ch => (List.range 4).map (fun q =>
          flit ch (pay32 ((List.range 8).map (fun i => b.acc (fFlag w 1) (8 * q + i) ch)))))
        (s.setUnit site u).toLane site lane fs
      else
        let t := (s.prodTrim site b.stream b.fseq, s.consTrim site 0 b.stream b.fseq)
        let kd := bits w 42 4
        let zo := zoOf (fFlag w 2) (bits w 14 8)
        -- the columns of a short last chunk (R207)
        let n := match u.codeW.find? (fun e : Nat × Nat => e.1 == kd) with | some e => min 32 (e.2 - 32 * b.chunk) | none => 32
        let set := b.fseq % 2 * 256
        let out := (List.range b.chans).map (fun ch =>
          let ix := (b.c0 + ch) % 256
          (ix, b.drainChan w (Tab.get {} u.params ix) t n ch))
        let u := out.foldl (fun (u : Unit) (e : Nat × List Nat × Nat × Nat) =>
          { u with maxabs := Tab.set u.maxabs (set + e.1) (max32 (Tab.get 0 u.maxabs (set + e.1)) e.2.2.1)
                   satcount := Tab.set u.satcount (set + e.1) (min (Tab.get 0 u.satcount (set + e.1) + e.2.2.2) 0xFFFFFFFF) }) u
        let fs := (List.range b.chans).map (fun ch => flit ch (payOf (u.fillUp kd b.chunk zo (out.getD ch (0, [], 0, 0)).2.1)))
        (s.setUnit site u).toLane site lane fs

def execReqDrain (site : Site) (s : State) : Host.Outcome State Fault Refusal := .next (reqDrain site s)

end Sys2Proof.Machine
end

