-- ==== Sys2Proof/Machine/Vector.lean ====
section
/-! DEFINITION. The V-unit operations: look-ups and exponentials, elementwise operations, pooling, depthwise convolution and
Hadamard rotation (R189-R194, R266, R267). -/

namespace Sys2Proof.Machine

/-- First lane of an operation: HI selects lanes 32 to 63 (log 28). -/
def hiLane (w : Nat) : Nat := if fFlag w 0 then 32 else 0

/-- The activation look-up (Table 07-2). -/
def actLook (t : VTable) (x : Nat) : Nat :=
  match f16.dec x, f16.dec t.x0 with
  | .fin n m e, .fin n0 m0 e0 =>
    let d := (Real2.fin n m e).add (Real2.fin n0 m0 e0).neg
    let i := (clampI 0 255 ((d.scale (-t.d)).floor)).toNat
    let r := f16.enc (d.add ((Real2.int i).scale t.d).neg)
    let p := f32.enc ((f16.dec (t.slope.getD i 0)).mul (f16.dec r))
    to16 (add32 (to32 (t.base.getD i 0)) p)
  | _, _ => 0x7E00

/-- ACT: FN 0 look-up, usable from cycle 4; 1 reciprocal, 2 exponential, from cycle 6. -/
def State.act (s : State) (site w : Nat) : State :=
  let u := s.unit site
  let lo := hiLane w
  let src := bits w 40 4
  let fn := bits w 38 2
  let s := s.rawCheck site lo u.cyc [src]
  let v := (s.src16 site src lo u.cyc).map (fun x => if fn = 0 then actLook u.vtab x else if fn = 1 then recip16 x else exp16 x)
  (s.result site (bits w 44 4) lo (u.cyc + (if fn = 0 then 4 else 6)) (v.map to32)).useCodes site [src]

def execAct (site : Site) (w : Waits) (s : State) : Host.Outcome State Fault Refusal :=
  .next (s.issue site w 0x09 always (fun _ => 1) (fun s w => s.act site w))

/-- ADD and MUL: one binary32 operation on the two binary16 operands, usable from cycle 3. -/
def State.elementwise (s : State) (site w : Nat) (op : Nat → Nat → Nat) : State :=
  let u := s.unit site
  let lo := hiLane w
  let a := bits w 40 4
  let b := bits w 36 4
  let t := u.cyc + lo / 32
  let s := s.rawCheck site lo t [a, b]
  let v := ((s.src16 site a lo t).zip (s.src16 site b lo t)).map (fun p => op (to32 p.1) (to32 p.2))
  (s.result site (bits w 44 4) lo (u.cyc + 3) v).useCodes site [a, b]

def execAdd (site : Site) (w : Waits) (s : State) : Host.Outcome State Fault Refusal :=
  .next (s.issue site w 0x0B always (fun _ => 1) (fun s w => s.elementwise site w add32))

def execMul (site : Site) (w : Waits) (s : State) : Host.Outcome State Fault Refusal :=
  .next (s.issue site w 0x0C always (fun _ => 1) (fun s w => s.elementwise site w mul32))

/-- Global average pooling adds the newest chunk's owned columns, in ascending order, to its channel's sum for the stripe that the
chunk came from (R191, R218). -/
def Unit.gapAdd (u : Unit) (dst : Nat) : Unit :=
  match u.rowLast with
  | none => u
  | some (c, k, q) =>
    let st := gapStripe u.vtab q
    let own := u.vtab.own.getD st (0, 0)
    let v := ((List.range 32).filter (fun i => decide (own.1 ≤ 32 * k + i) && decide (32 * k + i < own.2))).map
      (fun i => to32 (u.newestRow.getD i 0))
    let ix := 256 * st + c
    { u with bankA := { u.bankA with sum := Tab.set u.bankA.sum ix (sum32 (Tab.get 0 u.bankA.sum ix) v) }, gapDst := some dst }

/-- POOL reads its rows one per cycle; a window's result is usable k + 4 cycles after issue. -/
def State.poolOp (s : State) (site w : Nat) : State :=
  let u := s.unit site
  let k := if bit w 41 then 3 else 2
  let dst := bits w 44 4
  if bits w 42 2 = 2 then s.setUnit site (u.gapAdd dst)
  else
    let rows := u.lastRows k
    let chunk := u.poolChunk (if bit w 40 then 2 else 1)
    let s := s.result site dst (hiLane w) (u.cyc + k + 4) (u.poolY w rows chunk)
    s.modUnit site (fun v => { v with rowOp := some { at_ := u.cyc, k := k, word := w, rows := rows, chunk := chunk }
                                      rowOut := (u.rowOut + 1) % 256 })

def execPool (site : Site) (w : Waits) (s : State) : Host.Outcome State Fault Refusal :=
  .next (s.issue site w 0x0A (fun u _ => u.rot.isNone) (fun _ => 1) (fun s w => s.poolOp site w))

/-- DWC: one flit of the channel's tap table over the k most recent rows, for KD out's chunk. -/
def State.dwcOp (s : State) (site w : Nat) : State :=
  let u := s.unit site
  let k := if bit w 45 then 5 else 3
  let chunk := (u.key (bits w 35 4)).2.2.getD 0
  let rows := u.lastRows k
  let u8 := fFlag w 0
  let s := s.sendCodes site (bits w 46 2) (bits w 35 4) 0 0 (zoOf u8 (bits w 21 8)) u8
    (codesOf (u.dwcY w rows chunk) (sext 6 (bits w 29 6)) (zoOf u8 (bits w 21 8)) u8)
  s.modUnit site (fun v => { v with rowOp := some { at_ := u.cyc, k := k, word := w, rows := rows, chunk := chunk } })

def execDwc (site : Site) (w : Waits) (s : State) : Host.Outcome State Fault Refusal :=
  .next (s.issue site w 0x14 (fun u w => u.laneRoom (bits w 46 2) 1 && u.rot.isNone) (fun _ => 1) (fun s w => s.dwcOp site w))

/-- The ROT that an instruction word starts at a unit, on the frame in progress or the one its first flit opens (R266). -/
def Unit.rotStart (u : Unit) (w : Nat) (c : Cur) : RotRun :=
  let i := u.key (bits w 37 4)
  let o := u.key (bits w 33 4)
  { at_ := u.cyc, word := w, queue := (maskQueues (bits w 41 3)).headD 0, line := i.1, chan := i.2.1, chunk := i.2.2
    outLine := o.1.getD 0, outChan := o.2.1.getD 0, outChunk := o.2.2.getD 0, stream := c.stream, fseq := c.fseq, eV := u.opEv }

/-- The frame a ROT works on: the one in progress, or that of the first flit in its window that fits its key; none while no such
flit is there (its own match, R266). -/
def Unit.rotCur (u : Unit) (w : Nat) : Option Cur :=
  let k := u.key (bits w 37 4)
  ((Tab.get [] u.queues ((maskQueues (bits w 41 3)).headD 0)).take 8).findSome? (fun e =>
    if flitKind e.flit == kData && curFits u.cur false e.flit && keyFits k e.flit then
      some (if u.cur.opened then u.cur else { stream := flitStream e.flit, fseq := flitFseq e.flit, opened := true })
    else none)

/-- ROT issues with its first flit and takes the others as they come (R266). -/
def State.rot (s : State) (site w : Nat) : State :=
  let u := s.unit site
  match u.rotCur w with
  | none => s
  | some c =>
    let s := s.setUnit site { u with rot := some (u.rotStart w c), cur := c }
    let s := if !u.cur.opened then s.unitOpens site else s
    s.rotRun site

def execRot (site : Site) (w : Waits) (s : State) : Host.Outcome State Fault Refusal :=
  .next (s.issue site w 0x13 (fun u w => u.laneRoom (bits w 46 2) 1 && u.rot.isNone && (u.rotCur w).isSome) (fun _ => 1) (fun s w => s.rot site w))

-- MOV to the registers of a V-unit, and the WAR case (R267, R275).

/-- A write to ROW while a DWC or POOL is reading: the rows it has still to read are the new ones, and its result follows. -/
def State.rowWar (s : State) (site : Nat) : State :=
  let u := s.unit site
  match u.rowOp with
  | none => s
  | some r =>
    if fOp r.word == 0x13 || r.at_ + r.k ≤ u.cyc + 1 then s
    else
      let now := u.lastRows r.k
      let rows := (List.range r.k).map (fun j => if u.cyc + 1 ≤ r.at_ + j then now.getD j [] else r.rows.getD j [])
      let s := s.setUnit site { u with rowOp := some { r with rows := rows } }
      let s :=
        if fOp r.word == 0x0A then
          let v := u.poolY r.word rows r.chunk
          let d := bits r.word 44 4
          s.modUnit site (fun x => { x with pend := x.pend.map (fun p =>
            if p.at_ == r.at_ + r.k + 4 && p.lo == hiLane r.word then
              { p with vals := if d < 8 then v.map to16 else v } else p) })
        else
          let w := r.word
          let u8 := fFlag w 0
          let codes := codesOf (u.dwcY w rows r.chunk) (sext 6 (bits w 29 6)) (zoOf u8 (bits w 21 8)) u8
          let f := s.keyFlit site kData (bits w 35 4) 0 0 (payOf (u.fillUp (bits w 35 4) r.chunk (zoOf u8 (bits w 21 8)) codes))
          let fix := fun (g : Flit) => if g.tag == f.tag then f else g
          s.modUnit site (fun x => { x with
            pipe := x.pipe.map (fun p => (p.1, fix p.2))
            lanes := Tab.set x.lanes (bits w 46 2) ((Tab.get [] x.lanes (bits w 46 2)).map fix) })
      s.hazardNow site 2

/-- MOV form 0 in a V-unit: to H, Z, or as the newest row of ROW. -/
def State.movV (s : State) (site dst src : Nat) : State :=
  let u := s.unit site
  let t := u.cyc
  let s := s.rawCheck site 0 t [src]
  let s := if dst = 11 || (8 ≤ src && src < 12) then s else s.rawCheck site 32 t [src]
  let lo := s.src32 site src 0 t
  let s :=
    if dst = 11 then
      let c := if 8 ≤ src && src < 11 then (flitChan (u.readQ (src - 8)), flitChunk (u.readQ (src - 8)), src - 8)
        else u.rowLast.getD (0, 0, 0)
      (s.modUnit site (fun u => u.rowAppend c.1 c.2.1 c.2.2 (lo.map to16))).rowWar site
    else
      let hi := if 8 ≤ src && src < 12 then [] else s.src32 site src 32 t
      let v := lo ++ hi
      s.modUnit site (fun u => if dst < 8 then u.writeReg (.h dst) 0 (v.map to16) else u.writeReg (.z (dst - 12)) 0 v)
  s.useCodes site [src]

end Sys2Proof.Machine
end

