-- ==== Sys2Proof/Machine/Units.lean ====
section
/-! DEFINITION. MOV, the gills and window generators of S-units, the statistics of M- and V-units, the trees of T-units, and the
scrubber and service port (R105-R112, R206-R215, R232-R237, R267-R272). -/

namespace Sys2Proof.Machine

-- Gills (R206, R211, R212, R272).

/-- Words of one channel's segment of a row. -/
def gillWords (g : GillDesc) : Nat := if g.layout = 1 then 2 * ((g.width + 63) / 64) else (g.width + 31) / 32

/-- First word of a channel's segment in the ring slot of row `y`, in a gill that holds the channels from `chan0` on (R229). -/
def gillSeg (g : GillDesc) (y chan : Nat) : Nat := g.base + ((y % max g.rows 1) * g.chans + (chan - g.chan0)) * gillWords g

-- The schedule port (R106, R107).

/-- The region of a word of an S-unit. -/
def Unit.regionAt (u : Unit) (w : Nat) : Option (Nat × Nat × Nat × Nat) :=
  u.regions.find? (fun r : Nat × Nat × Nat × Nat => decide (r.1 ≤ w) && decide (w < r.1 + r.2.1))

/-- The bank of a word: by its region's base bank (R106); DESIGN CHOICE: outside every region as in a region of base bank 0 at word 0
(log 44). -/
def Unit.bankOf (u : Unit) (w : Nat) : Nat :=
  match u.regionAt w with
  | some r => (r.2.2.2 + (w - r.1)) % 8
  | none => w % 8

/-- A sequence's next flit goes one cycle later. -/
def slipGen (l : List GenSeq) : List GenSeq :=
  match l with
  | [] => []
  | q :: t => { q with at_ := q.at_ + 1 } :: t

/-- An access of the schedule port at cycle `t` or, while an access before it in the order write, generator 1, generator 0 needs one of
its banks, later; each cycle of delay counts, and so does the cycle of a generator already served that this access goes before (R107).
Gives the cycle it takes. -/
def Unit.portUse : Nat → Unit → Nat → Nat → List Nat → Unit × Nat
  | 0, u, t, _, _ => (u, t)
  | n + 1, u, t, rank, banks =>
    let same := u.port.filter (fun e : Nat × Nat × Nat => e.1 == t && banks.contains e.2.1)
    if same.any (fun e => decide (rank < e.2.2)) then Unit.portUse n { u with bankConf := sat32 u.bankConf 1 } (t + 1) rank banks
    else
      let later := ((same.filter (fun e => decide (e.2.2 < rank))).map (fun e => e.2.2)).eraseDups
      let u := later.foldl (fun u g => { u with bankConf := sat32 u.bankConf 1, gens := Tab.set u.gens g (slipGen (Tab.get [] u.gens g)) }) u
      ({ u with port := banks.map (fun b => (t, b, rank)) ++ u.port.filter (fun e : Nat × Nat × Nat => decide (u.cyc ≤ e.1 + 128)) }, t)

/-- The cycle of a program's next word write: one word a cycle, from now on (R107, R211). -/
def Unit.writeAt (u : Unit) : Nat := u.port.foldl (fun t (e : Nat × Nat × Nat) => if e.2.2 = 2 then max t (e.1 + 1) else t) u.cyc

/-- An SRAM word is written whole: it reads as written from then on (R110, Table 11-6). -/
def Unit.place (u : Unit) (w : Nat) (v : BitVec 256) : Unit :=
  { u.setWide 5 (w % 16384) v with written := if u.written.contains (w % 16384) then u.written else w % 16384 :: u.written
                                   zeroed := u.zeroed.filter (fun x => x != w % 16384) }

/-- A program's write of an SRAM word, through the schedule port (R107). -/
def Unit.store (u : Unit) (w : Nat) (v : BitVec 256) : Unit := (Unit.portUse 8 u u.writeAt 2 [u.bankOf (w % 16384)]).1.place w v

/-- An SRAM word as a read returns it. -/
def Unit.load (u : Unit) (w : Nat) : BitVec 256 := if u.zeroed.contains (w % 16384) then 0 else u.wide 5 (w % 16384)

/-- Codes written at byte columns of a segment: each word touched is written whole. -/
def Unit.storeCodes (u : Unit) (seg col : Nat) (codes : List Nat) : Unit :=
  (List.range ((col % 32 + codes.length + 31) / 32)).foldl (fun u i =>
    let w := seg + col / 32 + i
    let old := u.load w
    u.store w (payOf ((List.range 32).map (fun b =>
      let j := 32 * i + b
      if col % 32 ≤ j && j < col % 32 + codes.length then codes.getD (j - col % 32) 0 else payByte old b)))) u

/-- Codes written at columns of a segment: in PHASE2 the even columns of each go to plane 0, the odd ones to plane 1 (R211). -/
def Unit.storeCols (u : Unit) (g : GillDesc) (seg col : Nat) (codes : List Nat) : Unit :=
  if g.layout = 1 then
    let pick := fun (p : Nat) => (List.range codes.length).filterMap (fun i => if (col + i) % 2 = p then codes[i]? else none)
    (u.storeCodes seg ((col + 1) / 2) (pick 0)).storeCodes (seg + (g.width + 63) / 64) (col / 2) (pick 1)
  else u.storeCodes seg col codes

/-- MOV form 3 of an S-unit: the entry of a write stream (input queue) goes to its place in the gill; PHASE2 and INTERLEAVE2 wait for
the second of a pair (R211, R212, R272). An exchanged segment goes to its halo columns at once (R224). -/
def Unit.storeGill (u : Unit) (gd q : Nat) (f : Flit) : Unit :=
  let g := Tab.get {} u.gills gd
  let y := flitLine f / 2 ^ g.scale
  let seg := gillSeg g y (flitChan f)
  let c := flitChunk f
  let u := { u with gillTop := Tab.set u.gillTop gd (some y) }
  let a := (List.range 32).map (payByte f.pay)
  let fit := fun (at_ : Nat) (l : List Nat) => if g.cols = 0 then l else l.take (g.cols - at_)
  let n := if g.cols = 0 then g.width - g.shift else g.cols
  let first := Tab.get { tag := 0 } u.pairs q
  let same := flitKind first == kData && flitLine first == flitLine f && flitChan first == flitChan f && flitStream first == flitStream f
    && flitFseq first == flitFseq f
  let held := { u with pairs := Tab.set u.pairs q f }
  let pair := { u with pairs := Tab.drop (· == q) u.pairs }
  let p := (List.range 32).map (payByte first.pay)
  if g.exch then u.storeCols g seg g.shift (a.take n)
  else if g.layout = 1 then
    if c % 2 = 0 then (if (n + 31) / 32 ≤ c + 1 then u.storeCols g seg (g.shift + 32 * c) (fit (32 * c) a) else held)
    else if same && flitChunk first + 1 == c then pair.storeCols g seg (g.shift + 32 * (c - 1)) (fit (32 * (c - 1)) (p ++ a))
    else u
  else if g.layout = 2 then
    if same && flitChunk first == c then
      pair.storeCodes seg (g.shift + 64 * c) (fit (64 * c) ((List.range 64).map (fun i => if i % 2 = 0 then p.getD (i / 2) 0 else a.getD (i / 2) 0)))
    else held
  else u.storeCodes seg (g.shift + 32 * c) (fit (32 * c) a)

-- MOV (R272, Table 10-6).

/-- The lowest queue that holds a bound entry. -/
def Unit.boundQ (u : Unit) : Option Nat := [0, 1, 2].find? (fun q => (u.bound q).isSome)

/-- MOV form 3: into the gill of an S-unit, into the features of a T-unit. -/
def State.movStore (s : State) (site w : Nat) : State :=
  let u := s.unit site
  match u.boundQ with
  | none => s
  | some q =>
    let f := u.readQ q
    let s :=
      if kindOf site = .s then s.setUnit site (u.storeGill (bits w 43 3) q f)
      else
        let c := flitChan f
        s.setUnit site { u with fv := (List.range 16).foldl (fun t i =>
          if 16 * c + i < 256 then Tab.set t (16 * c + i) ((u16sOf f.pay).getD i 0) else t) u.fv }
    s.useQ site q

/-- MOV to TACC in a T-unit: eight binary32 values of the bound flit (log 28). -/
def State.movT (s : State) (site src : Nat) : State :=
  if 8 ≤ src && src < 11 then
    let u := s.unit site
    let v := u32sOf (u.readQ (src - 8)).pay
    (s.setUnit site { u with tacc := (List.range 8).foldl (fun t i => Tab.set t i (v.getD i 0)) u.tacc }).useQ site (src - 8)
  else s

def State.mov (s : State) (site w : Nat) : State :=
  let x := bits w 42 4
  let imm := BitVec.ofNat 32 (bits w 0 32)
  match bits w 46 2 with
  | 0 => if kindOf site = .t then s.movT site (bits w 38 4) else s.movV site x (bits w 38 4)
  | 1 => s.modUnit site (fun u => { u with x := Tab.set u.x x imm })
  | 2 => s.modUnit site (fun u => { u with x := Tab.set u.x x (Tab.get 0 u.x (bits w 38 4) + imm) })
  | _ => s.movStore site w

def execMov (site : Site) (w : Waits) (s : State) : Host.Outcome State Fault Refusal :=
  .next (s.issue site w 0x0D always (fun _ => 1) (fun s w => s.mov site w))

-- Errors of an S-unit's memory (R110).

/-- The region of a word: its kind, 0 CONST, 1 GILL, 2 STATE, 3 TABLE. -/
def Unit.regionOf (u : Unit) (w : Nat) : Option Nat := (u.regionAt w).map (fun r => r.2.2.1)

/-- An uncorrectable word of an S-unit's SRAM or a T-unit's node memory, a TABLE region (R112): logged, the frame flagged; a CONST or TABLE word faults the context at the frame's end, a GILL
or STATE word reads as zero until the program writes it. -/
def State.sramUe (s : State) (site w st f8 line : Nat) : State :=
  let u := s.unit site
  let o := if u.inCtx then u.owner else 255
  let s := { s with greg := { s.greg with ue := true } }
  let s := (s.logSite .sramUe site o st f8 line w).flagFrame8 st f8 .dataErr
  match (if kindOf site = .t then some 3 else u.regionOf w) with
  | some 0 => if u.inCtx then s.modRunning u.owner (fun c => { c with ueFault := (st, f8) :: c.ueFault }) else s
  | some 3 => if u.inCtx then s.modRunning u.owner (fun c => { c with ueFault := (st, f8) :: c.ueFault }) else s
  | some _ => s.modUnit site (fun u => { u with zeroed := if u.zeroed.contains w then u.zeroed else w :: u.zeroed })
  | none => s

/-- A word read at a service or schedule port with the error it met. -/
def State.wordRead (s : State) (site w : Nat) (e : Ecc) (st f8 line : Nat) : State :=
  match e with
  | .clean => s
  | .corrected => s.modUnit site (fun u => { u with eccCe := sat32 u.eccCe 1 })
  | .bad => s.sramUe site w st f8 line

-- Window generators (R209-R215, R271).

/-- What a column of a window read supplies: a code, or a byte of a stored word. -/
inductive GenSrc where
  | code (c : Nat)
  | byte (word b : Nat)
  | outside
  deriving DecidableEq, Repr

/-- Where an index outside `0 .. n - 1` leads under a padding code: a constant, or an index (Table 08-1). -/
def padIndex (mode : Nat) (i n : Int) : Option Int :=
  if mode = 2 then some (if i < 0 then 0 else n - 1) else if mode = 3 then some (if i < 0 then -i else 2 * n - 2 - i) else none

/-- The source of output column `c` of a chunk in one K step. -/
def genSrc (d : WinDesc) (g : GillDesc) (line chunk ky kx chan c : Nat) : GenSrc :=
  let padv := fun (m : Nat) => if m = 0 then d.zp.toNat else d.padc.toNat
  let y : Int := (line / 2 ^ g.scale : Nat) + (d.dil * (d.oy + ky) : Nat) - (d.pt : Int)
  let h : Int := d.height
  let row : Option Int × Nat := if y < 0 then (padIndex d.mt y h, d.mt) else if h ≤ y then (padIndex d.mb y h, d.mb) else (some y, 0)
  match row.1 with
  | none => .code (padv row.2)
  | some y =>
    let xo := 32 * chunk + c
    let x : Int := (d.stride * xo + d.dil * (d.ox + kx) : Nat) - (d.pl : Int) + (if d.edgeL then 0 else d.halo)
    let w : Int := d.width
    let col : Option Int × Nat :=
      if x < 0 then (if d.edgeL then (padIndex d.ml x w, d.ml) else (some x, 9))
      else if w ≤ x then (if d.edgeR then (padIndex d.mr x w, d.mr) else (some x, 9)) else (some x, 0)
    match col.1 with
    | none => .code (padv col.2)
    | some x =>
      if col.2 = 9 || x < 0 || w ≤ x then (if xo < d.outW then .outside else .code d.zp.toNat)
      else
        let seg := gillSeg g y.toNat chan
        let x := x.toNat
        if g.layout = 1 then .byte (seg + x % 2 * ((g.width + 63) / 64) + x / 64) (x / 2 % 32)
        else .byte (seg + x / 32) (x % 32)

/-- One flit of a sequence: its words are read at the schedule port, it goes over the side link, and its reads show UNWRITTEN_READ and
WINDOW_RANGE (Table 11-6). A code read outside the stored span has no stated value. The cycle of the read is the cycle the flit is
sent in (log 13). -/
def State.genFlit (s : State) (site gen : Nat) (q : GenSeq) (pos : Nat) : State :=
  let u := s.unit site
  let d := Tab.get {} u.wins q.wd
  let g := Tab.get {} u.gills d.gd
  let k := max (d.kh * d.kw * d.cin) 1
  let step := pos % k
  let tap := step / max d.cin 1
  let chan := d.chan0 + step % max d.cin 1
  let chunk := q.chunk + pos / k
  let ky := tap / max d.kw 1
  let srcs := (List.range 32).map (fun c => genSrc d g q.line chunk ky (tap % max d.kw 1) chan c)
  let words := (srcs.filterMap (fun x => match x with | .byte w _ => some w | _ => none)).eraseDups
  let r := (Config.unstated s.freeCount).toNat
  let s := if srcs.contains .outside then s.draw else s
  let codes := srcs.map (fun x => match x with | .code v => v | .byte w b => payByte (u.load w) b | .outside => r % 256)
  let f := mkFlit kData q.stream q.fseq q.line chan chunk (s.epoch u.owner) (payOf codes)
  let unread := words.any (fun w => !u.written.contains w && (u.regionOf w == some 1 || u.regionOf w == some 2))
  let y : Int := (q.line / 2 ^ g.scale : Nat) + (d.dil * (d.oy + ky) : Nat) - (d.pt : Int)
  let old := match Tab.get none u.gillTop d.gd with
    | some t => 0 ≤ y && y + g.rows ≤ t
    | none => false
  let s := if unread then s.hazard site 8 q.stream q.fseq q.line else s
  let s := if old || srcs.contains .outside then s.hazard site 9 q.stream q.fseq q.line else s
  let s := s.modUnit site (fun u =>
    let r := Unit.portUse 64 u (match Tab.get [] u.gens gen with | x :: _ => x.at_ | [] => u.cyc) gen ((words.map u.bankOf).eraseDups)
    { r.1 with gens := Tab.set r.1.gens gen (match Tab.get [] r.1.gens gen with
        | x :: t => { x with at_ := r.2 + (if x.half then 2 else 1) } :: t | [] => []) })
  s.toSide site (gen = 1) f

/-- The first word a generator reads from `pos` on. -/
def Unit.genFirst (u : Unit) (q : GenSeq) (pos n : Nat) : Option Nat :=
  let d := Tab.get {} u.wins q.wd
  let g := Tab.get {} u.gills d.gd
  let k := max (d.kh * d.kw * d.cin) 1
  (List.range n).findSome? (fun i =>
    let step := (pos + i) % k
    let tap := step / max d.cin 1
    (List.range 32).findSome? (fun c =>
      match genSrc d g q.line (q.chunk + (pos + i) / k) (tap / max d.kw 1) (tap % max d.kw 1) (d.chan0 + step % max d.cin 1) c with
      | .byte w _ => some w
      | _ => none))

/-- A generator sends the next `n` flits of its sequence; a memory error met shows at its first read (R110). -/
def generatorSequence (site gen n : Nat) (ecc : Ecc) (s : State) : State :=
  let u := s.unit site
  match Tab.get [] u.gens gen with
  | [] => s
  | q :: rest =>
    if !s.mayIssue site then s
    else
      let d := Tab.get {} u.wins q.wd
      let total := q.nchunk * max (d.kh * d.kw * d.cin) 1
      let n := min n (total - q.pos)
      let s := match u.genFirst q q.pos n with
        | some w => if ecc == Ecc.bad then
              (s.modUnit site (fun v => { v with zeroed := w :: v.zeroed })).sramUe site w q.stream q.fseq q.line
            else s.wordRead site w ecc q.stream q.fseq q.line
        | none => s
      let s := (List.range n).foldl (fun s i => s.genFlit site gen q (q.pos + i)) s
      s.modUnit site (fun v => { v with
        gens := Tab.set v.gens gen
          (let at_ := match Tab.get [] v.gens gen with | x :: _ => x.at_ | [] => v.cyc
           -- a queued sequence starts in the cycle after the last flit (R271)
           if q.pos + n = total then
             (match rest with
              | [] => []
              | x :: t => { x with at_ := max x.at_ (if q.half then at_ - 1 else at_) } :: t)
           else { q with pos := q.pos + n, at_ := at_ } :: rest)
        zeroed := match u.genFirst q q.pos n with
          | some w => if ecc == Ecc.bad && u.regionOf w != some 1 && u.regionOf w != some 2 then v.zeroed.filter (fun x => x != w) else v.zeroed
          | none => v.zeroed })

def execGeneratorSequence (site : Site) (gen : Fin 2) (n : Fin 65) (ecc : Ecc) (s : State) : Host.Outcome State Fault Refusal :=
  .next (generatorSequence site gen n ecc s)

/-- The scrubber reads the next word of an S-unit on a grant of the service port (R108, R111); where a write has raced the read, its
write-back is discarded, and the word written reads as it was written. -/
def execScrubRead (site : Site) (ecc : Ecc) (raced : Bool) (s : State) : Host.Outcome State Fault Refusal :=
  .next (
    if !s.ready || !s.works site || kindOf site != .s then s
    else
      match s.useArb (.service site) 0 with
      | none => s
      | some s =>
        let u := s.unit site
        let s := (s.setUnit site { u with scrub := (u.scrub + 1) % 16384 }).wordRead site u.scrub ecc u.cur.stream u.cur.fseq u.line
        if raced then s.modUnit site (fun v => { v with zeroed := u.zeroed }) else s)

/-- A whole word comes through the service port: it counts as written (R109, Table 11-6). -/
def Unit.serve (u : Unit) (w : Nat) (v : BitVec 256) : Unit :=
  { u.setWide 5 w v with written := if u.written.contains w then u.written else w :: u.written }

/-- An access of the input that the service port's arbiter grants (R108, R109): a whole word is read or written. -/
def execServiceAccess (site : Site) (a : ServiceAcc) (s : State) : Host.Outcome State Fault Refusal :=
  .next (
    if !s.ready || !s.works site || kindOf site != .s then s
    else
      match s.useArb (.service site) a.input with
      | none => s
      | some s =>
        let u := s.unit site
        match a.data with
        | some v => s.setUnit site (u.serve a.word v)
        | none => s.wordRead site a.word a.ecc u.cur.stream u.cur.fseq u.line)

-- Statistics (R105, R199, R200, R268).

/-- The record flits of an M-unit: four channels of MAXABS and SATCOUNT each, up to its last parameter entry (log 28). -/
def Unit.recordPays (u : Unit) (set : Nat) : List (BitVec 256) :=
  let last := u.params.foldl (fun m (e : Nat × Param) => max m (e.1 + 1)) 0
  (List.range ((last + 3) / 4)).map (fun j => pay32 ((List.range 4).flatMap (fun i =>
    [Tab.get 0 u.maxabs (set + 4 * j + i), Tab.get 0 u.satcount (set + 4 * j + i)])))

/-- After a frame's last block has drained, an M-unit sends its record and clears the set (R103, R199). -/
def statsRecordSend (site : Nat) (s : State) : State :=
  let u := s.unit site
  match u.statsDue with
  | none => s
  | some (st, f8) =>
    let busy := u.drain.any (fun b => b.fseq == f8) || u.block.any (fun b => decide (b.k ≤ b.done) && b.req.isSome)
    if kindOf site != .m || !s.mayIssue site || busy then s
    else
      let set := f8 % 2 * 256
      let sum := ((List.range 256).map (fun c => Tab.get 0 u.satcount (set + c))).sum
      let s := if u.satLimit < sum then s.hazard site 10 st f8 u.line else s
      let u := s.unit site
      let clear := fun (t : List (Nat × Nat)) => Tab.drop (fun i => decide (set ≤ i) && decide (i < set + 256)) t
      let s := s.setUnit site { u with statsDue := none, maxabs := clear u.maxabs, satcount := clear u.satcount }
      match u.statsTo with
      | none => s
      | some (lane, kd) =>
        let k := u.key kd
        s.toLane site lane ((u.recordPays set).zipIdx.map (fun p : BitVec 256 × Nat =>
          mkFlit kData st f8 (k.1.getD 0) (k.2.1.getD 0 + p.2) (k.2.2.getD 0) (s.epoch u.owner) p.1))

def execStatsRecordSend (site : Site) (s : State) : Host.Outcome State Fault Refusal := .next (statsRecordSend site s)

/-- Merge a record flit into a bank: maximum and saturating sum, by channel (R200). -/
def Bank.merge (b : Bank) (f : Flit) : Bank :=
  let v := u32sOf f.pay
  (List.range 4).foldl (fun b i =>
    let c := (4 * flitChan f + i) % 256
    { b with maxabs := Tab.set b.maxabs c (max32 (Tab.get 0 b.maxabs c) (v.getD (2 * i) 0))
             sat := Tab.set b.sat c (min (Tab.get 0 b.sat c + v.getD (2 * i + 1) 0) 0xFFFFFFFF)
             channels := max b.channels (c + 1) }) b

/-- STATS: an M-unit's record routing; a V-unit merges its bound records and chooses its histogram channel (R268). -/
def State.statsOp (s : State) (site w : Nat) : State :=
  if kindOf site = .m then s.modUnit site (fun u => { u with statsTo := some (bits w 46 2, bits w 42 4) })
  else
    let s := (maskQueues (bits w 45 3)).foldl (fun s q =>
      match (s.unit site).bound q with
      | none => s
      | some e =>
        let s := if flitKind e.flit == kData then s.modUnit site (fun u => { u with bankA := u.bankA.merge e.flit }) else s
        s.useQ site q) s
    s.modUnit site (fun u => { u with histChan := bits w 37 8 })

def execStats (site : Site) (w : Waits) (s : State) : Host.Outcome State Fault Refusal :=
  .next (s.issue site w 0x15 always (fun _ => 1) (fun s w => s.statsOp site w))

-- Trees (R232-R237).

/-- The 32-bit word at a byte of the node memory, or of the streamed group. -/
def Unit.nodeWord (u : Unit) (streamed : Bool) (b : Nat) : Nat :=
  if streamed then bits (u.streamed.getD (b / 32) 0).toNat (8 * (b % 32)) 32
  else bits (Tab.get 0 u.mem (memAt 6 (b / 8))).toNat (8 * (b % 8)) 32

/-- Byte of a group: resident groups lie one after another, the streamed one stands alone. -/
def groupBase (g : Nat) : Nat := if g = 31 then 0 else 3072 * g

/-- The direction bit of a node word (R234). -/
def nodeDir (w x : Nat) (bitmap : Nat → Nat → Bool) : Bool :=
  let def_ := bit w 6
  if bit w 5 || isNan16 x then def_
  else if bit w 7 then
    match (f16inf x) with
    | some v => if 0 ≤ v && v < 256 then bitmap (bits w 16 5) v.toNat else def_
    | none => def_
  else !f16less x (bits w 16 16)
where
  /-- The integer a binary16 value equals; an infinity equals none. -/
  f16inf (x : Nat) : Option Int := if x % 0x8000 = 0x7C00 then none else (f16.dec x).isInt
  /-- IEEE 754 order, infinities as themselves. -/
  key (x : Nat) : Int := if 0x8000 ≤ x then -((x % 0x8000 : Nat) : Int) else x
  f16less (x y : Nat) : Bool := key x < key y

/-- Bit `v` of an extended node's bitmap (R233). -/
def Unit.extBit (u : Unit) (e v : Nat) : Bool :=
  bit (bits (Tab.get 0 u.mem (memAt 6 ((0xFC00 + 32 * e + v / 8) / 8))).toNat (8 * ((0xFC00 + 32 * e + v / 8) % 8)) 8) (v % 8)

/-- TCMP: the direction bits of a group's 512 comparators (R234). -/
def Unit.tcmp (u : Unit) (g : Nat) : Unit :=
  let st := decide (g = 31)
  { u with dirs := (List.range 8).map (fun t => (List.range 63).map (fun n =>
      let w := u.nodeWord st (groupBase g + 256 * t + 4 + 4 * n)
      nodeDir w (Tab.get 0x7E00 u.fv (bits w 8 8)) u.extBit)) }

/-- A T-unit reads its node memory for an operation on a group: a read that met an error has the effects of a TABLE word, and an
uncorrectable word reads as zeros (R110, R112). Groups lie in whole words, the extended nodes in the last 32. -/
def State.nodeRead (s : State) (site g : Nat) (ext : Bool) (ws : Waits) (op : Unit → Unit) : State :=
  let u := s.unit site
  let hit := (g != 31 && ws.eccAt.val / 96 == g) || (ext && decide (2016 ≤ ws.eccAt.val))
  let e := if hit then ws.ecc else .clean
  let v := op (if e == .bad then u.setWide 6 ws.eccAt 0 else u)
  (s.setUnit site { v with mem := u.mem }).wordRead site ws.eccAt e u.cur.stream u.cur.fseq u.line

def execTcmp (site : Site) (w : Waits) (s : State) : Host.Outcome State Fault Refusal :=
  .next (s.issue site w 0x16 (fun u x => bits x 43 5 != 31 || decide (96 ≤ u.streamed.length)) (fun _ => 1)
    (fun s x => s.nodeRead site (bits x 43 5) true w (fun u => u.tcmp (bits x 43 5))))

/-- The leaf of a tree from its direction bits (R235). -/
def leafOf (dirs : List Bool) : Nat :=
  ((List.range 6).foldl (fun (p : Nat × Nat) _ =>
    let b := if dirs.getD p.1 false then 1 else 0
    (2 * p.1 + 1 + b, 2 * p.2 + b)) (0, 0)).2

/-- TLEAF: the leaves of a group, added in tree order; padding trees add nothing (R235, R237). A streamed group is then done
with. -/
def Unit.tleaf (u : Unit) (g : Nat) : Unit :=
  let st := decide (g = 31)
  let acc := (List.range 8).foldl (fun t i =>
    let h := u.nodeWord st (groupBase g + 256 * i)
    if bit h 27 then t
    else
      let b := groupBase g + 2048 + 128 * i + 2 * leafOf (u.dirs.getD i [])
      let v := bits (u.nodeWord st (b / 4 * 4)) (8 * (b % 4)) 16
      let o := bits h 28 4
      Tab.set t o (add32 (Tab.get 0 t o) (to32 v))) u.tacc
  { u with tacc := acc, streamed := if st then u.streamed.drop 96 else u.streamed }

def execTleaf (site : Site) (w : Waits) (s : State) : Host.Outcome State Fault Refusal :=
  .next (s.issue site w 0x17 always (fun _ => 1) (fun s x => s.nodeRead site (bits x 43 5) false w (fun u => u.tleaf (bits x 43 5))))

end Sys2Proof.Machine
end

