-- ==== Sys2Proof/Machine/Lines.lean ====
section
/-! DEFINITION. Lines on their way in and out of the region: the stream P-unit, the Edge engine's conditioning, first layer and
splitting, paced sources and their prefetch, and the Tail engine's last layer and raster release (chapters 01, 02, 04, 07, 08,
11, 15; log 29). -/

namespace Sys2Proof.Machine

-- Admission (R137, R307, R312, R445).

/-- Whether a stream's group lets its lines on: its context runs or drains, nothing of the path is frozen, and no eclosion of
the stream's own is due. -/
def State.admits (s : State) (st : Nat) : Bool :=
  let x := s.strm st
  match x.ctx.bind s.ctx with
  | none => false
  | some c => !x.frozen && (c.state == .running || c.state == .stopping) && !c.ecl.any (fun e => decide (2 ≤ e.kind) && e.due)

/-- The frame of a buffered item. -/
def BufItem.fseq : BufItem → B16
  | .line l => l.fseq
  | .eof q => q

/-- The stream P-unit takes the oldest item of a stream buffer and carries it to the Edge engine. A frame of a SCHEDULED stream
waits in the buffer until the frame before it has left the Tail engine (R312). -/
def lineTake (st : Nat) (s : State) : State :=
  let x := s.strm st
  match x.buf with
  | [] => s
  | i :: t =>
    if x.source != 0 || !x.atEdge.isEmpty || !s.admits st || (x.scheduled && x.held.any (fun f => f != i.fseq)) then s
    else s.setStrm st { x with buf := t, atEdge := [i], held := if x.scheduled then some i.fseq else x.held }

def execLineTake (st : StreamId) (s : State) : Host.Outcome State Fault Refusal := .next (lineTake st s)

-- Padding and layers (R213, R214, R219).

/-- What a position outside 0 to n - 1 reads: an index, or the constant of its side. -/
inductive Padded where
  | ix (i : Nat)
  | val (v : Nat)
  deriving DecidableEq, Repr

def padRead (mode pad n : Nat) (p : Int) : Padded :=
  if mode = 0 then .val 0
  else if mode = 1 then .val pad
  else if mode = 2 then .ix (if p < 0 then (-p).toNat else (2 * (n : Int) - 2 - p).toNat)
  else .ix (if p < 0 then 0 else n - 1)

/-- A position on an axis of `n`, with the modes of its low and high sides. -/
def axisRead (mLo mHi pad n : Nat) (p : Int) : Padded :=
  if p < 0 then padRead mLo pad n p else if (n : Int) ≤ p then padRead mHi pad n p else .ix p.toNat

/-- The rows an output row's window reads on an axis of `n` rows, top first. -/
def layerRows (l : LayerDecl) (pad n r : Nat) : List Padded :=
  (List.range l.k).map (fun ky => axisRead l.mt l.mb pad n ((r + ky : Nat) - (l.pt : Int)))

/-- Whether every row an output row reads is there: `have_` says which are, and rows past the declared height wait for the end
of the frame (R214). -/
def layerReady (l : LayerDecl) (have_ : Nat → Bool) (height r : Nat) : Bool :=
  decide (r + l.k ≤ height + l.pt) && (layerRows l 0 height r).all (fun p => match p with | .ix i => have_ i | .val _ => true)

/-- Output rows of a layer over `n` input rows (R209). -/
def layerOutRows (l : LayerDecl) (n : Nat) : Nat := if n = 0 then 0 else n + l.pt + l.pb + 1 - l.k

/-- Output columns over `n` input columns, and the reverse. -/
def layerOutCols (l : LayerDecl) (n : Nat) : Nat := n + l.pl + l.pr + 1 - l.k

/-- One output value of a layer before quantisation: the products in the order of R183, then the bias (R192, R193). `read` gives
the channels of an input position in order. -/
def layerValue (l : LayerDecl) (read : Padded → Padded → List Nat) (pad n w r x c : Nat) : Nat :=
  let vals := (layerRows l pad n r).flatMap (fun py => (List.range l.k).flatMap (fun kx =>
    read py (axisRead l.ml l.mr pad w ((x + kx : Nat) - (l.pl : Int)))))
  add32 (dot16 0 vals (l.w.getD c [])) (l.bias.getD c 0)

-- The Edge engine (R52-R54, R115, R192, R198).

/-- G of a frame (R52). -/
def Head.frameGain (h : Head) (emb : List Bytes) : Nat :=
  if h.gainSrc == 1 then h.hostGain.getD h.gain
  else
    match emb with
    | [] => h.gain
    | b :: _ =>
      let o := h.pp 0x14C 2
      let v := 256 * byteAt b o + byteAt b (o + 1)
      if b.length < o + 2 || v = 0 || 0x7C00 ≤ v then h.gain else v

/-- The trim group of a stream's Edge engine output, with the trim accepted for it (R201, R203). -/
def State.edgeTrimOf (s : State) (st : Nat) : Option (Nat × Int) :=
  match (s.strm st).ctx.bind s.ctx with
  | none => none
  | some c => (s.sdecl st).edgeTrim.map (fun g => (g, Tab.get 0 c.trims g))

/-- The quantiser statistics of an Edge engine, by stream, FSEQ bit 0 and channel (R198). -/
def edgeStat (st f8 c : Nat) : Nat := st % 4 * 512 + f8 % 2 * 256 + c

/-- The first line of a frame enters the Edge engine: gain, black level, conditioning channels and trim are latched (R52-R54,
R203, R444), LIMITED is decided (Table 02-9), and the frame's statistics begin. `values` marks a Yallek peer's binary16 lines
(R399). The previous frame's gain of R52 is the one the head's Head Link latched last, for whichever of its streams (DESIGN CHOICE,
log 42: the spec speaks of the Head Link's gain and does not say per stream). -/
def State.latchEdge (s : State) (st : Nat) (fseq : B16) (values : Bool) : State :=
  let x := s.strm st
  let n := st / 4
  let h := s.head n
  let live := x.source == 0
  let use := h.usable && !values
  let info := x.info fseq
  let g := if live then h.frameGain ((info.map (fun i : FrameInfo => i.emb)).getD []) else h.hostGain.getD h.gain
  let s := if live && use then s.modHead n (fun y => { y with gain := g }) else s
  let limited := live && use && h.limit && h.lifeInForce && lt16 h.ceiling g
  let o := x.ctx.getD 0
  let (t, s) := match s.edgeTrimOf st with
    | some (i, t) => (t, s.latchTrim (0x400 + n) st fseq o i t)
    | none => (0, s)
  let slot := match s.ctx o with | some c => c.place.slot | none => 0
  let wear := match info with | some i => i.nwear | none => 0
  let s := s.modEdgeEng n (fun e =>
    let mine := fun (k : Nat) => decide (edgeStat st fseq.toNat 0 ≤ k) && decide (k < edgeStat st fseq.toNat 256)
    { e with maxabs := Tab.drop mine e.maxabs, sat := Tab.drop mine e.sat })
  s.modStrm st (fun y =>
    let y := y.modFrame fseq (fun i =>
      let i := { i with gain := if use then g else 0, variant := slot }
      if limited then i.flag .limited else i)
    { y with edge := some { fseq := fseq, trim := t
                            black := if use then h.black g else 0
                            nwear := if use then wear else 0
                            ngain := if use then to16 (div32 (to32 g) (to32 h.gainMax)) else 0 } })

/-- The binary16 rows of a line's raw channels, which lie one after another in the line; a missing pixel is the black level
(R32, R192). -/
def EdgeFrame.expand (e : EdgeFrame) (l : Line) (cin width : Nat) : List (List Nat) :=
  (List.range cin).map (fun i => (List.range width).map (fun j =>
    match l.codes[i * width + j]? with
    | none => 0
    | some c => if bit l.flags 4 then c.toNat else f16.enc ((Real2.int ((c.toNat : Int) - e.black)).scale (-16))))

/-- The stripes of a stream under its replica count: first and last-but-one column of each, halo included (R222). -/
def stripeSpans (halo outW : Nat) : Nat → Bool → List Nat → List (Nat × Nat)
  | _, _, [] => []
  | start, inner, w :: t =>
    let hi := start + w + (if t.isEmpty then 0 else halo)
    ((if inner then start - halo else start), min hi outW) :: stripeSpans halo outW (start + w) true t

/-- The owned widths in force for a stream (R222, R300). -/
def State.ownedWidths (s : State) (st : Nat) : List Nat :=
  let d := s.sdecl st
  match (s.strm st).ctx.bind s.ctx with
  | none => [d.width]
  | some c => match d.stripes.find? (fun e : Nat × List Nat => e.1 == c.place.replicas) with
    | some e => e.2
    | none => [d.width]

/-- Hand the flits of a stripe to the Edge engine's output. -/
def State.edgeSend (s : State) (st stripe : Nat) (fs : List Flit) : State :=
  let i := st % 4 * 8 + stripe
  s.modEdgeEng (st / 4) (fun e => { e with queues := Tab.set e.queues i (Tab.get [] e.queues i ++ fs) })

/-- Cut one output row of channels into its stripes' flits, channel by channel; `per` codes of `bits` bits fill a flit, and a
last chunk is filled up (R207, R222). -/
def State.splitRow (s : State) (st : Nat) (fseq : B16) (row per width fill : Nat) (chans : List (List Nat)) : State :=
  let ep := s.epoch ((s.strm st).ctx.getD 0)
  let outW := match chans with | c :: _ => c.length | [] => 0
  ((stripeSpans (s.sdecl st).halo outW 0 false (s.ownedWidths st)).zipIdx).foldl (fun s p =>
    let lo := p.1.1
    let hi := p.1.2
    let fs := (chans.zipIdx).flatMap (fun c => (List.range ((hi - lo + per - 1) / per)).map (fun j =>
      let v := (List.range per).map (fun i => if lo + per * j + i < hi then c.1.getD (lo + per * j + i) fill else fill)
      mkFlit kData st (fseq.toNat % 256) row c.2 j ep (BitVec.ofNat 256 (packBits (v.map (fun b => (width, b)))))))
    s.edgeSend st p.2 fs) s

/-- One output row of the Edge engine's layer: quantised, counted, split and sent. -/
def State.edgeRow (s : State) (st : Nat) (l : LayerDecl) (e : EdgeFrame) (n r : Nat) : State :=
  let w := (s.sdecl st).width
  let read := fun (py px : Padded) =>
    match py, px with
    | .ix y, .ix x =>
      let row := match e.rows.find? (fun q : Nat × List (List Nat) => q.1 == y) with | some q => q.2 | none => []
      (List.range l.cin).map (fun i => (row.getD i []).getD x 0) ++ [e.nwear, e.ngain]
    | .val v, _ => List.replicate (l.cin + 2) v
    | _, .val v => List.replicate (l.cin + 2) v
  let chans := (List.range l.cout).map (fun c => (List.range (layerOutCols l w)).map (fun x =>
    let y := (f32.dec (layerValue l read l.padc n w r x c)).scale (-(l.eo + e.trim) - l.sigma.getD c 0)
    (maxabs32 y, requant y l.zo l.u8)))
  let s := s.modEdgeEng (st / 4) (fun g => (chans.zipIdx).foldl (fun g p =>
    let k := edgeStat st e.fseq.toNat p.2
    { g with maxabs := Tab.set g.maxabs k ((p.1.map (fun v : Nat × Nat × Bool => v.1)).foldl max32 (Tab.get 0 g.maxabs k))
             sat := Tab.set g.sat k (min (Tab.get 0 g.sat k + (p.1.filter (fun v : Nat × Nat × Bool => v.2.2)).length) 0xFFFFFFFF) }) g)
  s.splitRow st e.fseq r 32 8 (uns 8 l.zo) (chans.map (fun c => c.map (fun v : Nat × Nat × Bool => v.2.1)))

/-- Send the output rows that are due: `ready` says whether row `r` may go. Rows the window has passed leave the gill. -/
def State.edgeRows (l : LayerDecl) (n : Nat) (ready : EdgeFrame → Nat → Bool) : Nat → Nat → State → State
  | 0, _, s => s
  | k + 1, st, s =>
    match (s.strm st).edge with
    | none => s
    | some e =>
      if ready e e.next then
        edgeRows l n ready k st ((s.edgeRow st l e n e.next).modStrm st (fun x =>
          { x with edge := some { e with next := e.next + 1, rows := e.rows.filter (fun q => decide (e.next + 1 ≤ q.1 + 2 * l.k)) } }))
      else s

/-- Whether a route of a stream ends where its lines leave the region: at a Tail engine, or at an outbound P-unit that the Mycelium
feeds (R113). -/
def State.hasTail (s : State) (st : Nat) : Bool :=
  match (s.strm st).ctx.bind s.ctx with
  | none => false
  | some c => c.place.ends.any (fun e => (e.kind == 1 || (e.kind == 2 && e.cut.isNone)) && !e.sends && e.stream == st)

/-- A frame's end-of-frame tag has passed the region: the faults that waited for it come (R110, R289), and a commanded variant
is due (Table 13-6). -/
def State.frameLeaves (s : State) (st : Nat) (fseq : B16) : State :=
  match (s.strm st).ctx with
  | none => s
  | some o =>
    let ue := match s.ctx o with | some c => c.ueFault.contains (st, fseq.toNat % 256) | none => false
    let s := s.modRunning o (fun c => { c with ueFault := c.ueFault.filter (fun e => e != (st, fseq.toNat % 256))
                                               ecl := c.ecl.map (fun e : Eclosion => { e with due := true }) })
    let haz := s.modes.hazFault && ((s.strm st).info fseq).any (fun i => i.has .hazard)
    let s := s.capFrameEnd st
    let s := if ue then s.faultCtx o .sramUe else if haz then s.faultCtx o .hazard else s
    s.modFrame st fseq (fun i => { i with tagOut := true })

/-- A line reaches the Edge engine. -/
def State.edgeLine (s : State) (st : Nat) (l : Line) : State :=
  let s := match (s.strm st).edge with
    | some e => if e.fseq == l.fseq then s else s.latchEdge st l.fseq (bit l.flags 4)
    | none => s.latchEdge st l.fseq (bit l.flags 4)
  let d := s.sdecl st
  let flag := l.flags % 16 != 0
  let s := s.modStrm st (fun x => { x with lineTags := x.lineTags ++ [(l.fseq, l.line, l.stamp, flag, l.supplied || bit l.flags 5)] })
  let s := if flag then s.modFrame st l.fseq (fun i => { i with marks := l.line :: i.marks }) else s
  match d.edge, (s.strm st).edge with
  | none, e =>
    -- a missing pixel is the black-level code (R32)
    let fill := match e with | some e => e.black | none => 0
    s.splitRow st l.fseq l.line 16 16 0 [(List.range d.width).map (fun j => (l.codes[j]?.map BitVec.toNat).getD fill)]
  | some y, some e =>
    let e := { e with rows := e.rows ++ [(l.line, e.expand l y.cin d.width)], got := l.line + 1 }
    let s := s.modStrm st (fun x => { x with edge := some e })
    State.edgeRows y d.height (fun e r => layerReady y (fun i => decide (i < e.got)) d.height r) d.height st s
  | some _, none => s

/-- A frame's end reaches the Edge engine: the rows that waited for it, then an end-of-frame flit for every stripe. -/
def State.edgeEof (s : State) (st : Nat) (fseq : B16) : State :=
  let d := s.sdecl st
  let s := match d.edge, (s.strm st).edge with
    | some y, some e => State.edgeRows y e.got (fun g r => decide (r < layerOutRows y g.got)) (d.height + 16) st s
    | _, _ => s
  let ep := s.epoch ((s.strm st).ctx.getD 0)
  let s := (List.range (s.ownedWidths st).length).foldl (fun s i =>
    s.edgeSend st i [mkFlit kEof st (fseq.toNat % 256) 0 0 0 ep 0]) s
  let s := s.modStrm st (fun x => { x with edge := none })
  if s.hasTail st then s
  else ((s.modStrm st (fun x =>
    { x with tailDone := if x.scheduled then some fseq else x.tailDone
             lineTags := x.lineTags.filter (fun t => t.1 != fseq) })).frameLeaves st fseq).modFrame st fseq (fun i => { i with out := true })

/-- The Edge engine admits the next item of a stream (R115, R137, R312). -/
def edgeAdmit (st : Nat) (s : State) : State :=
  let x := s.strm st
  match x.atEdge with
  | [] => s
  | i :: t =>
    if !s.admits st || (x.scheduled && x.held.any (fun f => f != i.fseq)) then s
    else
      let s := s.setStrm st { x with atEdge := t, held := if x.scheduled then some i.fseq else x.held }
      match i with
      | .line l => s.edgeLine st l
      | .eof q => s.edgeEof st q

def execEdgeLineAdmit (st : StreamId) (s : State) : Host.Outcome State Fault Refusal := .next (edgeAdmit st s)

-- Paced sources (R280, R378, R444, R445).

/-- The codes of the line that begins, and whether it is bad; none while a replay line is not there. -/
def Strm.pacedCodes (x : Strm) (width : Nat) : Option (List B16 × Bool) :=
  if x.source == 1 then x.prefetch.head?
  else
    match x.pattern with
    | some (p, seed) => some ((List.range width).map (fun j => Config.patternCode p seed.toNat x.paceFrame x.paceLine j), false)
    | none => some ((List.range width).map (fun j => Config.patternCode 0 0 x.paceFrame x.paceLine j), false)

/-- The line period of a paced stream expires (R280): a frame begins, a line begins, or a blanking line passes. -/
def pacedLine (st : Nat) (s : State) : State :=
  let x := s.strm st
  let d := s.sdecl st
  if x.source == 0 || !x.started || !s.admits st then s
  else if x.paceLine == 0 && x.stopNext then
    let s := s.endStream st
    match x.ctx with | some o => s.checkStopping o | none => s
  else if x.paceLine == 0 && !(x.admitting || x.startDue s.dtb.now) then s
  else if x.paceLine == 0 && x.scheduled && x.held.isSome then s
  else if d.height ≤ x.paceLine then
    let last := decide (d.frameLines ≤ x.paceLine + 1)
    s.setStrm st { x with paceLine := if last then 0 else x.paceLine + 1, paceFrame := if last then x.paceFrame + 1 else x.paceFrame }
  else
    match x.pacedCodes (d.width * (match d.edge with | some e => e.cin | none => 1)) with
    | none => match x.replay with
      | some r => s.setLate st r true
      | none => s
    | some (codes, bad) =>
      let fseq := BitVec.ofNat 16 x.paceFrame
      let x := { x with prefetch := if x.source == 1 then x.prefetch.drop 1 else x.prefetch }
      let x := if x.paceLine == 0 then
          ({ x with admitting := true, startAt := none } : Strm).addFrame (s.frameInfo st (st / 4) fseq false)
        else x
      let first := x.paceLine == 0
      let x := x.modFrame fseq (fun i =>
        let i := { i with lines := i.lines + 1, stamp := if first then s.dtb.now else i.stamp }
        let i := if bad then i.flag .dataErr else i
        if i.stepped then i.flag .timeStep else i)
      let item := BufItem.line { fseq := fseq, line := x.paceLine, stamp := s.dtb.now, codes := codes }
      let done := decide (d.height ≤ x.paceLine + 1)
      let wrap := done && decide (d.frameLines ≤ d.height)
      let lastFrame := match x.replay with
        | some r => x.source == 1 && !r.loop && decide (r.frames ≤ x.paceFrame + 1)
        | none => false
      let s := s.setStrm st { x with
        atEdge := x.atEdge ++ (if done then [item, BufItem.eof fseq] else [item])
        held := if x.scheduled then some fseq else x.held
        paceLine := if wrap then 0 else x.paceLine + 1
        paceFrame := if wrap then x.paceFrame + 1 else x.paceFrame }
      let s := if first then s.capFrameStart st fseq else s
      if done && (x.stopNext || lastFrame) then
        let s := s.endStream st
        match x.ctx with | some o => s.checkStopping o | none => s
      else s

def execPacedLineStart (st : StreamId) (s : State) : Host.Outcome State Fault Refusal := .next (pacedLine st s)

/-- Little-endian 16-bit codes of a replay line. -/
def codes16 : Bytes → List B16
  | a :: b :: t => BitVec.ofNat 16 (a.toNat + 256 * b.toNat) :: codes16 t
  | _ => []

/-- The address and length of the next line a replay stream prefetches: none when 4 are held, or past the last frame. -/
def State.nextReplayLine (s : State) (st : Nat) : Option (Replay × Nat × Nat) :=
  let x := s.strm st
  let d := s.sdecl st
  match x.replay with
  | none => none
  | some r =>
    if x.source != 1 || !x.started || 4 ≤ x.prefetch.length || r.frames == 0 || (!r.loop && decide (r.frames ≤ x.fetchFrame)) then none
    else some (r, r.src + x.fetchFrame % r.frames * r.frameBytes + x.fetchLine * d.width * 2, d.width * 2)

/-- A replay line enters the prefetch buffer, and the pace may go on (R138, R378). -/
def State.putReplay (s : State) (st : Nat) (r : Replay) (codes : List B16) (bad : Bool) : State :=
  let last := decide ((s.sdecl st).height ≤ (s.strm st).fetchLine + 1)
  let s := s.modStrm st (fun x => { x with
    prefetch := x.prefetch ++ [(codes, bad)]
    fetchLine := if last then 0 else x.fetchLine + 1
    fetchFrame := if last then x.fetchFrame + 1 else x.fetchFrame })
  if (s.strm st).late then s.setLate st r false else s

/-- A prefetch read of the store P-unit completes: a corrected burst counts, an uncorrectable one is delivered as zeros and its
frame will carry DATA_ERR (Table 15-3). -/
def replayPrefetch (st : Nat) (ecc : Ecc) (s : State) : State :=
  match s.nextReplayLine st with
  | none => s
  | some (r, a, n) =>
    if r.host || !s.ready then s
    else
      let k := a / 17179869184
      let lost := ecc == Ecc.bad || !s.stackOk k
      let b := Memory.readBytes s.hbm a n
      let hole := min n (64 - a % 64)
      let b := if lost then List.replicate hole 0 ++ b.drop hole else b
      let s := if lost then s.log .hbmUe inHbm (s.ctxFn (((s.strm st).ctx).getD 16)) k (a / 64 * 64)
        else if ecc == Ecc.corrected then s.hbmCe k else s
      s.putReplay st r (codes16 b) lost

def execReplayPrefetch (st : StreamId) (ecc : Ecc) (s : State) : Host.Outcome State Fault Refusal := .next (replayPrefetch st ecc s)

-- The Tail engine (R17, R117, R118, R193).

/-- Owned widths at the scale of a stream's output. -/
def State.tailWidths (s : State) (st : Nat) : List Nat :=
  let d := s.sdecl st
  (s.ownedWidths st).map (fun w => w * d.outWidth / max d.width 1)

/-- The codes of one input row of a stripe, by channel: columns from its first, halo included; codes not received are the zero
point. -/
def Strm.tailCode (x : Strm) (f8 stripe line chan col : Nat) : Option Nat :=
  match x.tailRows.find? (fun r => r.1 == stripe && r.2.1 == f8 && r.2.2.1 == line && r.2.2.2.1 == chan && r.2.2.2.2.1 == col / 32) with
  | some r => some (payByte r.2.2.2.2.2 (col % 32))
  | none => none

/-- A tag of a stripe's line, or of its frame's end (8191), has come. -/
def Strm.tailTag (x : Strm) (f8 stripe line : Nat) : Bool := x.tailTags.any (fun t => t.1 == stripe && t.2.1 == f8 && t.2.2 == line)

/-- Whether every stripe of an input line has arrived: all its chunks, or a tag behind it. -/
def State.tailHas (s : State) (st f8 line : Nat) : Bool :=
  let x := s.strm st
  let d := s.sdecl st
  let cin := match d.tailLayer with | some l => l.cin | none => d.outChans
  let per := match d.tailLayer with | some _ => 32 | none => 16
  let halo := match d.tailLayer with | some l => l.k / 2 | none => 0
  ((stripeSpans halo d.outWidth 0 false (s.tailWidths st)).zipIdx).all (fun p =>
    let got := x.tailRows.filter (fun r => r.1 == p.2 && r.2.1 == f8 && r.2.2.1 == line)
    x.tailTag f8 p.2 line || x.tailTag f8 p.2 8191 || decide (cin * ((p.1.2 - p.1.1 + per - 1) / per) ≤ got.length))

/-- One output line: the layer over each stripe's rows, planar by channel (R193, R219); with no layer the received 16-bit
samples (log 29). -/
def State.tailValues (s : State) (st f8 n r : Nat) : List B16 :=
  let x := s.strm st
  let d := s.sdecl st
  let own := s.tailWidths st
  match d.tailLayer with
  | none =>
    let spans := (stripeSpans 0 d.outWidth 0 false own).zipIdx
    (List.range d.outChans).flatMap (fun c => spans.flatMap (fun p => (List.range (p.1.2 - p.1.1)).map (fun j =>
      match x.tailRows.find? (fun q => q.1 == p.2 && q.2.1 == f8 && q.2.2.1 == r && q.2.2.2.1 == c && q.2.2.2.2.1 == j / 16) with
      | some q => BitVec.ofNat 16 (bits q.2.2.2.2.2.toNat (16 * (j % 16)) 16)
      | none => 0)))
  | some l =>
    let w := d.outWidth + l.k - 1 - l.pl - l.pr
    let spans := (stripeSpans (l.k / 2) w 0 false own).zipIdx
    let bare := (stripeSpans 0 d.outWidth 0 false own).zipIdx
    let trim := match (x.ctx.bind s.ctx) with
      | none => 0
      | some c =>
        let gs := c.place.image.decl.trims
        (((List.range gs.length).filter (fun i => (gs[i]?).any (fun g => g.consumers.contains (0x410 + d.tail, 0)))).map (fun i => x.trimFor f8 i)).sum
    let val := fun (c : Nat) => f16.enc ((Real2.int (codeInt l.u8In c - (if l.u8In then l.zIn - 128 else l.zIn))).scale (l.eIn + trim - l.eT))
    (List.range l.cout).flatMap (fun c => bare.flatMap (fun p => (List.range (p.1.2 - p.1.1)).map (fun j =>
      let lo := match spans[p.2]? with | some q => q.1.1 | none => 0
      let read := fun (py px : Padded) =>
        match py, px with
        | .ix y, .ix col => (List.range l.cin).map (fun i => match x.tailCode f8 p.2 y i (col - lo) with | some v => val v | none => 0)
        | .val v, _ => List.replicate l.cin v
        | _, .val v => List.replicate l.cin v
      let y := layerValue l read (val l.padc) n w r (p.1.1 + j) c
      BitVec.ofNat 16 (f16.enc ((f32.dec y).scale l.eT)))))

/-- Whether the output of a stream's Tail engine crosses to the other Field on its way to the Port die (R113). -/
def State.gated (s : State) (st : Nat) : Bool := s.part.variant.ports == 1 && decide (8 ≤ (s.sdecl st).tail)

/-- An output item leaves the region: to its output queue, or first into the output gate. -/
def Strm.send (gate : Bool) (o : OutLine) (x : Strm) : Strm :=
  if gate then { x with atGate := x.atGate ++ [o] } else { x with toOut := x.toOut ++ [o] }

/-- A line leaves the Tail engine for its output queue. -/
def State.releaseLine (s : State) (st f8 n r : Nat) : State :=
  let x := s.strm st
  let d := s.sdecl st
  let fseq := x.fullSeq f8
  let k := match d.tailLayer with | some l => l.k | none => 1
  let tag := x.lineTags.find? (fun t => t.1 == fseq && t.2.1 == r)
  let info := x.info fseq
  let stamp := match tag with
    | some t => t.2.2.1
    | none => match info with | some i => i.stamp | none => 0
  let o : OutLine := { fseq := fseq, line := r, stamp := stamp, vals := s.tailValues st f8 n r
                       flagged := tag.any (fun t => t.2.2.2.1), untimed := tag.any (fun t => t.2.2.2.2)
                       dataErr := info.any (fun i => i.has .dataErr) }
  s.setStrm st { x.send (s.gated st) o with
    tailNext := r + 1
    tailRows := x.tailRows.filter (fun q => q.2.1 != f8 || decide (r + 1 < q.2.2.1 + 2 * k + 1))
    lineTags := x.lineTags.filter (fun t => !(t.1 == fseq && decide (t.2.1 ≤ r))) }

/-- The end-of-frame tag leaves the Tail engine, or an outbound P-unit that the Mycelium feeds: the next frame's lines may follow, and
what waited for the tag comes (R17, R24, R110, R289). -/
def State.releaseEof (s : State) (st f8 : Nat) (gate : Bool) : State :=
  let x := s.strm st
  let fseq := x.fullSeq f8
  let o : OutLine := { fseq := fseq, line := x.tailNext, stamp := ((x.info fseq).map (fun i : FrameInfo => i.stamp)).getD 0, eof := true
                       dataErr := (x.info fseq).any (fun i => i.has .dataErr) }
  let s := s.setStrm st { x.send gate o with
    tailNext := 0
    tailRows := x.tailRows.filter (fun q => q.2.1 != f8), tailTags := x.tailTags.filter (fun t => t.2.1 != f8)
    lineTags := x.lineTags.filter (fun t => t.1 != fseq), tailDone := if x.scheduled then some fseq else x.tailDone }
  s.frameLeaves st fseq

/-- The Tail engine releases the next whole line of a stream in raster order once every stripe of it has arrived, or the
end-of-frame tag once it has come on every stripe (R17). -/
def tailRelease (st : Nat) (s : State) : State :=
  if (s.strm st).frozen || (s.strm st).ctx.isNone then s
  else
    let s := s.tailTake st
    let x := s.strm st
    let d := s.sdecl st
    match x.tailCur with
    | none => s
    | some f8 =>
      let l := d.tailLayer.getD { k := 1 }
      let eofs := (List.range (s.ownedWidths st).length).all (fun i => x.tailTag f8 i 8191)
      let n := (x.tailRows.filter (fun q => q.2.1 == f8)).foldl (fun m q => max m (q.2.2.1 + 1)) 0
      let s :=
        if eofs then
          if x.tailNext < layerOutRows l n then s.releaseLine st f8 n x.tailNext else s.releaseEof st f8 (s.gated st)
        else if layerReady l (fun i => s.tailHas st f8 i) d.height x.tailNext then s.releaseLine st f8 d.height x.tailNext
        else s
      s.tailTake st

def execTailLineRelease (st : StreamId) (s : State) : Host.Outcome State Fault Refusal := .next (tailRelease st s)

end Sys2Proof.Machine
end

