-- ==== Sys2Proof/Machine/Trees.lean ====
section
/-! DEFINITION. Statistics banks, model evaluation and scene selection (chapter 09, R24, R105; log 30). -/

namespace Sys2Proof.Machine

-- Models of a context.

/-- Model `m` of a context: as the image declares it, with the feature map and BASE last loaded (R246). -/
def Ctx.model (c : Ctx) (m : Nat) : Option ModelDecl :=
  match (Tab.get {} c.models m).decl with
  | some d => some d
  | none => c.place.image.decl.models[m]?

/-- The physical site of a virtual site of a placement. -/
def Placement.site (p : Placement) (v : Nat) : Option Nat := (p.map.find? (fun e : Nat × Nat => e.1 == v)).map (fun e => e.2)

/-- The site of statistics V-unit `i` of a context (R239). -/
def Ctx.statSite (c : Ctx) (i : Nat) : Option Nat := (c.place.image.decl.statsUnits[i]?).bind c.place.site

/-- The statistics V-units that a feature map names (Table 09-4). -/
def statUnits (d : ModelDecl) : List Nat :=
  ((d.features.filter (fun e => bits e 29 3 == 1)).map (fun e => bits e 19 5)).eraseDups

def Ctx.namedSites (c : Ctx) (d : ModelDecl) : List Nat := (statUnits d).filterMap (fun i => c.statSite i)

/-- The models that a stream's frames trigger and whose feature map names a site (R242). -/
def State.readersOf (s : State) (o st site : Nat) : List Nat :=
  match s.ctx o with
  | none => []
  | some c =>
    (List.range c.place.image.decl.models.length).filter (fun m =>
      match c.model m with
      | some d => d.triggers.contains (s.strm st).slotIx && (c.namedSites d).contains site
      | none => false)

def State.modModel (s : State) (o m : Nat) (f : ModelSt → ModelSt) : State :=
  s.modRunning o (fun c => { c with models := Tab.upd {} f c.models [m] })

/-- A model has no more to read of a frame: its banks lose it as a reader (R242). -/
def State.doneReading (s : State) (o m st f8 : Nat) : State :=
  match s.ctx o with
  | none => s
  | some c =>
    match c.model m with
    | none => s
    | some d => (c.namedSites d).foldl (fun s site => s.modUnit site (fun u =>
        { u with bankC := u.bankC.map (fun b : Bank =>
            if b.stream == st && b.fseq == f8 then { b with readers := b.readers.filter (fun r => r != m) } else b) })) s

/-- An evaluation is skipped: causes 0 NO_STATS, 1 OVERRUN, 2 MODEL_LOAD (R243, R244, R246). -/
def State.treeSkipped (s : State) (o m st : Nat) (fseq : B16) (cause : Nat) : State :=
  match s.ctx o with
  | none => s
  | some c =>
    let site := ((c.model m).bind (fun d : ModelDecl => c.place.site d.linkSite)).getD 0
    (s.log .treeSkipped (inField (fieldOfSite site)) c.fn st (packBits [(16, fseq.toNat), (8, cause), (8, m)])).doneReading o m st
      (fseq.toNat % 256)

/-- A load changes the feature map of a model whose evaluations wait: each goes on to read the new map's banks, if they are closed for its
frame, or is skipped with MODEL_LOAD (R242, R246; log 30). -/
def State.reloadModel (s : State) (o m : Nat) (new : ModelDecl) : State :=
  let old := match s.ctx o with | some c => (Tab.get ({} : ModelSt) c.models m).pending | none => []
  let s := old.foldl (fun s p => s.doneReading o m p.1 (p.2.toNat % 256)) s
  let s := s.modModel o m (fun x => { x with decl := some new, pending := [] })
  old.foldl (fun s p =>
    let f8 := p.2.toNat % 256
    let sites := match s.ctx o with | some c => c.namedSites new | none => []
    if sites.all (fun i => (s.unit i).bankC.any (fun b => b.stream == p.1 && b.fseq == f8)) then
      let s := sites.foldl (fun s i => s.modUnit i (fun u =>
        { u with bankC := u.bankC.map (fun b : Bank => { b with readers := (b.readers ++ [m]).eraseDups }) })) s
      s.modModel o m (fun x => { x with pending := x.pending ++ [p] })
    else s.treeSkipped o m p.1 p.2 2) s

/-- Every statistics V-unit of a model has closed or lost its bank for a frame: an evaluation is requested, or skipped (R242,
R243, R244, R246). -/
def State.requestEval (s : State) (o m st f8 : Nat) : State :=
  match s.ctx o with
  | none => s
  | some c =>
    match c.model m with
    | none => s
    | some d =>
      let sites := c.namedSites d
      let closed := fun (i : Nat) => (s.unit i).bankC.any (fun b => b.stream == st && b.fseq == f8)
      let lost := fun (i : Nat) => (s.unit i).statsLost.contains (st, f8)
      let fseq := (s.strm st).fullSeq f8
      if !sites.all (fun i => closed i || lost i) then s
      else if ((s.strm st).info fseq).any (fun i => i.has .dropped) then s.doneReading o m st f8
      else if sites.any lost then s.treeSkipped o m st fseq 0
      else if (Tab.get {} c.models m).loading then s.treeSkipped o m st fseq 2
      else
        let old := (Tab.get {} c.models m).pending.find? (fun p : Nat × B16 => p.1 == st)
        let s := match old with
          | some p => s.treeSkipped o m st p.2 1
          | none => s
        s.modModel o m (fun x => { x with pending := x.pending.filter (fun p => p.1 != st) ++ [(st, fseq)] })

/-- An end-of-frame tag closes a V-unit's statistics bank and opens the other; a bank not yet released keeps its place, and the
frame's statistics are lost (R105). -/
def statsBankClose (site : Nat) (s : State) : State :=
  let u := s.unit site
  match u.statsDue with
  | none => s
  | some (st, f8) =>
    if kindOf site != .v || !u.inCtx || u.frozen then s
    else
      let o := u.owner
      let held := match s.ctx o with
        | none => false
        | some c => match c.snap with
          | some n => n.next && n.stream == st && (List.range 32).any (fun i => n.vmask.getLsbD i && c.statSite i == some site)
          | none => false
      let readers := s.readersOf o st site
      let s :=
        if u.bankC.isSome || u.bankHeld then
          let s := s.setUnit site { u with statsDue := none, bankA := {}, statsLost := ((st, f8) :: u.statsLost).take 127 }
          s.log .statsLost (inField (fieldOfSite site)) (s.ctxFn o) (packBits [(16, site), (8, o)]) (packBits [(8, st), (8, f8)])
        else
          let b := { u.bankA with fseq := f8, stream := st, readers := readers }
          s.setUnit site { u with statsDue := none, bankA := {}, bankC := some b, lastClosed := some b, bankHeld := held
                                  statsLost := u.statsLost.filter (fun e => e != (st, f8)) }
      readers.foldl (fun s m => s.requestEval o m st f8) s

def execStatsBankClose (site : Site) (s : State) : Host.Outcome State Fault Refusal := .next (statsBankClose site s)

/-- The closed bank is released once every assembler has read it and no snapshot holds it (R105, R242, R456). -/
def execStatsBankRelease (site : Site) (s : State) : Host.Outcome State Fault Refusal :=
  .next (
    let u := s.unit site
    match u.bankC with
    | none => s
    | some b => if b.readers.isEmpty && !u.bankHeld then s.setUnit site { u with bankC := none } else s)

-- Feature assembly (R239, R240).

/-- binary16 of a source value times 2^SHIFT. -/
def featureOf (v : Real2) (shift : Int) : Nat := f16.enc (v.scale shift)

/-- A STAT source. -/
def Bank.quantity (b : Bank) (q c bin : Nat) : Real2 :=
  match q with
  | 0 => f32.dec (Tab.get 0 b.maxabs c)
  | 1 => Real2.int ((Tab.get (0 : Nat) b.sat c : Nat) : Int)
  | 2 => f32.dec (Tab.get 0 b.sum c)
  | 3 => Real2.int ((Tab.get (0 : Nat) b.hist bin : Nat) : Int)
  | _ => f32.dec (Tab.get 0 b.gap c)

/-- A FRAME source (Table 09-4). -/
def frameItem (i : FrameInfo) (h : Head) (n : Nat) : Real2 :=
  match n with
  | 0 => f16.dec i.gain
  | 1 => f16.dec i.nwear
  | 2 => (Real2.int h.temp).scale (-8)
  | 3 => Real2.int h.x
  | 4 => f32.dec h.g
  | 5 => f16.dec h.evLast
  | _ => f16.dec i.afConf

/-- The S-unit and first word of a row of an entity table. -/
def entityRow : List (Nat × Nat × Nat) → Nat → Option (Nat × Nat)
  | [], _ => none
  | p :: t, r => if r < p.2.2 then some (p.1, p.2.1 + 4 * r) else entityRow t (r - p.2.2)

def entityRows (e : EntityDecl) : Nat := (e.parts.map (fun p : Nat × Nat × Nat => p.2.2)).sum

/-- The key of an entity table for an evaluation; none where a REGION feature names no row (R240). -/
def State.entityKeyOf (s : State) (c : Ctx) (t st : Nat) (e : EntityDecl) (vec : List Nat) : Option Nat :=
  match e.key with
  | 0 => some (st / 4)
  | 1 => some st
  | 2 => some (s.head (st / 4)).lens.toNat
  | 3 =>
    let x := vec.getD e.feat 0x7E00
    if isNan16 x then none
    else match (f16.dec x).isInt with
      | some v => if 0 ≤ v && v < 65536 then some v.toNat else none
      | none => none
  | _ => some (Tab.get 0 c.keys t).toNat

/-- One column of the row that a table's key names, in binary16; missing where there is none. -/
def State.entityFeature (s : State) (c : Ctx) (t col st : Nat) (vec : List Nat) : Real2 :=
  match c.place.image.decl.entities[t]? with
  | none => .nan
  | some e =>
    match (s.entityKeyOf c t st e vec).bind (entityRow e.parts) with
    | none => .nan
    | some (v, w) =>
      match c.place.site v with
      | none => .nan
      | some site => f16.dec (bits ((s.unit site).load (w + col / 16)).toNat (16 * (col % 16)) 16)

/-- The feature vector of a model for a frame; ENTITY features come after the others, which a REGION key may read. -/
def State.assemble (s : State) (c : Ctx) (d : ModelDecl) (st : Nat) (fseq : B16) : List Nat :=
  let i := ((s.strm st).info fseq).getD { fseq := fseq }
  let h := s.head (st / 4)
  let one := fun (vec : List Nat) (e : Nat) =>
    let loc := bits e 0 24
    let v : Real2 := match bits e 29 3 with
      | 0 => f16.dec (bits loc 0 16)
      | 1 => match (c.statSite (bits loc 19 5)).bind (fun k => (s.unit k).bankC) with
        | some b => if b.stream == st && b.fseq == fseq.toNat % 256 then b.quantity (bits loc 16 3) (bits loc 8 8) (bits loc 0 8) else .nan
        | none => .nan
      | 2 => s.entityFeature c (bits loc 21 3) (bits loc 15 6) st vec
      | 3 => frameItem i h (bits loc 0 8)
      | _ => .nan
    featureOf v (sext 5 (bits e 24 5))
  let vec := d.features.map (fun e => if bits e 29 3 == 2 then 0x7E00 else one [] e)
  (d.features.zip vec).map (fun p : Nat × Nat => if bits p.1 29 3 == 2 then one vec p.1 else p.2)

-- Evaluation (R231-R238).

/-- The 32-bit words of group `g` of the `i`-th T-unit: from its node memory, or the S-unit that holds its streamed groups. -/
def State.treeWord (s : State) (c : Ctx) (d : ModelDecl) (i g b : Nat) : Nat :=
  let r := d.resident.getD i 0
  if g < r then
    match (d.chain[i]?).bind c.place.site with
    | some site => (s.unit site).nodeWord false (3072 * g + b)
    | none => 0
  else
    match d.streamed[i]? with
    | some (v, w) => match c.place.site v with
      | some site => bits ((s.unit site).load (w + 96 * (g - r) + b / 32)).toNat (8 * (b % 32)) 32
      | none => 0
    | none => 0

/-- One group of 8 trees adds its leaves to the accumulators in tree order, padding trees nothing (R234-R237). -/
def addGroup (rd : Nat → Nat) (ext : Nat → Nat → Bool) (vec acc : List Nat) : List Nat :=
  (List.range 8).foldl (fun acc t =>
    let hdr := rd (256 * t)
    if bit hdr 27 then acc
    else
      let dirs := (List.range 63).map (fun n =>
        let w := rd (256 * t + 4 + 4 * n)
        nodeDir w (vec.getD (bits w 8 8) 0x7E00) ext)
      let b := 2048 + 128 * t + 2 * leafOf dirs
      let v := bits (rd (b / 4 * 4)) (8 * (b % 4)) 16
      let k := bits hdr 28 4
      acc.set k (add32 (acc.getD k 0) (to32 v))) acc

/-- The raw outputs of a model: BASE, then every T-unit's groups in chain order. -/
def State.rawOutputs (s : State) (c : Ctx) (d : ModelDecl) (vec : List Nat) : List Nat :=
  (List.range d.chain.length).foldl (fun acc i =>
    let ext := fun (e v : Nat) => match (d.chain[i]?).bind c.place.site with
      | some site => (s.unit site).extBit e v
      | none => false
    (List.range (d.groups.getD i 0)).foldl (fun acc g => addGroup (fun b => s.treeWord c d i g b) ext vec acc) acc)
    ((List.range d.outputs).map (fun k => d.base.getD k 0))

/-- The largest of binary32 values. -/
def top32 : List Nat → Nat
  | [] => 0
  | a :: t => t.foldl (fun m x => if lt32 m x then x else m) a

/-- The link functions of R238. -/
def linkOut (link : Nat) (z : List Nat) : List Nat :=
  match link with
  | 1 => z.map (fun v => recip16 (to16 (add32 0x3F800000 (to32 (exp16 (to16 (f32.enc (f32.dec v).neg)))))))
  | 2 => z.map (fun v => exp16 (to16 v))
  | 3 =>
    let e := z.map (fun v => exp16 (to16 (sub32 v (top32 z))))
    let r := recip16 (to16 (sum32 0 (e.map to32)))
    e.map (fun v => to16 (mul32 (to32 v) (to32 r)))
  | _ => z.map to16

/-- The vector goes to a T-unit's features queue, 16 features per flit, where its program waits for it (R112, R239). -/
def State.sendFeatures (s : State) (o site st f8 : Nat) (vec : List Nat) : State :=
  let n := (vec.length + 15) / 16
  let u := s.unit site
  if !u.hasProg || 64 < (Tab.get [] u.queues 0).length + n then s
  else
    (List.range n).foldl (fun s i =>
      let p := packBits ((List.range 16).map (fun j => (16, vec.getD (16 * i + j) 0x7E00)))
      s.unitEnter site 0 o .clean (mkFlit kData st f8 0 i 0 (s.epoch o) (BitVec.ofNat 256 p)) none) s

/-- The sites whose memories an evaluation reads: the model's T-units, the S-units of its streamed groups and of the entity tables. -/
def Ctx.evalSites (c : Ctx) (d : ModelDecl) : List Nat :=
  (d.chain ++ d.streamed.map (fun e : Nat × Nat => e.1)
    ++ c.place.image.decl.entities.flatMap (fun e : EntityDecl => e.parts.map (fun p : Nat × Nat × Nat => p.1))).filterMap c.place.site

/-- The machine as an evaluation reads it: an uncorrectable word is zeros (R110). -/
def State.spoiled (s : State) (e : Option SramErr) : State :=
  match e with
  | some x => if x.ecc == .bad then s.modUnit x.site (fun u => u.setWide (if kindOf x.site = .t then 6 else 5) x.word 0) else s
  | none => s

/-- A model starts the pending evaluation of the highest stream id once the previous one has completed: the features are
assembled from the closed banks, and the banks are read (R242, R244). An error met in a TABLE word has the effects of R110. -/
def treeEvalStart (o m : Nat) (err : Option SramErr) (s : State) : State :=
  match s.ctx o with
  | none => s
  | some c =>
    match c.model m with
    | none => s
    | some d =>
      let x := Tab.get {} c.models m
      let sites := d.chain.filterMap c.place.site
      match x.pending with
      | [] => s
      | a :: t =>
        if x.running.isSome || sites.any (fun i => (s.unit i).frozen) then s
        else
          let p := t.foldl (fun (b : Nat × B16) (e : Nat × B16) => if b.1 < e.1 then e else b) a
          let err := err.filter (fun e => (c.evalSites d).contains e.site)
          let seen := s.spoiled err
          let vec := seen.assemble c d p.1 p.2
          let z := seen.rawOutputs c d vec
          let s := match err with
            | some e => s.wordRead e.site e.word e.ecc p.1 (p.2.toNat % 256) (s.unit e.site).line
            | none => s
          let s := s.modModel o m (fun y => { y with pending := y.pending.filter (fun e => e != p), running := some (p.1, p.2, z, d) })
          let s := sites.foldl (fun s i => s.sendFeatures o i p.1 (p.2.toNat % 256) vec) s
          s.doneReading o m p.1 (p.2.toNat % 256)

def execTreeEvalStart (o : Owner) (model : ModelRead) (s : State) : Host.Outcome State Fault Refusal :=
  .next (treeEvalStart o model.model.toNat model.err s)

-- Scene selection (R24, R248, R249).

/-- The output with the largest linked value, the lowest of equals, and that value. -/
def topClass (p : List Nat) : Nat × Nat :=
  ((p.zipIdx).foldl (fun (b : Nat × Nat) (e : Nat × Nat) => if lt16 b.2 e.1 then (e.2, e.1) else b) (0, p.getD 0 0))

/-- A frame of a stream is at or before the last one latched. -/
def Strm.isLate (x : Strm) (fseq : B16) : Bool :=
  match x.latched with
  | some l => (l - fseq).toNat < 32768
  | none => false

/-- The class of a posted result reaches a SCHEDULED stream: confidence, hold, and late handling (R248, R24). -/
def State.scenePost (s : State) (st : Nat) (fseq : B16) (p : List Nat) : State :=
  let x := s.strm st
  let (cls, v) := topClass p
  let n := match x.heldClass with
    | some (c, n) => if c == cls then n + 1 else 1
    | none => 1
  let sel := if lt16 v x.scene.confMin || x.runClass == some cls || n ≤ x.scene.hold then none else some cls
  let late := x.isLate fseq
  let s := s.setStrm st ({ x with heldClass := some (cls, n), posted := some (fseq, sel) }.modFrame fseq (fun i =>
    { i with scene := cls, dec := if late then orBit i.dec 3 else i.dec }))
  if late then
    s.log .sceneLate (inField (if (s.sdecl st).tail < 8 then 1 else 3)) (s.ctxFn (x.ctx.getD 16)) st
      (packBits [(16, fseq.toNat), (8, cls)])
  else s

/-- Whether a context has a softmax model of an index that a stream of a head triggers. -/
def State.classifies (s : State) (o m h : Nat) : Bool :=
  match s.ctx o with
  | none => false
  | some c =>
    match c.model m with
    | none => false
    | some d => d.link == 3 && (s.ctxStreams o).any (fun st => st / 4 == h && d.triggers.contains (s.strm st).slotIx)

/-- The context that holds a stream's scene source: the stream's own, where it has such a model, or the lowest other OWNER whose model of
that index a stream of the same head triggers (DESIGN CHOICE, log 30: a scene source is named by a model index alone). -/
def State.sceneSource (s : State) (st : Nat) : Option Nat :=
  let x := s.strm st
  match x.ctx with
  | none => none
  | some o => (o :: (List.range 16).filter (fun i => i != o)).find? (fun i => s.classifies i x.scene.model (st / 4))

/-- The SCHEDULED streams whose scene source is a model's evaluation: of a stream's own context only for its own frames. -/
def State.sceneStreams (s : State) (o m st : Nat) : List Nat :=
  ([0, 1, 2, 3].map (fun v => st / 4 * 4 + v)).filter (fun i =>
    let x := s.strm i
    x.scheduled && x.scene.model == m && s.sceneSource i == some o && (i == st || x.ctx != some o))

/-- The link V-unit posts a result of the model as it was when the evaluation started (R245): AE-T's EV waits for its exposure write, and a
softmax model's class for the latch; SC-T's outputs and class enter the frame's record. A frame that was dropped meanwhile leads to no
decision (R21). -/
def treeResultPost (o m : Nat) (s : State) : State :=
  match s.ctx o with
  | none => s
  | some c =>
    match (Tab.get {} c.models m).running with
    | some (st, fseq, z, d) =>
      if (c.place.site d.linkSite).any (fun i => (s.unit i).frozen) then s
      else
        let p := linkOut d.link z
        let s := s.modModel o m (fun y => { y with running := none })
        let dropped := ((s.strm st).info fseq).any (fun i => i.has .dropped)
        let s := s.modFrame st fseq (fun i =>
          if d.role == 0 then { i with evRaw := z.getD 0 0 } else if d.role == 1 then { i with linked := p, scene := (topClass p).1 } else i)
        if dropped then s
        else
          let s := if d.role == 0 then s.modHead (st / 4) (fun h => { h with evPosted := some (st, fseq, p.getD 0 0) }) else s
          if d.link == 3 then (s.sceneStreams o m st).foldl (fun s i => s.scenePost i fseq p) s else s
    | none => s

def execTreeResultPost (o : Owner) (model : B8) (s : State) : Host.Outcome State Fault Refusal :=
  .next (treeResultPost o model.toNat s)

/-- A latched class takes effect: the variant of its table entry ecloses, where it is staged and placed and not running already
(R24, R249, R310). -/
def State.switchTo (s : State) (st : Nat) (fseq : B16) (cls : Nat) : State :=
  let x := s.strm st
  match x.ctx with
  | none => s
  | some o =>
    match s.ctx o with
    | none => s
    | some c =>
      let e := ((x.scene.table[cls]?).map (fun b : B8 => b.toNat)).getD 255
      if e == 255 then s
      else if e == c.place.slot then s.modStrm st (fun y => { y with runClass := some cls })
      else
        match c.variants.find? (fun p => p.slot == e) with
        | some p =>
          if (s.slot e).state == .staged && c.ecl.isNone && (c.state == .running || c.state == .stopping) then
            s.setCtx o (some { c with ecl := some { kind := 3, place := p, cls := some cls } })
          else s.log .sceneUnstaged 16 c.fn st (packBits [(16, fseq.toNat), (8, e), (8, cls)])
        | none => s.log .sceneUnstaged 16 c.fn st (packBits [(16, fseq.toNat), (8, e), (8, cls)])

/-- Frame N's end-of-frame tag has left the Tail engine of a SCHEDULED stream: the selection posted is latched, and the next
frame's lines may follow unless an eclosion does (R24, R312). -/
def sceneLatch (st : Nat) (s : State) : State :=
  let x := s.strm st
  match x.tailDone with
  | none => s
  | some f =>
    let s := s.setStrm st { x with tailDone := none, latched := some f, posted := none, held := if x.held == some f then none else x.held }
    match x.posted with
    | none => s
    | some (p, sel) =>
      if (x.info p).any (fun i => i.has .dropped) || !x.scheduled then s
      else
        let s := s.modFrame st p (fun i => { i with dec := orBit i.dec 2 })
        match sel with
        | none => s
        | some cls => s.switchTo st f cls

def execSceneLatch (st : StreamId) (s : State) : Host.Outcome State Fault Refusal := .next (sceneLatch st s)

end Sys2Proof.Machine
end

