-- ==== Sys2Proof/Machine/Place.lean ====
section
/-! DEFINITION. Placement (R297-R301, R308, R320): the virtual sites an image uses at a replica count, the search for rows and
columns, and the laying of its routes (log 27). -/

namespace Sys2Proof.Machine

-- Virtual sites and replicas (R297, R300).

def vField (v : Nat) : Nat := v / 192
def vRow (v : Nat) : Nat := v % 192 / 16
def vCol (v : Nat) : Nat := v % 16
def vSite (f r c : Nat) : Nat := 192 * f + 16 * r + c

/-- Whether a virtual site lies in replica `j` of a scalable block. -/
def inReplica (b : ScaleDecl) (v j : Nat) : Bool :=
  let r : Int := b.r0 + j * b.dr
  let c : Int := b.c0 + j * b.dc
  vField v == b.vf && decide (r ≤ vRow v) && decide ((vRow v : Int) < r + b.rows) && decide (c ≤ vCol v) && decide ((vCol v : Int) < c + b.cols)

/-- The replica a virtual site belongs to; none is outside every block. -/
def replicaOf (m : Image) (v : Nat) : Option Nat :=
  m.decl.scales.findSome? (fun b => (List.range m.repMax).find? (fun j => inReplica b v j))

/-- The virtual sites that a section of one site and replica is written to with `n` replicas (R300, R301). -/
def siteTargets (m : Image) (n : Nat) (d : SiteDecl) : List Nat :=
  match m.decl.scales.find? (fun b => inReplica b d.vsite 0) with
  | some b =>
    let at' := fun (j : Nat) => ((d.vsite : Int) + j * (16 * b.dr + b.dc)).toNat
    if d.replica = 255 then (List.range n).map at' else if d.replica < n then [at' d.replica] else []
  | none =>
    match replicaOf m d.vsite with
    | some j => if j < n then [d.vsite] else []
    | none => [d.vsite]

-- Endpoints of routes (Table 12-6).

def isEnd (c : Nat) : Bool := bit c 15
def endKind (c : Nat) : Nat := bits c 12 3
def endSlot (c : Nat) : Nat := bits c 8 4
def endStripe (c : Nat) : Nat := bits c 0 8

/-- Whether an end of a route stays with `n` replicas (R301). -/
def endKept (m : Image) (n c : Nat) : Bool :=
  if isEnd c then decide (endStripe c < n) else match replicaOf m c with | some j => decide (j < n) | none => true

/-- The routes laid with `n` replicas. -/
def keptRoutes (m : Image) (n : Nat) : List RouteDecl :=
  m.decl.routes.filter (fun r => endKept m n r.src && endKept m n r.dst)

/-- The virtual sites an image uses with `n` replicas: those its sections name and those its routes start or end at. -/
def usedSites (m : Image) (n : Nat) : List Nat :=
  (m.decl.sites.flatMap (siteTargets m n)
    ++ (keptRoutes m n).flatMap (fun r => [r.src, r.dst].filter (fun c => !isEnd c))).eraseDups

-- The search of R298.

/-- The rows from `r0` on, not skipped, that match each virtual row in turn. -/
def pickRows (used : List Nat) (n r0 : Nat) (skip : List Nat) : Option (List Nat) :=
  let go := fun (a : Option (List Nat × Nat)) vr =>
    match a with
    | none => none
    | some (l, next) =>
      match (List.range 12).find? (fun p => decide (next ≤ p) && !skip.contains p
          && used.all (fun v => vRow v != vr || kindAt p (vCol v) == kindAt vr (vCol v))) with
      | none => none
      | some p => some (l ++ [p], p + 1)
  ((List.range n).foldl go (some ([], r0))).map (·.1)

/-- What an attempt at the columns gives: the columns, or the row of the first blocking site, if there is one. -/
inductive ColPick where
  | cols (l : List Nat)
  | blocked (row : Option Nat)
  deriving DecidableEq, Repr

/-- The columns for given rows. `free` says of a local row and column whether its site works and is free. -/
def pickCols (used : List Nat) (linked : List Nat) (free : Nat → Nat → Bool) (rows : List Nat) (n c0 : Nat) : ColPick :=
  let go := fun (a : ColPick × Nat) vc =>
    match a.1 with
    | .blocked _ => a
    | .cols l =>
      let vrs := (used.filter (fun v => vCol v == vc)).map vRow
      let row := fun vr => rows.getD vr 12
      let cands := (List.range 16).filter (fun c =>
        (if linked.contains vc then c == a.2 else decide (a.2 ≤ c)) && vrs.all (fun vr => kindAt (row vr) c == kindAt vr vc))
      match cands.find? (fun c => vrs.all (fun vr => free (row vr) c)) with
      | some c => (.cols (l ++ [c]), c + 1)
      | none => (.blocked (cands.head?.bind (fun c => ((vrs.map row).filter (fun r => !free r c)).min?)), 0)
  ((List.range n).foldl go (.cols [], c0)).1

/-- The loop of one origin: each blocked pass skips one row more. -/
def searchOrigin (used linked : List Nat) (free : Nat → Nat → Bool) (nr nc r0 c0 : Nat) : Nat → List Nat → Option (List Nat × List Nat)
  | 0, _ => none
  | k + 1, skip =>
    match pickRows used nr r0 skip with
    | none => none
    | some rows =>
      match pickCols used linked free rows nc c0 with
      | .cols cols => some (rows, cols)
      | .blocked none => none
      | .blocked (some r) => searchOrigin used linked free nr nc r0 c0 k (r :: skip)

/-- The mapping of one Field (R298). -/
def searchField (used linked : List Nat) (free : Nat → Nat → Bool) (nr nc : Nat) : Option (List Nat × List Nat) :=
  (List.range 192).findSome? (fun o => searchOrigin used linked free nr nc (o / 16) (o % 16) 13 [])

/-- Strictly increasing below a bound. -/
def rising (bound : Nat) : List Nat → Bool
  | [] => true
  | [a] => decide (a < bound)
  | a :: b :: t => decide (a < b) && rising bound (b :: t)

/-- Supplied lists against conditions 1 to 4 of R297 (R320). -/
def checkLists (used linked : List Nat) (free : Nat → Nat → Bool) (nr nc : Nat) (l : List Nat × List Nat) : Bool :=
  l.1.length == nr && l.2.length == nc && rising 12 l.1 && rising 16 l.2
    && used.all (fun v => kindAt (l.1.getD (vRow v) 12) (l.2.getD (vCol v) 16) == kindAt (vRow v) (vCol v)
          && free (l.1.getD (vRow v) 12) (l.2.getD (vCol v) 16))
    && linked.all (fun vc => l.2.getD vc 0 == l.2.getD (vc - 1) 0 + 1)

/-- The mapped rows and columns of each used Field. -/
abbrev Maps := List (Nat × List Nat × List Nat)

/-- Whether a virtual site lies in the rows and columns that an image's header gives its Field: no other has a place in the lists that
map it (R297). -/
def inGrid (m : Image) (v : Nat) : Bool :=
  bit m.fields (vField v) && decide (vRow v < m.vrows.getD (vField v) 0) && decide (vCol v < m.vcols.getD (vField v) 0)

/-- The mapping of every used Field, in ascending order; `free` takes a site. -/
def mapFields (m : Image) (n : Nat) (free : Nat → Bool) (lists : Option Lists) : Option Maps :=
  let used := usedSites m n
  if !used.all (inGrid m) then none
  else [0, 1, 2, 3].foldl (fun (a : Option Maps) f =>
    match a with
    | none => none
    | some l =>
      if !bit m.fields f then some l
      else
        let u := used.filter (fun v => vField v == f)
        let linked := (m.decl.sideLinks.filter (fun p => p.1 == f)).map (·.2)
        let base := (if 2 ≤ f then 384 else 0) + (if f % 2 = 1 then 16 else 0)
        let fr := fun r c => decide (r < 12) && decide (c < 16) && free (base + 32 * r + c)
        let nr := m.vrows.getD f 0
        let nc := m.vcols.getD f 0
        match lists with
        | none => (searchField u linked fr nr nc).map (fun x => l ++ [(f, x)])
        | some ls =>
          match (ls.find? (fun e => e.1 == f)).map (·.2) with
          | none => none
          | some x => if checkLists u linked fr nr nc x then some (l ++ [(f, x)]) else none) (some [])

-- Laying routes (R299).

/-- The entry of a list at an index, one step past its end for each index more. -/
def listAt (l : List Nat) (i : Nat) : Nat :=
  match l[i]? with
  | some x => x
  | none => l.getLast?.getD 0 + (i + 1 - l.length)

/-- The physical row and column of a virtual row and column of the whole virtual array; a Field the image does not use
stands for itself. -/
def physAt (maps : Maps) (vr vc : Nat) : Option (Nat × Nat) :=
  let f := 2 * (vr / 12) + vc / 16
  match maps.find? (fun e => e.1 == f) with
  | none => some (vr, vc)
  | some (_, rows, cols) =>
    let r := listAt rows (vr % 12)
    let c := listAt cols (vc % 16)
    if r < 12 ∧ c < 16 then some (12 * (vr / 12) + r, 16 * (vc / 16) + c) else none

def physSite (maps : Maps) (v : Nat) : Option (Nat × Nat) :=
  physAt maps (12 * (vField v / 2) + vRow v) (16 * (vField v % 2) + vCol v)

/-- The numbers stepped through from `a` to `b`, `a` itself left out. -/
def stepsTo (a b : Nat) : List Nat :=
  if a ≤ b then (List.range (b - a)).map (fun i => a + 1 + i) else (List.range (a - b)).map (fun i => a - 1 - i)

/-- The routers after `p` on the way to `q`, along the columns first or along the rows first. -/
def walkTo (p q : Nat × Nat) (colsFirst : Bool) : List (Nat × Nat) :=
  if colsFirst then (stepsTo p.2 q.2).map (fun c => (p.1, c)) ++ (stepsTo p.1 q.1).map (fun r => (r, q.2))
  else (stepsTo p.1 q.1).map (fun r => (r, p.2)) ++ (stepsTo p.2 q.2).map (fun c => (q.1, c))

/-- The routers of a route between units: each virtual hop straight to the next mapped site; a hop across a Field border goes
on in its direction to the destination's row or column and then turns (R299). -/
def hopPath (maps : Maps) : Nat → Nat → Nat × Nat → List Nat → Option (List (Nat × Nat))
  | _, _, _, [] => some []
  | vr, vc, p, d :: t =>
    let nr := if d = 0 then vr - 1 else if d = 2 then vr + 1 else vr
    let nc := if d = 1 then vc + 1 else if d = 3 then vc - 1 else vc
    if nr < 24 ∧ nc < 32 ∧ ¬(d = 0 ∧ vr = 0) ∧ ¬(d = 3 ∧ vc = 0) then
      match physAt maps nr nc with
      | none => none
      | some q => (hopPath maps nr nc q t).map (fun l => walkTo p q (d % 2 == 1) ++ l)
    else none

/-- Output direction from a router to its neighbour: 0 north, 1 east, 2 south, 3 west. -/
def dirOf (p q : Nat × Nat) : Nat := if q.1 < p.1 then 0 else if p.2 < q.2 then 1 else if p.1 < q.1 then 2 else 3

/-- What a placement is made for: the OWNER, the stream ids by stream slot, whether Port die B is there, and the entries and
gates that another context holds. -/
structure PlaceFor where
  owner : Nat
  strs : List Nat
  portB : Bool
  taken : List (Nat × Nat × Nat)
  takenGates : List Nat
  deriving DecidableEq, Repr

/-- Tail input ports chosen so far: stream slot, stripe, array row (R119; log 27). -/
abbrev TailPorts := List (Nat × Nat × Nat)

/-- The cut route that a route's endpoint is (R389). -/
def cutOf (m : Image) (c : Nat) (transmit : Bool) : Option CutDecl :=
  m.decl.link.bind (fun l => l.cuts.find? (fun x => x.endpoint == c && x.transmit == transmit))

/-- The router of an endpoint, given the other end (R115, R119, Table 04-6, R389; log 27). -/
def endRouter (m : Image) (k : PlaceFor) (ports : TailPorts) (c : Nat) (sends : Bool) (other : Option (Nat × Nat)) : Option (Nat × Nat) :=
  let sd := m.decl.streams.getD (endSlot c) {}
  let far := if k.portB && decide (8 ≤ sd.tail) then 12 else 0
  match endKind c with
  | 0 => if sends then some (edgeSite (k.strs.getD (endSlot c) 0 / 4) / 32, 0) else none
  | 1 =>
    if sends then none
    else
      let base := if 8 ≤ sd.tail then 12 else 0
      match ports.find? (fun p => p.1 == endSlot c && p.2.1 == endStripe c) with
      | some p => some (p.2.2, 31)
      | none => some (base + (match other with | some o => o.1 % 12 | none => endStripe c % 12), 31)
  | 2 =>
    match cutOf m c (!sends) with
    | some x => some ((if x.port < 2 then 0 else 12) + 4 + endSlot c % 4, 24)
    | none => if sends then none else some (far + 4 + endSlot c % 4, 24)
  | 3 =>
    let o := other.getD (0, 0)
    some (o.1 / 12 * 12 + 8, o.2 / 16 * 16 + 8)
  | _ => none

/-- The routers of a route, first to last; none where it cannot be laid inside the array. -/
def routePoints (m : Image) (k : PlaceFor) (maps : Maps) (ports : TailPorts) (r : RouteDecl) : Option (List (Nat × Nat)) :=
  if !isEnd r.src && !isEnd r.dst then
    let vr := 12 * (vField r.src / 2) + vRow r.src
    let vc := 16 * (vField r.src % 2) + vCol r.src
    match physSite maps r.src, physSite maps r.dst with
    | some p, some q =>
      match hopPath maps vr vc p r.path with
      | some l => if (p :: l).getLast? == some q then some (p :: l) else none
      | none => none
    | _, _ => none
  else
    let p0 := if isEnd r.src then none else physSite maps r.src
    let q0 := if isEnd r.dst then none else physSite maps r.dst
    let p := if isEnd r.src then endRouter m k ports r.src true q0 else p0
    let q := if isEnd r.dst then endRouter m k ports r.dst false p else q0
    match p, q with
    | some p, some q => some (p :: walkTo p q true)
    | _, _ => none

/-- A slot-table entry (Table 05-2). -/
def slotEntry (src owner lane queue : Nat) : B16 :=
  BitVec.ofNat 16 (packBits [(4, 0), (2, queue), (2, lane), (4, owner), (3, src), (1, 1)])

/-- The slot entries of a route (R299, R131): router `j` in slot s + j; `src` is the input the first router takes, `out` the
output of the last. -/
def routeEntries (owner lane queue slot src out : Nat) (pts : List (Nat × Nat)) : List (Nat × Nat × Nat × B16) :=
  (List.range pts.length).map (fun j =>
    let p := pts.getD j (0, 0)
    let i := if j = 0 then src else (dirOf (pts.getD (j - 1) (0, 0)) p + 2) % 4
    let o := if j + 1 = pts.length then out else dirOf p (pts.getD (j + 1) (0, 0))
    (32 * p.1 + p.2, o, (slot + j) % 64, slotEntry i owner (if i = 4 then lane else 0) (if o = 4 then queue else 0)))

/-- The Border Gates of a route. -/
def routeGates (pts : List (Nat × Nat)) : List Nat :=
  (pts.zip (pts.drop 1)).filterMap (fun e =>
    match lead (32 * e.1.1 + e.1.2) (dirOf e.1 e.2) with
    | .gate g => some g
    | _ => none)

/-- One route laid onto a placement, or why it cannot be (conditions of R297). The output of Tail engines 8 to 15 takes a gate of its own
where there is no Port die B (R113; log 26). -/
def layRoute (m : Image) (k : PlaceFor) (maps : Maps) (a : Placement × TailPorts) (r : RouteDecl) : Except Status (Placement × TailPorts) :=
  match routePoints m k maps a.2 r with
  | none => .error .slackExceeded
  | some pts =>
    if r.hops + 2 < pts.length - 1 then .error .slackExceeded
    else
      let edge := isEnd r.src && endKind r.src == 0
      let tail := isEnd r.dst && endKind r.dst == 1
      let es := routeEntries k.owner r.lane r.queue r.slot (if edge then 3 else 4) (if tail then 1 else 4) pts
      let out := if tail then (let t := (m.decl.streams.getD (endSlot r.dst) {}).tail; if !k.portB && decide (8 ≤ t) then [outGate t] else []) else []
      let gs := routeGates pts
      let first := pts.head?.getD (0, 0)
      let last := pts.getLast?.getD (0, 0)
      let site := 32 * first.1 + first.2
      let clash := es.any (fun e => k.taken.contains (e.1, e.2.1, e.2.2.1)
        || a.1.entries.any (fun x => x.1 == e.1 && x.2.1 == e.2.1 && x.2.2.1 == e.2.2.1 && x.2.2.2 != e.2.2.2))
      if clash || (gs ++ out).any k.takenGates.contains then .error .slotConflict
      else
        let stOf := fun c => k.strs.getD (endSlot c) 0
        let cutAt := fun c tr => (if endKind c == 2 then cutOf m c tr else none).map (fun x : CutDecl => (x.port, x.route))
        let p := a.1
        let sendEnd := if isEnd r.src then
            [({ site := site, slot := r.slot, sends := true, kind := endKind r.src, stream := stOf r.src, stripe := endStripe r.src
                cut := cutAt r.src false } : EndSlot)] else []
        let recvEnd := if isEnd r.dst then
            [({ site := 32 * last.1 + last.2, slot := (r.slot + (pts.length - 1)) % 64, sends := false, kind := endKind r.dst
                stream := stOf r.dst, stripe := endStripe r.dst, cut := cutAt r.dst true } : EndSlot)] else []
        let lanes := if edge then [] else gs.map (fun g => (g, site, r.lane))
        let cuts := match (if isEnd r.dst then cutAt r.dst true else none) with
          | some (p, _) => if edge then [] else [(p, site, r.lane)]
          | none => []
        let exch := if !isEnd r.src && !isEnd r.dst && m.decl.sites.any (fun d : SiteDecl => d.exchange.contains r.lane && (siteTargets m p.replicas d).contains r.src)
          then [(32 * last.1 + last.2, (r.slot + (pts.length - 1)) % 64, site, r.lane)] else []
        let fresh := es.filter (fun e => !p.entries.contains e)
        .ok ({ p with entries := p.entries ++ fresh, gates := (p.gates ++ gs ++ out).eraseDups
                      gateLanes := p.gateLanes ++ lanes, ends := p.ends ++ sendEnd ++ recvEnd, cutLanes := p.cutLanes ++ cuts
                      exch := p.exch ++ exch },
          if tail && !a.2.any (fun x => x.1 == endSlot r.dst && x.2.1 == endStripe r.dst)
          then a.2 ++ [(endSlot r.dst, endStripe r.dst, last.1)] else a.2)

/-- The routes of an image laid in their order; the first that cannot be gives the status. -/
def layRoutes (m : Image) (k : PlaceFor) (maps : Maps) (p : Placement) (rs : List RouteDecl) : Except Status Placement :=
  (rs.foldl (fun a r => match a with | .error e => .error e | .ok x => layRoute m k maps x r) (.ok (p, []) : Except Status (Placement × TailPorts))).map (·.1)

-- What a new placement may use.

/-- The placements that hold entries and gates for a context: in force, due, and its variants' (R308). -/
def Ctx.placements (c : Ctx) : List Placement :=
  (match c.ecl with | some e => [e.place] | none => []) ++ c.variants ++ [c.place]

/-- The running contexts but one. -/
def State.otherCtxs (s : State) (o : Nat) : List Ctx := (s.ctxs.filter (fun e : Nat × Option Ctx => e.1 != o)).filterMap (·.2)

/-- The sites that a context holds or has reserved. -/
def Ctx.heldSites (c : Ctx) : List Nat := c.region ++ c.placements.flatMap (fun p : Placement => p.map.map (·.2))

/-- The slot entries taken by others than OWNER `o`: laid for their placements, or written with their OWNER (R308, R321). -/
def State.takenEntries (s : State) (o : Nat) : List (Nat × Nat × Nat) :=
  ((s.otherCtxs o).flatMap (fun c => c.placements.flatMap (fun p : Placement => p.entries.map (fun e => (e.1, e.2.1, e.2.2.1)))))
    ++ s.routers.flatMap (fun r : Nat × Router => ((r.2.slots ++ r.2.patch).filter (fun e : Nat × B16 => slotValid e.2 && slotOwner e.2 != o)).map
        (fun e => (r.1, e.1 / 64, e.1 % 64)))

/-- The Border Gates taken by others. -/
def State.takenGates (s : State) (o : Nat) : List Nat :=
  ((s.otherCtxs o).flatMap (fun c => c.placements.flatMap (fun p : Placement => p.gates)))
    ++ Tab.keys s.gates (fun g => g.owner.any (fun x => x != o))

/-- Place an image for OWNER `o` with `n` replicas (R297-R301, R320): `only` limits the sites (a variant, R308), `first` is
tried before every other site (REPLACE, R317). -/
def State.placeImage (s : State) (o slot : Nat) (m : Image) (n : Nat) (strs : List Nat) (lists : Option Lists)
    (only first : Option (List Nat)) : Except Status Placement :=
  if n < m.repMin || m.repMax < n then .error .badParam
  else
    let held := (s.otherCtxs o).flatMap Ctx.heldSites
    let free := fun (lim : Option (List Nat)) site => s.works site && !held.contains site && (match lim with | some l => l.contains site | none => true)
    let near := match lists, first with
      | none, some l => mapFields m n (free (some l)) none
      | _, _ => none
    match near.or (mapFields m n (free only) lists) with
    | none => .error .noFit
    | some maps =>
      let k : PlaceFor := { owner := o, strs := strs, portB := s.part.variant.ports == 2, taken := s.takenEntries o, takenGates := s.takenGates o }
      let map' := (usedSites m n).filterMap (fun v => (physSite maps v).map (fun p : Nat × Nat => (v, 32 * p.1 + p.2)))
      layRoutes m k maps { slot := slot, image := m, replicas := n, map := map' } (keptRoutes m n)

end Sys2Proof.Machine
end

