-- ==== Sys2Proof/Machine/Contexts.lean ====
section
/-! DEFINITION. Contexts and eclosion (chapter 12): what Seal, Broadcast, Commit and Open write, Cocoon, aborts, REPLACE and
release. -/

namespace Sys2Proof.Machine

-- Broadcast (R300, R305, Table 12-3).

/-- Common sections less those that a replica's own of the same TYPE, TARGET and ADDR replace (R300). -/
def commonLess (own : List SiteDecl) (a : SiteDecl) : SiteDecl :=
  let like := own.filter (fun b : SiteDecl => b.vsite == a.vsite && b.addr == a.addr)
  let prog := like.any (fun b => b.hasProgram)
  let gen := like.any (fun b => !b.wins.isEmpty || !b.gills.isEmpty)
  { a with
    program := if prog then [] else a.program
    hasProgram := a.hasProgram && !prog
    keys := if like.any (fun b => !b.keys.isEmpty) then [] else a.keys
    wins := if gen then [] else a.wins
    gills := if gen then [] else a.gills
    params := if like.any (fun b => !b.params.isEmpty) then [] else a.params
    weights := if like.any (fun b => !b.weights.isEmpty) then [] else a.weights
    regions := a.regions.filter (fun r => !own.any (fun b : SiteDecl => b.vsite == a.vsite && b.regions.any (fun q => q.first == r.first)))
    tnode := if like.any (fun b => !b.tnode.isEmpty) then [] else a.tnode
    vtab := if like.any (fun b => b.vtab.isSome) then none else a.vtab }

/-- What an image writes to one virtual site at a replica count: the common sections that stay, then the replica's own. -/
def siteContent (m : Image) (n v : Nat) : List SiteDecl :=
  let ds := m.decl.sites.filter (fun d => (siteTargets m n d).contains v)
  let own := ds.filter (fun d => d.replica != 255)
  (ds.filter (fun d => d.replica == 255)).map (commonLess own) ++ own

/-- Words written at rising addresses of a unit memory. -/
def Unit.putWords (u : Unit) (sel first : Nat) (ws : List B64) : Unit :=
  { u with mem := (ws.zipIdx).foldl (fun m p => Tab.set m (memAt sel (first + p.2)) p.1) u.mem }

def Unit.putWide (u : Unit) (sel first : Nat) (ws : List (BitVec 256)) : Unit :=
  (ws.zipIdx).foldl (fun u p => u.setWide sel (first + p.2) p.1) u

/-- Entries written at rising numbers of a table. -/
def putAll {α : Type} (t : List (Nat × α)) (first : Nat) (l : List α) : List (Nat × α) :=
  (l.zipIdx).foldl (fun t p => Tab.set t (first + p.2) p.1) t

/-- The 8-byte words of a node memory section. -/
def nodeWords (b : Bytes) : List B64 := (List.range ((b.length + 7) / 8)).map (fun i => BitVec.ofNat 64 (fieldLe b (8 * i) 8))

/-- A site of the region receives sections at their word address: 32-byte words in the weight buffer and the node memory (log 9). Words
that no section names keep their values (R305). -/
def Unit.part (u : Unit) (d : SiteDecl) : Unit :=
  let told := (if d.wins.isEmpty && d.gills.isEmpty then [] else [2]) ++ (if d.params.isEmpty then [] else [3]) ++ (if d.vtab.isNone then [] else [7])
  let u := { u with mem := Tab.drop (fun i => told.contains (i / 2 ^ 24)) u.mem }
  let u := (((u.putWords 0 d.addr d.program).putWords 1 d.addr d.keys).putWide 4 d.addr d.weights).putWords 6 (4 * d.addr) (nodeWords d.tnode)
  let data := d.regions.filter (fun r => r.init)
  let u := data.foldl (fun u r => u.putWide 5 r.first r.data) u
  let ready := (data.filter (fun r => r.kind == 2)).flatMap (fun r => (List.range r.words).map (fun i => r.first + i))
  { u with
    hasProg := u.hasProg || d.hasProgram
    endW := if d.hasProgram then d.endW else u.endW, restart := if d.hasProgram then d.restart else u.restart
    wins := putAll u.wins 0 d.wins, gills := putAll u.gills 0 d.gills, params := putAll u.params d.addr d.params
    vtab := d.vtab.getD u.vtab
    regions := u.regions ++ d.regions.map (fun r : RegionDecl => (r.first, r.words, r.kind, r.bank)), written := u.written ++ ready
    zeroed := u.zeroed.filter (fun w => !data.any (fun r => decide (r.first ≤ w) && decide (w < r.first + r.data.length)))
    qbound := if d.qbound.isEmpty then u.qbound else putAll [] 0 d.qbound
    laneBound := if d.laneBound.isEmpty then u.laneBound else putAll [] 0 d.laneBound
    satLimit := d.satLimit.getD u.satLimit, codeW := u.codeW ++ d.codeW
    curStream := if d.stream = 0 then u.curStream else d.stream
    credits := u.credits ++ d.exchange.map (fun l => (l, 40)) }

/-- A site of the region is the context's, with what the sections of its image give it; `stream` takes a stream slot to its stream. -/
def Unit.write (u : Unit) (o : Nat) (stream : Nat → Nat) (ds : List SiteDecl) : Unit :=
  let v := ds.foldl Unit.part
    { u with inCtx := true, owner := o, hasProg := false, curStream := 0, regions := [], written := [], qbound := [], laneBound := []
             satLimit := 4294967295, codeW := [], credits := [], gillTop := [], eofSeen := [] }
  { v with curStream := stream v.curStream }

/-- The stream id bound to a stream slot of a context. -/
def State.slotStream (s : State) (o ix : Nat) : Nat :=
  ((s.ctxStreams o).find? (fun st => (s.strm st).slotIx == ix)).getD 0

/-- The stream ids of a context by stream slot. -/
def State.slotStreams (s : State) (o n : Nat) : List Nat := (List.range n).map (fun i => s.slotStream o i)

/-- The Broadcast phase: every section to its site. -/
def State.broadcast (s : State) (o : Nat) (p : Placement) : State :=
  { s with units := p.map.foldl (fun t e =>
      Tab.set t e.2 ((Tab.get {} t e.2).write o (s.slotStream o) (siteContent p.image p.replicas e.1))) s.units }

-- Commit.

/-- The gates and slot entries of a placement are a context's. -/
def State.layOut (s : State) (o : Nat) (p : Placement) : State :=
  let s := s.clearSlots o
  let s := { s with routers := p.entries.foldl (fun t (e : Nat × Nat × Nat × B16) =>
      let r : Router := Tab.get {} t e.1
      Tab.set t e.1 { r with slots := Tab.set r.slots (e.2.1 * 64 + e.2.2.1) e.2.2.2 }) s.routers }
  let s := { s with gates := Tab.mapVals (fun g : Gate => if g.owner == some o then { g with owner := none, source := none } else g) s.gates }
  { s with gates := p.gates.foldl (fun t g =>
      let x : Gate := Tab.get {} t g
      Tab.set t g { x with owner := some o, source := (p.gateLanes.find? (fun e : Nat × Nat × Nat => e.1 == g)).map (fun e => e.2) }) s.gates }

/-- The origins of a context's streams and ports belong to its group (R136, R361); a store P-unit's origin goes with the first
context that replays through it. What an origin requests stands (R138, R307). -/
def State.setOrigins (s : State) (o : Nat) : State :=
  let s := { s with origins := Tab.mapVals (fun x : Origin => if x.group == o then { x with en := false } else x) s.origins }
  let own := fun (s : State) i => s.modOrigin i (fun x => { x with group := o, en := true })
  let sts := s.ctxStreams o
  let s := sts.foldl (fun s st => own (own s (outOrigin st)) (replayOrigin st)) s
  let s := (sts.filter (fun st => (s.strm st).source == 1)).foldl (fun s st =>
    if (s.origin (storeField st)).en then s else own s (storeField st)) s
  (Tab.keys s.yports (fun y => y.owner == some o)).foldl (fun s p => own s (yOrigin p)) s

/-- A variant that declares no models or entity tables leaves the context's in place (R305; log 30). -/
def keepModels (old new : Image) : Image :=
  { new with decl := { new.decl with
      models := if new.decl.models.isEmpty then old.decl.models else new.decl.models
      entities := if new.decl.entities.isEmpty then old.decl.entities else new.decl.entities
      statsUnits := if new.decl.models.isEmpty then old.decl.statsUnits else new.decl.statsUnits } }

/-- Seal, Broadcast and Commit of an eclosion that has the broadcast port (Table 12-8; log 14). -/
def State.seal (s : State) (o : Nat) (c : Ctx) (e : Eclosion) : State :=
  let s := s.maskGroup o
  let s := { s with units := Tab.upd {} (fun u : Unit => { u with lanes := [], pipe := [], hold := [] }) s.units c.region }
  let s := { s with gates := Tab.mapVals (fun g : Gate => if g.owner == some o then { g with q := [], freed := 0, hold := false } else g) s.gates }
  let s := s.setEpoch o (s.epoch o + 1)
  let s := s.log .eclosionStart 16 c.fn o (packBits [(8, e.place.slot), (8, (s.epoch o).toNat), (8, e.kind)])
  let p := if 2 ≤ e.kind then { e.place with image := keepModels c.place.image e.place.image } else e.place
  let fresh := e.kind < 2 || !e.place.image.decl.models.isEmpty
  let s := (s.broadcast o p).layOut o p
  let s := s.setCtx o (some { c with
    state := .eclosing, ecl := some { e with started := true, place := p }, place := p, trims := [], bindEpoch := c.bindEpoch + 1
    models := if fresh then Tab.mapVals (fun m : ModelSt => { running := m.running }) c.models else c.models, ueFault := [] })
  let s := { s with streams := Tab.upd {} (fun x : Strm => { x with frameTrims := [] }) s.streams (s.ctxStreams o) }
  let s := if fresh then { s with units := Tab.upd {} (fun u : Unit =>
      { u with bankC := u.bankC.map (fun b : Bank => { b with readers := [] }) }) s.units c.region } else s
  s.setOrigins o

-- Stream binding (R303).

/-- A context's streams are unbound. -/
def State.unbindStreams (s : State) (o : Nat) : State :=
  { s with streams := Tab.mapVals (fun x : Strm => if x.ctx == some o then { x with ctx := none, frozen := false } else x) s.streams }

/-- Streams are bound to a context by its bind entries, one for each stream slot. -/
def State.bindStreams (s : State) (o : Nat) (bs : List Bind) : State :=
  (bs.zipIdx).foldl (fun s p => s.modStrm p.1.stream.toNat (fun x =>
    { x with ctx := some o, slotIx := p.2, source := p.1.source.toNat, route := p.1.route.toNat, routeIx := p.1.routeIndex.toNat
             paceFrame := 0, paceLine := 0, fetchFrame := 0, fetchLine := 0, prefetch := [] })) s

/-- Whether a stream descriptor allows a source mode (Table 12-3). -/
def sourceAllowed (d : StreamDecl) (src : Nat) : Bool :=
  match src with
  | 0 => d.live
  | 1 => d.replay
  | 2 => d.pattern
  | _ => false

def allDistinct (l : List Nat) : Bool := l.eraseDups.length == l.length

/-- The peers to which other contexts than `o` have links of a graph. -/
def State.graphPeers (s : State) (o : Nat) (graph : B32) : List Nat :=
  (s.otherCtxs o).flatMap (fun c : Ctx => match c.place.image.decl.link with
    | some l => if l.graph == graph then l.ports.map (fun e : Nat × Nat => e.2) else []
    | none => [])

/-- The links of an image: within the graph, no cycle with each other or with the bindings made, and no port that another context
uses (R389). -/
def State.linkOk (s : State) (o : Nat) (m : Image) : Bool :=
  match m.decl.link with
  | none => true
  | some l =>
    let peers := l.ports.map (fun e : Nat × Nat => e.2)
    decide (2 ≤ l.devices) && decide (l.devices ≤ 4) && decide (l.self < l.devices) && allDistinct (l.ports.map (fun e : Nat × Nat => e.1))
      && allDistinct peers && peers.all (fun d => decide (d < l.devices) && d != l.self && !(s.graphPeers o l.graph).contains d)
      && l.ports.all (fun e : Nat × Nat => match (s.yport e.1).owner with | some x => x == o | none => true)

/-- Whether bind entries bind every stream slot of an image for OWNER `o`: allowed source modes, each stream and each ST 2110 sender
once and in no other context (R303, R405), and the links of R389. -/
def State.bindsOk (s : State) (o : Nat) (m : Image) (bs : List Bind) : Bool :=
  let senders := (bs.filter (fun b : Bind => b.route == 1)).map (fun b : Bind => b.routeIndex.toNat)
  bs.length == m.streams && (bs.zipIdx).all (fun p : Bind × Nat => sourceAllowed (m.decl.streams.getD p.2 {}) p.1.source.toNat)
    && allDistinct (bs.map (fun b : Bind => b.stream.toNat)) && allDistinct senders
    && bs.all (fun b : Bind => match (s.strm b.stream.toNat).ctx with | some x => x == o | none => true)
    && !s.streams.any (fun e : Nat × Strm => e.2.ctx.any (fun x => x != o) && e.2.route == 1 && senders.contains e.2.routeIx)
    && s.linkOk o m

/-- A context has the Yallek ports of its image and no others; a port that stays in one graph keeps its binding (R389, R390). -/
def State.takePorts (s : State) (o : Nat) (old new : Option LinkDecl) : State :=
  let ports := match new with | some l => l.ports.map (fun e : Nat × Nat => e.1) | none => []
  let same := old.map (fun l : LinkDecl => l.graph) == new.map (fun l : LinkDecl => l.graph)
  let gone := Tab.keys s.yports (fun y => y.owner == some o)
  let s := (gone.filter (fun p => !same || !ports.contains p)).foldl (fun s p => (s.unbindPort p).modYport p (fun y => { y with owner := none })) s
  ports.foldl (fun s p => s.modYport p (fun y => { y with owner := some o })) s

-- REPLACE (R317).

/-- A REPLACE whose context is empty: the new image is placed, the region's own sites first, and its eclosion waits for the
port. -/
def State.startReplace (s : State) (o : Nat) : State :=
  match s.ctx o with
  | none => s
  | some c =>
    match c.replace with
    | none => s
    | some r =>
      let s := s.setCtx o (some { c with replace := none })
      match (s.slot r.slot).image with
      | none => s.finish r.pkt false .badState
      | some m =>
        if !s.bindsOk o m r.binds then s.finish r.pkt false .badParam
        else
          let strs := r.binds.map (fun b => b.stream.toNat)
          match s.placeImage o r.slot m r.replicas strs r.lists none (some c.region) with
          | .error st => s.finish r.pkt false st
          | .ok p =>
            let s := ((s.unbindStreams o).bindStreams o r.binds).takePorts o c.place.image.decl.link m.decl.link
            let sites := p.map.map (fun e => e.2)
            s.modRunning o (fun c => { c with
              replace := none, state := .eclosing, variants := [], region := (c.region ++ sites).eraseDups
              ecl := some { kind := 1, place := p, pkt := some r.pkt, dest := r.dest, binds := r.binds } })

/-- An eclosion is granted the broadcast port by its arbiter (R157), which serves one eclosion at a time: Seal, Broadcast and Commit
(R304). A REPLACE
of a context that has entered FAULT is placed first. -/
def eclosionStart (o : Nat) (s : State) : State :=
  let s := match s.ctx o with
    | some c => if c.state == CtxState.fault && c.ecl.isNone then s.startReplace o else s
    | none => s
  match s.ctx o with
  | none => s
  | some c =>
    match c.ecl with
    | none => s
    | some e =>
      let held := s.ctxs.any (fun x : Nat × Option Ctx => match x.2 with | some y => y.ecl.any (fun z : Eclosion => z.started) | none => false)
      if e.started || !e.due || held || (s.field 0).down then s
      else
        -- a grant whose eclosion an ABORT or a release has ended is over
        let s := s.modArb (arbCode .broadcast) (fun x => if x.holder == some o || x.holder.isNone then x else x.free)
        match s.holdArb .broadcast o with
        | some s => s.seal o c e
        | none => s

def execEclosionStart (o : Owner) (s : State) : Host.Outcome State Fault Refusal := .next (eclosionStart o s)

-- Release (R319).

/-- A released site: every word of its memories is zero, and it belongs to no context. -/
def Unit.release (u : Unit) : Unit :=
  { u with inCtx := false, owner := 0, frozen := false, hasProg := false, endW := 1023, restart := 0, curStream := 0
           queues := [], lanes := [], pipe := [], side := [], hold := [], credits := [], block := none, drain := none, gens := []
           rot := none, backs := [], port := [], pairs := [], codeW := [], gapEofs := []
           mem := [], params := [], wins := [], gills := [], vtab := {}, regions := [], zeroed := [], written := []
           qbound := [], laneBound := [], satLimit := 4294967295, bankA := {}, bankC := none, bankHeld := false, lastClosed := none
           statsDue := none, statsTo := none }

/-- The new epoch's BINDs go out on every port of a MULTI_CHIP image (R390). -/
def State.bindPorts (s : State) (o : Nat) : State :=
  (Tab.keys s.yports (fun y => y.owner == some o && y.up)).foldl (fun s p => s.sendBind p o) s

/-- Open of a unit: queues, accumulators, drain set, generators and freeze register cleared, program counter 0, the state of
Table 10-1 and the live counters at their values after eclosion. -/
def Unit.open (u : Unit) : Unit :=
  { u.progReset.clearLive with lastClosed := none, statsLost := [], queues := [], block := none, drain := none, gens := [], pairs := [], side := [], frozen := false
                               halted := false, backs := [] }

/-- An entry put into a list in ascending order of its first part, behind its equals. -/
def insertSite (e : Nat × Nat) : List (Nat × Nat) → List (Nat × Nat)
  | [] => [e]
  | x :: t => if e.1 < x.1 then e :: x :: t else x :: insertSite e t

/-- The list CONTEXT_LOAD writes: a virtual and a physical site for each used virtual site, in ascending virtual site (R342). -/
def siteList (p : Placement) : Bytes :=
  (p.map.foldl (fun l e => insertSite e l) []).flatMap (fun e => toLe 2 e.1 ++ toLe 2 e.2)

/-- The result of a command goes to host memory, or for a CSPI packet into the result buffer of 4,096 bytes (R332); whether it
was cut. -/
def State.deliver (s : State) (k : Pkt) (dest : B64) (b : Bytes) : Bool × State :=
  if k.cspi then (decide (4096 < b.length), { s with cspi := { s.cspi with result := b.take 4096 } })
  else (false, s.hostWrite dest b)

/-- An ABORT of a context outside an eclosion (R315): one in FAULT completes at once, with nothing more to clear. -/
def State.abortCtx (s : State) (o cause flush : Nat) : State :=
  match s.ctx o with
  | none => s
  | some c =>
    match c.state with
    | .fault | .aborting | .releasing | .eclosing => s
    | _ => (s.clearContext o cause flush).modRunning o (fun c => { c with state := .aborting, cause := cause })

/-- What waited for Open: an ABORT or FLR, or a fault (R315, R316). The commands of an ABORT end with it; in FAULT, at once. -/
def State.afterOpen (s : State) (o : Nat) : State :=
  match s.ctx o with
  | none => s
  | some c =>
    match c.abortPend with
    | none => s
    | some cause =>
      if c.faulting then
        let s := s.setCtx o (some { c with abortPend := none, faulting := false, abortPkts := [] })
        let s := s.clearContext o cause 1
        let s := (s.modRunning o (fun c => { c with state := .fault, cause := cause })).logCtx .contextFault o c.place.slot cause c.fn
        c.abortPkts.foldl (fun s k => s.finish k true .ok) s
      else (s.setCtx o (some { c with abortPend := none })).abortCtx o cause (if cause == Cause.flr.code then 2 else 1)

/-- The sites of an opened eclosion run (Table 12-8). A variant keeps the region: a site it does not map runs no program and keeps its
words (R302, R305); the sites that a REPLACE gives up are freed (R317). -/
def State.openSites (s : State) (o : Nat) (c : Ctx) (sites : List Nat) (variant : Bool) : State :=
  let rest := c.region.filter (fun i => !sites.contains i)
  let s := { s with units := Tab.upd {} Unit.open s.units sites }
  let s := { s with units := Tab.upd {} (fun u : Unit => if variant then { u.open with hasProg := false } else u.release) s.units rest }
  let s := { s with gates := Tab.mapVals (fun g : Gate => if g.owner == some o then { g with frozen := false } else g) s.gates }
  s.modGroup o (fun g => { g with masked := false })

/-- The scene class that selected what now runs: none where a command did (R248). -/
def State.startClass (s : State) (sts : List Nat) (cls : Option Nat) : State :=
  { s with streams := Tab.upd {} (fun x : Strm => { x with runClass := cls }) s.streams sts }

/-- The reply of the command that asked for the eclosion. -/
def State.eclosionReply (s : State) (o : Nat) (c : Ctx) (e : Eclosion) : State :=
  match e.pkt with
  | none => s
  | some k =>
    if e.kind == 2 then s.finish k true .ok [(s.epoch o).toNat]
    else
      let r := s.deliver k e.dest (siteList c.place)
      r.2.finish k false (if r.1 then .truncated else .ok) [o, (s.epoch o).toNat]

/-- Open ends (Table 12-8): the context is RUNNING or in COCOON, the command replies, and what waited takes effect. -/
def eclosionDone (o : Nat) (s : State) : State :=
  match s.ctx o with
  | none => s
  | some c =>
    match c.ecl with
    | none => s
    | some e =>
      if !e.started then s
      else
        let sites := c.place.map.map (fun x => x.2)
        let s := (s.openSites o c sites (decide (2 ≤ e.kind))).freeArb .broadcast o
        let sts := s.ctxStreams o
        let live := sts.any (fun st => (s.strm st).started)
        let s := s.setCtx o (some { c with state := if live then .running else .cocoon, opened := true, ecl := none
                                           region := if 2 ≤ e.kind then c.region else sites
                                           cause := 0 })
        let s := s.log .eclosionDone 16 c.fn o (packBits [(8, c.place.slot), (8, (s.epoch o).toNat), (8, e.kind)])
        let s := (s.startClass sts e.cls).bindPorts o
        let s := s.eclosionReply o c e
        if live then (s.checkStopping o).afterOpen o else s.afterOpen o

def execEclosionDone (o : Owner) (s : State) : Host.Outcome State Fault Refusal := .next (eclosionDone o s)

/-- The counting window of a region's last frame before Cocoon ended with its end-of-frame entry (R279). -/
def Unit.cocoon (u : Unit) : Unit :=
  match u.winEof with
  | some w => { u with fc := if u.winFirst || !u.winBase.valid then u.fc else w, winBase := { u.winBase with valid := false }, winEof := none }
  | none => u

/-- The region of a STOPPING context is empty (R314); a REPLACE that waited for it goes on. -/
def contextCocoon (o : Nat) (s : State) : State :=
  match s.ctx o with
  | none => s
  | some c =>
    if c.state != .stopping || !s.regionEmpty o || ((s.group o).asserted && !(s.group o).masked) then s
    else
      let s := { s with units := Tab.upd {} Unit.cocoon s.units c.region }
      let s := (s.setCtx o (some { c with state := .cocoon, models := Tab.mapVals (fun m : ModelSt => { m with running := none, pending := [] }) c.models
        })).logCtx .contextCocoon o c.place.slot 0 c.fn
      s.startReplace o

def execContextCocoon (o : Owner) (s : State) : Host.Outcome State Fault Refusal := .next (contextCocoon o s)

/-- An aborted region is empty (R315): the group is unmasked, the context is in COCOON, or goes on to its release after FLR
(R318); the commands that asked for the abort are done. -/
def contextAborted (o : Nat) (s : State) : State :=
  match s.ctx o with
  | none => s
  | some c =>
    if c.state != .aborting then s
    else
      let s := (s.modGroup o (fun g => { g with masked := false })).setCtx o
        (some { c with state := if c.releaseAfter then .releasing else .cocoon, cause := 0, abortPkts := [] })
      let s := s.logCtx .contextAborted o c.place.slot c.cause c.fn
      let s := c.abortPkts.foldl (fun s k => s.finish k true .ok) s
      if c.releaseAfter then s else s.startReplace o

def execContextAborted (o : Owner) (s : State) : Host.Outcome State Fault Refusal := .next (contextAborted o s)

/-- Release ends (R319): the region's words are zero, and slot entries, gates, streams, ports, origins and the OWNER number are
free. -/
def contextReleased (o : Nat) (s : State) : State :=
  match s.ctx o with
  | none => s
  | some c =>
    if c.state != .releasing then s
    else
      let s := { s with units := Tab.upd {} Unit.release s.units c.region }
      let s := s.clearSlots o
      let s := { s with gates := Tab.mapVals (fun g : Gate => if g.owner == some o then {} else g) s.gates }
      let s := (Tab.keys s.yports (fun y => y.owner == some o)).foldl (fun s p =>
        (s.unbindPort p).modYport p (fun y => { y with owner := none })) s
      let s := s.unbindStreams o
      let s := { s with origins := Tab.mapVals (fun x : Origin => if x.group == o then { x with en := false, req := false, group := 0 } else x) s.origins }
      let s := s.modGroup o (fun g => { g with asserted := false, masked := false, minHold := false })
      let s := s.logCtx .contextReleased o c.place.slot 0 c.fn
      let s := s.setCtx o none
      match c.unload with
      | some k => s.finish k false .ok
      | none => s

def execContextReleased (o : Owner) (s : State) : Host.Outcome State Fault Refusal := .next (contextReleased o s)

/-- ECLOSE_TIMEOUT passes before a REPLACE's region is empty: it completes with STALLED, and its stop stays in force (R317). -/
def ecloseTimeout (o : Nat) (s : State) : State :=
  match s.ctx o with
  | none => s
  | some c =>
    match c.replace with
    | none => s
    | some r =>
      if c.state == .cocoon || c.state == .fault then s
      else (s.setCtx o (some { c with replace := none })).finish r.pkt false .stalled

def execEcloseTimeout (o : Owner) (s : State) : Host.Outcome State Fault Refusal := .next (ecloseTimeout o s)

end Sys2Proof.Machine
end

