-- ==== Sys2Proof/Machine/Ports.lean ====
section
/-! DEFINITION. What flits do at the array's ports: P-units, the HBM output rings they keep, and the ejection of a flit into its queue;
and the release of a freeze (R93, R113, R119, R137, R143, R379, R391). -/

namespace Sys2Proof.Machine

/-- The address of an HBM byte's stack (R375). -/
def stackAt (a : Nat) : Nat := a / 17179869184

/-- A flit reaches the store P-unit that keeps a stream's HBM output ring (R379): a line's payloads gather until its end-of-line
tag, and the whole line goes to the ring; with no line free the rest of the frame's lines are discarded. -/
def State.ringFlit (s : State) (st : Nat) (f : Flit) : State :=
  let x := s.strm st
  let d := s.sdecl st
  let fseq := x.fullSeq (flitFseq f)
  let k := flitKind f
  if d.ringLines = 0 then s
  else if k == kData then s.setStrm st { x with ringRow := x.ringRow ++ [f.pay] }
  else if k == kEol then
    let full := decide (d.ringLines ≤ (x.ring.filter (fun l => !l.eof)).length)
    if x.ringDrop == some fseq || full then
      (s.setStrm st { x with ringRow := [], ringDrop := some fseq, linesDropped := x.linesDropped + 1 }).modFrame st fseq (fun i => i.flag .outDrop)
    else
      let b := x.ringRow.flatMap (fun p => toLe 32 p.toNat)
      let addr := d.ringBase + x.ringNext % d.ringLines * b.length
      let info := x.info fseq
      let stamp := match info with | some i => i.stamp | none => 0
      let flags := (if info.any (fun i => i.marks.contains (flitLine f)) then 4 else 0) + (if info.any (fun i => i.has .dataErr) then 8 else 0)
      -- an access to a stack that is lost reports an error and writes nothing (R85)
      let s := if s.stackOk (stackAt addr) then s.hbmWrite addr b
        else s.log .hbmUe inHbm (s.ctxFn (x.ctx.getD 16)) (stackAt addr) (addr / 64 * 64)
      s.setStrm st { x with
        ringRow := [], ringNext := x.ringNext + 1
        ring := x.ring ++ [{ fseq := fseq, line := flitLine f, stamp := stamp, addr := addr, bytes := b.length, flags := flags }] }
  else if k == kEof then
    s.setStrm st { x with ringRow := [], ringDrop := none
                          ring := x.ring ++ [{ fseq := fseq, eof := true, drop := x.ringDrop == some fseq }] }
  else s

/-- The 16-bit samples of payloads in order. -/
def samples (ps : List (BitVec 256)) : List B16 :=
  ps.flatMap (fun p => (List.range 16).map (fun i => BitVec.ofNat 16 (bits p.toNat (16 * i) 16)))

/-- A flit at an outbound P-unit that the Mycelium feeds (R113): the payloads up to an end-of-line tag are one output line, and the
frame ends with the end-of-frame tags of all its routes (log 31). -/
def State.portOut (s : State) (st stripe : Nat) (f : Flit) : State :=
  let x := s.strm st
  let f8 := flitFseq f
  let fseq := x.fullSeq f8
  let k := flitKind f
  if k == kData then s.setStrm st { x with portRow := x.portRow ++ [f.pay] }
  else if k == kEol then
    let tag := x.lineTags.find? (fun t => t.1 == fseq && t.2.1 == flitLine f)
    let info := x.info fseq
    let stamp := match tag with
      | some t => t.2.2.1
      | none => match info with | some i => i.stamp | none => 0
    s.setStrm st { x with
      portRow := [], tailNext := flitLine f + 1
      toOut := x.toOut ++ [{ fseq := fseq, line := flitLine f, stamp := stamp, vals := samples x.portRow
                             flagged := tag.any (fun t => t.2.2.2.1), untimed := tag.any (fun t => t.2.2.2.2)
                             dataErr := info.any (fun i => i.has .dataErr) }]
      lineTags := x.lineTags.filter (fun t => !(t.1 == fseq && decide (t.2.1 ≤ flitLine f))) }
  else if k == kEof then
    let s := s.setStrm st { x with portRow := [], tailTags := x.tailTags ++ [(stripe, f8, 8191)] }
    let ends := match x.ctx.bind s.ctx with
      | none => []
      | some c => c.place.ends.filter (fun e : EndSlot => e.kind == 2 && e.cut.isNone && !e.sends && e.stream == st)
    if ends.all (fun e : EndSlot => (s.strm st).tailTag f8 e.stripe 8191) then s.releaseEof st f8 false else s
  else s

/-- A checked flit takes the path of its route at a P-unit: a cut route's flit joins its port's transmit queue with the Field's FCYC
(R391, R392); a tensor for an HBM output ring goes there (R379); a line of the Mycelium goes to its output queue (R113). -/
def State.portPass (s : State) (site : Nat) (e : EndSlot) (f : Flit) : State :=
  match e.cut with
  | some (p, route) =>
    (s.modYport p (fun y => { y with txFlits := y.txFlits ++ [(route, (s.field (fieldOfSite site)).fcyc.toNat, f)] })).yHold p
  | none => if e.kind == 3 then s.ringFlit e.stream f else s.portOut e.stream e.stripe f

/-- A P-unit passes on what it holds, but for the flits of frozen streams (R137); one whose slot no endpoint names stays. -/
def State.portDrain : Nat → Nat → State → State
  | 0, _, s => s
  | n + 1, site, s =>
    let u := s.unit site
    let path := fun (p : Nat × Nat × Flit) => (s.endAt site p.1 false false).filter (fun e => !(s.strm e.stream).frozen)
    match u.portQ.findIdx? (fun p => (path p).isSome) with
    | none => s
    | some i =>
      match u.portQ[i]? with
      | none => s
      | some p =>
        match path p with
        | none => s
        | some e => State.portDrain n site ((s.setUnit site { u with portQ := u.portQ.eraseIdx i }).portPass site e p.2.2)

/-- A flit enters a P-unit: the checks on entry (R93, R127), then its queue (R144). -/
def State.portEnter (s : State) (site o slot : Nat) (ecc : Ecc) (f : Flit) : State :=
  match s.unitCheck site o ecc f with
  | (none, s) => s
  | (some g, s) =>
    let u := s.unit site
    if 64 ≤ u.portQ.length then s.skidOvf site o g
    else State.portDrain 65 site (s.setUnit site { u with portQ := u.portQ ++ [(slot, o, g)] })

/-- The sending lane of the exchange route that ends at a router in a slot (R225). -/
def State.exchAt (s : State) (site slot : Nat) : Option (Nat × Nat) :=
  (s.ctxs.filterMap (fun e : Nat × Option Ctx => e.2)).findSome? (fun c : Ctx =>
    (c.place.exch.find? (fun e => e.1 == site && e.2.1 == slot)).map (fun e => e.2.2))

/-- A flit is ejected into an input queue (R93), of a unit or of a Tail engine's stripe input (R119). -/
def flitEject (dst : EjectAt) (ecc : Ecc) (s : State) : State :=
  match dst with
  | .unit site =>
    match (s.router site).eject with
    | [] => s
    | (q, o, slot, f) :: t =>
      let s := s.modRouter site (fun r => { r with eject := t })
      if !s.works site then (if flitKind f == kBubble then s else s.fusedDrop site o f)
      else if kindOf site = .p then s.portEnter site o slot ecc f
      else s.unitEnter site q o ecc f (s.exchAt site slot)
  | .tail n stripe =>
    let hit := s.liveCtxs.findSome? (fun o => match s.ctx o with
      | none => none
      | some c => c.place.ends.findSome? (fun e =>
          if e.kind == 1 && !e.sends && e.stripe == stripe.val && (s.sdecl e.stream).tail == n.val then
            ((s.router e.site).border.findIdx? (fun b : Nat × Nat × Flit => b.1 == 1 && b.2.1 == e.slot)).map (fun i => (o, e.site, i))
          else none))
    match hit with
    | none => s
    | some (o, site, i) =>
      match (s.router site).border[i]? with
      | none => s
      | some b => (s.modRouter site (fun r => { r with border := r.border.eraseIdx i })).tailEnter n stripe o ecc b.2.2

def execFlitEject (dst : EjectAt) (ecc : Ecc) (s : State) : Host.Outcome State Fault Refusal := .next (flitEject dst ecc s)


/-- The release reaches a member, which resumes; a unit has counted its frozen cycles (R143, R149), and P-units pass on what they held for a
stream (R137). -/
def freezeClear (m : Member) (cycles : B64) (s : State) : State :=
  match s.memberGroup m with
  | none => s
  | some g =>
    if (s.group g).asserted && !(s.group g).masked then s
    else
      match m with
      | .unit site =>
        let s := s.modUnit site (Unit.unfreeze cycles)
        if s.mayIssue site then s.rotRun site else s
      | .stream st =>
        let s := s.modStrm st (fun x => { x with frozen := false })
        (Tab.keys s.units (fun u => !u.portQ.isEmpty)).foldl (fun s p => State.portDrain 64 p s) s
      | .gate i => s.modGate i (fun x => { x with frozen := false })

def execFreezeClear (m : Member) (cycles : B64) (s : State) : Host.Outcome State Fault Refusal := .next (freezeClear m cycles s)

end Sys2Proof.Machine
end

