-- ==== Sys2Proof/Machine/Output.lean ====
section
/-! DEFINITION. The output queues and what takes their lines: host buffers, Yallek LINE Spores, ST 2110 senders; metadata
datagrams; reads of host memory that complete (chapters 06, 13, 15, 18; logs 17, 31). -/

namespace Sys2Proof.Machine

-- Latency of output lines (R453).

/-- A line's last byte leaves the Port die now. -/
def Strm.sendAt (now : B64) (fseq : B16) (stamp : B64) (untimed : Bool) (x : Strm) : Strm :=
  if untimed || now.toNat < stamp.toNat then x else { x with latPend := x.latPend ++ [(fseq, now.toNat - stamp.toNat)] }

/-- A frame has been sent whole: its lines count, unless it is DROPPED or OUT_DROP. -/
def Strm.countLat (fseq : B16) (drop : Bool) (x : Strm) : Strm :=
  let mine := (x.latPend.filter (fun e => e.1 == fseq)).map (fun e : B16 × Nat => e.2)
  let y := { x with latPend := x.latPend.filter (fun e => e.1 != fseq) }
  if drop || (x.info fseq).any (fun i => i.has .dropped || i.has .outDrop) then y
  else mine.foldl (fun (y : Strm) (t : Nat) => { y with
    latMax := max y.latMax (min t 0xFFFFFFFF), latLast := min t 0xFFFFFFFF
    latSum := y.latSum + BitVec.ofNat 64 t, latCount := y.latCount + 1 }) y

-- Arrival at the output queue (R168, R173, R174).

/-- Lines an output queue holds. -/
def Strm.oqHeld (x : Strm) : Nat := (x.oq.filter (fun l => !l.eof)).length

/-- Items of which every flit has arrived enter the output queue in order, a line while there is room for it; the lines of a frame that is
being discarded go (R173, R174). -/
def State.oqFill : Nat → Nat → State → State
  | 0, _, s => s
  | n + 1, st, s =>
    let x := s.strm st
    match x.toOut with
    | [] => s
    | l :: t =>
      if x.oqIn < l.flits then s
      else if l.eof then
        State.oqFill n st ((s.setStrm st { x with toOut := t, oqIn := x.oqIn - l.flits, oq := x.oq ++ [{ l with drop := x.outDrop == some l.fseq }]
                                                  outDrop := none }).modFrame st l.fseq (fun i => { i with out := true }))
      else if x.outDrop == some l.fseq then
        State.oqFill n st (s.setStrm st { x with toOut := t, oqIn := x.oqIn - l.flits, linesDropped := x.linesDropped + 1 })
      else if x.oqHeld < x.oqLines then State.oqFill n st (s.setStrm st { x with toOut := t, oqIn := x.oqIn - l.flits, oq := x.oq ++ [l] })
      else s

/-- The flits that have arrived lie in the skid while the queue has no room for a line (R168, R173). -/
def State.oqUpdate (s : State) (st : Nat) : State :=
  let s := State.oqFill ((s.strm st).toOut.length + 1) st s
  s.modStrm st (fun x => { x with skid := if x.oqHeld < x.oqLines then 0 else x.oqIn })

/-- The next flit from the Tail engine reaches the output queue. Without room for its line, STALL requests a stall and the flit enters the
skid, whose overflow is a fault (R97, R144), and DROP discards the line and the rest of its frame. -/
def outputFlit (st : Nat) (s : State) : State :=
  let x := s.strm st
  if x.frozen || (x.toOut.map OutLine.flits).sum ≤ x.oqIn then s
  else
    let room := decide (x.oqHeld < x.oqLines)
    let next := x.toOut.headD { fseq := 0, line := 0, stamp := 0 }
    if room || (x.oqIn = 0 && (next.eof || x.outDrop == some next.fseq)) then (s.setStrm st { x with oqIn := x.oqIn + 1 }).oqUpdate st
    else if x.stall then
      let s := s.request (outOrigin st) true
      if 24 ≤ x.oqIn then
        let o := x.ctx.getD 255
        s.skidOvf (0x410 + (s.sdecl st).tail) o (mkFlit kData st (next.fseq.toNat % 256) next.line 0 0 (s.epoch o) 0)
      else (s.modStrm st (fun y => { y with oqIn := y.oqIn + 1 })).oqUpdate st
    else
      ((s.setStrm st { x with oqIn := x.oqIn + 1, outDrop := some next.fseq }).modFrame st next.fseq (fun i => i.flag .outDrop)).oqUpdate st

def execOutputFlit (st : StreamId) (s : State) : Host.Outcome State Fault Refusal := .next (outputFlit st s)

/-- A line has left the output queue: what waits in the skid enters, and a STALL request ends when OQ_LINES - 1 lines are free (R173). -/
def State.oqSettle (s : State) (st : Nat) : State :=
  let s := s.oqUpdate st
  if (s.strm st).oqHeld ≤ 1 then s.request (outOrigin st) false else s

-- Host buffers (R170, R171, R174).

/-- The endpoint of a function (R323). -/
def State.epOf (s : State) (f : Nat) : Nat := if s.fnOnB f then 1 else 0

/-- The buffer in use: that of the output queue, or of the HBM output ring. -/
def Strm.bufOf (x : Strm) (ring : Bool) : Option OpenBuf := if ring then x.ringBuf else x.openBuf

def Strm.setBuf (x : Strm) (ring : Bool) (b : Option OpenBuf) : Strm := if ring then { x with ringBuf := b } else { x with openBuf := b }

def State.closeOne (s : State) (st : Nat) (ring : Bool) (status : Nat) (eof : Bool) : State :=
  if ring then s.closeRing st status eof else s.closeBuf st status eof

/-- What becomes of a line offered to a buffer: written, or not yet. A buffer whose room is spent closes, and a granted descriptor
opens with its first line, which reserves the completion record. -/
def State.putLine (s : State) (st : Nat) (ring : Bool) (fseq : B16) (line : Nat) (stamp : B64) (flags : Nat) (b : Bytes) : Bool × State :=
  let x := s.strm st
  match x.bufOf ring with
  | some o =>
    if o.fseq == fseq && o.bytes + b.length ≤ o.desc.size.toNat then
      (true, (s.hostWrite (o.desc.addr + BitVec.ofNat 64 o.bytes) b).setStrm st
        (x.setBuf ring (some { o with lines := o.lines + 1, bytes := o.bytes + b.length, flags := Nat.lor o.flags flags })))
    else (false, s.closeOne st ring 0 false)
  | none =>
    match x.granted with
    | none => (false, s)
    | some d =>
      let r := s.reserveCpl x.pool
      (true, (r.2.hostWrite d.addr b).modStrm st (fun y => ({ y with granted := none } : Strm).setBuf ring
        (some { desc := d, fseq := fseq, first := line, lines := 1, bytes := b.length, stamp := stamp, flags := flags, ticket := r.1 })))

/-- A frame's end: its open buffer closes, or a record with no data is written, whose fields that name a line or a descriptor have no
stated value (log 17). -/
def State.endFrameOut (s : State) (st : Nat) (ring : Bool) (fseq : B16) (drop : Bool) : State :=
  let x := s.strm st
  let mark := if drop then 2 else 0
  let status := if drop then 1 else 0
  match x.bufOf ring with
  | some b => (s.setStrm st (x.setBuf ring (some { b with flags := Nat.lor b.flags mark }))).closeOne st ring status true
  | none =>
    let u := (Config.unstated s.freeCount).toNat
    let v := (Config.unstated (s.freeCount + 1)).toNat
    let r := s.draw.draw.reserveCpl x.pool
    r.2.writeCpl x.pool r.1 (cplBytes status st (Nat.lor 1 (if drop || (x.info fseq).any (fun i => i.flags != 0) then 2 else 0)) fseq.toNat (bits u 0 16) 0 x.pool (bits u 16 32) 0 v)

/-- LINE_FLAG and DATA_ERR of a line (Table 06-4). -/
def OutLine.recFlags (l : OutLine) : Nat := (if l.flagged then 4 else 0) + (if l.dataErr then 8 else 0)

def OutLine.data (l : OutLine) : Bytes := l.vals.flatMap (fun v => toLe 2 v.toNat)

/-- The PCIe route: the oldest item of the output queue, else of the HBM output ring (R170, R379). -/
def State.sendHost (s : State) (st : Nat) : State :=
  let x := s.strm st
  if !(s.ep (s.epOf (s.pool x.pool).fn)).up || !s.portUp (dieOfStream st) || 64 ≤ x.pool then s
  else
    match x.oq with
    | l :: t =>
      if l.eof then (s.endFrameOut st false l.fseq l.drop).modStrm st (fun y => ({ y with oq := t } : Strm).countLat l.fseq l.drop)
      else
        match s.putLine st false l.fseq l.line l.stamp l.recFlags l.data with
        | (false, s) => s
        | (true, s) => (s.modStrm st (fun y => ({ y with oq := t } : Strm).sendAt s.dtb.now l.fseq l.stamp l.untimed)).oqSettle st
    | [] =>
      match x.ring with
      | [] => s
      | r :: t =>
        if r.eof then (s.endFrameOut st true r.fseq r.drop).modStrm st (fun y => { y with ring := t })
        else
          -- a read of a stack that is lost delivers zeros, and the line carries DATA_ERR (R85, Table 15-3)
          let ok := s.stackOk (stackAt r.addr)
          let b := if ok then Memory.readBytes s.hbm r.addr r.bytes else List.replicate r.bytes 0
          match s.putLine st true r.fseq r.line r.stamp (if ok then r.flags else Nat.lor r.flags 8) b with
          | (false, s) => s
          | (true, s) =>
            let s := if ok then s else s.log .hbmUe inHbm (s.ctxFn (x.ctx.getD 16)) (stackAt r.addr) (r.addr / 64 * 64)
            s.modStrm st (fun y => { y with ring := t })

/-- Segments of a line's bytes for LINE Spores: 976 bytes at most, 16 at least, a multiple of 8 (R399; log 31). -/
def lineSegments : Nat → Nat → Bytes → List (Nat × Bytes)
  | 0, _, _ => []
  | n + 1, off, b =>
    if b.isEmpty then []
    else
      let k := if b.length ≤ 976 then b.length else if b.length < 992 then 960 else 976
      let d := b.take k
      (off, d ++ List.replicate (max 16 ((k + 7) / 8 * 8) - k) 0) :: lineSegments n (off + k) (b.drop k)

/-- The Yallek route (R399): the oldest line leaves in LINE Spores while the link is up. -/
def State.sendYallek (s : State) (st : Nat) : State :=
  let x := s.strm st
  let p := x.routeIx % 4
  if !(s.yport p).up then s
  else
    match x.oq with
    | [] => s
    | l :: t =>
      if l.eof then s.modStrm st (fun y => ({ y with oq := t } : Strm).countLat l.fseq l.drop)
      else
        let last := match t ++ x.toOut with
          | n :: _ => n.eof && n.fseq == l.fseq
          | [] => (s.sdecl st).height == l.line + 1
        let fl := (if last then 1 else 0) + (if l.flagged then 2 else 0)
        let ep := match x.ctx.bind s.ctx with | some c => c.bindEpoch.toNat | none => 0
        let s := (lineSegments (l.data.length + 1) 0 l.data).foldl (fun s g =>
          s.queueSpore p 2 ep (toLe 1 (x.routeIx / 4) ++ toLe 1 0 ++ toLe 2 l.line ++ toLe 2 l.fseq.toNat ++ toLe 2 fl
            ++ toLe 8 l.stamp.toNat ++ toLe 4 g.1 ++ toLe 2 g.2.length ++ toLe 2 0 ++ g.2)) s
        (s.modStrm st (fun y => ({ y with oq := t } : Strm).sendAt s.dtb.now l.fseq l.stamp l.untimed)).oqSettle st

/-- An output line goes to its route; an ST 2110 sender takes its lines by packets. -/
def outputLineSend (st : Nat) (s : State) : State :=
  let r := (s.strm st).route
  if r == 0 then s.sendHost st else if r == 2 then s.sendYallek st else s

def execOutputLineSend (st : StreamId) (s : State) : Host.Outcome State Fault Refusal := .next (outputLineSend st s)

-- ST 2110 senders (R405-R407).

def Sender.field (v : Sender) (o n : Nat) : Nat := fieldLe v.record o n

/-- A sample as binary32; a NaN counts as +0 (R406). -/
def sample32 (v : Nat) : Nat := if isNan32 v then 0 else v

/-- An integer code in binary32: offset + scale * v, rounded half to even and clamped (R406). -/
def videoCode (off scale lo hi v : Nat) : Nat :=
  (clampI lo hi (round32 (add32 (int32 off) (mul32 (int32 scale) (sample32 v))))).toNat

/-- The binary32 mean of two samples. -/
def mean32 (a b : Nat) : Nat := mul32 0x3F000000 (add32 a b)

/-- Bytes of a row: two columns in 5 bytes Cb Y Cr Y, or one in 3 bytes R G B (R406; log 31). -/
def Sender.rowBytes (v : Sender) (w : Nat) (vals : List B16) : Bytes :=
  let full := v.field 1 1 == 1
  let at_ := fun (c i : Nat) => to32 ((vals.getD (c * w + i) 0).toNat)
  if v.field 0 1 == 0 then
    let y := fun (i : Nat) => if full then videoCode 0 1023 4 1019 (at_ 0 i) else videoCode 64 876 4 1019 (at_ 0 i)
    let ch := fun (c i : Nat) => videoCode 512 (if full then 1023 else 896) 4 1019 (mean32 (at_ c (2 * i)) (at_ c (2 * i + 1)))
    (List.range (w / 2)).flatMap (fun i =>
      (toLe 5 (ch 1 i * 2 ^ 30 + y (2 * i) * 2 ^ 20 + ch 2 i * 2 ^ 10 + y (2 * i + 1))).reverse)
  else
    let k := fun (c i : Nat) => if full then videoCode 0 255 0 255 (at_ c i) else videoCode 16 219 0 255 (at_ c i)
    (List.range w).flatMap (fun i => [BitVec.ofNat 8 (k 0 i), BitVec.ofNat 8 (k 1 i), BitVec.ofNat 8 (k 2 i)])

/-- Bytes of a row of `w` columns. -/
def Sender.rowLen (v : Sender) (w : Nat) : Nat := if v.field 0 1 == 0 then w / 2 * 5 else w * 3

/-- Packets of a frame (R407). -/
def Sender.packets (v : Sender) (w h : Nat) : Nat := (v.rowLen w * h + 1259) / 1260

/-- TRS of R407. -/
def Sender.trs (v : Sender) (w h : Nat) : Nat := 10 ^ 9 * v.field 40 4 * h / (v.field 36 4 * v.field 32 2 * v.packets w h)

/-- The parts of rows that bytes lo to hi - 1 of a frame cover: row, first byte in the row, length. -/
def Sender.spans (v : Sender) (w lo hi : Nat) : List (Nat × Nat × Nat) :=
  let n := v.rowLen w
  (List.range (hi / n + 1)).filterMap (fun r =>
    let a := max lo (r * n)
    let b := min hi ((r + 1) * n)
    if a < b then some (r, a - r * n, b - a) else none)

/-- The sample-row headers of a packet: length, row, and offset in columns with the continuation bit (log 31). -/
def Sender.rowHeaders (v : Sender) : List (Nat × Nat × Nat) → Bytes
  | [] => []
  | (r, o, n) :: t =>
    let col := if v.field 0 1 == 0 then o / 5 * 2 else o / 3
    beBytes 2 n ++ beBytes 2 (r % 32768) ++ beBytes 2 (col % 32768 + (if t.isEmpty then 0 else 32768)) ++ v.rowHeaders t

/-- The stream a sender serves (R405). -/
def State.senderStream (s : State) (d : Nat) : Option Nat :=
  (Tab.keys s.streams (fun x => x.ctx.isSome && x.route == 1 && x.routeIx == d)).head?

/-- A frame ends at its sender: ST2110_LATE with the count of its late packets, and the next frame begins at packet 0. -/
def State.endSent (s : State) (d st : Nat) (fseq : B16) (drop : Bool) : State :=
  let v := s.sender d
  let s := if v.late == 0 then s
    else s.log .st2110Late (inPort (d / 16)) (s.streamFn st) d (packBits [(16, fseq.toNat), (16, 0), (32, v.late.toNat)])
  (s.setSender d { v with frame := none, next := 0, late := 0 }).modStrm st (fun x => x.countLat fseq drop)

/-- Items of a frame left in an output queue once its end is in it. -/
def afterFrame : List OutLine → List OutLine
  | [] => []
  | l :: t => if l.eof then t else afterFrame t

/-- One packet, at its scheduled time or as soon as its lines are in the output queue; a frame that ends short of its lines sends
no packet for them (R407). -/
def st2110Packet (d : Nat) (s : State) : State :=
  let v := s.sender d
  let p := d / 16
  match s.senderStream d with
  | none => s
  | some st =>
    let x := s.strm st
    if !v.enabled || !s.ethLive p || !(s.eth p).up then s
    else
      match x.oq with
      | [] => s
      | l :: t =>
        if l.eof then (s.modStrm st (fun y => { y with oq := t })).endSent d st l.fseq l.drop
        else
          let w := (s.sdecl st).outWidth
          let h := (s.sdecl st).height
          let stamp := match v.frame with
            | some f => f.2
            | none => match x.info l.fseq with | some i => i.stamp | none => l.stamp
          let lo := v.next * 1260
          let hi := min (lo + 1260) (v.rowLen w * h)
          let spans := v.spans w lo hi
          let row := fun (r : Nat) => x.oq.find? (fun o : OutLine => !o.eof && o.fseq == l.fseq && o.line == r)
          let due := stamp.toNat + v.field 28 4 + v.next * v.trs w h
          if spans.isEmpty || !spans.all (fun q => (row q.1).isSome) then
            if x.oq.any (fun o => o.eof && o.fseq == l.fseq) then
              ((s.modStrm st (fun y => { y with oq := afterFrame y.oq })).endSent d st l.fseq
                (x.oq.any (fun o => o.eof && o.fseq == l.fseq && o.drop))).oqSettle st
            else s
          else if s.dtb.now.toNat + 100 < due then s
          else
            let last := v.next + 1 == v.packets w h
            let data := spans.flatMap (fun q => match row q.1 with
              | some o => ((v.rowBytes w o.vals).drop q.2.1).take q.2.2
              | none => [])
            let data := data ++ List.replicate ((data.length + 179) / 180 * 180 - data.length) 0
            let rtp : Bytes := [0x80, BitVec.ofNat 8 ((if last then 128 else 0) + v.field 2 1 % 128)] ++ beBytes 2 (v.seq.toNat % 65536)
              ++ beBytes 4 (stamp.toNat * 9 / 100000 % 2 ^ 32) ++ beBytes 4 (v.field 24 4) ++ beBytes 2 (v.seq.toNat / 65536)
            let e := s.eth p
            let s := s.ethSend p (e.head ((v.record.drop 8).take 6) 0x0800
              ++ udp (v.field 3 1) (v.field 4 1) (v.field 20 2) (v.field 22 2) ((e.record.drop 8).take 4) ((v.record.drop 16).take 4)
                (rtp ++ v.rowHeaders spans ++ data))
            let s := s.setSender d { v with
              seq := v.seq + 1, next := v.next + 1, frame := some (l.fseq, stamp)
              late := if due + 100 < s.dtb.now.toNat then v.late + 1 else v.late }
            let done := x.oq.filter (fun o => !o.eof && o.fseq == l.fseq && decide ((o.line + 1) * v.rowLen w ≤ hi))
            let s := s.modStrm st (fun y =>
              done.foldl (fun (y : Strm) (o : OutLine) => y.sendAt s.dtb.now o.fseq o.stamp o.untimed)
                { y with oq := y.oq.filter (fun o => !done.contains o) })
            s.oqSettle st

def execSt2110Packet (d : Fin 32) (s : State) : Host.Outcome State Fault Refusal := .next (st2110Packet d s)

-- Metadata datagrams (R408).

/-- Bytes 24-63 of a frame record (Table 13-12); a DROPPED frame reports no decisions (R21). -/
def FrameInfo.body (f : FrameInfo) : Bytes :=
  let d := f.has .dropped
  let z := fun (v : Nat) => if d then 0 else v
  toLe 4 f.flags ++ toLe 2 f.lines ++ toLe 1 f.variant ++ toLe 1 (z f.dec) ++ toLe 8 f.stamp.toNat ++ toLe 2 (z f.focus.toNat)
    ++ toLe 2 (z f.afConf) ++ toLe 2 (z f.ev) ++ toLe 1 (z f.scene) ++ toLe 1 0 ++ toLe 2 f.gain ++ toLe 2 f.nwear ++ toLe 12 0

/-- The statistics entries of a datagram: those of the frame's bank in statistics V-unit 0; the spec gives no value where that bank
is no longer held (log 17). -/
def State.metaEntries (s : State) (st : Nat) (fseq : B16) : List Bytes :=
  match (s.strm st).ctx.bind s.ctx with
  | none => []
  | some c =>
    match c.statSite 0 with
    | none => []
    | some site =>
      let u := s.unit site
      let bank := [u.lastClosed, u.bankC].findSome? (fun b : Option Bank => match b with
        | some k => if k.stream == st && k.fseq == fseq.toNat % 256 then some k else none
        | none => none)
      let n := match u.lastClosed with | some k => k.channels | none => 0
      (List.range (min 16 n)).map (fun i =>
        toLe 1 i ++ toLe 3 0 ++ match bank with
          | some k => toLe 4 (Tab.get 0 k.maxabs i) ++ toLe 4 (Tab.get 0 k.sat i) ++ toLe 4 (Tab.get 0 k.sum i)
          | none => toLe 8 (Config.unstated (s.freeCount + 2 * i)).toNat ++ toLe 4 (Config.unstated (s.freeCount + 2 * i + 1)).toNat)

/-- The payload of a datagram (Table 15-13). -/
def State.metaPayload (s : State) (st : Nat) (f : FrameInfo) : Bytes :=
  let d := f.has .dropped
  let z := fun (v : Nat) => if d then 0 else v
  let h := s.head (st / 4)
  let es := s.metaEntries st f.fseq
  [0x4B, 0x4D, 0x44, 0x31] ++ toLe 2 1 ++ toLe 2 (112 + 16 * es.length) ++ toLe 6 f.esn.toNat ++ toLe 1 st ++ toLe 1 (st / 4)
    ++ toLe 2 f.fseq.toNat ++ toLe 1 f.cause ++ toLe 1 es.length ++ f.body
    ++ toLe 4 (z (h.shot f.gain)) ++ toLe 4 (z (h.readNoise f.gain)) ++ toLe 4 (z f.evRaw)
    ++ (List.range 16).flatMap (fun i => toLe 2 (z (f.linked.getD i 0))) ++ toLe 8 s.dtb.now.toNat ++ es.flatMap id

/-- A datagram for the oldest frame record that waits; with the port down, or the transmit path full, it is dropped and counted,
and META_DROP is logged at most once a second (R408). -/
def metadataDatagram (p : Nat) (sent : Bool) (s : State) : State :=
  let e := s.eth p
  match e.metaQ with
  | [] => s
  | (st, fseq) :: t =>
    if sent && s.ethLive p && e.up then
      match (s.strm st).info fseq with
      | none => s.setEth p { e with metaQ := t }
      | some f =>
        let body := s.metaPayload st f
        let s := ({ s with freeCount := s.freeCount + 32 }).setEth p { e with metaQ := t }
        s.ethSend p (e.head ((e.record.drop 32).take 6) 0x0800
          ++ udp (e.field 21 1) 64 (e.field 22 2) (e.field 28 2) ((e.record.drop 8).take 4) ((e.record.drop 24).take 4) body)
    else
      let n := e.metaDrop + 1
      let due := match e.metaAt with | some a => decide (a + 200000000 ≤ s.kcycles) | none => true
      if due then
        (s.setEth p { e with metaQ := t, metaDrop := 0, metaAt := some s.kcycles }).log .metaDrop (inPort p) noFn p n.toNat
      else s.setEth p { e with metaQ := t, metaDrop := n }

def execMetadataDatagram (p : Fin 2) (sent : Bool) (s : State) : Host.Outcome State Fault Refusal := .next (metadataDatagram p sent s)

-- Reads of host memory (R378, Table 13-6; log 8).

/-- The data of a host address that a command names, if a read of it has completed. -/
def State.hostData (s : State) (addr : B64) : Option (Option Bytes) :=
  (s.hostIn.find? (fun e : Nat × Option Bytes => e.1 == addr.toNat)).map (fun e => e.2)

/-- A read of host memory completes: a replay line enters its prefetch buffer, and the pace may go on; the data a command named is
there for it. A failed replay read leaves the segment absent. -/
def hostMemoryRead (r : HostRead) (data : Option Bytes) (s : State) : State :=
  match r with
  | .replay st =>
    match s.nextReplayLine st, data with
    | some (q, _, n), some b => if q.host then s.putReplay st q (codes16 (b.take n)) false else s
    | _, _ => s
  | .source addr => { s with hostIn := (addr.toNat, data) :: s.hostIn.filter (fun e : Nat × Option Bytes => e.1 != addr.toNat) }

def execHostMemoryRead (r : HostRead) (data : Option Bytes) (s : State) : Host.Outcome State Fault Refusal := .next (hostMemoryRead r data s)

end Sys2Proof.Machine
end

