-- ==== Sys2Proof/Machine/Events.lean ====
section
/-! DEFINITION. Command rings and their packets, replies and interrupts, the Event Sequencer, the distributor of the log, and frame
records (chapters 03, 13). -/

namespace Sys2Proof.Machine

-- Interrupts and RING_STATUS (R324, Table 13-2).

/-- An MSI-X vector of a function is raised. -/
def State.raiseIrq (s : State) (f v : Nat) : State := s.modFn f (fun x => { x with irqs := Tab.set x.irqs v (Tab.get 0 x.irqs v + 1) })

/-- Whether any RING_STATUS bit of a function is set. -/
def Fn.status (x : Fn) : Nat := packBits [(1, if x.fetchErr then 1 else 0), (1, if x.badDoorbell then 1 else 0), (1, if x.wbErr then 1 else 0)]

/-- RING_STATUS bits change; a bit that sets raises vector 3. -/
def State.ringStatus (s : State) (f : Nat) (g : Fn → Fn) : State :=
  let old := (s.fn f).status
  let s := s.modFn f g
  if Nat.lor old (s.fn f).status == old then s else s.raiseIrq f 3

/-- Whether the endpoint of a function is up. -/
def State.fnUp (s : State) (f : Nat) : Bool := s.ready && (s.ep (s.epOf f)).up

-- Doorbells and ring resets (R325-R329).

/-- CMD_TAIL is written: the doorbell of a command ring. -/
def cmdTail (f : Nat) (v : Nat) (s : State) : State :=
  let x := s.fn f
  let i := v % 4096
  if !s.ready || x.reset then s
  else if 2 ^ x.cmdOrder ≤ i then s.ringStatus f (fun x => { x with badDoorbell := true })
  else s.setFn f { x with cmdTail := i }

def execCmdTail (f : FnId) (v : B32) (s : State) : Host.Outcome State Fault Refusal := .next (cmdTail f v.toNat s)

/-- RESET is written 1: fetching stops, and packets fetched and not dispatched are discarded. -/
def ringReset (f : Nat) (s : State) : State :=
  if !s.ready || (s.fn f).reset then s else s.modFn f (fun x => { x with reset := true, fetched := [] })

def execRingReset (f : FnId) (s : State) : Host.Outcome State Fault Refusal := .next (ringReset f s)

/-- POOL_DOORBELL is written: the producer index of a descriptor ring of the function's own pool. -/
def poolDoorbell (f : Nat) (v : B32) (s : State) : State :=
  let x := s.fn f
  let p := bits v.toNat 16 6
  let i := bits v.toNat 0 16
  let y := s.pool p
  if !s.ready || x.reset then s
  else
    let s := s.setFn f { x with poolDoorbell := BitVec.ofNat 32 (v.toNat % 2 ^ 22) }
    if 32 * s.part.variant.ports ≤ p || !mayAct f y.fn || !y.ready || 2 ^ y.order ≤ i then
      s.ringStatus f (fun x => { x with badDoorbell := true })
    else s.setPool p { y with prod := i }

def execPoolDoorbell (f : FnId) (v : B32) (s : State) : Host.Outcome State Fault Refusal := .next (poolDoorbell f v s)

/-- A ring reset ends once no dispatched packet is in flight: the reply queue is flushed, and the indices, ENABLE and FETCH_ERR are 0
(R328). -/
def ringResetDone (f : Nat) (s : State) : State :=
  let x := s.fn f
  if !x.reset || !x.inFlight.isEmpty then s
  else
    (s.flushReplies f (if x.flr then 2 else 3)).modFn f (fun x =>
      { x with cmdHead := 0, cmdTail := 0, rplProd := 0, rplCons := 0, enable := false, fetchErr := false, reset := false, flr := false
               fetched := [], unsigReplies := 0 })

def execRingResetDone (f : FnId) (s : State) : Host.Outcome State Fault Refusal := .next (ringResetDone f s)

-- Fetch and dispatch (R326, R331, R333, R335, R337, R338).

/-- The K4 reads the next entry of a command ring, or the read fails. -/
def cmdFetch (f : Nat) (b : Option Bytes) (s : State) : State :=
  let x := s.fn f
  if !s.fnUp f || !x.enable || x.reset || x.fetchErr || x.cmdHead == x.cmdTail then s
  else
    match b with
    | none => (s.ringStatus f (fun x => { x with fetchErr := true })).log .cmdFetchErr inFast f f 0
    | some b => s.setFn f { x with cmdHead := (x.cmdHead + 1) % 2 ^ x.cmdOrder, fetched := x.fetched ++ [{ bytes := b, fn := f, cspi := false }] }

def execCmdFetch (f : FnId) (packet : Option Bytes) (s : State) : Host.Outcome State Fault Refusal := .next (cmdFetch f packet s)

def Packet.opcode (p : Packet) : Nat := fieldLe p.bytes 0 2
def Packet.cseq (p : Packet) : B32 := BitVec.ofNat 32 (fieldLe p.bytes 4 4)
def Packet.fence (p : Packet) : Bool := bit (byteAt p.bytes 2) 1

/-- The command header of a packet, FN filled in (Table 13-4). -/
def Packet.pkt (p : Packet) : Pkt :=
  let fl := byteAt p.bytes 2
  { fn := Fin.ofNat 64 p.fn, cseq := p.cseq, urgent := bit fl 0, fence := bit fl 1, reply := bit fl 2, cspi := p.cspi }

/-- Why a header is rejected (R333). -/
def Packet.badHeader (p : Packet) : Bool :=
  let fl := byteAt p.bytes 2
  let len := byteAt p.bytes 3
  len == 0 || 16 < len || 16 ≤ fl || fieldLe p.bytes 10 6 != 0 || p.cseq == 0xFFFF0000 || bit fl 3 != decide (0x8000 ≤ p.opcode)

/-- The opcodes of Table 13-6. -/
def listedOpcode (op : Nat) : Bool :=
  op ≤ 0x0007 || (0x8001 ≤ op && op ≤ 0x8006) || (0x1000 ≤ op && op ≤ 0x1008) || op == 0x1010 || (0x1100 ≤ op && op ≤ 0x1107)
    || (0x1200 ≤ op && op ≤ 0x120A) || op == 0x1300 || op == 0x1301 || op == 0x1400 || op == 0x1401 || op == 0x1500
    || (0x9000 ≤ op && op ≤ 0x9008)

/-- The opcodes that only the PF may issue (Table 13-6). -/
def pfOnly (op : Nat) : Bool :=
  [0x1001, 0x1002, 0x1003, 0x1004, 0x1006, 0x1007, 0x1010, 0x1400, 0x1401, 0x9005, 0x9008].contains op

/-- Whether a function may not issue an opcode (R335, step 3). -/
def State.denied (s : State) (f op : Nat) : Bool := (pfOnly op && f != 0) || (decide (0x8000 ≤ op) && !s.expertOk f)

/-- The four channels of HEAD_ATTACH. -/
def vcSizes : List Nat := [1, 1, 1, 2, 2, 2, 4] ++ [1, 1, 1, 2, 2, 2, 4] ++ [1, 1, 1, 2, 2, 2, 4] ++ [1, 1, 1, 2, 2, 2, 4]

/-- The sizes of the parameters of the fast-path opcodes, in order (Table 13-6). -/
def fastSizes : List (Nat × List Nat) := [
  (0x0001, [1, 1, 1, 1, 1, 1, 8]), (0x0002, [1, 1, 1]), (0x0003, [1, 1, 1]), (0x0004, [1, 1, 1, 4, 8, 4]),
  (0x0005, [1, 1, 2]), (0x0006, [1]), (0x0007, [1]), (0x8001, [1]), (0x8002, [1, 1]), (0x8003, [1, 1]), (0x8004, [1, 8, 4]),
  (0x8005, [1, 1, 2, 2, 8]), (0x8006, [1, 1, 1])]

/-- The sizes of the parameters of the firmware opcodes. -/
def firmwareSizes : List (Nat × List Nat) := [
  (0x1001, [1, 1]), (0x1002, [8]), (0x1003, [1, 1]), (0x1004, [1, 1]), (0x1005, [1, 1, 1, 8, 8]), (0x1006, [1, 1]),
  (0x1007, [1]), (0x1008, [1, 1, 8]), (0x1010, [2, 8] ++ List.replicate 224 1), (0x1100, [1, 1, 1, 1, 1, 1, 2, 8] ++ vcSizes),
  (0x1101, [1]), (0x1102, [1]), (0x1103, [1, 1, 1, 4, 8]), (0x1104, [1, 2]), (0x1105, [1, 2, 4]),
  (0x1106, [1, 1, 2, 2, 4, 4]), (0x1107, [1, 2]), (0x1200, [1, 1, 4, 8]), (0x1201, [1]), (0x1202, [1]), (0x1203, [1]),
  (0x1204, [1, 1, 1, 1, 8] ++ List.replicate 64 1), (0x1205, [1]), (0x1206, [1, 1]), (0x1207, [1, 1]),
  (0x1208, [1, 1, 1, 2] ++ List.replicate 16 1), (0x1209, [1, 1, 1, 4, 4, 8]), (0x120A, [1, 1, 2]), (0x1300, [1, 1, 1, 4, 8]),
  (0x1301, [1, 1, 2]), (0x1400, [1, 1, 2, 4]), (0x1401, [1, 8]), (0x1500, [1, 1] ++ List.replicate 208 1),
  (0x9000, [1, 1, 1, 1, 8] ++ List.replicate 64 1 ++ [8]), (0x9001, [1, 1, 8]), (0x9002, [1, 2, 8]),
  (0x9003, [1, 1, 1, 1] ++ List.replicate 64 1), (0x9004, [1, 1]), (0x9005, [1]), (0x9006, [2]), (0x9007, [1, 2, 8]),
  (0x9008, [1] ++ List.replicate 32 1)]

/-- Whether a packet is too short for its parameters, each at the next multiple of its size from byte 16, or has a padding byte other
than 0 (R334). -/
def Packet.badLayout (p : Packet) : Bool :=
  let n := 16 * byteAt p.bytes 3
  let b := p.bytes.take n
  let sizes := (((fastSizes ++ firmwareSizes).find? (fun e : Nat × List Nat => e.1 == p.opcode)).map (fun e : Nat × List Nat => e.2)).getD []
  let r := sizes.foldl (fun (a : Nat × Bool) z =>
    let o := (a.1 + z - 1) / z * z
    (o + z, a.2 || (List.range (o - a.1)).any (fun i => byteAt b (a.1 + i) != 0))) (16, false)
  r.2 || decide (n < r.1) || (b.drop r.1).any (fun x => x != 0)

/-- Whether a packet fails with NOT_PERMITTED, as far as its function, opcode and LOG_RING filter tell (R335). -/
def State.packetDenied (s : State) (f : Nat) (p : Packet) : Bool :=
  s.denied f p.opcode || (p.opcode == 0x1008 && f != 0 && bit (byteAt p.bytes 17) 2)

/-- The packets that wait for dispatch in a ring. -/
def State.waiting (s : State) (f : Nat) (cspi : Bool) : List Packet := if cspi then s.cspi.pktQ else (s.fn f).fetched

/-- Whether the next packet of a ring may be dispatched: its reply queue has room (R327), no FENCE is in flight, a FENCE itself
waits for every earlier packet (R338), and input 0 alternates between the PF's ring and the CSPI queue (R331). -/
def State.mayDispatch (s : State) (f : Nat) (cspi : Bool) (p : Packet) : Bool :=
  let ring := s.ring f cspi
  let room := if cspi then s.cspi.replyQ.length < 16 else (s.fn f).replyQ.length < 64
  s.ready && room && !(ring.any (fun e => e.fence)) && !(p.fence && !ring.isEmpty) && (cspi || !(s.fn f).reset)
    && !(f == 0 && !s.cspi.pktQ.isEmpty && !(s.fn 0).fetched.isEmpty && s.cspi.alternate != cspi)

/-- A granted packet is dispatched: it is in flight from here, and a bad header, opcode or layout ends it. Its other checks and its effect are
the row of its opcode. A model that a MODEL_LOAD names starts no evaluation until the load ends (R246). -/
def cmdDispatch (f : Nat) (cspi : Bool) (s : State) : State :=
  let f := if cspi then 0 else f
  match s.waiting f cspi with
  | [] => s
  | p :: t =>
    match (if s.mayDispatch f cspi p then s.useArb .cmdRing f else none) with
    | none => s
    | some s =>
      let s := { s with seqr := { s.seqr with row := s.seqr.posts } }
      let s := if cspi then { s with cspi := { s.cspi with pktQ := t } } else s.modFn f (fun x => { x with fetched := t })
      let s := if f == 0 then { s with cspi := { s.cspi with alternate := !cspi } } else s
      let e : InFlight := { cseq := p.cseq, opcode := p.opcode, cspi := cspi, fence := p.fence, at_ := s.seqr.posts }
      let s := s.setRing f cspi (s.ring f cspi ++ [e])
      if p.badHeader then s.finish p.pkt (fastOpcode p.opcode) .badHeader
      else if !listedOpcode p.opcode then s.finish p.pkt (fastOpcode p.opcode) .badOpcode
      else if !s.packetDenied f p && p.badLayout then s.finish p.pkt (fastOpcode p.opcode) .badParam
      else if p.opcode == 0x1300 && mayAct f (s.ctxFn (byteAt p.bytes 16)) then
        s.modRunning (byteAt p.bytes 16) (fun c =>
          { c with models := Tab.set c.models (byteAt p.bytes 17) { Tab.get {} c.models (byteAt p.bytes 17) with loading := true } })
      else s

def execCmdDispatch (f : FnId) (cspi : Bool) (s : State) : Host.Outcome State Fault Refusal := .next (cmdDispatch f cspi s)

-- Replies (R327, R336).

/-- A reply (Table 13-5). -/
def replyBytes (r : Rec) : Bytes :=
  toLe 4 r.cseq.toNat ++ toLe 2 r.status.toNat ++ toLe 6 r.esn.toNat ++ toLe 8 r.dtb.toNat
    ++ (List.range 3).flatMap (fun i => toLe 4 (r.result.getD i 0).toNat)

/-- The oldest reply of a function goes to its reply ring while there is room, followed by the write-back; a failed write leaves it
in the queue with WB_ERR (log 32). A reply to an URGENT packet raises the interrupt at once. -/
def replyWrite (f : Nat) (ok : Bool) (s : State) : State :=
  let x := s.fn f
  match x.replyQ with
  | [] => s
  | r :: t =>
    let next := (x.rplProd + 1) % 2 ^ x.rplOrder
    if !s.ready || !x.enable || x.reset || next == x.rplCons then s
    else if !ok || !s.fnUp f then s.ringStatus f (fun x => { x with wbErr := true })
    else
      let s := s.hostWrite (x.rplBase + BitVec.ofNat 64 (32 * x.rplProd)) (replyBytes r)
      let s := if x.rplWb == 0 then s else s.hostWrite x.rplWb (toLe 4 next)
      let s := s.setFn f { x with replyQ := t, rplProd := next, unsigReplies := if r.urgent then 0 else x.unsigReplies + 1 }
      if r.urgent then s.raiseIrq f 0 else s

def execReplyWrite (f : FnId) (ok : Bool) (s : State) : Host.Outcome State Fault Refusal := .next (replyWrite f ok s)

/-- COAL_US or COAL_N is reached for replies: vector 0 (R336). -/
def execReplyInterrupt (f : FnId) (s : State) : Host.Outcome State Fault Refusal :=
  .next (if (s.fn f).unsigReplies == 0 then s else (s.modFn f (fun x => { x with unsigReplies := 0 })).raiseIrq f 0)

/-- The same for log records: vector 1 (R324). -/
def execLogInterrupt (f : FnId) (s : State) : Host.Outcome State Fault Refusal :=
  .next (if (s.fn f).unsigLogs == 0 then s else (s.modFn f (fun x => { x with unsigLogs := 0 })).raiseIrq f 1)

/-- The same for completion records: vector 2 (R324). -/
def execCompletionInterrupt (f : FnId) (s : State) : Host.Outcome State Fault Refusal :=
  .next (if (s.fn f).unsigCpls == 0 then s else (s.modFn f (fun x => { x with unsigCpls := 0 })).raiseIrq f 2)

-- The Event Sequencer (R76-R80).

/-- The next ESN: 0 is skipped. -/
def nextEsn (e : B48) : B48 := if e + 1 == 0 then 1 else e + 1

/-- The ESN of a reply goes where its result names it: host memory, or the CSPI result buffer (R454, R332). -/
def State.putEsn (s : State) (r : Rec) : State :=
  match r.esnTo with
  | none => s
  | some a =>
    let b := toLe 6 r.esn.toNat
    if r.cspi then { s with cspi := { s.cspi with result := s.cspi.result.take 4 ++ b ++ s.cspi.result.drop 10 } }
    else s.hostWrite a b

/-- A numbered reply goes to its queue, and its packet has completed (R338); a function in ring reset or FLR loses it (R328). -/
def State.takeReply (s : State) (r : Rec) : State :=
  let f := r.fn.toNat % 64
  let s := s.putEsn r
  let s := s.setRing f r.cspi ((s.ring f r.cspi).eraseP (fun e => e.posted && e.cseq == r.cseq))
  if r.cspi then { s with cspi := { s.cspi with replyQ := s.cspi.replyQ ++ [r] } }
  else if (s.fn f).reset then s
  else s.modFn f (fun x => { x with replyQ := x.replyQ ++ [r] })

/-- A numbered frame record: its ESN is kept, and each port whose metadata mask names the stream owes a datagram (R408). -/
def State.frameNumbered (s : State) (r : Rec) : State :=
  let st := bits r.arg0.toNat 0 8
  let fseq := BitVec.ofNat 16 (bits r.arg0.toNat 16 16)
  let s := s.modFrame st fseq (fun i => { i with esn := r.esn })
  { s with eths := Tab.mapVals (fun e : Eth =>
      if e.enabled && bit (e.field 40 8) st then { e with metaQ := e.metaQ ++ [(st, fseq)] } else e) s.eths }

/-- The Event Sequencer takes the oldest record of the input its arbiter grants, and numbers it (R76, R77): POWER_ON is the first record
after POR (R80), and a cause is numbered before its effect (R79). -/
def eventRecord (inp : Nat) (s : State) : State :=
  let i := s.seqr.input inp
  match i.dcq, (if s.seqPresents inp then s.useArb .sequencer inp ((List.range 28).filter s.seqPresents) else none) with
  | r :: t, some s =>
      let esn := nextEsn s.seqr.esn
      let r := { r with esn := esn, dtb := s.dtb.now }
      let s := { s with seqr := { s.seqr with esn := esn, inputs := Tab.set s.seqr.inputs inp ({ i with dcq := t } : SeqInput).pump }
                        boot := { s.boot with powerOnOwed := false } }
      if r.isReply then s.takeReply r
      else
        let s := { s with seqr := { s.seqr with logQ := s.seqr.logQ ++ [r] } }
        let s := s.capEvent r.code
        if r.typ == 1 then s.frameNumbered r else s
  | _, _ => s

def execEventRecord (input : Fin 28) (s : State) : Host.Outcome State Fault Refusal := .next (eventRecord input s)

/-- A source that lost records writes its OVERRUN once its buffer has room (R78). -/
def overrun (inp : Nat) (s : State) : State :=
  let i := (s.seqr.input inp).pump
  if i.lost == 0 || 16 ≤ i.buf.length then s
  else
    let j := ({ i with buf := i.buf ++ [overrunRec inp (min i.lost 0xFFFFFFFE)], lost := 0 } : SeqInput).pump
    { s with seqr := { s.seqr with inputs := Tab.set s.seqr.inputs inp j } }

def execOverrun (input : Fin 28) (s : State) : Host.Outcome State Fault Refusal := .next (overrun input s)

-- The distributor (R345, R349, R377).

/-- Units of an event record. -/
def Rec.units (r : Rec) : Nat := 2 + (r.ext.length + 15) / 16

/-- An event record in bytes (Table 13-10). -/
def recBytes (r : Rec) : Bytes :=
  let b := toLe 4 (packBits [(16, r.code), (8, r.source), (3, r.units), (1, 0), (4, r.typ)]) ++ toLe 6 r.esn.toNat ++ toLe 2 r.fn.toNat
    ++ toLe 4 r.arg0.toNat ++ toLe 8 r.dtb.toNat ++ toLe 8 r.arg1.toNat ++ r.ext
  b ++ List.replicate (16 * r.units - b.length) 0

/-- The 16-byte units of a byte string. -/
def unitsOf : Nat → Bytes → List Bytes
  | 0, _ => []
  | n + 1, b => b.take 16 :: unitsOf n (b.drop 16)

/-- The long log in HBM, while stack 0 can be written (R377). -/
def State.longLog (s : State) (us : List Bytes) : State :=
  if !s.stackOk 0 then s
  else
    let s := us.foldl (fun s u =>
      (s.hbmWrite (0x3C0000040 + 16 * (s.seqr.llProd % 16777212)) u : State) |> fun s =>
        { s with seqr := { s.seqr with llProd := s.seqr.llProd + 1 } }) s
    s.hbmWrite 0x3C0000000 (toLe 8 s.seqr.llProd)

/-- The log window (R349). -/
def State.logWindow (s : State) (us : List Bytes) : State :=
  us.foldl (fun s u => { s with seqr := { s.seqr with
    window := Tab.set s.seqr.window (s.seqr.winProd % 4096) (BitVec.ofNat 128 (leNat u))
    winProd := (s.seqr.winProd + 1) % 2 ^ 32 } }) s

/-- Whether a function's log ring takes a record (R349). -/
def State.logMatch (s : State) (f : Nat) (g : LogRing) (r : Rec) : Bool :=
  (bit g.filter 0 && r.fn.toNat == f) || (bit g.filter 1 && r.typ == 1 && s.streamFn (bits r.arg0.toNat 0 8) == f)
    || (bit g.filter 2 && r.fn.toNat == noFn)

/-- The LOG_GAP record of a ring. -/
def gapRec (f count : Nat) (dtb : B64) : Rec := { evRec .logGap 0xFF f count 0 with dtb := dtb }

/-- One record, or a LOG_GAP and the record, to a function's log ring; without room it is dropped and counted. -/
def State.ringLog (s : State) (f : Nat) (g : LogRing) (r : Rec) : State :=
  let x := s.fn f
  let n := 2 ^ g.order
  let rs := if x.gapCount == 0 then [r] else [gapRec f x.gapCount r.dtb, r]
  let us := rs.flatMap (fun r => unitsOf r.units (recBytes r))
  let free := n - 1 - (x.logProd + n - x.logCons % n) % n
  if free < us.length then
    s.setFn f { x with logDrop := x.logDrop + 1, gapCount := min (x.gapCount + 1) 0xFFFFFFFF }
  else if !s.fnUp f then s.ringStatus f (fun x => { x with wbErr := true })
  else
    let s := (us.zipIdx).foldl (fun s p => s.hostWrite (g.dest + BitVec.ofNat 64 (16 * ((x.logProd + p.2) % n))) p.1) s
    s.setFn f { x with logProd := (x.logProd + us.length) % n, gapCount := 0, unsigLogs := x.unsigLogs + rs.length }

/-- The distributor copies the oldest numbered record to the long log, the window and the matching rings. -/
def logDistribute (s : State) : State :=
  match s.seqr.logQ with
  | [] => s
  | r :: t =>
    let s := { s with seqr := { s.seqr with logQ := t } }
    let us := unitsOf r.units (recBytes r)
    let s := (s.longLog us).logWindow us
    (Tab.keys s.fns (fun x => x.logRing.isSome)).foldl (fun s f =>
      match (s.fn f).logRing with
      | some g => if s.logMatch f g r then s.ringLog f g r else s
      | none => s) s

def execLogDistribute (s : State) : Host.Outcome State Fault Refusal := .next (logDistribute s)

-- Frame records (R347).

/-- Whether every decision of a frame has been issued or skipped. -/
def State.settled (s : State) (st : Nat) (fseq : B16) : Bool :=
  let x := s.strm st
  let h := s.head (st / 4)
  let evals := match x.ctx.bind s.ctx with
    | some c => c.models.any (fun e : Nat × ModelSt => e.2.pending.contains (st, fseq)
        || (match e.2.running with | some r => r.1 == st && r.2.1 == fseq | none => false))
    | none => false
  !evals && !(match h.evPosted with | some e => e.1 == st && e.2.1 == fseq | none => false)
    && !h.focusHeld.any (fun e => e.stream == st && e.fseq == fseq)
    && !(match x.posted with | some p => p.1 == fseq && !(x.info fseq).any (fun i => bit i.dec 3) | none => false)

/-- The oldest frame of a stream whose record is due has it written. -/
def frameRecord (st : Nat) (s : State) : State :=
  let x := s.strm st
  match x.frames.find? (fun f => !f.written) with
  | none => s
  | some f =>
    if !f.out || !(f.has .dropped || s.settled st f.fseq) then s
    else
      let b := f.body
      let field := if (s.sdecl st).tail < 8 then 1 else 3
      let r : Rec := { evRec .frame (inField field) (s.streamFn st) (packBits [(8, st), (8, f.cause), (16, f.fseq.toNat)]) (leNat (b.take 8)) (b.drop 8)
                       with typ := 1 }
      let s := s.setStrm st { x with
        frameCount := x.frameCount + 1
        frames := ((x.frames.filter (fun g => g.written)).reverse.take 3).reverse ++ [{ f with written := true }]
          ++ (x.frames.filter (fun g => !g.written)).drop 1 }
      s.post (inField field) r

-- Reading a framed queue (R158, R161, R163, R164).

/-- The router that a control-plane packet reaches next, and the input it comes in at: 1 north, 2 east, 3 south, 4 west; none where the
output leads to an endpoint. -/
def ctrlNext (site out : Nat) : Option (Nat × Nat) :=
  match out with
  | 1 => if 32 ≤ site then some (site - 32, 3) else none
  | 2 => if site % 32 < 31 then some (site + 1, 4) else none
  | 3 => if site + 32 < 768 then some (site + 32, 1) else none
  | 4 => if 0 < site % 32 then some (site - 1, 2) else none
  | _ => none

/-- A control-plane packet goes on from a router's output queue (R135): to the next router's packet queue, through the arbiter of its
output, or to the endpoint that reads it. Which output of the next router it takes is free, since the spec gives no route (log 38). -/
def ctrlForward (site out : Nat) (s : State) : State :=
  let q : QId := .ctrl (Fin.ofNat 768 site) (Fin.ofNat 5 out)
  match (s.queue (queueCode q)).items with
  | [] => s.modQueue (queueCode q) (FQueue.read true (idleItem q))
  | i :: t =>
    match ctrlNext site out with
    | none => s.modQueue (queueCode q) (FQueue.read true (idleItem q))
    | some (n, inp) =>
      let to_ : QId := .ctrl (Fin.ofNat 768 n) (Fin.ofNat 5 (Config.unstated s.freeCount).toNat)
      let held := ((s.queue (queueCode to_)).items.map List.length).sum + (s.queue (queueCode to_)).opened.length
      match s.draw.useArb (match to_ with | .ctrl a b => .ctrl a b | _ => .sequencer) inp with
      | none => s
      | some r =>
        if capacity to_ < held + i.length then s
        else (r.modQueue (queueCode q) (fun x => { x with items := t, lastRead := i })).modQueue (queueCode to_) (fun x => { x with items := x.items ++ [i] })

/-- What a consumer reads: the words of an item. -/
def State.showRead (s : State) (q : QId) (ws : List B64) : State := s.modQueue (queueCode q) (fun x => { x with lastRead := ws })

/-- The little-endian words of `n` bytes of a byte string. -/
def wordsOf (n : Nat) (b : Bytes) : List B64 := (List.range ((b.length + n - 1) / n)).map (fun i => BitVec.ofNat 64 (fieldLe b (n * i) n))

/-- The consumer of a queue reads it. Replies and log records posted within the K4 come first: the reply DMA and the log writer take
them with what that does (R327, R345); the records of a completion queue and Spores leave by themselves once they may, so what is left
of those waits (R161, R384). -/
def queueRead (q : QId) (s : State) : State :=
  match q with
  | .reply f =>
    match (s.fn f).replyQ with
    | r :: _ => replyWrite f true (s.showRead q (wordsOf 4 (replyBytes r)))
    | [] => s.modQueue (queueCode q) (FQueue.read true (idleItem q))
  | .eventLog =>
    match s.seqr.logQ with
    | r :: _ => logDistribute (s.showRead q (wordsOf 8 (recBytes r)))
    | [] => s.modQueue (queueCode q) (FQueue.read false (idleItem q))
  | .ctrl site out => ctrlForward site out s
  | _ => s.modQueue (queueCode q) (FQueue.read (commitMode q) (idleItem q))

def execQueueRead (q : QId) (s : State) : Host.Outcome State Fault Refusal := .next (queueRead q s)

def execFrameRecord (st : StreamId) (s : State) : Host.Outcome State Fault Refusal := .next (frameRecord st s)

end Sys2Proof.Machine
end

