-- ==== Sys2Proof/Machine/Capture.lean ====
section
/-! DEFINITION. Capture and dump, statistics snapshots and the unit counter record (chapter 18). -/

namespace Sys2Proof.Machine

-- Capture (R457-R460).

/-- Units of the debug ring. -/
def capRing : Nat := 25165824

/-- A capture record header (Table 18-4). -/
def capHeader (typ src units fseq line arg flags : Nat) (dtb : B64) : Bytes :=
  toLe 1 typ ++ toLe 1 src ++ toLe 2 units ++ toLe 2 fseq ++ toLe 2 line ++ toLe 8 dtb.toNat ++ toLe 4 arg ++ toLe 4 flags ++ toLe 8 0

/-- The header of a record: FSEQ is 0 for STALL, LINE for COUNTERS and STALL, and FLAGS has two bits (Table 18-4). -/
def capRecHeader (r : CapRec) (units : Nat) (dtb : B64) : Bytes :=
  capHeader r.typ r.src.toNat units (if r.typ.val == 5 then 0 else r.fseq.toNat) (if 4 ≤ r.typ.val then 0 else r.line.toNat)
    r.arg.toNat (r.flags.toNat % 4) dtb

/-- Units written to the debug ring from unit `u` on, where stack 0 can be written. -/
def State.capWrite (s : State) (u : Nat) (b : Bytes) : State :=
  if s.stackOk 0 then s.hbmWrite (0x3D0000000 + 32 * (u % capRing)) b else s

/-- Whether a source captures: it is selected, and an EDGE_IN or TAIL_OUT record is of CAP_STREAM. -/
def Capture.takes (c : Capture) (r : CapRec) : Bool :=
  c.en && c.triggered && r.typ != 0 && bit c.src (r.typ - 1) && (2 < r.typ.val || r.src.toNat == c.stream)

/-- A capture source offers a record: it is written after the trigger, or discarded and counted where its buffer has no room
(R459). A record that would run past the ring's end goes behind a PAD; in STOP mode capture ends instead of overwriting. -/
def captureRecord (r : CapRec) (room : Bool) (s : State) : State :=
  if !s.ready || !s.cap.takes r then s
  else if !room then
    let c := s.cap
    let n := c.lost + 1
    let due := match c.lostAt with | some a => decide (a + 200000 ≤ s.kcycles) | none => true
    if due then ({ s with cap := { c with drop := c.drop + 1, lost := 0, lostAt := some s.kcycles } }).logCapture .capDrop n
    else { s with cap := { c with drop := c.drop + 1, lost := n } }
  else
    let n := 1 + (r.payload.length + 31) / 32
    let u := s.cap.prod.toNat
    let left := capRing - u % capRing
    let pad := if left < n then left else 0
    if s.cap.stop && capRing < u + pad + n then s.capEnd
    else
      let s := if pad == 0 then s else s.capWrite u (capHeader 0xE 0 pad 0 0 0 0 s.dtb.now ++ List.replicate (32 * (pad - 1)) 0)
      let b := capRecHeader r n s.dtb.now ++ r.payload
      let s := s.capWrite (u + pad) (b ++ List.replicate (32 * n - b.length) 0)
      { s with cap := { s.cap with prod := BitVec.ofNat 64 (u + pad + n) } }

def execCaptureRecord (r : CapRec) (room : Bool) (s : State) : Host.Outcome State Fault Refusal := .next (captureRecord r room s)

/-- CAP_EN is written: setting it clears CAP_PROD and CAP_TRIGGERED, and with CAP_TRIG 0 is the trigger (R457, R460). -/
def State.writeCapEn (s : State) (on : Bool) : State :=
  if !s.ready || s.cap.en == on then s
  else if on then
    let s := { s with cap := { s.cap with en := true, prod := 0, triggered := false, frames := 0 } }
    if s.cap.trig == 0 then s.capFire else s
  else { s with cap := { s.cap with en := false } }

def execCapEn (on : Bool) (s : State) : Host.Outcome State Fault Refusal := .next (s.writeCapEn on)

/-- CAP_DROP is read and clears (RCL). -/
def execCapDropRead (s : State) : Host.Outcome State Fault Refusal :=
  .next { s with greg := { s.greg with lastRead := BitVec.ofNat 64 s.cap.drop.toNat }, cap := { s.cap with drop := 0 } }

/-- DUMP_GO is written 1: a dump starts, or one is kept for after the dump that runs (R461). -/
def State.writeDumpGo (s : State) : State :=
  if !s.ready then s
  else if s.cap.dumpGo then { s with cap := { s.cap with dumpAgain := true } }
  else { s with cap := { s.cap with dumpGo := true } }

def execDumpGo (s : State) : Host.Outcome State Fault Refusal := .next s.writeDumpGo

/-- Whether a dump's addresses and length are good: aligned, in bound, in stacks that are present and can be read. -/
def State.dumpValid (s : State) : Bool :=
  let c := s.cap
  let a := c.dumpSrc.toNat
  a % 32 == 0 && c.dumpLen % 32 == 0 && decide (c.dumpLen ≤ (if c.dumpDst == 0 then 4096 else 16777216))
    && decide (a + c.dumpLen ≤ s.part.variant.stackCount * 17179869184)
    && s.stackOk (a / 17179869184) && s.stackOk ((a + c.dumpLen - 1) / 17179869184)

/-- A dump ends (R461): its bytes are in host memory or in the CSPI result buffer, or it has failed. One kept begins next. -/
def dumpDone (ok : Bool) (s : State) : State :=
  let c := s.cap
  if !c.dumpGo then s
  else
    let s := { s with cap := { c with dumpGo := c.dumpAgain, dumpAgain := false } }
    if ok && s.dumpValid && (c.dumpDst == 0 || (s.ep 0).up) then
      let b := Memory.readBytes s.hbm c.dumpSrc.toNat c.dumpLen
      let s := if c.dumpDst == 0 then { s with cspi := { s.cspi with result := b } } else s.hostWrite c.dumpDst b
      s.log .dumpDone inHbm 0 c.dumpLen c.dumpSrc.toNat
    else ({ s with cap := { s.cap with dumpErr := true } }).log .dumpErr inHbm 0 c.dumpLen c.dumpSrc.toNat

def execDumpDone (ok : Bool) (s : State) : Host.Outcome State Fault Refusal := .next (dumpDone ok s)

-- The unit counter record (R454).

def Window.counts (w : Window) : Bytes :=
  toLe 4 w.frame.toNat ++ toLe 4 w.active.toNat ++ toLe 4 w.tagWait.toNat ++ toLe 4 w.xwait.toNat ++ toLe 4 w.stall.toNat ++ toLe 4 w.bank.toNat

/-- Unit counter record of a site (Table 18-2). -/
def unitRecord (site : Nat) (u : Unit) : Bytes :=
  toLe 2 site ++ toLe 1 (kindOf site).code
    ++ toLe 1 (packBits [(1, if u.fc.valid then 1 else 0), (1, if u.frozen then 1 else 0), (1, if u.halted then 1 else 0)])
    ++ toLe 1 u.fc.stream ++ toLe 1 u.fc.fseq ++ toLe 2 0 ++ u.fc.counts
    ++ toLe 1 (Tab.get 0 u.qpeak 0) ++ toLe 1 (Tab.get 0 u.qpeak 1) ++ toLe 1 (Tab.get 0 u.qpeak 2) ++ toLe 1 u.lanePeak
    ++ toLe 1 (Tab.get 0 u.skidPeak 0) ++ toLe 1 (Tab.get 0 u.skidPeak 1) ++ toLe 1 (Tab.get 0 u.skidPeak 2) ++ toLe 1 0
    ++ toLe 4 (min ((u.haz.map (fun e : Nat × B32 => e.2.toNat)).sum) 0xFFFFFFFF) ++ toLe 4 u.eclCyc.toNat
    ++ toLe 8 u.active.toNat ++ toLe 8 u.stallCyc.toNat

-- Statistics snapshots (R342, R456).

/-- The statistics V-units a mask names, by index and site. -/
def Ctx.maskSites (c : Ctx) (vmask : B32) : List (Nat × Nat) :=
  (List.range 32).filterMap (fun i => if vmask.getLsbD i then (c.statSite i).map (fun site => (i, site)) else none)

/-- A snapshot block of 4,112 bytes (R342). -/
def snapBlock (i site fseq hist : Nat) (b : Bank) : Bytes :=
  toLe 1 i ++ toLe 1 0 ++ toLe 2 site ++ toLe 2 fseq ++ toLe 2 b.channels ++ toLe 1 hist ++ toLe 7 0
    ++ (List.range 256).flatMap (fun c => toLe 4 (Tab.get 0 b.maxabs c) ++ toLe 4 (Tab.get 0 b.sat c) ++ toLe 4 (Tab.get 0 b.sum c))
    ++ (List.range 256).flatMap (fun k => toLe 4 (Tab.get 0 b.hist k))

/-- A snapshot ends once every bank it names is closed and held: whole blocks are written, the banks are let go, and the command
replies. -/
def snapshotComplete (o : Nat) (s : State) : State :=
  match s.ctx o with
  | none => s
  | some c =>
    match c.snap with
    | none => s
    | some n =>
      let sites := c.maskSites n.vmask
      if !sites.all (fun e => (s.unit e.2).bankHeld && (s.unit e.2).lastClosed.isSome) then s
      else
        let banks := sites.filterMap (fun e => (s.unit e.2).lastClosed.map (fun b => (e, b)))
        let fseq := match banks with | x :: _ => ((s.strm n.stream).fullSeq x.2.fseq).toNat | [] => 0
        let blocks := banks.map (fun x => snapBlock x.1.1 x.1.2 ((s.strm n.stream).fullSeq x.2.fseq).toNat (s.unit x.1.2).histChan x.2)
        let whole := blocks.take (n.length / 4112)
        let r := s.deliver n.pkt n.dest (whole.flatMap id)
        let s := { r.2 with units := Tab.upd {} (fun u : Unit => { u with bankHeld := false }) r.2.units (sites.map (fun e : Nat × Nat => e.2)) }
        let s := s.modRunning o (fun c => { c with snap := none })
        let sent := if r.1 then 4096 else 4112 * whole.length
        s.finish n.pkt true (if r.1 || whole.length < blocks.length then .truncated else .ok) [fseq, sent]

def execSnapshotComplete (o : Owner) (s : State) : Host.Outcome State Fault Refusal := .next (snapshotComplete o s)

end Sys2Proof.Machine
end

