-- ==== Sys2Proof/Machine/Tick.lean ====
section
/-! DEFINITION. One KCLK cycle with no command waiting (log 5): the DTB advances by its addend in use (R69, R71), its shadows
follow (R74, R403), and the Diapause counters count (R420). -/

namespace Sys2Proof.Machine

/-- Nominal addend: 5 ns in 2^-32 ns (R69). -/
def addendNominal : Int := 5 * 4294967296

/-- The largest departure of the addend in use from nominal: 1,000 ppm (R69). -/
def addendBound : Int := addendNominal * 1000 / 1000000

/-- The slew adjustment of the next cycle: at most SLEW_MAX of nominal, at most what remains, and such that the addend in
use stays within the bound of R69 (R71). -/
def Dtb.slewStep (d : Dtb) : Int :=
  let lim : Int := addendNominal * d.slewMax / 1000000
  let want := clampI (-lim) lim d.slew
  let base : Int := d.base
  let lo := min 0 (addendNominal - addendBound - base)
  let hi := max 0 (addendNominal + addendBound - base)
  clampI lo hi want

/-- The DTB after one KCLK cycle. -/
def Dtb.advance (d : Dtb) : Dtb :=
  let a := d.slewStep
  let total : Nat := (d.frac + (d.base + a).toNat)
  let ns := total / 4294967296
  { d with now := d.now + BitVec.ofNat 64 ns, frac := total % 4294967296, slew := d.slew - a
           shadows := d.shadows.map (fun e => (e.1, e.2 + BitVec.ofNat 64 ns)) }

/-- One KCLK cycle. Under POR nothing counts (R69). -/
def kclkCycle (s : State) : State :=
  if s.boot.phase == .por then s
  else
    let s := { s with kcycles := s.kcycles + 1, dtb := s.dtb.advance }
    if s.supply.diapause then
      { s with supply := { s.supply with dipTime := s.supply.dipTime + 1, dipNow := s.supply.dipNow + 1
                                         dipLongest := BitVec.ofNat 32 (max s.supply.dipLongest.toNat (min (s.supply.dipNow + 1) 0xFFFFFFFF)) } }
    else s

end Sys2Proof.Machine
end

