-- ==== Sys2Proof/Machine/Clocks.lean ====
section
/-! DEFINITION. Loss and return of a clock (R84, R85), the DTB's steps and slews (R70-R75), and the PTP servo (R402-R404;
log 15). -/

namespace Sys2Proof.Machine

-- Clocks, by the codes of R486: 0-3 ACLK, 4 SCLK, 5 and 6 PXCLK, 7 and 8 HCLK, 9 and 10 ECLK, 11-14 MCLK, 15 KCLK, 16 XIN.

/-- Whether this variant has a clock. -/
def Variant.hasClock (v : Variant) (c : Nat) : Bool :=
  if c < 5 || 15 ≤ c then true else if 11 ≤ c then c - 11 < v.stackCount else (c - 5) % 2 < v.ports

/-- One stream of a Port die whose PXCLK is lost: it ends, its frame DROPPED; the Field side sees the frame's end (R85). -/
def State.loseStream (s : State) (st : Nat) : State :=
  let x := s.strm st
  let tail : List BufItem := match x.edge with | some e => [BufItem.eof e.fseq] | none => []
  let started := x.started
  let s := s.modStrm st (fun x =>
    { (x.dropOpen Cause.clkLoss.code) with
        frame := none, rxLine := none, buf := [], missing := [], prefetch := [], late := false, oq := [], openBuf := none, granted := none
        atEdge := x.atEdge ++ tail })
  if started then
    let s := s.endStream st
    match x.ctx with | some o => s.checkStopping o | none => s
  else s

/-- A Port die loses PXCLK (Table 03-5). Its heads' cause codes stay as they are (DESIGN CHOICE, log 43: Table 13-6 gives none for a lost
clock). -/
def State.losePort (s : State) (d : Nat) : State :=
  let s := ((List.range 32).map (fun i => 32 * d + i)).foldl (fun s st =>
    if (s.strm st).ctx.isSome || (s.strm st).started then s.loseStream st else s) s
  let s := ((List.range 8).map (fun i => 8 * d + i)).foldl (fun s h =>
    if (s.head h).state == .absent then s
    else
      let s := (s.dropCommit h).dropHeadCmds h .headFault .hwError
      s.modHead h (fun x => { x with state := .fault, i3c := [], authFailed := false, focusHeld := none, evPosted := none })) s
  let s := s.modEp d (fun e => { e with up := false })
  let s := s.ethLink d false
  [2 * d, 2 * d + 1].foldl (fun s p => s.linkDown p 2) s

/-- Contexts that a lost stack stops: those that read a replay source from it. -/
def State.replaysFrom (s : State) (k o : Nat) : Bool :=
  (s.ctxStreams o).any (fun st => match (s.strm st).replay with
    | some r => (s.strm st).source == 1 && !r.host && r.src / 17179869184 == k
    | none => false)

/-- What the loss of a clock does (Table 03-5). -/
def State.loseClock (s : State) (c : Nat) : State :=
  if 15 ≤ c then
    let s := { s with dtb := { s.dtb with uncertain := true } }
    if s.boot.phase == .borHold || s.boot.phase == .thermalHold || s.boot.phase == .clockHold then s
    else s.holdReset 4 false .clockHold
  else if c < 4 then
    let s := s.modField c (fun f => { f with down := true })
    (s.liveCtxs.filter (fun o => s.usesField o c)).foldl (fun s o => s.faultCtx o .clkLoss) s
  else if c = 4 then s.liveCtxs.foldl (fun s o => s.faultCtx o .clkLoss) s
  else if c < 7 then s.losePort (c - 5)
  else if c < 9 then s.modEp (c - 7) (fun e => { e with up := false })
  else if c < 11 then s.ethLink (c - 9) false
  else (s.liveCtxs.filter (fun o => s.replaysFrom (c - 11) o)).foldl (fun s o => s.faultCtx o .clkLoss) s

/-- The least and the greatest expected count of a clock in a 1 us window, in thousandths (Table 03-1, R84): the two end points of a
Field clock that slews, halved in Diapause (R61; log 43). -/
def State.expectedCount (s : State) (c : Nat) : Nat × Nat :=
  if c < 4 then
    let x := s.field c
    let a := pointKhz x.point
    let b := match x.target with | some t => if x.raising || x.lowering then a else pointKhz t | none => a
    let h := fun (v : Nat) => if s.supply.diapause then v / 2 else v
    (h (min a b), h (max a b))
  else
    let v := if c = 4 then 2000000 else if c < 9 then 1000000 else if c < 11 then 390625 else if c < 15 then 1600000
      else if c = 15 then 200000 else 25000
    (v, v)

/-- Whether a window's count declares a loss, or a fast clock (R84). -/
def State.clockOff (s : State) (e : Ev) (c count : Nat) : Bool :=
  let x := s.expectedCount c
  if e == .clkFast then decide (110 * x.2 < 100 * (1000 * count)) else decide (100 * (1000 * count) < 50 * x.1)

/-- A clock is declared lost or fast, once until it returns: logged, and CLK_EVENT set (R84). The count is that of the second of the two
windows. -/
def State.declareClock (s : State) (e : Ev) (c count : Nat) : State :=
  if s.boot.phase == .por || s.lostClocks.contains c || !s.part.variant.hasClock c || !s.clockOff e c count then s
  else
    let s := s.log e inClk noFn c count
    let s := { s with greg := { s.greg with clkEvent := true }, lostClocks := s.lostClocks ++ [c] }
    s.loseClock c

def execClkLoss (clk : Fin 17) (count : B32) (s : State) : Host.Outcome State Fault Refusal := .next (s.declareClock .clkLoss clk count.toNat)

def execClkFast (clk : Fin 17) (count : B32) (s : State) : Host.Outcome State Fault Refusal := .next (s.declareClock .clkFast clk count.toNat)

/-- The Port die of a restored PXCLK is reset: its links start afresh, its heads must be attached again, and what its
sources had buffered for the log is gone (R85, R78). -/
def State.resetPort (s : State) (d : Nat) : State :=
  let s := ((List.range 8).map (fun i => 8 * d + i) ++ [20 + d]).foldl (fun s i => s.resetSource i) s
  { s with heads := s.heads.map (fun e : Nat × Head =>
             if dieOfHead e.1 == d then (e.1, { fn := e.2.fn, lens := e.2.lens }) else e)
           yports := s.yports.map (fun e : Nat × Yport => if dieOfYallek e.1 == d then (e.1, { sent := e.2.sent }) else e)
           eths := s.eths.map (fun e : Nat × Eth => if e.1 == d then (e.1, { sent := e.2.sent }) else e)
           senders := s.senders.filter (fun e : Nat × Sender => e.1 / 16 != d)
           pools := s.pools.map (fun e : Nat × Pool => if dieOfPool e.1 == d then (e.1, { fn := e.2.fn }) else e) }

/-- The Stall Hub is reset (R85). -/
def State.resetHub (s : State) : State :=
  let os := s.liveCtxs
  let s := os.foldl (fun s o => s.unfreezeGroup o) s
  { s with groups := s.groups.map (fun e : Nat × Group => (e.1, { masked := e.2.masked })), origins := [] }

/-- A lost clock's PLL has relocked (Table 03-5). XIN and KCLK return by XIN_RESTORED. -/
def clkRestored (c : Nat) (s : State) : State :=
  if !s.lostClocks.contains c || 15 ≤ c then s
  else
    let s := { s with lostClocks := s.lostClocks.filter (fun x => x != c) }
    let s := s.log .clkRestored inClk noFn c 0
    if c < 4 then s.fieldReset c noFn 1
    else if c = 4 then s.resetHub
    else if c < 7 then s.resetPort (c - 5)
    else if c < 11 then s
    else
      -- the stack trains again
      let s := s.modStackOf (c - 11) (fun k => { k with trained := false })
      { s with boot := { s.boot with trainLeft := s.boot.trainLeft ++ [c - 11] } }

def execClkRestored (clk : Fin 17) (s : State) : Host.Outcome State Fault Refusal := .next (clkRestored clk s)

/-- XIN has been steady for 1 ms: KCLK returns to its PLL, and the device takes a warm reset (R85). -/
def xinRestored (s : State) : State :=
  if !s.lostClocks.any (fun c => c == 15 || c == 16) then s
  else
    let s := { s with lostClocks := s.lostClocks.filter (fun c => c != 15 && c != 16) }
    if s.boot.phase != .clockHold then s
    else if s.supply.shutdown then { s with boot := { s.boot with phase := .thermalHold } }
    else s.warmReset 4 false

def execXinRestored (s : State) : Host.Outcome State Fault Refusal := .next (xinRestored s)

-- The DTB (R70-R75).

/-- The apply time of a step requested now: the first whole microsecond at least 4 us later (R72). -/
def stepTime (now : B64) : B64 := BitVec.ofNat 64 ((now.toNat + 4999) / 1000 * 1000)

/-- A step is accepted (R72). -/
def State.requestStep (s : State) (delta : Int) (fn : B16) (k : Option Pkt) : State :=
  { s with dtb := { s.dtb with pendingStep := some { tApply := stepTime s.dtb.now, delta := delta, fn := fn, pkt := k } } }

/-- A new offset to remove by slewing replaces what remains of another (R71); DTB_UNCERTAIN ends with it (R85). -/
def State.slewBy (s : State) (offset : Int) : State :=
  { s with dtb := { s.dtb with slew := offset * 4294967296, slewing := offset != 0, uncertain := false } }

/-- The accepted step applies: master and shadows change together, a slew in progress ends, the next pulse of every head
is sought from 1 us later, a frame with a line already stamped will carry TIME_STEP, and lines already stamped are not timed
(R72, R75, R453). -/
def dtbStep (s : State) : State :=
  match s.dtb.pendingStep with
  | none => s
  | some r =>
    if s.dtb.now.toNat < r.tApply.toNat || s.boot.phase == .por then s
    else
      let dv := BitVec.ofInt 64 r.delta
      let d := s.dtb
      let s := { s with dtb := { d with now := d.now + dv, shadows := Tab.mapVals (fun v : B64 => v + dv) d.shadows, slew := 0
                                        slewing := false, uncertain := false, pendingStep := none } }
      let s := { s with heads := Tab.mapVals (fun h : Head =>
          { h with fsyncFrom := (r.tApply + dv).toNat + 1000
                   fsyncNext := h.fsyncNext.map (fun p : Fsync × Nat => (p.1, ((p.2 : Int) + r.delta).toNat)) }) s.heads }
      let s := { s with streams := Tab.mapVals (fun x : Strm =>
          let cur := x.frame.any (fun f : LinkFrame => f.cur.isSome)
          let older := fun (i : BufItem) => match i with
            | .line l => BufItem.line { l with flags := orBit l.flags 5 }
            | .eof q => BufItem.eof q
          { x with frames := x.frames.map (fun f : FrameInfo =>
                     if !f.out && !f.written && (0 < f.lines || (cur && x.frame.any (fun g : LinkFrame => g.fseq == f.fseq))) then { f with stepped := true } else f)
                   frame := x.frame.map (fun f : LinkFrame => { f with prevStamp := none, old := f.cur.isSome })
                   stampLast := none
                   buf := x.buf.map older, missing := x.missing.map older, atEdge := x.atEdge.map older
                   rxLine := x.rxLine.map (fun p : Line × Bytes => ({ p.1 with flags := orBit p.1.flags 5 }, p.2))
                   lineTags := x.lineTags.map (fun t : B16 × Nat × B64 × Bool × Bool => (t.1, t.2.1, t.2.2.1, t.2.2.2.1, true))
                   toOut := x.toOut.map (fun l : OutLine => { l with untimed := true })
                   oq := x.oq.map (fun l : OutLine => { l with untimed := true }) }) s.streams }
      let s := s.log .dtbStep inMc r.fn.toNat 0 r.tApply.toNat (toLe 8 (uns 64 r.delta) ++ toLe 8 0)
      match r.pkt with
      | some k => s.finish k false .ok
      | none => s

def execDtbStep (s : State) : Host.Outcome State Fault Refusal := .next (dtbStep s)

/-- A slewed offset has been removed, once nothing of it is left: the slew ends, and the addend in use is the base addend (R71). -/
def execDtbOffsetRemoved (s : State) : Host.Outcome State Fault Refusal :=
  .next (if s.boot.phase == .por || s.dtb.slew != 0 then s else { s with dtb := { s.dtb with slewing := false } })

/-- The whole-microsecond realignment of the shadows (R74, R403). -/
def execDtbShadowRealign (s : State) : Host.Outcome State Fault Refusal :=
  .next (if s.boot.phase == .por then s
    else { s with dtb := { s.dtb with shadows := [(0, s.dtb.now), (1, s.dtb.now), (2, s.dtb.now), (3, s.dtb.now)] } })

-- PTP (R402-R404; log 15).

/-- A base addend within the bound of R69: the servo's choice is free (log 15). -/
def servoAddend (n : Nat) : Nat :=
  (addendNominal - addendBound).toNat + (Config.unstated n).toNat % (2 * addendBound + 1).toNat

/-- The servo removes a measured offset (R71). -/
def State.servo (s : State) (offset : Int) : State :=
  let s := { s.draw with dtb := { s.dtb with base := servoAddend s.freeCount, holdover := false } }
  if offset.natAbs ≤ s.dtb.threshold || s.dtb.slewOnly then s.slewBy offset
  else if s.dtb.pendingStep.isSome then s
  else { s with dtb := { s.dtb with slew := 0, slewing := false } }.requestStep offset 0xFFFF none

/-- A two-step Sync with its timestamps: the offset from the master is t2 - t1 less the path delay, and the DTB moves by
its negative (R402). -/
def ptpSync (p : Nat) (t1 t2 : B64) (s : State) : State :=
  let e := s.eth p
  if !s.ethLive p || !e.up || e.master.isNone then s
  else
    let s := s.setEth p { e with t1 := t1, t2 := t2, synced := true }
    if s.dtb.mode != .ptp || s.dtb.ptpPort != p then s
    else s.servo (e.delay - (t2 - t1).toInt)

def execPtpSync (port : Fin 2) (t1 : B64) (t2 : B64) (s : State) : Host.Outcome State Fault Refusal := .next (ptpSync port t1 t2 s)

/-- Delay_Req and its response: the path delay is half of the two ways (R402). -/
def execPtpDelayReq (port : Fin 2) (t3 : B64) (t4 : B64) (s : State) : Host.Outcome State Fault Refusal :=
  .next (
    let e := s.eth port
    if !s.ethLive port || !e.up || e.master.isNone then s
    else s.setEth port { e with delay := ((e.t2 - e.t1).toInt + (t4 - t3).toInt) / 2 })

/-- The data-set comparison of the best-master algorithm: the lexicographically smaller set is better (log 15). -/
def betterMaster (a b : PtpMaster) : Bool :=
  let key := fun (m : PtpMaster) => ((m.priority1.toNat * 2 ^ 32 + m.quality.toNat) * 2 ^ 8 + m.priority2.toNat) * 2 ^ 64 + m.clockId.toNat
  key a < key b

/-- An Announce of the configured domain: a better master, or new data of the present one, is taken, and a change of
master logged (R402). -/
def ptpAnnounce (p : Nat) (domain : B8) (m : PtpMaster) (s : State) : State :=
  let e := s.eth p
  if !s.ethLive p || !e.up || domain.toNat != e.field 16 1 then s
  else
    match e.master with
    | none => (s.setEth p { e with master := some m }).log .ptpMaster inMc noFn p m.clockId.toNat
    | some b =>
      if m.clockId == b.clockId then s.setEth p { e with master := some m }
      else if betterMaster m b then (s.setEth p { e with master := some m }).log .ptpMaster inMc noFn p m.clockId.toNat
      else s

def execPtpAnnounce (port : Fin 2) (domain : B8) (m : PtpMaster) (s : State) : Host.Outcome State Fault Refusal :=
  .next (ptpAnnounce port domain m s)

/-- No Sync for 4 intervals: the port has no valid master; the servo's port with no other to move to holds over, also when no Sync ever
came (R70, R404). -/
def ptpHoldover (p : Nat) (s : State) : State :=
  let s := s.modEth p (fun e => { e with synced := false, master := none })
  if s.dtb.mode == .ptp && s.dtb.ptpPort == p && (s.eth (1 - p)).master.isNone && !s.dtb.holdover then
    ({ s with dtb := { s.dtb with holdover := true } }).log .ptpHoldover inMc noFn p 0
  else s

def execPtpHoldover (port : Fin 2) (s : State) : Host.Outcome State Fault Refusal := .next (ptpHoldover port s)

/-- The servo moves to port 1 when port 0 has no master and port 1 has, and back when port 0 has one and port 1 has lost
its own (R404). -/
def execPtpPort (s : State) : Host.Outcome State Fault Refusal :=
  .next (
    let m0 := (s.eth 0).master.isSome
    let m1 := (s.eth 1).master.isSome
    let port := if s.dtb.ptpPort == 0 then (if !m0 && m1 then 1 else 0) else (if m0 && !m1 then 0 else 1)
    if port == s.dtb.ptpPort then s
    else ({ s with dtb := { s.dtb with ptpPort := port } }).log .ptpPort inMc noFn port 0)

end Sys2Proof.Machine
end

