-- ==== Sys2Proof/Machine/RegMap.lean ====
section
/-! DEFINITION. The register map (chapter 14, Tables 13-2, 16-7, 18-3): for every block, its fields with their place, class, value,
and what a write and a read of them do. -/

namespace Sys2Proof.Machine

/-- The field classes of Table 14-2. -/
inductive Cls where
  | rw | ro | w1c | w1s | cnt | rcl | max
  deriving DecidableEq, Repr

/-- A register field: byte offset of its first word in its block, lowest bit, width, class, value, what a write stores (for W1C and
W1S the bits written 1), and what a read does besides. -/
structure Reg where
  off : Nat
  lo : Nat
  w : Nat
  cls : Cls
  get : State → Nat
  put : Nat → State → State := fun _ s => s
  onRead : State → State := fun s => s

/-- A read-only field. -/
def roReg (off lo w : Nat) (get : State → Nat) : Reg := { off := off, lo := lo, w := w, cls := .ro, get := get }

def oneIf (b : Bool) : Nat := if b then 1 else 0

-- Identity block (R356) and capability list (R357, R358).

/-- Working units of a kind (R90). -/
def State.working (s : State) (k : UKind) : Nat := ((List.range 768).filter (fun i => kindOf i == k && s.works i)).length

/-- The working units of each kind that a harvest grade guarantees (Table 00-3). -/
def guaranteed (gradeB : Bool) : UKind → Nat
  | .m => if gradeB then 352 else 400
  | .v => if gradeB then 84 else 96
  | .s => if gradeB then 168 else 192
  | .t => if gradeB then 28 else 32
  | .p => 20

/-- The part has what its grade guarantees (R4). -/
def State.gradeOk (s : State) : Bool := [UKind.m, .v, .s, .t, .p].all (fun k => decide (guaranteed s.part.gradeB k ≤ s.working k))

/-- Word `i` of the fuse map: bit 1 for a site whose unit works (R90). -/
def State.fuseWord (s : State) (i : Nat) : Nat := (List.range 32).foldl (fun a b => a + (if s.works (32 * i + b) then 2 ^ b else 0)) 0

/-- The header of a capability record of version 1 (R357). -/
def capHead (next id : Nat) : Nat := packBits [(12, id), (8, 1), (12, next / 16)]

/-- SHA-256 of the head root public key, X then Y (R356). -/
def rootDigest : Bytes := sha256 (toLe 32 Config.headRootX ++ toLe 32 Config.headRootY)

/-- Four bytes in a word. -/
def word4 (a b c d : Nat) : Nat := packBits [(8, a), (8, b), (8, c), (8, d)]

/-- A word of the capability list, by its offset in the identity block (Table 14-4). -/
def State.capWord (s : State) (o : Nat) : Nat :=
  let v := s.part.variant
  let lowMask := fun (n : Nat) => 2 ^ n - 1
  match o with
  | 0x040 => if s.ready then capHead 0x050 0x001 else 0
  | 0x044 => word4 24 32 12 16
  | 0x048 => word4 4 16 16 0
  | 0x04C => packBits [(16, 256), (16, 8)]
  | 0x050 => capHead 0x0C0 0x002
  | 0x054 => packBits [(16, s.working .m), (16, s.working .v)]
  | 0x058 => packBits [(16, s.working .s), (8, s.working .t), (8, s.working .p)]
  | 0x0C0 => capHead 0x0D0 0x003
  | 0x0C4 => word4 64 40 24 8
  | 0x0C8 => word4 96 64 8 24
  | 0x0CC => packBits [(16, 256), (8, 4), (8, 16)]
  | 0x0D0 => capHead 0x0E0 0x004
  | 0x0D4 => word4 64 2 22 32
  | 0x0D8 => word4 48 7 8 112
  | 0x0DC => word4 16 2 0 0
  | 0x0E0 => capHead 0x0F0 0x005
  | 0x0E4 => packBits [(16, lowMask v.heads), (4, 4), (4, 4), (8, 8)]
  | 0x0E8 => packBits [(16, 4500), (16, 12500)]
  | 0x0EC => packBits [(16, 4096), (16, 8191)]
  | 0x0F0 => capHead 0x100 0x006
  | 0x0F4 => packBits [(8, (List.range 4).foldl (fun a k => a + (if (s.stackOf k).trained then 2 ^ k else 0)) 0), (8, 16), (16, 6400)]
  | 0x0F8 => 16
  | 0x0FC => 819200
  | 0x100 => capHead 0x110 0x007
  | 0x104 => packBits [(8, lowMask v.yalleks), (8, 8), (8, 32)]
  | 0x108 => packBits [(16, 64), (16, 1024)]
  | 0x10C => packBits [(16, 4), (16, 180)]
  | 0x110 => capHead 0x120 0x008
  | 0x114 => packBits [(4, lowMask v.ports), (5, 31)]
  | 0x120 => capHead 0x130 0x009
  | 0x124 => packBits [(16, 512), (8, 6), (8, 8)]
  | 0x128 => packBits [(16, 64), (16, 8192)]
  | 0x12C => packBits [(8, 21), (8, 32), (16, 256)]
  | 0x130 => capHead 0x140 0x00A
  | 0x134 => 0x77F
  | 0x138 => word4 (uns 8 (-32)) 31 (uns 8 (-8)) 7
  | 0x13C => 8
  | 0x140 => capHead 0x150 0x00B
  | 0x144 => packBits [(8, 1), (8, 3), (16, 0x07FE)]
  | 0x148 => packBits [(1, oneIf s.modes.hazard), (1, oneIf s.modes.hazFault)]
  | 0x150 => capHead 0x160 0x00C
  | 0x154 => word4 64 v.ports (if v.ports == 2 then 62 else 63) 4
  | 0x160 => capHead 0x190 0x00D
  | 0x164 => packBits [(4, s.boot.bootSrc.toNat), (4, 1), (1, 1)]
  | 0x168 => s.boot.secver.toNat
  | 0x190 => capHead 0x1B0 0x00E
  | 0x194 => word4 7 3 0 0
  | 0x198 => packBits [(16, 400), (16, 550)]
  | 0x19C => packBits [(16, 700), (16, 850)]
  | 0x1A0 => packBits [(16, 1000), (16, 1125)]
  | 0x1A4 => 1250
  | 0x1A8 => packBits ((List.range 4).map (fun f => (4, (s.field f).point)))
  | 0x1B0 => capHead 0 0x00F
  | 0x1B4 => packBits [(16, 4), (16, 1024)]
  | 0x1B8 => 0x3FF
  | 0x1BC => word4 0x17 0x12 0 0
  | _ =>
    if 0x060 ≤ o && o < 0x0C0 then s.fuseWord ((o - 0x060) / 4)
    else if 0x170 ≤ o && o < 0x190 then fieldLe rootDigest (o - 0x170) 4
    else 0

/-- Identity block (Table 14-3, Table 14-4), near an offset. VF_MAP is a 64-bit field of record 0x00C. -/
def identRegs (o : Nat) : List Reg :=
  let o8 := o / 8 * 8
  if o8 < 0x020 then
    [ roReg 0x000 0 32 (fun _ => 0x4449344B),
      roReg 0x004 0 32 (fun s => word4 s.part.step.toNat s.part.variant.ports s.part.variant.stackCount s.part.variant.heads),
      roReg 0x008 0 32 (fun s => word4 (oneIf s.part.gradeB) 64 0 0),
      roReg 0x00C 0 32 (fun s => if s.ready then s.boot.fwVersion.toNat else 0),
      roReg 0x010 0 64 (fun s => s.part.dieId.toNat),
      roReg 0x018 0 32 (fun s => oneIf s.ready)]
  else if o8 == 0x158 then [roReg 0x158 0 64 (fun s => s.vfMap.toNat)]
  else if 0x040 ≤ o8 && o8 < 0x1C0 then [roReg o8 0 32 (fun s => s.capWord o8), roReg (o8 + 4) 0 32 (fun s => s.capWord (o8 + 4))]
  else []

-- Ring blocks (Table 13-2).

/-- The ring block of a function. Settings of the rings take no write while ENABLE is 1 (R325). -/
def ringRegs (f : Nat) : List Reg :=
  let rd := fun (g : Fn → Nat) (s : State) => g (s.fn f)
  let wr := fun (g : Fn → Nat → Fn) (v : Nat) (s : State) => s.modFn f (fun x => g x v)
  let cfg := fun (g : Fn → Nat → Fn) (v : Nat) (s : State) => if (s.fn f).enable then s else s.modFn f (fun x => g x v)
  [ { off := 0x00, lo := 0, w := 64, cls := .rw, get := rd (fun x => x.cmdBase.toNat)
      put := cfg (fun x v => { x with cmdBase := BitVec.ofNat 64 v }) },
    { off := 0x08, lo := 0, w := 4, cls := .rw, get := rd (fun x => x.cmdOrder), put := cfg (fun x v => { x with cmdOrder := v }) },
    { off := 0x0C, lo := 0, w := 12, cls := .rw, get := rd (fun x => x.cmdTail), put := fun v s => cmdTail f v s },
    roReg 0x10 0 12 (rd (fun x => x.cmdHead)),
    { off := 0x14, lo := 0, w := 1, cls := .rw, get := rd (fun x => oneIf x.enable), put := wr (fun x v => { x with enable := v == 1 }) },
    { off := 0x14, lo := 1, w := 1, cls := .w1s, get := rd (fun x => oneIf x.reset), put := fun v s => if v == 1 then ringReset f s else s },
    roReg 0x14 2 1 (fun s => oneIf (s.expertOk f)),
    { off := 0x18, lo := 0, w := 64, cls := .rw, get := rd (fun x => x.rplBase.toNat)
      put := cfg (fun x v => { x with rplBase := BitVec.ofNat 64 v }) },
    { off := 0x20, lo := 0, w := 4, cls := .rw, get := rd (fun x => x.rplOrder), put := cfg (fun x v => { x with rplOrder := v }) },
    roReg 0x24 0 12 (rd (fun x => x.rplProd)),
    { off := 0x28, lo := 0, w := 12, cls := .rw, get := rd (fun x => x.rplCons), put := wr (fun x v => { x with rplCons := v }) },
    { off := 0x2C, lo := 0, w := 1, cls := .w1c, get := rd (fun x => oneIf x.fetchErr)
      put := wr (fun x v => { x with fetchErr := x.fetchErr && v == 0 }) },
    { off := 0x2C, lo := 1, w := 1, cls := .w1c, get := rd (fun x => oneIf x.badDoorbell)
      put := wr (fun x v => { x with badDoorbell := x.badDoorbell && v == 0 }) },
    { off := 0x2C, lo := 2, w := 1, cls := .w1c, get := rd (fun x => oneIf x.wbErr)
      put := wr (fun x v => { x with wbErr := x.wbErr && v == 0 }) },
    { off := 0x30, lo := 0, w := 64, cls := .rw, get := rd (fun x => x.rplWb.toNat)
      put := cfg (fun x v => { x with rplWb := BitVec.ofNat 64 v }) },
    { off := 0x38, lo := 0, w := 16, cls := .rw, get := rd (fun x => x.coalUs), put := wr (fun x v => { x with coalUs := v }) },
    { off := 0x38, lo := 16, w := 8, cls := .rw, get := rd (fun x => x.coalN), put := wr (fun x v => { x with coalN := v }) },
    { off := 0x3C, lo := 0, w := 22, cls := .rw, get := rd (fun x => x.poolDoorbell.toNat)
      put := fun v s => poolDoorbell f (BitVec.ofNat 32 v) s },
    { off := 0x40, lo := 0, w := 16, cls := .rw, get := rd (fun x => x.logCons), put := wr (fun x v => { x with logCons := v }) },
    roReg 0x44 0 16 (rd (fun x => x.logProd)),
    { off := 0x48, lo := 0, w := 32, cls := .rcl, get := rd (fun x => x.logDrop.toNat)
      put := wr (fun x _ => { x with logDrop := 0 }) } ]

-- Global control and status (Tables 14-5, 16-7, 18-3).

/-- The WAIT_LIMIT register of an arbiter's code, as `State.wl` numbers them; none for the Event Sequencer. -/
def wlClass (c : Nat) : Option Nat :=
  if c < 768 then some 5 else if c < 1000 then some (6 + (c - 768)) else if c < 5000 then some 4
  else if c == 5000 then some 0 else if c < 5200 then some (1 + dieOfPool (c - 5100)) else if c == 5200 then some 3 else none

/-- A WAIT_LIMIT is written: below 8 sets 8, and every requester whose counter is at or above it is FORCED (R156, R360). -/
def State.writeWl (s : State) (i v : Nat) : State :=
  let v := max 8 v
  { s with greg := { s.greg with wl := Tab.set s.greg.wl i v }
           arbs := s.arbs.map (fun e : Nat × Arbiter =>
             if wlClass e.1 == some i then (e.1, { e.2 with reqs := Tab.mapVals (Requester.elapse v 0) e.2.reqs }) else e) }

/-- A WAIT_LIMIT field; that of an absent stack or Port die reads 0 and takes no write (R360). -/
def wlReg (s : State) (off i : Nat) : Reg :=
  let v := s.part.variant
  let there := if i == 2 then v.ports == 2 else if 6 ≤ i then decide (i - 6 < v.stackCount) else true
  if there then { off := off, lo := 0, w := 16, cls := .rw, get := fun s => s.wlReg i, put := fun v s => s.writeWl i v }
  else roReg off 0 16 (fun _ => 0)

/-- A bit of GLOBAL_EVENTS. -/
def eventReg (lo : Nat) (get : GReg → Bool) (clear : GReg → GReg) : Reg :=
  { off := 0x004, lo := lo, w := 1, cls := .w1c, get := fun s => oneIf (get s.greg)
    put := fun v s => if v == 1 then { s with greg := clear s.greg } else s }

/-- Table 14-5. -/
def statusRegs (s : State) : List Reg :=
  [ roReg 0x000 0 1 (fun s => oneIf s.ready), roReg 0x000 1 1 (fun s => oneIf s.dtb.holdover),
    roReg 0x000 2 1 (fun s => oneIf s.dtb.uncertain), roReg 0x000 3 1 (fun s => oneIf s.supply.diapause),
    roReg 0x000 4 1 (fun s => oneIf s.supply.throttle), roReg 0x000 6 2 (fun s => s.boot.bootSrc.toNat),
    roReg 0x000 8 4 (fun s => packBits ((List.range 4).map (fun f => (1, oneIf (s.field f).down)))),
    eventReg 0 (fun g => g.clkEvent) (fun g => { g with clkEvent := false }),
    eventReg 1 (fun g => g.dip) (fun g => { g with dip := false }),
    eventReg 2 (fun g => g.thermal) (fun g => { g with thermal := false }),
    eventReg 3 (fun g => g.ue) (fun g => { g with ue := false }),
    eventReg 4 (fun g => g.hazard) (fun g => { g with hazard := false }),
    eventReg 5 (fun g => g.lockLost) (fun g => { g with lockLost := false }),
    roReg 0x008 0 8 (fun s => packBits [(1, oneIf s.modes.hazard), (1, oneIf s.modes.openTrust), (1, oneIf s.modes.limit),
      (1, oneIf s.modes.hazFault), (2, if s.supply.diapause then 2 else oneIf s.modes.eco),
      (2, match s.dtb.mode with | .free => 0 | .host => 1 | .ptp => 2)]),
    { off := 0x00C, lo := 0, w := 1, cls := .w1s, get := fun _ => 0, put := fun v s => if v == 1 && s.ready then s.warmReset 2 true else s },
    { off := 0x010, lo := 0, w := 32, cls := .rcl, get := fun s => s.greg.badAccess.toNat
      put := fun _ s => { s with greg := { s.greg with badAccess := 0 } } },
    roReg 0x018 0 64 (fun s => s.dtb.now.toNat), roReg 0x020 0 48 (fun s => s.seqr.esn.toNat), roReg 0x028 0 64 (fun s => s.dtb.base) ]
  ++
  [ { off := 0x030, lo := 0, w := 5, cls := .rw, get := fun s => s.greg.tagTimeout
      put := fun v s => { s with greg := { s.greg with tagTimeout := max 12 (min 24 v) } } },
    { off := 0x034, lo := 0, w := 14, cls := .rw, get := fun s => s.greg.ecloseTimeout
      put := fun v s => { s with greg := { s.greg with ecloseTimeout := max 1 (min 10000 v) } } },
    roReg 0x038 0 16 (fun s => s.supply.temp.toNat),
    { off := 0x03C, lo := 0, w := 16, cls := .max, get := fun s => s.supply.tempMax.toNat
      put := fun v s => { s with supply := { s.supply with tempMax := BitVec.ofNat 16 v } } },
    { off := 0x040, lo := 0, w := 64, cls := .w1c, get := fun s => s.greg.lockLostMask.toNat
      put := fun v s => { s with greg := { s.greg with lockLostMask := s.greg.lockLostMask &&& ~~~(BitVec.ofNat 64 v) } } },
    wlReg s 0x100 0, wlReg s 0x104 1, wlReg s 0x108 2, wlReg s 0x10C 3, wlReg s 0x110 4, wlReg s 0x114 5,
    wlReg s 0x120 6, wlReg s 0x124 7, wlReg s 0x128 8, wlReg s 0x12C 9 ]

/-- Table 16-7. The monitor reading outside Diapause is a free value (log 1). -/
def powerRegs : List Reg :=
  [ roReg 0x200 0 6 (fun s => s.supply.vid), roReg 0x200 8 1 (fun s => oneIf s.supply.vrPgood),
    roReg 0x200 9 1 (fun s => oneIf s.supply.pwarnLow),
    { off := 0x204, lo := 0, w := 7, cls := .rw, get := fun s => s.supply.vidSettle
      put := fun v s => { s with supply := { s.supply with vidSettle := max 1 (min 100 v) } } },
    { off := 0x208, lo := 0, w := 16, cls := .ro
      get := fun s => if s.supply.diapause then s.supply.vddMv else (Config.monitorMv s.freeCount).toNat
      onRead := fun s => s.draw },
    { off := 0x20C, lo := 0, w := 32, cls := .cnt, get := fun s => s.supply.dipCount.toNat
      put := fun v s => { s with supply := { s.supply with dipCount := BitVec.ofNat 32 v } } },
    { off := 0x210, lo := 0, w := 64, cls := .cnt, get := fun s => s.supply.dipTime.toNat
      put := fun v s => { s with supply := { s.supply with dipTime := BitVec.ofNat 64 v } } },
    { off := 0x218, lo := 0, w := 32, cls := .max, get := fun s => s.supply.dipLongest.toNat
      put := fun v s => { s with supply := { s.supply with dipLongest := BitVec.ofNat 32 v } } },
    roReg 0x21C 0 16 (fun s => packBits ((List.range 4).map (fun f => (4, (s.field f).requested)))),
    roReg 0x220 0 4 (fun s => s.boot.resetCause.toNat), roReg 0x224 0 8 (fun s => s.boot.bootStep.toNat),
    roReg 0x224 8 8 (fun s => s.boot.bootErr.toNat),
    { off := 0x228, lo := 0, w := 64, cls := .rw, get := fun s => s.boot.bootAddr.toNat
      put := fun v s => { s with boot := { s.boot with bootAddr := BitVec.ofNat 64 v } } },
    { off := 0x230, lo := 0, w := 21, cls := .rw, get := fun s => s.boot.bootLen.toNat
      put := fun v s => { s with boot := { s.boot with bootLen := BitVec.ofNat 21 v } } },
    { off := 0x234, lo := 0, w := 1, cls := .w1s, get := fun s => oneIf s.boot.bootGo
      put := fun v s => if v == 1 && !s.ready then { s with boot := { s.boot with bootGo := true } } else s } ]

/-- Table 18-3. CAP_MODE, CAP_TRIG, CAP_SRC and CAP_STREAM take no write while CAP_EN is 1 (R457). -/
def captureRegs : List Reg :=
  let wr := fun (g : Capture → Nat → Capture) (v : Nat) (s : State) => ({ s with cap := g s.cap v } : State)
  let cfg := fun (g : Capture → Nat → Capture) (v : Nat) (s : State) => if s.cap.en then s else ({ s with cap := g s.cap v } : State)
  [ { off := 0x300, lo := 1, w := 1, cls := .rw, get := fun s => oneIf s.cap.stop, put := cfg (fun c v => { c with stop := v == 1 }) },
    { off := 0x300, lo := 2, w := 2, cls := .rw, get := fun s => s.cap.trig, put := cfg (fun c v => { c with trig := v }) },
    { off := 0x300, lo := 0, w := 1, cls := .rw, get := fun s => oneIf s.cap.en, put := fun v s => s.writeCapEn (v == 1) },
    roReg 0x300 4 1 (fun s => oneIf s.cap.triggered),
    { off := 0x304, lo := 0, w := 5, cls := .rw, get := fun s => s.cap.src, put := cfg (fun c v => { c with src := v }) },
    { off := 0x304, lo := 8, w := 6, cls := .rw, get := fun s => s.cap.stream, put := cfg (fun c v => { c with stream := v }) },
    { off := 0x308, lo := 0, w := 16, cls := .rw, get := fun s => s.cap.arg, put := wr (fun c v => { c with arg := v }) },
    { off := 0x30C, lo := 0, w := 16, cls := .rw, get := fun s => s.cap.post, put := wr (fun c v => { c with post := v }) },
    roReg 0x310 0 64 (fun s => s.cap.prod.toNat),
    { off := 0x318, lo := 0, w := 32, cls := .rcl, get := fun s => s.cap.drop.toNat, put := wr (fun c _ => { c with drop := 0 }) },
    { off := 0x320, lo := 0, w := 64, cls := .rw, get := fun s => s.cap.dumpSrc.toNat
      put := wr (fun c v => { c with dumpSrc := BitVec.ofNat 64 v }) },
    { off := 0x328, lo := 0, w := 64, cls := .rw, get := fun s => s.cap.dumpDst.toNat
      put := wr (fun c v => { c with dumpDst := BitVec.ofNat 64 v }) },
    { off := 0x330, lo := 0, w := 24, cls := .rw, get := fun s => s.cap.dumpLen, put := wr (fun c v => { c with dumpLen := v }) },
    { off := 0x334, lo := 0, w := 1, cls := .w1s, get := fun s => oneIf s.cap.dumpGo
      put := fun v s => if v == 1 then s.writeDumpGo else s },
    { off := 0x334, lo := 1, w := 1, cls := .w1c, get := fun s => oneIf s.cap.dumpErr
      put := wr (fun c v => { c with dumpErr := c.dumpErr && v == 0 }) } ]

-- Stall Hub (Table 14-6).

def groupRegs (g : Nat) : List Reg :=
  let o := 0x20 * g
  [ roReg o 0 1 (fun s => oneIf (s.group g).asserted), roReg o 1 1 (fun s => oneIf (s.group g).masked),
    roReg o 2 1 (fun s => oneIf (s.running g)), roReg o 8 8 (fun s => (s.group g).first),
    { off := o + 0x08, lo := 0, w := 32, cls := .cnt, get := fun s => (s.group g).count.toNat
      put := fun v s => s.modGroup g (fun x => { x with count := BitVec.ofNat 32 v }) },
    { off := o + 0x10, lo := 0, w := 64, cls := .cnt, get := fun s => (s.group g).time.toNat
      put := fun v s => s.modGroup g (fun x => { x with time := BitVec.ofNat 64 v }) },
    { off := o + 0x18, lo := 0, w := 32, cls := .max, get := fun s => (s.group g).longest
      put := fun v s => s.modGroup g (fun x => { x with longest := v }) } ]

def originRegs (o : Nat) : List Reg :=
  [ roReg (0x200 + 4 * o) 0 4 (fun s => (s.origin o).group), roReg (0x200 + 4 * o) 4 1 (fun s => oneIf (s.origin o).en),
    roReg (0x200 + 4 * o) 5 1 (fun s => oneIf (s.origin o).req) ]

/-- The Stall Hub near an offset. K4-1108 has origins 0 to 69 only (R361). -/
def hubRegs (s : State) (o : Nat) : List Reg :=
  if o < 0x200 then groupRegs (o / 0x20)
  else if o / 8 * 8 == 0x500 then [roReg 0x500 0 16 (fun s => packBits ((List.range 16).map (fun g => (1, oneIf (s.group g).asserted))))]
  else
    let n := (o - 0x200) / 8 * 2
    let last := if s.part.variant.ports == 2 then 136 else 70
    ((if n < last then originRegs n else []) ++ (if n + 1 < last then originRegs (n + 1) else []))

-- Head Link and stream counters (Table 14-8, R453).

/-- A counter of a table entry. -/
def cntReg (off : Nat) (get : State → Nat) (put : Nat → State → State) : Reg :=
  { off := off, lo := 0, w := 32, cls := .cnt, get := get, put := put }

def headRegs (h : Nat) : List Reg :=
  [ roReg 0x00 0 3 (fun s => (s.head h).state.code), roReg 0x00 8 8 (fun s => (s.head h).cause),
    cntReg 0x04 (fun s => (s.head h).crcErr.toNat) (fun v s => s.modHead h (fun x => { x with crcErr := BitVec.ofNat 32 v })),
    cntReg 0x08 (fun s => (s.head h).hdrErr.toNat) (fun v s => s.modHead h (fun x => { x with hdrErr := BitVec.ofNat 32 v })),
    cntReg 0x0C (fun s => (s.head h).unknownDt.toNat) (fun v s => s.modHead h (fun x => { x with unknownDt := BitVec.ofNat 32 v })),
    cntReg 0x10 (fun s => (s.head h).outsideFrame.toNat) (fun v s => s.modHead h (fun x => { x with outsideFrame := BitVec.ofNat 32 v })),
    cntReg 0x14 (fun s => (s.head h).framesDropped.toNat) (fun v s => s.modHead h (fun x => { x with framesDropped := BitVec.ofNat 32 v })) ]

def streamRegs (st : Nat) : List Reg :=
  [ roReg 0x00 0 1 (fun s => oneIf (s.strm st).started), roReg 0x00 1 1 (fun s => oneIf (s.strm st).scheduled),
    roReg 0x00 2 1 (fun s => oneIf (s.strm st).stall), roReg 0x00 8 4 (fun s => (s.strm st).ctx.getD 0),
    cntReg 0x04 (fun s => (s.strm st).linesDropped.toNat) (fun v s => s.modStrm st (fun x => { x with linesDropped := BitVec.ofNat 32 v })),
    roReg 0x08 0 8 (fun s => (s.strm st).flushEpoch.toNat),
    { off := 0x0C, lo := 0, w := 4, cls := .max, get := fun s => (s.strm st).bufPeak
      put := fun v s => s.modStrm st (fun x => { x with bufPeak := v }) },
    cntReg 0x10 (fun s => (s.strm st).frameCount.toNat) (fun v s => s.modStrm st (fun x => { x with frameCount := BitVec.ofNat 32 v })),
    { off := 0x18, lo := 0, w := 32, cls := .max, get := fun s => (s.strm st).latMax
      put := fun v s => s.modStrm st (fun x => { x with latMax := v }) },
    roReg 0x1C 0 32 (fun s => (s.strm st).latLast),
    { off := 0x20, lo := 0, w := 64, cls := .cnt, get := fun s => (s.strm st).latSum.toNat
      put := fun v s => s.modStrm st (fun x => { x with latSum := BitVec.ofNat 64 v }) },
    cntReg 0x28 (fun s => (s.strm st).latCount.toNat) (fun v s => s.modStrm st (fun x => { x with latCount := BitVec.ofNat 32 v })) ]

/-- Fields that read 0 and take no write: those of an absent head or stream, and of a fused site (R3, R91, R364). -/
def Reg.absent (r : Reg) : Reg := roReg r.off r.lo r.w (fun _ => 0)

-- Unit memories through MEM_DATA (R363).

/-- The 8-byte words of a unit memory whose byte layout is known: program, key descriptors, weight buffer, SRAM, node memory. -/
def memWords (k : UKind) (sel : Nat) : Nat :=
  match k, sel with
  | .p, _ => 0
  | _, 0 => 1024
  | _, 1 => 16
  | .m, 4 => 4096
  | .s, 5 => 65536
  | .t, 6 => 8192
  | _, _ => 0

/-- Whether a selector names a table of the unit whose bytes have no stated layout: generator descriptors, parameter table, V-unit
tables (log 18). -/
def memTable (k : UKind) (sel : Nat) : Bool :=
  match k, sel with
  | .s, 2 => true
  | .m, 3 => true
  | .v, 7 => true
  | _, _ => false

/-- What a read of MEM_DATA returns. A word of no stated layout that no write through MEM_DATA has given is a free value, and so is
a word the unit does not have (log 18). -/
def State.memPeek (s : State) (site : Nat) (ecc : Ecc) : Nat :=
  let u := s.unit site
  let k := kindOf site
  let a := u.memAddr
  if a < memWords k u.memSel then
    if (u.memSel == 5 && (ecc == Ecc.bad || u.zeroed.contains (a / 4))) || (u.memSel == 6 && ecc == Ecc.bad) then 0 else (Tab.get 0 u.mem (memAt u.memSel a)).toNat
  else (Tab.get (Config.memWord s.freeCount) u.mem (memAt u.memSel a)).toNat

/-- MEM_ADDR after an access. -/
def State.memNext (s : State) (site : Nat) : State := s.modUnit site (fun u => { u with memAddr := (u.memAddr + 1) % 16777216 })

/-- Whether the window stands at a word of an S-unit's SRAM, behind its service port (R108). -/
def Unit.atSram (u : Unit) (site : Nat) : Bool := kindOf site == .s && u.memSel == 5 && decide (u.memAddr < 65536)

/-- An access through MEM_DATA takes the grant of an S-unit's service port as expert debug access (R108). -/
def State.debugGrant (s : State) (site : Nat) : State := if (s.unit site).atSram site then (s.useArb (.service (Fin.ofNat 768 site)) 1).getD s else s

/-- A read access of MEM_DATA: a word of SRAM or of node memory meets its error handling (R110, R112). -/
def State.memRead (s : State) (site : Nat) (ecc : Ecc) : State :=
  let s := s.debugGrant site
  let u := s.unit site
  let s := if u.atSram site || (kindOf site == .t && u.memSel == 6 && decide (u.memAddr < 8192))
    then s.wordRead site (u.memAddr / 4) ecc u.cur.stream u.cur.fseq u.line else s
  s.draw.memNext site

/-- Whether a unit's program, key descriptors and generator descriptors take a write now (R253). -/
def State.progOpen (s : State) (site : Nat) : Bool :=
  let u := s.unit site
  !u.inCtx || (match s.ctx u.owner with | some c => c.state == .cocoon | none => true)

/-- A write to MEM_DATA. What it hits of a table of no stated layout holds free values afterwards: of a parameter table one entry, the
others keep theirs (R204; log 18). A word of SRAM counts as written (Table 11-6). -/
def State.memWrite (s : State) (site : Nat) (v : B64) : State :=
  let s := s.debugGrant site
  let u := s.unit site
  let k := kindOf site
  let w := u.memAddr / 4
  let put := { u with mem := Tab.set u.mem (memAt u.memSel u.memAddr) v
                      written := if u.atSram site && !u.written.contains w then w :: u.written else u.written }
  let s :=
    if u.memSel < 3 && !s.progOpen site then s.logSite .progWriteDenied site u.owner u.cur.stream u.cur.fseq 0 u.memAddr
    else if u.memAddr < memWords k u.memSel then s.setUnit site put
    else if memTable k u.memSel then
      let n := s.freeCount
      let x := if k == .s then { put with wins := Config.winsAfter n, gills := Config.gillsAfter n }
        else if k == .m then
          let e := Config.paramAt u.memAddr % 256
          { put with params := Tab.set u.params e (Tab.get {} (Config.paramsAfter n) e) } else { put with vtab := (Config.vtabAfter n).headD {} }
      (s.setUnit site x).draw
    else s
  s.memNext site

-- Unit windows (Table 14-7, R452) and engine windows (R362).

/-- An expert reset of an Edge or Tail engine: the contexts whose streams pass it enter FAULT, its queues and counters clear. -/
def State.engineReset (s : State) (tail : Bool) (n : Nat) : State :=
  let passes := fun (o : Nat) => (s.ctxStreams o).any (fun st => if tail then (s.sdecl st).tail == n else st / 4 == n)
  let s := (s.liveCtxs.filter passes).foldl (fun s o => s.faultCtx o .unitReset) s
  let s := if tail then s.setTailEng n {} else s.setEdgeEng n {}
  s.logSite .unitReset ((if tail then 0x410 else 0x400) + n) 255 0 0 0 0

def unitRegs (site : Nat) : List Reg :=
  let rd := fun (g : Unit → Nat) (s : State) => g (s.unit site)
  let wr := fun (g : Unit → Nat → Unit) (v : Nat) (s : State) => s.modUnit site (fun x => g x v)
  let live := fun (off : Nat) (get : Unit → B64) (put : Unit → B64 → Unit) =>
    ({ off := off, lo := 0, w := 64, cls := .cnt, get := rd (fun u => (get u).toNat), put := wr (fun u v => put u (BitVec.ofNat 64 v)) } : Reg)
  let c32 := fun (off : Nat) (get : Unit → B32) (put : Unit → B32 → Unit) =>
    cntReg off (rd (fun u => (get u).toNat)) (wr (fun u v => put u (BitVec.ofNat 32 v)))
  let peak := fun (off lo : Nat) (get : Unit → Nat) (put : Unit → Nat → Unit) =>
    ({ off := off, lo := lo, w := 8, cls := .max, get := rd get, put := wr put } : Reg)
  [ roReg 0x000 0 10 (fun _ => site), roReg 0x000 10 3 (fun _ => (kindOf site).code),
    roReg 0x004 0 1 (rd (fun u => oneIf u.frozen)), roReg 0x004 1 1 (rd (fun u => oneIf u.halted)),
    { off := 0x004, lo := 8, w := 1, cls := .w1s, get := fun _ => 0, put := fun v s => if v == 1 then s.unitReset site else s },
    roReg 0x008 0 4 (rd (fun u => u.owner)), roReg 0x008 4 1 (rd (fun u => oneIf u.inCtx)), roReg 0x00C 0 10 (rd (fun u => u.pc)),
    live 0x010 (fun u => u.active) (fun u v => { u with active := v }),
    live 0x018 (fun u => u.tagWait) (fun u v => { u with tagWait := v }),
    live 0x020 (fun u => u.xwait) (fun u v => { u with xwait := v }),
    live 0x028 (fun u => u.stallCyc) (fun u v => { u with stallCyc := v }),
    (let r := c32 0x030 (fun u => u.bankConf) (fun u v => { u with bankConf := v })
     if kindOf site == .s then r else r.absent),
    { off := 0x034, lo := 0, w := 8, cls := .ro, get := rd (fun u => u.fc.fseq)
      onRead := fun s => s.modUnit site (fun u => { u with fcLatched := u.fc }) },
    roReg 0x034 8 6 (rd (fun u => u.fc.stream)), roReg 0x034 31 1 (rd (fun u => oneIf u.fc.valid)) ]
  ++
  [ roReg 0x038 0 32 (rd (fun u => u.fcLatched.frame.toNat)), roReg 0x03C 0 32 (rd (fun u => u.fcLatched.active.toNat)),
    roReg 0x040 0 32 (rd (fun u => u.fcLatched.tagWait.toNat)), roReg 0x044 0 32 (rd (fun u => u.fcLatched.xwait.toNat)),
    roReg 0x048 0 32 (rd (fun u => u.fcLatched.stall.toNat)), roReg 0x04C 0 32 (rd (fun u => u.fcLatched.bank.toNat)),
    c32 0x080 (fun u => u.tagCe) (fun u v => { u with tagCe := v }), c32 0x084 (fun u => u.eccCe) (fun u v => { u with eccCe := v }),
    c32 0x088 (fun u => u.progCe) (fun u v => { u with progCe := v }),
    c32 0x08C (fun u => u.epochDisc) (fun u v => { u with epochDisc := v }),
    c32 0x090 (fun u => u.poisonDisc) (fun u v => { u with poisonDisc := v }),
    c32 0x098 (fun u => u.eclCyc) (fun u v => { u with eclCyc := v }),
    { off := 0x100, lo := 0, w := 4, cls := .rw, get := rd (fun u => u.memSel), put := wr (fun u v => { u with memSel := v }) },
    { off := 0x104, lo := 0, w := 24, cls := .rw, get := rd (fun u => u.memAddr), put := wr (fun u v => { u with memAddr := v }) },
    { off := 0x108, lo := 0, w := 64, cls := .rw, get := fun s => s.memPeek site .clean
      put := fun v s => s.memWrite site (BitVec.ofNat 64 v), onRead := fun s => s.memRead site .clean } ]
  ++ (List.range 10).map (fun k => c32 (0x050 + 4 * k) (fun u => Tab.get 0 u.haz (k + 1)) (fun u v => { u with haz := Tab.set u.haz (k + 1) v }))
  ++ (if kindOf site == .p then [] else
    (List.range 3).map (fun q => peak 0x0A0 (8 * q) (fun u => Tab.get 0 u.qpeak q) (fun u v => { u with qpeak := Tab.set u.qpeak q v }))
    ++ [peak 0x0A0 24 (fun u => u.lanePeak) (fun u v => { u with lanePeak := v })]
    ++ (List.range 3).map (fun q => peak 0x0A4 (8 * q) (fun u => Tab.get 0 u.skidPeak q) (fun u v => { u with skidPeak := Tab.set u.skidPeak q v })))

/-- The window of an Edge (KIND 6) or Tail (KIND 7) engine. FROZEN shows the freeze of a stream that passes it (log 33). -/
def engineRegs (tail : Bool) (n : Nat) : List Reg :=
  let eng := fun (s : State) => if tail then s.tailEng n else s.edgeEng n
  let modE := fun (s : State) (f : Engine → Engine) => if tail then s.modTailEng n f else s.modEdgeEng n f
  let frozen := fun (s : State) => s.streams.any (fun e : Nat × Strm => e.2.frozen && (if tail then (s.sdecl e.1).tail == n else e.1 / 4 == n))
  [ roReg 0x000 0 10 (fun _ => n), roReg 0x000 10 3 (fun _ => if tail then 7 else 6), roReg 0x004 0 1 (fun s => oneIf (frozen s)),
    roReg 0x004 1 1 (fun _ => 0),
    { off := 0x004, lo := 8, w := 1, cls := .w1s, get := fun _ => 0, put := fun v s => if v == 1 then s.engineReset tail n else s } ]
  ++ (List.range 5).map (fun i => cntReg (0x080 + 4 * i) (fun s => (Tab.get (0 : B32) (eng s).errs i).toNat)
      (fun v s => modE s (fun g => { g with errs := Tab.set g.errs i (BitVec.ofNat 32 v) })))

end Sys2Proof.Machine
end

