-- ==== Sys2Proof/Machine/Registers.lean ====
section
/-! DEFINITION. Register accesses (R350-R355), the raw lock registers (R365-R372), MEM_DATA, and the transactions of the Control SPI
(R330-R332). -/

namespace Sys2Proof.Machine

-- Addresses (R350, R351).

/-- A register block. -/
inductive RBlock where
  | ident | ring (f : Nat) | global | hub | lock | head (h : Nat) | strm (st : Nat) | logWin | unit (site : Nat)
  | engine (tail : Bool) (n : Nat) | none
  deriving DecidableEq, Repr

/-- The function an access path acts as: CSPI acts as function 0 (R366). -/
def pathFn : Path → Nat
  | .bar f => f
  | .cspi => 0

/-- The number of a path's shadow. -/
def pathCode : Path → Nat
  | .bar f => f
  | .cspi => 64

/-- The block of an offset of PF BAR0, and the offset within it (Table 14-1, R91). -/
def locatePf (o : Nat) : RBlock × Nat :=
  if o < 0x1000 then (.ident, o)
  else if o < 0x5000 then (.ring ((o - 0x1000) / 0x100), o % 0x100)
  else if 0x10000 ≤ o && o < 0x11000 then (.global, o - 0x10000)
  else if 0x11000 ≤ o && o < 0x12000 then (.hub, o - 0x11000)
  else if 0x20000 ≤ o && o < 0x20400 then (.lock, o - 0x20000)
  else if 0x30000 ≤ o && o < 0x30400 then (.head ((o - 0x30000) / 0x40), o % 0x40)
  else if 0x31000 ≤ o && o < 0x32000 then (.strm ((o - 0x31000) / 0x40), o % 0x40)
  else if 0x40000 ≤ o && o < 0x51000 then (.logWin, o - 0x40000)
  else if 0x100000 ≤ o && o < 0x1C0000 then (.unit ((o - 0x100000) / 0x400), o % 0x400)
  else if 0x1C0000 ≤ o && o < 0x1C4000 then (.engine false ((o - 0x1C0000) / 0x400), o % 0x400)
  else if 0x1C4000 ≤ o && o < 0x1C8000 then (.engine true ((o - 0x1C4000) / 0x400), o % 0x400)
  else (.none, o)

/-- The block of an offset of the BAR0 of PF_B or a VF (R351). -/
def locateVf (f o : Nat) : RBlock × Nat :=
  if o < 0x1000 then (.ident, o)
  else if o < 0x1100 then (.ring f, o - 0x1000)
  else if 0x2000 ≤ o && o < 0x2400 then (.lock, o - 0x2000)
  else (.none, o)

def locate (p : Path) (o : Nat) : RBlock × Nat := if pathFn p == 0 then locatePf o else locateVf (pathFn p) o

-- Locks through their registers (Table 14-9, R372).

/-- The result word of an attempt that is not made: HOLDER and EPOCH as they stand, SELF when the party holds the lock (R372). -/
def State.lockLook (s : State) (f l : Nat) : Nat :=
  let x := s.lock l
  lockResult false false (x.holder == fnCode f) x.holder x.epoch

/-- Whether a function's raw access to a lock acts: it holds EXPERT, and the lock is not the MC's (R365, R372). -/
def State.rawLock (s : State) (f l : Nat) : Bool := s.expertOk f && decide (l < 48)

/-- A read of LOCK_ACQ: its result word and the state (R367, R372). -/
def State.acquireRaw (s : State) (f l : Nat) : Nat × State :=
  if !s.rawLock f l then
    (if s.expertOk f then lockResult false false false (s.lock l).holder (s.lock l).epoch else s.lockLook f l, s)
  else
    let r := s.tryLock l (fnCode f)
    let x := r.2.lock l
    match r.1 with
    | .granted lost => (lockResult true lost false x.holder x.epoch, r.2)
    | .self => (lockResult true false true x.holder x.epoch, r.2)
    | .held => (lockResult false false false x.holder x.epoch, r.2)

/-- A release through the RELEASE word: it acts for the holder alone (R368, R372). -/
def State.releaseRaw (s : State) (f l : Nat) : State :=
  if s.expertOk f && (s.lock l).holder == fnCode f then s.handLock l else s

/-- RELEASE with FORCE: a forced release by the PF, ignored on locks 48 to 63 (R371). -/
def State.forceRaw (s : State) (f l : Nat) : State :=
  if f == 0 && l < 48 then s.forceLock l else s.releaseRaw f l

/-- The registers of a lock, as a function sees them. -/
def lockRegs (f l : Nat) : List Reg :=
  let o := 16 * l
  [ { off := o, lo := 0, w := 32, cls := .ro, get := fun s => (s.acquireRaw f l).1, onRead := fun s => (s.acquireRaw f l).2 },
    { off := o + 4, lo := 0, w := 32, cls := .w1s, get := fun _ => 0
      put := fun v s => if !bit v 0 then s else if bit v 31 then s.forceRaw f l else s.releaseRaw f l },
    roReg (o + 8) 0 32 (fun s => (s.lock l).word) ]

-- The fields at an offset.

/-- The log window near an offset (R349): units not yet written read all ones. -/
def logRegs (o : Nat) : List Reg :=
  if o < 8 then [roReg 0 0 32 (fun s => s.seqr.winProd)]
  else if 0x1000 ≤ o then
    [o / 8 * 8, o / 8 * 8 + 4].map (fun a => roReg a 0 32 (fun s =>
      bits (Tab.get (BitVec.allOnes 128) s.seqr.window ((a - 0x1000) / 16)).toNat (8 * (a % 16)) 32))
  else []

/-- The fields of a block that an access at an offset can meet. -/
def State.regsAt (s : State) (f : Nat) (b : RBlock) (o : Nat) : List Reg :=
  match b with
  | .ident => identRegs o
  | .ring g => ringRegs g
  | .global => if o < 0x200 then statusRegs s else if o < 0x300 then powerRegs else captureRegs
  | .hub => hubRegs s o
  | .lock => lockRegs f (o / 16)
  | .head h => if h < s.part.variant.heads then headRegs h else (headRegs h).map Reg.absent
  | .strm st => if st < s.part.variant.streams then streamRegs st else (streamRegs st).map Reg.absent
  | .logWin => logRegs o
  | .unit site => if s.works site then unitRegs site else (unitRegs site).map Reg.absent
  | .engine t n => engineRegs t n
  | .none => []

def Reg.pos (r : Reg) : Nat := 8 * r.off + r.lo

/-- Whether an access of `n` bytes at offset `o` meets a field. -/
def Reg.hit (r : Reg) (o n : Nat) : Bool := decide (r.pos < 8 * (o + n)) && decide (8 * o < r.pos + r.w)

/-- What a field puts into the value of an access. -/
def Reg.part (s : State) (o n : Nat) (r : Reg) : Nat :=
  let v := r.get s % 2 ^ r.w
  (if 8 * o ≤ r.pos then v * 2 ^ (r.pos - 8 * o) else v / 2 ^ (8 * o - r.pos)) % 2 ^ (8 * n)

/-- A write of `n` bytes at offset `o`, as the field's class takes it (Table 14-2): a part of a wide field leaves the rest. -/
def Reg.write (o n v : Nat) (s : State) (r : Reg) : State :=
  let a := 8 * o - r.pos
  let b := min r.w (8 * (o + n) - r.pos)
  let x := bits v (r.pos + a - 8 * o) (b - a) * 2 ^ a
  let old := r.get s % 2 ^ r.w
  match r.cls with
  | .rw | .cnt | .max => r.put (old - bits old a (b - a) * 2 ^ a + x) s
  | .w1c | .w1s => r.put x s
  | .ro | .rcl => s

/-- What a read of a field does to the state: RCL clears, and a field's own effect. -/
def Reg.readEffect (s : State) (r : Reg) : State := if r.cls == .rcl then r.put 0 s else r.onRead s

/-- Whether the low word of a field latches its high word into a shadow (R352). -/
def Reg.latches (r : Reg) : Bool := decide (32 < r.w) && (r.cls == .ro || r.cls == .cnt || r.cls == .max)

-- Accesses (R352, R436).

/-- One more counted access. -/
def State.badAccess (s : State) : State := { s with greg := { s.greg with badAccess := s.greg.badAccess + 1 } }

/-- Whether the dies are out of reset and the path exists, so that an access is made at all. -/
def State.reachable (s : State) (p : Path) : Bool :=
  let on := s.boot.phase == .startup || s.boot.phase == .waitHost || s.boot.phase == .halted || s.ready
  on && (match p with | .cspi => true | .bar f => (s.ep (s.epOf f)).up)

/-- Whether an access is 32 or 64 bits wide and naturally aligned (R352). -/
def accessOk (o n : Nat) : Bool := (n == 4 || n == 8) && o % n == 0

/-- Whether a block can be read before READY: the identity and global blocks, through PF BAR0 and CSPI (R436). -/
def readableEarly (p : Path) (b : RBlock) : Bool := pathFn p == 0 && (b == .ident || b == .global)

/-- The shadow of a high word. -/
def State.shadowOf (s : State) (p : Path) (o : Nat) : Option B32 :=
  (s.greg.hiShadow.find? (fun e : Nat × Nat × B32 => e.1 == pathCode p && e.2.1 == o)).map (fun e => e.2.2)

/-- Shadows without one high word's. -/
def State.noShadow (s : State) (p : Path) (o : Nat) : State :=
  { s with greg := { s.greg with hiShadow := s.greg.hiShadow.filter (fun e : Nat × Nat × B32 => !(e.1 == pathCode p && e.2.1 == o)) } }

/-- A read of `n` bytes: the value returned, and the state. Offsets in shadows are those of the path's BAR. -/
def State.regRead (s : State) (p : Path) (o n : Nat) : Nat × State :=
  if !accessOk o n then (0, s.badAccess)
  else
    let l := locate p o
    if !s.ready && !readableEarly p l.1 then (0, s)
    else
      let rs := (s.regsAt (pathFn p) l.1 l.2).filter (fun r => r.hit l.2 n)
      let v := (rs.map (Reg.part s l.2 n)).sum
      let t := rs.foldl Reg.readEffect s
      if n != 4 then (v, t)
      else
        match rs.find? Reg.latches with
        | none => (v, t)
        | some r =>
          if r.off == l.2 then
            let t := t.noShadow p (o + 4)
            (v, { t with greg := { t.greg with hiShadow := (pathCode p, o + 4, BitVec.ofNat 32 (r.get s / 2 ^ 32)) :: t.greg.hiShadow } })
          else
            match s.shadowOf p o with
            | some h => (h.toNat, t.noShadow p o)
            | none => (v, t)

/-- Whether a write is taken before READY: BOOT_ADDR, BOOT_LEN and BOOT_GO (R436). -/
def writableEarly (p : Path) (l : RBlock × Nat) : Bool := pathFn p == 0 && l.1 == .global && decide (0x228 ≤ l.2) && decide (l.2 < 0x238)

/-- Whether a block takes no write now: a ring block in reset (R325). -/
def State.writeHeld (s : State) : RBlock → Bool
  | .ring f => (s.fn f).reset
  | _ => false

/-- A write of `n` bytes. -/
def State.regWrite (s : State) (p : Path) (o n v : Nat) : State :=
  let l := locate p o
  if !s.ready && !writableEarly p l then s
  else if !accessOk o n then s.badAccess
  else
    let rs := (s.regsAt (pathFn p) l.1 l.2).filter (fun r => r.hit l.2 n)
    if rs.isEmpty then s.badAccess
    else if s.writeHeld l.1 then s
    else rs.foldl (Reg.write l.2 n v) s

/-- The value a read returned. -/
def State.returned (s : State) (v : Nat) : State := { s with greg := { s.greg with lastRead := BitVec.ofNat 64 v } }

/-- A software write to a register; offsets and widths as R352 takes them (R354). -/
def execRegisterWrite (p : Path) (off : B32) (bytes : B8) (v : B64) (s : State) : Host.Outcome State Fault Refusal :=
  .next (if s.reachable p then s.regWrite p off.toNat bytes.toNat v.toNat else s)

/-- A 32-bit read; the low word of a 64-bit field latches the high word for its path (R352). -/
def execRegisterLowRead (p : Path) (off : B32) (s : State) : Host.Outcome State Fault Refusal :=
  .next (
    if s.reachable p then
      let r := s.regRead p off.toNat 4
      r.2.returned r.1
    else s)

/-- A read of FC_FSEQ through PF BAR0 latches the unit's frame counts (R362). -/
def execFcFseqRead (site : Site) (s : State) : Host.Outcome State Fault Refusal :=
  .next (
    if s.reachable (.bar 0) then
      let r := s.regRead (.bar 0) (0x100000 + 0x400 * site + 0x034) 4
      r.2.returned r.1
    else s)

/-- BAD_ACCESS is read and clears (RCL). -/
def execBadAccessRead (s : State) : Host.Outcome State Fault Refusal :=
  .next (
    if s.reachable (.bar 0) then
      let r := s.regRead (.bar 0) 0x10010 4
      r.2.returned r.1
    else s)

/-- LOG_DROP of a function is read through its own BAR and clears (RCL). -/
def execLogDropRead (f : FnId) (s : State) : Host.Outcome State Fault Refusal :=
  .next (
    if s.reachable (.bar f) then
      let r := s.regRead (.bar f) 0x1048 4
      r.2.returned r.1
    else s)

/-- A read of LOCK_ACQ (R367, R372). -/
def execLockAcq (p : Path) (l : Fin 64) (s : State) : Host.Outcome State Fault Refusal :=
  .next (
    if s.ready && s.reachable p then
      let r := s.acquireRaw (pathFn p) l
      r.2.returned r.1
    else s)

/-- RELEASE is written 1 (R368, R372). -/
def execLockReleaseWrite (p : Path) (l : Fin 64) (s : State) : Host.Outcome State Fault Refusal :=
  .next (if s.ready && s.reachable p then s.releaseRaw (pathFn p) l else s)

/-- RELEASE is written 1 with FORCE (R371). -/
def execLockForceWrite (p : Path) (l : Fin 64) (s : State) : Host.Outcome State Fault Refusal :=
  .next (if s.ready && s.reachable p then s.forceRaw (pathFn p) l else s)

/-- A queued LOCK_ACQUIRE has waited timeout_us: it leaves the queue and replies TIMEOUT (R367). -/
def execLockWaitTimeout (l : Fin 64) (cseq : B32) (s : State) : Host.Outcome State Fault Refusal :=
  .next (
    let x := s.lock l
    let mine := fun (w : Waiter) => w.reply.any (fun k => k.cseq == cseq)
    match x.waiters.find? mine with
    | some w =>
      match w.reply with
      | some k => (s.setLock l { x with waiters := x.waiters.eraseP mine }).finish k true .timeout
      | none => s
    | none => s)

/-- A 64-bit access to MEM_DATA of a unit: a write of `w`, or a read (R363). -/
def execMemData (site : Site) (w : Option B64) (ecc : Ecc) (s : State) : Host.Outcome State Fault Refusal :=
  .next (
    if !s.ready then s
    else if !s.works site then (match w with | none => s.returned 0 | some _ => s)
    else
      match w with
      | some v => s.memWrite site v
      | none => (s.memRead site ecc).returned (s.memPeek site ecc))

/-- UNIT_CTRL.UNIT_RESET is written 1 (R121); writes to a fused site are ignored (R91). -/
def execUnitCtrlUnitReset (site : Site) (s : State) : Host.Outcome State Fault Refusal :=
  .next (if s.ready && s.works site then s.unitReset site else s)

-- The Control SPI (R330-R332).

/-- The bytes the K4 drove. -/
def State.drive (s : State) (b : Bytes) : State := { s with cspi := { s.cspi with miso := b } }

/-- Why a WRITE_PACKET is discarded: 0 cut short, 1 too long, 2 no space (R331, Table 13-13). -/
def packetCause (q : List Packet) (b : Bytes) : Option Nat :=
  if b.length < 4 || b.length < 16 * byteAt b 3 then some 0
  else if 16 * byteAt b 3 < b.length then some 1
  else if 4 ≤ q.length then some 2
  else none

/-- WRITE_PACKET. Before READY it is discarded with PKT_ERR (R436). -/
def execWritePacket (bytes : Bytes) (s : State) : Host.Outcome State Fault Refusal :=
  .next (
    if !s.reachable .cspi then s
    else
      let bad : State := { s with cspi := { s.cspi with pktErr := true, miso := [] } }
      if !s.ready then bad
      else
        match packetCause s.cspi.pktQ bytes with
        | some c => bad.log .cspiPktErr inFast 0 0 c
        | none => { s with cspi := { s.cspi with pktQ := s.cspi.pktQ ++ [{ bytes := bytes, fn := 0, cspi := true }], miso := [] } })

/-- READ_REPLY: the oldest CSPI reply, or eight idle words (Table 13-3, Table 06-3). -/
def execReadReply (s : State) : Host.Outcome State Fault Refusal :=
  .next (
    if !s.reachable .cspi then s
    else
      match s.cspi.replyQ with
      | [] => s.drive ((List.range 8).flatMap (fun _ => toLe 4 0xFFFF0000))
      | r :: t => ({ s with cspi := { s.cspi with replyQ := t } }).drive (replyBytes r))

/-- The CSPI status word (R330). -/
def State.cspiStatus (s : State) : Nat :=
  packBits [(1, oneIf s.ready), (1, oneIf (!s.cspi.replyQ.isEmpty)), (1, oneIf (decide (s.cspi.pktQ.length < 4))), (1, oneIf s.cspi.pktErr),
    (1, oneIf (s.seqr.winProd != s.cspi.logRead))]

/-- READ_STATUS: the status word; PKT_ERR clears. -/
def execReadStatus (s : State) : Host.Outcome State Fault Refusal :=
  .next (
    if !s.reachable .cspi then s
    else ({ s with cspi := { s.cspi with pktErr := false } }).drive (toLe 4 s.cspiStatus))

/-- A CSPI read of a log window unit: records up to it have been read (log 33). -/
def State.cspiLogRead (s : State) (o : Nat) : State :=
  if 0x41000 ≤ o && o < 0x51000 then
    let k := (o - 0x41000) / 16
    let w := s.seqr.winProd
    let unread := (w + 2 ^ 32 - s.cspi.logRead) % 2 ^ 32
    let d := (w + 2 ^ 32 - 1 - k) % 4096
    if d < unread then { s with cspi := { s.cspi with logRead := (w + 2 ^ 32 - d) % 2 ^ 32 } } else s
  else s

/-- READ_REG: a turnaround byte, then the 32-bit word of PF BAR0 (R330). -/
def execReadReg (off : B32) (s : State) : Host.Outcome State Fault Refusal :=
  .next (
    if !s.reachable .cspi then s
    else
      let r := s.regRead .cspi off.toNat 4
      let t := Config.turnaround r.2.freeCount
      (((r.2.draw.returned r.1).cspiLogRead off.toNat).drive (t :: toLe 4 r.1)))

/-- WRITE_REG: a 32-bit write of PF BAR0 (R330). -/
def execWriteReg (off v : B32) (s : State) : Host.Outcome State Fault Refusal :=
  .next (if s.reachable .cspi then (s.regWrite .cspi off.toNat 4 v.toNat).drive [] else s)

/-- READ_RESULT: a turnaround byte, then `n` bytes of the result buffer; past its end the bytes are free values (log 17). -/
def execReadResult (off n : B16) (s : State) : Host.Outcome State Fault Refusal :=
  .next (
    if !s.reachable .cspi then s
    else
      let c := s.freeCount
      let byte := fun (i : Nat) => if i < 4096 then s.cspi.result.getD i 0 else Config.turnaround (c + 1 + i)
      ({ s with freeCount := c + 1 + off.toNat + n.toNat }).drive
        (Config.turnaround c :: (List.range n.toNat).map (fun i => byte (off.toNat + i))))

end Sys2Proof.Machine
end

