-- ==== Sys2Proof/Machine/Commands.lean ====
section
/-! DEFINITION. What the command opcodes of Table 13-6 share: the order of their checks (R335), the checks on the objects they
name, and the host data they take (R332, R375, R376). -/

namespace Sys2Proof.Machine

/-- The function a packet acts for: CSPI packets are commands of function 0 (R331). -/
def who (k : Pkt) : Nat := if k.cspi then 0 else k.fn.val

/-- The status of the first check that fails, in the order given. -/
def firstFail : List (Bool × Status) → Option Status
  | [] => none
  | c :: t => if c.1 then some c.2 else firstFail t

/-- The status that turns a packet away: NOT_PERMITTED, then its opcode's checks in their order (R335). -/
def State.verdict (s : State) (k : Pkt) (op : Nat) (checks : List (Bool × Status)) : Option Status :=
  if s.denied (who k) op then some .notPermitted else firstFail checks

/-- A command packet acts: nothing before READY (R436); a failed check ends it with its status and no effect (R344). -/
def State.command (s : State) (k : Pkt) (op : Nat) (checks : List (Bool × Status)) (act : State → State) : State :=
  if !s.ready then s
  else
    match s.verdict k op checks with
    | some st => s.finish k (fastOpcode op) st
    | none => act s

/-- Checks on a stream: its number, its presence, its owner. -/
def State.streamChecks (s : State) (k : Pkt) (st : Nat) : List (Bool × Status) :=
  [(decide (64 ≤ st), .badParam), (decide (s.part.variant.streams ≤ st), .noResource), (!mayAct (who k) (s.streamFn st), .notOwner)]

/-- The running context a stream is bound to (R303). -/
def State.boundCtx (s : State) (st : Nat) : Option Ctx :=
  match (s.strm st).ctx with
  | some o => match s.ctx o with
    | some c => if c.state == .releasing then none else some c
    | none => none
  | none => none

/-- Checks on a bound stream (Table 13-7). -/
def State.boundChecks (s : State) (k : Pkt) (st : Nat) : List (Bool × Status) :=
  s.streamChecks k st ++ [((s.boundCtx st).isNone, .badState)]

/-- A running context that is not on its way out (R302). -/
def State.ctxUp (s : State) (o : Nat) : Option Ctx :=
  match s.ctx o with
  | some c => if c.state == .releasing then none else some c
  | none => none

/-- Checks on a context: its number, that it runs, its owner. -/
def State.ctxChecks (s : State) (k : Pkt) (o : Nat) : List (Bool × Status) :=
  [(decide (16 ≤ o), .badParam), ((s.ctx o).isNone, .badState), (!mayAct (who k) (s.ctxFn o), .notOwner), ((s.ctxUp o).isNone, .badState)]

/-- Checks on a context that is not in FAULT, where only REPLACE, ABORT and UNLOAD act (R316). -/
def State.soundChecks (s : State) (k : Pkt) (o : Nat) : List (Bool × Status) :=
  s.ctxChecks k o ++ [((s.ctxUp o).any (fun c : Ctx => c.state == CtxState.fault), .badState)]

/-- Checks on a head: its number, its presence, its owner. -/
def State.headChecks (s : State) (k : Pkt) (h : Nat) : List (Bool × Status) :=
  [(decide (16 ≤ h), .badParam), (decide (s.part.variant.heads ≤ h), .noResource), (!mayAct (who k) (s.head h).fn, .notOwner)]

/-- Checks on a head that is in use (Table 13-7). -/
def State.usableChecks (s : State) (k : Pkt) (h : Nat) : List (Bool × Status) :=
  s.headChecks k h ++ [(!(s.head h).usable, .badState)]

/-- Checks on a pool: its number, its presence, its owner. -/
def State.poolChecks (s : State) (k : Pkt) (p : Nat) : List (Bool × Status) :=
  [(decide (64 ≤ p), .badParam), (decide (s.part.variant.streams ≤ p), .noResource), (!mayAct (who k) (s.pool p).fn, .notOwner)]

/-- Checks on a slot: its number, and that its owner asks (R293). -/
def State.slotChecks (s : State) (k : Pkt) (n : Nat) : List (Bool × Status) :=
  [(decide (64 ≤ n), .badParam), ((s.slot n).state != .empty && !mayAct (who k) (s.slot n).fn, .notOwner)]

/-- A host destination in a CSPI packet is 0 (R332). -/
def destBad (k : Pkt) (dest : B64) : Bool := k.cspi && dest != 0

/-- Whether a range of HBM may not be named: part of it outside one present stack, or in the top 1 GiB of stack 0 (R375, R376). -/
def State.hbmBad (s : State) (a n : Nat) : Bool :=
  let last := a + max n 1 - 1
  decide (4 ≤ a / 17179869184) || !(s.stackOf (a / 17179869184)).trained || last / 17179869184 != a / 17179869184
    || (decide (0x3C0000000 ≤ last) && decide (a < 0x400000000))

/-- A source that a command names: in HBM (0) or in host memory (1), which a CSPI packet may not name (R332). -/
def State.sourceBad (s : State) (k : Pkt) (place : Nat) (a : B64) (n : Nat) : Bool :=
  decide (1 < place) || (if place = 0 then s.hbmBad a.toNat n else k.cspi)

/-- The data read for a command from host memory, at least `n` bytes of it (log 8). -/
def State.hostTaken (s : State) (a : B64) (n : Nat) : Option Bytes :=
  match s.hostData a with
  | some (some b) => if n ≤ b.length then some (b.take n) else none
  | _ => none

/-- A read of host memory that a command has used is gone. -/
def State.hostUsed (s : State) (a : B64) : State :=
  { s with hostIn := s.hostIn.filter (fun e : Nat × Option Bytes => e.1 != a.toNat) }

/-- The data of a source: HBM as it stands, or the host read made for it; none is a failed read (R380). -/
def State.sourceData (s : State) (place : Nat) (a : B64) (n : Nat) (err : Bool) : Option Bytes :=
  if err then none
  else if place = 0 then (if s.stackOk (a.toNat / 17179869184) then some (Memory.readBytes s.hbm a.toNat n) else none)
  else s.hostTaken a n

end Sys2Proof.Machine
end

