-- ==== Sys2Proof/Machine/CmdFast.lean ====
section
/-! DEFINITION. The fast-path opcodes (Table 13-6): streams, variants, snapshots, locks, aborts, flushes, unit counters, entity
rows and exponent trims. -/

namespace Sys2Proof.Machine

/-- NOP: its effect is its dispatch. -/
def execNop (k : Pkt) (s : State) : Host.Outcome State Fault Refusal := .next (s.command k 0x0000 [] (fun s => s.finish k true .ok))

-- STREAM_START (R168, R169, R303, R313).

/-- Bytes of one output line of a stream: binary16 values of each channel and column (R17, R168). -/
def lineBytes (d : StreamDecl) : Nat := 2 * d.outWidth * d.outChans

/-- The image under which a context's streams are bound: that of a LOAD or REPLACE in course, else the one in force. -/
def Ctx.bindImage (c : Ctx) : Image :=
  match c.ecl with
  | some e => if e.kind < 2 then e.place.image else c.place.image
  | none => c.place.image

/-- The stream descriptor that a bound stream has. -/
def State.bindDecl (s : State) (st : Nat) : StreamDecl :=
  match s.boundCtx st with
  | some c => c.bindImage.decl.streams.getD (s.strm st).slotIx {}
  | none => {}

/-- The buffer bytes that the output queues of a Port die take, with stream `st` at `n` lines (R168). -/
def State.queueBytes (s : State) (st n : Nat) : Nat :=
  let others := s.streams.filter (fun e : Nat × Strm => dieOfStream e.1 == dieOfStream st && e.1 != st && (e.2.started || !e.2.oq.isEmpty))
  (others.map (fun e : Nat × Strm => e.2.oqLines * lineBytes (s.bindDecl e.1) + 768)).sum + n * lineBytes (s.bindDecl st) + 768

/-- Why the pool of a start does not serve the stream (R169): a pool for the PCIe route alone, of the stream's Port die, with its
ring set up. A queue that still fills another pool's buffers keeps it. -/
def State.startPool (s : State) (k : Pkt) (st p : Nat) : List (Bool × Status) :=
  let x := s.strm st
  if x.route != 0 then [(p != 255, .badParam)]
  else
    [(p == 255, .badParam)] ++ (s.poolChecks k p).take 2 ++ [(dieOfPool p != dieOfStream st, .badParam)] ++ (s.poolChecks k p).drop 2
      ++ [(!(s.pool p).ready, .badState), (x.pool != p && (x.openBuf.isSome || x.granted.isSome || !x.oq.isEmpty), .busy)]

/-- Why the source of a stream cannot start (Table 13-7): a LIVE stream needs its head in use and its channel declared in the
image's geometry, or no head at all where a Yallek peer may feed it (R399); a REPLAY stream needs its REPLAY_SET. -/
def State.startSource (s : State) (st : Nat) : List (Bool × Status) :=
  let x := s.strm st
  let h := s.head (st / 4)
  let d := s.bindDecl st
  if x.source == 0 then
    let fed := h.state == .absent && s.yports.any (fun e : Nat × Yport => e.2.up)
    match h.chan (st % 4) with
    | some v => [(!h.usable && !fed, .badState), (h.detach.isSome, .busy), (h.usable && (v.width.toNat != d.width || v.height.toNat != d.height), .badParam)]
    | none => [(!fed, .badState)]
  else [(x.source == 1 && x.replay.isNone, .badState)]

/-- A bound stream starts: a LIVE one admits from its next frame start, or from the one after a DTB value; a paced one begins
its frames again at 0. -/
def streamStart (k : Pkt) (st pol sw oq pool at' : Nat) (time : B64) (s : State) : State :=
  let x := s.strm st
  let o := x.ctx.getD 16
  let c := (s.boundCtx st).getD {}
  let n := if oq = 0 then 4 else oq
  let ports := Tab.keys s.yports (fun y => y.owner == some o)
  s.command k 0x0001
    ([(decide (1 < pol) || decide (1 < sw) || decide (1 < at') || oq == 1 || decide (8 < oq), .badParam)] ++ s.boundChecks k st
      ++ [(!(c.state == .cocoon || c.state == .running || c.state == .eclosing) || x.started, .badState),
          (sw == 1 && (decide (1 < (s.ctxStreams o).length) || c.bindImage.multi), .badParam),
          (c.bindImage.multi && !ports.all (fun p => (s.yport p).bound), .badState)]
      ++ s.startSource st ++ s.startPool k st pool ++ [(decide (2097152 < s.queueBytes st n), .busy)])
    (fun s =>
      let y := { x with
        started := true, admitting := false, stopNext := false, stopNow := false, scheduled := sw == 1, stall := pol == 1, oqLines := n
        pool := pool, dropD := 8, startAt := if at' = 1 then some time else none, held := none, posted := none }
      let y := if x.source == 0 then y
        else { y with paceFrame := 0, paceLine := 0, fetchFrame := 0, fetchLine := 0, prefetch := []
                      frames := y.frames.filter (fun f => !f.written), latched := none }
      let s := s.setStrm st y
      let s := if c.state == .cocoon then s.modRunning o (fun c => { c with state := .running }) else s
      s.finish k true .ok)

def execStreamStart (k : Pkt) (stream policy switching oqLines pool when_ : B8) (atDtb : B64) (s : State) : Host.Outcome State Fault Refusal :=
  .next (streamStart k stream.toNat policy.toNat switching.toNat oqLines.toNat pool.toNat when_.toNat atDtb s)

/-- The streams a STREAM_STOP names that have started. -/
def State.stopTargets (s : State) (kind t : Nat) : List Nat :=
  (if kind = 0 then [t] else s.ctxStreams t).filter (fun i => (s.strm i).started)

/-- STREAM_STOP (R313). -/
def streamStop (k : Pkt) (t kind imm : Nat) (s : State) : State :=
  s.command k 0x0002
    ([(decide (1 < kind) || decide (1 < imm), .badParam)] ++ (if kind = 0 then s.boundChecks k t else s.ctxChecks k t)
      ++ [((s.stopTargets kind t).isEmpty, .badState)])
    (fun s =>
      let sts := s.stopTargets kind t
      let s := sts.foldl (fun s i => s.stopStream i (imm == 1)) s
      s.finish k true .ok [(s.strm (sts.getLast?.getD 0)).lastAdmitted])

def execStreamStop (k : Pkt) (target kind immediate : B8) (s : State) : Host.Outcome State Fault Refusal :=
  .next (streamStop k target.toNat kind.toNat immediate.toNat s)

/-- ECLOSE_VARIANT: a placed variant ecloses at the stream's next end-of-frame tag, or at once in COCOON (R304, R308). -/
def ecloseVariant (k : Pkt) (o n at' : Nat) (s : State) : State :=
  let c := (s.ctxUp o).getD {}
  let v := c.variants.find? (fun p => p.slot == n)
  s.command k 0x0003
    ([(decide (64 ≤ n) || decide (1 < at'), .badParam)] ++ s.ctxChecks k o
      ++ [(v.isNone || (s.slot n).state != .staged, .badParam),
          ((s.ctxStreams o).any (fun i => (s.strm i).scheduled && (s.strm i).started), .badState),
          (c.state != (if at' = 1 then CtxState.cocoon else CtxState.running), .badState), (c.ecl.isSome, .busy)])
    (fun s => match v with
      | some p => s.setCtx o (some { c with ecl := some { kind := 2, place := p, pkt := some k, due := at' == 1 } })
      | none => s)

def execEcloseVariant (k : Pkt) (owner slot when_ : B8) (s : State) : Host.Outcome State Fault Refusal :=
  .next (ecloseVariant k owner.toNat slot.toNat when_.toNat s)

/-- STATS_SNAPSHOT: the named banks are held from here until the snapshot completes (R456). -/
def statsSnapshot (k : Pkt) (o st which : Nat) (vmask : B32) (dest : B64) (len : Nat) (s : State) : State :=
  let c := (s.ctxUp o).getD {}
  let sites := (c.maskSites vmask).map (fun e : Nat × Nat => e.2)
  s.command k 0x0004
    ([(decide (1 < which) || decide (64 ≤ st) || vmask == 0 || destBad k dest, .badParam)] ++ s.soundChecks k o
      ++ [(decide (2 ^ c.place.image.decl.statsUnits.length ≤ vmask.toNat), .badParam),
          (which == 0 && sites.any (fun i => (s.unit i).lastClosed.isNone), .badState), (c.snap.isSome, .busy)])
    (fun s =>
      let s := s.setCtx o (some { c with snap := some { pkt := k, stream := st, next := which == 1, vmask := vmask, dest := dest, length := len } })
      if which = 0 then { s with units := Tab.upd {} (fun u : Unit => { u with bankHeld := true }) s.units sites } else s)

def execStatsSnapshot (k : Pkt) (owner stream which : B8) (vmask : B32) (dest : B64) (length : B32) (s : State) :
    Host.Outcome State Fault Refusal := .next (statsSnapshot k owner.toNat stream.toNat which.toNat vmask dest length.toNat s)

-- Locks (R367, R368).

/-- LOCK_ACQUIRE: granted, held and not waited for, or queued behind at most 8 waiters. A holder that asks again holds on. -/
def lockAcquire (k : Pkt) (l wait us : Nat) (s : State) : State :=
  s.command k 0x0005
    [(decide (48 ≤ l) || decide (1 < wait) || (wait == 1 && us == 0), .badParam)]
    (fun s =>
      let r := s.tryLock l (fnCode (who k))
      let x := r.2.lock l
      match r.1 with
      | .granted lost => r.2.finish k true (if lost then .okLost else .ok) [x.epoch.toNat]
      | .self => r.2.finish k true .ok [x.epoch.toNat]
      | .held =>
        if wait = 0 then s.finish k true .lockHeld
        else if 8 ≤ x.waiters.length then s.finish k true .busy
        else s.setLock l { x with waiters := x.waiters ++ [{ code := fnCode (who k), reply := some k }] })

def execLockAcquire (k : Pkt) (lock wait : B8) (timeoutUs : B16) (s : State) : Host.Outcome State Fault Refusal :=
  .next (lockAcquire k lock.toNat wait.toNat timeoutUs.toNat s)

/-- LOCK_RELEASE by the holder (R368). -/
def lockRelease (k : Pkt) (l : Nat) (s : State) : State :=
  s.command k 0x0006 [(decide (64 ≤ l), .badParam), ((s.lock l).holder != fnCode (who k), .badState)]
    (fun s => (s.handLock l).finish k true .ok)

def execLockRelease (k : Pkt) (lock : B8) (s : State) : Host.Outcome State Fault Refusal := .next (lockRelease k lock.toNat s)

/-- LOCK_QUERY (R365): the holder, and the state word with its flags; the epoch is the word's. -/
def lockQuery (k : Pkt) (l : Nat) (s : State) : State :=
  s.command k 0x0007 [(decide (64 ≤ l), .badParam)]
    (fun s => s.finish k true .ok [(s.lock l).holder.toNat, (s.lock l).word])

def execLockQuery (k : Pkt) (lock : B8) (s : State) : Host.Outcome State Fault Refusal := .next (lockQuery k lock.toNat s)

/-- CONTEXT_ABORT (R315): at once; during an eclosion when Open ends; in FAULT it completes at once. -/
def contextAbort (k : Pkt) (o : Nat) (s : State) : State :=
  s.command k 0x8001 (s.ctxChecks k o)
    (fun s =>
      let c := (s.ctxUp o).getD {}
      match c.state with
      | .fault => s.finish k true .ok
      | .eclosing => s.setCtx o (some { c with abortPend := some (c.abortPend.getD Cause.aborted.code), abortPkts := c.abortPkts ++ [k] })
      | .aborting => s.setCtx o (some { c with abortPkts := c.abortPkts ++ [k] })
      | _ => (s.setCtx o (some { c with abortPkts := c.abortPkts ++ [k] })).abortCtx o Cause.aborted.code 1)

def execContextAbort (k : Pkt) (owner : B8) (s : State) : Host.Outcome State Fault Refusal := .next (contextAbort k owner.toNat s)

-- QUEUE_FLUSH (R165-R167, R172).

/-- A Yallek port's Spore transmit queue is flushed: Spores not yet sent go, and their sequence numbers are used again. -/
def State.flushSpores (s : State) (p cause : Nat) : State :=
  let s := s.modYport p (fun y => { y with txSeq := y.txSeq - BitVec.ofNat 16 y.tx.length, tx := [] })
  let s := s.modQueue (100 + p) FQueue.flush
  s.log .queueFlush (inPort (dieOfYallek p)) noFn (packBits [(8, 3), (8, 0), (16, p)])
    (packBits [(8, (s.queue (100 + p)).flushEpoch.toNat), (8, cause)])

/-- QUEUE_FLUSH of a reply queue, an output queue, a pool or a Spore transmit queue, by the function that owns it; a Spore queue
belongs to no function. -/
def queueFlush (k : Pkt) (cls i : Nat) (s : State) : State :=
  let checks : List (Bool × Status) := match cls with
    | 0 => [(decide (64 ≤ i), .badParam), (!mayAct (who k) i, .notOwner)]
    | 1 => s.streamChecks k i
    | 2 => s.poolChecks k i
    | 3 => [(decide (4 ≤ i), .badParam), (decide (s.part.variant.yalleks ≤ i), .noResource)]
    | _ => [(true, .badParam)]
  s.command k 0x8002 checks
    (fun s =>
      let s := match cls with
        | 0 => s.flushReplies i 0
        | 1 => s.flushOutput i 2 0
        | 2 => s.flushPool i 2 0
        | _ => s.flushSpores i 0
      s.finish k true .ok)

def execQueueFlush (k : Pkt) (cls index : B8) (s : State) : Host.Outcome State Fault Refusal := .next (queueFlush k cls.toNat index.toNat s)

/-- DROP_THRESHOLD (R343): a REPLAY or PATTERN stream is left as it is (Table 17-3). -/
def dropThreshold (k : Pkt) (st n : Nat) (s : State) : State :=
  s.command k 0x8003 ([(n == 0 || decide (8 < n), .badParam)] ++ s.boundChecks k st)
    (fun s => (if (s.strm st).source == 0 then s.modStrm st (fun x => { x with dropD := n }) else s).finish k true .ok)

def execDropThreshold (k : Pkt) (stream lines : B8) (s : State) : Host.Outcome State Fault Refusal :=
  .next (dropThreshold k stream.toNat lines.toNat s)

-- UNIT_COUNTERS (R454, R455).

/-- The result of UNIT_COUNTERS but for the ESN of its reply, which is written when the reply is numbered: the header, then as
many whole records as the length takes, in ascending site. A command that gets no reply has no such ESN: those bytes are free. -/
def State.counterBytes (s : State) (o len : Nat) (esn : Bytes) : Bytes × Bool :=
  let sites := match s.ctx o with | some c => (List.range 768).filter (fun i => c.region.contains i) | none => []
  let fit := sites.take ((len - 16) / 64)
  (toLe 1 o ++ toLe 1 0 ++ toLe 2 fit.length ++ esn ++ toLe 6 0 ++ fit.flatMap (fun i => unitRecord i (s.unit i)), fit.length < sites.length)

def unitCounters (k : Pkt) (o : Nat) (dest : B64) (len : Nat) (s : State) : State :=
  s.command k 0x8004 ([(destBad k dest, .badParam)] ++ s.ctxChecks k o)
    (fun s =>
      let u := toLe 6 (Config.unstated s.freeCount).toNat
      let b := s.counterBytes o len u
      let out := if len < 16 then ([], true) else b
      let r := s.draw.deliver k dest out.1
      let cut := r.1 || out.2
      r.2.finish k true (if cut then .truncated else .ok) [min out.1.length (if k.cspi then 4096 else out.1.length)]
        (if len < 16 then none else some (dest + 4)))

def execUnitCounters (k : Pkt) (owner : B8) (dest : B64) (length : B32) (s : State) : Host.Outcome State Fault Refusal :=
  .next (unitCounters k owner.toNat dest length.toNat s)

-- ENTITY_WRITE (R241).

/-- A row of an entity table is written whole: its four words, through the service port of the S-unit that holds it (R241). -/
def State.writeRow (s : State) (p : Placement) (e : EntityDecl) (row : Nat) (b : Bytes) : State :=
  match entityRow e.parts row with
  | none => s
  | some (v, w) =>
    match p.site v with
    | none => s
    | some site => (List.range 4).foldl (fun s i => s.modUnit site (fun u => u.place (w + i) (BitVec.ofNat 256 (fieldLe b (32 * i) 32)))) s

def entityWrite (k : Pkt) (o t row n : Nat) (src : B64) (s : State) : State :=
  let c := (s.ctxUp o).getD {}
  let e := c.place.image.decl.entities[t]?
  let rows := match e with | some e => entityRows e | none => 0
  s.command k 0x8005 ([(k.cspi, .badParam)] ++ s.soundChecks k o ++ [(n == 0 || decide (rows < row + n), .badParam)])
    (fun s =>
      match s.hostTaken src (128 * n), e with
      | some b, some e =>
        let s := (List.range n).foldl (fun s i => s.writeRow c.place e (row + i) ((b.drop (128 * i)).take 128)) s
        (s.hostUsed src).finish k true .ok
      | _, _ => (s.hostUsed src).finish k true .memError)

def execEntityWrite (k : Pkt) (owner table : B8) (row count : B16) (src : B64) (s : State) : Host.Outcome State Fault Refusal :=
  .next (entityWrite k owner.toNat table.toNat row.toNat count.toNat src s)

/-- EXPONENT_TRIM (R202): the group is declared and t lies in its range, or nothing changes. -/
def exponentTrim (k : Pkt) (o g : Nat) (t : Int) (s : State) : State :=
  let c := (s.ctxUp o).getD {}
  let bad := match c.place.image.decl.trims[g]? with
    | some d => decide (t < d.lo) || decide (d.hi < t)
    | none => true
  s.command k 0x8006
    (s.soundChecks k o ++ [(bad, .badParam), (c.state == .eclosing || c.ecl.any (fun e : Eclosion => e.started), .busy)])
    (fun s => (s.setCtx o (some { c with trims := Tab.set c.trims g t })).finish k true .ok)

def execExponentTrim (k : Pkt) (owner group t : B8) (s : State) : Host.Outcome State Fault Refusal :=
  .next (exponentTrim k owner.toNat group.toNat t.toInt s)

end Sys2Proof.Machine
end

