-- ==== Sys2Proof/Machine/CmdSystem.lean ====
section
/-! DEFINITION. The firmware opcodes of the device as a whole (Table 13-6): functions, pools, modes, power, log rings, HBM writes,
the DTB and the Ethernet records. -/

namespace Sys2Proof.Machine

/-- FW_NOP. -/
def execFwNop (k : Pkt) (s : State) : Host.Outcome State Fault Refusal :=
  .next (s.command k 0x1000 [] (fun s => s.finish k false .ok [s.boot.fwVersion.toNat]))

/-- FN_GRANT (R335): the PF keeps EXPERT whatever is granted. -/
def fnGrant (k : Pkt) (f expert : Nat) (s : State) : State :=
  s.command k 0x1001 [(decide (64 ≤ f) || decide (1 < expert), .badParam)]
    (fun s => (s.modFn f (fun x => { x with expert := expert == 1 })).finish k false .ok)

def execFnGrant (k : Pkt) (fn expert : B8) (s : State) : Host.Outcome State Fault Refusal := .next (fnGrant k fn.toNat expert.toNat s)

/-- VF_MAP (R323): functions 0 and 1 are no VFs of an endpoint's choice on a variant with two; a variant with one endpoint has no B. -/
def vfMap (k : Pkt) (m : B64) (s : State) : State :=
  s.command k 0x1002 [(s.part.variant == .k1108 && m != 0, .noResource), (s.vfEnable, .busy)]
    (fun s => ({ s with vfMap := m &&& 0xFFFFFFFFFFFFFFFC }).finish k false .ok)

def execVfMap (k : Pkt) (map : B64) (s : State) : Host.Outcome State Fault Refusal := .next (vfMap k map s)

/-- A number as a device function. -/
def fnId (n : Nat) : FnId := Fin.ofNat 64 n

/-- HEAD_ASSIGN: not while a stream of the head runs. -/
def headAssign (k : Pkt) (h f : Nat) (s : State) : State :=
  s.command k 0x1003
    ((s.headChecks k h).take 1 ++ [(decide (64 ≤ f), .badParam)] ++ (s.headChecks k h).drop 1
      ++ [([0, 1, 2, 3].any (fun v => (s.strm (4 * h + v)).started), .busy)])
    (fun s => (s.modHead h (fun x => { x with fn := fnId f })).finish k false .ok)

def execHeadAssign (k : Pkt) (head fn : B8) (s : State) : Host.Outcome State Fault Refusal := .next (headAssign k head.toNat fn.toNat s)

/-- Whether a stream names a pool: it runs with it, or its output still fills the pool's buffers (R169, R170). -/
def State.poolNamed (s : State) (p : Nat) : Bool :=
  s.streams.any (fun e : Nat × Strm => e.2.route == 0 && e.2.pool == p
    && (e.2.started || e.2.openBuf.isSome || e.2.ringBuf.isSome || e.2.granted.isSome || !e.2.oq.isEmpty))

/-- POOL_ASSIGN: not while a stream names the pool. -/
def poolAssign (k : Pkt) (p f : Nat) (s : State) : State :=
  s.command k 0x1004
    ((s.poolChecks k p).take 1 ++ [(decide (64 ≤ f), .badParam)] ++ (s.poolChecks k p).drop 1 ++ [(s.poolNamed p, .busy)])
    (fun s => (s.modPool p (fun x => { x with fn := fnId f })).finish k false .ok)

def execPoolAssign (k : Pkt) (pool fn : B8) (s : State) : Host.Outcome State Fault Refusal := .next (poolAssign k pool.toNat fn.toNat s)

/-- POOL_SETUP (R169, R171): the pool starts afresh on its two rings, which lie in host memory (R332). -/
def poolSetup (k : Pkt) (p ro co : Nat) (ring cpl : B64) (s : State) : State :=
  s.command k 0x1005
    ((s.poolChecks k p).take 1 ++ [(decide (ro < 4) || decide (12 < ro) || decide (co < 4) || decide (12 < co) || k.cspi, .badParam)]
      ++ (s.poolChecks k p).drop 1 ++ [(s.poolNamed p, .busy)])
    (fun s => (s.modPool p (fun x => { x with
        ready := true, ring := ring, order := ro, cplRing := cpl, cplOrder := co, prod := 0, cons := 0, cache := [], cpl := [], cplProd := 0 })).finish
      k false .ok)

def execPoolSetup (k : Pkt) (pool ringOrder cplOrder : B8) (ring cpl : B64) (s : State) : Host.Outcome State Fault Refusal :=
  .next (poolSetup k pool.toNat ringOrder.toNat cplOrder.toNat ring cpl s)

-- Device modes (R439).

/-- Head trust (R442): at once for a head with no running stream, at its next frame start otherwise. -/
def State.setTrust (s : State) (v : Bool) : State :=
  let s := { s with modes := { s.modes with openTrust := v } }
  (List.range 16).foldl (fun s h =>
    if s.headStreaming h then s
    else
      let s := s.modHead h (fun x => { x with openTrust := v })
      if (s.head h).state == .untrusted && !v then s.authFail h else s) s

/-- The check mode, with its cap (R60, R286, R414). -/
def State.setCheck (s : State) (v : Bool) : State :=
  let t := { s with modes := { s.modes with hazard := v } }
  if v == s.modes.hazard then t else (t.logCap s 1 v).retargetAll

/-- MODE_SET: the check mode changes only while no context runs (R286); the life policy reaches each head at its next frame
start (R443). -/
def modeSet (k : Pkt) (axis value : Nat) (s : State) : State :=
  let v := value == 1
  s.command k 0x1006
    [(decide (3 < axis) || decide (1 < value), .badParam), (axis == 0 && s.ctxs.any (fun e : Nat × Option Ctx => e.2.any (fun c => c.opened)), .busy)]
    (fun s =>
      let s := match axis with
        | 0 => s.setCheck v
        | 1 => s.setTrust v
        | 2 => { s with modes := { s.modes with limit := v } }
        | _ => { s with modes := { s.modes with hazFault := v } }
      s.finish k false .ok)

def execModeSet (k : Pkt) (axis value : B8) (s : State) : Host.Outcome State Fault Refusal := .next (modeSet k axis.toNat value.toNat s)

/-- The power mode changes: logged, with its cap; under FULL no stack stays in power-down (R415). -/
def State.setPower (s : State) (eco : Bool) : State :=
  if s.modes.eco == eco then s
  else
    let t := { s with modes := { s.modes with eco := eco } }
    let t := t.log .powerMode inPower 0 (if eco then 1 else 0) 0
    let t := (t.logCap s 0 eco).retargetAll
    if eco then t else { t with hbmStacks := Tab.mapVals (fun x : Stack => { x with down := false }) t.hbmStacks }

/-- POWER_MODE. -/
def powerMode (k : Pkt) (m : Nat) (s : State) : State :=
  s.command k 0x1007 [(decide (1 < m), .badParam)] (fun s => (s.setPower (m == 1)).finish k false .ok)

def execPowerMode (k : Pkt) (mode : B8) (s : State) : Host.Outcome State Fault Refusal := .next (powerMode k mode.toNat s)

/-- LOG_RING (R349): a ring of host memory, new from its effect on; only the PF may take the records of no function (R335). -/
def logRing (k : Pkt) (order filter : Nat) (dest : B64) (s : State) : State :=
  s.command k 0x1008
    [(bit filter 2 && who k != 0, .notPermitted), (decide (order < 8) || decide (16 < order) || decide (7 < filter) || k.cspi, .badParam)]
    (fun s => (s.modFn (who k) (fun x => { x with
        logRing := some { dest := dest, order := order, filter := filter }, logProd := 0, logCons := 0, logDrop := 0, gapCount := 0 })).finish k false .ok)

def execLogRing (k : Pkt) (order filter : B8) (dest : B64) (s : State) : Host.Outcome State Fault Refusal :=
  .next (logRing k order.toNat filter.toNat dest s)

/-- HBM_WRITE (R375, R376): a stack whose clock is lost ends the access with an error (Table 03-5). -/
def hbmWrite (k : Pkt) (n : Nat) (a : B64) (data : Bytes) (s : State) : State :=
  s.command k 0x1010 [(n == 0 || decide (224 < n) || decide (data.length < n) || s.hbmBad a.toNat n, .badParam),
      (!s.stackOk (a.toNat / 17179869184), .hwError)]
    (fun s => ((s.hbmWrite a.toNat (data.take n)).modStackOf (a.toNat / 17179869184) (fun x => { x with down := false })).finish k false .ok)

def execHbmWrite (k : Pkt) (length : B16) (hbm : B64) (data : Bytes) (s : State) : Host.Outcome State Fault Refusal :=
  .next (hbmWrite k length.toNat hbm data s)

-- The DTB (R70-R72).

/-- TIME_MODE: a change of mode drops a slew in progress. -/
def timeMode (k : Pkt) (mode policy slew thr : Nat) (s : State) : State :=
  s.command k 0x1400 [(decide (2 < mode) || decide (1 < policy) || slew == 0 || decide (1000 < slew) || decide (1000000000 < thr), .badParam)]
    (fun s =>
      let m : DtbMode := match mode with | 0 => .free | 1 => .host | _ => .ptp
      ({ s with dtb := { s.dtb with mode := m, slewOnly := policy == 1, slewMax := slew, threshold := thr
                                    slew := if m == s.dtb.mode then s.dtb.slew else 0, slewing := m == s.dtb.mode && s.dtb.slewing } }).finish k false .ok)

def execTimeMode (k : Pkt) (mode policy : B8) (slewPpm : B16) (thresholdNs : B32) (s : State) : Host.Outcome State Fault Refusal :=
  .next (timeMode k mode.toNat policy.toNat slewPpm.toNat thresholdNs.toNat s)

/-- Whether an offset is removed by a step (R71). -/
def Dtb.steps (d : Dtb) (offset : Int) : Bool := decide (d.threshold < offset.natAbs) && !d.slewOnly

/-- TIME_ADJUST: a step, an offset, or a new base addend. A step replies when it has applied; an offset that a step removes ends
a slew in progress at once. -/
def timeAdjust (k : Pkt) (kind : Nat) (v : Int) (s : State) : State :=
  let step := kind == 0 || (kind == 1 && s.dtb.steps v)
  s.command k 0x1401
    [(decide (2 < kind) || (kind == 2 && decide (addendBound < (v - addendNominal).natAbs)), .badParam), (s.dtb.mode != .host, .badState),
      (step && s.dtb.pendingStep.isSome, .busy)]
    (fun s =>
      if step then
        let s := if kind == 1 then { s with dtb := { s.dtb with slew := 0, slewing := false } } else s
        s.requestStep v (BitVec.ofNat 16 (who k)) (some k)
      else if kind == 1 then (s.slewBy v).finish k false .ok
      else ({ s with dtb := { s.dtb with base := v.toNat, slew := 0, slewing := false } }).finish k false .ok)

def execTimeAdjust (k : Pkt) (kind : B8) (value : B64) (s : State) : Host.Outcome State Fault Refusal :=
  .next (timeAdjust k kind.toNat value.toInt s)

-- Ethernet records (Table 15-9, Table 15-12).

/-- Whether every byte of a record outside the listed fields (offset and length) is 0. -/
def restZero (listed : List (Nat × Nat)) (b : Bytes) : Bool :=
  (List.range b.length).all (fun i => byteAt b i == 0 || listed.any (fun e : Nat × Nat => decide (e.1 ≤ i) && decide (i < e.1 + e.2)))

/-- Table 15-9. -/
def portRecordOk (b : Bytes) : Bool :=
  b.length == 208 && restZero [(0, 30), (32, 6), (40, 8)] b && decide (fieldLe b 17 1 ≤ 1) && decide (fieldLe b 18 1 ≤ 1)
    && decide (fieldLe b 19 1 ≤ 1)

/-- Table 15-12; a dynamic payload type (Table 15-11). -/
def senderRecordOk (b : Bytes) : Bool :=
  b.length == 208 && restZero [(0, 5), (8, 6), (16, 18), (36, 8)] b && decide (fieldLe b 0 1 ≤ 1) && decide (fieldLe b 1 1 ≤ 1)
    && decide (96 ≤ fieldLe b 2 1) && decide (fieldLe b 2 1 ≤ 127)

/-- ST2110_SENDER: a sender's record (R405), or with 0xF0 or 0xF1 that of a port, which enable 1 brings up (R401). The link of an
enabled port comes up by ETH_LINK_CHANGE. -/
def st2110Sender (k : Pkt) (d en : Nat) (b : Bytes) (s : State) : State :=
  let port := decide (0xF0 ≤ d)
  let i := if port then d - 0xF0 else d / 16
  s.command k 0x1500
    [((decide (32 ≤ d) && decide (d < 0xF0)) || decide (0xF1 < d) || decide (1 < en) || b.length != 208
        || (en == 1 && !(if port then portRecordOk b else senderRecordOk b)), .badParam),
      (decide (s.part.variant.ports ≤ i), .noResource)]
    (fun s =>
      let s :=
        if port then
          let s := if en == 0 then s.ethLink i false else s
          s.modEth i (fun e => { e with enabled := en == 1, record := b, master := if en == 1 then e.master else none, synced := en == 1 && e.synced })
        else s.modSender d (fun x => { x with enabled := en == 1, fn := fnId (who k), record := b, next := 0, frame := none, late := 0 })
      s.finish k false .ok)

def execSt2110Sender (k : Pkt) (sender enable : B8) (record : Bytes) (s : State) : Host.Outcome State Fault Refusal :=
  .next (st2110Sender k sender.toNat enable.toNat record s)

end Sys2Proof.Machine
end

