-- ==== Sys2Proof/Machine/Heads.lean ====
section
/-! DEFINITION. The Head Links: presence, attach, authentication, wear and ledger, received packets, frame sync, and the
decision writes (chapter 02). -/

namespace Sys2Proof.Machine

/-- Insertion recognised (R27): an automatic attach starts if AUTO_ATTACH is set (R37). -/
def headInserted (h : Nat) (s : State) : State :=
  if !s.linkUp h || (s.head h).present then s
  else
    let s := s.modHead h (fun x => { x with present := true })
    if (s.head h).autoAttach then s.startAttach h none else s

def execHeadInserted (h : HeadId) (s : State) : Host.Outcome State Fault Refusal := .next (headInserted h s)

/-- Removal recognised (R27): power off at once, the open frames DROPPED with HEAD_LOST, the head ABSENT; its uncommitted wear
stays in the pending store (R47). -/
def headRemoved (h : Nat) (s : State) : State :=
  if !s.linkUp h || !(s.head h).present then s
  else
    let s := (s.loseFrames h .headLost).dropCommit h
    let s := s.dropHeadCmds h .headFault .ok
    s.modHead h (fun x => { x.off with present := false })

def execHeadRemoved (h : HeadId) (s : State) : Host.Outcome State Fault Refusal := .next (headRemoved h s)

/-- A falling edge of HEAD_n_INT_N (R27). -/
def execHeadInt (h : HeadId) (s : State) : Host.Outcome State Fault Refusal :=
  .next (if s.linkUp h then s.log .headInt h (s.headFn h) h 0 else s)

/-- An in-band interrupt of one of the four targets (R34): 0 NVM, 1 sensor, 2 secure element, 3 actuator. -/
def execHeadIbi (h : HeadId) (target : Fin 4) (data : B8) (s : State) : Host.Outcome State Fault Refusal :=
  .next (if s.linkUp h && (s.head h).pwrEn then
    s.log .headIbi h (s.headFn h) h (packBits [(8, target), (8, data.toNat)]) else s)

/-- A frame-start packet (R31, R32, R42, R147). -/
def frameStart (h vc : Nat) (hdr : CsiHdr) (fn : Nat) (s : State) : State :=
  match s.packet h vc hdr with
  | (none, s) => s
  | (some d, s) =>
    let st := 4 * h + vc
    -- a frame still open closes as SHORT
    let s := if (s.strm st).frame.isSome then
        (match (s.strm st).frame with
          | some f => s.modFrame st f.fseq (fun i => i.flag .short)
          | none => s).closeFrame st d.height.toNat
      else s
    let x := s.strm st
    let r := fseqNext d.fnWrap.toNat fn x.fnLast x.fnSeen x.fseq
    let s := s.modStrm st (fun y => { y with fseq := r.1, fnLast := fn, fnSeen := true })
    let s := if r.2.1 != 0 then s.log .frameGap h (s.headFn h) st (packBits [(16, r.1.toNat), (16, r.2.1)]) else s
    let s := if r.2.2 then s.log .fnRepeat h (s.headFn h) st (packBits [(16, r.1.toNat), (16, fn)]) else s
    (s.frameEdge h).openFrame st h r.1

def execFrameStart (h : HeadId) (vc : Fin 4) (hdr : CsiHdr) (fn : B16) (s : State) : Host.Outcome State Fault Refusal :=
  .next (frameStart h vc hdr fn.toNat s)

/-- A frame-end packet (R32, R33). -/
def frameEnd (h vc : Nat) (hdr : CsiHdr) (s : State) : State :=
  match s.packet h vc hdr with
  | (none, s) => s
  | (some d, s) =>
    let st := 4 * h + vc
    if (s.strm st).frame.isNone then s.outside h else s.closeFrame st d.height.toNat

def execFrameEnd (h : HeadId) (vc : Fin 4) (hdr : CsiHdr) (s : State) : Host.Outcome State Fault Refusal :=
  .next (frameEnd h vc hdr s)

/-- A line-start packet: it stamps and numbers the line it opens and the lines it skips (R32, R55, R74). -/
def lineStart (h vc : Nat) (hdr : CsiHdr) (number err : Nat) (s : State) : State :=
  match s.packet h vc hdr with
  | (none, s) => s
  | (some d, s) =>
    let st := 4 * h + vc
    if (s.strm st).frame.isNone then s.outside h
    else
      let s := s.flushCur st d.height.toNat
      let stamp := s.stamp st err
      match (s.strm st).frame with
      | none => s
      | some f =>
        let s := s.modStrm st (fun x => { x with frame := some { f with cur := some (number, stamp), old := false }, stampLast := some stamp })
        let n := f.place number
        let s := if decide (f.count ≤ n) && decide (n < d.height.toNat) then s.focusLines st f.fseq f.count n else s
        s.lineBegins st

def execLineStartPacket (h : HeadId) (vc : Fin 4) (hdr : CsiHdr) (number : B16) (err : Fin 21) (s : State) :
    Host.Outcome State Fault Refusal := .next (lineStart h vc hdr number.toNat err s)

/-- A line-end packet: a line opened and not received is a line of 0 pixels (Table 02-3). -/
def lineEnd (h vc : Nat) (hdr : CsiHdr) (s : State) : State :=
  match s.packet h vc hdr with
  | (none, s) => s
  | (some d, s) =>
    let st := 4 * h + vc
    if (s.strm st).frame.isNone then s.outside h else s.flushCur st d.height.toNat

def execLineEndPacket (h : HeadId) (vc : Fin 4) (hdr : CsiHdr) (s : State) : Host.Outcome State Fault Refusal :=
  .next (lineEnd h vc hdr s)

/-- Groups of `n` bytes. -/
def groups (n : Nat) : Nat → Bytes → List Bytes
  | 0, _ => []
  | k + 1, bs => if bs.length < n then [] else bs.take n :: groups n k (bs.drop n)

/-- One packing group of CSI-2 as codes of its pixels (log 24). -/
def unpackGroup (bits' : Nat) (g : Bytes) : List Nat :=
  let b := fun i => byteAt g i
  if bits' = 10 then [b 0 * 4 + b 4 % 4, b 1 * 4 + b 4 / 4 % 4, b 2 * 4 + b 4 / 16 % 4, b 3 * 4 + b 4 / 64]
  else if bits' = 12 then [b 0 * 16 + b 2 % 16, b 1 * 16 + b 2 / 16]
  else if bits' = 14 then [b 0 * 64 + b 4 % 64, b 1 * 64 + b 4 / 64 + b 5 % 16 * 4, b 2 * 64 + b 5 / 16 + b 6 % 4 * 16, b 3 * 64 + b 6 / 4]
  else [b 0 * 256 + b 1]

/-- The pixel codes of a payload, left-justified in 16 bits (R30). -/
def unpackRaw (bits' : Nat) (bs : Bytes) : List B16 :=
  let n := if bits' = 10 then 5 else if bits' = 12 then 3 else if bits' = 14 then 7 else 2
  (groups n bs.length bs).flatMap (fun g => (unpackGroup bits' g).map (fun c => BitVec.ofNat 16 (c * 2 ^ (16 - bits'))))

/-- Bits per pixel of a data type; a user-defined one has the packing whose length fits the declared width (log 24). -/
def rawBits (dt width bytes : Nat) : Nat :=
  if dt = 0x2B then 10 else if dt = 0x2C then 12 else if dt = 0x2D then 14 else if dt = 0x2E then 16
  else if bytes * 8 ≤ width * 10 then 10 else if bytes * 8 ≤ width * 12 then 12 else if bytes * 8 ≤ width * 14 then 14 else 16

/-- A long packet of image or phase data (R29, R30, R32, R146). -/
def linePayload (h vc : Nat) (hdr : CsiHdr) (dt : Nat) (payload : Bytes) (crc err : Nat) (s : State) : State :=
  match s.packet h vc hdr with
  | (none, s) => s
  | (some d, s) =>
    let st := 4 * h + vc
    if dt != d.dt.toNat then
      (if dt == d.embDt.toNat && dt != 0 then s else s.modHead h (fun x => { x with unknownDt := x.unknownDt + 1 }))
    else
      match (s.strm st).frame with
      | none => s.outside h
      | some f =>
        let w := d.width.toNat
        let codes := unpackRaw (rawBits dt w payload.length) payload
        let bad := crc16 payload != crc
        let s := if bad then s.modHead h (fun x => { x with crcErr := x.crcErr + 1 }) else s
        let fl := (if bad then 1 else 0) + (if codes.length == w then 0 else 4)
        let at_ := match f.cur with | some c => c | none => (0, s.stamp st err)
        let s := if f.cur.isNone then
            ((s.modStrm st (fun x => { x with stampLast := some at_.2 })).focusLines st f.fseq f.count (min f.count (d.height.toNat - 1))).lineBegins st
          else s
        (s.placeLine st at_.1 d.height.toNat at_.2 (codes.take w) fl).afterLine st

def execLinePayload (h : HeadId) (vc : Fin 4) (hdr : CsiHdr) (dt : B8) (payload : Bytes) (crc : B16) (err : Fin 21) (s : State) :
    Host.Outcome State Fault Refusal := .next (linePayload h vc hdr dt.toNat payload crc.toNat err s)

/-- An embedded-data packet: it joins the frame's metadata, and the frame's first one holds the gain (R29, R52). One whose payload CRC
fails is kept and used like the others (DESIGN CHOICE, log 42: R52's cases for the previous gain do not name it). -/
def embedded (h vc : Nat) (hdr : CsiHdr) (dt : Nat) (payload : Bytes) (crc : Nat) (s : State) : State :=
  match s.packet h vc hdr with
  | (none, s) => s
  | (some d, s) =>
    let st := 4 * h + vc
    if dt != d.embDt.toNat || dt == 0 then
      (if dt == d.dt.toNat then s else s.modHead h (fun x => { x with unknownDt := x.unknownDt + 1 }))
    else
      match (s.strm st).frame with
      | none => s.outside h
      | some f =>
        let s := if crc16 payload != crc then s.modHead h (fun x => { x with crcErr := x.crcErr + 1 }) else s
        s.modFrame st f.fseq (fun i => { i with emb := i.emb ++ [payload] })

def execEmbeddedData (h : HeadId) (vc : Fin 4) (hdr : CsiHdr) (dt : B8) (payload : Bytes) (crc : B16) (s : State) :
    Host.Outcome State Fault Refusal := .next (embedded h vc hdr dt.toNat payload crc.toNat s)

/-- No packet for the timeout of R33 inside an open frame: the frame closes at once, DROPPED with LINK_TIMEOUT (R32). -/
def linkTimeout (st : Nat) (s : State) : State :=
  let x := s.strm st
  if !s.linkUp (st / 4) || x.frame.isNone || x.source != 0 then s
  else
    let s := (s.truncate st .linkTimeout).modStrm st (fun y => { y with frame := none })
    let s := match x.frame with | some f => s.focusEnd st f.fseq | none => s
    if x.stopNext || x.stopNow then
      let s := s.endStream st
      match x.ctx with | some o => s.checkStopping o | none => s
    else s

def execLinkTimeout (st : StreamId) (s : State) : Host.Outcome State Fault Refusal := .next (linkTimeout st s)

/-- One missing line, or the end-of-frame tag behind them, enters the stream buffer at its drain rate (R32). -/
def missingLine (st : Nat) (s : State) : State :=
  let x := s.strm st
  match x.missing with
  | [] => s
  | i :: t =>
    let held := (x.buf.filter (fun i => match i with | .line _ => true | .eof _ => false)).length
    match i with
    | .eof _ => s.setStrm st { x with missing := t, buf := x.buf ++ [i] }
    | .line l =>
      if x.dropD ≤ held then s
      else
        let x := { x with missing := t, buf := x.buf ++ [i], bufPeak := max x.bufPeak (held + 1) }
        s.setStrm st (if l.supplied then x.modFrame l.fseq (fun f => { f with lines := f.lines + 1 }) else x)

def execMissingLineSupply (st : StreamId) (s : State) : Host.Outcome State Fault Refusal := .next (missingLine st s)

-- Frame sync (R35, R75, R487).

/-- The first pulse time at or after a DTB value. -/
def Fsync.nextAt (f : Fsync) (t : Nat) : Nat :=
  if t ≤ f.t0 || f.period == 0 then f.t0 else f.t0 + (t - f.t0 + f.period - 1) / f.period * f.period

/-- A frame-sync pulse begins, within 10 ns of its time (R35, R74): of the settings in force, or of those that waited for a pulse at
least 1 us away. A pulse whose time has passed is not made up for. -/
def fsyncPulse (h : Nat) (s : State) : State :=
  if !s.linkUp h then s
  else
    let x := s.head h
    let now := s.dtb.now.toNat
    let from_ := fun (y : Head) => max y.fsyncFrom (now - 10)
    let x := match x.fsyncNext with
      | some (n, t) =>
        if x.fsync.on && x.fsync.nextAt (from_ x) < t then x
        else { x with fsync := n, fsyncNext := none, fsyncFrom := max x.fsyncFrom t }
      | none => x
    let due := x.fsync.nextAt (from_ x)
    if x.fsync.on && due ≤ now + 10 then s.setHead h { x with fsyncPin := true, fsyncFrom := due + 1 } else s

def execFsyncPulse (h : HeadId) (s : State) : Host.Outcome State Fault Refusal := .next (fsyncPulse h s)

/-- W has passed since a pulse began. -/
def execFsyncPulseEnd (h : HeadId) (s : State) : Host.Outcome State Fault Refusal :=
  .next (if (s.head h).fsyncPin then s.modHead h (fun x => { x with fsyncPin := false }) else s)

-- Wear and the ledger (R44, R45, R48).

/-- A head die temperature as read, in 1/256 degC: TEMP_FMT gives its width, most significant byte first (R34, Table 02-5). -/
def Head.tempValue (h : Head) (bs : Bytes) : Option Int :=
  if h.pp 0x142 1 == 0 then (sensorValue 1 bs).map (fun v => sext 8 v * 256) else (sensorValue 2 bs).map (sext 16)

/-- The once-per-second temperature read of a streaming head (R44); its transfer goes on the bus with it (log 40). MAX_TEMP takes the
whole degrees at or below the reading (DESIGN CHOICE, log 41: the spec gives no rounding). -/
def tempRead (h : Nat) (value : Option Bytes) (s : State) : State :=
  if !s.linkUp h || !(s.head h).usable || !s.headStreaming h then s
  else
    let x := s.head h
    let s := s.modHead h (fun y => y.i3cRead sensorAddr (y.pp 0x140 2) (if y.pp 0x142 1 == 0 then 1 else 2))
    let (s, w) := match value.bind x.tempValue with
      | none =>
        let s := s.modHead h (fun y => { y with tempFails := y.tempFails + 1 })
        (if x.tempFails + 1 == 3 then s.log .tempFail inMc x.fn h 0 else s, 50)
      | some t =>
        (s.modHead h (fun y => { y with temp := t, tempFails := 0, maxTemp := max y.maxTemp (t / 256) }), wearWeight t)
    let s := s.touchEntry h (fun e => { e with wear := e.wear + w })
    let s := s.modHead h (fun y => { y with sinceCommit := y.sinceCommit + 1, sinceAuth := y.sinceAuth + 1
                                            commitDue := y.commitDue || y.commitEvery ≤ y.sinceCommit + 1 })
    s.checkLife h

def execHeadTempRead (h : HeadId) (value : Option Bytes) (s : State) : Host.Outcome State Fault Refusal := .next (tempRead h value s)

/-- The copy a commit writes: the one an interrupted commit named, else the next sequence (R45, R373). -/
def State.commitSeq (s : State) (h : Nat) : Nat :=
  match s.entry h with
  | some e => match e.opened with
    | some (_, q) => if e.forced then q else (s.head h).lastSeq + 1
    | none => (s.head h).lastSeq + 1
  | none => (s.head h).lastSeq + 1

/-- LFLAGS of the next commit (Table 02-8). -/
def Head.nextFlags (h : Head) : Nat :=
  let b := fun (v : Bool) (i : Nat) => if v || h.lflags.getLsbD i then 2 ^ i else 0
  0xF8 + b h.warnSeen 0 + b h.lifeSeen 1 + b h.untrustedUse 2

/-- A commit starts: the MC takes the ledger lock, sets the open-commit record, and the write of one copy goes out (R45, R48,
R373). An UNTRUSTED head has none (R43), nor has one whose commits are used up (R49); in Diapause it waits (R50). -/
def ledgerCommit (h : Nat) (s : State) : State :=
  if !s.linkUp h || !(s.head h).commitDue || (s.head h).state != .ready || (s.head h).commit.isSome || s.supply.diapause then s
  else
    let s := s.checkBudget h
    if (s.head h).exhausted then (s.modHead h (fun x => { x with commitDue := false, sinceCommit := 0 })).detachStep h
    else if (s.lock (48 + h)).holder != 0 then s
    else
      let s := s.modLock (48 + h) (fun l => { l with holder := mcCode, ownerLost := false })
      let q := s.commitSeq h
      let b := q % 2 == 1
      let s := s.touchEntry h (fun e => { e with opened := some (b, q), forced := false })
      let data := ledgerBytes q (min (s.wear h) 0xFFFFFFFF) (s.head h).nextFlags (s.head h).maxTemp
      s.modHead h (fun x => ({ x with commit := some { copyB := b, seq := q, data := data }, commitDue := false, sinceCommit := 0 } : Head).i3cPut
        { target := nvmAddr, reg := if b then 0x240 else 0x200, data := data })

def execLedgerCommit (h : HeadId) (s : State) : Host.Outcome State Fault Refusal := .next (ledgerCommit h s)

/-- The read-back of a commit (R45): it succeeds and clears the pending wear and the record together (R373), or writes the same
copy once more, or ends with NVM_FAULT. -/
def ledgerReadback (h : Nat) (copy : Bytes) (s : State) : State :=
  let x := s.head h
  match x.commit with
  | none => s
  | some c =>
    let addr := if c.copyB then 0x240 else 0x200
    if !s.linkUp h || x.i3c.any (fun t => t.target == nvmAddr && t.reg == addr && t.rlen == 0) then s
    else
    let s := s.modHead h (fun y => y.i3cRead nvmAddr addr 16)
    if copy == c.data then
      let w := fieldLe c.data 4 4
      let left := s.wear h - w
      let s := s.touchEntry h (fun e => { e with wear := left, opened := none, forced := false })
      let s := if left == 0 then { s with store := s.store.filter (fun e => e.id != x.id) } else s
      let s := s.modHead h (fun y => { y with commit := none, lastSeq := c.seq, wear := w, lflags := BitVec.ofNat 8 (fieldLe c.data 8 1)
                                              untrustedUse := false })
      ((s.handLock (48 + h)).checkBudget h).detachStep h
    else if !c.retried then
      (s.modHead h (fun y => ({ y with commit := some { c with retried := true } } : Head).i3cPut { target := nvmAddr, reg := addr, data := c.data })).sclSettle h
    else
      let s := s.log .nvmFault inMc x.fn h (packBits [(32, c.seq), (8, if c.copyB then 1 else 0)])
      ((s.modHead h (fun y => { y with commit := none })).handLock (48 + h)).detachStep h

def execLedgerReadback (h : HeadId) (copy : Bytes) (s : State) : Host.Outcome State Fault Refusal := .next (ledgerReadback h copy s)

/-- Recovery of the ledger at attach (R46, R47, R373): a copy that an open record names is disregarded. After a blank or a lost ledger
MAX_TEMP starts below every reading, at -32768 (DESIGN CHOICE, log 41: the spec gives none). -/
def State.recover (s : State) (h : Nat) : State :=
  let x := s.head h
  let a := (x.passport.drop 0x200).take 16
  let b := (x.passport.drop 0x240).take 16
  let named := match s.entry h with | some e => e.opened.map (·.1) | none => none
  let okA := ledgerValid false a && named != some false
  let okB := ledgerValid true b && named != some true
  let blankA := a.all (· == 0xFF) || named == some false
  let blankB := b.all (· == 0xFF) || named == some true
  let qa := fieldLe a 0 4
  let qb := fieldLe b 0 4
  let take := fun (s : State) (c : Bytes) => s.modHead h (fun y =>
    { y with lastSeq := fieldLe c 0 4, wear := fieldLe c 4 4, lflags := BitVec.ofNat 8 (fieldLe c 8 1), maxTemp := sext 16 (fieldLe c 10 2)
             warnSeen := bit (fieldLe c 8 1) 0, lifeSeen := bit (fieldLe c 8 1) 1 })
  let s :=
    if okA && okB then take s (if qb < qa then a else b)
    else if okA then (take s a).log .ledgerTorn inMc x.fn h (packBits [(32, qa), (8, 0)])
    else if okB then (take s b).log .ledgerTorn inMc x.fn h (packBits [(32, qb), (8, 1)])
    else if blankA && blankB then
      s.modHead h (fun y => { y with lastSeq := 0, wear := 0, lflags := 0xF8, maxTemp := -32768, warnSeen := false, lifeSeen := false })
    else
      let q := if qa == 0xFFFFFFFF && qb == 0xFFFFFFFF then 0 else max qa qb
      (s.modHead h (fun y => { y with lastSeq := q, wear := y.lifeWear, lflags := 0xFA, maxTemp := -32768, warnSeen := false, lifeSeen := true })).log
        .ledgerLost inMc x.fn h (packBits [(32, q), (8, 0xFF)])
  { s with store := s.store.map (fun e : Pending => if e.id == x.id then { e with head := h } else e) }

/-- The settle time ends (R36): passport, addresses, set-points, ledger, and the start of the authentication; the transfers of its reads
go on the bus with it (R22, R34; log 40). The starting gain g is rounded to binary16 where it serves as the previous gain of R52
(DESIGN CHOICE, log 41: R52 keeps G in binary16 and gives no rounding). UNTRUSTED_USE is owed to the head, not to its connector (R43). -/
def attachSettled (h : Nat) (r : AttachRead) (s : State) : State :=
  if !s.linkUp h || (s.head h).state != .powering then s
  else
    let s := s.modHead h (fun x => { x.i3cRead nvmStatic 0 640 with state := .ident })
    match r.passport with
    | none => s.attachFault h 3
    | some b =>
      let id := (s.head h).id
      let s := (s.modHead h (fun x => { x with passport := b.take 640 })).passportReport h b
      let s := s.modHead h (fun x => { x with untrustedUse := x.untrustedUse && x.id == id })
      if !(s.head h).passportOk then s.attachFault h 1
      else
        let x := s.head h
        let s := s.modHead h (fun x => { x with i3c := x.i3c ++ x.setdasas })
        match r.assigned, r.expo.bind (sensorValue x.expoBytes), r.gain.bind (sensorValue x.gainBytes) with
        | true, some e, some g =>
          let a := r.act.bind x.actValue
          let s := s.modHead h (fun x =>
            let x := (x.i3cRead sensorAddr (x.pp 0x144 2) x.expoBytes).i3cRead sensorAddr (x.pp 0x146 2) x.gainBytes
            if x.actSa == 0 then x else x.i3cRead actAddr (x.pp 0x14E 1) x.actBytes)
          if x.actSa != 0 && a.isNone then s.attachFault h 3
          else
            let s := s.modHead h (fun x =>
              let g32 := div32 (int32 g) (int32 x.gainUnit)
              { x with x := e, g := g32, gain := to16 g32, hostGain := none, actPos := (a.getD 0 : Nat), tempFails := 0, sinceCommit := 0
                       sinceAuth := 0, commitDue := false, exhausted := false, budget := false, authFailed := false, lifeInForce := false
                       openTrust := s.modes.openTrust, limit := s.modes.limit })
            let s := [0, 1, 2, 3].foldl (fun s v => s.modStrm (4 * h + v) (fun y => { y with fnSeen := false, fseq := 0, fnLast := 0, tMeas := 250000, frame := none, latched := none, hdrSince := false, stampLast := none })) s
            let s := (s.recover h).checkBudget h
            let worn := s.worn h
            (s.modHead h (fun x => { x with state := .auth, lifeInForce := worn })).startAuth h false none
        | _, _, _ => s.attachFault h 3

def execAttachSettled (h : HeadId) (r : AttachRead) (s : State) : Host.Outcome State Fault Refusal := .next (attachSettled h r s)

/-- The signature is ready and read, in four transfers (R22, R40; log 40); none is an I3C failure. -/
def authPoll (h : Nat) (sig : Option Bytes) (s : State) : State :=
  let x := s.head h
  match x.auth with
  | none => s
  | some a =>
    if !s.linkUp h then s
    else
      let s := s.modHead h (fun y => (y.i3cRead seAddr 0x01 1).i3cRead seAddr 0x40 64)
      match sig with
      | none => s.authEnd h false 2
      | some b =>
        s.authEnd h (ecdsaOk (x.pp 0x150 32) (x.pp 0x170 32) (fieldLe b 0 32) (fieldLe b 32 32) (authMessage a.challenge x.id)) 0

def execAuthPoll (h : HeadId) (signature : Option Bytes) (s : State) : Host.Outcome State Fault Refusal := .next (authPoll h signature s)

/-- 200 ms without a signature (R40). -/
def execAuthTimeout (h : HeadId) (s : State) : Host.Outcome State Fault Refusal :=
  .next (if s.linkUp h then s.authEnd h false 1 else s)

/-- Sixty minutes of streaming have passed since the last authentication (R42). -/
def execReauthentication (h : HeadId) (s : State) : Host.Outcome State Fault Refusal :=
  .next (if s.linkUp h && (s.head h).usable && s.headStreaming h && (s.head h).auth.isNone && 3600 ≤ (s.head h).sinceAuth
    then s.startAuth h true none else s)

-- Decision writes (R20, R21, R55, R56, R444).

/-- Whether the last line of a stream's frame is in (R20): the frame is no longer open, or its last line is placed. -/
def State.lastLineIn (s : State) (st : Nat) (fseq : B16) : Bool :=
  match (s.strm st).frame with
  | some f => f.fseq != fseq || f.last == some ((((s.head (st / 4)).chan (st % 4)).getD {}).height.toNat - 1)
  | none => true

/-- The frame that an AF-6 step waits for under trigger line L: the one open now unless it is the step's own or is past L, else the
next to begin (log 40). -/
def State.nextOpen (s : State) (st : Nat) (fseq : B16) (line : Nat) : Option B16 :=
  match (s.strm st).frame with
  | some f => if f.fseq != fseq && decide (f.count ≤ line) && !f.cur.any (fun c => decide (line ≤ f.place c.1)) then some f.fseq else none
  | none => none

/-- AF-6's step and confidence for a frame reach the actuator port once the frame's last line is in (R20, R55): they are recorded, and
written unless the frame is DROPPED, its source is not the head, the confidence is low or there is no actuator. With a trigger line
the write waits for that line of the next frame, in place of one that still waits. -/
def focusWrite (st : Nat) (fseq : B16) (focus conf : Nat) (s : State) : State :=
  let h := st / 4
  let x := s.head h
  match (s.strm st).info fseq with
  | none => s
  | some i =>
    if i.has .dropped || i.written || !s.lastLineIn st fseq then s
    else
      let s := s.modFrame st fseq (fun i => { i with focus := BitVec.ofNat 16 focus, afConf := conf, focused := true })
      if (s.strm st).source != 0 || !s.linkUp h || !x.usable || x.actSa == 0 || isNan16 conf || lt16 conf x.actConfMin then s
      else
        let step := sext 16 focus
        if x.actTrigger == 0 then s.issueFocus st fseq step
        else if (s.strm st).started then
          s.modHead h (fun y => { y with focusHeld := some { stream := st, fseq := fseq, step := step, next := s.nextOpen st fseq x.actTrigger } })
        else s

def execFocusWrite (st : StreamId) (fseq : B16) (focus : B16) (conf : B16) (s : State) : Host.Outcome State Fault Refusal :=
  .next (focusWrite st fseq focus.toNat conf.toNat s)

/-- The exposure limit of the head's image channel (R28, R56; log 25). -/
def Head.expoMax (h : Head) : Nat :=
  match h.params with
  | none => 0
  | some p =>
    let l := (List.range 4).filterMap (fun v => if p.vcMask.getLsbD v then some (p.vc.getD v {}) else none)
    match l.find? (fun d => d.role == 0) with
    | some d => d.expoMax.toNat
    | none => match l with | d :: _ => d.expoMax.toNat | [] => 0

/-- The new exposure for a correction EV in binary16 (R56): the line count and the gain code, each clamped to its register. -/
def Head.exposure (h : Head) (ev : Nat) (limited : Bool) : Nat × Nat :=
  let e32 := clamp32 (to32 ev) 0xC0800000 0x40800000
  let target := mul32 (mul32 (int32 h.x) h.g) (pow2of32 (f32.dec e32))
  let lo := to32 h.gainLo
  let top := to32 (if limited then h.ceiling else h.gainMax)
  let lines := clampI 1 h.expoMax (round32 (div32 target lo))
  let gain := clamp32 (div32 target (int32 lines)) lo top
  let code := round32 (mul32 gain (int32 h.gainUnit))
  (min lines.toNat (2 ^ (8 * h.expoBytes) - 1), min code.toNat (2 ^ (8 * h.gainBytes) - 1))

/-- Write a line count and a gain code to the sensor (R34, R56); x and g are the values as written. -/
def State.writeExposure (s : State) (h lines code : Nat) : State :=
  s.modHead h (fun y =>
    let y := (y.i3cDecision { target := sensorAddr, reg := y.pp 0x144 2, data := beBytes y.expoBytes lines, decision := true }).i3cDecision
      { target := sensorAddr, reg := y.pp 0x146 2, data := beBytes y.gainBytes code, decision := true }
    { y with x := lines, g := div32 (int32 code) (int32 y.gainUnit) })

/-- Whether LIMIT clamps this head's gain: from the frame start after the crossing on (R51, R443; log 34). -/
def State.limiting (s : State) (h : Nat) : Bool := (s.head h).limit && (s.head h).lifeInForce

/-- The ceiling is written at a decision point while the gain last written is above it (R51; log 34). -/
def Head.toCeiling (y : Head) : Head :=
  let code := min (round32 (mul32 (to32 y.ceiling) (int32 y.gainUnit))).toNat (2 ^ (8 * y.gainBytes) - 1)
  let g := div32 (int32 code) (int32 y.gainUnit)
  if lt32 g y.g then
    { y.i3cDecision { target := sensorAddr, reg := y.pp 0x146 2, data := beBytes y.gainBytes code, decision := true } with g := g }
  else y

/-- Whether a focus write of a frame sequence is still to come at a head (R20, R56): it waits for its trigger line, or AF-6's step of a
running phase channel's frame is not formed while that frame is in the region (log 40). -/
def State.focusOwed (s : State) (h : Nat) (fseq : B16) : Bool :=
  let x := s.head h
  let fresh := fun (st : Nat) (q : B16) => ((s.strm st).info q).any (fun i => !i.has .dropped)
  x.focusHeld.any (fun f => f.fseq == fseq && fresh f.stream f.fseq)
    || (x.actSa != 0 && [0, 1, 2, 3].any (fun v =>
      let y := s.strm (4 * h + v)
      y.started && y.source == 0 && (x.chan v).any (fun d => d.role == 1)
        && (y.info fseq).any (fun i => !i.has .dropped && !i.focused && !i.out)))

/-- The posted AE-T result of a frame becomes an exposure and a gain write, once the frame's last line is in and its focus write has
issued (R20, R56). -/
def exposureWrite (h : Nat) (s : State) : State :=
  let x := s.head h
  match x.evPosted with
  | none => s
  | some (st, fseq, ev) =>
    if !s.lastLineIn st fseq || s.focusOwed h fseq then s
    else
    let s := s.modHead h (fun y => { y with evPosted := none })
    match (s.strm st).info fseq with
    | none => s
    | some i =>
      if i.has .dropped || isNan16 ev then s
      else
        let c := if lt16 ev 0xC400 then 0xC400 else if lt16 0x4400 ev then 0x4400 else ev
        let s := s.modFrame st fseq (fun i => { i with ev := c })
        if (s.strm st).source != 0 || !s.linkUp h || !x.usable then s
        else
          let lim := s.limiting h
          let s := s.modHead h (fun y => if lim then y.toCeiling else y)
          let r := (s.head h).exposure c lim
          ((s.writeExposure h r.1 r.2).modHead h (fun y => { y with evLast := c })).modFrame st fseq (fun i => { i with dec := orBit i.dec 1 })

def execExposureWrite (h : HeadId) (s : State) : Host.Outcome State Fault Refusal := .next (exposureWrite h s)

/-- The transfer in flight on a head's bus ends (R22). -/
def execI3cTransferComplete (h : HeadId) (s : State) : Host.Outcome State Fault Refusal :=
  .next (if (s.head h).sclHeld then s else (s.modHead h (fun x => { x with i3c := x.i3c.drop 1 })).sclSettle h)

end Sys2Proof.Machine
end

