-- ==== Sys2Proof/Machine/CmdHead.lean ====
section
/-! DEFINITION. The firmware opcodes of the heads (Table 13-6): attach, detach, authentication, frame sync, gain, exposure, actuator
and lens. -/

namespace Sys2Proof.Machine

/-- An image or phase data type (Table 02-2): RAW10 to RAW16, or a user-defined one declared as phase data. -/
def pixelType (dt role : Nat) : Bool :=
  (decide (0x2B ≤ dt) && decide (dt ≤ 0x2E)) || (decide (0x30 ≤ dt) && decide (dt ≤ 0x37) && role == 1)

/-- A channel that a Head Link supports (Table 02-2); an image channel has a longest exposure (R56). -/
def vcOk (d : VcDecl) : Bool :=
  let e := d.embDt.toNat
  decide (d.role.toNat ≤ 1) && pixelType d.dt.toNat d.role.toNat
    && (e == 0 || ((e == 0x12 || (decide (0x30 ≤ e) && decide (e ≤ 0x37))) && e != d.dt.toNat))
    && decide (16 ≤ d.width.toNat) && decide (d.width.toNat ≤ 4096) && decide (1 ≤ d.height.toNat) && decide (d.height.toNat ≤ 8191)
    && (d.role != 0 || d.expoMax != 0)

/-- The parameter set of an attach within its ranges (R28, R36). -/
def attachOk (p : AttachParams) : Bool :=
  decide (p.settleMs.toNat ≤ 100) && decide (p.auto.toNat ≤ 1) && decide (p.vcMask.toNat ≤ 15)
    && (p.lanes == 1 || p.lanes == 2 || p.lanes == 4) && decide (p.polarity.toNat ≤ 0x1F)
    && (List.range 4).all (fun v => !p.vcMask.getLsbD v || vcOk (p.vc.getD v {}))

/-- Whether an attach is in course at a head. -/
def Head.attaching (h : Head) : Bool := h.state == .powering || h.state == .ident || h.state == .auth

/-- HEAD_ATTACH (R36, R37): the parameters are kept; a head that is plugged in starts its attach, whose end replies. With no head
there is none to wait for. -/
def headAttach (k : Pkt) (h : Nat) (p : AttachParams) (s : State) : State :=
  s.command k 0x1100
    ((s.headChecks k h).take 1 ++ [(!attachOk p || destBad k p.report, .badParam)] ++ (s.headChecks k h).drop 1
      ++ [((s.head h).attaching || (s.head h).detach.isSome, .busy), (s.headStreaming h, .badState)])
    (fun s =>
      let s := s.modHead h (fun x => { x with params := some p, autoAttach := p.auto == 1, paramsFn := fnId (who k), paramsCspi := k.cspi })
      if !(s.head h).present then s.finish k false .ok [0, 0, 0]
      else
        let s := (s.dropCommit h).dropHeadCmds h .headFault .ok
        (s.modHead h (fun x => { x with i3c := [], sclHeld := false, focusHeld := none, evPosted := none })).startAttach h (some k))

def execHeadAttach (k : Pkt) (head : B8) (params : AttachParams) (s : State) : Host.Outcome State Fault Refusal :=
  .next (headAttach k head.toNat params s)

/-- HEAD_DETACH: the streams stop, the ledger is committed, and then the power goes off (R37, R45, R313). -/
def headDetach (k : Pkt) (h : Nat) (s : State) : State :=
  s.command k 0x1101 (s.headChecks k h ++ [((s.head h).attaching || (s.head h).detach.isSome, .busy)])
    (fun s =>
      let s := s.modHead h (fun x => { x with autoAttach := false, detach := some k, commitDue := x.commitDue || x.commit.isNone })
      (s.stopHead h).detachStep h)

def execHeadDetach (k : Pkt) (head : B8) (s : State) : Host.Outcome State Fault Refusal := .next (headDetach k head.toNat s)

/-- HEAD_AUTH (R42, R442): a head in use authenticates again, or one whose authentication failed. -/
def headAuth (k : Pkt) (h : Nat) (s : State) : State :=
  let x := s.head h
  s.command k 0x1102
    (s.headChecks k h ++ [(x.attaching || x.auth.isSome || x.detach.isSome, .busy),
      (!(x.usable || (x.state == .fault && x.cause == 2)), .badState)])
    (fun s => s.startAuth h true (some k))

def execHeadAuth (k : Pkt) (head : B8) (s : State) : Host.Outcome State Fault Refusal := .next (headAuth k head.toNat s)

/-- HEAD_FSYNC (R35): the new settings wait for a pulse time at least 1 us away. -/
def headFsync (k : Pkt) (h en w p t0 : Nat) (s : State) : State :=
  s.command k 0x1103
    ((s.headChecks k h).take 1
      ++ [(decide (1 < en) || w == 0 || decide (255 < w) || decide (p < 2000) || decide (1000000000 < p) || decide (p < 1000 * w + 1000), .badParam)]
      ++ (s.headChecks k h).drop 1)
    (fun s => (s.modHead h (fun x =>
        { x with fsyncNext := some ({ on := en == 1, t0 := t0, period := p, width := w }, s.dtb.now.toNat + 1000) })).finish k false .ok)

def execHeadFsync (k : Pkt) (head enable widthUs : B8) (periodNs : B32) (t0 : B64) (s : State) : Host.Outcome State Fault Refusal :=
  .next (headFsync k head.toNat enable.toNat widthUs.toNat periodNs.toNat t0.toNat s)

/-- HEAD_GAIN (R52): finite and positive. -/
def headGain (k : Pkt) (h g : Nat) (s : State) : State :=
  s.command k 0x1104
    ((s.headChecks k h).take 1 ++ [(g == 0 || decide (0x7C00 ≤ g), .badParam)] ++ (s.usableChecks k h).drop 1)
    (fun s => (s.modHead h (fun x => { x with hostGain := some g })).finish k false .ok)

def execHeadGain (k : Pkt) (head : B8) (gain : B16) (s : State) : Host.Outcome State Fault Refusal := .next (headGain k head.toNat gain.toNat s)

/-- What HEAD_EXPOSURE writes: the line count, the gain code, and whether either was clamped (R51, R56). -/
def Head.hostExposure (h : Head) (gain lines : Nat) (limited : Bool) : Nat × Nat × Bool :=
  let g := to32 gain
  let c := clamp32 g (to32 h.gainLo) (to32 (if limited then h.ceiling else h.gainMax))
  let l := min (max 1 (min lines h.expoMax)) (2 ^ (8 * h.expoBytes) - 1)
  let code := (round32 (mul32 c (int32 h.gainUnit))).toNat
  let top := 2 ^ (8 * h.gainBytes) - 1
  (l, min code top, l != lines || c != g || decide (top < code))

/-- HEAD_EXPOSURE (R51, R56): lines and gain as the K4 writes them, in the order of R56; x and g follow. -/
def headExposure (k : Pkt) (h gain lines : Nat) (s : State) : State :=
  let r := (s.head h).hostExposure gain lines (s.limiting h)
  s.command k 0x1105
    ((s.headChecks k h).take 1 ++ [(isNan16 gain, .badParam)] ++ (s.usableChecks k h).drop 1)
    (fun s => (s.modHead h (fun x =>
        let x := (x.i3cPut { target := sensorAddr, reg := x.pp 0x144 2, data := beBytes x.expoBytes r.1 }).i3cPut
          { target := sensorAddr, reg := x.pp 0x146 2, data := beBytes x.gainBytes r.2.1 }
        { x with x := r.1, g := div32 (int32 r.2.1) (int32 x.gainUnit) })).finish k false (if r.2.2 then .clamped else .ok) [r.1, r.2.1])

def execHeadExposure (k : Pkt) (head : B8) (gain : B16) (lines : B32) (s : State) : Host.Outcome State Fault Refusal :=
  .next (headExposure k head.toNat gain.toNat lines.toNat s)

/-- HEAD_ACTUATOR (R55). -/
def headActuator (k : Pkt) (h mode line conf : Nat) (lo hi : Int) (s : State) : State :=
  s.command k 0x1106
    ((s.headChecks k h).take 1 ++ [(decide (1 < mode) || decide (8191 < line) || isNan16 conf || decide (hi < lo), .badParam)]
      ++ (s.usableChecks k h).drop 1)
    (fun s => (s.modHead h (fun x =>
        { x with actAbs := mode == 1, actTrigger := line, actConfMin := conf, actMin := lo, actMax := hi })).finish k false .ok)

def execHeadActuator (k : Pkt) (head mode : B8) (triggerLine confMin : B16) (actMin actMax : B32) (s : State) :
    Host.Outcome State Fault Refusal :=
  .next (headActuator k head.toNat mode.toNat triggerLine.toNat confMin.toNat actMin.toInt actMax.toInt s)

/-- HEAD_LENS (R240). -/
def headLens (k : Pkt) (h : Nat) (lens : B16) (s : State) : State :=
  s.command k 0x1107 (s.headChecks k h) (fun s => (s.modHead h (fun x => { x with lens := lens })).finish k false .ok)

def execHeadLens (k : Pkt) (head : B8) (lens : B16) (s : State) : Host.Outcome State Fault Refusal := .next (headLens k head.toNat lens s)

end Sys2Proof.Machine
end

