-- ==== Sys2Proof/Machine/Images.lean ====
section
/-! DEFINITION. Chrysalis images and model blobs as their loaders check them (R292, R295, Table 12-5, R247): the header and the
section table by byte, the rest by what the bodies declare (log 9). -/

namespace Sys2Proof.Machine

-- The header and the section table (Table 12-1, Table 12-2).

/-- One section entry within its ranges: a body inside the image at a multiple of 32 bytes, past the table. The body of an SRAM section
without INIT is empty: its LENGTH reserves words (Table 12-3). -/
def sectionOk (bytes first : Nat) (e : Bytes) : Bool :=
  let typ := fieldLe e 0 1
  let rep := fieldLe e 1 1
  let off := fieldLe e 4 4
  let len := if typ = 6 && !bit (fieldLe e 14 1) 2 then 0 else fieldLe e 8 4
  decide (1 ≤ typ) && decide (typ ≤ 0x0E) && (rep == 255 || decide (rep ≤ 7)) && off % 32 == 0 && decide (first ≤ off)
    && decide (off + len ≤ bytes) && decide (fieldLe e 14 1 ≤ (if typ = 6 then 7 else 0)) && fieldLe e 15 1 == 0

/-- The 16-byte entries of a section table. -/
def sectionEntries : Nat → Bytes → List Bytes
  | 0, _ => []
  | n + 1, b => b.take 16 :: sectionEntries n (b.drop 16)

/-- Header and section table (R292). -/
def imageFormOk (b : Bytes) (length : Nat) (d : ImageDecl) : Bool :=
  let n := fieldLe b 12 2
  let bytes := fieldLe b 8 4
  let rmin := fieldLe b 24 1
  let rmax := fieldLe b 25 1
  b.take 4 == [0x43, 0x48, 0x52, 0x59] && fieldLe b 4 2 == 1 && decide (fieldLe b 6 1 ≤ 1) && decide (fieldLe b 7 1 ≤ 1)
    && bytes == length && decide (bytes ≤ 16777216) && decide (1 ≤ n) && decide (n ≤ 4096) && decide (64 + 16 * n ≤ bytes)
    && decide (1 ≤ fieldLe b 14 1) && decide (fieldLe b 14 1 ≤ 16) && fieldLe b 14 1 == d.streams.length && decide (fieldLe b 15 1 ≤ 15)
    && (List.range 4).all (fun f => decide (fieldLe b (16 + f) 1 ≤ 12) && decide (fieldLe b (20 + f) 1 ≤ 16))
    && decide (1 ≤ rmin) && decide (rmin ≤ rmax) && decide (rmax ≤ 8) && fieldLe b 26 2 == 0 && decide (fieldLe b 28 4 ≤ 1)
    && (sectionEntries n (b.drop 64)).all (sectionOk bytes (64 + 16 * n))

/-- An entry of the section table (Table 12-2). -/
structure Sec where
  ix : Nat
  typ : Nat
  rep : Nat
  target : Nat
  off : Nat
  len : Nat
  addr : Nat
  sflags : Nat
  deriving DecidableEq, Repr

/-- The sections of an image in the order of its table. -/
def sectionsOf (b : Bytes) : List Sec :=
  ((sectionEntries (fieldLe b 12 2) (b.drop 64)).zipIdx).map (fun p : Bytes × Nat =>
    { ix := p.2, typ := fieldLe p.1 0 1, rep := fieldLe p.1 1 1, target := fieldLe p.1 2 2, off := fieldLe p.1 4 4, len := fieldLe p.1 8 4
      addr := fieldLe p.1 12 2, sflags := fieldLe p.1 14 1 })

def Sec.body (b : Bytes) (x : Sec) : Bytes := (b.drop x.off).take x.len

/-- The little-endian words of a body, `n` bytes each (R10). -/
def bodyWords (n : Nat) (b : Bytes) : List (BitVec (8 * n)) := (List.range (b.length / n)).map (fun i => BitVec.ofNat (8 * n) (fieldLe b (n * i) n))

/-- What a section whose body the spec gives by byte writes to its site; END and RESTART of a program, and the base bank of a region,
as declared (log 9). -/
def Sec.site (b : Bytes) (d : ImageDecl) (x : Sec) : Option SiteDecl :=
  let base : SiteDecl := { vsite := x.target, replica := x.rep, addr := x.addr }
  let told := d.sites.filter (fun s : SiteDecl => s.vsite == x.target && s.replica == x.rep)
  match x.typ with
  | 1 =>
    let e := (told.find? (fun s => s.hasProgram)).getD {}
    some { base with program := bodyWords 8 (x.body b), hasProgram := true, endW := e.endW, restart := e.restart }
  | 2 => some { base with keys := bodyWords 8 (x.body b) }
  | 5 => some { base with weights := bodyWords 32 (x.body b) }
  | 6 =>
    let r := ((told.flatMap (fun s => s.regions)).find? (fun r => r.first == x.addr)).getD { bank := x.addr % 8 }
    let init := bit x.sflags 2
    some { base with regions := [{ bank := r.bank, first := x.addr, words := (x.len + 31) / 32, kind := bits x.sflags 0 2, init := init
                                   data := if init then bodyWords 32 (x.body b) else [] }] }
  | 7 => some { base with tnode := x.body b }
  | _ => none

/-- The route records of a ROUTES body (Table 12-6). -/
def routeRecords : Nat → Bytes → List RouteDecl
  | 0, _ => []
  | n + 1, b =>
    if b.length < 8 then []
    else
      let src := fieldLe b 0 2
      let dst := fieldLe b 4 2
      let hops := fieldLe b 3 1
      let path := if isEnd src || isEnd dst then [] else (List.range hops).map (fun i => bits (byteAt b (8 + i / 4)) (2 * (i % 4)) 2)
      { src := src, lane := bits (fieldLe b 2 1) 6 2, slot := bits (fieldLe b 2 1) 0 6, hops := hops, dst := dst
        queue := bits (fieldLe b 6 1) 0 2, path := path } :: routeRecords n (b.drop (8 + (path.length + 3) / 4))

/-- The content of an image: what the spec gives by byte is read from its sections, the rest is as declared (log 9). -/
def withBytes (d : ImageDecl) (b : Bytes) : ImageDecl :=
  let secs := sectionsOf b
  { d with
    sites := d.sites.map (fun s : SiteDecl => { s with program := [], hasProgram := false, keys := [], weights := [], regions := [], tnode := [] })
      ++ secs.filterMap (fun x => x.site b d)
    routes := (secs.filter (fun x => x.typ == 9)).flatMap (fun x => routeRecords (x.len / 8) (x.body b)) }

/-- The image that a verified header and its bodies make. -/
def imageOf (b : Bytes) (d : ImageDecl) : Image :=
  { grade := fieldLe b 6 1, variant := fieldLe b 7 1 == 1, bytes := fieldLe b 8 4, streams := fieldLe b 14 1, fields := fieldLe b 15 1
    vrows := (List.range 4).map (fun f => fieldLe b (16 + f) 1), vcols := (List.range 4).map (fun f => fieldLe b (20 + f) 1)
    repMin := fieldLe b 24 1, repMax := fieldLe b 25 1, multi := bit (fieldLe b 28 4) 0, decl := withBytes d b }

-- The static checks (Table 12-5).

def expOk (e : Int) : Bool := decide (-32 ≤ e) && decide (e ≤ 31)
def shiftOk (e : Int) : Bool := decide (-8 ≤ e) && decide (e ≤ 7)
def finite32 (v : Nat) : Bool := v / 2 ^ 23 % 256 != 255

/-- A zero point within the range of its code kind: 0 S8, 1 U8, 2 S4 (R178). -/
def zeroOk (kind : Nat) (z : Int) : Bool :=
  if kind = 1 then decide (0 ≤ z) && decide (z ≤ 255) else if kind = 2 then decide (-8 ≤ z) && decide (z ≤ 7) else decide (-128 ≤ z) && decide (z ≤ 127)

def codeKind (u8 : Bool) : Nat := if u8 then 1 else 0

/-- The constants of an engine's layer (R178). -/
def layerRangeOk (l : LayerDecl) : Bool :=
  expOk l.eo && expOk l.eIn && zeroOk (codeKind l.u8) l.zo && zeroOk (codeKind l.u8In) l.zIn && l.bias.all finite32

/-- The constants that the sections of a site write, by section type (R178). -/
def rangeFaults (s : SiteDecl) : List Nat :=
  (if s.params.all (fun p => expOk p.ew && finite32 p.cs && finite32 p.bias) then [] else [4])
    ++ (match s.vtab with
        | none => []
        | some t => if t.eIn.all expOk && t.dwcBias.all finite32 && (t.zIn.zipIdx).all (fun p : Int × Nat => zeroOk (codeKind (t.u8In.getD p.2 false)) p.1)
            then [] else [8])

/-- Whether a V-unit input of exponent `e` is within span of a working exponent that its operations declare (R190). -/
def spanOk (t : VTable) (e : Int) : Bool := (t.eV :: t.eVat.map (fun p : Nat × Int => p.2)).any (fun v => shiftOk (e - v))

/-- The REQ exponents of a program at a field (Table 10-3). -/
def reqExps (s : SiteDecl) (lo : Nat) : List Int := (s.program.filter (fun w => fOp w.toNat == 8)).map (fun w => sext 6 (bits w.toNat lo 6))

/-- A trim group (R201): a range in [-8, 7] around 0, and everything it moves in range at both its ends: the exponents and shifts
declared, the output exponents of the producers' programs and engine, and the input exponents of its consumers. -/
def trimOk (d : ImageDecl) (g : Nat) (t : TrimDecl) : Bool :=
  let made := (d.sites.filter (fun s : SiteDecl => !t.producerEdge && t.producers.contains s.vsite)).flatMap (fun s => reqExps s 30)
    ++ d.streams.filterMap (fun x : StreamDecl => if x.edgeTrim == some g then x.edge.map (fun l : LayerDecl => l.eo) else none)
  let taken := (d.sites.filter (fun s : SiteDecl => t.consumers.contains (s.vsite, 0))).flatMap (fun s => reqExps s 36)
  let ends := t.consumers.flatMap (fun c : Nat × Nat =>
    (d.sites.filter (fun s : SiteDecl => s.vsite == c.1)).filterMap (fun s => s.vtab.bind (fun v => (v.eIn[c.2]?).map (fun e => (v, e)))))
  let tails := d.streams.filterMap (fun x : StreamDecl => if t.consumers.contains (0x410 + x.tail, 0) then x.tailLayer else none)
  decide (-8 ≤ t.lo) && decide (t.lo ≤ 0) && decide (0 ≤ t.hi) && decide (t.hi ≤ 7)
    && [t.lo, t.hi].all (fun x => (t.exps ++ made ++ taken).all (fun e => expOk (e + x)) && t.shifts.all (fun e => shiftOk (e + x))
      && ends.all (fun p : VTable × Int => expOk (p.2 + x) && spanOk p.1 (p.2 + x)) && tails.all (fun l : LayerDecl => expOk (l.eIn + x) && shiftOk (l.eIn + x - l.eT)))

/-- The size of a window layer's output along one axis (R209). -/
def outSize (n lo hi k s d : Nat) : Int := ((n : Int) + lo + hi - (k - 1) * d - 1) / s + 1

/-- A window layer's parameters and sizes (R209): a native window has up to 5 taps on an axis, a filter that is cut into passes up to
15, and is declared whole (R220). -/
def windowOk (w : WindowDecl) : Bool :=
  let most := if w.decomposed then 15 else 5
  decide (1 ≤ w.kh) && decide (w.kh ≤ most) && decide (1 ≤ w.kw) && decide (w.kw ≤ most) && (w.s == 1 || w.s == 2) && (w.d == 1 || w.d == 2 || w.d == 4)
    && decide (max w.pt w.pb ≤ (w.kh - 1) * w.d) && decide (max w.pl w.pr ≤ (w.kw - 1) * w.d)
    && outSize w.h w.pt w.pb w.kh w.s w.d == w.outH && outSize w.w w.pl w.pr w.kw w.s w.d == w.outW

/-- MIRROR padding (R215). -/
def mirrorOk (w : WindowDecl) : Bool :=
  w.mirror.all (fun i => match i with
    | 0 => decide (w.pt + 1 ≤ w.h) | 1 => decide (w.pb + 1 ≤ w.h) | 2 => decide (w.pl + 1 ≤ w.w) | _ => decide (w.pr + 1 ≤ w.w))

/-- One node word of a tree that is not padding (R233). -/
def nodeOk (feats w : Nat) : Bool :=
  bits w 0 5 == 0 && decide (bits w 8 8 < feats) && (if bit w 7 then bits w 21 11 == 0 else !isNan16 (bits w 16 16))

/-- A group of 8 trees (R232, R233), read by bytes: `rd` gives the 32-bit word at a byte. -/
def groupOk (feats outs : Nat) (rd : Nat → Nat) : Bool :=
  (List.range 8).all (fun t =>
    let hdr := rd (256 * t)
    bit hdr 27 || (bits hdr 0 27 == 0 && decide (bits hdr 28 4 < outs)
      && (List.range 63).all (fun n => nodeOk feats (rd (256 * t + 4 + 4 * n)))
      && (List.range 32).all (fun l => let v := rd (2048 + 128 * t + 4 * l); !isNan16 (bits v 0 16) && !isNan16 (bits v 16 16))))

/-- The trees of a group that are not padding. -/
def groupTrees (rd : Nat → Nat) : Nat := ((List.range 8).filter (fun t => !bit (rd (256 * t)) 27)).length

/-- A feature map entry whose KIND, quantity and FRAME item Table 09-4 lists. -/
def featureOk (e : Nat) : Bool :=
  let q := bits e 29 3
  decide (q ≤ 4) && (q != 1 || decide (bits e 16 3 ≤ 4)) && (q != 3 || decide (bits e 0 8 ≤ 6))

/-- The groups of a model: T-unit in the chain, group. -/
def modelGroups (d : ModelDecl) : List (Nat × Nat) :=
  (List.range d.chain.length).flatMap (fun i => (List.range (d.groups.getD i 0)).map (fun g => (i, g)))

/-- A model within its limits (R230): `rd i g` reads group `g` of the `i`-th T-unit. -/
def modelLimits (d : ModelDecl) (rd : Nat → Nat → Nat → Nat) : Bool :=
  let n := d.chain.length
  let gs := modelGroups d
  let trees := (gs.map (fun p : Nat × Nat => groupTrees (rd p.1 p.2))).sum
  decide (1 ≤ trees) && decide (trees ≤ 8192) && decide (1 ≤ d.features.length) && decide (d.features.length ≤ 256)
    && decide (1 ≤ d.outputs) && decide (d.outputs ≤ 16) && decide (d.link ≤ 3) && (d.link != 3 || decide (2 ≤ d.outputs))
    && decide (1 ≤ n) && decide (n ≤ 8) && d.features.all featureOk
    && (List.range n).all (fun i => decide (1 ≤ d.groups.getD i 0) && decide (d.groups.getD i 0 ≤ 128)
          && decide (d.resident.getD i 0 ≤ min 21 (d.groups.getD i 0)) && decide (d.extended.getD i 0 ≤ 32))

/-- A model within its limits, with node words and leaves that load (R230, R233). -/
def modelOk (d : ModelDecl) (rd : Nat → Nat → Nat → Nat) : Bool :=
  modelLimits d rd && d.base.all finite32 && (modelGroups d).all (fun p : Nat × Nat => groupOk d.features.length d.outputs (rd p.1 p.2))

/-- The 32-bit word of a site's node memory at a byte, as an image's sections write it. -/
def partNode (ps : List SiteDecl) (b : Nat) : Nat :=
  match ps.reverse.find? (fun s : SiteDecl => decide (32 * s.addr ≤ b) && decide (b < 32 * s.addr + s.tnode.length)) with
  | some s => fieldLe s.tnode (b - 32 * s.addr) 4
  | none => 0

/-- The 32-bit word of a site's SRAM regions at a word and byte, as an image's sections write them. -/
def partSram (ps : List SiteDecl) (w b : Nat) : Nat :=
  match (ps.reverse.flatMap (fun s : SiteDecl => s.regions)).find? (fun r => r.init && decide (r.first ≤ w) && decide (w < r.first + r.words)) with
  | some r => bits (r.data.getD (w - r.first) 0).toNat (8 * b) 32
  | none => 0

/-- Group `g` of a model's `i`-th T-unit as an image holds it (R236). -/
def imgGroup (m : Image) (d : ModelDecl) (i g : Nat) : Nat → Nat :=
  let r := d.resident.getD i 0
  if g < r then
    let ps := siteContent m m.repMax (d.chain.getD i 0)
    fun b => partNode ps (3072 * g + b)
  else
    let p := d.streamed.getD i (0, 0)
    let ps := siteContent m m.repMax p.1
    fun b => partSram ps (p.2 + 96 * (g - r) + b / 32) (b % 32)

/-- A model's chain: T-units of its context, each once (R230, R237). -/
def chainOk (m : Image) (d : ModelDecl) : Bool :=
  let used := usedSites m m.repMax
  allDistinct d.chain && d.chain.all (fun v => kindAt (vRow v) (vCol v) == .t && used.contains v)

/-- The types of the sections that overfill a memory of a site: the 16,384 words of an S-unit (R14, R229), and the program, key
descriptor, generator descriptor, parameter, weight, node and V-unit table memories. -/
def overfilled (ps : List SiteDecl) : List Nat :=
  let rs := ps.flatMap (fun s : SiteDecl => s.regions)
  let full := fun (typ : Nat) (p : SiteDecl → Bool) => if ps.any p then [typ] else []
  full 1 (fun s => decide (1024 < s.addr + s.program.length)) ++ full 2 (fun s => decide (16 < s.addr + s.keys.length))
    ++ full 3 (fun s => decide (8 < s.wins.length) || decide (8 < s.gills.length)) ++ full 4 (fun s => decide (256 < s.addr + s.params.length))
    ++ full 5 (fun s => decide (1024 < s.addr + s.weights.length))
    ++ (if rs.any (fun r => decide (16384 < r.first + r.words)) || decide (16384 < (rs.map (fun r => r.words)).sum) then [6] else [])
    ++ full 7 (fun s => decide (65536 < 32 * s.addr + s.tnode.length))
    ++ full 8 (fun s => s.vtab.any (fun t => decide (256 < t.base.length) || decide (256 < t.slope.length) || decide (64 < t.taps.length)))

/-- The smaller of two failures: the section first in the table, then the check first in Table 12-5. -/
def firstFault (a b : Nat × Nat) : Nat × Nat := if b.2 < a.2 || (b.2 == a.2 && b.1 < a.1) then b else a

/-- The failing checks, each its subcode and section (Table 12-5, Table 13-7). A fault of content that the spec does not place is that of
the first section of its type, of its target where there is one. -/
def staticFaults (secs : List Sec) (m : Image) : List (Nat × Nat) :=
  let d := m.decl
  let at_ := fun (typ : Nat) (targets : List Nat) =>
    match (secs.find? (fun x : Sec => x.typ == typ && targets.contains x.target)).or (secs.find? (fun x : Sec => x.typ == typ)) with
    | some x => x.ix
    | none => 0
  let one := fun (code : Nat) (bad : Bool) (typ : Nat) (targets : List Nat) => if bad then [(code, at_ typ targets)] else []
  let range := (d.exponents.filter (fun e => !expOk e.2)).map (fun e => (1, e.1)) ++ (d.zeros.filter (fun z => !zeroOk z.2.1 z.2.2)).map (fun z => (1, z.1))
    ++ (d.consts.filter (fun e => !finite32 e.2)).map (fun e => (1, e.1)) ++ d.sites.flatMap (fun s : SiteDecl => (rangeFaults s).map (fun t => (1, at_ t [s.vsite])))
    ++ (d.streams.zipIdx).flatMap (fun p : StreamDecl × Nat => one 1 (!(p.1.edge.all layerRangeOk && p.1.tailLayer.all layerRangeOk)) 10 [p.2])
    ++ one 1 (!d.models.all (fun x : ModelDecl => x.base.all finite32)) 13 []
  let span := (d.spans.filter (fun e => !shiftOk e.2.1 || !shiftOk e.2.2)).map (fun e => (2, e.1))
    ++ d.sites.flatMap (fun s : SiteDecl => one 2 (s.vtab.any (fun t => !t.eIn.all (spanOk t))) 8 [s.vsite])
    ++ (d.streams.zipIdx).flatMap (fun p : StreamDecl × Nat => one 2 (p.1.tailLayer.any (fun l => !shiftOk (l.eIn - l.eT))) 10 [p.2])
  let trim := one 3 (decide (8 < d.trims.length) || !(d.trims.zipIdx).all (fun p : TrimDecl × Nat => trimOk d p.2 p.1)) 12 []
  let win := fun (code : Nat) (p : WindowDecl → Bool) => (d.windows.filter (fun w => !p w)).map (fun w : WindowDecl => (code, w.sec))
  let cap := (usedSites m m.repMax).flatMap (fun v =>
    let ps := siteContent m m.repMax v
    (overfilled ps).map (fun t => (8, at_ t (ps.map (fun s : SiteDecl => s.vsite)))))
  let groups := d.models.flatMap (fun x : ModelDecl => (modelGroups x).flatMap (fun p : Nat × Nat =>
    let resident := decide (p.2 < x.resident.getD p.1 0)
    one 9 (!groupOk x.features.length x.outputs (imgGroup m x p.1 p.2)) (if resident then 7 else 6)
      [if resident then x.chain.getD p.1 0 else (x.streamed.getD p.1 (0, 0)).1]))
  let model := one 9 (decide (8 < d.entities.length) || !d.models.all (fun x => chainOk m x && modelLimits x (imgGroup m x))) 13 []
  range ++ span ++ trim ++ win 4 windowOk ++ win 5 mirrorOk ++ win 6 (fun w => !w.decomposed || w.zw.all (fun z => z == 0))
    ++ win 7 (fun w => match w.exchange with | some n => decide (n ≤ 40) | none => true) ++ cap ++ model ++ groups

/-- The failure that a staging names: that of the first failing section, and of its checks the first in Table 12-5 (DESIGN CHOICE, log 9:
the spec names "the first failing section" and gives no order between one section's checks). The limits of R115 to R117 on engine
layers have no check in Table 12-5: a layer beyond them loads and runs by the same rules (DESIGN CHOICE, log 9). -/
def staticFault (secs : List Sec) (m : Image) : Option (Nat × Nat) :=
  match staticFaults secs m with
  | [] => none
  | e :: t => some (t.foldl firstFault e)

/-- The checks of staging (R295): the image, or the status with its results. -/
def stageCheck (b : Bytes) (length : Nat) (d : ImageDecl) : Except (Status × List Nat) Image :=
  if !imageFormOk b length d then .error (.badImage, [])
  else if sha256 (b.drop 64) != (b.drop 32).take 32 then .error (.digestMismatch, [])
  else match staticFault (sectionsOf b) (imageOf b d) with
    | some (c, i) => .error (.checkFail, [c, i])
    | none => .ok (imageOf b d)

-- Model blobs (R247, Table 09-6).

/-- Rounded up to a multiple of 32. -/
def up32 (n : Nat) : Nat := (n + 31) / 32 * 32

/-- A blob's T-units by offset of their extended nodes, with the counts of extended nodes and groups. -/
def blobUnits (b : Bytes) : Nat → Nat → Nat → List (Nat × Nat × Nat)
  | 0, _, _ => []
  | n + 1, i, at' =>
    let x := fieldLe b (32 + i) 1
    let g := fieldLe b (16 + i) 1
    (at', x, g) :: blobUnits b n (i + 1) (at' + 32 * x + 3072 * g)

/-- Where the T-units of a blob begin. -/
def blobBody (b : Bytes) : Nat := 64 + up32 (4 * fieldLe b 8 2) + up32 (4 * fieldLe b 7 1)

/-- A well-formed blob: its header, the zeros it must hold, and the parts ending at LENGTH. -/
def blobFormOk (b : Bytes) (length : Nat) : Bool :=
  let f := fieldLe b 8 2
  let o := fieldLe b 7 1
  let t := fieldLe b 10 1
  let zero := fun lo hi => (List.range (hi - lo)).all (fun i => byteAt b (lo + i) == 0)
  let us := blobUnits b t 0 (blobBody b)
  let stop := match us.getLast? with | some u => u.1 + 32 * u.2.1 + 3072 * u.2.2 | none => 0
  b.length == length && b.take 4 == [0x4B, 0x4D, 0x4F, 0x31] && fieldLe b 4 2 == 1 && fieldLe b 12 4 == length
    && decide (1 ≤ t) && decide (t ≤ 8) && stop == length && zero 11 12 && zero 40 64 && zero (16 + t) 24 && zero (24 + t) 32 && zero (32 + t) 40
    && zero (64 + 4 * f) (64 + up32 (4 * f)) && zero (64 + up32 (4 * f) + 4 * o) (blobBody b)

/-- The model that a blob declares in the place of `d`. -/
def blobModel (b : Bytes) (d : ModelDecl) : ModelDecl :=
  let f := fieldLe b 8 2
  { d with
    features := (List.range f).map (fun i => fieldLe b (64 + 4 * i) 4)
    base := (List.range (fieldLe b 7 1)).map (fun i => fieldLe b (64 + up32 (4 * f) + 4 * i) 4)
    extended := (List.range (fieldLe b 10 1)).map (fun i => fieldLe b (32 + i) 1) }

/-- Whether a blob has the shape of the declared model (R246). -/
def blobShapeOk (b : Bytes) (d : ModelDecl) : Bool :=
  let t := fieldLe b 10 1
  t == d.chain.length && fieldLe b 6 1 == d.link && fieldLe b 7 1 == d.outputs
    && (List.range t).all (fun i => fieldLe b (16 + i) 1 == d.groups.getD i 0 && fieldLe b (24 + i) 1 == d.resident.getD i 0)

/-- The checks of a model load (R247): the new model, or the status with its results. -/
def blobCheck (b : Bytes) (length : Nat) (d : ModelDecl) : Except (Status × List Nat) ModelDecl :=
  if !blobFormOk b length then .error (.badImage, [])
  else if !blobShapeOk b d then .error (.badParam, [])
  else
    let us := blobUnits b (fieldLe b 10 1) 0 (blobBody b)
    let rd := fun i g x => let u := us.getD i (0, 0, 0); fieldLe b (u.1 + 32 * u.2.1 + 3072 * g + x) 4
    let m := blobModel b d
    if modelOk m rd then .ok m else .error (.checkFail, [9, 0])

/-- A blob's trees reach the T-units' node memories and the S-units of the streamed groups (R236, R247). -/
def State.writeModel (s : State) (p : Placement) (d : ModelDecl) (b : Bytes) : State :=
  ((blobUnits b (fieldLe b 10 1) 0 (blobBody b)).zipIdx).foldl (fun s e =>
    let u := e.1
    let r := d.resident.getD e.2 0
    let groups := u.1 + 32 * u.2.1
    let put := fun (n : Unit) (at' from' words : Nat) => (List.range words).foldl (fun n i =>
      { n with mem := Tab.set n.mem (memAt 6 (at' + i)) (BitVec.ofNat 64 (fieldLe b (from' + 8 * i) 8)) }) n
    let s := match (d.chain[e.2]?).bind p.site with
      | some site => s.modUnit site (fun n => put (put n 0 groups (384 * r)) 8064 u.1 (4 * u.2.1))
      | none => s
    match d.streamed[e.2]? with
    | none => s
    | some (v, w) => match p.site v with
      | none => s
      | some site => s.modUnit site (fun n => (List.range (96 * (u.2.2 - r))).foldl (fun n i =>
          n.place (w + i) (BitVec.ofNat 256 (fieldLe b (groups + 3072 * r + 32 * i) 32))) n)) s

end Sys2Proof.Machine
end

