-- ==== Sys2Proof/Machine/CmdContext.lean ====
section
/-! DEFINITION. The firmware opcodes of slots and contexts (Table 13-6): slots and staging, loads and releases, variants, scene, replay
and pattern settings, models and entity keys. -/

namespace Sys2Proof.Machine

-- Slots (R293-R296).

/-- SLOT_DEFINE: the place and length of an image are recorded. -/
def slotDefine (k : Pkt) (n place len : Nat) (src : B64) (s : State) : State :=
  s.command k 0x1200
    ([(decide (64 ≤ n) || len == 0 || decide (16777216 < len) || s.sourceBad k place src len, .badParam)] ++ s.slotChecks k n
      ++ [((s.slot n).state != .empty, .badState)])
    (fun s => (s.setSlot n { state := .stored, fn := fnId (who k), host := place == 1, length := len, src := src }).finish k false .ok)

def execSlotDefine (k : Pkt) (slot where_ : B8) (length : B32) (src : B64) (s : State) : Host.Outcome State Fault Refusal :=
  .next (slotDefine k slot.toNat where_.toNat length.toNat src s)

/-- Whether an eclosion reads from a slot, or a variant placed from it exists (R296). -/
def State.slotBusy (s : State) (n : Nat) : Bool :=
  s.ctxs.any (fun e : Nat × Option Ctx => match e.2 with
    | some c => c.ecl.any (fun x : Eclosion => x.place.slot == n) || c.variants.any (fun p : Placement => p.slot == n)
    | none => false)

/-- SLOT_UNDEFINE: the slot is EMPTY again. -/
def slotUndefine (k : Pkt) (n : Nat) (s : State) : State :=
  s.command k 0x1201 (s.slotChecks k n ++ [((s.slot n).state == .empty, .badState), (s.slotBusy n, .busy)])
    (fun s => (s.setSlot n {}).finish k false .ok)

def execSlotUndefine (k : Pkt) (slot : B8) (s : State) : Host.Outcome State Fault Refusal := .next (slotUndefine k slot.toNat s)

/-- The granules that an image takes in the Chrysalis store (R294). -/
def granules (bytes : Nat) : Nat := (bytes + 65535) / 65536

/-- Whether a STAGE of `len` bytes would break a limit of the store (R294). -/
def State.storeFull (s : State) (len : Nat) : Bool :=
  let staged := s.slots.filterMap (fun e : Nat × Slot => if e.2.state == SlotState.staged then some e.2.length else none)
  decide (8 ≤ staged.length) || decide (256 < (staged.map granules).sum + granules len)

/-- SLOT_STAGE: the image is copied and checked; the slot is STAGED only when every check passes (R295). -/
def slotStage (k : Pkt) (n : Nat) (d : ImageDecl) (err : Bool) (s : State) : State :=
  let x := s.slot n
  s.command k 0x1202
    (s.slotChecks k n ++ [(x.state != .stored, .badState), (s.storeFull x.length, .storeFull)])
    (fun s =>
      let s' := if x.host then s.hostUsed x.src else s
      match s.sourceData (if x.host then 1 else 0) x.src x.length err with
      | none => s'.finish k false .memError
      | some b =>
        match stageCheck b x.length d with
        | .error e => s'.finish k false e.1 e.2
        | .ok m => (s'.setSlot n { x with state := .staged, image := some m }).finish k false .ok)

def execSlotStage (k : Pkt) (slot : B8) (decl : ImageDecl) (memError : Bool) (s : State) : Host.Outcome State Fault Refusal :=
  .next (slotStage k slot.toNat decl memError s)

/-- SLOT_UNSTAGE: the store lets the image go; its place stays recorded. -/
def slotUnstage (k : Pkt) (n : Nat) (s : State) : State :=
  s.command k 0x1203 (s.slotChecks k n ++ [((s.slot n).state != .staged, .badState), (s.slotBusy n, .busy)])
    (fun s => (s.modSlot n (fun x => { x with state := .stored, image := none })).finish k false .ok)

def execSlotUnstage (k : Pkt) (slot : B8) (s : State) : Host.Outcome State Fault Refusal := .next (slotUnstage k slot.toNat s)

-- Loading (R301-R306, R317).

/-- Checks on the bind entries of a load: ranges, presence on this variant, and ownership of the streams (R303, R335). -/
def State.bindChecks (s : State) (k : Pkt) (m : Image) (bs : List Bind) : List (Bool × Status) :=
  let v := s.part.variant
  [(bs.any (fun b : Bind => decide (64 ≤ b.stream.toNat) || decide (2 < b.source.toNat) || decide (2 < b.route.toNat)
      || (b.route == 1 && decide (32 ≤ b.routeIndex.toNat))), .badParam),
   (bs.any (fun b : Bind => decide (v.streams ≤ b.stream.toNat) || (b.route == 1 && decide (16 * v.ports ≤ b.routeIndex.toNat))
      || (b.route == 2 && decide (v.yalleks ≤ b.routeIndex.toNat % 4)))
      || (match m.decl.link with | some l => l.ports.any (fun e : Nat × Nat => decide (v.yalleks ≤ e.1)) | none => false), .noResource),
   (bs.any (fun b : Bind => !mayAct (who k) (s.streamFn b.stream.toNat)), .notOwner)]

/-- What a CONTEXT_LOAD or LOAD_PLACED names. -/
structure LoadReq where
  slot : Nat
  replicas : Nat
  flags : Nat
  owner : Nat
  dest : B64
  binds : List Bind
  deriving DecidableEq, Repr

/-- The bind entries that an image uses. -/
def LoadReq.bound (r : LoadReq) (m : Image) : List Bind := r.binds.take m.streams

/-- Checks of a load: the slot, the image's kind and replica count, the bind entries, and with REPLACE the context. -/
def State.loadChecks (s : State) (k : Pkt) (r : LoadReq) : List (Bool × Status) :=
  let replace := bit r.flags 0
  let m := (s.slot r.slot).image.getD {}
  let c := (s.ctxUp r.owner).getD {}
  [(decide (64 ≤ r.slot) || decide (3 < r.flags) || destBad k r.dest || (replace && decide (16 ≤ r.owner)), .badParam)]
    ++ s.slotChecks k r.slot ++ [((s.slot r.slot).state != .staged, .badState)]
    ++ [(m.variant || decide (r.replicas < m.repMin) || decide (m.repMax < r.replicas), .badParam)] ++ s.bindChecks k m (r.bound m)
    ++ (if replace then s.ctxChecks k r.owner ++ [(c.state == CtxState.eclosing || c.ecl.isSome || c.replace.isSome, .busy)] else [])
    ++ [(!s.bindsOk (if replace then r.owner else 16) m (r.bound m), .badParam)]

/-- A new context takes the lowest free OWNER, is placed, and waits for its eclosion (R302, R306). -/
def State.newContext (s : State) (k : Pkt) (r : LoadReq) (m : Image) (lists : Option Lists) : State :=
  let bs := r.bound m
  match (List.range 16).find? (fun o => (s.ctx o).isNone) with
  | none => s.finish k false .noContext
  | some o =>
    match s.placeImage o r.slot m r.replicas (bs.map (fun b : Bind => b.stream.toNat)) lists none none with
    | .error st => s.finish k false st
    | .ok p =>
      let s := s.setCtx o (some { fn := fnId (who k), place := p, region := p.map.map (fun e => e.2)
                                  ecl := some { kind := 0, place := p, pkt := some k, dest := r.dest, binds := bs } })
      (s.bindStreams o bs).takePorts o none m.decl.link

/-- A REPLACE stops the context's streams, and goes on when its region is empty (R317). -/
def State.replaceContext (s : State) (k : Pkt) (r : LoadReq) (m : Image) (lists : Option Lists) : State :=
  let o := r.owner
  let s := s.modRunning o (fun c => { c with
    replace := some { slot := r.slot, replicas := r.replicas, pkt := k, dest := r.dest, binds := r.bound m, lists := lists } })
  match s.ctx o with
  | some c =>
    match c.state with
    | .cocoon | .fault => s.startReplace o
    | _ => (s.ctxStreams o).foldl (fun s st => s.stopStream st (bit r.flags 1)) s
  | none => s

/-- An accepted load. -/
def State.load (s : State) (k : Pkt) (r : LoadReq) (lists : Option Lists) : State :=
  let m := (s.slot r.slot).image.getD {}
  if bit r.flags 0 then s.replaceContext k r m lists else s.newContext k r m lists

/-- CONTEXT_LOAD. -/
def contextLoad (k : Pkt) (r : LoadReq) (s : State) : State := s.command k 0x1204 (s.loadChecks k r) (fun s => s.load k r none)

def execContextLoad (k : Pkt) (slot replicas flags owner : B8) (dest : B64) (binds : List Bind) (s : State) :
    Host.Outcome State Fault Refusal :=
  .next (contextLoad k { slot := slot.toNat, replicas := replicas.toNat, flags := flags.toNat, owner := owner.toNat, dest := dest
                         binds := binds } s)

/-- CONTEXT_UNLOAD: a context in COCOON or FAULT is released, and the command replies when the release ends (R319, R448). -/
def contextUnload (k : Pkt) (o : Nat) (s : State) : State :=
  let c := (s.ctxUp o).getD {}
  s.command k 0x1205
    (s.ctxChecks k o ++ [(!(c.state == CtxState.cocoon || c.state == CtxState.fault) || c.ecl.isSome || c.replace.isSome, .busy)])
    (fun s =>
      let s := s.sendUnbind o
      let s := match c.snap with | some n => s.finish n.pkt true .badState | none => s
      s.modRunning o (fun c => { c with state := .releasing, snap := none, unload := some k }))

def execContextUnload (k : Pkt) (owner : B8) (s : State) : Host.Outcome State Fault Refusal := .next (contextUnload k owner.toNat s)

-- Variants (R308).

/-- Checks of placing a variant: its slot, the context, and what the variant must share with it. -/
def State.variantChecks (s : State) (k : Pkt) (o n : Nat) : List (Bool × Status) :=
  let c := (s.ctxUp o).getD {}
  let m := (s.slot n).image.getD {}
  [(decide (64 ≤ n), .badParam)] ++ s.soundChecks k o ++ s.slotChecks k n
    ++ [((s.slot n).state != .staged, .badState),
        (!m.variant || m.streams != c.place.image.streams || decide (c.place.replicas < m.repMin) || decide (m.repMax < c.place.replicas), .badParam),
        (c.variants.any (fun p : Placement => p.slot == n), .badState), (c.ecl.any (fun e : Eclosion => decide (e.kind < 2)), .busy)]

/-- A variant is placed on the sites of its context's region, and its entries and gates are reserved. -/
def State.placeVariantOn (s : State) (k : Pkt) (o n : Nat) (lists : Option Lists) : State :=
  let c := (s.ctxUp o).getD {}
  let m := (s.slot n).image.getD {}
  match s.placeImage o n m c.place.replicas (s.slotStreams o m.streams) lists (some c.region) none with
  | .error st => s.finish k false st
  | .ok p => (s.modRunning o (fun c => { c with variants := c.variants ++ [p] })).finish k false .ok

/-- PLACE_VARIANT. -/
def placeVariant (k : Pkt) (o n : Nat) (s : State) : State :=
  s.command k 0x1206 (s.variantChecks k o n) (fun s => s.placeVariantOn k o n none)

def execPlaceVariant (k : Pkt) (owner slot : B8) (s : State) : Host.Outcome State Fault Refusal :=
  .next (placeVariant k owner.toNat slot.toNat s)

/-- UNPLACE_VARIANT: the reservation ends; a variant in force keeps what it wrote. -/
def unplaceVariant (k : Pkt) (o n : Nat) (s : State) : State :=
  let c := (s.ctxUp o).getD {}
  s.command k 0x1207
    ([(decide (64 ≤ n), .badParam)] ++ s.soundChecks k o
      ++ [(!c.variants.any (fun p : Placement => p.slot == n), .badParam),
          (c.ecl.any (fun e : Eclosion => decide (2 ≤ e.kind) && e.place.slot == n), .busy)])
    (fun s => (s.modRunning o (fun c => { c with variants := c.variants.filter (fun p => p.slot != n) })).finish k false .ok)

def execUnplaceVariant (k : Pkt) (owner slot : B8) (s : State) : Host.Outcome State Fault Refusal :=
  .next (unplaceVariant k owner.toNat slot.toNat s)

-- Scene, replay and pattern (R248, R378, R280).

/-- The context whose models a stream's scene source names: its own if it has models, else the lowest one with a model that a
stream of the head triggers (log 30). -/
def State.sceneCtx (s : State) (st : Nat) : Option Ctx :=
  let models := fun (c : Ctx) => c.place.image.decl.models
  match s.boundCtx st with
  | some c =>
    if !(models c).isEmpty then some c
    else ((List.range 16).find? (fun o => match s.ctxUp o with
      | some c => (models c).any (fun d : ModelDecl => d.triggers.any (fun t => s.slotStream o t / 4 == st / 4))
      | none => false)).bind s.ctxUp
  | none => none

/-- SCENE_SET: the scene source, its hold and threshold, and the scene table of a stream. -/
def sceneSet (k : Pkt) (st model hold conf : Nat) (table : List B8) (s : State) : State :=
  let c := s.sceneCtx st
  s.command k 0x1208
    ([(decide (7 < hold) || isNan16 conf || table.length != 16 || table.any (fun b => decide (63 < b.toNat) && b != 255), .badParam)]
      ++ s.boundChecks k st
      ++ [(c.isNone, .badState), (!(c.bind (fun c : Ctx => c.place.image.decl.models[model]?)).any (fun d : ModelDecl => d.link == 3), .badParam)])
    (fun s => (s.modStrm st (fun x =>
        { x with scene := { model := model, hold := hold, confMin := conf, table := table }, heldClass := none })).finish k false .ok)

def execSceneSet (k : Pkt) (stream model hold : B8) (confMin : B16) (table : List B8) (s : State) : Host.Outcome State Fault Refusal :=
  .next (sceneSet k stream.toNat model.toNat hold.toNat confMin.toNat table s)

/-- REPLAY_SET: the source of a REPLAY stream that is not started, in the stream's declared geometry (R378). -/
def replaySet (k : Pkt) (st place loop frames bytes : Nat) (src : B64) (s : State) : State :=
  let d := s.bindDecl st
  s.command k 0x1209
    ([(decide (1 < place) || decide (1 < loop) || frames == 0, .badParam)] ++ s.boundChecks k st
      ++ [((s.strm st).source != 1, .badState), ((s.strm st).started, .busy),
          (decide (bytes < 2 * d.width * d.height) || s.sourceBad k place src (frames * bytes), .badParam)])
    (fun s => (s.modStrm st (fun x => { x with
        replay := some { host := place == 1, loop := loop == 1, frames := frames, frameBytes := bytes, src := src.toNat } })).finish k false .ok)

def execReplaySet (k : Pkt) (stream where_ loop : B8) (frames frameBytes : B32) (src : B64) (s : State) : Host.Outcome State Fault Refusal :=
  .next (replaySet k stream.toNat where_.toNat loop.toNat frames.toNat frameBytes.toNat src s)

/-- PATTERN_SET: the source of a PATTERN stream. -/
def patternSet (k : Pkt) (st pattern : Nat) (seed : B16) (s : State) : State :=
  s.command k 0x120A ([(decide (2 < pattern), .badParam)] ++ s.boundChecks k st ++ [((s.strm st).source != 2, .badState)])
    (fun s => (s.modStrm st (fun x => { x with pattern := some (pattern, seed) })).finish k false .ok)

def execPatternSet (k : Pkt) (stream pattern : B8) (seed : B16) (s : State) : Host.Outcome State Fault Refusal :=
  .next (patternSet k stream.toNat pattern.toNat seed s)

-- Models and entity keys (R240, R246, R247).

/-- A load of a model ends: evaluations start again (R246). -/
def State.endLoading (s : State) (k : Pkt) (o m : Nat) : State :=
  if mayAct (who k) (s.ctxFn o) then
    s.modRunning o (fun c => if (Tab.get {} c.models m : ModelSt).loading then
      { c with models := Tab.set c.models m { Tab.get {} c.models m with loading := false } } else c)
  else s

/-- MODEL_LOAD: a checked blob takes the place of a model's trees, feature map and BASE. -/
def modelLoad (k : Pkt) (o m place len : Nat) (src : B64) (err : Bool) (s : State) : State :=
  let s := if s.ready then s.endLoading k o m else s
  let c := (s.ctxUp o).getD {}
  s.command k 0x1300
    ([(decide (1 < place), .badParam)] ++ s.soundChecks k o ++ [((c.model m).isNone || s.sourceBad k place src len, .badParam)])
    (fun s =>
      let s' := if place = 1 then s.hostUsed src else s
      match s.sourceData place src len err, c.model m with
      | some b, some d =>
        match blobCheck b len d with
        | .error e => s'.finish k false e.1 e.2
        | .ok new => ((s'.writeModel c.place new b).reloadModel o m new).finish k false .ok
      | _, _ => s'.finish k false .memError)

def execModelLoad (k : Pkt) (owner model where_ : B8) (length : B32) (src : B64) (memError : Bool) (s : State) :
    Host.Outcome State Fault Refusal := .next (modelLoad k owner.toNat model.toNat where_.toNat length.toNat src memError s)

/-- ENTITY_KEY: the HOST key register of an entity table. -/
def entityKey (k : Pkt) (o t : Nat) (key : B16) (s : State) : State :=
  let c := (s.ctxUp o).getD {}
  s.command k 0x1301 (s.soundChecks k o ++ [(decide (c.place.image.decl.entities.length ≤ t), .badParam)])
    (fun s => (s.modRunning o (fun c => { c with keys := Tab.set c.keys t key })).finish k false .ok)

def execEntityKey (k : Pkt) (owner table : B8) (key : B16) (s : State) : Host.Outcome State Fault Refusal :=
  .next (entityKey k owner.toNat table.toNat key s)

end Sys2Proof.Machine
end

