-- ==== Sys2Proof/Machine/CmdExpert.lean ====
section
/-! DEFINITION. The expert opcodes that run in firmware (Table 13-6): placement by lists, slot patches, raw I3C transfers, DVFS, resets,
raw Ethernet frames and Yallek alignment. -/

namespace Sys2Proof.Machine

/-- LOAD_PLACED: a load whose rows and columns are supplied (R320). -/
def loadPlaced (k : Pkt) (r : LoadReq) (lists : Option Lists) (s : State) : State :=
  s.command k 0x9000 ([(k.cspi, .badParam)] ++ s.loadChecks k r ++ [(lists.isNone, .memError)]) (fun s => s.load k r lists)

def execLoadPlaced (k : Pkt) (slot replicas flags owner : B8) (dest : B64) (binds : List Bind) (lists : Option Lists) (s : State) :
    Host.Outcome State Fault Refusal :=
  .next (loadPlaced k { slot := slot.toNat, replicas := replicas.toNat, flags := flags.toNat, owner := owner.toNat, dest := dest
                        binds := binds } lists s)

/-- PLACE_VARIANT_PLACED (R320). -/
def placeVariantPlaced (k : Pkt) (o n : Nat) (lists : Option Lists) (s : State) : State :=
  s.command k 0x9001 ([(k.cspi, .badParam)] ++ s.variantChecks k o n ++ [(lists.isNone, .memError)]) (fun s => s.placeVariantOn k o n lists)

def execPlaceVariantPlaced (k : Pkt) (owner slot : B8) (lists : Option Lists) (s : State) : Host.Outcome State Fault Refusal :=
  .next (placeVariantPlaced k owner.toNat slot.toNat lists s)

/-- A patch entry that names a slot-table entry. -/
def patchOk (e : PatchEntry) : Bool := decide (e.site.toNat < 768) && decide (e.output.toNat < 5) && decide (e.slot.toNat < 64)

/-- SLOT_PATCH: entries that are the context's own or free wait for slot 0 of their Field; any other fails the patch (R321). -/
def slotPatch (k : Pkt) (o : Nat) (entries : Option (List PatchEntry)) (s : State) : State :=
  let es := entries.getD []
  let taken := s.takenEntries o
  s.command k 0x9002
    ([(k.cspi || entries.any (fun l : List PatchEntry => l.isEmpty || decide (4096 < l.length)), .badParam)] ++ s.soundChecks k o
      ++ [(entries.isNone, .memError), (!es.all patchOk, .badParam),
          (es.any (fun e : PatchEntry => taken.contains (e.site.toNat, e.output.toNat, e.slot.toNat)), .notOwner)])
    (fun s =>
      (es.foldl (fun s (e : PatchEntry) => s.modRouter e.site.toNat (fun r =>
        { r with patch := r.patch ++ [(64 * e.output.toNat + e.slot.toNat, e.entry)] })) s).finish k false .ok)

def execSlotPatch (k : Pkt) (owner : B8) (entries : Option (List PatchEntry)) (s : State) : Host.Outcome State Fault Refusal :=
  .next (slotPatch k owner.toNat entries s)

/-- I3C_RAW: one transfer on a head's bus, in READY, UNTRUSTED or FAULT (R22, Table 17-3). -/
def i3cRaw (k : Pkt) (h address wlen rlen : Nat) (data : Bytes) (reply : Option Bytes) (s : State) : State :=
  let x := s.head h
  s.command k 0x9003
    ((s.headChecks k h).take 1 ++ [(decide (127 < address) || decide (64 < wlen) || decide (12 < rlen), .badParam)] ++ (s.headChecks k h).drop 1
      ++ [(!(x.usable || x.state == .fault), .badState)])
    (fun s =>
      let s := s.modHead h (fun x => x.i3cPut { target := address, data := data.take wlen, rlen := rlen, raw := true })
      match reply with
      | none => s.finish k false .i3cNack
      | some b => let r := b.take rlen; s.finish k false .ok [fieldLe r 0 4, fieldLe r 4 4, fieldLe r 8 4])

def execI3cRaw (k : Pkt) (head address wlen rlen : B8) (data : Bytes) (reply : Option Bytes) (s : State) : Host.Outcome State Fault Refusal :=
  .next (i3cRaw k head.toNat address.toNat wlen.toNat rlen.toNat data reply s)

/-- DVFS_SET: the point a Field is asked to run at; a lower cap in force clamps it (R60, R62, R63, R414). -/
def dvfsSet (k : Pkt) (f point : Nat) (s : State) : State :=
  s.command k 0x9004 [(decide (4 ≤ f) || decide (6 < point), .badParam)]
    (fun s =>
      let s := (s.modField f (fun x => { x with requested := point })).retarget f (BitVec.ofNat 16 (who k))
      s.finish k false (if s.effective f < point then .clamped else .ok))

def execDvfsSet (k : Pkt) (field point : B8) (s : State) : Host.Outcome State Fault Refusal := .next (dvfsSet k field.toNat point.toNat s)

/-- FIELD_RESET (R429). -/
def execFieldReset (k : Pkt) (field : B8) (s : State) : Host.Outcome State Fault Refusal :=
  .next (s.command k 0x9005 [(decide (4 ≤ field.toNat), .badParam)] (fun s => (s.fieldReset field.toNat 0 0).finish k false .ok))

/-- UNIT_RESET (R121): a unit on a fused site has nothing to reset (R91). -/
def execUnitReset (k : Pkt) (site : B16) (s : State) : Host.Outcome State Fault Refusal :=
  .next (s.command k 0x9006 [(decide (768 ≤ site.toNat), .badParam)]
    (fun s => (if s.works site.toNat then s.unitReset site.toNat else s).finish k false .ok))

/-- ETH_RAW: one frame leaves a port as the host gives it, without its FCS (R400). -/
def ethRaw (k : Pkt) (p len : Nat) (src : B64) (s : State) : State :=
  s.command k 0x9007
    [(decide (2 ≤ p) || decide (len < 60) || decide (1514 < len) || k.cspi, .badParam), (decide (s.part.variant.ports ≤ p), .noResource),
     (!(s.ethLive p && (s.eth p).up), .badState)]
    (fun s => match s.hostTaken src len with
      | some b => ((s.hostUsed src).ethSend p b).finish k false .ok
      | none => (s.hostUsed src).finish k false .memError)

def execEthRaw (k : Pkt) (port : B8) (length : B16) (src : B64) (s : State) : Host.Outcome State Fault Refusal :=
  .next (ethRaw k port.toNat length.toNat src s)

/-- YALLEK_ALIGN of a SYNC cut route: operation 0 begins an alignment, whose end replies; operation 1 sets the offset (R393). -/
def yallekAlign (k : Pkt) (p : Nat) (b : Bytes) (s : State) : State :=
  let op := fieldLe b 0 1
  let route := fieldLe b 1 1
  s.command k 0x9008
    [(decide (4 ≤ p) || b.length != 32 || decide (1 < op) || (b.drop 4).any (fun x => x != 0), .badParam),
     (decide (s.part.variant.yalleks ≤ p), .noResource), (!(s.yport p).up || (s.portLink p).isNone, .badState),
     (!(s.cut p route).any (fun c : CutDecl => c.sync), .badParam), ((s.yport p).alignPkt.isSome, .busy)]
    (fun s =>
      let s := s.modYport p (fun y => { y with
        probes := Tab.set y.probes route [], align := Tab.set y.align route (if op = 1 then some (BitVec.ofNat 16 (fieldLe b 2 2)) else none)
        alignPkt := some (route, k) })
      if op = 1 then s.alignReply p .ok else s)

def execYallekAlign (k : Pkt) (port : B8) (record : Bytes) (s : State) : Host.Outcome State Fault Refusal :=
  .next (yallekAlign k port.toNat record s)

end Sys2Proof.Machine
end

