-- ==== Sys2Proof/Machine/Dispatch.lean ====
section
/-! DEFINITION. The dispatch: one arm per command. -/

namespace Sys2Proof.Machine

def exec (i : Instr) (s : State) : Host.Outcome State Fault Refusal :=
  match i with
  | .headInserted h => Sys2Proof.Machine.execHeadInserted h s
  | .headRemoved h => Sys2Proof.Machine.execHeadRemoved h s
  | .headInt h => Sys2Proof.Machine.execHeadInt h s
  | .headIbi h target data => Sys2Proof.Machine.execHeadIbi h target data s
  | .frameStart h vc hdr fn => Sys2Proof.Machine.execFrameStart h vc hdr fn s
  | .frameEnd h vc hdr => Sys2Proof.Machine.execFrameEnd h vc hdr s
  | .lineStartPacket h vc hdr number err => Sys2Proof.Machine.execLineStartPacket h vc hdr number err s
  | .lineEndPacket h vc hdr => Sys2Proof.Machine.execLineEndPacket h vc hdr s
  | .linePayload h vc hdr dt payload crc err => Sys2Proof.Machine.execLinePayload h vc hdr dt payload crc err s
  | .embeddedData h vc hdr dt payload crc => Sys2Proof.Machine.execEmbeddedData h vc hdr dt payload crc s
  | .linkTimeout st => Sys2Proof.Machine.execLinkTimeout st s
  | .missingLineSupply st => Sys2Proof.Machine.execMissingLineSupply st s
  | .lineTake st => Sys2Proof.Machine.execLineTake st s
  | .fsyncPulse h => Sys2Proof.Machine.execFsyncPulse h s
  | .fsyncPulseEnd h => Sys2Proof.Machine.execFsyncPulseEnd h s
  | .headTempRead h value => Sys2Proof.Machine.execHeadTempRead h value s
  | .ledgerCommit h => Sys2Proof.Machine.execLedgerCommit h s
  | .ledgerReadback h copy => Sys2Proof.Machine.execLedgerReadback h copy s
  | .attachSettled h r => Sys2Proof.Machine.execAttachSettled h r s
  | .authPoll h signature => Sys2Proof.Machine.execAuthPoll h signature s
  | .authTimeout h => Sys2Proof.Machine.execAuthTimeout h s
  | .reauthentication h => Sys2Proof.Machine.execReauthentication h s
  | .focusWrite st fseq focus conf => Sys2Proof.Machine.execFocusWrite st fseq focus conf s
  | .exposureWrite h => Sys2Proof.Machine.execExposureWrite h s
  | .i3cTransferComplete h => Sys2Proof.Machine.execI3cTransferComplete h s
  | .edgeLineAdmit st => Sys2Proof.Machine.execEdgeLineAdmit st s
  | .pacedLineStart st => Sys2Proof.Machine.execPacedLineStart st s
  | .replayPrefetch st ecc => Sys2Proof.Machine.execReplayPrefetch st ecc s
  | .flitForward site slot => Sys2Proof.Machine.execFlitForward site slot s
  | .flitEject dst ecc => Sys2Proof.Machine.execFlitEject dst ecc s
  | .sideLinkFlit site east => Sys2Proof.Machine.execSideLinkFlit site east s
  | .gateWrite g => Sys2Proof.Machine.execGateWrite g s
  | .gateFlitVisible g => Sys2Proof.Machine.execGateFlitVisible g s
  | .gateSlotFreed g => Sys2Proof.Machine.execGateSlotFreed g s
  | .exchangeCreditReturn site lane n => Sys2Proof.Machine.execExchangeCreditReturn site lane n s
  | .tagDeadlock site => Sys2Proof.Machine.execTagDeadlock site s
  | .microNop site w => Sys2Proof.Machine.execMicroNop site w s
  | .pop site w => Sys2Proof.Machine.execPop site w s
  | .push site w => Sys2Proof.Machine.execPush site w s
  | .ldw site w => Sys2Proof.Machine.execLdw site w s
  | .mac site w => Sys2Proof.Machine.execMac site w s
  | .acc site w => Sys2Proof.Machine.execAcc site w s
  | .bias site w => Sys2Proof.Machine.execBias site w s
  | .req site w => Sys2Proof.Machine.execReq site w s
  | .reqDrain site => Sys2Proof.Machine.execReqDrain site s
  | .act site w => Sys2Proof.Machine.execAct site w s
  | .pool site w => Sys2Proof.Machine.execPool site w s
  | .add site w => Sys2Proof.Machine.execAdd site w s
  | .mul site w => Sys2Proof.Machine.execMul site w s
  | .mov site w => Sys2Proof.Machine.execMov site w s
  | .loop site w => Sys2Proof.Machine.execLoop site w s
  | .endl site w => Sys2Proof.Machine.execEndl site w s
  | .emit site w => Sys2Proof.Machine.execEmit site w s
  | .sync site w => Sys2Proof.Machine.execSync site w s
  | .spill site w => Sys2Proof.Machine.execSpill site w s
  | .rot site w => Sys2Proof.Machine.execRot site w s
  | .dwc site w => Sys2Proof.Machine.execDwc site w s
  | .stats site w => Sys2Proof.Machine.execStats site w s
  | .tcmp site w => Sys2Proof.Machine.execTcmp site w s
  | .tleaf site w => Sys2Proof.Machine.execTleaf site w s
  | .illegalOp site w => Sys2Proof.Machine.execIllegalOp site w s
  | .progUe site => Sys2Proof.Machine.execProgUe site s
  | .generatorSequence site gen n ecc => Sys2Proof.Machine.execGeneratorSequence site gen n ecc s
  | .statsRecordSend site => Sys2Proof.Machine.execStatsRecordSend site s
  | .statsBankClose site => Sys2Proof.Machine.execStatsBankClose site s
  | .statsBankRelease site => Sys2Proof.Machine.execStatsBankRelease site s
  | .scrubRead site ecc raced => Sys2Proof.Machine.execScrubRead site ecc raced s
  | .serviceAccess site a => Sys2Proof.Machine.execServiceAccess site a s
  | .tailLineRelease st => Sys2Proof.Machine.execTailLineRelease st s
  | .treeEvalStart o model => Sys2Proof.Machine.execTreeEvalStart o model s
  | .treeResultPost o model => Sys2Proof.Machine.execTreeResultPost o model s
  | .sceneLatch st => Sys2Proof.Machine.execSceneLatch st s
  | .eclosionStart o => Sys2Proof.Machine.execEclosionStart o s
  | .eclosionDone o => Sys2Proof.Machine.execEclosionDone o s
  | .contextCocoon o => Sys2Proof.Machine.execContextCocoon o s
  | .contextAborted o => Sys2Proof.Machine.execContextAborted o s
  | .contextReleased o => Sys2Proof.Machine.execContextReleased o s
  | .ecloseTimeout o => Sys2Proof.Machine.execEcloseTimeout o s
  | .stallAssert g => Sys2Proof.Machine.execStallAssert g s
  | .freezeSet m => Sys2Proof.Machine.execFreezeSet m s
  | .stallMinHoldEnd g => Sys2Proof.Machine.execStallMinHoldEnd g s
  | .freezeClear m cycles => Sys2Proof.Machine.execFreezeClear m cycles s
  | .stallOff g => Sys2Proof.Machine.execStallOff g s
  | .arbitration a present cycles => Sys2Proof.Machine.execArbitration a present cycles s
  | .backoffEnd a input => Sys2Proof.Machine.execBackoffEnd a input s
  | .forced a input => Sys2Proof.Machine.execForced a input s
  | .withdraw a input => Sys2Proof.Machine.execWithdraw a input s
  | .queueWordWrite q word endMark crcOk => Sys2Proof.Machine.execQueueWordWrite q word endMark crcOk s
  | .queueAbort q => Sys2Proof.Machine.execQueueAbort q s
  | .queueReserve q producer len => Sys2Proof.Machine.execQueueReserve q producer len s
  | .queueSlotWrite q producer slot body => Sys2Proof.Machine.execQueueSlotWrite q producer slot body s
  | .queueRead q => Sys2Proof.Machine.execQueueRead q s
  | .outputFlit st => Sys2Proof.Machine.execOutputFlit st s
  | .outputLineSend st => Sys2Proof.Machine.execOutputLineSend st s
  | .poolDescriptorFetch p data => Sys2Proof.Machine.execPoolDescriptorFetch p data s
  | .cmdFetch f packet => Sys2Proof.Machine.execCmdFetch f packet s
  | .cmdDispatch f cspi => Sys2Proof.Machine.execCmdDispatch f cspi s
  | .replyWrite f ok => Sys2Proof.Machine.execReplyWrite f ok s
  | .replyInterrupt f => Sys2Proof.Machine.execReplyInterrupt f s
  | .logInterrupt f => Sys2Proof.Machine.execLogInterrupt f s
  | .completionInterrupt f => Sys2Proof.Machine.execCompletionInterrupt f s
  | .eventRecord input => Sys2Proof.Machine.execEventRecord input s
  | .overrun input => Sys2Proof.Machine.execOverrun input s
  | .logDistribute => Sys2Proof.Machine.execLogDistribute s
  | .frameRecord st => Sys2Proof.Machine.execFrameRecord st s
  | .clkLoss clk count => Sys2Proof.Machine.execClkLoss clk count s
  | .clkFast clk count => Sys2Proof.Machine.execClkFast clk count s
  | .clkRestored clk => Sys2Proof.Machine.execClkRestored clk s
  | .xinRestored => Sys2Proof.Machine.execXinRestored s
  | .dtbStep => Sys2Proof.Machine.execDtbStep s
  | .dtbShadowRealign => Sys2Proof.Machine.execDtbShadowRealign s
  | .ptpSync port t1 t2 => Sys2Proof.Machine.execPtpSync port t1 t2 s
  | .ptpDelayReq port t3 t4 => Sys2Proof.Machine.execPtpDelayReq port t3 t4 s
  | .ptpAnnounce port domain m => Sys2Proof.Machine.execPtpAnnounce port domain m s
  | .ptpHoldover port => Sys2Proof.Machine.execPtpHoldover port s
  | .ptpPort => Sys2Proof.Machine.execPtpPort s
  | .vidSettled => Sys2Proof.Machine.execVidSettled s
  | .dvfsSlewDone f => Sys2Proof.Machine.execDvfsSlewDone f s
  | .pwarn mv => Sys2Proof.Machine.execPwarn mv s
  | .vddArrWarning f mv => Sys2Proof.Machine.execVddArrWarning f mv s
  | .vrFault mv => Sys2Proof.Machine.execVrFault mv s
  | .diapauseExit => Sys2Proof.Machine.execDiapauseExit s
  | .bor rail => Sys2Proof.Machine.execBor rail s
  | .borRelease => Sys2Proof.Machine.execBorRelease s
  | .por pin => Sys2Proof.Machine.execPor pin s
  | .startupComplete => Sys2Proof.Machine.execStartupComplete s
  | .qspiBootRead copy image => Sys2Proof.Machine.execQspiBootRead copy image s
  | .hostBootRead image => Sys2Proof.Machine.execHostBootRead image s
  | .tempReading t => Sys2Proof.Machine.execTempReading t s
  | .thermalClear => Sys2Proof.Machine.execThermalClear s
  | .thermalRecovery => Sys2Proof.Machine.execThermalRecovery s
  | .mcRestart firmwareFault verified => Sys2Proof.Machine.execMcRestart firmwareFault verified s
  | .flr f => Sys2Proof.Machine.execFlr f s
  | .pcieAPerst => Sys2Proof.Machine.execPcieAPerst s
  | .pcieBPerst => Sys2Proof.Machine.execPcieBPerst s
  | .pcieLinkDown ep => Sys2Proof.Machine.execPcieLinkDown ep s
  | .hbmBurst k a => Sys2Proof.Machine.execHbmBurst k a s
  | .hbmPowerDown k => Sys2Proof.Machine.execHbmPowerDown k s
  | .hbmRefresh k => Sys2Proof.Machine.execHbmRefresh k s
  | .yallekIdentSend p => Sys2Proof.Machine.execYallekIdentSend p s
  | .yallekBringupTimeout p => Sys2Proof.Machine.execYallekBringupTimeout p s
  | .sporeIdent p spore die => Sys2Proof.Machine.execSporeIdent p spore die s
  | .sporeFlit p spore => Sys2Proof.Machine.execSporeFlit p spore s
  | .sporeLine p spore => Sys2Proof.Machine.execSporeLine p spore s
  | .sporeLock p spore op => Sys2Proof.Machine.execSporeLock p spore op s
  | .sporeBind p spore b => Sys2Proof.Machine.execSporeBind p spore b s
  | .sporeUnbind p spore graph => Sys2Proof.Machine.execSporeUnbind p spore graph s
  | .peerReset p spore => Sys2Proof.Machine.execPeerReset p spore s
  | .sporeAck p spore => Sys2Proof.Machine.execSporeAck p spore s
  | .sporeNak p spore => Sys2Proof.Machine.execSporeNak p spore s
  | .sporeStall p spore => Sys2Proof.Machine.execSporeStall p spore s
  | .sporeAlign p spore route stamp => Sys2Proof.Machine.execSporeAlign p spore route stamp s
  | .sporeRetransmitTimeout p => Sys2Proof.Machine.execSporeRetransmitTimeout p s
  | .nakRepeat p => Sys2Proof.Machine.execNakRepeat p s
  | .ackSend p => Sys2Proof.Machine.execAckSend p s
  | .flitSporeClose p => Sys2Proof.Machine.execFlitSporeClose p s
  | .yallekDown p cause => Sys2Proof.Machine.execYallekDown p cause s
  | .syncEntryVisible p route => Sys2Proof.Machine.execSyncEntryVisible p route s
  | .ethLinkChange p up => Sys2Proof.Machine.execEthLinkChange p up s
  | .arpRequest p mac ip target => Sys2Proof.Machine.execArpRequest p mac ip target s
  | .igmpReport p => Sys2Proof.Machine.execIgmpReport p s
  | .ethFrameDiscard p => Sys2Proof.Machine.execEthFrameDiscard p s
  | .st2110Packet d => Sys2Proof.Machine.execSt2110Packet d s
  | .metadataDatagram p sent => Sys2Proof.Machine.execMetadataDatagram p sent s
  | .captureRecord r room => Sys2Proof.Machine.execCaptureRecord r room s
  | .dumpDone ok => Sys2Proof.Machine.execDumpDone ok s
  | .snapshotComplete o => Sys2Proof.Machine.execSnapshotComplete o s
  | .lockWaitTimeout l cseq => Sys2Proof.Machine.execLockWaitTimeout l cseq s
  | .ringResetDone f => Sys2Proof.Machine.execRingResetDone f s
  | .cmdTail f v => Sys2Proof.Machine.execCmdTail f v s
  | .ringReset f => Sys2Proof.Machine.execRingReset f s
  | .poolDoorbell f v => Sys2Proof.Machine.execPoolDoorbell f v s
  | .registerWrite p off bytes v => Sys2Proof.Machine.execRegisterWrite p off bytes v s
  | .registerLowRead p off => Sys2Proof.Machine.execRegisterLowRead p off s
  | .fcFseqRead site => Sys2Proof.Machine.execFcFseqRead site s
  | .badAccessRead => Sys2Proof.Machine.execBadAccessRead s
  | .logDropRead f => Sys2Proof.Machine.execLogDropRead f s
  | .capDropRead => Sys2Proof.Machine.execCapDropRead s
  | .lockAcq p l => Sys2Proof.Machine.execLockAcq p l s
  | .lockReleaseWrite p l => Sys2Proof.Machine.execLockReleaseWrite p l s
  | .lockForceWrite p l => Sys2Proof.Machine.execLockForceWrite p l s
  | .memData site w ecc => Sys2Proof.Machine.execMemData site w ecc s
  | .unitCtrlUnitReset site => Sys2Proof.Machine.execUnitCtrlUnitReset site s
  | .warmReset => Sys2Proof.Machine.execWarmReset s
  | .capEn on => Sys2Proof.Machine.execCapEn on s
  | .dumpGo => Sys2Proof.Machine.execDumpGo s
  | .bootGo => Sys2Proof.Machine.execBootGo s
  | .writePacket bytes => Sys2Proof.Machine.execWritePacket bytes s
  | .readReply => Sys2Proof.Machine.execReadReply s
  | .readStatus => Sys2Proof.Machine.execReadStatus s
  | .readReg off => Sys2Proof.Machine.execReadReg off s
  | .writeReg off v => Sys2Proof.Machine.execWriteReg off v s
  | .readResult off n => Sys2Proof.Machine.execReadResult off n s
  | .nop k => Sys2Proof.Machine.execNop k s
  | .streamStart k stream policy switching oqLines pool when_ atDtb => Sys2Proof.Machine.execStreamStart k stream policy switching oqLines pool when_ atDtb s
  | .streamStop k target kind immediate => Sys2Proof.Machine.execStreamStop k target kind immediate s
  | .ecloseVariant k owner slot when_ => Sys2Proof.Machine.execEcloseVariant k owner slot when_ s
  | .statsSnapshot k owner stream which vmask dest length => Sys2Proof.Machine.execStatsSnapshot k owner stream which vmask dest length s
  | .lockAcquire k lock wait timeoutUs => Sys2Proof.Machine.execLockAcquire k lock wait timeoutUs s
  | .lockRelease k lock => Sys2Proof.Machine.execLockRelease k lock s
  | .lockQuery k lock => Sys2Proof.Machine.execLockQuery k lock s
  | .contextAbort k owner => Sys2Proof.Machine.execContextAbort k owner s
  | .queueFlush k cls index => Sys2Proof.Machine.execQueueFlush k cls index s
  | .dropThreshold k stream lines => Sys2Proof.Machine.execDropThreshold k stream lines s
  | .unitCounters k owner dest length => Sys2Proof.Machine.execUnitCounters k owner dest length s
  | .entityWrite k owner table row count src => Sys2Proof.Machine.execEntityWrite k owner table row count src s
  | .exponentTrim k owner group t => Sys2Proof.Machine.execExponentTrim k owner group t s
  | .fwNop k => Sys2Proof.Machine.execFwNop k s
  | .fnGrant k fn expert => Sys2Proof.Machine.execFnGrant k fn expert s
  | .vfMap k map => Sys2Proof.Machine.execVfMap k map s
  | .headAssign k head fn => Sys2Proof.Machine.execHeadAssign k head fn s
  | .poolAssign k pool fn => Sys2Proof.Machine.execPoolAssign k pool fn s
  | .poolSetup k pool ringOrder cplOrder ring cpl => Sys2Proof.Machine.execPoolSetup k pool ringOrder cplOrder ring cpl s
  | .modeSet k axis value => Sys2Proof.Machine.execModeSet k axis value s
  | .powerMode k mode => Sys2Proof.Machine.execPowerMode k mode s
  | .logRing k order filter dest => Sys2Proof.Machine.execLogRing k order filter dest s
  | .hbmWrite k length hbm data => Sys2Proof.Machine.execHbmWrite k length hbm data s
  | .headAttach k head params => Sys2Proof.Machine.execHeadAttach k head params s
  | .headDetach k head => Sys2Proof.Machine.execHeadDetach k head s
  | .headAuth k head => Sys2Proof.Machine.execHeadAuth k head s
  | .headFsync k head enable widthUs periodNs t0 => Sys2Proof.Machine.execHeadFsync k head enable widthUs periodNs t0 s
  | .headGain k head gain => Sys2Proof.Machine.execHeadGain k head gain s
  | .headExposure k head gain lines => Sys2Proof.Machine.execHeadExposure k head gain lines s
  | .headActuator k head mode triggerLine confMin actMin actMax => Sys2Proof.Machine.execHeadActuator k head mode triggerLine confMin actMin actMax s
  | .headLens k head lens => Sys2Proof.Machine.execHeadLens k head lens s
  | .slotDefine k slot where_ length src => Sys2Proof.Machine.execSlotDefine k slot where_ length src s
  | .slotUndefine k slot => Sys2Proof.Machine.execSlotUndefine k slot s
  | .slotStage k slot decl memError => Sys2Proof.Machine.execSlotStage k slot decl memError s
  | .slotUnstage k slot => Sys2Proof.Machine.execSlotUnstage k slot s
  | .contextLoad k slot replicas flags owner dest binds => Sys2Proof.Machine.execContextLoad k slot replicas flags owner dest binds s
  | .contextUnload k owner => Sys2Proof.Machine.execContextUnload k owner s
  | .placeVariant k owner slot => Sys2Proof.Machine.execPlaceVariant k owner slot s
  | .unplaceVariant k owner slot => Sys2Proof.Machine.execUnplaceVariant k owner slot s
  | .sceneSet k stream model hold confMin table => Sys2Proof.Machine.execSceneSet k stream model hold confMin table s
  | .replaySet k stream where_ loop frames frameBytes src => Sys2Proof.Machine.execReplaySet k stream where_ loop frames frameBytes src s
  | .patternSet k stream pattern seed => Sys2Proof.Machine.execPatternSet k stream pattern seed s
  | .modelLoad k owner model where_ length src memError => Sys2Proof.Machine.execModelLoad k owner model where_ length src memError s
  | .entityKey k owner table key => Sys2Proof.Machine.execEntityKey k owner table key s
  | .timeMode k mode policy slewPpm thresholdNs => Sys2Proof.Machine.execTimeMode k mode policy slewPpm thresholdNs s
  | .timeAdjust k kind value => Sys2Proof.Machine.execTimeAdjust k kind value s
  | .st2110Sender k sender enable record => Sys2Proof.Machine.execSt2110Sender k sender enable record s
  | .loadPlaced k slot replicas flags owner dest binds lists => Sys2Proof.Machine.execLoadPlaced k slot replicas flags owner dest binds lists s
  | .placeVariantPlaced k owner slot lists => Sys2Proof.Machine.execPlaceVariantPlaced k owner slot lists s
  | .slotPatch k owner entries => Sys2Proof.Machine.execSlotPatch k owner entries s
  | .i3cRaw k head address wlen rlen data reply => Sys2Proof.Machine.execI3cRaw k head address wlen rlen data reply s
  | .dvfsSet k field point => Sys2Proof.Machine.execDvfsSet k field point s
  | .fieldReset k field => Sys2Proof.Machine.execFieldReset k field s
  | .unitReset k site => Sys2Proof.Machine.execUnitReset k site s
  | .ethRaw k port length src => Sys2Proof.Machine.execEthRaw k port length src s
  | .yallekAlign k port record => Sys2Proof.Machine.execYallekAlign k port record s
  | .porRelease bootSrc => Sys2Proof.Machine.execPorRelease bootSrc s
  | .yallekBlockLock p => Sys2Proof.Machine.execYallekBlockLock p s
  | .dtbOffsetRemoved => Sys2Proof.Machine.execDtbOffsetRemoved s
  | .hostMemoryRead r data => Sys2Proof.Machine.execHostMemoryRead r data s
  | .pcieLinkUp ep => Sys2Proof.Machine.execPcieLinkUp ep s
  | .pciePerstRelease => Sys2Proof.Machine.execPciePerstRelease s
  | .hbmTrainingDone k ok => Sys2Proof.Machine.execHbmTrainingDone k ok s

end Sys2Proof.Machine
end

