-- ==== Sys2Proof/Safety.lean ====
section
/-! DEFINITION. What counts as a safe run, in the terms the statements use: no step of it faults or is refused; and which
components of the state each command may change. -/

namespace Sys2Proof

/-- The state after `n` steps, if every one of them answers a next state. -/
def runN : Nat → Machine.State → Option Machine.State
  | 0, s => some s
  | n + 1, s =>
    match Machine.step s with
    | .next t => runN n t
    | _ => none

/-- A state from which no run stops. -/
def NeverStops (s : Machine.State) : Prop := ∀ n, (runN n s).isSome

/-- A command answers a next state. -/
def Completes (i : Instr) (s : Machine.State) : Prop := ∃ t, Machine.exec i s = .next t

/-- The components of the machine's state. -/
inductive Zone where
  | pending | freeCount | kcycles | part | boot | modes | supply | dtb | seqr | greg | cspi | cap | fields | lostClocks | heads | store |
  streams | units | routers | gates | groups | origins | edges | tails | arbs | queues | fns | locks | pools | slots | ctxs | epochs |
  hbmStacks | hbm | hostMem | hostIn | yports | eths | senders | eps | vfMap | vfEnable
  deriving DecidableEq, Repr

namespace Zone

/-- A component is the same in two states. -/
def same (z : Zone) (s t : Machine.State) : Prop :=
  match z with
  | .pending => s.pending = t.pending
  | .freeCount => s.freeCount = t.freeCount
  | .kcycles => s.kcycles = t.kcycles
  | .part => s.part = t.part
  | .boot => s.boot = t.boot
  | .modes => s.modes = t.modes
  | .supply => s.supply = t.supply
  | .dtb => s.dtb = t.dtb
  | .seqr => s.seqr = t.seqr
  | .greg => s.greg = t.greg
  | .cspi => s.cspi = t.cspi
  | .cap => s.cap = t.cap
  | .fields => s.fields = t.fields
  | .lostClocks => s.lostClocks = t.lostClocks
  | .heads => s.heads = t.heads
  | .store => s.store = t.store
  | .streams => s.streams = t.streams
  | .units => s.units = t.units
  | .routers => s.routers = t.routers
  | .gates => s.gates = t.gates
  | .groups => s.groups = t.groups
  | .origins => s.origins = t.origins
  | .edges => s.edges = t.edges
  | .tails => s.tails = t.tails
  | .arbs => s.arbs = t.arbs
  | .queues => s.queues = t.queues
  | .fns => s.fns = t.fns
  | .locks => s.locks = t.locks
  | .pools => s.pools = t.pools
  | .slots => s.slots = t.slots
  | .ctxs => s.ctxs = t.ctxs
  | .epochs => s.epochs = t.epochs
  | .hbmStacks => s.hbmStacks = t.hbmStacks
  | .hbm => s.hbm = t.hbm
  | .hostMem => s.hostMem = t.hostMem
  | .hostIn => s.hostIn = t.hostIn
  | .yports => s.yports = t.yports
  | .eths => s.eths = t.eths
  | .senders => s.senders = t.senders
  | .eps => s.eps = t.eps
  | .vfMap => s.vfMap = t.vfMap
  | .vfEnable => s.vfEnable = t.vfEnable

def all : List Zone :=
  [.pending, .freeCount, .kcycles, .part, .boot, .modes, .supply, .dtb, .seqr, .greg, .cspi, .cap, .fields, .lostClocks, .heads, .store,
   .streams, .units, .routers, .gates, .groups, .origins, .edges, .tails, .arbs, .queues, .fns, .locks, .pools, .slots, .ctxs, .epochs,
   .hbmStacks, .hbm, .hostMem, .hostIn, .yports, .eths, .senders, .eps, .vfMap, .vfEnable]

/-- Every component but these. -/
def allBut (l : List Zone) : List Zone := all.filter (fun z => !l.contains z)

/-- What the end of a command may touch: the sequencer that takes its reply, and the ring that held it (R336, R337). -/
def replied : List Zone := [.seqr, .cspi, .fns]

end Zone

/-- The components that a command may change; it leaves every other one as it is. A component holds all entries of its kind. -/
def writes (i : Instr) : List Zone :=
  match i with
  | .headInserted .. | .fsyncPulse .. | .fsyncPulseEnd .. | .i3cTransferComplete .. =>
      [.heads]
  | .headRemoved .. =>
      Zone.replied ++ [.heads, .streams, .locks, .ctxs, .yports]
  | .headInt .. | .headIbi .. | .overrun .. =>
      [.seqr]
  | .frameStart .. | .pacedLineStart .. | .sporeLine .. =>
      Zone.replied ++ [.cap, .heads, .streams, .groups, .origins, .ctxs, .yports]
  | .frameEnd .. | .lineStartPacket .. | .lineEndPacket .. | .linePayload .. | .linkTimeout .. =>
      Zone.replied ++ [.heads, .streams, .ctxs]
  | .embeddedData .. | .focusWrite .. | .exposureWrite .. =>
      [.heads, .streams]
  | .missingLineSupply .. | .lineTake .. =>
      [.streams]
  | .headTempRead .. =>
      [.seqr, .heads, .store]
  | .ledgerCommit .. =>
      Zone.replied ++ [.heads, .store, .locks]
  | .ledgerReadback .. =>
      Zone.replied ++ [.heads, .store, .locks, .yports]
  | .attachSettled .. =>
      Zone.replied ++ [.freeCount, .heads, .store, .streams, .hostMem]
  | .authPoll .. | .authTimeout .. | .streamStop .. | .headDetach .. =>
      Zone.replied ++ [.heads, .streams, .groups, .origins, .ctxs, .yports]
  | .reauthentication .. =>
      [.freeCount, .heads]
  | .edgeLineAdmit .. | .tailLineRelease .. =>
      Zone.replied ++ [.freeCount, .cap, .heads, .streams, .units, .gates, .groups, .origins, .edges, .tails, .queues, .pools,
      .ctxs, .hostMem, .yports]
  | .replayPrefetch .. =>
      [.seqr, .streams, .groups, .origins, .hbmStacks, .yports]
  | .flitForward .. =>
      Zone.replied ++ [.freeCount, .greg, .fields, .heads, .streams, .units, .routers, .gates, .groups, .origins, .edges, .tails,
      .queues, .pools, .ctxs, .hostMem, .yports]
  | .flitEject .. =>
      Zone.replied ++ [.freeCount, .greg, .cap, .heads, .streams, .units, .routers, .gates, .groups, .origins, .edges, .tails,
      .queues, .pools, .ctxs, .hbm, .hostMem, .yports]
  | .sideLinkFlit .. | .microNop .. | .pop .. | .push .. | .ldw .. | .mac .. | .acc .. | .bias .. | .req .. | .reqDrain .. | .act .. |
    .pool .. | .add .. | .mul .. | .mov .. | .loop .. | .endl .. | .emit .. | .sync .. | .rot .. | .dwc .. | .stats .. | .tcmp .. | .tleaf ..
    | .progUe .. | .generatorSequence .. | .statsRecordSend .. | .treeEvalStart .. =>
      Zone.replied ++ [.freeCount, .greg, .heads, .streams, .units, .gates, .groups, .origins, .edges, .tails, .queues, .pools,
      .ctxs, .hostMem, .yports]
  | .gateWrite .. =>
      Zone.replied ++ [.freeCount, .heads, .streams, .units, .routers, .gates, .groups, .origins, .edges, .tails, .queues, .pools,
      .ctxs, .hostMem, .yports]
  | .gateFlitVisible .. =>
      [.streams, .gates]
  | .gateSlotFreed .. =>
      [.units, .gates]
  | .exchangeCreditReturn .. | .statsBankRelease .. =>
      [.units]
  | .tagDeadlock .. | .spill .. | .illegalOp .. | .outputFlit .. | .unitCtrlUnitReset .. | .contextAbort .. | .unitReset .. =>
      Zone.replied ++ [.freeCount, .heads, .streams, .units, .gates, .groups, .origins, .edges, .tails, .queues, .pools, .ctxs,
      .hostMem, .yports]
  | .statsBankClose .. =>
      [.seqr, .units, .ctxs]
  | .scrubRead .. | .serviceAccess .. =>
      [.seqr, .greg, .streams, .units, .arbs, .ctxs]
  | .treeResultPost .. =>
      [.seqr, .heads, .streams, .ctxs]
  | .sceneLatch .. =>
      [.seqr, .streams, .ctxs]
  | .eclosionStart .. =>
      Zone.replied ++ [.freeCount, .supply, .fields, .streams, .units, .routers, .gates, .groups, .origins, .arbs, .ctxs, .epochs,
      .yports]
  | .eclosionDone .. =>
      Zone.replied ++ [.freeCount, .supply, .fields, .heads, .streams, .units, .gates, .groups, .origins, .edges, .tails, .arbs,
      .queues, .pools, .ctxs, .hostMem, .yports]
  | .contextCocoon .. =>
      Zone.replied ++ [.supply, .fields, .streams, .units, .groups, .origins, .ctxs, .yports]
  | .contextAborted .. =>
      Zone.replied ++ [.supply, .fields, .streams, .groups, .origins, .ctxs, .yports]
  | .contextReleased .. =>
      Zone.replied ++ [.supply, .fields, .streams, .units, .routers, .gates, .groups, .origins, .ctxs, .yports]
  | .ecloseTimeout .. | .ecloseVariant .. | .exponentTrim .. | .placeVariant .. | .unplaceVariant .. | .entityKey .. |
    .placeVariantPlaced .. =>
      Zone.replied ++ [.ctxs]
  | .stallAssert .. =>
      [.seqr, .streams, .groups, .yports]
  | .freezeSet .. =>
      [.streams, .units, .gates]
  | .stallMinHoldEnd .. =>
      [.groups, .yports]
  | .freezeClear .. =>
      Zone.replied ++ [.freeCount, .greg, .cap, .heads, .streams, .units, .gates, .groups, .origins, .edges, .tails, .queues,
      .pools, .ctxs, .hbm, .hostMem, .yports]
  | .stallOff .. =>
      [.seqr, .groups]
  | .arbitration .. =>
      [.streams, .arbs, .fns, .pools, .hostMem]
  | .backoffEnd .. | .forced .. =>
      [.arbs]
  | .withdraw .. =>
      [.streams, .arbs, .pools]
  | .queueWordWrite .. | .queueAbort .. =>
      [.arbs, .queues]
  | .queueReserve .. | .queueSlotWrite .. =>
      [.queues]
  | .queueRead .. =>
      [.freeCount, .seqr, .arbs, .queues, .fns, .hbm, .hostMem]
  | .outputLineSend .. =>
      [.freeCount, .seqr, .streams, .groups, .origins, .fns, .pools, .hostMem, .yports]
  | .poolDescriptorFetch .. =>
      [.pools]
  | .cmdFetch .. =>
      [.seqr, .fns]
  | .cmdDispatch .. =>
      Zone.replied ++ [.arbs, .ctxs]
  | .replyWrite .. =>
      [.fns, .hostMem]
  | .replyInterrupt .. | .logInterrupt .. | .completionInterrupt .. | .cmdTail .. | .ringReset .. =>
      [.fns]
  | .eventRecord .. =>
      Zone.replied ++ [.boot, .cap, .streams, .arbs, .hostMem, .eths]
  | .logDistribute .. =>
      [.seqr, .fns, .hbm, .hostMem]
  | .frameRecord .. =>
      [.seqr, .streams]
  | .clkLoss .. | .clkFast .. | .registerWrite .. | .registerLowRead .. | .fcFseqRead .. | .badAccessRead .. | .logDropRead .. | .readReg ..
    | .writeReg .. =>
      Zone.allBut [.pending, .kcycles, .part]
  | .clkRestored .. =>
      Zone.replied ++ [.freeCount, .boot, .supply, .fields, .lostClocks, .heads, .streams, .units, .gates, .groups, .origins,
      .edges, .tails, .queues, .pools, .ctxs, .hbmStacks, .hostMem, .yports, .eths, .senders]
  | .xinRestored .. | .bor .. | .por .. | .tempReading .. | .thermalRecovery .. | .mcRestart .. | .pcieAPerst .. | .warmReset .. =>
      Zone.allBut [.pending, .freeCount, .kcycles, .part, .hostMem]
  | .dtbStep .. =>
      Zone.replied ++ [.dtb, .heads, .streams]
  | .dtbShadowRealign .. | .dtbOffsetRemoved .. =>
      [.dtb]
  | .ptpSync .. =>
      [.freeCount, .dtb, .eths]
  | .ptpDelayReq .. | .arpRequest .. | .igmpReport .. | .ethFrameDiscard .. =>
      [.eths]
  | .ptpAnnounce .. | .ethLinkChange .. =>
      [.seqr, .eths]
  | .ptpHoldover .. =>
      [.dtb, .seqr, .eths]
  | .ptpPort .. =>
      [.dtb, .seqr]
  | .vidSettled .. | .dvfsSlewDone .. | .thermalClear .. =>
      [.supply, .seqr, .fields, .streams, .yports]
  | .pwarn .. | .vddArrWarning .. | .vrFault .. =>
      [.supply, .seqr, .greg, .heads, .streams, .yports]
  | .diapauseExit .. =>
      [.supply, .seqr, .heads, .streams, .yports]
  | .borRelease .. =>
      [.boot, .supply, .eps]
  | .startupComplete .. =>
      [.boot, .seqr]
  | .qspiBootRead .. | .hostBootRead .. =>
      [.boot, .seqr, .fields, .hbmStacks]
  | .flr .. =>
      Zone.replied ++ [.freeCount, .greg, .heads, .streams, .units, .gates, .groups, .origins, .edges, .tails, .queues, .locks,
      .pools, .slots, .ctxs, .hostMem, .yports]
  | .pcieBPerst .. | .pcieLinkDown .. =>
      Zone.replied ++ [.freeCount, .greg, .heads, .streams, .units, .gates, .groups, .origins, .edges, .tails, .queues, .locks,
      .pools, .slots, .ctxs, .hostMem, .yports, .eps]
  | .hbmBurst .. =>
      [.seqr, .arbs, .hbmStacks, .hbm]
  | .hbmPowerDown .. | .hbmRefresh .. =>
      [.hbmStacks]
  | .yallekIdentSend .. | .yallekBringupTimeout .. | .nakRepeat .. | .ackSend .. | .syncEntryVisible .. | .yallekBlockLock .. =>
      [.yports]
  | .sporeIdent .. | .sporeNak .. =>
      [.seqr, .groups, .origins, .yports]
  | .sporeFlit .. | .sporeAck .. | .sporeStall .. =>
      [.groups, .origins, .yports]
  | .sporeLock .. =>
      Zone.replied ++ [.groups, .origins, .locks, .yports]
  | .sporeBind .. =>
      [.supply, .seqr, .fields, .streams, .groups, .origins, .ctxs, .yports]
  | .sporeUnbind .. | .fieldReset .. =>
      Zone.replied ++ [.freeCount, .supply, .fields, .heads, .streams, .units, .gates, .groups, .origins, .edges, .tails, .queues,
      .pools, .ctxs, .hostMem, .yports]
  | .peerReset .. | .yallekDown .. =>
      Zone.replied ++ [.freeCount, .supply, .greg, .fields, .heads, .streams, .units, .gates, .groups, .origins, .edges, .tails,
      .queues, .locks, .pools, .ctxs, .hostMem, .yports]
  | .sporeAlign .. =>
      Zone.replied ++ [.groups, .origins, .yports]
  | .sporeRetransmitTimeout .. =>
      [.seqr, .yports]
  | .flitSporeClose .. =>
      [.units, .yports]
  | .st2110Packet .. =>
      [.seqr, .streams, .groups, .origins, .yports, .eths, .senders]
  | .metadataDatagram .. =>
      [.freeCount, .seqr, .eths]
  | .captureRecord .. =>
      [.seqr, .cap, .hbm]
  | .dumpDone .. =>
      [.seqr, .cspi, .cap, .hostMem]
  | .snapshotComplete .. =>
      Zone.replied ++ [.units, .ctxs, .hostMem]
  | .lockWaitTimeout .. | .lockAcquire .. =>
      Zone.replied ++ [.locks]
  | .ringResetDone .. =>
      [.seqr, .queues, .fns]
  | .poolDoorbell .. =>
      [.fns, .pools]
  | .capDropRead .. =>
      [.greg, .cap]
  | .lockAcq .. =>
      [.greg, .locks]
  | .lockReleaseWrite .. | .lockRelease .. =>
      Zone.replied ++ [.locks, .yports]
  | .lockForceWrite .. =>
      Zone.replied ++ [.greg, .locks, .yports]
  | .memData .. =>
      [.freeCount, .seqr, .greg, .streams, .units, .arbs, .ctxs]
  | .capEn .. =>
      [.seqr, .cap]
  | .dumpGo .. =>
      [.cap]
  | .bootGo .. =>
      [.boot]
  | .writePacket .. =>
      [.seqr, .cspi]
  | .readReply .. | .readStatus .. =>
      [.cspi]
  | .readResult .. =>
      [.freeCount, .cspi]
  | .nop .. | .lockQuery .. | .fwNop .. | .fnGrant .. | .logRing .. =>
      Zone.replied
  | .streamStart .. =>
      Zone.replied ++ [.streams, .ctxs]
  | .statsSnapshot .. =>
      Zone.replied ++ [.units, .ctxs]
  | .queueFlush .. =>
      Zone.replied ++ [.freeCount, .streams, .groups, .origins, .queues, .pools, .hostMem, .yports]
  | .dropThreshold .. | .sceneSet .. | .replaySet .. | .patternSet .. =>
      Zone.replied ++ [.streams]
  | .unitCounters .. =>
      Zone.replied ++ [.freeCount, .hostMem]
  | .entityWrite .. =>
      Zone.replied ++ [.units, .hostIn]
  | .vfMap .. =>
      Zone.replied ++ [.vfMap]
  | .headAssign .. | .headFsync .. | .headGain .. | .headExposure .. | .headActuator .. | .headLens .. | .i3cRaw .. =>
      Zone.replied ++ [.heads]
  | .poolAssign .. | .poolSetup .. =>
      Zone.replied ++ [.pools]
  | .modeSet .. =>
      Zone.replied ++ [.modes, .supply, .fields, .heads, .streams, .groups, .origins, .ctxs, .yports]
  | .powerMode .. =>
      Zone.replied ++ [.modes, .supply, .fields, .streams, .hbmStacks, .yports]
  | .hbmWrite .. =>
      Zone.replied ++ [.hbmStacks, .hbm]
  | .headAttach .. =>
      Zone.replied ++ [.heads, .locks, .yports]
  | .headAuth .. =>
      Zone.replied ++ [.freeCount, .heads]
  | .slotDefine .. | .slotUndefine .. | .slotUnstage .. =>
      Zone.replied ++ [.slots]
  | .slotStage .. =>
      Zone.replied ++ [.slots, .hostIn]
  | .contextLoad .. | .loadPlaced .. =>
      Zone.replied ++ [.supply, .fields, .heads, .streams, .groups, .origins, .ctxs, .yports]
  | .contextUnload .. =>
      Zone.replied ++ [.ctxs, .yports]
  | .modelLoad .. =>
      Zone.replied ++ [.units, .ctxs, .hostIn]
  | .timeMode .. | .timeAdjust .. =>
      Zone.replied ++ [.dtb]
  | .st2110Sender .. =>
      Zone.replied ++ [.eths, .senders]
  | .slotPatch .. =>
      Zone.replied ++ [.routers]
  | .dvfsSet .. =>
      Zone.replied ++ [.supply, .fields, .streams, .yports]
  | .ethRaw .. =>
      Zone.replied ++ [.hostIn, .eths]
  | .yallekAlign .. =>
      Zone.replied ++ [.yports]
  | .porRelease .. =>
      [.boot, .supply, .seqr, .eps]
  | .hostMemoryRead .. =>
      [.streams, .groups, .origins, .hostIn, .yports]
  | .pcieLinkUp .. | .pciePerstRelease .. =>
      [.eps]
  | .hbmTrainingDone .. =>
      [.boot, .seqr, .hbmStacks]

/-- One entry of a component: a compute unit, a lock, an arbiter, a framed queue, a head, a stream, a slot, a context, a pool, a Yallek
port, an Ethernet port, a function, an HBM stack. -/
inductive Entry where
  | unit (n : Nat) | lock (n : Nat) | arb (n : Nat) | queue (n : Nat) | head (n : Nat) | strm (n : Nat) | slot (n : Nat) | ctx (n : Nat)
  | pool (n : Nat) | yport (n : Nat) | eth (n : Nat) | fn (n : Nat) | stack (n : Nat)
  deriving DecidableEq, Repr

/-- Every other entry of the component is the same in two states. A unit's detection may set its context in FAULT, with all its units,
where the mode says so (R289). -/
def Entry.othersSame (e : Entry) (s t : Machine.State) : Prop :=
  match e with
  | .unit n => s.modes.hazFault = false → ∀ j, j ≠ n → t.unit j = s.unit j
  | .lock n => ∀ j, j ≠ n → t.lock j = s.lock j
  | .arb n => ∀ j, j ≠ n → t.arb j = s.arb j
  | .queue n => ∀ j, j ≠ n → t.queue j = s.queue j
  | .head n => ∀ j, j ≠ n → t.head j = s.head j
  | .strm n => ∀ j, j ≠ n → t.strm j = s.strm j
  | .slot n => ∀ j, j ≠ n → t.slot j = s.slot j
  | .ctx n => ∀ j, j ≠ n → t.ctx j = s.ctx j
  | .pool n => ∀ j, j ≠ n → t.pool j = s.pool j
  | .yport n => ∀ j, j ≠ n → t.yport j = s.yport j
  | .eth n => ∀ j, j ≠ n → t.eth j = s.eth j
  | .fn n => ∀ j, j ≠ n → t.fn j = s.fn j
  | .stack n => ∀ j, j ≠ n → t.stackOf j = s.stackOf j

/-- The entry that a command names, where it changes no other entry of that component. -/
def entryOf (i : Instr) : Option Entry :=
  match i with
  | .microNop x _ | .pop x _ | .push x _ | .ldw x _ | .mac x _ | .acc x _ | .bias x _ | .req x _ | .reqDrain x | .act x _ | .pool x _ | .add x _
    | .mul x _ | .mov x _ | .loop x _ | .endl x _ | .emit x _ | .sync x _ | .rot x _ | .dwc x _ | .stats x _ | .tcmp x _ | .tleaf x _
    | .statsRecordSend x | .statsBankRelease x => some (.unit x)
  | .lockAcq _ l | .lockReleaseWrite _ l | .lockForceWrite _ l => some (.lock l)
  | .lockAcquire _ l _ _ | .lockRelease _ l => some (.lock l.toNat)
  | .arbitration a _ _ | .backoffEnd a _ | .forced a _ | .withdraw a _ => some (.arb (Machine.arbCode a))
  | .queueRead (.ctrl _ _) => none
  | .queueWordWrite q _ _ _ | .queueAbort q | .queueReserve q _ _ | .queueSlotWrite q _ _ _ | .queueRead q => some (.queue (Machine.queueCode q))
  | .headInserted h | .headRemoved h | .fsyncPulse h | .fsyncPulseEnd h | .headTempRead h _ | .ledgerCommit h | .ledgerReadback h _
    | .attachSettled h _ | .authPoll h _ | .reauthentication h | .exposureWrite h | .i3cTransferComplete h | .embeddedData h _ _ _ _ _ => some (.head h)
  | .headAssign _ h _ | .headAttach _ h _ | .headDetach _ h | .headAuth _ h | .headFsync _ h _ _ _ _ | .headGain _ h _ | .headExposure _ h _ _
    | .headActuator _ h _ _ _ _ _ | .headLens _ h _ | .i3cRaw _ h _ _ _ _ _ => some (.head h.toNat)
  | .lineTake st | .missingLineSupply st => some (.strm st)
  | .sceneSet _ st _ _ _ _ | .replaySet _ st _ _ _ _ _ | .patternSet _ st _ _ | .dropThreshold _ st _ | .streamStart _ st _ _ _ _ _ _ =>
      some (.strm st.toNat)
  | .slotDefine _ n _ _ _ | .slotUndefine _ n | .slotStage _ n _ _ | .slotUnstage _ n => some (.slot n.toNat)
  | .ecloseVariant _ o _ _ | .statsSnapshot _ o _ _ _ _ _ | .exponentTrim _ o _ _ | .placeVariant _ o _ | .placeVariantPlaced _ o _ _
    | .unplaceVariant _ o _ | .modelLoad _ o _ _ _ _ _ | .entityKey _ o _ _ | .contextUnload _ o => some (.ctx o.toNat)
  | .poolAssign _ p _ | .poolSetup _ p _ _ _ _ => some (.pool p.toNat)
  | .poolDescriptorFetch p _ => some (.pool p)
  | .yallekIdentSend p | .yallekBringupTimeout p | .nakRepeat p | .ackSend p | .syncEntryVisible p _ | .yallekBlockLock p => some (.yport p)
  | .yallekAlign _ p _ => some (.yport p.toNat)
  | .ptpDelayReq p _ _ | .arpRequest p _ _ _ | .igmpReport p | .ethFrameDiscard p | .ethLinkChange p _ => some (.eth p)
  | .replyWrite f _ | .replyInterrupt f | .logInterrupt f | .completionInterrupt f | .cmdTail f _ | .ringReset f => some (.fn f)
  | .hbmBurst k _ | .hbmPowerDown k | .hbmRefresh k => some (.stack k)
  | _ => none

end Sys2Proof
end

