-- ==== Sys2Proof/Certificates/Slice0/Obligations.lean ====
section
/-! DEFINITION. The statements for the provers. -/

section Statements

open Sys2Proof Sys2Proof.Machine

/-- A packet with a good header reaches a declared channel of a READY head (R29, R32). -/
abbrev Receives (s : State) (h : HeadId) (vc : Fin 4) (d : VcDecl) : Prop :=
  s.linkUp h = true ∧ (s.head h).state = .ready ∧ (s.head h).hsDiscard = false ∧ (s.head h).chan vc = some d

/-- The line 0 of a frame, with no flags. -/
def plainLine (fseq : B16) (stamp : B64) (codes : List B16) : Line := { fseq := fseq, line := 0, stamp := stamp, codes := codes }

/-- A Spore that reaches an up port sound and of the type it should be; a sequenced one with the number expected (R383-R385). -/
abbrev SporeComes (s : State) (p : Fin 4) (typ : Nat) (seqd : Bool) (b : Bytes) : Prop :=
  s.yLive p = true ∧ (s.yport p).up = true ∧ sporeOk b = true ∧ byteAt b 0 = typ ∧
    (seqd = true → BitVec.ofNat 16 (fieldLe b 4 2) = (s.yport p).rxSeq)

/-- A unit issues `word`, which stands at `pc`: its WAITTAGs match, the instruction is legal, and `v` is the unit at the issue cycle, when the
entries are bound and the block the instruction needs is free (R94, R251, R255, R259, R274). No detection puts its context in FAULT: the machine
runs in PRODUCTION mode, or in HAZARD mode with LOG (R286, R289). -/
def Issues (s : State) (site : Site) (w : Waits) (pc word : Nat) (v : Machine.Unit) : Prop :=
  ∃ u, s.mayIssue site = true ∧ (s.unit site).group.word = word ∧ (s.unit site).group.pc = pc ∧
    (s.unit site).badWait (kindOf site) (s.unit site).group = false ∧
    Unit.bindAll (needs (s.unit site).group.waits) (s.unit site) = (none, u) ∧
    v = (u.advance (u.busyUntil word) w).untilCyc (u.busyUntil word) ∧ v.illegal (kindOf site) word = false ∧
    (s.modes.hazard && s.modes.hazFault) = false

/-- What an instruction that is no ENDL leaves of the program's course: the next program counter, and its active cycles. -/
abbrev GoesOn (v t : Machine.Unit) (pc cost : Nat) : Prop := t.pc = v.nextPc pc ∧ t.active = v.active + BitVec.ofNat 64 cost ∧ t.cyc = v.cyc + cost

/-- The flits a unit still has to send on an inject lane, in order (R129). -/
def laneFlits (u : Machine.Unit) (lane : Nat) : List Flit := Tab.get [] u.lanes lane ++ (u.pipe.filter (fun p => p.1 == lane)).map (fun p => p.2)

/-- The state in which an instruction takes effect: the unit's entries are bound, and a match that opens its frame has done so (R94, R203). -/
def issueState (s : State) (site : Site) (v : Machine.Unit) : State :=
  let u := { v with issuePc := ((s.unit site).pc, (s.unit site).group.pc) }
  if !(s.unit site).cur.opened && v.cur.opened then (s.setUnit site u).unitOpens site else s.setUnit site u

/-- A command packet may run: the machine is READY, and its function may issue the opcode (R335, R436). -/
abbrev Allowed (s : State) (k : Pkt) (op : Nat) : Prop := s.ready = true ∧ s.denied (who k) op = false

/-- A stream that is present, of the packet's function, and bound to a context that runs (R303, R335). -/
abbrev BoundStream (s : State) (k : Pkt) (st : Nat) (c : Ctx) : Prop :=
  st < s.part.variant.streams ∧ st < 64 ∧ mayAct (who k) (s.streamFn st) = true ∧ s.boundCtx st = some c

/-- A context of the packet's function, not being released (R302, R335). -/
abbrev OwnContext (s : State) (k : Pkt) (o : Nat) (c : Ctx) : Prop :=
  o < 16 ∧ s.ctx o = some c ∧ c.state ≠ .releasing ∧ mayAct (who k) c.fn = true

/-- A head that is present on this variant, of the packet's function (R3, R335). -/
abbrev OwnHead (s : State) (k : Pkt) (h : Nat) : Prop := h < 16 ∧ h < s.part.variant.heads ∧ mayAct (who k) (s.head h).fn = true

/-- A slot that its owner names (R293). -/
abbrev OwnSlot (s : State) (k : Pkt) (n : Nat) : Prop := n < 64 ∧ ((s.slot n).state = .empty ∨ mayAct (who k) (s.slot n).fn = true)

/-- A staged image that a function may load with these bind entries (R301, R303). -/
abbrev Loadable (s : State) (k : Pkt) (n rep o : Nat) (dest : B64) (binds : List Bind) (m : Image) : Prop :=
  OwnSlot s k n ∧ (s.slot n).state = .staged ∧ (s.slot n).image = some m ∧ m.variant = false ∧ m.repMin ≤ rep ∧ rep ≤ m.repMax ∧
    destBad k dest = false ∧ firstFail (s.bindChecks k m (binds.take m.streams)) = none ∧ s.bindsOk o m (binds.take m.streams) = true

/-- The packet and the opcode of a command that is an opcode row of Table 13-6. -/
def packetOf (i : Instr) : Option (Pkt × Nat) :=
  match i with
  | .nop k .. => some (k, 0x0000)
  | .streamStart k .. => some (k, 0x0001)
  | .streamStop k .. => some (k, 0x0002)
  | .ecloseVariant k .. => some (k, 0x0003)
  | .statsSnapshot k .. => some (k, 0x0004)
  | .lockAcquire k .. => some (k, 0x0005)
  | .lockRelease k .. => some (k, 0x0006)
  | .lockQuery k .. => some (k, 0x0007)
  | .fwNop k .. => some (k, 0x1000)
  | .fnGrant k .. => some (k, 0x1001)
  | .vfMap k .. => some (k, 0x1002)
  | .headAssign k .. => some (k, 0x1003)
  | .poolAssign k .. => some (k, 0x1004)
  | .poolSetup k .. => some (k, 0x1005)
  | .modeSet k .. => some (k, 0x1006)
  | .powerMode k .. => some (k, 0x1007)
  | .logRing k .. => some (k, 0x1008)
  | .hbmWrite k .. => some (k, 0x1010)
  | .headAttach k .. => some (k, 0x1100)
  | .headDetach k .. => some (k, 0x1101)
  | .headAuth k .. => some (k, 0x1102)
  | .headFsync k .. => some (k, 0x1103)
  | .headGain k .. => some (k, 0x1104)
  | .headExposure k .. => some (k, 0x1105)
  | .headActuator k .. => some (k, 0x1106)
  | .headLens k .. => some (k, 0x1107)
  | .slotDefine k .. => some (k, 0x1200)
  | .slotUndefine k .. => some (k, 0x1201)
  | .slotStage k .. => some (k, 0x1202)
  | .slotUnstage k .. => some (k, 0x1203)
  | .contextLoad k .. => some (k, 0x1204)
  | .contextUnload k .. => some (k, 0x1205)
  | .placeVariant k .. => some (k, 0x1206)
  | .unplaceVariant k .. => some (k, 0x1207)
  | .sceneSet k .. => some (k, 0x1208)
  | .replaySet k .. => some (k, 0x1209)
  | .patternSet k .. => some (k, 0x120A)
  | .modelLoad k .. => some (k, 0x1300)
  | .entityKey k .. => some (k, 0x1301)
  | .timeMode k .. => some (k, 0x1400)
  | .timeAdjust k .. => some (k, 0x1401)
  | .st2110Sender k .. => some (k, 0x1500)
  | .contextAbort k .. => some (k, 0x8001)
  | .queueFlush k .. => some (k, 0x8002)
  | .dropThreshold k .. => some (k, 0x8003)
  | .unitCounters k .. => some (k, 0x8004)
  | .entityWrite k .. => some (k, 0x8005)
  | .exponentTrim k .. => some (k, 0x8006)
  | .loadPlaced k .. => some (k, 0x9000)
  | .placeVariantPlaced k .. => some (k, 0x9001)
  | .slotPatch k .. => some (k, 0x9002)
  | .i3cRaw k .. => some (k, 0x9003)
  | .dvfsSet k .. => some (k, 0x9004)
  | .fieldReset k .. => some (k, 0x9005)
  | .unitReset k .. => some (k, 0x9006)
  | .ethRaw k .. => some (k, 0x9007)
  | .yallekAlign k .. => some (k, 0x9008)
  | _ => none

/-- The lengths of the images that the Chrysalis store holds. -/
def stagedLengths (s : State) : List Nat := s.slots.filterMap (fun e : Nat × Slot => if e.2.state == SlotState.staged then some e.2.length else none)

/-- The staged images fit the Chrysalis store (R294). -/
abbrev FitsStore (s : State) : Prop := (stagedLengths s).length ≤ 8 ∧ ((stagedLengths s).map granules).sum ≤ 256

/-- A step takes the command at the front of the queue and is that command's effect on the state with the queue's rest. -/
def Obligations.StepRunsTheFront : Prop :=
  ∀ (c : Instr) (rest : List Instr) (s : State), s.pending = c :: rest → step s = exec c { s with pending := rest }

/-- The machine after reset: nothing waits, memory lists nothing, the DTB and the ESN are 0, the modes are PRODUCTION, STRICT, WARN, LOG and FULL, the
VID code is 60, no lock has a holder, every slot is EMPTY and no context runs (R78, R425, R435, R437, R439). A register with no stated reset value
holds what log 4 names. -/
def Obligations.ResetLeaves : Prop :=
  State.reset.pending = [] ∧ State.reset.ready = false ∧ Memory.wf State.reset.hbm = true ∧ Memory.wf State.reset.hostMem = true ∧ State.reset.hbm = [] ∧
    State.reset.dtb.now = 0 ∧ State.reset.seqr.esn = 0 ∧ State.reset.supply.vid = 60 ∧ State.reset.modes.hazard = false ∧ State.reset.modes.openTrust = false ∧
    State.reset.modes.limit = false ∧ State.reset.modes.hazFault = false ∧ State.reset.modes.eco = false ∧ (∀ l, (State.reset.lock l).holder = 0) ∧
    (∀ n, (State.reset.slot n).state = .empty) ∧ (∀ o, State.reset.ctx o = none) ∧ (∀ h, (State.reset.head h).state = .absent)

/-- Every step keeps the canonical form of both memories: addresses rise, and no listed byte is 0. -/
def Obligations.MemoriesStayCanonical : Prop :=
  ∀ (s t : State), Memory.wf s.hbm = true → Memory.wf s.hostMem = true → step s = .next t → Memory.wf t.hbm = true ∧ Memory.wf t.hostMem = true

/-- Every command answers a next state, and leaves every component of the machine as it is but those that `writes` lists for it; no command touches the
queue of commands or the part that the machine is. -/
def Obligations.CommandsChangeOnly : Prop :=
  (∀ (c : Instr) (s : State), ∃ t, exec c s = .next t ∧ ∀ z, z ∉ writes c → z.same s t) ∧ (∀ c : Instr, Zone.pending ∉ writes c ∧ Zone.part ∉ writes c)

/-- A command that works on one entry of a component (a unit, a lock, an arbiter, a queue, a head, a stream, a slot, a context, a pool, a port, a
function, a stack) leaves the other entries as they are. -/
def Obligations.OtherEntriesStay : Prop :=
  ∀ (c : Instr) (e : Entry) (s t : State), entryOf c = some e → exec c s = .next t → e.othersSame s t

/-- A command packet has no effect before READY; then NOT_PERMITTED turns it away before any check of its own (R335, R436). A command that ends puts its
reply into the sequencer when REPLY is set or its status is not OK, and does nothing else to the state (R336). -/
def Obligations.CommandsAreChecked : Prop :=
  (∀ (c : Instr) (k : Pkt) (op : Nat) (s : State), packetOf c = some (k, op) → s.ready = false → exec c s = .next s) ∧
  (∀ (c : Instr) (k : Pkt) (op : Nat) (s : State), packetOf c = some (k, op) → s.ready = true → s.denied (who k) op = true →
    exec c s = .next (s.finish k (fastOpcode op) .notPermitted)) ∧
  (∀ (k : Pkt) (fast : Bool) (st : Status) (res : List Nat) (s : State), s.ring k.fn k.cspi = [] →
    s.finish k fast st res = (if k.reply = true ∨ st ≠ .ok then s.postReply (fast, { isReply := true, cspi := k.cspi, urgent := k.urgent, fn := BitVec.ofNat 16 k.fn, cseq := k.cseq, status := BitVec.ofNat 16 st.code, result := res.map (BitVec.ofNat 32), after := (s.seqr.row, s.seqr.posts) }) else s)) ∧
  (∀ (k : Pkt) (fast : Bool) (st : Status) (res : List Nat) (s : State) (z : Zone), z ∉ Zone.replied → z.same s (s.finish k fast st res))

/-- R294: an image takes ceil(IMAGE_BYTES / 65,536) granules of 64 KiB; at most 8 slots are STAGED and their granules fit the store's 256, after every
step; a STAGE that would break either limit fails with STORE_FULL, and nothing changes but its reply. -/
def Obligations.StoreFits : Prop :=
  (∀ n : Nat, granules n * 65536 < n + 65536 ∧ n ≤ granules n * 65536) ∧ FitsStore State.reset ∧
  (∀ (s t : State), FitsStore s → step s = .next t → FitsStore t) ∧
  (∀ (k : Pkt) (n : B8) (d : ImageDecl) (err : Bool) (s : State), Allowed s k 0x1202 → OwnSlot s k n.toNat → (s.slot n.toNat).state = .stored →
    ((stagedLengths s).length = 8 ∨ 256 < ((stagedLengths s).map granules).sum + granules (s.slot n.toNat).length) →
    exec (.slotStage k n d err) s = .next (s.finish k false .storeFull))

/-- R366 and R368: the holder codes; and a release by the holder hands the lock to its oldest waiter, or frees it, with EPOCH as it was, while a release
by another party changes nothing and replies BAD_STATE as a LOCK_RELEASE. -/
def Obligations.LockHolders : Prop :=
  (∀ f < 64, bits (fnCode f).toNat 8 2 = 2 ∧ bits (fnCode f).toNat 6 2 = 0 ∧ bits (fnCode f).toNat 0 6 = f) ∧
  (∀ p < 4, ∀ f < 64, bits (peerCode p f).toNat 8 2 = 1 ∧ bits (peerCode p f).toNat 6 2 = p ∧ bits (peerCode p f).toNat 0 6 = f) ∧
  (bits mcCode.toNat 8 2 = 3 ∧ bits mcCode.toNat 0 8 = 0 ∧ (({} : Lock).holder = 0)) ∧ (∀ k : Pkt, k.cspi = true → who k = 0) ∧ pathFn .cspi = 0 ∧
  (∀ (k : Pkt) (l : B8) (s : State), Allowed s k 0x0006 → l.toNat < 64 → (s.lock l.toNat).holder = fnCode (who k) →
    ∃ t, exec (.lockRelease k l) s = .next t ∧ (t.lock l.toNat).epoch = (s.lock l.toNat).epoch ∧
      (t.lock l.toNat).waiters = (s.lock l.toNat).waiters.drop 1 ∧
      (∀ w m, (s.lock l.toNat).waiters = w :: m → (t.lock l.toNat).holder = w.code ∧ (t.lock l.toNat).ownerLost = false) ∧
      ((s.lock l.toNat).waiters = [] → (t.lock l.toNat).holder = 0)) ∧
  (∀ (k q : Pkt) (l : B8) (w : Waiter) (m : List Waiter) (s : State), Allowed s k 0x0006 → l.toNat < 64 → (s.lock l.toNat).holder = fnCode (who k) →
    (s.lock l.toNat).waiters = w :: m → w.reply = some q →
    exec (.lockRelease k l) s = .next (((s.setLock l.toNat { s.lock l.toNat with holder := w.code, ownerLost := false, waiters := m }).finish q true
      (if (s.lock l.toNat).ownerLost then .okLost else .ok) [(s.lock l.toNat).epoch.toNat]).finish k true .ok)) ∧
  (∀ (k : Pkt) (l : B8) (s : State), Allowed s k 0x0006 → l.toNat < 64 → (s.lock l.toNat).holder ≠ fnCode (who k) →
    exec (.lockRelease k l) s = .next (s.finish k true .badState)) ∧
  (∀ (p : Path) (l : Fin 64) (s : State), (s.lock l).holder ≠ fnCode (pathFn p) → exec (.lockReleaseWrite p l) s = .next s)

/-- A lock has at most 8 waiting acquirers after every step, and a ninth waiting acquire fails with BUSY (R367). -/
def Obligations.LocksQueueEight : Prop :=
  (∀ (s t : State), (∀ l, (s.lock l).waiters.length ≤ 8) → step s = .next t → ∀ l, (t.lock l).waiters.length ≤ 8) ∧
  (∀ (k : Pkt) (l : B8) (us : B16) (s : State), Allowed s k 0x0005 → l.toNat < 48 → us ≠ 0 → (s.lock l.toNat).holder ≠ 0 →
    (s.lock l.toNat).holder ≠ fnCode (who k) → 8 ≤ (s.lock l.toNat).waiters.length →
    exec (.lockAcquire k l 1 us) s = .next (s.finish k true .busy))

/-- HEAD_INSERTED, HEAD_REMOVED, HEAD_INT and HEAD_IBI (R27, R34, R37): an insertion is recognised, and starts an attach if AUTO_ATTACH is set; a
removal turns the power off at once and leaves the head ABSENT with nothing on its bus; an interrupt is logged, with the head, and for an in-band
one its target and data byte. FSEQ at a frame start (R31): 0 at the first frame after attach; one more where the numbers do not wrap or the number
is 0; else it advances by the number's advance in its wrap, and by 1 where the number repeats. -/
def Obligations.HeadPinsAndFrameNumbers : Prop :=
  ((∀ (h : HeadId) (s : State), s.linkUp h = true → (s.head h).present = false →
    exec (.headInserted h) s = .next (if (s.head h).autoAttach then (s.modHead h (fun x => { x with present := true })).startAttach h none
      else s.modHead h (fun x => { x with present := true }))) ∧
  (∀ (h : HeadId) (s : State), s.linkUp h = true → (s.head h).present = true →
    ∃ t, exec (.headRemoved h) s = .next t ∧ (t.head h).present = false ∧ (t.head h).state = .absent ∧ (t.head h).pwrEn = false
      ∧ (t.head h).i3c = []) ∧
  (∀ (h : HeadId) (s : State), s.linkUp h = true →
    exec (.headInt h) s = .next (s.log .headInt h (s.head h).fn h 0)) ∧
  (∀ (h : HeadId) (target : Fin 4) (data : B8) (s : State), s.linkUp h = true → (s.head h).pwrEn = true →
    exec (.headIbi h target data) s = .next (s.log .headIbi h (s.head h).fn h (packBits [(8, target), (8, data.toNat)])))) ∧
  ((∀ (wrap fn last : Nat) (q : B16), fseqNext wrap fn last false q = (0, 0, false)) ∧
  (∀ (fn last : Nat) (q : B16), fseqNext 0 fn last true q = (q + 1, 0, false)) ∧
  (∀ (wrap last : Nat) (q : B16), fseqNext wrap 0 last true q = (q + 1, 0, false)) ∧
  (∀ (wrap last : Nat) (q : B16), 0 < last → last < wrap → fseqNext wrap last last true q = (q + 1, 0, true)) ∧
  (∀ (wrap fn last : Nat) (q : B16), 0 < fn → last < fn → fn < wrap →
    fseqNext wrap fn last true q = (q + BitVec.ofNat 16 (fn - last), fn - last - 1, false)) ∧
  (∀ (wrap fn last : Nat) (q : B16), 0 < fn → fn < last → last < wrap →
    fseqNext wrap fn last true q = (q + BitVec.ofNat 16 (fn + wrap - last), fn + wrap - last - 1, false)))

/-- FRAME_START, FRAME_END, LINK_TIMEOUT and MISSING_LINE_SUPPLY (R31, R32, R33). A frame start on a declared channel of a READY head with no frame
open, and no authentication failure waiting, gives the stream its FSEQ and opens a frame of that FSEQ. A frame end closes the open frame; where
every line has come and no stop waits, its end-of-frame tag is the next item of the stream buffer. The timeout closes the open frame of a LIVE
stream. The oldest missing line or tag enters the buffer, a line only while fewer than D are held. LINE_START_PACKET, LINE_END_PACKET, LINE_PAYLOAD
and EMBEDDED_DATA inside an open frame (R29, R30, R32, R74). A line start stamps and numbers a line. A line end closes a line with no long packet. A
good long packet of the declared width is the frame's next line, its pixels left-justified. An embedded line joins the
frame's metadata. -/
def Obligations.FramesAndLinesArrive : Prop :=
  ((∀ (h : HeadId) (vc : Fin 4) (first : Bool) (fn : B16) (d : VcDecl) (s : State),
    Receives s h vc d → (s.head h).authFailed = false → (s.strm (4 * h + vc)).frame = none →
    ∃ t f, exec (.frameStart h vc { first := first } fn) s = .next t ∧ (t.strm (4 * h + vc)).frame = some f
      ∧ (t.strm (4 * h + vc)).fseq = (fseqNext d.fnWrap.toNat fn.toNat (s.strm (4 * h + vc)).fnLast (s.strm (4 * h + vc)).fnSeen
          (s.strm (4 * h + vc)).fseq).1
      ∧ f.fseq = (t.strm (4 * h + vc)).fseq ∧ (t.strm (4 * h + vc)).fnLast = fn.toNat ∧ (t.strm (4 * h + vc)).fnSeen = true) ∧
  (∀ (h : HeadId) (vc : Fin 4) (first : Bool) (d : VcDecl) (f : LinkFrame) (s : State),
    Receives s h vc d → (s.strm (4 * h + vc)).frame = some f → (s.strm (4 * h + vc)).stopNext = false →
    ∃ t, exec (.frameEnd h vc { first := first }) s = .next t ∧ (t.strm (4 * h + vc)).frame = none
      ∧ ((s.strm (4 * h + vc)).admitting = true → f.dropping = false → f.last = some (d.height.toNat - 1) → 0 < d.height.toNat →
          (s.strm (4 * h + vc)).missing = [] → (t.strm (4 * h + vc)).buf = (s.strm (4 * h + vc)).buf ++ [.eof f.fseq])) ∧
  (∀ (st : StreamId) (f : LinkFrame) (s : State),
    s.linkUp (st / 4) = true → (s.strm st).frame = some f → (s.strm st).source = 0 →
    ∃ t, exec (.linkTimeout st) s = .next t ∧ (t.strm st).frame = none) ∧
  (∀ (st : StreamId) (l : Line) (m : List BufItem) (s : State),
    (s.strm st).missing = .line l :: m → (s.strm st).buf = [] → 0 < (s.strm st).dropD →
    ∃ t, exec (.missingLineSupply st) s = .next t ∧ (t.strm st).missing = m ∧ (t.strm st).buf = [.line l]) ∧
  (∀ (st : StreamId) (q : B16) (m : List BufItem) (s : State), (s.strm st).missing = .eof q :: m →
    exec (.missingLineSupply st) s = .next (s.modStrm st (fun x => { x with missing := m, buf := x.buf ++ [.eof q] })))) ∧
  ((∀ (h : HeadId) (vc : Fin 4) (first : Bool) (number : B16) (err : Fin 21) (d : VcDecl) (f : LinkFrame) (s : State),
    Receives s h vc d → (s.strm (4 * h + vc)).frame = some f → f.cur = none → (s.strm (4 * h + vc)).untaken < (s.strm (4 * h + vc)).dropD →
    ∃ t, exec (.lineStartPacket h vc { first := first } number err) s = .next t ∧
      (t.strm (4 * h + vc)).frame = some { f with cur := some (number.toNat, s.stamp (4 * h + vc) err), old := false }) ∧
  (∀ (h : HeadId) (vc : Fin 4) (first : Bool) (n : Nat) (stamp : B64) (d : VcDecl) (f : LinkFrame) (s : State),
    Receives s h vc d → (s.strm (4 * h + vc)).frame = some f → f.cur = some (n, stamp) → (s.strm (4 * h + vc)).stopNow = false →
    ∃ t f', exec (.lineEndPacket h vc { first := first }) s = .next t ∧ (t.strm (4 * h + vc)).frame = some f' ∧ f'.cur = none) ∧
  (∀ (h : HeadId) (vc : Fin 4) (first : Bool) (payload : Bytes) (crc : B16) (err : Fin 21) (d : VcDecl) (f : LinkFrame) (s : State),
    Receives s h vc d → (s.strm (4 * h + vc)).frame = some f → f.cur = none → f.dropping = false → f.old = false →
    (s.strm (4 * h + vc)).admitting = true → (s.strm (4 * h + vc)).missing = [] → (s.strm (4 * h + vc)).stopNow = false →
    (s.strm (4 * h + vc)).untaken < (s.strm (4 * h + vc)).dropD → f.last = none → 0 < d.height.toNat →
    crc16 payload = crc.toNat → (unpackRaw (rawBits d.dt.toNat d.width.toNat payload.length) payload).length = d.width.toNat →
    ∃ t, exec (.linePayload h vc { first := first } d.dt payload crc err) s = .next t ∧
      (t.strm (4 * h + vc)).buf = (s.strm (4 * h + vc)).buf ++ [.line (plainLine f.fseq (s.stamp (4 * h + vc) err) (unpackRaw (rawBits d.dt.toNat d.width.toNat payload.length) payload))]) ∧
  (∀ (h : HeadId) (vc : Fin 4) (first : Bool) (payload : Bytes) (crc : B16) (d : VcDecl) (f : LinkFrame) (s : State),
    Receives s h vc d → (s.strm (4 * h + vc)).frame = some f → d.embDt ≠ 0 → crc16 payload = crc.toNat →
    ∃ t, exec (.embeddedData h vc { first := first } d.embDt payload crc) s = .next t ∧
      t.strm (4 * h + vc) = (s.strm (4 * h + vc)).modFrame f.fseq (fun i => { i with emb := i.emb ++ [payload] })))

/-- FSYNC_PULSE and FSYNC_PULSE_END (R35). With no setting waiting, the pin of a head whose generator is on rises at the due pulse time, and the next
pulse is a later one; a head whose generator is off, or not due, is unchanged. After W the pin falls. HEAD_TEMP_READ (R44, Table 02-7). A read of a
streaming head keeps its temperature and counts a second of streaming, and the head's wear grows by the weight of that temperature; a failed read
counts, and weighs 50. FOCUS_WRITE, EXPOSURE_WRITE and I3C_TRANSFER_COMPLETE (R20, R22, R55, R56). A focus decision of a frame that stands, with
enough confidence and no trigger line, goes out as a decision write; with too little it is only recorded. A posted exposure correction is taken
once, and its lines and gain are those of R56. A bus whose transfer ends goes on to the next, unless SCL is held. -/
def Obligations.PulsesWearAndDecisions : Prop :=
  ((∀ (h : HeadId) (s : State), s.linkUp h = true → (s.head h).fsyncNext = none →
    exec (.fsyncPulse h) s = .next (
      if (s.head h).fsync.on = true ∧ (s.head h).fsync.nextAt (max (s.head h).fsyncFrom (s.dtb.now.toNat - 10)) ≤ s.dtb.now.toNat + 10 then
        s.setHead h { s.head h with fsyncPin := true, fsyncFrom := (s.head h).fsync.nextAt (max (s.head h).fsyncFrom (s.dtb.now.toNat - 10)) + 1 }
      else s)) ∧
  (∀ (h : HeadId) (n : Fsync) (t : Nat) (s : State), s.linkUp h = true → (s.head h).fsyncNext = some (n, t) → (s.head h).fsync.on = false →
    n.on = true → n.nextAt (max (max (s.head h).fsyncFrom t) (s.dtb.now.toNat - 10)) ≤ s.dtb.now.toNat + 10 →
    ∃ u, exec (.fsyncPulse h) s = .next u ∧ (u.head h).fsync = n ∧ (u.head h).fsyncNext = none ∧ (u.head h).fsyncPin = true) ∧
  (∀ (h : HeadId) (s : State), (s.head h).fsyncPin = true →
    exec (.fsyncPulseEnd h) s = .next (s.setHead h { s.head h with fsyncPin := false })) ∧
  (∀ (f : Fsync) (t : Nat), f.period ≠ 0 → t ≤ f.nextAt t ∧ f.t0 ≤ f.nextAt t ∧ (f.nextAt t - f.t0) % f.period = 0)) ∧
  ((∀ (h : HeadId) (a b : B8) (s : State), s.linkUp h = true → (s.head h).usable = true → s.headStreaming h = true →
    ∃ t, exec (.headTempRead h (some [a, b])) s = .next t
      ∧ (t.head h).temp = (if (s.head h).pp 0x142 1 = 0 then sext 8 a.toNat * 256 else sext 16 (256 * a.toNat + b.toNat))
      ∧ (t.head h).tempFails = 0 ∧ (t.head h).sinceCommit = (s.head h).sinceCommit + 1
      ∧ t.wear h = s.wear h + wearWeight (t.head h).temp) ∧
  (∀ (h : HeadId) (s : State), s.linkUp h = true → (s.head h).usable = true → s.headStreaming h = true →
    ∃ t, exec (.headTempRead h none) s = .next t ∧ (t.head h).temp = (s.head h).temp
      ∧ (t.head h).tempFails = (s.head h).tempFails + 1 ∧ t.wear h = s.wear h + 50) ∧
  (∀ t : Int, (t ≤ 40 * 256 → wearWeight t = 10) ∧ (40 * 256 < t → t ≤ 55 * 256 → wearWeight t = 16) ∧
    (55 * 256 < t → t ≤ 70 * 256 → wearWeight t = 28) ∧ (70 * 256 < t → wearWeight t = 50))) ∧
  ((∀ (st : StreamId) (fseq focus conf : B16) (i : FrameInfo) (s : State),
    (s.strm st).info fseq = some i → i.has .dropped = false → i.written = false → (s.strm st).source = 0 → s.linkUp (st / 4) = true →
    (s.head (st / 4)).usable = true → (s.head (st / 4)).actSa ≠ 0 → isNan16 conf.toNat = false → lt16 conf.toNat (s.head (st / 4)).actConfMin = false →
    (s.head (st / 4)).actTrigger = 0 → (s.head (st / 4)).actAbs = false → s.lastLineIn st fseq = true →
    ∃ t, exec (.focusWrite st fseq focus conf) s = .next t ∧ t.head (st / 4) = { (s.head (st / 4)).i3cDecision
      { target := 0x0B, reg := (s.head (st / 4)).pp 0x14E 1, data := (s.head (st / 4)).actData (sext 16 focus.toNat), decision := true } with
        actPos := sext 16 focus.toNat }) ∧
  (∀ (st : StreamId) (fseq focus conf : B16) (s : State), s.lastLineIn st fseq = false → exec (.focusWrite st fseq focus conf) s = .next s) ∧
  (∀ (st : StreamId) (fseq focus conf : B16) (i : FrameInfo) (s : State),
    (s.strm st).info fseq = some i → i.has .dropped = false → i.written = false → lt16 conf.toNat (s.head (st / 4)).actConfMin = true →
    s.lastLineIn st fseq = true →
    exec (.focusWrite st fseq focus conf) s = .next (s.modFrame st fseq (fun i => { i with focus := focus, afConf := conf.toNat, focused := true }))) ∧
  (∀ (h : HeadId) (st : Nat) (fseq : B16) (ev : Nat) (i : FrameInfo) (s : State),
    (s.head h).evPosted = some (st, fseq, ev) → (s.strm st).info fseq = some i → i.has .dropped = false → isNan16 ev = false →
    lt16 ev 0xC400 = false → lt16 0x4400 ev = false → (s.strm st).source = 0 → s.linkUp h = true → (s.head h).usable = true →
    s.lastLineIn st fseq = true → s.focusOwed h fseq = false →
    ∃ t, exec (.exposureWrite h) s = .next t ∧ (t.head h).evPosted = none ∧ (t.head h).evLast = ev
      ∧ (t.head h).x = ((if s.limiting h then (s.head h).toCeiling else s.head h).exposure ev (s.limiting h)).1) ∧
  (∀ (h : HeadId) (st : Nat) (fseq : B16) (ev : Nat) (s : State), (s.head h).evPosted = some (st, fseq, ev) →
    s.lastLineIn st fseq = false ∨ s.focusOwed h fseq = true → exec (.exposureWrite h) s = .next s) ∧
  (∀ (h : HeadId) (s : State), (s.head h).sclHeld = true → exec (.i3cTransferComplete h) s = .next s) ∧
  (∀ (h : HeadId) (s : State), (s.head h).sclHeld = false →
    ∃ t, exec (.i3cTransferComplete h) s = .next t ∧ (t.head h).i3c = (s.head h).i3c.drop 1 ∧
      (t.head h).sclHeld = (s.supply.diapause && (t.head h).ledgerInFlight)))

/-- LEDGER_COMMIT and LEDGER_READBACK (R45, R48, R373). A due commit takes the ledger lock for the MC, opens the record of the copy whose parity is that
of the next sequence number, and queues its bytes. A read-back that matches makes the copy the ledger in force and lets the lock go; the first that
differs writes the copy once more. -/
def Obligations.LedgerCommits : Prop :=
  (∀ (h : HeadId) (s : State), s.linkUp h = true → (s.head h).commitDue = true → (s.head h).state = .ready → (s.head h).commit = none →
    s.supply.diapause = false → (s.head h).exhausted = false → (s.head h).lastSeq < 190000 → (s.lock (48 + h)).holder = 0 →
    ∃ t c, exec (.ledgerCommit h) s = .next t ∧ (t.head h).commit = some c ∧ c.seq = s.commitSeq h ∧ c.copyB = (c.seq % 2 == 1)
      ∧ c.retried = false ∧ (t.head h).commitDue = false ∧ (t.lock (48 + h)).holder = mcCode
      ∧ (t.entry h).map (fun e : Pending => e.opened) = some (some (c.copyB, c.seq))
      ∧ (t.head h).i3c = (s.head h).i3c ++ [{ target := 0x08, reg := if c.copyB then 0x240 else 0x200, data := c.data }]) ∧
  (∀ (h : HeadId) (c : Commit) (s : State), s.linkUp h = true → (s.head h).commit = some c → (s.head h).i3c = [] → (s.head h).detach = none →
    ∃ t, exec (.ledgerReadback h c.data) s = .next t ∧ (t.head h).commit = none ∧ (t.head h).lastSeq = c.seq
      ∧ (t.head h).wear = fieldLe c.data 4 4) ∧
  (∀ (h : HeadId) (c : Commit) (copy : Bytes) (s : State), s.linkUp h = true → (s.head h).commit = some c → (s.head h).i3c = [] →
    copy ≠ c.data → c.retried = false →
    ∃ t, exec (.ledgerReadback h copy) s = .next t ∧ (t.head h).commit = some { c with retried := true }
      ∧ (t.head h).i3c = [{ target := 0x08, reg := if c.copyB then 0x240 else 0x200, rlen := 16 },
          { target := 0x08, reg := if c.copyB then 0x240 else 0x200, data := c.data }]) ∧
  (∀ (h : HeadId) (c : Commit) (copy : Bytes) (s : State), s.linkUp h = true → (s.head h).commit = some c → (s.head h).i3c = [] →
    copy ≠ c.data → c.retried = true → (s.head h).detach = none →
    ∃ t, exec (.ledgerReadback h copy) s = .next t ∧ (t.head h).commit = none ∧ (t.head h).lastSeq = (s.head h).lastSeq)

/-- ATTACH_SETTLED (R36, R38, R39). A head whose passport cannot be read, or fails its check, or whose later transfers fail, ends in FAULT, with causes
3, 1 and 3; one that passes them goes on to its authentication. AUTH_POLL, AUTH_TIMEOUT and REAUTHENTICATION (R40-R43, R442). The first
authentication of a head whose streams are stopped, with no detach waiting, makes it READY if the signature verifies; if not, or with none, FAULT
or, under OPEN trust, UNTRUSTED. A head streaming for an hour since its last authentication gets a new challenge. -/
def Obligations.AttachAndAuthenticate : Prop :=
  ((∀ (h : HeadId) (r : AttachRead) (s : State), s.linkUp h = true → (s.head h).state = .powering → r.passport = none →
    ∃ t, exec (.attachSettled h r) s = .next t ∧ (t.head h).state = .fault ∧ (t.head h).cause = 3) ∧
  (∀ (h : HeadId) (r : AttachRead) (b : Bytes) (s : State), s.linkUp h = true → (s.head h).state = .powering → r.passport = some b →
    ({ s.head h with passport := b.take 640 } : Head).passportOk = false →
    ∃ t, exec (.attachSettled h r) s = .next t ∧ (t.head h).state = .fault ∧ (t.head h).cause = 1 ∧ (t.head h).passport = b.take 640) ∧
  (∀ (h : HeadId) (b e g : Bytes) (a : Option Bytes) (p : Head) (s : State), s.linkUp h = true → (s.head h).state = .powering →
    p = { s.head h with passport := b.take 640 } →
    ∃ t, exec (.attachSettled h { passport := some b, assigned := true, expo := some e, gain := some g, act := a }) s = .next t ∧
      (t.head h).passport = b.take 640 ∧
      (t.head h).state = (if p.passportOk = false ∨ e.length < p.expoBytes ∨ g.length < p.gainBytes ∨ (p.actSa ≠ 0 ∧ a.bind p.actValue = none)
        then .fault else .auth))) ∧
  ((∀ (h : HeadId) (a : AuthRun) (b : Bytes) (s : State), s.linkUp h = true → (s.head h).auth = some a → a.again = false →
    s.headStreaming h = false → (s.head h).detach = none →
    ∃ t, exec (.authPoll h (some b)) s = .next t ∧ (t.head h).state =
      (if ecdsaOk ((s.head h).pp 0x150 32) ((s.head h).pp 0x170 32) (fieldLe b 0 32) (fieldLe b 32 32) (authMessage a.challenge (s.head h).id)
        then .ready else if s.modes.openTrust then .untrusted else .fault)) ∧
  (∀ (h : HeadId) (a : AuthRun) (s : State), s.linkUp h = true → (s.head h).auth = some a → a.again = false →
    s.headStreaming h = false → (s.head h).detach = none →
    (∃ t, exec (.authPoll h none) s = .next t ∧ (t.head h).state = (if s.modes.openTrust then .untrusted else .fault)) ∧
    (∃ t, exec (.authTimeout h) s = .next t ∧ (t.head h).state = (if s.modes.openTrust then .untrusted else .fault))) ∧
  (∀ (h : HeadId) (s : State), s.linkUp h = true → (s.head h).usable = true → s.headStreaming h = true → (s.head h).auth = none →
    3600 ≤ (s.head h).sinceAuth →
    ∃ t, exec (.reauthentication h) s = .next t ∧ t.freeCount = s.freeCount + 1
      ∧ (t.head h).auth = some { challenge := toLe 32 (Config.challenge s.freeCount).toNat, again := true, pkt := none }
      ∧ ((t.head h).i3c.drop (s.head h).i3c.length).map (fun x : I3cXfer => (x.target, x.reg)) = [(0x0A, 0x10), (0x0A, 0x20), (0x0A, 0x00)]))

/-- LINE_TAKE and EDGE_LINE_ADMIT (R115, R137, R312). The stream P-unit carries the oldest item of a LIVE stream's buffer to its Edge engine when the
stream's path is open; a SCHEDULED stream's frame waits until the frame before it has left. The Edge engine takes the item: a line's stamp and flags
follow it by its tag, and a frame's end ends the frame in the engine. PACED_LINE_START and REPLAY_PREFETCH (R138, R280, R378). At the line period of
a paced stream inside a frame the next line, stamped now, goes to the Edge engine, and the line number goes on; after the last line the blanking
lines pass. A prefetch from a stack puts the line's codes behind those that wait; one that a double error struck delivers zeros and marks the line.
TAIL_LINE_RELEASE (R17). Of a stream that is frozen, or bound to no context, nothing is released. With nothing more to take in, the next line of the
frame in course is released once all of its input is there, in raster order, and the next to release is the line after it. -/
def Obligations.LinesThroughTheRegion : Prop :=
  ((∀ (st : StreamId) (i : BufItem) (m : List BufItem) (s : State), (s.strm st).buf = i :: m → (s.strm st).source = 0 → (s.strm st).atEdge = [] →
    s.admits st = true → ((s.strm st).scheduled = true → (s.strm st).held = none ∨ (s.strm st).held = some i.fseq) →
    exec (.lineTake st) s = .next (s.setStrm st { s.strm st with
      buf := m, atEdge := [i], held := if (s.strm st).scheduled then some i.fseq else (s.strm st).held })) ∧
  (∀ (st : StreamId) (i : BufItem) (q : B16) (s : State), i.fseq ≠ q → (s.strm st).scheduled = true → (s.strm st).held = some q →
    exec (.lineTake st) s = .next s) ∧
  (∀ (st : StreamId) (l : Line) (m : List BufItem) (s : State), (s.strm st).atEdge = .line l :: m → s.admits st = true → (s.strm st).scheduled = false →
    ∃ t, exec (.edgeLineAdmit st) s = .next t ∧ (t.strm st).atEdge = m ∧
      (t.strm st).lineTags = (s.strm st).lineTags ++ [(l.fseq, l.line, l.stamp, l.flags % 16 != 0, l.supplied || bit l.flags 5)]) ∧
  (∀ (st : StreamId) (q : B16) (m : List BufItem) (s : State), (s.strm st).atEdge = .eof q :: m → s.admits st = true → (s.strm st).scheduled = false →
    s.hasTail st = true →
    ∃ t, exec (.edgeLineAdmit st) s = .next t ∧ (t.strm st).atEdge = m ∧ (t.strm st).edge = none)) ∧
  ((∀ (st : StreamId) (codes : List B16) (bad : Bool) (s : State), (s.strm st).source ≠ 0 → (s.strm st).started = true → s.admits st = true →
    0 < (s.strm st).paceLine → (s.strm st).paceLine + 1 < (s.sdecl st).height →
    (s.strm st).pacedCodes ((s.sdecl st).width * (match (s.sdecl st).edge with | some e => e.cin | none => 1)) = some (codes, bad) →
    ∃ t, exec (.pacedLineStart st) s = .next t ∧ (t.strm st).paceLine = (s.strm st).paceLine + 1 ∧ (t.strm st).paceFrame = (s.strm st).paceFrame ∧
      (t.strm st).atEdge = (s.strm st).atEdge ++
        [.line { fseq := BitVec.ofNat 16 (s.strm st).paceFrame, line := (s.strm st).paceLine, stamp := s.dtb.now, codes := codes }]) ∧
  (∀ (st : StreamId) (s : State), (s.strm st).source ≠ 0 → (s.strm st).started = true → s.admits st = true → 0 < (s.strm st).paceLine →
    (s.sdecl st).height ≤ (s.strm st).paceLine →
    exec (.pacedLineStart st) s = .next (s.setStrm st { s.strm st with
      paceLine := if (s.sdecl st).frameLines ≤ (s.strm st).paceLine + 1 then 0 else (s.strm st).paceLine + 1
      paceFrame := if (s.sdecl st).frameLines ≤ (s.strm st).paceLine + 1 then (s.strm st).paceFrame + 1 else (s.strm st).paceFrame })) ∧
  (∀ (st : StreamId) (r : Replay) (a n : Nat) (s : State), s.nextReplayLine st = some (r, a, n) → r.host = false → s.ready = true →
    s.stackOk (a / 17179869184) = true →
    ∃ t, exec (.replayPrefetch st .clean) s = .next t ∧
      (t.strm st).prefetch = (s.strm st).prefetch ++ [(codes16 (Memory.readBytes s.hbm a n), false)]) ∧
  (∀ (st : StreamId) (r : Replay) (a n : Nat) (s : State), s.nextReplayLine st = some (r, a, n) → r.host = false → s.ready = true →
    a % 64 = 0 → n = 64 →
    ∃ t, exec (.replayPrefetch st .bad) s = .next t ∧
      (t.strm st).prefetch = (s.strm st).prefetch ++ [(codes16 (List.replicate 64 0), true)])) ∧
  ((∀ (st : StreamId) (s : State), (s.strm st).frozen = true ∨ (s.strm st).ctx = none → exec (.tailLineRelease st) s = .next s) ∧
  (∀ (st : StreamId) (f8 : Nat) (s : State), (s.strm st).frozen = false → (s.strm st).ctx.isSome = true →
    (∀ stripe, Tab.get [] (s.tailEng (s.sdecl st).tail).queues stripe = []) → (s.strm st).tailCur = some f8 →
    (List.range (s.ownedWidths st).length).all (fun i => (s.strm st).tailTag f8 i 8191) = false →
    layerReady ((s.sdecl st).tailLayer.getD { k := 1 }) (fun i => s.tailHas st f8 i) (s.sdecl st).height (s.strm st).tailNext = true →
    ∃ t, exec (.tailLineRelease st) s = .next t ∧ (t.strm st).tailNext = (s.strm st).tailNext + 1 ∧
      ∃ o, (if s.gated st then (t.strm st).atGate = (s.strm st).atGate ++ [o] else (t.strm st).toOut = (s.strm st).toOut ++ [o]) ∧ o.line = (s.strm st).tailNext ∧ o.eof = false ∧
        o.vals = s.tailValues st f8 (s.sdecl st).height (s.strm st).tailNext))

/-- OUTPUT_FLIT (R97, R144, R168, R173, R174). A line enters an output queue that has room with its last flit; without room, under STALL its flits wait
in the skid and a stall is requested, and under DROP it and the rest of its frame go, and are counted; the end of a frame enters always; a 25th
flit in the skid puts the context in FAULT; of a frozen stream nothing comes. OUTPUT_LINE_SEND (R170, R171, R399). To a host, with a
descriptor granted and no buffer open, the oldest line is written at the descriptor's address, and the memory is unchanged but for its bytes; the
buffer that opens holds it. To a Yallek link that is up, the oldest line leaves the queue. A stream of an ST 2110 sender is not touched.
ST2110_PACKET (R405, R407). A packet whose rows are all in the output queue goes out at its time, not before, and the sender's packet number and
sequence number go on; the end of a frame takes the sender to packet 0 of the next. METADATA_DATAGRAM and HOST_MEMORY_READ (R378, R408, Table 13-6).
The datagram of the oldest waiting frame record goes out while its port is up; otherwise it is dropped and counted, and reported at most once a
second. What a read of host memory returns is kept for the command that named its address. -/
def Obligations.OutputsLeave : Prop :=
  ((∀ (st : StreamId) (l : OutLine) (m : List OutLine) (s : State), (s.strm st).toOut = l :: m → l.eof = false → (s.strm st).frozen = false →
    (s.strm st).oqHeld < (s.strm st).oqLines → (s.strm st).outDrop ≠ some l.fseq →
    ∃ t, exec (.outputFlit st) s = .next t ∧ ((s.strm st).oqIn + 1 = l.flits → (t.strm st).toOut = m ∧ (t.strm st).oq = (s.strm st).oq ++ [l] ∧
        (t.strm st).oqIn = 0) ∧
      ((s.strm st).oqIn + 1 < l.flits → (t.strm st).toOut = l :: m ∧ (t.strm st).oq = (s.strm st).oq ∧ (t.strm st).oqIn = (s.strm st).oqIn + 1 ∧
        (t.strm st).skid = 0)) ∧
  (∀ (st : StreamId) (l : OutLine) (m : List OutLine) (s : State), (s.strm st).toOut = l :: m → l.eof = false → (s.strm st).frozen = false →
    (s.strm st).oqLines ≤ (s.strm st).oqHeld → (s.strm st).outDrop ≠ some l.fseq → (s.strm st).stall = true → (s.strm st).oqIn < 24 →
    (s.strm st).oqIn < l.flits →
    ∃ t, exec (.outputFlit st) s = .next t ∧ (t.strm st).toOut = l :: m ∧ (t.strm st).oq = (s.strm st).oq ∧
      (t.strm st).oqIn = (s.strm st).oqIn + 1 ∧ (t.strm st).skid = (s.strm st).oqIn + 1 ∧ (t.origin (outOrigin st)).req = true) ∧
  (∀ (st : StreamId) (l : OutLine) (m : List OutLine) (o : Nat) (c : Ctx) (s : State), (s.strm st).toOut = l :: m → l.eof = false →
    (s.strm st).frozen = false → (s.strm st).oqLines ≤ (s.strm st).oqHeld → (s.strm st).outDrop ≠ some l.fseq → (s.strm st).stall = true →
    (s.strm st).oqIn = 24 → 24 < l.flits → (s.strm st).ctx = some o → s.ctx o = some c → c.state = .running →
    ∃ t c', exec (.outputFlit st) s = .next t ∧ t.ctx o = some c' ∧ c'.state = .fault ∧ c'.cause = Cause.skidOvf.code) ∧
  (∀ (st : StreamId) (l : OutLine) (m : List OutLine) (s : State), (s.strm st).toOut = l :: m → l.eof = false → (s.strm st).frozen = false →
    (s.strm st).oqLines ≤ (s.strm st).oqHeld → (s.strm st).outDrop ≠ some l.fseq → (s.strm st).stall = false → (s.strm st).oqIn < l.flits →
    ∃ t, exec (.outputFlit st) s = .next t ∧ (t.strm st).outDrop = some l.fseq ∧ (t.strm st).oq = (s.strm st).oq ∧
      ((t.strm st).info l.fseq).all (fun i => i.has .outDrop) = true ∧
      (if (s.strm st).oqIn + 1 = l.flits then (t.strm st).toOut = m ∧ (t.strm st).linesDropped = (s.strm st).linesDropped + 1
        else (t.strm st).toOut = l :: m ∧ (t.strm st).linesDropped = (s.strm st).linesDropped)) ∧
  (∀ (st : StreamId) (l : OutLine) (m : List OutLine) (s : State), (s.strm st).toOut = l :: m → l.eof = false → (s.strm st).frozen = false →
    (s.strm st).outDrop = some l.fseq → (s.strm st).oqIn = 0 → l.flits = 1 →
    ∃ t, exec (.outputFlit st) s = .next t ∧ (t.strm st).toOut = m ∧ (t.strm st).oq = (s.strm st).oq ∧
      (t.strm st).linesDropped = (s.strm st).linesDropped + 1) ∧
  (∀ (st : StreamId) (s : State), (s.strm st).frozen = true ∨ (s.strm st).toOut = [] → exec (.outputFlit st) s = .next s) ∧
  (∀ (st : StreamId) (l : OutLine) (m : List OutLine) (s : State), (s.strm st).toOut = l :: m → l.eof = true → (s.strm st).frozen = false →
    (s.strm st).oqIn = 0 →
    ∃ t, exec (.outputFlit st) s = .next t ∧ (t.strm st).toOut = m ∧ (t.strm st).outDrop = none ∧
      (t.strm st).oq = (s.strm st).oq ++ [{ l with drop := (s.strm st).outDrop == some l.fseq }])) ∧
  ((∀ (st : StreamId) (l : OutLine) (m : List OutLine) (d : PoolDesc) (s : State), (s.strm st).route = 0 → (s.strm st).oq = l :: m → l.eof = false →
    (s.strm st).openBuf = none → (s.strm st).granted = some d → (s.strm st).pool < 64 → s.portUp (dieOfStream st) = true →
    (s.ep (s.epOf (s.pool (s.strm st).pool).fn)).up = true →
    ∃ t, exec (.outputLineSend st) s = .next t ∧ ((s.strm st).oqIn = 0 → (t.strm st).oq = m) ∧ (t.strm st).granted = none ∧
      t.hostMem = Memory.writeBytes s.hostMem d.addr.toNat l.data ∧
      ∃ b, (t.strm st).openBuf = some b ∧ b.desc = d ∧ b.fseq = l.fseq ∧ b.first = l.line ∧ b.lines = 1 ∧ b.bytes = l.data.length) ∧
  (∀ (st : StreamId) (l : OutLine) (m : List OutLine) (s : State), (s.strm st).route = 2 → (s.strm st).oq = l :: m →
    (s.yport ((s.strm st).routeIx % 4)).up = true →
    ∃ t, exec (.outputLineSend st) s = .next t ∧ ((s.strm st).oqIn = 0 → (t.strm st).oq = m) ∧ t.hostMem = s.hostMem) ∧
  (∀ (st : StreamId) (s : State), (s.strm st).route = 1 → exec (.outputLineSend st) s = .next s)) ∧
  ((∀ (d : Fin 32) (st : Nat) (l : OutLine) (m : List OutLine) (f : B16 × B64) (s : State), s.senderStream d = some st → (s.sender d).enabled = true →
    s.ethLive (d / 16) = true → (s.eth (d / 16)).up = true → (s.strm st).oq = l :: m → l.eof = false → (s.sender d).frame = some f →
    ((s.sender d).spans (s.sdecl st).outWidth ((s.sender d).next * 1260)
      (min ((s.sender d).next * 1260 + 1260) ((s.sender d).rowLen (s.sdecl st).outWidth * (s.sdecl st).height))) ≠ [] →
    (∀ q ∈ (s.sender d).spans (s.sdecl st).outWidth ((s.sender d).next * 1260)
        (min ((s.sender d).next * 1260 + 1260) ((s.sender d).rowLen (s.sdecl st).outWidth * (s.sdecl st).height)),
      ∃ o ∈ (s.strm st).oq, o.eof = false ∧ o.fseq = l.fseq ∧ o.line = q.1) →
    ∃ t, exec (.st2110Packet d) s = .next t ∧
      (if s.dtb.now.toNat + 100 < f.2.toNat + (s.sender d).field 28 4 + (s.sender d).next * (s.sender d).trs (s.sdecl st).outWidth (s.sdecl st).height
        then t = s else (t.sender d).next = (s.sender d).next + 1 ∧ (t.sender d).seq = (s.sender d).seq + 1)) ∧
  (∀ (d : Fin 32) (st : Nat) (l : OutLine) (m : List OutLine) (s : State), s.senderStream d = some st → (s.sender d).enabled = true →
    s.ethLive (d / 16) = true → (s.eth (d / 16)).up = true → (s.strm st).oq = l :: m → l.eof = true →
    ∃ t, exec (.st2110Packet d) s = .next t ∧ (t.strm st).oq = m ∧ (t.sender d).next = 0 ∧ (t.sender d).frame = none ∧ (t.sender d).late = 0)) ∧
  ((∀ (p : Fin 2) (st : Nat) (fseq : B16) (f : FrameInfo) (m : List (Nat × B16)) (s : State), (s.eth p).metaQ = (st, fseq) :: m → s.ethLive p = true →
    (s.eth p).up = true → (s.strm st).info fseq = some f →
    ∃ t, exec (.metadataDatagram p true) s = .next t ∧ (t.eth p).metaQ = m ∧ (t.eth p).metaDrop = (s.eth p).metaDrop) ∧
  (∀ (p : Fin 2) (e : Nat × B16) (m : List (Nat × B16)) (sent : Bool) (s : State), (s.eth p).metaQ = e :: m → sent = false ∨ (s.eth p).up = false →
    exec (.metadataDatagram p sent) s = .next (
      if (match (s.eth p).metaAt with | some a => decide (a + 200000000 ≤ s.kcycles) | none => true) then
        (s.setEth p { s.eth p with metaQ := m, metaDrop := 0, metaAt := some s.kcycles }).log .metaDrop (inPort p) noFn p ((s.eth p).metaDrop + 1).toNat
      else s.setEth p { s.eth p with metaQ := m, metaDrop := (s.eth p).metaDrop + 1 })) ∧
  (∀ (addr : B64) (data : Option Bytes) (s : State),
    ∃ t, exec (.hostMemoryRead (.source addr) data) s = .next t ∧ t.hostData addr = some data ∧
      ∀ a : B64, a ≠ addr → t.hostData a = s.hostData a) ∧
  (∀ (st : StreamId) (q : Replay) (a n : Nat) (b : Bytes) (s : State), s.nextReplayLine st = some (q, a, n) → q.host = true →
    ∃ t, exec (.hostMemoryRead (.replay st) (some b)) s = .next t ∧
      (t.strm st).prefetch = (s.strm st).prefetch ++ [(codes16 (b.take n), false)]))

/-- HBM_BURST, HBM_POWER_DOWN and HBM_REFRESH (R157, R374, R375, R380, R415). An input has a burst when the stack's arbiter grants it, as a lone
input of a free arbiter is. A burst write stores its 64 bytes at 64 times its number in the stack, if its
input may write there, and no byte elsewhere; a burst read writes nothing, and a double error is logged. Under ECO an unheld stack powers down; a
refresh is counted. HBM_WRITE (R374-R376): the bytes go to HBM in order at their address, every other byte stays, and the stack leaves power-down.
-/
def Obligations.HbmAccesses : Prop :=
  ((∀ (k : Fin 4) (i : Fin 11) (n : Fin 268435456) (d : Bytes) (ecc : Ecc) (s u : State), s.ready = true → s.stackOk k = true →
    s.useArb (.hbm k) i = some u →
    ∃ t, exec (.hbmBurst k { input := i, burst := n, data := some d, ecc := ecc }) s = .next t ∧ (t.stackOf k).down = false ∧
      t.hbm = (if hbmInputWrites i (stackBase k + 64 * n) then
        Memory.writeBytes s.hbm (stackBase k + 64 * n) ((d ++ List.replicate 64 0).take 64) else s.hbm)) ∧
  (∀ (k : Fin 4) (i : Fin 11) (s : State), (s.arb (arbCode (.hbm k))).holder = none → (s.arb (arbCode (.hbm k))).reqs = [] →
    ∃ u, s.useArb (.hbm k) i = some u) ∧
  (∀ (k : Fin 4) (a : HbmAcc) (s : State), s.useArb (.hbm k) a.input = none → exec (.hbmBurst k a) s = .next s) ∧
  (∀ (k : Fin 4) (i : Fin 11) (n : Fin 268435456) (s u : State), s.ready = true → s.stackOk k = true → s.useArb (.hbm k) i = some u →
    (∃ t, exec (.hbmBurst k { input := i, burst := n, data := none, ecc := .clean }) s = .next t ∧ t.hbm = s.hbm ∧ t.seqr = s.seqr) ∧
    (∃ t, exec (.hbmBurst k { input := i, burst := n, data := none, ecc := .bad }) s = .next t ∧ t.hbm = s.hbm ∧
      t = (u.modStackOf k (fun x => { x with down := false })).log .hbmUe inHbm noFn k (stackBase k + 64 * n))) ∧
  (∀ (k : Fin 4) (s : State), exec (.hbmPowerDown k) s = .next (
    if s.ready ∧ s.modes.eco ∧ s.stackOk k ∧ ¬ s.stackHeld k then s.setStackOf k { s.stackOf k with down := true } else s)) ∧
  (∀ (k : Fin 4) (s : State), exec (.hbmRefresh k) s = .next (
    if s.ready ∧ s.stackOk k ∧ ¬ (s.stackOf k).selfRefresh then s.setStackOf k { s.stackOf k with refreshes := (s.stackOf k).refreshes + 1 } else s))) ∧
  ((∀ (k : Pkt) (n : B16) (a : B64) (data : Bytes) (s : State), Allowed s k 0x1010 → 1 ≤ n.toNat → n.toNat ≤ 224 → n.toNat ≤ data.length →
    s.hbmBad a.toNat n.toNat = false → s.stackOk (a.toNat / 17179869184) = true → Memory.wf s.hbm = true →
    ∃ t, exec (.hbmWrite k n a data) s = .next t ∧ Memory.readBytes t.hbm a.toNat n.toNat = data.take n.toNat ∧
      (∀ b, b < a.toNat ∨ a.toNat + n.toNat ≤ b → Memory.read t.hbm b = Memory.read s.hbm b) ∧ t.hostMem = s.hostMem ∧
      (t.stackOf (a.toNat / 17179869184)).down = false) ∧
  (∀ (k : Pkt) (n : B16) (a : B64) (data : Bytes) (s : State), Allowed s k 0x1010 → s.hbmBad a.toNat n.toNat = true →
    exec (.hbmWrite k n a data) s = .next (s.finish k false .badParam)) ∧
  (∀ (a n : Nat) (s : State), 0x3C0000000 ≤ a → a < 0x400000000 → 0 < n → s.hbmBad a n = true))

/-- YALLEK_BLOCK_LOCK, YALLEK_IDENT_SEND, SPORE_IDENT, YALLEK_BRINGUP_TIMEOUT and YALLEK_DOWN (R382, R386, R387). Block lock readies a port that is down
and starts its sequence numbers afresh; its IDENT carries DIE_ID and the variant; the peer's IDENT brings the link up. With no link 1 ms after block
lock bring-up begins again. A link that is declared down is down, locked no more, with no binding left. SPORE_ACK, SPORE_NAK, SPORE_STALL,
SPORE_RETRANSMIT_TIMEOUT, NAK_REPEAT and ACK_SEND (R384, R385, R395). An accepted Spore's header gives the credits and the peer's STALLMAP. After a
NAK, or 2 us after the oldest unacknowledged Spore, every Spore in the replay buffer goes out again, the oldest first, and counts one more
retransmission. An outstanding NAK is repeated; an ACK goes out. -/
def Obligations.YallekLinks : Prop :=
  ((∀ (p : Fin 4) (s : State), s.yLive p = true → (s.yport p).up = false →
    ∃ t, exec (.yallekBlockLock p) s = .next t ∧ (t.yport p).locked = true ∧ (t.yport p).txSeq = 0 ∧ (t.yport p).rxSeq = 0 ∧
      (t.yport p).credit = 512 ∧ (t.yport p).replay = []) ∧
  (∀ (p : Fin 4) (s : State), s.yLive p = true → (s.yport p).locked = true → (s.yport p).up = false →
    exec (.yallekIdentSend p) s = .next (s.sendSpore p 4 (toLe 1 ctlIdent ++ toLe 8 s.part.dieId.toNat ++ toLe 1 s.part.variant.code))) ∧
  (∀ (p : Fin 4) (b : Bytes) (die : B64) (s : State), s.yLive p = true → (s.yport p).locked = true → (s.yport p).up = false →
    sporeOk b = true → byteAt b 0 = 4 →
    exec (.sporeIdent p b die) s = .next ((s.setYport p { s.yport p with up := true, peerDie := die }).log .yallekUp (inPort (dieOfYallek p)) noFn p 0)) ∧
  (∀ (p : Fin 4) (s : State), (s.yport p).locked = true → (s.yport p).up = false →
    exec (.yallekBringupTimeout p) s = .next (s.setYport p { s.yport p with locked := false })) ∧
  (∀ (p : Fin 4) (cause : Fin 4) (s : State), s.yLive p = true → (s.yport p).up = true → cause ≠ 0 ∨ (∃ r ∈ (s.yport p).replay, 8 ≤ r.2.1) →
    ∃ t, exec (.yallekDown p cause) s = .next t ∧ (t.yport p).up = false ∧ (t.yport p).locked = false ∧ (t.yport p).bound = false)) ∧
  ((∀ (p : Fin 4) (b : Bytes) (s : State), SporeComes s p 0x10 false b →
    ∃ t, exec (.sporeAck p b) s = .next t ∧ (t.yport p).lastCredit = BitVec.ofNat 16 (fieldLe b 8 2) ∧
      (t.yport p).stallIn = BitVec.ofNat 16 (fieldLe b 10 2) ∧ (t.yport p).rxSeq = (s.yport p).rxSeq) ∧
  (∀ (p : Fin 4) (b : Bytes) (s : State), SporeComes s p 0x12 false b →
    ∃ t, exec (.sporeStall p b) s = .next t ∧ (t.yport p).stallIn = BitVec.ofNat 16 (fieldLe b 10 2) ∧ (t.yport p).rxSeq = (s.yport p).rxSeq) ∧
  (∀ (p : Fin 4) (b : Bytes) (s : State), SporeComes s p 0x11 false b → (s.yport p).tx = [] →
    ∃ t, exec (.sporeNak p b) s = .next t ∧
      (t.yport p).replay = ((s.yport p).replay.filter (fun r => 32768 ≤ (BitVec.ofNat 16 (fieldLe b 6 2) - r.1).toNat)).map
        (fun r => (r.1, r.2.1 + 1, r.2.2))) ∧
  (∀ (p : Fin 4) (s : State), s.yLive p = true → (s.yport p).up = true → (s.yport p).replay ≠ [] →
    ∃ t, exec (.sporeRetransmitTimeout p) s = .next t ∧ (t.yport p).replay = (s.yport p).replay.map (fun r => (r.1, r.2.1 + 1, r.2.2)) ∧
      (t.yport p).sent = ((s.yport p).replay.map (fun r => r.2.2)).reverse ++ (s.yport p).sent) ∧
  (∀ (p : Fin 4) (s : State), s.yLive p = true → (s.yport p).up = true → (s.yport p).nak = true →
    exec (.nakRepeat p) s = .next (s.sendSpore p 0x11 [])) ∧
  (∀ (p : Fin 4) (s : State), s.yLive p = true → (s.yport p).up = true → exec (.ackSend p) s = .next (s.sendSpore p 0x10 [])))

/-- SPORE_FLIT, FLIT_SPORE_CLOSE, SYNC_ENTRY_VISIBLE and SPORE_ALIGN (R390-R393). A flit entry of the binding in force enters the receive queue, one of
another is discarded and counted. The transmitter sends at most 20 entries, each against a credit. The first entry of a SYNC route whose cycle is
reached becomes visible. A probe before the 64th is kept. SPORE_LINE (R399). The first segment of a line of the frame in course, with room for a
line, begins that line with its number and stamp, and keeps the bytes. -/
def Obligations.PeerFlitsAndLines : Prop :=
  ((∀ (p : Fin 4) (b : Bytes) (m : BindMsg) (s : State), SporeComes s p 1 true b → (b.length - 24) / 48 = 1 → (s.yport p).peer = some m →
    ∃ t, exec (.sporeFlit p b) s = .next t ∧ (t.yport p).rxSeq = (s.yport p).rxSeq + 1 ∧
      (if (s.yport p).bound = true ∧ m.epoch.toNat = byteAt b 1 then
        (t.yport p).rxFlits.length = (s.yport p).rxFlits.length + 1 ∧ (t.yport p).epochDisc = (s.yport p).epochDisc
      else (t.yport p).rxFlits = (s.yport p).rxFlits ∧ (t.yport p).epochDisc = (s.yport p).epochDisc + 1)) ∧
  (∀ (p : Fin 4) (s : State), s.yLive p = true → (s.yport p).up = true → (s.yport p).txFlits ≠ [] → (s.yport p).credit ≠ 0 →
    ∃ t, exec (.flitSporeClose p) s = .next t ∧
      (t.yport p).txFlits = (s.yport p).txFlits.drop (min 20 (min (s.yport p).txFlits.length (s.yport p).credit)) ∧
      (t.yport p).credit = (s.yport p).credit - min 20 (min (s.yport p).txFlits.length (s.yport p).credit) ∧
      (t.yport p).txSeq = (s.yport p).txSeq + 1) ∧
  (∀ (p : Fin 4) (route : B8) (v : Nat) (f : Flit) (m : List (Nat × Nat × Bool × Flit)) (s : State),
    (s.yport p).rxFlits = (route.toNat, v, false, f) :: m → ((s.field (fieldOfYallek p)).fcyc - BitVec.ofNat 16 v).toNat < 32768 →
    ∃ t, exec (.syncEntryVisible p route) s = .next t ∧ (t.yport p).rxFlits = (route.toNat, v, true, f) :: m) ∧
  (∀ (p : Fin 4) (b : Bytes) (route : B8) (stamp : B16) (c : CutDecl) (s : State), SporeComes s p 0x13 false b → s.cut p route.toNat = some c →
    c.sync = true → Tab.get none (s.yport p).align route.toNat = none → (Tab.get [] (s.yport p).probes route.toNat).length < 63 →
    ∃ t, exec (.sporeAlign p b route stamp) s = .next t ∧ Tab.get [] (t.yport p).probes route.toNat =
      Tab.get [] (s.yport p).probes route.toNat ++ [((s.field (fieldOfYallek p)).fcyc - stamp).toNat])) ∧
  (∀ (p : Fin 4) (b : Bytes) (st : Nat) (f : LinkFrame) (s : State), SporeComes s p 2 true b → st = byteAt (sporeBody b) 0 → st < 64 →
    (s.strm st).ctx.isSome = true → (s.strm st).source = 0 → (s.head (st / 4)).state = .absent →
    (s.strm st).frame = some f → f.fseq = BitVec.ofNat 16 (fieldLe (sporeBody b) 4 2) → fieldLe (sporeBody b) 16 4 = 0 →
    (s.strm st).untaken < (s.strm st).dropD →
    (((sporeBody b).drop 24).take (fieldLe (sporeBody b) 20 2)).length <
      (s.sdecl st).width * (match (s.sdecl st).edge with | some e => e.cin | none => 1) * 2 →
    ∃ t, exec (.sporeLine p b) s = .next t ∧ (t.yport p).rxSeq = (s.yport p).rxSeq + 1 ∧
      ∃ l, (t.strm st).rxLine = some (l, ((sporeBody b).drop 24).take (fieldLe (sporeBody b) 20 2)) ∧ l.fseq = f.fseq ∧
        l.line = fieldLe (sporeBody b) 2 2 ∧ l.stamp = BitVec.ofNat 64 (fieldLe (sporeBody b) 8 8))

/-- SPORE_LOCK (R367, R368, R388). A peer's acquire of a free lock makes the peer's function its holder; of a held lock, waits behind at most seven
others; its release of a lock it holds passes the lock to the oldest waiter, or frees it. SPORE_BIND, SPORE_UNBIND and PEER_RESET (R388, R390,
R448). The peer's BIND is kept, and where it agrees with ours the port is bound; its UNBIND of the context's graph, and its reset, end the binding.
-/
def Obligations.PeersLockAndBind : Prop :=
  ((∀ (p : Fin 4) (b : Bytes) (fn : Fin 64) (l : B8) (s : State), SporeComes s p 3 true b → l.toNat < 48 → (s.lock l.toNat).holder = 0 →
    ∃ t, exec (.sporeLock p b (.acquire fn l)) s = .next t ∧ (t.lock l.toNat).holder = peerCode p fn ∧ (t.lock l.toNat).ownerLost = false) ∧
  (∀ (p : Fin 4) (b : Bytes) (fn : Fin 64) (l : B8) (s : State), SporeComes s p 3 true b → l.toNat < 48 → (s.lock l.toNat).holder ≠ 0 →
    (s.lock l.toNat).holder ≠ peerCode p fn → (s.lock l.toNat).waiters.length < 8 →
    ∃ t, exec (.sporeLock p b (.acquire fn l)) s = .next t ∧ (t.lock l.toNat).holder = (s.lock l.toNat).holder ∧
      (t.lock l.toNat).waiters = (s.lock l.toNat).waiters ++ [{ code := peerCode p fn, reply := none }]) ∧
  (∀ (p : Fin 4) (b : Bytes) (fn : Fin 64) (l : B8) (s : State), SporeComes s p 3 true b → l.toNat < 48 →
    (s.lock l.toNat).holder = peerCode p fn →
    ∃ t, exec (.sporeLock p b (.release fn l)) s = .next t ∧
      (t.lock l.toNat).holder = (match (s.lock l.toNat).waiters with | w :: _ => w.code | [] => 0) ∧
      (t.lock l.toNat).waiters = (s.lock l.toNat).waiters.drop 1)) ∧
  ((∀ (p : Fin 4) (b : Bytes) (m : BindMsg) (o : Nat) (l : LinkDecl) (s : State), SporeComes s p 4 true b → (s.yport p).owner = some o →
    s.portLink p = some l → (s.yport p).bindSent = true → (s.yport p).bound = false → l.graph = m.graph →
    ∃ t, exec (.sporeBind p b m) s = .next t ∧ (t.yport p).peer = some m ∧
      (t.yport p).bound = ((l.ports.find? (fun e => e.1 == p.val)).map (fun e : Nat × Nat => e.2) == some m.index.toNat)) ∧
  (∀ (p : Fin 4) (b : Bytes) (g : B32) (o : Nat) (l : LinkDecl) (s : State), SporeComes s p 4 true b → (s.yport p).owner = some o →
    s.portLink p = some l → l.graph = g →
    ∃ t, exec (.sporeUnbind p b g) s = .next t ∧ (t.yport p).bound = false ∧ (t.yport p).peer = none) ∧
  (∀ (p : Fin 4) (b : Bytes) (s : State), SporeComes s p 4 true b →
    ∃ t, exec (.peerReset p b) s = .next t ∧ (t.yport p).bound = false ∧ (t.yport p).peer = none))

/-- ETH_LINK_CHANGE, ARP_REQUEST, IGMP_REPORT and ETH_FRAME_DISCARD (R400, R401). A change of an enabled port's link is logged; an ARP request for the
port's address is answered, one for another is not; the group report goes out with PTP over UDP; a frame of no use is counted. -/
def Obligations.EthernetPorts : Prop :=
  (∀ (p : Fin 2) (s : State), s.ethLive p = true → (s.eth p).enabled = true → (s.eth p).up = false →
    exec (.ethLinkChange p true) s = .next ((s.setEth p { s.eth p with up := true, synced := (s.eth p).synced }).log .ethUp (inPort p) noFn p 0)) ∧
  (∀ (p : Fin 2) (s : State), (s.eth p).up = true →
    exec (.ethLinkChange p false) s = .next ((s.setEth p { s.eth p with up := false, synced := false }).log .ethDown (inPort p) noFn p 0)) ∧
  (∀ (p : Fin 2) (mac : B48) (ip target : B32) (s : State), s.ethLive p = true → (s.eth p).up = true → target.toNat = (s.eth p).field 8 4 →
    ∃ t f, exec (.arpRequest p mac ip target) s = .next t ∧ (t.eth p).sent = f :: (s.eth p).sent ∧ f.take 6 = toLe 6 mac.toNat) ∧
  (∀ (p : Fin 2) (mac : B48) (ip target : B32) (s : State), target.toNat ≠ (s.eth p).field 8 4 → exec (.arpRequest p mac ip target) s = .next s) ∧
  (∀ (p : Fin 2) (s : State), s.ethLive p = true → (s.eth p).up = true → (s.eth p).field 17 1 = 0 →
    ∃ t f, exec (.igmpReport p) s = .next t ∧ (t.eth p).sent = f :: (s.eth p).sent ∧ f.take 6 = [0x01, 0, 0x5E, 0, 0x01, 0x81]) ∧
  (∀ (p : Fin 2) (s : State), s.ethLive p = true → (s.eth p).up = true →
    exec (.ethFrameDiscard p) s = .next (s.setEth p { s.eth p with discards := (s.eth p).discards + 1 }))

/-- DTB_STEP, DTB_OFFSET_REMOVED and DTB_SHADOW_REALIGN (R71, R72, R74). A pending step applies once its time is reached, not before: the time base and
every shadow move by its delta, and what remained of a slew is gone. A removed offset ends the slew. A realignment makes the four shadows the time
base. PTP_SYNC, PTP_DELAY_REQ, PTP_ANNOUNCE, PTP_HOLDOVER and PTP_PORT (R70, R71, R402, R404). A Sync's timestamps are kept; the servo's port slews
away an offset within the threshold. The path delay is half of the two ways. The better master is taken. A port that loses its master, with no other
to move to, holds over; the servo moves to port 1 while port 0 has no master. CLK_LOSS, CLK_FAST, CLK_RESTORED and XIN_RESTORED (R84, R85). A clock
this variant has whose count in a window is below 50 % of the least expected, or above 110 % of the greatest, is declared once: it is lost, and
CLK_EVENT is set; a count within changes nothing. A Field clock's expected count is that of its point, halved in Diapause. A HCLK or ECLK that returns is lost no more; the return of XIN and KCLK ends
their loss. -/
def Obligations.TimeBaseAndClocks : Prop :=
  ((∀ (r : DtbStepReq) (s : State), s.dtb.pendingStep = some r → r.tApply.toNat ≤ s.dtb.now.toNat → s.boot.phase ≠ .por →
    ∃ t, exec .dtbStep s = .next t ∧ t.dtb.now = s.dtb.now + BitVec.ofInt 64 r.delta ∧ t.dtb.pendingStep = none ∧ t.dtb.slew = 0 ∧
      ∀ i : Nat, t.shadow i = s.shadow i + BitVec.ofInt 64 r.delta) ∧
  (∀ (r : DtbStepReq) (s : State), s.dtb.pendingStep = some r → s.dtb.now.toNat < r.tApply.toNat → exec .dtbStep s = .next s) ∧
  (∀ s : State, s.boot.phase ≠ .por → s.dtb.slew = 0 → exec .dtbOffsetRemoved s = .next { s with dtb := { s.dtb with slewing := false } }) ∧
  (∀ s : State, s.dtb.slew ≠ 0 → exec .dtbOffsetRemoved s = .next s) ∧
  (∀ s : State, s.boot.phase ≠ .por → ∃ t, exec .dtbShadowRealign s = .next t ∧ t.dtb.now = s.dtb.now ∧ ∀ i, i < 4 → t.shadow i = s.dtb.now) ∧
  (∀ now : B64, now.toNat < 2 ^ 64 - 5000 → now.toNat + 4000 ≤ (stepTime now).toNat ∧ (stepTime now).toNat < now.toNat + 5000 ∧
    (stepTime now).toNat % 1000 = 0)) ∧
  ((∀ (p : Fin 2) (t1 t2 : B64) (s : State), s.ethLive p = true → (s.eth p).up = true → (s.eth p).master.isSome = true → s.dtb.mode ≠ .ptp →
    exec (.ptpSync p t1 t2) s = .next (s.setEth p { s.eth p with t1 := t1, t2 := t2, synced := true })) ∧
  (∀ (p : Fin 2) (t1 t2 : B64) (s : State), s.ethLive p = true → (s.eth p).up = true → (s.eth p).master.isSome = true → s.dtb.mode = .ptp →
    s.dtb.ptpPort = p.val → ((s.eth p).delay - (t2 - t1).toInt).natAbs ≤ s.dtb.threshold →
    ∃ t, exec (.ptpSync p t1 t2) s = .next t ∧ t.dtb.slew = ((s.eth p).delay - (t2 - t1).toInt) * 4294967296 ∧ t.dtb.holdover = false ∧
      t.dtb.now = s.dtb.now ∧ t.dtb.pendingStep = s.dtb.pendingStep) ∧
  (∀ (p : Fin 2) (t3 t4 : B64) (s : State), s.ethLive p = true → (s.eth p).up = true → (s.eth p).master.isSome = true →
    exec (.ptpDelayReq p t3 t4) s = .next (s.setEth p { s.eth p with delay := (((s.eth p).t2 - (s.eth p).t1).toInt + (t4 - t3).toInt) / 2 })) ∧
  (∀ (p : Fin 2) (domain : B8) (m : PtpMaster) (s : State), s.ethLive p = true → (s.eth p).up = true → domain.toNat = (s.eth p).field 16 1 →
    ∃ t, exec (.ptpAnnounce p domain m) s = .next t ∧ (t.eth p).master =
      (match (s.eth p).master with
        | none => some m
        | some b => if m.clockId = b.clockId ∨ betterMaster m b = true then some m else some b)) ∧
  (∀ (p : Fin 2) (s : State), s.dtb.mode = .ptp → s.dtb.ptpPort = p.val → (s.eth (1 - p.val)).master = none →
    ∃ t, exec (.ptpHoldover p) s = .next t ∧ (t.eth p).synced = false ∧ (t.eth p).master = none ∧ t.dtb.holdover = true) ∧
  (∀ s : State, s.dtb.ptpPort = 0 → (s.eth 0).master = none → (s.eth 1).master.isSome = true →
    exec .ptpPort s = .next (({ s with dtb := { s.dtb with ptpPort := 1 } }).log .ptpPort inMc noFn 1 0))) ∧
  ((∀ (c : Fin 17) (n : B32) (s : State), s.boot.phase ≠ .por → s.lostClocks.contains c.val = false → s.part.variant.hasClock c = true → 7 ≤ c.val →
    c.val < 11 →
    (100 * (1000 * n.toNat) < 50 * (if c.val < 9 then 1000000 else 390625) →
      ∃ t, exec (.clkLoss c n) s = .next t ∧ t.lostClocks = s.lostClocks ++ [c.val] ∧ t.greg.clkEvent = true) ∧
    (110 * (if c.val < 9 then 1000000 else 390625) < 100 * (1000 * n.toNat) →
      ∃ t, exec (.clkFast c n) s = .next t ∧ t.lostClocks = s.lostClocks ++ [c.val] ∧ t.greg.clkEvent = true)) ∧
  (∀ (c : Fin 17) (n : B32) (s : State), s.boot.phase ≠ .por → s.lostClocks.contains c.val = false → c.val < 4 → s.liveCtxs = [] →
    (100 * (1000 * n.toNat) < 50 * (s.expectedCount c).1 →
      ∃ t, exec (.clkLoss c n) s = .next t ∧ t.lostClocks = s.lostClocks ++ [c.val] ∧ (t.field c).down = true) ∧
    (110 * (s.expectedCount c).2 < 100 * (1000 * n.toNat) →
      ∃ t, exec (.clkFast c n) s = .next t ∧ t.lostClocks = s.lostClocks ++ [c.val] ∧ (t.field c).down = true)) ∧
  (∀ (c : Fin 4) (s : State), (s.field c).target = none → s.expectedCount c =
    (if s.supply.diapause then (pointKhz (s.field c).point / 2, pointKhz (s.field c).point / 2)
     else (pointKhz (s.field c).point, pointKhz (s.field c).point))) ∧
  (∀ (c : Fin 17) (n : B32) (s : State),
    (50 * (s.expectedCount c).1 ≤ 100 * (1000 * n.toNat) → exec (.clkLoss c n) s = .next s) ∧
    (100 * (1000 * n.toNat) ≤ 110 * (s.expectedCount c).2 → exec (.clkFast c n) s = .next s)) ∧
  (∀ (c : Fin 17) (n : B32) (s : State), s.lostClocks.contains c.val = true →
    exec (.clkLoss c n) s = .next s ∧ exec (.clkFast c n) s = .next s) ∧
  (∀ (c : Fin 17) (s : State), s.lostClocks.contains c.val = true → 7 ≤ c.val → c.val < 11 →
    exec (.clkRestored c) s = .next (({ s with lostClocks := s.lostClocks.filter (fun x => x != c.val) }).log .clkRestored inClk noFn c 0)) ∧
  (∀ s : State, s.lostClocks.contains 15 = true ∨ s.lostClocks.contains 16 = true → s.boot.phase = .clockHold → s.supply.shutdown = true →
    ∃ t, exec .xinRestored s = .next t ∧ t.boot.phase = .thermalHold ∧ t.lostClocks = s.lostClocks.filter (fun c => c != 15 && c != 16)))

/-- FLIT_FORWARD (R123, R128, R131). A valid entry copies the flit its source offers to its output: the facing input register of the neighbour, or the
eject output. The entries of a context between Seal and Open send nothing (R304, R307). An input register no entry names is emptied of the slot's
flit. FLIT_EJECT and SIDE_LINK_FLIT (R93, R98). A flit that passes the
entry checks joins the end of an input queue with room: of the ejecting unit, or of the neighbour the side link leads to. GATE_WRITE,
GATE_FLIT_VISIBLE, GATE_SLOT_FREED and EXCHANGE_CREDIT_RETURN (R67, R132, R133, R225). A flit written to a gate waits behind the others; HOLD rises
at 72 entries and drops below 64; a lane gets back a credit for each entry its consumer has removed, and has at most the 40 it starts with. -/
def Obligations.MyceliumMovesFlits : Prop :=
  ((∀ (site : Site) (slot : Fin 64) (o n i : Nat) (e : B16) (f : Flit) (s : State), s.ready = true → (s.field (fieldOfSite site)).down = false →
    slot ≠ 0 → o < 4 → Tab.get 0 (s.router site).slots (o * 64 + slot) = e →
    (∀ o' < 5, slotValid (Tab.get 0 (s.router site).slots (o' * 64 + slot)) = (o' == o)) →
    s.offer site slot (slotSrc e) (slotLane e) = some f → s.poisons (slotOwner e) = false → s.sealed (slotOwner e) = false →
    lead site o = .router n i →
    ∃ t, exec (.flitForward site slot) s = .next t ∧
      Tab.get [] (t.router n).regs i = (Tab.get [] (s.router n).regs i).filter (fun x : Nat × Flit => x.1 != slot.val) ++ [(slot.val, f)]) ∧
  (∀ (site : Site) (slot : Fin 64) (e : B16) (f : Flit) (s : State), s.ready = true → (s.field (fieldOfSite site)).down = false →
    slot ≠ 0 → Tab.get 0 (s.router site).slots (256 + slot) = e →
    (∀ o < 5, slotValid (Tab.get 0 (s.router site).slots (o * 64 + slot)) = (o == 4)) →
    s.offer site slot (slotSrc e) (slotLane e) = some f → s.poisons (slotOwner e) = false → s.sealed (slotOwner e) = false →
    ∃ t, exec (.flitForward site slot) s = .next t ∧
      (t.router site).eject = (s.router site).eject ++ [(slotQueue e, slotOwner e, slot.val, f)]) ∧
  (∀ (site : Site) (slot : Fin 64) (o : Nat) (s : State), s.ready = true → (s.field (fieldOfSite site)).down = false →
    slot ≠ 0 → o < 5 → s.sealed (slotOwner (Tab.get 0 (s.router site).slots (o * 64 + slot))) = true →
    (∀ o' < 5, slotValid (Tab.get 0 (s.router site).slots (o' * 64 + slot)) = (o' == o)) →
    ∃ t, exec (.flitForward site slot) s = .next t ∧ (t.router site).eject = (s.router site).eject ∧
      (t.router site).border = (s.router site).border ∧ ∀ n i, lead site o = .router n i → (t.router n).regs = (s.router n).regs) ∧
  (∀ (site : Site) (slot : Fin 64) (i : Nat) (s : State), s.ready = true → (s.field (fieldOfSite site)).down = false →
    slot ≠ 0 → i < 4 → (∀ o < 5, slotValid (Tab.get 0 (s.router site).slots (o * 64 + slot)) = false) →
    gateInto site i = none → (i = 3 → edgeAt site = none) →
    ∃ t, exec (.flitForward site slot) s = .next t ∧
      Tab.get [] (t.router site).regs i = (Tab.get [] (s.router site).regs i).filter (fun x : Nat × Flit => (x.1 + 1) % 64 != slot.val))) ∧
  ((∀ (site : Site) (ecc : Ecc) (q o slot : Nat) (f g : Flit) (fixed par : Bool) (m : List (Nat × Nat × Nat × Flit)) (s : State),
    (s.router site).eject = (q, o, slot, f) :: m → s.works site = true → kindOf site ≠ .p →
    arrive (s.epoch (if (s.unit site).inCtx then (s.unit site).owner else o)) ecc f = .take g fixed par →
    (Tab.get [] (s.unit site).queues q).length < 64 →
    ∃ t, exec (.flitEject (.unit site) ecc) s = .next t ∧ (t.router site).eject = m ∧
      ((s.unit site).rot = none → (s.modes.hazard && s.modes.hazFault) = false →
        Tab.get [] (t.unit site).queues q = Tab.get [] (s.unit site).queues q ++ [{ flit := g, ex := s.exchAt site slot }])) ∧
  (∀ (site : Site) (n : Nat) (f g : Flit) (fixed par : Bool) (m : List (Bool × Flit)) (s : State),
    (s.modes.hazard && s.modes.hazFault) = false → (s.unit site).side = (true, f) :: m → (s.unit n).rot = none → site.val % 16 ≠ 15 → n = site.val + 1 → s.works n = true → kindOf n ≠ .p → kindOf n ≠ .t →
    arrive (s.epoch (if (s.unit n).inCtx then (s.unit n).owner else (s.unit site).owner)) .clean f = .take g fixed par →
    (Tab.get [] (s.unit n).queues 0).length < 64 →
    ∃ t, exec (.sideLinkFlit site true) s = .next t ∧ (t.unit site).side = m ∧
      Tab.get [] (t.unit n).queues 0 = Tab.get [] (s.unit n).queues 0 ++ [{ flit := g }]) ∧
  (∀ (site : Site) (n : Nat) (f g : Flit) (fixed par : Bool) (m : List (Bool × Flit)) (s : State),
    (s.modes.hazard && s.modes.hazFault) = false → (s.unit site).side = (false, f) :: m → (s.unit n).rot = none → site.val % 16 ≠ 0 → n = site.val - 1 → s.works n = true → kindOf n ≠ .p →
    arrive (s.epoch (if (s.unit n).inCtx then (s.unit n).owner else (s.unit site).owner)) .clean f = .take g fixed par →
    (Tab.get [] (s.unit n).queues 0).length < 64 →
    ∃ t, exec (.sideLinkFlit site false) s = .next t ∧ (t.unit site).side = m ∧
      Tab.get [] (t.unit n).queues 0 = Tab.get [] (s.unit n).queues 0 ++ [{ flit := g }])) ∧
  ((∀ (g : Fin 112) (o k : Nat) (f : Flit) (m : List (Nat × Nat × Flit)) (s : State),
    (s.router (gateWriter g).1).border = (o, k, f) :: m → o = (gateWriter g).2 → flitKind f ≠ kBubble →
    (s.gate g).q.length + (s.gate g).freed < 96 →
    ∃ t, exec (.gateWrite g) s = .next t ∧ (t.router (gateWriter g).1).border = m ∧ (t.gate g).q = (s.gate g).q ++ [(f, false)] ∧
      ((s.gate g).hold = false → (t.gate g).hold = decide (72 ≤ (s.gate g).q.length + 1 + (s.gate g).freed))) ∧
  (∀ (g : Fin 112) (a b : List (Flit × Bool)) (f : Flit) (s : State), (s.gate g).q = a ++ (f, false) :: b → (∀ x ∈ a, x.2 = true) →
    ∃ t, exec (.gateFlitVisible g) s = .next t ∧ (t.gate g).q = a ++ (f, true) :: b) ∧
  (∀ (g : Fin 112) (s : State), (s.gate g).freed ≠ 0 →
    ∃ t, exec (.gateSlotFreed g) s = .next t ∧ (t.gate g).freed = (s.gate g).freed - 1 ∧ (t.gate g).q = (s.gate g).q ∧
      ((s.gate g).hold = true → (t.gate g).hold = decide (64 ≤ (s.gate g).q.length + ((s.gate g).freed - 1)))) ∧
  (∀ (site : Site) (lane : Fin 4) (n : Fin 64) (c m : Nat) (s : State),
    s.units.find? (fun e : Nat × Machine.Unit => decide (0 < Tab.get 0 e.2.backs (4 * site.val + lane.val))) = some (c, s.unit c) →
    m = min n.val (Tab.get 0 (s.unit c).backs (4 * site.val + lane.val)) →
    ∃ t, exec (.exchangeCreditReturn site lane n) s = .next t ∧
      Tab.get 0 (t.unit c).backs (4 * site.val + lane.val) = Tab.get 0 (s.unit c).backs (4 * site.val + lane.val) - m ∧
      (t.unit site).credits = (s.unit site).credits.map (fun c : Nat × Nat => if c.1 = lane.val then (c.1, min 40 (c.2 + m)) else c)) ∧
  (∀ (site : Site) (lane : Fin 4) (n : Fin 64) (s : State), (∀ e ∈ s.units, Tab.get 0 e.2.backs (4 * site.val + lane.val) = 0) →
    exec (.exchangeCreditReturn site lane n) s = .next s))

/-- STALL_ASSERT, FREEZE_SET, STALL_MIN_HOLD_END, FREEZE_CLEAR and STALL_OFF (R139-R143, R149). A request of an enabled origin asserts the group of a
running context, whose members freeze; the group stays asserted for its minimum hold and while a request stands; released, its members resume, and a
unit has counted the cycles it was frozen. STALL_OFF is due once for a run of assertions. -/
def Obligations.GroupsStall : Prop :=
  (∀ (g : Owner) (s : State), (s.group g).asserted = false → (s.group g).masked = false → s.groupWanted g = true → s.running g = true →
    ∃ t, exec (.stallAssert g) s = .next t ∧ (t.group g).asserted = true ∧ (t.group g).minHold = true ∧ (t.group g).since = s.kcycles ∧
      (t.group g).count = sat32 (s.group g).count 1) ∧
  (∀ (site : Site) (g : Nat) (s : State), s.memberGroup (.unit site) = some g → (s.group g).asserted = true → (s.group g).masked = false →
    ∃ t, exec (.freezeSet (.unit site)) s = .next t ∧ (t.unit site).frozen = true) ∧
  (∀ (st : StreamId) (g : Nat) (s : State), s.memberGroup (.stream st) = some g → (s.group g).asserted = true → (s.group g).masked = false →
    ∃ t, exec (.freezeSet (.stream st)) s = .next t ∧ (t.strm st).frozen = true) ∧
  (∀ (i : Fin 112) (g : Nat) (s : State), s.memberGroup (.gate i) = some g → (s.group g).asserted = true → (s.group g).masked = false →
    ∃ t, exec (.freezeSet (.gate i)) s = .next t ∧ (t.gate i).frozen = true) ∧
  (∀ (g : Owner) (s : State), (s.group g).asserted = true →
    ∃ t, exec (.stallMinHoldEnd g) s = .next t ∧ (t.group g).asserted = s.groupWanted g ∧ (t.group g).minHold = false) ∧
  (∀ (site : Site) (cycles : B64) (g : Nat) (s : State), s.memberGroup (.unit site) = some g → (s.group g).asserted = false →
    (s.unit site).frozen = true → (s.modes.hazard && s.modes.hazFault) = false →
    ∃ t, exec (.freezeClear (.unit site) cycles) s = .next t ∧ (t.unit site).frozen = false ∧
      (t.unit site).stallCyc = (s.unit site).stallCyc + cycles) ∧
  (∀ (i : Fin 112) (cycles : B64) (g : Nat) (s : State), s.memberGroup (.gate i) = some g → (s.group g).asserted = false →
    ∃ t, exec (.freezeClear (.gate i) cycles) s = .next t ∧ (t.gate i).frozen = false) ∧
  (∀ (g : Owner) (x n : Nat) (s : State), (s.group g).off = some (x, n) → (s.group g).asserted = false →
    ∃ t, exec (.stallOff g) s = .next t ∧ (t.group g).off = none ∧ t = (s.setGroup g { s.group g with off := none }).log .stallOff inHub (s.ctxFn g) g
      (packBits [(32, min x 0xFFFFFFFF), (32, min n 0xFFFFFFFF)]))

/-- NOP, SYNC, LOOP and ENDL (R264, R273, Table 10-6). NOP spends its count and one cycle more, SYNC goes on once its conditions hold, LOOP opens a
counter with its count and its last word, ENDL repeats the innermost loop, for ever on a count of 0, or closes it. POP and PUSH (R98, R259, R271).
POP removes the bound entry of each queue it names; PUSH sends a bound entry on with the key it came with, or queues a window sequence for a
generator with room for it. -/
def Obligations.ProgramsRunAndQueuesPop : Prop :=
  ((∀ (site : Site) (w : Waits) (pc word : Nat) (v : Machine.Unit) (s : State), Issues s site w pc word v → fOp word = 0x00 →
    ∃ t, exec (.microNop site w) s = .next t ∧ GoesOn v (t.unit site) pc (bits word 0 16 + 1) ∧ (t.unit site).loops = v.loops) ∧
  (∀ (site : Site) (w : Waits) (pc word : Nat) (v : Machine.Unit) (s : State), Issues s site w pc word v → fOp word = 0x11 → v.synced word = true →
    ∃ t, exec (.sync site w) s = .next t ∧ GoesOn v (t.unit site) pc 1 ∧ (t.unit site).loops = v.loops) ∧
  (∀ (site : Site) (w : Waits) (pc word : Nat) (v : Machine.Unit) (s : State), Issues s site w pc word v → fOp word = 0x0E →
    ∃ t, exec (.loop site w) s = .next t ∧ GoesOn v (t.unit site) pc 1 ∧ (t.unit site).loops = bits word 46 2 :: v.loops ∧
      (t.unit site).lc = Tab.set v.lc (bits word 46 2) { index := 0, count := bits word 30 16, start := v.nextPc pc, finish := bits word 20 10 }) ∧
  (∀ (site : Site) (w : Waits) (pc word l : Nat) (m : List Nat) (c : Loop) (v : Machine.Unit) (s : State), Issues s site w pc word v → fOp word = 0x0F →
    v.loops = l :: m → Tab.get { index := 0, count := 0, start := 0, finish := 0 } v.lc l = c →
    ∃ t, exec (.endl site w) s = .next t ∧ (t.unit site).active = v.active ∧
      (if c.count = 0 ∨ c.index + 1 < c.count then
        (t.unit site).pc = c.start ∧ (t.unit site).loops = v.loops ∧
          (Tab.get { index := 0, count := 0, start := 0, finish := 0 } (t.unit site).lc l).index = (c.index + 1) % 65536
      else (t.unit site).pc = v.nextPc pc ∧ (t.unit site).loops = m))) ∧
  ((∀ (site : Site) (w : Waits) (pc word q : Nat) (e : QEnt) (v : Machine.Unit) (s : State), Issues s site w pc word v → fOp word = 0x02 →
    q < 3 → bits word 45 3 = 2 ^ q → v.bound q = some e → flitKind e.flit ≠ kEof →
    ∃ t, exec (.pop site w) s = .next t ∧ GoesOn v (t.unit site) pc 1 ∧
      Tab.get [] (t.unit site).queues q = (Tab.get [] v.queues q).eraseP (fun x => x.bound)) ∧
  (∀ (site : Site) (w : Waits) (pc word q : Nat) (e : QEnt) (v : Machine.Unit) (s : State), Issues s site w pc word v → fOp word = 0x03 →
    bits word 43 4 = 8 + q → q < 3 → fFlag word 0 = false → v.bound q = some e → flitKind e.flit = kData →
    ∃ t, exec (.push site w) s = .next t ∧ GoesOn v (t.unit site) pc 1 ∧ (t.unit site).side = v.side ++ [(bit word 47,
      mkFlit kData v.cur.stream v.cur.fseq (flitLine e.flit) (flitChan e.flit) (flitChunk e.flit) (s.epoch v.owner) e.flit.pay)]) ∧
  (∀ (site : Site) (w : Waits) (pc word g : Nat) (v : Machine.Unit) (s : State), Issues s site w pc word v → fOp word = 0x03 → fFlag word 0 = true →
    g = (if bit word 47 then 1 else 0) → (Tab.get [] v.gens g).length < 2 →
    ∃ t q, exec (.push site w) s = .next t ∧ GoesOn v (t.unit site) pc 1 ∧ Tab.get [] (t.unit site).gens g = Tab.get [] v.gens g ++ [q] ∧
      q.wd = bits word 40 3 ∧ q.nchunk = bits word 28 8 ∧ q.line = ((v.key (bits word 36 4)).1.getD 0) ∧
      q.chunk = ((v.key (bits word 36 4)).2.2.getD 0) ∧ q.stream = v.cur.stream ∧ q.fseq = v.cur.fseq))

/-- MOV (R272, Table 10-6). A counter register takes an immediate or the sum of a counter register and one; a V-unit's vector register takes the 64
lanes of another; an S-unit stores a bound entry in a gill. -/
def Obligations.Moves : Prop :=
  (∀ (site : Site) (w : Waits) (pc word : Nat) (v : Machine.Unit) (s : State), Issues s site w pc word v → fOp word = 0x0D → bits word 46 2 = 1 →
    ∃ t, exec (.mov site w) s = .next t ∧ GoesOn v (t.unit site) pc 1 ∧
      (t.unit site).x = Tab.set v.x (bits word 42 4) (BitVec.ofNat 32 (bits word 0 32))) ∧
  (∀ (site : Site) (w : Waits) (pc word : Nat) (v : Machine.Unit) (s : State), Issues s site w pc word v → fOp word = 0x0D → bits word 46 2 = 2 →
    ∃ t, exec (.mov site w) s = .next t ∧ GoesOn v (t.unit site) pc 1 ∧
      (t.unit site).x = Tab.set v.x (bits word 42 4) (Tab.get 0 v.x (bits word 38 4) + BitVec.ofNat 32 (bits word 0 32))) ∧
  (∀ (site : Site) (w : Waits) (pc word : Nat) (v : Machine.Unit) (s : State), Issues s site w pc word v → fOp word = 0x0D → bits word 46 2 = 0 →
    kindOf site = .v → bits word 42 4 < 8 → bits word 38 4 < 8 →
    ∃ t, exec (.mov site w) s = .next t ∧ GoesOn v (t.unit site) pc 1 ∧ ∀ i < 64,
      (Tab.get [] (t.unit site).h (bits word 42 4)).getD i 0 = to16 (to32 ((Tab.get [] (v.settle v.cyc).h (bits word 38 4)).getD i 0))) ∧
  (∀ (site : Site) (w : Waits) (pc word q : Nat) (v : Machine.Unit) (s : State), Issues s site w pc word v → fOp word = 0x0D → bits word 46 2 = 3 →
    kindOf site = .s → v.boundQ = some q →
    ∃ t, exec (.mov site w) s = .next t ∧ GoesOn v (t.unit site) pc 1 ∧
      (t.unit site).mem = (v.storeGill (bits word 43 3) q (v.readQ q)).mem)

/-- LDW, ACC, BIAS, MAC, REQ and REQ_DRAIN (R100-R103, R182, R183, R187, R260-R262). LDW writes a weight word; ACC opens a block of K steps at the
weight word it names; BIAS sets the first channel of the next block; MAC adds a step of the bound activation codes and the weight word, the K-th of
an armed block to the drain set; REQ arms the open block with its key; the drain sends one flit for each channel, four where it sends accumulators.
-/
def Obligations.BlocksReduce : Prop :=
  (∀ (site : Site) (w : Waits) (pc word : Nat) (v : Machine.Unit) (s : State), Issues s site w pc word v → fOp word = 0x04 →
    ∃ t, exec (.ldw site w) s = .next t ∧ GoesOn v (t.unit site) pc 1 ∧ (t.unit site).wide 4 (bits word 38 10) = (v.readQ 2).pay) ∧
  (∀ (site : Site) (w : Waits) (pc word : Nat) (v : Machine.Unit) (s : State), Issues s site w pc word v → fOp word = 0x06 → kindOf site = .m →
    fFlag word 0 = false →
    ∃ t, exec (.acc site w) s = .next t ∧ GoesOn v (t.unit site) pc 1 ∧ (t.unit site).wp = bits word 22 10 ∧
      (t.unit site).block = some { k := bits word 32 16, c0 := v.c0, psum := none, psums := [] }) ∧
  (∀ (site : Site) (w : Waits) (pc word : Nat) (v : Machine.Unit) (s : State), Issues s site w pc word v → fOp word = 0x07 →
    ∃ t, exec (.bias site w) s = .next t ∧ GoesOn v (t.unit site) pc 1 ∧ (t.unit site).c0 = bits word 40 8) ∧
  (∀ (site : Site) (w : Waits) (pc word : Nat) (b : Block) (v : Machine.Unit) (s : State), Issues s site w pc word v → fOp word = 0x05 →
    v.block = some b → b.psum = none → b.done + 1 < b.k →
    ∃ t, exec (.mac site w) s = .next t ∧ GoesOn v (t.unit site) pc 1 ∧ (t.unit site).wp = (v.wp + 1) % 1024 ∧ (t.unit site).drain = v.drain ∧
      (t.unit site).block = some { b with sf8 := some (fFlag word 0), steps := ((v.readQ 0).pay, v.wide 4 v.wp) :: b.steps, done := b.done + 1 }) ∧
  (∀ (site : Site) (w : Waits) (pc word r : Nat) (b : Block) (v : Machine.Unit) (s : State), Issues s site w pc word v → fOp word = 0x05 →
    v.block = some b → b.psum = none → b.done + 1 = b.k → b.req = some r → v.drainFree = true →
    ∃ t d, exec (.mac site w) s = .next t ∧ GoesOn v (t.unit site) pc 1 ∧ (t.unit site).block = none ∧ (t.unit site).drain = some d ∧
      d.steps = ((v.readQ 0).pay, v.wide 4 v.wp) :: b.steps ∧ d.stream = v.cur.stream ∧ d.fseq = v.cur.fseq ∧ d.req = some r) ∧
  (∀ (site : Site) (w : Waits) (pc word : Nat) (b : Block) (v : Machine.Unit) (s : State), Issues s site w pc word v → fOp word = 0x08 →
    v.block = some b → b.done < b.k →
    ∃ t, exec (.req site w) s = .next t ∧ GoesOn v (t.unit site) pc 1 ∧ (t.unit site).block = some { b with
      req := some word, line := (v.key (bits word 42 4)).1.getD 0, chan := (v.key (bits word 42 4)).2.1.getD 0
      chunk := (v.key (bits word 42 4)).2.2.getD 0 }) ∧
  (∀ (site : Site) (b : Block) (s : State), s.mayIssue site = true → (s.unit site).drain = some b → b.psum = none →
    (s.modes.hazard && s.modes.hazFault) = false →
    ∃ t, exec (.reqDrain site) s = .next t ∧ (t.unit site).drain = none ∧ ∃ fs : List Flit,
      laneFlits (t.unit site) (bits (b.req.getD 0) 46 2) = laneFlits (s.unit site) (bits (b.req.getD 0) 46 2) ++ fs ∧
      fs.length = (if fFlag (b.req.getD 0) 3 then 4 * b.chans else b.chans))

/-- ACT, ADD, MUL and POOL (R189, R193, R266, R267, R275). The results of a V-unit operation become usable at its latency: 4 cycles for the look-up, 6
for the reciprocal and the exponential, 3 for ADD and MUL, the window's rows and 4 for POOL. Global averaging adds columns to a sum. EMIT, DWC and
ROT (R129, R194, R263, R266, R267). Their flits join an inject lane behind those already there: the codes of a vector register, of a convolution
over the rows, the column past a stripe's width filled with the zero point (R207). ROT starts with its first flit, takes the others as they come,
and with the last sends the transform of the run of channels. -/
def Obligations.VectorUnitsCompute : Prop :=
  ((∀ (site : Site) (w : Waits) (pc word lo : Nat) (v : Machine.Unit) (s : State), Issues s site w pc word v → fOp word = 0x09 → bits word 44 4 < 8 →
    lo = hiLane word →
    ∃ t, exec (.act site w) s = .next t ∧ GoesOn v (t.unit site) pc 1 ∧ (t.unit site).pend = insertPend
      { reg := .h (bits word 44 4), at_ := v.cyc + (if bits word 38 2 = 0 then 4 else 6), lo := lo
        vals := ((issueState s site v).src16 site (bits word 40 4) lo v.cyc).map (fun x =>
          to16 (to32 (if bits word 38 2 = 0 then actLook v.vtab x else if bits word 38 2 = 1 then recip16 x else exp16 x))) } v.pend) ∧
  (∀ (site : Site) (w : Waits) (pc word lo : Nat) (v : Machine.Unit) (s : State), Issues s site w pc word v → fOp word = 0x0B → bits word 44 4 < 8 →
    lo = hiLane word →
    ∃ t, exec (.add site w) s = .next t ∧ GoesOn v (t.unit site) pc 1 ∧ (t.unit site).pend = insertPend
      { reg := .h (bits word 44 4), at_ := v.cyc + 3, lo := lo
        vals := (((issueState s site v).src16 site (bits word 40 4) lo (v.cyc + lo / 32)).zip
          ((issueState s site v).src16 site (bits word 36 4) lo (v.cyc + lo / 32))).map (fun p => to16 (add32 (to32 p.1) (to32 p.2))) } v.pend) ∧
  (∀ (site : Site) (w : Waits) (pc word lo : Nat) (v : Machine.Unit) (s : State), Issues s site w pc word v → fOp word = 0x0C → 12 ≤ bits word 44 4 →
    lo = hiLane word →
    ∃ t, exec (.mul site w) s = .next t ∧ GoesOn v (t.unit site) pc 1 ∧ (t.unit site).pend = insertPend
      { reg := .z (bits word 44 4 - 12), at_ := v.cyc + 3, lo := lo
        vals := (((issueState s site v).src16 site (bits word 40 4) lo (v.cyc + lo / 32)).zip
          ((issueState s site v).src16 site (bits word 36 4) lo (v.cyc + lo / 32))).map (fun p => mul32 (to32 p.1) (to32 p.2)) } v.pend) ∧
  (∀ (site : Site) (w : Waits) (pc word k : Nat) (v : Machine.Unit) (s : State), Issues s site w pc word v → fOp word = 0x0A → bits word 42 2 < 2 →
    12 ≤ bits word 44 4 → k = (if bit word 41 then 3 else 2) → v.rot = none →
    ∃ t, exec (.pool site w) s = .next t ∧ GoesOn v (t.unit site) pc 1 ∧ (t.unit site).rowOut = (v.rowOut + 1) % 256 ∧
      (t.unit site).pend = insertPend { reg := .z (bits word 44 4 - 12), at_ := v.cyc + k + 4, lo := hiLane word
                                        vals := v.poolY word (v.lastRows k) (v.poolChunk (if bit word 40 then 2 else 1)) } v.pend) ∧
  (∀ (site : Site) (w : Waits) (pc word : Nat) (v : Machine.Unit) (s : State), Issues s site w pc word v → fOp word = 0x0A → bits word 42 2 = 2 →
    v.rot = none →
    ∃ t, exec (.pool site w) s = .next t ∧ GoesOn v (t.unit site) pc 1 ∧ (t.unit site).bankA.sum = (v.gapAdd (bits word 44 4)).bankA.sum ∧
      (t.unit site).pend = v.pend)) ∧
  ((∀ (site : Site) (w : Waits) (pc word : Nat) (v : Machine.Unit) (s : State), Issues s site w pc word v → fOp word = 0x10 → kindOf site = .v →
    (bits word 42 4 < 8 ∨ 12 ≤ bits word 42 4) → bits word 39 3 = kData → fFlag word 1 = false → fFlag word 2 = false → v.laneRoom (bits word 46 2) 1 = true →
    ∃ t, exec (.emit site w) s = .next t ∧ GoesOn v (t.unit site) pc 1 ∧ laneFlits (t.unit site) (bits word 46 2) = laneFlits v (bits word 46 2) ++
      [(issueState s site v).keyFlit site kData (bits word 35 4) 0 0 (payOf (v.fillUp (bits word 35 4) ((v.key (bits word 35 4)).2.2.getD 0)
        (zoOf (fFlag word 0) (bits word 21 8)) (codesOf ((issueState s site v).src32 site (bits word 42 4) 0 v.cyc)
        (sext 6 (bits word 29 6)) (zoOf (fFlag word 0) (bits word 21 8)) (fFlag word 0))))]) ∧
  (∀ (site : Site) (w : Waits) (pc word q : Nat) (v : Machine.Unit) (s : State), Issues s site w pc word v → fOp word = 0x10 → kindOf site ≠ .v →
    bits word 42 4 = 8 + q → q < 3 → v.laneRoom (bits word 46 2) (emitCount site word) = true → fFlag word 1 = false →
    ∃ t, exec (.emit site w) s = .next t ∧ GoesOn v (t.unit site) pc 1 ∧ laneFlits (t.unit site) (bits word 46 2) = laneFlits v (bits word 46 2) ++
      [(issueState s site v).keyFlit site (bits word 39 3) (bits word 35 4) 0 0 (v.readQ q).pay]) ∧
  (∀ (site : Site) (w : Waits) (pc word chunk : Nat) (v : Machine.Unit) (s : State), Issues s site w pc word v → fOp word = 0x14 →
    v.laneRoom (bits word 46 2) 1 = true → v.rot = none → chunk = (v.key (bits word 35 4)).2.2.getD 0 →
    ∃ t, exec (.dwc site w) s = .next t ∧ GoesOn v (t.unit site) pc 1 ∧ laneFlits (t.unit site) (bits word 46 2) = laneFlits v (bits word 46 2) ++
      [(issueState s site v).keyFlit site kData (bits word 35 4) 0 0 (payOf (v.fillUp (bits word 35 4) chunk (zoOf (fFlag word 0) (bits word 21 8)) (codesOf
        (v.dwcY word (v.lastRows (if bit word 45 then 5 else 3)) chunk) (sext 6 (bits word 29 6)) (zoOf (fFlag word 0) (bits word 21 8)) (fFlag word 0))))]) ∧
  (∀ (site : Site) (w : Waits) (pc word : Nat) (v u : Machine.Unit) (c : Cur) (r : RotRun) (s : State), Issues s site w pc word v → fOp word = 0x13 →
    v.laneRoom (bits word 46 2) 1 = true → v.rot = none → v.rotCur word = some c → u = (issueState s site v).unit site →
    (Unit.rotTake 64 { u with rot := some (u.rotStart word c), cur := c }).rot = some r →
    ∃ t fs, exec (.rot site w) s = .next t ∧ GoesOn v (t.unit site) pc 1 ∧
      laneFlits (t.unit site) (bits word 46 2) = laneFlits v (bits word 46 2) ++ fs ∧
      (if r.got.length < rotSize word then (t.unit site).rot = some r ∧ fs = [] else (t.unit site).rot = none ∧ fs.length = rotSize word)))

/-- TCMP, TLEAF and the ACC of a T-unit (R234-R237, R269). A comparator gives the direction of its node word on the node's feature, an
uncorrectable word of the node memory read as zeros and reported (R110, R112); a group's leaves add to the accumulators, padding trees adding nothing; ACC sets them to the model's BASE values. -/
def Obligations.TreesCompute : Prop :=
  (∀ (site : Site) (w : Waits) (pc word i n g : Nat) (v : Machine.Unit) (s : State), Issues s site w pc word v → fOp word = 0x16 →
    g = bits word 43 5 → (g = 31 → 96 ≤ v.streamed.length) → w.ecc ≠ .bad → i < 8 → n < 63 →
    ∃ t, exec (.tcmp site w) s = .next t ∧ GoesOn v (t.unit site) pc 1 ∧
      ((t.unit site).dirs.getD i []).getD n false = nodeDir (v.nodeWord (decide (g = 31)) (groupBase g + 256 * i + 4 + 4 * n))
        (Tab.get 0x7E00 v.fv (bits (v.nodeWord (decide (g = 31)) (groupBase g + 256 * i + 4 + 4 * n)) 8 8)) v.extBit) ∧
  (∀ (site : Site) (w : Waits) (pc word g : Nat) (v : Machine.Unit) (s : State), Issues s site w pc word v → fOp word = 0x16 →
    g = bits word 43 5 → (g = 31 → 96 ≤ v.streamed.length) → w.ecc = .bad → (g ≠ 31 ∧ w.eccAt.val / 96 = g) ∨ 2016 ≤ w.eccAt.val →
    ∃ t, exec (.tcmp site w) s = .next t ∧ GoesOn v (t.unit site) pc 1 ∧ (t.unit site).mem = v.mem ∧ t.greg.ue = true ∧
      (t.unit site).dirs = ((v.setWide 6 w.eccAt 0).tcmp g).dirs) ∧
  (∀ (site : Site) (w : Waits) (pc word : Nat) (v : Machine.Unit) (s : State), Issues s site w pc word v → fOp word = 0x17 → w.ecc ≠ .bad →
    ∃ t, exec (.tleaf site w) s = .next t ∧ GoesOn v (t.unit site) pc 1 ∧ (t.unit site).tacc = (v.tleaf (bits word 43 5)).tacc ∧
      ((∀ i < 8, bit (v.nodeWord (decide (bits word 43 5 = 31)) (groupBase (bits word 43 5) + 256 * i)) 27 = true) → (t.unit site).tacc = v.tacc)) ∧
  (∀ (site : Site) (w : Waits) (pc word i : Nat) (v : Machine.Unit) (s : State), Issues s site w pc word v → fOp word = 0x06 → kindOf site = .t →
    fFlag word 1 = false → i < 16 →
    ∃ t, exec (.acc site w) s = .next t ∧ GoesOn v (t.unit site) pc 1 ∧ Tab.get 0 (t.unit site).tacc i = (s.modelBase site).getD i 0)

/-- STATS, STATS_RECORD_SEND, STATS_BANK_CLOSE and STATS_BANK_RELEASE (R105, R199, R200, R268). An M-unit's record of a frame leaves on the lane STATS
chose and its set is cleared; a V-unit's bank closes at the end of a frame and a fresh one opens, or the frame's statistics are lost while the last
bank is held; a bank nobody has still to read is released. GENERATOR_SEQUENCE, SCRUB_READ and SERVICE_ACCESS (R107-R111, R209-R215, R271). A
generator sends flits of its first window sequence over its side link and drops the sequence at its end; an access that meets an earlier one of the
order write, generator 1, generator 0 in its bank waits a cycle and is counted; the scrubber walks the words in turn; the service port, when its
arbiter grants it, writes whole words. -/
def Obligations.StatisticsAndMemories : Prop :=
  ((∀ (site : Site) (w : Waits) (pc word : Nat) (v : Machine.Unit) (s : State), Issues s site w pc word v → fOp word = 0x15 → kindOf site = .m →
    ∃ t, exec (.stats site w) s = .next t ∧ GoesOn v (t.unit site) pc 1 ∧ (t.unit site).statsTo = some (bits word 46 2, bits word 42 4)) ∧
  (∀ (site : Site) (w : Waits) (pc word : Nat) (v : Machine.Unit) (s : State), Issues s site w pc word v → fOp word = 0x15 → kindOf site = .v →
    ∃ t, exec (.stats site w) s = .next t ∧ GoesOn v (t.unit site) pc 1 ∧ (t.unit site).histChan = bits word 37 8) ∧
  (∀ (site : Site) (st f8 lane kd : Nat) (s : State), kindOf site = .m → s.mayIssue site = true → (s.unit site).statsDue = some (st, f8) →
    (s.unit site).drain = none → (s.unit site).block = none → (s.unit site).statsTo = some (lane, kd) →
    (s.modes.hazard && s.modes.hazFault) = false →
    ∃ t fs, exec (.statsRecordSend site) s = .next t ∧ (t.unit site).statsDue = none ∧
      (∀ c < 256, Tab.get 0 (t.unit site).satcount (f8 % 2 * 256 + c) = 0 ∧ Tab.get 0 (t.unit site).maxabs (f8 % 2 * 256 + c) = 0) ∧
      (∀ c < 256, Tab.get 0 (t.unit site).satcount ((f8 + 1) % 2 * 256 + c) = Tab.get 0 (s.unit site).satcount ((f8 + 1) % 2 * 256 + c)) ∧
      laneFlits (t.unit site) lane = laneFlits (s.unit site) lane ++ fs ∧
      fs.map (fun f : Flit => f.pay) = (s.unit site).recordPays (f8 % 2 * 256)) ∧
  (∀ (site : Site) (st f8 : Nat) (s : State), kindOf site = .v → (s.unit site).inCtx = true → (s.unit site).frozen = false →
    (s.unit site).statsDue = some (st, f8) → (s.unit site).bankC = none → (s.unit site).bankHeld = false →
    ∃ t b, exec (.statsBankClose site) s = .next t ∧ (t.unit site).bankA = {} ∧ (t.unit site).bankC = some b ∧ b.stream = st ∧ b.fseq = f8 ∧
      b.sum = (s.unit site).bankA.sum ∧ b.hist = (s.unit site).bankA.hist ∧ b.maxabs = (s.unit site).bankA.maxabs ∧ b.sat = (s.unit site).bankA.sat) ∧
  (∀ (site : Site) (st f8 : Nat) (b : Bank) (s : State), kindOf site = .v → (s.unit site).inCtx = true → (s.unit site).frozen = false →
    (s.unit site).statsDue = some (st, f8) → (s.unit site).bankC = some b →
    ∃ t, exec (.statsBankClose site) s = .next t ∧ (t.unit site).bankA = {} ∧ (st, f8) ∈ (t.unit site).statsLost) ∧
  (∀ (site : Site) (b : Bank) (s : State), (s.unit site).bankC = some b → b.readers = [] → (s.unit site).bankHeld = false →
    ∃ t, exec (.statsBankRelease site) s = .next t ∧ (t.unit site).bankC = none)) ∧
  ((∀ (site : Site) (gen : Fin 2) (n : Fin 65) (q : GenSeq) (m : List GenSeq) (d : WinDesc) (k : Nat) (s : State), s.mayIssue site = true →
    Tab.get [] (s.unit site).gens gen.val = q :: m → d = Tab.get {} (s.unit site).wins q.wd →
    k = min n.val (q.nchunk * max (d.kh * d.kw * d.cin) 1 - q.pos) → (s.modes.hazard && s.modes.hazFault) = false →
    ∃ t, exec (.generatorSequence site gen n .clean) s = .next t ∧
      (Tab.get [] (t.unit site).gens gen.val).map (fun x : GenSeq => { x with at_ := 0 }) =
        (if q.pos + k = q.nchunk * max (d.kh * d.kw * d.cin) 1 then m else { q with pos := q.pos + k } :: m).map (fun x : GenSeq => { x with at_ := 0 }) ∧
      (t.unit site).side.length = (s.unit site).side.length + k) ∧
  (∀ (u : Machine.Unit) (t rank b : Nat), u.port = [(t, b, 2)] → rank < 2 → u.bankConf.toNat < 2 ^ 32 - 1 →
    (Unit.portUse 8 u t rank [b]).1.bankConf = u.bankConf + 1 ∧ (Unit.portUse 8 u t rank [b]).2 = t + 1) ∧
  (∀ (site : Site) (i : Fin 8) (s : State), (s.arb (arbCode (.service site))).holder = none → (s.arb (arbCode (.service site))).reqs = [] →
    i < arbInputs (.service site) → ∃ u, s.useArb (.service site) i = some u) ∧
  (∀ (site : Site) (e : Ecc) (r : Bool) (a : ServiceAcc) (s : State),
    (s.useArb (.service site) 0 = none → exec (.scrubRead site e r) s = .next s) ∧
    (s.useArb (.service site) a.input = none → exec (.serviceAccess site a) s = .next s)) ∧
  (∀ (site : Site) (s u : State), s.ready = true → s.works site = true → kindOf site = .s → s.useArb (.service site) 0 = some u →
    ∃ t, exec (.scrubRead site .clean false) s = .next t ∧ (t.unit site).scrub = ((s.unit site).scrub + 1) % 16384) ∧
  (∀ (site : Site) (a : ServiceAcc) (v : BitVec 256) (s u : State), s.ready = true → s.works site = true → kindOf site = .s → a.data = some v →
    s.useArb (.service site) a.input = some u →
    ∃ t, exec (.serviceAccess site a) s = .next t ∧ (t.unit site).wide 5 a.word = v) ∧
  (∀ (site : Site) (a : ServiceAcc) (s u : State), s.ready = true → s.works site = true → kindOf site = .s → a.data = none → a.ecc = .corrected →
    s.useArb (.service site) a.input = some u →
    ∃ t, exec (.serviceAccess site a) s = .next t ∧ (t.unit site).eccCe = sat32 (s.unit site).eccCe 1))

/-- ILLEGAL_OP, SPILL, PROG_UE and TAG_DEADLOCK (R96, R251, R255, R316). The unit halts; the context enters FAULT with the cause. -/
def Obligations.ProgramsFault : Prop :=
  (∀ (site : Site) (w : Waits) (u : Machine.Unit) (s : State), s.mayIssue site = true → (s.unit site).badWait (kindOf site) (s.unit site).group = false →
    Unit.bindAll (needs (s.unit site).group.waits) (s.unit site) = (none, u) →
    (u.advance (u.busyUntil (s.unit site).group.word) w).illegal (kindOf site) (s.unit site).group.word = true →
    fOp (s.unit site).group.word ≠ 0x12 →
    ∃ t c, exec (.illegalOp site w) s = .next t ∧ (t.unit site).halted = true ∧ t.ctx (s.unit site).owner = some c ∧ c.state = .fault ∧
      c.cause = Cause.illegalOp.code) ∧
  (∀ (site : Site) (w : Waits) (s : State), s.mayIssue site = true → (s.unit site).badWait (kindOf site) (s.unit site).group = true →
    ∃ t c, exec (.illegalOp site w) s = .next t ∧ (t.unit site).halted = true ∧ t.ctx (s.unit site).owner = some c ∧ c.state = .fault ∧
      c.cause = Cause.illegalOp.code) ∧
  (∀ (site : Site) (w : Waits) (u : Machine.Unit) (s : State), s.mayIssue site = true → (s.unit site).badWait (kindOf site) (s.unit site).group = false →
    Unit.bindAll (needs (s.unit site).group.waits) (s.unit site) = (none, u) → fOp (s.unit site).group.word = 0x12 →
    ∃ t c, exec (.spill site w) s = .next t ∧ (t.unit site).halted = true ∧ t.ctx (s.unit site).owner = some c ∧ c.state = .fault ∧
      c.cause = Cause.illegalOp.code) ∧
  (∀ (site : Site) (s : State), s.mayIssue site = true →
    ∃ t c, exec (.progUe site) s = .next t ∧ (t.unit site).halted = true ∧ t.greg.ue = true ∧ t.ctx (s.unit site).owner = some c ∧
      c.state = .fault ∧ c.cause = Cause.progUe.code) ∧
  (∀ (site : Site) (ws : Waits) (w q : Nat) (u : Machine.Unit) (s : State), s.mayIssue site = true → 2 ^ s.greg.tagTimeout ≤ ws.tag →
    Unit.bindAll (needs (s.unit site).group.waits) (s.unit site) = (some (w, q), u) →
    (∀ i ∈ maskQueues (bits w 45 3), waitWindow w ≤ (Tab.get [] (s.unit site).queues i).length) →
    ∃ t c, exec (.tagDeadlock { site := site, waits := ws }) s = .next t ∧ t.ctx (s.unit site).owner = some c ∧ c.state = .fault ∧ c.cause = Cause.tagDeadlock.code)

/-- TREE_EVAL_START and TREE_RESULT_POST (R235-R238, R242, R244, R245). A model starts its pending evaluation with the raw outputs of the frame's
feature vector; the posted result of an AE-T model waits for the exposure write, that of another joins its frame. SCENE_LATCH (R24, R249, R310). The
class posted for a frame is latched when the frame's end-of-frame tag has left the Tail engine; where the table names a placed and staged variant
that does not run, the context waits to eclose it. -/
def Obligations.ModelsAndScenes : Prop :=
  ((∀ (o : Owner) (m : B8) (st : Nat) (fseq : B16) (c : Ctx) (d : ModelDecl) (err : Option SramErr) (s r : State), s.ctx o = some c →
    c.model m.toNat = some d → (Tab.get {} c.models m.toNat).pending = [(st, fseq)] → (Tab.get {} c.models m.toNat).running = none →
    (∀ i ∈ d.chain.filterMap c.place.site, (s.unit i).frozen = false) → (s.modes.hazard && s.modes.hazFault) = false →
    r = s.spoiled (err.filter (fun e => (c.evalSites d).contains e.site.val)) →
    ∃ t c', exec (.treeEvalStart o { model := m, err := err }) s = .next t ∧ t.ctx o = some c' ∧ (Tab.get {} c'.models m.toNat).pending = [] ∧
      (Tab.get {} c'.models m.toNat).running = some (st, fseq, r.rawOutputs c d (r.assemble c d st fseq), d)) ∧
  (∀ (o : Owner) (m : B8) (st : Nat) (fseq : B16) (z : List Nat) (c : Ctx) (d : ModelDecl) (s : State), s.ctx o = some c →
    (Tab.get {} c.models m.toNat).running = some (st, fseq, z, d) → (∀ i, c.place.site d.linkSite = some i → (s.unit i).frozen = false) →
    d.role = 0 → ((s.strm st).info fseq).any (fun i => i.has .dropped) = false →
    ∃ t c', exec (.treeResultPost o m) s = .next t ∧ t.ctx o = some c' ∧ (Tab.get {} c'.models m.toNat).running = none ∧
      (t.head (st / 4)).evPosted = some (st, fseq, (linkOut d.link z).getD 0 0)) ∧
  (∀ (o : Owner) (m : B8) (st : Nat) (fseq : B16) (z : List Nat) (c : Ctx) (d : ModelDecl) (s : State), s.ctx o = some c →
    (Tab.get {} c.models m.toNat).running = some (st, fseq, z, d) → (∀ i, c.place.site d.linkSite = some i → (s.unit i).frozen = false) →
    d.role ≠ 0 → d.link = 3 → s.sceneSource st = some o.val → ((s.strm st).info fseq).any (fun i => i.has .dropped) = false → (s.strm st).scheduled = true →
    (s.strm st).scene.model = m.toNat → (s.strm st).scene.hold = 0 → (s.strm st).runClass ≠ some (topClass (linkOut 3 z)).1 →
    lt16 (topClass (linkOut 3 z)).2 (s.strm st).scene.confMin = false →
    ∃ t, exec (.treeResultPost o m) s = .next t ∧ (t.strm st).posted = some (fseq, some (topClass (linkOut 3 z)).1))) ∧
  (∀ (st : StreamId) (f p : B16) (cls o : Nat) (c : Ctx) (v : Placement) (b : B8) (s : State), (s.strm st).tailDone = some f →
    (s.strm st).posted = some (p, some cls) → ((s.strm st).info p).any (fun i => i.has .dropped) = false → (s.strm st).scheduled = true →
    (s.strm st).ctx = some o → s.ctx o = some c → (s.strm st).scene.table[cls]? = some b → b.toNat ≠ 255 → b.toNat ≠ c.place.slot →
    c.variants.find? (fun q => q.slot == b.toNat) = some v → (s.slot b.toNat).state = .staged → c.ecl = none → c.state = .running →
    ∃ t, exec (.sceneLatch st) s = .next t ∧ (t.strm st).latched = some f ∧ (t.strm st).posted = none ∧
      t.ctx o = some { c with ecl := some { kind := 3, place := v, cls := some cls } })

/-- ECLOSION_START and ECLOSION_DONE (R302, R304, R305, Table 12-8). The one eclosion that has the broadcast port masks its group and gives the
context's flits a new EPOCH; when Open ends the units of the image are at their first word with empty queues, the region is as it was for a variant and
the image's sites otherwise, and the context runs, or stays in COCOON while no stream is started. -/
def Obligations.ContextsEclose : Prop :=
  (∀ (o : Owner) (c : Ctx) (e : Eclosion) (s u : State), s.ctx o = some c → c.ecl = some e → e.started = false → e.due = true →
    (∀ x ∈ s.ctxs, ∀ y, x.2 = some y → y.ecl.any (fun z => z.started) = false) → (s.field 0).down = false →
    (s.arb (arbCode .broadcast)).holder = none → s.holdArb .broadcast o = some u →
    ∃ t c', exec (.eclosionStart o) s = .next t ∧ t.ctx o = some c' ∧ c'.state = .eclosing ∧ c'.ecl.any (fun z => z.started) = true ∧
      t.epoch o = s.epoch o + 1 ∧ (t.group o).masked = true ∧ (t.group o).asserted = false) ∧
  (∀ (o : Owner) (s : State), (s.arb (arbCode .broadcast)).holder = none → (s.arb (arbCode .broadcast)).reqs = [] → ∃ u, s.holdArb .broadcast o = some u) ∧
  (∀ (o : Owner) (c : Ctx) (e : Eclosion) (s : State), s.ctx o = some c → c.ecl = some e → e.started = true → c.abortPend = none →
    (∀ st ∈ s.ctxStreams o, (s.strm st).started = false) →
    ∃ t c', exec (.eclosionDone o) s = .next t ∧ t.ctx o = some c' ∧ c'.state = .cocoon ∧ c'.opened = true ∧ c'.ecl = none ∧
      c'.region = (if 2 ≤ e.kind then c.region else c.place.map.map (fun x => x.2)) ∧ (∀ i ∈ c.place.map.map (fun x => x.2), (t.unit i).pc = 0 ∧ (t.unit i).queues = [] ∧ (t.unit i).halted = false) ∧
      (t.group o).masked = false) ∧
  (∀ (o : Owner) (st : Nat) (c : Ctx) (e : Eclosion) (s : State), s.ctx o = some c → c.ecl = some e → e.started = true → c.abortPend = none →
    st ∈ s.ctxStreams o → (s.strm st).started = true → (s.strm st).stopNext = false → (s.strm st).stopNow = false →
    ∃ t c', exec (.eclosionDone o) s = .next t ∧ t.ctx o = some c' ∧ c'.state = .running ∧ c'.opened = true ∧ c'.ecl = none)

/-- CONTEXT_COCOON, CONTEXT_ABORTED, CONTEXT_RELEASED and ECLOSE_TIMEOUT (R314, R315, R317, R319). SNAPSHOT_COMPLETE (R342, R456). When every bank a
snapshot names is closed and held, the banks are let go and the command ends. -/
def Obligations.ContextsAndSnapshotsEnd : Prop :=
  ((∀ (o : Owner) (c : Ctx) (s : State), s.ctx o = some c → c.state = .stopping → s.regionEmpty o = true → (s.group o).asserted = false →
    c.replace = none →
    ∃ t, exec (.contextCocoon o) s = .next t ∧ t.ctx o = some { c with
      state := .cocoon, models := Tab.mapVals (fun m : ModelSt => { m with running := none, pending := [] }) c.models }) ∧
  (∀ (o : Owner) (c : Ctx) (s : State), s.ctx o = some c → c.state = .aborting → c.replace = none →
    ∃ t c', exec (.contextAborted o) s = .next t ∧ t.ctx o = some c' ∧ c'.state = (if c.releaseAfter then CtxState.releasing else .cocoon) ∧
      c'.abortPkts = [] ∧ (t.group o).masked = false) ∧
  (∀ (o : Owner) (c : Ctx) (s : State), s.ctx o = some c → c.state = .releasing →
    ∃ t, exec (.contextReleased o) s = .next t ∧ t.ctx o = none ∧
      (∀ i ∈ c.region, (t.unit i).inCtx = false ∧ (t.unit i).mem = [] ∧ (t.unit i).queues = []) ∧
      (∀ st, (s.strm st).ctx = some o.val → (t.strm st).ctx = none) ∧ (t.group o).asserted = false) ∧
  (∀ (o : Owner) (c : Ctx) (r : ReplaceReq) (s : State), s.ctx o = some c → c.replace = some r → c.state = .stopping →
    ∃ t, exec (.ecloseTimeout o) s = .next t ∧ t = (s.setCtx o (some { c with replace := none })).finish r.pkt false .stalled ∧
      t.ctx o = some { c with replace := none })) ∧
  (∀ (o : Owner) (c : Ctx) (n : Snapshot) (s : State), s.ctx o = some c → c.snap = some n →
    (∀ e ∈ c.maskSites n.vmask, (s.unit e.2).bankHeld = true ∧ (s.unit e.2).lastClosed.isSome = true) →
    ∃ t, exec (.snapshotComplete o) s = .next t ∧ t.ctx o = some { c with snap := none } ∧
      ∀ e ∈ c.maskSites n.vmask, (t.unit e.2).bankHeld = false)

/-- ARBITRATION (R150-R153). The resource goes to the highest FORCED requester that presents, else to the highest; every other one that presents and is
not FORCED loses and backs off. BACKOFF_END, FORCED and WITHDRAW (R152-R154). A requester whose back-off ends presents again; one that reaches
WAIT_LIMIT is FORCED and backs off no more; a holder that withdraws leaves a dead cycle, a waiting requester goes. -/
def Obligations.ArbitersGrant : Prop :=
  (∀ (a : ArbId) (present : List (Fin 64)) (cycles : B16) (g : Arbiter) (s : State), s.hasArb a = true → (∀ p, a ≠ .pool p) →
    g = (s.arb (arbCode a)).gather (s.waitLimit a) cycles.toNat (arbInputs a)
      (if a = .sequencer then (present.map (fun i => i.val)).filter s.seqPresents else present.map (fun i => i.val)) →
    (∃ e ∈ g.reqs, e.2.contends = true) →
    (s.arb (arbCode a)).holder = none →
    ∃ t w r, exec (.arbitration a present cycles) s = .next t ∧ (w, r) ∈ g.reqs ∧ r.contends = true ∧ (t.arb (arbCode a)).holder = some w ∧
      (∀ e ∈ g.reqs, e.2.contends = true → (e.2.forced = true → r.forced = true) ∧ (e.2.forced = r.forced → e.1 ≤ w)) ∧
      (∀ e ∈ g.reqs, e.2.contends = true → e.2.forced = false → e.1 ≠ w →
        (e.1, { e.2 with losses := e.2.losses + 1, backoff := backoffFor (e.2.losses + 1) }) ∈ (t.arb (arbCode a)).reqs)) ∧
  ((∀ (a : ArbId) (i : Fin 64) (r : Requester) (s : State), (s.arb (arbCode a)).holder ≠ some i.val → (i.val, r) ∈ (s.arb (arbCode a)).reqs →
    ∃ t, exec (.backoffEnd a i) s = .next t ∧ (i.val, { r with backoff := 0 }) ∈ (t.arb (arbCode a)).reqs) ∧
  (∀ (a : ArbId) (i : Fin 64) (s : State), s.hasArb a = true → i.val < arbInputs a → (s.arb (arbCode a)).holder ≠ some i.val →
    ∃ t, exec (.forced a i) s = .next t ∧ (t.arb (arbCode a)).holder = (s.arb (arbCode a)).holder ∧
      (Tab.get {} (t.arb (arbCode a)).reqs i).forced = true ∧ (Tab.get {} (t.arb (arbCode a)).reqs i).wait = s.waitLimit a ∧
      (Tab.get {} (t.arb (arbCode a)).reqs i).backoff = 0) ∧
  (∀ (a : ArbId) (i : Fin 64) (s : State), (∀ p, a ≠ .pool p) → (s.arb (arbCode a)).holder = some i.val →
    ∃ t, exec (.withdraw a i) s = .next t ∧ (t.arb (arbCode a)).holder = none ∧ (t.arb (arbCode a)).dead = some i.val) ∧
  (∀ (a : ArbId) (i : Fin 64) (s : State), (s.arb (arbCode a)).holder ≠ some i.val →
    ∃ t, exec (.withdraw a i) s = .next t ∧ ∀ e ∈ (t.arb (arbCode a)).reqs, e.1 ≠ i.val))

/-- QUEUE_WORD_WRITE, QUEUE_ABORT, QUEUE_RESERVE, QUEUE_SLOT_WRITE and QUEUE_READ (R158-R164). An item becomes visible as a whole with its end marker;
an ABORT rewinds it; reservations keep their order, and the reader stops at an unwritten slot; an empty queue reads its idle item.
A word comes only
from a source that the producer port's arbiter grants; a posted reply and a numbered record are what their queues' readers take first.
POOL_DESCRIPTOR_FETCH and POOL_DOORBELL (R169, R324, R325). A pool with fewer than 8 cached descriptors takes at most 8 of those its producer index
offers; a doorbell within the ring sets the index, one outside it sets BAD_DOORBELL and nothing else. -/
def Obligations.QueuesAndPools : Prop :=
  ((∀ (q : QId) (src : Fin 17) (word w : B64) (x : FQueue) (s : State), commitMode q = true → s.queue (queueCode q) = x → x.poisoned = false →
    x.tooLong = false → (∀ a, prodArb q = some a → ∃ u, s.holdArb a src = some u) → x.opened.length < itemLimit q →
    (x.items.map List.length).sum + x.opened.length < capacity q → w = (if words32 q then BitVec.ofNat 64 (word.toNat % 2 ^ 32) else word) →
    ∃ t u, exec (.queueWordWrite q { src := src, word := word } true true) s = .next t ∧ exec (.queueWordWrite q { src := src, word := word } false true) s = .next u ∧
      (t.queue (queueCode q)).items = x.items ++ [x.opened ++ [w]] ∧ (t.queue (queueCode q)).opened = [] ∧
      (u.queue (queueCode q)).items = x.items ∧ (u.queue (queueCode q)).opened = x.opened ++ [w]) ∧
  (∀ (q : QId) (a : ArbId) (src : Fin 17) (word : B64) (e c : Bool) (s : State), prodArb q = some a → s.holdArb a src = none →
    exec (.queueWordWrite q { src := src, word := word } e c) s = .next s) ∧
  (∀ (q : QId) (s : State), commitMode q = true → (s.queue (queueCode q)).isOpen = true →
    ∃ t, exec (.queueAbort q) s = .next t ∧ (t.queue (queueCode q)).opened = [] ∧ (t.queue (queueCode q)).isOpen = false ∧
      (t.queue (queueCode q)).items = (s.queue (queueCode q)).items) ∧
  (∀ (q : QId) (pr : B8) (len : B16) (s : State), commitMode q = false → len ≠ 0 →
    ∃ t, exec (.queueReserve q pr len) s = .next t ∧ (t.queue (queueCode q)).lp =
      (if ((s.queue (queueCode q)).lp.map LpItem.len).sum + len.toNat ≤ capacity q then
        (s.queue (queueCode q)).lp ++ [{ producer := pr.toNat, len := len.toNat, slot := none, body := [] }] else (s.queue (queueCode q)).lp)) ∧
  (∀ (q : QId) (pr : B8) (slot : B32) (body : List B32) (a b : List LpItem) (i : LpItem) (s : State), commitMode q = false → slot.getLsbD 31 = false →
    pr.toNat ∉ (s.queue (queueCode q)).lpPoisoned → (s.queue (queueCode q)).lp = a ++ i :: b → (∀ x ∈ a, x.producer ≠ pr.toNat) →
    i.producer = pr.toNat → i.slot = none →
    ∃ t, exec (.queueSlotWrite q pr slot body) s = .next t ∧
      (t.queue (queueCode q)).lp = a ++ { i with slot := some slot, body := body.take (lpUnit q * i.len - 1) } :: b) ∧
  (∀ (q : QId) (i : List B64) (m : List (List B64)) (s : State), commitMode q = true → (s.queue (queueCode q)).items = i :: m →
    (∀ f, q = .reply f → (s.fn f).replyQ = []) → (∀ x o, q = .ctrl x o → ctrlNext x o = none) →
    ∃ t, exec (.queueRead q) s = .next t ∧ (t.queue (queueCode q)).lastRead = i ∧ (t.queue (queueCode q)).items = m) ∧
  (∀ (q : QId) (s : State), commitMode q = true → (s.queue (queueCode q)).items = [] →
    (∀ f, q = .reply f → (s.fn f).replyQ = []) →
    ∃ t, exec (.queueRead q) s = .next t ∧ (t.queue (queueCode q)).lastRead = idleItem q ∧ (t.queue (queueCode q)).items = []) ∧
  (∀ (q : QId) (i : LpItem) (m : List LpItem) (s : State), commitMode q = false → (s.queue (queueCode q)).lp = i :: m → i.slot = none →
    (q = .eventLog → s.seqr.logQ = []) →
    ∃ t, exec (.queueRead q) s = .next t ∧ (t.queue (queueCode q)).lastRead = idleItem q ∧ (t.queue (queueCode q)).lp = i :: m) ∧
  (∀ (f : FnId) (r : Rec) (m : List Rec) (s : State), (s.fn f).replyQ = r :: m → s.fnUp f = true → (s.fn f).enable = true → (s.fn f).reset = false →
    ((s.fn f).rplProd + 1) % 2 ^ (s.fn f).rplOrder ≠ (s.fn f).rplCons →
    ∃ t, exec (.queueRead (.reply f)) s = .next t ∧ (t.fn f).replyQ = m ∧ (t.queue (queueCode (.reply f))).lastRead = wordsOf 4 (replyBytes r)) ∧
  (∀ (r : Rec) (m : List Rec) (s : State), s.seqr.logQ = r :: m →
    ∃ t, exec (.queueRead .eventLog) s = .next t ∧ t.seqr.logQ = m ∧ (t.queue (queueCode .eventLog)).lastRead = wordsOf 8 (recBytes r))) ∧
  ((∀ d : PoolDesc, poolDescs (toLe 8 d.addr.toNat ++ toLe 4 d.size.toNat ++ toLe 4 d.tag.toNat) = [d]) ∧
  (∀ (p : Fin 64) (data : Bytes) (ds : List PoolDesc) (k : Nat) (s : State), (s.pool p).ready = true → (s.pool p).cache.length < 8 →
    poolDescs data = ds → k = min ds.length (min 8 (((s.pool p).prod + 2 ^ (s.pool p).order - (s.pool p).cons) % 2 ^ (s.pool p).order)) →
    ∃ t, exec (.poolDescriptorFetch p data) s = .next t ∧ (t.pool p).cache = (s.pool p).cache ++ ds.take k ∧
      (t.pool p).cons = ((s.pool p).cons + k) % 2 ^ (s.pool p).order) ∧
  (∀ (f : FnId) (v : B32) (p : Nat) (s : State), s.ready = true → (s.fn f).reset = false → p = bits v.toNat 16 6 → p < 32 * s.part.variant.ports →
    mayAct f (s.pool p).fn = true → (s.pool p).ready = true → bits v.toNat 0 16 < 2 ^ (s.pool p).order →
    ∃ t, exec (.poolDoorbell f v) s = .next t ∧ (t.pool p).prod = bits v.toNat 0 16 ∧ (t.fn f).badDoorbell = (s.fn f).badDoorbell) ∧
  (∀ (f : FnId) (v : B32) (p : Nat) (s : State), s.ready = true → (s.fn f).reset = false → p = bits v.toNat 16 6 →
    2 ^ (s.pool p).order ≤ bits v.toNat 0 16 →
    ∃ t, exec (.poolDoorbell f v) s = .next t ∧ (t.fn f).badDoorbell = true ∧ t.pools = s.pools))

/-- CMD_TAIL, CMD_FETCH, CMD_DISPATCH, RING_RESET and RING_RESET_DONE (R324-R328, R333, R337, R338). -/
def Obligations.CommandRings : Prop :=
  (∀ (f : FnId) (v : B32) (s : State), s.ready = true → (s.fn f).reset = false → v.toNat % 4096 < 2 ^ (s.fn f).cmdOrder →
    ∃ t, exec (.cmdTail f v) s = .next t ∧ (t.fn f).cmdTail = v.toNat % 4096 ∧ (t.fn f).badDoorbell = (s.fn f).badDoorbell) ∧
  (∀ (f : FnId) (v : B32) (s : State), s.ready = true → (s.fn f).reset = false → 2 ^ (s.fn f).cmdOrder ≤ v.toNat % 4096 →
    ∃ t, exec (.cmdTail f v) s = .next t ∧ (t.fn f).cmdTail = (s.fn f).cmdTail ∧ (t.fn f).badDoorbell = true) ∧
  (∀ (f : FnId) (b : Bytes) (s : State), s.fnUp f = true → (s.fn f).enable = true → (s.fn f).reset = false → (s.fn f).fetchErr = false →
    (s.fn f).cmdHead ≠ (s.fn f).cmdTail →
    ∃ t u, exec (.cmdFetch f (some b)) s = .next t ∧ exec (.cmdFetch f none) s = .next u ∧
      (t.fn f).fetched = (s.fn f).fetched ++ [{ bytes := b, fn := f, cspi := false }] ∧
      (t.fn f).cmdHead = ((s.fn f).cmdHead + 1) % 2 ^ (s.fn f).cmdOrder ∧
      (u.fn f).fetchErr = true ∧ (u.fn f).cmdHead = (s.fn f).cmdHead ∧ (u.fn f).fetched = (s.fn f).fetched) ∧
  (∀ (f : FnId) (p : Packet) (m : List Packet) (s u : State), (s.fn f).fetched = p :: m → s.mayDispatch f false p = true → p.badHeader = false →
    s.useArb .cmdRing f = some u → listedOpcode p.opcode = true → p.badLayout = false → p.opcode ≠ 0x1300 →
    ∃ t, exec (.cmdDispatch f false) s = .next t ∧ (t.fn f).fetched = m ∧
      (t.fn f).inFlight = (s.fn f).inFlight ++ [{ cseq := p.cseq, opcode := p.opcode, cspi := false, fence := p.fence, at_ := s.seqr.posts }]) ∧
  (∀ (f : FnId) (s : State), s.useArb .cmdRing f = none → exec (.cmdDispatch f false) s = .next s) ∧
  (∀ (f : FnId) (s : State), s.ready = true → (s.fn f).reset = false →
    ∃ t, exec (.ringReset f) s = .next t ∧ (t.fn f).reset = true ∧ (t.fn f).fetched = [] ∧ (t.fn f).inFlight = (s.fn f).inFlight) ∧
  (∀ (f : FnId) (s : State), (s.fn f).reset = true → (s.fn f).inFlight = [] →
    ∃ t, exec (.ringResetDone f) s = .next t ∧ (t.fn f).reset = false ∧ (t.fn f).enable = false ∧ (t.fn f).fetchErr = false ∧ (t.fn f).replyQ = [] ∧
      (t.fn f).cmdHead = 0 ∧ (t.fn f).cmdTail = 0 ∧ (t.fn f).rplProd = 0 ∧ (t.fn f).rplCons = 0 ∧
      (t.fn f).replyEpoch = (s.fn f).replyEpoch + 1)

/-- REPLY_WRITE, REPLY_INTERRUPT, LOG_INTERRUPT and COMPLETION_INTERRUPT (R324, R327, R336). The oldest reply goes to the ring in host memory at the
producer index, which moves on; an interrupt signals what has gathered. -/
def Obligations.RepliesReachTheHost : Prop :=
  (∀ (f : FnId) (r : Rec) (m : List Rec) (s : State), (s.fn f).replyQ = r :: m → s.fnUp f = true → (s.fn f).enable = true → (s.fn f).reset = false →
    ((s.fn f).rplProd + 1) % 2 ^ (s.fn f).rplOrder ≠ (s.fn f).rplCons → (s.fn f).rplWb = 0 → Memory.wf s.hostMem = true →
    ∃ t, exec (.replyWrite f true) s = .next t ∧ (t.fn f).replyQ = m ∧ (t.fn f).rplProd = ((s.fn f).rplProd + 1) % 2 ^ (s.fn f).rplOrder ∧
      Memory.readBytes t.hostMem ((s.fn f).rplBase + BitVec.ofNat 64 (32 * (s.fn f).rplProd)).toNat 32 = replyBytes r ∧
      (∀ a, a < ((s.fn f).rplBase + BitVec.ofNat 64 (32 * (s.fn f).rplProd)).toNat ∨
        ((s.fn f).rplBase + BitVec.ofNat 64 (32 * (s.fn f).rplProd)).toNat + 32 ≤ a → Memory.read t.hostMem a = Memory.read s.hostMem a)) ∧
  (∀ (f : FnId) (r : Rec) (m : List Rec) (s : State), (s.fn f).replyQ = r :: m → s.fnUp f = true → (s.fn f).enable = true → (s.fn f).reset = false →
    ((s.fn f).rplProd + 1) % 2 ^ (s.fn f).rplOrder ≠ (s.fn f).rplCons →
    ∃ t, exec (.replyWrite f false) s = .next t ∧ (t.fn f).wbErr = true ∧ (t.fn f).replyQ = r :: m ∧ t.hostMem = s.hostMem) ∧
  (∀ (f : FnId) (s : State), (s.fn f).unsigReplies ≠ 0 →
    ∃ t, exec (.replyInterrupt f) s = .next t ∧ (t.fn f).unsigReplies = 0 ∧ Tab.get 0 (t.fn f).irqs 0 = Tab.get 0 (s.fn f).irqs 0 + 1) ∧
  (∀ (f : FnId) (s : State), (s.fn f).unsigLogs ≠ 0 →
    ∃ t, exec (.logInterrupt f) s = .next t ∧ (t.fn f).unsigLogs = 0 ∧ Tab.get 0 (t.fn f).irqs 1 = Tab.get 0 (s.fn f).irqs 1 + 1) ∧
  (∀ (f : FnId) (s : State), (s.fn f).unsigCpls ≠ 0 →
    ∃ t, exec (.completionInterrupt f) s = .next t ∧ (t.fn f).unsigCpls = 0 ∧ Tab.get 0 (t.fn f).irqs 2 = Tab.get 0 (s.fn f).irqs 2 + 1)

/-- EVENT_RECORD, OVERRUN, LOG_DISTRIBUTE and FRAME_RECORD (R78-R80, R345, R347, R349). The sequencer numbers the oldest record of an input that its arbiter grants with
the next ESN and the time base; an input presents its oldest record unless POWER_ON is still owed, a reply has no room, or a cause of it waits; a source that lost records says so behind those it kept; the distributor moves a numbered record into the log window;
the oldest settled frame has its record written. CAPTURE_RECORD, CAP_EN, CAP_DROP_READ, DUMP_GO and DUMP_DONE (R457-R461). A record of a selected
source goes to the debug ring after the trigger, in units of 32 bytes, or is counted where there is no room; enabling starts afresh; one dump runs
at a time, and one more waits. -/
def Obligations.EventsAndCaptures : Prop :=
  ((∀ (i : Fin 28) (r : Rec) (m : List Rec) (s u : State), (s.seqr.input i).dcq = r :: m → s.seqPresents i = true → r.isReply = false →
    s.useArb .sequencer i ((List.range 28).filter s.seqPresents) = some u →
    ∃ t, exec (.eventRecord i) s = .next t ∧ t.seqr.esn = nextEsn s.seqr.esn ∧
      t.seqr.logQ = s.seqr.logQ ++ [{ r with esn := nextEsn s.seqr.esn, dtb := s.dtb.now }]) ∧
  (∀ (i : Fin 28) (s : State), s.seqPresents i = false ∨ s.useArb .sequencer i ((List.range 28).filter s.seqPresents) = none →
    exec (.eventRecord i) s = .next s) ∧
  (∀ (i : Fin 28) (r : Rec) (m : List Rec) (s : State), (s.seqr.input i).dcq = r :: m →
    (s.seqPresents i = true ↔ (s.boot.powerOnOwed = true → i.val = inPower) ∧ s.replyRoom r = true ∧ s.causeWaits r = false)) ∧
  (∀ (i : Fin 28) (r : Rec) (m : List Rec) (f : Nat) (s u : State), (s.seqr.input i).dcq = r :: m → s.seqPresents i = true → r.isReply = true →
    s.useArb .sequencer i ((List.range 28).filter s.seqPresents) = some u → r.cspi = false → r.esnTo = none → f = r.fn.toNat % 64 → (s.fn f).reset = false → (s.fn f).replyQ.length < 64 →
    ∃ t, exec (.eventRecord i) s = .next t ∧ t.seqr.esn = nextEsn s.seqr.esn ∧
      (t.fn f).replyQ = (s.fn f).replyQ ++ [{ r with esn := nextEsn s.seqr.esn, dtb := s.dtb.now }]) ∧
  (∀ (i : Fin 28) (x : SeqInput) (s : State), x = (s.seqr.input i).pump → x.lost ≠ 0 → x.buf.length < 16 →
    ∃ t, exec (.overrun i) s = .next t ∧ (t.seqr.input i).lost = 0 ∧
      (t.seqr.input i).dcq ++ (t.seqr.input i).buf = x.dcq ++ x.buf ++ [overrunRec i (min x.lost 0xFFFFFFFE)]) ∧
  (∀ (r : Rec) (m : List Rec) (s : State), s.seqr.logQ = r :: m →
    ∃ t, exec .logDistribute s = .next t ∧ t.seqr.logQ = m ∧ t.seqr.winProd = (s.seqr.winProd + r.units) % 2 ^ 32 ∧
      Tab.get 0 t.seqr.window ((s.seqr.winProd + r.units + 2 ^ 32 - 1) % 2 ^ 32 % 4096) =
        BitVec.ofNat 128 (leNat ((recBytes r).drop (16 * (r.units - 1)) |>.take 16))) ∧
  (∀ (st : StreamId) (f : FrameInfo) (s : State), (s.strm st).frames.find? (fun f => !f.written) = some f → f.out = true →
    (f.has .dropped = true ∨ s.settled st f.fseq = true) →
    ∃ t r, exec (.frameRecord st) s = .next t ∧ (t.strm st).frameCount = (s.strm st).frameCount + 1 ∧ r.typ = 1 ∧ r.code = Ev.frame.code ∧
      r.arg0 = BitVec.ofNat 32 (packBits [(8, st.val), (8, f.cause), (16, f.fseq.toNat)]) ∧
      t.seqr.input (inField (if (s.sdecl st).tail < 8 then 1 else 3)) =
        (s.seqr.input (inField (if (s.sdecl st).tail < 8 then 1 else 3))).put (inField (if (s.sdecl st).tail < 8 then 1 else 3)) r)) ∧
  ((∀ (r : CapRec) (u n pad : Nat) (s : State), s.ready = true → s.cap.takes r = true → s.cap.stop = false → u = s.cap.prod.toNat →
    n = 1 + (r.payload.length + 31) / 32 → pad = (if 25165824 - u % 25165824 < n then 25165824 - u % 25165824 else 0) →
    ∃ t, exec (.captureRecord r true) s = .next t ∧ t.cap.prod = s.cap.prod + BitVec.ofNat 64 (pad + n) ∧ t.cap.drop = s.cap.drop) ∧
  (∀ (r : CapRec) (s : State), s.ready = true → s.cap.takes r = true →
    ∃ t, exec (.captureRecord r false) s = .next t ∧ t.cap.prod = s.cap.prod ∧ t.cap.drop = s.cap.drop + 1) ∧
  (∀ s : State, s.ready = true → s.cap.en = false → s.cap.trig ≠ 0 →
    ∃ t, exec (.capEn true) s = .next t ∧ t.cap.en = true ∧ t.cap.prod = 0 ∧ t.cap.triggered = false) ∧
  (∀ s : State, s.ready = true → s.cap.en = true → ∃ t, exec (.capEn false) s = .next t ∧ t.cap.en = false ∧ t.cap.prod = s.cap.prod) ∧
  (∀ s : State, ∃ t, exec .capDropRead s = .next t ∧ t.greg.lastRead = BitVec.ofNat 64 s.cap.drop.toNat ∧ t.cap.drop = 0) ∧
  (∀ s : State, s.ready = true → ∃ t, exec .dumpGo s = .next t ∧ t.cap.dumpGo = true ∧ (s.cap.dumpGo = true → t.cap.dumpAgain = true)) ∧
  (∀ s : State, s.cap.dumpGo = true → s.dumpValid = true → s.cap.dumpDst = 0 →
    ∃ t, exec (.dumpDone true) s = .next t ∧ t.cap.dumpGo = s.cap.dumpAgain ∧ t.cspi.result = Memory.readBytes s.hbm s.cap.dumpSrc.toNat s.cap.dumpLen ∧
      t.cap.dumpErr = s.cap.dumpErr) ∧
  (∀ s : State, s.cap.dumpGo = true →
    ∃ t, exec (.dumpDone false) s = .next t ∧ t.cap.dumpGo = s.cap.dumpAgain ∧ t.cap.dumpErr = true ∧ t.cspi = s.cspi))

/-- VID_SETTLED, DVFS_SLEW_DONE, PWARN, VDD_ARR_WARNING, VR_FAULT and DIAPAUSE_EXIT (R62, R412, R418-R421). A Field runs at its target point when its
slew ends; each supply warning enters Diapause, which counts; DIAPAUSE_EXIT leaves it. TEMP_READING, THERMAL_CLEAR and THERMAL_RECOVERY (R414,
R417). TEMP and TEMP_MAX follow the sensors; the throttle caps every Field from 105.0 degC until 100.0 degC; from 120.0 degC the dies are held in
reset until 95.0 degC. -/
def Obligations.SupplyAndHeat : Prop :=
  ((∀ s : State, s.supply.settling = true → s.supply.vrPgood = true → (∀ e ∈ s.fields, e.2.lowering = false) →
    ∃ t, exec .vidSettled s = .next t ∧ t.supply.settling = false ∧ t.supply.vid = s.supply.vid ∧ ∀ f, (t.field f).raising = false) ∧
  (∀ (f : Fin 4) (p : Nat) (s : State), (s.field f).target = some p → (s.field f).raising = false → (s.field f).lowering = false →
    ∃ t, exec (.dvfsSlewDone f) s = .next t ∧ (t.field f).point = p) ∧
  (∀ (mv : B16) (s : State), s.pllsRun = true → s.supply.diapause = false →
    ∃ t, exec (.pwarn mv) s = .next t ∧ t.supply.diapause = true ∧ t.supply.pwarnLow = true ∧ t.supply.dipCount = s.supply.dipCount + 1 ∧
      t.supply.dipLow = mv.toNat ∧ t.greg.dip = true) ∧
  (∀ (f : Fin 4) (mv : B16) (s : State), s.pllsRun = true → s.supply.diapause = false → mv.toNat < s.supply.warnLevel →
    ∃ t, exec (.vddArrWarning f mv) s = .next t ∧ t.supply.diapause = true ∧ t.supply.dipCount = s.supply.dipCount + 1 ∧ t.supply.dipLow = mv.toNat) ∧
  (∀ (mv : B16) (s : State), s.pllsRun = true → s.supply.diapause = false →
    ∃ t, exec (.vrFault mv) s = .next t ∧ t.supply.diapause = true ∧ t.supply.vrPgood = false ∧ t.supply.dipCount = s.supply.dipCount + 1) ∧
  (∀ s : State, s.supply.diapause = true →
    ∃ t, exec .diapauseExit s = .next t ∧ t.supply.diapause = false ∧ t.supply.dipCount = s.supply.dipCount ∧ t.ctxs = s.ctxs)) ∧
  ((∀ (x : B16) (s : State), s.boot.phase ≠ .por → x.toInt < 26880 →
    ∃ t, exec (.tempReading x) s = .next t ∧ t.supply.temp = x ∧ t.supply.tempMax = (if s.supply.tempMax.toInt < x.toInt then x else s.supply.tempMax) ∧
      t.supply.throttle = s.supply.throttle) ∧
  (∀ (x : B16) (s : State), s.boot.phase ≠ .por → 26880 ≤ x.toInt → x.toInt < 30720 →
    ∃ t, exec (.tempReading x) s = .next t ∧ t.supply.temp = x ∧ t.supply.throttle = true ∧ t.capPoint = 3) ∧
  (∀ (x : B16) (s : State), s.boot.phase ≠ .por → s.boot.phase ≠ .borHold → s.boot.phase ≠ .clockHold → 30720 ≤ x.toInt → s.supply.shutdown = false →
    ∃ t, exec (.tempReading x) s = .next t ∧ t.supply.shutdown = true ∧ t.boot.phase = .thermalHold ∧ t.boot.resetCause = 8 ∧ t.ctxs = []) ∧
  (∀ s : State, s.supply.throttle = true → s.supply.temp.toInt ≤ 25600 →
    ∃ t, exec .thermalClear s = .next t ∧ t.supply.throttle = false) ∧
  (∀ s : State, s.supply.shutdown = true → s.supply.temp.toInt ≤ 24320 → s.boot.phase = .thermalHold →
    s.lostClocks.any (fun c => c == 15 || c == 16) = false → s.boot.bootSrc.toNat < 2 →
    ∃ t, exec .thermalRecovery s = .next t ∧ t.supply.shutdown = false ∧ t.boot.phase = .startup ∧ t.boot.resetCause = 8))

/-- POR, POR_RELEASE, BOR, BOR_RELEASE, WARM_RESET, PCIE_A_PERST and the always-on state (R80, R423-R426, R431, R435). Each reset leaves the dies with
no context, no unit state and no function state; a warm reset and a brown-out keep the time base, the ESN and the boot strap. MC_RESTART, FLR and
the PCIe events (R318, R371, R426, R428). A restart of the MC leaves it no lock; FLR starts a ring reset, undefines the function's slots and
releases its contexts; an endpoint that loses its link is down, and one that gets it back is up. -/
def Obligations.ResetsOfThePart : Prop :=
  ((∀ (pin : Bool) (s : State), ∃ t, exec (.por pin) s = .next t ∧ t.boot.phase = .por ∧ t.boot.resetCause = (if pin then 1 else 0) ∧
    t.ctxs = [] ∧ t.units = [] ∧ t.fns = [] ∧ t.seqr = State.reset.seqr ∧ t.dtb = State.reset.dtb ∧ t.part = s.part) ∧
  (∀ (b : BitVec 2) (s : State), s.boot.phase = .por → b.toNat < 2 →
    ∃ t, exec (.porRelease b) s = .next t ∧ t.boot.phase = .startup ∧ t.boot.bootStep = 2 ∧ t.boot.bootSrc = b) ∧
  (∀ (rail : Fin 3) (s : State), s.boot.phase ≠ .por →
    ∃ t, exec (.bor rail) s = .next t ∧ t.boot.phase = .borHold ∧ t.boot.resetCause = BitVec.ofNat 4 (5 + rail) ∧ t.ctxs = [] ∧ t.units = [] ∧
      t.fns = [] ∧ t.seqr.esn = s.seqr.esn ∧ t.dtb.now = s.dtb.now ∧ t.boot.bootSrc = s.boot.bootSrc) ∧
  (∀ s : State, s.boot.phase = .borHold → s.supply.shutdown = false → s.lostClocks.any (fun c => c == 15 || c == 16) = false → s.boot.bootSrc.toNat < 2 →
    ∃ t, exec .borRelease s = .next t ∧ t.boot.phase = .startup ∧ t.boot.bootStep = 2 ∧ t.supply.vid = 60) ∧
  (∀ s : State, s.ready = true → s.boot.bootSrc.toNat < 2 →
    ∃ t, exec .warmReset s = .next t ∧ t.boot.phase = .startup ∧ t.boot.resetCause = 2 ∧ t.ctxs = [] ∧ t.units = [] ∧ t.fns = [] ∧
      t.hbm = s.hbm ∧ t.seqr.esn = s.seqr.esn ∧ t.dtb.now = s.dtb.now) ∧
  (∀ s : State, s.ready = true → s.boot.bootSrc.toNat < 2 →
    ∃ t, exec .pcieAPerst s = .next t ∧ t.boot.phase = .startup ∧ t.boot.resetCause = 3 ∧ (t.ep 0).perst = true ∧ (t.ep 0).up = false ∧
      (t.ep 0).config = false ∧ t.ctxs = [])) ∧
  ((∀ (fault : Bool) (s : State), s.ready = true →
    ∃ t, exec (.mcRestart fault true) s = .next t ∧ t.boot.phase = .ready ∧ ∀ l, (t.lock l).holder ≠ mcCode) ∧
  (∀ (f : FnId) (s : State), s.ready = true → f ≠ 0 →
    ∃ t, exec (.flr f) s = .next t ∧ (t.fn f).reset = true ∧ (t.fn f).enable = false ∧ (t.fn f).fetched = [] ∧
      (∀ i, (t.slot i).fn = f → (t.slot i).state = .empty) ∧ (∀ l, (t.lock l).holder ≠ fnCode f)) ∧
  (∀ s : State, ∃ t, exec .pcieBPerst s = .next t ∧ (t.ep 1).perst = true ∧ (t.ep 1).up = false ∧ (t.ep 1).config = false) ∧
  (∀ (ep : Fin 2) (s : State), ep.val < s.part.variant.ports → ∃ t, exec (.pcieLinkDown ep) s = .next t ∧ (t.ep ep).up = false) ∧
  (∀ (ep : Fin 2) (s : State), s.ready = true → ep.val < s.part.variant.ports → s.lostClocks = [] →
    ∃ t, exec (.pcieLinkUp ep) s = .next t ∧ (t.ep ep).up = true) ∧
  (∀ s : State, ∃ t, exec .pciePerstRelease s = .next t ∧ (t.ep 0).perst = false ∧ (t.ep 0).config = s.diesUp))

/-- QSPI_BOOT_READ, BOOT_GO, HOST_BOOT_READ, HBM_TRAINING_DONE and STARTUP_COMPLETE (R374, R431-R436, Table 16-6). An image that is accepted is loaded;
one that is not leaves its error code, copy 1 follows copy 0, and the host or a halt follows copy 1. READY comes after the last step. -/
def Obligations.FirmwareBoots : Prop :=
  (∀ (b : Option Bytes) (s : State), s.boot.phase = .startup → s.boot.bootStep = 2 → s.boot.bootErr = 0 →
    ∃ t, exec (.qspiBootRead 0 b) s = .next t ∧ t.boot.phase = .startup ∧
      (if fwError s.part.minSecver.toNat b = 0 then t.boot.fwLoaded = true ∧ t.boot.bootStep = (if s.boot.trainHbm then 5 else 6)
      else t.boot.bootErr = BitVec.ofNat 8 (fwError s.part.minSecver.toNat b) ∧ t.boot.bootStep = 2)) ∧
  (∀ (b : Option Bytes) (s : State), s.boot.phase = .startup → s.boot.bootStep = 2 → s.boot.bootErr ≠ 0 →
    ∃ t, exec (.qspiBootRead 1 b) s = .next t ∧
      (if fwError s.part.minSecver.toNat b = 0 then t.boot.fwLoaded = true ∧ t.boot.phase = .startup
      else t.boot.phase = (if s.boot.bootSrc = 1 then .waitHost else .halted))) ∧
  (∀ s : State, s.ready = false → s.boot.phase ≠ .por → ∃ t, exec .bootGo s = .next t ∧ t.boot.bootGo = true) ∧
  (∀ (b : Bytes) (s : State), s.boot.phase = .waitHost → s.boot.bootGo = true → b.length = s.boot.bootLen.toNat →
    ∃ t, exec (.hostBootRead (some b)) s = .next t ∧ t.boot.bootGo = false ∧
      (if fwError s.part.minSecver.toNat (some b) = 0 then t.boot.fwLoaded = true ∧ t.boot.phase = .startup
      else t.boot.phase = .waitHost ∧ t.boot.bootErr = BitVec.ofNat 8 (fwError s.part.minSecver.toNat (some b)))) ∧
  (∀ (k : Fin 4) (ok : Bool) (s : State), k.val ∈ s.boot.trainLeft →
    ∃ t, exec (.hbmTrainingDone k ok) s = .next t ∧ (t.stackOf k).trained = ok ∧ (t.stackOf k).down = false ∧ k.val ∉ t.boot.trainLeft) ∧
  (∀ s : State, s.boot.phase = .startup → s.boot.bootStep = 6 → ∃ t, exec .startupComplete s = .next t ∧ t.ready = true ∧ t.boot.bootStep = 8)

/-- LOCK_ACQ, LOCK_RELEASE_WRITE, LOCK_FORCE_WRITE and LOCK_WAIT_TIMEOUT (R365-R372). A party with the right gets a free lock and is told whether its
last owner was lost; a held lock stays; a release passes it to the oldest waiter; a forced release ends the hold, counts the EPOCH and marks the
loss; a waiter whose time is up goes. -/
def Obligations.LocksChangeHands : Prop :=
  (∀ (p : Path) (l : Fin 64) (s : State), s.ready = true → s.reachable p = true → s.rawLock (pathFn p) l = true → (s.lock l).holder = 0 →
    ∃ t, exec (.lockAcq p l) s = .next t ∧ (t.lock l).holder = fnCode (pathFn p) ∧ (t.lock l).ownerLost = false ∧
      t.greg.lastRead = BitVec.ofNat 64 (lockResult true (s.lock l).ownerLost false (fnCode (pathFn p)) (s.lock l).epoch)) ∧
  (∀ (p : Path) (l : Fin 64) (s : State), s.ready = true → s.reachable p = true → s.rawLock (pathFn p) l = true → (s.lock l).holder ≠ 0 →
    ∃ t, exec (.lockAcq p l) s = .next t ∧ t.locks = s.locks ∧
      t.greg.lastRead = BitVec.ofNat 64 (lockResult ((s.lock l).holder == fnCode (pathFn p)) false ((s.lock l).holder == fnCode (pathFn p)) (s.lock l).holder (s.lock l).epoch)) ∧
  (∀ (p : Path) (l : Fin 64) (s : State), s.ready = true → s.reachable p = true → s.expertOk (pathFn p) = true → (s.lock l).holder = fnCode (pathFn p) →
    ∃ t, exec (.lockReleaseWrite p l) s = .next t ∧ (t.lock l).waiters = (s.lock l).waiters.drop 1 ∧ (t.lock l).epoch = (s.lock l).epoch ∧
      (t.lock l).holder = (match (s.lock l).waiters with | w :: _ => w.code | [] => 0)) ∧
  (∀ (p : Path) (l : Fin 64) (s : State), s.ready = true → s.reachable p = true → pathFn p = 0 → l.val < 48 → (s.lock l).holder ≠ 0 →
    ∃ t, exec (.lockForceWrite p l) s = .next t ∧ (t.lock l).epoch = (s.lock l).epoch + 1 ∧ t.greg.lockLost = true ∧
      (t.lock l).holder = (match (s.lock l).waiters with | w :: _ => w.code | [] => 0) ∧
      (t.lock l).ownerLost = (match (s.lock l).waiters with | _ :: _ => false | [] => true)) ∧
  (∀ (l : Fin 64) (cseq : B32) (w : Waiter) (k : Pkt) (m : List Waiter) (s : State), (s.lock l).waiters = w :: m → w.reply = some k → k.cseq = cseq →
    ∃ t, exec (.lockWaitTimeout l cseq) s = .next t ∧ (t.lock l).waiters = m ∧ (t.lock l).holder = (s.lock l).holder)

/-- REGISTER_WRITE, REGISTER_LOW_READ, FC_FSEQ_READ, BAD_ACCESS_READ and LOG_DROP_READ (R352, R354, R362, R436, Table 14-5). A write sets the writable
fields it meets; an access that is misaligned, or meets no register, is counted; the read of a 64-bit register's low word latches the high one;
FC_FSEQ latches a unit's counts; BAD_ACCESS and LOG_DROP clear as they are read. MEM_DATA and UNIT_CTRL_UNIT_RESET (R121, R252, R253, R363).
MEM_DATA writes or reads the word MEM_ADDR names, which moves on; a write to the program of a running context is denied; a unit reset clears queues
and program state and leaves the memories. -/
def Obligations.RegistersAndUnitWindows : Prop :=
  ((∀ (v : B64) (s : State), s.ready = true → (s.ep 0).up = true →
    ∃ t, exec (.registerWrite (.bar 0) 0x10034 4 v) s = .next t ∧ t.greg.ecloseTimeout = max 1 (min 10000 (v.toNat % 2 ^ 14)) ∧
      t.greg.tagTimeout = s.greg.tagTimeout ∧ t.greg.badAccess = s.greg.badAccess) ∧
  (∀ (off : B32) (v : B64) (s : State), s.ready = true → (s.ep 0).up = true → off.toNat % 4 ≠ 0 →
    ∃ t, exec (.registerWrite (.bar 0) off 4 v) s = .next t ∧ t.greg.badAccess = s.greg.badAccess + 1 ∧
      t = { s with greg := { s.greg with badAccess := s.greg.badAccess + 1 } }) ∧
  (∀ s : State, s.ready = true → (s.ep 0).up = true →
    ∃ t u, exec (.registerLowRead (.bar 0) 0x10018) s = .next t ∧ t.greg.lastRead = BitVec.ofNat 64 (s.dtb.now.toNat % 2 ^ 32) ∧
      exec (.registerLowRead (.bar 0) 0x1001C) t = .next u ∧ u.greg.lastRead = BitVec.ofNat 64 (s.dtb.now.toNat / 2 ^ 32)) ∧
  (∀ (site : Site) (s : State), s.ready = true → (s.ep 0).up = true → s.works site = true →
    ∃ t, exec (.fcFseqRead site) s = .next t ∧ (t.unit site).fcLatched = (s.unit site).fc) ∧
  (∀ s : State, s.ready = true → (s.ep 0).up = true →
    ∃ t, exec .badAccessRead s = .next t ∧ t.greg.lastRead = BitVec.ofNat 64 s.greg.badAccess.toNat ∧ t.greg.badAccess = 0) ∧
  (∀ (f : FnId) (s : State), s.ready = true → (s.ep (s.epOf f)).up = true →
    ∃ t, exec (.logDropRead f) s = .next t ∧ t.greg.lastRead = BitVec.ofNat 64 (s.fn f).logDrop.toNat ∧ (t.fn f).logDrop = 0)) ∧
  ((∀ (site : Site) (v : B64) (ecc : Ecc) (s : State), s.ready = true → s.works site = true →
    (s.unit site).memAddr < memWords (kindOf site) (s.unit site).memSel → ((s.unit site).memSel < 3 → s.progOpen site = true) →
    ∃ t, exec (.memData site (some v) ecc) s = .next t ∧
      Tab.get 0 (t.unit site).mem (memAt (s.unit site).memSel (s.unit site).memAddr) = v ∧
      (t.unit site).memAddr = ((s.unit site).memAddr + 1) % 16777216) ∧
  (∀ (site : Site) (v : B64) (ecc : Ecc) (s : State), s.ready = true → s.works site = true → (s.unit site).memSel < 3 → s.progOpen site = false →
    ∃ t, exec (.memData site (some v) ecc) s = .next t ∧ (t.unit site).mem = (s.unit site).mem) ∧
  (∀ (site : Site) (s : State), s.ready = true → s.works site = true → (s.unit site).memAddr < memWords (kindOf site) (s.unit site).memSel →
    (s.unit site).memSel ≠ 5 →
    ∃ t, exec (.memData site none .clean) s = .next t ∧ (t.unit site).memAddr = ((s.unit site).memAddr + 1) % 16777216 ∧
      t.greg.lastRead = Tab.get 0 (s.unit site).mem (memAt (s.unit site).memSel (s.unit site).memAddr)) ∧
  (∀ (site : Site) (s : State), s.ready = true → s.works site = true →
    ∃ t, exec (.unitCtrlUnitReset site) s = .next t ∧ (t.unit site).queues = [] ∧ (t.unit site).pc = 0 ∧ (t.unit site).halted = false ∧
      (t.unit site).mem = (s.unit site).mem))

/-- WRITE_PACKET, READ_REPLY, READ_STATUS, READ_REG, WRITE_REG and READ_RESULT (R330-R332, Table 06-3). -/
def Obligations.ControlSpi : Prop :=
  (∀ (b : Bytes) (s : State), s.ready = true → packetCause s.cspi.pktQ b = none →
    ∃ t, exec (.writePacket b) s = .next t ∧ t.cspi.pktQ = s.cspi.pktQ ++ [{ bytes := b, fn := 0, cspi := true }] ∧ t.cspi.pktErr = s.cspi.pktErr) ∧
  (∀ (b : Bytes) (c : Nat) (s : State), s.ready = true → packetCause s.cspi.pktQ b = some c →
    ∃ t, exec (.writePacket b) s = .next t ∧ t.cspi.pktQ = s.cspi.pktQ ∧ t.cspi.pktErr = true) ∧
  (∀ (r : Rec) (m : List Rec) (s : State), s.ready = true → s.cspi.replyQ = r :: m →
    ∃ t, exec .readReply s = .next t ∧ t.cspi.miso = replyBytes r ∧ t.cspi.replyQ = m) ∧
  (∀ s : State, s.ready = true → s.cspi.replyQ = [] →
    ∃ t, exec .readReply s = .next t ∧ t.cspi.miso = (List.range 8).flatMap (fun _ => toLe 4 0xFFFF0000)) ∧
  (∀ s : State, s.ready = true →
    ∃ t, exec .readStatus s = .next t ∧ t.cspi.miso = toLe 4 s.cspiStatus ∧ t.cspi.pktErr = false) ∧
  (∀ s : State, s.ready = true → ∃ t, exec (.readReg 0) s = .next t ∧ t.cspi.miso.drop 1 = toLe 4 0x4449344B) ∧
  (∀ (v : B32) (s : State), s.ready = true →
    ∃ t, exec (.writeReg 0x10034 v) s = .next t ∧ t.greg.ecloseTimeout = max 1 (min 10000 (v.toNat % 2 ^ 14)) ∧ t.cspi.miso = []) ∧
  (∀ (off n : B16) (s : State), s.ready = true → off.toNat + n.toNat ≤ 4096 →
    ∃ t, exec (.readResult off n) s = .next t ∧ t.cspi.result = s.cspi.result ∧
      t.cspi.miso.drop 1 = (List.range n.toNat).map (fun i => s.cspi.result.getD (off.toNat + i) 0))

/-- NOP, STREAM_START, STREAM_STOP and DROP_THRESHOLD (R143, R168, R313, R343, R344). A bound stream of a context that is not running yet starts with
its policy and queue, and its context runs; a stream between frames stops at once, one within a frame when the frame has ended. -/
def Obligations.StreamCommands : Prop :=
  (∀ (k : Pkt) (s : State), Allowed s k 0x0000 → exec (.nop k) s = .next (s.finish k true .ok)) ∧
  (∀ (k : Pkt) (st pol oq p : B8) (c : Ctx) (v : VcDecl) (s : State), Allowed s k 0x0001 → BoundStream s k st.toNat c → pol.toNat ≤ 1 → oq.toNat ≤ 8 → oq.toNat ≠ 1 →
    c.state = .cocoon → (s.strm st.toNat).started = false → c.bindImage.multi = false → (s.strm st.toNat).source = 0 →
    (s.head (st.toNat / 4)).usable = true → (s.head (st.toNat / 4)).detach = none → (s.head (st.toNat / 4)).chan (st.toNat % 4) = some v →
    v.width.toNat = (s.bindDecl st.toNat).width → v.height.toNat = (s.bindDecl st.toNat).height → (s.strm st.toNat).route = 0 →
    p.toNat < 64 → p.toNat < s.part.variant.streams → dieOfPool p.toNat = dieOfStream st.toNat → mayAct (who k) (s.pool p.toNat).fn = true →
    (s.pool p.toNat).ready = true → (s.strm st.toNat).pool = p.toNat →
    s.queueBytes st.toNat (if oq.toNat = 0 then 4 else oq.toNat) ≤ 2097152 →
    ∃ t, exec (.streamStart k st pol 0 oq p 0 0) s = .next t ∧ (t.strm st.toNat).started = true ∧ (t.strm st.toNat).admitting = false ∧
      (t.strm st.toNat).stall = (pol == 1) ∧ (t.strm st.toNat).oqLines = (if oq.toNat = 0 then 4 else oq.toNat) ∧ (t.strm st.toNat).dropD = 8 ∧
      ∀ o, (s.strm st.toNat).ctx = some o → t.ctx o = some { c with state := .running }) ∧
  (∀ (k : Pkt) (st : B8) (c : Ctx) (s : State), Allowed s k 0x0001 → BoundStream s k st.toNat c → c.state = .cocoon → (s.strm st.toNat).started = false →
    c.bindImage.multi = false → (s.strm st.toNat).source = 2 → (s.strm st.toNat).route ≠ 0 → s.queueBytes st.toNat 4 ≤ 2097152 →
    ∃ t, exec (.streamStart k st 0 0 0 255 0 0) s = .next t ∧ (t.strm st.toNat).started = true ∧ (t.strm st.toNat).paceFrame = 0 ∧
      (t.strm st.toNat).paceLine = 0) ∧
  (∀ (k : Pkt) (st imm : B8) (c : Ctx) (s : State), Allowed s k 0x0002 → BoundStream s k st.toNat c → imm.toNat ≤ 1 → (s.strm st.toNat).started = true →
    (s.strm st.toNat).admitting = false →
    ∃ t, exec (.streamStop k st 0 imm) s = .next t ∧ (t.strm st.toNat).started = false) ∧
  (∀ (k : Pkt) (st : B8) (c : Ctx) (f : LinkFrame) (s : State), Allowed s k 0x0002 → BoundStream s k st.toNat c → (s.strm st.toNat).started = true →
    (s.strm st.toNat).source = 0 → (s.strm st.toNat).admitting = true → (s.strm st.toNat).frame = some f → f.dropping = false →
    ∃ t, exec (.streamStop k st 0 0) s = .next t ∧ (t.strm st.toNat).started = true ∧ (t.strm st.toNat).stopNext = true) ∧
  (∀ (k : Pkt) (st n : B8) (c : Ctx) (s : State), Allowed s k 0x8003 → BoundStream s k st.toNat c → 1 ≤ n.toNat → n.toNat ≤ 8 →
    (s.strm st.toNat).source = 0 →
    exec (.dropThreshold k st n) s = .next ((s.modStrm st.toNat (fun x => { x with dropD := n.toNat })).finish k true .ok))

/-- ECLOSE_VARIANT, STATS_SNAPSHOT, CONTEXT_ABORT, EXPONENT_TRIM, UNIT_COUNTERS and ENTITY_WRITE (R202, R241, R304, R308, R315, R454-R456). -/
def Obligations.ContextFastCommands : Prop :=
  (∀ (k : Pkt) (o n : B8) (c : Ctx) (p : Placement) (s : State), Allowed s k 0x0003 → OwnContext s k o.toNat c → n.toNat < 64 → c.state = .cocoon →
    c.variants.find? (fun q => q.slot == n.toNat) = some p → (s.slot n.toNat).state = .staged → c.ecl = none →
    (∀ st ∈ s.ctxStreams o.toNat, (s.strm st).started = false) →
    exec (.ecloseVariant k o n 1) s = .next (s.setCtx o.toNat (some { c with ecl := some { kind := 2, place := p, pkt := some k, due := true } }))) ∧
  (∀ (k : Pkt) (o st : B8) (vmask : B32) (len : B32) (c : Ctx) (s : State), Allowed s k 0x0004 → OwnContext s k o.toNat c → c.state ≠ .fault → st.toNat < 64 →
    vmask ≠ 0 → vmask.toNat < 2 ^ c.place.image.decl.statsUnits.length → c.snap = none →
    exec (.statsSnapshot k o st 1 vmask 0 len) s = .next (s.setCtx o.toNat (some { c with
      snap := some { pkt := k, stream := st.toNat, next := true, vmask := vmask, dest := 0, length := len.toNat } }))) ∧
  (∀ (k : Pkt) (o : B8) (c : Ctx) (s : State), Allowed s k 0x8001 → OwnContext s k o.toNat c →
    ∃ t c', exec (.contextAbort k o) s = .next t ∧ t.ctx o.toNat = some c' ∧
      (c.state = .fault → t = s.finish k true .ok) ∧
      (c.state = .running ∨ c.state = .stopping ∨ c.state = .cocoon → c'.state = .aborting ∧ c'.cause = Cause.aborted.code ∧ k ∈ c'.abortPkts ∧
        (t.group o.toNat).masked = true) ∧
      (c.state = .eclosing → c'.state = .eclosing ∧ c'.abortPend.isSome = true)) ∧
  (∀ (k : Pkt) (o g t : B8) (c : Ctx) (d : TrimDecl) (s : State), Allowed s k 0x8006 → OwnContext s k o.toNat c → c.state ≠ .fault → c.state ≠ .eclosing →
    c.ecl = none → c.place.image.decl.trims[g.toNat]? = some d → d.lo ≤ t.toInt → t.toInt ≤ d.hi →
    exec (.exponentTrim k o g t) s = .next ((s.setCtx o.toNat (some { c with trims := Tab.set c.trims g.toNat t.toInt })).finish k true .ok)) ∧
  (∀ (k : Pkt) (o : B8) (dest : B64) (len : B32) (c : Ctx) (s : State), Allowed s k 0x8004 → OwnContext s k o.toNat c → k.cspi = false → 16 ≤ len.toNat → Memory.wf s.hostMem = true →
    ∃ t esn, exec (.unitCounters k o dest len) s = .next t ∧ esn.length = 6 ∧
      Memory.readBytes t.hostMem dest.toNat (s.counterBytes o.toNat len.toNat esn).1.length = (s.counterBytes o.toNat len.toNat esn).1 ∧
      (∀ a, a < dest.toNat ∨ dest.toNat + (s.counterBytes o.toNat len.toNat esn).1.length ≤ a → Memory.read t.hostMem a = Memory.read s.hostMem a)) ∧
  (∀ (k : Pkt) (o tb : B8) (row : B16) (src : B64) (b : Bytes) (c : Ctx) (e : EntityDecl) (v w site : Nat) (s : State), Allowed s k 0x8005 → k.cspi = false →
    OwnContext s k o.toNat c → c.state ≠ .fault → c.place.image.decl.entities[tb.toNat]? = some e → row.toNat < entityRows e →
    s.hostTaken src 128 = some b → entityRow e.parts row.toNat = some (v, w) → c.place.site v = some site → w + 4 ≤ 16384 →
    ∃ t, exec (.entityWrite k o tb row 1 src) s = .next t ∧
      ∀ i < 4, (t.unit site).load (w + i) = BitVec.ofNat 256 (fieldLe b (32 * i) 32))

/-- LOCK_ACQUIRE, LOCK_RELEASE, LOCK_QUERY and QUEUE_FLUSH (R165-R168, R172, R365-R368). -/
def Obligations.LockAndFlushCommands : Prop :=
  (∀ (k : Pkt) (l : B8) (us : B16) (s : State), Allowed s k 0x0005 → l.toNat < 48 → (s.lock l.toNat).holder = 0 →
    exec (.lockAcquire k l 0 us) s = .next ((s.setLock l.toNat { s.lock l.toNat with holder := fnCode (who k), ownerLost := false }).finish k true
      (if (s.lock l.toNat).ownerLost then .okLost else .ok) [(s.lock l.toNat).epoch.toNat])) ∧
  (∀ (k : Pkt) (l : B8) (us : B16) (s : State), Allowed s k 0x0005 → l.toNat < 48 → us ≠ 0 → (s.lock l.toNat).holder ≠ 0 →
    (s.lock l.toNat).holder ≠ fnCode (who k) → (s.lock l.toNat).waiters.length < 8 →
    exec (.lockAcquire k l 1 us) s = .next (s.setLock l.toNat { s.lock l.toNat with
      waiters := (s.lock l.toNat).waiters ++ [{ code := fnCode (who k), reply := some k }] })) ∧
  (∀ (k : Pkt) (l : B8) (s : State), Allowed s k 0x0006 → l.toNat < 64 → (s.lock l.toNat).holder = fnCode (who k) →
    ∃ t, exec (.lockRelease k l) s = .next t ∧ (t.lock l.toNat).waiters = (s.lock l.toNat).waiters.drop 1 ∧
      (t.lock l.toNat).holder = (match (s.lock l.toNat).waiters with | w :: _ => w.code | [] => 0) ∧ ∀ j, j ≠ l.toNat → t.lock j = s.lock j) ∧
  (∀ (k : Pkt) (l : B8) (s : State), Allowed s k 0x0007 → l.toNat < 64 →
    exec (.lockQuery k l) s = .next (s.finish k true .ok [(s.lock l.toNat).holder.toNat, (s.lock l.toNat).word])) ∧
  (∀ (k : Pkt) (i : B8) (s : State), Allowed s k 0x8002 → i.toNat < 64 → mayAct (who k) i.toNat = true →
    ∃ t, exec (.queueFlush k 0 i) s = .next t ∧ (t.fn i.toNat).replyQ = [] ∧ (t.fn i.toNat).replyEpoch = (s.fn i.toNat).replyEpoch + 1) ∧
  (∀ (k : Pkt) (i : B8) (s : State), Allowed s k 0x8002 → i.toNat < 64 → i.toNat < s.part.variant.streams → mayAct (who k) (s.streamFn i.toNat) = true →
    ∃ t, exec (.queueFlush k 1 i) s = .next t ∧ (t.strm i.toNat).oq = [] ∧ (t.strm i.toNat).ring = [] ∧ (t.strm i.toNat).openBuf = none ∧
      (t.strm i.toNat).flushEpoch.toNat = ((s.strm i.toNat).flushEpoch.toNat + 1) % 256) ∧
  (∀ (k : Pkt) (i : B8) (s : State), Allowed s k 0x8002 → i.toNat < 64 → i.toNat < s.part.variant.streams → mayAct (who k) (s.pool i.toNat).fn = true →
    ∃ t, exec (.queueFlush k 2 i) s = .next t ∧ (t.pool i.toNat).cache = [] ∧ (t.pool i.toNat).flushEpoch = (s.pool i.toNat).flushEpoch + 1) ∧
  (∀ (k : Pkt) (i : B8) (s : State), Allowed s k 0x8002 → i.toNat < 4 → i.toNat < s.part.variant.yalleks →
    ∃ t, exec (.queueFlush k 3 i) s = .next t ∧ (t.yport i.toNat).tx = [])

/-- FW_NOP, FN_GRANT, VF_MAP, HEAD_ASSIGN, POOL_ASSIGN, POOL_SETUP and LOG_RING (R169, R323, R335, R344, R349). Ownership passes only while nothing of
the object runs; a pool set up starts afresh on its rings. -/
def Obligations.OwnershipCommands : Prop :=
  (∀ (k : Pkt) (s : State), Allowed s k 0x1000 → exec (.fwNop k) s = .next (s.finish k false .ok [s.boot.fwVersion.toNat])) ∧
  (∀ (k : Pkt) (f e : B8) (s : State), Allowed s k 0x1001 → f.toNat < 64 → e.toNat ≤ 1 →
    exec (.fnGrant k f e) s = .next ((s.modFn f.toNat (fun x => { x with expert := e == 1 })).finish k false .ok)) ∧
  (∀ (k : Pkt) (m : B64) (s : State), Allowed s k 0x1002 → s.part.variant ≠ .k1108 → s.vfEnable = false →
    exec (.vfMap k m) s = .next (({ s with vfMap := m &&& 0xFFFFFFFFFFFFFFFC } : State).finish k false .ok)) ∧
  (∀ (k : Pkt) (h f : B8) (s : State), Allowed s k 0x1003 → OwnHead s k h.toNat → f.toNat < 64 → (∀ v < 4, (s.strm (4 * h.toNat + v)).started = false) →
    ∃ t, exec (.headAssign k h f) s = .next t ∧ (t.head h.toNat).fn.val = f.toNat ∧ ∀ j, j ≠ h.toNat → t.head j = s.head j) ∧
  (∀ (k : Pkt) (h f : B8) (v : Nat) (s : State), Allowed s k 0x1003 → OwnHead s k h.toNat → f.toNat < 64 → v < 4 →
    (s.strm (4 * h.toNat + v)).started = true → exec (.headAssign k h f) s = .next (s.finish k false .busy)) ∧
  (∀ (k : Pkt) (p f : B8) (s : State), Allowed s k 0x1004 → p.toNat < 64 → p.toNat < s.part.variant.streams → mayAct (who k) (s.pool p.toNat).fn = true →
    f.toNat < 64 → s.poolNamed p.toNat = false →
    ∃ t, exec (.poolAssign k p f) s = .next t ∧ (t.pool p.toNat).fn.val = f.toNat ∧ ∀ j, j ≠ p.toNat → t.pool j = s.pool j) ∧
  (∀ (k : Pkt) (p ro co : B8) (ring cpl : B64) (s : State), Allowed s k 0x1005 → p.toNat < 64 → p.toNat < s.part.variant.streams →
    mayAct (who k) (s.pool p.toNat).fn = true → 4 ≤ ro.toNat → ro.toNat ≤ 12 → 4 ≤ co.toNat → co.toNat ≤ 12 → k.cspi = false → s.poolNamed p.toNat = false →
    ∃ t, exec (.poolSetup k p ro co ring cpl) s = .next t ∧ (t.pool p.toNat).ready = true ∧ (t.pool p.toNat).ring = ring ∧ (t.pool p.toNat).order = ro.toNat ∧
      (t.pool p.toNat).cplRing = cpl ∧ (t.pool p.toNat).cplOrder = co.toNat ∧ (t.pool p.toNat).prod = 0 ∧ (t.pool p.toNat).cons = 0 ∧
      (t.pool p.toNat).cplProd = 0 ∧ (t.pool p.toNat).fn = (s.pool p.toNat).fn) ∧
  (∀ (k : Pkt) (order filter : B8) (dest : B64) (s : State), Allowed s k 0x1008 → (bit filter.toNat 2 = true → who k = 0) → 8 ≤ order.toNat →
    order.toNat ≤ 16 → filter.toNat ≤ 7 → k.cspi = false →
    ∃ t, exec (.logRing k order filter dest) s = .next t ∧ (t.fn (who k)).logRing = some { dest := dest, order := order.toNat, filter := filter.toNat } ∧
      (t.fn (who k)).logProd = 0 ∧ (t.fn (who k)).logCons = 0)

/-- MODE_SET and POWER_MODE (R286, R414, R415, R439, R442, R443). The check mode does not change while a context runs; a change of power mode is logged,
and under FULL no stack stays in power-down. -/
def Obligations.ModeCommands : Prop :=
  (∀ (k : Pkt) (v : B8) (s : State), Allowed s k 0x1006 → v.toNat ≤ 1 → s.ctxs.any (fun e : Nat × Option Ctx => e.2.any (fun c => c.opened)) = false →
    ∃ t, exec (.modeSet k 0 v) s = .next t ∧ t.modes = { s.modes with hazard := v == 1 }) ∧
  (∀ (k : Pkt) (v : B8) (s : State), Allowed s k 0x1006 → v.toNat ≤ 1 → s.ctxs.any (fun e : Nat × Option Ctx => e.2.any (fun c => c.opened)) = true →
    exec (.modeSet k 0 v) s = .next (s.finish k false .busy)) ∧
  (∀ (k : Pkt) (v : B8) (s : State), Allowed s k 0x1006 → v.toNat ≤ 1 →
    ∃ t, exec (.modeSet k 1 v) s = .next t ∧ t.modes = { s.modes with openTrust := v == 1 } ∧
      ∀ h < 16, s.headStreaming h = false → (t.head h).openTrust = (v == 1) ∧
        (v = 0 → (s.head h).state = .untrusted → (t.head h).state = .fault ∧ (t.head h).cause = 2)) ∧
  (∀ (k : Pkt) (v : B8) (s : State), Allowed s k 0x1006 → v.toNat ≤ 1 →
    exec (.modeSet k 2 v) s = .next (({ s with modes := { s.modes with limit := v == 1 } } : State).finish k false .ok)) ∧
  (∀ (k : Pkt) (v : B8) (s : State), Allowed s k 0x1006 → v.toNat ≤ 1 →
    exec (.modeSet k 3 v) s = .next (({ s with modes := { s.modes with hazFault := v == 1 } } : State).finish k false .ok)) ∧
  (∀ (k : Pkt) (m : B8) (s : State), Allowed s k 0x1007 → m.toNat ≤ 1 →
    ∃ t, exec (.powerMode k m) s = .next t ∧ t.modes = { s.modes with eco := m == 1 } ∧
      (s.modes.eco = true → m = 0 → ∀ i, (t.stackOf i).down = false))

/-- TIME_MODE, TIME_ADJUST and ST2110_SENDER (R69-R72, R401, R405). A step waits for the time it applies at; an offset is slewed unless it is above the
threshold of a policy that steps; a new rate stays within 1,000 ppm. -/
def Obligations.TimeAndSenderCommands : Prop :=
  (∀ (k : Pkt) (mode pol : B8) (slew : B16) (thr : B32) (s : State), Allowed s k 0x1400 → mode.toNat ≤ 2 → pol.toNat ≤ 1 → 1 ≤ slew.toNat → slew.toNat ≤ 1000 →
    thr.toNat ≤ 1000000000 →
    ∃ t, exec (.timeMode k mode pol slew thr) s = .next t ∧ t.dtb.mode = (if mode = 0 then .free else if mode = 1 then .host else .ptp) ∧
      t.dtb.slewOnly = (pol == 1) ∧ t.dtb.slewMax = slew.toNat ∧ t.dtb.threshold = thr.toNat ∧ t.dtb.now = s.dtb.now ∧
      (t.dtb.mode ≠ s.dtb.mode → t.dtb.slew = 0)) ∧
  (∀ (k : Pkt) (v : B64) (s : State), Allowed s k 0x1401 → s.dtb.mode = .host → s.dtb.pendingStep = none →
    exec (.timeAdjust k 0 v) s = .next (s.requestStep v.toInt (BitVec.ofNat 16 (who k)) (some k))) ∧
  (∀ (k : Pkt) (v : B64) (s : State), Allowed s k 0x1401 → s.dtb.mode = .host → (v.toInt.natAbs ≤ s.dtb.threshold ∨ s.dtb.slewOnly = true) →
    ∃ t, exec (.timeAdjust k 1 v) s = .next t ∧ t.dtb = { s.dtb with slew := v.toInt * 4294967296, slewing := v.toInt != 0, uncertain := false }) ∧
  (∀ (k : Pkt) (v : B64) (s : State), Allowed s k 0x1401 → s.dtb.mode = .host → s.dtb.threshold < v.toInt.natAbs → s.dtb.slewOnly = false →
    s.dtb.pendingStep = none →
    ∃ t, exec (.timeAdjust k 1 v) s = .next t ∧ t.dtb.slew = 0 ∧ t.dtb.now = s.dtb.now ∧
      t.dtb.pendingStep = some { tApply := stepTime s.dtb.now, delta := v.toInt, fn := BitVec.ofNat 16 (who k), pkt := some k }) ∧
  (∀ (k : Pkt) (v : B64) (s : State), Allowed s k 0x1401 → s.dtb.mode = .host → (v.toInt - addendNominal).natAbs ≤ addendBound →
    ∃ t, exec (.timeAdjust k 2 v) s = .next t ∧ t.dtb = { s.dtb with base := v.toInt.toNat, slew := 0, slewing := false }) ∧
  (∀ (k : Pkt) (d en : B8) (b : Bytes) (s : State), Allowed s k 0x1500 → d.toNat < 32 → en.toNat ≤ 1 → b.length = 208 →
    (en = 1 → senderRecordOk b = true) → d.toNat / 16 < s.part.variant.ports →
    ∃ t, exec (.st2110Sender k d en b) s = .next t ∧ (t.sender d.toNat).enabled = (en == 1) ∧ (t.sender d.toNat).record = b ∧
      (t.sender d.toNat).fn.val = who k ∧ ∀ j, j ≠ d.toNat → t.sender j = s.sender j) ∧
  (∀ (k : Pkt) (i : Nat) (en : B8) (b : Bytes) (s : State), Allowed s k 0x1500 → i < s.part.variant.ports → en.toNat ≤ 1 → b.length = 208 →
    (en = 1 → portRecordOk b = true) →
    ∃ t, exec (.st2110Sender k (BitVec.ofNat 8 (0xF0 + i)) en b) s = .next t ∧ (t.eth i).enabled = (en == 1) ∧ (t.eth i).record = b ∧
      (en = 0 → (t.eth i).up = false))

/-- HEAD_ATTACH, HEAD_DETACH and HEAD_AUTH (R36, R37, R40-R45, R313). With a head plugged in, its power comes on and the attach begins; with none the
parameters are kept and the reply comes at once (the model's reading, log 34). A detach first stops the streams and commits the ledger. -/
def Obligations.AttachCommands : Prop :=
  (∀ (k : Pkt) (h : B8) (p : AttachParams) (s : State), Allowed s k 0x1100 → OwnHead s k h.toNat → attachOk p = true → destBad k p.report = false →
    (s.head h.toNat).attaching = false → (s.head h.toNat).detach = none → s.headStreaming h.toNat = false → (s.head h.toNat).present = true →
    ∃ t, exec (.headAttach k h p) s = .next t ∧ (t.head h.toNat).params = some p ∧ (t.head h.toNat).pwrEn = true ∧ (t.head h.toNat).state = .powering ∧
      (t.head h.toNat).attachPkt = some k ∧ (t.head h.toNat).i3c = [] ∧ (t.head h.toNat).autoAttach = (p.auto == 1)) ∧
  (∀ (k : Pkt) (h : B8) (p : AttachParams) (s : State), Allowed s k 0x1100 → OwnHead s k h.toNat → attachOk p = true → destBad k p.report = false →
    (s.head h.toNat).attaching = false → (s.head h.toNat).detach = none → s.headStreaming h.toNat = false → (s.head h.toNat).present = false →
    exec (.headAttach k h p) s = .next ((s.modHead h.toNat (fun x => { x with
      params := some p, autoAttach := p.auto == 1, paramsFn := fnId (who k), paramsCspi := k.cspi })).finish k false .ok [0, 0, 0])) ∧
  (∀ (k : Pkt) (h : B8) (s : State), Allowed s k 0x1101 → OwnHead s k h.toNat → (s.head h.toNat).attaching = false → (s.head h.toNat).detach = none →
    (∀ v < 4, (s.strm (4 * h.toNat + v)).started = false) → (s.head h.toNat).commit = none →
    ∃ t, exec (.headDetach k h) s = .next t ∧ (t.head h.toNat).autoAttach = false ∧
      ((s.head h.toNat).state = .ready ∧ (s.head h.toNat).exhausted = false →
        (t.head h.toNat).state = .ready ∧ (t.head h.toNat).detach = some k ∧ (t.head h.toNat).commitDue = true) ∧
      ((s.head h.toNat).state ≠ .ready ∨ (s.head h.toNat).exhausted = true →
        (t.head h.toNat).state = .absent ∧ (t.head h.toNat).pwrEn = false ∧ (t.head h.toNat).detach = none)) ∧
  (∀ (k : Pkt) (h : B8) (s : State), Allowed s k 0x1102 → OwnHead s k h.toNat → (s.head h.toNat).attaching = false → (s.head h.toNat).auth = none →
    (s.head h.toNat).detach = none → ((s.head h.toNat).usable = true ∨ (s.head h.toNat).state = .fault ∧ (s.head h.toNat).cause = 2) →
    ∃ t c, exec (.headAuth k h) s = .next t ∧ c.length = 32 ∧ (t.head h.toNat).auth = some { challenge := c, again := true, pkt := some k } ∧
      (t.head h.toNat).i3c = (s.head h.toNat).i3c ++ [{ target := 0x0A, reg := 0x10, data := c.take 16 }, { target := 0x0A, reg := 0x20, data := c.drop 16 },
        { target := 0x0A, reg := 0x00, data := [0x01] }] ∧ (t.head h.toNat).state = (s.head h.toNat).state) ∧
  (∀ (k : Pkt) (h : B8) (s : State), Allowed s k 0x1101 → OwnHead s k h.toNat → ((s.head h.toNat).attaching = true ∨ (s.head h.toNat).detach.isSome = true) →
    exec (.headDetach k h) s = .next (s.finish k false .busy))

/-- HEAD_FSYNC, HEAD_GAIN, HEAD_EXPOSURE, HEAD_ACTUATOR and HEAD_LENS (R34, R35, R51, R52, R55, R56, R240). The line count and the gain code go to the
sensor's registers, big-endian, and x and g follow what was written. -/
def Obligations.HeadSettings : Prop :=
  (∀ (k : Pkt) (h en w : B8) (p : B32) (t0 : B64) (s : State), Allowed s k 0x1103 → OwnHead s k h.toNat → en.toNat ≤ 1 → 1 ≤ w.toNat → 2000 ≤ p.toNat →
    p.toNat ≤ 1000000000 → 1000 * w.toNat + 1000 ≤ p.toNat →
    exec (.headFsync k h en w p t0) s = .next ((s.modHead h.toNat (fun x => { x with
      fsyncNext := some ({ on := en == 1, t0 := t0.toNat, period := p.toNat, width := w.toNat }, s.dtb.now.toNat + 1000) })).finish k false .ok)) ∧
  (∀ (k : Pkt) (h : B8) (g : B16) (s : State), Allowed s k 0x1104 → OwnHead s k h.toNat → (s.head h.toNat).usable = true → g ≠ 0 → g.toNat < 0x7C00 →
    exec (.headGain k h g) s = .next ((s.modHead h.toNat (fun x => { x with hostGain := some g.toNat })).finish k false .ok)) ∧
  (∀ (k : Pkt) (h : B8) (g : B16) (lines : B32) (n code : Nat) (clamped : Bool) (s : State), Allowed s k 0x1105 → OwnHead s k h.toNat →
    (s.head h.toNat).usable = true → isNan16 g.toNat = false → (s.head h.toNat).hostExposure g.toNat lines.toNat (s.limiting h.toNat) = (n, code, clamped) →
    ∃ t, exec (.headExposure k h g lines) s = .next t ∧
      (t.head h.toNat).i3c = (s.head h.toNat).i3c ++ [
        { target := 0x09, reg := (s.head h.toNat).pp 0x144 2, data := beBytes (s.head h.toNat).expoBytes n },
        { target := 0x09, reg := (s.head h.toNat).pp 0x146 2, data := beBytes (s.head h.toNat).gainBytes code }] ∧
      (t.head h.toNat).x = n ∧ (t.head h.toNat).g = div32 (int32 code) (int32 (s.head h.toNat).gainUnit) ∧ ∀ j, j ≠ h.toNat → t.head j = s.head j) ∧
  (∀ (x : Head) (g lines : Nat) (lim : Bool), (x.hostExposure g lines lim).1 ≤ 2 ^ (8 * x.expoBytes) - 1 ∧
    (x.hostExposure g lines lim).1 ≤ max 1 x.expoMax ∧ (x.hostExposure g lines lim).2.1 ≤ 2 ^ (8 * x.gainBytes) - 1) ∧
  (∀ (k : Pkt) (h mode : B8) (line conf : B16) (lo hi : B32) (s : State), Allowed s k 0x1106 → OwnHead s k h.toNat → (s.head h.toNat).usable = true →
    mode.toNat ≤ 1 → line.toNat ≤ 8191 → isNan16 conf.toNat = false → lo.toInt ≤ hi.toInt →
    exec (.headActuator k h mode line conf lo hi) s = .next ((s.modHead h.toNat (fun x => { x with
      actAbs := mode == 1, actTrigger := line.toNat, actConfMin := conf.toNat, actMin := lo.toInt, actMax := hi.toInt })).finish k false .ok)) ∧
  (∀ (k : Pkt) (h : B8) (lens : B16) (s : State), Allowed s k 0x1107 → OwnHead s k h.toNat →
    exec (.headLens k h lens) s = .next ((s.modHead h.toNat (fun x => { x with lens := lens })).finish k false .ok))

/-- SLOT_DEFINE, SLOT_UNDEFINE, SLOT_STAGE and SLOT_UNSTAGE (R293-R296, Table 12-4). A slot is STAGED only when every check on its bytes passes. -/
def Obligations.SlotCommands : Prop :=
  (∀ (k : Pkt) (n pl : B8) (len : B32) (src : B64) (s : State), Allowed s k 0x1200 → n.toNat < 64 → (s.slot n.toNat).state = .empty → 1 ≤ len.toNat →
    len.toNat ≤ 16777216 → s.sourceBad k pl.toNat src len.toNat = false →
    exec (.slotDefine k n pl len src) s = .next ((s.setSlot n.toNat { state := .stored, fn := fnId (who k), host := (pl == 1), length := len.toNat, src := src }).finish k false .ok)) ∧
  (∀ (k : Pkt) (n : B8) (s : State), Allowed s k 0x1201 → OwnSlot s k n.toNat → (s.slot n.toNat).state ≠ .empty → s.slotBusy n.toNat = false →
    exec (.slotUndefine k n) s = .next ((s.setSlot n.toNat {}).finish k false .ok)) ∧
  (∀ (k : Pkt) (n : B8) (d : ImageDecl) (err : Bool) (s : State), Allowed s k 0x1202 → OwnSlot s k n.toNat → (s.slot n.toNat).state = .stored →
    s.storeFull (s.slot n.toNat).length = false →
    ∃ t, exec (.slotStage k n d err) s = .next t ∧
      match s.sourceData (if (s.slot n.toNat).host then 1 else 0) (s.slot n.toNat).src (s.slot n.toNat).length err with
      | none => t.slot n.toNat = s.slot n.toNat
      | some b => match stageCheck b (s.slot n.toNat).length d with
        | .error _ => t.slot n.toNat = s.slot n.toNat
        | .ok m => t.slot n.toNat = { s.slot n.toNat with state := .staged, image := some m }) ∧
  (∀ (b : Bytes) (len : Nat) (d : ImageDecl) (m : Image), stageCheck b len d = .ok m → sha256 (b.drop 64) = (b.drop 32).take 32) ∧
  (∀ (k : Pkt) (n : B8) (s : State), Allowed s k 0x1203 → OwnSlot s k n.toNat → (s.slot n.toNat).state = .staged → s.slotBusy n.toNat = false →
    exec (.slotUnstage k n) s = .next ((s.modSlot n.toNat (fun x => { x with state := .stored, image := none })).finish k false .ok)) ∧
  (∀ (k : Pkt) (n : B8) (s : State), Allowed s k 0x1203 → OwnSlot s k n.toNat → (s.slot n.toNat).state = .staged → s.slotBusy n.toNat = true →
    exec (.slotUnstage k n) s = .next (s.finish k false .busy))

/-- CONTEXT_LOAD and CONTEXT_UNLOAD (R301-R303, R306, R317, R319). A load takes the lowest free OWNER, is placed, binds its streams and waits to eclose;
a REPLACE of a running context first stops its streams; an unload of a context in COCOON or FAULT releases it. -/
def Obligations.ContextsLoad : Prop :=
  (∀ (k : Pkt) (n rep ow : B8) (dest : B64) (binds : List Bind) (m : Image) (o : Nat) (s : State), Allowed s k 0x1204 →
    Loadable s k n.toNat rep.toNat 16 dest binds m → o < 16 → s.ctx o = none → (∀ j < o, s.ctx j ≠ none) →
    match s.placeImage o n.toNat m rep.toNat ((binds.take m.streams).map (fun b : Bind => b.stream.toNat)) none none none with
    | .error st => exec (.contextLoad k n rep 0 ow dest binds) s = .next (s.finish k false st)
    | .ok p => ∃ t c, exec (.contextLoad k n rep 0 ow dest binds) s = .next t ∧ t.ctx o = some c ∧ c.state = .eclosing ∧ c.fn.val = who k ∧ c.place = p ∧
        c.ecl = some { kind := 0, place := p, pkt := some k, dest := dest, binds := binds.take m.streams } ∧
        ∀ b ∈ binds.take m.streams, (t.strm b.stream.toNat).ctx = some o) ∧
  (∀ (k : Pkt) (n rep ow : B8) (dest : B64) (binds : List Bind) (m : Image) (s : State), Allowed s k 0x1204 →
    Loadable s k n.toNat rep.toNat 16 dest binds m → (∀ j < 16, s.ctx j ≠ none) →
    exec (.contextLoad k n rep 0 ow dest binds) s = .next (s.finish k false .noContext)) ∧
  (∀ (k : Pkt) (n rep o : B8) (dest : B64) (binds : List Bind) (m : Image) (c : Ctx) (s : State), Allowed s k 0x1204 →
    Loadable s k n.toNat rep.toNat o.toNat dest binds m → OwnContext s k o.toNat c → c.state = .running → c.ecl = none → c.replace = none →
    ∃ t c', exec (.contextLoad k n rep 1 o dest binds) s = .next t ∧ t.ctx o.toNat = some c' ∧ c'.place = c.place ∧
      c'.replace = some { slot := n.toNat, replicas := rep.toNat, pkt := k, dest := dest, binds := binds.take m.streams }) ∧
  (∀ (k : Pkt) (o : B8) (c : Ctx) (s : State), Allowed s k 0x1205 → OwnContext s k o.toNat c → (c.state = .cocoon ∨ c.state = .fault) → c.ecl = none →
    c.replace = none →
    ∃ t, exec (.contextUnload k o) s = .next t ∧ t.ctx o.toNat = some { c with state := .releasing, snap := none, unload := some k })

/-- PLACE_VARIANT and UNPLACE_VARIANT (R308): a variant is placed within its context's region, once. LOAD_PLACED, PLACE_VARIANT_PLACED and SLOT_PATCH
(R320, R321): placement by the lists supplied; a patch that names an entry of another context changes nothing. -/
def Obligations.VariantsAndPlacement : Prop :=
  ((∀ (k : Pkt) (o n : B8) (c : Ctx) (m : Image) (s : State), Allowed s k 0x1206 → OwnContext s k o.toNat c → c.state ≠ .fault → OwnSlot s k n.toNat →
    (s.slot n.toNat).state = .staged → (s.slot n.toNat).image = some m → m.variant = true → m.streams = c.place.image.streams → m.repMin ≤ c.place.replicas →
    c.place.replicas ≤ m.repMax → (∀ p ∈ c.variants, p.slot ≠ n.toNat) → c.ecl = none →
    match s.placeImage o.toNat n.toNat m c.place.replicas (s.slotStreams o.toNat m.streams) none (some c.region) none with
    | .error st => exec (.placeVariant k o n) s = .next (s.finish k false st)
    | .ok p => exec (.placeVariant k o n) s = .next ((s.setCtx o.toNat (some { c with variants := c.variants ++ [p] })).finish k false .ok)) ∧
  (∀ (k : Pkt) (o n : B8) (c : Ctx) (p : Placement) (s : State), Allowed s k 0x1207 → OwnContext s k o.toNat c → c.state ≠ .fault → n.toNat < 64 →
    p ∈ c.variants → p.slot = n.toNat → c.ecl = none →
    exec (.unplaceVariant k o n) s = .next ((s.setCtx o.toNat (some { c with
      variants := c.variants.filter (fun q => q.slot != n.toNat) })).finish k false .ok))) ∧
  ((∀ (k : Pkt) (n rep ow : B8) (dest : B64) (binds : List Bind) (lists : Lists) (m : Image) (o : Nat) (s : State), Allowed s k 0x9000 → k.cspi = false →
    Loadable s k n.toNat rep.toNat 16 dest binds m → o < 16 → s.ctx o = none → (∀ j < o, s.ctx j ≠ none) →
    match s.placeImage o n.toNat m rep.toNat ((binds.take m.streams).map (fun b : Bind => b.stream.toNat)) (some lists) none none with
    | .error st => exec (.loadPlaced k n rep 0 ow dest binds (some lists)) s = .next (s.finish k false st)
    | .ok p => ∃ t c, exec (.loadPlaced k n rep 0 ow dest binds (some lists)) s = .next t ∧ t.ctx o = some c ∧ c.state = .eclosing ∧ c.place = p ∧
        c.ecl = some { kind := 0, place := p, pkt := some k, dest := dest, binds := binds.take m.streams }) ∧
  (∀ (k : Pkt) (o n : B8) (lists : Lists) (c : Ctx) (m : Image) (s : State), Allowed s k 0x9001 → k.cspi = false → OwnContext s k o.toNat c → c.state ≠ .fault →
    OwnSlot s k n.toNat → (s.slot n.toNat).state = .staged → (s.slot n.toNat).image = some m → m.variant = true → m.streams = c.place.image.streams →
    m.repMin ≤ c.place.replicas → c.place.replicas ≤ m.repMax → (∀ p ∈ c.variants, p.slot ≠ n.toNat) → c.ecl = none →
    match s.placeImage o.toNat n.toNat m c.place.replicas (s.slotStreams o.toNat m.streams) (some lists) (some c.region) none with
    | .error st => exec (.placeVariantPlaced k o n (some lists)) s = .next (s.finish k false st)
    | .ok p => exec (.placeVariantPlaced k o n (some lists)) s =
        .next ((s.setCtx o.toNat (some { c with variants := c.variants ++ [p] })).finish k false .ok)) ∧
  (∀ (k : Pkt) (o : B8) (e : PatchEntry) (c : Ctx) (s : State), Allowed s k 0x9002 → k.cspi = false → OwnContext s k o.toNat c → c.state ≠ .fault →
    e.site.toNat < 768 → e.output.toNat < 5 → e.slot.toNat < 64 →
    (s.takenEntries o.toNat).contains (e.site.toNat, e.output.toNat, e.slot.toNat) = false →
    exec (.slotPatch k o (some [e])) s = .next ((s.modRouter e.site.toNat (fun r =>
      { r with patch := r.patch ++ [(64 * e.output.toNat + e.slot.toNat, e.entry)] })).finish k false .ok)) ∧
  (∀ (k : Pkt) (o : B8) (es : List PatchEntry) (e : PatchEntry) (c : Ctx) (s : State), Allowed s k 0x9002 → k.cspi = false → OwnContext s k o.toNat c →
    c.state ≠ .fault → e ∈ es → es.length ≤ 4096 → es.all patchOk = true →
    (s.takenEntries o.toNat).contains (e.site.toNat, e.output.toNat, e.slot.toNat) = true →
    exec (.slotPatch k o (some es)) s = .next (s.finish k false .notOwner)))

/-- SCENE_SET, REPLAY_SET, PATTERN_SET, MODEL_LOAD and ENTITY_KEY (R240, R246-R248, R280, R378). A model's trees change only when every check on the
blob passes, and its evaluations start again either way. -/
def Obligations.SceneAndModelCommands : Prop :=
  (∀ (k : Pkt) (st model hold : B8) (conf : B16) (table : List B8) (c cs : Ctx) (d : ModelDecl) (s : State), Allowed s k 0x1208 → BoundStream s k st.toNat c →
    hold.toNat ≤ 7 → isNan16 conf.toNat = false → table.length = 16 → (∀ b ∈ table, b.toNat ≤ 63 ∨ b = 255) → s.sceneCtx st.toNat = some cs →
    cs.place.image.decl.models[model.toNat]? = some d → d.link = 3 →
    exec (.sceneSet k st model hold conf table) s = .next ((s.modStrm st.toNat (fun x => { x with
      scene := { model := model.toNat, hold := hold.toNat, confMin := conf.toNat, table := table }, heldClass := none })).finish k false .ok)) ∧
  (∀ (k : Pkt) (st loop : B8) (frames bytes : B32) (src : B64) (c : Ctx) (s : State), Allowed s k 0x1209 → BoundStream s k st.toNat c → loop.toNat ≤ 1 →
    frames ≠ 0 → (s.strm st.toNat).source = 1 → (s.strm st.toNat).started = false →
    2 * (s.bindDecl st.toNat).width * (s.bindDecl st.toNat).height ≤ bytes.toNat → s.sourceBad k 0 src (frames.toNat * bytes.toNat) = false →
    exec (.replaySet k st 0 loop frames bytes src) s = .next ((s.modStrm st.toNat (fun x => { x with
      replay := some { host := false, loop := loop == 1, frames := frames.toNat, frameBytes := bytes.toNat, src := src.toNat } })).finish k false .ok)) ∧
  (∀ (k : Pkt) (st pattern : B8) (seed : B16) (c : Ctx) (s : State), Allowed s k 0x120A → BoundStream s k st.toNat c → pattern.toNat ≤ 2 →
    (s.strm st.toNat).source = 2 →
    exec (.patternSet k st pattern seed) s = .next ((s.modStrm st.toNat (fun x => { x with pattern := some (pattern.toNat, seed) })).finish k false .ok)) ∧
  (∀ (k : Pkt) (o m pl : B8) (len : B32) (src : B64) (err : Bool) (c : Ctx) (d : ModelDecl) (s : State), Allowed s k 0x1300 → OwnContext s k o.toNat c →
    c.state ≠ .fault → pl.toNat ≤ 1 → c.model m.toNat = some d → s.sourceBad k pl.toNat src len.toNat = false →
    ∃ t c', exec (.modelLoad k o m pl len src err) s = .next t ∧ t.ctx o.toNat = some c' ∧ (Tab.get {} c'.models m.toNat : ModelSt).loading = false ∧
      match s.sourceData pl.toNat src len.toNat err with
      | none => t.units = s.units ∧ c'.model m.toNat = some d
      | some b => match blobCheck b len.toNat d with
        | .error _ => t.units = s.units ∧ c'.model m.toNat = some d
        | .ok new => c'.model m.toNat = some new) ∧
  (∀ (k : Pkt) (o tb : B8) (key : B16) (c : Ctx) (s : State), Allowed s k 0x1301 → OwnContext s k o.toNat c → c.state ≠ .fault →
    tb.toNat < c.place.image.decl.entities.length →
    exec (.entityKey k o tb key) s = .next ((s.setCtx o.toNat (some { c with keys := Tab.set c.keys tb.toNat key })).finish k false .ok))

/-- I3C_RAW, DVFS_SET, FIELD_RESET, UNIT_RESET, ETH_RAW and YALLEK_ALIGN (R22, R60, R121, R393, R400, R414, R429). The reply of I3C_RAW comes with the
command while the transfer waits its turn (the model's reading, log 34). -/
def Obligations.BoardCommands : Prop :=
  (∀ (k : Pkt) (h ad wlen rlen : B8) (data : Bytes) (reply : Option Bytes) (s : State), Allowed s k 0x9003 → OwnHead s k h.toNat → ad.toNat ≤ 127 →
    wlen.toNat ≤ 64 → rlen.toNat ≤ 12 → ((s.head h.toNat).usable = true ∨ (s.head h.toNat).state = .fault) →
    exec (.i3cRaw k h ad wlen rlen data reply) s = .next ((s.modHead h.toNat (fun x =>
      x.i3cPut { target := ad.toNat, data := data.take wlen.toNat, rlen := rlen.toNat, raw := true })).finish k false
        (if reply.isSome then .ok else .i3cNack)
        (match reply with
          | some b => [fieldLe (b.take rlen.toNat) 0 4, fieldLe (b.take rlen.toNat) 4 4, fieldLe (b.take rlen.toNat) 8 4]
          | none => []))) ∧
  (∀ (k : Pkt) (f p : B8) (s : State), Allowed s k 0x9004 → f.toNat < 4 → p.toNat ≤ 6 →
    ∃ t, exec (.dvfsSet k f p) s = .next t ∧ (t.field f.toNat).requested = p.toNat ∧ t.effective f.toNat ≤ p.toNat ∧
      ((s.field f.toNat).target = none → (s.field f.toNat).down = false → (s.field f.toNat).point ≠ t.effective f.toNat →
        (t.field f.toNat).target = some (t.effective f.toNat)) ∧ ∀ j < 4, j ≠ f.toNat → (t.field j).requested = (s.field j).requested) ∧
  (∀ (k : Pkt) (f : B8) (s : State), Allowed s k 0x9005 → f.toNat < 4 →
    exec (.fieldReset k f) s = .next ((s.fieldReset f.toNat 0 0).finish k false .ok) ∧
    (s.liveCtxs = [] → ∀ site, fieldOfSite site = f.toNat → (s.fieldReset f.toNat 0 0).unit site = (s.unit site).reset)) ∧
  (∀ (k : Pkt) (site : B16) (s : State), Allowed s k 0x9006 → site.toNat < 768 → s.works site.toNat = true →
    exec (.unitReset k site) s = .next ((s.unitReset site.toNat).finish k false .ok) ∧
    ((s.unit site.toNat).inCtx = false → (s.unitReset site.toNat).unit site.toNat = (s.unit site.toNat).reset)) ∧
  (∀ (k : Pkt) (p : B8) (len : B16) (src : B64) (b : Bytes) (s : State), Allowed s k 0x9007 → k.cspi = false → p.toNat < 2 → p.toNat < s.part.variant.ports →
    60 ≤ len.toNat → len.toNat ≤ 1514 → s.ethLive p.toNat = true → (s.eth p.toNat).up = true → s.hostTaken src len.toNat = some b →
    exec (.ethRaw k p len src) s = .next (((s.hostUsed src).ethSend p.toNat b).finish k false .ok)) ∧
  (∀ (k : Pkt) (p : B8) (record : Bytes) (route : Nat) (c : CutDecl) (s : State), Allowed s k 0x9008 → p.toNat < 4 → p.toNat < s.part.variant.yalleks →
    record.length = 32 → fieldLe record 0 1 = 0 → fieldLe record 1 1 = route → (∀ x ∈ record.drop 4, x = 0) → (s.yport p.toNat).up = true →
    (s.portLink p.toNat).isSome = true → s.cut p.toNat route = some c → c.sync = true → (s.yport p.toNat).alignPkt = none →
    ∃ t, exec (.yallekAlign k p record) s = .next t ∧ (t.yport p.toNat).alignPkt = some (route, k) ∧
      Tab.get [] (t.yport p.toNat).probes route = [] ∧ Tab.get none (t.yport p.toNat).align route = none) ∧
  (∀ (k : Pkt) (p : B8) (record : Bytes) (route : Nat) (c : CutDecl) (s : State), Allowed s k 0x9008 → p.toNat < 4 → p.toNat < s.part.variant.yalleks →
    record.length = 32 → fieldLe record 0 1 = 1 → fieldLe record 1 1 = route → (∀ x ∈ record.drop 4, x = 0) → (s.yport p.toNat).up = true →
    (s.portLink p.toNat).isSome = true → s.cut p.toNat route = some c → c.sync = true → (s.yport p.toNat).alignPkt = none →
    ∃ t, exec (.yallekAlign k p record) s = .next t ∧ (t.yport p.toNat).alignPkt = none ∧
      Tab.get none (t.yport p.toNat).align route = some (BitVec.ofNat 16 (fieldLe record 2 2)))

/-- R4 and Table 00-3: the working units that each grade guarantees; the part after reset has them, and no step takes one away. -/
def Obligations.HarvestGradeHolds : Prop :=
  ([UKind.m, .v, .s, .t, .p].map (guaranteed false) = [400, 96, 192, 32, 20] ∧ [UKind.m, .v, .s, .t, .p].map (guaranteed true) = [352, 84, 168, 28, 20]) ∧
  (∀ s : State, s.gradeOk = true ↔ ∀ k : UKind, guaranteed s.part.gradeB k ≤ s.working k) ∧ State.reset.gradeOk = true ∧
  ∀ s t : State, s.gradeOk = true → step s = .next t → t.gradeOk = true

/-- The hazard monitor (R286, R288, R289, R348). In PRODUCTION mode it does nothing. In HAZARD mode a detection at a unit of a running context counts
once more in HAZ_COUNT of its kind, sets the flag of STATUS, marks the frame, and under LOG does nothing else to the unit or its context; the first
of its kind in a counting window, and no later one, is logged. -/
def Obligations.HazardsAreCounted : Prop :=
  (∀ (site kind st f8 line : Nat) (pc : Option Nat) (s : State), s.modes.hazard = false → s.hazard site kind st f8 line pc = s) ∧
  (∀ (site kind st f8 line : Nat) (pc : Option Nat) (s : State), s.modes.hazard = true → s.modes.hazFault = false → (s.unit site).inCtx = true →
    s.running (s.unit site).owner = true →
    ((s.hazard site kind st f8 line pc).unit site = { s.unit site with
      haz := Tab.set (s.unit site).haz kind (BitVec.ofNat 32 (min ((Tab.get 0 (s.unit site).haz kind).toNat + 1) 0xFFFFFFFF))
      hazLogged := if kind ∈ (s.unit site).hazLogged then (s.unit site).hazLogged else (s.unit site).hazLogged ++ [kind] }) ∧
    (s.hazard site kind st f8 line pc).greg.hazard = true ∧ (s.hazard site kind st f8 line pc).ctxs = s.ctxs ∧
    (kind ∈ (s.unit site).hazLogged → (s.hazard site kind st f8 line pc).seqr = s.seqr) ∧
    (kind ∉ (s.unit site).hazLogged → (s.hazard site kind st f8 line pc).seqr.posts = s.seqr.posts + 1))

end Statements
end

