-- ==== Sys2Proof/Laws/Keeps00.lean ====
section
/-! SUPPORT. Canonical memory under writes, the relation `Keeps`, and what the operations from foldl to State.modEp may write: `Keeps wz s t` says that only the
parts of `wz` differ and that memories stay canonical. -/
set_option linter.unusedTactic false
set_option linter.unreachableTactic false
set_option linter.unusedVariables false
namespace Sys2Proof.Machine
variable {wz : Nat} {s₀ : State}
/-- Every component is among those of the second set, as sets of bits. -/
def Within (a b : Nat) : Prop := a &&& b = a
theorem Within.sub {a b c : Nat} (h : Within b c) (hab : a &&& b = a) : Within a c := by
  unfold Within at *
  rw [← hab, Nat.and_assoc, h]
theorem Within.bit {a b : Nat} (h : Within a b) (i : Nat) (hi : b.testBit i = false) : a.testBit i = false := by
  unfold Within at h
  rw [← h, Nat.testBit_and, hi, Bool.and_false]
theorem zone_in {p : Prop} (h : true = false) : p := nomatch h
/-- `t` differs from `s` in the parts of `wz` at most (bit i is part i of `Zone`), and each memory keeps its canonical form. -/
def Keeps (wz : Nat) (s t : State) : Prop :=
  (∀ z : Zone, wz.testBit z.ctorIdx = false → z.same s t) ∧ (Memory.wf s.hbm = true → Memory.wf t.hbm = true) ∧
    (Memory.wf s.hostMem = true → Memory.wf t.hostMem = true)
theorem Keeps.refl (wz : Nat) (s : State) : Keeps wz s s := ⟨fun z _ => by cases z <;> rfl, id, id⟩
theorem zone_trans (z : Zone) {s t u : State} (h : z.same s t) (k : z.same t u) : z.same s u := by
  cases z <;> exact Eq.trans h k
theorem Keeps.mk' {pending freeCount kcycles part boot modes supply dtb seqr greg cspi cap fields lostClocks heads store streams units routers gates groups origins edges tails arbs queues fns locks pools slots ctxs epochs hbmStacks hbm hostMem hostIn yports eths senders eps vfMap vfEnable} {V : Nat} {t : State} (hp : t.pending = pending) (hV : Within V wz)
  (hs : (V.testBit 1 = false → t.freeCount = freeCount) ∧ (V.testBit 2 = false → t.kcycles = kcycles) ∧ (V.testBit 3 = false → t.part = part) ∧ (V.testBit 4 = false → t.boot = boot) ∧ (V.testBit 5 = false → t.modes = modes) ∧ (V.testBit 6 = false → t.supply = supply) ∧ (V.testBit 7 = false → t.dtb = dtb) ∧ (V.testBit 8 = false → t.seqr = seqr) ∧ (V.testBit 9 = false → t.greg = greg) ∧ (V.testBit 10 = false → t.cspi = cspi) ∧ (V.testBit 11 = false → t.cap = cap) ∧ (V.testBit 12 = false → t.fields = fields) ∧ (V.testBit 13 = false → t.lostClocks = lostClocks) ∧ (V.testBit 14 = false → t.heads = heads) ∧ (V.testBit 15 = false → t.store = store) ∧ (V.testBit 16 = false → t.streams = streams) ∧ (V.testBit 17 = false → t.units = units) ∧ (V.testBit 18 = false → t.routers = routers) ∧ (V.testBit 19 = false → t.gates = gates) ∧ (V.testBit 20 = false → t.groups = groups) ∧ (V.testBit 21 = false → t.origins = origins) ∧ (V.testBit 22 = false → t.edges = edges) ∧ (V.testBit 23 = false → t.tails = tails) ∧ (V.testBit 24 = false → t.arbs = arbs) ∧ (V.testBit 25 = false → t.queues = queues) ∧ (V.testBit 26 = false → t.fns = fns) ∧ (V.testBit 27 = false → t.locks = locks) ∧ (V.testBit 28 = false → t.pools = pools) ∧ (V.testBit 29 = false → t.slots = slots) ∧ (V.testBit 30 = false → t.ctxs = ctxs) ∧ (V.testBit 31 = false → t.epochs = epochs) ∧ (V.testBit 32 = false → t.hbmStacks = hbmStacks) ∧ (V.testBit 33 = false → t.hbm = hbm) ∧ (V.testBit 34 = false → t.hostMem = hostMem) ∧ (V.testBit 35 = false → t.hostIn = hostIn) ∧ (V.testBit 36 = false → t.yports = yports) ∧ (V.testBit 37 = false → t.eths = eths) ∧ (V.testBit 38 = false → t.senders = senders) ∧ (V.testBit 39 = false → t.eps = eps) ∧ (V.testBit 40 = false → t.vfMap = vfMap) ∧ (V.testBit 41 = false → t.vfEnable = vfEnable))
  (hb : Memory.wf t.hbm = true → Memory.wf hbm = true) (hh : Memory.wf t.hostMem = true → Memory.wf hostMem = true) (hm : Keeps wz s₀ t) :
  Keeps wz s₀ (State.mk pending freeCount kcycles part boot modes supply dtb seqr greg cspi cap fields lostClocks heads store streams units routers gates groups origins edges tails arbs queues fns locks pools slots ctxs epochs hbmStacks hbm hostMem hostIn yports eths senders eps vfMap vfEnable) := by
  obtain ⟨h1, h2, h3, h4, h5, h6, h7, h8, h9, h10, h11, h12, h13, h14, h15, h16, h17, h18, h19, h20, h21, h22, h23, h24, h25, h26, h27, h28, h29, h30, h31, h32, h33, h34, h35, h36, h37, h38, h39, h40, h41⟩ := hs
  refine ⟨fun z hz => zone_trans z (hm.1 z hz) ?_, fun h => hb (hm.2.1 h), fun h => hh (hm.2.2 h)⟩
  have hv := hV.bit _ hz
  cases z
  · exact hp
  · exact h1 hv
  · exact h2 hv
  · exact h3 hv
  · exact h4 hv
  · exact h5 hv
  · exact h6 hv
  · exact h7 hv
  · exact h8 hv
  · exact h9 hv
  · exact h10 hv
  · exact h11 hv
  · exact h12 hv
  · exact h13 hv
  · exact h14 hv
  · exact h15 hv
  · exact h16 hv
  · exact h17 hv
  · exact h18 hv
  · exact h19 hv
  · exact h20 hv
  · exact h21 hv
  · exact h22 hv
  · exact h23 hv
  · exact h24 hv
  · exact h25 hv
  · exact h26 hv
  · exact h27 hv
  · exact h28 hv
  · exact h29 hv
  · exact h30 hv
  · exact h31 hv
  · exact h32 hv
  · exact h33 hv
  · exact h34 hv
  · exact h35 hv
  · exact h36 hv
  · exact h37 hv
  · exact h38 hv
  · exact h39 hv
  · exact h40 hv
  · exact h41 hv
theorem mem_cut {p q : Prop} (h : p) (f : p → q) : q := f h
theorem foldl_keeps {α : Type} (l : List α) (f : State → α → State) (s : State) (hf : ∀ s a, Keeps wz s₀ s → Keeps wz s₀ (f s a)) (hm : Keeps wz s₀ s) :
    Keeps wz s₀ (l.foldl f s) := by
  induction l generalizing s with
  | nil => exact hm
  | cons a t ih => exact ih _ (hf _ _ hm)
theorem wfFrom_mono (m : List Host.Cell) (x y : Nat) (hxy : x ≤ y) (h : Memory.wfFrom y m = true) : Memory.wfFrom x m = true := by
  cases m with
  | nil => rfl
  | cons e t =>
    obtain ⟨k, d⟩ := e
    simp only [Memory.wfFrom, Bool.and_eq_true, decide_eq_true_eq] at h ⊢
    exact ⟨⟨by omega, h.1.2⟩, h.2⟩
theorem wfFrom_cons (lo k : Nat) (d : B8) (t : List Host.Cell) :
    Memory.wfFrom lo ((k, d) :: t) = true ↔ (lo ≤ k ∧ d ≠ 0) ∧ Memory.wfFrom (k + 1) t = true := by
  simp only [Memory.wfFrom, Bool.and_eq_true, decide_eq_true_eq, bne_iff_ne, ne_eq]
theorem write_wfFrom (m : List Host.Cell) (lo a : Nat) (b : B8) (hl : lo ≤ a) (hm : Memory.wfFrom lo m = true) :
    Memory.wfFrom lo (Memory.write m a b) = true := by
  induction m generalizing lo with
  | nil =>
    unfold Memory.write
    split
    · rfl
    · rename_i hb; exact (wfFrom_cons _ _ _ _).2 ⟨⟨hl, hb⟩, rfl⟩
  | cons e t ih =>
    obtain ⟨j, c⟩ := e
    have hm' := (wfFrom_cons _ _ _ _).1 hm
    obtain ⟨⟨h1, h2⟩, h3⟩ := hm'
    unfold Memory.write
    split
    · rename_i hj
      split
      · exact wfFrom_mono _ _ _ (by omega) h3
      · rename_i hb; exact (wfFrom_cons _ _ _ _).2 ⟨⟨hl, hb⟩, by rw [← hj]; exact h3⟩
    · split
      · rename_i hlt
        split
        · exact hm
        · rename_i hb
          exact (wfFrom_cons _ _ _ _).2 ⟨⟨hl, hb⟩, (wfFrom_cons _ _ _ _).2 ⟨⟨by omega, h2⟩, h3⟩⟩
      · exact (wfFrom_cons _ _ _ _).2 ⟨⟨h1, h2⟩, ih _ (by omega) h3⟩
theorem writeBytes_wf (m : List Host.Cell) (a : Nat) (bs : Bytes) (hm : Memory.wf m = true) :
    Memory.wf (Memory.writeBytes m a bs) = true := by
  induction bs generalizing m a with
  | nil => exact hm
  | cons b t ih => exact ih _ _ (write_wfFrom _ _ _ _ (Nat.zero_le _) hm)
theorem keeps_of_pair {α : Type} {p : α × State} {a : α} {t : State} (h : p = (a, t)) (k : Keeps wz s₀ p.2) : Keeps wz s₀ t := by
  rw [h] at k
  exact k
/-- What a partial operation answers, if anything. -/
structure OptKeeps (wz : Nat) (s₀ : State) (o : Option State) : Prop where
  out : ∀ z, o = some z → Keeps wz s₀ z
theorem keeps_of_some {o : Option State} {t : State} (h : o = some t) (k : OptKeeps wz s₀ o) : Keeps wz s₀ t := k.out t h
theorem keeps_getD {o : Option State} {s : State} (k : OptKeeps wz s₀ o) (hs : Keeps wz s₀ s) : Keeps wz s₀ (o.getD s) := by
  cases o with
  | none => exact hs
  | some t => exact k.out t rfl
theorem opt_none : OptKeeps wz s₀ none := ⟨fun _ h => nomatch h⟩
theorem opt_some {s : State} (h : Keeps wz s₀ s) : OptKeeps wz s₀ (some s) := ⟨fun _ k => by injection k with k; subst k; exact h⟩
theorem map_keeps {α : Type} (o : Option α) (f : α → State) (hf : ∀ x, Keeps wz s₀ (f x)) : OptKeeps wz s₀ (o.map f) := by
  refine ⟨fun z h => ?_⟩
  obtain ⟨x, _, rfl⟩ := Option.map_eq_some_iff.1 h
  exact hf x
theorem State.setField_keeps (hW : Within 4096 wz) (s : State) (i : Nat) (v : FieldClk) (hm : Keeps wz s₀ s) : Keeps wz s₀ (State.setField s i v) := by
  unfold State.setField
  repeat' first
    | (with_reducible refine Within.sub hW ?_; decide)
    | with_reducible assumption
    | (try dsimp -zeta only
       with_reducible refine Keeps.mk' (V := 4096) rfl (hW.sub (by decide)) ?_ ?_ id ?_
       · (repeat' apply And.intro) <;> first | exact fun _ => rfl | exact fun h => zone_in h
       · first | exact id | exact fun _ => rfl)

theorem State.modField_keeps (hW : Within 4096 wz) (s : State) (i : Nat) (f : FieldClk → FieldClk) (hm : Keeps wz s₀ s) : Keeps wz s₀ (State.modField s i f) := by
  unfold State.modField
  repeat' first
    | (with_reducible refine Within.sub hW ?_; decide)
    | with_reducible assumption
    | with_reducible apply State.setField_keeps

theorem State.setHead_keeps (hW : Within 16384 wz) (s : State) (i : Nat) (v : Head) (hm : Keeps wz s₀ s) : Keeps wz s₀ (State.setHead s i v) := by
  unfold State.setHead
  repeat' first
    | (with_reducible refine Within.sub hW ?_; decide)
    | with_reducible assumption
    | (try dsimp -zeta only
       with_reducible refine Keeps.mk' (V := 16384) rfl (hW.sub (by decide)) ?_ ?_ id ?_
       · (repeat' apply And.intro) <;> first | exact fun _ => rfl | exact fun h => zone_in h
       · first | exact id | exact fun _ => rfl)

theorem State.modHead_keeps (hW : Within 16384 wz) (s : State) (i : Nat) (f : Head → Head) (hm : Keeps wz s₀ s) : Keeps wz s₀ (State.modHead s i f) := by
  unfold State.modHead
  repeat' first
    | (with_reducible refine Within.sub hW ?_; decide)
    | with_reducible assumption
    | with_reducible apply State.setHead_keeps

theorem State.setStrm_keeps (hW : Within 65536 wz) (s : State) (i : Nat) (v : Strm) (hm : Keeps wz s₀ s) : Keeps wz s₀ (State.setStrm s i v) := by
  unfold State.setStrm
  repeat' first
    | (with_reducible refine Within.sub hW ?_; decide)
    | with_reducible assumption
    | (try dsimp -zeta only
       with_reducible refine Keeps.mk' (V := 65536) rfl (hW.sub (by decide)) ?_ ?_ id ?_
       · (repeat' apply And.intro) <;> first | exact fun _ => rfl | exact fun h => zone_in h
       · first | exact id | exact fun _ => rfl)

theorem State.modStrm_keeps (hW : Within 65536 wz) (s : State) (i : Nat) (f : Strm → Strm) (hm : Keeps wz s₀ s) : Keeps wz s₀ (State.modStrm s i f) := by
  unfold State.modStrm
  repeat' first
    | (with_reducible refine Within.sub hW ?_; decide)
    | with_reducible assumption
    | with_reducible apply State.setStrm_keeps

theorem State.setUnit_keeps (hW : Within 131072 wz) (s : State) (i : Nat) (v : Unit) (hm : Keeps wz s₀ s) : Keeps wz s₀ (State.setUnit s i v) := by
  unfold State.setUnit
  repeat' first
    | (with_reducible refine Within.sub hW ?_; decide)
    | with_reducible assumption
    | (try dsimp -zeta only
       with_reducible refine Keeps.mk' (V := 131072) rfl (hW.sub (by decide)) ?_ ?_ id ?_
       · (repeat' apply And.intro) <;> first | exact fun _ => rfl | exact fun h => zone_in h
       · first | exact id | exact fun _ => rfl)

theorem State.modUnit_keeps (hW : Within 131072 wz) (s : State) (i : Nat) (f : Unit → Unit) (hm : Keeps wz s₀ s) : Keeps wz s₀ (State.modUnit s i f) := by
  unfold State.modUnit
  repeat' first
    | (with_reducible refine Within.sub hW ?_; decide)
    | with_reducible assumption
    | with_reducible apply State.setUnit_keeps

theorem State.setRouter_keeps (hW : Within 262144 wz) (s : State) (i : Nat) (v : Router) (hm : Keeps wz s₀ s) : Keeps wz s₀ (State.setRouter s i v) := by
  unfold State.setRouter
  repeat' first
    | (with_reducible refine Within.sub hW ?_; decide)
    | with_reducible assumption
    | (try dsimp -zeta only
       with_reducible refine Keeps.mk' (V := 262144) rfl (hW.sub (by decide)) ?_ ?_ id ?_
       · (repeat' apply And.intro) <;> first | exact fun _ => rfl | exact fun h => zone_in h
       · first | exact id | exact fun _ => rfl)

theorem State.modRouter_keeps (hW : Within 262144 wz) (s : State) (i : Nat) (f : Router → Router) (hm : Keeps wz s₀ s) : Keeps wz s₀ (State.modRouter s i f) := by
  unfold State.modRouter
  repeat' first
    | (with_reducible refine Within.sub hW ?_; decide)
    | with_reducible assumption
    | with_reducible apply State.setRouter_keeps

theorem State.setGate_keeps (hW : Within 524288 wz) (s : State) (i : Nat) (v : Gate) (hm : Keeps wz s₀ s) : Keeps wz s₀ (State.setGate s i v) := by
  unfold State.setGate
  repeat' first
    | (with_reducible refine Within.sub hW ?_; decide)
    | with_reducible assumption
    | (try dsimp -zeta only
       with_reducible refine Keeps.mk' (V := 524288) rfl (hW.sub (by decide)) ?_ ?_ id ?_
       · (repeat' apply And.intro) <;> first | exact fun _ => rfl | exact fun h => zone_in h
       · first | exact id | exact fun _ => rfl)

theorem State.modGate_keeps (hW : Within 524288 wz) (s : State) (i : Nat) (f : Gate → Gate) (hm : Keeps wz s₀ s) : Keeps wz s₀ (State.modGate s i f) := by
  unfold State.modGate
  repeat' first
    | (with_reducible refine Within.sub hW ?_; decide)
    | with_reducible assumption
    | with_reducible apply State.setGate_keeps

theorem State.setGroup_keeps (hW : Within 1048576 wz) (s : State) (i : Nat) (v : Group) (hm : Keeps wz s₀ s) : Keeps wz s₀ (State.setGroup s i v) := by
  unfold State.setGroup
  repeat' first
    | (with_reducible refine Within.sub hW ?_; decide)
    | with_reducible assumption
    | (try dsimp -zeta only
       with_reducible refine Keeps.mk' (V := 1048576) rfl (hW.sub (by decide)) ?_ ?_ id ?_
       · (repeat' apply And.intro) <;> first | exact fun _ => rfl | exact fun h => zone_in h
       · first | exact id | exact fun _ => rfl)

theorem State.modGroup_keeps (hW : Within 1048576 wz) (s : State) (i : Nat) (f : Group → Group) (hm : Keeps wz s₀ s) : Keeps wz s₀ (State.modGroup s i f) := by
  unfold State.modGroup
  repeat' first
    | (with_reducible refine Within.sub hW ?_; decide)
    | with_reducible assumption
    | with_reducible apply State.setGroup_keeps

theorem State.setOrigin_keeps (hW : Within 2097152 wz) (s : State) (i : Nat) (v : Origin) (hm : Keeps wz s₀ s) : Keeps wz s₀ (State.setOrigin s i v) := by
  unfold State.setOrigin
  repeat' first
    | (with_reducible refine Within.sub hW ?_; decide)
    | with_reducible assumption
    | (try dsimp -zeta only
       with_reducible refine Keeps.mk' (V := 2097152) rfl (hW.sub (by decide)) ?_ ?_ id ?_
       · (repeat' apply And.intro) <;> first | exact fun _ => rfl | exact fun h => zone_in h
       · first | exact id | exact fun _ => rfl)

theorem State.modOrigin_keeps (hW : Within 2097152 wz) (s : State) (i : Nat) (f : Origin → Origin) (hm : Keeps wz s₀ s) : Keeps wz s₀ (State.modOrigin s i f) := by
  unfold State.modOrigin
  repeat' first
    | (with_reducible refine Within.sub hW ?_; decide)
    | with_reducible assumption
    | with_reducible apply State.setOrigin_keeps

theorem State.setEdgeEng_keeps (hW : Within 4194304 wz) (s : State) (i : Nat) (v : Engine) (hm : Keeps wz s₀ s) : Keeps wz s₀ (State.setEdgeEng s i v) := by
  unfold State.setEdgeEng
  repeat' first
    | (with_reducible refine Within.sub hW ?_; decide)
    | with_reducible assumption
    | (try dsimp -zeta only
       with_reducible refine Keeps.mk' (V := 4194304) rfl (hW.sub (by decide)) ?_ ?_ id ?_
       · (repeat' apply And.intro) <;> first | exact fun _ => rfl | exact fun h => zone_in h
       · first | exact id | exact fun _ => rfl)

theorem State.modEdgeEng_keeps (hW : Within 4194304 wz) (s : State) (i : Nat) (f : Engine → Engine) (hm : Keeps wz s₀ s) : Keeps wz s₀ (State.modEdgeEng s i f) := by
  unfold State.modEdgeEng
  repeat' first
    | (with_reducible refine Within.sub hW ?_; decide)
    | with_reducible assumption
    | with_reducible apply State.setEdgeEng_keeps

theorem State.setTailEng_keeps (hW : Within 8388608 wz) (s : State) (i : Nat) (v : Engine) (hm : Keeps wz s₀ s) : Keeps wz s₀ (State.setTailEng s i v) := by
  unfold State.setTailEng
  repeat' first
    | (with_reducible refine Within.sub hW ?_; decide)
    | with_reducible assumption
    | (try dsimp -zeta only
       with_reducible refine Keeps.mk' (V := 8388608) rfl (hW.sub (by decide)) ?_ ?_ id ?_
       · (repeat' apply And.intro) <;> first | exact fun _ => rfl | exact fun h => zone_in h
       · first | exact id | exact fun _ => rfl)

theorem State.modTailEng_keeps (hW : Within 8388608 wz) (s : State) (i : Nat) (f : Engine → Engine) (hm : Keeps wz s₀ s) : Keeps wz s₀ (State.modTailEng s i f) := by
  unfold State.modTailEng
  repeat' first
    | (with_reducible refine Within.sub hW ?_; decide)
    | with_reducible assumption
    | with_reducible apply State.setTailEng_keeps

theorem State.setArb_keeps (hW : Within 16777216 wz) (s : State) (i : Nat) (v : Arbiter) (hm : Keeps wz s₀ s) : Keeps wz s₀ (State.setArb s i v) := by
  unfold State.setArb
  repeat' first
    | (with_reducible refine Within.sub hW ?_; decide)
    | with_reducible assumption
    | (try dsimp -zeta only
       with_reducible refine Keeps.mk' (V := 16777216) rfl (hW.sub (by decide)) ?_ ?_ id ?_
       · (repeat' apply And.intro) <;> first | exact fun _ => rfl | exact fun h => zone_in h
       · first | exact id | exact fun _ => rfl)

theorem State.modArb_keeps (hW : Within 16777216 wz) (s : State) (i : Nat) (f : Arbiter → Arbiter) (hm : Keeps wz s₀ s) : Keeps wz s₀ (State.modArb s i f) := by
  unfold State.modArb
  repeat' first
    | (with_reducible refine Within.sub hW ?_; decide)
    | with_reducible assumption
    | with_reducible apply State.setArb_keeps

theorem State.setQueue_keeps (hW : Within 33554432 wz) (s : State) (i : Nat) (v : FQueue) (hm : Keeps wz s₀ s) : Keeps wz s₀ (State.setQueue s i v) := by
  unfold State.setQueue
  repeat' first
    | (with_reducible refine Within.sub hW ?_; decide)
    | with_reducible assumption
    | (try dsimp -zeta only
       with_reducible refine Keeps.mk' (V := 33554432) rfl (hW.sub (by decide)) ?_ ?_ id ?_
       · (repeat' apply And.intro) <;> first | exact fun _ => rfl | exact fun h => zone_in h
       · first | exact id | exact fun _ => rfl)

theorem State.modQueue_keeps (hW : Within 33554432 wz) (s : State) (i : Nat) (f : FQueue → FQueue) (hm : Keeps wz s₀ s) : Keeps wz s₀ (State.modQueue s i f) := by
  unfold State.modQueue
  repeat' first
    | (with_reducible refine Within.sub hW ?_; decide)
    | with_reducible assumption
    | with_reducible apply State.setQueue_keeps

theorem State.setFn_keeps (hW : Within 67108864 wz) (s : State) (i : Nat) (v : Fn) (hm : Keeps wz s₀ s) : Keeps wz s₀ (State.setFn s i v) := by
  unfold State.setFn
  repeat' first
    | (with_reducible refine Within.sub hW ?_; decide)
    | with_reducible assumption
    | (try dsimp -zeta only
       with_reducible refine Keeps.mk' (V := 67108864) rfl (hW.sub (by decide)) ?_ ?_ id ?_
       · (repeat' apply And.intro) <;> first | exact fun _ => rfl | exact fun h => zone_in h
       · first | exact id | exact fun _ => rfl)

theorem State.modFn_keeps (hW : Within 67108864 wz) (s : State) (i : Nat) (f : Fn → Fn) (hm : Keeps wz s₀ s) : Keeps wz s₀ (State.modFn s i f) := by
  unfold State.modFn
  repeat' first
    | (with_reducible refine Within.sub hW ?_; decide)
    | with_reducible assumption
    | with_reducible apply State.setFn_keeps

theorem State.setLock_keeps (hW : Within 134217728 wz) (s : State) (i : Nat) (v : Lock) (hm : Keeps wz s₀ s) : Keeps wz s₀ (State.setLock s i v) := by
  unfold State.setLock
  repeat' first
    | (with_reducible refine Within.sub hW ?_; decide)
    | with_reducible assumption
    | (try dsimp -zeta only
       with_reducible refine Keeps.mk' (V := 134217728) rfl (hW.sub (by decide)) ?_ ?_ id ?_
       · (repeat' apply And.intro) <;> first | exact fun _ => rfl | exact fun h => zone_in h
       · first | exact id | exact fun _ => rfl)

theorem State.modLock_keeps (hW : Within 134217728 wz) (s : State) (i : Nat) (f : Lock → Lock) (hm : Keeps wz s₀ s) : Keeps wz s₀ (State.modLock s i f) := by
  unfold State.modLock
  repeat' first
    | (with_reducible refine Within.sub hW ?_; decide)
    | with_reducible assumption
    | with_reducible apply State.setLock_keeps

theorem State.setPool_keeps (hW : Within 268435456 wz) (s : State) (i : Nat) (v : Pool) (hm : Keeps wz s₀ s) : Keeps wz s₀ (State.setPool s i v) := by
  unfold State.setPool
  repeat' first
    | (with_reducible refine Within.sub hW ?_; decide)
    | with_reducible assumption
    | (try dsimp -zeta only
       with_reducible refine Keeps.mk' (V := 268435456) rfl (hW.sub (by decide)) ?_ ?_ id ?_
       · (repeat' apply And.intro) <;> first | exact fun _ => rfl | exact fun h => zone_in h
       · first | exact id | exact fun _ => rfl)

theorem State.modPool_keeps (hW : Within 268435456 wz) (s : State) (i : Nat) (f : Pool → Pool) (hm : Keeps wz s₀ s) : Keeps wz s₀ (State.modPool s i f) := by
  unfold State.modPool
  repeat' first
    | (with_reducible refine Within.sub hW ?_; decide)
    | with_reducible assumption
    | with_reducible apply State.setPool_keeps

theorem State.setSlot_keeps (hW : Within 536870912 wz) (s : State) (i : Nat) (v : Slot) (hm : Keeps wz s₀ s) : Keeps wz s₀ (State.setSlot s i v) := by
  unfold State.setSlot
  repeat' first
    | (with_reducible refine Within.sub hW ?_; decide)
    | with_reducible assumption
    | (try dsimp -zeta only
       with_reducible refine Keeps.mk' (V := 536870912) rfl (hW.sub (by decide)) ?_ ?_ id ?_
       · (repeat' apply And.intro) <;> first | exact fun _ => rfl | exact fun h => zone_in h
       · first | exact id | exact fun _ => rfl)

theorem State.modSlot_keeps (hW : Within 536870912 wz) (s : State) (i : Nat) (f : Slot → Slot) (hm : Keeps wz s₀ s) : Keeps wz s₀ (State.modSlot s i f) := by
  unfold State.modSlot
  repeat' first
    | (with_reducible refine Within.sub hW ?_; decide)
    | with_reducible assumption
    | with_reducible apply State.setSlot_keeps

theorem State.setCtx_keeps (hW : Within 1073741824 wz) (s : State) (i : Nat) (v : Option Ctx) (hm : Keeps wz s₀ s) : Keeps wz s₀ (State.setCtx s i v) := by
  unfold State.setCtx
  repeat' first
    | (with_reducible refine Within.sub hW ?_; decide)
    | with_reducible assumption
    | (try dsimp -zeta only
       with_reducible refine Keeps.mk' (V := 1073741824) rfl (hW.sub (by decide)) ?_ ?_ id ?_
       · (repeat' apply And.intro) <;> first | exact fun _ => rfl | exact fun h => zone_in h
       · first | exact id | exact fun _ => rfl)

theorem State.modCtx_keeps (hW : Within 1073741824 wz) (s : State) (i : Nat) (f : Option Ctx → Option Ctx) (hm : Keeps wz s₀ s) : Keeps wz s₀ (State.modCtx s i f) := by
  unfold State.modCtx
  repeat' first
    | (with_reducible refine Within.sub hW ?_; decide)
    | with_reducible assumption
    | with_reducible apply State.setCtx_keeps

theorem State.setEpoch_keeps (hW : Within 2147483648 wz) (s : State) (i : Nat) (v : BitVec 2) (hm : Keeps wz s₀ s) : Keeps wz s₀ (State.setEpoch s i v) := by
  unfold State.setEpoch
  repeat' first
    | (with_reducible refine Within.sub hW ?_; decide)
    | with_reducible assumption
    | (try dsimp -zeta only
       with_reducible refine Keeps.mk' (V := 2147483648) rfl (hW.sub (by decide)) ?_ ?_ id ?_
       · (repeat' apply And.intro) <;> first | exact fun _ => rfl | exact fun h => zone_in h
       · first | exact id | exact fun _ => rfl)

theorem State.modEpoch_keeps (hW : Within 2147483648 wz) (s : State) (i : Nat) (f : BitVec 2 → BitVec 2) (hm : Keeps wz s₀ s) : Keeps wz s₀ (State.modEpoch s i f) := by
  unfold State.modEpoch
  repeat' first
    | (with_reducible refine Within.sub hW ?_; decide)
    | with_reducible assumption
    | with_reducible apply State.setEpoch_keeps

theorem State.setStackOf_keeps (hW : Within 4294967296 wz) (s : State) (i : Nat) (v : Stack) (hm : Keeps wz s₀ s) : Keeps wz s₀ (State.setStackOf s i v) := by
  unfold State.setStackOf
  repeat' first
    | (with_reducible refine Within.sub hW ?_; decide)
    | with_reducible assumption
    | (try dsimp -zeta only
       with_reducible refine Keeps.mk' (V := 4294967296) rfl (hW.sub (by decide)) ?_ ?_ id ?_
       · (repeat' apply And.intro) <;> first | exact fun _ => rfl | exact fun h => zone_in h
       · first | exact id | exact fun _ => rfl)

theorem State.modStackOf_keeps (hW : Within 4294967296 wz) (s : State) (i : Nat) (f : Stack → Stack) (hm : Keeps wz s₀ s) : Keeps wz s₀ (State.modStackOf s i f) := by
  unfold State.modStackOf
  repeat' first
    | (with_reducible refine Within.sub hW ?_; decide)
    | with_reducible assumption
    | with_reducible apply State.setStackOf_keeps

theorem State.setYport_keeps (hW : Within 68719476736 wz) (s : State) (i : Nat) (v : Yport) (hm : Keeps wz s₀ s) : Keeps wz s₀ (State.setYport s i v) := by
  unfold State.setYport
  repeat' first
    | (with_reducible refine Within.sub hW ?_; decide)
    | with_reducible assumption
    | (try dsimp -zeta only
       with_reducible refine Keeps.mk' (V := 68719476736) rfl (hW.sub (by decide)) ?_ ?_ id ?_
       · (repeat' apply And.intro) <;> first | exact fun _ => rfl | exact fun h => zone_in h
       · first | exact id | exact fun _ => rfl)

theorem State.modYport_keeps (hW : Within 68719476736 wz) (s : State) (i : Nat) (f : Yport → Yport) (hm : Keeps wz s₀ s) : Keeps wz s₀ (State.modYport s i f) := by
  unfold State.modYport
  repeat' first
    | (with_reducible refine Within.sub hW ?_; decide)
    | with_reducible assumption
    | with_reducible apply State.setYport_keeps

theorem State.setEth_keeps (hW : Within 137438953472 wz) (s : State) (i : Nat) (v : Eth) (hm : Keeps wz s₀ s) : Keeps wz s₀ (State.setEth s i v) := by
  unfold State.setEth
  repeat' first
    | (with_reducible refine Within.sub hW ?_; decide)
    | with_reducible assumption
    | (try dsimp -zeta only
       with_reducible refine Keeps.mk' (V := 137438953472) rfl (hW.sub (by decide)) ?_ ?_ id ?_
       · (repeat' apply And.intro) <;> first | exact fun _ => rfl | exact fun h => zone_in h
       · first | exact id | exact fun _ => rfl)

theorem State.modEth_keeps (hW : Within 137438953472 wz) (s : State) (i : Nat) (f : Eth → Eth) (hm : Keeps wz s₀ s) : Keeps wz s₀ (State.modEth s i f) := by
  unfold State.modEth
  repeat' first
    | (with_reducible refine Within.sub hW ?_; decide)
    | with_reducible assumption
    | with_reducible apply State.setEth_keeps

theorem State.setSender_keeps (hW : Within 274877906944 wz) (s : State) (i : Nat) (v : Sender) (hm : Keeps wz s₀ s) : Keeps wz s₀ (State.setSender s i v) := by
  unfold State.setSender
  repeat' first
    | (with_reducible refine Within.sub hW ?_; decide)
    | with_reducible assumption
    | (try dsimp -zeta only
       with_reducible refine Keeps.mk' (V := 274877906944) rfl (hW.sub (by decide)) ?_ ?_ id ?_
       · (repeat' apply And.intro) <;> first | exact fun _ => rfl | exact fun h => zone_in h
       · first | exact id | exact fun _ => rfl)

theorem State.modSender_keeps (hW : Within 274877906944 wz) (s : State) (i : Nat) (f : Sender → Sender) (hm : Keeps wz s₀ s) : Keeps wz s₀ (State.modSender s i f) := by
  unfold State.modSender
  repeat' first
    | (with_reducible refine Within.sub hW ?_; decide)
    | with_reducible assumption
    | with_reducible apply State.setSender_keeps

theorem State.setEp_keeps (hW : Within 549755813888 wz) (s : State) (i : Nat) (v : Endpoint) (hm : Keeps wz s₀ s) : Keeps wz s₀ (State.setEp s i v) := by
  unfold State.setEp
  repeat' first
    | (with_reducible refine Within.sub hW ?_; decide)
    | with_reducible assumption
    | (try dsimp -zeta only
       with_reducible refine Keeps.mk' (V := 549755813888) rfl (hW.sub (by decide)) ?_ ?_ id ?_
       · (repeat' apply And.intro) <;> first | exact fun _ => rfl | exact fun h => zone_in h
       · first | exact id | exact fun _ => rfl)

theorem State.modEp_keeps (hW : Within 549755813888 wz) (s : State) (i : Nat) (f : Endpoint → Endpoint) (hm : Keeps wz s₀ s) : Keeps wz s₀ (State.modEp s i f) := by
  unfold State.modEp
  repeat' first
    | (with_reducible refine Within.sub hW ?_; decide)
    | with_reducible assumption
    | with_reducible apply State.setEp_keeps

end Sys2Proof.Machine
end

