-- ==== Sys2Proof/Laws/Keeps01.lean ====
section
/-! SUPPORT. What the definitions from State.hostWrite to State.retargetAll may write: `Keeps wz s t` says that only the
parts of `wz` differ and that memories stay canonical. -/
set_option linter.unusedTactic false
set_option linter.unreachableTactic false
set_option linter.unusedVariables false
namespace Sys2Proof.Machine
variable {wz : Nat} {s₀ : State}
theorem State.hostWrite_keeps (hW : Within 17179869184 wz) (s : State) (addr : B64) (bs : Bytes) (hm : Keeps wz s₀ s) : Keeps wz s₀ (s.hostWrite addr bs) := by
  unfold State.hostWrite
  exact Keeps.mk' (V := 17179869184) rfl hW (by (repeat' apply And.intro) <;> first | exact fun _ => rfl | exact fun h => zone_in h) id (fun h => writeBytes_wf _ _ _ h) hm

theorem State.hbmWrite_keeps (hW : Within 8589934592 wz) (s : State) (addr : Nat) (bs : Bytes) (hm : Keeps wz s₀ s) : Keeps wz s₀ (s.hbmWrite addr bs) := by
  unfold State.hbmWrite
  exact Keeps.mk' (V := 8589934592) rfl hW (by (repeat' apply And.intro) <;> first | exact fun _ => rfl | exact fun h => zone_in h) (fun h => writeBytes_wf _ _ _ h) id hm

theorem State.draw_keeps (hW : Within 2 wz) (s : State) (hm : Keeps wz s₀ s) : Keeps wz s₀ (State.draw s) := by
  unfold State.draw
  repeat' first
    | (with_reducible refine Within.sub hW ?_; decide)
    | with_reducible assumption
    | (try dsimp -zeta only
       with_reducible refine Keeps.mk' (V := 2) rfl (hW.sub (by decide)) ?_ ?_ id ?_
       · (repeat' apply And.intro) <;> first | exact fun _ => rfl | exact fun h => zone_in h
       · first | exact id | exact fun _ => rfl)

theorem State.post_keeps (hW : Within 256 wz) (s : State) (inp : Nat) (r : Rec) (hm : Keeps wz s₀ s) : Keeps wz s₀ (State.post s inp r) := by
  unfold State.post
  repeat' first
    | (with_reducible refine Within.sub hW ?_; decide)
    | with_reducible assumption
    | (extract_lets +onlyGivenNames x
       first
         | (with_reducible refine mem_cut (p := Keeps wz s₀ x) ?_ ?_ <;> [subst x; (clear_value x; intro _)])
         | (with_reducible refine mem_cut (p := Keeps wz s₀ x.2) ?_ ?_ <;> [subst x; (clear_value x; intro _)])
         | (have hx := fun y => x y; clear hx; subst x; try dsimp -zeta only)
         | clear_value x
         | subst x)
    | (try dsimp -zeta only
       with_reducible refine Keeps.mk' (V := 256) rfl (hW.sub (by decide)) ?_ ?_ id ?_
       · (repeat' apply And.intro) <;> first | exact fun _ => rfl | exact fun h => zone_in h
       · first | exact id | exact fun _ => rfl)

theorem State.log_keeps (hW : Within 256 wz) (s : State) (e : Ev) (inp : Nat) (fn : Nat) (arg0 : Nat) (arg1 : Nat) (ext : optParam Bytes []) (hm : Keeps wz s₀ s) : Keeps wz s₀ (State.log s e inp fn arg0 arg1 ext) := by
  unfold State.log
  repeat' first
    | (with_reducible refine Within.sub hW ?_; decide)
    | with_reducible assumption
    | with_reducible apply State.post_keeps

theorem State.resetSource_keeps (hW : Within 256 wz) (s : State) (inp : Nat) (hm : Keeps wz s₀ s) : Keeps wz s₀ (State.resetSource s inp) := by
  unfold State.resetSource
  repeat' first
    | (with_reducible refine Within.sub hW ?_; decide)
    | with_reducible assumption
    | (extract_lets +onlyGivenNames x
       first
         | (with_reducible refine mem_cut (p := Keeps wz s₀ x) ?_ ?_ <;> [subst x; (clear_value x; intro _)])
         | (with_reducible refine mem_cut (p := Keeps wz s₀ x.2) ?_ ?_ <;> [subst x; (clear_value x; intro _)])
         | (have hx := fun y => x y; clear hx; subst x; try dsimp -zeta only)
         | clear_value x
         | subst x)
    | split
    | (try dsimp -zeta only
       with_reducible refine Keeps.mk' (V := 256) rfl (hW.sub (by decide)) ?_ ?_ id ?_
       · (repeat' apply And.intro) <;> first | exact fun _ => rfl | exact fun h => zone_in h
       · first | exact id | exact fun _ => rfl)

theorem State.setRing_keeps (hW : Within 67109888 wz) (s : State) (f : Nat) (cspi : Bool) (l : List InFlight) (hm : Keeps wz s₀ s) : Keeps wz s₀ (State.setRing s f cspi l) := by
  unfold State.setRing
  repeat' first
    | (with_reducible refine Within.sub hW ?_; decide)
    | with_reducible assumption
    | with_reducible apply State.modFn_keeps
    | split
    | (try dsimp -zeta only
       with_reducible refine Keeps.mk' (V := 67109888) rfl (hW.sub (by decide)) ?_ ?_ id ?_
       · (repeat' apply And.intro) <;> first | exact fun _ => rfl | exact fun h => zone_in h
       · first | exact id | exact fun _ => rfl)

theorem State.postReply_keeps (hW : Within 256 wz) (s : State) (p : Bool × Rec) (hm : Keeps wz s₀ s) : Keeps wz s₀ (State.postReply s p) := by
  unfold State.postReply
  repeat' first
    | (with_reducible refine Within.sub hW ?_; decide)
    | with_reducible assumption
    | with_reducible apply State.post_keeps
    | split

theorem State.finish_keeps (hW : Within 67110144 wz) (s : State) (k : Pkt) (fast : Bool) (st : Status) (res : optParam (List Nat) []) (esnTo : optParam (Option B64) none) (hm : Keeps wz s₀ s) : Keeps wz s₀ (State.finish s k fast st res esnTo) := by
  unfold State.finish
  repeat' first
    | (with_reducible refine Within.sub hW ?_; decide)
    | with_reducible assumption
    | (with_reducible apply foldl_keeps; intros; try dsimp -zeta only)
    | with_reducible apply State.setRing_keeps
    | with_reducible apply State.postReply_keeps
    | (extract_lets +onlyGivenNames x
       first
         | (with_reducible refine mem_cut (p := Keeps wz s₀ x) ?_ ?_ <;> [subst x; (clear_value x; intro _)])
         | (with_reducible refine mem_cut (p := Keeps wz s₀ x.2) ?_ ?_ <;> [subst x; (clear_value x; intro _)])
         | (have hx := fun y => x y; clear hx; subst x; try dsimp -zeta only)
         | clear_value x
         | subst x)
    | split

theorem State.modFrame_keeps (hW : Within 65536 wz) (s : State) (st : Nat) (fseq : B16) (f : FrameInfo → FrameInfo) (hm : Keeps wz s₀ s) : Keeps wz s₀ (State.modFrame s st fseq f) := by
  unfold State.modFrame
  repeat' first
    | (with_reducible refine Within.sub hW ?_; decide)
    | with_reducible assumption
    | with_reducible apply State.modStrm_keeps

theorem State.flagFrame8_keeps (hW : Within 65536 wz) (s : State) (st : Nat) (f8 : Nat) (b : FFlag) (hm : Keeps wz s₀ s) : Keeps wz s₀ (State.flagFrame8 s st f8 b) := by
  unfold State.flagFrame8
  repeat' first
    | (with_reducible refine Within.sub hW ?_; decide)
    | with_reducible assumption
    | with_reducible apply State.modFrame_keeps

theorem State.modRunning_keeps (hW : Within 1073741824 wz) (s : State) (o : Nat) (f : Ctx → Ctx) (hm : Keeps wz s₀ s) : Keeps wz s₀ (State.modRunning s o f) := by
  unfold State.modRunning
  repeat' first
    | (with_reducible refine Within.sub hW ?_; decide)
    | with_reducible assumption
    | with_reducible apply State.setCtx_keeps

theorem State.queueSpore_keeps (hW : Within 68719476736 wz) (s : State) (p : Nat) (typ : Nat) (epoch : Nat) (body : Bytes) (hm : Keeps wz s₀ s) : Keeps wz s₀ (State.queueSpore s p typ epoch body) := by
  unfold State.queueSpore
  repeat' first
    | (with_reducible refine Within.sub hW ?_; decide)
    | with_reducible assumption
    | with_reducible apply State.modYport_keeps
    | (extract_lets +onlyGivenNames x
       first
         | (with_reducible refine mem_cut (p := Keeps wz s₀ x) ?_ ?_ <;> [subst x; (clear_value x; intro _)])
         | (with_reducible refine mem_cut (p := Keeps wz s₀ x.2) ?_ ?_ <;> [subst x; (clear_value x; intro _)])
         | (have hx := fun y => x y; clear hx; subst x; try dsimp -zeta only)
         | clear_value x
         | subst x)

theorem State.sendSpore_keeps (hW : Within 68719476736 wz) (s : State) (p : Nat) (typ : Nat) (body : Bytes) (hm : Keeps wz s₀ s) : Keeps wz s₀ (State.sendSpore s p typ body) := by
  unfold State.sendSpore
  repeat' first
    | (with_reducible refine Within.sub hW ?_; decide)
    | with_reducible assumption
    | with_reducible apply State.modYport_keeps
    | (extract_lets +onlyGivenNames x
       first
         | (with_reducible refine mem_cut (p := Keeps wz s₀ x) ?_ ?_ <;> [subst x; (clear_value x; intro _)])
         | (with_reducible refine mem_cut (p := Keeps wz s₀ x.2) ?_ ?_ <;> [subst x; (clear_value x; intro _)])
         | (have hx := fun y => x y; clear hx; subst x; try dsimp -zeta only)
         | clear_value x
         | subst x)

theorem State.stallChanged_keeps (hW : Within 68719476736 wz) (s : State) (g : Nat) (hm : Keeps wz s₀ s) : Keeps wz s₀ (State.stallChanged s g) := by
  unfold State.stallChanged
  repeat' first
    | (with_reducible refine Within.sub hW ?_; decide)
    | with_reducible assumption
    | (with_reducible apply foldl_keeps; intros; try dsimp -zeta only)
    | with_reducible apply State.sendSpore_keeps

theorem State.unfreezeGroup_keeps (hW : Within 720898 wz) (s : State) (o : Nat) (hm : Keeps wz s₀ s) : Keeps wz s₀ (State.unfreezeGroup s o) := by
  unfold State.unfreezeGroup
  repeat' first
    | (with_reducible refine Within.sub hW ?_; decide)
    | with_reducible assumption
    | (with_reducible apply foldl_keeps; intros; try dsimp -zeta only)
    | with_reducible apply State.draw_keeps
    | (extract_lets +onlyGivenNames x
       first
         | (with_reducible refine mem_cut (p := Keeps wz s₀ x) ?_ ?_ <;> [subst x; (clear_value x; intro _)])
         | (with_reducible refine mem_cut (p := Keeps wz s₀ x.2) ?_ ?_ <;> [subst x; (clear_value x; intro _)])
         | (have hx := fun y => x y; clear hx; subst x; try dsimp -zeta only)
         | clear_value x
         | subst x)
    | split
    | (try dsimp -zeta only
       with_reducible refine Keeps.mk' (V := 720898) rfl (hW.sub (by decide)) ?_ ?_ id ?_
       · (repeat' apply And.intro) <;> first | exact fun _ => rfl | exact fun h => zone_in h
       · first | exact id | exact fun _ => rfl)

theorem State.maskGroup_keeps (hW : Within 68721246210 wz) (s : State) (g : Nat) (hm : Keeps wz s₀ s) : Keeps wz s₀ (State.maskGroup s g) := by
  unfold State.maskGroup
  repeat' first
    | (with_reducible refine Within.sub hW ?_; decide)
    | with_reducible assumption
    | with_reducible apply State.modGroup_keeps
    | with_reducible apply State.stallChanged_keeps
    | with_reducible apply State.unfreezeGroup_keeps
    | (extract_lets +onlyGivenNames x
       first
         | (with_reducible refine mem_cut (p := Keeps wz s₀ x) ?_ ?_ <;> [subst x; (clear_value x; intro _)])
         | (with_reducible refine mem_cut (p := Keeps wz s₀ x.2) ?_ ?_ <;> [subst x; (clear_value x; intro _)])
         | (have hx := fun y => x y; clear hx; subst x; try dsimp -zeta only)
         | clear_value x
         | subst x)
    | split

theorem State.settleGroup_keeps (hW : Within 68720525312 wz) (s : State) (g : Nat) (hm : Keeps wz s₀ s) : Keeps wz s₀ (State.settleGroup s g) := by
  unfold State.settleGroup
  repeat' first
    | (with_reducible refine Within.sub hW ?_; decide)
    | with_reducible assumption
    | with_reducible apply State.setGroup_keeps
    | with_reducible apply State.stallChanged_keeps
    | (extract_lets +onlyGivenNames x
       first
         | (with_reducible refine mem_cut (p := Keeps wz s₀ x) ?_ ?_ <;> [subst x; (clear_value x; intro _)])
         | (with_reducible refine mem_cut (p := Keeps wz s₀ x.2) ?_ ?_ <;> [subst x; (clear_value x; intro _)])
         | (have hx := fun y => x y; clear hx; subst x; try dsimp -zeta only)
         | clear_value x
         | subst x)
    | split

theorem State.request_keeps (hW : Within 68722622464 wz) (s : State) (o : Nat) (on : Bool) (hm : Keeps wz s₀ s) : Keeps wz s₀ (State.request s o on) := by
  unfold State.request
  repeat' first
    | (with_reducible refine Within.sub hW ?_; decide)
    | with_reducible assumption
    | with_reducible apply State.setOrigin_keeps
    | with_reducible apply State.settleGroup_keeps
    | (extract_lets +onlyGivenNames x
       first
         | (with_reducible refine mem_cut (p := Keeps wz s₀ x) ?_ ?_ <;> [subst x; (clear_value x; intro _)])
         | (with_reducible refine mem_cut (p := Keeps wz s₀ x.2) ?_ ?_ <;> [subst x; (clear_value x; intro _)])
         | (have hx := fun y => x y; clear hx; subst x; try dsimp -zeta only)
         | clear_value x
         | subst x)
    | split

theorem State.deliverCpl_keeps (hW : Within 17515413504 wz) (s : State) (p : Nat) (hm : Keeps wz s₀ s) : Keeps wz s₀ (State.deliverCpl s p) := by
  unfold State.deliverCpl
  repeat' first
    | (with_reducible refine Within.sub hW ?_; decide)
    | with_reducible assumption
    | (with_reducible apply foldl_keeps; intros; try dsimp -zeta only)
    | with_reducible apply State.modFn_keeps
    | with_reducible apply State.modPool_keeps
    | with_reducible apply State.hostWrite_keeps
    | (extract_lets +onlyGivenNames x
       first
         | (with_reducible refine mem_cut (p := Keeps wz s₀ x) ?_ ?_ <;> [subst x; (clear_value x; intro _)])
         | (with_reducible refine mem_cut (p := Keeps wz s₀ x.2) ?_ ?_ <;> [subst x; (clear_value x; intro _)])
         | (have hx := fun y => x y; clear hx; subst x; try dsimp -zeta only)
         | clear_value x
         | subst x)

theorem State.reserveCpl_keeps (hW : Within 268435456 wz) (s : State) (p : Nat) (hm : Keeps wz s₀ s) : Keeps wz s₀ (State.reserveCpl s p).2 := by
  unfold State.reserveCpl
  repeat' first
    | (with_reducible refine Within.sub hW ?_; decide)
    | with_reducible assumption
    | with_reducible apply State.modPool_keeps
    | (extract_lets +onlyGivenNames x
       first
         | (with_reducible refine mem_cut (p := Keeps wz s₀ x) ?_ ?_ <;> [subst x; (clear_value x; intro _)])
         | (with_reducible refine mem_cut (p := Keeps wz s₀ x.2) ?_ ?_ <;> [subst x; (clear_value x; intro _)])
         | (have hx := fun y => x y; clear hx; subst x; try dsimp -zeta only)
         | clear_value x
         | subst x)

theorem State.writeCpl_keeps (hW : Within 17515413504 wz) (s : State) (p : Nat) (ticket : Nat) (r : Bytes) (hm : Keeps wz s₀ s) : Keeps wz s₀ (State.writeCpl s p ticket r) := by
  unfold State.writeCpl
  repeat' first
    | (with_reducible refine Within.sub hW ?_; decide)
    | with_reducible assumption
    | with_reducible apply State.modPool_keeps
    | with_reducible apply State.deliverCpl_keeps
    | split

theorem State.closeBuf_keeps (hW : Within 17515479040 wz) (s : State) (st : Nat) (status : Nat) (eof : Bool) (hm : Keeps wz s₀ s) : Keeps wz s₀ (State.closeBuf s st status eof) := by
  unfold State.closeBuf
  repeat' first
    | (with_reducible refine Within.sub hW ?_; decide)
    | with_reducible assumption
    | with_reducible apply State.modStrm_keeps
    | with_reducible apply State.writeCpl_keeps
    | (extract_lets +onlyGivenNames x
       first
         | (with_reducible refine mem_cut (p := Keeps wz s₀ x) ?_ ?_ <;> [subst x; (clear_value x; intro _)])
         | (with_reducible refine mem_cut (p := Keeps wz s₀ x.2) ?_ ?_ <;> [subst x; (clear_value x; intro _)])
         | (have hx := fun y => x y; clear hx; subst x; try dsimp -zeta only)
         | clear_value x
         | subst x)
    | split

theorem State.closeRing_keeps (hW : Within 17515479040 wz) (s : State) (st : Nat) (status : Nat) (eof : Bool) (hm : Keeps wz s₀ s) : Keeps wz s₀ (State.closeRing s st status eof) := by
  unfold State.closeRing
  repeat' first
    | (with_reducible refine Within.sub hW ?_; decide)
    | with_reducible assumption
    | with_reducible apply State.modStrm_keeps
    | with_reducible apply State.writeCpl_keeps
    | (extract_lets +onlyGivenNames x
       first
         | (with_reducible refine mem_cut (p := Keeps wz s₀ x) ?_ ?_ <;> [subst x; (clear_value x; intro _)])
         | (with_reducible refine mem_cut (p := Keeps wz s₀ x.2) ?_ ?_ <;> [subst x; (clear_value x; intro _)])
         | (have hx := fun y => x y; clear hx; subst x; try dsimp -zeta only)
         | clear_value x
         | subst x)
    | split

theorem State.returnDesc_keeps (hW : Within 17515413506 wz) (s : State) (p : Nat) (status : Nat) (d : PoolDesc) (hm : Keeps wz s₀ s) : Keeps wz s₀ (State.returnDesc s p status d) := by
  unfold State.returnDesc
  repeat' first
    | (with_reducible refine Within.sub hW ?_; decide)
    | with_reducible assumption
    | with_reducible apply State.draw_keeps
    | with_reducible apply State.reserveCpl_keeps
    | with_reducible apply State.writeCpl_keeps
    | (extract_lets +onlyGivenNames x
       first
         | (with_reducible refine mem_cut (p := Keeps wz s₀ x) ?_ ?_ <;> [subst x; (clear_value x; intro _)])
         | (with_reducible refine mem_cut (p := Keeps wz s₀ x.2) ?_ ?_ <;> [subst x; (clear_value x; intro _)])
         | (have hx := fun y => x y; clear hx; subst x; try dsimp -zeta only)
         | clear_value x
         | subst x)

theorem State.flushOutput_keeps (hW : Within 86271656194 wz) (s : State) (st : Nat) (status : Nat) (cause : Nat) (hm : Keeps wz s₀ s) : Keeps wz s₀ (State.flushOutput s st status cause) := by
  unfold State.flushOutput
  repeat' first
    | (with_reducible refine Within.sub hW ?_; decide)
    | with_reducible assumption
    | with_reducible apply State.modStrm_keeps
    | with_reducible apply State.modQueue_keeps
    | with_reducible apply State.log_keeps
    | with_reducible apply State.request_keeps
    | with_reducible apply State.closeBuf_keeps
    | with_reducible apply State.closeRing_keeps
    | with_reducible apply State.returnDesc_keeps
    | (extract_lets +onlyGivenNames x
       first
         | (with_reducible refine mem_cut (p := Keeps wz s₀ x) ?_ ?_ <;> [subst x; (clear_value x; intro _)])
         | (with_reducible refine mem_cut (p := Keeps wz s₀ x.2) ?_ ?_ <;> [subst x; (clear_value x; intro _)])
         | (have hx := fun y => x y; clear hx; subst x; try dsimp -zeta only)
         | clear_value x
         | subst x)
    | split

theorem State.flushPool_keeps (hW : Within 17549033730 wz) (s : State) (p : Nat) (status : Nat) (cause : Nat) (hm : Keeps wz s₀ s) : Keeps wz s₀ (State.flushPool s p status cause) := by
  unfold State.flushPool
  repeat' first
    | (with_reducible refine Within.sub hW ?_; decide)
    | with_reducible assumption
    | (with_reducible apply foldl_keeps; intros; try dsimp -zeta only)
    | with_reducible apply State.modStrm_keeps
    | with_reducible apply State.modQueue_keeps
    | with_reducible apply State.modPool_keeps
    | with_reducible apply State.log_keeps
    | with_reducible apply State.closeBuf_keeps
    | with_reducible apply State.closeRing_keeps
    | with_reducible apply State.returnDesc_keeps
    | (extract_lets +onlyGivenNames x
       first
         | (with_reducible refine mem_cut (p := Keeps wz s₀ x) ?_ ?_ <;> [subst x; (clear_value x; intro _)])
         | (with_reducible refine mem_cut (p := Keeps wz s₀ x.2) ?_ ?_ <;> [subst x; (clear_value x; intro _)])
         | (have hx := fun y => x y; clear hx; subst x; try dsimp -zeta only)
         | clear_value x
         | subst x)

theorem State.flushReplies_keeps (hW : Within 100663552 wz) (s : State) (f : Nat) (cause : Nat) (hm : Keeps wz s₀ s) : Keeps wz s₀ (State.flushReplies s f cause) := by
  unfold State.flushReplies
  repeat' first
    | (with_reducible refine Within.sub hW ?_; decide)
    | with_reducible assumption
    | with_reducible apply State.modQueue_keeps
    | with_reducible apply State.modFn_keeps
    | with_reducible apply State.log_keeps
    | (extract_lets +onlyGivenNames x
       first
         | (with_reducible refine mem_cut (p := Keeps wz s₀ x) ?_ ?_ <;> [subst x; (clear_value x; intro _)])
         | (with_reducible refine mem_cut (p := Keeps wz s₀ x.2) ?_ ?_ <;> [subst x; (clear_value x; intro _)])
         | (have hx := fun y => x y; clear hx; subst x; try dsimp -zeta only)
         | clear_value x
         | subst x)

theorem State.detachStep_keeps (hW : Within 67126528 wz) (s : State) (h : Nat) (hm : Keeps wz s₀ s) : Keeps wz s₀ (State.detachStep s h) := by
  unfold State.detachStep
  repeat' first
    | (with_reducible refine Within.sub hW ?_; decide)
    | with_reducible assumption
    | with_reducible apply State.modHead_keeps
    | with_reducible apply State.finish_keeps
    | (extract_lets +onlyGivenNames x
       first
         | (with_reducible refine mem_cut (p := Keeps wz s₀ x) ?_ ?_ <;> [subst x; (clear_value x; intro _)])
         | (with_reducible refine mem_cut (p := Keeps wz s₀ x.2) ?_ ?_ <;> [subst x; (clear_value x; intro _)])
         | (have hx := fun y => x y; clear hx; subst x; try dsimp -zeta only)
         | clear_value x
         | subst x)
    | split

theorem State.stopCommit_keeps (hW : Within 67126528 wz) (s : State) (h : Nat) (hm : Keeps wz s₀ s) : Keeps wz s₀ (State.stopCommit s h) := by
  unfold State.stopCommit
  repeat' first
    | (with_reducible refine Within.sub hW ?_; decide)
    | with_reducible assumption
    | with_reducible apply State.modHead_keeps
    | with_reducible apply State.detachStep_keeps
    | split

theorem State.endStream_keeps (hW : Within 67192064 wz) (s : State) (st : Nat) (hm : Keeps wz s₀ s) : Keeps wz s₀ (State.endStream s st) := by
  unfold State.endStream
  repeat' first
    | (with_reducible refine Within.sub hW ?_; decide)
    | with_reducible assumption
    | with_reducible apply State.modHead_keeps
    | with_reducible apply State.modStrm_keeps
    | with_reducible apply State.stopCommit_keeps
    | (extract_lets +onlyGivenNames x
       first
         | (with_reducible refine mem_cut (p := Keeps wz s₀ x) ?_ ?_ <;> [subst x; (clear_value x; intro _)])
         | (with_reducible refine mem_cut (p := Keeps wz s₀ x.2) ?_ ?_ <;> [subst x; (clear_value x; intro _)])
         | (have hx := fun y => x y; clear hx; subst x; try dsimp -zeta only)
         | clear_value x
         | subst x)
    | split

theorem State.checkStopping_keeps (hW : Within 1073741824 wz) (s : State) (o : Nat) (hm : Keeps wz s₀ s) : Keeps wz s₀ (State.checkStopping s o) := by
  unfold State.checkStopping
  repeat' first
    | (with_reducible refine Within.sub hW ?_; decide)
    | with_reducible assumption
    | with_reducible apply State.setCtx_keeps
    | split

theorem State.truncate_keeps (hW : Within 81920 wz) (s : State) (st : Nat) (c : Cause) (hm : Keeps wz s₀ s) : Keeps wz s₀ (State.truncate s st c) := by
  unfold State.truncate
  repeat' first
    | (with_reducible refine Within.sub hW ?_; decide)
    | with_reducible assumption
    | with_reducible apply State.modHead_keeps
    | with_reducible apply State.setStrm_keeps
    | (extract_lets +onlyGivenNames x
       first
         | (with_reducible refine mem_cut (p := Keeps wz s₀ x) ?_ ?_ <;> [subst x; (clear_value x; intro _)])
         | (with_reducible refine mem_cut (p := Keeps wz s₀ x.2) ?_ ?_ <;> [subst x; (clear_value x; intro _)])
         | (have hx := fun y => x y; clear hx; subst x; try dsimp -zeta only)
         | clear_value x
         | subst x)
    | split

theorem State.setLate_keeps (hW : Within 68722688000 wz) (s : State) (st : Nat) (r : Replay) (on : Bool) (hm : Keeps wz s₀ s) : Keeps wz s₀ (State.setLate s st r on) := by
  unfold State.setLate
  repeat' first
    | (with_reducible refine Within.sub hW ?_; decide)
    | with_reducible assumption
    | with_reducible apply State.modStrm_keeps
    | with_reducible apply State.request_keeps
    | (extract_lets +onlyGivenNames x
       first
         | (with_reducible refine mem_cut (p := Keeps wz s₀ x) ?_ ?_ <;> [subst x; (clear_value x; intro _)])
         | (with_reducible refine mem_cut (p := Keeps wz s₀ x.2) ?_ ?_ <;> [subst x; (clear_value x; intro _)])
         | (have hx := fun y => x y; clear hx; subst x; try dsimp -zeta only)
         | clear_value x
         | subst x)
    | split

theorem State.dropLate_keeps (hW : Within 68722688000 wz) (s : State) (st : Nat) (hm : Keeps wz s₀ s) : Keeps wz s₀ (State.dropLate s st) := by
  unfold State.dropLate
  repeat' first
    | (with_reducible refine Within.sub hW ?_; decide)
    | with_reducible assumption
    | with_reducible apply State.setLate_keeps
    | split

theorem State.stopStream_keeps (hW : Within 69863556352 wz) (s : State) (st : Nat) (immediate : Bool) (hm : Keeps wz s₀ s) : Keeps wz s₀ (State.stopStream s st immediate) := by
  unfold State.stopStream
  repeat' first
    | (with_reducible refine Within.sub hW ?_; decide)
    | with_reducible assumption
    | with_reducible apply State.setStrm_keeps
    | with_reducible apply State.modStrm_keeps
    | with_reducible apply State.endStream_keeps
    | with_reducible apply State.checkStopping_keeps
    | with_reducible apply State.truncate_keeps
    | with_reducible apply State.dropLate_keeps
    | (extract_lets +onlyGivenNames x
       first
         | (with_reducible refine mem_cut (p := Keeps wz s₀ x) ?_ ?_ <;> [subst x; (clear_value x; intro _)])
         | (with_reducible refine mem_cut (p := Keeps wz s₀ x.2) ?_ ?_ <;> [subst x; (clear_value x; intro _)])
         | (have hx := fun y => x y; clear hx; subst x; try dsimp -zeta only)
         | clear_value x
         | subst x)
    | split

theorem State.sendUnbind_keeps (hW : Within 68719476736 wz) (s : State) (o : Nat) (hm : Keeps wz s₀ s) : Keeps wz s₀ (State.sendUnbind s o) := by
  unfold State.sendUnbind
  repeat' first
    | (with_reducible refine Within.sub hW ?_; decide)
    | with_reducible assumption
    | (with_reducible apply foldl_keeps; intros; try dsimp -zeta only)
    | with_reducible apply State.queueSpore_keeps
    | (extract_lets +onlyGivenNames x
       first
         | (with_reducible refine mem_cut (p := Keeps wz s₀ x) ?_ ?_ <;> [subst x; (clear_value x; intro _)])
         | (with_reducible refine mem_cut (p := Keeps wz s₀ x.2) ?_ ?_ <;> [subst x; (clear_value x; intro _)])
         | (have hx := fun y => x y; clear hx; subst x; try dsimp -zeta only)
         | clear_value x
         | subst x)
    | split

theorem State.clearContext_keeps (hW : Within 87358653698 wz) (s : State) (o : Nat) (cause : Nat) (flushCause : Nat) (hm : Keeps wz s₀ s) : Keeps wz s₀ (State.clearContext s o cause flushCause) := by
  unfold State.clearContext
  repeat' first
    | (with_reducible refine Within.sub hW ?_; decide)
    | with_reducible assumption
    | (with_reducible apply foldl_keeps; intros; try dsimp -zeta only)
    | with_reducible apply State.modEdgeEng_keeps
    | with_reducible apply State.finish_keeps
    | with_reducible apply State.modRunning_keeps
    | with_reducible apply State.maskGroup_keeps
    | with_reducible apply State.flushOutput_keeps
    | with_reducible apply State.stopCommit_keeps
    | with_reducible apply State.dropLate_keeps
    | with_reducible apply State.sendUnbind_keeps
    | (extract_lets +onlyGivenNames x
       first
         | (with_reducible refine mem_cut (p := Keeps wz s₀ x) ?_ ?_ <;> [subst x; (clear_value x; intro _)])
         | (with_reducible refine mem_cut (p := Keeps wz s₀ x.2) ?_ ?_ <;> [subst x; (clear_value x; intro _)])
         | (have hx := fun y => x y; clear hx; subst x; try dsimp -zeta only)
         | clear_value x
         | subst x)
    | split
    | (try dsimp -zeta only
       with_reducible refine Keeps.mk' (V := 87358653698) rfl (hW.sub (by decide)) ?_ ?_ id ?_
       · (repeat' apply And.intro) <;> first | exact fun _ => rfl | exact fun h => zone_in h
       · first | exact id | exact fun _ => rfl)

theorem State.logCtx_keeps (hW : Within 256 wz) (s : State) (e : Ev) (o : Nat) (slot : Nat) (cause : Nat) (fn : Nat) (hm : Keeps wz s₀ s) : Keeps wz s₀ (State.logCtx s e o slot cause fn) := by
  unfold State.logCtx
  repeat' first
    | (with_reducible refine Within.sub hW ?_; decide)
    | with_reducible assumption
    | with_reducible apply State.log_keeps

theorem State.faultCtx_keeps (hW : Within 87358653698 wz) (s : State) (o : Nat) (cause : Cause) (hm : Keeps wz s₀ s) : Keeps wz s₀ (State.faultCtx s o cause) := by
  unfold State.faultCtx
  repeat' first
    | (with_reducible refine Within.sub hW ?_; decide)
    | with_reducible assumption
    | with_reducible apply State.setCtx_keeps
    | with_reducible apply State.modRunning_keeps
    | with_reducible apply State.clearContext_keeps
    | with_reducible apply State.logCtx_keeps
    | (extract_lets +onlyGivenNames x
       first
         | (with_reducible refine mem_cut (p := Keeps wz s₀ x) ?_ ?_ <;> [subst x; (clear_value x; intro _)])
         | (with_reducible refine mem_cut (p := Keeps wz s₀ x.2) ?_ ?_ <;> [subst x; (clear_value x; intro _)])
         | (have hx := fun y => x y; clear hx; subst x; try dsimp -zeta only)
         | clear_value x
         | subst x)
    | split

theorem State.clearSlots_keeps (hW : Within 262144 wz) (s : State) (o : Nat) (hm : Keeps wz s₀ s) : Keeps wz s₀ (State.clearSlots s o) := by
  unfold State.clearSlots
  repeat' first
    | (with_reducible refine Within.sub hW ?_; decide)
    | with_reducible assumption
    | (try dsimp -zeta only
       with_reducible refine Keeps.mk' (V := 262144) rfl (hW.sub (by decide)) ?_ ?_ id ?_
       · (repeat' apply And.intro) <;> first | exact fun _ => rfl | exact fun h => zone_in h
       · first | exact id | exact fun _ => rfl)

theorem State.setVid_keeps (hW : Within 64 wz) (s : State) (v : Nat) (hm : Keeps wz s₀ s) : Keeps wz s₀ (State.setVid s v) := by
  unfold State.setVid
  repeat' first
    | (with_reducible refine Within.sub hW ?_; decide)
    | with_reducible assumption
    | (try dsimp -zeta only
       with_reducible refine Keeps.mk' (V := 64) rfl (hW.sub (by decide)) ?_ ?_ id ?_
       · (repeat' apply And.intro) <;> first | exact fun _ => rfl | exact fun h => zone_in h
       · first | exact id | exact fun _ => rfl)

theorem State.unalign_keeps (hW : Within 68719476736 wz) (s : State) (f : Nat) (hm : Keeps wz s₀ s) : Keeps wz s₀ (State.unalign s f) := by
  unfold State.unalign
  repeat' first
    | (with_reducible refine Within.sub hW ?_; decide)
    | with_reducible assumption
    | (with_reducible apply foldl_keeps; intros; try dsimp -zeta only)
    | with_reducible apply State.modYport_keeps
    | split

theorem State.markClkChg_keeps (hW : Within 68719542272 wz) (s : State) (f : Nat) (hm : Keeps wz s₀ s) : Keeps wz s₀ (State.markClkChg s f) := by
  unfold State.markClkChg
  repeat' first
    | (with_reducible refine Within.sub hW ?_; decide)
    | with_reducible assumption
    | with_reducible apply State.unalign_keeps
    | (extract_lets +onlyGivenNames x
       first
         | (with_reducible refine mem_cut (p := Keeps wz s₀ x) ?_ ?_ <;> [subst x; (clear_value x; intro _)])
         | (with_reducible refine mem_cut (p := Keeps wz s₀ x.2) ?_ ?_ <;> [subst x; (clear_value x; intro _)])
         | (have hx := fun y => x y; clear hx; subst x; try dsimp -zeta only)
         | clear_value x
         | subst x)
    | split
    | (try dsimp -zeta only
       with_reducible refine Keeps.mk' (V := 68719542272) rfl (hW.sub (by decide)) ?_ ?_ id ?_
       · (repeat' apply And.intro) <;> first | exact fun _ => rfl | exact fun h => zone_in h
       · first | exact id | exact fun _ => rfl)

theorem State.retarget_keeps (hW : Within 68719546432 wz) (s : State) (f : Nat) (fn : B16) (hm : Keeps wz s₀ s) : Keeps wz s₀ (State.retarget s f fn) := by
  unfold State.retarget
  repeat' first
    | (with_reducible refine Within.sub hW ?_; decide)
    | with_reducible assumption
    | with_reducible apply State.setField_keeps
    | with_reducible apply State.setVid_keeps
    | with_reducible apply State.markClkChg_keeps
    | (extract_lets +onlyGivenNames x
       first
         | (with_reducible refine mem_cut (p := Keeps wz s₀ x) ?_ ?_ <;> [subst x; (clear_value x; intro _)])
         | (with_reducible refine mem_cut (p := Keeps wz s₀ x.2) ?_ ?_ <;> [subst x; (clear_value x; intro _)])
         | (have hx := fun y => x y; clear hx; subst x; try dsimp -zeta only)
         | clear_value x
         | subst x)
    | split

theorem State.retargetAll_keeps (hW : Within 68719546432 wz) (s : State) (hm : Keeps wz s₀ s) : Keeps wz s₀ (State.retargetAll s) := by
  unfold State.retargetAll
  repeat' first
    | (with_reducible refine Within.sub hW ?_; decide)
    | with_reducible assumption
    | (with_reducible apply foldl_keeps; intros; try dsimp -zeta only)
    | with_reducible apply State.retarget_keeps

end Sys2Proof.Machine
end

