-- ==== Sys2Proof/Laws/Keeps02.lean ====
section
/-! SUPPORT. What the definitions from State.dvfsEnd to State.resetEpB may write: `Keeps wz s t` says that only the
parts of `wz` differ and that memories stay canonical. -/
set_option linter.unusedTactic false
set_option linter.unreachableTactic false
set_option linter.unusedVariables false
namespace Sys2Proof.Machine
variable {wz : Nat} {s₀ : State}
theorem State.dvfsEnd_keeps (hW : Within 68719546688 wz) (s : State) (f : Nat) (hm : Keeps wz s₀ s) : Keeps wz s₀ (State.dvfsEnd s f) := by
  unfold State.dvfsEnd
  repeat' first
    | (with_reducible refine Within.sub hW ?_; decide)
    | with_reducible assumption
    | with_reducible apply State.setField_keeps
    | with_reducible apply State.log_keeps
    | with_reducible apply State.retarget_keeps
    | (extract_lets +onlyGivenNames x
       first
         | (with_reducible refine mem_cut (p := Keeps wz s₀ x) ?_ ?_ <;> [subst x; (clear_value x; intro _)])
         | (with_reducible refine mem_cut (p := Keeps wz s₀ x.2) ?_ ?_ <;> [subst x; (clear_value x; intro _)])
         | (have hx := fun y => x y; clear hx; subst x; try dsimp -zeta only)
         | clear_value x
         | subst x)

theorem State.logCap_keeps (hW : Within 256 wz) (s : State) (old : State) (cap : Nat) (added : Bool) (hm : Keeps wz s₀ s) : Keeps wz s₀ (State.logCap s old cap added) := by
  unfold State.logCap
  repeat' first
    | (with_reducible refine Within.sub hW ?_; decide)
    | with_reducible assumption
    | with_reducible apply State.log_keeps
    | (extract_lets +onlyGivenNames x
       first
         | (with_reducible refine mem_cut (p := Keeps wz s₀ x) ?_ ?_ <;> [subst x; (clear_value x; intro _)])
         | (with_reducible refine mem_cut (p := Keeps wz s₀ x.2) ?_ ?_ <;> [subst x; (clear_value x; intro _)])
         | (have hx := fun y => x y; clear hx; subst x; try dsimp -zeta only)
         | clear_value x
         | subst x)
    | split

theorem State.sclSettle_keeps (hW : Within 16384 wz) (s : State) (h : Nat) (hm : Keeps wz s₀ s) : Keeps wz s₀ (State.sclSettle s h) := by
  unfold State.sclSettle
  repeat' first
    | (with_reducible refine Within.sub hW ?_; decide)
    | with_reducible assumption
    | with_reducible apply State.modHead_keeps

theorem State.warning_keeps (hW : Within 68719559488 wz) (s : State) (source : Nat) (field : Nat) (mv : Nat) (hm : Keeps wz s₀ s) : Keeps wz s₀ (State.warning s source field mv) := by
  unfold State.warning
  repeat' first
    | (with_reducible refine Within.sub hW ?_; decide)
    | with_reducible assumption
    | (with_reducible apply foldl_keeps; intros; try dsimp -zeta only)
    | with_reducible apply State.log_keeps
    | with_reducible apply State.unalign_keeps
    | (extract_lets +onlyGivenNames x
       first
         | (with_reducible refine mem_cut (p := Keeps wz s₀ x) ?_ ?_ <;> [subst x; (clear_value x; intro _)])
         | (with_reducible refine mem_cut (p := Keeps wz s₀ x.2) ?_ ?_ <;> [subst x; (clear_value x; intro _)])
         | (have hx := fun y => x y; clear hx; subst x; try dsimp -zeta only)
         | clear_value x
         | subst x)
    | split
    | (try dsimp -zeta only
       with_reducible refine Keeps.mk' (V := 68719559488) rfl (hW.sub (by decide)) ?_ ?_ id ?_
       · (repeat' apply And.intro) <;> first | exact fun _ => rfl | exact fun h => zone_in h
       · first | exact id | exact fun _ => rfl)

theorem State.tryLock_keeps (hW : Within 134217728 wz) (s : State) (l : Nat) (code : BitVec 10) (hm : Keeps wz s₀ s) : Keeps wz s₀ (State.tryLock s l code).2 := by
  unfold State.tryLock
  repeat' first
    | (with_reducible refine Within.sub hW ?_; decide)
    | with_reducible assumption
    | with_reducible apply State.setLock_keeps
    | (extract_lets +onlyGivenNames x
       first
         | (with_reducible refine mem_cut (p := Keeps wz s₀ x) ?_ ?_ <;> [subst x; (clear_value x; intro _)])
         | (with_reducible refine mem_cut (p := Keeps wz s₀ x.2) ?_ ?_ <;> [subst x; (clear_value x; intro _)])
         | (have hx := fun y => x y; clear hx; subst x; try dsimp -zeta only)
         | clear_value x
         | subst x)
    | split

theorem State.handLock_keeps (hW : Within 68920804608 wz) (s : State) (l : Nat) (hm : Keeps wz s₀ s) : Keeps wz s₀ (State.handLock s l) := by
  unfold State.handLock
  repeat' first
    | (with_reducible refine Within.sub hW ?_; decide)
    | with_reducible assumption
    | with_reducible apply State.setLock_keeps
    | with_reducible apply State.finish_keeps
    | with_reducible apply State.queueSpore_keeps
    | (extract_lets +onlyGivenNames x
       first
         | (with_reducible refine mem_cut (p := Keeps wz s₀ x) ?_ ?_ <;> [subst x; (clear_value x; intro _)])
         | (with_reducible refine mem_cut (p := Keeps wz s₀ x.2) ?_ ?_ <;> [subst x; (clear_value x; intro _)])
         | (have hx := fun y => x y; clear hx; subst x; try dsimp -zeta only)
         | clear_value x
         | subst x)
    | split

theorem State.forceLock_keeps (hW : Within 68920805120 wz) (s : State) (l : Nat) (hm : Keeps wz s₀ s) : Keeps wz s₀ (State.forceLock s l) := by
  unfold State.forceLock
  repeat' first
    | (with_reducible refine Within.sub hW ?_; decide)
    | with_reducible assumption
    | with_reducible apply State.setLock_keeps
    | with_reducible apply State.handLock_keeps
    | (extract_lets +onlyGivenNames x
       first
         | (with_reducible refine mem_cut (p := Keeps wz s₀ x) ?_ ?_ <;> [subst x; (clear_value x; intro _)])
         | (with_reducible refine mem_cut (p := Keeps wz s₀ x.2) ?_ ?_ <;> [subst x; (clear_value x; intro _)])
         | (have hx := fun y => x y; clear hx; subst x; try dsimp -zeta only)
         | clear_value x
         | subst x)
    | split
    | (try dsimp -zeta only
       with_reducible refine Keeps.mk' (V := 68920805120) rfl (hW.sub (by decide)) ?_ ?_ id ?_
       · (repeat' apply And.intro) <;> first | exact fun _ => rfl | exact fun h => zone_in h
       · first | exact id | exact fun _ => rfl)

theorem State.silence_keeps (hW : Within 67110144 wz) (s : State) (k : Pkt) (fast : Bool) (hm : Keeps wz s₀ s) : Keeps wz s₀ (State.silence s k fast) := by
  unfold State.silence
  repeat' first
    | (with_reducible refine Within.sub hW ?_; decide)
    | with_reducible assumption
    | (with_reducible apply foldl_keeps; intros; try dsimp -zeta only)
    | with_reducible apply State.setRing_keeps
    | with_reducible apply State.postReply_keeps
    | (extract_lets +onlyGivenNames x
       first
         | (with_reducible refine mem_cut (p := Keeps wz s₀ x) ?_ ?_ <;> [subst x; (clear_value x; intro _)])
         | (with_reducible refine mem_cut (p := Keeps wz s₀ x.2) ?_ ?_ <;> [subst x; (clear_value x; intro _)])
         | (have hx := fun y => x y; clear hx; subst x; try dsimp -zeta only)
         | clear_value x
         | subst x)

theorem State.resetHolder_keeps (hW : Within 68920805120 wz) (s : State) (p : BitVec 10 → Bool) (hm : Keeps wz s₀ s) : Keeps wz s₀ (State.resetHolder s p) := by
  unfold State.resetHolder
  repeat' first
    | (with_reducible refine Within.sub hW ?_; decide)
    | with_reducible assumption
    | (with_reducible apply foldl_keeps; intros; try dsimp -zeta only)
    | with_reducible apply State.forceLock_keeps
    | with_reducible apply State.silence_keeps
    | (extract_lets +onlyGivenNames x
       first
         | (with_reducible refine mem_cut (p := Keeps wz s₀ x) ?_ ?_ <;> [subst x; (clear_value x; intro _)])
         | (with_reducible refine mem_cut (p := Keeps wz s₀ x.2) ?_ ?_ <;> [subst x; (clear_value x; intro _)])
         | (have hx := fun y => x y; clear hx; subst x; try dsimp -zeta only)
         | clear_value x
         | subst x)
    | (try dsimp -zeta only
       with_reducible refine Keeps.mk' (V := 68920805120) rfl (hW.sub (by decide)) ?_ ?_ id ?_
       · (repeat' apply And.intro) <;> first | exact fun _ => rfl | exact fun h => zone_in h
       · first | exact id | exact fun _ => rfl)

theorem State.logSite_keeps (hW : Within 256 wz) (s : State) (e : Ev) (site : Nat) (owner : Nat) (st : Nat) (f8 : Nat) (line : Nat) (extra : Nat) (hm : Keeps wz s₀ s) : Keeps wz s₀ (State.logSite s e site owner st f8 line extra) := by
  unfold State.logSite
  repeat' first
    | (with_reducible refine Within.sub hW ?_; decide)
    | with_reducible assumption
    | with_reducible apply State.log_keeps

theorem State.unitReset_keeps (hW : Within 87358653698 wz) (s : State) (site : Nat) (hm : Keeps wz s₀ s) : Keeps wz s₀ (State.unitReset s site) := by
  unfold State.unitReset
  repeat' first
    | (with_reducible refine Within.sub hW ?_; decide)
    | with_reducible assumption
    | with_reducible apply State.modUnit_keeps
    | with_reducible apply State.faultCtx_keeps
    | with_reducible apply State.logSite_keeps
    | (extract_lets +onlyGivenNames x
       first
         | (with_reducible refine mem_cut (p := Keeps wz s₀ x) ?_ ?_ <;> [subst x; (clear_value x; intro _)])
         | (with_reducible refine mem_cut (p := Keeps wz s₀ x.2) ?_ ?_ <;> [subst x; (clear_value x; intro _)])
         | (have hx := fun y => x y; clear hx; subst x; try dsimp -zeta only)
         | clear_value x
         | subst x)
    | split

theorem State.fieldReset_keeps (hW : Within 87358657858 wz) (s : State) (f : Nat) (fn : Nat) (cause : Nat) (hm : Keeps wz s₀ s) : Keeps wz s₀ (State.fieldReset s f fn cause) := by
  unfold State.fieldReset
  repeat' first
    | (with_reducible refine Within.sub hW ?_; decide)
    | with_reducible assumption
    | (with_reducible apply foldl_keeps; intros; try dsimp -zeta only)
    | with_reducible apply State.modField_keeps
    | with_reducible apply State.log_keeps
    | with_reducible apply State.faultCtx_keeps
    | with_reducible apply State.setVid_keeps
    | with_reducible apply State.unalign_keeps
    | (extract_lets +onlyGivenNames x
       first
         | (with_reducible refine mem_cut (p := Keeps wz s₀ x) ?_ ?_ <;> [subst x; (clear_value x; intro _)])
         | (with_reducible refine mem_cut (p := Keeps wz s₀ x.2) ?_ ?_ <;> [subst x; (clear_value x; intro _)])
         | (have hx := fun y => x y; clear hx; subst x; try dsimp -zeta only)
         | clear_value x
         | subst x)
    | split
    | (try dsimp -zeta only
       with_reducible refine Keeps.mk' (V := 87358657858) rfl (hW.sub (by decide)) ?_ ?_ id ?_
       · (repeat' apply And.intro) <;> first | exact fun _ => rfl | exact fun h => zone_in h
       · first | exact id | exact fun _ => rfl)

theorem State.dieReset_keeps (hW : Within 4380866641904 wz) (s : State) (cause : Nat) (hbmKept : Bool) (hm : Keeps wz s₀ s) : Keeps wz s₀ (State.dieReset s cause hbmKept) := by
  unfold State.dieReset
  repeat' first
    | (with_reducible refine Within.sub hW ?_; decide)
    | with_reducible assumption
    | (with_reducible apply foldl_keeps; intros; try dsimp -zeta only)
    | with_reducible apply State.resetSource_keeps
    | with_reducible apply State.queueSpore_keeps
    | with_reducible apply State.resetHolder_keeps
    | (extract_lets +onlyGivenNames x
       first
         | (with_reducible refine mem_cut (p := Keeps wz s₀ x) ?_ ?_ <;> [subst x; (clear_value x; intro _)])
         | (with_reducible refine mem_cut (p := Keeps wz s₀ x.2) ?_ ?_ <;> [subst x; (clear_value x; intro _)])
         | (have hx := fun y => x y; clear hx; subst x; try dsimp -zeta only)
         | clear_value x
         | subst x)
    | split
    | (try dsimp -zeta only
       with_reducible refine Keeps.mk' (V := 4380866641904) rfl (hW.sub (by decide)) ?_ ?_ id ?_
       · (repeat' apply And.intro) <;> first | exact fun _ => rfl | exact fun h => zone_in h
       · first | exact id | exact fun _ => rfl)

theorem State.startUp_keeps (hW : Within 549755813968 wz) (s : State) (hm : Keeps wz s₀ s) : Keeps wz s₀ (State.startUp s) := by
  unfold State.startUp
  repeat' first
    | (with_reducible refine Within.sub hW ?_; decide)
    | with_reducible assumption
    | with_reducible apply State.modEp_keeps
    | (extract_lets +onlyGivenNames x
       first
         | (with_reducible refine mem_cut (p := Keeps wz s₀ x) ?_ ?_ <;> [subst x; (clear_value x; intro _)])
         | (with_reducible refine mem_cut (p := Keeps wz s₀ x.2) ?_ ?_ <;> [subst x; (clear_value x; intro _)])
         | (have hx := fun y => x y; clear hx; subst x; try dsimp -zeta only)
         | clear_value x
         | subst x)
    | split
    | (try dsimp -zeta only
       with_reducible refine Keeps.mk' (V := 549755813968) rfl (hW.sub (by decide)) ?_ ?_ id ?_
       · (repeat' apply And.intro) <;> first | exact fun _ => rfl | exact fun h => zone_in h
       · first | exact id | exact fun _ => rfl)

theorem State.warmReset_keeps (hW : Within 4380866641904 wz) (s : State) (cause : Nat) (hbmKept : Bool) (hm : Keeps wz s₀ s) : Keeps wz s₀ (State.warmReset s cause hbmKept) := by
  unfold State.warmReset
  repeat' first
    | (with_reducible refine Within.sub hW ?_; decide)
    | with_reducible assumption
    | with_reducible apply State.dieReset_keeps
    | with_reducible apply State.startUp_keeps

theorem State.holdReset_keeps (hW : Within 4380866641904 wz) (s : State) (cause : Nat) (hbmKept : Bool) (ph : Phase) (hm : Keeps wz s₀ s) : Keeps wz s₀ (State.holdReset s cause hbmKept ph) := by
  unfold State.holdReset
  repeat' first
    | (with_reducible refine Within.sub hW ?_; decide)
    | with_reducible assumption
    | with_reducible apply State.dieReset_keeps
    | (extract_lets +onlyGivenNames x
       first
         | (with_reducible refine mem_cut (p := Keeps wz s₀ x) ?_ ?_ <;> [subst x; (clear_value x; intro _)])
         | (with_reducible refine mem_cut (p := Keeps wz s₀ x.2) ?_ ?_ <;> [subst x; (clear_value x; intro _)])
         | (have hx := fun y => x y; clear hx; subst x; try dsimp -zeta only)
         | clear_value x
         | subst x)
    | (try dsimp -zeta only
       with_reducible refine Keeps.mk' (V := 4380866641904) rfl (hW.sub (by decide)) ?_ ?_ id ?_
       · (repeat' apply And.intro) <;> first | exact fun _ => rfl | exact fun h => zone_in h
       · first | exact id | exact fun _ => rfl)

theorem vidSettle_keeps (hW : Within 68719546688 wz) (s : State) (hm : Keeps wz s₀ s) : Keeps wz s₀ (vidSettle s) := by
  unfold vidSettle
  repeat' first
    | (with_reducible refine Within.sub hW ?_; decide)
    | with_reducible assumption
    | (with_reducible apply foldl_keeps; intros; try dsimp -zeta only)
    | with_reducible apply State.markClkChg_keeps
    | with_reducible apply State.dvfsEnd_keeps
    | (extract_lets +onlyGivenNames x
       first
         | (with_reducible refine mem_cut (p := Keeps wz s₀ x) ?_ ?_ <;> [subst x; (clear_value x; intro _)])
         | (with_reducible refine mem_cut (p := Keeps wz s₀ x.2) ?_ ?_ <;> [subst x; (clear_value x; intro _)])
         | (have hx := fun y => x y; clear hx; subst x; try dsimp -zeta only)
         | clear_value x
         | subst x)
    | split
    | (try dsimp -zeta only
       with_reducible refine Keeps.mk' (V := 68719546688) rfl (hW.sub (by decide)) ?_ ?_ id ?_
       · (repeat' apply And.intro) <;> first | exact fun _ => rfl | exact fun h => zone_in h
       · first | exact id | exact fun _ => rfl)

theorem execVidSettled_keeps (hW : Within 68719546688 wz) (s : State) (hm : Keeps wz s₀ s) : ∀ z, execVidSettled s = .next z → Keeps wz s₀ z := by
  intro z ht
  unfold execVidSettled at ht
  injection ht with ht
  subst ht
  repeat' first
    | (with_reducible refine Within.sub hW ?_; decide)
    | with_reducible assumption
    | with_reducible apply vidSettle_keeps

theorem slewDone_keeps (hW : Within 68719546688 wz) (f : Nat) (s : State) (hm : Keeps wz s₀ s) : Keeps wz s₀ (slewDone f s) := by
  unfold slewDone
  repeat' first
    | (with_reducible refine Within.sub hW ?_; decide)
    | with_reducible assumption
    | with_reducible apply State.setField_keeps
    | with_reducible apply State.modField_keeps
    | with_reducible apply State.setVid_keeps
    | with_reducible apply State.markClkChg_keeps
    | with_reducible apply State.dvfsEnd_keeps
    | (extract_lets +onlyGivenNames x
       first
         | (with_reducible refine mem_cut (p := Keeps wz s₀ x) ?_ ?_ <;> [subst x; (clear_value x; intro _)])
         | (with_reducible refine mem_cut (p := Keeps wz s₀ x.2) ?_ ?_ <;> [subst x; (clear_value x; intro _)])
         | (have hx := fun y => x y; clear hx; subst x; try dsimp -zeta only)
         | clear_value x
         | subst x)
    | split

theorem execDvfsSlewDone_keeps (hW : Within 68719546688 wz) (f : Fin 4) (s : State) (hm : Keeps wz s₀ s) : ∀ z, execDvfsSlewDone f s = .next z → Keeps wz s₀ z := by
  intro z ht
  unfold execDvfsSlewDone at ht
  injection ht with ht
  subst ht
  repeat' first
    | (with_reducible refine Within.sub hW ?_; decide)
    | with_reducible assumption
    | with_reducible apply slewDone_keeps

theorem execPwarn_keeps (hW : Within 68719559488 wz) (mv : B16) (s : State) (hm : Keeps wz s₀ s) : ∀ z, execPwarn mv s = .next z → Keeps wz s₀ z := by
  intro z ht
  unfold execPwarn at ht
  injection ht with ht
  subst ht
  repeat' first
    | (with_reducible refine Within.sub hW ?_; decide)
    | with_reducible assumption
    | with_reducible apply State.warning_keeps
    | split
    | (try dsimp -zeta only
       with_reducible refine Keeps.mk' (V := 68719559488) rfl (hW.sub (by decide)) ?_ ?_ id ?_
       · (repeat' apply And.intro) <;> first | exact fun _ => rfl | exact fun h => zone_in h
       · first | exact id | exact fun _ => rfl)

theorem execVddArrWarning_keeps (hW : Within 68719559488 wz) (f : Fin 4) (mv : B16) (s : State) (hm : Keeps wz s₀ s) : ∀ z, execVddArrWarning f mv s = .next z → Keeps wz s₀ z := by
  intro z ht
  unfold execVddArrWarning at ht
  injection ht with ht
  subst ht
  repeat' first
    | (with_reducible refine Within.sub hW ?_; decide)
    | with_reducible assumption
    | with_reducible apply State.warning_keeps
    | split

theorem execVrFault_keeps (hW : Within 68719559488 wz) (mv : B16) (s : State) (hm : Keeps wz s₀ s) : ∀ z, execVrFault mv s = .next z → Keeps wz s₀ z := by
  intro z ht
  unfold execVrFault at ht
  injection ht with ht
  subst ht
  repeat' first
    | (with_reducible refine Within.sub hW ?_; decide)
    | with_reducible assumption
    | with_reducible apply State.log_keeps
    | with_reducible apply State.warning_keeps
    | split
    | (try dsimp -zeta only
       with_reducible refine Keeps.mk' (V := 68719559488) rfl (hW.sub (by decide)) ?_ ?_ id ?_
       · (repeat' apply And.intro) <;> first | exact fun _ => rfl | exact fun h => zone_in h
       · first | exact id | exact fun _ => rfl)

theorem execDiapauseExit_keeps (hW : Within 68719558976 wz) (s : State) (hm : Keeps wz s₀ s) : ∀ z, execDiapauseExit s = .next z → Keeps wz s₀ z := by
  intro z ht
  unfold execDiapauseExit at ht
  injection ht with ht
  subst ht
  repeat' first
    | (with_reducible refine Within.sub hW ?_; decide)
    | with_reducible assumption
    | (with_reducible apply foldl_keeps; intros; try dsimp -zeta only)
    | with_reducible apply State.log_keeps
    | with_reducible apply State.unalign_keeps
    | (extract_lets +onlyGivenNames x
       first
         | (with_reducible refine mem_cut (p := Keeps wz s₀ x) ?_ ?_ <;> [subst x; (clear_value x; intro _)])
         | (with_reducible refine mem_cut (p := Keeps wz s₀ x.2) ?_ ?_ <;> [subst x; (clear_value x; intro _)])
         | (have hx := fun y => x y; clear hx; subst x; try dsimp -zeta only)
         | clear_value x
         | subst x)
    | split
    | (try dsimp -zeta only
       with_reducible refine Keeps.mk' (V := 68719558976) rfl (hW.sub (by decide)) ?_ ?_ id ?_
       · (repeat' apply And.intro) <;> first | exact fun _ => rfl | exact fun h => zone_in h
       · first | exact id | exact fun _ => rfl)

theorem execBor_keeps (hW : Within 4380866641904 wz) (rail : Fin 3) (s : State) (hm : Keeps wz s₀ s) : ∀ z, execBor rail s = .next z → Keeps wz s₀ z := by
  intro z ht
  unfold execBor at ht
  injection ht with ht
  subst ht
  repeat' first
    | (with_reducible refine Within.sub hW ?_; decide)
    | with_reducible assumption
    | with_reducible apply State.holdReset_keeps
    | split

theorem execBorRelease_keeps (hW : Within 549755813968 wz) (s : State) (hm : Keeps wz s₀ s) : ∀ z, execBorRelease s = .next z → Keeps wz s₀ z := by
  intro z ht
  unfold execBorRelease at ht
  injection ht with ht
  subst ht
  repeat' first
    | (with_reducible refine Within.sub hW ?_; decide)
    | with_reducible assumption
    | with_reducible apply State.startUp_keeps
    | split
    | (try dsimp -zeta only
       with_reducible refine Keeps.mk' (V := 549755813968) rfl (hW.sub (by decide)) ?_ ?_ id ?_
       · (repeat' apply And.intro) <;> first | exact fun _ => rfl | exact fun h => zone_in h
       · first | exact id | exact fun _ => rfl)

theorem execPor_keeps (hW : Within 4380866641904 wz) (pin : Bool) (s : State) (hm : Keeps wz s₀ s) : ∀ z, execPor pin s = .next z → Keeps wz s₀ z := by
  intro z ht
  unfold execPor at ht
  injection ht with ht
  subst ht
  exact Keeps.mk' (V := 4380866641904) rfl hW (by (repeat' apply And.intro) <;> first | exact fun _ => rfl | exact fun h => zone_in h) (fun _ => rfl) id hm

theorem execPorRelease_keeps (hW : Within 549755814224 wz) (bootSrc : BitVec 2) (s : State) (hm : Keeps wz s₀ s) : ∀ z, execPorRelease bootSrc s = .next z → Keeps wz s₀ z := by
  intro z ht
  unfold execPorRelease at ht
  injection ht with ht
  subst ht
  repeat' first
    | (with_reducible refine Within.sub hW ?_; decide)
    | with_reducible assumption
    | with_reducible apply State.log_keeps
    | with_reducible apply State.startUp_keeps
    | (extract_lets +onlyGivenNames x
       first
         | (with_reducible refine mem_cut (p := Keeps wz s₀ x) ?_ ?_ <;> [subst x; (clear_value x; intro _)])
         | (with_reducible refine mem_cut (p := Keeps wz s₀ x.2) ?_ ?_ <;> [subst x; (clear_value x; intro _)])
         | (have hx := fun y => x y; clear hx; subst x; try dsimp -zeta only)
         | clear_value x
         | subst x)
    | split
    | (try dsimp -zeta only
       with_reducible refine Keeps.mk' (V := 549755814224) rfl (hW.sub (by decide)) ?_ ?_ id ?_
       · (repeat' apply And.intro) <;> first | exact fun _ => rfl | exact fun h => zone_in h
       · first | exact id | exact fun _ => rfl)

theorem fwAccepted_keeps (hW : Within 4294971408 wz) (s : State) (b : Bytes) (hm : Keeps wz s₀ s) : Keeps wz s₀ (fwAccepted s b) := by
  unfold fwAccepted
  repeat' first
    | (with_reducible refine Within.sub hW ?_; decide)
    | with_reducible assumption
    | (with_reducible apply foldl_keeps; intros; try dsimp -zeta only)
    | with_reducible apply State.setField_keeps
    | (extract_lets +onlyGivenNames x
       first
         | (with_reducible refine mem_cut (p := Keeps wz s₀ x) ?_ ?_ <;> [subst x; (clear_value x; intro _)])
         | (with_reducible refine mem_cut (p := Keeps wz s₀ x.2) ?_ ?_ <;> [subst x; (clear_value x; intro _)])
         | (have hx := fun y => x y; clear hx; subst x; try dsimp -zeta only)
         | clear_value x
         | subst x)
    | split
    | (try dsimp -zeta only
       with_reducible refine Keeps.mk' (V := 4294971408) rfl (hW.sub (by decide)) ?_ ?_ id ?_
       · (repeat' apply And.intro) <;> first | exact fun _ => rfl | exact fun h => zone_in h
       · first | exact id | exact fun _ => rfl)

theorem execQspiBootRead_keeps (hW : Within 4294971664 wz) (copy : Fin 2) (image : Option Bytes) (s : State) (hm : Keeps wz s₀ s) : ∀ z, execQspiBootRead copy image s = .next z → Keeps wz s₀ z := by
  intro z ht
  unfold execQspiBootRead at ht
  injection ht with ht
  subst ht
  repeat' first
    | (with_reducible refine Within.sub hW ?_; decide)
    | with_reducible assumption
    | with_reducible apply State.log_keeps
    | with_reducible apply fwAccepted_keeps
    | (extract_lets +onlyGivenNames x
       first
         | (with_reducible refine mem_cut (p := Keeps wz s₀ x) ?_ ?_ <;> [subst x; (clear_value x; intro _)])
         | (with_reducible refine mem_cut (p := Keeps wz s₀ x.2) ?_ ?_ <;> [subst x; (clear_value x; intro _)])
         | (have hx := fun y => x y; clear hx; subst x; try dsimp -zeta only)
         | clear_value x
         | subst x)
    | split
    | (try dsimp -zeta only
       with_reducible refine Keeps.mk' (V := 4294971664) rfl (hW.sub (by decide)) ?_ ?_ id ?_
       · (repeat' apply And.intro) <;> first | exact fun _ => rfl | exact fun h => zone_in h
       · first | exact id | exact fun _ => rfl)

theorem execBootGo_keeps (hW : Within 16 wz) (s : State) (hm : Keeps wz s₀ s) : ∀ z, execBootGo s = .next z → Keeps wz s₀ z := by
  intro z ht
  unfold execBootGo at ht
  injection ht with ht
  subst ht
  repeat' first
    | (with_reducible refine Within.sub hW ?_; decide)
    | with_reducible assumption
    | split
    | (try dsimp -zeta only
       with_reducible refine Keeps.mk' (V := 16) rfl (hW.sub (by decide)) ?_ ?_ id ?_
       · (repeat' apply And.intro) <;> first | exact fun _ => rfl | exact fun h => zone_in h
       · first | exact id | exact fun _ => rfl)

theorem execHostBootRead_keeps (hW : Within 4294971664 wz) (image : Option Bytes) (s : State) (hm : Keeps wz s₀ s) : ∀ z, execHostBootRead image s = .next z → Keeps wz s₀ z := by
  intro z ht
  unfold execHostBootRead at ht
  injection ht with ht
  subst ht
  repeat' first
    | (with_reducible refine Within.sub hW ?_; decide)
    | with_reducible assumption
    | with_reducible apply State.log_keeps
    | with_reducible apply fwAccepted_keeps
    | (extract_lets +onlyGivenNames x
       first
         | (with_reducible refine mem_cut (p := Keeps wz s₀ x) ?_ ?_ <;> [subst x; (clear_value x; intro _)])
         | (with_reducible refine mem_cut (p := Keeps wz s₀ x.2) ?_ ?_ <;> [subst x; (clear_value x; intro _)])
         | (have hx := fun y => x y; clear hx; subst x; try dsimp -zeta only)
         | clear_value x
         | subst x)
    | split
    | (try dsimp -zeta only
       with_reducible refine Keeps.mk' (V := 4294971664) rfl (hW.sub (by decide)) ?_ ?_ id ?_
       · (repeat' apply And.intro) <;> first | exact fun _ => rfl | exact fun h => zone_in h
       · first | exact id | exact fun _ => rfl)

theorem execHbmTrainingDone_keeps (hW : Within 4294967568 wz) (k : Fin 4) (ok : Bool) (s : State) (hm : Keeps wz s₀ s) : ∀ z, execHbmTrainingDone k ok s = .next z → Keeps wz s₀ z := by
  intro z ht
  unfold execHbmTrainingDone at ht
  injection ht with ht
  subst ht
  repeat' first
    | (with_reducible refine Within.sub hW ?_; decide)
    | with_reducible assumption
    | with_reducible apply State.modStackOf_keeps
    | with_reducible apply State.log_keeps
    | (extract_lets +onlyGivenNames x
       first
         | (with_reducible refine mem_cut (p := Keeps wz s₀ x) ?_ ?_ <;> [subst x; (clear_value x; intro _)])
         | (with_reducible refine mem_cut (p := Keeps wz s₀ x.2) ?_ ?_ <;> [subst x; (clear_value x; intro _)])
         | (have hx := fun y => x y; clear hx; subst x; try dsimp -zeta only)
         | clear_value x
         | subst x)
    | split
    | (try dsimp -zeta only
       with_reducible refine Keeps.mk' (V := 4294967568) rfl (hW.sub (by decide)) ?_ ?_ id ?_
       · (repeat' apply And.intro) <;> first | exact fun _ => rfl | exact fun h => zone_in h
       · first | exact id | exact fun _ => rfl)

theorem execStartupComplete_keeps (hW : Within 272 wz) (s : State) (hm : Keeps wz s₀ s) : ∀ z, execStartupComplete s = .next z → Keeps wz s₀ z := by
  intro z ht
  unfold execStartupComplete at ht
  injection ht with ht
  subst ht
  repeat' first
    | (with_reducible refine Within.sub hW ?_; decide)
    | with_reducible assumption
    | with_reducible apply State.log_keeps
    | split
    | (try dsimp -zeta only
       with_reducible refine Keeps.mk' (V := 272) rfl (hW.sub (by decide)) ?_ ?_ id ?_
       · (repeat' apply And.intro) <;> first | exact fun _ => rfl | exact fun h => zone_in h
       · first | exact id | exact fun _ => rfl)

theorem tempReading_keeps (hW : Within 4380866641904 wz) (t : B16) (s : State) (hm : Keeps wz s₀ s) : Keeps wz s₀ (tempReading t s) := by
  unfold tempReading
  repeat' first
    | (with_reducible refine Within.sub hW ?_; decide)
    | with_reducible assumption
    | with_reducible apply State.log_keeps
    | with_reducible apply State.retargetAll_keeps
    | with_reducible apply State.logCap_keeps
    | with_reducible apply State.holdReset_keeps
    | (extract_lets +onlyGivenNames x
       first
         | (with_reducible refine mem_cut (p := Keeps wz s₀ x) ?_ ?_ <;> [subst x; (clear_value x; intro _)])
         | (with_reducible refine mem_cut (p := Keeps wz s₀ x.2) ?_ ?_ <;> [subst x; (clear_value x; intro _)])
         | (have hx := fun y => x y; clear hx; subst x; try dsimp -zeta only)
         | clear_value x
         | subst x)
    | split
    | (try dsimp -zeta only
       with_reducible refine Keeps.mk' (V := 4380866641904) rfl (hW.sub (by decide)) ?_ ?_ id ?_
       · (repeat' apply And.intro) <;> first | exact fun _ => rfl | exact fun h => zone_in h
       · first | exact id | exact fun _ => rfl)

theorem execTempReading_keeps (hW : Within 4380866641904 wz) (t : B16) (s : State) (hm : Keeps wz s₀ s) : ∀ z, execTempReading t s = .next z → Keeps wz s₀ z := by
  intro z ht
  unfold execTempReading at ht
  injection ht with ht
  subst ht
  repeat' first
    | (with_reducible refine Within.sub hW ?_; decide)
    | with_reducible assumption
    | with_reducible apply tempReading_keeps
    | split

theorem execThermalClear_keeps (hW : Within 68719546688 wz) (s : State) (hm : Keeps wz s₀ s) : ∀ z, execThermalClear s = .next z → Keeps wz s₀ z := by
  intro z ht
  unfold execThermalClear at ht
  injection ht with ht
  subst ht
  repeat' first
    | (with_reducible refine Within.sub hW ?_; decide)
    | with_reducible assumption
    | with_reducible apply State.log_keeps
    | with_reducible apply State.retargetAll_keeps
    | with_reducible apply State.logCap_keeps
    | (extract_lets +onlyGivenNames x
       first
         | (with_reducible refine mem_cut (p := Keeps wz s₀ x) ?_ ?_ <;> [subst x; (clear_value x; intro _)])
         | (with_reducible refine mem_cut (p := Keeps wz s₀ x.2) ?_ ?_ <;> [subst x; (clear_value x; intro _)])
         | (have hx := fun y => x y; clear hx; subst x; try dsimp -zeta only)
         | clear_value x
         | subst x)
    | split
    | (try dsimp -zeta only
       with_reducible refine Keeps.mk' (V := 68719546688) rfl (hW.sub (by decide)) ?_ ?_ id ?_
       · (repeat' apply And.intro) <;> first | exact fun _ => rfl | exact fun h => zone_in h
       · first | exact id | exact fun _ => rfl)

theorem execThermalRecovery_keeps (hW : Within 4380866641904 wz) (s : State) (hm : Keeps wz s₀ s) : ∀ z, execThermalRecovery s = .next z → Keeps wz s₀ z := by
  intro z ht
  unfold execThermalRecovery at ht
  injection ht with ht
  subst ht
  repeat' first
    | (with_reducible refine Within.sub hW ?_; decide)
    | with_reducible assumption
    | with_reducible apply State.warmReset_keeps
    | (extract_lets +onlyGivenNames x
       first
         | (with_reducible refine mem_cut (p := Keeps wz s₀ x) ?_ ?_ <;> [subst x; (clear_value x; intro _)])
         | (with_reducible refine mem_cut (p := Keeps wz s₀ x.2) ?_ ?_ <;> [subst x; (clear_value x; intro _)])
         | (have hx := fun y => x y; clear hx; subst x; try dsimp -zeta only)
         | clear_value x
         | subst x)
    | split
    | (try dsimp -zeta only
       with_reducible refine Keeps.mk' (V := 4380866641904) rfl (hW.sub (by decide)) ?_ ?_ id ?_
       · (repeat' apply And.intro) <;> first | exact fun _ => rfl | exact fun h => zone_in h
       · first | exact id | exact fun _ => rfl)

theorem execWarmReset_keeps (hW : Within 4380866641904 wz) (s : State) (hm : Keeps wz s₀ s) : ∀ z, execWarmReset s = .next z → Keeps wz s₀ z := by
  intro z ht
  unfold execWarmReset at ht
  injection ht with ht
  subst ht
  repeat' first
    | (with_reducible refine Within.sub hW ?_; decide)
    | with_reducible assumption
    | with_reducible apply State.warmReset_keeps
    | split

theorem State.failFirmware_keeps (hW : Within 69860345216 wz) (s : State) (hm : Keeps wz s₀ s) : Keeps wz s₀ (State.failFirmware s) := by
  unfold State.failFirmware
  repeat' first
    | (with_reducible refine Within.sub hW ?_; decide)
    | with_reducible assumption
    | (with_reducible apply foldl_keeps; intros; try dsimp -zeta only)
    | with_reducible apply State.finish_keeps
    | (extract_lets +onlyGivenNames x
       first
         | (with_reducible refine mem_cut (p := Keeps wz s₀ x) ?_ ?_ <;> [subst x; (clear_value x; intro _)])
         | (with_reducible refine mem_cut (p := Keeps wz s₀ x.2) ?_ ?_ <;> [subst x; (clear_value x; intro _)])
         | (have hx := fun y => x y; clear hx; subst x; try dsimp -zeta only)
         | clear_value x
         | subst x)
    | split
    | (try dsimp -zeta only
       with_reducible refine Keeps.mk' (V := 69860345216) rfl (hW.sub (by decide)) ?_ ?_ id ?_
       · (repeat' apply And.intro) <;> first | exact fun _ => rfl | exact fun h => zone_in h
       · first | exact id | exact fun _ => rfl)

theorem State.resetMcLocks_keeps (hW : Within 68920854272 wz) (s : State) (hm : Keeps wz s₀ s) : Keeps wz s₀ (State.resetMcLocks s) := by
  unfold State.resetMcLocks
  repeat' first
    | (with_reducible refine Within.sub hW ?_; decide)
    | with_reducible assumption
    | with_reducible apply State.resetHolder_keeps
    | (extract_lets +onlyGivenNames x
       first
         | (with_reducible refine mem_cut (p := Keeps wz s₀ x) ?_ ?_ <;> [subst x; (clear_value x; intro _)])
         | (with_reducible refine mem_cut (p := Keeps wz s₀ x.2) ?_ ?_ <;> [subst x; (clear_value x; intro _)])
         | (have hx := fun y => x y; clear hx; subst x; try dsimp -zeta only)
         | clear_value x
         | subst x)
    | split
    | (try dsimp -zeta only
       with_reducible refine Keeps.mk' (V := 68920854272) rfl (hW.sub (by decide)) ?_ ?_ id ?_
       · (repeat' apply And.intro) <;> first | exact fun _ => rfl | exact fun h => zone_in h
       · first | exact id | exact fun _ => rfl)

theorem execMcRestart_keeps (hW : Within 4380866641904 wz) (firmwareFault : Bool) (verified : Bool) (s : State) (hm : Keeps wz s₀ s) : ∀ z, execMcRestart firmwareFault verified s = .next z → Keeps wz s₀ z := by
  intro z ht
  unfold execMcRestart at ht
  injection ht with ht
  subst ht
  repeat' first
    | (with_reducible refine Within.sub hW ?_; decide)
    | with_reducible assumption
    | with_reducible apply State.log_keeps
    | with_reducible apply State.warmReset_keeps
    | with_reducible apply State.failFirmware_keeps
    | with_reducible apply State.resetMcLocks_keeps
    | (extract_lets +onlyGivenNames x
       first
         | (with_reducible refine mem_cut (p := Keeps wz s₀ x) ?_ ?_ <;> [subst x; (clear_value x; intro _)])
         | (with_reducible refine mem_cut (p := Keeps wz s₀ x.2) ?_ ?_ <;> [subst x; (clear_value x; intro _)])
         | (have hx := fun y => x y; clear hx; subst x; try dsimp -zeta only)
         | clear_value x
         | subst x)
    | split

theorem State.flrFn_keeps (hW : Within 88029742850 wz) (s : State) (f : Nat) (hm : Keeps wz s₀ s) : Keeps wz s₀ (State.flrFn s f) := by
  unfold State.flrFn
  repeat' first
    | (with_reducible refine Within.sub hW ?_; decide)
    | with_reducible assumption
    | (with_reducible apply foldl_keeps; intros; try dsimp -zeta only)
    | with_reducible apply State.modFn_keeps
    | with_reducible apply State.modPool_keeps
    | with_reducible apply State.setCtx_keeps
    | with_reducible apply State.finish_keeps
    | with_reducible apply State.modRunning_keeps
    | with_reducible apply State.flushPool_keeps
    | with_reducible apply State.clearContext_keeps
    | with_reducible apply State.resetHolder_keeps
    | (extract_lets +onlyGivenNames x
       first
         | (with_reducible refine mem_cut (p := Keeps wz s₀ x) ?_ ?_ <;> [subst x; (clear_value x; intro _)])
         | (with_reducible refine mem_cut (p := Keeps wz s₀ x.2) ?_ ?_ <;> [subst x; (clear_value x; intro _)])
         | (have hx := fun y => x y; clear hx; subst x; try dsimp -zeta only)
         | clear_value x
         | subst x)
    | split
    | (try dsimp -zeta only
       with_reducible refine Keeps.mk' (V := 88029742850) rfl (hW.sub (by decide)) ?_ ?_ id ?_
       · (repeat' apply And.intro) <;> first | exact fun _ => rfl | exact fun h => zone_in h
       · first | exact id | exact fun _ => rfl)

theorem State.flr_keeps (hW : Within 88029742850 wz) (s : State) (f : Nat) (hm : Keeps wz s₀ s) : Keeps wz s₀ (State.flr s f) := by
  unfold State.flr
  repeat' first
    | (with_reducible refine Within.sub hW ?_; decide)
    | with_reducible assumption
    | (with_reducible apply foldl_keeps; intros; try dsimp -zeta only)
    | with_reducible apply State.flrFn_keeps

theorem execFlr_keeps (hW : Within 88029742850 wz) (f : FnId) (s : State) (hm : Keeps wz s₀ s) : ∀ z, execFlr f s = .next z → Keeps wz s₀ z := by
  intro z ht
  unfold execFlr at ht
  injection ht with ht
  subst ht
  repeat' first
    | (with_reducible refine Within.sub hW ?_; decide)
    | with_reducible assumption
    | with_reducible apply State.flr_keeps
    | split

theorem State.resetEpB_keeps (hW : Within 88029742850 wz) (s : State) (hm : Keeps wz s₀ s) : Keeps wz s₀ (State.resetEpB s) := by
  unfold State.resetEpB
  repeat' first
    | (with_reducible refine Within.sub hW ?_; decide)
    | with_reducible assumption
    | (with_reducible apply foldl_keeps; intros; try dsimp -zeta only)
    | with_reducible apply State.flrFn_keeps

end Sys2Proof.Machine
end

