-- ==== Sys2Proof/Laws/Keeps03.lean ====
section
/-! SUPPORT. What the definitions from execPcieAPerst to execHeadIbi may write: `Keeps wz s t` says that only the
parts of `wz` differ and that memories stay canonical. -/
set_option linter.unusedTactic false
set_option linter.unreachableTactic false
set_option linter.unusedVariables false
namespace Sys2Proof.Machine
variable {wz : Nat} {s₀ : State}
theorem execPcieAPerst_keeps (hW : Within 4380866641904 wz) (s : State) (hm : Keeps wz s₀ s) : ∀ z, execPcieAPerst s = .next z → Keeps wz s₀ z := by
  intro z ht
  unfold execPcieAPerst at ht
  injection ht with ht
  subst ht
  repeat' first
    | (with_reducible refine Within.sub hW ?_; decide)
    | with_reducible assumption
    | with_reducible apply State.modEp_keeps
    | with_reducible apply State.warmReset_keeps
    | (extract_lets +onlyGivenNames x
       first
         | (with_reducible refine mem_cut (p := Keeps wz s₀ x) ?_ ?_ <;> [subst x; (clear_value x; intro _)])
         | (with_reducible refine mem_cut (p := Keeps wz s₀ x.2) ?_ ?_ <;> [subst x; (clear_value x; intro _)])
         | (have hx := fun y => x y; clear hx; subst x; try dsimp -zeta only)
         | clear_value x
         | subst x)
    | split

theorem execPcieBPerst_keeps (hW : Within 637785556738 wz) (s : State) (hm : Keeps wz s₀ s) : ∀ z, execPcieBPerst s = .next z → Keeps wz s₀ z := by
  intro z ht
  unfold execPcieBPerst at ht
  injection ht with ht
  subst ht
  repeat' first
    | (with_reducible refine Within.sub hW ?_; decide)
    | with_reducible assumption
    | with_reducible apply State.modEp_keeps
    | with_reducible apply State.resetEpB_keeps
    | (extract_lets +onlyGivenNames x
       first
         | (with_reducible refine mem_cut (p := Keeps wz s₀ x) ?_ ?_ <;> [subst x; (clear_value x; intro _)])
         | (with_reducible refine mem_cut (p := Keeps wz s₀ x.2) ?_ ?_ <;> [subst x; (clear_value x; intro _)])
         | (have hx := fun y => x y; clear hx; subst x; try dsimp -zeta only)
         | clear_value x
         | subst x)
    | split

theorem execPcieLinkDown_keeps (hW : Within 637785556738 wz) (ep : Fin 2) (s : State) (hm : Keeps wz s₀ s) : ∀ z, execPcieLinkDown ep s = .next z → Keeps wz s₀ z := by
  intro z ht
  unfold execPcieLinkDown at ht
  injection ht with ht
  subst ht
  repeat' first
    | (with_reducible refine Within.sub hW ?_; decide)
    | with_reducible assumption
    | with_reducible apply State.modEp_keeps
    | with_reducible apply State.flr_keeps
    | with_reducible apply State.resetEpB_keeps
    | (extract_lets +onlyGivenNames x
       first
         | (with_reducible refine mem_cut (p := Keeps wz s₀ x) ?_ ?_ <;> [subst x; (clear_value x; intro _)])
         | (with_reducible refine mem_cut (p := Keeps wz s₀ x.2) ?_ ?_ <;> [subst x; (clear_value x; intro _)])
         | (have hx := fun y => x y; clear hx; subst x; try dsimp -zeta only)
         | clear_value x
         | subst x)
    | split

theorem execPcieLinkUp_keeps (hW : Within 549755813888 wz) (ep : Fin 2) (s : State) (hm : Keeps wz s₀ s) : ∀ z, execPcieLinkUp ep s = .next z → Keeps wz s₀ z := by
  intro z ht
  unfold execPcieLinkUp at ht
  injection ht with ht
  subst ht
  repeat' first
    | (with_reducible refine Within.sub hW ?_; decide)
    | with_reducible assumption
    | with_reducible apply State.modEp_keeps
    | (extract_lets +onlyGivenNames x
       first
         | (with_reducible refine mem_cut (p := Keeps wz s₀ x) ?_ ?_ <;> [subst x; (clear_value x; intro _)])
         | (with_reducible refine mem_cut (p := Keeps wz s₀ x.2) ?_ ?_ <;> [subst x; (clear_value x; intro _)])
         | (have hx := fun y => x y; clear hx; subst x; try dsimp -zeta only)
         | clear_value x
         | subst x)
    | split

theorem execPciePerstRelease_keeps (hW : Within 549755813888 wz) (s : State) (hm : Keeps wz s₀ s) : ∀ z, execPciePerstRelease s = .next z → Keeps wz s₀ z := by
  intro z ht
  unfold execPciePerstRelease at ht
  injection ht with ht
  subst ht
  repeat' first
    | (with_reducible refine Within.sub hW ?_; decide)
    | with_reducible assumption
    | with_reducible apply State.modEp_keeps

theorem kclkCycle_keeps (hW : Within 196 wz) (s : State) (hm : Keeps wz s₀ s) : Keeps wz s₀ (kclkCycle s) := by
  unfold kclkCycle
  repeat' first
    | (with_reducible refine Within.sub hW ?_; decide)
    | with_reducible assumption
    | (extract_lets +onlyGivenNames x
       first
         | (with_reducible refine mem_cut (p := Keeps wz s₀ x) ?_ ?_ <;> [subst x; (clear_value x; intro _)])
         | (with_reducible refine mem_cut (p := Keeps wz s₀ x.2) ?_ ?_ <;> [subst x; (clear_value x; intro _)])
         | (have hx := fun y => x y; clear hx; subst x; try dsimp -zeta only)
         | clear_value x
         | subst x)
    | split
    | (try dsimp -zeta only
       with_reducible refine Keeps.mk' (V := 196) rfl (hW.sub (by decide)) ?_ ?_ id ?_
       · (repeat' apply And.intro) <;> first | exact fun _ => rfl | exact fun h => zone_in h
       · first | exact id | exact fun _ => rfl)

theorem State.logCapture_keeps (hW : Within 256 wz) (s : State) (e : Ev) (arg1 : Nat) (hm : Keeps wz s₀ s) : Keeps wz s₀ (State.logCapture s e arg1) := by
  unfold State.logCapture
  repeat' first
    | (with_reducible refine Within.sub hW ?_; decide)
    | with_reducible assumption
    | with_reducible apply State.log_keeps

theorem State.capFire_keeps (hW : Within 2304 wz) (s : State) (hm : Keeps wz s₀ s) : Keeps wz s₀ (State.capFire s) := by
  unfold State.capFire
  repeat' first
    | (with_reducible refine Within.sub hW ?_; decide)
    | with_reducible assumption
    | with_reducible apply State.logCapture_keeps
    | split
    | (try dsimp -zeta only
       with_reducible refine Keeps.mk' (V := 2304) rfl (hW.sub (by decide)) ?_ ?_ id ?_
       · (repeat' apply And.intro) <;> first | exact fun _ => rfl | exact fun h => zone_in h
       · first | exact id | exact fun _ => rfl)

theorem State.capFrameStart_keeps (hW : Within 2304 wz) (s : State) (st : Nat) (fseq : B16) (hm : Keeps wz s₀ s) : Keeps wz s₀ (State.capFrameStart s st fseq) := by
  unfold State.capFrameStart
  repeat' first
    | (with_reducible refine Within.sub hW ?_; decide)
    | with_reducible assumption
    | with_reducible apply State.capFire_keeps
    | split

theorem State.capEvent_keeps (hW : Within 2304 wz) (s : State) (code : Nat) (hm : Keeps wz s₀ s) : Keeps wz s₀ (State.capEvent s code) := by
  unfold State.capEvent
  repeat' first
    | (with_reducible refine Within.sub hW ?_; decide)
    | with_reducible assumption
    | with_reducible apply State.capFire_keeps
    | split

theorem State.capEnd_keeps (hW : Within 2304 wz) (s : State) (hm : Keeps wz s₀ s) : Keeps wz s₀ (State.capEnd s) := by
  unfold State.capEnd
  repeat' first
    | (with_reducible refine Within.sub hW ?_; decide)
    | with_reducible assumption
    | with_reducible apply State.logCapture_keeps
    | (try dsimp -zeta only
       with_reducible refine Keeps.mk' (V := 2304) rfl (hW.sub (by decide)) ?_ ?_ id ?_
       · (repeat' apply And.intro) <;> first | exact fun _ => rfl | exact fun h => zone_in h
       · first | exact id | exact fun _ => rfl)

theorem State.capFrameEnd_keeps (hW : Within 2304 wz) (s : State) (st : Nat) (hm : Keeps wz s₀ s) : Keeps wz s₀ (State.capFrameEnd s st) := by
  unfold State.capFrameEnd
  repeat' first
    | (with_reducible refine Within.sub hW ?_; decide)
    | with_reducible assumption
    | with_reducible apply State.capEnd_keeps
    | (extract_lets +onlyGivenNames x
       first
         | (with_reducible refine mem_cut (p := Keeps wz s₀ x) ?_ ?_ <;> [subst x; (clear_value x; intro _)])
         | (with_reducible refine mem_cut (p := Keeps wz s₀ x.2) ?_ ?_ <;> [subst x; (clear_value x; intro _)])
         | (have hx := fun y => x y; clear hx; subst x; try dsimp -zeta only)
         | clear_value x
         | subst x)
    | split
    | (try dsimp -zeta only
       with_reducible refine Keeps.mk' (V := 2304) rfl (hW.sub (by decide)) ?_ ?_ id ?_
       · (repeat' apply And.intro) <;> first | exact fun _ => rfl | exact fun h => zone_in h
       · first | exact id | exact fun _ => rfl)

theorem State.touchEntry_keeps (hW : Within 33024 wz) (s : State) (h : Nat) (f : Pending → Pending) (hm : Keeps wz s₀ s) : Keeps wz s₀ (State.touchEntry s h f) := by
  unfold State.touchEntry
  repeat' first
    | (with_reducible refine Within.sub hW ?_; decide)
    | with_reducible assumption
    | with_reducible apply State.log_keeps
    | (extract_lets +onlyGivenNames x
       first
         | (with_reducible refine mem_cut (p := Keeps wz s₀ x) ?_ ?_ <;> [subst x; (clear_value x; intro _)])
         | (with_reducible refine mem_cut (p := Keeps wz s₀ x.2) ?_ ?_ <;> [subst x; (clear_value x; intro _)])
         | (have hx := fun y => x y; clear hx; subst x; try dsimp -zeta only)
         | clear_value x
         | subst x)
    | split
    | (try dsimp -zeta only
       with_reducible refine Keeps.mk' (V := 33024) rfl (hW.sub (by decide)) ?_ ?_ id ?_
       · (repeat' apply And.intro) <;> first | exact fun _ => rfl | exact fun h => zone_in h
       · first | exact id | exact fun _ => rfl)

theorem State.checkLife_keeps (hW : Within 16640 wz) (s : State) (h : Nat) (hm : Keeps wz s₀ s) : Keeps wz s₀ (State.checkLife s h) := by
  unfold State.checkLife
  repeat' first
    | (with_reducible refine Within.sub hW ?_; decide)
    | with_reducible assumption
    | with_reducible apply State.modHead_keeps
    | with_reducible apply State.log_keeps
    | (extract_lets +onlyGivenNames x
       first
         | (with_reducible refine mem_cut (p := Keeps wz s₀ x) ?_ ?_ <;> [subst x; (clear_value x; intro _)])
         | (with_reducible refine mem_cut (p := Keeps wz s₀ x.2) ?_ ?_ <;> [subst x; (clear_value x; intro _)])
         | (have hx := fun y => x y; clear hx; subst x; try dsimp -zeta only)
         | clear_value x
         | subst x)
    | split

theorem State.checkBudget_keeps (hW : Within 16640 wz) (s : State) (h : Nat) (hm : Keeps wz s₀ s) : Keeps wz s₀ (State.checkBudget s h) := by
  unfold State.checkBudget
  repeat' first
    | (with_reducible refine Within.sub hW ?_; decide)
    | with_reducible assumption
    | with_reducible apply State.modHead_keeps
    | with_reducible apply State.log_keeps
    | (extract_lets +onlyGivenNames x
       first
         | (with_reducible refine mem_cut (p := Keeps wz s₀ x) ?_ ?_ <;> [subst x; (clear_value x; intro _)])
         | (with_reducible refine mem_cut (p := Keeps wz s₀ x.2) ?_ ?_ <;> [subst x; (clear_value x; intro _)])
         | (have hx := fun y => x y; clear hx; subst x; try dsimp -zeta only)
         | clear_value x
         | subst x)
    | split

theorem State.startAttach_keeps (hW : Within 16384 wz) (s : State) (h : Nat) (k : Option Pkt) (hm : Keeps wz s₀ s) : Keeps wz s₀ (State.startAttach s h k) := by
  unfold State.startAttach
  repeat' first
    | (with_reducible refine Within.sub hW ?_; decide)
    | with_reducible assumption
    | with_reducible apply State.modHead_keeps

theorem State.attachDone_keeps (hW : Within 67126528 wz) (s : State) (h : Nat) (hm : Keeps wz s₀ s) : Keeps wz s₀ (State.attachDone s h) := by
  unfold State.attachDone
  repeat' first
    | (with_reducible refine Within.sub hW ?_; decide)
    | with_reducible assumption
    | with_reducible apply State.modHead_keeps
    | with_reducible apply State.log_keeps
    | with_reducible apply State.finish_keeps
    | (extract_lets +onlyGivenNames x
       first
         | (with_reducible refine mem_cut (p := Keeps wz s₀ x) ?_ ?_ <;> [subst x; (clear_value x; intro _)])
         | (with_reducible refine mem_cut (p := Keeps wz s₀ x.2) ?_ ?_ <;> [subst x; (clear_value x; intro _)])
         | (have hx := fun y => x y; clear hx; subst x; try dsimp -zeta only)
         | clear_value x
         | subst x)
    | split

theorem State.attachFault_keeps (hW : Within 67126528 wz) (s : State) (h : Nat) (cause : Nat) (hm : Keeps wz s₀ s) : Keeps wz s₀ (State.attachFault s h cause) := by
  unfold State.attachFault
  repeat' first
    | (with_reducible refine Within.sub hW ?_; decide)
    | with_reducible assumption
    | with_reducible apply State.modHead_keeps
    | with_reducible apply State.attachDone_keeps

theorem State.passportReport_keeps (hW : Within 17179870208 wz) (s : State) (h : Nat) (b : Bytes) (hm : Keeps wz s₀ s) : Keeps wz s₀ (State.passportReport s h b) := by
  unfold State.passportReport
  repeat' first
    | (with_reducible refine Within.sub hW ?_; decide)
    | with_reducible assumption
    | with_reducible apply State.hostWrite_keeps
    | (extract_lets +onlyGivenNames x
       first
         | (with_reducible refine mem_cut (p := Keeps wz s₀ x) ?_ ?_ <;> [subst x; (clear_value x; intro _)])
         | (with_reducible refine mem_cut (p := Keeps wz s₀ x.2) ?_ ?_ <;> [subst x; (clear_value x; intro _)])
         | (have hx := fun y => x y; clear hx; subst x; try dsimp -zeta only)
         | clear_value x
         | subst x)
    | split
    | (try dsimp -zeta only
       with_reducible refine Keeps.mk' (V := 17179870208) rfl (hW.sub (by decide)) ?_ ?_ id ?_
       · (repeat' apply And.intro) <;> first | exact fun _ => rfl | exact fun h => zone_in h
       · first | exact id | exact fun _ => rfl)

theorem State.startAuth_keeps (hW : Within 16386 wz) (s : State) (h : Nat) (again : Bool) (k : Option Pkt) (hm : Keeps wz s₀ s) : Keeps wz s₀ (State.startAuth s h again k) := by
  unfold State.startAuth
  repeat' first
    | (with_reducible refine Within.sub hW ?_; decide)
    | with_reducible assumption
    | with_reducible apply State.modHead_keeps
    | with_reducible apply State.draw_keeps
    | (extract_lets +onlyGivenNames x
       first
         | (with_reducible refine mem_cut (p := Keeps wz s₀ x) ?_ ?_ <;> [subst x; (clear_value x; intro _)])
         | (with_reducible refine mem_cut (p := Keeps wz s₀ x.2) ?_ ?_ <;> [subst x; (clear_value x; intro _)])
         | (have hx := fun y => x y; clear hx; subst x; try dsimp -zeta only)
         | clear_value x
         | subst x)

theorem State.stopHead_keeps (hW : Within 69863556352 wz) (s : State) (h : Nat) (hm : Keeps wz s₀ s) : Keeps wz s₀ (State.stopHead s h) := by
  unfold State.stopHead
  repeat' first
    | (with_reducible refine Within.sub hW ?_; decide)
    | with_reducible assumption
    | (with_reducible apply foldl_keeps; intros; try dsimp -zeta only)
    | with_reducible apply State.stopStream_keeps
    | split

theorem State.authFail_keeps (hW : Within 69863556352 wz) (s : State) (h : Nat) (hm : Keeps wz s₀ s) : Keeps wz s₀ (State.authFail s h) := by
  unfold State.authFail
  repeat' first
    | (with_reducible refine Within.sub hW ?_; decide)
    | with_reducible assumption
    | with_reducible apply State.modHead_keeps
    | with_reducible apply State.stopHead_keeps
    | (extract_lets +onlyGivenNames x
       first
         | (with_reducible refine mem_cut (p := Keeps wz s₀ x) ?_ ?_ <;> [subst x; (clear_value x; intro _)])
         | (with_reducible refine mem_cut (p := Keeps wz s₀ x.2) ?_ ?_ <;> [subst x; (clear_value x; intro _)])
         | (have hx := fun y => x y; clear hx; subst x; try dsimp -zeta only)
         | clear_value x
         | subst x)
    | split

theorem State.authEnd_keeps (hW : Within 69863556352 wz) (s : State) (h : Nat) (ok : Bool) (cause : Nat) (hm : Keeps wz s₀ s) : Keeps wz s₀ (State.authEnd s h ok cause) := by
  unfold State.authEnd
  repeat' first
    | (with_reducible refine Within.sub hW ?_; decide)
    | with_reducible assumption
    | with_reducible apply State.modHead_keeps
    | with_reducible apply State.log_keeps
    | with_reducible apply State.finish_keeps
    | with_reducible apply State.detachStep_keeps
    | with_reducible apply State.attachDone_keeps
    | with_reducible apply State.authFail_keeps
    | (extract_lets +onlyGivenNames x
       first
         | (with_reducible refine mem_cut (p := Keeps wz s₀ x) ?_ ?_ <;> [subst x; (clear_value x; intro _)])
         | (with_reducible refine mem_cut (p := Keeps wz s₀ x.2) ?_ ?_ <;> [subst x; (clear_value x; intro _)])
         | (have hx := fun y => x y; clear hx; subst x; try dsimp -zeta only)
         | clear_value x
         | subst x)
    | split

theorem State.header_keeps (hW : Within 81920 wz) (s : State) (h : Nat) (hdr : CsiHdr) (hm : Keeps wz s₀ s) : Keeps wz s₀ (State.header s h hdr).2 := by
  unfold State.header
  repeat' first
    | (with_reducible refine Within.sub hW ?_; decide)
    | with_reducible assumption
    | (with_reducible apply foldl_keeps; intros; try dsimp -zeta only)
    | with_reducible apply State.modHead_keeps
    | with_reducible apply State.modStrm_keeps
    | (extract_lets +onlyGivenNames x
       first
         | (with_reducible refine mem_cut (p := Keeps wz s₀ x) ?_ ?_ <;> [subst x; (clear_value x; intro _)])
         | (with_reducible refine mem_cut (p := Keeps wz s₀ x.2) ?_ ?_ <;> [subst x; (clear_value x; intro _)])
         | (have hx := fun y => x y; clear hx; subst x; try dsimp -zeta only)
         | clear_value x
         | subst x)
    | split

theorem State.packet_keeps (hW : Within 81920 wz) (s : State) (h : Nat) (vc : Nat) (hdr : CsiHdr) (hm : Keeps wz s₀ s) : Keeps wz s₀ (State.packet s h vc hdr).2 := by
  unfold State.packet
  repeat' first
    | (with_reducible refine Within.sub hW ?_; decide)
    | with_reducible assumption
    | with_reducible apply State.modHead_keeps
    | with_reducible apply State.header_keeps
    | (extract_lets +onlyGivenNames x
       first
         | (with_reducible refine mem_cut (p := Keeps wz s₀ x) ?_ ?_ <;> [subst x; (clear_value x; intro _)])
         | (with_reducible refine mem_cut (p := Keeps wz s₀ x.2) ?_ ?_ <;> [subst x; (clear_value x; intro _)])
         | (have hx := fun y => x y; clear hx; subst x; try dsimp -zeta only)
         | clear_value x
         | subst x)
    | split
    | (with_reducible refine keeps_of_pair (by assumption) ?_)

theorem State.outside_keeps (hW : Within 16384 wz) (s : State) (h : Nat) (hm : Keeps wz s₀ s) : Keeps wz s₀ (State.outside s h) := by
  unfold State.outside
  repeat' first
    | (with_reducible refine Within.sub hW ?_; decide)
    | with_reducible assumption
    | with_reducible apply State.modHead_keeps

theorem State.lineBegins_keeps (hW : Within 81920 wz) (s : State) (st : Nat) (hm : Keeps wz s₀ s) : Keeps wz s₀ (State.lineBegins s st) := by
  unfold State.lineBegins
  repeat' first
    | (with_reducible refine Within.sub hW ?_; decide)
    | with_reducible assumption
    | with_reducible apply State.truncate_keeps
    | (extract_lets +onlyGivenNames x
       first
         | (with_reducible refine mem_cut (p := Keeps wz s₀ x) ?_ ?_ <;> [subst x; (clear_value x; intro _)])
         | (with_reducible refine mem_cut (p := Keeps wz s₀ x.2) ?_ ?_ <;> [subst x; (clear_value x; intro _)])
         | (have hx := fun y => x y; clear hx; subst x; try dsimp -zeta only)
         | clear_value x
         | subst x)
    | split

theorem State.issueFocus_keeps (hW : Within 81920 wz) (s : State) (st : Nat) (fseq : B16) (step : Int) (hm : Keeps wz s₀ s) : Keeps wz s₀ (State.issueFocus s st fseq step) := by
  unfold State.issueFocus
  repeat' first
    | (with_reducible refine Within.sub hW ?_; decide)
    | with_reducible assumption
    | with_reducible apply State.modHead_keeps
    | with_reducible apply State.modFrame_keeps
    | (extract_lets +onlyGivenNames x
       first
         | (with_reducible refine mem_cut (p := Keeps wz s₀ x) ?_ ?_ <;> [subst x; (clear_value x; intro _)])
         | (with_reducible refine mem_cut (p := Keeps wz s₀ x.2) ?_ ?_ <;> [subst x; (clear_value x; intro _)])
         | (have hx := fun y => x y; clear hx; subst x; try dsimp -zeta only)
         | clear_value x
         | subst x)
    | split

theorem State.focusLines_keeps (hW : Within 81920 wz) (s : State) (st : Nat) (fseq : B16) (lo : Nat) (hi : Nat) (hm : Keeps wz s₀ s) : Keeps wz s₀ (State.focusLines s st fseq lo hi) := by
  unfold State.focusLines
  repeat' first
    | (with_reducible refine Within.sub hW ?_; decide)
    | with_reducible assumption
    | with_reducible apply State.modHead_keeps
    | with_reducible apply State.issueFocus_keeps
    | (extract_lets +onlyGivenNames x
       first
         | (with_reducible refine mem_cut (p := Keeps wz s₀ x) ?_ ?_ <;> [subst x; (clear_value x; intro _)])
         | (with_reducible refine mem_cut (p := Keeps wz s₀ x.2) ?_ ?_ <;> [subst x; (clear_value x; intro _)])
         | (have hx := fun y => x y; clear hx; subst x; try dsimp -zeta only)
         | clear_value x
         | subst x)
    | split

theorem State.focusEnd_keeps (hW : Within 16384 wz) (s : State) (st : Nat) (fseq : B16) (hm : Keeps wz s₀ s) : Keeps wz s₀ (State.focusEnd s st fseq) := by
  unfold State.focusEnd
  repeat' first
    | (with_reducible refine Within.sub hW ?_; decide)
    | with_reducible assumption
    | with_reducible apply State.modHead_keeps

theorem State.focusBegin_keeps (hW : Within 16384 wz) (s : State) (st : Nat) (fseq : B16) (hm : Keeps wz s₀ s) : Keeps wz s₀ (State.focusBegin s st fseq) := by
  unfold State.focusBegin
  repeat' first
    | (with_reducible refine Within.sub hW ?_; decide)
    | with_reducible assumption
    | with_reducible apply State.modHead_keeps
    | split

theorem State.placeLine_keeps (hW : Within 65536 wz) (s : State) (st : Nat) (number : Nat) (height : Nat) (stamp : B64) (codes : List B16) (fl : Nat) (hm : Keeps wz s₀ s) : Keeps wz s₀ (State.placeLine s st number height stamp codes fl) := by
  unfold State.placeLine
  repeat' first
    | (with_reducible refine Within.sub hW ?_; decide)
    | with_reducible assumption
    | (with_reducible apply foldl_keeps; intros; try dsimp -zeta only)
    | with_reducible apply State.setStrm_keeps
    | (extract_lets +onlyGivenNames x
       first
         | (with_reducible refine mem_cut (p := Keeps wz s₀ x) ?_ ?_ <;> [subst x; (clear_value x; intro _)])
         | (with_reducible refine mem_cut (p := Keeps wz s₀ x.2) ?_ ?_ <;> [subst x; (clear_value x; intro _)])
         | (have hx := fun y => x y; clear hx; subst x; try dsimp -zeta only)
         | clear_value x
         | subst x)
    | split

theorem State.afterLine_keeps (hW : Within 1140933888 wz) (s : State) (st : Nat) (hm : Keeps wz s₀ s) : Keeps wz s₀ (State.afterLine s st) := by
  unfold State.afterLine
  repeat' first
    | (with_reducible refine Within.sub hW ?_; decide)
    | with_reducible assumption
    | with_reducible apply State.endStream_keeps
    | with_reducible apply State.checkStopping_keeps
    | with_reducible apply State.truncate_keeps
    | (extract_lets +onlyGivenNames x
       first
         | (with_reducible refine mem_cut (p := Keeps wz s₀ x) ?_ ?_ <;> [subst x; (clear_value x; intro _)])
         | (with_reducible refine mem_cut (p := Keeps wz s₀ x.2) ?_ ?_ <;> [subst x; (clear_value x; intro _)])
         | (have hx := fun y => x y; clear hx; subst x; try dsimp -zeta only)
         | clear_value x
         | subst x)
    | split

theorem State.flushCur_keeps (hW : Within 1140933888 wz) (s : State) (st : Nat) (height : Nat) (hm : Keeps wz s₀ s) : Keeps wz s₀ (State.flushCur s st height) := by
  unfold State.flushCur
  repeat' first
    | (with_reducible refine Within.sub hW ?_; decide)
    | with_reducible assumption
    | with_reducible apply State.placeLine_keeps
    | with_reducible apply State.afterLine_keeps
    | split

theorem State.closeFrame_keeps (hW : Within 1140933888 wz) (s : State) (st : Nat) (height : Nat) (hm : Keeps wz s₀ s) : Keeps wz s₀ (State.closeFrame s st height) := by
  unfold State.closeFrame
  repeat' first
    | (with_reducible refine Within.sub hW ?_; decide)
    | with_reducible assumption
    | with_reducible apply State.setStrm_keeps
    | with_reducible apply State.endStream_keeps
    | with_reducible apply State.checkStopping_keeps
    | with_reducible apply State.focusLines_keeps
    | with_reducible apply State.focusEnd_keeps
    | (extract_lets +onlyGivenNames x
       first
         | (with_reducible refine mem_cut (p := Keeps wz s₀ x) ?_ ?_ <;> [subst x; (clear_value x; intro _)])
         | (with_reducible refine mem_cut (p := Keeps wz s₀ x.2) ?_ ?_ <;> [subst x; (clear_value x; intro _)])
         | (have hx := fun y => x y; clear hx; subst x; try dsimp -zeta only)
         | clear_value x
         | subst x)
    | split

theorem State.frameEdge_keeps (hW : Within 69863556352 wz) (s : State) (h : Nat) (hm : Keeps wz s₀ s) : Keeps wz s₀ (State.frameEdge s h) := by
  unfold State.frameEdge
  repeat' first
    | (with_reducible refine Within.sub hW ?_; decide)
    | with_reducible assumption
    | with_reducible apply State.modHead_keeps
    | with_reducible apply State.authFail_keeps
    | (extract_lets +onlyGivenNames x
       first
         | (with_reducible refine mem_cut (p := Keeps wz s₀ x) ?_ ?_ <;> [subst x; (clear_value x; intro _)])
         | (with_reducible refine mem_cut (p := Keeps wz s₀ x.2) ?_ ?_ <;> [subst x; (clear_value x; intro _)])
         | (have hx := fun y => x y; clear hx; subst x; try dsimp -zeta only)
         | clear_value x
         | subst x)
    | split

theorem State.openFrame_keeps (hW : Within 84224 wz) (s : State) (st : Nat) (h : Nat) (fseq : B16) (hm : Keeps wz s₀ s) : Keeps wz s₀ (State.openFrame s st h fseq) := by
  unfold State.openFrame
  repeat' first
    | (with_reducible refine Within.sub hW ?_; decide)
    | with_reducible assumption
    | with_reducible apply State.setStrm_keeps
    | with_reducible apply State.capFrameStart_keeps
    | with_reducible apply State.focusBegin_keeps
    | (extract_lets +onlyGivenNames x
       first
         | (with_reducible refine mem_cut (p := Keeps wz s₀ x) ?_ ?_ <;> [subst x; (clear_value x; intro _)])
         | (with_reducible refine mem_cut (p := Keeps wz s₀ x.2) ?_ ?_ <;> [subst x; (clear_value x; intro _)])
         | (have hx := fun y => x y; clear hx; subst x; try dsimp -zeta only)
         | clear_value x
         | subst x)
    | split

theorem State.dropHeadCmds_keeps (hW : Within 67126528 wz) (s : State) (h : Nat) (st : Status) (dst : Status) (hm : Keeps wz s₀ s) : Keeps wz s₀ (State.dropHeadCmds s h st dst) := by
  unfold State.dropHeadCmds
  repeat' first
    | (with_reducible refine Within.sub hW ?_; decide)
    | with_reducible assumption
    | (with_reducible apply foldl_keeps; intros; try dsimp -zeta only)
    | with_reducible apply State.modHead_keeps
    | with_reducible apply State.finish_keeps
    | (extract_lets +onlyGivenNames x
       first
         | (with_reducible refine mem_cut (p := Keeps wz s₀ x) ?_ ?_ <;> [subst x; (clear_value x; intro _)])
         | (with_reducible refine mem_cut (p := Keeps wz s₀ x.2) ?_ ?_ <;> [subst x; (clear_value x; intro _)])
         | (have hx := fun y => x y; clear hx; subst x; try dsimp -zeta only)
         | clear_value x
         | subst x)
    | split

theorem State.loseFrames_keeps (hW : Within 1140933888 wz) (s : State) (h : Nat) (c : Cause) (hm : Keeps wz s₀ s) : Keeps wz s₀ (State.loseFrames s h c) := by
  unfold State.loseFrames
  repeat' first
    | (with_reducible refine Within.sub hW ?_; decide)
    | with_reducible assumption
    | (with_reducible apply foldl_keeps; intros; try dsimp -zeta only)
    | with_reducible apply State.modStrm_keeps
    | with_reducible apply State.endStream_keeps
    | with_reducible apply State.checkStopping_keeps
    | with_reducible apply State.truncate_keeps
    | with_reducible apply State.focusEnd_keeps
    | (extract_lets +onlyGivenNames x
       first
         | (with_reducible refine mem_cut (p := Keeps wz s₀ x) ?_ ?_ <;> [subst x; (clear_value x; intro _)])
         | (with_reducible refine mem_cut (p := Keeps wz s₀ x.2) ?_ ?_ <;> [subst x; (clear_value x; intro _)])
         | (have hx := fun y => x y; clear hx; subst x; try dsimp -zeta only)
         | clear_value x
         | subst x)
    | split

theorem State.dropCommit_keeps (hW : Within 68920820992 wz) (s : State) (h : Nat) (hm : Keeps wz s₀ s) : Keeps wz s₀ (State.dropCommit s h) := by
  unfold State.dropCommit
  repeat' first
    | (with_reducible refine Within.sub hW ?_; decide)
    | with_reducible assumption
    | with_reducible apply State.modHead_keeps
    | with_reducible apply State.handLock_keeps
    | split

theorem headInserted_keeps (hW : Within 16384 wz) (h : Nat) (s : State) (hm : Keeps wz s₀ s) : Keeps wz s₀ (headInserted h s) := by
  unfold headInserted
  repeat' first
    | (with_reducible refine Within.sub hW ?_; decide)
    | with_reducible assumption
    | with_reducible apply State.modHead_keeps
    | with_reducible apply State.startAttach_keeps
    | (extract_lets +onlyGivenNames x
       first
         | (with_reducible refine mem_cut (p := Keeps wz s₀ x) ?_ ?_ <;> [subst x; (clear_value x; intro _)])
         | (with_reducible refine mem_cut (p := Keeps wz s₀ x.2) ?_ ?_ <;> [subst x; (clear_value x; intro _)])
         | (have hx := fun y => x y; clear hx; subst x; try dsimp -zeta only)
         | clear_value x
         | subst x)
    | split

theorem execHeadInserted_keeps (hW : Within 16384 wz) (h : HeadId) (s : State) (hm : Keeps wz s₀ s) : ∀ z, execHeadInserted h s = .next z → Keeps wz s₀ z := by
  intro z ht
  unfold execHeadInserted at ht
  injection ht with ht
  subst ht
  repeat' first
    | (with_reducible refine Within.sub hW ?_; decide)
    | with_reducible assumption
    | with_reducible apply headInserted_keeps

theorem headRemoved_keeps (hW : Within 69994628352 wz) (h : Nat) (s : State) (hm : Keeps wz s₀ s) : Keeps wz s₀ (headRemoved h s) := by
  unfold headRemoved
  repeat' first
    | (with_reducible refine Within.sub hW ?_; decide)
    | with_reducible assumption
    | with_reducible apply State.modHead_keeps
    | with_reducible apply State.dropHeadCmds_keeps
    | with_reducible apply State.loseFrames_keeps
    | with_reducible apply State.dropCommit_keeps
    | (extract_lets +onlyGivenNames x
       first
         | (with_reducible refine mem_cut (p := Keeps wz s₀ x) ?_ ?_ <;> [subst x; (clear_value x; intro _)])
         | (with_reducible refine mem_cut (p := Keeps wz s₀ x.2) ?_ ?_ <;> [subst x; (clear_value x; intro _)])
         | (have hx := fun y => x y; clear hx; subst x; try dsimp -zeta only)
         | clear_value x
         | subst x)
    | split

theorem execHeadRemoved_keeps (hW : Within 69994628352 wz) (h : HeadId) (s : State) (hm : Keeps wz s₀ s) : ∀ z, execHeadRemoved h s = .next z → Keeps wz s₀ z := by
  intro z ht
  unfold execHeadRemoved at ht
  injection ht with ht
  subst ht
  repeat' first
    | (with_reducible refine Within.sub hW ?_; decide)
    | with_reducible assumption
    | with_reducible apply headRemoved_keeps

theorem execHeadInt_keeps (hW : Within 256 wz) (h : HeadId) (s : State) (hm : Keeps wz s₀ s) : ∀ z, execHeadInt h s = .next z → Keeps wz s₀ z := by
  intro z ht
  unfold execHeadInt at ht
  injection ht with ht
  subst ht
  repeat' first
    | (with_reducible refine Within.sub hW ?_; decide)
    | with_reducible assumption
    | with_reducible apply State.log_keeps
    | split

theorem execHeadIbi_keeps (hW : Within 256 wz) (h : HeadId) (target : Fin 4) (data : B8) (s : State) (hm : Keeps wz s₀ s) : ∀ z, execHeadIbi h target data s = .next z → Keeps wz s₀ z := by
  intro z ht
  unfold execHeadIbi at ht
  injection ht with ht
  subst ht
  repeat' first
    | (with_reducible refine Within.sub hW ?_; decide)
    | with_reducible assumption
    | with_reducible apply State.log_keeps
    | split

end Sys2Proof.Machine
end

