-- ==== Sys2Proof/Laws/Keeps04.lean ====
section
/-! SUPPORT. What the definitions from frameStart to execBackoffEnd may write: `Keeps wz s t` says that only the
parts of `wz` differ and that memories stay canonical. -/
set_option linter.unusedTactic false
set_option linter.unreachableTactic false
set_option linter.unusedVariables false
namespace Sys2Proof.Machine
variable {wz : Nat} {s₀ : State}
theorem frameStart_keeps (hW : Within 69863558400 wz) (h : Nat) (vc : Nat) (hdr : CsiHdr) (fn : Nat) (s : State) (hm : Keeps wz s₀ s) : Keeps wz s₀ (frameStart h vc hdr fn s) := by
  unfold frameStart
  repeat' first
    | (with_reducible refine Within.sub hW ?_; decide)
    | with_reducible assumption
    | with_reducible apply State.modStrm_keeps
    | with_reducible apply State.log_keeps
    | with_reducible apply State.modFrame_keeps
    | with_reducible apply State.packet_keeps
    | with_reducible apply State.closeFrame_keeps
    | with_reducible apply State.frameEdge_keeps
    | with_reducible apply State.openFrame_keeps
    | (extract_lets +onlyGivenNames x
       first
         | (with_reducible refine mem_cut (p := Keeps wz s₀ x) ?_ ?_ <;> [subst x; (clear_value x; intro _)])
         | (with_reducible refine mem_cut (p := Keeps wz s₀ x.2) ?_ ?_ <;> [subst x; (clear_value x; intro _)])
         | (have hx := fun y => x y; clear hx; subst x; try dsimp -zeta only)
         | clear_value x
         | subst x)
    | split
    | (with_reducible refine keeps_of_pair (by assumption) ?_)

theorem execFrameStart_keeps (hW : Within 69863558400 wz) (h : HeadId) (vc : Fin 4) (hdr : CsiHdr) (fn : B16) (s : State) (hm : Keeps wz s₀ s) : ∀ z, execFrameStart h vc hdr fn s = .next z → Keeps wz s₀ z := by
  intro z ht
  unfold execFrameStart at ht
  injection ht with ht
  subst ht
  repeat' first
    | (with_reducible refine Within.sub hW ?_; decide)
    | with_reducible assumption
    | with_reducible apply frameStart_keeps

theorem frameEnd_keeps (hW : Within 1140933888 wz) (h : Nat) (vc : Nat) (hdr : CsiHdr) (s : State) (hm : Keeps wz s₀ s) : Keeps wz s₀ (frameEnd h vc hdr s) := by
  unfold frameEnd
  repeat' first
    | (with_reducible refine Within.sub hW ?_; decide)
    | with_reducible assumption
    | with_reducible apply State.packet_keeps
    | with_reducible apply State.outside_keeps
    | with_reducible apply State.closeFrame_keeps
    | (extract_lets +onlyGivenNames x
       first
         | (with_reducible refine mem_cut (p := Keeps wz s₀ x) ?_ ?_ <;> [subst x; (clear_value x; intro _)])
         | (with_reducible refine mem_cut (p := Keeps wz s₀ x.2) ?_ ?_ <;> [subst x; (clear_value x; intro _)])
         | (have hx := fun y => x y; clear hx; subst x; try dsimp -zeta only)
         | clear_value x
         | subst x)
    | split
    | (with_reducible refine keeps_of_pair (by assumption) ?_)

theorem execFrameEnd_keeps (hW : Within 1140933888 wz) (h : HeadId) (vc : Fin 4) (hdr : CsiHdr) (s : State) (hm : Keeps wz s₀ s) : ∀ z, execFrameEnd h vc hdr s = .next z → Keeps wz s₀ z := by
  intro z ht
  unfold execFrameEnd at ht
  injection ht with ht
  subst ht
  repeat' first
    | (with_reducible refine Within.sub hW ?_; decide)
    | with_reducible assumption
    | with_reducible apply frameEnd_keeps

theorem lineStart_keeps (hW : Within 1140933888 wz) (h : Nat) (vc : Nat) (hdr : CsiHdr) (number : Nat) (err : Nat) (s : State) (hm : Keeps wz s₀ s) : Keeps wz s₀ (lineStart h vc hdr number err s) := by
  unfold lineStart
  repeat' first
    | (with_reducible refine Within.sub hW ?_; decide)
    | with_reducible assumption
    | with_reducible apply State.modStrm_keeps
    | with_reducible apply State.packet_keeps
    | with_reducible apply State.outside_keeps
    | with_reducible apply State.lineBegins_keeps
    | with_reducible apply State.focusLines_keeps
    | with_reducible apply State.flushCur_keeps
    | (extract_lets +onlyGivenNames x
       first
         | (with_reducible refine mem_cut (p := Keeps wz s₀ x) ?_ ?_ <;> [subst x; (clear_value x; intro _)])
         | (with_reducible refine mem_cut (p := Keeps wz s₀ x.2) ?_ ?_ <;> [subst x; (clear_value x; intro _)])
         | (have hx := fun y => x y; clear hx; subst x; try dsimp -zeta only)
         | clear_value x
         | subst x)
    | split
    | (with_reducible refine keeps_of_pair (by assumption) ?_)

theorem execLineStartPacket_keeps (hW : Within 1140933888 wz) (h : HeadId) (vc : Fin 4) (hdr : CsiHdr) (number : B16) (err : Fin 21) (s : State) (hm : Keeps wz s₀ s) : ∀ z, execLineStartPacket h vc hdr number err s = .next z → Keeps wz s₀ z := by
  intro z ht
  unfold execLineStartPacket at ht
  injection ht with ht
  subst ht
  repeat' first
    | (with_reducible refine Within.sub hW ?_; decide)
    | with_reducible assumption
    | with_reducible apply lineStart_keeps

theorem lineEnd_keeps (hW : Within 1140933888 wz) (h : Nat) (vc : Nat) (hdr : CsiHdr) (s : State) (hm : Keeps wz s₀ s) : Keeps wz s₀ (lineEnd h vc hdr s) := by
  unfold lineEnd
  repeat' first
    | (with_reducible refine Within.sub hW ?_; decide)
    | with_reducible assumption
    | with_reducible apply State.packet_keeps
    | with_reducible apply State.outside_keeps
    | with_reducible apply State.flushCur_keeps
    | (extract_lets +onlyGivenNames x
       first
         | (with_reducible refine mem_cut (p := Keeps wz s₀ x) ?_ ?_ <;> [subst x; (clear_value x; intro _)])
         | (with_reducible refine mem_cut (p := Keeps wz s₀ x.2) ?_ ?_ <;> [subst x; (clear_value x; intro _)])
         | (have hx := fun y => x y; clear hx; subst x; try dsimp -zeta only)
         | clear_value x
         | subst x)
    | split
    | (with_reducible refine keeps_of_pair (by assumption) ?_)

theorem execLineEndPacket_keeps (hW : Within 1140933888 wz) (h : HeadId) (vc : Fin 4) (hdr : CsiHdr) (s : State) (hm : Keeps wz s₀ s) : ∀ z, execLineEndPacket h vc hdr s = .next z → Keeps wz s₀ z := by
  intro z ht
  unfold execLineEndPacket at ht
  injection ht with ht
  subst ht
  repeat' first
    | (with_reducible refine Within.sub hW ?_; decide)
    | with_reducible assumption
    | with_reducible apply lineEnd_keeps

theorem linePayload_keeps (hW : Within 1140933888 wz) (h : Nat) (vc : Nat) (hdr : CsiHdr) (dt : Nat) (payload : Bytes) (crc : Nat) (err : Nat) (s : State) (hm : Keeps wz s₀ s) : Keeps wz s₀ (linePayload h vc hdr dt payload crc err s) := by
  unfold linePayload
  repeat' first
    | (with_reducible refine Within.sub hW ?_; decide)
    | with_reducible assumption
    | with_reducible apply State.modHead_keeps
    | with_reducible apply State.modStrm_keeps
    | with_reducible apply State.packet_keeps
    | with_reducible apply State.outside_keeps
    | with_reducible apply State.lineBegins_keeps
    | with_reducible apply State.focusLines_keeps
    | with_reducible apply State.placeLine_keeps
    | with_reducible apply State.afterLine_keeps
    | (extract_lets +onlyGivenNames x
       first
         | (with_reducible refine mem_cut (p := Keeps wz s₀ x) ?_ ?_ <;> [subst x; (clear_value x; intro _)])
         | (with_reducible refine mem_cut (p := Keeps wz s₀ x.2) ?_ ?_ <;> [subst x; (clear_value x; intro _)])
         | (have hx := fun y => x y; clear hx; subst x; try dsimp -zeta only)
         | clear_value x
         | subst x)
    | split
    | (with_reducible refine keeps_of_pair (by assumption) ?_)

theorem execLinePayload_keeps (hW : Within 1140933888 wz) (h : HeadId) (vc : Fin 4) (hdr : CsiHdr) (dt : B8) (payload : Bytes) (crc : B16) (err : Fin 21) (s : State) (hm : Keeps wz s₀ s) : ∀ z, execLinePayload h vc hdr dt payload crc err s = .next z → Keeps wz s₀ z := by
  intro z ht
  unfold execLinePayload at ht
  injection ht with ht
  subst ht
  repeat' first
    | (with_reducible refine Within.sub hW ?_; decide)
    | with_reducible assumption
    | with_reducible apply linePayload_keeps

theorem embedded_keeps (hW : Within 81920 wz) (h : Nat) (vc : Nat) (hdr : CsiHdr) (dt : Nat) (payload : Bytes) (crc : Nat) (s : State) (hm : Keeps wz s₀ s) : Keeps wz s₀ (embedded h vc hdr dt payload crc s) := by
  unfold embedded
  repeat' first
    | (with_reducible refine Within.sub hW ?_; decide)
    | with_reducible assumption
    | with_reducible apply State.modHead_keeps
    | with_reducible apply State.modFrame_keeps
    | with_reducible apply State.packet_keeps
    | with_reducible apply State.outside_keeps
    | (extract_lets +onlyGivenNames x
       first
         | (with_reducible refine mem_cut (p := Keeps wz s₀ x) ?_ ?_ <;> [subst x; (clear_value x; intro _)])
         | (with_reducible refine mem_cut (p := Keeps wz s₀ x.2) ?_ ?_ <;> [subst x; (clear_value x; intro _)])
         | (have hx := fun y => x y; clear hx; subst x; try dsimp -zeta only)
         | clear_value x
         | subst x)
    | split
    | (with_reducible refine keeps_of_pair (by assumption) ?_)

theorem execEmbeddedData_keeps (hW : Within 81920 wz) (h : HeadId) (vc : Fin 4) (hdr : CsiHdr) (dt : B8) (payload : Bytes) (crc : B16) (s : State) (hm : Keeps wz s₀ s) : ∀ z, execEmbeddedData h vc hdr dt payload crc s = .next z → Keeps wz s₀ z := by
  intro z ht
  unfold execEmbeddedData at ht
  injection ht with ht
  subst ht
  repeat' first
    | (with_reducible refine Within.sub hW ?_; decide)
    | with_reducible assumption
    | with_reducible apply embedded_keeps

theorem linkTimeout_keeps (hW : Within 1140933888 wz) (st : Nat) (s : State) (hm : Keeps wz s₀ s) : Keeps wz s₀ (linkTimeout st s) := by
  unfold linkTimeout
  repeat' first
    | (with_reducible refine Within.sub hW ?_; decide)
    | with_reducible assumption
    | with_reducible apply State.modStrm_keeps
    | with_reducible apply State.endStream_keeps
    | with_reducible apply State.checkStopping_keeps
    | with_reducible apply State.truncate_keeps
    | with_reducible apply State.focusEnd_keeps
    | (extract_lets +onlyGivenNames x
       first
         | (with_reducible refine mem_cut (p := Keeps wz s₀ x) ?_ ?_ <;> [subst x; (clear_value x; intro _)])
         | (with_reducible refine mem_cut (p := Keeps wz s₀ x.2) ?_ ?_ <;> [subst x; (clear_value x; intro _)])
         | (have hx := fun y => x y; clear hx; subst x; try dsimp -zeta only)
         | clear_value x
         | subst x)
    | split

theorem execLinkTimeout_keeps (hW : Within 1140933888 wz) (st : StreamId) (s : State) (hm : Keeps wz s₀ s) : ∀ z, execLinkTimeout st s = .next z → Keeps wz s₀ z := by
  intro z ht
  unfold execLinkTimeout at ht
  injection ht with ht
  subst ht
  repeat' first
    | (with_reducible refine Within.sub hW ?_; decide)
    | with_reducible assumption
    | with_reducible apply linkTimeout_keeps

theorem missingLine_keeps (hW : Within 65536 wz) (st : Nat) (s : State) (hm : Keeps wz s₀ s) : Keeps wz s₀ (missingLine st s) := by
  unfold missingLine
  repeat' first
    | (with_reducible refine Within.sub hW ?_; decide)
    | with_reducible assumption
    | with_reducible apply State.setStrm_keeps
    | (extract_lets +onlyGivenNames x
       first
         | (with_reducible refine mem_cut (p := Keeps wz s₀ x) ?_ ?_ <;> [subst x; (clear_value x; intro _)])
         | (with_reducible refine mem_cut (p := Keeps wz s₀ x.2) ?_ ?_ <;> [subst x; (clear_value x; intro _)])
         | (have hx := fun y => x y; clear hx; subst x; try dsimp -zeta only)
         | clear_value x
         | subst x)
    | split

theorem execMissingLineSupply_keeps (hW : Within 65536 wz) (st : StreamId) (s : State) (hm : Keeps wz s₀ s) : ∀ z, execMissingLineSupply st s = .next z → Keeps wz s₀ z := by
  intro z ht
  unfold execMissingLineSupply at ht
  injection ht with ht
  subst ht
  repeat' first
    | (with_reducible refine Within.sub hW ?_; decide)
    | with_reducible assumption
    | with_reducible apply missingLine_keeps

theorem fsyncPulse_keeps (hW : Within 16384 wz) (h : Nat) (s : State) (hm : Keeps wz s₀ s) : Keeps wz s₀ (fsyncPulse h s) := by
  unfold fsyncPulse
  repeat' first
    | (with_reducible refine Within.sub hW ?_; decide)
    | with_reducible assumption
    | with_reducible apply State.setHead_keeps
    | (extract_lets +onlyGivenNames x
       first
         | (with_reducible refine mem_cut (p := Keeps wz s₀ x) ?_ ?_ <;> [subst x; (clear_value x; intro _)])
         | (with_reducible refine mem_cut (p := Keeps wz s₀ x.2) ?_ ?_ <;> [subst x; (clear_value x; intro _)])
         | (have hx := fun y => x y; clear hx; subst x; try dsimp -zeta only)
         | clear_value x
         | subst x)
    | split

theorem execFsyncPulse_keeps (hW : Within 16384 wz) (h : HeadId) (s : State) (hm : Keeps wz s₀ s) : ∀ z, execFsyncPulse h s = .next z → Keeps wz s₀ z := by
  intro z ht
  unfold execFsyncPulse at ht
  injection ht with ht
  subst ht
  repeat' first
    | (with_reducible refine Within.sub hW ?_; decide)
    | with_reducible assumption
    | with_reducible apply fsyncPulse_keeps

theorem execFsyncPulseEnd_keeps (hW : Within 16384 wz) (h : HeadId) (s : State) (hm : Keeps wz s₀ s) : ∀ z, execFsyncPulseEnd h s = .next z → Keeps wz s₀ z := by
  intro z ht
  unfold execFsyncPulseEnd at ht
  injection ht with ht
  subst ht
  repeat' first
    | (with_reducible refine Within.sub hW ?_; decide)
    | with_reducible assumption
    | with_reducible apply State.modHead_keeps
    | split

theorem tempRead_keeps (hW : Within 49408 wz) (h : Nat) (value : Option Bytes) (s : State) (hm : Keeps wz s₀ s) : Keeps wz s₀ (tempRead h value s) := by
  unfold tempRead
  repeat' first
    | (with_reducible refine Within.sub hW ?_; decide)
    | with_reducible assumption
    | with_reducible apply State.modHead_keeps
    | with_reducible apply State.log_keeps
    | with_reducible apply State.touchEntry_keeps
    | with_reducible apply State.checkLife_keeps
    | (extract_lets +onlyGivenNames x
       first
         | (with_reducible refine mem_cut (p := Keeps wz s₀ x) ?_ ?_ <;> [subst x; (clear_value x; intro _)])
         | (with_reducible refine mem_cut (p := Keeps wz s₀ x.2) ?_ ?_ <;> [subst x; (clear_value x; intro _)])
         | (have hx := fun y => x y; clear hx; subst x; try dsimp -zeta only)
         | clear_value x
         | subst x)
    | split

theorem execHeadTempRead_keeps (hW : Within 49408 wz) (h : HeadId) (value : Option Bytes) (s : State) (hm : Keeps wz s₀ s) : ∀ z, execHeadTempRead h value s = .next z → Keeps wz s₀ z := by
  intro z ht
  unfold execHeadTempRead at ht
  injection ht with ht
  subst ht
  repeat' first
    | (with_reducible refine Within.sub hW ?_; decide)
    | with_reducible assumption
    | with_reducible apply tempRead_keeps

theorem ledgerCommit_keeps (hW : Within 201377024 wz) (h : Nat) (s : State) (hm : Keeps wz s₀ s) : Keeps wz s₀ (ledgerCommit h s) := by
  unfold ledgerCommit
  repeat' first
    | (with_reducible refine Within.sub hW ?_; decide)
    | with_reducible assumption
    | with_reducible apply State.modHead_keeps
    | with_reducible apply State.modLock_keeps
    | with_reducible apply State.detachStep_keeps
    | with_reducible apply State.touchEntry_keeps
    | with_reducible apply State.checkBudget_keeps
    | (extract_lets +onlyGivenNames x
       first
         | (with_reducible refine mem_cut (p := Keeps wz s₀ x) ?_ ?_ <;> [subst x; (clear_value x; intro _)])
         | (with_reducible refine mem_cut (p := Keeps wz s₀ x.2) ?_ ?_ <;> [subst x; (clear_value x; intro _)])
         | (have hx := fun y => x y; clear hx; subst x; try dsimp -zeta only)
         | clear_value x
         | subst x)
    | split

theorem execLedgerCommit_keeps (hW : Within 201377024 wz) (h : HeadId) (s : State) (hm : Keeps wz s₀ s) : ∀ z, execLedgerCommit h s = .next z → Keeps wz s₀ z := by
  intro z ht
  unfold execLedgerCommit at ht
  injection ht with ht
  subst ht
  repeat' first
    | (with_reducible refine Within.sub hW ?_; decide)
    | with_reducible assumption
    | with_reducible apply ledgerCommit_keeps

theorem ledgerReadback_keeps (hW : Within 68920853760 wz) (h : Nat) (copy : Bytes) (s : State) (hm : Keeps wz s₀ s) : Keeps wz s₀ (ledgerReadback h copy s) := by
  unfold ledgerReadback
  repeat' first
    | (with_reducible refine Within.sub hW ?_; decide)
    | with_reducible assumption
    | with_reducible apply State.modHead_keeps
    | with_reducible apply State.log_keeps
    | with_reducible apply State.detachStep_keeps
    | with_reducible apply State.sclSettle_keeps
    | with_reducible apply State.handLock_keeps
    | with_reducible apply State.touchEntry_keeps
    | with_reducible apply State.checkBudget_keeps
    | (extract_lets +onlyGivenNames x
       first
         | (with_reducible refine mem_cut (p := Keeps wz s₀ x) ?_ ?_ <;> [subst x; (clear_value x; intro _)])
         | (with_reducible refine mem_cut (p := Keeps wz s₀ x.2) ?_ ?_ <;> [subst x; (clear_value x; intro _)])
         | (have hx := fun y => x y; clear hx; subst x; try dsimp -zeta only)
         | clear_value x
         | subst x)
    | split
    | (try dsimp -zeta only
       with_reducible refine Keeps.mk' (V := 68920853760) rfl (hW.sub (by decide)) ?_ ?_ id ?_
       · (repeat' apply And.intro) <;> first | exact fun _ => rfl | exact fun h => zone_in h
       · first | exact id | exact fun _ => rfl)

theorem execLedgerReadback_keeps (hW : Within 68920853760 wz) (h : HeadId) (copy : Bytes) (s : State) (hm : Keeps wz s₀ s) : ∀ z, execLedgerReadback h copy s = .next z → Keeps wz s₀ z := by
  intro z ht
  unfold execLedgerReadback at ht
  injection ht with ht
  subst ht
  repeat' first
    | (with_reducible refine Within.sub hW ?_; decide)
    | with_reducible assumption
    | with_reducible apply ledgerReadback_keeps

theorem State.recover_keeps (hW : Within 49408 wz) (s : State) (h : Nat) (hm : Keeps wz s₀ s) : Keeps wz s₀ (State.recover s h) := by
  unfold State.recover
  extract_lets x a b named okA okB blankA blankB qa qb take q u
  have hf : ∀ t c, Keeps wz s₀ t → Keeps wz s₀ (take t c) := by intro t c ht; subst take; with_reducible exact State.modHead_keeps (hW.sub (by decide)) _ _ _ ht
  have hu : Keeps wz s₀ u := by
    subst u
    clear_value take blankA blankB okA okB
    split
    · exact hf _ _ hm
    · split
      · with_reducible apply State.log_keeps (hW.sub (by decide))
        exact hf _ _ hm
      · split
        · with_reducible apply State.log_keeps (hW.sub (by decide))
          exact hf _ _ hm
        · split
          · with_reducible apply State.modHead_keeps (hW.sub (by decide))
            exact hm
          · with_reducible apply State.log_keeps (hW.sub (by decide))
            with_reducible apply State.modHead_keeps (hW.sub (by decide))
            exact hm
  refine Keeps.mk' (V := 49408) rfl (hW.sub (by decide)) (by (repeat' apply And.intro) <;> first | exact fun _ => rfl | exact fun h => zone_in h) id id hu

theorem attachSettled_keeps (hW : Within 17247094018 wz) (h : Nat) (r : AttachRead) (s : State) (hm : Keeps wz s₀ s) : Keeps wz s₀ (attachSettled h r s) := by
  unfold attachSettled
  repeat' first
    | (with_reducible refine Within.sub hW ?_; decide)
    | with_reducible assumption
    | (with_reducible apply foldl_keeps; intros; try dsimp -zeta only)
    | with_reducible apply State.modHead_keeps
    | with_reducible apply State.modStrm_keeps
    | with_reducible apply State.checkBudget_keeps
    | with_reducible apply State.attachFault_keeps
    | with_reducible apply State.passportReport_keeps
    | with_reducible apply State.startAuth_keeps
    | with_reducible apply State.recover_keeps
    | (extract_lets +onlyGivenNames x
       first
         | (with_reducible refine mem_cut (p := Keeps wz s₀ x) ?_ ?_ <;> [subst x; (clear_value x; intro _)])
         | (with_reducible refine mem_cut (p := Keeps wz s₀ x.2) ?_ ?_ <;> [subst x; (clear_value x; intro _)])
         | (have hx := fun y => x y; clear hx; subst x; try dsimp -zeta only)
         | clear_value x
         | subst x)
    | split

theorem execAttachSettled_keeps (hW : Within 17247094018 wz) (h : HeadId) (r : AttachRead) (s : State) (hm : Keeps wz s₀ s) : ∀ z, execAttachSettled h r s = .next z → Keeps wz s₀ z := by
  intro z ht
  unfold execAttachSettled at ht
  injection ht with ht
  subst ht
  repeat' first
    | (with_reducible refine Within.sub hW ?_; decide)
    | with_reducible assumption
    | with_reducible apply attachSettled_keeps

theorem authPoll_keeps (hW : Within 69863556352 wz) (h : Nat) (sig : Option Bytes) (s : State) (hm : Keeps wz s₀ s) : Keeps wz s₀ (authPoll h sig s) := by
  unfold authPoll
  repeat' first
    | (with_reducible refine Within.sub hW ?_; decide)
    | with_reducible assumption
    | with_reducible apply State.modHead_keeps
    | with_reducible apply State.authEnd_keeps
    | (extract_lets +onlyGivenNames x
       first
         | (with_reducible refine mem_cut (p := Keeps wz s₀ x) ?_ ?_ <;> [subst x; (clear_value x; intro _)])
         | (with_reducible refine mem_cut (p := Keeps wz s₀ x.2) ?_ ?_ <;> [subst x; (clear_value x; intro _)])
         | (have hx := fun y => x y; clear hx; subst x; try dsimp -zeta only)
         | clear_value x
         | subst x)
    | split

theorem execAuthPoll_keeps (hW : Within 69863556352 wz) (h : HeadId) (signature : Option Bytes) (s : State) (hm : Keeps wz s₀ s) : ∀ z, execAuthPoll h signature s = .next z → Keeps wz s₀ z := by
  intro z ht
  unfold execAuthPoll at ht
  injection ht with ht
  subst ht
  repeat' first
    | (with_reducible refine Within.sub hW ?_; decide)
    | with_reducible assumption
    | with_reducible apply authPoll_keeps

theorem execAuthTimeout_keeps (hW : Within 69863556352 wz) (h : HeadId) (s : State) (hm : Keeps wz s₀ s) : ∀ z, execAuthTimeout h s = .next z → Keeps wz s₀ z := by
  intro z ht
  unfold execAuthTimeout at ht
  injection ht with ht
  subst ht
  repeat' first
    | (with_reducible refine Within.sub hW ?_; decide)
    | with_reducible assumption
    | with_reducible apply State.authEnd_keeps
    | split

theorem execReauthentication_keeps (hW : Within 16386 wz) (h : HeadId) (s : State) (hm : Keeps wz s₀ s) : ∀ z, execReauthentication h s = .next z → Keeps wz s₀ z := by
  intro z ht
  unfold execReauthentication at ht
  injection ht with ht
  subst ht
  repeat' first
    | (with_reducible refine Within.sub hW ?_; decide)
    | with_reducible assumption
    | with_reducible apply State.startAuth_keeps
    | split

theorem focusWrite_keeps (hW : Within 81920 wz) (st : Nat) (fseq : B16) (focus : Nat) (conf : Nat) (s : State) (hm : Keeps wz s₀ s) : Keeps wz s₀ (focusWrite st fseq focus conf s) := by
  unfold focusWrite
  repeat' first
    | (with_reducible refine Within.sub hW ?_; decide)
    | with_reducible assumption
    | with_reducible apply State.modHead_keeps
    | with_reducible apply State.modFrame_keeps
    | with_reducible apply State.issueFocus_keeps
    | (extract_lets +onlyGivenNames x
       first
         | (with_reducible refine mem_cut (p := Keeps wz s₀ x) ?_ ?_ <;> [subst x; (clear_value x; intro _)])
         | (with_reducible refine mem_cut (p := Keeps wz s₀ x.2) ?_ ?_ <;> [subst x; (clear_value x; intro _)])
         | (have hx := fun y => x y; clear hx; subst x; try dsimp -zeta only)
         | clear_value x
         | subst x)
    | split

theorem execFocusWrite_keeps (hW : Within 81920 wz) (st : StreamId) (fseq : B16) (focus : B16) (conf : B16) (s : State) (hm : Keeps wz s₀ s) : ∀ z, execFocusWrite st fseq focus conf s = .next z → Keeps wz s₀ z := by
  intro z ht
  unfold execFocusWrite at ht
  injection ht with ht
  subst ht
  repeat' first
    | (with_reducible refine Within.sub hW ?_; decide)
    | with_reducible assumption
    | with_reducible apply focusWrite_keeps

theorem State.writeExposure_keeps (hW : Within 16384 wz) (s : State) (h : Nat) (lines : Nat) (code : Nat) (hm : Keeps wz s₀ s) : Keeps wz s₀ (State.writeExposure s h lines code) := by
  unfold State.writeExposure
  repeat' first
    | (with_reducible refine Within.sub hW ?_; decide)
    | with_reducible assumption
    | with_reducible apply State.modHead_keeps
    | (extract_lets +onlyGivenNames x
       first
         | (with_reducible refine mem_cut (p := Keeps wz s₀ x) ?_ ?_ <;> [subst x; (clear_value x; intro _)])
         | (with_reducible refine mem_cut (p := Keeps wz s₀ x.2) ?_ ?_ <;> [subst x; (clear_value x; intro _)])
         | (have hx := fun y => x y; clear hx; subst x; try dsimp -zeta only)
         | clear_value x
         | subst x)

theorem exposureWrite_keeps (hW : Within 81920 wz) (h : Nat) (s : State) (hm : Keeps wz s₀ s) : Keeps wz s₀ (exposureWrite h s) := by
  unfold exposureWrite
  repeat' first
    | (with_reducible refine Within.sub hW ?_; decide)
    | with_reducible assumption
    | with_reducible apply State.modHead_keeps
    | with_reducible apply State.modFrame_keeps
    | with_reducible apply State.writeExposure_keeps
    | (extract_lets +onlyGivenNames x
       first
         | (with_reducible refine mem_cut (p := Keeps wz s₀ x) ?_ ?_ <;> [subst x; (clear_value x; intro _)])
         | (with_reducible refine mem_cut (p := Keeps wz s₀ x.2) ?_ ?_ <;> [subst x; (clear_value x; intro _)])
         | (have hx := fun y => x y; clear hx; subst x; try dsimp -zeta only)
         | clear_value x
         | subst x)
    | split

theorem execExposureWrite_keeps (hW : Within 81920 wz) (h : HeadId) (s : State) (hm : Keeps wz s₀ s) : ∀ z, execExposureWrite h s = .next z → Keeps wz s₀ z := by
  intro z ht
  unfold execExposureWrite at ht
  injection ht with ht
  subst ht
  repeat' first
    | (with_reducible refine Within.sub hW ?_; decide)
    | with_reducible assumption
    | with_reducible apply exposureWrite_keeps

theorem execI3cTransferComplete_keeps (hW : Within 16384 wz) (h : HeadId) (s : State) (hm : Keeps wz s₀ s) : ∀ z, execI3cTransferComplete h s = .next z → Keeps wz s₀ z := by
  intro z ht
  unfold execI3cTransferComplete at ht
  injection ht with ht
  subst ht
  repeat' first
    | (with_reducible refine Within.sub hW ?_; decide)
    | with_reducible assumption
    | with_reducible apply State.modHead_keeps
    | with_reducible apply State.sclSettle_keeps
    | split

theorem State.useArb_keeps (hW : Within 16777216 wz) (s : State) (a : ArbId) (i : Nat) (present : optParam (List Nat) []) (hm : Keeps wz s₀ s) : OptKeeps wz s₀ (State.useArb s a i present) := by
  unfold State.useArb
  exact map_keeps _ _ (fun x => by
      repeat' first
        | (with_reducible refine Within.sub hW ?_; decide)
        | with_reducible assumption
        | with_reducible apply State.setArb_keeps)

theorem State.holdArb_keeps (hW : Within 16777216 wz) (s : State) (a : ArbId) (i : Nat) (hm : Keeps wz s₀ s) : OptKeeps wz s₀ (State.holdArb s a i) := by
  unfold State.holdArb
  exact map_keeps _ _ (fun x => by
      repeat' first
        | (with_reducible refine Within.sub hW ?_; decide)
        | with_reducible assumption
        | with_reducible apply State.setArb_keeps)

theorem State.freeArb_keeps (hW : Within 16777216 wz) (s : State) (a : ArbId) (i : Nat) (hm : Keeps wz s₀ s) : Keeps wz s₀ (State.freeArb s a i) := by
  unfold State.freeArb
  repeat' first
    | (with_reducible refine Within.sub hW ?_; decide)
    | with_reducible assumption
    | with_reducible apply State.modArb_keeps
    | split

theorem State.handOut_keeps (hW : Within 17532256256 wz) (s : State) (p : Nat) (w : Nat) (a : Arbiter) (hm : Keeps wz s₀ s) : Keeps wz s₀ (State.handOut s p w a) := by
  unfold State.handOut
  repeat' first
    | (with_reducible refine Within.sub hW ?_; decide)
    | with_reducible assumption
    | with_reducible apply State.modStrm_keeps
    | with_reducible apply State.setArb_keeps
    | with_reducible apply State.modPool_keeps
    | with_reducible apply State.reserveCpl_keeps
    | with_reducible apply State.writeCpl_keeps
    | (extract_lets +onlyGivenNames x
       first
         | (with_reducible refine mem_cut (p := Keeps wz s₀ x) ?_ ?_ <;> [subst x; (clear_value x; intro _)])
         | (with_reducible refine mem_cut (p := Keeps wz s₀ x.2) ?_ ?_ <;> [subst x; (clear_value x; intro _)])
         | (have hx := fun y => x y; clear hx; subst x; try dsimp -zeta only)
         | clear_value x
         | subst x)
    | split
    | (with_reducible refine keeps_of_pair (by assumption) ?_)

theorem State.arbitratePool_keeps (hW : Within 17532256256 wz) (s : State) (p : Nat) (n : Nat) (present : List Nat) (hm : Keeps wz s₀ s) : Keeps wz s₀ (State.arbitratePool s p n present) := by
  unfold State.arbitratePool
  repeat' first
    | (with_reducible refine Within.sub hW ?_; decide)
    | with_reducible assumption
    | with_reducible apply State.setArb_keeps
    | with_reducible apply State.handOut_keeps
    | (extract_lets +onlyGivenNames x
       first
         | (with_reducible refine mem_cut (p := Keeps wz s₀ x) ?_ ?_ <;> [subst x; (clear_value x; intro _)])
         | (with_reducible refine mem_cut (p := Keeps wz s₀ x.2) ?_ ?_ <;> [subst x; (clear_value x; intro _)])
         | (have hx := fun y => x y; clear hx; subst x; try dsimp -zeta only)
         | clear_value x
         | subst x)
    | split

theorem arbitration_keeps (hW : Within 17532256256 wz) (a : ArbId) (present : List Nat) (n : Nat) (s : State) (hm : Keeps wz s₀ s) : Keeps wz s₀ (arbitration a present n s) := by
  unfold arbitration
  repeat' first
    | (with_reducible refine Within.sub hW ?_; decide)
    | with_reducible assumption
    | with_reducible apply State.modArb_keeps
    | with_reducible apply State.arbitratePool_keeps
    | split

theorem execArbitration_keeps (hW : Within 17532256256 wz) (a : ArbId) (present : List (Fin 64)) (cycles : B16) (s : State) (hm : Keeps wz s₀ s) : ∀ z, execArbitration a present cycles s = .next z → Keeps wz s₀ z := by
  intro z ht
  unfold execArbitration at ht
  injection ht with ht
  subst ht
  repeat' first
    | (with_reducible refine Within.sub hW ?_; decide)
    | with_reducible assumption
    | with_reducible apply arbitration_keeps

theorem execBackoffEnd_keeps (hW : Within 16777216 wz) (a : ArbId) (input : Fin 64) (s : State) (hm : Keeps wz s₀ s) : ∀ z, execBackoffEnd a input s = .next z → Keeps wz s₀ z := by
  intro z ht
  unfold execBackoffEnd at ht
  injection ht with ht
  subst ht
  repeat' first
    | (with_reducible refine Within.sub hW ?_; decide)
    | with_reducible assumption
    | with_reducible apply State.modArb_keeps

end Sys2Proof.Machine
end

