-- ==== Sys2Proof/Laws/Keeps05.lean ====
section
/-! SUPPORT. What the definitions from execForced to peerReset may write: `Keeps wz s t` says that only the
parts of `wz` differ and that memories stay canonical. -/
set_option linter.unusedTactic false
set_option linter.unreachableTactic false
set_option linter.unusedVariables false
namespace Sys2Proof.Machine
variable {wz : Nat} {s₀ : State}
theorem execForced_keeps (hW : Within 16777216 wz) (a : ArbId) (input : Fin 64) (s : State) (hm : Keeps wz s₀ s) : ∀ z, execForced a input s = .next z → Keeps wz s₀ z := by
  intro z ht
  unfold execForced at ht
  injection ht with ht
  subst ht
  repeat' first
    | (with_reducible refine Within.sub hW ?_; decide)
    | with_reducible assumption
    | with_reducible apply State.modArb_keeps
    | (extract_lets +onlyGivenNames x
       first
         | (with_reducible refine mem_cut (p := Keeps wz s₀ x) ?_ ?_ <;> [subst x; (clear_value x; intro _)])
         | (with_reducible refine mem_cut (p := Keeps wz s₀ x.2) ?_ ?_ <;> [subst x; (clear_value x; intro _)])
         | (have hx := fun y => x y; clear hx; subst x; try dsimp -zeta only)
         | clear_value x
         | subst x)
    | split

theorem withdraw_keeps (hW : Within 285278208 wz) (a : ArbId) (i : Nat) (s : State) (hm : Keeps wz s₀ s) : Keeps wz s₀ (withdraw a i s) := by
  unfold withdraw
  repeat' first
    | (with_reducible refine Within.sub hW ?_; decide)
    | with_reducible assumption
    | with_reducible apply State.modStrm_keeps
    | with_reducible apply State.setArb_keeps
    | with_reducible apply State.modPool_keeps
    | (extract_lets +onlyGivenNames x
       first
         | (with_reducible refine mem_cut (p := Keeps wz s₀ x) ?_ ?_ <;> [subst x; (clear_value x; intro _)])
         | (with_reducible refine mem_cut (p := Keeps wz s₀ x.2) ?_ ?_ <;> [subst x; (clear_value x; intro _)])
         | (have hx := fun y => x y; clear hx; subst x; try dsimp -zeta only)
         | clear_value x
         | subst x)
    | split

theorem execWithdraw_keeps (hW : Within 285278208 wz) (a : ArbId) (input : Fin 64) (s : State) (hm : Keeps wz s₀ s) : ∀ z, execWithdraw a input s = .next z → Keeps wz s₀ z := by
  intro z ht
  unfold execWithdraw at ht
  injection ht with ht
  subst ht
  repeat' first
    | (with_reducible refine Within.sub hW ?_; decide)
    | with_reducible assumption
    | with_reducible apply withdraw_keeps

theorem poolDescriptorFetch_keeps (hW : Within 268435456 wz) (p : Nat) (data : Bytes) (s : State) (hm : Keeps wz s₀ s) : Keeps wz s₀ (poolDescriptorFetch p data s) := by
  unfold poolDescriptorFetch
  repeat' first
    | (with_reducible refine Within.sub hW ?_; decide)
    | with_reducible assumption
    | with_reducible apply State.setPool_keeps
    | (extract_lets +onlyGivenNames x
       first
         | (with_reducible refine mem_cut (p := Keeps wz s₀ x) ?_ ?_ <;> [subst x; (clear_value x; intro _)])
         | (with_reducible refine mem_cut (p := Keeps wz s₀ x.2) ?_ ?_ <;> [subst x; (clear_value x; intro _)])
         | (have hx := fun y => x y; clear hx; subst x; try dsimp -zeta only)
         | clear_value x
         | subst x)
    | split

theorem execPoolDescriptorFetch_keeps (hW : Within 268435456 wz) (p : Fin 64) (data : Bytes) (s : State) (hm : Keeps wz s₀ s) : ∀ z, execPoolDescriptorFetch p data s = .next z → Keeps wz s₀ z := by
  intro z ht
  unfold execPoolDescriptorFetch at ht
  injection ht with ht
  subst ht
  repeat' first
    | (with_reducible refine Within.sub hW ?_; decide)
    | with_reducible assumption
    | with_reducible apply poolDescriptorFetch_keeps

theorem queueWordWrite_keeps (hW : Within 50331648 wz) (q : QId) (src : Nat) (w : B64) (endMark : Bool) (crcOk : Bool) (s : State) (hm : Keeps wz s₀ s) : Keeps wz s₀ (queueWordWrite q src w endMark crcOk s) := by
  unfold queueWordWrite
  repeat' first
    | (with_reducible refine Within.sub hW ?_; decide)
    | with_reducible assumption
    | with_reducible apply State.modQueue_keeps
    | with_reducible apply State.holdArb_keeps
    | with_reducible apply State.freeArb_keeps
    | (extract_lets +onlyGivenNames x
       first
         | (with_reducible refine mem_cut (p := Keeps wz s₀ x) ?_ ?_ <;> [subst x; (clear_value x; intro _)])
         | (with_reducible refine mem_cut (p := Keeps wz s₀ x.2) ?_ ?_ <;> [subst x; (clear_value x; intro _)])
         | (have hx := fun y => x y; clear hx; subst x; try dsimp -zeta only)
         | clear_value x
         | subst x)
    | split
    | with_reducible apply keeps_getD
    | with_reducible exact opt_none
    | with_reducible apply opt_some
    | (with_reducible refine keeps_of_some (by assumption) ?_)

theorem execQueueWordWrite_keeps (hW : Within 50331648 wz) (q : QId) (word : SrcWord) (endMark : Bool) (crcOk : Bool) (s : State) (hm : Keeps wz s₀ s) : ∀ z, execQueueWordWrite q word endMark crcOk s = .next z → Keeps wz s₀ z := by
  intro z ht
  unfold execQueueWordWrite at ht
  injection ht with ht
  subst ht
  repeat' first
    | (with_reducible refine Within.sub hW ?_; decide)
    | with_reducible assumption
    | with_reducible apply queueWordWrite_keeps
    | split

theorem queueAbort_keeps (hW : Within 50331648 wz) (q : QId) (s : State) (hm : Keeps wz s₀ s) : Keeps wz s₀ (queueAbort q s) := by
  unfold queueAbort
  repeat' first
    | (with_reducible refine Within.sub hW ?_; decide)
    | with_reducible assumption
    | with_reducible apply State.modArb_keeps
    | with_reducible apply State.modQueue_keeps
    | (extract_lets +onlyGivenNames x
       first
         | (with_reducible refine mem_cut (p := Keeps wz s₀ x) ?_ ?_ <;> [subst x; (clear_value x; intro _)])
         | (with_reducible refine mem_cut (p := Keeps wz s₀ x.2) ?_ ?_ <;> [subst x; (clear_value x; intro _)])
         | (have hx := fun y => x y; clear hx; subst x; try dsimp -zeta only)
         | clear_value x
         | subst x)
    | split

theorem execQueueAbort_keeps (hW : Within 50331648 wz) (q : QId) (s : State) (hm : Keeps wz s₀ s) : ∀ z, execQueueAbort q s = .next z → Keeps wz s₀ z := by
  intro z ht
  unfold execQueueAbort at ht
  injection ht with ht
  subst ht
  repeat' first
    | (with_reducible refine Within.sub hW ?_; decide)
    | with_reducible assumption
    | with_reducible apply queueAbort_keeps

theorem execQueueReserve_keeps (hW : Within 33554432 wz) (q : QId) (producer : B8) (len : B16) (s : State) (hm : Keeps wz s₀ s) : ∀ z, execQueueReserve q producer len s = .next z → Keeps wz s₀ z := by
  intro z ht
  unfold execQueueReserve at ht
  injection ht with ht
  subst ht
  repeat' first
    | (with_reducible refine Within.sub hW ?_; decide)
    | with_reducible assumption
    | with_reducible apply State.modQueue_keeps
    | split

theorem execQueueSlotWrite_keeps (hW : Within 33554432 wz) (q : QId) (producer : B8) (slot : B32) (body : List B32) (s : State) (hm : Keeps wz s₀ s) : ∀ z, execQueueSlotWrite q producer slot body s = .next z → Keeps wz s₀ z := by
  intro z ht
  unfold execQueueSlotWrite at ht
  injection ht with ht
  subst ht
  repeat' first
    | (with_reducible refine Within.sub hW ?_; decide)
    | with_reducible assumption
    | with_reducible apply State.modQueue_keeps
    | split

theorem State.hbmCe_keeps (hW : Within 4294967552 wz) (s : State) (k : Nat) (hm : Keeps wz s₀ s) : Keeps wz s₀ (State.hbmCe s k) := by
  unfold State.hbmCe
  repeat' first
    | (with_reducible refine Within.sub hW ?_; decide)
    | with_reducible assumption
    | with_reducible apply State.setStackOf_keeps
    | with_reducible apply State.log_keeps
    | (extract_lets +onlyGivenNames x
       first
         | (with_reducible refine mem_cut (p := Keeps wz s₀ x) ?_ ?_ <;> [subst x; (clear_value x; intro _)])
         | (with_reducible refine mem_cut (p := Keeps wz s₀ x.2) ?_ ?_ <;> [subst x; (clear_value x; intro _)])
         | (have hx := fun y => x y; clear hx; subst x; try dsimp -zeta only)
         | clear_value x
         | subst x)
    | split

theorem hbmBurst_keeps (hW : Within 12901679360 wz) (k : Fin 4) (a : HbmAcc) (s : State) (hm : Keeps wz s₀ s) : Keeps wz s₀ (hbmBurst k a s) := by
  unfold hbmBurst
  repeat' first
    | (with_reducible refine Within.sub hW ?_; decide)
    | with_reducible assumption
    | with_reducible apply State.modStackOf_keeps
    | with_reducible apply State.hbmWrite_keeps
    | with_reducible apply State.log_keeps
    | with_reducible apply State.useArb_keeps
    | with_reducible apply State.hbmCe_keeps
    | (extract_lets +onlyGivenNames x
       first
         | (with_reducible refine mem_cut (p := Keeps wz s₀ x) ?_ ?_ <;> [subst x; (clear_value x; intro _)])
         | (with_reducible refine mem_cut (p := Keeps wz s₀ x.2) ?_ ?_ <;> [subst x; (clear_value x; intro _)])
         | (have hx := fun y => x y; clear hx; subst x; try dsimp -zeta only)
         | clear_value x
         | subst x)
    | split
    | with_reducible apply keeps_getD
    | with_reducible exact opt_none
    | with_reducible apply opt_some
    | (with_reducible refine keeps_of_some (by assumption) ?_)

theorem execHbmBurst_keeps (hW : Within 12901679360 wz) (k : Fin 4) (a : HbmAcc) (s : State) (hm : Keeps wz s₀ s) : ∀ z, execHbmBurst k a s = .next z → Keeps wz s₀ z := by
  intro z ht
  unfold execHbmBurst at ht
  injection ht with ht
  subst ht
  repeat' first
    | (with_reducible refine Within.sub hW ?_; decide)
    | with_reducible assumption
    | with_reducible apply hbmBurst_keeps

theorem execHbmPowerDown_keeps (hW : Within 4294967296 wz) (k : Fin 4) (s : State) (hm : Keeps wz s₀ s) : ∀ z, execHbmPowerDown k s = .next z → Keeps wz s₀ z := by
  intro z ht
  unfold execHbmPowerDown at ht
  injection ht with ht
  subst ht
  repeat' first
    | (with_reducible refine Within.sub hW ?_; decide)
    | with_reducible assumption
    | with_reducible apply State.modStackOf_keeps
    | split

theorem execHbmRefresh_keeps (hW : Within 4294967296 wz) (k : Fin 4) (s : State) (hm : Keeps wz s₀ s) : ∀ z, execHbmRefresh k s = .next z → Keeps wz s₀ z := by
  intro z ht
  unfold execHbmRefresh at ht
  injection ht with ht
  subst ht
  repeat' first
    | (with_reducible refine Within.sub hW ?_; decide)
    | with_reducible assumption
    | with_reducible apply State.modStackOf_keeps
    | split

theorem execYallekBlockLock_keeps (hW : Within 68719476736 wz) (p : Fin 4) (s : State) (hm : Keeps wz s₀ s) : ∀ z, execYallekBlockLock p s = .next z → Keeps wz s₀ z := by
  intro z ht
  unfold execYallekBlockLock at ht
  injection ht with ht
  subst ht
  repeat' first
    | (with_reducible refine Within.sub hW ?_; decide)
    | with_reducible assumption
    | with_reducible apply State.modYport_keeps
    | split

theorem execYallekIdentSend_keeps (hW : Within 68719476736 wz) (p : Fin 4) (s : State) (hm : Keeps wz s₀ s) : ∀ z, execYallekIdentSend p s = .next z → Keeps wz s₀ z := by
  intro z ht
  unfold execYallekIdentSend at ht
  injection ht with ht
  subst ht
  repeat' first
    | (with_reducible refine Within.sub hW ?_; decide)
    | with_reducible assumption
    | with_reducible apply State.sendSpore_keeps
    | split

theorem execYallekBringupTimeout_keeps (hW : Within 68719476736 wz) (p : Fin 4) (s : State) (hm : Keeps wz s₀ s) : ∀ z, execYallekBringupTimeout p s = .next z → Keeps wz s₀ z := by
  intro z ht
  unfold execYallekBringupTimeout at ht
  injection ht with ht
  subst ht
  repeat' first
    | (with_reducible refine Within.sub hW ?_; decide)
    | with_reducible assumption
    | with_reducible apply State.modYport_keeps
    | split

theorem State.yRequest_keeps (hW : Within 68722622464 wz) (s : State) (p : Nat) (hm : Keeps wz s₀ s) : Keeps wz s₀ (State.yRequest s p) := by
  unfold State.yRequest
  repeat' first
    | (with_reducible refine Within.sub hW ?_; decide)
    | with_reducible assumption
    | with_reducible apply State.request_keeps
    | (extract_lets +onlyGivenNames x
       first
         | (with_reducible refine mem_cut (p := Keeps wz s₀ x) ?_ ?_ <;> [subst x; (clear_value x; intro _)])
         | (with_reducible refine mem_cut (p := Keeps wz s₀ x.2) ?_ ?_ <;> [subst x; (clear_value x; intro _)])
         | (have hx := fun y => x y; clear hx; subst x; try dsimp -zeta only)
         | clear_value x
         | subst x)
    | split

theorem State.sendNak_keeps (hW : Within 68722622464 wz) (s : State) (p : Nat) (hm : Keeps wz s₀ s) : Keeps wz s₀ (State.sendNak s p) := by
  unfold State.sendNak
  repeat' first
    | (with_reducible refine Within.sub hW ?_; decide)
    | with_reducible assumption
    | with_reducible apply State.modYport_keeps
    | with_reducible apply State.sendSpore_keeps
    | with_reducible apply State.yRequest_keeps

theorem State.rxSpore_keeps (hW : Within 68722622464 wz) (s : State) (p : Nat) (typ : Nat) (seqd : Bool) (b : Bytes) (hm : Keeps wz s₀ s) : Keeps wz s₀ (State.rxSpore s p typ seqd b).2 := by
  unfold State.rxSpore
  repeat' first
    | (with_reducible refine Within.sub hW ?_; decide)
    | with_reducible assumption
    | with_reducible apply State.modYport_keeps
    | with_reducible apply State.yRequest_keeps
    | with_reducible apply State.sendNak_keeps
    | (extract_lets +onlyGivenNames x
       first
         | (with_reducible refine mem_cut (p := Keeps wz s₀ x) ?_ ?_ <;> [subst x; (clear_value x; intro _)])
         | (with_reducible refine mem_cut (p := Keeps wz s₀ x.2) ?_ ?_ <;> [subst x; (clear_value x; intro _)])
         | (have hx := fun y => x y; clear hx; subst x; try dsimp -zeta only)
         | clear_value x
         | subst x)
    | split

theorem sporeIdent_keeps (hW : Within 68722622720 wz) (p : Nat) (b : Bytes) (die : B64) (s : State) (hm : Keeps wz s₀ s) : Keeps wz s₀ (sporeIdent p b die s) := by
  unfold sporeIdent
  repeat' first
    | (with_reducible refine Within.sub hW ?_; decide)
    | with_reducible assumption
    | with_reducible apply State.setYport_keeps
    | with_reducible apply State.log_keeps
    | with_reducible apply State.sendNak_keeps
    | (extract_lets +onlyGivenNames x
       first
         | (with_reducible refine mem_cut (p := Keeps wz s₀ x) ?_ ?_ <;> [subst x; (clear_value x; intro _)])
         | (with_reducible refine mem_cut (p := Keeps wz s₀ x.2) ?_ ?_ <;> [subst x; (clear_value x; intro _)])
         | (have hx := fun y => x y; clear hx; subst x; try dsimp -zeta only)
         | clear_value x
         | subst x)
    | split

theorem execSporeIdent_keeps (hW : Within 68722622720 wz) (p : Fin 4) (spore : Bytes) (die : B64) (s : State) (hm : Keeps wz s₀ s) : ∀ z, execSporeIdent p spore die s = .next z → Keeps wz s₀ z := by
  intro z ht
  unfold execSporeIdent at ht
  injection ht with ht
  subst ht
  repeat' first
    | (with_reducible refine Within.sub hW ?_; decide)
    | with_reducible assumption
    | with_reducible apply sporeIdent_keeps

theorem State.rxFlit_keeps (hW : Within 68719476736 wz) (s : State) (p : Nat) (epoch : Nat) (e : Bytes) (hm : Keeps wz s₀ s) : Keeps wz s₀ (State.rxFlit s p epoch e) := by
  unfold State.rxFlit
  repeat' first
    | (with_reducible refine Within.sub hW ?_; decide)
    | with_reducible assumption
    | with_reducible apply State.setYport_keeps
    | (extract_lets +onlyGivenNames x
       first
         | (with_reducible refine mem_cut (p := Keeps wz s₀ x) ?_ ?_ <;> [subst x; (clear_value x; intro _)])
         | (with_reducible refine mem_cut (p := Keeps wz s₀ x.2) ?_ ?_ <;> [subst x; (clear_value x; intro _)])
         | (have hx := fun y => x y; clear hx; subst x; try dsimp -zeta only)
         | clear_value x
         | subst x)
    | split

theorem sporeFlit_keeps (hW : Within 68722622464 wz) (p : Nat) (b : Bytes) (s : State) (hm : Keeps wz s₀ s) : Keeps wz s₀ (sporeFlit p b s) := by
  unfold sporeFlit
  repeat' first
    | (with_reducible refine Within.sub hW ?_; decide)
    | with_reducible assumption
    | (with_reducible apply foldl_keeps; intros; try dsimp -zeta only)
    | with_reducible apply State.rxSpore_keeps
    | with_reducible apply State.rxFlit_keeps
    | split
    | (with_reducible refine keeps_of_pair (by assumption) ?_)

theorem execSporeFlit_keeps (hW : Within 68722622464 wz) (p : Fin 4) (spore : Bytes) (s : State) (hm : Keeps wz s₀ s) : ∀ z, execSporeFlit p spore s = .next z → Keeps wz s₀ z := by
  intro z ht
  unfold execSporeFlit at ht
  injection ht with ht
  subst ht
  repeat' first
    | (with_reducible refine Within.sub hW ?_; decide)
    | with_reducible assumption
    | with_reducible apply sporeFlit_keeps

theorem syncVisible_keeps (hW : Within 68719476736 wz) (p : Nat) (route : Nat) (s : State) (hm : Keeps wz s₀ s) : Keeps wz s₀ (syncVisible p route s) := by
  unfold syncVisible
  repeat' first
    | (with_reducible refine Within.sub hW ?_; decide)
    | with_reducible assumption
    | with_reducible apply State.modYport_keeps
    | (extract_lets +onlyGivenNames x
       first
         | (with_reducible refine mem_cut (p := Keeps wz s₀ x) ?_ ?_ <;> [subst x; (clear_value x; intro _)])
         | (with_reducible refine mem_cut (p := Keeps wz s₀ x.2) ?_ ?_ <;> [subst x; (clear_value x; intro _)])
         | (have hx := fun y => x y; clear hx; subst x; try dsimp -zeta only)
         | clear_value x
         | subst x)
    | split

theorem execSyncEntryVisible_keeps (hW : Within 68719476736 wz) (p : Fin 4) (route : B8) (s : State) (hm : Keeps wz s₀ s) : ∀ z, execSyncEntryVisible p route s = .next z → Keeps wz s₀ z := by
  intro z ht
  unfold execSyncEntryVisible at ht
  injection ht with ht
  subst ht
  repeat' first
    | (with_reducible refine Within.sub hW ?_; decide)
    | with_reducible assumption
    | with_reducible apply syncVisible_keeps

theorem State.yHold_keeps (hW : Within 68719607808 wz) (s : State) (p : Nat) (hm : Keeps wz s₀ s) : Keeps wz s₀ (State.yHold s p) := by
  unfold State.yHold
  repeat' first
    | (with_reducible refine Within.sub hW ?_; decide)
    | with_reducible assumption
    | (with_reducible apply foldl_keeps; intros; try dsimp -zeta only)
    | with_reducible apply State.modUnit_keeps
    | with_reducible apply State.setYport_keeps
    | (extract_lets +onlyGivenNames x
       first
         | (with_reducible refine mem_cut (p := Keeps wz s₀ x) ?_ ?_ <;> [subst x; (clear_value x; intro _)])
         | (with_reducible refine mem_cut (p := Keeps wz s₀ x.2) ?_ ?_ <;> [subst x; (clear_value x; intro _)])
         | (have hx := fun y => x y; clear hx; subst x; try dsimp -zeta only)
         | clear_value x
         | subst x)
    | split

theorem flitClose_keeps (hW : Within 68719607808 wz) (p : Nat) (s : State) (hm : Keeps wz s₀ s) : Keeps wz s₀ (flitClose p s) := by
  unfold flitClose
  repeat' first
    | (with_reducible refine Within.sub hW ?_; decide)
    | with_reducible assumption
    | with_reducible apply State.setYport_keeps
    | with_reducible apply State.queueSpore_keeps
    | with_reducible apply State.yHold_keeps
    | (extract_lets +onlyGivenNames x
       first
         | (with_reducible refine mem_cut (p := Keeps wz s₀ x) ?_ ?_ <;> [subst x; (clear_value x; intro _)])
         | (with_reducible refine mem_cut (p := Keeps wz s₀ x.2) ?_ ?_ <;> [subst x; (clear_value x; intro _)])
         | (have hx := fun y => x y; clear hx; subst x; try dsimp -zeta only)
         | clear_value x
         | subst x)
    | split

theorem execFlitSporeClose_keeps (hW : Within 68719607808 wz) (p : Fin 4) (s : State) (hm : Keeps wz s₀ s) : ∀ z, execFlitSporeClose p s = .next z → Keeps wz s₀ z := by
  intro z ht
  unfold execFlitSporeClose at ht
  injection ht with ht
  subst ht
  repeat' first
    | (with_reducible refine Within.sub hW ?_; decide)
    | with_reducible assumption
    | with_reducible apply flitClose_keeps

theorem sporeLine_keeps (hW : Within 69863558400 wz) (p : Nat) (b : Bytes) (s : State) (hm : Keeps wz s₀ s) : Keeps wz s₀ (sporeLine p b s) := by
  unfold sporeLine
  repeat' first
    | (with_reducible refine Within.sub hW ?_; decide)
    | with_reducible assumption
    | with_reducible apply State.modStrm_keeps
    | with_reducible apply State.modFrame_keeps
    | with_reducible apply State.lineBegins_keeps
    | with_reducible apply State.afterLine_keeps
    | with_reducible apply State.closeFrame_keeps
    | with_reducible apply State.openFrame_keeps
    | with_reducible apply State.rxSpore_keeps
    | (extract_lets +onlyGivenNames x
       first
         | (with_reducible refine mem_cut (p := Keeps wz s₀ x) ?_ ?_ <;> [subst x; (clear_value x; intro _)])
         | (with_reducible refine mem_cut (p := Keeps wz s₀ x.2) ?_ ?_ <;> [subst x; (clear_value x; intro _)])
         | (have hx := fun y => x y; clear hx; subst x; try dsimp -zeta only)
         | clear_value x
         | subst x)
    | split
    | (with_reducible refine keeps_of_pair (by assumption) ?_)

theorem execSporeLine_keeps (hW : Within 69863558400 wz) (p : Fin 4) (spore : Bytes) (s : State) (hm : Keeps wz s₀ s) : ∀ z, execSporeLine p spore s = .next z → Keeps wz s₀ z := by
  intro z ht
  unfold execSporeLine at ht
  injection ht with ht
  subst ht
  repeat' first
    | (with_reducible refine Within.sub hW ?_; decide)
    | with_reducible assumption
    | with_reducible apply sporeLine_keeps

theorem sporeLock_keeps (hW : Within 68923950336 wz) (p : Nat) (b : Bytes) (op : PeerLock) (s : State) (hm : Keeps wz s₀ s) : Keeps wz s₀ (sporeLock p b op s) := by
  unfold sporeLock
  repeat' first
    | (with_reducible refine Within.sub hW ?_; decide)
    | with_reducible assumption
    | with_reducible apply State.setLock_keeps
    | with_reducible apply State.queueSpore_keeps
    | with_reducible apply State.tryLock_keeps
    | with_reducible apply State.handLock_keeps
    | with_reducible apply State.rxSpore_keeps
    | (extract_lets +onlyGivenNames x
       first
         | (with_reducible refine mem_cut (p := Keeps wz s₀ x) ?_ ?_ <;> [subst x; (clear_value x; intro _)])
         | (with_reducible refine mem_cut (p := Keeps wz s₀ x.2) ?_ ?_ <;> [subst x; (clear_value x; intro _)])
         | (have hx := fun y => x y; clear hx; subst x; try dsimp -zeta only)
         | clear_value x
         | subst x)
    | split
    | (with_reducible refine keeps_of_pair (by assumption) ?_)

theorem execSporeLock_keeps (hW : Within 68923950336 wz) (p : Fin 4) (spore : Bytes) (op : PeerLock) (s : State) (hm : Keeps wz s₀ s) : ∀ z, execSporeLock p spore op s = .next z → Keeps wz s₀ z := by
  intro z ht
  unfold execSporeLock at ht
  injection ht with ht
  subst ht
  repeat' first
    | (with_reducible refine Within.sub hW ?_; decide)
    | with_reducible assumption
    | with_reducible apply sporeLock_keeps

theorem State.tryBind_keeps (hW : Within 69796434240 wz) (s : State) (p : Nat) (hm : Keeps wz s₀ s) : Keeps wz s₀ (State.tryBind s p) := by
  unfold State.tryBind
  repeat' first
    | (with_reducible refine Within.sub hW ?_; decide)
    | with_reducible assumption
    | with_reducible apply State.setYport_keeps
    | with_reducible apply State.log_keeps
    | with_reducible apply State.modRunning_keeps
    | with_reducible apply State.retargetAll_keeps
    | with_reducible apply State.logCap_keeps
    | with_reducible apply State.yRequest_keeps
    | (extract_lets +onlyGivenNames x
       first
         | (with_reducible refine mem_cut (p := Keeps wz s₀ x) ?_ ?_ <;> [subst x; (clear_value x; intro _)])
         | (with_reducible refine mem_cut (p := Keeps wz s₀ x.2) ?_ ?_ <;> [subst x; (clear_value x; intro _)])
         | (have hx := fun y => x y; clear hx; subst x; try dsimp -zeta only)
         | clear_value x
         | subst x)
    | split

theorem State.sendBind_keeps (hW : Within 69796434240 wz) (s : State) (p : Nat) (o : Nat) (hm : Keeps wz s₀ s) : Keeps wz s₀ (State.sendBind s p o) := by
  unfold State.sendBind
  repeat' first
    | (with_reducible refine Within.sub hW ?_; decide)
    | with_reducible assumption
    | with_reducible apply State.modYport_keeps
    | with_reducible apply State.queueSpore_keeps
    | with_reducible apply State.tryBind_keeps
    | (extract_lets +onlyGivenNames x
       first
         | (with_reducible refine mem_cut (p := Keeps wz s₀ x) ?_ ?_ <;> [subst x; (clear_value x; intro _)])
         | (with_reducible refine mem_cut (p := Keeps wz s₀ x.2) ?_ ?_ <;> [subst x; (clear_value x; intro _)])
         | (have hx := fun y => x y; clear hx; subst x; try dsimp -zeta only)
         | clear_value x
         | subst x)
    | split

theorem State.alignReply_keeps (hW : Within 68786586880 wz) (s : State) (p : Nat) (st : Status) (hm : Keeps wz s₀ s) : Keeps wz s₀ (State.alignReply s p st) := by
  unfold State.alignReply
  repeat' first
    | (with_reducible refine Within.sub hW ?_; decide)
    | with_reducible assumption
    | with_reducible apply State.setYport_keeps
    | with_reducible apply State.finish_keeps
    | (extract_lets +onlyGivenNames x
       first
         | (with_reducible refine mem_cut (p := Keeps wz s₀ x) ?_ ?_ <;> [subst x; (clear_value x; intro _)])
         | (with_reducible refine mem_cut (p := Keeps wz s₀ x.2) ?_ ?_ <;> [subst x; (clear_value x; intro _)])
         | (have hx := fun y => x y; clear hx; subst x; try dsimp -zeta only)
         | clear_value x
         | subst x)
    | split

theorem State.unbindPort_keeps (hW : Within 69863544128 wz) (s : State) (p : Nat) (hm : Keeps wz s₀ s) : Keeps wz s₀ (State.unbindPort s p) := by
  unfold State.unbindPort
  repeat' first
    | (with_reducible refine Within.sub hW ?_; decide)
    | with_reducible assumption
    | with_reducible apply State.setYport_keeps
    | with_reducible apply State.modRunning_keeps
    | with_reducible apply State.retargetAll_keeps
    | with_reducible apply State.logCap_keeps
    | with_reducible apply State.yRequest_keeps
    | with_reducible apply State.alignReply_keeps
    | (extract_lets +onlyGivenNames x
       first
         | (with_reducible refine mem_cut (p := Keeps wz s₀ x) ?_ ?_ <;> [subst x; (clear_value x; intro _)])
         | (with_reducible refine mem_cut (p := Keeps wz s₀ x.2) ?_ ?_ <;> [subst x; (clear_value x; intro _)])
         | (have hx := fun y => x y; clear hx; subst x; try dsimp -zeta only)
         | clear_value x
         | subst x)
    | split

theorem sporeBind_keeps (hW : Within 69796434240 wz) (p : Nat) (b : Bytes) (m : BindMsg) (s : State) (hm : Keeps wz s₀ s) : Keeps wz s₀ (sporeBind p b m s) := by
  unfold sporeBind
  repeat' first
    | (with_reducible refine Within.sub hW ?_; decide)
    | with_reducible assumption
    | with_reducible apply State.modYport_keeps
    | with_reducible apply State.rxSpore_keeps
    | with_reducible apply State.tryBind_keeps
    | split
    | (with_reducible refine keeps_of_pair (by assumption) ?_)

theorem execSporeBind_keeps (hW : Within 69796434240 wz) (p : Fin 4) (spore : Bytes) (b : BindMsg) (s : State) (hm : Keeps wz s₀ s) : ∀ z, execSporeBind p spore b s = .next z → Keeps wz s₀ z := by
  intro z ht
  unfold execSporeBind at ht
  injection ht with ht
  subst ht
  repeat' first
    | (with_reducible refine Within.sub hW ?_; decide)
    | with_reducible assumption
    | with_reducible apply sporeBind_keeps

theorem sporeUnbind_keeps (hW : Within 87358657858 wz) (p : Nat) (b : Bytes) (graph : B32) (s : State) (hm : Keeps wz s₀ s) : Keeps wz s₀ (sporeUnbind p b graph s) := by
  unfold sporeUnbind
  repeat' first
    | (with_reducible refine Within.sub hW ?_; decide)
    | with_reducible assumption
    | with_reducible apply State.faultCtx_keeps
    | with_reducible apply State.rxSpore_keeps
    | with_reducible apply State.unbindPort_keeps
    | split
    | (with_reducible refine keeps_of_pair (by assumption) ?_)

theorem execSporeUnbind_keeps (hW : Within 87358657858 wz) (p : Fin 4) (spore : Bytes) (graph : B32) (s : State) (hm : Keeps wz s₀ s) : ∀ z, execSporeUnbind p spore graph s = .next z → Keeps wz s₀ z := by
  intro z ht
  unfold execSporeUnbind at ht
  injection ht with ht
  subst ht
  repeat' first
    | (with_reducible refine Within.sub hW ?_; decide)
    | with_reducible assumption
    | with_reducible apply sporeUnbind_keeps

theorem State.losePeer_keeps (hW : Within 87492876098 wz) (s : State) (p : Nat) (hm : Keeps wz s₀ s) : Keeps wz s₀ (State.losePeer s p) := by
  unfold State.losePeer
  repeat' first
    | (with_reducible refine Within.sub hW ?_; decide)
    | with_reducible assumption
    | with_reducible apply State.faultCtx_keeps
    | with_reducible apply State.resetHolder_keeps
    | with_reducible apply State.unbindPort_keeps
    | (extract_lets +onlyGivenNames x
       first
         | (with_reducible refine mem_cut (p := Keeps wz s₀ x) ?_ ?_ <;> [subst x; (clear_value x; intro _)])
         | (with_reducible refine mem_cut (p := Keeps wz s₀ x.2) ?_ ?_ <;> [subst x; (clear_value x; intro _)])
         | (have hx := fun y => x y; clear hx; subst x; try dsimp -zeta only)
         | clear_value x
         | subst x)
    | split

theorem peerReset_keeps (hW : Within 87492876098 wz) (p : Nat) (b : Bytes) (s : State) (hm : Keeps wz s₀ s) : Keeps wz s₀ (peerReset p b s) := by
  unfold peerReset
  repeat' first
    | (with_reducible refine Within.sub hW ?_; decide)
    | with_reducible assumption
    | with_reducible apply State.log_keeps
    | with_reducible apply State.rxSpore_keeps
    | with_reducible apply State.losePeer_keeps
    | split
    | (with_reducible refine keeps_of_pair (by assumption) ?_)

end Sys2Proof.Machine
end

