-- ==== Sys2Proof/Laws/Keeps06.lean ====
section
/-! SUPPORT. What the definitions from execPeerReset to State.hazard may write: `Keeps wz s t` says that only the
parts of `wz` differ and that memories stay canonical. -/
set_option linter.unusedTactic false
set_option linter.unreachableTactic false
set_option linter.unusedVariables false
namespace Sys2Proof.Machine
variable {wz : Nat} {s₀ : State}
theorem execPeerReset_keeps (hW : Within 87492876098 wz) (p : Fin 4) (spore : Bytes) (s : State) (hm : Keeps wz s₀ s) : ∀ z, execPeerReset p spore s = .next z → Keeps wz s₀ z := by
  intro z ht
  unfold execPeerReset at ht
  injection ht with ht
  subst ht
  repeat' first
    | (with_reducible refine Within.sub hW ?_; decide)
    | with_reducible assumption
    | with_reducible apply peerReset_keeps

theorem execSporeAck_keeps (hW : Within 68722622464 wz) (p : Fin 4) (spore : Bytes) (s : State) (hm : Keeps wz s₀ s) : ∀ z, execSporeAck p spore s = .next z → Keeps wz s₀ z := by
  intro z ht
  unfold execSporeAck at ht
  injection ht with ht
  subst ht
  repeat' first
    | (with_reducible refine Within.sub hW ?_; decide)
    | with_reducible assumption
    | with_reducible apply State.rxSpore_keeps

theorem State.retransmit_keeps (hW : Within 68719476992 wz) (s : State) (p : Nat) (hm : Keeps wz s₀ s) : Keeps wz s₀ (State.retransmit s p) := by
  unfold State.retransmit
  repeat' first
    | (with_reducible refine Within.sub hW ?_; decide)
    | with_reducible assumption
    | with_reducible apply State.setYport_keeps
    | with_reducible apply State.log_keeps
    | (extract_lets +onlyGivenNames x
       first
         | (with_reducible refine mem_cut (p := Keeps wz s₀ x) ?_ ?_ <;> [subst x; (clear_value x; intro _)])
         | (with_reducible refine mem_cut (p := Keeps wz s₀ x.2) ?_ ?_ <;> [subst x; (clear_value x; intro _)])
         | (have hx := fun y => x y; clear hx; subst x; try dsimp -zeta only)
         | clear_value x
         | subst x)
    | split

theorem execSporeNak_keeps (hW : Within 68722622720 wz) (p : Fin 4) (spore : Bytes) (s : State) (hm : Keeps wz s₀ s) : ∀ z, execSporeNak p spore s = .next z → Keeps wz s₀ z := by
  intro z ht
  unfold execSporeNak at ht
  injection ht with ht
  subst ht
  repeat' first
    | (with_reducible refine Within.sub hW ?_; decide)
    | with_reducible assumption
    | with_reducible apply State.rxSpore_keeps
    | with_reducible apply State.retransmit_keeps
    | split
    | (with_reducible refine keeps_of_pair (by assumption) ?_)

theorem execSporeStall_keeps (hW : Within 68722622464 wz) (p : Fin 4) (spore : Bytes) (s : State) (hm : Keeps wz s₀ s) : ∀ z, execSporeStall p spore s = .next z → Keeps wz s₀ z := by
  intro z ht
  unfold execSporeStall at ht
  injection ht with ht
  subst ht
  repeat' first
    | (with_reducible refine Within.sub hW ?_; decide)
    | with_reducible assumption
    | with_reducible apply State.rxSpore_keeps

theorem execSporeRetransmitTimeout_keeps (hW : Within 68719476992 wz) (p : Fin 4) (s : State) (hm : Keeps wz s₀ s) : ∀ z, execSporeRetransmitTimeout p s = .next z → Keeps wz s₀ z := by
  intro z ht
  unfold execSporeRetransmitTimeout at ht
  injection ht with ht
  subst ht
  repeat' first
    | (with_reducible refine Within.sub hW ?_; decide)
    | with_reducible assumption
    | with_reducible apply State.retransmit_keeps
    | split

theorem execNakRepeat_keeps (hW : Within 68719476736 wz) (p : Fin 4) (s : State) (hm : Keeps wz s₀ s) : ∀ z, execNakRepeat p s = .next z → Keeps wz s₀ z := by
  intro z ht
  unfold execNakRepeat at ht
  injection ht with ht
  subst ht
  repeat' first
    | (with_reducible refine Within.sub hW ?_; decide)
    | with_reducible assumption
    | with_reducible apply State.sendSpore_keeps
    | split

theorem execAckSend_keeps (hW : Within 68719476736 wz) (p : Fin 4) (s : State) (hm : Keeps wz s₀ s) : ∀ z, execAckSend p s = .next z → Keeps wz s₀ z := by
  intro z ht
  unfold execAckSend at ht
  injection ht with ht
  subst ht
  repeat' first
    | (with_reducible refine Within.sub hW ?_; decide)
    | with_reducible assumption
    | with_reducible apply State.sendSpore_keeps
    | split

theorem State.linkDown_keeps (hW : Within 87492876098 wz) (s : State) (p : Nat) (cause : Nat) (hm : Keeps wz s₀ s) : Keeps wz s₀ (State.linkDown s p cause) := by
  unfold State.linkDown
  repeat' first
    | (with_reducible refine Within.sub hW ?_; decide)
    | with_reducible assumption
    | with_reducible apply State.modQueue_keeps
    | with_reducible apply State.modYport_keeps
    | with_reducible apply State.log_keeps
    | with_reducible apply State.yHold_keeps
    | with_reducible apply State.losePeer_keeps
    | (extract_lets +onlyGivenNames x
       first
         | (with_reducible refine mem_cut (p := Keeps wz s₀ x) ?_ ?_ <;> [subst x; (clear_value x; intro _)])
         | (with_reducible refine mem_cut (p := Keeps wz s₀ x.2) ?_ ?_ <;> [subst x; (clear_value x; intro _)])
         | (have hx := fun y => x y; clear hx; subst x; try dsimp -zeta only)
         | clear_value x
         | subst x)
    | split

theorem execYallekDown_keeps (hW : Within 87492876098 wz) (p : Fin 4) (cause : Fin 4) (s : State) (hm : Keeps wz s₀ s) : ∀ z, execYallekDown p cause s = .next z → Keeps wz s₀ z := by
  intro z ht
  unfold execYallekDown at ht
  injection ht with ht
  subst ht
  repeat' first
    | (with_reducible refine Within.sub hW ?_; decide)
    | with_reducible assumption
    | with_reducible apply State.linkDown_keeps
    | split

theorem sporeAlign_keeps (hW : Within 68789732608 wz) (p : Nat) (b : Bytes) (route : Nat) (stamp : B16) (s : State) (hm : Keeps wz s₀ s) : Keeps wz s₀ (sporeAlign p b route stamp s) := by
  unfold sporeAlign
  repeat' first
    | (with_reducible refine Within.sub hW ?_; decide)
    | with_reducible assumption
    | (with_reducible apply foldl_keeps; intros; try dsimp -zeta only)
    | with_reducible apply State.modYport_keeps
    | with_reducible apply State.log_keeps
    | with_reducible apply State.rxSpore_keeps
    | with_reducible apply State.alignReply_keeps
    | (extract_lets +onlyGivenNames x
       first
         | (with_reducible refine mem_cut (p := Keeps wz s₀ x) ?_ ?_ <;> [subst x; (clear_value x; intro _)])
         | (with_reducible refine mem_cut (p := Keeps wz s₀ x.2) ?_ ?_ <;> [subst x; (clear_value x; intro _)])
         | (have hx := fun y => x y; clear hx; subst x; try dsimp -zeta only)
         | clear_value x
         | subst x)
    | split
    | (with_reducible refine keeps_of_pair (by assumption) ?_)

theorem execSporeAlign_keeps (hW : Within 68789732608 wz) (p : Fin 4) (spore : Bytes) (route : B8) (stamp : B16) (s : State) (hm : Keeps wz s₀ s) : ∀ z, execSporeAlign p spore route stamp s = .next z → Keeps wz s₀ z := by
  intro z ht
  unfold execSporeAlign at ht
  injection ht with ht
  subst ht
  repeat' first
    | (with_reducible refine Within.sub hW ?_; decide)
    | with_reducible assumption
    | with_reducible apply sporeAlign_keeps

theorem State.ethSend_keeps (hW : Within 137438953472 wz) (s : State) (p : Nat) (b : Bytes) (hm : Keeps wz s₀ s) : Keeps wz s₀ (State.ethSend s p b) := by
  unfold State.ethSend
  repeat' first
    | (with_reducible refine Within.sub hW ?_; decide)
    | with_reducible assumption
    | with_reducible apply State.modEth_keeps

theorem State.ethLink_keeps (hW : Within 137438953728 wz) (s : State) (p : Nat) (up : Bool) (hm : Keeps wz s₀ s) : Keeps wz s₀ (State.ethLink s p up) := by
  unfold State.ethLink
  repeat' first
    | (with_reducible refine Within.sub hW ?_; decide)
    | with_reducible assumption
    | with_reducible apply State.setEth_keeps
    | with_reducible apply State.log_keeps
    | (extract_lets +onlyGivenNames x
       first
         | (with_reducible refine mem_cut (p := Keeps wz s₀ x) ?_ ?_ <;> [subst x; (clear_value x; intro _)])
         | (with_reducible refine mem_cut (p := Keeps wz s₀ x.2) ?_ ?_ <;> [subst x; (clear_value x; intro _)])
         | (have hx := fun y => x y; clear hx; subst x; try dsimp -zeta only)
         | clear_value x
         | subst x)
    | split

theorem execEthLinkChange_keeps (hW : Within 137438953728 wz) (p : Fin 2) (up : Bool) (s : State) (hm : Keeps wz s₀ s) : ∀ z, execEthLinkChange p up s = .next z → Keeps wz s₀ z := by
  intro z ht
  unfold execEthLinkChange at ht
  injection ht with ht
  subst ht
  repeat' first
    | (with_reducible refine Within.sub hW ?_; decide)
    | with_reducible assumption
    | with_reducible apply State.ethLink_keeps
    | split

theorem execArpRequest_keeps (hW : Within 137438953472 wz) (p : Fin 2) (mac : B48) (ip : B32) (target : B32) (s : State) (hm : Keeps wz s₀ s) : ∀ z, execArpRequest p mac ip target s = .next z → Keeps wz s₀ z := by
  intro z ht
  unfold execArpRequest at ht
  injection ht with ht
  subst ht
  repeat' first
    | (with_reducible refine Within.sub hW ?_; decide)
    | with_reducible assumption
    | with_reducible apply State.ethSend_keeps
    | (extract_lets +onlyGivenNames x
       first
         | (with_reducible refine mem_cut (p := Keeps wz s₀ x) ?_ ?_ <;> [subst x; (clear_value x; intro _)])
         | (with_reducible refine mem_cut (p := Keeps wz s₀ x.2) ?_ ?_ <;> [subst x; (clear_value x; intro _)])
         | (have hx := fun y => x y; clear hx; subst x; try dsimp -zeta only)
         | clear_value x
         | subst x)
    | split

theorem execIgmpReport_keeps (hW : Within 137438953472 wz) (p : Fin 2) (s : State) (hm : Keeps wz s₀ s) : ∀ z, execIgmpReport p s = .next z → Keeps wz s₀ z := by
  intro z ht
  unfold execIgmpReport at ht
  injection ht with ht
  subst ht
  repeat' first
    | (with_reducible refine Within.sub hW ?_; decide)
    | with_reducible assumption
    | with_reducible apply State.ethSend_keeps
    | (extract_lets +onlyGivenNames x
       first
         | (with_reducible refine mem_cut (p := Keeps wz s₀ x) ?_ ?_ <;> [subst x; (clear_value x; intro _)])
         | (with_reducible refine mem_cut (p := Keeps wz s₀ x.2) ?_ ?_ <;> [subst x; (clear_value x; intro _)])
         | (have hx := fun y => x y; clear hx; subst x; try dsimp -zeta only)
         | clear_value x
         | subst x)
    | split

theorem execEthFrameDiscard_keeps (hW : Within 137438953472 wz) (p : Fin 2) (s : State) (hm : Keeps wz s₀ s) : ∀ z, execEthFrameDiscard p s = .next z → Keeps wz s₀ z := by
  intro z ht
  unfold execEthFrameDiscard at ht
  injection ht with ht
  subst ht
  repeat' first
    | (with_reducible refine Within.sub hW ?_; decide)
    | with_reducible assumption
    | with_reducible apply State.modEth_keeps
    | split

theorem State.loseStream_keeps (hW : Within 1140933888 wz) (s : State) (st : Nat) (hm : Keeps wz s₀ s) : Keeps wz s₀ (State.loseStream s st) := by
  unfold State.loseStream
  repeat' first
    | (with_reducible refine Within.sub hW ?_; decide)
    | with_reducible assumption
    | with_reducible apply State.modStrm_keeps
    | with_reducible apply State.endStream_keeps
    | with_reducible apply State.checkStopping_keeps
    | (extract_lets +onlyGivenNames x
       first
         | (with_reducible refine mem_cut (p := Keeps wz s₀ x) ?_ ?_ <;> [subst x; (clear_value x; intro _)])
         | (with_reducible refine mem_cut (p := Keeps wz s₀ x.2) ?_ ?_ <;> [subst x; (clear_value x; intro _)])
         | (have hx := fun y => x y; clear hx; subst x; try dsimp -zeta only)
         | clear_value x
         | subst x)
    | split

theorem State.losePort_keeps (hW : Within 774687643458 wz) (s : State) (d : Nat) (hm : Keeps wz s₀ s) : Keeps wz s₀ (State.losePort s d) := by
  unfold State.losePort
  repeat' first
    | (with_reducible refine Within.sub hW ?_; decide)
    | with_reducible assumption
    | (with_reducible apply foldl_keeps; intros; try dsimp -zeta only)
    | with_reducible apply State.modHead_keeps
    | with_reducible apply State.modEp_keeps
    | with_reducible apply State.dropHeadCmds_keeps
    | with_reducible apply State.dropCommit_keeps
    | with_reducible apply State.linkDown_keeps
    | with_reducible apply State.ethLink_keeps
    | with_reducible apply State.loseStream_keeps
    | (extract_lets +onlyGivenNames x
       first
         | (with_reducible refine mem_cut (p := Keeps wz s₀ x) ?_ ?_ <;> [subst x; (clear_value x; intro _)])
         | (with_reducible refine mem_cut (p := Keeps wz s₀ x.2) ?_ ?_ <;> [subst x; (clear_value x; intro _)])
         | (have hx := fun y => x y; clear hx; subst x; try dsimp -zeta only)
         | clear_value x
         | subst x)
    | split

theorem State.loseClock_keeps (hW : Within 4398046511090 wz) (s : State) (c : Nat) (hm : Keeps wz s₀ s) : Keeps wz s₀ (State.loseClock s c) := by
  unfold State.loseClock
  repeat' first
    | (with_reducible refine Within.sub hW ?_; decide)
    | with_reducible assumption
    | (with_reducible apply foldl_keeps; intros; try dsimp -zeta only)
    | with_reducible apply State.modField_keeps
    | with_reducible apply State.modEp_keeps
    | with_reducible apply State.faultCtx_keeps
    | with_reducible apply State.holdReset_keeps
    | with_reducible apply State.ethLink_keeps
    | with_reducible apply State.losePort_keeps
    | (extract_lets +onlyGivenNames x
       first
         | (with_reducible refine mem_cut (p := Keeps wz s₀ x) ?_ ?_ <;> [subst x; (clear_value x; intro _)])
         | (with_reducible refine mem_cut (p := Keeps wz s₀ x.2) ?_ ?_ <;> [subst x; (clear_value x; intro _)])
         | (have hx := fun y => x y; clear hx; subst x; try dsimp -zeta only)
         | clear_value x
         | subst x)
    | split
    | (try dsimp -zeta only
       with_reducible refine Keeps.mk' (V := 4398046511090) rfl (hW.sub (by decide)) ?_ ?_ id ?_
       · (repeat' apply And.intro) <;> first | exact fun _ => rfl | exact fun h => zone_in h
       · first | exact id | exact fun _ => rfl)

theorem State.declareClock_keeps (hW : Within 4398046511090 wz) (s : State) (e : Ev) (c : Nat) (count : Nat) (hm : Keeps wz s₀ s) : Keeps wz s₀ (State.declareClock s e c count) := by
  unfold State.declareClock
  repeat' first
    | (with_reducible refine Within.sub hW ?_; decide)
    | with_reducible assumption
    | with_reducible apply State.log_keeps
    | with_reducible apply State.loseClock_keeps
    | (extract_lets +onlyGivenNames x
       first
         | (with_reducible refine mem_cut (p := Keeps wz s₀ x) ?_ ?_ <;> [subst x; (clear_value x; intro _)])
         | (with_reducible refine mem_cut (p := Keeps wz s₀ x.2) ?_ ?_ <;> [subst x; (clear_value x; intro _)])
         | (have hx := fun y => x y; clear hx; subst x; try dsimp -zeta only)
         | clear_value x
         | subst x)
    | split
    | (try dsimp -zeta only
       with_reducible refine Keeps.mk' (V := 4398046511090) rfl (hW.sub (by decide)) ?_ ?_ id ?_
       · (repeat' apply And.intro) <;> first | exact fun _ => rfl | exact fun h => zone_in h
       · first | exact id | exact fun _ => rfl)

theorem execClkLoss_keeps (hW : Within 4398046511090 wz) (clk : Fin 17) (count : B32) (s : State) (hm : Keeps wz s₀ s) : ∀ z, execClkLoss clk count s = .next z → Keeps wz s₀ z := by
  intro z ht
  unfold execClkLoss at ht
  injection ht with ht
  subst ht
  repeat' first
    | (with_reducible refine Within.sub hW ?_; decide)
    | with_reducible assumption
    | with_reducible apply State.declareClock_keeps

theorem execClkFast_keeps (hW : Within 4398046511090 wz) (clk : Fin 17) (count : B32) (s : State) (hm : Keeps wz s₀ s) : ∀ z, execClkFast clk count s = .next z → Keeps wz s₀ z := by
  intro z ht
  unfold execClkFast at ht
  injection ht with ht
  subst ht
  repeat' first
    | (with_reducible refine Within.sub hW ?_; decide)
    | with_reducible assumption
    | with_reducible apply State.declareClock_keeps

theorem State.resetPort_keeps (hW : Within 481304789248 wz) (s : State) (d : Nat) (hm : Keeps wz s₀ s) : Keeps wz s₀ (State.resetPort s d) := by
  unfold State.resetPort
  repeat' first
    | (with_reducible refine Within.sub hW ?_; decide)
    | with_reducible assumption
    | (with_reducible apply foldl_keeps; intros; try dsimp -zeta only)
    | with_reducible apply State.resetSource_keeps
    | (extract_lets +onlyGivenNames x
       first
         | (with_reducible refine mem_cut (p := Keeps wz s₀ x) ?_ ?_ <;> [subst x; (clear_value x; intro _)])
         | (with_reducible refine mem_cut (p := Keeps wz s₀ x.2) ?_ ?_ <;> [subst x; (clear_value x; intro _)])
         | (have hx := fun y => x y; clear hx; subst x; try dsimp -zeta only)
         | clear_value x
         | subst x)
    | split
    | (try dsimp -zeta only
       with_reducible refine Keeps.mk' (V := 481304789248) rfl (hW.sub (by decide)) ?_ ?_ id ?_
       · (repeat' apply And.intro) <;> first | exact fun _ => rfl | exact fun h => zone_in h
       · first | exact id | exact fun _ => rfl)

theorem State.resetHub_keeps (hW : Within 3866626 wz) (s : State) (hm : Keeps wz s₀ s) : Keeps wz s₀ (State.resetHub s) := by
  unfold State.resetHub
  repeat' first
    | (with_reducible refine Within.sub hW ?_; decide)
    | with_reducible assumption
    | (with_reducible apply foldl_keeps; intros; try dsimp -zeta only)
    | with_reducible apply State.unfreezeGroup_keeps
    | (extract_lets +onlyGivenNames x
       first
         | (with_reducible refine mem_cut (p := Keeps wz s₀ x) ?_ ?_ <;> [subst x; (clear_value x; intro _)])
         | (with_reducible refine mem_cut (p := Keeps wz s₀ x.2) ?_ ?_ <;> [subst x; (clear_value x; intro _)])
         | (have hx := fun y => x y; clear hx; subst x; try dsimp -zeta only)
         | clear_value x
         | subst x)
    | (try dsimp -zeta only
       with_reducible refine Keeps.mk' (V := 3866626) rfl (hW.sub (by decide)) ?_ ?_ id ?_
       · (repeat' apply And.intro) <;> first | exact fun _ => rfl | exact fun h => zone_in h
       · first | exact id | exact fun _ => rfl)

theorem clkRestored_keeps (hW : Within 503970493778 wz) (c : Nat) (s : State) (hm : Keeps wz s₀ s) : Keeps wz s₀ (clkRestored c s) := by
  unfold clkRestored
  repeat' first
    | (with_reducible refine Within.sub hW ?_; decide)
    | with_reducible assumption
    | with_reducible apply State.modStackOf_keeps
    | with_reducible apply State.log_keeps
    | with_reducible apply State.fieldReset_keeps
    | with_reducible apply State.resetPort_keeps
    | with_reducible apply State.resetHub_keeps
    | (extract_lets +onlyGivenNames x
       first
         | (with_reducible refine mem_cut (p := Keeps wz s₀ x) ?_ ?_ <;> [subst x; (clear_value x; intro _)])
         | (with_reducible refine mem_cut (p := Keeps wz s₀ x.2) ?_ ?_ <;> [subst x; (clear_value x; intro _)])
         | (have hx := fun y => x y; clear hx; subst x; try dsimp -zeta only)
         | clear_value x
         | subst x)
    | split
    | (try dsimp -zeta only
       with_reducible refine Keeps.mk' (V := 503970493778) rfl (hW.sub (by decide)) ?_ ?_ id ?_
       · (repeat' apply And.intro) <;> first | exact fun _ => rfl | exact fun h => zone_in h
       · first | exact id | exact fun _ => rfl)

theorem execClkRestored_keeps (hW : Within 503970493778 wz) (clk : Fin 17) (s : State) (hm : Keeps wz s₀ s) : ∀ z, execClkRestored clk s = .next z → Keeps wz s₀ z := by
  intro z ht
  unfold execClkRestored at ht
  injection ht with ht
  subst ht
  repeat' first
    | (with_reducible refine Within.sub hW ?_; decide)
    | with_reducible assumption
    | with_reducible apply clkRestored_keeps

theorem xinRestored_keeps (hW : Within 4380866641904 wz) (s : State) (hm : Keeps wz s₀ s) : Keeps wz s₀ (xinRestored s) := by
  unfold xinRestored
  repeat' first
    | (with_reducible refine Within.sub hW ?_; decide)
    | with_reducible assumption
    | with_reducible apply State.warmReset_keeps
    | (extract_lets +onlyGivenNames x
       first
         | (with_reducible refine mem_cut (p := Keeps wz s₀ x) ?_ ?_ <;> [subst x; (clear_value x; intro _)])
         | (with_reducible refine mem_cut (p := Keeps wz s₀ x.2) ?_ ?_ <;> [subst x; (clear_value x; intro _)])
         | (have hx := fun y => x y; clear hx; subst x; try dsimp -zeta only)
         | clear_value x
         | subst x)
    | split
    | (try dsimp -zeta only
       with_reducible refine Keeps.mk' (V := 4380866641904) rfl (hW.sub (by decide)) ?_ ?_ id ?_
       · (repeat' apply And.intro) <;> first | exact fun _ => rfl | exact fun h => zone_in h
       · first | exact id | exact fun _ => rfl)

theorem execXinRestored_keeps (hW : Within 4380866641904 wz) (s : State) (hm : Keeps wz s₀ s) : ∀ z, execXinRestored s = .next z → Keeps wz s₀ z := by
  intro z ht
  unfold execXinRestored at ht
  injection ht with ht
  subst ht
  repeat' first
    | (with_reducible refine Within.sub hW ?_; decide)
    | with_reducible assumption
    | with_reducible apply xinRestored_keeps

theorem State.requestStep_keeps (hW : Within 128 wz) (s : State) (delta : Int) (fn : B16) (k : Option Pkt) (hm : Keeps wz s₀ s) : Keeps wz s₀ (State.requestStep s delta fn k) := by
  unfold State.requestStep
  repeat' first
    | (with_reducible refine Within.sub hW ?_; decide)
    | with_reducible assumption
    | (try dsimp -zeta only
       with_reducible refine Keeps.mk' (V := 128) rfl (hW.sub (by decide)) ?_ ?_ id ?_
       · (repeat' apply And.intro) <;> first | exact fun _ => rfl | exact fun h => zone_in h
       · first | exact id | exact fun _ => rfl)

theorem State.slewBy_keeps (hW : Within 128 wz) (s : State) (offset : Int) (hm : Keeps wz s₀ s) : Keeps wz s₀ (State.slewBy s offset) := by
  unfold State.slewBy
  repeat' first
    | (with_reducible refine Within.sub hW ?_; decide)
    | with_reducible assumption
    | (try dsimp -zeta only
       with_reducible refine Keeps.mk' (V := 128) rfl (hW.sub (by decide)) ?_ ?_ id ?_
       · (repeat' apply And.intro) <;> first | exact fun _ => rfl | exact fun h => zone_in h
       · first | exact id | exact fun _ => rfl)

theorem dtbStep_keeps (hW : Within 67192192 wz) (s : State) (hm : Keeps wz s₀ s) : Keeps wz s₀ (dtbStep s) := by
  unfold dtbStep
  repeat' first
    | (with_reducible refine Within.sub hW ?_; decide)
    | with_reducible assumption
    | with_reducible apply State.log_keeps
    | with_reducible apply State.finish_keeps
    | (extract_lets +onlyGivenNames x
       first
         | (with_reducible refine mem_cut (p := Keeps wz s₀ x) ?_ ?_ <;> [subst x; (clear_value x; intro _)])
         | (with_reducible refine mem_cut (p := Keeps wz s₀ x.2) ?_ ?_ <;> [subst x; (clear_value x; intro _)])
         | (have hx := fun y => x y; clear hx; subst x; try dsimp -zeta only)
         | clear_value x
         | subst x)
    | split
    | (try dsimp -zeta only
       with_reducible refine Keeps.mk' (V := 67192192) rfl (hW.sub (by decide)) ?_ ?_ id ?_
       · (repeat' apply And.intro) <;> first | exact fun _ => rfl | exact fun h => zone_in h
       · first | exact id | exact fun _ => rfl)

theorem execDtbStep_keeps (hW : Within 67192192 wz) (s : State) (hm : Keeps wz s₀ s) : ∀ z, execDtbStep s = .next z → Keeps wz s₀ z := by
  intro z ht
  unfold execDtbStep at ht
  injection ht with ht
  subst ht
  repeat' first
    | (with_reducible refine Within.sub hW ?_; decide)
    | with_reducible assumption
    | with_reducible apply dtbStep_keeps

theorem execDtbOffsetRemoved_keeps (hW : Within 128 wz) (s : State) (hm : Keeps wz s₀ s) : ∀ z, execDtbOffsetRemoved s = .next z → Keeps wz s₀ z := by
  intro z ht
  unfold execDtbOffsetRemoved at ht
  injection ht with ht
  subst ht
  repeat' first
    | (with_reducible refine Within.sub hW ?_; decide)
    | with_reducible assumption
    | split
    | (try dsimp -zeta only
       with_reducible refine Keeps.mk' (V := 128) rfl (hW.sub (by decide)) ?_ ?_ id ?_
       · (repeat' apply And.intro) <;> first | exact fun _ => rfl | exact fun h => zone_in h
       · first | exact id | exact fun _ => rfl)

theorem execDtbShadowRealign_keeps (hW : Within 128 wz) (s : State) (hm : Keeps wz s₀ s) : ∀ z, execDtbShadowRealign s = .next z → Keeps wz s₀ z := by
  intro z ht
  unfold execDtbShadowRealign at ht
  injection ht with ht
  subst ht
  repeat' first
    | (with_reducible refine Within.sub hW ?_; decide)
    | with_reducible assumption
    | split
    | (try dsimp -zeta only
       with_reducible refine Keeps.mk' (V := 128) rfl (hW.sub (by decide)) ?_ ?_ id ?_
       · (repeat' apply And.intro) <;> first | exact fun _ => rfl | exact fun h => zone_in h
       · first | exact id | exact fun _ => rfl)

theorem State.servo_keeps (hW : Within 130 wz) (s : State) (offset : Int) (hm : Keeps wz s₀ s) : Keeps wz s₀ (State.servo s offset) := by
  unfold State.servo
  repeat' first
    | (with_reducible refine Within.sub hW ?_; decide)
    | with_reducible assumption
    | with_reducible apply State.draw_keeps
    | with_reducible apply State.requestStep_keeps
    | with_reducible apply State.slewBy_keeps
    | (extract_lets +onlyGivenNames x
       first
         | (with_reducible refine mem_cut (p := Keeps wz s₀ x) ?_ ?_ <;> [subst x; (clear_value x; intro _)])
         | (with_reducible refine mem_cut (p := Keeps wz s₀ x.2) ?_ ?_ <;> [subst x; (clear_value x; intro _)])
         | (have hx := fun y => x y; clear hx; subst x; try dsimp -zeta only)
         | clear_value x
         | subst x)
    | split
    | (try dsimp -zeta only
       with_reducible refine Keeps.mk' (V := 130) rfl (hW.sub (by decide)) ?_ ?_ id ?_
       · (repeat' apply And.intro) <;> first | exact fun _ => rfl | exact fun h => zone_in h
       · first | exact id | exact fun _ => rfl)

theorem ptpSync_keeps (hW : Within 137438953602 wz) (p : Nat) (t1 : B64) (t2 : B64) (s : State) (hm : Keeps wz s₀ s) : Keeps wz s₀ (ptpSync p t1 t2 s) := by
  unfold ptpSync
  repeat' first
    | (with_reducible refine Within.sub hW ?_; decide)
    | with_reducible assumption
    | with_reducible apply State.setEth_keeps
    | with_reducible apply State.servo_keeps
    | (extract_lets +onlyGivenNames x
       first
         | (with_reducible refine mem_cut (p := Keeps wz s₀ x) ?_ ?_ <;> [subst x; (clear_value x; intro _)])
         | (with_reducible refine mem_cut (p := Keeps wz s₀ x.2) ?_ ?_ <;> [subst x; (clear_value x; intro _)])
         | (have hx := fun y => x y; clear hx; subst x; try dsimp -zeta only)
         | clear_value x
         | subst x)
    | split

theorem execPtpSync_keeps (hW : Within 137438953602 wz) (port : Fin 2) (t1 : B64) (t2 : B64) (s : State) (hm : Keeps wz s₀ s) : ∀ z, execPtpSync port t1 t2 s = .next z → Keeps wz s₀ z := by
  intro z ht
  unfold execPtpSync at ht
  injection ht with ht
  subst ht
  repeat' first
    | (with_reducible refine Within.sub hW ?_; decide)
    | with_reducible assumption
    | with_reducible apply ptpSync_keeps

theorem execPtpDelayReq_keeps (hW : Within 137438953472 wz) (port : Fin 2) (t3 : B64) (t4 : B64) (s : State) (hm : Keeps wz s₀ s) : ∀ z, execPtpDelayReq port t3 t4 s = .next z → Keeps wz s₀ z := by
  intro z ht
  unfold execPtpDelayReq at ht
  injection ht with ht
  subst ht
  repeat' first
    | (with_reducible refine Within.sub hW ?_; decide)
    | with_reducible assumption
    | with_reducible apply State.setEth_keeps
    | (extract_lets +onlyGivenNames x
       first
         | (with_reducible refine mem_cut (p := Keeps wz s₀ x) ?_ ?_ <;> [subst x; (clear_value x; intro _)])
         | (with_reducible refine mem_cut (p := Keeps wz s₀ x.2) ?_ ?_ <;> [subst x; (clear_value x; intro _)])
         | (have hx := fun y => x y; clear hx; subst x; try dsimp -zeta only)
         | clear_value x
         | subst x)
    | split

theorem ptpAnnounce_keeps (hW : Within 137438953728 wz) (p : Nat) (domain : B8) (m : PtpMaster) (s : State) (hm : Keeps wz s₀ s) : Keeps wz s₀ (ptpAnnounce p domain m s) := by
  unfold ptpAnnounce
  repeat' first
    | (with_reducible refine Within.sub hW ?_; decide)
    | with_reducible assumption
    | with_reducible apply State.setEth_keeps
    | with_reducible apply State.log_keeps
    | (extract_lets +onlyGivenNames x
       first
         | (with_reducible refine mem_cut (p := Keeps wz s₀ x) ?_ ?_ <;> [subst x; (clear_value x; intro _)])
         | (with_reducible refine mem_cut (p := Keeps wz s₀ x.2) ?_ ?_ <;> [subst x; (clear_value x; intro _)])
         | (have hx := fun y => x y; clear hx; subst x; try dsimp -zeta only)
         | clear_value x
         | subst x)
    | split

theorem execPtpAnnounce_keeps (hW : Within 137438953728 wz) (port : Fin 2) (domain : B8) (m : PtpMaster) (s : State) (hm : Keeps wz s₀ s) : ∀ z, execPtpAnnounce port domain m s = .next z → Keeps wz s₀ z := by
  intro z ht
  unfold execPtpAnnounce at ht
  injection ht with ht
  subst ht
  repeat' first
    | (with_reducible refine Within.sub hW ?_; decide)
    | with_reducible assumption
    | with_reducible apply ptpAnnounce_keeps

theorem ptpHoldover_keeps (hW : Within 137438953856 wz) (p : Nat) (s : State) (hm : Keeps wz s₀ s) : Keeps wz s₀ (ptpHoldover p s) := by
  unfold ptpHoldover
  repeat' first
    | (with_reducible refine Within.sub hW ?_; decide)
    | with_reducible assumption
    | with_reducible apply State.modEth_keeps
    | with_reducible apply State.log_keeps
    | (extract_lets +onlyGivenNames x
       first
         | (with_reducible refine mem_cut (p := Keeps wz s₀ x) ?_ ?_ <;> [subst x; (clear_value x; intro _)])
         | (with_reducible refine mem_cut (p := Keeps wz s₀ x.2) ?_ ?_ <;> [subst x; (clear_value x; intro _)])
         | (have hx := fun y => x y; clear hx; subst x; try dsimp -zeta only)
         | clear_value x
         | subst x)
    | split
    | (try dsimp -zeta only
       with_reducible refine Keeps.mk' (V := 137438953856) rfl (hW.sub (by decide)) ?_ ?_ id ?_
       · (repeat' apply And.intro) <;> first | exact fun _ => rfl | exact fun h => zone_in h
       · first | exact id | exact fun _ => rfl)

theorem execPtpHoldover_keeps (hW : Within 137438953856 wz) (port : Fin 2) (s : State) (hm : Keeps wz s₀ s) : ∀ z, execPtpHoldover port s = .next z → Keeps wz s₀ z := by
  intro z ht
  unfold execPtpHoldover at ht
  injection ht with ht
  subst ht
  repeat' first
    | (with_reducible refine Within.sub hW ?_; decide)
    | with_reducible assumption
    | with_reducible apply ptpHoldover_keeps

theorem execPtpPort_keeps (hW : Within 384 wz) (s : State) (hm : Keeps wz s₀ s) : ∀ z, execPtpPort s = .next z → Keeps wz s₀ z := by
  intro z ht
  unfold execPtpPort at ht
  injection ht with ht
  subst ht
  repeat' first
    | (with_reducible refine Within.sub hW ?_; decide)
    | with_reducible assumption
    | with_reducible apply State.log_keeps
    | (extract_lets +onlyGivenNames x
       first
         | (with_reducible refine mem_cut (p := Keeps wz s₀ x) ?_ ?_ <;> [subst x; (clear_value x; intro _)])
         | (with_reducible refine mem_cut (p := Keeps wz s₀ x.2) ?_ ?_ <;> [subst x; (clear_value x; intro _)])
         | (have hx := fun y => x y; clear hx; subst x; try dsimp -zeta only)
         | clear_value x
         | subst x)
    | split
    | (try dsimp -zeta only
       with_reducible refine Keeps.mk' (V := 384) rfl (hW.sub (by decide)) ?_ ?_ id ?_
       · (repeat' apply And.intro) <;> first | exact fun _ => rfl | exact fun h => zone_in h
       · first | exact id | exact fun _ => rfl)

theorem State.hazard_keeps (hW : Within 87358654210 wz) (s : State) (site : Nat) (kind : Nat) (st : Nat) (f8 : Nat) (line : Nat) (pc : optParam (Option Nat) none) (hm : Keeps wz s₀ s) : Keeps wz s₀ (State.hazard s site kind st f8 line pc) := by
  unfold State.hazard
  repeat' first
    | (with_reducible refine Within.sub hW ?_; decide)
    | with_reducible assumption
    | with_reducible apply State.setUnit_keeps
    | with_reducible apply State.post_keeps
    | with_reducible apply State.flagFrame8_keeps
    | with_reducible apply State.faultCtx_keeps
    | (extract_lets +onlyGivenNames x
       first
         | (with_reducible refine mem_cut (p := Keeps wz s₀ x) ?_ ?_ <;> [subst x; (clear_value x; intro _)])
         | (with_reducible refine mem_cut (p := Keeps wz s₀ x.2) ?_ ?_ <;> [subst x; (clear_value x; intro _)])
         | (have hx := fun y => x y; clear hx; subst x; try dsimp -zeta only)
         | clear_value x
         | subst x)
    | split
    | (try dsimp -zeta only
       with_reducible refine Keeps.mk' (V := 87358654210) rfl (hW.sub (by decide)) ?_ ?_ id ?_
       · (repeat' apply And.intro) <;> first | exact fun _ => rfl | exact fun h => zone_in h
       · first | exact id | exact fun _ => rfl)

end Sys2Proof.Machine
end

