-- ==== Sys2Proof/Laws/Keeps07.lean ====
section
/-! SUPPORT. What the definitions from State.hazardNow to State.useCodes may write: `Keeps wz s t` says that only the
parts of `wz` differ and that memories stay canonical. -/
set_option linter.unusedTactic false
set_option linter.unreachableTactic false
set_option linter.unusedVariables false
namespace Sys2Proof.Machine
variable {wz : Nat} {s₀ : State}
theorem State.hazardNow_keeps (hW : Within 87358654210 wz) (s : State) (site : Nat) (kind : Nat) (hm : Keeps wz s₀ s) : Keeps wz s₀ (State.hazardNow s site kind) := by
  unfold State.hazardNow
  repeat' first
    | (with_reducible refine Within.sub hW ?_; decide)
    | with_reducible assumption
    | with_reducible apply State.hazard_keeps
    | (extract_lets +onlyGivenNames x
       first
         | (with_reducible refine mem_cut (p := Keeps wz s₀ x) ?_ ?_ <;> [subst x; (clear_value x; intro _)])
         | (with_reducible refine mem_cut (p := Keeps wz s₀ x.2) ?_ ?_ <;> [subst x; (clear_value x; intro _)])
         | (have hx := fun y => x y; clear hx; subst x; try dsimp -zeta only)
         | clear_value x
         | subst x)

theorem State.tagUe_keeps (hW : Within 87358654210 wz) (s : State) (site : Nat) (o : Nat) (f : Flit) (hm : Keeps wz s₀ s) : Keeps wz s₀ (State.tagUe s site o f) := by
  unfold State.tagUe
  repeat' first
    | (with_reducible refine Within.sub hW ?_; decide)
    | with_reducible assumption
    | with_reducible apply State.faultCtx_keeps
    | with_reducible apply State.logSite_keeps
    | (extract_lets +onlyGivenNames x
       first
         | (with_reducible refine mem_cut (p := Keeps wz s₀ x) ?_ ?_ <;> [subst x; (clear_value x; intro _)])
         | (with_reducible refine mem_cut (p := Keeps wz s₀ x.2) ?_ ?_ <;> [subst x; (clear_value x; intro _)])
         | (have hx := fun y => x y; clear hx; subst x; try dsimp -zeta only)
         | clear_value x
         | subst x)
    | (try dsimp -zeta only
       with_reducible refine Keeps.mk' (V := 87358654210) rfl (hW.sub (by decide)) ?_ ?_ id ?_
       · (repeat' apply And.intro) <;> first | exact fun _ => rfl | exact fun h => zone_in h
       · first | exact id | exact fun _ => rfl)

theorem State.skidOvf_keeps (hW : Within 87358653698 wz) (s : State) (site : Nat) (o : Nat) (f : Flit) (hm : Keeps wz s₀ s) : Keeps wz s₀ (State.skidOvf s site o f) := by
  unfold State.skidOvf
  repeat' first
    | (with_reducible refine Within.sub hW ?_; decide)
    | with_reducible assumption
    | with_reducible apply State.faultCtx_keeps
    | with_reducible apply State.logSite_keeps

theorem State.parErr_keeps (hW : Within 65792 wz) (s : State) (site : Nat) (o : Nat) (f : Flit) (hm : Keeps wz s₀ s) : Keeps wz s₀ (State.parErr s site o f) := by
  unfold State.parErr
  repeat' first
    | (with_reducible refine Within.sub hW ?_; decide)
    | with_reducible assumption
    | with_reducible apply State.flagFrame8_keeps
    | with_reducible apply State.logSite_keeps

theorem State.fusedDrop_keeps (hW : Within 87358653698 wz) (s : State) (site : Nat) (o : Nat) (f : Flit) (hm : Keeps wz s₀ s) : Keeps wz s₀ (State.fusedDrop s site o f) := by
  unfold State.fusedDrop
  repeat' first
    | (with_reducible refine Within.sub hW ?_; decide)
    | with_reducible assumption
    | with_reducible apply State.faultCtx_keeps
    | with_reducible apply State.logSite_keeps

theorem State.tailTakeFrom_keeps (hW : Within 8454144 wz) (k : Nat) (st : Nat) (n : Nat) (stripe : Nat) (s : State) (hm : Keeps wz s₀ s) : Keeps wz s₀ (State.tailTakeFrom k st n stripe s) := by
  induction k generalizing s with
  | zero => exact hm
  | succ k ih =>
    unfold State.tailTakeFrom
    repeat' first
      | (with_reducible refine Within.sub hW ?_; decide)
      | with_reducible assumption
      | with_reducible apply ih
      | with_reducible apply State.modStrm_keeps
      | with_reducible apply State.modTailEng_keeps
      | (extract_lets +onlyGivenNames x
         first
           | (with_reducible refine mem_cut (p := Keeps wz s₀ x) ?_ ?_ <;> [subst x; (clear_value x; intro _)])
           | (with_reducible refine mem_cut (p := Keeps wz s₀ x.2) ?_ ?_ <;> [subst x; (clear_value x; intro _)])
           | (have hx := fun y => x y; clear hx; subst x; try dsimp -zeta only)
           | clear_value x
           | subst x)
      | split

theorem State.tailTake_keeps (hW : Within 8454144 wz) (s : State) (st : Nat) (hm : Keeps wz s₀ s) : Keeps wz s₀ (State.tailTake s st) := by
  unfold State.tailTake
  repeat' first
    | (with_reducible refine Within.sub hW ?_; decide)
    | with_reducible assumption
    | (with_reducible apply foldl_keeps; intros; try dsimp -zeta only)
    | with_reducible apply State.tailTakeFrom_keeps
    | (extract_lets +onlyGivenNames x
       first
         | (with_reducible refine mem_cut (p := Keeps wz s₀ x) ?_ ?_ <;> [subst x; (clear_value x; intro _)])
         | (with_reducible refine mem_cut (p := Keeps wz s₀ x.2) ?_ ?_ <;> [subst x; (clear_value x; intro _)])
         | (have hx := fun y => x y; clear hx; subst x; try dsimp -zeta only)
         | clear_value x
         | subst x)
    | split

theorem State.tailEnter_keeps (hW : Within 87358654210 wz) (s : State) (n : Nat) (stripe : Nat) (o : Nat) (ecc : Ecc) (f : Flit) (hm : Keeps wz s₀ s) : Keeps wz s₀ (State.tailEnter s n stripe o ecc f) := by
  unfold State.tailEnter
  repeat' first
    | (with_reducible refine Within.sub hW ?_; decide)
    | with_reducible assumption
    | with_reducible apply State.setTailEng_keeps
    | with_reducible apply State.logSite_keeps
    | with_reducible apply State.tagUe_keeps
    | with_reducible apply State.skidOvf_keeps
    | with_reducible apply State.parErr_keeps
    | with_reducible apply State.tailTake_keeps
    | (extract_lets +onlyGivenNames x
       first
         | (with_reducible refine mem_cut (p := Keeps wz s₀ x) ?_ ?_ <;> [subst x; (clear_value x; intro _)])
         | (with_reducible refine mem_cut (p := Keeps wz s₀ x.2) ?_ ?_ <;> [subst x; (clear_value x; intro _)])
         | (have hx := fun y => x y; clear hx; subst x; try dsimp -zeta only)
         | clear_value x
         | subst x)
    | split

theorem State.fillLanes_keeps (hW : Within 87358654210 wz) (s : State) (site : Nat) (hm : Keeps wz s₀ s) : Keeps wz s₀ (State.fillLanes s site) := by
  unfold State.fillLanes
  repeat' first
    | (with_reducible refine Within.sub hW ?_; decide)
    | with_reducible assumption
    | (with_reducible apply foldl_keeps; intros; try dsimp -zeta only)
    | with_reducible apply State.setUnit_keeps
    | with_reducible apply State.hazard_keeps
    | (extract_lets +onlyGivenNames x
       first
         | (with_reducible refine mem_cut (p := Keeps wz s₀ x) ?_ ?_ <;> [subst x; (clear_value x; intro _)])
         | (with_reducible refine mem_cut (p := Keeps wz s₀ x.2) ?_ ?_ <;> [subst x; (clear_value x; intro _)])
         | (have hx := fun y => x y; clear hx; subst x; try dsimp -zeta only)
         | clear_value x
         | subst x)
    | split

theorem State.gateHold_keeps (hW : Within 655360 wz) (s : State) (g : Nat) (hm : Keeps wz s₀ s) : Keeps wz s₀ (State.gateHold s g) := by
  unfold State.gateHold
  repeat' first
    | (with_reducible refine Within.sub hW ?_; decide)
    | with_reducible assumption
    | with_reducible apply State.modUnit_keeps
    | with_reducible apply State.setGate_keeps
    | (extract_lets +onlyGivenNames x
       first
         | (with_reducible refine mem_cut (p := Keeps wz s₀ x) ?_ ?_ <;> [subst x; (clear_value x; intro _)])
         | (with_reducible refine mem_cut (p := Keeps wz s₀ x.2) ?_ ?_ <;> [subst x; (clear_value x; intro _)])
         | (have hx := fun y => x y; clear hx; subst x; try dsimp -zeta only)
         | clear_value x
         | subst x)
    | split

theorem State.latchTrim_keeps (hW : Within 65792 wz) (s : State) (code : Nat) (st : Nat) (fseq : B16) (o : Nat) (g : Nat) (t : Int) (hm : Keeps wz s₀ s) : Keeps wz s₀ (State.latchTrim s code st fseq o g t) := by
  unfold State.latchTrim
  repeat' first
    | (with_reducible refine Within.sub hW ?_; decide)
    | with_reducible assumption
    | with_reducible apply State.setStrm_keeps
    | with_reducible apply State.log_keeps
    | (extract_lets +onlyGivenNames x
       first
         | (with_reducible refine mem_cut (p := Keeps wz s₀ x) ?_ ?_ <;> [subst x; (clear_value x; intro _)])
         | (with_reducible refine mem_cut (p := Keeps wz s₀ x.2) ?_ ?_ <;> [subst x; (clear_value x; intro _)])
         | (have hx := fun y => x y; clear hx; subst x; try dsimp -zeta only)
         | clear_value x
         | subst x)
    | split

theorem State.enterTrims_keeps (hW : Within 65792 wz) (s : State) (site : Nat) (st : Nat) (f8 : Nat) (hm : Keeps wz s₀ s) : Keeps wz s₀ (State.enterTrims s site st f8) := by
  unfold State.enterTrims
  repeat' first
    | (with_reducible refine Within.sub hW ?_; decide)
    | with_reducible assumption
    | (with_reducible apply foldl_keeps; intros; try dsimp -zeta only)
    | with_reducible apply State.latchTrim_keeps
    | (extract_lets +onlyGivenNames x
       first
         | (with_reducible refine mem_cut (p := Keeps wz s₀ x) ?_ ?_ <;> [subst x; (clear_value x; intro _)])
         | (with_reducible refine mem_cut (p := Keeps wz s₀ x.2) ?_ ?_ <;> [subst x; (clear_value x; intro _)])
         | (have hx := fun y => x y; clear hx; subst x; try dsimp -zeta only)
         | clear_value x
         | subst x)
    | split

theorem State.unitOpens_keeps (hW : Within 131072 wz) (s : State) (site : Nat) (hm : Keeps wz s₀ s) : Keeps wz s₀ (State.unitOpens s site) := by
  unfold State.unitOpens
  repeat' first
    | (with_reducible refine Within.sub hW ?_; decide)
    | with_reducible assumption
    | with_reducible apply State.setUnit_keeps
    | (extract_lets +onlyGivenNames x
       first
         | (with_reducible refine mem_cut (p := Keeps wz s₀ x) ?_ ?_ <;> [subst x; (clear_value x; intro _)])
         | (with_reducible refine mem_cut (p := Keeps wz s₀ x.2) ?_ ?_ <;> [subst x; (clear_value x; intro _)])
         | (have hx := fun y => x y; clear hx; subst x; try dsimp -zeta only)
         | clear_value x
         | subst x)
    | split

theorem State.toLane_keeps (hW : Within 87358654210 wz) (s : State) (site : Nat) (lane : Nat) (fs : List Flit) (hm : Keeps wz s₀ s) : Keeps wz s₀ (State.toLane s site lane fs) := by
  unfold State.toLane
  repeat' first
    | (with_reducible refine Within.sub hW ?_; decide)
    | with_reducible assumption
    | with_reducible apply State.modUnit_keeps
    | with_reducible apply State.fillLanes_keeps

theorem State.sendAs_keeps (hW : Within 87358654210 wz) (s : State) (site : Nat) (lane : Nat) (kd : Nat) (st : Nat) (f8 : Nat) (line : Nat) (chan : Nat) (chunk : Nat) (zo : Int) (u8 : Bool) (codes : List Nat) (hm : Keeps wz s₀ s) : Keeps wz s₀ (State.sendAs s site lane kd st f8 line chan chunk zo u8 codes) := by
  unfold State.sendAs
  repeat' first
    | (with_reducible refine Within.sub hW ?_; decide)
    | with_reducible assumption
    | with_reducible apply State.modUnit_keeps
    | with_reducible apply State.toLane_keeps
    | (extract_lets +onlyGivenNames x
       first
         | (with_reducible refine mem_cut (p := Keeps wz s₀ x) ?_ ?_ <;> [subst x; (clear_value x; intro _)])
         | (with_reducible refine mem_cut (p := Keeps wz s₀ x.2) ?_ ?_ <;> [subst x; (clear_value x; intro _)])
         | (have hx := fun y => x y; clear hx; subst x; try dsimp -zeta only)
         | clear_value x
         | subst x)

theorem State.sendCodes_keeps (hW : Within 87358654210 wz) (s : State) (site : Nat) (lane : Nat) (kd : Nat) (dChan : Nat) (dChunk : Nat) (zo : Int) (u8 : Bool) (codes : List Nat) (hm : Keeps wz s₀ s) : Keeps wz s₀ (State.sendCodes s site lane kd dChan dChunk zo u8 codes) := by
  unfold State.sendCodes
  repeat' first
    | (with_reducible refine Within.sub hW ?_; decide)
    | with_reducible assumption
    | with_reducible apply State.sendAs_keeps
    | (extract_lets +onlyGivenNames x
       first
         | (with_reducible refine mem_cut (p := Keeps wz s₀ x) ?_ ?_ <;> [subst x; (clear_value x; intro _)])
         | (with_reducible refine mem_cut (p := Keeps wz s₀ x.2) ?_ ?_ <;> [subst x; (clear_value x; intro _)])
         | (have hx := fun y => x y; clear hx; subst x; try dsimp -zeta only)
         | clear_value x
         | subst x)

theorem State.rotRun_keeps (hW : Within 87358654210 wz) (s : State) (site : Nat) (hm : Keeps wz s₀ s) : Keeps wz s₀ (State.rotRun s site) := by
  unfold State.rotRun
  repeat' first
    | (with_reducible refine Within.sub hW ?_; decide)
    | with_reducible assumption
    | (with_reducible apply foldl_keeps; intros; try dsimp -zeta only)
    | with_reducible apply State.setUnit_keeps
    | with_reducible apply State.sendAs_keeps
    | (extract_lets +onlyGivenNames x
       first
         | (with_reducible refine mem_cut (p := Keeps wz s₀ x) ?_ ?_ <;> [subst x; (clear_value x; intro _)])
         | (with_reducible refine mem_cut (p := Keeps wz s₀ x.2) ?_ ?_ <;> [subst x; (clear_value x; intro _)])
         | (have hx := fun y => x y; clear hx; subst x; try dsimp -zeta only)
         | clear_value x
         | subst x)
    | split

theorem State.unitCheck_keeps (hW : Within 87358654210 wz) (s : State) (site : Nat) (o : Nat) (ecc : Ecc) (f : Flit) (hm : Keeps wz s₀ s) : Keeps wz s₀ (State.unitCheck s site o ecc f).2 := by
  unfold State.unitCheck
  repeat' first
    | (with_reducible refine Within.sub hW ?_; decide)
    | with_reducible assumption
    | with_reducible apply State.modUnit_keeps
    | with_reducible apply State.logSite_keeps
    | with_reducible apply State.tagUe_keeps
    | with_reducible apply State.parErr_keeps
    | (extract_lets +onlyGivenNames x
       first
         | (with_reducible refine mem_cut (p := Keeps wz s₀ x) ?_ ?_ <;> [subst x; (clear_value x; intro _)])
         | (with_reducible refine mem_cut (p := Keeps wz s₀ x.2) ?_ ?_ <;> [subst x; (clear_value x; intro _)])
         | (have hx := fun y => x y; clear hx; subst x; try dsimp -zeta only)
         | clear_value x
         | subst x)
    | split

theorem State.unitEnter_keeps (hW : Within 87358654210 wz) (s : State) (site : Nat) (q : Nat) (o : Nat) (ecc : Ecc) (f : Flit) (ex : Option (Nat × Nat)) (hm : Keeps wz s₀ s) : Keeps wz s₀ (State.unitEnter s site q o ecc f ex) := by
  unfold State.unitEnter
  repeat' first
    | (with_reducible refine Within.sub hW ?_; decide)
    | with_reducible assumption
    | with_reducible apply State.setUnit_keeps
    | with_reducible apply State.hazard_keeps
    | with_reducible apply State.skidOvf_keeps
    | with_reducible apply State.enterTrims_keeps
    | with_reducible apply State.rotRun_keeps
    | with_reducible apply State.unitCheck_keeps
    | (extract_lets +onlyGivenNames x
       first
         | (with_reducible refine mem_cut (p := Keeps wz s₀ x) ?_ ?_ <;> [subst x; (clear_value x; intro _)])
         | (with_reducible refine mem_cut (p := Keeps wz s₀ x.2) ?_ ?_ <;> [subst x; (clear_value x; intro _)])
         | (have hx := fun y => x y; clear hx; subst x; try dsimp -zeta only)
         | clear_value x
         | subst x)
    | split
    | (with_reducible refine keeps_of_pair (by assumption) ?_)

theorem State.streamEnter_keeps (hW : Within 87358654210 wz) (s : State) (site : Nat) (o : Nat) (f : Flit) (hm : Keeps wz s₀ s) : Keeps wz s₀ (State.streamEnter s site o f) := by
  unfold State.streamEnter
  repeat' first
    | (with_reducible refine Within.sub hW ?_; decide)
    | with_reducible assumption
    | with_reducible apply State.modUnit_keeps
    | with_reducible apply State.skidOvf_keeps
    | with_reducible apply State.unitCheck_keeps
    | split
    | (with_reducible refine keeps_of_pair (by assumption) ?_)

theorem State.toSlot_keeps (hW : Within 4096 wz) (s : State) (f : Nat) (slot : Nat) (hm : Keeps wz s₀ s) : Keeps wz s₀ (State.toSlot s f slot) := by
  unfold State.toSlot
  repeat' first
    | (with_reducible refine Within.sub hW ?_; decide)
    | with_reducible assumption
    | with_reducible apply State.modField_keeps

theorem State.taken_keeps (hW : Within 87358916354 wz) (s : State) (site : Nat) (slot : Nat) (src : Nat) (lane : Nat) (hm : Keeps wz s₀ s) : Keeps wz s₀ (State.taken s site slot src lane) := by
  unfold State.taken
  repeat' first
    | (with_reducible refine Within.sub hW ?_; decide)
    | with_reducible assumption
    | with_reducible apply State.modUnit_keeps
    | with_reducible apply State.modRouter_keeps
    | with_reducible apply State.modGate_keeps
    | with_reducible apply State.modEdgeEng_keeps
    | with_reducible apply State.modYport_keeps
    | with_reducible apply State.fillLanes_keeps
    | (extract_lets +onlyGivenNames x
       first
         | (with_reducible refine mem_cut (p := Keeps wz s₀ x) ?_ ?_ <;> [subst x; (clear_value x; intro _)])
         | (with_reducible refine mem_cut (p := Keeps wz s₀ x.2) ?_ ?_ <;> [subst x; (clear_value x; intro _)])
         | (have hx := fun y => x y; clear hx; subst x; try dsimp -zeta only)
         | clear_value x
         | subst x)
    | split

theorem State.putOut_keeps (hW : Within 262146 wz) (s : State) (site : Nat) (slot : Nat) (out : Nat) (e : B16) (f : Flit) (hm : Keeps wz s₀ s) : Keeps wz s₀ (State.putOut s site slot out e f) := by
  unfold State.putOut
  repeat' first
    | (with_reducible refine Within.sub hW ?_; decide)
    | with_reducible assumption
    | with_reducible apply State.modRouter_keeps
    | with_reducible apply State.draw_keeps
    | (extract_lets +onlyGivenNames x
       first
         | (with_reducible refine mem_cut (p := Keeps wz s₀ x) ?_ ?_ <;> [subst x; (clear_value x; intro _)])
         | (with_reducible refine mem_cut (p := Keeps wz s₀ x.2) ?_ ?_ <;> [subst x; (clear_value x; intro _)])
         | (have hx := fun y => x y; clear hx; subst x; try dsimp -zeta only)
         | clear_value x
         | subst x)
    | split

theorem State.dropReg_keeps (hW : Within 87358916354 wz) (s : State) (site : Nat) (slot : Nat) (named : List Nat) (i : Nat) (hm : Keeps wz s₀ s) : Keeps wz s₀ (State.dropReg s site slot named i) := by
  unfold State.dropReg
  repeat' first
    | (with_reducible refine Within.sub hW ?_; decide)
    | with_reducible assumption
    | with_reducible apply State.hazard_keeps
    | with_reducible apply State.taken_keeps
    | (extract_lets +onlyGivenNames x
       first
         | (with_reducible refine mem_cut (p := Keeps wz s₀ x) ?_ ?_ <;> [subst x; (clear_value x; intro _)])
         | (with_reducible refine mem_cut (p := Keeps wz s₀ x.2) ?_ ?_ <;> [subst x; (clear_value x; intro _)])
         | (have hx := fun y => x y; clear hx; subst x; try dsimp -zeta only)
         | clear_value x
         | subst x)
    | split

theorem flitForward_keeps (hW : Within 87358920450 wz) (site : Nat) (slot : Nat) (s : State) (hm : Keeps wz s₀ s) : Keeps wz s₀ (flitForward site slot s) := by
  unfold flitForward
  repeat' first
    | (with_reducible refine Within.sub hW ?_; decide)
    | with_reducible assumption
    | (with_reducible apply foldl_keeps; intros; try dsimp -zeta only)
    | with_reducible apply State.modRouter_keeps
    | with_reducible apply State.toSlot_keeps
    | with_reducible apply State.taken_keeps
    | with_reducible apply State.putOut_keeps
    | with_reducible apply State.dropReg_keeps
    | (extract_lets +onlyGivenNames x
       first
         | (with_reducible refine mem_cut (p := Keeps wz s₀ x) ?_ ?_ <;> [subst x; (clear_value x; intro _)])
         | (with_reducible refine mem_cut (p := Keeps wz s₀ x.2) ?_ ?_ <;> [subst x; (clear_value x; intro _)])
         | (have hx := fun y => x y; clear hx; subst x; try dsimp -zeta only)
         | clear_value x
         | subst x)
    | split

theorem execFlitForward_keeps (hW : Within 87358920450 wz) (site : Site) (slot : Fin 64) (s : State) (hm : Keeps wz s₀ s) : ∀ z, execFlitForward site slot s = .next z → Keeps wz s₀ z := by
  intro z ht
  unfold execFlitForward at ht
  injection ht with ht
  subst ht
  repeat' first
    | (with_reducible refine Within.sub hW ?_; decide)
    | with_reducible assumption
    | with_reducible apply flitForward_keeps

theorem sideLinkFlit_keeps (hW : Within 87358654210 wz) (site : Nat) (east : Bool) (s : State) (hm : Keeps wz s₀ s) : Keeps wz s₀ (sideLinkFlit site east s) := by
  unfold sideLinkFlit
  repeat' first
    | (with_reducible refine Within.sub hW ?_; decide)
    | with_reducible assumption
    | with_reducible apply State.setUnit_keeps
    | with_reducible apply State.unitEnter_keeps
    | with_reducible apply State.streamEnter_keeps
    | (extract_lets +onlyGivenNames x
       first
         | (with_reducible refine mem_cut (p := Keeps wz s₀ x) ?_ ?_ <;> [subst x; (clear_value x; intro _)])
         | (with_reducible refine mem_cut (p := Keeps wz s₀ x.2) ?_ ?_ <;> [subst x; (clear_value x; intro _)])
         | (have hx := fun y => x y; clear hx; subst x; try dsimp -zeta only)
         | clear_value x
         | subst x)
    | split

theorem execSideLinkFlit_keeps (hW : Within 87358654210 wz) (site : Site) (east : Bool) (s : State) (hm : Keeps wz s₀ s) : ∀ z, execSideLinkFlit site east s = .next z → Keeps wz s₀ z := by
  intro z ht
  unfold execSideLinkFlit at ht
  injection ht with ht
  subst ht
  repeat' first
    | (with_reducible refine Within.sub hW ?_; decide)
    | with_reducible assumption
    | with_reducible apply sideLinkFlit_keeps

theorem gateWrite_keeps (hW : Within 87358915842 wz) (g : Nat) (s : State) (hm : Keeps wz s₀ s) : Keeps wz s₀ (gateWrite g s) := by
  unfold gateWrite
  repeat' first
    | (with_reducible refine Within.sub hW ?_; decide)
    | with_reducible assumption
    | with_reducible apply State.setRouter_keeps
    | with_reducible apply State.setGate_keeps
    | with_reducible apply State.skidOvf_keeps
    | with_reducible apply State.gateHold_keeps
    | (extract_lets +onlyGivenNames x
       first
         | (with_reducible refine mem_cut (p := Keeps wz s₀ x) ?_ ?_ <;> [subst x; (clear_value x; intro _)])
         | (with_reducible refine mem_cut (p := Keeps wz s₀ x.2) ?_ ?_ <;> [subst x; (clear_value x; intro _)])
         | (have hx := fun y => x y; clear hx; subst x; try dsimp -zeta only)
         | clear_value x
         | subst x)
    | split

theorem execGateWrite_keeps (hW : Within 87358915842 wz) (g : Fin 112) (s : State) (hm : Keeps wz s₀ s) : ∀ z, execGateWrite g s = .next z → Keeps wz s₀ z := by
  intro z ht
  unfold execGateWrite at ht
  injection ht with ht
  subst ht
  repeat' first
    | (with_reducible refine Within.sub hW ?_; decide)
    | with_reducible assumption
    | with_reducible apply gateWrite_keeps

theorem State.showOut_keeps (hW : Within 65536 wz) (s : State) (g : Nat) (hm : Keeps wz s₀ s) : Keeps wz s₀ (State.showOut s g) := by
  unfold State.showOut
  repeat' first
    | (with_reducible refine Within.sub hW ?_; decide)
    | with_reducible assumption
    | with_reducible apply State.setStrm_keeps
    | split

theorem gateFlitVisible_keeps (hW : Within 589824 wz) (g : Nat) (s : State) (hm : Keeps wz s₀ s) : Keeps wz s₀ (gateFlitVisible g s) := by
  unfold gateFlitVisible
  repeat' first
    | (with_reducible refine Within.sub hW ?_; decide)
    | with_reducible assumption
    | with_reducible apply State.modGate_keeps
    | with_reducible apply State.showOut_keeps

theorem execGateFlitVisible_keeps (hW : Within 589824 wz) (g : Fin 112) (s : State) (hm : Keeps wz s₀ s) : ∀ z, execGateFlitVisible g s = .next z → Keeps wz s₀ z := by
  intro z ht
  unfold execGateFlitVisible at ht
  injection ht with ht
  subst ht
  repeat' first
    | (with_reducible refine Within.sub hW ?_; decide)
    | with_reducible assumption
    | with_reducible apply gateFlitVisible_keeps

theorem execGateSlotFreed_keeps (hW : Within 655360 wz) (g : Fin 112) (s : State) (hm : Keeps wz s₀ s) : ∀ z, execGateSlotFreed g s = .next z → Keeps wz s₀ z := by
  intro z ht
  unfold execGateSlotFreed at ht
  injection ht with ht
  subst ht
  repeat' first
    | (with_reducible refine Within.sub hW ?_; decide)
    | with_reducible assumption
    | with_reducible apply State.modGate_keeps
    | with_reducible apply State.gateHold_keeps

theorem exchangeCreditReturn_keeps (hW : Within 131072 wz) (site : Nat) (lane : Nat) (n : Nat) (s : State) (hm : Keeps wz s₀ s) : Keeps wz s₀ (exchangeCreditReturn site lane n s) := by
  unfold exchangeCreditReturn
  repeat' first
    | (with_reducible refine Within.sub hW ?_; decide)
    | with_reducible assumption
    | with_reducible apply State.setUnit_keeps
    | with_reducible apply State.modUnit_keeps
    | (extract_lets +onlyGivenNames x
       first
         | (with_reducible refine mem_cut (p := Keeps wz s₀ x) ?_ ?_ <;> [subst x; (clear_value x; intro _)])
         | (with_reducible refine mem_cut (p := Keeps wz s₀ x.2) ?_ ?_ <;> [subst x; (clear_value x; intro _)])
         | (have hx := fun y => x y; clear hx; subst x; try dsimp -zeta only)
         | clear_value x
         | subst x)
    | split

theorem execExchangeCreditReturn_keeps (hW : Within 131072 wz) (site : Site) (lane : Fin 4) (n : Fin 64) (s : State) (hm : Keeps wz s₀ s) : ∀ z, execExchangeCreditReturn site lane n s = .next z → Keeps wz s₀ z := by
  intro z ht
  unfold execExchangeCreditReturn at ht
  injection ht with ht
  subst ht
  repeat' first
    | (with_reducible refine Within.sub hW ?_; decide)
    | with_reducible assumption
    | with_reducible apply exchangeCreditReturn_keeps

theorem stallAssert_keeps (hW : Within 68720591104 wz) (g : Nat) (s : State) (hm : Keeps wz s₀ s) : Keeps wz s₀ (stallAssert g s) := by
  unfold stallAssert
  repeat' first
    | (with_reducible refine Within.sub hW ?_; decide)
    | with_reducible assumption
    | (with_reducible apply foldl_keeps; intros; try dsimp -zeta only)
    | with_reducible apply State.modStrm_keeps
    | with_reducible apply State.setGroup_keeps
    | with_reducible apply State.log_keeps
    | with_reducible apply State.stallChanged_keeps
    | (extract_lets +onlyGivenNames x
       first
         | (with_reducible refine mem_cut (p := Keeps wz s₀ x) ?_ ?_ <;> [subst x; (clear_value x; intro _)])
         | (with_reducible refine mem_cut (p := Keeps wz s₀ x.2) ?_ ?_ <;> [subst x; (clear_value x; intro _)])
         | (have hx := fun y => x y; clear hx; subst x; try dsimp -zeta only)
         | clear_value x
         | subst x)
    | split

theorem execStallAssert_keeps (hW : Within 68720591104 wz) (g : Owner) (s : State) (hm : Keeps wz s₀ s) : ∀ z, execStallAssert g s = .next z → Keeps wz s₀ z := by
  intro z ht
  unfold execStallAssert at ht
  injection ht with ht
  subst ht
  repeat' first
    | (with_reducible refine Within.sub hW ?_; decide)
    | with_reducible assumption
    | with_reducible apply stallAssert_keeps

theorem execStallMinHoldEnd_keeps (hW : Within 68720525312 wz) (g : Owner) (s : State) (hm : Keeps wz s₀ s) : ∀ z, execStallMinHoldEnd g s = .next z → Keeps wz s₀ z := by
  intro z ht
  unfold execStallMinHoldEnd at ht
  injection ht with ht
  subst ht
  repeat' first
    | (with_reducible refine Within.sub hW ?_; decide)
    | with_reducible assumption
    | with_reducible apply State.modGroup_keeps
    | with_reducible apply State.settleGroup_keeps

theorem freezeSet_keeps (hW : Within 720896 wz) (m : Member) (s : State) (hm : Keeps wz s₀ s) : Keeps wz s₀ (freezeSet m s) := by
  unfold freezeSet
  repeat' first
    | (with_reducible refine Within.sub hW ?_; decide)
    | with_reducible assumption
    | with_reducible apply State.modStrm_keeps
    | with_reducible apply State.modUnit_keeps
    | with_reducible apply State.modGate_keeps
    | split

theorem execFreezeSet_keeps (hW : Within 720896 wz) (m : Member) (s : State) (hm : Keeps wz s₀ s) : ∀ z, execFreezeSet m s = .next z → Keeps wz s₀ z := by
  intro z ht
  unfold execFreezeSet at ht
  injection ht with ht
  subst ht
  repeat' first
    | (with_reducible refine Within.sub hW ?_; decide)
    | with_reducible assumption
    | with_reducible apply freezeSet_keeps

theorem execStallOff_keeps (hW : Within 1048832 wz) (g : Owner) (s : State) (hm : Keeps wz s₀ s) : ∀ z, execStallOff g s = .next z → Keeps wz s₀ z := by
  intro z ht
  unfold execStallOff at ht
  injection ht with ht
  subst ht
  repeat' first
    | (with_reducible refine Within.sub hW ?_; decide)
    | with_reducible assumption
    | with_reducible apply State.setGroup_keeps
    | with_reducible apply State.log_keeps
    | (extract_lets +onlyGivenNames x
       first
         | (with_reducible refine mem_cut (p := Keeps wz s₀ x) ?_ ?_ <;> [subst x; (clear_value x; intro _)])
         | (with_reducible refine mem_cut (p := Keeps wz s₀ x.2) ?_ ?_ <;> [subst x; (clear_value x; intro _)])
         | (have hx := fun y => x y; clear hx; subst x; try dsimp -zeta only)
         | clear_value x
         | subst x)
    | split

theorem State.endFrameAt_keeps (hW : Within 87358654210 wz) (s : State) (site : Nat) (q : Nat) (f : Flit) (hm : Keeps wz s₀ s) : Keeps wz s₀ (State.endFrameAt s site q f) := by
  unfold State.endFrameAt
  repeat' first
    | (with_reducible refine Within.sub hW ?_; decide)
    | with_reducible assumption
    | with_reducible apply State.setUnit_keeps
    | with_reducible apply State.hazard_keeps
    | (extract_lets +onlyGivenNames x
       first
         | (with_reducible refine mem_cut (p := Keeps wz s₀ x) ?_ ?_ <;> [subst x; (clear_value x; intro _)])
         | (with_reducible refine mem_cut (p := Keeps wz s₀ x.2) ?_ ?_ <;> [subst x; (clear_value x; intro _)])
         | (have hx := fun y => x y; clear hx; subst x; try dsimp -zeta only)
         | clear_value x
         | subst x)
    | split

theorem State.removeQ_keeps (hW : Within 87358654210 wz) (s : State) (site : Nat) (q : Nat) (hm : Keeps wz s₀ s) : Keeps wz s₀ (State.removeQ s site q) := by
  unfold State.removeQ
  repeat' first
    | (with_reducible refine Within.sub hW ?_; decide)
    | with_reducible assumption
    | with_reducible apply State.setUnit_keeps
    | with_reducible apply State.endFrameAt_keeps
    | (extract_lets +onlyGivenNames x
       first
         | (with_reducible refine mem_cut (p := Keeps wz s₀ x) ?_ ?_ <;> [subst x; (clear_value x; intro _)])
         | (with_reducible refine mem_cut (p := Keeps wz s₀ x.2) ?_ ?_ <;> [subst x; (clear_value x; intro _)])
         | (have hx := fun y => x y; clear hx; subst x; try dsimp -zeta only)
         | clear_value x
         | subst x)
    | split

theorem State.useQ_keeps (hW : Within 87358654210 wz) (s : State) (site : Nat) (q : Nat) (hm : Keeps wz s₀ s) : Keeps wz s₀ (State.useQ s site q) := by
  unfold State.useQ
  repeat' first
    | (with_reducible refine Within.sub hW ?_; decide)
    | with_reducible assumption
    | with_reducible apply State.removeQ_keeps
    | split

theorem State.useCodes_keeps (hW : Within 87358654210 wz) (s : State) (site : Nat) (cs : List Nat) (hm : Keeps wz s₀ s) : Keeps wz s₀ (State.useCodes s site cs) := by
  unfold State.useCodes
  repeat' first
    | (with_reducible refine Within.sub hW ?_; decide)
    | with_reducible assumption
    | (with_reducible apply foldl_keeps; intros; try dsimp -zeta only)
    | with_reducible apply State.useQ_keeps

end Sys2Proof.Machine
end

