-- ==== Sys2Proof/Laws/Keeps08.lean ====
section
/-! SUPPORT. What the definitions from State.rawCheck to State.rowWar may write: `Keeps wz s t` says that only the
parts of `wz` differ and that memories stay canonical. -/
set_option linter.unusedTactic false
set_option linter.unreachableTactic false
set_option linter.unusedVariables false
namespace Sys2Proof.Machine
variable {wz : Nat} {s₀ : State}
theorem State.rawCheck_keeps (hW : Within 87358654210 wz) (s : State) (site : Nat) (lo : Nat) (t : Nat) (cs : List Nat) (hm : Keeps wz s₀ s) : Keeps wz s₀ (State.rawCheck s site lo t cs) := by
  unfold State.rawCheck
  repeat' first
    | (with_reducible refine Within.sub hW ?_; decide)
    | with_reducible assumption
    | with_reducible apply State.hazardNow_keeps
    | split

theorem State.result_keeps (hW : Within 131072 wz) (s : State) (site : Nat) (dst : Nat) (lo : Nat) (t : Nat) (v : List Nat) (hm : Keeps wz s₀ s) : Keeps wz s₀ (State.result s site dst lo t v) := by
  unfold State.result
  repeat' first
    | (with_reducible refine Within.sub hW ?_; decide)
    | with_reducible assumption
    | with_reducible apply State.modUnit_keeps
    | (extract_lets +onlyGivenNames x
       first
         | (with_reducible refine mem_cut (p := Keeps wz s₀ x) ?_ ?_ <;> [subst x; (clear_value x; intro _)])
         | (with_reducible refine mem_cut (p := Keeps wz s₀ x.2) ?_ ?_ <;> [subst x; (clear_value x; intro _)])
         | (have hx := fun y => x y; clear hx; subst x; try dsimp -zeta only)
         | clear_value x
         | subst x)
    | split

theorem State.issue_keeps (hW : Within 87358654210 wz) (s : State) (site : Nat) (w : Waits) (op : Nat) (can : Unit → Nat → Bool) (cost : Nat → Nat) (act : State → Nat → State) (ha : ∀ t w, Keeps wz s₀ t → Keeps wz s₀ (act t w)) (hm : Keeps wz s₀ s) : Keeps wz s₀ (State.issue s site w op can cost act) := by
  unfold State.issue
  repeat' first
    | (with_reducible refine Within.sub hW ?_; decide)
    | with_reducible assumption
    | with_reducible apply ha
    | with_reducible apply State.setUnit_keeps
    | with_reducible apply State.modUnit_keeps
    | with_reducible apply State.hazard_keeps
    | with_reducible apply State.unitOpens_keeps
    | (extract_lets +onlyGivenNames x
       first
         | (with_reducible refine mem_cut (p := Keeps wz s₀ x) ?_ ?_ <;> [subst x; (clear_value x; intro _)])
         | (with_reducible refine mem_cut (p := Keeps wz s₀ x.2) ?_ ?_ <;> [subst x; (clear_value x; intro _)])
         | (have hx := fun y => x y; clear hx; subst x; try dsimp -zeta only)
         | clear_value x
         | subst x)
    | split

theorem tagDeadlock_keeps (hW : Within 87358653698 wz) (site : Nat) (ws : Waits) (s : State) (hm : Keeps wz s₀ s) : Keeps wz s₀ (tagDeadlock site ws s) := by
  unfold tagDeadlock
  repeat' first
    | (with_reducible refine Within.sub hW ?_; decide)
    | with_reducible assumption
    | with_reducible apply State.setUnit_keeps
    | with_reducible apply State.faultCtx_keeps
    | with_reducible apply State.logSite_keeps
    | (extract_lets +onlyGivenNames x
       first
         | (with_reducible refine mem_cut (p := Keeps wz s₀ x) ?_ ?_ <;> [subst x; (clear_value x; intro _)])
         | (with_reducible refine mem_cut (p := Keeps wz s₀ x.2) ?_ ?_ <;> [subst x; (clear_value x; intro _)])
         | (have hx := fun y => x y; clear hx; subst x; try dsimp -zeta only)
         | clear_value x
         | subst x)
    | split

theorem execTagDeadlock_keeps (hW : Within 87358653698 wz) (d : DeadUnit) (s : State) (hm : Keeps wz s₀ s) : ∀ z, execTagDeadlock d s = .next z → Keeps wz s₀ z := by
  intro z ht
  unfold execTagDeadlock at ht
  injection ht with ht
  subst ht
  repeat' first
    | (with_reducible refine Within.sub hW ?_; decide)
    | with_reducible assumption
    | with_reducible apply tagDeadlock_keeps

theorem State.haltUnit_keeps (hW : Within 87358653698 wz) (s : State) (site : Nat) (pc : Nat) (e : Ev) (c : Cause) (hm : Keeps wz s₀ s) : Keeps wz s₀ (State.haltUnit s site pc e c) := by
  unfold State.haltUnit
  repeat' first
    | (with_reducible refine Within.sub hW ?_; decide)
    | with_reducible assumption
    | with_reducible apply State.setUnit_keeps
    | with_reducible apply State.faultCtx_keeps
    | with_reducible apply State.logSite_keeps
    | (extract_lets +onlyGivenNames x
       first
         | (with_reducible refine mem_cut (p := Keeps wz s₀ x) ?_ ?_ <;> [subst x; (clear_value x; intro _)])
         | (with_reducible refine mem_cut (p := Keeps wz s₀ x.2) ?_ ?_ <;> [subst x; (clear_value x; intro _)])
         | (have hx := fun y => x y; clear hx; subst x; try dsimp -zeta only)
         | clear_value x
         | subst x)

theorem illegalOp_keeps (hW : Within 87358653698 wz) (site : Nat) (spill : Bool) (w : Waits) (s : State) (hm : Keeps wz s₀ s) : Keeps wz s₀ (illegalOp site spill w s) := by
  unfold illegalOp
  repeat' first
    | (with_reducible refine Within.sub hW ?_; decide)
    | with_reducible assumption
    | with_reducible apply State.setUnit_keeps
    | with_reducible apply State.haltUnit_keeps
    | (extract_lets +onlyGivenNames x
       first
         | (with_reducible refine mem_cut (p := Keeps wz s₀ x) ?_ ?_ <;> [subst x; (clear_value x; intro _)])
         | (with_reducible refine mem_cut (p := Keeps wz s₀ x.2) ?_ ?_ <;> [subst x; (clear_value x; intro _)])
         | (have hx := fun y => x y; clear hx; subst x; try dsimp -zeta only)
         | clear_value x
         | subst x)
    | split

theorem execIllegalOp_keeps (hW : Within 87358653698 wz) (site : Site) (w : Waits) (s : State) (hm : Keeps wz s₀ s) : ∀ z, execIllegalOp site w s = .next z → Keeps wz s₀ z := by
  intro z ht
  unfold execIllegalOp at ht
  injection ht with ht
  subst ht
  repeat' first
    | (with_reducible refine Within.sub hW ?_; decide)
    | with_reducible assumption
    | with_reducible apply illegalOp_keeps

theorem execSpill_keeps (hW : Within 87358653698 wz) (site : Site) (w : Waits) (s : State) (hm : Keeps wz s₀ s) : ∀ z, execSpill site w s = .next z → Keeps wz s₀ z := by
  intro z ht
  unfold execSpill at ht
  injection ht with ht
  subst ht
  repeat' first
    | (with_reducible refine Within.sub hW ?_; decide)
    | with_reducible assumption
    | with_reducible apply illegalOp_keeps

theorem execProgUe_keeps (hW : Within 87358654210 wz) (site : Site) (s : State) (hm : Keeps wz s₀ s) : ∀ z, execProgUe site s = .next z → Keeps wz s₀ z := by
  intro z ht
  unfold execProgUe at ht
  injection ht with ht
  subst ht
  repeat' first
    | (with_reducible refine Within.sub hW ?_; decide)
    | with_reducible assumption
    | with_reducible apply State.haltUnit_keeps
    | split
    | (try dsimp -zeta only
       with_reducible refine Keeps.mk' (V := 87358654210) rfl (hW.sub (by decide)) ?_ ?_ id ?_
       · (repeat' apply And.intro) <;> first | exact fun _ => rfl | exact fun h => zone_in h
       · first | exact id | exact fun _ => rfl)

theorem execMicroNop_keeps (hW : Within 87358654210 wz) (site : Site) (w : Waits) (s : State) (hm : Keeps wz s₀ s) : ∀ z, execMicroNop site w s = .next z → Keeps wz s₀ z := by
  intro z ht
  unfold execMicroNop at ht
  injection ht with ht
  subst ht
  repeat' first
    | (with_reducible refine Within.sub hW ?_; decide)
    | with_reducible assumption
    | (with_reducible intro _; try dsimp -zeta only)
    | with_reducible apply State.issue_keeps

theorem execPop_keeps (hW : Within 87358654210 wz) (site : Site) (w : Waits) (s : State) (hm : Keeps wz s₀ s) : ∀ z, execPop site w s = .next z → Keeps wz s₀ z := by
  intro z ht
  unfold execPop at ht
  injection ht with ht
  subst ht
  repeat' first
    | (with_reducible refine Within.sub hW ?_; decide)
    | with_reducible assumption
    | (with_reducible apply foldl_keeps; intros; try dsimp -zeta only)
    | (with_reducible intro _; try dsimp -zeta only)
    | with_reducible apply State.removeQ_keeps
    | with_reducible apply State.issue_keeps

theorem execLoop_keeps (hW : Within 87358654210 wz) (site : Site) (w : Waits) (s : State) (hm : Keeps wz s₀ s) : ∀ z, execLoop site w s = .next z → Keeps wz s₀ z := by
  intro z ht
  unfold execLoop at ht
  injection ht with ht
  subst ht
  repeat' first
    | (with_reducible refine Within.sub hW ?_; decide)
    | with_reducible assumption
    | (with_reducible intro _; try dsimp -zeta only)
    | with_reducible apply State.modUnit_keeps
    | with_reducible apply State.issue_keeps

theorem execEndl_keeps (hW : Within 87358654210 wz) (site : Site) (w : Waits) (s : State) (hm : Keeps wz s₀ s) : ∀ z, execEndl site w s = .next z → Keeps wz s₀ z := by
  intro z ht
  unfold execEndl at ht
  injection ht with ht
  subst ht
  repeat' first
    | (with_reducible refine Within.sub hW ?_; decide)
    | with_reducible assumption
    | (with_reducible intro _; try dsimp -zeta only)
    | with_reducible apply State.modUnit_keeps
    | with_reducible apply State.issue_keeps

theorem execSync_keeps (hW : Within 87358654210 wz) (site : Site) (w : Waits) (s : State) (hm : Keeps wz s₀ s) : ∀ z, execSync site w s = .next z → Keeps wz s₀ z := by
  intro z ht
  unfold execSync at ht
  injection ht with ht
  subst ht
  repeat' first
    | (with_reducible refine Within.sub hW ?_; decide)
    | with_reducible assumption
    | (with_reducible intro _; try dsimp -zeta only)
    | with_reducible apply State.issue_keeps

theorem State.toSide_keeps (hW : Within 131072 wz) (s : State) (site : Nat) (east : Bool) (f : Flit) (hm : Keeps wz s₀ s) : Keeps wz s₀ (State.toSide s site east f) := by
  unfold State.toSide
  repeat' first
    | (with_reducible refine Within.sub hW ?_; decide)
    | with_reducible assumption
    | with_reducible apply State.modUnit_keeps

theorem State.pushValue_keeps (hW : Within 87358654210 wz) (s : State) (site : Nat) (c : Nat) (east : Bool) (hm : Keeps wz s₀ s) : Keeps wz s₀ (State.pushValue s site c east) := by
  unfold State.pushValue
  repeat' first
    | (with_reducible refine Within.sub hW ?_; decide)
    | with_reducible assumption
    | with_reducible apply State.draw_keeps
    | with_reducible apply State.useQ_keeps
    | with_reducible apply State.rawCheck_keeps
    | with_reducible apply State.toSide_keeps
    | (extract_lets +onlyGivenNames x
       first
         | (with_reducible refine mem_cut (p := Keeps wz s₀ x) ?_ ?_ <;> [subst x; (clear_value x; intro _)])
         | (with_reducible refine mem_cut (p := Keeps wz s₀ x.2) ?_ ?_ <;> [subst x; (clear_value x; intro _)])
         | (have hx := fun y => x y; clear hx; subst x; try dsimp -zeta only)
         | clear_value x
         | subst x)
    | split

theorem execPush_keeps (hW : Within 87358654210 wz) (site : Site) (w : Waits) (s : State) (hm : Keeps wz s₀ s) : ∀ z, execPush site w s = .next z → Keeps wz s₀ z := by
  intro z ht
  unfold execPush at ht
  injection ht with ht
  subst ht
  repeat' first
    | (with_reducible refine Within.sub hW ?_; decide)
    | with_reducible assumption
    | (with_reducible intro _; try dsimp -zeta only)
    | with_reducible apply State.modUnit_keeps
    | with_reducible apply State.issue_keeps
    | with_reducible apply State.pushValue_keeps
    | split

theorem State.emitPay_keeps (hW : Within 87358654210 wz) (s : State) (site : Nat) (w : Nat) (dChan : Nat) (dChunk : Nat) (p : BitVec 256) (hm : Keeps wz s₀ s) : Keeps wz s₀ (State.emitPay s site w dChan dChunk p) := by
  unfold State.emitPay
  repeat' first
    | (with_reducible refine Within.sub hW ?_; decide)
    | with_reducible assumption
    | with_reducible apply State.toLane_keeps

theorem State.emitFree_keeps (hW : Within 87358654210 wz) (s : State) (site : Nat) (w : Nat) (hm : Keeps wz s₀ s) : Keeps wz s₀ (State.emitFree s site w) := by
  unfold State.emitFree
  repeat' first
    | (with_reducible refine Within.sub hW ?_; decide)
    | with_reducible assumption
    | with_reducible apply State.draw_keeps
    | with_reducible apply State.emitPay_keeps

theorem State.emitLanes_keeps (hW : Within 87358654210 wz) (s : State) (site : Nat) (w : Nat) (lo : Nat) (hm : Keeps wz s₀ s) : Keeps wz s₀ (State.emitLanes s site w lo) := by
  unfold State.emitLanes
  repeat' first
    | (with_reducible refine Within.sub hW ?_; decide)
    | with_reducible assumption
    | with_reducible apply State.sendCodes_keeps
    | with_reducible apply State.emitPay_keeps
    | (extract_lets +onlyGivenNames x
       first
         | (with_reducible refine mem_cut (p := Keeps wz s₀ x) ?_ ?_ <;> [subst x; (clear_value x; intro _)])
         | (with_reducible refine mem_cut (p := Keeps wz s₀ x.2) ?_ ?_ <;> [subst x; (clear_value x; intro _)])
         | (have hx := fun y => x y; clear hx; subst x; try dsimp -zeta only)
         | clear_value x
         | subst x)
    | split

theorem State.emit_keeps (hW : Within 87358654210 wz) (s : State) (site : Nat) (w : Nat) (hm : Keeps wz s₀ s) : Keeps wz s₀ (State.emit s site w) := by
  unfold State.emit
  repeat' first
    | (with_reducible refine Within.sub hW ?_; decide)
    | with_reducible assumption
    | with_reducible apply State.useCodes_keeps
    | with_reducible apply State.rawCheck_keeps
    | with_reducible apply State.emitPay_keeps
    | with_reducible apply State.emitFree_keeps
    | with_reducible apply State.emitLanes_keeps
    | (extract_lets +onlyGivenNames x
       first
         | (with_reducible refine mem_cut (p := Keeps wz s₀ x) ?_ ?_ <;> [subst x; (clear_value x; intro _)])
         | (with_reducible refine mem_cut (p := Keeps wz s₀ x.2) ?_ ?_ <;> [subst x; (clear_value x; intro _)])
         | (have hx := fun y => x y; clear hx; subst x; try dsimp -zeta only)
         | clear_value x
         | subst x)
    | split

theorem execEmit_keeps (hW : Within 87358654210 wz) (site : Site) (w : Waits) (s : State) (hm : Keeps wz s₀ s) : ∀ z, execEmit site w s = .next z → Keeps wz s₀ z := by
  intro z ht
  unfold execEmit at ht
  injection ht with ht
  subst ht
  repeat' first
    | (with_reducible refine Within.sub hW ?_; decide)
    | with_reducible assumption
    | (with_reducible intro _; try dsimp -zeta only)
    | with_reducible apply State.issue_keeps
    | with_reducible apply State.emit_keeps
    | split

theorem State.ldw_keeps (hW : Within 87358654210 wz) (s : State) (site : Nat) (w : Nat) (hm : Keeps wz s₀ s) : Keeps wz s₀ (State.ldw s site w) := by
  unfold State.ldw
  repeat' first
    | (with_reducible refine Within.sub hW ?_; decide)
    | with_reducible assumption
    | with_reducible apply State.modUnit_keeps
    | with_reducible apply State.hazardNow_keeps
    | with_reducible apply State.useQ_keeps
    | (extract_lets +onlyGivenNames x
       first
         | (with_reducible refine mem_cut (p := Keeps wz s₀ x) ?_ ?_ <;> [subst x; (clear_value x; intro _)])
         | (with_reducible refine mem_cut (p := Keeps wz s₀ x.2) ?_ ?_ <;> [subst x; (clear_value x; intro _)])
         | (have hx := fun y => x y; clear hx; subst x; try dsimp -zeta only)
         | clear_value x
         | subst x)
    | split

theorem execLdw_keeps (hW : Within 87358654210 wz) (site : Site) (w : Waits) (s : State) (hm : Keeps wz s₀ s) : ∀ z, execLdw site w s = .next z → Keeps wz s₀ z := by
  intro z ht
  unfold execLdw at ht
  injection ht with ht
  subst ht
  repeat' first
    | (with_reducible refine Within.sub hW ?_; decide)
    | with_reducible assumption
    | (with_reducible intro _; try dsimp -zeta only)
    | with_reducible apply State.issue_keeps
    | with_reducible apply State.ldw_keeps

theorem State.mac_keeps (hW : Within 87358654210 wz) (s : State) (site : Nat) (w : Nat) (hm : Keeps wz s₀ s) : Keeps wz s₀ (State.mac s site w) := by
  unfold State.mac
  repeat' first
    | (with_reducible refine Within.sub hW ?_; decide)
    | with_reducible assumption
    | with_reducible apply State.setUnit_keeps
    | with_reducible apply State.useQ_keeps
    | (extract_lets +onlyGivenNames x
       first
         | (with_reducible refine mem_cut (p := Keeps wz s₀ x) ?_ ?_ <;> [subst x; (clear_value x; intro _)])
         | (with_reducible refine mem_cut (p := Keeps wz s₀ x.2) ?_ ?_ <;> [subst x; (clear_value x; intro _)])
         | (have hx := fun y => x y; clear hx; subst x; try dsimp -zeta only)
         | clear_value x
         | subst x)
    | split

theorem execMac_keeps (hW : Within 87358654210 wz) (site : Site) (w : Waits) (s : State) (hm : Keeps wz s₀ s) : ∀ z, execMac site w s = .next z → Keeps wz s₀ z := by
  intro z ht
  unfold execMac at ht
  injection ht with ht
  subst ht
  repeat' first
    | (with_reducible refine Within.sub hW ?_; decide)
    | with_reducible assumption
    | (with_reducible intro _; try dsimp -zeta only)
    | with_reducible apply State.issue_keeps
    | with_reducible apply State.mac_keeps

theorem State.accTree_keeps (hW : Within 131072 wz) (s : State) (site : Nat) (w : Nat) (hm : Keeps wz s₀ s) : Keeps wz s₀ (State.accTree s site w) := by
  unfold State.accTree
  repeat' first
    | (with_reducible refine Within.sub hW ?_; decide)
    | with_reducible assumption
    | with_reducible apply State.setUnit_keeps
    | (extract_lets +onlyGivenNames x
       first
         | (with_reducible refine mem_cut (p := Keeps wz s₀ x) ?_ ?_ <;> [subst x; (clear_value x; intro _)])
         | (with_reducible refine mem_cut (p := Keeps wz s₀ x.2) ?_ ?_ <;> [subst x; (clear_value x; intro _)])
         | (have hx := fun y => x y; clear hx; subst x; try dsimp -zeta only)
         | clear_value x
         | subst x)
    | split

theorem State.accBlock_keeps (hW : Within 87358654210 wz) (s : State) (site : Nat) (w : Nat) (hm : Keeps wz s₀ s) : Keeps wz s₀ (State.accBlock s site w) := by
  unfold State.accBlock
  repeat' first
    | (with_reducible refine Within.sub hW ?_; decide)
    | with_reducible assumption
    | with_reducible apply State.setUnit_keeps
    | with_reducible apply State.useQ_keeps
    | (extract_lets +onlyGivenNames x
       first
         | (with_reducible refine mem_cut (p := Keeps wz s₀ x) ?_ ?_ <;> [subst x; (clear_value x; intro _)])
         | (with_reducible refine mem_cut (p := Keeps wz s₀ x.2) ?_ ?_ <;> [subst x; (clear_value x; intro _)])
         | (have hx := fun y => x y; clear hx; subst x; try dsimp -zeta only)
         | clear_value x
         | subst x)
    | split

theorem execAcc_keeps (hW : Within 87358654210 wz) (site : Site) (w : Waits) (s : State) (hm : Keeps wz s₀ s) : ∀ z, execAcc site w s = .next z → Keeps wz s₀ z := by
  intro z ht
  unfold execAcc at ht
  injection ht with ht
  subst ht
  repeat' first
    | (with_reducible refine Within.sub hW ?_; decide)
    | with_reducible assumption
    | (with_reducible intro _; try dsimp -zeta only)
    | with_reducible apply State.issue_keeps
    | with_reducible apply State.accTree_keeps
    | with_reducible apply State.accBlock_keeps
    | split

theorem execBias_keeps (hW : Within 87358654210 wz) (site : Site) (w : Waits) (s : State) (hm : Keeps wz s₀ s) : ∀ z, execBias site w s = .next z → Keeps wz s₀ z := by
  intro z ht
  unfold execBias at ht
  injection ht with ht
  subst ht
  repeat' first
    | (with_reducible refine Within.sub hW ?_; decide)
    | with_reducible assumption
    | (with_reducible intro _; try dsimp -zeta only)
    | with_reducible apply State.modUnit_keeps
    | with_reducible apply State.issue_keeps

theorem execReq_keeps (hW : Within 87358654210 wz) (site : Site) (w : Waits) (s : State) (hm : Keeps wz s₀ s) : ∀ z, execReq site w s = .next z → Keeps wz s₀ z := by
  intro z ht
  unfold execReq at ht
  injection ht with ht
  subst ht
  repeat' first
    | (with_reducible refine Within.sub hW ?_; decide)
    | with_reducible assumption
    | (with_reducible intro _; try dsimp -zeta only)
    | with_reducible apply State.modUnit_keeps
    | with_reducible apply State.issue_keeps

theorem reqDrain_keeps (hW : Within 87358654210 wz) (site : Nat) (s : State) (hm : Keeps wz s₀ s) : Keeps wz s₀ (reqDrain site s) := by
  unfold reqDrain
  repeat' first
    | (with_reducible refine Within.sub hW ?_; decide)
    | with_reducible assumption
    | (with_reducible apply foldl_keeps; intros; try dsimp -zeta only)
    | with_reducible apply State.setUnit_keeps
    | with_reducible apply State.toLane_keeps
    | (extract_lets +onlyGivenNames x
       first
         | (with_reducible refine mem_cut (p := Keeps wz s₀ x) ?_ ?_ <;> [subst x; (clear_value x; intro _)])
         | (with_reducible refine mem_cut (p := Keeps wz s₀ x.2) ?_ ?_ <;> [subst x; (clear_value x; intro _)])
         | (have hx := fun y => x y; clear hx; subst x; try dsimp -zeta only)
         | clear_value x
         | subst x)
    | split

theorem execReqDrain_keeps (hW : Within 87358654210 wz) (site : Site) (s : State) (hm : Keeps wz s₀ s) : ∀ z, execReqDrain site s = .next z → Keeps wz s₀ z := by
  intro z ht
  unfold execReqDrain at ht
  injection ht with ht
  subst ht
  repeat' first
    | (with_reducible refine Within.sub hW ?_; decide)
    | with_reducible assumption
    | with_reducible apply reqDrain_keeps

theorem State.act_keeps (hW : Within 87358654210 wz) (s : State) (site : Nat) (w : Nat) (hm : Keeps wz s₀ s) : Keeps wz s₀ (State.act s site w) := by
  unfold State.act
  repeat' first
    | (with_reducible refine Within.sub hW ?_; decide)
    | with_reducible assumption
    | with_reducible apply State.useCodes_keeps
    | with_reducible apply State.rawCheck_keeps
    | with_reducible apply State.result_keeps
    | (extract_lets +onlyGivenNames x
       first
         | (with_reducible refine mem_cut (p := Keeps wz s₀ x) ?_ ?_ <;> [subst x; (clear_value x; intro _)])
         | (with_reducible refine mem_cut (p := Keeps wz s₀ x.2) ?_ ?_ <;> [subst x; (clear_value x; intro _)])
         | (have hx := fun y => x y; clear hx; subst x; try dsimp -zeta only)
         | clear_value x
         | subst x)
    | split

theorem execAct_keeps (hW : Within 87358654210 wz) (site : Site) (w : Waits) (s : State) (hm : Keeps wz s₀ s) : ∀ z, execAct site w s = .next z → Keeps wz s₀ z := by
  intro z ht
  unfold execAct at ht
  injection ht with ht
  subst ht
  repeat' first
    | (with_reducible refine Within.sub hW ?_; decide)
    | with_reducible assumption
    | (with_reducible intro _; try dsimp -zeta only)
    | with_reducible apply State.issue_keeps
    | with_reducible apply State.act_keeps

theorem State.elementwise_keeps (hW : Within 87358654210 wz) (s : State) (site : Nat) (w : Nat) (op : Nat → Nat → Nat) (hm : Keeps wz s₀ s) : Keeps wz s₀ (State.elementwise s site w op) := by
  unfold State.elementwise
  repeat' first
    | (with_reducible refine Within.sub hW ?_; decide)
    | with_reducible assumption
    | with_reducible apply State.useCodes_keeps
    | with_reducible apply State.rawCheck_keeps
    | with_reducible apply State.result_keeps
    | (extract_lets +onlyGivenNames x
       first
         | (with_reducible refine mem_cut (p := Keeps wz s₀ x) ?_ ?_ <;> [subst x; (clear_value x; intro _)])
         | (with_reducible refine mem_cut (p := Keeps wz s₀ x.2) ?_ ?_ <;> [subst x; (clear_value x; intro _)])
         | (have hx := fun y => x y; clear hx; subst x; try dsimp -zeta only)
         | clear_value x
         | subst x)

theorem execAdd_keeps (hW : Within 87358654210 wz) (site : Site) (w : Waits) (s : State) (hm : Keeps wz s₀ s) : ∀ z, execAdd site w s = .next z → Keeps wz s₀ z := by
  intro z ht
  unfold execAdd at ht
  injection ht with ht
  subst ht
  repeat' first
    | (with_reducible refine Within.sub hW ?_; decide)
    | with_reducible assumption
    | (with_reducible intro _; try dsimp -zeta only)
    | with_reducible apply State.issue_keeps
    | with_reducible apply State.elementwise_keeps

theorem execMul_keeps (hW : Within 87358654210 wz) (site : Site) (w : Waits) (s : State) (hm : Keeps wz s₀ s) : ∀ z, execMul site w s = .next z → Keeps wz s₀ z := by
  intro z ht
  unfold execMul at ht
  injection ht with ht
  subst ht
  repeat' first
    | (with_reducible refine Within.sub hW ?_; decide)
    | with_reducible assumption
    | (with_reducible intro _; try dsimp -zeta only)
    | with_reducible apply State.issue_keeps
    | with_reducible apply State.elementwise_keeps

theorem State.poolOp_keeps (hW : Within 131072 wz) (s : State) (site : Nat) (w : Nat) (hm : Keeps wz s₀ s) : Keeps wz s₀ (State.poolOp s site w) := by
  unfold State.poolOp
  repeat' first
    | (with_reducible refine Within.sub hW ?_; decide)
    | with_reducible assumption
    | with_reducible apply State.setUnit_keeps
    | with_reducible apply State.modUnit_keeps
    | with_reducible apply State.result_keeps
    | (extract_lets +onlyGivenNames x
       first
         | (with_reducible refine mem_cut (p := Keeps wz s₀ x) ?_ ?_ <;> [subst x; (clear_value x; intro _)])
         | (with_reducible refine mem_cut (p := Keeps wz s₀ x.2) ?_ ?_ <;> [subst x; (clear_value x; intro _)])
         | (have hx := fun y => x y; clear hx; subst x; try dsimp -zeta only)
         | clear_value x
         | subst x)
    | split

theorem execPool_keeps (hW : Within 87358654210 wz) (site : Site) (w : Waits) (s : State) (hm : Keeps wz s₀ s) : ∀ z, execPool site w s = .next z → Keeps wz s₀ z := by
  intro z ht
  unfold execPool at ht
  injection ht with ht
  subst ht
  repeat' first
    | (with_reducible refine Within.sub hW ?_; decide)
    | with_reducible assumption
    | (with_reducible intro _; try dsimp -zeta only)
    | with_reducible apply State.issue_keeps
    | with_reducible apply State.poolOp_keeps

theorem State.dwcOp_keeps (hW : Within 87358654210 wz) (s : State) (site : Nat) (w : Nat) (hm : Keeps wz s₀ s) : Keeps wz s₀ (State.dwcOp s site w) := by
  unfold State.dwcOp
  repeat' first
    | (with_reducible refine Within.sub hW ?_; decide)
    | with_reducible assumption
    | with_reducible apply State.modUnit_keeps
    | with_reducible apply State.sendCodes_keeps
    | (extract_lets +onlyGivenNames x
       first
         | (with_reducible refine mem_cut (p := Keeps wz s₀ x) ?_ ?_ <;> [subst x; (clear_value x; intro _)])
         | (with_reducible refine mem_cut (p := Keeps wz s₀ x.2) ?_ ?_ <;> [subst x; (clear_value x; intro _)])
         | (have hx := fun y => x y; clear hx; subst x; try dsimp -zeta only)
         | clear_value x
         | subst x)
    | split

theorem execDwc_keeps (hW : Within 87358654210 wz) (site : Site) (w : Waits) (s : State) (hm : Keeps wz s₀ s) : ∀ z, execDwc site w s = .next z → Keeps wz s₀ z := by
  intro z ht
  unfold execDwc at ht
  injection ht with ht
  subst ht
  repeat' first
    | (with_reducible refine Within.sub hW ?_; decide)
    | with_reducible assumption
    | (with_reducible intro _; try dsimp -zeta only)
    | with_reducible apply State.issue_keeps
    | with_reducible apply State.dwcOp_keeps

theorem State.rot_keeps (hW : Within 87358654210 wz) (s : State) (site : Nat) (w : Nat) (hm : Keeps wz s₀ s) : Keeps wz s₀ (State.rot s site w) := by
  unfold State.rot
  repeat' first
    | (with_reducible refine Within.sub hW ?_; decide)
    | with_reducible assumption
    | with_reducible apply State.setUnit_keeps
    | with_reducible apply State.unitOpens_keeps
    | with_reducible apply State.rotRun_keeps
    | (extract_lets +onlyGivenNames x
       first
         | (with_reducible refine mem_cut (p := Keeps wz s₀ x) ?_ ?_ <;> [subst x; (clear_value x; intro _)])
         | (with_reducible refine mem_cut (p := Keeps wz s₀ x.2) ?_ ?_ <;> [subst x; (clear_value x; intro _)])
         | (have hx := fun y => x y; clear hx; subst x; try dsimp -zeta only)
         | clear_value x
         | subst x)
    | split

theorem execRot_keeps (hW : Within 87358654210 wz) (site : Site) (w : Waits) (s : State) (hm : Keeps wz s₀ s) : ∀ z, execRot site w s = .next z → Keeps wz s₀ z := by
  intro z ht
  unfold execRot at ht
  injection ht with ht
  subst ht
  repeat' first
    | (with_reducible refine Within.sub hW ?_; decide)
    | with_reducible assumption
    | (with_reducible intro _; try dsimp -zeta only)
    | with_reducible apply State.issue_keeps
    | with_reducible apply State.rot_keeps

theorem State.rowWar_keeps (hW : Within 87358654210 wz) (s : State) (site : Nat) (hm : Keeps wz s₀ s) : Keeps wz s₀ (State.rowWar s site) := by
  unfold State.rowWar
  repeat' first
    | (with_reducible refine Within.sub hW ?_; decide)
    | with_reducible assumption
    | with_reducible apply State.setUnit_keeps
    | with_reducible apply State.modUnit_keeps
    | with_reducible apply State.hazardNow_keeps
    | (extract_lets +onlyGivenNames x
       first
         | (with_reducible refine mem_cut (p := Keeps wz s₀ x) ?_ ?_ <;> [subst x; (clear_value x; intro _)])
         | (with_reducible refine mem_cut (p := Keeps wz s₀ x.2) ?_ ?_ <;> [subst x; (clear_value x; intro _)])
         | (have hx := fun y => x y; clear hx; subst x; try dsimp -zeta only)
         | clear_value x
         | subst x)
    | split

end Sys2Proof.Machine
end

