-- ==== Sys2Proof/Laws/Keeps09.lean ====
section
/-! SUPPORT. What the definitions from State.movV to flitEject may write: `Keeps wz s t` says that only the
parts of `wz` differ and that memories stay canonical. -/
set_option linter.unusedTactic false
set_option linter.unreachableTactic false
set_option linter.unusedVariables false
namespace Sys2Proof.Machine
variable {wz : Nat} {s₀ : State}
theorem State.movV_keeps (hW : Within 87358654210 wz) (s : State) (site : Nat) (dst : Nat) (src : Nat) (hm : Keeps wz s₀ s) : Keeps wz s₀ (State.movV s site dst src) := by
  unfold State.movV
  repeat' first
    | (with_reducible refine Within.sub hW ?_; decide)
    | with_reducible assumption
    | with_reducible apply State.modUnit_keeps
    | with_reducible apply State.useCodes_keeps
    | with_reducible apply State.rawCheck_keeps
    | with_reducible apply State.rowWar_keeps
    | (extract_lets +onlyGivenNames x
       first
         | (with_reducible refine mem_cut (p := Keeps wz s₀ x) ?_ ?_ <;> [subst x; (clear_value x; intro _)])
         | (with_reducible refine mem_cut (p := Keeps wz s₀ x.2) ?_ ?_ <;> [subst x; (clear_value x; intro _)])
         | (have hx := fun y => x y; clear hx; subst x; try dsimp -zeta only)
         | clear_value x
         | subst x)
    | split

theorem State.movStore_keeps (hW : Within 87358654210 wz) (s : State) (site : Nat) (w : Nat) (hm : Keeps wz s₀ s) : Keeps wz s₀ (State.movStore s site w) := by
  unfold State.movStore
  repeat' first
    | (with_reducible refine Within.sub hW ?_; decide)
    | with_reducible assumption
    | (with_reducible apply foldl_keeps; intros; try dsimp -zeta only)
    | with_reducible apply State.setUnit_keeps
    | with_reducible apply State.useQ_keeps
    | (extract_lets +onlyGivenNames x
       first
         | (with_reducible refine mem_cut (p := Keeps wz s₀ x) ?_ ?_ <;> [subst x; (clear_value x; intro _)])
         | (with_reducible refine mem_cut (p := Keeps wz s₀ x.2) ?_ ?_ <;> [subst x; (clear_value x; intro _)])
         | (have hx := fun y => x y; clear hx; subst x; try dsimp -zeta only)
         | clear_value x
         | subst x)
    | split

theorem State.movT_keeps (hW : Within 87358654210 wz) (s : State) (site : Nat) (src : Nat) (hm : Keeps wz s₀ s) : Keeps wz s₀ (State.movT s site src) := by
  unfold State.movT
  repeat' first
    | (with_reducible refine Within.sub hW ?_; decide)
    | with_reducible assumption
    | (with_reducible apply foldl_keeps; intros; try dsimp -zeta only)
    | with_reducible apply State.setUnit_keeps
    | with_reducible apply State.useQ_keeps
    | (extract_lets +onlyGivenNames x
       first
         | (with_reducible refine mem_cut (p := Keeps wz s₀ x) ?_ ?_ <;> [subst x; (clear_value x; intro _)])
         | (with_reducible refine mem_cut (p := Keeps wz s₀ x.2) ?_ ?_ <;> [subst x; (clear_value x; intro _)])
         | (have hx := fun y => x y; clear hx; subst x; try dsimp -zeta only)
         | clear_value x
         | subst x)
    | split

theorem State.mov_keeps (hW : Within 87358654210 wz) (s : State) (site : Nat) (w : Nat) (hm : Keeps wz s₀ s) : Keeps wz s₀ (State.mov s site w) := by
  unfold State.mov
  repeat' first
    | (with_reducible refine Within.sub hW ?_; decide)
    | with_reducible assumption
    | with_reducible apply State.modUnit_keeps
    | with_reducible apply State.movV_keeps
    | with_reducible apply State.movStore_keeps
    | with_reducible apply State.movT_keeps
    | (extract_lets +onlyGivenNames x
       first
         | (with_reducible refine mem_cut (p := Keeps wz s₀ x) ?_ ?_ <;> [subst x; (clear_value x; intro _)])
         | (with_reducible refine mem_cut (p := Keeps wz s₀ x.2) ?_ ?_ <;> [subst x; (clear_value x; intro _)])
         | (have hx := fun y => x y; clear hx; subst x; try dsimp -zeta only)
         | clear_value x
         | subst x)
    | split

theorem execMov_keeps (hW : Within 87358654210 wz) (site : Site) (w : Waits) (s : State) (hm : Keeps wz s₀ s) : ∀ z, execMov site w s = .next z → Keeps wz s₀ z := by
  intro z ht
  unfold execMov at ht
  injection ht with ht
  subst ht
  repeat' first
    | (with_reducible refine Within.sub hW ?_; decide)
    | with_reducible assumption
    | (with_reducible intro _; try dsimp -zeta only)
    | with_reducible apply State.issue_keeps
    | with_reducible apply State.mov_keeps

theorem State.sramUe_keeps (hW : Within 1073939200 wz) (s : State) (site : Nat) (w : Nat) (st : Nat) (f8 : Nat) (line : Nat) (hm : Keeps wz s₀ s) : Keeps wz s₀ (State.sramUe s site w st f8 line) := by
  unfold State.sramUe
  repeat' first
    | (with_reducible refine Within.sub hW ?_; decide)
    | with_reducible assumption
    | with_reducible apply State.modUnit_keeps
    | with_reducible apply State.flagFrame8_keeps
    | with_reducible apply State.modRunning_keeps
    | with_reducible apply State.logSite_keeps
    | (extract_lets +onlyGivenNames x
       first
         | (with_reducible refine mem_cut (p := Keeps wz s₀ x) ?_ ?_ <;> [subst x; (clear_value x; intro _)])
         | (with_reducible refine mem_cut (p := Keeps wz s₀ x.2) ?_ ?_ <;> [subst x; (clear_value x; intro _)])
         | (have hx := fun y => x y; clear hx; subst x; try dsimp -zeta only)
         | clear_value x
         | subst x)
    | split
    | (try dsimp -zeta only
       with_reducible refine Keeps.mk' (V := 1073939200) rfl (hW.sub (by decide)) ?_ ?_ id ?_
       · (repeat' apply And.intro) <;> first | exact fun _ => rfl | exact fun h => zone_in h
       · first | exact id | exact fun _ => rfl)

theorem State.wordRead_keeps (hW : Within 1073939200 wz) (s : State) (site : Nat) (w : Nat) (e : Ecc) (st : Nat) (f8 : Nat) (line : Nat) (hm : Keeps wz s₀ s) : Keeps wz s₀ (State.wordRead s site w e st f8 line) := by
  unfold State.wordRead
  repeat' first
    | (with_reducible refine Within.sub hW ?_; decide)
    | with_reducible assumption
    | with_reducible apply State.modUnit_keeps
    | with_reducible apply State.sramUe_keeps
    | split

theorem State.genFlit_keeps (hW : Within 87358654210 wz) (s : State) (site : Nat) (gen : Nat) (q : GenSeq) (pos : Nat) (hm : Keeps wz s₀ s) : Keeps wz s₀ (State.genFlit s site gen q pos) := by
  unfold State.genFlit
  repeat' first
    | (with_reducible refine Within.sub hW ?_; decide)
    | with_reducible assumption
    | with_reducible apply State.modUnit_keeps
    | with_reducible apply State.draw_keeps
    | with_reducible apply State.hazard_keeps
    | with_reducible apply State.toSide_keeps
    | (extract_lets +onlyGivenNames x
       first
         | (with_reducible refine mem_cut (p := Keeps wz s₀ x) ?_ ?_ <;> [subst x; (clear_value x; intro _)])
         | (with_reducible refine mem_cut (p := Keeps wz s₀ x.2) ?_ ?_ <;> [subst x; (clear_value x; intro _)])
         | (have hx := fun y => x y; clear hx; subst x; try dsimp -zeta only)
         | clear_value x
         | subst x)
    | split

theorem generatorSequence_keeps (hW : Within 87358654210 wz) (site : Nat) (gen : Nat) (n : Nat) (ecc : Ecc) (s : State) (hm : Keeps wz s₀ s) : Keeps wz s₀ (generatorSequence site gen n ecc s) := by
  unfold generatorSequence
  repeat' first
    | (with_reducible refine Within.sub hW ?_; decide)
    | with_reducible assumption
    | (with_reducible apply foldl_keeps; intros; try dsimp -zeta only)
    | with_reducible apply State.modUnit_keeps
    | with_reducible apply State.sramUe_keeps
    | with_reducible apply State.wordRead_keeps
    | with_reducible apply State.genFlit_keeps
    | (extract_lets +onlyGivenNames x
       first
         | (with_reducible refine mem_cut (p := Keeps wz s₀ x) ?_ ?_ <;> [subst x; (clear_value x; intro _)])
         | (with_reducible refine mem_cut (p := Keeps wz s₀ x.2) ?_ ?_ <;> [subst x; (clear_value x; intro _)])
         | (have hx := fun y => x y; clear hx; subst x; try dsimp -zeta only)
         | clear_value x
         | subst x)
    | split

theorem execGeneratorSequence_keeps (hW : Within 87358654210 wz) (site : Site) (gen : Fin 2) (n : Fin 65) (ecc : Ecc) (s : State) (hm : Keeps wz s₀ s) : ∀ z, execGeneratorSequence site gen n ecc s = .next z → Keeps wz s₀ z := by
  intro z ht
  unfold execGeneratorSequence at ht
  injection ht with ht
  subst ht
  repeat' first
    | (with_reducible refine Within.sub hW ?_; decide)
    | with_reducible assumption
    | with_reducible apply generatorSequence_keeps

theorem execScrubRead_keeps (hW : Within 1090716416 wz) (site : Site) (ecc : Ecc) (raced : Bool) (s : State) (hm : Keeps wz s₀ s) : ∀ z, execScrubRead site ecc raced s = .next z → Keeps wz s₀ z := by
  intro z ht
  unfold execScrubRead at ht
  injection ht with ht
  subst ht
  repeat' first
    | (with_reducible refine Within.sub hW ?_; decide)
    | with_reducible assumption
    | with_reducible apply State.setUnit_keeps
    | with_reducible apply State.modUnit_keeps
    | with_reducible apply State.useArb_keeps
    | with_reducible apply State.wordRead_keeps
    | (extract_lets +onlyGivenNames x
       first
         | (with_reducible refine mem_cut (p := Keeps wz s₀ x) ?_ ?_ <;> [subst x; (clear_value x; intro _)])
         | (with_reducible refine mem_cut (p := Keeps wz s₀ x.2) ?_ ?_ <;> [subst x; (clear_value x; intro _)])
         | (have hx := fun y => x y; clear hx; subst x; try dsimp -zeta only)
         | clear_value x
         | subst x)
    | split
    | with_reducible apply keeps_getD
    | with_reducible exact opt_none
    | with_reducible apply opt_some
    | (with_reducible refine keeps_of_some (by assumption) ?_)

theorem execServiceAccess_keeps (hW : Within 1090716416 wz) (site : Site) (a : ServiceAcc) (s : State) (hm : Keeps wz s₀ s) : ∀ z, execServiceAccess site a s = .next z → Keeps wz s₀ z := by
  intro z ht
  unfold execServiceAccess at ht
  injection ht with ht
  subst ht
  repeat' first
    | (with_reducible refine Within.sub hW ?_; decide)
    | with_reducible assumption
    | with_reducible apply State.setUnit_keeps
    | with_reducible apply State.useArb_keeps
    | with_reducible apply State.wordRead_keeps
    | (extract_lets +onlyGivenNames x
       first
         | (with_reducible refine mem_cut (p := Keeps wz s₀ x) ?_ ?_ <;> [subst x; (clear_value x; intro _)])
         | (with_reducible refine mem_cut (p := Keeps wz s₀ x.2) ?_ ?_ <;> [subst x; (clear_value x; intro _)])
         | (have hx := fun y => x y; clear hx; subst x; try dsimp -zeta only)
         | clear_value x
         | subst x)
    | split
    | with_reducible apply keeps_getD
    | with_reducible exact opt_none
    | with_reducible apply opt_some
    | (with_reducible refine keeps_of_some (by assumption) ?_)

theorem statsRecordSend_keeps (hW : Within 87358654210 wz) (site : Nat) (s : State) (hm : Keeps wz s₀ s) : Keeps wz s₀ (statsRecordSend site s) := by
  unfold statsRecordSend
  repeat' first
    | (with_reducible refine Within.sub hW ?_; decide)
    | with_reducible assumption
    | with_reducible apply State.setUnit_keeps
    | with_reducible apply State.hazard_keeps
    | with_reducible apply State.toLane_keeps
    | (extract_lets +onlyGivenNames x
       first
         | (with_reducible refine mem_cut (p := Keeps wz s₀ x) ?_ ?_ <;> [subst x; (clear_value x; intro _)])
         | (with_reducible refine mem_cut (p := Keeps wz s₀ x.2) ?_ ?_ <;> [subst x; (clear_value x; intro _)])
         | (have hx := fun y => x y; clear hx; subst x; try dsimp -zeta only)
         | clear_value x
         | subst x)
    | split

theorem execStatsRecordSend_keeps (hW : Within 87358654210 wz) (site : Site) (s : State) (hm : Keeps wz s₀ s) : ∀ z, execStatsRecordSend site s = .next z → Keeps wz s₀ z := by
  intro z ht
  unfold execStatsRecordSend at ht
  injection ht with ht
  subst ht
  repeat' first
    | (with_reducible refine Within.sub hW ?_; decide)
    | with_reducible assumption
    | with_reducible apply statsRecordSend_keeps

theorem State.statsOp_keeps (hW : Within 87358654210 wz) (s : State) (site : Nat) (w : Nat) (hm : Keeps wz s₀ s) : Keeps wz s₀ (State.statsOp s site w) := by
  unfold State.statsOp
  repeat' first
    | (with_reducible refine Within.sub hW ?_; decide)
    | with_reducible assumption
    | (with_reducible apply foldl_keeps; intros; try dsimp -zeta only)
    | with_reducible apply State.modUnit_keeps
    | with_reducible apply State.useQ_keeps
    | (extract_lets +onlyGivenNames x
       first
         | (with_reducible refine mem_cut (p := Keeps wz s₀ x) ?_ ?_ <;> [subst x; (clear_value x; intro _)])
         | (with_reducible refine mem_cut (p := Keeps wz s₀ x.2) ?_ ?_ <;> [subst x; (clear_value x; intro _)])
         | (have hx := fun y => x y; clear hx; subst x; try dsimp -zeta only)
         | clear_value x
         | subst x)
    | split

theorem execStats_keeps (hW : Within 87358654210 wz) (site : Site) (w : Waits) (s : State) (hm : Keeps wz s₀ s) : ∀ z, execStats site w s = .next z → Keeps wz s₀ z := by
  intro z ht
  unfold execStats at ht
  injection ht with ht
  subst ht
  repeat' first
    | (with_reducible refine Within.sub hW ?_; decide)
    | with_reducible assumption
    | (with_reducible intro _; try dsimp -zeta only)
    | with_reducible apply State.issue_keeps
    | with_reducible apply State.statsOp_keeps

theorem State.nodeRead_keeps (hW : Within 1073939200 wz) (s : State) (site : Nat) (g : Nat) (ext : Bool) (ws : Waits) (op : Unit → Unit) (hm : Keeps wz s₀ s) : Keeps wz s₀ (State.nodeRead s site g ext ws op) := by
  unfold State.nodeRead
  repeat' first
    | (with_reducible refine Within.sub hW ?_; decide)
    | with_reducible assumption
    | with_reducible apply State.setUnit_keeps
    | with_reducible apply State.wordRead_keeps
    | (extract_lets +onlyGivenNames x
       first
         | (with_reducible refine mem_cut (p := Keeps wz s₀ x) ?_ ?_ <;> [subst x; (clear_value x; intro _)])
         | (with_reducible refine mem_cut (p := Keeps wz s₀ x.2) ?_ ?_ <;> [subst x; (clear_value x; intro _)])
         | (have hx := fun y => x y; clear hx; subst x; try dsimp -zeta only)
         | clear_value x
         | subst x)
    | split

theorem execTcmp_keeps (hW : Within 87358654210 wz) (site : Site) (w : Waits) (s : State) (hm : Keeps wz s₀ s) : ∀ z, execTcmp site w s = .next z → Keeps wz s₀ z := by
  intro z ht
  unfold execTcmp at ht
  injection ht with ht
  subst ht
  repeat' first
    | (with_reducible refine Within.sub hW ?_; decide)
    | with_reducible assumption
    | (with_reducible intro _; try dsimp -zeta only)
    | with_reducible apply State.issue_keeps
    | with_reducible apply State.nodeRead_keeps

theorem execTleaf_keeps (hW : Within 87358654210 wz) (site : Site) (w : Waits) (s : State) (hm : Keeps wz s₀ s) : ∀ z, execTleaf site w s = .next z → Keeps wz s₀ z := by
  intro z ht
  unfold execTleaf at ht
  injection ht with ht
  subst ht
  repeat' first
    | (with_reducible refine Within.sub hW ?_; decide)
    | with_reducible assumption
    | (with_reducible intro _; try dsimp -zeta only)
    | with_reducible apply State.issue_keeps
    | with_reducible apply State.nodeRead_keeps

theorem lineTake_keeps (hW : Within 65536 wz) (st : Nat) (s : State) (hm : Keeps wz s₀ s) : Keeps wz s₀ (lineTake st s) := by
  unfold lineTake
  repeat' first
    | (with_reducible refine Within.sub hW ?_; decide)
    | with_reducible assumption
    | with_reducible apply State.setStrm_keeps
    | (extract_lets +onlyGivenNames x
       first
         | (with_reducible refine mem_cut (p := Keeps wz s₀ x) ?_ ?_ <;> [subst x; (clear_value x; intro _)])
         | (with_reducible refine mem_cut (p := Keeps wz s₀ x.2) ?_ ?_ <;> [subst x; (clear_value x; intro _)])
         | (have hx := fun y => x y; clear hx; subst x; try dsimp -zeta only)
         | clear_value x
         | subst x)
    | split

theorem execLineTake_keeps (hW : Within 65536 wz) (st : StreamId) (s : State) (hm : Keeps wz s₀ s) : ∀ z, execLineTake st s = .next z → Keeps wz s₀ z := by
  intro z ht
  unfold execLineTake at ht
  injection ht with ht
  subst ht
  repeat' first
    | (with_reducible refine Within.sub hW ?_; decide)
    | with_reducible assumption
    | with_reducible apply lineTake_keeps

theorem State.latchEdge_keeps (hW : Within 4276480 wz) (s : State) (st : Nat) (fseq : B16) (values : Bool) (hm : Keeps wz s₀ s) : Keeps wz s₀ (State.latchEdge s st fseq values) := by
  unfold State.latchEdge
  repeat' first
    | (with_reducible refine Within.sub hW ?_; decide)
    | with_reducible assumption
    | with_reducible apply State.modHead_keeps
    | with_reducible apply State.modStrm_keeps
    | with_reducible apply State.modEdgeEng_keeps
    | with_reducible apply State.latchTrim_keeps
    | (extract_lets +onlyGivenNames x
       first
         | (with_reducible refine mem_cut (p := Keeps wz s₀ x) ?_ ?_ <;> [subst x; (clear_value x; intro _)])
         | (with_reducible refine mem_cut (p := Keeps wz s₀ x.2) ?_ ?_ <;> [subst x; (clear_value x; intro _)])
         | (have hx := fun y => x y; clear hx; subst x; try dsimp -zeta only)
         | clear_value x
         | subst x)
    | split

theorem State.edgeSend_keeps (hW : Within 4194304 wz) (s : State) (st : Nat) (stripe : Nat) (fs : List Flit) (hm : Keeps wz s₀ s) : Keeps wz s₀ (State.edgeSend s st stripe fs) := by
  unfold State.edgeSend
  repeat' first
    | (with_reducible refine Within.sub hW ?_; decide)
    | with_reducible assumption
    | with_reducible apply State.modEdgeEng_keeps
    | (extract_lets +onlyGivenNames x
       first
         | (with_reducible refine mem_cut (p := Keeps wz s₀ x) ?_ ?_ <;> [subst x; (clear_value x; intro _)])
         | (with_reducible refine mem_cut (p := Keeps wz s₀ x.2) ?_ ?_ <;> [subst x; (clear_value x; intro _)])
         | (have hx := fun y => x y; clear hx; subst x; try dsimp -zeta only)
         | clear_value x
         | subst x)

theorem State.splitRow_keeps (hW : Within 4194304 wz) (s : State) (st : Nat) (fseq : B16) (row : Nat) (per : Nat) (width : Nat) (fill : Nat) (chans : List (List Nat)) (hm : Keeps wz s₀ s) : Keeps wz s₀ (State.splitRow s st fseq row per width fill chans) := by
  unfold State.splitRow
  repeat' first
    | (with_reducible refine Within.sub hW ?_; decide)
    | with_reducible assumption
    | (with_reducible apply foldl_keeps; intros; try dsimp -zeta only)
    | with_reducible apply State.edgeSend_keeps
    | (extract_lets +onlyGivenNames x
       first
         | (with_reducible refine mem_cut (p := Keeps wz s₀ x) ?_ ?_ <;> [subst x; (clear_value x; intro _)])
         | (with_reducible refine mem_cut (p := Keeps wz s₀ x.2) ?_ ?_ <;> [subst x; (clear_value x; intro _)])
         | (have hx := fun y => x y; clear hx; subst x; try dsimp -zeta only)
         | clear_value x
         | subst x)
    | split

theorem State.edgeRow_keeps (hW : Within 4194304 wz) (s : State) (st : Nat) (l : LayerDecl) (e : EdgeFrame) (n : Nat) (r : Nat) (hm : Keeps wz s₀ s) : Keeps wz s₀ (State.edgeRow s st l e n r) := by
  unfold State.edgeRow
  repeat' first
    | (with_reducible refine Within.sub hW ?_; decide)
    | with_reducible assumption
    | (with_reducible apply foldl_keeps; intros; try dsimp -zeta only)
    | with_reducible apply State.modEdgeEng_keeps
    | with_reducible apply State.splitRow_keeps
    | (extract_lets +onlyGivenNames x
       first
         | (with_reducible refine mem_cut (p := Keeps wz s₀ x) ?_ ?_ <;> [subst x; (clear_value x; intro _)])
         | (with_reducible refine mem_cut (p := Keeps wz s₀ x.2) ?_ ?_ <;> [subst x; (clear_value x; intro _)])
         | (have hx := fun y => x y; clear hx; subst x; try dsimp -zeta only)
         | clear_value x
         | subst x)
    | split

theorem State.edgeRows_keeps (hW : Within 4259840 wz) (l : LayerDecl) (n : Nat) (ready : EdgeFrame → Nat → Bool) (k : Nat) (st : Nat) (s : State) (hm : Keeps wz s₀ s) : Keeps wz s₀ (State.edgeRows l n ready k st s) := by
  induction k generalizing s with
  | zero => exact hm
  | succ k ih =>
    unfold State.edgeRows
    repeat' first
      | (with_reducible refine Within.sub hW ?_; decide)
      | with_reducible assumption
      | with_reducible apply ih
      | with_reducible apply State.modStrm_keeps
      | with_reducible apply State.edgeRow_keeps
      | split

theorem State.frameLeaves_keeps (hW : Within 87358655746 wz) (s : State) (st : Nat) (fseq : B16) (hm : Keeps wz s₀ s) : Keeps wz s₀ (State.frameLeaves s st fseq) := by
  unfold State.frameLeaves
  repeat' first
    | (with_reducible refine Within.sub hW ?_; decide)
    | with_reducible assumption
    | with_reducible apply State.modFrame_keeps
    | with_reducible apply State.modRunning_keeps
    | with_reducible apply State.faultCtx_keeps
    | with_reducible apply State.capFrameEnd_keeps
    | (extract_lets +onlyGivenNames x
       first
         | (with_reducible refine mem_cut (p := Keeps wz s₀ x) ?_ ?_ <;> [subst x; (clear_value x; intro _)])
         | (with_reducible refine mem_cut (p := Keeps wz s₀ x.2) ?_ ?_ <;> [subst x; (clear_value x; intro _)])
         | (have hx := fun y => x y; clear hx; subst x; try dsimp -zeta only)
         | clear_value x
         | subst x)
    | split

theorem State.edgeLine_keeps (hW : Within 4276480 wz) (s : State) (st : Nat) (l : Line) (hm : Keeps wz s₀ s) : Keeps wz s₀ (State.edgeLine s st l) := by
  unfold State.edgeLine
  repeat' first
    | (with_reducible refine Within.sub hW ?_; decide)
    | with_reducible assumption
    | with_reducible apply State.modStrm_keeps
    | with_reducible apply State.modFrame_keeps
    | with_reducible apply State.latchEdge_keeps
    | with_reducible apply State.splitRow_keeps
    | with_reducible apply State.edgeRows_keeps
    | (extract_lets +onlyGivenNames x
       first
         | (with_reducible refine mem_cut (p := Keeps wz s₀ x) ?_ ?_ <;> [subst x; (clear_value x; intro _)])
         | (with_reducible refine mem_cut (p := Keeps wz s₀ x.2) ?_ ?_ <;> [subst x; (clear_value x; intro _)])
         | (have hx := fun y => x y; clear hx; subst x; try dsimp -zeta only)
         | clear_value x
         | subst x)
    | split

theorem State.edgeEof_keeps (hW : Within 87358655746 wz) (s : State) (st : Nat) (fseq : B16) (hm : Keeps wz s₀ s) : Keeps wz s₀ (State.edgeEof s st fseq) := by
  unfold State.edgeEof
  repeat' first
    | (with_reducible refine Within.sub hW ?_; decide)
    | with_reducible assumption
    | (with_reducible apply foldl_keeps; intros; try dsimp -zeta only)
    | with_reducible apply State.modStrm_keeps
    | with_reducible apply State.modFrame_keeps
    | with_reducible apply State.edgeSend_keeps
    | with_reducible apply State.edgeRows_keeps
    | with_reducible apply State.frameLeaves_keeps
    | (extract_lets +onlyGivenNames x
       first
         | (with_reducible refine mem_cut (p := Keeps wz s₀ x) ?_ ?_ <;> [subst x; (clear_value x; intro _)])
         | (with_reducible refine mem_cut (p := Keeps wz s₀ x.2) ?_ ?_ <;> [subst x; (clear_value x; intro _)])
         | (have hx := fun y => x y; clear hx; subst x; try dsimp -zeta only)
         | clear_value x
         | subst x)
    | split

theorem edgeAdmit_keeps (hW : Within 87358655746 wz) (st : Nat) (s : State) (hm : Keeps wz s₀ s) : Keeps wz s₀ (edgeAdmit st s) := by
  unfold edgeAdmit
  repeat' first
    | (with_reducible refine Within.sub hW ?_; decide)
    | with_reducible assumption
    | with_reducible apply State.setStrm_keeps
    | with_reducible apply State.edgeLine_keeps
    | with_reducible apply State.edgeEof_keeps
    | (extract_lets +onlyGivenNames x
       first
         | (with_reducible refine mem_cut (p := Keeps wz s₀ x) ?_ ?_ <;> [subst x; (clear_value x; intro _)])
         | (with_reducible refine mem_cut (p := Keeps wz s₀ x.2) ?_ ?_ <;> [subst x; (clear_value x; intro _)])
         | (have hx := fun y => x y; clear hx; subst x; try dsimp -zeta only)
         | clear_value x
         | subst x)
    | split

theorem execEdgeLineAdmit_keeps (hW : Within 87358655746 wz) (st : StreamId) (s : State) (hm : Keeps wz s₀ s) : ∀ z, execEdgeLineAdmit st s = .next z → Keeps wz s₀ z := by
  intro z ht
  unfold execEdgeLineAdmit at ht
  injection ht with ht
  subst ht
  repeat' first
    | (with_reducible refine Within.sub hW ?_; decide)
    | with_reducible assumption
    | with_reducible apply edgeAdmit_keeps

theorem pacedLine_keeps (hW : Within 69863558400 wz) (st : Nat) (s : State) (hm : Keeps wz s₀ s) : Keeps wz s₀ (pacedLine st s) := by
  unfold pacedLine
  repeat' first
    | (with_reducible refine Within.sub hW ?_; decide)
    | with_reducible assumption
    | with_reducible apply State.setStrm_keeps
    | with_reducible apply State.endStream_keeps
    | with_reducible apply State.checkStopping_keeps
    | with_reducible apply State.setLate_keeps
    | with_reducible apply State.capFrameStart_keeps
    | (extract_lets +onlyGivenNames x
       first
         | (with_reducible refine mem_cut (p := Keeps wz s₀ x) ?_ ?_ <;> [subst x; (clear_value x; intro _)])
         | (with_reducible refine mem_cut (p := Keeps wz s₀ x.2) ?_ ?_ <;> [subst x; (clear_value x; intro _)])
         | (have hx := fun y => x y; clear hx; subst x; try dsimp -zeta only)
         | clear_value x
         | subst x)
    | split

theorem execPacedLineStart_keeps (hW : Within 69863558400 wz) (st : StreamId) (s : State) (hm : Keeps wz s₀ s) : ∀ z, execPacedLineStart st s = .next z → Keeps wz s₀ z := by
  intro z ht
  unfold execPacedLineStart at ht
  injection ht with ht
  subst ht
  repeat' first
    | (with_reducible refine Within.sub hW ?_; decide)
    | with_reducible assumption
    | with_reducible apply pacedLine_keeps

theorem State.putReplay_keeps (hW : Within 68722688000 wz) (s : State) (st : Nat) (r : Replay) (codes : List B16) (bad : Bool) (hm : Keeps wz s₀ s) : Keeps wz s₀ (State.putReplay s st r codes bad) := by
  unfold State.putReplay
  repeat' first
    | (with_reducible refine Within.sub hW ?_; decide)
    | with_reducible assumption
    | with_reducible apply State.modStrm_keeps
    | with_reducible apply State.setLate_keeps
    | (extract_lets +onlyGivenNames x
       first
         | (with_reducible refine mem_cut (p := Keeps wz s₀ x) ?_ ?_ <;> [subst x; (clear_value x; intro _)])
         | (with_reducible refine mem_cut (p := Keeps wz s₀ x.2) ?_ ?_ <;> [subst x; (clear_value x; intro _)])
         | (have hx := fun y => x y; clear hx; subst x; try dsimp -zeta only)
         | clear_value x
         | subst x)
    | split

theorem replayPrefetch_keeps (hW : Within 73017655552 wz) (st : Nat) (ecc : Ecc) (s : State) (hm : Keeps wz s₀ s) : Keeps wz s₀ (replayPrefetch st ecc s) := by
  unfold replayPrefetch
  repeat' first
    | (with_reducible refine Within.sub hW ?_; decide)
    | with_reducible assumption
    | with_reducible apply State.log_keeps
    | with_reducible apply State.hbmCe_keeps
    | with_reducible apply State.putReplay_keeps
    | (extract_lets +onlyGivenNames x
       first
         | (with_reducible refine mem_cut (p := Keeps wz s₀ x) ?_ ?_ <;> [subst x; (clear_value x; intro _)])
         | (with_reducible refine mem_cut (p := Keeps wz s₀ x.2) ?_ ?_ <;> [subst x; (clear_value x; intro _)])
         | (have hx := fun y => x y; clear hx; subst x; try dsimp -zeta only)
         | clear_value x
         | subst x)
    | split

theorem execReplayPrefetch_keeps (hW : Within 73017655552 wz) (st : StreamId) (ecc : Ecc) (s : State) (hm : Keeps wz s₀ s) : ∀ z, execReplayPrefetch st ecc s = .next z → Keeps wz s₀ z := by
  intro z ht
  unfold execReplayPrefetch at ht
  injection ht with ht
  subst ht
  repeat' first
    | (with_reducible refine Within.sub hW ?_; decide)
    | with_reducible assumption
    | with_reducible apply replayPrefetch_keeps

theorem State.releaseLine_keeps (hW : Within 65536 wz) (s : State) (st : Nat) (f8 : Nat) (n : Nat) (r : Nat) (hm : Keeps wz s₀ s) : Keeps wz s₀ (State.releaseLine s st f8 n r) := by
  unfold State.releaseLine
  repeat' first
    | (with_reducible refine Within.sub hW ?_; decide)
    | with_reducible assumption
    | with_reducible apply State.setStrm_keeps
    | (extract_lets +onlyGivenNames x
       first
         | (with_reducible refine mem_cut (p := Keeps wz s₀ x) ?_ ?_ <;> [subst x; (clear_value x; intro _)])
         | (with_reducible refine mem_cut (p := Keeps wz s₀ x.2) ?_ ?_ <;> [subst x; (clear_value x; intro _)])
         | (have hx := fun y => x y; clear hx; subst x; try dsimp -zeta only)
         | clear_value x
         | subst x)
    | split

theorem State.releaseEof_keeps (hW : Within 87358655746 wz) (s : State) (st : Nat) (f8 : Nat) (gate : Bool) (hm : Keeps wz s₀ s) : Keeps wz s₀ (State.releaseEof s st f8 gate) := by
  unfold State.releaseEof
  repeat' first
    | (with_reducible refine Within.sub hW ?_; decide)
    | with_reducible assumption
    | with_reducible apply State.setStrm_keeps
    | with_reducible apply State.frameLeaves_keeps
    | (extract_lets +onlyGivenNames x
       first
         | (with_reducible refine mem_cut (p := Keeps wz s₀ x) ?_ ?_ <;> [subst x; (clear_value x; intro _)])
         | (with_reducible refine mem_cut (p := Keeps wz s₀ x.2) ?_ ?_ <;> [subst x; (clear_value x; intro _)])
         | (have hx := fun y => x y; clear hx; subst x; try dsimp -zeta only)
         | clear_value x
         | subst x)
    | split

theorem tailRelease_keeps (hW : Within 87358655746 wz) (st : Nat) (s : State) (hm : Keeps wz s₀ s) : Keeps wz s₀ (tailRelease st s) := by
  unfold tailRelease
  repeat' first
    | (with_reducible refine Within.sub hW ?_; decide)
    | with_reducible assumption
    | (with_reducible apply foldl_keeps; intros; try dsimp -zeta only)
    | with_reducible apply State.tailTake_keeps
    | with_reducible apply State.releaseLine_keeps
    | with_reducible apply State.releaseEof_keeps
    | (extract_lets +onlyGivenNames x
       first
         | (with_reducible refine mem_cut (p := Keeps wz s₀ x) ?_ ?_ <;> [subst x; (clear_value x; intro _)])
         | (with_reducible refine mem_cut (p := Keeps wz s₀ x.2) ?_ ?_ <;> [subst x; (clear_value x; intro _)])
         | (have hx := fun y => x y; clear hx; subst x; try dsimp -zeta only)
         | clear_value x
         | subst x)
    | split

theorem execTailLineRelease_keeps (hW : Within 87358655746 wz) (st : StreamId) (s : State) (hm : Keeps wz s₀ s) : ∀ z, execTailLineRelease st s = .next z → Keeps wz s₀ z := by
  intro z ht
  unfold execTailLineRelease at ht
  injection ht with ht
  subst ht
  repeat' first
    | (with_reducible refine Within.sub hW ?_; decide)
    | with_reducible assumption
    | with_reducible apply tailRelease_keeps

theorem State.ringFlit_keeps (hW : Within 8590000384 wz) (s : State) (st : Nat) (f : Flit) (hm : Keeps wz s₀ s) : Keeps wz s₀ (State.ringFlit s st f) := by
  unfold State.ringFlit
  repeat' first
    | (with_reducible refine Within.sub hW ?_; decide)
    | with_reducible assumption
    | with_reducible apply State.setStrm_keeps
    | with_reducible apply State.hbmWrite_keeps
    | with_reducible apply State.log_keeps
    | with_reducible apply State.modFrame_keeps
    | (extract_lets +onlyGivenNames x
       first
         | (with_reducible refine mem_cut (p := Keeps wz s₀ x) ?_ ?_ <;> [subst x; (clear_value x; intro _)])
         | (with_reducible refine mem_cut (p := Keeps wz s₀ x.2) ?_ ?_ <;> [subst x; (clear_value x; intro _)])
         | (have hx := fun y => x y; clear hx; subst x; try dsimp -zeta only)
         | clear_value x
         | subst x)
    | split

theorem State.portOut_keeps (hW : Within 87358655746 wz) (s : State) (st : Nat) (stripe : Nat) (f : Flit) (hm : Keeps wz s₀ s) : Keeps wz s₀ (State.portOut s st stripe f) := by
  unfold State.portOut
  repeat' first
    | (with_reducible refine Within.sub hW ?_; decide)
    | with_reducible assumption
    | with_reducible apply State.setStrm_keeps
    | with_reducible apply State.releaseEof_keeps
    | (extract_lets +onlyGivenNames x
       first
         | (with_reducible refine mem_cut (p := Keeps wz s₀ x) ?_ ?_ <;> [subst x; (clear_value x; intro _)])
         | (with_reducible refine mem_cut (p := Keeps wz s₀ x.2) ?_ ?_ <;> [subst x; (clear_value x; intro _)])
         | (have hx := fun y => x y; clear hx; subst x; try dsimp -zeta only)
         | clear_value x
         | subst x)
    | split

theorem State.portPass_keeps (hW : Within 95948590338 wz) (s : State) (site : Nat) (e : EndSlot) (f : Flit) (hm : Keeps wz s₀ s) : Keeps wz s₀ (State.portPass s site e f) := by
  unfold State.portPass
  repeat' first
    | (with_reducible refine Within.sub hW ?_; decide)
    | with_reducible assumption
    | with_reducible apply State.modYport_keeps
    | with_reducible apply State.yHold_keeps
    | with_reducible apply State.ringFlit_keeps
    | with_reducible apply State.portOut_keeps
    | split

theorem State.portDrain_keeps (hW : Within 95948590338 wz) (k : Nat) (site : Nat) (s : State) (hm : Keeps wz s₀ s) : Keeps wz s₀ (State.portDrain k site s) := by
  induction k generalizing s with
  | zero => exact hm
  | succ k ih =>
    unfold State.portDrain
    repeat' first
      | (with_reducible refine Within.sub hW ?_; decide)
      | with_reducible assumption
      | with_reducible apply ih
      | with_reducible apply State.setUnit_keeps
      | with_reducible apply State.portPass_keeps
      | (extract_lets +onlyGivenNames x
         first
           | (with_reducible refine mem_cut (p := Keeps wz s₀ x) ?_ ?_ <;> [subst x; (clear_value x; intro _)])
           | (with_reducible refine mem_cut (p := Keeps wz s₀ x.2) ?_ ?_ <;> [subst x; (clear_value x; intro _)])
           | (have hx := fun y => x y; clear hx; subst x; try dsimp -zeta only)
           | clear_value x
           | subst x)
      | split

theorem State.portEnter_keeps (hW : Within 95948590850 wz) (s : State) (site : Nat) (o : Nat) (slot : Nat) (ecc : Ecc) (f : Flit) (hm : Keeps wz s₀ s) : Keeps wz s₀ (State.portEnter s site o slot ecc f) := by
  unfold State.portEnter
  repeat' first
    | (with_reducible refine Within.sub hW ?_; decide)
    | with_reducible assumption
    | with_reducible apply State.setUnit_keeps
    | with_reducible apply State.skidOvf_keeps
    | with_reducible apply State.unitCheck_keeps
    | with_reducible apply State.portDrain_keeps
    | (extract_lets +onlyGivenNames x
       first
         | (with_reducible refine mem_cut (p := Keeps wz s₀ x) ?_ ?_ <;> [subst x; (clear_value x; intro _)])
         | (with_reducible refine mem_cut (p := Keeps wz s₀ x.2) ?_ ?_ <;> [subst x; (clear_value x; intro _)])
         | (have hx := fun y => x y; clear hx; subst x; try dsimp -zeta only)
         | clear_value x
         | subst x)
    | split
    | (with_reducible refine keeps_of_pair (by assumption) ?_)

theorem flitEject_keeps (hW : Within 95948852994 wz) (dst : EjectAt) (ecc : Ecc) (s : State) (hm : Keeps wz s₀ s) : Keeps wz s₀ (flitEject dst ecc s) := by
  unfold flitEject
  repeat' first
    | (with_reducible refine Within.sub hW ?_; decide)
    | with_reducible assumption
    | with_reducible apply State.modRouter_keeps
    | with_reducible apply State.fusedDrop_keeps
    | with_reducible apply State.tailEnter_keeps
    | with_reducible apply State.unitEnter_keeps
    | with_reducible apply State.portEnter_keeps
    | (extract_lets +onlyGivenNames x
       first
         | (with_reducible refine mem_cut (p := Keeps wz s₀ x) ?_ ?_ <;> [subst x; (clear_value x; intro _)])
         | (with_reducible refine mem_cut (p := Keeps wz s₀ x.2) ?_ ?_ <;> [subst x; (clear_value x; intro _)])
         | (have hx := fun y => x y; clear hx; subst x; try dsimp -zeta only)
         | clear_value x
         | subst x)
    | split

end Sys2Proof.Machine
end

