-- ==== Sys2Proof/Laws/Keeps10.lean ====
section
/-! SUPPORT. What the definitions from execFlitEject to execContextReleased may write: `Keeps wz s t` says that only the
parts of `wz` differ and that memories stay canonical. -/
set_option linter.unusedTactic false
set_option linter.unreachableTactic false
set_option linter.unusedVariables false
namespace Sys2Proof.Machine
variable {wz : Nat} {s₀ : State}
theorem execFlitEject_keeps (hW : Within 95948852994 wz) (dst : EjectAt) (ecc : Ecc) (s : State) (hm : Keeps wz s₀ s) : ∀ z, execFlitEject dst ecc s = .next z → Keeps wz s₀ z := by
  intro z ht
  unfold execFlitEject at ht
  injection ht with ht
  subst ht
  repeat' first
    | (with_reducible refine Within.sub hW ?_; decide)
    | with_reducible assumption
    | with_reducible apply flitEject_keeps

theorem freezeClear_keeps (hW : Within 95948590850 wz) (m : Member) (cycles : B64) (s : State) (hm : Keeps wz s₀ s) : Keeps wz s₀ (freezeClear m cycles s) := by
  unfold freezeClear
  repeat' first
    | (with_reducible refine Within.sub hW ?_; decide)
    | with_reducible assumption
    | (with_reducible apply foldl_keeps; intros; try dsimp -zeta only)
    | with_reducible apply State.modStrm_keeps
    | with_reducible apply State.modUnit_keeps
    | with_reducible apply State.modGate_keeps
    | with_reducible apply State.rotRun_keeps
    | with_reducible apply State.portDrain_keeps
    | (extract_lets +onlyGivenNames x
       first
         | (with_reducible refine mem_cut (p := Keeps wz s₀ x) ?_ ?_ <;> [subst x; (clear_value x; intro _)])
         | (with_reducible refine mem_cut (p := Keeps wz s₀ x.2) ?_ ?_ <;> [subst x; (clear_value x; intro _)])
         | (have hx := fun y => x y; clear hx; subst x; try dsimp -zeta only)
         | clear_value x
         | subst x)
    | split

theorem execFreezeClear_keeps (hW : Within 95948590850 wz) (m : Member) (cycles : B64) (s : State) (hm : Keeps wz s₀ s) : ∀ z, execFreezeClear m cycles s = .next z → Keeps wz s₀ z := by
  intro z ht
  unfold execFreezeClear at ht
  injection ht with ht
  subst ht
  repeat' first
    | (with_reducible refine Within.sub hW ?_; decide)
    | with_reducible assumption
    | with_reducible apply freezeClear_keeps

theorem State.modModel_keeps (hW : Within 1073741824 wz) (s : State) (o : Nat) (m : Nat) (f : ModelSt → ModelSt) (hm : Keeps wz s₀ s) : Keeps wz s₀ (State.modModel s o m f) := by
  unfold State.modModel
  repeat' first
    | (with_reducible refine Within.sub hW ?_; decide)
    | with_reducible assumption
    | with_reducible apply State.modRunning_keeps

theorem State.doneReading_keeps (hW : Within 131072 wz) (s : State) (o : Nat) (m : Nat) (st : Nat) (f8 : Nat) (hm : Keeps wz s₀ s) : Keeps wz s₀ (State.doneReading s o m st f8) := by
  unfold State.doneReading
  repeat' first
    | (with_reducible refine Within.sub hW ?_; decide)
    | with_reducible assumption
    | (with_reducible apply foldl_keeps; intros; try dsimp -zeta only)
    | with_reducible apply State.modUnit_keeps
    | split

theorem State.treeSkipped_keeps (hW : Within 131328 wz) (s : State) (o : Nat) (m : Nat) (st : Nat) (fseq : B16) (cause : Nat) (hm : Keeps wz s₀ s) : Keeps wz s₀ (State.treeSkipped s o m st fseq cause) := by
  unfold State.treeSkipped
  repeat' first
    | (with_reducible refine Within.sub hW ?_; decide)
    | with_reducible assumption
    | with_reducible apply State.log_keeps
    | with_reducible apply State.doneReading_keeps
    | (extract_lets +onlyGivenNames x
       first
         | (with_reducible refine mem_cut (p := Keeps wz s₀ x) ?_ ?_ <;> [subst x; (clear_value x; intro _)])
         | (with_reducible refine mem_cut (p := Keeps wz s₀ x.2) ?_ ?_ <;> [subst x; (clear_value x; intro _)])
         | (have hx := fun y => x y; clear hx; subst x; try dsimp -zeta only)
         | clear_value x
         | subst x)
    | split

theorem State.reloadModel_keeps (hW : Within 1073873152 wz) (s : State) (o : Nat) (m : Nat) (new : ModelDecl) (hm : Keeps wz s₀ s) : Keeps wz s₀ (State.reloadModel s o m new) := by
  unfold State.reloadModel
  repeat' first
    | (with_reducible refine Within.sub hW ?_; decide)
    | with_reducible assumption
    | (with_reducible apply foldl_keeps; intros; try dsimp -zeta only)
    | with_reducible apply State.modUnit_keeps
    | with_reducible apply State.modModel_keeps
    | with_reducible apply State.doneReading_keeps
    | with_reducible apply State.treeSkipped_keeps
    | (extract_lets +onlyGivenNames x
       first
         | (with_reducible refine mem_cut (p := Keeps wz s₀ x) ?_ ?_ <;> [subst x; (clear_value x; intro _)])
         | (with_reducible refine mem_cut (p := Keeps wz s₀ x.2) ?_ ?_ <;> [subst x; (clear_value x; intro _)])
         | (have hx := fun y => x y; clear hx; subst x; try dsimp -zeta only)
         | clear_value x
         | subst x)
    | split

theorem State.requestEval_keeps (hW : Within 1073873152 wz) (s : State) (o : Nat) (m : Nat) (st : Nat) (f8 : Nat) (hm : Keeps wz s₀ s) : Keeps wz s₀ (State.requestEval s o m st f8) := by
  unfold State.requestEval
  repeat' first
    | (with_reducible refine Within.sub hW ?_; decide)
    | with_reducible assumption
    | with_reducible apply State.modModel_keeps
    | with_reducible apply State.doneReading_keeps
    | with_reducible apply State.treeSkipped_keeps
    | (extract_lets +onlyGivenNames x
       first
         | (with_reducible refine mem_cut (p := Keeps wz s₀ x) ?_ ?_ <;> [subst x; (clear_value x; intro _)])
         | (with_reducible refine mem_cut (p := Keeps wz s₀ x.2) ?_ ?_ <;> [subst x; (clear_value x; intro _)])
         | (have hx := fun y => x y; clear hx; subst x; try dsimp -zeta only)
         | clear_value x
         | subst x)
    | split

theorem statsBankClose_keeps (hW : Within 1073873152 wz) (site : Nat) (s : State) (hm : Keeps wz s₀ s) : Keeps wz s₀ (statsBankClose site s) := by
  unfold statsBankClose
  repeat' first
    | (with_reducible refine Within.sub hW ?_; decide)
    | with_reducible assumption
    | (with_reducible apply foldl_keeps; intros; try dsimp -zeta only)
    | with_reducible apply State.setUnit_keeps
    | with_reducible apply State.log_keeps
    | with_reducible apply State.requestEval_keeps
    | (extract_lets +onlyGivenNames x
       first
         | (with_reducible refine mem_cut (p := Keeps wz s₀ x) ?_ ?_ <;> [subst x; (clear_value x; intro _)])
         | (with_reducible refine mem_cut (p := Keeps wz s₀ x.2) ?_ ?_ <;> [subst x; (clear_value x; intro _)])
         | (have hx := fun y => x y; clear hx; subst x; try dsimp -zeta only)
         | clear_value x
         | subst x)
    | split

theorem execStatsBankClose_keeps (hW : Within 1073873152 wz) (site : Site) (s : State) (hm : Keeps wz s₀ s) : ∀ z, execStatsBankClose site s = .next z → Keeps wz s₀ z := by
  intro z ht
  unfold execStatsBankClose at ht
  injection ht with ht
  subst ht
  repeat' first
    | (with_reducible refine Within.sub hW ?_; decide)
    | with_reducible assumption
    | with_reducible apply statsBankClose_keeps

theorem execStatsBankRelease_keeps (hW : Within 131072 wz) (site : Site) (s : State) (hm : Keeps wz s₀ s) : ∀ z, execStatsBankRelease site s = .next z → Keeps wz s₀ z := by
  intro z ht
  unfold execStatsBankRelease at ht
  injection ht with ht
  subst ht
  repeat' first
    | (with_reducible refine Within.sub hW ?_; decide)
    | with_reducible assumption
    | with_reducible apply State.setUnit_keeps
    | (extract_lets +onlyGivenNames x
       first
         | (with_reducible refine mem_cut (p := Keeps wz s₀ x) ?_ ?_ <;> [subst x; (clear_value x; intro _)])
         | (with_reducible refine mem_cut (p := Keeps wz s₀ x.2) ?_ ?_ <;> [subst x; (clear_value x; intro _)])
         | (have hx := fun y => x y; clear hx; subst x; try dsimp -zeta only)
         | clear_value x
         | subst x)
    | split

theorem State.sendFeatures_keeps (hW : Within 87358654210 wz) (s : State) (o : Nat) (site : Nat) (st : Nat) (f8 : Nat) (vec : List Nat) (hm : Keeps wz s₀ s) : Keeps wz s₀ (State.sendFeatures s o site st f8 vec) := by
  unfold State.sendFeatures
  repeat' first
    | (with_reducible refine Within.sub hW ?_; decide)
    | with_reducible assumption
    | (with_reducible apply foldl_keeps; intros; try dsimp -zeta only)
    | with_reducible apply State.unitEnter_keeps
    | (extract_lets +onlyGivenNames x
       first
         | (with_reducible refine mem_cut (p := Keeps wz s₀ x) ?_ ?_ <;> [subst x; (clear_value x; intro _)])
         | (with_reducible refine mem_cut (p := Keeps wz s₀ x.2) ?_ ?_ <;> [subst x; (clear_value x; intro _)])
         | (have hx := fun y => x y; clear hx; subst x; try dsimp -zeta only)
         | clear_value x
         | subst x)
    | split

theorem State.spoiled_keeps (hW : Within 131072 wz) (s : State) (e : Option SramErr) (hm : Keeps wz s₀ s) : Keeps wz s₀ (State.spoiled s e) := by
  unfold State.spoiled
  repeat' first
    | (with_reducible refine Within.sub hW ?_; decide)
    | with_reducible assumption
    | with_reducible apply State.modUnit_keeps
    | split

theorem treeEvalStart_keeps (hW : Within 87358654210 wz) (o : Nat) (m : Nat) (err : Option SramErr) (s : State) (hm : Keeps wz s₀ s) : Keeps wz s₀ (treeEvalStart o m err s) := by
  unfold treeEvalStart
  repeat' first
    | (with_reducible refine Within.sub hW ?_; decide)
    | with_reducible assumption
    | (with_reducible apply foldl_keeps; intros; try dsimp -zeta only)
    | with_reducible apply State.wordRead_keeps
    | with_reducible apply State.modModel_keeps
    | with_reducible apply State.doneReading_keeps
    | with_reducible apply State.sendFeatures_keeps
    | with_reducible apply State.spoiled_keeps
    | (extract_lets +onlyGivenNames x
       first
         | (with_reducible refine mem_cut (p := Keeps wz s₀ x) ?_ ?_ <;> [subst x; (clear_value x; intro _)])
         | (with_reducible refine mem_cut (p := Keeps wz s₀ x.2) ?_ ?_ <;> [subst x; (clear_value x; intro _)])
         | (have hx := fun y => x y; clear hx; subst x; try dsimp -zeta only)
         | clear_value x
         | subst x)
    | split

theorem execTreeEvalStart_keeps (hW : Within 87358654210 wz) (o : Owner) (model : ModelRead) (s : State) (hm : Keeps wz s₀ s) : ∀ z, execTreeEvalStart o model s = .next z → Keeps wz s₀ z := by
  intro z ht
  unfold execTreeEvalStart at ht
  injection ht with ht
  subst ht
  repeat' first
    | (with_reducible refine Within.sub hW ?_; decide)
    | with_reducible assumption
    | with_reducible apply treeEvalStart_keeps

theorem State.scenePost_keeps (hW : Within 65792 wz) (s : State) (st : Nat) (fseq : B16) (p : List Nat) (hm : Keeps wz s₀ s) : Keeps wz s₀ (State.scenePost s st fseq p) := by
  unfold State.scenePost
  repeat' first
    | (with_reducible refine Within.sub hW ?_; decide)
    | with_reducible assumption
    | with_reducible apply State.setStrm_keeps
    | with_reducible apply State.log_keeps
    | (extract_lets +onlyGivenNames x
       first
         | (with_reducible refine mem_cut (p := Keeps wz s₀ x) ?_ ?_ <;> [subst x; (clear_value x; intro _)])
         | (with_reducible refine mem_cut (p := Keeps wz s₀ x.2) ?_ ?_ <;> [subst x; (clear_value x; intro _)])
         | (have hx := fun y => x y; clear hx; subst x; try dsimp -zeta only)
         | clear_value x
         | subst x)
    | split

theorem treeResultPost_keeps (hW : Within 1073824000 wz) (o : Nat) (m : Nat) (s : State) (hm : Keeps wz s₀ s) : Keeps wz s₀ (treeResultPost o m s) := by
  unfold treeResultPost
  repeat' first
    | (with_reducible refine Within.sub hW ?_; decide)
    | with_reducible assumption
    | (with_reducible apply foldl_keeps; intros; try dsimp -zeta only)
    | with_reducible apply State.modHead_keeps
    | with_reducible apply State.modFrame_keeps
    | with_reducible apply State.modModel_keeps
    | with_reducible apply State.scenePost_keeps
    | (extract_lets +onlyGivenNames x
       first
         | (with_reducible refine mem_cut (p := Keeps wz s₀ x) ?_ ?_ <;> [subst x; (clear_value x; intro _)])
         | (with_reducible refine mem_cut (p := Keeps wz s₀ x.2) ?_ ?_ <;> [subst x; (clear_value x; intro _)])
         | (have hx := fun y => x y; clear hx; subst x; try dsimp -zeta only)
         | clear_value x
         | subst x)
    | split

theorem execTreeResultPost_keeps (hW : Within 1073824000 wz) (o : Owner) (model : B8) (s : State) (hm : Keeps wz s₀ s) : ∀ z, execTreeResultPost o model s = .next z → Keeps wz s₀ z := by
  intro z ht
  unfold execTreeResultPost at ht
  injection ht with ht
  subst ht
  repeat' first
    | (with_reducible refine Within.sub hW ?_; decide)
    | with_reducible assumption
    | with_reducible apply treeResultPost_keeps

theorem State.switchTo_keeps (hW : Within 1073807616 wz) (s : State) (st : Nat) (fseq : B16) (cls : Nat) (hm : Keeps wz s₀ s) : Keeps wz s₀ (State.switchTo s st fseq cls) := by
  unfold State.switchTo
  repeat' first
    | (with_reducible refine Within.sub hW ?_; decide)
    | with_reducible assumption
    | with_reducible apply State.modStrm_keeps
    | with_reducible apply State.setCtx_keeps
    | with_reducible apply State.log_keeps
    | (extract_lets +onlyGivenNames x
       first
         | (with_reducible refine mem_cut (p := Keeps wz s₀ x) ?_ ?_ <;> [subst x; (clear_value x; intro _)])
         | (with_reducible refine mem_cut (p := Keeps wz s₀ x.2) ?_ ?_ <;> [subst x; (clear_value x; intro _)])
         | (have hx := fun y => x y; clear hx; subst x; try dsimp -zeta only)
         | clear_value x
         | subst x)
    | split

theorem sceneLatch_keeps (hW : Within 1073807616 wz) (st : Nat) (s : State) (hm : Keeps wz s₀ s) : Keeps wz s₀ (sceneLatch st s) := by
  unfold sceneLatch
  repeat' first
    | (with_reducible refine Within.sub hW ?_; decide)
    | with_reducible assumption
    | with_reducible apply State.setStrm_keeps
    | with_reducible apply State.modFrame_keeps
    | with_reducible apply State.switchTo_keeps
    | (extract_lets +onlyGivenNames x
       first
         | (with_reducible refine mem_cut (p := Keeps wz s₀ x) ?_ ?_ <;> [subst x; (clear_value x; intro _)])
         | (with_reducible refine mem_cut (p := Keeps wz s₀ x.2) ?_ ?_ <;> [subst x; (clear_value x; intro _)])
         | (have hx := fun y => x y; clear hx; subst x; try dsimp -zeta only)
         | clear_value x
         | subst x)
    | split

theorem execSceneLatch_keeps (hW : Within 1073807616 wz) (st : StreamId) (s : State) (hm : Keeps wz s₀ s) : ∀ z, execSceneLatch st s = .next z → Keeps wz s₀ z := by
  intro z ht
  unfold execSceneLatch at ht
  injection ht with ht
  subst ht
  repeat' first
    | (with_reducible refine Within.sub hW ?_; decide)
    | with_reducible assumption
    | with_reducible apply sceneLatch_keeps

theorem State.broadcast_keeps (hW : Within 131072 wz) (s : State) (o : Nat) (p : Placement) (hm : Keeps wz s₀ s) : Keeps wz s₀ (State.broadcast s o p) := by
  unfold State.broadcast
  repeat' first
    | (with_reducible refine Within.sub hW ?_; decide)
    | with_reducible assumption
    | (with_reducible apply foldl_keeps; intros; try dsimp -zeta only)
    | (try dsimp -zeta only
       with_reducible refine Keeps.mk' (V := 131072) rfl (hW.sub (by decide)) ?_ ?_ id ?_
       · (repeat' apply And.intro) <;> first | exact fun _ => rfl | exact fun h => zone_in h
       · first | exact id | exact fun _ => rfl)

theorem State.layOut_keeps (hW : Within 786432 wz) (s : State) (o : Nat) (p : Placement) (hm : Keeps wz s₀ s) : Keeps wz s₀ (State.layOut s o p) := by
  unfold State.layOut
  repeat' first
    | (with_reducible refine Within.sub hW ?_; decide)
    | with_reducible assumption
    | (with_reducible apply foldl_keeps; intros; try dsimp -zeta only)
    | with_reducible apply State.clearSlots_keeps
    | (extract_lets +onlyGivenNames x
       first
         | (with_reducible refine mem_cut (p := Keeps wz s₀ x) ?_ ?_ <;> [subst x; (clear_value x; intro _)])
         | (with_reducible refine mem_cut (p := Keeps wz s₀ x.2) ?_ ?_ <;> [subst x; (clear_value x; intro _)])
         | (have hx := fun y => x y; clear hx; subst x; try dsimp -zeta only)
         | clear_value x
         | subst x)
    | split
    | (try dsimp -zeta only
       with_reducible refine Keeps.mk' (V := 786432) rfl (hW.sub (by decide)) ?_ ?_ id ?_
       · (repeat' apply And.intro) <;> first | exact fun _ => rfl | exact fun h => zone_in h
       · first | exact id | exact fun _ => rfl)

theorem State.setOrigins_keeps (hW : Within 2097152 wz) (s : State) (o : Nat) (hm : Keeps wz s₀ s) : Keeps wz s₀ (State.setOrigins s o) := by
  unfold State.setOrigins
  repeat' first
    | (with_reducible refine Within.sub hW ?_; decide)
    | with_reducible assumption
    | (with_reducible apply foldl_keeps; intros; try dsimp -zeta only)
    | with_reducible apply State.modOrigin_keeps
    | (extract_lets +onlyGivenNames x
       first
         | (with_reducible refine mem_cut (p := Keeps wz s₀ x) ?_ ?_ <;> [subst x; (clear_value x; intro _)])
         | (with_reducible refine mem_cut (p := Keeps wz s₀ x.2) ?_ ?_ <;> [subst x; (clear_value x; intro _)])
         | (have hx := fun y => x y; clear hx; subst x; try dsimp -zeta only)
         | clear_value x
         | subst x)
    | split
    | (try dsimp -zeta only
       with_reducible refine Keeps.mk' (V := 2097152) rfl (hW.sub (by decide)) ?_ ?_ id ?_
       · (repeat' apply And.intro) <;> first | exact fun _ => rfl | exact fun h => zone_in h
       · first | exact id | exact fun _ => rfl)

theorem State.seal_keeps (hW : Within 71944831234 wz) (s : State) (o : Nat) (c : Ctx) (e : Eclosion) (hm : Keeps wz s₀ s) : Keeps wz s₀ (State.seal s o c e) := by
  unfold State.seal
  repeat' first
    | (with_reducible refine Within.sub hW ?_; decide)
    | with_reducible assumption
    | (extract_lets +onlyGivenNames x
       first
         | (with_reducible refine mem_cut (p := Keeps wz s₀ x) ?_ ?_ <;> [subst x; (clear_value x; intro _)])
         | (with_reducible refine mem_cut (p := Keeps wz s₀ x.2) ?_ ?_ <;> [subst x; (clear_value x; intro _)])
         | (have hx := fun y => x y; clear hx; subst x; try dsimp -zeta only)
         | clear_value x
         | subst x)
    | with_reducible apply State.setCtx_keeps
    | with_reducible apply State.setEpoch_keeps
    | with_reducible apply State.log_keeps
    | with_reducible apply State.maskGroup_keeps
    | with_reducible apply State.broadcast_keeps
    | with_reducible apply State.layOut_keeps
    | with_reducible apply State.setOrigins_keeps
    | split
    | (try dsimp -zeta only
       with_reducible refine Keeps.mk' (V := 71944831234) rfl (hW.sub (by decide)) ?_ ?_ id ?_
       · (repeat' apply And.intro) <;> first | exact fun _ => rfl | exact fun h => zone_in h
       · first | exact id | exact fun _ => rfl)

theorem State.unbindStreams_keeps (hW : Within 65536 wz) (s : State) (o : Nat) (hm : Keeps wz s₀ s) : Keeps wz s₀ (State.unbindStreams s o) := by
  unfold State.unbindStreams
  repeat' first
    | (with_reducible refine Within.sub hW ?_; decide)
    | with_reducible assumption
    | split
    | (try dsimp -zeta only
       with_reducible refine Keeps.mk' (V := 65536) rfl (hW.sub (by decide)) ?_ ?_ id ?_
       · (repeat' apply And.intro) <;> first | exact fun _ => rfl | exact fun h => zone_in h
       · first | exact id | exact fun _ => rfl)

theorem State.bindStreams_keeps (hW : Within 65536 wz) (s : State) (o : Nat) (bs : List Bind) (hm : Keeps wz s₀ s) : Keeps wz s₀ (State.bindStreams s o bs) := by
  unfold State.bindStreams
  repeat' first
    | (with_reducible refine Within.sub hW ?_; decide)
    | with_reducible assumption
    | (with_reducible apply foldl_keeps; intros; try dsimp -zeta only)
    | with_reducible apply State.modStrm_keeps

theorem State.takePorts_keeps (hW : Within 69863544128 wz) (s : State) (o : Nat) (old : Option LinkDecl) (new : Option LinkDecl) (hm : Keeps wz s₀ s) : Keeps wz s₀ (State.takePorts s o old new) := by
  unfold State.takePorts
  repeat' first
    | (with_reducible refine Within.sub hW ?_; decide)
    | with_reducible assumption
    | (with_reducible apply foldl_keeps; intros; try dsimp -zeta only)
    | with_reducible apply State.modYport_keeps
    | with_reducible apply State.unbindPort_keeps
    | (extract_lets +onlyGivenNames x
       first
         | (with_reducible refine mem_cut (p := Keeps wz s₀ x) ?_ ?_ <;> [subst x; (clear_value x; intro _)])
         | (with_reducible refine mem_cut (p := Keeps wz s₀ x.2) ?_ ?_ <;> [subst x; (clear_value x; intro _)])
         | (have hx := fun y => x y; clear hx; subst x; try dsimp -zeta only)
         | clear_value x
         | subst x)
    | split

theorem State.startReplace_keeps (hW : Within 69863544128 wz) (s : State) (o : Nat) (hm : Keeps wz s₀ s) : Keeps wz s₀ (State.startReplace s o) := by
  unfold State.startReplace
  repeat' first
    | (with_reducible refine Within.sub hW ?_; decide)
    | with_reducible assumption
    | with_reducible apply State.setCtx_keeps
    | with_reducible apply State.finish_keeps
    | with_reducible apply State.modRunning_keeps
    | with_reducible apply State.unbindStreams_keeps
    | with_reducible apply State.bindStreams_keeps
    | with_reducible apply State.takePorts_keeps
    | (extract_lets +onlyGivenNames x
       first
         | (with_reducible refine mem_cut (p := Keeps wz s₀ x) ?_ ?_ <;> [subst x; (clear_value x; intro _)])
         | (with_reducible refine mem_cut (p := Keeps wz s₀ x.2) ?_ ?_ <;> [subst x; (clear_value x; intro _)])
         | (have hx := fun y => x y; clear hx; subst x; try dsimp -zeta only)
         | clear_value x
         | subst x)
    | split

theorem eclosionStart_keeps (hW : Within 72028722498 wz) (o : Nat) (s : State) (hm : Keeps wz s₀ s) : Keeps wz s₀ (eclosionStart o s) := by
  unfold eclosionStart
  repeat' first
    | (with_reducible refine Within.sub hW ?_; decide)
    | with_reducible assumption
    | with_reducible apply State.modArb_keeps
    | with_reducible apply State.holdArb_keeps
    | with_reducible apply State.seal_keeps
    | with_reducible apply State.startReplace_keeps
    | (extract_lets +onlyGivenNames x
       first
         | (with_reducible refine mem_cut (p := Keeps wz s₀ x) ?_ ?_ <;> [subst x; (clear_value x; intro _)])
         | (with_reducible refine mem_cut (p := Keeps wz s₀ x.2) ?_ ?_ <;> [subst x; (clear_value x; intro _)])
         | (have hx := fun y => x y; clear hx; subst x; try dsimp -zeta only)
         | clear_value x
         | subst x)
    | split
    | with_reducible apply keeps_getD
    | with_reducible exact opt_none
    | with_reducible apply opt_some
    | (with_reducible refine keeps_of_some (by assumption) ?_)

theorem execEclosionStart_keeps (hW : Within 72028722498 wz) (o : Owner) (s : State) (hm : Keeps wz s₀ s) : ∀ z, execEclosionStart o s = .next z → Keeps wz s₀ z := by
  intro z ht
  unfold execEclosionStart at ht
  injection ht with ht
  subst ht
  repeat' first
    | (with_reducible refine Within.sub hW ?_; decide)
    | with_reducible assumption
    | with_reducible apply eclosionStart_keeps

theorem State.bindPorts_keeps (hW : Within 69796434240 wz) (s : State) (o : Nat) (hm : Keeps wz s₀ s) : Keeps wz s₀ (State.bindPorts s o) := by
  unfold State.bindPorts
  repeat' first
    | (with_reducible refine Within.sub hW ?_; decide)
    | with_reducible assumption
    | (with_reducible apply foldl_keeps; intros; try dsimp -zeta only)
    | with_reducible apply State.sendBind_keeps

theorem State.deliver_keeps (hW : Within 17179870208 wz) (s : State) (k : Pkt) (dest : B64) (b : Bytes) (hm : Keeps wz s₀ s) : Keeps wz s₀ (State.deliver s k dest b).2 := by
  unfold State.deliver
  repeat' first
    | (with_reducible refine Within.sub hW ?_; decide)
    | with_reducible assumption
    | with_reducible apply State.hostWrite_keeps
    | split
    | (try dsimp -zeta only
       with_reducible refine Keeps.mk' (V := 17179870208) rfl (hW.sub (by decide)) ?_ ?_ id ?_
       · (repeat' apply And.intro) <;> first | exact fun _ => rfl | exact fun h => zone_in h
       · first | exact id | exact fun _ => rfl)

theorem State.abortCtx_keeps (hW : Within 87358653698 wz) (s : State) (o : Nat) (cause : Nat) (flush : Nat) (hm : Keeps wz s₀ s) : Keeps wz s₀ (State.abortCtx s o cause flush) := by
  unfold State.abortCtx
  repeat' first
    | (with_reducible refine Within.sub hW ?_; decide)
    | with_reducible assumption
    | with_reducible apply State.modRunning_keeps
    | with_reducible apply State.clearContext_keeps
    | split

theorem State.afterOpen_keeps (hW : Within 87358653698 wz) (s : State) (o : Nat) (hm : Keeps wz s₀ s) : Keeps wz s₀ (State.afterOpen s o) := by
  unfold State.afterOpen
  repeat' first
    | (with_reducible refine Within.sub hW ?_; decide)
    | with_reducible assumption
    | (with_reducible apply foldl_keeps; intros; try dsimp -zeta only)
    | with_reducible apply State.setCtx_keeps
    | with_reducible apply State.finish_keeps
    | with_reducible apply State.modRunning_keeps
    | with_reducible apply State.clearContext_keeps
    | with_reducible apply State.logCtx_keeps
    | with_reducible apply State.abortCtx_keeps
    | (extract_lets +onlyGivenNames x
       first
         | (with_reducible refine mem_cut (p := Keeps wz s₀ x) ?_ ?_ <;> [subst x; (clear_value x; intro _)])
         | (with_reducible refine mem_cut (p := Keeps wz s₀ x.2) ?_ ?_ <;> [subst x; (clear_value x; intro _)])
         | (have hx := fun y => x y; clear hx; subst x; try dsimp -zeta only)
         | clear_value x
         | subst x)
    | split

theorem State.openSites_keeps (hW : Within 1703936 wz) (s : State) (o : Nat) (c : Ctx) (sites : List Nat) (variant : Bool) (hm : Keeps wz s₀ s) : Keeps wz s₀ (State.openSites s o c sites variant) := by
  unfold State.openSites
  repeat' first
    | (with_reducible refine Within.sub hW ?_; decide)
    | with_reducible assumption
    | with_reducible apply State.modGroup_keeps
    | (extract_lets +onlyGivenNames x
       first
         | (with_reducible refine mem_cut (p := Keeps wz s₀ x) ?_ ?_ <;> [subst x; (clear_value x; intro _)])
         | (with_reducible refine mem_cut (p := Keeps wz s₀ x.2) ?_ ?_ <;> [subst x; (clear_value x; intro _)])
         | (have hx := fun y => x y; clear hx; subst x; try dsimp -zeta only)
         | clear_value x
         | subst x)
    | split
    | (try dsimp -zeta only
       with_reducible refine Keeps.mk' (V := 1703936) rfl (hW.sub (by decide)) ?_ ?_ id ?_
       · (repeat' apply And.intro) <;> first | exact fun _ => rfl | exact fun h => zone_in h
       · first | exact id | exact fun _ => rfl)

theorem State.startClass_keeps (hW : Within 65536 wz) (s : State) (sts : List Nat) (cls : Option Nat) (hm : Keeps wz s₀ s) : Keeps wz s₀ (State.startClass s sts cls) := by
  unfold State.startClass
  repeat' first
    | (with_reducible refine Within.sub hW ?_; decide)
    | with_reducible assumption
    | (try dsimp -zeta only
       with_reducible refine Keeps.mk' (V := 65536) rfl (hW.sub (by decide)) ?_ ?_ id ?_
       · (repeat' apply And.intro) <;> first | exact fun _ => rfl | exact fun h => zone_in h
       · first | exact id | exact fun _ => rfl)

theorem State.eclosionReply_keeps (hW : Within 17246979328 wz) (s : State) (o : Nat) (c : Ctx) (e : Eclosion) (hm : Keeps wz s₀ s) : Keeps wz s₀ (State.eclosionReply s o c e) := by
  unfold State.eclosionReply
  repeat' first
    | (with_reducible refine Within.sub hW ?_; decide)
    | with_reducible assumption
    | with_reducible apply State.finish_keeps
    | with_reducible apply State.deliver_keeps
    | (extract_lets +onlyGivenNames x
       first
         | (with_reducible refine mem_cut (p := Keeps wz s₀ x) ?_ ?_ <;> [subst x; (clear_value x; intro _)])
         | (with_reducible refine mem_cut (p := Keeps wz s₀ x.2) ?_ ?_ <;> [subst x; (clear_value x; intro _)])
         | (have hx := fun y => x y; clear hx; subst x; try dsimp -zeta only)
         | clear_value x
         | subst x)
    | split
    | (with_reducible refine keeps_of_pair (by assumption) ?_)

theorem eclosionDone_keeps (hW : Within 87375435074 wz) (o : Nat) (s : State) (hm : Keeps wz s₀ s) : Keeps wz s₀ (eclosionDone o s) := by
  unfold eclosionDone
  repeat' first
    | (with_reducible refine Within.sub hW ?_; decide)
    | with_reducible assumption
    | with_reducible apply State.setCtx_keeps
    | with_reducible apply State.log_keeps
    | with_reducible apply State.checkStopping_keeps
    | with_reducible apply State.freeArb_keeps
    | with_reducible apply State.bindPorts_keeps
    | with_reducible apply State.afterOpen_keeps
    | with_reducible apply State.openSites_keeps
    | with_reducible apply State.startClass_keeps
    | with_reducible apply State.eclosionReply_keeps
    | (extract_lets +onlyGivenNames x
       first
         | (with_reducible refine mem_cut (p := Keeps wz s₀ x) ?_ ?_ <;> [subst x; (clear_value x; intro _)])
         | (with_reducible refine mem_cut (p := Keeps wz s₀ x.2) ?_ ?_ <;> [subst x; (clear_value x; intro _)])
         | (have hx := fun y => x y; clear hx; subst x; try dsimp -zeta only)
         | clear_value x
         | subst x)
    | split

theorem execEclosionDone_keeps (hW : Within 87375435074 wz) (o : Owner) (s : State) (hm : Keeps wz s₀ s) : ∀ z, execEclosionDone o s = .next z → Keeps wz s₀ z := by
  intro z ht
  unfold execEclosionDone at ht
  injection ht with ht
  subst ht
  repeat' first
    | (with_reducible refine Within.sub hW ?_; decide)
    | with_reducible assumption
    | with_reducible apply eclosionDone_keeps

theorem contextCocoon_keeps (hW : Within 69863675200 wz) (o : Nat) (s : State) (hm : Keeps wz s₀ s) : Keeps wz s₀ (contextCocoon o s) := by
  unfold contextCocoon
  repeat' first
    | (with_reducible refine Within.sub hW ?_; decide)
    | with_reducible assumption
    | with_reducible apply State.setCtx_keeps
    | with_reducible apply State.logCtx_keeps
    | with_reducible apply State.startReplace_keeps
    | (extract_lets +onlyGivenNames x
       first
         | (with_reducible refine mem_cut (p := Keeps wz s₀ x) ?_ ?_ <;> [subst x; (clear_value x; intro _)])
         | (with_reducible refine mem_cut (p := Keeps wz s₀ x.2) ?_ ?_ <;> [subst x; (clear_value x; intro _)])
         | (have hx := fun y => x y; clear hx; subst x; try dsimp -zeta only)
         | clear_value x
         | subst x)
    | split
    | (try dsimp -zeta only
       with_reducible refine Keeps.mk' (V := 69863675200) rfl (hW.sub (by decide)) ?_ ?_ id ?_
       · (repeat' apply And.intro) <;> first | exact fun _ => rfl | exact fun h => zone_in h
       · first | exact id | exact fun _ => rfl)

theorem execContextCocoon_keeps (hW : Within 69863675200 wz) (o : Owner) (s : State) (hm : Keeps wz s₀ s) : ∀ z, execContextCocoon o s = .next z → Keeps wz s₀ z := by
  intro z ht
  unfold execContextCocoon at ht
  injection ht with ht
  subst ht
  repeat' first
    | (with_reducible refine Within.sub hW ?_; decide)
    | with_reducible assumption
    | with_reducible apply contextCocoon_keeps

theorem contextAborted_keeps (hW : Within 69863544128 wz) (o : Nat) (s : State) (hm : Keeps wz s₀ s) : Keeps wz s₀ (contextAborted o s) := by
  unfold contextAborted
  repeat' first
    | (with_reducible refine Within.sub hW ?_; decide)
    | with_reducible assumption
    | (with_reducible apply foldl_keeps; intros; try dsimp -zeta only)
    | with_reducible apply State.modGroup_keeps
    | with_reducible apply State.setCtx_keeps
    | with_reducible apply State.finish_keeps
    | with_reducible apply State.logCtx_keeps
    | with_reducible apply State.startReplace_keeps
    | (extract_lets +onlyGivenNames x
       first
         | (with_reducible refine mem_cut (p := Keeps wz s₀ x) ?_ ?_ <;> [subst x; (clear_value x; intro _)])
         | (with_reducible refine mem_cut (p := Keeps wz s₀ x.2) ?_ ?_ <;> [subst x; (clear_value x; intro _)])
         | (have hx := fun y => x y; clear hx; subst x; try dsimp -zeta only)
         | clear_value x
         | subst x)
    | split

theorem execContextAborted_keeps (hW : Within 69863544128 wz) (o : Owner) (s : State) (hm : Keeps wz s₀ s) : ∀ z, execContextAborted o s = .next z → Keeps wz s₀ z := by
  intro z ht
  unfold execContextAborted at ht
  injection ht with ht
  subst ht
  repeat' first
    | (with_reducible refine Within.sub hW ?_; decide)
    | with_reducible assumption
    | with_reducible apply contextAborted_keeps

theorem contextReleased_keeps (hW : Within 69864461632 wz) (o : Nat) (s : State) (hm : Keeps wz s₀ s) : Keeps wz s₀ (contextReleased o s) := by
  unfold contextReleased
  repeat' first
    | (with_reducible refine Within.sub hW ?_; decide)
    | with_reducible assumption
    | (with_reducible apply foldl_keeps; intros; try dsimp -zeta only)
    | with_reducible apply State.modGroup_keeps
    | with_reducible apply State.setCtx_keeps
    | with_reducible apply State.modYport_keeps
    | with_reducible apply State.finish_keeps
    | with_reducible apply State.logCtx_keeps
    | with_reducible apply State.clearSlots_keeps
    | with_reducible apply State.unbindPort_keeps
    | with_reducible apply State.unbindStreams_keeps
    | (extract_lets +onlyGivenNames x
       first
         | (with_reducible refine mem_cut (p := Keeps wz s₀ x) ?_ ?_ <;> [subst x; (clear_value x; intro _)])
         | (with_reducible refine mem_cut (p := Keeps wz s₀ x.2) ?_ ?_ <;> [subst x; (clear_value x; intro _)])
         | (have hx := fun y => x y; clear hx; subst x; try dsimp -zeta only)
         | clear_value x
         | subst x)
    | split
    | (try dsimp -zeta only
       with_reducible refine Keeps.mk' (V := 69864461632) rfl (hW.sub (by decide)) ?_ ?_ id ?_
       · (repeat' apply And.intro) <;> first | exact fun _ => rfl | exact fun h => zone_in h
       · first | exact id | exact fun _ => rfl)

theorem execContextReleased_keeps (hW : Within 69864461632 wz) (o : Owner) (s : State) (hm : Keeps wz s₀ s) : ∀ z, execContextReleased o s = .next z → Keeps wz s₀ z := by
  intro z ht
  unfold execContextReleased at ht
  injection ht with ht
  subst ht
  repeat' first
    | (with_reducible refine Within.sub hW ?_; decide)
    | with_reducible assumption
    | with_reducible apply contextReleased_keeps

end Sys2Proof.Machine
end

