-- ==== Sys2Proof/Laws/Keeps11.lean ====
section
/-! SUPPORT. What the definitions from ecloseTimeout to overrun may write: `Keeps wz s t` says that only the
parts of `wz` differ and that memories stay canonical. -/
set_option linter.unusedTactic false
set_option linter.unreachableTactic false
set_option linter.unusedVariables false
namespace Sys2Proof.Machine
variable {wz : Nat} {s₀ : State}
theorem ecloseTimeout_keeps (hW : Within 1140851968 wz) (o : Nat) (s : State) (hm : Keeps wz s₀ s) : Keeps wz s₀ (ecloseTimeout o s) := by
  unfold ecloseTimeout
  repeat' first
    | (with_reducible refine Within.sub hW ?_; decide)
    | with_reducible assumption
    | with_reducible apply State.setCtx_keeps
    | with_reducible apply State.finish_keeps
    | split

theorem execEcloseTimeout_keeps (hW : Within 1140851968 wz) (o : Owner) (s : State) (hm : Keeps wz s₀ s) : ∀ z, execEcloseTimeout o s = .next z → Keeps wz s₀ z := by
  intro z ht
  unfold execEcloseTimeout at ht
  injection ht with ht
  subst ht
  repeat' first
    | (with_reducible refine Within.sub hW ?_; decide)
    | with_reducible assumption
    | with_reducible apply ecloseTimeout_keeps

theorem State.oqFill_keeps (hW : Within 65536 wz) (k : Nat) (st : Nat) (s : State) (hm : Keeps wz s₀ s) : Keeps wz s₀ (State.oqFill k st s) := by
  induction k generalizing s with
  | zero => exact hm
  | succ k ih =>
    unfold State.oqFill
    repeat' first
      | (with_reducible refine Within.sub hW ?_; decide)
      | with_reducible assumption
      | with_reducible apply ih
      | with_reducible apply State.setStrm_keeps
      | with_reducible apply State.modFrame_keeps
      | (extract_lets +onlyGivenNames x
         first
           | (with_reducible refine mem_cut (p := Keeps wz s₀ x) ?_ ?_ <;> [subst x; (clear_value x; intro _)])
           | (with_reducible refine mem_cut (p := Keeps wz s₀ x.2) ?_ ?_ <;> [subst x; (clear_value x; intro _)])
           | (have hx := fun y => x y; clear hx; subst x; try dsimp -zeta only)
           | clear_value x
           | subst x)
      | split

theorem State.oqUpdate_keeps (hW : Within 65536 wz) (s : State) (st : Nat) (hm : Keeps wz s₀ s) : Keeps wz s₀ (State.oqUpdate s st) := by
  unfold State.oqUpdate
  repeat' first
    | (with_reducible refine Within.sub hW ?_; decide)
    | with_reducible assumption
    | with_reducible apply State.modStrm_keeps
    | with_reducible apply State.oqFill_keeps
    | (extract_lets +onlyGivenNames x
       first
         | (with_reducible refine mem_cut (p := Keeps wz s₀ x) ?_ ?_ <;> [subst x; (clear_value x; intro _)])
         | (with_reducible refine mem_cut (p := Keeps wz s₀ x.2) ?_ ?_ <;> [subst x; (clear_value x; intro _)])
         | (have hx := fun y => x y; clear hx; subst x; try dsimp -zeta only)
         | clear_value x
         | subst x)
    | split

theorem outputFlit_keeps (hW : Within 87358653698 wz) (st : Nat) (s : State) (hm : Keeps wz s₀ s) : Keeps wz s₀ (outputFlit st s) := by
  unfold outputFlit
  repeat' first
    | (with_reducible refine Within.sub hW ?_; decide)
    | with_reducible assumption
    | with_reducible apply State.setStrm_keeps
    | with_reducible apply State.modStrm_keeps
    | with_reducible apply State.modFrame_keeps
    | with_reducible apply State.request_keeps
    | with_reducible apply State.skidOvf_keeps
    | with_reducible apply State.oqUpdate_keeps
    | (extract_lets +onlyGivenNames x
       first
         | (with_reducible refine mem_cut (p := Keeps wz s₀ x) ?_ ?_ <;> [subst x; (clear_value x; intro _)])
         | (with_reducible refine mem_cut (p := Keeps wz s₀ x.2) ?_ ?_ <;> [subst x; (clear_value x; intro _)])
         | (have hx := fun y => x y; clear hx; subst x; try dsimp -zeta only)
         | clear_value x
         | subst x)
    | split

theorem execOutputFlit_keeps (hW : Within 87358653698 wz) (st : StreamId) (s : State) (hm : Keeps wz s₀ s) : ∀ z, execOutputFlit st s = .next z → Keeps wz s₀ z := by
  intro z ht
  unfold execOutputFlit at ht
  injection ht with ht
  subst ht
  repeat' first
    | (with_reducible refine Within.sub hW ?_; decide)
    | with_reducible assumption
    | with_reducible apply outputFlit_keeps

theorem State.oqSettle_keeps (hW : Within 68722688000 wz) (s : State) (st : Nat) (hm : Keeps wz s₀ s) : Keeps wz s₀ (State.oqSettle s st) := by
  unfold State.oqSettle
  repeat' first
    | (with_reducible refine Within.sub hW ?_; decide)
    | with_reducible assumption
    | with_reducible apply State.request_keeps
    | with_reducible apply State.oqUpdate_keeps
    | (extract_lets +onlyGivenNames x
       first
         | (with_reducible refine mem_cut (p := Keeps wz s₀ x) ?_ ?_ <;> [subst x; (clear_value x; intro _)])
         | (with_reducible refine mem_cut (p := Keeps wz s₀ x.2) ?_ ?_ <;> [subst x; (clear_value x; intro _)])
         | (have hx := fun y => x y; clear hx; subst x; try dsimp -zeta only)
         | clear_value x
         | subst x)
    | split

theorem State.closeOne_keeps (hW : Within 17515479040 wz) (s : State) (st : Nat) (ring : Bool) (status : Nat) (eof : Bool) (hm : Keeps wz s₀ s) : Keeps wz s₀ (State.closeOne s st ring status eof) := by
  unfold State.closeOne
  repeat' first
    | (with_reducible refine Within.sub hW ?_; decide)
    | with_reducible assumption
    | with_reducible apply State.closeBuf_keeps
    | with_reducible apply State.closeRing_keeps
    | split

theorem State.putLine_keeps (hW : Within 17515479040 wz) (s : State) (st : Nat) (ring : Bool) (fseq : B16) (line : Nat) (stamp : B64) (flags : Nat) (b : Bytes) (hm : Keeps wz s₀ s) : Keeps wz s₀ (State.putLine s st ring fseq line stamp flags b).2 := by
  unfold State.putLine
  repeat' first
    | (with_reducible refine Within.sub hW ?_; decide)
    | with_reducible assumption
    | with_reducible apply State.setStrm_keeps
    | with_reducible apply State.modStrm_keeps
    | with_reducible apply State.hostWrite_keeps
    | with_reducible apply State.reserveCpl_keeps
    | with_reducible apply State.closeOne_keeps
    | (extract_lets +onlyGivenNames x
       first
         | (with_reducible refine mem_cut (p := Keeps wz s₀ x) ?_ ?_ <;> [subst x; (clear_value x; intro _)])
         | (with_reducible refine mem_cut (p := Keeps wz s₀ x.2) ?_ ?_ <;> [subst x; (clear_value x; intro _)])
         | (have hx := fun y => x y; clear hx; subst x; try dsimp -zeta only)
         | clear_value x
         | subst x)
    | split
    | (with_reducible refine keeps_of_pair (by assumption) ?_)

theorem State.endFrameOut_keeps (hW : Within 17515479042 wz) (s : State) (st : Nat) (ring : Bool) (fseq : B16) (drop : Bool) (hm : Keeps wz s₀ s) : Keeps wz s₀ (State.endFrameOut s st ring fseq drop) := by
  unfold State.endFrameOut
  repeat' first
    | (with_reducible refine Within.sub hW ?_; decide)
    | with_reducible assumption
    | with_reducible apply State.setStrm_keeps
    | with_reducible apply State.draw_keeps
    | with_reducible apply State.reserveCpl_keeps
    | with_reducible apply State.writeCpl_keeps
    | with_reducible apply State.closeOne_keeps
    | (extract_lets +onlyGivenNames x
       first
         | (with_reducible refine mem_cut (p := Keeps wz s₀ x) ?_ ?_ <;> [subst x; (clear_value x; intro _)])
         | (with_reducible refine mem_cut (p := Keeps wz s₀ x.2) ?_ ?_ <;> [subst x; (clear_value x; intro _)])
         | (have hx := fun y => x y; clear hx; subst x; try dsimp -zeta only)
         | clear_value x
         | subst x)
    | split
    | (with_reducible refine keeps_of_pair (by assumption) ?_)

theorem State.sendHost_keeps (hW : Within 86238101762 wz) (s : State) (st : Nat) (hm : Keeps wz s₀ s) : Keeps wz s₀ (State.sendHost s st) := by
  unfold State.sendHost
  repeat' first
    | (with_reducible refine Within.sub hW ?_; decide)
    | with_reducible assumption
    | with_reducible apply State.modStrm_keeps
    | with_reducible apply State.log_keeps
    | with_reducible apply State.oqSettle_keeps
    | with_reducible apply State.putLine_keeps
    | with_reducible apply State.endFrameOut_keeps
    | (extract_lets +onlyGivenNames x
       first
         | (with_reducible refine mem_cut (p := Keeps wz s₀ x) ?_ ?_ <;> [subst x; (clear_value x; intro _)])
         | (with_reducible refine mem_cut (p := Keeps wz s₀ x.2) ?_ ?_ <;> [subst x; (clear_value x; intro _)])
         | (have hx := fun y => x y; clear hx; subst x; try dsimp -zeta only)
         | clear_value x
         | subst x)
    | split
    | (with_reducible refine keeps_of_pair (by assumption) ?_)

theorem State.sendYallek_keeps (hW : Within 68722688000 wz) (s : State) (st : Nat) (hm : Keeps wz s₀ s) : Keeps wz s₀ (State.sendYallek s st) := by
  unfold State.sendYallek
  repeat' first
    | (with_reducible refine Within.sub hW ?_; decide)
    | with_reducible assumption
    | (with_reducible apply foldl_keeps; intros; try dsimp -zeta only)
    | with_reducible apply State.modStrm_keeps
    | with_reducible apply State.queueSpore_keeps
    | with_reducible apply State.oqSettle_keeps
    | (extract_lets +onlyGivenNames x
       first
         | (with_reducible refine mem_cut (p := Keeps wz s₀ x) ?_ ?_ <;> [subst x; (clear_value x; intro _)])
         | (with_reducible refine mem_cut (p := Keeps wz s₀ x.2) ?_ ?_ <;> [subst x; (clear_value x; intro _)])
         | (have hx := fun y => x y; clear hx; subst x; try dsimp -zeta only)
         | clear_value x
         | subst x)
    | split

theorem outputLineSend_keeps (hW : Within 86238101762 wz) (st : Nat) (s : State) (hm : Keeps wz s₀ s) : Keeps wz s₀ (outputLineSend st s) := by
  unfold outputLineSend
  repeat' first
    | (with_reducible refine Within.sub hW ?_; decide)
    | with_reducible assumption
    | with_reducible apply State.sendHost_keeps
    | with_reducible apply State.sendYallek_keeps
    | (extract_lets +onlyGivenNames x
       first
         | (with_reducible refine mem_cut (p := Keeps wz s₀ x) ?_ ?_ <;> [subst x; (clear_value x; intro _)])
         | (with_reducible refine mem_cut (p := Keeps wz s₀ x.2) ?_ ?_ <;> [subst x; (clear_value x; intro _)])
         | (have hx := fun y => x y; clear hx; subst x; try dsimp -zeta only)
         | clear_value x
         | subst x)
    | split

theorem execOutputLineSend_keeps (hW : Within 86238101762 wz) (st : StreamId) (s : State) (hm : Keeps wz s₀ s) : ∀ z, execOutputLineSend st s = .next z → Keeps wz s₀ z := by
  intro z ht
  unfold execOutputLineSend at ht
  injection ht with ht
  subst ht
  repeat' first
    | (with_reducible refine Within.sub hW ?_; decide)
    | with_reducible assumption
    | with_reducible apply outputLineSend_keeps

theorem State.endSent_keeps (hW : Within 274877972736 wz) (s : State) (d : Nat) (st : Nat) (fseq : B16) (drop : Bool) (hm : Keeps wz s₀ s) : Keeps wz s₀ (State.endSent s d st fseq drop) := by
  unfold State.endSent
  repeat' first
    | (with_reducible refine Within.sub hW ?_; decide)
    | with_reducible assumption
    | with_reducible apply State.modStrm_keeps
    | with_reducible apply State.setSender_keeps
    | with_reducible apply State.log_keeps
    | (extract_lets +onlyGivenNames x
       first
         | (with_reducible refine mem_cut (p := Keeps wz s₀ x) ?_ ?_ <;> [subst x; (clear_value x; intro _)])
         | (with_reducible refine mem_cut (p := Keeps wz s₀ x.2) ?_ ?_ <;> [subst x; (clear_value x; intro _)])
         | (have hx := fun y => x y; clear hx; subst x; try dsimp -zeta only)
         | clear_value x
         | subst x)
    | split

theorem st2110Packet_keeps (hW : Within 481039548672 wz) (d : Nat) (s : State) (hm : Keeps wz s₀ s) : Keeps wz s₀ (st2110Packet d s) := by
  unfold st2110Packet
  repeat' first
    | (with_reducible refine Within.sub hW ?_; decide)
    | with_reducible assumption
    | (with_reducible apply foldl_keeps; intros; try dsimp -zeta only)
    | with_reducible apply State.modStrm_keeps
    | with_reducible apply State.setSender_keeps
    | with_reducible apply State.ethSend_keeps
    | with_reducible apply State.oqSettle_keeps
    | with_reducible apply State.endSent_keeps
    | (extract_lets +onlyGivenNames x
       first
         | (with_reducible refine mem_cut (p := Keeps wz s₀ x) ?_ ?_ <;> [subst x; (clear_value x; intro _)])
         | (with_reducible refine mem_cut (p := Keeps wz s₀ x.2) ?_ ?_ <;> [subst x; (clear_value x; intro _)])
         | (have hx := fun y => x y; clear hx; subst x; try dsimp -zeta only)
         | clear_value x
         | subst x)
    | split

theorem execSt2110Packet_keeps (hW : Within 481039548672 wz) (d : Fin 32) (s : State) (hm : Keeps wz s₀ s) : ∀ z, execSt2110Packet d s = .next z → Keeps wz s₀ z := by
  intro z ht
  unfold execSt2110Packet at ht
  injection ht with ht
  subst ht
  repeat' first
    | (with_reducible refine Within.sub hW ?_; decide)
    | with_reducible assumption
    | with_reducible apply st2110Packet_keeps

theorem metadataDatagram_keeps (hW : Within 137438953730 wz) (p : Nat) (sent : Bool) (s : State) (hm : Keeps wz s₀ s) : Keeps wz s₀ (metadataDatagram p sent s) := by
  unfold metadataDatagram
  repeat' first
    | (with_reducible refine Within.sub hW ?_; decide)
    | with_reducible assumption
    | with_reducible apply State.setEth_keeps
    | with_reducible apply State.log_keeps
    | with_reducible apply State.ethSend_keeps
    | (extract_lets +onlyGivenNames x
       first
         | (with_reducible refine mem_cut (p := Keeps wz s₀ x) ?_ ?_ <;> [subst x; (clear_value x; intro _)])
         | (with_reducible refine mem_cut (p := Keeps wz s₀ x.2) ?_ ?_ <;> [subst x; (clear_value x; intro _)])
         | (have hx := fun y => x y; clear hx; subst x; try dsimp -zeta only)
         | clear_value x
         | subst x)
    | split
    | (try dsimp -zeta only
       with_reducible refine Keeps.mk' (V := 137438953730) rfl (hW.sub (by decide)) ?_ ?_ id ?_
       · (repeat' apply And.intro) <;> first | exact fun _ => rfl | exact fun h => zone_in h
       · first | exact id | exact fun _ => rfl)

theorem execMetadataDatagram_keeps (hW : Within 137438953730 wz) (p : Fin 2) (sent : Bool) (s : State) (hm : Keeps wz s₀ s) : ∀ z, execMetadataDatagram p sent s = .next z → Keeps wz s₀ z := by
  intro z ht
  unfold execMetadataDatagram at ht
  injection ht with ht
  subst ht
  repeat' first
    | (with_reducible refine Within.sub hW ?_; decide)
    | with_reducible assumption
    | with_reducible apply metadataDatagram_keeps

theorem hostMemoryRead_keeps (hW : Within 103082426368 wz) (r : HostRead) (data : Option Bytes) (s : State) (hm : Keeps wz s₀ s) : Keeps wz s₀ (hostMemoryRead r data s) := by
  unfold hostMemoryRead
  repeat' first
    | (with_reducible refine Within.sub hW ?_; decide)
    | with_reducible assumption
    | with_reducible apply State.putReplay_keeps
    | split
    | (try dsimp -zeta only
       with_reducible refine Keeps.mk' (V := 103082426368) rfl (hW.sub (by decide)) ?_ ?_ id ?_
       · (repeat' apply And.intro) <;> first | exact fun _ => rfl | exact fun h => zone_in h
       · first | exact id | exact fun _ => rfl)

theorem execHostMemoryRead_keeps (hW : Within 103082426368 wz) (r : HostRead) (data : Option Bytes) (s : State) (hm : Keeps wz s₀ s) : ∀ z, execHostMemoryRead r data s = .next z → Keeps wz s₀ z := by
  intro z ht
  unfold execHostMemoryRead at ht
  injection ht with ht
  subst ht
  repeat' first
    | (with_reducible refine Within.sub hW ?_; decide)
    | with_reducible assumption
    | with_reducible apply hostMemoryRead_keeps

theorem State.raiseIrq_keeps (hW : Within 67108864 wz) (s : State) (f : Nat) (v : Nat) (hm : Keeps wz s₀ s) : Keeps wz s₀ (State.raiseIrq s f v) := by
  unfold State.raiseIrq
  repeat' first
    | (with_reducible refine Within.sub hW ?_; decide)
    | with_reducible assumption
    | with_reducible apply State.modFn_keeps

theorem State.ringStatus_keeps (hW : Within 67108864 wz) (s : State) (f : Nat) (g : Fn → Fn) (hm : Keeps wz s₀ s) : Keeps wz s₀ (State.ringStatus s f g) := by
  unfold State.ringStatus
  repeat' first
    | (with_reducible refine Within.sub hW ?_; decide)
    | with_reducible assumption
    | with_reducible apply State.modFn_keeps
    | with_reducible apply State.raiseIrq_keeps
    | (extract_lets +onlyGivenNames x
       first
         | (with_reducible refine mem_cut (p := Keeps wz s₀ x) ?_ ?_ <;> [subst x; (clear_value x; intro _)])
         | (with_reducible refine mem_cut (p := Keeps wz s₀ x.2) ?_ ?_ <;> [subst x; (clear_value x; intro _)])
         | (have hx := fun y => x y; clear hx; subst x; try dsimp -zeta only)
         | clear_value x
         | subst x)
    | split

theorem cmdTail_keeps (hW : Within 67108864 wz) (f : Nat) (v : Nat) (s : State) (hm : Keeps wz s₀ s) : Keeps wz s₀ (cmdTail f v s) := by
  unfold cmdTail
  repeat' first
    | (with_reducible refine Within.sub hW ?_; decide)
    | with_reducible assumption
    | with_reducible apply State.setFn_keeps
    | with_reducible apply State.ringStatus_keeps
    | (extract_lets +onlyGivenNames x
       first
         | (with_reducible refine mem_cut (p := Keeps wz s₀ x) ?_ ?_ <;> [subst x; (clear_value x; intro _)])
         | (with_reducible refine mem_cut (p := Keeps wz s₀ x.2) ?_ ?_ <;> [subst x; (clear_value x; intro _)])
         | (have hx := fun y => x y; clear hx; subst x; try dsimp -zeta only)
         | clear_value x
         | subst x)
    | split

theorem execCmdTail_keeps (hW : Within 67108864 wz) (f : FnId) (v : B32) (s : State) (hm : Keeps wz s₀ s) : ∀ z, execCmdTail f v s = .next z → Keeps wz s₀ z := by
  intro z ht
  unfold execCmdTail at ht
  injection ht with ht
  subst ht
  repeat' first
    | (with_reducible refine Within.sub hW ?_; decide)
    | with_reducible assumption
    | with_reducible apply cmdTail_keeps

theorem ringReset_keeps (hW : Within 67108864 wz) (f : Nat) (s : State) (hm : Keeps wz s₀ s) : Keeps wz s₀ (ringReset f s) := by
  unfold ringReset
  repeat' first
    | (with_reducible refine Within.sub hW ?_; decide)
    | with_reducible assumption
    | with_reducible apply State.modFn_keeps
    | split

theorem execRingReset_keeps (hW : Within 67108864 wz) (f : FnId) (s : State) (hm : Keeps wz s₀ s) : ∀ z, execRingReset f s = .next z → Keeps wz s₀ z := by
  intro z ht
  unfold execRingReset at ht
  injection ht with ht
  subst ht
  repeat' first
    | (with_reducible refine Within.sub hW ?_; decide)
    | with_reducible assumption
    | with_reducible apply ringReset_keeps

theorem poolDoorbell_keeps (hW : Within 335544320 wz) (f : Nat) (v : B32) (s : State) (hm : Keeps wz s₀ s) : Keeps wz s₀ (poolDoorbell f v s) := by
  unfold poolDoorbell
  repeat' first
    | (with_reducible refine Within.sub hW ?_; decide)
    | with_reducible assumption
    | with_reducible apply State.setFn_keeps
    | with_reducible apply State.setPool_keeps
    | with_reducible apply State.ringStatus_keeps
    | (extract_lets +onlyGivenNames x
       first
         | (with_reducible refine mem_cut (p := Keeps wz s₀ x) ?_ ?_ <;> [subst x; (clear_value x; intro _)])
         | (with_reducible refine mem_cut (p := Keeps wz s₀ x.2) ?_ ?_ <;> [subst x; (clear_value x; intro _)])
         | (have hx := fun y => x y; clear hx; subst x; try dsimp -zeta only)
         | clear_value x
         | subst x)
    | split

theorem execPoolDoorbell_keeps (hW : Within 335544320 wz) (f : FnId) (v : B32) (s : State) (hm : Keeps wz s₀ s) : ∀ z, execPoolDoorbell f v s = .next z → Keeps wz s₀ z := by
  intro z ht
  unfold execPoolDoorbell at ht
  injection ht with ht
  subst ht
  repeat' first
    | (with_reducible refine Within.sub hW ?_; decide)
    | with_reducible assumption
    | with_reducible apply poolDoorbell_keeps

theorem ringResetDone_keeps (hW : Within 100663552 wz) (f : Nat) (s : State) (hm : Keeps wz s₀ s) : Keeps wz s₀ (ringResetDone f s) := by
  unfold ringResetDone
  repeat' first
    | (with_reducible refine Within.sub hW ?_; decide)
    | with_reducible assumption
    | with_reducible apply State.modFn_keeps
    | with_reducible apply State.flushReplies_keeps
    | (extract_lets +onlyGivenNames x
       first
         | (with_reducible refine mem_cut (p := Keeps wz s₀ x) ?_ ?_ <;> [subst x; (clear_value x; intro _)])
         | (with_reducible refine mem_cut (p := Keeps wz s₀ x.2) ?_ ?_ <;> [subst x; (clear_value x; intro _)])
         | (have hx := fun y => x y; clear hx; subst x; try dsimp -zeta only)
         | clear_value x
         | subst x)
    | split

theorem execRingResetDone_keeps (hW : Within 100663552 wz) (f : FnId) (s : State) (hm : Keeps wz s₀ s) : ∀ z, execRingResetDone f s = .next z → Keeps wz s₀ z := by
  intro z ht
  unfold execRingResetDone at ht
  injection ht with ht
  subst ht
  repeat' first
    | (with_reducible refine Within.sub hW ?_; decide)
    | with_reducible assumption
    | with_reducible apply ringResetDone_keeps

theorem cmdFetch_keeps (hW : Within 67109120 wz) (f : Nat) (b : Option Bytes) (s : State) (hm : Keeps wz s₀ s) : Keeps wz s₀ (cmdFetch f b s) := by
  unfold cmdFetch
  repeat' first
    | (with_reducible refine Within.sub hW ?_; decide)
    | with_reducible assumption
    | with_reducible apply State.setFn_keeps
    | with_reducible apply State.log_keeps
    | with_reducible apply State.ringStatus_keeps
    | (extract_lets +onlyGivenNames x
       first
         | (with_reducible refine mem_cut (p := Keeps wz s₀ x) ?_ ?_ <;> [subst x; (clear_value x; intro _)])
         | (with_reducible refine mem_cut (p := Keeps wz s₀ x.2) ?_ ?_ <;> [subst x; (clear_value x; intro _)])
         | (have hx := fun y => x y; clear hx; subst x; try dsimp -zeta only)
         | clear_value x
         | subst x)
    | split

theorem execCmdFetch_keeps (hW : Within 67109120 wz) (f : FnId) (packet : Option Bytes) (s : State) (hm : Keeps wz s₀ s) : ∀ z, execCmdFetch f packet s = .next z → Keeps wz s₀ z := by
  intro z ht
  unfold execCmdFetch at ht
  injection ht with ht
  subst ht
  repeat' first
    | (with_reducible refine Within.sub hW ?_; decide)
    | with_reducible assumption
    | with_reducible apply cmdFetch_keeps

theorem cmdDispatch_keeps (hW : Within 1157629184 wz) (f : Nat) (cspi : Bool) (s : State) (hm : Keeps wz s₀ s) : Keeps wz s₀ (cmdDispatch f cspi s) := by
  unfold cmdDispatch
  repeat' first
    | (with_reducible refine Within.sub hW ?_; decide)
    | with_reducible assumption
    | with_reducible apply State.modFn_keeps
    | with_reducible apply State.setRing_keeps
    | with_reducible apply State.finish_keeps
    | with_reducible apply State.modRunning_keeps
    | with_reducible apply State.useArb_keeps
    | (extract_lets +onlyGivenNames x
       first
         | (with_reducible refine mem_cut (p := Keeps wz s₀ x) ?_ ?_ <;> [subst x; (clear_value x; intro _)])
         | (with_reducible refine mem_cut (p := Keeps wz s₀ x.2) ?_ ?_ <;> [subst x; (clear_value x; intro _)])
         | (have hx := fun y => x y; clear hx; subst x; try dsimp -zeta only)
         | clear_value x
         | subst x)
    | split
    | with_reducible apply keeps_getD
    | with_reducible exact opt_none
    | with_reducible apply opt_some
    | (with_reducible refine keeps_of_some (by assumption) ?_)
    | (try dsimp -zeta only
       with_reducible refine Keeps.mk' (V := 1157629184) rfl (hW.sub (by decide)) ?_ ?_ id ?_
       · (repeat' apply And.intro) <;> first | exact fun _ => rfl | exact fun h => zone_in h
       · first | exact id | exact fun _ => rfl)

theorem execCmdDispatch_keeps (hW : Within 1157629184 wz) (f : FnId) (cspi : Bool) (s : State) (hm : Keeps wz s₀ s) : ∀ z, execCmdDispatch f cspi s = .next z → Keeps wz s₀ z := by
  intro z ht
  unfold execCmdDispatch at ht
  injection ht with ht
  subst ht
  repeat' first
    | (with_reducible refine Within.sub hW ?_; decide)
    | with_reducible assumption
    | with_reducible apply cmdDispatch_keeps

theorem replyWrite_keeps (hW : Within 17246978048 wz) (f : Nat) (ok : Bool) (s : State) (hm : Keeps wz s₀ s) : Keeps wz s₀ (replyWrite f ok s) := by
  unfold replyWrite
  repeat' first
    | (with_reducible refine Within.sub hW ?_; decide)
    | with_reducible assumption
    | with_reducible apply State.setFn_keeps
    | with_reducible apply State.hostWrite_keeps
    | with_reducible apply State.raiseIrq_keeps
    | with_reducible apply State.ringStatus_keeps
    | (extract_lets +onlyGivenNames x
       first
         | (with_reducible refine mem_cut (p := Keeps wz s₀ x) ?_ ?_ <;> [subst x; (clear_value x; intro _)])
         | (with_reducible refine mem_cut (p := Keeps wz s₀ x.2) ?_ ?_ <;> [subst x; (clear_value x; intro _)])
         | (have hx := fun y => x y; clear hx; subst x; try dsimp -zeta only)
         | clear_value x
         | subst x)
    | split

theorem execReplyWrite_keeps (hW : Within 17246978048 wz) (f : FnId) (ok : Bool) (s : State) (hm : Keeps wz s₀ s) : ∀ z, execReplyWrite f ok s = .next z → Keeps wz s₀ z := by
  intro z ht
  unfold execReplyWrite at ht
  injection ht with ht
  subst ht
  repeat' first
    | (with_reducible refine Within.sub hW ?_; decide)
    | with_reducible assumption
    | with_reducible apply replyWrite_keeps

theorem execReplyInterrupt_keeps (hW : Within 67108864 wz) (f : FnId) (s : State) (hm : Keeps wz s₀ s) : ∀ z, execReplyInterrupt f s = .next z → Keeps wz s₀ z := by
  intro z ht
  unfold execReplyInterrupt at ht
  injection ht with ht
  subst ht
  repeat' first
    | (with_reducible refine Within.sub hW ?_; decide)
    | with_reducible assumption
    | with_reducible apply State.modFn_keeps
    | with_reducible apply State.raiseIrq_keeps
    | split

theorem execLogInterrupt_keeps (hW : Within 67108864 wz) (f : FnId) (s : State) (hm : Keeps wz s₀ s) : ∀ z, execLogInterrupt f s = .next z → Keeps wz s₀ z := by
  intro z ht
  unfold execLogInterrupt at ht
  injection ht with ht
  subst ht
  repeat' first
    | (with_reducible refine Within.sub hW ?_; decide)
    | with_reducible assumption
    | with_reducible apply State.modFn_keeps
    | with_reducible apply State.raiseIrq_keeps
    | split

theorem execCompletionInterrupt_keeps (hW : Within 67108864 wz) (f : FnId) (s : State) (hm : Keeps wz s₀ s) : ∀ z, execCompletionInterrupt f s = .next z → Keeps wz s₀ z := by
  intro z ht
  unfold execCompletionInterrupt at ht
  injection ht with ht
  subst ht
  repeat' first
    | (with_reducible refine Within.sub hW ?_; decide)
    | with_reducible assumption
    | with_reducible apply State.modFn_keeps
    | with_reducible apply State.raiseIrq_keeps
    | split

theorem State.putEsn_keeps (hW : Within 17179870208 wz) (s : State) (r : Rec) (hm : Keeps wz s₀ s) : Keeps wz s₀ (State.putEsn s r) := by
  unfold State.putEsn
  repeat' first
    | (with_reducible refine Within.sub hW ?_; decide)
    | with_reducible assumption
    | with_reducible apply State.hostWrite_keeps
    | (extract_lets +onlyGivenNames x
       first
         | (with_reducible refine mem_cut (p := Keeps wz s₀ x) ?_ ?_ <;> [subst x; (clear_value x; intro _)])
         | (with_reducible refine mem_cut (p := Keeps wz s₀ x.2) ?_ ?_ <;> [subst x; (clear_value x; intro _)])
         | (have hx := fun y => x y; clear hx; subst x; try dsimp -zeta only)
         | clear_value x
         | subst x)
    | split
    | (try dsimp -zeta only
       with_reducible refine Keeps.mk' (V := 17179870208) rfl (hW.sub (by decide)) ?_ ?_ id ?_
       · (repeat' apply And.intro) <;> first | exact fun _ => rfl | exact fun h => zone_in h
       · first | exact id | exact fun _ => rfl)

theorem State.takeReply_keeps (hW : Within 17246979072 wz) (s : State) (r : Rec) (hm : Keeps wz s₀ s) : Keeps wz s₀ (State.takeReply s r) := by
  unfold State.takeReply
  repeat' first
    | (with_reducible refine Within.sub hW ?_; decide)
    | with_reducible assumption
    | with_reducible apply State.modFn_keeps
    | with_reducible apply State.setRing_keeps
    | with_reducible apply State.putEsn_keeps
    | (extract_lets +onlyGivenNames x
       first
         | (with_reducible refine mem_cut (p := Keeps wz s₀ x) ?_ ?_ <;> [subst x; (clear_value x; intro _)])
         | (with_reducible refine mem_cut (p := Keeps wz s₀ x.2) ?_ ?_ <;> [subst x; (clear_value x; intro _)])
         | (have hx := fun y => x y; clear hx; subst x; try dsimp -zeta only)
         | clear_value x
         | subst x)
    | split
    | (try dsimp -zeta only
       with_reducible refine Keeps.mk' (V := 17246979072) rfl (hW.sub (by decide)) ?_ ?_ id ?_
       · (repeat' apply And.intro) <;> first | exact fun _ => rfl | exact fun h => zone_in h
       · first | exact id | exact fun _ => rfl)

theorem State.frameNumbered_keeps (hW : Within 137439019008 wz) (s : State) (r : Rec) (hm : Keeps wz s₀ s) : Keeps wz s₀ (State.frameNumbered s r) := by
  unfold State.frameNumbered
  repeat' first
    | (with_reducible refine Within.sub hW ?_; decide)
    | with_reducible assumption
    | with_reducible apply State.modFrame_keeps
    | (extract_lets +onlyGivenNames x
       first
         | (with_reducible refine mem_cut (p := Keeps wz s₀ x) ?_ ?_ <;> [subst x; (clear_value x; intro _)])
         | (with_reducible refine mem_cut (p := Keeps wz s₀ x.2) ?_ ?_ <;> [subst x; (clear_value x; intro _)])
         | (have hx := fun y => x y; clear hx; subst x; try dsimp -zeta only)
         | clear_value x
         | subst x)
    | split
    | (try dsimp -zeta only
       with_reducible refine Keeps.mk' (V := 137439019008) rfl (hW.sub (by decide)) ?_ ?_ id ?_
       · (repeat' apply And.intro) <;> first | exact fun _ => rfl | exact fun h => zone_in h
       · first | exact id | exact fun _ => rfl)

theorem eventRecord_keeps (hW : Within 154702777616 wz) (inp : Nat) (s : State) (hm : Keeps wz s₀ s) : Keeps wz s₀ (eventRecord inp s) := by
  unfold eventRecord
  repeat' first
    | (with_reducible refine Within.sub hW ?_; decide)
    | with_reducible assumption
    | with_reducible apply State.capEvent_keeps
    | with_reducible apply State.useArb_keeps
    | with_reducible apply State.takeReply_keeps
    | with_reducible apply State.frameNumbered_keeps
    | (extract_lets +onlyGivenNames x
       first
         | (with_reducible refine mem_cut (p := Keeps wz s₀ x) ?_ ?_ <;> [subst x; (clear_value x; intro _)])
         | (with_reducible refine mem_cut (p := Keeps wz s₀ x.2) ?_ ?_ <;> [subst x; (clear_value x; intro _)])
         | (have hx := fun y => x y; clear hx; subst x; try dsimp -zeta only)
         | clear_value x
         | subst x)
    | split
    | with_reducible apply keeps_getD
    | with_reducible exact opt_none
    | with_reducible apply opt_some
    | (with_reducible refine keeps_of_some (by assumption) ?_)
    | (try dsimp -zeta only
       with_reducible refine Keeps.mk' (V := 154702777616) rfl (hW.sub (by decide)) ?_ ?_ id ?_
       · (repeat' apply And.intro) <;> first | exact fun _ => rfl | exact fun h => zone_in h
       · first | exact id | exact fun _ => rfl)

theorem execEventRecord_keeps (hW : Within 154702777616 wz) (input : Fin 28) (s : State) (hm : Keeps wz s₀ s) : ∀ z, execEventRecord input s = .next z → Keeps wz s₀ z := by
  intro z ht
  unfold execEventRecord at ht
  injection ht with ht
  subst ht
  repeat' first
    | (with_reducible refine Within.sub hW ?_; decide)
    | with_reducible assumption
    | with_reducible apply eventRecord_keeps

theorem overrun_keeps (hW : Within 256 wz) (inp : Nat) (s : State) (hm : Keeps wz s₀ s) : Keeps wz s₀ (overrun inp s) := by
  unfold overrun
  repeat' first
    | (with_reducible refine Within.sub hW ?_; decide)
    | with_reducible assumption
    | (extract_lets +onlyGivenNames x
       first
         | (with_reducible refine mem_cut (p := Keeps wz s₀ x) ?_ ?_ <;> [subst x; (clear_value x; intro _)])
         | (with_reducible refine mem_cut (p := Keeps wz s₀ x.2) ?_ ?_ <;> [subst x; (clear_value x; intro _)])
         | (have hx := fun y => x y; clear hx; subst x; try dsimp -zeta only)
         | clear_value x
         | subst x)
    | split
    | (try dsimp -zeta only
       with_reducible refine Keeps.mk' (V := 256) rfl (hW.sub (by decide)) ?_ ?_ id ?_
       · (repeat' apply And.intro) <;> first | exact fun _ => rfl | exact fun h => zone_in h
       · first | exact id | exact fun _ => rfl)

end Sys2Proof.Machine
end

