-- ==== Sys2Proof/Laws/Keeps12.lean ====
section
/-! SUPPORT. What the definitions from execOverrun to execLogDropRead may write: `Keeps wz s t` says that only the
parts of `wz` differ and that memories stay canonical. -/
set_option linter.unusedTactic false
set_option linter.unreachableTactic false
set_option linter.unusedVariables false
namespace Sys2Proof.Machine
variable {wz : Nat} {s₀ : State}
theorem execOverrun_keeps (hW : Within 256 wz) (input : Fin 28) (s : State) (hm : Keeps wz s₀ s) : ∀ z, execOverrun input s = .next z → Keeps wz s₀ z := by
  intro z ht
  unfold execOverrun at ht
  injection ht with ht
  subst ht
  repeat' first
    | (with_reducible refine Within.sub hW ?_; decide)
    | with_reducible assumption
    | with_reducible apply overrun_keeps

theorem State.longLog_keeps (hW : Within 8589934848 wz) (s : State) (us : List Bytes) (hm : Keeps wz s₀ s) : Keeps wz s₀ (State.longLog s us) := by
  unfold State.longLog
  repeat' first
    | (with_reducible refine Within.sub hW ?_; decide)
    | with_reducible assumption
    | (with_reducible apply foldl_keeps; intros; try dsimp -zeta only)
    | with_reducible apply State.hbmWrite_keeps
    | (extract_lets +onlyGivenNames x
       first
         | (with_reducible refine mem_cut (p := Keeps wz s₀ x) ?_ ?_ <;> [subst x; (clear_value x; intro _)])
         | (with_reducible refine mem_cut (p := Keeps wz s₀ x.2) ?_ ?_ <;> [subst x; (clear_value x; intro _)])
         | (have hx := fun y => x y; clear hx; subst x; try dsimp -zeta only)
         | clear_value x
         | subst x)
    | split
    | (try dsimp -zeta only
       with_reducible refine Keeps.mk' (V := 8589934848) rfl (hW.sub (by decide)) ?_ ?_ id ?_
       · (repeat' apply And.intro) <;> first | exact fun _ => rfl | exact fun h => zone_in h
       · first | exact id | exact fun _ => rfl)

theorem State.logWindow_keeps (hW : Within 256 wz) (s : State) (us : List Bytes) (hm : Keeps wz s₀ s) : Keeps wz s₀ (State.logWindow s us) := by
  unfold State.logWindow
  repeat' first
    | (with_reducible refine Within.sub hW ?_; decide)
    | with_reducible assumption
    | (with_reducible apply foldl_keeps; intros; try dsimp -zeta only)
    | (try dsimp -zeta only
       with_reducible refine Keeps.mk' (V := 256) rfl (hW.sub (by decide)) ?_ ?_ id ?_
       · (repeat' apply And.intro) <;> first | exact fun _ => rfl | exact fun h => zone_in h
       · first | exact id | exact fun _ => rfl)

theorem State.ringLog_keeps (hW : Within 17246978048 wz) (s : State) (f : Nat) (g : LogRing) (r : Rec) (hm : Keeps wz s₀ s) : Keeps wz s₀ (State.ringLog s f g r) := by
  unfold State.ringLog
  repeat' first
    | (with_reducible refine Within.sub hW ?_; decide)
    | with_reducible assumption
    | (with_reducible apply foldl_keeps; intros; try dsimp -zeta only)
    | with_reducible apply State.setFn_keeps
    | with_reducible apply State.hostWrite_keeps
    | with_reducible apply State.ringStatus_keeps
    | (extract_lets +onlyGivenNames x
       first
         | (with_reducible refine mem_cut (p := Keeps wz s₀ x) ?_ ?_ <;> [subst x; (clear_value x; intro _)])
         | (with_reducible refine mem_cut (p := Keeps wz s₀ x.2) ?_ ?_ <;> [subst x; (clear_value x; intro _)])
         | (have hx := fun y => x y; clear hx; subst x; try dsimp -zeta only)
         | clear_value x
         | subst x)
    | split

theorem logDistribute_keeps (hW : Within 25836912896 wz) (s : State) (hm : Keeps wz s₀ s) : Keeps wz s₀ (logDistribute s) := by
  unfold logDistribute
  repeat' first
    | (with_reducible refine Within.sub hW ?_; decide)
    | with_reducible assumption
    | (with_reducible apply foldl_keeps; intros; try dsimp -zeta only)
    | with_reducible apply State.longLog_keeps
    | with_reducible apply State.logWindow_keeps
    | with_reducible apply State.ringLog_keeps
    | (extract_lets +onlyGivenNames x
       first
         | (with_reducible refine mem_cut (p := Keeps wz s₀ x) ?_ ?_ <;> [subst x; (clear_value x; intro _)])
         | (with_reducible refine mem_cut (p := Keeps wz s₀ x.2) ?_ ?_ <;> [subst x; (clear_value x; intro _)])
         | (have hx := fun y => x y; clear hx; subst x; try dsimp -zeta only)
         | clear_value x
         | subst x)
    | split
    | (try dsimp -zeta only
       with_reducible refine Keeps.mk' (V := 25836912896) rfl (hW.sub (by decide)) ?_ ?_ id ?_
       · (repeat' apply And.intro) <;> first | exact fun _ => rfl | exact fun h => zone_in h
       · first | exact id | exact fun _ => rfl)

theorem execLogDistribute_keeps (hW : Within 25836912896 wz) (s : State) (hm : Keeps wz s₀ s) : ∀ z, execLogDistribute s = .next z → Keeps wz s₀ z := by
  intro z ht
  unfold execLogDistribute at ht
  injection ht with ht
  subst ht
  repeat' first
    | (with_reducible refine Within.sub hW ?_; decide)
    | with_reducible assumption
    | with_reducible apply logDistribute_keeps

theorem frameRecord_keeps (hW : Within 65792 wz) (st : Nat) (s : State) (hm : Keeps wz s₀ s) : Keeps wz s₀ (frameRecord st s) := by
  unfold frameRecord
  repeat' first
    | (with_reducible refine Within.sub hW ?_; decide)
    | with_reducible assumption
    | with_reducible apply State.setStrm_keeps
    | with_reducible apply State.post_keeps
    | (extract_lets +onlyGivenNames x
       first
         | (with_reducible refine mem_cut (p := Keeps wz s₀ x) ?_ ?_ <;> [subst x; (clear_value x; intro _)])
         | (with_reducible refine mem_cut (p := Keeps wz s₀ x.2) ?_ ?_ <;> [subst x; (clear_value x; intro _)])
         | (have hx := fun y => x y; clear hx; subst x; try dsimp -zeta only)
         | clear_value x
         | subst x)
    | split

theorem ctrlForward_keeps (hW : Within 50331650 wz) (site : Nat) (out : Nat) (s : State) (hm : Keeps wz s₀ s) : Keeps wz s₀ (ctrlForward site out s) := by
  unfold ctrlForward
  repeat' first
    | (with_reducible refine Within.sub hW ?_; decide)
    | with_reducible assumption
    | with_reducible apply State.modQueue_keeps
    | with_reducible apply State.draw_keeps
    | with_reducible apply State.useArb_keeps
    | (extract_lets +onlyGivenNames x
       first
         | (with_reducible refine mem_cut (p := Keeps wz s₀ x) ?_ ?_ <;> [subst x; (clear_value x; intro _)])
         | (with_reducible refine mem_cut (p := Keeps wz s₀ x.2) ?_ ?_ <;> [subst x; (clear_value x; intro _)])
         | (have hx := fun y => x y; clear hx; subst x; try dsimp -zeta only)
         | clear_value x
         | subst x)
    | split
    | with_reducible apply keeps_getD
    | with_reducible exact opt_none
    | with_reducible apply opt_some
    | (with_reducible refine keeps_of_some (by assumption) ?_)

theorem State.showRead_keeps (hW : Within 33554432 wz) (s : State) (q : QId) (ws : List B64) (hm : Keeps wz s₀ s) : Keeps wz s₀ (State.showRead s q ws) := by
  unfold State.showRead
  repeat' first
    | (with_reducible refine Within.sub hW ?_; decide)
    | with_reducible assumption
    | with_reducible apply State.modQueue_keeps

theorem queueRead_keeps (hW : Within 25887244546 wz) (q : QId) (s : State) (hm : Keeps wz s₀ s) : Keeps wz s₀ (queueRead q s) := by
  unfold queueRead
  repeat' first
    | (with_reducible refine Within.sub hW ?_; decide)
    | with_reducible assumption
    | with_reducible apply State.modQueue_keeps
    | with_reducible apply replyWrite_keeps
    | with_reducible apply logDistribute_keeps
    | with_reducible apply ctrlForward_keeps
    | with_reducible apply State.showRead_keeps
    | split

theorem execQueueRead_keeps (hW : Within 25887244546 wz) (q : QId) (s : State) (hm : Keeps wz s₀ s) : ∀ z, execQueueRead q s = .next z → Keeps wz s₀ z := by
  intro z ht
  unfold execQueueRead at ht
  injection ht with ht
  subst ht
  repeat' first
    | (with_reducible refine Within.sub hW ?_; decide)
    | with_reducible assumption
    | with_reducible apply queueRead_keeps

theorem execFrameRecord_keeps (hW : Within 65792 wz) (st : StreamId) (s : State) (hm : Keeps wz s₀ s) : ∀ z, execFrameRecord st s = .next z → Keeps wz s₀ z := by
  intro z ht
  unfold execFrameRecord at ht
  injection ht with ht
  subst ht
  repeat' first
    | (with_reducible refine Within.sub hW ?_; decide)
    | with_reducible assumption
    | with_reducible apply frameRecord_keeps

theorem State.capWrite_keeps (hW : Within 8589934592 wz) (s : State) (u : Nat) (b : Bytes) (hm : Keeps wz s₀ s) : Keeps wz s₀ (State.capWrite s u b) := by
  unfold State.capWrite
  repeat' first
    | (with_reducible refine Within.sub hW ?_; decide)
    | with_reducible assumption
    | with_reducible apply State.hbmWrite_keeps
    | split

theorem captureRecord_keeps (hW : Within 8589936896 wz) (r : CapRec) (room : Bool) (s : State) (hm : Keeps wz s₀ s) : Keeps wz s₀ (captureRecord r room s) := by
  unfold captureRecord
  repeat' first
    | (with_reducible refine Within.sub hW ?_; decide)
    | with_reducible assumption
    | with_reducible apply State.logCapture_keeps
    | with_reducible apply State.capEnd_keeps
    | with_reducible apply State.capWrite_keeps
    | (extract_lets +onlyGivenNames x
       first
         | (with_reducible refine mem_cut (p := Keeps wz s₀ x) ?_ ?_ <;> [subst x; (clear_value x; intro _)])
         | (with_reducible refine mem_cut (p := Keeps wz s₀ x.2) ?_ ?_ <;> [subst x; (clear_value x; intro _)])
         | (have hx := fun y => x y; clear hx; subst x; try dsimp -zeta only)
         | clear_value x
         | subst x)
    | split
    | (try dsimp -zeta only
       with_reducible refine Keeps.mk' (V := 8589936896) rfl (hW.sub (by decide)) ?_ ?_ id ?_
       · (repeat' apply And.intro) <;> first | exact fun _ => rfl | exact fun h => zone_in h
       · first | exact id | exact fun _ => rfl)

theorem execCaptureRecord_keeps (hW : Within 8589936896 wz) (r : CapRec) (room : Bool) (s : State) (hm : Keeps wz s₀ s) : ∀ z, execCaptureRecord r room s = .next z → Keeps wz s₀ z := by
  intro z ht
  unfold execCaptureRecord at ht
  injection ht with ht
  subst ht
  repeat' first
    | (with_reducible refine Within.sub hW ?_; decide)
    | with_reducible assumption
    | with_reducible apply captureRecord_keeps

theorem State.writeCapEn_keeps (hW : Within 2304 wz) (s : State) (on : Bool) (hm : Keeps wz s₀ s) : Keeps wz s₀ (State.writeCapEn s on) := by
  unfold State.writeCapEn
  repeat' first
    | (with_reducible refine Within.sub hW ?_; decide)
    | with_reducible assumption
    | with_reducible apply State.capFire_keeps
    | (extract_lets +onlyGivenNames x
       first
         | (with_reducible refine mem_cut (p := Keeps wz s₀ x) ?_ ?_ <;> [subst x; (clear_value x; intro _)])
         | (with_reducible refine mem_cut (p := Keeps wz s₀ x.2) ?_ ?_ <;> [subst x; (clear_value x; intro _)])
         | (have hx := fun y => x y; clear hx; subst x; try dsimp -zeta only)
         | clear_value x
         | subst x)
    | split
    | (try dsimp -zeta only
       with_reducible refine Keeps.mk' (V := 2304) rfl (hW.sub (by decide)) ?_ ?_ id ?_
       · (repeat' apply And.intro) <;> first | exact fun _ => rfl | exact fun h => zone_in h
       · first | exact id | exact fun _ => rfl)

theorem execCapEn_keeps (hW : Within 2304 wz) (on : Bool) (s : State) (hm : Keeps wz s₀ s) : ∀ z, execCapEn on s = .next z → Keeps wz s₀ z := by
  intro z ht
  unfold execCapEn at ht
  injection ht with ht
  subst ht
  repeat' first
    | (with_reducible refine Within.sub hW ?_; decide)
    | with_reducible assumption
    | with_reducible apply State.writeCapEn_keeps

theorem execCapDropRead_keeps (hW : Within 2560 wz) (s : State) (hm : Keeps wz s₀ s) : ∀ z, execCapDropRead s = .next z → Keeps wz s₀ z := by
  intro z ht
  unfold execCapDropRead at ht
  injection ht with ht
  subst ht
  repeat' first
    | (with_reducible refine Within.sub hW ?_; decide)
    | with_reducible assumption
    | (try dsimp -zeta only
       with_reducible refine Keeps.mk' (V := 2560) rfl (hW.sub (by decide)) ?_ ?_ id ?_
       · (repeat' apply And.intro) <;> first | exact fun _ => rfl | exact fun h => zone_in h
       · first | exact id | exact fun _ => rfl)

theorem State.writeDumpGo_keeps (hW : Within 2048 wz) (s : State) (hm : Keeps wz s₀ s) : Keeps wz s₀ (State.writeDumpGo s) := by
  unfold State.writeDumpGo
  repeat' first
    | (with_reducible refine Within.sub hW ?_; decide)
    | with_reducible assumption
    | split
    | (try dsimp -zeta only
       with_reducible refine Keeps.mk' (V := 2048) rfl (hW.sub (by decide)) ?_ ?_ id ?_
       · (repeat' apply And.intro) <;> first | exact fun _ => rfl | exact fun h => zone_in h
       · first | exact id | exact fun _ => rfl)

theorem execDumpGo_keeps (hW : Within 2048 wz) (s : State) (hm : Keeps wz s₀ s) : ∀ z, execDumpGo s = .next z → Keeps wz s₀ z := by
  intro z ht
  unfold execDumpGo at ht
  injection ht with ht
  subst ht
  repeat' first
    | (with_reducible refine Within.sub hW ?_; decide)
    | with_reducible assumption
    | with_reducible apply State.writeDumpGo_keeps

theorem dumpDone_keeps (hW : Within 17179872512 wz) (ok : Bool) (s : State) (hm : Keeps wz s₀ s) : Keeps wz s₀ (dumpDone ok s) := by
  unfold dumpDone
  repeat' first
    | (with_reducible refine Within.sub hW ?_; decide)
    | with_reducible assumption
    | with_reducible apply State.hostWrite_keeps
    | with_reducible apply State.log_keeps
    | (extract_lets +onlyGivenNames x
       first
         | (with_reducible refine mem_cut (p := Keeps wz s₀ x) ?_ ?_ <;> [subst x; (clear_value x; intro _)])
         | (with_reducible refine mem_cut (p := Keeps wz s₀ x.2) ?_ ?_ <;> [subst x; (clear_value x; intro _)])
         | (have hx := fun y => x y; clear hx; subst x; try dsimp -zeta only)
         | clear_value x
         | subst x)
    | split
    | (try dsimp -zeta only
       with_reducible refine Keeps.mk' (V := 17179872512) rfl (hW.sub (by decide)) ?_ ?_ id ?_
       · (repeat' apply And.intro) <;> first | exact fun _ => rfl | exact fun h => zone_in h
       · first | exact id | exact fun _ => rfl)

theorem execDumpDone_keeps (hW : Within 17179872512 wz) (ok : Bool) (s : State) (hm : Keeps wz s₀ s) : ∀ z, execDumpDone ok s = .next z → Keeps wz s₀ z := by
  intro z ht
  unfold execDumpDone at ht
  injection ht with ht
  subst ht
  repeat' first
    | (with_reducible refine Within.sub hW ?_; decide)
    | with_reducible assumption
    | with_reducible apply dumpDone_keeps

theorem snapshotComplete_keeps (hW : Within 18320852224 wz) (o : Nat) (s : State) (hm : Keeps wz s₀ s) : Keeps wz s₀ (snapshotComplete o s) := by
  unfold snapshotComplete
  repeat' first
    | (with_reducible refine Within.sub hW ?_; decide)
    | with_reducible assumption
    | with_reducible apply State.finish_keeps
    | with_reducible apply State.modRunning_keeps
    | with_reducible apply State.deliver_keeps
    | (extract_lets +onlyGivenNames x
       first
         | (with_reducible refine mem_cut (p := Keeps wz s₀ x) ?_ ?_ <;> [subst x; (clear_value x; intro _)])
         | (with_reducible refine mem_cut (p := Keeps wz s₀ x.2) ?_ ?_ <;> [subst x; (clear_value x; intro _)])
         | (have hx := fun y => x y; clear hx; subst x; try dsimp -zeta only)
         | clear_value x
         | subst x)
    | split
    | (with_reducible refine keeps_of_pair (by assumption) ?_)
    | (try dsimp -zeta only
       with_reducible refine Keeps.mk' (V := 18320852224) rfl (hW.sub (by decide)) ?_ ?_ id ?_
       · (repeat' apply And.intro) <;> first | exact fun _ => rfl | exact fun h => zone_in h
       · first | exact id | exact fun _ => rfl)

theorem execSnapshotComplete_keeps (hW : Within 18320852224 wz) (o : Owner) (s : State) (hm : Keeps wz s₀ s) : ∀ z, execSnapshotComplete o s = .next z → Keeps wz s₀ z := by
  intro z ht
  unfold execSnapshotComplete at ht
  injection ht with ht
  subst ht
  repeat' first
    | (with_reducible refine Within.sub hW ?_; decide)
    | with_reducible assumption
    | with_reducible apply snapshotComplete_keeps

theorem State.writeWl_keeps (hW : Within 16777728 wz) (s : State) (i : Nat) (v : Nat) (hm : Keeps wz s₀ s) : Keeps wz s₀ (State.writeWl s i v) := by
  unfold State.writeWl
  repeat' first
    | (with_reducible refine Within.sub hW ?_; decide)
    | with_reducible assumption
    | (extract_lets +onlyGivenNames x
       first
         | (with_reducible refine mem_cut (p := Keeps wz s₀ x) ?_ ?_ <;> [subst x; (clear_value x; intro _)])
         | (with_reducible refine mem_cut (p := Keeps wz s₀ x.2) ?_ ?_ <;> [subst x; (clear_value x; intro _)])
         | (have hx := fun y => x y; clear hx; subst x; try dsimp -zeta only)
         | clear_value x
         | subst x)
    | split
    | (try dsimp -zeta only
       with_reducible refine Keeps.mk' (V := 16777728) rfl (hW.sub (by decide)) ?_ ?_ id ?_
       · (repeat' apply And.intro) <;> first | exact fun _ => rfl | exact fun h => zone_in h
       · first | exact id | exact fun _ => rfl)

theorem State.memNext_keeps (hW : Within 131072 wz) (s : State) (site : Nat) (hm : Keeps wz s₀ s) : Keeps wz s₀ (State.memNext s site) := by
  unfold State.memNext
  repeat' first
    | (with_reducible refine Within.sub hW ?_; decide)
    | with_reducible assumption
    | with_reducible apply State.modUnit_keeps

theorem State.debugGrant_keeps (hW : Within 16777216 wz) (s : State) (site : Nat) (hm : Keeps wz s₀ s) : Keeps wz s₀ (State.debugGrant s site) := by
  unfold State.debugGrant
  repeat' first
    | (with_reducible refine Within.sub hW ?_; decide)
    | with_reducible assumption
    | with_reducible apply State.useArb_keeps
    | split
    | with_reducible apply keeps_getD
    | with_reducible exact opt_none
    | with_reducible apply opt_some
    | (with_reducible refine keeps_of_some (by assumption) ?_)

theorem State.memRead_keeps (hW : Within 1090716418 wz) (s : State) (site : Nat) (ecc : Ecc) (hm : Keeps wz s₀ s) : Keeps wz s₀ (State.memRead s site ecc) := by
  unfold State.memRead
  repeat' first
    | (with_reducible refine Within.sub hW ?_; decide)
    | with_reducible assumption
    | with_reducible apply State.draw_keeps
    | with_reducible apply State.wordRead_keeps
    | with_reducible apply State.memNext_keeps
    | with_reducible apply State.debugGrant_keeps
    | (extract_lets +onlyGivenNames x
       first
         | (with_reducible refine mem_cut (p := Keeps wz s₀ x) ?_ ?_ <;> [subst x; (clear_value x; intro _)])
         | (with_reducible refine mem_cut (p := Keeps wz s₀ x.2) ?_ ?_ <;> [subst x; (clear_value x; intro _)])
         | (have hx := fun y => x y; clear hx; subst x; try dsimp -zeta only)
         | clear_value x
         | subst x)
    | split

theorem State.memWrite_keeps (hW : Within 16908546 wz) (s : State) (site : Nat) (v : B64) (hm : Keeps wz s₀ s) : Keeps wz s₀ (State.memWrite s site v) := by
  unfold State.memWrite
  repeat' first
    | (with_reducible refine Within.sub hW ?_; decide)
    | with_reducible assumption
    | with_reducible apply State.setUnit_keeps
    | with_reducible apply State.draw_keeps
    | with_reducible apply State.logSite_keeps
    | with_reducible apply State.memNext_keeps
    | with_reducible apply State.debugGrant_keeps
    | (extract_lets +onlyGivenNames x
       first
         | (with_reducible refine mem_cut (p := Keeps wz s₀ x) ?_ ?_ <;> [subst x; (clear_value x; intro _)])
         | (with_reducible refine mem_cut (p := Keeps wz s₀ x.2) ?_ ?_ <;> [subst x; (clear_value x; intro _)])
         | (have hx := fun y => x y; clear hx; subst x; try dsimp -zeta only)
         | clear_value x
         | subst x)
    | split

theorem State.engineReset_keeps (hW : Within 87358653698 wz) (s : State) (tail : Bool) (n : Nat) (hm : Keeps wz s₀ s) : Keeps wz s₀ (State.engineReset s tail n) := by
  unfold State.engineReset
  repeat' first
    | (with_reducible refine Within.sub hW ?_; decide)
    | with_reducible assumption
    | (with_reducible apply foldl_keeps; intros; try dsimp -zeta only)
    | with_reducible apply State.setEdgeEng_keeps
    | with_reducible apply State.setTailEng_keeps
    | with_reducible apply State.faultCtx_keeps
    | with_reducible apply State.logSite_keeps
    | (extract_lets +onlyGivenNames x
       first
         | (with_reducible refine mem_cut (p := Keeps wz s₀ x) ?_ ?_ <;> [subst x; (clear_value x; intro _)])
         | (with_reducible refine mem_cut (p := Keeps wz s₀ x.2) ?_ ?_ <;> [subst x; (clear_value x; intro _)])
         | (have hx := fun y => x y; clear hx; subst x; try dsimp -zeta only)
         | clear_value x
         | subst x)
    | split

theorem State.acquireRaw_keeps (hW : Within 134217728 wz) (s : State) (f : Nat) (l : Nat) (hm : Keeps wz s₀ s) : Keeps wz s₀ (State.acquireRaw s f l).2 := by
  unfold State.acquireRaw
  repeat' first
    | (with_reducible refine Within.sub hW ?_; decide)
    | with_reducible assumption
    | with_reducible apply State.tryLock_keeps
    | (extract_lets +onlyGivenNames x
       first
         | (with_reducible refine mem_cut (p := Keeps wz s₀ x) ?_ ?_ <;> [subst x; (clear_value x; intro _)])
         | (with_reducible refine mem_cut (p := Keeps wz s₀ x.2) ?_ ?_ <;> [subst x; (clear_value x; intro _)])
         | (have hx := fun y => x y; clear hx; subst x; try dsimp -zeta only)
         | clear_value x
         | subst x)
    | split
    | (with_reducible refine keeps_of_pair (by assumption) ?_)

theorem State.releaseRaw_keeps (hW : Within 68920804608 wz) (s : State) (f : Nat) (l : Nat) (hm : Keeps wz s₀ s) : Keeps wz s₀ (State.releaseRaw s f l) := by
  unfold State.releaseRaw
  repeat' first
    | (with_reducible refine Within.sub hW ?_; decide)
    | with_reducible assumption
    | with_reducible apply State.handLock_keeps
    | split

theorem State.forceRaw_keeps (hW : Within 68920805120 wz) (s : State) (f : Nat) (l : Nat) (hm : Keeps wz s₀ s) : Keeps wz s₀ (State.forceRaw s f l) := by
  unfold State.forceRaw
  repeat' first
    | (with_reducible refine Within.sub hW ?_; decide)
    | with_reducible assumption
    | with_reducible apply State.forceLock_keeps
    | with_reducible apply State.releaseRaw_keeps
    | split

/-- Writes and reads of a register change only the parts of `wz`. -/
def RegKeeps (wz : Nat) (s₀ : State) (r : Reg) : Prop :=
  (∀ v t, Keeps wz s₀ t → Keeps wz s₀ (r.put v t)) ∧ (∀ t, Keeps wz s₀ t → Keeps wz s₀ (r.onRead t))
/-- So do those of every register of a list. -/
def RegsKeeps (wz : Nat) (s₀ : State) (l : List Reg) : Prop := ∀ r ∈ l, RegKeeps wz s₀ r
theorem regsKeeps_nil : RegsKeeps wz s₀ [] := fun _ h => nomatch h
theorem regsKeeps_cons {r : Reg} {l : List Reg} (h : RegKeeps wz s₀ r) (t : RegsKeeps wz s₀ l) : RegsKeeps wz s₀ (r :: l) := by
  intro x hx
  cases hx with
  | head => exact h
  | tail _ hx => exact t x hx
theorem regsKeeps_append {a b : List Reg} (ha : RegsKeeps wz s₀ a) (hb : RegsKeeps wz s₀ b) : RegsKeeps wz s₀ (a ++ b) := by
  intro x hx
  rcases List.mem_append.1 hx with h | h
  · exact ha x h
  · exact hb x h
theorem regsKeeps_map {α : Type} {f : α → Reg} {l : List α} (h : ∀ a, RegKeeps wz s₀ (f a)) : RegsKeeps wz s₀ (l.map f) := by
  intro x hx
  obtain ⟨a, _, rfl⟩ := List.mem_map.1 hx
  exact h a
theorem regKeeps_ro (off lo w : Nat) (get : State → Nat) : RegKeeps wz s₀ (roReg off lo w get) := ⟨fun _ _ h => h, fun _ h => h⟩
theorem regKeeps_absent (r : Reg) : RegKeeps wz s₀ r.absent := regKeeps_ro _ _ _ _
theorem regKeeps_of {off lo w : Nat} {cls : Cls} {get : State → Nat} {put : Nat → State → State} {onRead : State → State}
    (hp : ∀ v t, Keeps wz s₀ t → Keeps wz s₀ (put v t)) (hr : ∀ t, Keeps wz s₀ t → Keeps wz s₀ (onRead t)) :
    RegKeeps wz s₀ (Reg.mk off lo w cls get put onRead) := ⟨hp, hr⟩
theorem regKeeps_cnt {off : Nat} {get : State → Nat} {put : Nat → State → State} (hp : ∀ v t, Keeps wz s₀ t → Keeps wz s₀ (put v t)) :
    RegKeeps wz s₀ (cntReg off get put) := ⟨hp, fun _ h => h⟩
theorem foldl_keeps_of {α : Type} (l : List α) (f : State → α → State) (s : State)
    (hf : ∀ a ∈ l, ∀ t, Keeps wz s₀ t → Keeps wz s₀ (f t a)) (hm : Keeps wz s₀ s) : Keeps wz s₀ (l.foldl f s) := by
  induction l generalizing s with
  | nil => exact hm
  | cons a t ih =>
    exact ih _ (fun b hb => hf b (List.mem_cons_of_mem _ hb)) (hf a List.mem_cons_self _ hm)
theorem identRegs_keeps (hW : Within 0 wz) (o : Nat) : RegsKeeps wz s₀ (identRegs o) := by
  unfold identRegs
  try dsimp only
  repeat' first
    | (with_reducible refine Within.sub hW ?_; decide)
    | with_reducible assumption
    | with_reducible apply regsKeeps_nil
    | with_reducible apply regsKeeps_cons
    | with_reducible apply regsKeeps_append
    | with_reducible apply regsKeeps_map
    | with_reducible apply regKeeps_ro
    | with_reducible apply regKeeps_absent
    | with_reducible apply regKeeps_cnt
    | (with_reducible intro _; try dsimp only)
    | split
    | with_reducible apply regKeeps_of
    | (try dsimp -zeta only
       with_reducible refine Keeps.mk' (V := 0) rfl (hW.sub (by decide)) ?_ ?_ id ?_
       · (repeat' apply And.intro) <;> first | exact fun _ => rfl | exact fun h => zone_in h
       · first | exact id | exact fun _ => rfl)
theorem ringRegs_keeps (hW : Within 335544320 wz) (f : Nat) : RegsKeeps wz s₀ (ringRegs f) := by
  unfold ringRegs
  try dsimp only
  repeat' first
    | (with_reducible refine Within.sub hW ?_; decide)
    | with_reducible assumption
    | with_reducible apply regsKeeps_nil
    | with_reducible apply regsKeeps_cons
    | with_reducible apply regsKeeps_append
    | with_reducible apply regsKeeps_map
    | with_reducible apply regKeeps_ro
    | with_reducible apply regKeeps_absent
    | with_reducible apply regKeeps_cnt
    | with_reducible apply State.modFn_keeps
    | with_reducible apply cmdTail_keeps
    | with_reducible apply ringReset_keeps
    | with_reducible apply poolDoorbell_keeps
    | (with_reducible intro _; try dsimp only)
    | split
    | with_reducible apply regKeeps_of
    | (try dsimp -zeta only
       with_reducible refine Keeps.mk' (V := 335544320) rfl (hW.sub (by decide)) ?_ ?_ id ?_
       · (repeat' apply And.intro) <;> first | exact fun _ => rfl | exact fun h => zone_in h
       · first | exact id | exact fun _ => rfl)
theorem wlReg_keeps (hW : Within 16777728 wz) (s : State) (off i : Nat) : RegKeeps wz s₀ (wlReg s off i) := by
  unfold wlReg
  try dsimp only
  repeat' first
    | (with_reducible refine Within.sub hW ?_; decide)
    | with_reducible assumption
    | with_reducible apply regsKeeps_nil
    | with_reducible apply regsKeeps_cons
    | with_reducible apply regsKeeps_append
    | with_reducible apply regsKeeps_map
    | with_reducible apply regKeeps_ro
    | with_reducible apply regKeeps_absent
    | with_reducible apply regKeeps_cnt
    | with_reducible apply State.writeWl_keeps
    | (with_reducible intro _; try dsimp only)
    | split
    | with_reducible apply regKeeps_of
    | (try dsimp -zeta only
       with_reducible refine Keeps.mk' (V := 16777728) rfl (hW.sub (by decide)) ?_ ?_ id ?_
       · (repeat' apply And.intro) <;> first | exact fun _ => rfl | exact fun h => zone_in h
       · first | exact id | exact fun _ => rfl)
theorem eventReg_keeps (hW : Within 512 wz) (lo : Nat) (get : GReg → Bool) (clear : GReg → GReg) : RegKeeps wz s₀ (eventReg lo get clear) := by
  unfold eventReg
  try dsimp only
  repeat' first
    | (with_reducible refine Within.sub hW ?_; decide)
    | with_reducible assumption
    | with_reducible apply regsKeeps_nil
    | with_reducible apply regsKeeps_cons
    | with_reducible apply regsKeeps_append
    | with_reducible apply regsKeeps_map
    | with_reducible apply regKeeps_ro
    | with_reducible apply regKeeps_absent
    | with_reducible apply regKeeps_cnt
    | (with_reducible intro _; try dsimp only)
    | split
    | with_reducible apply regKeeps_of
    | (try dsimp -zeta only
       with_reducible refine Keeps.mk' (V := 512) rfl (hW.sub (by decide)) ?_ ?_ id ?_
       · (repeat' apply And.intro) <;> first | exact fun _ => rfl | exact fun h => zone_in h
       · first | exact id | exact fun _ => rfl)
theorem statusRegs_keeps (hW : Within 4380866641904 wz) (s : State) : RegsKeeps wz s₀ (statusRegs s) := by
  unfold statusRegs
  try dsimp only
  repeat' first
    | (with_reducible refine Within.sub hW ?_; decide)
    | with_reducible assumption
    | with_reducible apply regsKeeps_nil
    | with_reducible apply regsKeeps_cons
    | with_reducible apply regsKeeps_append
    | with_reducible apply regsKeeps_map
    | with_reducible apply regKeeps_ro
    | with_reducible apply regKeeps_absent
    | with_reducible apply regKeeps_cnt
    | with_reducible apply State.warmReset_keeps
    | with_reducible apply eventReg_keeps
    | with_reducible apply wlReg_keeps
    | (with_reducible intro _; try dsimp only)
    | split
    | with_reducible apply regKeeps_of
    | (try dsimp -zeta only
       with_reducible refine Keeps.mk' (V := 4380866641904) rfl (hW.sub (by decide)) ?_ ?_ id ?_
       · (repeat' apply And.intro) <;> first | exact fun _ => rfl | exact fun h => zone_in h
       · first | exact id | exact fun _ => rfl)
theorem powerRegs_keeps (hW : Within 82 wz)  : RegsKeeps wz s₀ (powerRegs) := by
  unfold powerRegs
  try dsimp only
  repeat' first
    | (with_reducible refine Within.sub hW ?_; decide)
    | with_reducible assumption
    | with_reducible apply regsKeeps_nil
    | with_reducible apply regsKeeps_cons
    | with_reducible apply regsKeeps_append
    | with_reducible apply regsKeeps_map
    | with_reducible apply regKeeps_ro
    | with_reducible apply regKeeps_absent
    | with_reducible apply regKeeps_cnt
    | with_reducible apply State.draw_keeps
    | (with_reducible intro _; try dsimp only)
    | split
    | with_reducible apply regKeeps_of
    | (try dsimp -zeta only
       with_reducible refine Keeps.mk' (V := 82) rfl (hW.sub (by decide)) ?_ ?_ id ?_
       · (repeat' apply And.intro) <;> first | exact fun _ => rfl | exact fun h => zone_in h
       · first | exact id | exact fun _ => rfl)
theorem captureRegs_keeps (hW : Within 2304 wz)  : RegsKeeps wz s₀ (captureRegs) := by
  unfold captureRegs
  try dsimp only
  repeat' first
    | (with_reducible refine Within.sub hW ?_; decide)
    | with_reducible assumption
    | with_reducible apply regsKeeps_nil
    | with_reducible apply regsKeeps_cons
    | with_reducible apply regsKeeps_append
    | with_reducible apply regsKeeps_map
    | with_reducible apply regKeeps_ro
    | with_reducible apply regKeeps_absent
    | with_reducible apply regKeeps_cnt
    | with_reducible apply State.writeCapEn_keeps
    | with_reducible apply State.writeDumpGo_keeps
    | (with_reducible intro _; try dsimp only)
    | split
    | with_reducible apply regKeeps_of
    | (try dsimp -zeta only
       with_reducible refine Keeps.mk' (V := 2304) rfl (hW.sub (by decide)) ?_ ?_ id ?_
       · (repeat' apply And.intro) <;> first | exact fun _ => rfl | exact fun h => zone_in h
       · first | exact id | exact fun _ => rfl)
theorem groupRegs_keeps (hW : Within 1048576 wz) (g : Nat) : RegsKeeps wz s₀ (groupRegs g) := by
  unfold groupRegs
  try dsimp only
  repeat' first
    | (with_reducible refine Within.sub hW ?_; decide)
    | with_reducible assumption
    | with_reducible apply regsKeeps_nil
    | with_reducible apply regsKeeps_cons
    | with_reducible apply regsKeeps_append
    | with_reducible apply regsKeeps_map
    | with_reducible apply regKeeps_ro
    | with_reducible apply regKeeps_absent
    | with_reducible apply regKeeps_cnt
    | with_reducible apply State.modGroup_keeps
    | (with_reducible intro _; try dsimp only)
    | split
    | with_reducible apply regKeeps_of
    | (try dsimp -zeta only
       with_reducible refine Keeps.mk' (V := 1048576) rfl (hW.sub (by decide)) ?_ ?_ id ?_
       · (repeat' apply And.intro) <;> first | exact fun _ => rfl | exact fun h => zone_in h
       · first | exact id | exact fun _ => rfl)
theorem originRegs_keeps (hW : Within 0 wz) (o : Nat) : RegsKeeps wz s₀ (originRegs o) := by
  unfold originRegs
  try dsimp only
  repeat' first
    | (with_reducible refine Within.sub hW ?_; decide)
    | with_reducible assumption
    | with_reducible apply regsKeeps_nil
    | with_reducible apply regsKeeps_cons
    | with_reducible apply regsKeeps_append
    | with_reducible apply regsKeeps_map
    | with_reducible apply regKeeps_ro
    | with_reducible apply regKeeps_absent
    | with_reducible apply regKeeps_cnt
    | (with_reducible intro _; try dsimp only)
    | split
    | with_reducible apply regKeeps_of
    | (try dsimp -zeta only
       with_reducible refine Keeps.mk' (V := 0) rfl (hW.sub (by decide)) ?_ ?_ id ?_
       · (repeat' apply And.intro) <;> first | exact fun _ => rfl | exact fun h => zone_in h
       · first | exact id | exact fun _ => rfl)
theorem hubRegs_keeps (hW : Within 1048576 wz) (s : State) (o : Nat) : RegsKeeps wz s₀ (hubRegs s o) := by
  unfold hubRegs
  try dsimp only
  repeat' first
    | (with_reducible refine Within.sub hW ?_; decide)
    | with_reducible assumption
    | with_reducible apply regsKeeps_nil
    | with_reducible apply regsKeeps_cons
    | with_reducible apply regsKeeps_append
    | with_reducible apply regsKeeps_map
    | with_reducible apply regKeeps_ro
    | with_reducible apply regKeeps_absent
    | with_reducible apply regKeeps_cnt
    | with_reducible apply originRegs_keeps
    | with_reducible apply groupRegs_keeps
    | (with_reducible intro _; try dsimp only)
    | split
    | with_reducible apply regKeeps_of
    | (try dsimp -zeta only
       with_reducible refine Keeps.mk' (V := 1048576) rfl (hW.sub (by decide)) ?_ ?_ id ?_
       · (repeat' apply And.intro) <;> first | exact fun _ => rfl | exact fun h => zone_in h
       · first | exact id | exact fun _ => rfl)
theorem headRegs_keeps (hW : Within 16384 wz) (h : Nat) : RegsKeeps wz s₀ (headRegs h) := by
  unfold headRegs
  try dsimp only
  repeat' first
    | (with_reducible refine Within.sub hW ?_; decide)
    | with_reducible assumption
    | with_reducible apply regsKeeps_nil
    | with_reducible apply regsKeeps_cons
    | with_reducible apply regsKeeps_append
    | with_reducible apply regsKeeps_map
    | with_reducible apply regKeeps_ro
    | with_reducible apply regKeeps_absent
    | with_reducible apply regKeeps_cnt
    | with_reducible apply State.modHead_keeps
    | (with_reducible intro _; try dsimp only)
    | split
    | with_reducible apply regKeeps_of
    | (try dsimp -zeta only
       with_reducible refine Keeps.mk' (V := 16384) rfl (hW.sub (by decide)) ?_ ?_ id ?_
       · (repeat' apply And.intro) <;> first | exact fun _ => rfl | exact fun h => zone_in h
       · first | exact id | exact fun _ => rfl)
theorem streamRegs_keeps (hW : Within 65536 wz) (st : Nat) : RegsKeeps wz s₀ (streamRegs st) := by
  unfold streamRegs
  try dsimp only
  repeat' first
    | (with_reducible refine Within.sub hW ?_; decide)
    | with_reducible assumption
    | with_reducible apply regsKeeps_nil
    | with_reducible apply regsKeeps_cons
    | with_reducible apply regsKeeps_append
    | with_reducible apply regsKeeps_map
    | with_reducible apply regKeeps_ro
    | with_reducible apply regKeeps_absent
    | with_reducible apply regKeeps_cnt
    | with_reducible apply State.modStrm_keeps
    | (with_reducible intro _; try dsimp only)
    | split
    | with_reducible apply regKeeps_of
    | (try dsimp -zeta only
       with_reducible refine Keeps.mk' (V := 65536) rfl (hW.sub (by decide)) ?_ ?_ id ?_
       · (repeat' apply And.intro) <;> first | exact fun _ => rfl | exact fun h => zone_in h
       · first | exact id | exact fun _ => rfl)
theorem unitRegs_keeps (hW : Within 87375431426 wz) (site : Nat) : RegsKeeps wz s₀ (unitRegs site) := by
  unfold unitRegs
  try dsimp only
  repeat' first
    | (with_reducible refine Within.sub hW ?_; decide)
    | with_reducible assumption
    | with_reducible apply regsKeeps_nil
    | with_reducible apply regsKeeps_cons
    | with_reducible apply regsKeeps_append
    | with_reducible apply regsKeeps_map
    | with_reducible apply regKeeps_ro
    | with_reducible apply regKeeps_absent
    | with_reducible apply regKeeps_cnt
    | with_reducible apply State.modUnit_keeps
    | with_reducible apply State.unitReset_keeps
    | with_reducible apply State.memRead_keeps
    | with_reducible apply State.memWrite_keeps
    | (with_reducible intro _; try dsimp only)
    | split
    | with_reducible apply regKeeps_of
    | (try dsimp -zeta only
       with_reducible refine Keeps.mk' (V := 87375431426) rfl (hW.sub (by decide)) ?_ ?_ id ?_
       · (repeat' apply And.intro) <;> first | exact fun _ => rfl | exact fun h => zone_in h
       · first | exact id | exact fun _ => rfl)
theorem engineRegs_keeps (hW : Within 87358653698 wz) (tail : Bool) (n : Nat) : RegsKeeps wz s₀ (engineRegs tail n) := by
  unfold engineRegs
  try dsimp only
  repeat' first
    | (with_reducible refine Within.sub hW ?_; decide)
    | with_reducible assumption
    | with_reducible apply regsKeeps_nil
    | with_reducible apply regsKeeps_cons
    | with_reducible apply regsKeeps_append
    | with_reducible apply regsKeeps_map
    | with_reducible apply regKeeps_ro
    | with_reducible apply regKeeps_absent
    | with_reducible apply regKeeps_cnt
    | with_reducible apply State.modEdgeEng_keeps
    | with_reducible apply State.modTailEng_keeps
    | with_reducible apply State.engineReset_keeps
    | (with_reducible intro _; try dsimp only)
    | split
    | with_reducible apply regKeeps_of
    | (try dsimp -zeta only
       with_reducible refine Keeps.mk' (V := 87358653698) rfl (hW.sub (by decide)) ?_ ?_ id ?_
       · (repeat' apply And.intro) <;> first | exact fun _ => rfl | exact fun h => zone_in h
       · first | exact id | exact fun _ => rfl)
theorem lockRegs_keeps (hW : Within 68920805120 wz) (f l : Nat) : RegsKeeps wz s₀ (lockRegs f l) := by
  unfold lockRegs
  try dsimp only
  repeat' first
    | (with_reducible refine Within.sub hW ?_; decide)
    | with_reducible assumption
    | with_reducible apply regsKeeps_nil
    | with_reducible apply regsKeeps_cons
    | with_reducible apply regsKeeps_append
    | with_reducible apply regsKeeps_map
    | with_reducible apply regKeeps_ro
    | with_reducible apply regKeeps_absent
    | with_reducible apply regKeeps_cnt
    | with_reducible apply State.acquireRaw_keeps
    | with_reducible apply State.releaseRaw_keeps
    | with_reducible apply State.forceRaw_keeps
    | (with_reducible intro _; try dsimp only)
    | split
    | with_reducible apply regKeeps_of
    | (try dsimp -zeta only
       with_reducible refine Keeps.mk' (V := 68920805120) rfl (hW.sub (by decide)) ?_ ?_ id ?_
       · (repeat' apply And.intro) <;> first | exact fun _ => rfl | exact fun h => zone_in h
       · first | exact id | exact fun _ => rfl)
theorem logRegs_keeps (hW : Within 0 wz) (o : Nat) : RegsKeeps wz s₀ (logRegs o) := by
  unfold logRegs
  try dsimp only
  repeat' first
    | (with_reducible refine Within.sub hW ?_; decide)
    | with_reducible assumption
    | with_reducible apply regsKeeps_nil
    | with_reducible apply regsKeeps_cons
    | with_reducible apply regsKeeps_append
    | with_reducible apply regsKeeps_map
    | with_reducible apply regKeeps_ro
    | with_reducible apply regKeeps_absent
    | with_reducible apply regKeeps_cnt
    | (with_reducible intro _; try dsimp only)
    | split
    | with_reducible apply regKeeps_of
    | (try dsimp -zeta only
       with_reducible refine Keeps.mk' (V := 0) rfl (hW.sub (by decide)) ?_ ?_ id ?_
       · (repeat' apply And.intro) <;> first | exact fun _ => rfl | exact fun h => zone_in h
       · first | exact id | exact fun _ => rfl)
theorem regsAt_keeps (hW : Within 4398046511090 wz) (s : State) (f : Nat) (b : RBlock) (o : Nat) : RegsKeeps wz s₀ (s.regsAt f b o) := by
  unfold State.regsAt
  repeat' first
    | (with_reducible refine Within.sub hW ?_; decide)
    | with_reducible assumption
    | with_reducible apply regsKeeps_map
    | with_reducible apply regsKeeps_nil
    | with_reducible apply identRegs_keeps
    | with_reducible apply ringRegs_keeps
    | with_reducible apply wlReg_keeps
    | with_reducible apply eventReg_keeps
    | with_reducible apply statusRegs_keeps
    | with_reducible apply powerRegs_keeps
    | with_reducible apply captureRegs_keeps
    | with_reducible apply groupRegs_keeps
    | with_reducible apply originRegs_keeps
    | with_reducible apply hubRegs_keeps
    | with_reducible apply headRegs_keeps
    | with_reducible apply streamRegs_keeps
    | with_reducible apply unitRegs_keeps
    | with_reducible apply engineRegs_keeps
    | with_reducible apply lockRegs_keeps
    | with_reducible apply logRegs_keeps
    | with_reducible apply regKeeps_absent
    | (with_reducible intro _; try dsimp only)
    | split

theorem Reg.write_keeps (hW : Within 0 wz) (o n v : Nat) (s : State) (r : Reg) (hr : RegKeeps wz s₀ r) (hm : Keeps wz s₀ s) : Keeps wz s₀ (Reg.write o n v s r) := by
  unfold Reg.write
  extract_lets a b x old
  clear_value a b x old
  split
  all_goals first | exact hm | exact hr.1 _ _ hm

theorem Reg.readEffect_keeps (hW : Within 0 wz) (s : State) (r : Reg) (hr : RegKeeps wz s₀ r) (hm : Keeps wz s₀ s) : Keeps wz s₀ (Reg.readEffect s r) := by
  unfold Reg.readEffect
  split
  · exact hr.1 _ _ hm
  · exact hr.2 _ hm

theorem State.badAccess_keeps (hW : Within 512 wz) (s : State) (hm : Keeps wz s₀ s) : Keeps wz s₀ (State.badAccess s) := by
  unfold State.badAccess
  repeat' first
    | (with_reducible refine Within.sub hW ?_; decide)
    | with_reducible assumption
    | (try dsimp -zeta only
       with_reducible refine Keeps.mk' (V := 512) rfl (hW.sub (by decide)) ?_ ?_ id ?_
       · (repeat' apply And.intro) <;> first | exact fun _ => rfl | exact fun h => zone_in h
       · first | exact id | exact fun _ => rfl)

theorem State.noShadow_keeps (hW : Within 512 wz) (s : State) (p : Path) (o : Nat) (hm : Keeps wz s₀ s) : Keeps wz s₀ (State.noShadow s p o) := by
  unfold State.noShadow
  repeat' first
    | (with_reducible refine Within.sub hW ?_; decide)
    | with_reducible assumption
    | (try dsimp -zeta only
       with_reducible refine Keeps.mk' (V := 512) rfl (hW.sub (by decide)) ?_ ?_ id ?_
       · (repeat' apply And.intro) <;> first | exact fun _ => rfl | exact fun h => zone_in h
       · first | exact id | exact fun _ => rfl)

theorem State.regRead_keeps (hW : Within 4398046511090 wz) (s : State) (p : Path) (o n : Nat) (hm : Keeps wz s₀ s) : Keeps wz s₀ (State.regRead s p o n).2 := by
  unfold State.regRead
  split
  · exact State.badAccess_keeps (hW.sub (by decide)) _ hm
  · extract_lets l rs v t0
    split
    · exact hm
    · have ht : Keeps wz s₀ t0 := by
        refine foldl_keeps_of _ _ _ ?_ hm
        intro r hr t ht
        exact Reg.readEffect_keeps (hW.sub (by decide)) _ _ (regsAt_keeps (hW.sub (by decide)) _ _ _ _ r (List.mem_of_mem_filter hr)) ht
      clear_value t0
      split
      · exact ht
      · split
        · exact ht
        · split
          · refine Keeps.mk' (V := 4398046511090) rfl (hW.sub (by decide)) (by (repeat' apply And.intro) <;> first | exact fun _ => rfl | exact fun h => zone_in h) id id ?_
            exact (State.noShadow_keeps (hW.sub (by decide)) _ _ _ ht)
          · split
            · exact State.noShadow_keeps (hW.sub (by decide)) _ _ _ ht
            · exact ht

theorem State.regWrite_keeps (hW : Within 4398046511090 wz) (s : State) (p : Path) (o n v : Nat) (hm : Keeps wz s₀ s) : Keeps wz s₀ (State.regWrite s p o n v) := by
  unfold State.regWrite
  extract_lets l rs
  split
  · exact hm
  · split
    · exact State.badAccess_keeps (hW.sub (by decide)) _ hm
    · split
      · exact State.badAccess_keeps (hW.sub (by decide)) _ hm
      · split
        · exact hm
        · refine foldl_keeps_of _ _ _ ?_ hm
          intro r hr t ht
          exact Reg.write_keeps (hW.sub (by decide)) _ _ _ _ _ (regsAt_keeps (hW.sub (by decide)) _ _ _ _ r (List.mem_of_mem_filter hr)) ht

theorem State.returned_keeps (hW : Within 512 wz) (s : State) (v : Nat) (hm : Keeps wz s₀ s) : Keeps wz s₀ (State.returned s v) := by
  unfold State.returned
  repeat' first
    | (with_reducible refine Within.sub hW ?_; decide)
    | with_reducible assumption
    | (try dsimp -zeta only
       with_reducible refine Keeps.mk' (V := 512) rfl (hW.sub (by decide)) ?_ ?_ id ?_
       · (repeat' apply And.intro) <;> first | exact fun _ => rfl | exact fun h => zone_in h
       · first | exact id | exact fun _ => rfl)

theorem execRegisterWrite_keeps (hW : Within 4398046511090 wz) (p : Path) (off : B32) (bytes : B8) (v : B64) (s : State) (hm : Keeps wz s₀ s) : ∀ z, execRegisterWrite p off bytes v s = .next z → Keeps wz s₀ z := by
  intro z ht
  unfold execRegisterWrite at ht
  injection ht with ht
  subst ht
  repeat' first
    | (with_reducible refine Within.sub hW ?_; decide)
    | with_reducible assumption
    | with_reducible apply State.regWrite_keeps
    | split

theorem execRegisterLowRead_keeps (hW : Within 4398046511090 wz) (p : Path) (off : B32) (s : State) (hm : Keeps wz s₀ s) : ∀ z, execRegisterLowRead p off s = .next z → Keeps wz s₀ z := by
  intro z ht
  unfold execRegisterLowRead at ht
  injection ht with ht
  subst ht
  repeat' first
    | (with_reducible refine Within.sub hW ?_; decide)
    | with_reducible assumption
    | with_reducible apply State.regRead_keeps
    | with_reducible apply State.returned_keeps
    | (extract_lets +onlyGivenNames x
       first
         | (with_reducible refine mem_cut (p := Keeps wz s₀ x) ?_ ?_ <;> [subst x; (clear_value x; intro _)])
         | (with_reducible refine mem_cut (p := Keeps wz s₀ x.2) ?_ ?_ <;> [subst x; (clear_value x; intro _)])
         | (have hx := fun y => x y; clear hx; subst x; try dsimp -zeta only)
         | clear_value x
         | subst x)
    | split

theorem execFcFseqRead_keeps (hW : Within 4398046511090 wz) (site : Site) (s : State) (hm : Keeps wz s₀ s) : ∀ z, execFcFseqRead site s = .next z → Keeps wz s₀ z := by
  intro z ht
  unfold execFcFseqRead at ht
  injection ht with ht
  subst ht
  repeat' first
    | (with_reducible refine Within.sub hW ?_; decide)
    | with_reducible assumption
    | with_reducible apply State.regRead_keeps
    | with_reducible apply State.returned_keeps
    | (extract_lets +onlyGivenNames x
       first
         | (with_reducible refine mem_cut (p := Keeps wz s₀ x) ?_ ?_ <;> [subst x; (clear_value x; intro _)])
         | (with_reducible refine mem_cut (p := Keeps wz s₀ x.2) ?_ ?_ <;> [subst x; (clear_value x; intro _)])
         | (have hx := fun y => x y; clear hx; subst x; try dsimp -zeta only)
         | clear_value x
         | subst x)
    | split

theorem execBadAccessRead_keeps (hW : Within 4398046511090 wz) (s : State) (hm : Keeps wz s₀ s) : ∀ z, execBadAccessRead s = .next z → Keeps wz s₀ z := by
  intro z ht
  unfold execBadAccessRead at ht
  injection ht with ht
  subst ht
  repeat' first
    | (with_reducible refine Within.sub hW ?_; decide)
    | with_reducible assumption
    | with_reducible apply State.regRead_keeps
    | with_reducible apply State.returned_keeps
    | (extract_lets +onlyGivenNames x
       first
         | (with_reducible refine mem_cut (p := Keeps wz s₀ x) ?_ ?_ <;> [subst x; (clear_value x; intro _)])
         | (with_reducible refine mem_cut (p := Keeps wz s₀ x.2) ?_ ?_ <;> [subst x; (clear_value x; intro _)])
         | (have hx := fun y => x y; clear hx; subst x; try dsimp -zeta only)
         | clear_value x
         | subst x)
    | split

theorem execLogDropRead_keeps (hW : Within 4398046511090 wz) (f : FnId) (s : State) (hm : Keeps wz s₀ s) : ∀ z, execLogDropRead f s = .next z → Keeps wz s₀ z := by
  intro z ht
  unfold execLogDropRead at ht
  injection ht with ht
  subst ht
  repeat' first
    | (with_reducible refine Within.sub hW ?_; decide)
    | with_reducible assumption
    | with_reducible apply State.regRead_keeps
    | with_reducible apply State.returned_keeps
    | (extract_lets +onlyGivenNames x
       first
         | (with_reducible refine mem_cut (p := Keeps wz s₀ x) ?_ ?_ <;> [subst x; (clear_value x; intro _)])
         | (with_reducible refine mem_cut (p := Keeps wz s₀ x.2) ?_ ?_ <;> [subst x; (clear_value x; intro _)])
         | (have hx := fun y => x y; clear hx; subst x; try dsimp -zeta only)
         | clear_value x
         | subst x)
    | split

end Sys2Proof.Machine
end

