-- ==== Sys2Proof/Laws/Keeps13.lean ====
section
/-! SUPPORT. What the definitions from execLockAcq to execFwNop may write: `Keeps wz s t` says that only the
parts of `wz` differ and that memories stay canonical. -/
set_option linter.unusedTactic false
set_option linter.unreachableTactic false
set_option linter.unusedVariables false
namespace Sys2Proof.Machine
variable {wz : Nat} {s₀ : State}
theorem execLockAcq_keeps (hW : Within 134218240 wz) (p : Path) (l : Fin 64) (s : State) (hm : Keeps wz s₀ s) : ∀ z, execLockAcq p l s = .next z → Keeps wz s₀ z := by
  intro z ht
  unfold execLockAcq at ht
  injection ht with ht
  subst ht
  repeat' first
    | (with_reducible refine Within.sub hW ?_; decide)
    | with_reducible assumption
    | with_reducible apply State.acquireRaw_keeps
    | with_reducible apply State.returned_keeps
    | (extract_lets +onlyGivenNames x
       first
         | (with_reducible refine mem_cut (p := Keeps wz s₀ x) ?_ ?_ <;> [subst x; (clear_value x; intro _)])
         | (with_reducible refine mem_cut (p := Keeps wz s₀ x.2) ?_ ?_ <;> [subst x; (clear_value x; intro _)])
         | (have hx := fun y => x y; clear hx; subst x; try dsimp -zeta only)
         | clear_value x
         | subst x)
    | split

theorem execLockReleaseWrite_keeps (hW : Within 68920804608 wz) (p : Path) (l : Fin 64) (s : State) (hm : Keeps wz s₀ s) : ∀ z, execLockReleaseWrite p l s = .next z → Keeps wz s₀ z := by
  intro z ht
  unfold execLockReleaseWrite at ht
  injection ht with ht
  subst ht
  repeat' first
    | (with_reducible refine Within.sub hW ?_; decide)
    | with_reducible assumption
    | with_reducible apply State.releaseRaw_keeps
    | split

theorem execLockForceWrite_keeps (hW : Within 68920805120 wz) (p : Path) (l : Fin 64) (s : State) (hm : Keeps wz s₀ s) : ∀ z, execLockForceWrite p l s = .next z → Keeps wz s₀ z := by
  intro z ht
  unfold execLockForceWrite at ht
  injection ht with ht
  subst ht
  repeat' first
    | (with_reducible refine Within.sub hW ?_; decide)
    | with_reducible assumption
    | with_reducible apply State.forceRaw_keeps
    | split

theorem execLockWaitTimeout_keeps (hW : Within 201327872 wz) (l : Fin 64) (cseq : B32) (s : State) (hm : Keeps wz s₀ s) : ∀ z, execLockWaitTimeout l cseq s = .next z → Keeps wz s₀ z := by
  intro z ht
  unfold execLockWaitTimeout at ht
  injection ht with ht
  subst ht
  repeat' first
    | (with_reducible refine Within.sub hW ?_; decide)
    | with_reducible assumption
    | with_reducible apply State.setLock_keeps
    | with_reducible apply State.finish_keeps
    | (extract_lets +onlyGivenNames x
       first
         | (with_reducible refine mem_cut (p := Keeps wz s₀ x) ?_ ?_ <;> [subst x; (clear_value x; intro _)])
         | (with_reducible refine mem_cut (p := Keeps wz s₀ x.2) ?_ ?_ <;> [subst x; (clear_value x; intro _)])
         | (have hx := fun y => x y; clear hx; subst x; try dsimp -zeta only)
         | clear_value x
         | subst x)
    | split

theorem execMemData_keeps (hW : Within 1090716418 wz) (site : Site) (w : Option B64) (ecc : Ecc) (s : State) (hm : Keeps wz s₀ s) : ∀ z, execMemData site w ecc s = .next z → Keeps wz s₀ z := by
  intro z ht
  unfold execMemData at ht
  injection ht with ht
  subst ht
  repeat' first
    | (with_reducible refine Within.sub hW ?_; decide)
    | with_reducible assumption
    | with_reducible apply State.memRead_keeps
    | with_reducible apply State.memWrite_keeps
    | with_reducible apply State.returned_keeps
    | split

theorem execUnitCtrlUnitReset_keeps (hW : Within 87358653698 wz) (site : Site) (s : State) (hm : Keeps wz s₀ s) : ∀ z, execUnitCtrlUnitReset site s = .next z → Keeps wz s₀ z := by
  intro z ht
  unfold execUnitCtrlUnitReset at ht
  injection ht with ht
  subst ht
  repeat' first
    | (with_reducible refine Within.sub hW ?_; decide)
    | with_reducible assumption
    | with_reducible apply State.unitReset_keeps
    | split

theorem State.drive_keeps (hW : Within 1024 wz) (s : State) (b : Bytes) (hm : Keeps wz s₀ s) : Keeps wz s₀ (State.drive s b) := by
  unfold State.drive
  repeat' first
    | (with_reducible refine Within.sub hW ?_; decide)
    | with_reducible assumption
    | (try dsimp -zeta only
       with_reducible refine Keeps.mk' (V := 1024) rfl (hW.sub (by decide)) ?_ ?_ id ?_
       · (repeat' apply And.intro) <;> first | exact fun _ => rfl | exact fun h => zone_in h
       · first | exact id | exact fun _ => rfl)

theorem execWritePacket_keeps (hW : Within 1280 wz) (bytes : Bytes) (s : State) (hm : Keeps wz s₀ s) : ∀ z, execWritePacket bytes s = .next z → Keeps wz s₀ z := by
  intro z ht
  unfold execWritePacket at ht
  injection ht with ht
  subst ht
  repeat' first
    | (with_reducible refine Within.sub hW ?_; decide)
    | with_reducible assumption
    | with_reducible apply State.log_keeps
    | (extract_lets +onlyGivenNames x
       first
         | (with_reducible refine mem_cut (p := Keeps wz s₀ x) ?_ ?_ <;> [subst x; (clear_value x; intro _)])
         | (with_reducible refine mem_cut (p := Keeps wz s₀ x.2) ?_ ?_ <;> [subst x; (clear_value x; intro _)])
         | (have hx := fun y => x y; clear hx; subst x; try dsimp -zeta only)
         | clear_value x
         | subst x)
    | split
    | (try dsimp -zeta only
       with_reducible refine Keeps.mk' (V := 1280) rfl (hW.sub (by decide)) ?_ ?_ id ?_
       · (repeat' apply And.intro) <;> first | exact fun _ => rfl | exact fun h => zone_in h
       · first | exact id | exact fun _ => rfl)

theorem execReadReply_keeps (hW : Within 1024 wz) (s : State) (hm : Keeps wz s₀ s) : ∀ z, execReadReply s = .next z → Keeps wz s₀ z := by
  intro z ht
  unfold execReadReply at ht
  injection ht with ht
  subst ht
  repeat' first
    | (with_reducible refine Within.sub hW ?_; decide)
    | with_reducible assumption
    | with_reducible apply State.drive_keeps
    | split
    | (try dsimp -zeta only
       with_reducible refine Keeps.mk' (V := 1024) rfl (hW.sub (by decide)) ?_ ?_ id ?_
       · (repeat' apply And.intro) <;> first | exact fun _ => rfl | exact fun h => zone_in h
       · first | exact id | exact fun _ => rfl)

theorem execReadStatus_keeps (hW : Within 1024 wz) (s : State) (hm : Keeps wz s₀ s) : ∀ z, execReadStatus s = .next z → Keeps wz s₀ z := by
  intro z ht
  unfold execReadStatus at ht
  injection ht with ht
  subst ht
  repeat' first
    | (with_reducible refine Within.sub hW ?_; decide)
    | with_reducible assumption
    | with_reducible apply State.drive_keeps
    | split
    | (try dsimp -zeta only
       with_reducible refine Keeps.mk' (V := 1024) rfl (hW.sub (by decide)) ?_ ?_ id ?_
       · (repeat' apply And.intro) <;> first | exact fun _ => rfl | exact fun h => zone_in h
       · first | exact id | exact fun _ => rfl)

theorem State.cspiLogRead_keeps (hW : Within 1024 wz) (s : State) (o : Nat) (hm : Keeps wz s₀ s) : Keeps wz s₀ (State.cspiLogRead s o) := by
  unfold State.cspiLogRead
  repeat' first
    | (with_reducible refine Within.sub hW ?_; decide)
    | with_reducible assumption
    | (extract_lets +onlyGivenNames x
       first
         | (with_reducible refine mem_cut (p := Keeps wz s₀ x) ?_ ?_ <;> [subst x; (clear_value x; intro _)])
         | (with_reducible refine mem_cut (p := Keeps wz s₀ x.2) ?_ ?_ <;> [subst x; (clear_value x; intro _)])
         | (have hx := fun y => x y; clear hx; subst x; try dsimp -zeta only)
         | clear_value x
         | subst x)
    | split
    | (try dsimp -zeta only
       with_reducible refine Keeps.mk' (V := 1024) rfl (hW.sub (by decide)) ?_ ?_ id ?_
       · (repeat' apply And.intro) <;> first | exact fun _ => rfl | exact fun h => zone_in h
       · first | exact id | exact fun _ => rfl)

theorem execReadReg_keeps (hW : Within 4398046511090 wz) (off : B32) (s : State) (hm : Keeps wz s₀ s) : ∀ z, execReadReg off s = .next z → Keeps wz s₀ z := by
  intro z ht
  unfold execReadReg at ht
  injection ht with ht
  subst ht
  repeat' first
    | (with_reducible refine Within.sub hW ?_; decide)
    | with_reducible assumption
    | with_reducible apply State.draw_keeps
    | with_reducible apply State.regRead_keeps
    | with_reducible apply State.returned_keeps
    | with_reducible apply State.drive_keeps
    | with_reducible apply State.cspiLogRead_keeps
    | (extract_lets +onlyGivenNames x
       first
         | (with_reducible refine mem_cut (p := Keeps wz s₀ x) ?_ ?_ <;> [subst x; (clear_value x; intro _)])
         | (with_reducible refine mem_cut (p := Keeps wz s₀ x.2) ?_ ?_ <;> [subst x; (clear_value x; intro _)])
         | (have hx := fun y => x y; clear hx; subst x; try dsimp -zeta only)
         | clear_value x
         | subst x)
    | split

theorem execWriteReg_keeps (hW : Within 4398046511090 wz) (off : B32) (v : B32) (s : State) (hm : Keeps wz s₀ s) : ∀ z, execWriteReg off v s = .next z → Keeps wz s₀ z := by
  intro z ht
  unfold execWriteReg at ht
  injection ht with ht
  subst ht
  repeat' first
    | (with_reducible refine Within.sub hW ?_; decide)
    | with_reducible assumption
    | with_reducible apply State.regWrite_keeps
    | with_reducible apply State.drive_keeps
    | split

theorem execReadResult_keeps (hW : Within 1026 wz) (off : B16) (n : B16) (s : State) (hm : Keeps wz s₀ s) : ∀ z, execReadResult off n s = .next z → Keeps wz s₀ z := by
  intro z ht
  unfold execReadResult at ht
  injection ht with ht
  subst ht
  repeat' first
    | (with_reducible refine Within.sub hW ?_; decide)
    | with_reducible assumption
    | with_reducible apply State.drive_keeps
    | (extract_lets +onlyGivenNames x
       first
         | (with_reducible refine mem_cut (p := Keeps wz s₀ x) ?_ ?_ <;> [subst x; (clear_value x; intro _)])
         | (with_reducible refine mem_cut (p := Keeps wz s₀ x.2) ?_ ?_ <;> [subst x; (clear_value x; intro _)])
         | (have hx := fun y => x y; clear hx; subst x; try dsimp -zeta only)
         | clear_value x
         | subst x)
    | split
    | (try dsimp -zeta only
       with_reducible refine Keeps.mk' (V := 1026) rfl (hW.sub (by decide)) ?_ ?_ id ?_
       · (repeat' apply And.intro) <;> first | exact fun _ => rfl | exact fun h => zone_in h
       · first | exact id | exact fun _ => rfl)

theorem State.command_keeps (hW : Within 67110144 wz) (s : State) (k : Pkt) (op : Nat) (checks : List (Bool × Status)) (act : State → State)
    (ha : ∀ t, Keeps wz s₀ t → Keeps wz s₀ (act t)) (hm : Keeps wz s₀ s) : Keeps wz s₀ (State.command s k op checks act) := by
  unfold State.command
  split
  · exact hm
  · split
    · exact State.finish_keeps (hW.sub (by decide)) _ _ _ _ _ _ hm
    · exact ha _ hm

theorem State.hostUsed_keeps (hW : Within 34359738368 wz) (s : State) (a : B64) (hm : Keeps wz s₀ s) : Keeps wz s₀ (State.hostUsed s a) := by
  unfold State.hostUsed
  repeat' first
    | (with_reducible refine Within.sub hW ?_; decide)
    | with_reducible assumption
    | (try dsimp -zeta only
       with_reducible refine Keeps.mk' (V := 34359738368) rfl (hW.sub (by decide)) ?_ ?_ id ?_
       · (repeat' apply And.intro) <;> first | exact fun _ => rfl | exact fun h => zone_in h
       · first | exact id | exact fun _ => rfl)

theorem execNop_keeps (hW : Within 67110144 wz) (k : Pkt) (s : State) (hm : Keeps wz s₀ s) : ∀ z, execNop k s = .next z → Keeps wz s₀ z := by
  intro z ht
  unfold execNop at ht
  injection ht with ht
  subst ht
  repeat' first
    | (with_reducible refine Within.sub hW ?_; decide)
    | with_reducible assumption
    | (with_reducible intro _; try dsimp -zeta only)
    | with_reducible apply State.finish_keeps
    | with_reducible apply State.command_keeps

theorem streamStart_keeps (hW : Within 1140917504 wz) (k : Pkt) (st : Nat) (pol : Nat) (sw : Nat) (oq : Nat) (pool : Nat) (at' : Nat) (time : B64) (s : State) (hm : Keeps wz s₀ s) : Keeps wz s₀ (streamStart k st pol sw oq pool at' time s) := by
  unfold streamStart
  repeat' first
    | (with_reducible refine Within.sub hW ?_; decide)
    | with_reducible assumption
    | (with_reducible intro _; try dsimp -zeta only)
    | with_reducible apply State.setStrm_keeps
    | with_reducible apply State.finish_keeps
    | with_reducible apply State.modRunning_keeps
    | with_reducible apply State.command_keeps
    | (extract_lets +onlyGivenNames x
       first
         | (with_reducible refine mem_cut (p := Keeps wz s₀ x) ?_ ?_ <;> [subst x; (clear_value x; intro _)])
         | (with_reducible refine mem_cut (p := Keeps wz s₀ x.2) ?_ ?_ <;> [subst x; (clear_value x; intro _)])
         | (have hx := fun y => x y; clear hx; subst x; try dsimp -zeta only)
         | clear_value x
         | subst x)
    | split

theorem execStreamStart_keeps (hW : Within 1140917504 wz) (k : Pkt) (stream : B8) (policy : B8) (switching : B8) (oqLines : B8) (pool : B8) (when_ : B8) (atDtb : B64) (s : State) (hm : Keeps wz s₀ s) : ∀ z, execStreamStart k stream policy switching oqLines pool when_ atDtb s = .next z → Keeps wz s₀ z := by
  intro z ht
  unfold execStreamStart at ht
  injection ht with ht
  subst ht
  repeat' first
    | (with_reducible refine Within.sub hW ?_; decide)
    | with_reducible assumption
    | with_reducible apply streamStart_keeps

theorem streamStop_keeps (hW : Within 69863556352 wz) (k : Pkt) (t : Nat) (kind : Nat) (imm : Nat) (s : State) (hm : Keeps wz s₀ s) : Keeps wz s₀ (streamStop k t kind imm s) := by
  unfold streamStop
  repeat' first
    | (with_reducible refine Within.sub hW ?_; decide)
    | with_reducible assumption
    | (with_reducible apply foldl_keeps; intros; try dsimp -zeta only)
    | (with_reducible intro _; try dsimp -zeta only)
    | with_reducible apply State.finish_keeps
    | with_reducible apply State.stopStream_keeps
    | with_reducible apply State.command_keeps
    | (extract_lets +onlyGivenNames x
       first
         | (with_reducible refine mem_cut (p := Keeps wz s₀ x) ?_ ?_ <;> [subst x; (clear_value x; intro _)])
         | (with_reducible refine mem_cut (p := Keeps wz s₀ x.2) ?_ ?_ <;> [subst x; (clear_value x; intro _)])
         | (have hx := fun y => x y; clear hx; subst x; try dsimp -zeta only)
         | clear_value x
         | subst x)
    | split

theorem execStreamStop_keeps (hW : Within 69863556352 wz) (k : Pkt) (target : B8) (kind : B8) (immediate : B8) (s : State) (hm : Keeps wz s₀ s) : ∀ z, execStreamStop k target kind immediate s = .next z → Keeps wz s₀ z := by
  intro z ht
  unfold execStreamStop at ht
  injection ht with ht
  subst ht
  repeat' first
    | (with_reducible refine Within.sub hW ?_; decide)
    | with_reducible assumption
    | with_reducible apply streamStop_keeps

theorem ecloseVariant_keeps (hW : Within 1140851968 wz) (k : Pkt) (o : Nat) (n : Nat) (at' : Nat) (s : State) (hm : Keeps wz s₀ s) : Keeps wz s₀ (ecloseVariant k o n at' s) := by
  unfold ecloseVariant
  repeat' first
    | (with_reducible refine Within.sub hW ?_; decide)
    | with_reducible assumption
    | (with_reducible intro _; try dsimp -zeta only)
    | with_reducible apply State.setCtx_keeps
    | with_reducible apply State.command_keeps
    | (extract_lets +onlyGivenNames x
       first
         | (with_reducible refine mem_cut (p := Keeps wz s₀ x) ?_ ?_ <;> [subst x; (clear_value x; intro _)])
         | (with_reducible refine mem_cut (p := Keeps wz s₀ x.2) ?_ ?_ <;> [subst x; (clear_value x; intro _)])
         | (have hx := fun y => x y; clear hx; subst x; try dsimp -zeta only)
         | clear_value x
         | subst x)
    | split

theorem execEcloseVariant_keeps (hW : Within 1140851968 wz) (k : Pkt) (owner : B8) (slot : B8) (when_ : B8) (s : State) (hm : Keeps wz s₀ s) : ∀ z, execEcloseVariant k owner slot when_ s = .next z → Keeps wz s₀ z := by
  intro z ht
  unfold execEcloseVariant at ht
  injection ht with ht
  subst ht
  repeat' first
    | (with_reducible refine Within.sub hW ?_; decide)
    | with_reducible assumption
    | with_reducible apply ecloseVariant_keeps

theorem statsSnapshot_keeps (hW : Within 1140983040 wz) (k : Pkt) (o : Nat) (st : Nat) (which : Nat) (vmask : B32) (dest : B64) (len : Nat) (s : State) (hm : Keeps wz s₀ s) : Keeps wz s₀ (statsSnapshot k o st which vmask dest len s) := by
  unfold statsSnapshot
  repeat' first
    | (with_reducible refine Within.sub hW ?_; decide)
    | with_reducible assumption
    | (with_reducible intro _; try dsimp -zeta only)
    | with_reducible apply State.setCtx_keeps
    | with_reducible apply State.command_keeps
    | (extract_lets +onlyGivenNames x
       first
         | (with_reducible refine mem_cut (p := Keeps wz s₀ x) ?_ ?_ <;> [subst x; (clear_value x; intro _)])
         | (with_reducible refine mem_cut (p := Keeps wz s₀ x.2) ?_ ?_ <;> [subst x; (clear_value x; intro _)])
         | (have hx := fun y => x y; clear hx; subst x; try dsimp -zeta only)
         | clear_value x
         | subst x)
    | split
    | (try dsimp -zeta only
       with_reducible refine Keeps.mk' (V := 1140983040) rfl (hW.sub (by decide)) ?_ ?_ id ?_
       · (repeat' apply And.intro) <;> first | exact fun _ => rfl | exact fun h => zone_in h
       · first | exact id | exact fun _ => rfl)

theorem execStatsSnapshot_keeps (hW : Within 1140983040 wz) (k : Pkt) (owner : B8) (stream : B8) (which : B8) (vmask : B32) (dest : B64) (length : B32) (s : State) (hm : Keeps wz s₀ s) : ∀ z, execStatsSnapshot k owner stream which vmask dest length s = .next z → Keeps wz s₀ z := by
  intro z ht
  unfold execStatsSnapshot at ht
  injection ht with ht
  subst ht
  repeat' first
    | (with_reducible refine Within.sub hW ?_; decide)
    | with_reducible assumption
    | with_reducible apply statsSnapshot_keeps

theorem lockAcquire_keeps (hW : Within 201327872 wz) (k : Pkt) (l : Nat) (wait : Nat) (us : Nat) (s : State) (hm : Keeps wz s₀ s) : Keeps wz s₀ (lockAcquire k l wait us s) := by
  unfold lockAcquire
  repeat' first
    | (with_reducible refine Within.sub hW ?_; decide)
    | with_reducible assumption
    | (with_reducible intro _; try dsimp -zeta only)
    | with_reducible apply State.setLock_keeps
    | with_reducible apply State.finish_keeps
    | with_reducible apply State.tryLock_keeps
    | with_reducible apply State.command_keeps
    | (extract_lets +onlyGivenNames x
       first
         | (with_reducible refine mem_cut (p := Keeps wz s₀ x) ?_ ?_ <;> [subst x; (clear_value x; intro _)])
         | (with_reducible refine mem_cut (p := Keeps wz s₀ x.2) ?_ ?_ <;> [subst x; (clear_value x; intro _)])
         | (have hx := fun y => x y; clear hx; subst x; try dsimp -zeta only)
         | clear_value x
         | subst x)
    | split
    | (with_reducible refine keeps_of_pair (by assumption) ?_)

theorem execLockAcquire_keeps (hW : Within 201327872 wz) (k : Pkt) (lock : B8) (wait : B8) (timeoutUs : B16) (s : State) (hm : Keeps wz s₀ s) : ∀ z, execLockAcquire k lock wait timeoutUs s = .next z → Keeps wz s₀ z := by
  intro z ht
  unfold execLockAcquire at ht
  injection ht with ht
  subst ht
  repeat' first
    | (with_reducible refine Within.sub hW ?_; decide)
    | with_reducible assumption
    | with_reducible apply lockAcquire_keeps

theorem lockRelease_keeps (hW : Within 68920804608 wz) (k : Pkt) (l : Nat) (s : State) (hm : Keeps wz s₀ s) : Keeps wz s₀ (lockRelease k l s) := by
  unfold lockRelease
  repeat' first
    | (with_reducible refine Within.sub hW ?_; decide)
    | with_reducible assumption
    | (with_reducible intro _; try dsimp -zeta only)
    | with_reducible apply State.finish_keeps
    | with_reducible apply State.handLock_keeps
    | with_reducible apply State.command_keeps

theorem execLockRelease_keeps (hW : Within 68920804608 wz) (k : Pkt) (lock : B8) (s : State) (hm : Keeps wz s₀ s) : ∀ z, execLockRelease k lock s = .next z → Keeps wz s₀ z := by
  intro z ht
  unfold execLockRelease at ht
  injection ht with ht
  subst ht
  repeat' first
    | (with_reducible refine Within.sub hW ?_; decide)
    | with_reducible assumption
    | with_reducible apply lockRelease_keeps

theorem lockQuery_keeps (hW : Within 67110144 wz) (k : Pkt) (l : Nat) (s : State) (hm : Keeps wz s₀ s) : Keeps wz s₀ (lockQuery k l s) := by
  unfold lockQuery
  repeat' first
    | (with_reducible refine Within.sub hW ?_; decide)
    | with_reducible assumption
    | (with_reducible intro _; try dsimp -zeta only)
    | with_reducible apply State.finish_keeps
    | with_reducible apply State.command_keeps

theorem execLockQuery_keeps (hW : Within 67110144 wz) (k : Pkt) (lock : B8) (s : State) (hm : Keeps wz s₀ s) : ∀ z, execLockQuery k lock s = .next z → Keeps wz s₀ z := by
  intro z ht
  unfold execLockQuery at ht
  injection ht with ht
  subst ht
  repeat' first
    | (with_reducible refine Within.sub hW ?_; decide)
    | with_reducible assumption
    | with_reducible apply lockQuery_keeps

theorem contextAbort_keeps (hW : Within 87358653698 wz) (k : Pkt) (o : Nat) (s : State) (hm : Keeps wz s₀ s) : Keeps wz s₀ (contextAbort k o s) := by
  unfold contextAbort
  repeat' first
    | (with_reducible refine Within.sub hW ?_; decide)
    | with_reducible assumption
    | (with_reducible intro _; try dsimp -zeta only)
    | with_reducible apply State.setCtx_keeps
    | with_reducible apply State.finish_keeps
    | with_reducible apply State.abortCtx_keeps
    | with_reducible apply State.command_keeps
    | (extract_lets +onlyGivenNames x
       first
         | (with_reducible refine mem_cut (p := Keeps wz s₀ x) ?_ ?_ <;> [subst x; (clear_value x; intro _)])
         | (with_reducible refine mem_cut (p := Keeps wz s₀ x.2) ?_ ?_ <;> [subst x; (clear_value x; intro _)])
         | (have hx := fun y => x y; clear hx; subst x; try dsimp -zeta only)
         | clear_value x
         | subst x)
    | split

theorem execContextAbort_keeps (hW : Within 87358653698 wz) (k : Pkt) (owner : B8) (s : State) (hm : Keeps wz s₀ s) : ∀ z, execContextAbort k owner s = .next z → Keeps wz s₀ z := by
  intro z ht
  unfold execContextAbort at ht
  injection ht with ht
  subst ht
  repeat' first
    | (with_reducible refine Within.sub hW ?_; decide)
    | with_reducible assumption
    | with_reducible apply contextAbort_keeps

theorem State.flushSpores_keeps (hW : Within 68753031424 wz) (s : State) (p : Nat) (cause : Nat) (hm : Keeps wz s₀ s) : Keeps wz s₀ (State.flushSpores s p cause) := by
  unfold State.flushSpores
  repeat' first
    | (with_reducible refine Within.sub hW ?_; decide)
    | with_reducible assumption
    | with_reducible apply State.modQueue_keeps
    | with_reducible apply State.modYport_keeps
    | with_reducible apply State.log_keeps
    | (extract_lets +onlyGivenNames x
       first
         | (with_reducible refine mem_cut (p := Keeps wz s₀ x) ?_ ?_ <;> [subst x; (clear_value x; intro _)])
         | (with_reducible refine mem_cut (p := Keeps wz s₀ x.2) ?_ ?_ <;> [subst x; (clear_value x; intro _)])
         | (have hx := fun y => x y; clear hx; subst x; try dsimp -zeta only)
         | clear_value x
         | subst x)

theorem queueFlush_keeps (hW : Within 86271657218 wz) (k : Pkt) (cls : Nat) (i : Nat) (s : State) (hm : Keeps wz s₀ s) : Keeps wz s₀ (queueFlush k cls i s) := by
  unfold queueFlush
  repeat' first
    | (with_reducible refine Within.sub hW ?_; decide)
    | with_reducible assumption
    | (with_reducible intro _; try dsimp -zeta only)
    | with_reducible apply State.finish_keeps
    | with_reducible apply State.flushOutput_keeps
    | with_reducible apply State.flushPool_keeps
    | with_reducible apply State.flushReplies_keeps
    | with_reducible apply State.command_keeps
    | with_reducible apply State.flushSpores_keeps
    | (extract_lets +onlyGivenNames x
       first
         | (with_reducible refine mem_cut (p := Keeps wz s₀ x) ?_ ?_ <;> [subst x; (clear_value x; intro _)])
         | (with_reducible refine mem_cut (p := Keeps wz s₀ x.2) ?_ ?_ <;> [subst x; (clear_value x; intro _)])
         | (have hx := fun y => x y; clear hx; subst x; try dsimp -zeta only)
         | clear_value x
         | subst x)
    | split

theorem execQueueFlush_keeps (hW : Within 86271657218 wz) (k : Pkt) (cls : B8) (index : B8) (s : State) (hm : Keeps wz s₀ s) : ∀ z, execQueueFlush k cls index s = .next z → Keeps wz s₀ z := by
  intro z ht
  unfold execQueueFlush at ht
  injection ht with ht
  subst ht
  repeat' first
    | (with_reducible refine Within.sub hW ?_; decide)
    | with_reducible assumption
    | with_reducible apply queueFlush_keeps

theorem dropThreshold_keeps (hW : Within 67175680 wz) (k : Pkt) (st : Nat) (n : Nat) (s : State) (hm : Keeps wz s₀ s) : Keeps wz s₀ (dropThreshold k st n s) := by
  unfold dropThreshold
  repeat' first
    | (with_reducible refine Within.sub hW ?_; decide)
    | with_reducible assumption
    | (with_reducible intro _; try dsimp -zeta only)
    | with_reducible apply State.modStrm_keeps
    | with_reducible apply State.finish_keeps
    | with_reducible apply State.command_keeps
    | split

theorem execDropThreshold_keeps (hW : Within 67175680 wz) (k : Pkt) (stream : B8) (lines : B8) (s : State) (hm : Keeps wz s₀ s) : ∀ z, execDropThreshold k stream lines s = .next z → Keeps wz s₀ z := by
  intro z ht
  unfold execDropThreshold at ht
  injection ht with ht
  subst ht
  repeat' first
    | (with_reducible refine Within.sub hW ?_; decide)
    | with_reducible assumption
    | with_reducible apply dropThreshold_keeps

theorem unitCounters_keeps (hW : Within 17246979330 wz) (k : Pkt) (o : Nat) (dest : B64) (len : Nat) (s : State) (hm : Keeps wz s₀ s) : Keeps wz s₀ (unitCounters k o dest len s) := by
  unfold unitCounters
  repeat' first
    | (with_reducible refine Within.sub hW ?_; decide)
    | with_reducible assumption
    | (with_reducible intro _; try dsimp -zeta only)
    | with_reducible apply State.draw_keeps
    | with_reducible apply State.finish_keeps
    | with_reducible apply State.deliver_keeps
    | with_reducible apply State.command_keeps
    | (extract_lets +onlyGivenNames x
       first
         | (with_reducible refine mem_cut (p := Keeps wz s₀ x) ?_ ?_ <;> [subst x; (clear_value x; intro _)])
         | (with_reducible refine mem_cut (p := Keeps wz s₀ x.2) ?_ ?_ <;> [subst x; (clear_value x; intro _)])
         | (have hx := fun y => x y; clear hx; subst x; try dsimp -zeta only)
         | clear_value x
         | subst x)
    | split

theorem execUnitCounters_keeps (hW : Within 17246979330 wz) (k : Pkt) (owner : B8) (dest : B64) (length : B32) (s : State) (hm : Keeps wz s₀ s) : ∀ z, execUnitCounters k owner dest length s = .next z → Keeps wz s₀ z := by
  intro z ht
  unfold execUnitCounters at ht
  injection ht with ht
  subst ht
  repeat' first
    | (with_reducible refine Within.sub hW ?_; decide)
    | with_reducible assumption
    | with_reducible apply unitCounters_keeps

theorem State.writeRow_keeps (hW : Within 131072 wz) (s : State) (p : Placement) (e : EntityDecl) (row : Nat) (b : Bytes) (hm : Keeps wz s₀ s) : Keeps wz s₀ (State.writeRow s p e row b) := by
  unfold State.writeRow
  repeat' first
    | (with_reducible refine Within.sub hW ?_; decide)
    | with_reducible assumption
    | (with_reducible apply foldl_keeps; intros; try dsimp -zeta only)
    | with_reducible apply State.modUnit_keeps
    | split

theorem entityWrite_keeps (hW : Within 34426979584 wz) (k : Pkt) (o : Nat) (t : Nat) (row : Nat) (n : Nat) (src : B64) (s : State) (hm : Keeps wz s₀ s) : Keeps wz s₀ (entityWrite k o t row n src s) := by
  unfold entityWrite
  repeat' first
    | (with_reducible refine Within.sub hW ?_; decide)
    | with_reducible assumption
    | (with_reducible apply foldl_keeps; intros; try dsimp -zeta only)
    | (with_reducible intro _; try dsimp -zeta only)
    | with_reducible apply State.finish_keeps
    | with_reducible apply State.command_keeps
    | with_reducible apply State.hostUsed_keeps
    | with_reducible apply State.writeRow_keeps
    | (extract_lets +onlyGivenNames x
       first
         | (with_reducible refine mem_cut (p := Keeps wz s₀ x) ?_ ?_ <;> [subst x; (clear_value x; intro _)])
         | (with_reducible refine mem_cut (p := Keeps wz s₀ x.2) ?_ ?_ <;> [subst x; (clear_value x; intro _)])
         | (have hx := fun y => x y; clear hx; subst x; try dsimp -zeta only)
         | clear_value x
         | subst x)
    | split

theorem execEntityWrite_keeps (hW : Within 34426979584 wz) (k : Pkt) (owner : B8) (table : B8) (row : B16) (count : B16) (src : B64) (s : State) (hm : Keeps wz s₀ s) : ∀ z, execEntityWrite k owner table row count src s = .next z → Keeps wz s₀ z := by
  intro z ht
  unfold execEntityWrite at ht
  injection ht with ht
  subst ht
  repeat' first
    | (with_reducible refine Within.sub hW ?_; decide)
    | with_reducible assumption
    | with_reducible apply entityWrite_keeps

theorem exponentTrim_keeps (hW : Within 1140851968 wz) (k : Pkt) (o : Nat) (g : Nat) (t : Int) (s : State) (hm : Keeps wz s₀ s) : Keeps wz s₀ (exponentTrim k o g t s) := by
  unfold exponentTrim
  repeat' first
    | (with_reducible refine Within.sub hW ?_; decide)
    | with_reducible assumption
    | (with_reducible intro _; try dsimp -zeta only)
    | with_reducible apply State.setCtx_keeps
    | with_reducible apply State.finish_keeps
    | with_reducible apply State.command_keeps
    | (extract_lets +onlyGivenNames x
       first
         | (with_reducible refine mem_cut (p := Keeps wz s₀ x) ?_ ?_ <;> [subst x; (clear_value x; intro _)])
         | (with_reducible refine mem_cut (p := Keeps wz s₀ x.2) ?_ ?_ <;> [subst x; (clear_value x; intro _)])
         | (have hx := fun y => x y; clear hx; subst x; try dsimp -zeta only)
         | clear_value x
         | subst x)
    | split

theorem execExponentTrim_keeps (hW : Within 1140851968 wz) (k : Pkt) (owner : B8) (group : B8) (t : B8) (s : State) (hm : Keeps wz s₀ s) : ∀ z, execExponentTrim k owner group t s = .next z → Keeps wz s₀ z := by
  intro z ht
  unfold execExponentTrim at ht
  injection ht with ht
  subst ht
  repeat' first
    | (with_reducible refine Within.sub hW ?_; decide)
    | with_reducible assumption
    | with_reducible apply exponentTrim_keeps

theorem execFwNop_keeps (hW : Within 67110144 wz) (k : Pkt) (s : State) (hm : Keeps wz s₀ s) : ∀ z, execFwNop k s = .next z → Keeps wz s₀ z := by
  intro z ht
  unfold execFwNop at ht
  injection ht with ht
  subst ht
  repeat' first
    | (with_reducible refine Within.sub hW ?_; decide)
    | with_reducible assumption
    | (with_reducible intro _; try dsimp -zeta only)
    | with_reducible apply State.finish_keeps
    | with_reducible apply State.command_keeps

end Sys2Proof.Machine
end

