-- ==== Sys2Proof/Laws/Keeps14.lean ====
section
/-! SUPPORT. What the definitions from fnGrant to execSlotDefine may write: `Keeps wz s t` says that only the
parts of `wz` differ and that memories stay canonical. -/
set_option linter.unusedTactic false
set_option linter.unreachableTactic false
set_option linter.unusedVariables false
namespace Sys2Proof.Machine
variable {wz : Nat} {s₀ : State}
theorem fnGrant_keeps (hW : Within 67110144 wz) (k : Pkt) (f : Nat) (expert : Nat) (s : State) (hm : Keeps wz s₀ s) : Keeps wz s₀ (fnGrant k f expert s) := by
  unfold fnGrant
  repeat' first
    | (with_reducible refine Within.sub hW ?_; decide)
    | with_reducible assumption
    | (with_reducible intro _; try dsimp -zeta only)
    | with_reducible apply State.modFn_keeps
    | with_reducible apply State.finish_keeps
    | with_reducible apply State.command_keeps

theorem execFnGrant_keeps (hW : Within 67110144 wz) (k : Pkt) (fn : B8) (expert : B8) (s : State) (hm : Keeps wz s₀ s) : ∀ z, execFnGrant k fn expert s = .next z → Keeps wz s₀ z := by
  intro z ht
  unfold execFnGrant at ht
  injection ht with ht
  subst ht
  repeat' first
    | (with_reducible refine Within.sub hW ?_; decide)
    | with_reducible assumption
    | with_reducible apply fnGrant_keeps

theorem vfMap_keeps (hW : Within 1099578737920 wz) (k : Pkt) (m : B64) (s : State) (hm : Keeps wz s₀ s) : Keeps wz s₀ (vfMap k m s) := by
  unfold vfMap
  repeat' first
    | (with_reducible refine Within.sub hW ?_; decide)
    | with_reducible assumption
    | (with_reducible intro _; try dsimp -zeta only)
    | with_reducible apply State.finish_keeps
    | with_reducible apply State.command_keeps
    | (try dsimp -zeta only
       with_reducible refine Keeps.mk' (V := 1099578737920) rfl (hW.sub (by decide)) ?_ ?_ id ?_
       · (repeat' apply And.intro) <;> first | exact fun _ => rfl | exact fun h => zone_in h
       · first | exact id | exact fun _ => rfl)

theorem execVfMap_keeps (hW : Within 1099578737920 wz) (k : Pkt) (map : B64) (s : State) (hm : Keeps wz s₀ s) : ∀ z, execVfMap k map s = .next z → Keeps wz s₀ z := by
  intro z ht
  unfold execVfMap at ht
  injection ht with ht
  subst ht
  repeat' first
    | (with_reducible refine Within.sub hW ?_; decide)
    | with_reducible assumption
    | with_reducible apply vfMap_keeps

theorem headAssign_keeps (hW : Within 67126528 wz) (k : Pkt) (h : Nat) (f : Nat) (s : State) (hm : Keeps wz s₀ s) : Keeps wz s₀ (headAssign k h f s) := by
  unfold headAssign
  repeat' first
    | (with_reducible refine Within.sub hW ?_; decide)
    | with_reducible assumption
    | (with_reducible intro _; try dsimp -zeta only)
    | with_reducible apply State.modHead_keeps
    | with_reducible apply State.finish_keeps
    | with_reducible apply State.command_keeps

theorem execHeadAssign_keeps (hW : Within 67126528 wz) (k : Pkt) (head : B8) (fn : B8) (s : State) (hm : Keeps wz s₀ s) : ∀ z, execHeadAssign k head fn s = .next z → Keeps wz s₀ z := by
  intro z ht
  unfold execHeadAssign at ht
  injection ht with ht
  subst ht
  repeat' first
    | (with_reducible refine Within.sub hW ?_; decide)
    | with_reducible assumption
    | with_reducible apply headAssign_keeps

theorem poolAssign_keeps (hW : Within 335545600 wz) (k : Pkt) (p : Nat) (f : Nat) (s : State) (hm : Keeps wz s₀ s) : Keeps wz s₀ (poolAssign k p f s) := by
  unfold poolAssign
  repeat' first
    | (with_reducible refine Within.sub hW ?_; decide)
    | with_reducible assumption
    | (with_reducible intro _; try dsimp -zeta only)
    | with_reducible apply State.modPool_keeps
    | with_reducible apply State.finish_keeps
    | with_reducible apply State.command_keeps

theorem execPoolAssign_keeps (hW : Within 335545600 wz) (k : Pkt) (pool : B8) (fn : B8) (s : State) (hm : Keeps wz s₀ s) : ∀ z, execPoolAssign k pool fn s = .next z → Keeps wz s₀ z := by
  intro z ht
  unfold execPoolAssign at ht
  injection ht with ht
  subst ht
  repeat' first
    | (with_reducible refine Within.sub hW ?_; decide)
    | with_reducible assumption
    | with_reducible apply poolAssign_keeps

theorem poolSetup_keeps (hW : Within 335545600 wz) (k : Pkt) (p : Nat) (ro : Nat) (co : Nat) (ring : B64) (cpl : B64) (s : State) (hm : Keeps wz s₀ s) : Keeps wz s₀ (poolSetup k p ro co ring cpl s) := by
  unfold poolSetup
  repeat' first
    | (with_reducible refine Within.sub hW ?_; decide)
    | with_reducible assumption
    | (with_reducible intro _; try dsimp -zeta only)
    | with_reducible apply State.modPool_keeps
    | with_reducible apply State.finish_keeps
    | with_reducible apply State.command_keeps

theorem execPoolSetup_keeps (hW : Within 335545600 wz) (k : Pkt) (pool : B8) (ringOrder : B8) (cplOrder : B8) (ring : B64) (cpl : B64) (s : State) (hm : Keeps wz s₀ s) : ∀ z, execPoolSetup k pool ringOrder cplOrder ring cpl s = .next z → Keeps wz s₀ z := by
  intro z ht
  unfold execPoolSetup at ht
  injection ht with ht
  subst ht
  repeat' first
    | (with_reducible refine Within.sub hW ?_; decide)
    | with_reducible assumption
    | with_reducible apply poolSetup_keeps

theorem State.setTrust_keeps (hW : Within 69863556384 wz) (s : State) (v : Bool) (hm : Keeps wz s₀ s) : Keeps wz s₀ (State.setTrust s v) := by
  unfold State.setTrust
  repeat' first
    | (with_reducible refine Within.sub hW ?_; decide)
    | with_reducible assumption
    | (with_reducible apply foldl_keeps; intros; try dsimp -zeta only)
    | with_reducible apply State.modHead_keeps
    | with_reducible apply State.authFail_keeps
    | (extract_lets +onlyGivenNames x
       first
         | (with_reducible refine mem_cut (p := Keeps wz s₀ x) ?_ ?_ <;> [subst x; (clear_value x; intro _)])
         | (with_reducible refine mem_cut (p := Keeps wz s₀ x.2) ?_ ?_ <;> [subst x; (clear_value x; intro _)])
         | (have hx := fun y => x y; clear hx; subst x; try dsimp -zeta only)
         | clear_value x
         | subst x)
    | split
    | (try dsimp -zeta only
       with_reducible refine Keeps.mk' (V := 69863556384) rfl (hW.sub (by decide)) ?_ ?_ id ?_
       · (repeat' apply And.intro) <;> first | exact fun _ => rfl | exact fun h => zone_in h
       · first | exact id | exact fun _ => rfl)

theorem State.setCheck_keeps (hW : Within 68719546720 wz) (s : State) (v : Bool) (hm : Keeps wz s₀ s) : Keeps wz s₀ (State.setCheck s v) := by
  unfold State.setCheck
  repeat' first
    | (with_reducible refine Within.sub hW ?_; decide)
    | with_reducible assumption
    | with_reducible apply State.retargetAll_keeps
    | with_reducible apply State.logCap_keeps
    | (extract_lets +onlyGivenNames x
       first
         | (with_reducible refine mem_cut (p := Keeps wz s₀ x) ?_ ?_ <;> [subst x; (clear_value x; intro _)])
         | (with_reducible refine mem_cut (p := Keeps wz s₀ x.2) ?_ ?_ <;> [subst x; (clear_value x; intro _)])
         | (have hx := fun y => x y; clear hx; subst x; try dsimp -zeta only)
         | clear_value x
         | subst x)
    | split
    | (try dsimp -zeta only
       with_reducible refine Keeps.mk' (V := 68719546720) rfl (hW.sub (by decide)) ?_ ?_ id ?_
       · (repeat' apply And.intro) <;> first | exact fun _ => rfl | exact fun h => zone_in h
       · first | exact id | exact fun _ => rfl)

theorem modeSet_keeps (hW : Within 69863560544 wz) (k : Pkt) (axis : Nat) (value : Nat) (s : State) (hm : Keeps wz s₀ s) : Keeps wz s₀ (modeSet k axis value s) := by
  unfold modeSet
  repeat' first
    | (with_reducible refine Within.sub hW ?_; decide)
    | with_reducible assumption
    | (with_reducible intro _; try dsimp -zeta only)
    | with_reducible apply State.finish_keeps
    | with_reducible apply State.command_keeps
    | with_reducible apply State.setTrust_keeps
    | with_reducible apply State.setCheck_keeps
    | (extract_lets +onlyGivenNames x
       first
         | (with_reducible refine mem_cut (p := Keeps wz s₀ x) ?_ ?_ <;> [subst x; (clear_value x; intro _)])
         | (with_reducible refine mem_cut (p := Keeps wz s₀ x.2) ?_ ?_ <;> [subst x; (clear_value x; intro _)])
         | (have hx := fun y => x y; clear hx; subst x; try dsimp -zeta only)
         | clear_value x
         | subst x)
    | split
    | (try dsimp -zeta only
       with_reducible refine Keeps.mk' (V := 69863560544) rfl (hW.sub (by decide)) ?_ ?_ id ?_
       · (repeat' apply And.intro) <;> first | exact fun _ => rfl | exact fun h => zone_in h
       · first | exact id | exact fun _ => rfl)

theorem execModeSet_keeps (hW : Within 69863560544 wz) (k : Pkt) (axis : B8) (value : B8) (s : State) (hm : Keeps wz s₀ s) : ∀ z, execModeSet k axis value s = .next z → Keeps wz s₀ z := by
  intro z ht
  unfold execModeSet at ht
  injection ht with ht
  subst ht
  repeat' first
    | (with_reducible refine Within.sub hW ?_; decide)
    | with_reducible assumption
    | with_reducible apply modeSet_keeps

theorem State.setPower_keeps (hW : Within 73014514016 wz) (s : State) (eco : Bool) (hm : Keeps wz s₀ s) : Keeps wz s₀ (State.setPower s eco) := by
  unfold State.setPower
  repeat' first
    | (with_reducible refine Within.sub hW ?_; decide)
    | with_reducible assumption
    | with_reducible apply State.log_keeps
    | with_reducible apply State.retargetAll_keeps
    | with_reducible apply State.logCap_keeps
    | (extract_lets +onlyGivenNames x
       first
         | (with_reducible refine mem_cut (p := Keeps wz s₀ x) ?_ ?_ <;> [subst x; (clear_value x; intro _)])
         | (with_reducible refine mem_cut (p := Keeps wz s₀ x.2) ?_ ?_ <;> [subst x; (clear_value x; intro _)])
         | (have hx := fun y => x y; clear hx; subst x; try dsimp -zeta only)
         | clear_value x
         | subst x)
    | split
    | (try dsimp -zeta only
       with_reducible refine Keeps.mk' (V := 73014514016) rfl (hW.sub (by decide)) ?_ ?_ id ?_
       · (repeat' apply And.intro) <;> first | exact fun _ => rfl | exact fun h => zone_in h
       · first | exact id | exact fun _ => rfl)

theorem powerMode_keeps (hW : Within 73081623904 wz) (k : Pkt) (m : Nat) (s : State) (hm : Keeps wz s₀ s) : Keeps wz s₀ (powerMode k m s) := by
  unfold powerMode
  repeat' first
    | (with_reducible refine Within.sub hW ?_; decide)
    | with_reducible assumption
    | (with_reducible intro _; try dsimp -zeta only)
    | with_reducible apply State.finish_keeps
    | with_reducible apply State.command_keeps
    | with_reducible apply State.setPower_keeps

theorem execPowerMode_keeps (hW : Within 73081623904 wz) (k : Pkt) (mode : B8) (s : State) (hm : Keeps wz s₀ s) : ∀ z, execPowerMode k mode s = .next z → Keeps wz s₀ z := by
  intro z ht
  unfold execPowerMode at ht
  injection ht with ht
  subst ht
  repeat' first
    | (with_reducible refine Within.sub hW ?_; decide)
    | with_reducible assumption
    | with_reducible apply powerMode_keeps

theorem logRing_keeps (hW : Within 67110144 wz) (k : Pkt) (order : Nat) (filter : Nat) (dest : B64) (s : State) (hm : Keeps wz s₀ s) : Keeps wz s₀ (logRing k order filter dest s) := by
  unfold logRing
  repeat' first
    | (with_reducible refine Within.sub hW ?_; decide)
    | with_reducible assumption
    | (with_reducible intro _; try dsimp -zeta only)
    | with_reducible apply State.modFn_keeps
    | with_reducible apply State.finish_keeps
    | with_reducible apply State.command_keeps

theorem execLogRing_keeps (hW : Within 67110144 wz) (k : Pkt) (order : B8) (filter : B8) (dest : B64) (s : State) (hm : Keeps wz s₀ s) : ∀ z, execLogRing k order filter dest s = .next z → Keeps wz s₀ z := by
  intro z ht
  unfold execLogRing at ht
  injection ht with ht
  subst ht
  repeat' first
    | (with_reducible refine Within.sub hW ?_; decide)
    | with_reducible assumption
    | with_reducible apply logRing_keeps

theorem hbmWrite_keeps (hW : Within 12952012032 wz) (k : Pkt) (n : Nat) (a : B64) (data : Bytes) (s : State) (hm : Keeps wz s₀ s) : Keeps wz s₀ (hbmWrite k n a data s) := by
  unfold hbmWrite
  repeat' first
    | (with_reducible refine Within.sub hW ?_; decide)
    | with_reducible assumption
    | (with_reducible intro _; try dsimp -zeta only)
    | with_reducible apply State.modStackOf_keeps
    | with_reducible apply State.hbmWrite_keeps
    | with_reducible apply State.finish_keeps
    | with_reducible apply State.command_keeps

theorem execHbmWrite_keeps (hW : Within 12952012032 wz) (k : Pkt) (length : B16) (hbm : B64) (data : Bytes) (s : State) (hm : Keeps wz s₀ s) : ∀ z, execHbmWrite k length hbm data s = .next z → Keeps wz s₀ z := by
  intro z ht
  unfold execHbmWrite at ht
  injection ht with ht
  subst ht
  repeat' first
    | (with_reducible refine Within.sub hW ?_; decide)
    | with_reducible assumption
    | with_reducible apply hbmWrite_keeps

theorem timeMode_keeps (hW : Within 67110272 wz) (k : Pkt) (mode : Nat) (policy : Nat) (slew : Nat) (thr : Nat) (s : State) (hm : Keeps wz s₀ s) : Keeps wz s₀ (timeMode k mode policy slew thr s) := by
  unfold timeMode
  repeat' first
    | (with_reducible refine Within.sub hW ?_; decide)
    | with_reducible assumption
    | (with_reducible intro _; try dsimp -zeta only)
    | with_reducible apply State.finish_keeps
    | with_reducible apply State.command_keeps
    | (extract_lets +onlyGivenNames x
       first
         | (with_reducible refine mem_cut (p := Keeps wz s₀ x) ?_ ?_ <;> [subst x; (clear_value x; intro _)])
         | (with_reducible refine mem_cut (p := Keeps wz s₀ x.2) ?_ ?_ <;> [subst x; (clear_value x; intro _)])
         | (have hx := fun y => x y; clear hx; subst x; try dsimp -zeta only)
         | clear_value x
         | subst x)
    | split
    | (try dsimp -zeta only
       with_reducible refine Keeps.mk' (V := 67110272) rfl (hW.sub (by decide)) ?_ ?_ id ?_
       · (repeat' apply And.intro) <;> first | exact fun _ => rfl | exact fun h => zone_in h
       · first | exact id | exact fun _ => rfl)

theorem execTimeMode_keeps (hW : Within 67110272 wz) (k : Pkt) (mode : B8) (policy : B8) (slewPpm : B16) (thresholdNs : B32) (s : State) (hm : Keeps wz s₀ s) : ∀ z, execTimeMode k mode policy slewPpm thresholdNs s = .next z → Keeps wz s₀ z := by
  intro z ht
  unfold execTimeMode at ht
  injection ht with ht
  subst ht
  repeat' first
    | (with_reducible refine Within.sub hW ?_; decide)
    | with_reducible assumption
    | with_reducible apply timeMode_keeps

theorem timeAdjust_keeps (hW : Within 67110272 wz) (k : Pkt) (kind : Nat) (v : Int) (s : State) (hm : Keeps wz s₀ s) : Keeps wz s₀ (timeAdjust k kind v s) := by
  unfold timeAdjust
  repeat' first
    | (with_reducible refine Within.sub hW ?_; decide)
    | with_reducible assumption
    | (with_reducible intro _; try dsimp -zeta only)
    | with_reducible apply State.finish_keeps
    | with_reducible apply State.requestStep_keeps
    | with_reducible apply State.slewBy_keeps
    | with_reducible apply State.command_keeps
    | (extract_lets +onlyGivenNames x
       first
         | (with_reducible refine mem_cut (p := Keeps wz s₀ x) ?_ ?_ <;> [subst x; (clear_value x; intro _)])
         | (with_reducible refine mem_cut (p := Keeps wz s₀ x.2) ?_ ?_ <;> [subst x; (clear_value x; intro _)])
         | (have hx := fun y => x y; clear hx; subst x; try dsimp -zeta only)
         | clear_value x
         | subst x)
    | split
    | (try dsimp -zeta only
       with_reducible refine Keeps.mk' (V := 67110272) rfl (hW.sub (by decide)) ?_ ?_ id ?_
       · (repeat' apply And.intro) <;> first | exact fun _ => rfl | exact fun h => zone_in h
       · first | exact id | exact fun _ => rfl)

theorem execTimeAdjust_keeps (hW : Within 67110272 wz) (k : Pkt) (kind : B8) (value : B64) (s : State) (hm : Keeps wz s₀ s) : ∀ z, execTimeAdjust k kind value s = .next z → Keeps wz s₀ z := by
  intro z ht
  unfold execTimeAdjust at ht
  injection ht with ht
  subst ht
  repeat' first
    | (with_reducible refine Within.sub hW ?_; decide)
    | with_reducible assumption
    | with_reducible apply timeAdjust_keeps

theorem st2110Sender_keeps (hW : Within 412383970560 wz) (k : Pkt) (d : Nat) (en : Nat) (b : Bytes) (s : State) (hm : Keeps wz s₀ s) : Keeps wz s₀ (st2110Sender k d en b s) := by
  unfold st2110Sender
  repeat' first
    | (with_reducible refine Within.sub hW ?_; decide)
    | with_reducible assumption
    | (with_reducible intro _; try dsimp -zeta only)
    | with_reducible apply State.modEth_keeps
    | with_reducible apply State.modSender_keeps
    | with_reducible apply State.finish_keeps
    | with_reducible apply State.ethLink_keeps
    | with_reducible apply State.command_keeps
    | (extract_lets +onlyGivenNames x
       first
         | (with_reducible refine mem_cut (p := Keeps wz s₀ x) ?_ ?_ <;> [subst x; (clear_value x; intro _)])
         | (with_reducible refine mem_cut (p := Keeps wz s₀ x.2) ?_ ?_ <;> [subst x; (clear_value x; intro _)])
         | (have hx := fun y => x y; clear hx; subst x; try dsimp -zeta only)
         | clear_value x
         | subst x)
    | split

theorem execSt2110Sender_keeps (hW : Within 412383970560 wz) (k : Pkt) (sender : B8) (enable : B8) (record : Bytes) (s : State) (hm : Keeps wz s₀ s) : ∀ z, execSt2110Sender k sender enable record s = .next z → Keeps wz s₀ z := by
  intro z ht
  unfold execSt2110Sender at ht
  injection ht with ht
  subst ht
  repeat' first
    | (with_reducible refine Within.sub hW ?_; decide)
    | with_reducible assumption
    | with_reducible apply st2110Sender_keeps

theorem headAttach_keeps (hW : Within 68920820992 wz) (k : Pkt) (h : Nat) (p : AttachParams) (s : State) (hm : Keeps wz s₀ s) : Keeps wz s₀ (headAttach k h p s) := by
  unfold headAttach
  repeat' first
    | (with_reducible refine Within.sub hW ?_; decide)
    | with_reducible assumption
    | (with_reducible intro _; try dsimp -zeta only)
    | with_reducible apply State.modHead_keeps
    | with_reducible apply State.finish_keeps
    | with_reducible apply State.startAttach_keeps
    | with_reducible apply State.dropHeadCmds_keeps
    | with_reducible apply State.dropCommit_keeps
    | with_reducible apply State.command_keeps
    | (extract_lets +onlyGivenNames x
       first
         | (with_reducible refine mem_cut (p := Keeps wz s₀ x) ?_ ?_ <;> [subst x; (clear_value x; intro _)])
         | (with_reducible refine mem_cut (p := Keeps wz s₀ x.2) ?_ ?_ <;> [subst x; (clear_value x; intro _)])
         | (have hx := fun y => x y; clear hx; subst x; try dsimp -zeta only)
         | clear_value x
         | subst x)
    | split

theorem execHeadAttach_keeps (hW : Within 68920820992 wz) (k : Pkt) (head : B8) (params : AttachParams) (s : State) (hm : Keeps wz s₀ s) : ∀ z, execHeadAttach k head params s = .next z → Keeps wz s₀ z := by
  intro z ht
  unfold execHeadAttach at ht
  injection ht with ht
  subst ht
  repeat' first
    | (with_reducible refine Within.sub hW ?_; decide)
    | with_reducible assumption
    | with_reducible apply headAttach_keeps

theorem headDetach_keeps (hW : Within 69863556352 wz) (k : Pkt) (h : Nat) (s : State) (hm : Keeps wz s₀ s) : Keeps wz s₀ (headDetach k h s) := by
  unfold headDetach
  repeat' first
    | (with_reducible refine Within.sub hW ?_; decide)
    | with_reducible assumption
    | (with_reducible intro _; try dsimp -zeta only)
    | with_reducible apply State.modHead_keeps
    | with_reducible apply State.detachStep_keeps
    | with_reducible apply State.stopHead_keeps
    | with_reducible apply State.command_keeps
    | (extract_lets +onlyGivenNames x
       first
         | (with_reducible refine mem_cut (p := Keeps wz s₀ x) ?_ ?_ <;> [subst x; (clear_value x; intro _)])
         | (with_reducible refine mem_cut (p := Keeps wz s₀ x.2) ?_ ?_ <;> [subst x; (clear_value x; intro _)])
         | (have hx := fun y => x y; clear hx; subst x; try dsimp -zeta only)
         | clear_value x
         | subst x)

theorem execHeadDetach_keeps (hW : Within 69863556352 wz) (k : Pkt) (head : B8) (s : State) (hm : Keeps wz s₀ s) : ∀ z, execHeadDetach k head s = .next z → Keeps wz s₀ z := by
  intro z ht
  unfold execHeadDetach at ht
  injection ht with ht
  subst ht
  repeat' first
    | (with_reducible refine Within.sub hW ?_; decide)
    | with_reducible assumption
    | with_reducible apply headDetach_keeps

theorem headAuth_keeps (hW : Within 67126530 wz) (k : Pkt) (h : Nat) (s : State) (hm : Keeps wz s₀ s) : Keeps wz s₀ (headAuth k h s) := by
  unfold headAuth
  repeat' first
    | (with_reducible refine Within.sub hW ?_; decide)
    | with_reducible assumption
    | (with_reducible intro _; try dsimp -zeta only)
    | with_reducible apply State.startAuth_keeps
    | with_reducible apply State.command_keeps
    | (extract_lets +onlyGivenNames x
       first
         | (with_reducible refine mem_cut (p := Keeps wz s₀ x) ?_ ?_ <;> [subst x; (clear_value x; intro _)])
         | (with_reducible refine mem_cut (p := Keeps wz s₀ x.2) ?_ ?_ <;> [subst x; (clear_value x; intro _)])
         | (have hx := fun y => x y; clear hx; subst x; try dsimp -zeta only)
         | clear_value x
         | subst x)

theorem execHeadAuth_keeps (hW : Within 67126530 wz) (k : Pkt) (head : B8) (s : State) (hm : Keeps wz s₀ s) : ∀ z, execHeadAuth k head s = .next z → Keeps wz s₀ z := by
  intro z ht
  unfold execHeadAuth at ht
  injection ht with ht
  subst ht
  repeat' first
    | (with_reducible refine Within.sub hW ?_; decide)
    | with_reducible assumption
    | with_reducible apply headAuth_keeps

theorem headFsync_keeps (hW : Within 67126528 wz) (k : Pkt) (h : Nat) (en : Nat) (w : Nat) (p : Nat) (t0 : Nat) (s : State) (hm : Keeps wz s₀ s) : Keeps wz s₀ (headFsync k h en w p t0 s) := by
  unfold headFsync
  repeat' first
    | (with_reducible refine Within.sub hW ?_; decide)
    | with_reducible assumption
    | (with_reducible intro _; try dsimp -zeta only)
    | with_reducible apply State.modHead_keeps
    | with_reducible apply State.finish_keeps
    | with_reducible apply State.command_keeps

theorem execHeadFsync_keeps (hW : Within 67126528 wz) (k : Pkt) (head : B8) (enable : B8) (widthUs : B8) (periodNs : B32) (t0 : B64) (s : State) (hm : Keeps wz s₀ s) : ∀ z, execHeadFsync k head enable widthUs periodNs t0 s = .next z → Keeps wz s₀ z := by
  intro z ht
  unfold execHeadFsync at ht
  injection ht with ht
  subst ht
  repeat' first
    | (with_reducible refine Within.sub hW ?_; decide)
    | with_reducible assumption
    | with_reducible apply headFsync_keeps

theorem headGain_keeps (hW : Within 67126528 wz) (k : Pkt) (h : Nat) (g : Nat) (s : State) (hm : Keeps wz s₀ s) : Keeps wz s₀ (headGain k h g s) := by
  unfold headGain
  repeat' first
    | (with_reducible refine Within.sub hW ?_; decide)
    | with_reducible assumption
    | (with_reducible intro _; try dsimp -zeta only)
    | with_reducible apply State.modHead_keeps
    | with_reducible apply State.finish_keeps
    | with_reducible apply State.command_keeps

theorem execHeadGain_keeps (hW : Within 67126528 wz) (k : Pkt) (head : B8) (gain : B16) (s : State) (hm : Keeps wz s₀ s) : ∀ z, execHeadGain k head gain s = .next z → Keeps wz s₀ z := by
  intro z ht
  unfold execHeadGain at ht
  injection ht with ht
  subst ht
  repeat' first
    | (with_reducible refine Within.sub hW ?_; decide)
    | with_reducible assumption
    | with_reducible apply headGain_keeps

theorem headExposure_keeps (hW : Within 67126528 wz) (k : Pkt) (h : Nat) (gain : Nat) (lines : Nat) (s : State) (hm : Keeps wz s₀ s) : Keeps wz s₀ (headExposure k h gain lines s) := by
  unfold headExposure
  repeat' first
    | (with_reducible refine Within.sub hW ?_; decide)
    | with_reducible assumption
    | (with_reducible intro _; try dsimp -zeta only)
    | with_reducible apply State.modHead_keeps
    | with_reducible apply State.finish_keeps
    | with_reducible apply State.command_keeps
    | (extract_lets +onlyGivenNames x
       first
         | (with_reducible refine mem_cut (p := Keeps wz s₀ x) ?_ ?_ <;> [subst x; (clear_value x; intro _)])
         | (with_reducible refine mem_cut (p := Keeps wz s₀ x.2) ?_ ?_ <;> [subst x; (clear_value x; intro _)])
         | (have hx := fun y => x y; clear hx; subst x; try dsimp -zeta only)
         | clear_value x
         | subst x)
    | split

theorem execHeadExposure_keeps (hW : Within 67126528 wz) (k : Pkt) (head : B8) (gain : B16) (lines : B32) (s : State) (hm : Keeps wz s₀ s) : ∀ z, execHeadExposure k head gain lines s = .next z → Keeps wz s₀ z := by
  intro z ht
  unfold execHeadExposure at ht
  injection ht with ht
  subst ht
  repeat' first
    | (with_reducible refine Within.sub hW ?_; decide)
    | with_reducible assumption
    | with_reducible apply headExposure_keeps

theorem headActuator_keeps (hW : Within 67126528 wz) (k : Pkt) (h : Nat) (mode : Nat) (line : Nat) (conf : Nat) (lo : Int) (hi : Int) (s : State) (hm : Keeps wz s₀ s) : Keeps wz s₀ (headActuator k h mode line conf lo hi s) := by
  unfold headActuator
  repeat' first
    | (with_reducible refine Within.sub hW ?_; decide)
    | with_reducible assumption
    | (with_reducible intro _; try dsimp -zeta only)
    | with_reducible apply State.modHead_keeps
    | with_reducible apply State.finish_keeps
    | with_reducible apply State.command_keeps

theorem execHeadActuator_keeps (hW : Within 67126528 wz) (k : Pkt) (head : B8) (mode : B8) (triggerLine : B16) (confMin : B16) (actMin : B32) (actMax : B32) (s : State) (hm : Keeps wz s₀ s) : ∀ z, execHeadActuator k head mode triggerLine confMin actMin actMax s = .next z → Keeps wz s₀ z := by
  intro z ht
  unfold execHeadActuator at ht
  injection ht with ht
  subst ht
  repeat' first
    | (with_reducible refine Within.sub hW ?_; decide)
    | with_reducible assumption
    | with_reducible apply headActuator_keeps

theorem headLens_keeps (hW : Within 67126528 wz) (k : Pkt) (h : Nat) (lens : B16) (s : State) (hm : Keeps wz s₀ s) : Keeps wz s₀ (headLens k h lens s) := by
  unfold headLens
  repeat' first
    | (with_reducible refine Within.sub hW ?_; decide)
    | with_reducible assumption
    | (with_reducible intro _; try dsimp -zeta only)
    | with_reducible apply State.modHead_keeps
    | with_reducible apply State.finish_keeps
    | with_reducible apply State.command_keeps

theorem execHeadLens_keeps (hW : Within 67126528 wz) (k : Pkt) (head : B8) (lens : B16) (s : State) (hm : Keeps wz s₀ s) : ∀ z, execHeadLens k head lens s = .next z → Keeps wz s₀ z := by
  intro z ht
  unfold execHeadLens at ht
  injection ht with ht
  subst ht
  repeat' first
    | (with_reducible refine Within.sub hW ?_; decide)
    | with_reducible assumption
    | with_reducible apply headLens_keeps

theorem State.writeModel_keeps (hW : Within 131072 wz) (s : State) (p : Placement) (d : ModelDecl) (b : Bytes) (hm : Keeps wz s₀ s) : Keeps wz s₀ (State.writeModel s p d b) := by
  unfold State.writeModel
  repeat' first
    | (with_reducible refine Within.sub hW ?_; decide)
    | with_reducible assumption
    | (with_reducible apply foldl_keeps; intros; try dsimp -zeta only)
    | with_reducible apply State.modUnit_keeps
    | (extract_lets +onlyGivenNames x
       first
         | (with_reducible refine mem_cut (p := Keeps wz s₀ x) ?_ ?_ <;> [subst x; (clear_value x; intro _)])
         | (with_reducible refine mem_cut (p := Keeps wz s₀ x.2) ?_ ?_ <;> [subst x; (clear_value x; intro _)])
         | (have hx := fun y => x y; clear hx; subst x; try dsimp -zeta only)
         | clear_value x
         | subst x)
    | split

theorem slotDefine_keeps (hW : Within 603981056 wz) (k : Pkt) (n : Nat) (place : Nat) (len : Nat) (src : B64) (s : State) (hm : Keeps wz s₀ s) : Keeps wz s₀ (slotDefine k n place len src s) := by
  unfold slotDefine
  repeat' first
    | (with_reducible refine Within.sub hW ?_; decide)
    | with_reducible assumption
    | (with_reducible intro _; try dsimp -zeta only)
    | with_reducible apply State.setSlot_keeps
    | with_reducible apply State.finish_keeps
    | with_reducible apply State.command_keeps

theorem execSlotDefine_keeps (hW : Within 603981056 wz) (k : Pkt) (slot : B8) (where_ : B8) (length : B32) (src : B64) (s : State) (hm : Keeps wz s₀ s) : ∀ z, execSlotDefine k slot where_ length src s = .next z → Keeps wz s₀ z := by
  intro z ht
  unfold execSlotDefine at ht
  injection ht with ht
  subst ht
  repeat' first
    | (with_reducible refine Within.sub hW ?_; decide)
    | with_reducible assumption
    | with_reducible apply slotDefine_keeps

end Sys2Proof.Machine
end

