-- ==== Sys2Proof/Laws/Keeps15.lean ====
section
/-! SUPPORT. What the definitions from slotUndefine to execYallekAlign may write: `Keeps wz s t` says that only the
parts of `wz` differ and that memories stay canonical. -/
set_option linter.unusedTactic false
set_option linter.unreachableTactic false
set_option linter.unusedVariables false
namespace Sys2Proof.Machine
variable {wz : Nat} {s₀ : State}
theorem slotUndefine_keeps (hW : Within 603981056 wz) (k : Pkt) (n : Nat) (s : State) (hm : Keeps wz s₀ s) : Keeps wz s₀ (slotUndefine k n s) := by
  unfold slotUndefine
  repeat' first
    | (with_reducible refine Within.sub hW ?_; decide)
    | with_reducible assumption
    | (with_reducible intro _; try dsimp -zeta only)
    | with_reducible apply State.setSlot_keeps
    | with_reducible apply State.finish_keeps
    | with_reducible apply State.command_keeps

theorem execSlotUndefine_keeps (hW : Within 603981056 wz) (k : Pkt) (slot : B8) (s : State) (hm : Keeps wz s₀ s) : ∀ z, execSlotUndefine k slot s = .next z → Keeps wz s₀ z := by
  intro z ht
  unfold execSlotUndefine at ht
  injection ht with ht
  subst ht
  repeat' first
    | (with_reducible refine Within.sub hW ?_; decide)
    | with_reducible assumption
    | with_reducible apply slotUndefine_keeps

theorem slotStage_keeps (hW : Within 34963719424 wz) (k : Pkt) (n : Nat) (d : ImageDecl) (err : Bool) (s : State) (hm : Keeps wz s₀ s) : Keeps wz s₀ (slotStage k n d err s) := by
  unfold slotStage
  repeat' first
    | (with_reducible refine Within.sub hW ?_; decide)
    | with_reducible assumption
    | (with_reducible intro _; try dsimp -zeta only)
    | with_reducible apply State.setSlot_keeps
    | with_reducible apply State.finish_keeps
    | with_reducible apply State.command_keeps
    | with_reducible apply State.hostUsed_keeps
    | (extract_lets +onlyGivenNames x
       first
         | (with_reducible refine mem_cut (p := Keeps wz s₀ x) ?_ ?_ <;> [subst x; (clear_value x; intro _)])
         | (with_reducible refine mem_cut (p := Keeps wz s₀ x.2) ?_ ?_ <;> [subst x; (clear_value x; intro _)])
         | (have hx := fun y => x y; clear hx; subst x; try dsimp -zeta only)
         | clear_value x
         | subst x)
    | split

theorem execSlotStage_keeps (hW : Within 34963719424 wz) (k : Pkt) (slot : B8) (decl : ImageDecl) (memError : Bool) (s : State) (hm : Keeps wz s₀ s) : ∀ z, execSlotStage k slot decl memError s = .next z → Keeps wz s₀ z := by
  intro z ht
  unfold execSlotStage at ht
  injection ht with ht
  subst ht
  repeat' first
    | (with_reducible refine Within.sub hW ?_; decide)
    | with_reducible assumption
    | with_reducible apply slotStage_keeps

theorem slotUnstage_keeps (hW : Within 603981056 wz) (k : Pkt) (n : Nat) (s : State) (hm : Keeps wz s₀ s) : Keeps wz s₀ (slotUnstage k n s) := by
  unfold slotUnstage
  repeat' first
    | (with_reducible refine Within.sub hW ?_; decide)
    | with_reducible assumption
    | (with_reducible intro _; try dsimp -zeta only)
    | with_reducible apply State.modSlot_keeps
    | with_reducible apply State.finish_keeps
    | with_reducible apply State.command_keeps

theorem execSlotUnstage_keeps (hW : Within 603981056 wz) (k : Pkt) (slot : B8) (s : State) (hm : Keeps wz s₀ s) : ∀ z, execSlotUnstage k slot s = .next z → Keeps wz s₀ z := by
  intro z ht
  unfold execSlotUnstage at ht
  injection ht with ht
  subst ht
  repeat' first
    | (with_reducible refine Within.sub hW ?_; decide)
    | with_reducible assumption
    | with_reducible apply slotUnstage_keeps

theorem State.newContext_keeps (hW : Within 69863544128 wz) (s : State) (k : Pkt) (r : LoadReq) (m : Image) (lists : Option Lists) (hm : Keeps wz s₀ s) : Keeps wz s₀ (State.newContext s k r m lists) := by
  unfold State.newContext
  repeat' first
    | (with_reducible refine Within.sub hW ?_; decide)
    | with_reducible assumption
    | with_reducible apply State.setCtx_keeps
    | with_reducible apply State.finish_keeps
    | with_reducible apply State.bindStreams_keeps
    | with_reducible apply State.takePorts_keeps
    | (extract_lets +onlyGivenNames x
       first
         | (with_reducible refine mem_cut (p := Keeps wz s₀ x) ?_ ?_ <;> [subst x; (clear_value x; intro _)])
         | (with_reducible refine mem_cut (p := Keeps wz s₀ x.2) ?_ ?_ <;> [subst x; (clear_value x; intro _)])
         | (have hx := fun y => x y; clear hx; subst x; try dsimp -zeta only)
         | clear_value x
         | subst x)
    | split

theorem State.replaceContext_keeps (hW : Within 69863560512 wz) (s : State) (k : Pkt) (r : LoadReq) (m : Image) (lists : Option Lists) (hm : Keeps wz s₀ s) : Keeps wz s₀ (State.replaceContext s k r m lists) := by
  unfold State.replaceContext
  repeat' first
    | (with_reducible refine Within.sub hW ?_; decide)
    | with_reducible assumption
    | (with_reducible apply foldl_keeps; intros; try dsimp -zeta only)
    | with_reducible apply State.modRunning_keeps
    | with_reducible apply State.stopStream_keeps
    | with_reducible apply State.startReplace_keeps
    | (extract_lets +onlyGivenNames x
       first
         | (with_reducible refine mem_cut (p := Keeps wz s₀ x) ?_ ?_ <;> [subst x; (clear_value x; intro _)])
         | (with_reducible refine mem_cut (p := Keeps wz s₀ x.2) ?_ ?_ <;> [subst x; (clear_value x; intro _)])
         | (have hx := fun y => x y; clear hx; subst x; try dsimp -zeta only)
         | clear_value x
         | subst x)
    | split

theorem State.load_keeps (hW : Within 69863560512 wz) (s : State) (k : Pkt) (r : LoadReq) (lists : Option Lists) (hm : Keeps wz s₀ s) : Keeps wz s₀ (State.load s k r lists) := by
  unfold State.load
  repeat' first
    | (with_reducible refine Within.sub hW ?_; decide)
    | with_reducible assumption
    | with_reducible apply State.newContext_keeps
    | with_reducible apply State.replaceContext_keeps
    | (extract_lets +onlyGivenNames x
       first
         | (with_reducible refine mem_cut (p := Keeps wz s₀ x) ?_ ?_ <;> [subst x; (clear_value x; intro _)])
         | (with_reducible refine mem_cut (p := Keeps wz s₀ x.2) ?_ ?_ <;> [subst x; (clear_value x; intro _)])
         | (have hx := fun y => x y; clear hx; subst x; try dsimp -zeta only)
         | clear_value x
         | subst x)
    | split

theorem contextLoad_keeps (hW : Within 69863560512 wz) (k : Pkt) (r : LoadReq) (s : State) (hm : Keeps wz s₀ s) : Keeps wz s₀ (contextLoad k r s) := by
  unfold contextLoad
  repeat' first
    | (with_reducible refine Within.sub hW ?_; decide)
    | with_reducible assumption
    | (with_reducible intro _; try dsimp -zeta only)
    | with_reducible apply State.command_keeps
    | with_reducible apply State.load_keeps

theorem execContextLoad_keeps (hW : Within 69863560512 wz) (k : Pkt) (slot : B8) (replicas : B8) (flags : B8) (owner : B8) (dest : B64) (binds : List Bind) (s : State) (hm : Keeps wz s₀ s) : ∀ z, execContextLoad k slot replicas flags owner dest binds s = .next z → Keeps wz s₀ z := by
  intro z ht
  unfold execContextLoad at ht
  injection ht with ht
  subst ht
  repeat' first
    | (with_reducible refine Within.sub hW ?_; decide)
    | with_reducible assumption
    | with_reducible apply contextLoad_keeps

theorem contextUnload_keeps (hW : Within 69860328704 wz) (k : Pkt) (o : Nat) (s : State) (hm : Keeps wz s₀ s) : Keeps wz s₀ (contextUnload k o s) := by
  unfold contextUnload
  repeat' first
    | (with_reducible refine Within.sub hW ?_; decide)
    | with_reducible assumption
    | (with_reducible intro _; try dsimp -zeta only)
    | with_reducible apply State.finish_keeps
    | with_reducible apply State.modRunning_keeps
    | with_reducible apply State.sendUnbind_keeps
    | with_reducible apply State.command_keeps
    | (extract_lets +onlyGivenNames x
       first
         | (with_reducible refine mem_cut (p := Keeps wz s₀ x) ?_ ?_ <;> [subst x; (clear_value x; intro _)])
         | (with_reducible refine mem_cut (p := Keeps wz s₀ x.2) ?_ ?_ <;> [subst x; (clear_value x; intro _)])
         | (have hx := fun y => x y; clear hx; subst x; try dsimp -zeta only)
         | clear_value x
         | subst x)
    | split

theorem execContextUnload_keeps (hW : Within 69860328704 wz) (k : Pkt) (owner : B8) (s : State) (hm : Keeps wz s₀ s) : ∀ z, execContextUnload k owner s = .next z → Keeps wz s₀ z := by
  intro z ht
  unfold execContextUnload at ht
  injection ht with ht
  subst ht
  repeat' first
    | (with_reducible refine Within.sub hW ?_; decide)
    | with_reducible assumption
    | with_reducible apply contextUnload_keeps

theorem State.placeVariantOn_keeps (hW : Within 1140851968 wz) (s : State) (k : Pkt) (o : Nat) (n : Nat) (lists : Option Lists) (hm : Keeps wz s₀ s) : Keeps wz s₀ (State.placeVariantOn s k o n lists) := by
  unfold State.placeVariantOn
  repeat' first
    | (with_reducible refine Within.sub hW ?_; decide)
    | with_reducible assumption
    | with_reducible apply State.finish_keeps
    | with_reducible apply State.modRunning_keeps
    | (extract_lets +onlyGivenNames x
       first
         | (with_reducible refine mem_cut (p := Keeps wz s₀ x) ?_ ?_ <;> [subst x; (clear_value x; intro _)])
         | (with_reducible refine mem_cut (p := Keeps wz s₀ x.2) ?_ ?_ <;> [subst x; (clear_value x; intro _)])
         | (have hx := fun y => x y; clear hx; subst x; try dsimp -zeta only)
         | clear_value x
         | subst x)
    | split

theorem placeVariant_keeps (hW : Within 1140851968 wz) (k : Pkt) (o : Nat) (n : Nat) (s : State) (hm : Keeps wz s₀ s) : Keeps wz s₀ (placeVariant k o n s) := by
  unfold placeVariant
  repeat' first
    | (with_reducible refine Within.sub hW ?_; decide)
    | with_reducible assumption
    | (with_reducible intro _; try dsimp -zeta only)
    | with_reducible apply State.command_keeps
    | with_reducible apply State.placeVariantOn_keeps

theorem execPlaceVariant_keeps (hW : Within 1140851968 wz) (k : Pkt) (owner : B8) (slot : B8) (s : State) (hm : Keeps wz s₀ s) : ∀ z, execPlaceVariant k owner slot s = .next z → Keeps wz s₀ z := by
  intro z ht
  unfold execPlaceVariant at ht
  injection ht with ht
  subst ht
  repeat' first
    | (with_reducible refine Within.sub hW ?_; decide)
    | with_reducible assumption
    | with_reducible apply placeVariant_keeps

theorem unplaceVariant_keeps (hW : Within 1140851968 wz) (k : Pkt) (o : Nat) (n : Nat) (s : State) (hm : Keeps wz s₀ s) : Keeps wz s₀ (unplaceVariant k o n s) := by
  unfold unplaceVariant
  repeat' first
    | (with_reducible refine Within.sub hW ?_; decide)
    | with_reducible assumption
    | (with_reducible intro _; try dsimp -zeta only)
    | with_reducible apply State.finish_keeps
    | with_reducible apply State.modRunning_keeps
    | with_reducible apply State.command_keeps
    | (extract_lets +onlyGivenNames x
       first
         | (with_reducible refine mem_cut (p := Keeps wz s₀ x) ?_ ?_ <;> [subst x; (clear_value x; intro _)])
         | (with_reducible refine mem_cut (p := Keeps wz s₀ x.2) ?_ ?_ <;> [subst x; (clear_value x; intro _)])
         | (have hx := fun y => x y; clear hx; subst x; try dsimp -zeta only)
         | clear_value x
         | subst x)

theorem execUnplaceVariant_keeps (hW : Within 1140851968 wz) (k : Pkt) (owner : B8) (slot : B8) (s : State) (hm : Keeps wz s₀ s) : ∀ z, execUnplaceVariant k owner slot s = .next z → Keeps wz s₀ z := by
  intro z ht
  unfold execUnplaceVariant at ht
  injection ht with ht
  subst ht
  repeat' first
    | (with_reducible refine Within.sub hW ?_; decide)
    | with_reducible assumption
    | with_reducible apply unplaceVariant_keeps

theorem sceneSet_keeps (hW : Within 67175680 wz) (k : Pkt) (st : Nat) (model : Nat) (hold : Nat) (conf : Nat) (table : List B8) (s : State) (hm : Keeps wz s₀ s) : Keeps wz s₀ (sceneSet k st model hold conf table s) := by
  unfold sceneSet
  repeat' first
    | (with_reducible refine Within.sub hW ?_; decide)
    | with_reducible assumption
    | (with_reducible intro _; try dsimp -zeta only)
    | with_reducible apply State.modStrm_keeps
    | with_reducible apply State.finish_keeps
    | with_reducible apply State.command_keeps
    | (extract_lets +onlyGivenNames x
       first
         | (with_reducible refine mem_cut (p := Keeps wz s₀ x) ?_ ?_ <;> [subst x; (clear_value x; intro _)])
         | (with_reducible refine mem_cut (p := Keeps wz s₀ x.2) ?_ ?_ <;> [subst x; (clear_value x; intro _)])
         | (have hx := fun y => x y; clear hx; subst x; try dsimp -zeta only)
         | clear_value x
         | subst x)

theorem execSceneSet_keeps (hW : Within 67175680 wz) (k : Pkt) (stream : B8) (model : B8) (hold : B8) (confMin : B16) (table : List B8) (s : State) (hm : Keeps wz s₀ s) : ∀ z, execSceneSet k stream model hold confMin table s = .next z → Keeps wz s₀ z := by
  intro z ht
  unfold execSceneSet at ht
  injection ht with ht
  subst ht
  repeat' first
    | (with_reducible refine Within.sub hW ?_; decide)
    | with_reducible assumption
    | with_reducible apply sceneSet_keeps

theorem replaySet_keeps (hW : Within 67175680 wz) (k : Pkt) (st : Nat) (place : Nat) (loop : Nat) (frames : Nat) (bytes : Nat) (src : B64) (s : State) (hm : Keeps wz s₀ s) : Keeps wz s₀ (replaySet k st place loop frames bytes src s) := by
  unfold replaySet
  repeat' first
    | (with_reducible refine Within.sub hW ?_; decide)
    | with_reducible assumption
    | (with_reducible intro _; try dsimp -zeta only)
    | with_reducible apply State.modStrm_keeps
    | with_reducible apply State.finish_keeps
    | with_reducible apply State.command_keeps
    | (extract_lets +onlyGivenNames x
       first
         | (with_reducible refine mem_cut (p := Keeps wz s₀ x) ?_ ?_ <;> [subst x; (clear_value x; intro _)])
         | (with_reducible refine mem_cut (p := Keeps wz s₀ x.2) ?_ ?_ <;> [subst x; (clear_value x; intro _)])
         | (have hx := fun y => x y; clear hx; subst x; try dsimp -zeta only)
         | clear_value x
         | subst x)

theorem execReplaySet_keeps (hW : Within 67175680 wz) (k : Pkt) (stream : B8) (where_ : B8) (loop : B8) (frames : B32) (frameBytes : B32) (src : B64) (s : State) (hm : Keeps wz s₀ s) : ∀ z, execReplaySet k stream where_ loop frames frameBytes src s = .next z → Keeps wz s₀ z := by
  intro z ht
  unfold execReplaySet at ht
  injection ht with ht
  subst ht
  repeat' first
    | (with_reducible refine Within.sub hW ?_; decide)
    | with_reducible assumption
    | with_reducible apply replaySet_keeps

theorem patternSet_keeps (hW : Within 67175680 wz) (k : Pkt) (st : Nat) (pattern : Nat) (seed : B16) (s : State) (hm : Keeps wz s₀ s) : Keeps wz s₀ (patternSet k st pattern seed s) := by
  unfold patternSet
  repeat' first
    | (with_reducible refine Within.sub hW ?_; decide)
    | with_reducible assumption
    | (with_reducible intro _; try dsimp -zeta only)
    | with_reducible apply State.modStrm_keeps
    | with_reducible apply State.finish_keeps
    | with_reducible apply State.command_keeps

theorem execPatternSet_keeps (hW : Within 67175680 wz) (k : Pkt) (stream : B8) (pattern : B8) (seed : B16) (s : State) (hm : Keeps wz s₀ s) : ∀ z, execPatternSet k stream pattern seed s = .next z → Keeps wz s₀ z := by
  intro z ht
  unfold execPatternSet at ht
  injection ht with ht
  subst ht
  repeat' first
    | (with_reducible refine Within.sub hW ?_; decide)
    | with_reducible assumption
    | with_reducible apply patternSet_keeps

theorem State.endLoading_keeps (hW : Within 1073741824 wz) (s : State) (k : Pkt) (o : Nat) (m : Nat) (hm : Keeps wz s₀ s) : Keeps wz s₀ (State.endLoading s k o m) := by
  unfold State.endLoading
  repeat' first
    | (with_reducible refine Within.sub hW ?_; decide)
    | with_reducible assumption
    | with_reducible apply State.modRunning_keeps
    | split

theorem modelLoad_keeps (hW : Within 35500721408 wz) (k : Pkt) (o : Nat) (m : Nat) (place : Nat) (len : Nat) (src : B64) (err : Bool) (s : State) (hm : Keeps wz s₀ s) : Keeps wz s₀ (modelLoad k o m place len src err s) := by
  unfold modelLoad
  repeat' first
    | (with_reducible refine Within.sub hW ?_; decide)
    | with_reducible assumption
    | (with_reducible intro _; try dsimp -zeta only)
    | with_reducible apply State.finish_keeps
    | with_reducible apply State.reloadModel_keeps
    | with_reducible apply State.command_keeps
    | with_reducible apply State.hostUsed_keeps
    | with_reducible apply State.writeModel_keeps
    | with_reducible apply State.endLoading_keeps
    | (extract_lets +onlyGivenNames x
       first
         | (with_reducible refine mem_cut (p := Keeps wz s₀ x) ?_ ?_ <;> [subst x; (clear_value x; intro _)])
         | (with_reducible refine mem_cut (p := Keeps wz s₀ x.2) ?_ ?_ <;> [subst x; (clear_value x; intro _)])
         | (have hx := fun y => x y; clear hx; subst x; try dsimp -zeta only)
         | clear_value x
         | subst x)
    | split

theorem execModelLoad_keeps (hW : Within 35500721408 wz) (k : Pkt) (owner : B8) (model : B8) (where_ : B8) (length : B32) (src : B64) (memError : Bool) (s : State) (hm : Keeps wz s₀ s) : ∀ z, execModelLoad k owner model where_ length src memError s = .next z → Keeps wz s₀ z := by
  intro z ht
  unfold execModelLoad at ht
  injection ht with ht
  subst ht
  repeat' first
    | (with_reducible refine Within.sub hW ?_; decide)
    | with_reducible assumption
    | with_reducible apply modelLoad_keeps

theorem entityKey_keeps (hW : Within 1140851968 wz) (k : Pkt) (o : Nat) (t : Nat) (key : B16) (s : State) (hm : Keeps wz s₀ s) : Keeps wz s₀ (entityKey k o t key s) := by
  unfold entityKey
  repeat' first
    | (with_reducible refine Within.sub hW ?_; decide)
    | with_reducible assumption
    | (with_reducible intro _; try dsimp -zeta only)
    | with_reducible apply State.finish_keeps
    | with_reducible apply State.modRunning_keeps
    | with_reducible apply State.command_keeps
    | (extract_lets +onlyGivenNames x
       first
         | (with_reducible refine mem_cut (p := Keeps wz s₀ x) ?_ ?_ <;> [subst x; (clear_value x; intro _)])
         | (with_reducible refine mem_cut (p := Keeps wz s₀ x.2) ?_ ?_ <;> [subst x; (clear_value x; intro _)])
         | (have hx := fun y => x y; clear hx; subst x; try dsimp -zeta only)
         | clear_value x
         | subst x)

theorem execEntityKey_keeps (hW : Within 1140851968 wz) (k : Pkt) (owner : B8) (table : B8) (key : B16) (s : State) (hm : Keeps wz s₀ s) : ∀ z, execEntityKey k owner table key s = .next z → Keeps wz s₀ z := by
  intro z ht
  unfold execEntityKey at ht
  injection ht with ht
  subst ht
  repeat' first
    | (with_reducible refine Within.sub hW ?_; decide)
    | with_reducible assumption
    | with_reducible apply entityKey_keeps

theorem loadPlaced_keeps (hW : Within 69863560512 wz) (k : Pkt) (r : LoadReq) (lists : Option Lists) (s : State) (hm : Keeps wz s₀ s) : Keeps wz s₀ (loadPlaced k r lists s) := by
  unfold loadPlaced
  repeat' first
    | (with_reducible refine Within.sub hW ?_; decide)
    | with_reducible assumption
    | (with_reducible intro _; try dsimp -zeta only)
    | with_reducible apply State.command_keeps
    | with_reducible apply State.load_keeps

theorem execLoadPlaced_keeps (hW : Within 69863560512 wz) (k : Pkt) (slot : B8) (replicas : B8) (flags : B8) (owner : B8) (dest : B64) (binds : List Bind) (lists : Option Lists) (s : State) (hm : Keeps wz s₀ s) : ∀ z, execLoadPlaced k slot replicas flags owner dest binds lists s = .next z → Keeps wz s₀ z := by
  intro z ht
  unfold execLoadPlaced at ht
  injection ht with ht
  subst ht
  repeat' first
    | (with_reducible refine Within.sub hW ?_; decide)
    | with_reducible assumption
    | with_reducible apply loadPlaced_keeps

theorem placeVariantPlaced_keeps (hW : Within 1140851968 wz) (k : Pkt) (o : Nat) (n : Nat) (lists : Option Lists) (s : State) (hm : Keeps wz s₀ s) : Keeps wz s₀ (placeVariantPlaced k o n lists s) := by
  unfold placeVariantPlaced
  repeat' first
    | (with_reducible refine Within.sub hW ?_; decide)
    | with_reducible assumption
    | (with_reducible intro _; try dsimp -zeta only)
    | with_reducible apply State.command_keeps
    | with_reducible apply State.placeVariantOn_keeps

theorem execPlaceVariantPlaced_keeps (hW : Within 1140851968 wz) (k : Pkt) (owner : B8) (slot : B8) (lists : Option Lists) (s : State) (hm : Keeps wz s₀ s) : ∀ z, execPlaceVariantPlaced k owner slot lists s = .next z → Keeps wz s₀ z := by
  intro z ht
  unfold execPlaceVariantPlaced at ht
  injection ht with ht
  subst ht
  repeat' first
    | (with_reducible refine Within.sub hW ?_; decide)
    | with_reducible assumption
    | with_reducible apply placeVariantPlaced_keeps

theorem slotPatch_keeps (hW : Within 67372288 wz) (k : Pkt) (o : Nat) (entries : Option (List PatchEntry)) (s : State) (hm : Keeps wz s₀ s) : Keeps wz s₀ (slotPatch k o entries s) := by
  unfold slotPatch
  repeat' first
    | (with_reducible refine Within.sub hW ?_; decide)
    | with_reducible assumption
    | (with_reducible apply foldl_keeps; intros; try dsimp -zeta only)
    | (with_reducible intro _; try dsimp -zeta only)
    | with_reducible apply State.modRouter_keeps
    | with_reducible apply State.finish_keeps
    | with_reducible apply State.command_keeps
    | (extract_lets +onlyGivenNames x
       first
         | (with_reducible refine mem_cut (p := Keeps wz s₀ x) ?_ ?_ <;> [subst x; (clear_value x; intro _)])
         | (with_reducible refine mem_cut (p := Keeps wz s₀ x.2) ?_ ?_ <;> [subst x; (clear_value x; intro _)])
         | (have hx := fun y => x y; clear hx; subst x; try dsimp -zeta only)
         | clear_value x
         | subst x)

theorem execSlotPatch_keeps (hW : Within 67372288 wz) (k : Pkt) (owner : B8) (entries : Option (List PatchEntry)) (s : State) (hm : Keeps wz s₀ s) : ∀ z, execSlotPatch k owner entries s = .next z → Keeps wz s₀ z := by
  intro z ht
  unfold execSlotPatch at ht
  injection ht with ht
  subst ht
  repeat' first
    | (with_reducible refine Within.sub hW ?_; decide)
    | with_reducible assumption
    | with_reducible apply slotPatch_keeps

theorem i3cRaw_keeps (hW : Within 67126528 wz) (k : Pkt) (h : Nat) (address : Nat) (wlen : Nat) (rlen : Nat) (data : Bytes) (reply : Option Bytes) (s : State) (hm : Keeps wz s₀ s) : Keeps wz s₀ (i3cRaw k h address wlen rlen data reply s) := by
  unfold i3cRaw
  repeat' first
    | (with_reducible refine Within.sub hW ?_; decide)
    | with_reducible assumption
    | (with_reducible intro _; try dsimp -zeta only)
    | with_reducible apply State.modHead_keeps
    | with_reducible apply State.finish_keeps
    | with_reducible apply State.command_keeps
    | (extract_lets +onlyGivenNames x
       first
         | (with_reducible refine mem_cut (p := Keeps wz s₀ x) ?_ ?_ <;> [subst x; (clear_value x; intro _)])
         | (with_reducible refine mem_cut (p := Keeps wz s₀ x.2) ?_ ?_ <;> [subst x; (clear_value x; intro _)])
         | (have hx := fun y => x y; clear hx; subst x; try dsimp -zeta only)
         | clear_value x
         | subst x)
    | split

theorem execI3cRaw_keeps (hW : Within 67126528 wz) (k : Pkt) (head : B8) (address : B8) (wlen : B8) (rlen : B8) (data : Bytes) (reply : Option Bytes) (s : State) (hm : Keeps wz s₀ s) : ∀ z, execI3cRaw k head address wlen rlen data reply s = .next z → Keeps wz s₀ z := by
  intro z ht
  unfold execI3cRaw at ht
  injection ht with ht
  subst ht
  repeat' first
    | (with_reducible refine Within.sub hW ?_; decide)
    | with_reducible assumption
    | with_reducible apply i3cRaw_keeps

theorem dvfsSet_keeps (hW : Within 68786656576 wz) (k : Pkt) (f : Nat) (point : Nat) (s : State) (hm : Keeps wz s₀ s) : Keeps wz s₀ (dvfsSet k f point s) := by
  unfold dvfsSet
  repeat' first
    | (with_reducible refine Within.sub hW ?_; decide)
    | with_reducible assumption
    | (with_reducible intro _; try dsimp -zeta only)
    | with_reducible apply State.modField_keeps
    | with_reducible apply State.finish_keeps
    | with_reducible apply State.retarget_keeps
    | with_reducible apply State.command_keeps
    | (extract_lets +onlyGivenNames x
       first
         | (with_reducible refine mem_cut (p := Keeps wz s₀ x) ?_ ?_ <;> [subst x; (clear_value x; intro _)])
         | (with_reducible refine mem_cut (p := Keeps wz s₀ x.2) ?_ ?_ <;> [subst x; (clear_value x; intro _)])
         | (have hx := fun y => x y; clear hx; subst x; try dsimp -zeta only)
         | clear_value x
         | subst x)
    | split

theorem execDvfsSet_keeps (hW : Within 68786656576 wz) (k : Pkt) (field : B8) (point : B8) (s : State) (hm : Keeps wz s₀ s) : ∀ z, execDvfsSet k field point s = .next z → Keeps wz s₀ z := by
  intro z ht
  unfold execDvfsSet at ht
  injection ht with ht
  subst ht
  repeat' first
    | (with_reducible refine Within.sub hW ?_; decide)
    | with_reducible assumption
    | with_reducible apply dvfsSet_keeps

theorem execFieldReset_keeps (hW : Within 87358657858 wz) (k : Pkt) (field : B8) (s : State) (hm : Keeps wz s₀ s) : ∀ z, execFieldReset k field s = .next z → Keeps wz s₀ z := by
  intro z ht
  unfold execFieldReset at ht
  injection ht with ht
  subst ht
  repeat' first
    | (with_reducible refine Within.sub hW ?_; decide)
    | with_reducible assumption
    | (with_reducible intro _; try dsimp -zeta only)
    | with_reducible apply State.finish_keeps
    | with_reducible apply State.fieldReset_keeps
    | with_reducible apply State.command_keeps

theorem execUnitReset_keeps (hW : Within 87358653698 wz) (k : Pkt) (site : B16) (s : State) (hm : Keeps wz s₀ s) : ∀ z, execUnitReset k site s = .next z → Keeps wz s₀ z := by
  intro z ht
  unfold execUnitReset at ht
  injection ht with ht
  subst ht
  repeat' first
    | (with_reducible refine Within.sub hW ?_; decide)
    | with_reducible assumption
    | (with_reducible intro _; try dsimp -zeta only)
    | with_reducible apply State.finish_keeps
    | with_reducible apply State.unitReset_keeps
    | with_reducible apply State.command_keeps
    | split

theorem ethRaw_keeps (hW : Within 171865801984 wz) (k : Pkt) (p : Nat) (len : Nat) (src : B64) (s : State) (hm : Keeps wz s₀ s) : Keeps wz s₀ (ethRaw k p len src s) := by
  unfold ethRaw
  repeat' first
    | (with_reducible refine Within.sub hW ?_; decide)
    | with_reducible assumption
    | (with_reducible intro _; try dsimp -zeta only)
    | with_reducible apply State.finish_keeps
    | with_reducible apply State.ethSend_keeps
    | with_reducible apply State.command_keeps
    | with_reducible apply State.hostUsed_keeps
    | split

theorem execEthRaw_keeps (hW : Within 171865801984 wz) (k : Pkt) (port : B8) (length : B16) (src : B64) (s : State) (hm : Keeps wz s₀ s) : ∀ z, execEthRaw k port length src s = .next z → Keeps wz s₀ z := by
  intro z ht
  unfold execEthRaw at ht
  injection ht with ht
  subst ht
  repeat' first
    | (with_reducible refine Within.sub hW ?_; decide)
    | with_reducible assumption
    | with_reducible apply ethRaw_keeps

theorem yallekAlign_keeps (hW : Within 68786586880 wz) (k : Pkt) (p : Nat) (b : Bytes) (s : State) (hm : Keeps wz s₀ s) : Keeps wz s₀ (yallekAlign k p b s) := by
  unfold yallekAlign
  repeat' first
    | (with_reducible refine Within.sub hW ?_; decide)
    | with_reducible assumption
    | (with_reducible intro _; try dsimp -zeta only)
    | with_reducible apply State.modYport_keeps
    | with_reducible apply State.alignReply_keeps
    | with_reducible apply State.command_keeps
    | (extract_lets +onlyGivenNames x
       first
         | (with_reducible refine mem_cut (p := Keeps wz s₀ x) ?_ ?_ <;> [subst x; (clear_value x; intro _)])
         | (with_reducible refine mem_cut (p := Keeps wz s₀ x.2) ?_ ?_ <;> [subst x; (clear_value x; intro _)])
         | (have hx := fun y => x y; clear hx; subst x; try dsimp -zeta only)
         | clear_value x
         | subst x)
    | split

theorem execYallekAlign_keeps (hW : Within 68786586880 wz) (k : Pkt) (port : B8) (record : Bytes) (s : State) (hm : Keeps wz s₀ s) : ∀ z, execYallekAlign k port record s = .next z → Keeps wz s₀ z := by
  intro z ht
  unfold execYallekAlign at ht
  injection ht with ht
  subst ht
  repeat' first
    | (with_reducible refine Within.sub hW ?_; decide)
    | with_reducible assumption
    | with_reducible apply yallekAlign_keeps

end Sys2Proof.Machine
end

