-- ==== Sys2Proof/Laws/State.lean ====
section
/-! SUPPORT. Laws of the sparse tables and of the accessors: what a write to one collection leaves unchanged, field by field. -/

namespace Sys2Proof

@[simp] theorem Tab.get_set_same {α : Type} (d v : α) (t : List (Nat × α)) (i : Nat) :
    Tab.get d (Tab.set t i v) i = v := by
  induction t with
  | nil => simp [Tab.set, Tab.get]
  | cons e t ih =>
    obtain ⟨j, w⟩ := e
    by_cases h : j = i
    · simp [Tab.set, Tab.get, h]
    · by_cases h2 : i < j
      · simp [Tab.set, Tab.get, h, h2]
      · simp [Tab.set, Tab.get, h, h2, ih]

theorem Tab.get_set_ne {α : Type} (d v : α) (t : List (Nat × α)) (i k : Nat) (hk : i ≠ k) :
    Tab.get d (Tab.set t i v) k = Tab.get d t k := by
  induction t with
  | nil => simp [Tab.set, Tab.get, hk]
  | cons e t ih =>
    obtain ⟨j, w⟩ := e
    by_cases h : j = i
    · subst h; simp [Tab.set, Tab.get, hk]
    · by_cases h2 : i < j
      · simp [Tab.set, Tab.get, h, h2, hk]
      · simp [Tab.set, Tab.get, h, h2, ih]

end Sys2Proof

namespace Sys2Proof.Machine

@[simp] theorem State.field_setField (s : State) (i : Nat) (v : FieldClk) : (s.setField i v).field i = v := Tab.get_set_same _ _ _ _
theorem State.field_setField_ne (s : State) (i k : Nat) (v : FieldClk) (h : i ≠ k) : (s.setField i v).field k = s.field k := Tab.get_set_ne _ _ _ _ _ h
@[simp] theorem State.modField_eq (s : State) (i : Nat) (f : FieldClk → FieldClk) : s.modField i f = s.setField i (f (s.field i)) := rfl
@[simp] theorem State.pending_setField (s : State) (i : Nat) (v : FieldClk) : (s.setField i v).pending = s.pending := rfl
@[simp] theorem State.freeCount_setField (s : State) (i : Nat) (v : FieldClk) : (s.setField i v).freeCount = s.freeCount := rfl
@[simp] theorem State.kcycles_setField (s : State) (i : Nat) (v : FieldClk) : (s.setField i v).kcycles = s.kcycles := rfl
@[simp] theorem State.part_setField (s : State) (i : Nat) (v : FieldClk) : (s.setField i v).part = s.part := rfl
@[simp] theorem State.boot_setField (s : State) (i : Nat) (v : FieldClk) : (s.setField i v).boot = s.boot := rfl
@[simp] theorem State.modes_setField (s : State) (i : Nat) (v : FieldClk) : (s.setField i v).modes = s.modes := rfl
@[simp] theorem State.supply_setField (s : State) (i : Nat) (v : FieldClk) : (s.setField i v).supply = s.supply := rfl
@[simp] theorem State.dtb_setField (s : State) (i : Nat) (v : FieldClk) : (s.setField i v).dtb = s.dtb := rfl
@[simp] theorem State.seqr_setField (s : State) (i : Nat) (v : FieldClk) : (s.setField i v).seqr = s.seqr := rfl
@[simp] theorem State.greg_setField (s : State) (i : Nat) (v : FieldClk) : (s.setField i v).greg = s.greg := rfl
@[simp] theorem State.cspi_setField (s : State) (i : Nat) (v : FieldClk) : (s.setField i v).cspi = s.cspi := rfl
@[simp] theorem State.cap_setField (s : State) (i : Nat) (v : FieldClk) : (s.setField i v).cap = s.cap := rfl
@[simp] theorem State.lostClocks_setField (s : State) (i : Nat) (v : FieldClk) : (s.setField i v).lostClocks = s.lostClocks := rfl
@[simp] theorem State.heads_setField (s : State) (i : Nat) (v : FieldClk) : (s.setField i v).heads = s.heads := rfl
@[simp] theorem State.store_setField (s : State) (i : Nat) (v : FieldClk) : (s.setField i v).store = s.store := rfl
@[simp] theorem State.streams_setField (s : State) (i : Nat) (v : FieldClk) : (s.setField i v).streams = s.streams := rfl
@[simp] theorem State.units_setField (s : State) (i : Nat) (v : FieldClk) : (s.setField i v).units = s.units := rfl
@[simp] theorem State.routers_setField (s : State) (i : Nat) (v : FieldClk) : (s.setField i v).routers = s.routers := rfl
@[simp] theorem State.gates_setField (s : State) (i : Nat) (v : FieldClk) : (s.setField i v).gates = s.gates := rfl
@[simp] theorem State.groups_setField (s : State) (i : Nat) (v : FieldClk) : (s.setField i v).groups = s.groups := rfl
@[simp] theorem State.origins_setField (s : State) (i : Nat) (v : FieldClk) : (s.setField i v).origins = s.origins := rfl
@[simp] theorem State.edges_setField (s : State) (i : Nat) (v : FieldClk) : (s.setField i v).edges = s.edges := rfl
@[simp] theorem State.tails_setField (s : State) (i : Nat) (v : FieldClk) : (s.setField i v).tails = s.tails := rfl
@[simp] theorem State.arbs_setField (s : State) (i : Nat) (v : FieldClk) : (s.setField i v).arbs = s.arbs := rfl
@[simp] theorem State.queues_setField (s : State) (i : Nat) (v : FieldClk) : (s.setField i v).queues = s.queues := rfl
@[simp] theorem State.fns_setField (s : State) (i : Nat) (v : FieldClk) : (s.setField i v).fns = s.fns := rfl
@[simp] theorem State.locks_setField (s : State) (i : Nat) (v : FieldClk) : (s.setField i v).locks = s.locks := rfl
@[simp] theorem State.pools_setField (s : State) (i : Nat) (v : FieldClk) : (s.setField i v).pools = s.pools := rfl
@[simp] theorem State.slots_setField (s : State) (i : Nat) (v : FieldClk) : (s.setField i v).slots = s.slots := rfl
@[simp] theorem State.ctxs_setField (s : State) (i : Nat) (v : FieldClk) : (s.setField i v).ctxs = s.ctxs := rfl
@[simp] theorem State.epochs_setField (s : State) (i : Nat) (v : FieldClk) : (s.setField i v).epochs = s.epochs := rfl
@[simp] theorem State.hbmStacks_setField (s : State) (i : Nat) (v : FieldClk) : (s.setField i v).hbmStacks = s.hbmStacks := rfl
@[simp] theorem State.hbm_setField (s : State) (i : Nat) (v : FieldClk) : (s.setField i v).hbm = s.hbm := rfl
@[simp] theorem State.hostMem_setField (s : State) (i : Nat) (v : FieldClk) : (s.setField i v).hostMem = s.hostMem := rfl
@[simp] theorem State.hostIn_setField (s : State) (i : Nat) (v : FieldClk) : (s.setField i v).hostIn = s.hostIn := rfl
@[simp] theorem State.yports_setField (s : State) (i : Nat) (v : FieldClk) : (s.setField i v).yports = s.yports := rfl
@[simp] theorem State.eths_setField (s : State) (i : Nat) (v : FieldClk) : (s.setField i v).eths = s.eths := rfl
@[simp] theorem State.senders_setField (s : State) (i : Nat) (v : FieldClk) : (s.setField i v).senders = s.senders := rfl
@[simp] theorem State.eps_setField (s : State) (i : Nat) (v : FieldClk) : (s.setField i v).eps = s.eps := rfl
@[simp] theorem State.vfMap_setField (s : State) (i : Nat) (v : FieldClk) : (s.setField i v).vfMap = s.vfMap := rfl
@[simp] theorem State.vfEnable_setField (s : State) (i : Nat) (v : FieldClk) : (s.setField i v).vfEnable = s.vfEnable := rfl
@[simp] theorem State.head_of_setField (s : State) (i k : Nat) (v : FieldClk) : (s.setField i v).head k = s.head k := rfl
@[simp] theorem State.strm_of_setField (s : State) (i k : Nat) (v : FieldClk) : (s.setField i v).strm k = s.strm k := rfl
@[simp] theorem State.unit_of_setField (s : State) (i k : Nat) (v : FieldClk) : (s.setField i v).unit k = s.unit k := rfl
@[simp] theorem State.router_of_setField (s : State) (i k : Nat) (v : FieldClk) : (s.setField i v).router k = s.router k := rfl
@[simp] theorem State.gate_of_setField (s : State) (i k : Nat) (v : FieldClk) : (s.setField i v).gate k = s.gate k := rfl
@[simp] theorem State.group_of_setField (s : State) (i k : Nat) (v : FieldClk) : (s.setField i v).group k = s.group k := rfl
@[simp] theorem State.origin_of_setField (s : State) (i k : Nat) (v : FieldClk) : (s.setField i v).origin k = s.origin k := rfl
@[simp] theorem State.edgeEng_of_setField (s : State) (i k : Nat) (v : FieldClk) : (s.setField i v).edgeEng k = s.edgeEng k := rfl
@[simp] theorem State.tailEng_of_setField (s : State) (i k : Nat) (v : FieldClk) : (s.setField i v).tailEng k = s.tailEng k := rfl
@[simp] theorem State.arb_of_setField (s : State) (i k : Nat) (v : FieldClk) : (s.setField i v).arb k = s.arb k := rfl
@[simp] theorem State.queue_of_setField (s : State) (i k : Nat) (v : FieldClk) : (s.setField i v).queue k = s.queue k := rfl
@[simp] theorem State.fn_of_setField (s : State) (i k : Nat) (v : FieldClk) : (s.setField i v).fn k = s.fn k := rfl
@[simp] theorem State.lock_of_setField (s : State) (i k : Nat) (v : FieldClk) : (s.setField i v).lock k = s.lock k := rfl
@[simp] theorem State.pool_of_setField (s : State) (i k : Nat) (v : FieldClk) : (s.setField i v).pool k = s.pool k := rfl
@[simp] theorem State.slot_of_setField (s : State) (i k : Nat) (v : FieldClk) : (s.setField i v).slot k = s.slot k := rfl
@[simp] theorem State.ctx_of_setField (s : State) (i k : Nat) (v : FieldClk) : (s.setField i v).ctx k = s.ctx k := rfl
@[simp] theorem State.epoch_of_setField (s : State) (i k : Nat) (v : FieldClk) : (s.setField i v).epoch k = s.epoch k := rfl
@[simp] theorem State.stackOf_of_setField (s : State) (i k : Nat) (v : FieldClk) : (s.setField i v).stackOf k = s.stackOf k := rfl
@[simp] theorem State.yport_of_setField (s : State) (i k : Nat) (v : FieldClk) : (s.setField i v).yport k = s.yport k := rfl
@[simp] theorem State.eth_of_setField (s : State) (i k : Nat) (v : FieldClk) : (s.setField i v).eth k = s.eth k := rfl
@[simp] theorem State.sender_of_setField (s : State) (i k : Nat) (v : FieldClk) : (s.setField i v).sender k = s.sender k := rfl
@[simp] theorem State.ep_of_setField (s : State) (i k : Nat) (v : FieldClk) : (s.setField i v).ep k = s.ep k := rfl

@[simp] theorem State.head_setHead (s : State) (i : Nat) (v : Head) : (s.setHead i v).head i = v := Tab.get_set_same _ _ _ _
theorem State.head_setHead_ne (s : State) (i k : Nat) (v : Head) (h : i ≠ k) : (s.setHead i v).head k = s.head k := Tab.get_set_ne _ _ _ _ _ h
@[simp] theorem State.modHead_eq (s : State) (i : Nat) (f : Head → Head) : s.modHead i f = s.setHead i (f (s.head i)) := rfl
@[simp] theorem State.pending_setHead (s : State) (i : Nat) (v : Head) : (s.setHead i v).pending = s.pending := rfl
@[simp] theorem State.freeCount_setHead (s : State) (i : Nat) (v : Head) : (s.setHead i v).freeCount = s.freeCount := rfl
@[simp] theorem State.kcycles_setHead (s : State) (i : Nat) (v : Head) : (s.setHead i v).kcycles = s.kcycles := rfl
@[simp] theorem State.part_setHead (s : State) (i : Nat) (v : Head) : (s.setHead i v).part = s.part := rfl
@[simp] theorem State.boot_setHead (s : State) (i : Nat) (v : Head) : (s.setHead i v).boot = s.boot := rfl
@[simp] theorem State.modes_setHead (s : State) (i : Nat) (v : Head) : (s.setHead i v).modes = s.modes := rfl
@[simp] theorem State.supply_setHead (s : State) (i : Nat) (v : Head) : (s.setHead i v).supply = s.supply := rfl
@[simp] theorem State.dtb_setHead (s : State) (i : Nat) (v : Head) : (s.setHead i v).dtb = s.dtb := rfl
@[simp] theorem State.seqr_setHead (s : State) (i : Nat) (v : Head) : (s.setHead i v).seqr = s.seqr := rfl
@[simp] theorem State.greg_setHead (s : State) (i : Nat) (v : Head) : (s.setHead i v).greg = s.greg := rfl
@[simp] theorem State.cspi_setHead (s : State) (i : Nat) (v : Head) : (s.setHead i v).cspi = s.cspi := rfl
@[simp] theorem State.cap_setHead (s : State) (i : Nat) (v : Head) : (s.setHead i v).cap = s.cap := rfl
@[simp] theorem State.fields_setHead (s : State) (i : Nat) (v : Head) : (s.setHead i v).fields = s.fields := rfl
@[simp] theorem State.lostClocks_setHead (s : State) (i : Nat) (v : Head) : (s.setHead i v).lostClocks = s.lostClocks := rfl
@[simp] theorem State.store_setHead (s : State) (i : Nat) (v : Head) : (s.setHead i v).store = s.store := rfl
@[simp] theorem State.streams_setHead (s : State) (i : Nat) (v : Head) : (s.setHead i v).streams = s.streams := rfl
@[simp] theorem State.units_setHead (s : State) (i : Nat) (v : Head) : (s.setHead i v).units = s.units := rfl
@[simp] theorem State.routers_setHead (s : State) (i : Nat) (v : Head) : (s.setHead i v).routers = s.routers := rfl
@[simp] theorem State.gates_setHead (s : State) (i : Nat) (v : Head) : (s.setHead i v).gates = s.gates := rfl
@[simp] theorem State.groups_setHead (s : State) (i : Nat) (v : Head) : (s.setHead i v).groups = s.groups := rfl
@[simp] theorem State.origins_setHead (s : State) (i : Nat) (v : Head) : (s.setHead i v).origins = s.origins := rfl
@[simp] theorem State.edges_setHead (s : State) (i : Nat) (v : Head) : (s.setHead i v).edges = s.edges := rfl
@[simp] theorem State.tails_setHead (s : State) (i : Nat) (v : Head) : (s.setHead i v).tails = s.tails := rfl
@[simp] theorem State.arbs_setHead (s : State) (i : Nat) (v : Head) : (s.setHead i v).arbs = s.arbs := rfl
@[simp] theorem State.queues_setHead (s : State) (i : Nat) (v : Head) : (s.setHead i v).queues = s.queues := rfl
@[simp] theorem State.fns_setHead (s : State) (i : Nat) (v : Head) : (s.setHead i v).fns = s.fns := rfl
@[simp] theorem State.locks_setHead (s : State) (i : Nat) (v : Head) : (s.setHead i v).locks = s.locks := rfl
@[simp] theorem State.pools_setHead (s : State) (i : Nat) (v : Head) : (s.setHead i v).pools = s.pools := rfl
@[simp] theorem State.slots_setHead (s : State) (i : Nat) (v : Head) : (s.setHead i v).slots = s.slots := rfl
@[simp] theorem State.ctxs_setHead (s : State) (i : Nat) (v : Head) : (s.setHead i v).ctxs = s.ctxs := rfl
@[simp] theorem State.epochs_setHead (s : State) (i : Nat) (v : Head) : (s.setHead i v).epochs = s.epochs := rfl
@[simp] theorem State.hbmStacks_setHead (s : State) (i : Nat) (v : Head) : (s.setHead i v).hbmStacks = s.hbmStacks := rfl
@[simp] theorem State.hbm_setHead (s : State) (i : Nat) (v : Head) : (s.setHead i v).hbm = s.hbm := rfl
@[simp] theorem State.hostMem_setHead (s : State) (i : Nat) (v : Head) : (s.setHead i v).hostMem = s.hostMem := rfl
@[simp] theorem State.hostIn_setHead (s : State) (i : Nat) (v : Head) : (s.setHead i v).hostIn = s.hostIn := rfl
@[simp] theorem State.yports_setHead (s : State) (i : Nat) (v : Head) : (s.setHead i v).yports = s.yports := rfl
@[simp] theorem State.eths_setHead (s : State) (i : Nat) (v : Head) : (s.setHead i v).eths = s.eths := rfl
@[simp] theorem State.senders_setHead (s : State) (i : Nat) (v : Head) : (s.setHead i v).senders = s.senders := rfl
@[simp] theorem State.eps_setHead (s : State) (i : Nat) (v : Head) : (s.setHead i v).eps = s.eps := rfl
@[simp] theorem State.vfMap_setHead (s : State) (i : Nat) (v : Head) : (s.setHead i v).vfMap = s.vfMap := rfl
@[simp] theorem State.vfEnable_setHead (s : State) (i : Nat) (v : Head) : (s.setHead i v).vfEnable = s.vfEnable := rfl
@[simp] theorem State.field_of_setHead (s : State) (i k : Nat) (v : Head) : (s.setHead i v).field k = s.field k := rfl
@[simp] theorem State.strm_of_setHead (s : State) (i k : Nat) (v : Head) : (s.setHead i v).strm k = s.strm k := rfl
@[simp] theorem State.unit_of_setHead (s : State) (i k : Nat) (v : Head) : (s.setHead i v).unit k = s.unit k := rfl
@[simp] theorem State.router_of_setHead (s : State) (i k : Nat) (v : Head) : (s.setHead i v).router k = s.router k := rfl
@[simp] theorem State.gate_of_setHead (s : State) (i k : Nat) (v : Head) : (s.setHead i v).gate k = s.gate k := rfl
@[simp] theorem State.group_of_setHead (s : State) (i k : Nat) (v : Head) : (s.setHead i v).group k = s.group k := rfl
@[simp] theorem State.origin_of_setHead (s : State) (i k : Nat) (v : Head) : (s.setHead i v).origin k = s.origin k := rfl
@[simp] theorem State.edgeEng_of_setHead (s : State) (i k : Nat) (v : Head) : (s.setHead i v).edgeEng k = s.edgeEng k := rfl
@[simp] theorem State.tailEng_of_setHead (s : State) (i k : Nat) (v : Head) : (s.setHead i v).tailEng k = s.tailEng k := rfl
@[simp] theorem State.arb_of_setHead (s : State) (i k : Nat) (v : Head) : (s.setHead i v).arb k = s.arb k := rfl
@[simp] theorem State.queue_of_setHead (s : State) (i k : Nat) (v : Head) : (s.setHead i v).queue k = s.queue k := rfl
@[simp] theorem State.fn_of_setHead (s : State) (i k : Nat) (v : Head) : (s.setHead i v).fn k = s.fn k := rfl
@[simp] theorem State.lock_of_setHead (s : State) (i k : Nat) (v : Head) : (s.setHead i v).lock k = s.lock k := rfl
@[simp] theorem State.pool_of_setHead (s : State) (i k : Nat) (v : Head) : (s.setHead i v).pool k = s.pool k := rfl
@[simp] theorem State.slot_of_setHead (s : State) (i k : Nat) (v : Head) : (s.setHead i v).slot k = s.slot k := rfl
@[simp] theorem State.ctx_of_setHead (s : State) (i k : Nat) (v : Head) : (s.setHead i v).ctx k = s.ctx k := rfl
@[simp] theorem State.epoch_of_setHead (s : State) (i k : Nat) (v : Head) : (s.setHead i v).epoch k = s.epoch k := rfl
@[simp] theorem State.stackOf_of_setHead (s : State) (i k : Nat) (v : Head) : (s.setHead i v).stackOf k = s.stackOf k := rfl
@[simp] theorem State.yport_of_setHead (s : State) (i k : Nat) (v : Head) : (s.setHead i v).yport k = s.yport k := rfl
@[simp] theorem State.eth_of_setHead (s : State) (i k : Nat) (v : Head) : (s.setHead i v).eth k = s.eth k := rfl
@[simp] theorem State.sender_of_setHead (s : State) (i k : Nat) (v : Head) : (s.setHead i v).sender k = s.sender k := rfl
@[simp] theorem State.ep_of_setHead (s : State) (i k : Nat) (v : Head) : (s.setHead i v).ep k = s.ep k := rfl

@[simp] theorem State.strm_setStrm (s : State) (i : Nat) (v : Strm) : (s.setStrm i v).strm i = v := Tab.get_set_same _ _ _ _
theorem State.strm_setStrm_ne (s : State) (i k : Nat) (v : Strm) (h : i ≠ k) : (s.setStrm i v).strm k = s.strm k := Tab.get_set_ne _ _ _ _ _ h
@[simp] theorem State.modStrm_eq (s : State) (i : Nat) (f : Strm → Strm) : s.modStrm i f = s.setStrm i (f (s.strm i)) := rfl
@[simp] theorem State.pending_setStrm (s : State) (i : Nat) (v : Strm) : (s.setStrm i v).pending = s.pending := rfl
@[simp] theorem State.freeCount_setStrm (s : State) (i : Nat) (v : Strm) : (s.setStrm i v).freeCount = s.freeCount := rfl
@[simp] theorem State.kcycles_setStrm (s : State) (i : Nat) (v : Strm) : (s.setStrm i v).kcycles = s.kcycles := rfl
@[simp] theorem State.part_setStrm (s : State) (i : Nat) (v : Strm) : (s.setStrm i v).part = s.part := rfl
@[simp] theorem State.boot_setStrm (s : State) (i : Nat) (v : Strm) : (s.setStrm i v).boot = s.boot := rfl
@[simp] theorem State.modes_setStrm (s : State) (i : Nat) (v : Strm) : (s.setStrm i v).modes = s.modes := rfl
@[simp] theorem State.supply_setStrm (s : State) (i : Nat) (v : Strm) : (s.setStrm i v).supply = s.supply := rfl
@[simp] theorem State.dtb_setStrm (s : State) (i : Nat) (v : Strm) : (s.setStrm i v).dtb = s.dtb := rfl
@[simp] theorem State.seqr_setStrm (s : State) (i : Nat) (v : Strm) : (s.setStrm i v).seqr = s.seqr := rfl
@[simp] theorem State.greg_setStrm (s : State) (i : Nat) (v : Strm) : (s.setStrm i v).greg = s.greg := rfl
@[simp] theorem State.cspi_setStrm (s : State) (i : Nat) (v : Strm) : (s.setStrm i v).cspi = s.cspi := rfl
@[simp] theorem State.cap_setStrm (s : State) (i : Nat) (v : Strm) : (s.setStrm i v).cap = s.cap := rfl
@[simp] theorem State.fields_setStrm (s : State) (i : Nat) (v : Strm) : (s.setStrm i v).fields = s.fields := rfl
@[simp] theorem State.lostClocks_setStrm (s : State) (i : Nat) (v : Strm) : (s.setStrm i v).lostClocks = s.lostClocks := rfl
@[simp] theorem State.heads_setStrm (s : State) (i : Nat) (v : Strm) : (s.setStrm i v).heads = s.heads := rfl
@[simp] theorem State.store_setStrm (s : State) (i : Nat) (v : Strm) : (s.setStrm i v).store = s.store := rfl
@[simp] theorem State.units_setStrm (s : State) (i : Nat) (v : Strm) : (s.setStrm i v).units = s.units := rfl
@[simp] theorem State.routers_setStrm (s : State) (i : Nat) (v : Strm) : (s.setStrm i v).routers = s.routers := rfl
@[simp] theorem State.gates_setStrm (s : State) (i : Nat) (v : Strm) : (s.setStrm i v).gates = s.gates := rfl
@[simp] theorem State.groups_setStrm (s : State) (i : Nat) (v : Strm) : (s.setStrm i v).groups = s.groups := rfl
@[simp] theorem State.origins_setStrm (s : State) (i : Nat) (v : Strm) : (s.setStrm i v).origins = s.origins := rfl
@[simp] theorem State.edges_setStrm (s : State) (i : Nat) (v : Strm) : (s.setStrm i v).edges = s.edges := rfl
@[simp] theorem State.tails_setStrm (s : State) (i : Nat) (v : Strm) : (s.setStrm i v).tails = s.tails := rfl
@[simp] theorem State.arbs_setStrm (s : State) (i : Nat) (v : Strm) : (s.setStrm i v).arbs = s.arbs := rfl
@[simp] theorem State.queues_setStrm (s : State) (i : Nat) (v : Strm) : (s.setStrm i v).queues = s.queues := rfl
@[simp] theorem State.fns_setStrm (s : State) (i : Nat) (v : Strm) : (s.setStrm i v).fns = s.fns := rfl
@[simp] theorem State.locks_setStrm (s : State) (i : Nat) (v : Strm) : (s.setStrm i v).locks = s.locks := rfl
@[simp] theorem State.pools_setStrm (s : State) (i : Nat) (v : Strm) : (s.setStrm i v).pools = s.pools := rfl
@[simp] theorem State.slots_setStrm (s : State) (i : Nat) (v : Strm) : (s.setStrm i v).slots = s.slots := rfl
@[simp] theorem State.ctxs_setStrm (s : State) (i : Nat) (v : Strm) : (s.setStrm i v).ctxs = s.ctxs := rfl
@[simp] theorem State.epochs_setStrm (s : State) (i : Nat) (v : Strm) : (s.setStrm i v).epochs = s.epochs := rfl
@[simp] theorem State.hbmStacks_setStrm (s : State) (i : Nat) (v : Strm) : (s.setStrm i v).hbmStacks = s.hbmStacks := rfl
@[simp] theorem State.hbm_setStrm (s : State) (i : Nat) (v : Strm) : (s.setStrm i v).hbm = s.hbm := rfl
@[simp] theorem State.hostMem_setStrm (s : State) (i : Nat) (v : Strm) : (s.setStrm i v).hostMem = s.hostMem := rfl
@[simp] theorem State.hostIn_setStrm (s : State) (i : Nat) (v : Strm) : (s.setStrm i v).hostIn = s.hostIn := rfl
@[simp] theorem State.yports_setStrm (s : State) (i : Nat) (v : Strm) : (s.setStrm i v).yports = s.yports := rfl
@[simp] theorem State.eths_setStrm (s : State) (i : Nat) (v : Strm) : (s.setStrm i v).eths = s.eths := rfl
@[simp] theorem State.senders_setStrm (s : State) (i : Nat) (v : Strm) : (s.setStrm i v).senders = s.senders := rfl
@[simp] theorem State.eps_setStrm (s : State) (i : Nat) (v : Strm) : (s.setStrm i v).eps = s.eps := rfl
@[simp] theorem State.vfMap_setStrm (s : State) (i : Nat) (v : Strm) : (s.setStrm i v).vfMap = s.vfMap := rfl
@[simp] theorem State.vfEnable_setStrm (s : State) (i : Nat) (v : Strm) : (s.setStrm i v).vfEnable = s.vfEnable := rfl
@[simp] theorem State.field_of_setStrm (s : State) (i k : Nat) (v : Strm) : (s.setStrm i v).field k = s.field k := rfl
@[simp] theorem State.head_of_setStrm (s : State) (i k : Nat) (v : Strm) : (s.setStrm i v).head k = s.head k := rfl
@[simp] theorem State.unit_of_setStrm (s : State) (i k : Nat) (v : Strm) : (s.setStrm i v).unit k = s.unit k := rfl
@[simp] theorem State.router_of_setStrm (s : State) (i k : Nat) (v : Strm) : (s.setStrm i v).router k = s.router k := rfl
@[simp] theorem State.gate_of_setStrm (s : State) (i k : Nat) (v : Strm) : (s.setStrm i v).gate k = s.gate k := rfl
@[simp] theorem State.group_of_setStrm (s : State) (i k : Nat) (v : Strm) : (s.setStrm i v).group k = s.group k := rfl
@[simp] theorem State.origin_of_setStrm (s : State) (i k : Nat) (v : Strm) : (s.setStrm i v).origin k = s.origin k := rfl
@[simp] theorem State.edgeEng_of_setStrm (s : State) (i k : Nat) (v : Strm) : (s.setStrm i v).edgeEng k = s.edgeEng k := rfl
@[simp] theorem State.tailEng_of_setStrm (s : State) (i k : Nat) (v : Strm) : (s.setStrm i v).tailEng k = s.tailEng k := rfl
@[simp] theorem State.arb_of_setStrm (s : State) (i k : Nat) (v : Strm) : (s.setStrm i v).arb k = s.arb k := rfl
@[simp] theorem State.queue_of_setStrm (s : State) (i k : Nat) (v : Strm) : (s.setStrm i v).queue k = s.queue k := rfl
@[simp] theorem State.fn_of_setStrm (s : State) (i k : Nat) (v : Strm) : (s.setStrm i v).fn k = s.fn k := rfl
@[simp] theorem State.lock_of_setStrm (s : State) (i k : Nat) (v : Strm) : (s.setStrm i v).lock k = s.lock k := rfl
@[simp] theorem State.pool_of_setStrm (s : State) (i k : Nat) (v : Strm) : (s.setStrm i v).pool k = s.pool k := rfl
@[simp] theorem State.slot_of_setStrm (s : State) (i k : Nat) (v : Strm) : (s.setStrm i v).slot k = s.slot k := rfl
@[simp] theorem State.ctx_of_setStrm (s : State) (i k : Nat) (v : Strm) : (s.setStrm i v).ctx k = s.ctx k := rfl
@[simp] theorem State.epoch_of_setStrm (s : State) (i k : Nat) (v : Strm) : (s.setStrm i v).epoch k = s.epoch k := rfl
@[simp] theorem State.stackOf_of_setStrm (s : State) (i k : Nat) (v : Strm) : (s.setStrm i v).stackOf k = s.stackOf k := rfl
@[simp] theorem State.yport_of_setStrm (s : State) (i k : Nat) (v : Strm) : (s.setStrm i v).yport k = s.yport k := rfl
@[simp] theorem State.eth_of_setStrm (s : State) (i k : Nat) (v : Strm) : (s.setStrm i v).eth k = s.eth k := rfl
@[simp] theorem State.sender_of_setStrm (s : State) (i k : Nat) (v : Strm) : (s.setStrm i v).sender k = s.sender k := rfl
@[simp] theorem State.ep_of_setStrm (s : State) (i k : Nat) (v : Strm) : (s.setStrm i v).ep k = s.ep k := rfl

@[simp] theorem State.unit_setUnit (s : State) (i : Nat) (v : Unit) : (s.setUnit i v).unit i = v := Tab.get_set_same _ _ _ _
theorem State.unit_setUnit_ne (s : State) (i k : Nat) (v : Unit) (h : i ≠ k) : (s.setUnit i v).unit k = s.unit k := Tab.get_set_ne _ _ _ _ _ h
@[simp] theorem State.modUnit_eq (s : State) (i : Nat) (f : Unit → Unit) : s.modUnit i f = s.setUnit i (f (s.unit i)) := rfl
@[simp] theorem State.pending_setUnit (s : State) (i : Nat) (v : Unit) : (s.setUnit i v).pending = s.pending := rfl
@[simp] theorem State.freeCount_setUnit (s : State) (i : Nat) (v : Unit) : (s.setUnit i v).freeCount = s.freeCount := rfl
@[simp] theorem State.kcycles_setUnit (s : State) (i : Nat) (v : Unit) : (s.setUnit i v).kcycles = s.kcycles := rfl
@[simp] theorem State.part_setUnit (s : State) (i : Nat) (v : Unit) : (s.setUnit i v).part = s.part := rfl
@[simp] theorem State.boot_setUnit (s : State) (i : Nat) (v : Unit) : (s.setUnit i v).boot = s.boot := rfl
@[simp] theorem State.modes_setUnit (s : State) (i : Nat) (v : Unit) : (s.setUnit i v).modes = s.modes := rfl
@[simp] theorem State.supply_setUnit (s : State) (i : Nat) (v : Unit) : (s.setUnit i v).supply = s.supply := rfl
@[simp] theorem State.dtb_setUnit (s : State) (i : Nat) (v : Unit) : (s.setUnit i v).dtb = s.dtb := rfl
@[simp] theorem State.seqr_setUnit (s : State) (i : Nat) (v : Unit) : (s.setUnit i v).seqr = s.seqr := rfl
@[simp] theorem State.greg_setUnit (s : State) (i : Nat) (v : Unit) : (s.setUnit i v).greg = s.greg := rfl
@[simp] theorem State.cspi_setUnit (s : State) (i : Nat) (v : Unit) : (s.setUnit i v).cspi = s.cspi := rfl
@[simp] theorem State.cap_setUnit (s : State) (i : Nat) (v : Unit) : (s.setUnit i v).cap = s.cap := rfl
@[simp] theorem State.fields_setUnit (s : State) (i : Nat) (v : Unit) : (s.setUnit i v).fields = s.fields := rfl
@[simp] theorem State.lostClocks_setUnit (s : State) (i : Nat) (v : Unit) : (s.setUnit i v).lostClocks = s.lostClocks := rfl
@[simp] theorem State.heads_setUnit (s : State) (i : Nat) (v : Unit) : (s.setUnit i v).heads = s.heads := rfl
@[simp] theorem State.store_setUnit (s : State) (i : Nat) (v : Unit) : (s.setUnit i v).store = s.store := rfl
@[simp] theorem State.streams_setUnit (s : State) (i : Nat) (v : Unit) : (s.setUnit i v).streams = s.streams := rfl
@[simp] theorem State.routers_setUnit (s : State) (i : Nat) (v : Unit) : (s.setUnit i v).routers = s.routers := rfl
@[simp] theorem State.gates_setUnit (s : State) (i : Nat) (v : Unit) : (s.setUnit i v).gates = s.gates := rfl
@[simp] theorem State.groups_setUnit (s : State) (i : Nat) (v : Unit) : (s.setUnit i v).groups = s.groups := rfl
@[simp] theorem State.origins_setUnit (s : State) (i : Nat) (v : Unit) : (s.setUnit i v).origins = s.origins := rfl
@[simp] theorem State.edges_setUnit (s : State) (i : Nat) (v : Unit) : (s.setUnit i v).edges = s.edges := rfl
@[simp] theorem State.tails_setUnit (s : State) (i : Nat) (v : Unit) : (s.setUnit i v).tails = s.tails := rfl
@[simp] theorem State.arbs_setUnit (s : State) (i : Nat) (v : Unit) : (s.setUnit i v).arbs = s.arbs := rfl
@[simp] theorem State.queues_setUnit (s : State) (i : Nat) (v : Unit) : (s.setUnit i v).queues = s.queues := rfl
@[simp] theorem State.fns_setUnit (s : State) (i : Nat) (v : Unit) : (s.setUnit i v).fns = s.fns := rfl
@[simp] theorem State.locks_setUnit (s : State) (i : Nat) (v : Unit) : (s.setUnit i v).locks = s.locks := rfl
@[simp] theorem State.pools_setUnit (s : State) (i : Nat) (v : Unit) : (s.setUnit i v).pools = s.pools := rfl
@[simp] theorem State.slots_setUnit (s : State) (i : Nat) (v : Unit) : (s.setUnit i v).slots = s.slots := rfl
@[simp] theorem State.ctxs_setUnit (s : State) (i : Nat) (v : Unit) : (s.setUnit i v).ctxs = s.ctxs := rfl
@[simp] theorem State.epochs_setUnit (s : State) (i : Nat) (v : Unit) : (s.setUnit i v).epochs = s.epochs := rfl
@[simp] theorem State.hbmStacks_setUnit (s : State) (i : Nat) (v : Unit) : (s.setUnit i v).hbmStacks = s.hbmStacks := rfl
@[simp] theorem State.hbm_setUnit (s : State) (i : Nat) (v : Unit) : (s.setUnit i v).hbm = s.hbm := rfl
@[simp] theorem State.hostMem_setUnit (s : State) (i : Nat) (v : Unit) : (s.setUnit i v).hostMem = s.hostMem := rfl
@[simp] theorem State.hostIn_setUnit (s : State) (i : Nat) (v : Unit) : (s.setUnit i v).hostIn = s.hostIn := rfl
@[simp] theorem State.yports_setUnit (s : State) (i : Nat) (v : Unit) : (s.setUnit i v).yports = s.yports := rfl
@[simp] theorem State.eths_setUnit (s : State) (i : Nat) (v : Unit) : (s.setUnit i v).eths = s.eths := rfl
@[simp] theorem State.senders_setUnit (s : State) (i : Nat) (v : Unit) : (s.setUnit i v).senders = s.senders := rfl
@[simp] theorem State.eps_setUnit (s : State) (i : Nat) (v : Unit) : (s.setUnit i v).eps = s.eps := rfl
@[simp] theorem State.vfMap_setUnit (s : State) (i : Nat) (v : Unit) : (s.setUnit i v).vfMap = s.vfMap := rfl
@[simp] theorem State.vfEnable_setUnit (s : State) (i : Nat) (v : Unit) : (s.setUnit i v).vfEnable = s.vfEnable := rfl
@[simp] theorem State.field_of_setUnit (s : State) (i k : Nat) (v : Unit) : (s.setUnit i v).field k = s.field k := rfl
@[simp] theorem State.head_of_setUnit (s : State) (i k : Nat) (v : Unit) : (s.setUnit i v).head k = s.head k := rfl
@[simp] theorem State.strm_of_setUnit (s : State) (i k : Nat) (v : Unit) : (s.setUnit i v).strm k = s.strm k := rfl
@[simp] theorem State.router_of_setUnit (s : State) (i k : Nat) (v : Unit) : (s.setUnit i v).router k = s.router k := rfl
@[simp] theorem State.gate_of_setUnit (s : State) (i k : Nat) (v : Unit) : (s.setUnit i v).gate k = s.gate k := rfl
@[simp] theorem State.group_of_setUnit (s : State) (i k : Nat) (v : Unit) : (s.setUnit i v).group k = s.group k := rfl
@[simp] theorem State.origin_of_setUnit (s : State) (i k : Nat) (v : Unit) : (s.setUnit i v).origin k = s.origin k := rfl
@[simp] theorem State.edgeEng_of_setUnit (s : State) (i k : Nat) (v : Unit) : (s.setUnit i v).edgeEng k = s.edgeEng k := rfl
@[simp] theorem State.tailEng_of_setUnit (s : State) (i k : Nat) (v : Unit) : (s.setUnit i v).tailEng k = s.tailEng k := rfl
@[simp] theorem State.arb_of_setUnit (s : State) (i k : Nat) (v : Unit) : (s.setUnit i v).arb k = s.arb k := rfl
@[simp] theorem State.queue_of_setUnit (s : State) (i k : Nat) (v : Unit) : (s.setUnit i v).queue k = s.queue k := rfl
@[simp] theorem State.fn_of_setUnit (s : State) (i k : Nat) (v : Unit) : (s.setUnit i v).fn k = s.fn k := rfl
@[simp] theorem State.lock_of_setUnit (s : State) (i k : Nat) (v : Unit) : (s.setUnit i v).lock k = s.lock k := rfl
@[simp] theorem State.pool_of_setUnit (s : State) (i k : Nat) (v : Unit) : (s.setUnit i v).pool k = s.pool k := rfl
@[simp] theorem State.slot_of_setUnit (s : State) (i k : Nat) (v : Unit) : (s.setUnit i v).slot k = s.slot k := rfl
@[simp] theorem State.ctx_of_setUnit (s : State) (i k : Nat) (v : Unit) : (s.setUnit i v).ctx k = s.ctx k := rfl
@[simp] theorem State.epoch_of_setUnit (s : State) (i k : Nat) (v : Unit) : (s.setUnit i v).epoch k = s.epoch k := rfl
@[simp] theorem State.stackOf_of_setUnit (s : State) (i k : Nat) (v : Unit) : (s.setUnit i v).stackOf k = s.stackOf k := rfl
@[simp] theorem State.yport_of_setUnit (s : State) (i k : Nat) (v : Unit) : (s.setUnit i v).yport k = s.yport k := rfl
@[simp] theorem State.eth_of_setUnit (s : State) (i k : Nat) (v : Unit) : (s.setUnit i v).eth k = s.eth k := rfl
@[simp] theorem State.sender_of_setUnit (s : State) (i k : Nat) (v : Unit) : (s.setUnit i v).sender k = s.sender k := rfl
@[simp] theorem State.ep_of_setUnit (s : State) (i k : Nat) (v : Unit) : (s.setUnit i v).ep k = s.ep k := rfl

@[simp] theorem State.router_setRouter (s : State) (i : Nat) (v : Router) : (s.setRouter i v).router i = v := Tab.get_set_same _ _ _ _
theorem State.router_setRouter_ne (s : State) (i k : Nat) (v : Router) (h : i ≠ k) : (s.setRouter i v).router k = s.router k := Tab.get_set_ne _ _ _ _ _ h
@[simp] theorem State.modRouter_eq (s : State) (i : Nat) (f : Router → Router) : s.modRouter i f = s.setRouter i (f (s.router i)) := rfl
@[simp] theorem State.pending_setRouter (s : State) (i : Nat) (v : Router) : (s.setRouter i v).pending = s.pending := rfl
@[simp] theorem State.freeCount_setRouter (s : State) (i : Nat) (v : Router) : (s.setRouter i v).freeCount = s.freeCount := rfl
@[simp] theorem State.kcycles_setRouter (s : State) (i : Nat) (v : Router) : (s.setRouter i v).kcycles = s.kcycles := rfl
@[simp] theorem State.part_setRouter (s : State) (i : Nat) (v : Router) : (s.setRouter i v).part = s.part := rfl
@[simp] theorem State.boot_setRouter (s : State) (i : Nat) (v : Router) : (s.setRouter i v).boot = s.boot := rfl
@[simp] theorem State.modes_setRouter (s : State) (i : Nat) (v : Router) : (s.setRouter i v).modes = s.modes := rfl
@[simp] theorem State.supply_setRouter (s : State) (i : Nat) (v : Router) : (s.setRouter i v).supply = s.supply := rfl
@[simp] theorem State.dtb_setRouter (s : State) (i : Nat) (v : Router) : (s.setRouter i v).dtb = s.dtb := rfl
@[simp] theorem State.seqr_setRouter (s : State) (i : Nat) (v : Router) : (s.setRouter i v).seqr = s.seqr := rfl
@[simp] theorem State.greg_setRouter (s : State) (i : Nat) (v : Router) : (s.setRouter i v).greg = s.greg := rfl
@[simp] theorem State.cspi_setRouter (s : State) (i : Nat) (v : Router) : (s.setRouter i v).cspi = s.cspi := rfl
@[simp] theorem State.cap_setRouter (s : State) (i : Nat) (v : Router) : (s.setRouter i v).cap = s.cap := rfl
@[simp] theorem State.fields_setRouter (s : State) (i : Nat) (v : Router) : (s.setRouter i v).fields = s.fields := rfl
@[simp] theorem State.lostClocks_setRouter (s : State) (i : Nat) (v : Router) : (s.setRouter i v).lostClocks = s.lostClocks := rfl
@[simp] theorem State.heads_setRouter (s : State) (i : Nat) (v : Router) : (s.setRouter i v).heads = s.heads := rfl
@[simp] theorem State.store_setRouter (s : State) (i : Nat) (v : Router) : (s.setRouter i v).store = s.store := rfl
@[simp] theorem State.streams_setRouter (s : State) (i : Nat) (v : Router) : (s.setRouter i v).streams = s.streams := rfl
@[simp] theorem State.units_setRouter (s : State) (i : Nat) (v : Router) : (s.setRouter i v).units = s.units := rfl
@[simp] theorem State.gates_setRouter (s : State) (i : Nat) (v : Router) : (s.setRouter i v).gates = s.gates := rfl
@[simp] theorem State.groups_setRouter (s : State) (i : Nat) (v : Router) : (s.setRouter i v).groups = s.groups := rfl
@[simp] theorem State.origins_setRouter (s : State) (i : Nat) (v : Router) : (s.setRouter i v).origins = s.origins := rfl
@[simp] theorem State.edges_setRouter (s : State) (i : Nat) (v : Router) : (s.setRouter i v).edges = s.edges := rfl
@[simp] theorem State.tails_setRouter (s : State) (i : Nat) (v : Router) : (s.setRouter i v).tails = s.tails := rfl
@[simp] theorem State.arbs_setRouter (s : State) (i : Nat) (v : Router) : (s.setRouter i v).arbs = s.arbs := rfl
@[simp] theorem State.queues_setRouter (s : State) (i : Nat) (v : Router) : (s.setRouter i v).queues = s.queues := rfl
@[simp] theorem State.fns_setRouter (s : State) (i : Nat) (v : Router) : (s.setRouter i v).fns = s.fns := rfl
@[simp] theorem State.locks_setRouter (s : State) (i : Nat) (v : Router) : (s.setRouter i v).locks = s.locks := rfl
@[simp] theorem State.pools_setRouter (s : State) (i : Nat) (v : Router) : (s.setRouter i v).pools = s.pools := rfl
@[simp] theorem State.slots_setRouter (s : State) (i : Nat) (v : Router) : (s.setRouter i v).slots = s.slots := rfl
@[simp] theorem State.ctxs_setRouter (s : State) (i : Nat) (v : Router) : (s.setRouter i v).ctxs = s.ctxs := rfl
@[simp] theorem State.epochs_setRouter (s : State) (i : Nat) (v : Router) : (s.setRouter i v).epochs = s.epochs := rfl
@[simp] theorem State.hbmStacks_setRouter (s : State) (i : Nat) (v : Router) : (s.setRouter i v).hbmStacks = s.hbmStacks := rfl
@[simp] theorem State.hbm_setRouter (s : State) (i : Nat) (v : Router) : (s.setRouter i v).hbm = s.hbm := rfl
@[simp] theorem State.hostMem_setRouter (s : State) (i : Nat) (v : Router) : (s.setRouter i v).hostMem = s.hostMem := rfl
@[simp] theorem State.hostIn_setRouter (s : State) (i : Nat) (v : Router) : (s.setRouter i v).hostIn = s.hostIn := rfl
@[simp] theorem State.yports_setRouter (s : State) (i : Nat) (v : Router) : (s.setRouter i v).yports = s.yports := rfl
@[simp] theorem State.eths_setRouter (s : State) (i : Nat) (v : Router) : (s.setRouter i v).eths = s.eths := rfl
@[simp] theorem State.senders_setRouter (s : State) (i : Nat) (v : Router) : (s.setRouter i v).senders = s.senders := rfl
@[simp] theorem State.eps_setRouter (s : State) (i : Nat) (v : Router) : (s.setRouter i v).eps = s.eps := rfl
@[simp] theorem State.vfMap_setRouter (s : State) (i : Nat) (v : Router) : (s.setRouter i v).vfMap = s.vfMap := rfl
@[simp] theorem State.vfEnable_setRouter (s : State) (i : Nat) (v : Router) : (s.setRouter i v).vfEnable = s.vfEnable := rfl
@[simp] theorem State.field_of_setRouter (s : State) (i k : Nat) (v : Router) : (s.setRouter i v).field k = s.field k := rfl
@[simp] theorem State.head_of_setRouter (s : State) (i k : Nat) (v : Router) : (s.setRouter i v).head k = s.head k := rfl
@[simp] theorem State.strm_of_setRouter (s : State) (i k : Nat) (v : Router) : (s.setRouter i v).strm k = s.strm k := rfl
@[simp] theorem State.unit_of_setRouter (s : State) (i k : Nat) (v : Router) : (s.setRouter i v).unit k = s.unit k := rfl
@[simp] theorem State.gate_of_setRouter (s : State) (i k : Nat) (v : Router) : (s.setRouter i v).gate k = s.gate k := rfl
@[simp] theorem State.group_of_setRouter (s : State) (i k : Nat) (v : Router) : (s.setRouter i v).group k = s.group k := rfl
@[simp] theorem State.origin_of_setRouter (s : State) (i k : Nat) (v : Router) : (s.setRouter i v).origin k = s.origin k := rfl
@[simp] theorem State.edgeEng_of_setRouter (s : State) (i k : Nat) (v : Router) : (s.setRouter i v).edgeEng k = s.edgeEng k := rfl
@[simp] theorem State.tailEng_of_setRouter (s : State) (i k : Nat) (v : Router) : (s.setRouter i v).tailEng k = s.tailEng k := rfl
@[simp] theorem State.arb_of_setRouter (s : State) (i k : Nat) (v : Router) : (s.setRouter i v).arb k = s.arb k := rfl
@[simp] theorem State.queue_of_setRouter (s : State) (i k : Nat) (v : Router) : (s.setRouter i v).queue k = s.queue k := rfl
@[simp] theorem State.fn_of_setRouter (s : State) (i k : Nat) (v : Router) : (s.setRouter i v).fn k = s.fn k := rfl
@[simp] theorem State.lock_of_setRouter (s : State) (i k : Nat) (v : Router) : (s.setRouter i v).lock k = s.lock k := rfl
@[simp] theorem State.pool_of_setRouter (s : State) (i k : Nat) (v : Router) : (s.setRouter i v).pool k = s.pool k := rfl
@[simp] theorem State.slot_of_setRouter (s : State) (i k : Nat) (v : Router) : (s.setRouter i v).slot k = s.slot k := rfl
@[simp] theorem State.ctx_of_setRouter (s : State) (i k : Nat) (v : Router) : (s.setRouter i v).ctx k = s.ctx k := rfl
@[simp] theorem State.epoch_of_setRouter (s : State) (i k : Nat) (v : Router) : (s.setRouter i v).epoch k = s.epoch k := rfl
@[simp] theorem State.stackOf_of_setRouter (s : State) (i k : Nat) (v : Router) : (s.setRouter i v).stackOf k = s.stackOf k := rfl
@[simp] theorem State.yport_of_setRouter (s : State) (i k : Nat) (v : Router) : (s.setRouter i v).yport k = s.yport k := rfl
@[simp] theorem State.eth_of_setRouter (s : State) (i k : Nat) (v : Router) : (s.setRouter i v).eth k = s.eth k := rfl
@[simp] theorem State.sender_of_setRouter (s : State) (i k : Nat) (v : Router) : (s.setRouter i v).sender k = s.sender k := rfl
@[simp] theorem State.ep_of_setRouter (s : State) (i k : Nat) (v : Router) : (s.setRouter i v).ep k = s.ep k := rfl

@[simp] theorem State.gate_setGate (s : State) (i : Nat) (v : Gate) : (s.setGate i v).gate i = v := Tab.get_set_same _ _ _ _
theorem State.gate_setGate_ne (s : State) (i k : Nat) (v : Gate) (h : i ≠ k) : (s.setGate i v).gate k = s.gate k := Tab.get_set_ne _ _ _ _ _ h
@[simp] theorem State.modGate_eq (s : State) (i : Nat) (f : Gate → Gate) : s.modGate i f = s.setGate i (f (s.gate i)) := rfl
@[simp] theorem State.pending_setGate (s : State) (i : Nat) (v : Gate) : (s.setGate i v).pending = s.pending := rfl
@[simp] theorem State.freeCount_setGate (s : State) (i : Nat) (v : Gate) : (s.setGate i v).freeCount = s.freeCount := rfl
@[simp] theorem State.kcycles_setGate (s : State) (i : Nat) (v : Gate) : (s.setGate i v).kcycles = s.kcycles := rfl
@[simp] theorem State.part_setGate (s : State) (i : Nat) (v : Gate) : (s.setGate i v).part = s.part := rfl
@[simp] theorem State.boot_setGate (s : State) (i : Nat) (v : Gate) : (s.setGate i v).boot = s.boot := rfl
@[simp] theorem State.modes_setGate (s : State) (i : Nat) (v : Gate) : (s.setGate i v).modes = s.modes := rfl
@[simp] theorem State.supply_setGate (s : State) (i : Nat) (v : Gate) : (s.setGate i v).supply = s.supply := rfl
@[simp] theorem State.dtb_setGate (s : State) (i : Nat) (v : Gate) : (s.setGate i v).dtb = s.dtb := rfl
@[simp] theorem State.seqr_setGate (s : State) (i : Nat) (v : Gate) : (s.setGate i v).seqr = s.seqr := rfl
@[simp] theorem State.greg_setGate (s : State) (i : Nat) (v : Gate) : (s.setGate i v).greg = s.greg := rfl
@[simp] theorem State.cspi_setGate (s : State) (i : Nat) (v : Gate) : (s.setGate i v).cspi = s.cspi := rfl
@[simp] theorem State.cap_setGate (s : State) (i : Nat) (v : Gate) : (s.setGate i v).cap = s.cap := rfl
@[simp] theorem State.fields_setGate (s : State) (i : Nat) (v : Gate) : (s.setGate i v).fields = s.fields := rfl
@[simp] theorem State.lostClocks_setGate (s : State) (i : Nat) (v : Gate) : (s.setGate i v).lostClocks = s.lostClocks := rfl
@[simp] theorem State.heads_setGate (s : State) (i : Nat) (v : Gate) : (s.setGate i v).heads = s.heads := rfl
@[simp] theorem State.store_setGate (s : State) (i : Nat) (v : Gate) : (s.setGate i v).store = s.store := rfl
@[simp] theorem State.streams_setGate (s : State) (i : Nat) (v : Gate) : (s.setGate i v).streams = s.streams := rfl
@[simp] theorem State.units_setGate (s : State) (i : Nat) (v : Gate) : (s.setGate i v).units = s.units := rfl
@[simp] theorem State.routers_setGate (s : State) (i : Nat) (v : Gate) : (s.setGate i v).routers = s.routers := rfl
@[simp] theorem State.groups_setGate (s : State) (i : Nat) (v : Gate) : (s.setGate i v).groups = s.groups := rfl
@[simp] theorem State.origins_setGate (s : State) (i : Nat) (v : Gate) : (s.setGate i v).origins = s.origins := rfl
@[simp] theorem State.edges_setGate (s : State) (i : Nat) (v : Gate) : (s.setGate i v).edges = s.edges := rfl
@[simp] theorem State.tails_setGate (s : State) (i : Nat) (v : Gate) : (s.setGate i v).tails = s.tails := rfl
@[simp] theorem State.arbs_setGate (s : State) (i : Nat) (v : Gate) : (s.setGate i v).arbs = s.arbs := rfl
@[simp] theorem State.queues_setGate (s : State) (i : Nat) (v : Gate) : (s.setGate i v).queues = s.queues := rfl
@[simp] theorem State.fns_setGate (s : State) (i : Nat) (v : Gate) : (s.setGate i v).fns = s.fns := rfl
@[simp] theorem State.locks_setGate (s : State) (i : Nat) (v : Gate) : (s.setGate i v).locks = s.locks := rfl
@[simp] theorem State.pools_setGate (s : State) (i : Nat) (v : Gate) : (s.setGate i v).pools = s.pools := rfl
@[simp] theorem State.slots_setGate (s : State) (i : Nat) (v : Gate) : (s.setGate i v).slots = s.slots := rfl
@[simp] theorem State.ctxs_setGate (s : State) (i : Nat) (v : Gate) : (s.setGate i v).ctxs = s.ctxs := rfl
@[simp] theorem State.epochs_setGate (s : State) (i : Nat) (v : Gate) : (s.setGate i v).epochs = s.epochs := rfl
@[simp] theorem State.hbmStacks_setGate (s : State) (i : Nat) (v : Gate) : (s.setGate i v).hbmStacks = s.hbmStacks := rfl
@[simp] theorem State.hbm_setGate (s : State) (i : Nat) (v : Gate) : (s.setGate i v).hbm = s.hbm := rfl
@[simp] theorem State.hostMem_setGate (s : State) (i : Nat) (v : Gate) : (s.setGate i v).hostMem = s.hostMem := rfl
@[simp] theorem State.hostIn_setGate (s : State) (i : Nat) (v : Gate) : (s.setGate i v).hostIn = s.hostIn := rfl
@[simp] theorem State.yports_setGate (s : State) (i : Nat) (v : Gate) : (s.setGate i v).yports = s.yports := rfl
@[simp] theorem State.eths_setGate (s : State) (i : Nat) (v : Gate) : (s.setGate i v).eths = s.eths := rfl
@[simp] theorem State.senders_setGate (s : State) (i : Nat) (v : Gate) : (s.setGate i v).senders = s.senders := rfl
@[simp] theorem State.eps_setGate (s : State) (i : Nat) (v : Gate) : (s.setGate i v).eps = s.eps := rfl
@[simp] theorem State.vfMap_setGate (s : State) (i : Nat) (v : Gate) : (s.setGate i v).vfMap = s.vfMap := rfl
@[simp] theorem State.vfEnable_setGate (s : State) (i : Nat) (v : Gate) : (s.setGate i v).vfEnable = s.vfEnable := rfl
@[simp] theorem State.field_of_setGate (s : State) (i k : Nat) (v : Gate) : (s.setGate i v).field k = s.field k := rfl
@[simp] theorem State.head_of_setGate (s : State) (i k : Nat) (v : Gate) : (s.setGate i v).head k = s.head k := rfl
@[simp] theorem State.strm_of_setGate (s : State) (i k : Nat) (v : Gate) : (s.setGate i v).strm k = s.strm k := rfl
@[simp] theorem State.unit_of_setGate (s : State) (i k : Nat) (v : Gate) : (s.setGate i v).unit k = s.unit k := rfl
@[simp] theorem State.router_of_setGate (s : State) (i k : Nat) (v : Gate) : (s.setGate i v).router k = s.router k := rfl
@[simp] theorem State.group_of_setGate (s : State) (i k : Nat) (v : Gate) : (s.setGate i v).group k = s.group k := rfl
@[simp] theorem State.origin_of_setGate (s : State) (i k : Nat) (v : Gate) : (s.setGate i v).origin k = s.origin k := rfl
@[simp] theorem State.edgeEng_of_setGate (s : State) (i k : Nat) (v : Gate) : (s.setGate i v).edgeEng k = s.edgeEng k := rfl
@[simp] theorem State.tailEng_of_setGate (s : State) (i k : Nat) (v : Gate) : (s.setGate i v).tailEng k = s.tailEng k := rfl
@[simp] theorem State.arb_of_setGate (s : State) (i k : Nat) (v : Gate) : (s.setGate i v).arb k = s.arb k := rfl
@[simp] theorem State.queue_of_setGate (s : State) (i k : Nat) (v : Gate) : (s.setGate i v).queue k = s.queue k := rfl
@[simp] theorem State.fn_of_setGate (s : State) (i k : Nat) (v : Gate) : (s.setGate i v).fn k = s.fn k := rfl
@[simp] theorem State.lock_of_setGate (s : State) (i k : Nat) (v : Gate) : (s.setGate i v).lock k = s.lock k := rfl
@[simp] theorem State.pool_of_setGate (s : State) (i k : Nat) (v : Gate) : (s.setGate i v).pool k = s.pool k := rfl
@[simp] theorem State.slot_of_setGate (s : State) (i k : Nat) (v : Gate) : (s.setGate i v).slot k = s.slot k := rfl
@[simp] theorem State.ctx_of_setGate (s : State) (i k : Nat) (v : Gate) : (s.setGate i v).ctx k = s.ctx k := rfl
@[simp] theorem State.epoch_of_setGate (s : State) (i k : Nat) (v : Gate) : (s.setGate i v).epoch k = s.epoch k := rfl
@[simp] theorem State.stackOf_of_setGate (s : State) (i k : Nat) (v : Gate) : (s.setGate i v).stackOf k = s.stackOf k := rfl
@[simp] theorem State.yport_of_setGate (s : State) (i k : Nat) (v : Gate) : (s.setGate i v).yport k = s.yport k := rfl
@[simp] theorem State.eth_of_setGate (s : State) (i k : Nat) (v : Gate) : (s.setGate i v).eth k = s.eth k := rfl
@[simp] theorem State.sender_of_setGate (s : State) (i k : Nat) (v : Gate) : (s.setGate i v).sender k = s.sender k := rfl
@[simp] theorem State.ep_of_setGate (s : State) (i k : Nat) (v : Gate) : (s.setGate i v).ep k = s.ep k := rfl

@[simp] theorem State.group_setGroup (s : State) (i : Nat) (v : Group) : (s.setGroup i v).group i = v := Tab.get_set_same _ _ _ _
theorem State.group_setGroup_ne (s : State) (i k : Nat) (v : Group) (h : i ≠ k) : (s.setGroup i v).group k = s.group k := Tab.get_set_ne _ _ _ _ _ h
@[simp] theorem State.modGroup_eq (s : State) (i : Nat) (f : Group → Group) : s.modGroup i f = s.setGroup i (f (s.group i)) := rfl
@[simp] theorem State.pending_setGroup (s : State) (i : Nat) (v : Group) : (s.setGroup i v).pending = s.pending := rfl
@[simp] theorem State.freeCount_setGroup (s : State) (i : Nat) (v : Group) : (s.setGroup i v).freeCount = s.freeCount := rfl
@[simp] theorem State.kcycles_setGroup (s : State) (i : Nat) (v : Group) : (s.setGroup i v).kcycles = s.kcycles := rfl
@[simp] theorem State.part_setGroup (s : State) (i : Nat) (v : Group) : (s.setGroup i v).part = s.part := rfl
@[simp] theorem State.boot_setGroup (s : State) (i : Nat) (v : Group) : (s.setGroup i v).boot = s.boot := rfl
@[simp] theorem State.modes_setGroup (s : State) (i : Nat) (v : Group) : (s.setGroup i v).modes = s.modes := rfl
@[simp] theorem State.supply_setGroup (s : State) (i : Nat) (v : Group) : (s.setGroup i v).supply = s.supply := rfl
@[simp] theorem State.dtb_setGroup (s : State) (i : Nat) (v : Group) : (s.setGroup i v).dtb = s.dtb := rfl
@[simp] theorem State.seqr_setGroup (s : State) (i : Nat) (v : Group) : (s.setGroup i v).seqr = s.seqr := rfl
@[simp] theorem State.greg_setGroup (s : State) (i : Nat) (v : Group) : (s.setGroup i v).greg = s.greg := rfl
@[simp] theorem State.cspi_setGroup (s : State) (i : Nat) (v : Group) : (s.setGroup i v).cspi = s.cspi := rfl
@[simp] theorem State.cap_setGroup (s : State) (i : Nat) (v : Group) : (s.setGroup i v).cap = s.cap := rfl
@[simp] theorem State.fields_setGroup (s : State) (i : Nat) (v : Group) : (s.setGroup i v).fields = s.fields := rfl
@[simp] theorem State.lostClocks_setGroup (s : State) (i : Nat) (v : Group) : (s.setGroup i v).lostClocks = s.lostClocks := rfl
@[simp] theorem State.heads_setGroup (s : State) (i : Nat) (v : Group) : (s.setGroup i v).heads = s.heads := rfl
@[simp] theorem State.store_setGroup (s : State) (i : Nat) (v : Group) : (s.setGroup i v).store = s.store := rfl
@[simp] theorem State.streams_setGroup (s : State) (i : Nat) (v : Group) : (s.setGroup i v).streams = s.streams := rfl
@[simp] theorem State.units_setGroup (s : State) (i : Nat) (v : Group) : (s.setGroup i v).units = s.units := rfl
@[simp] theorem State.routers_setGroup (s : State) (i : Nat) (v : Group) : (s.setGroup i v).routers = s.routers := rfl
@[simp] theorem State.gates_setGroup (s : State) (i : Nat) (v : Group) : (s.setGroup i v).gates = s.gates := rfl
@[simp] theorem State.origins_setGroup (s : State) (i : Nat) (v : Group) : (s.setGroup i v).origins = s.origins := rfl
@[simp] theorem State.edges_setGroup (s : State) (i : Nat) (v : Group) : (s.setGroup i v).edges = s.edges := rfl
@[simp] theorem State.tails_setGroup (s : State) (i : Nat) (v : Group) : (s.setGroup i v).tails = s.tails := rfl
@[simp] theorem State.arbs_setGroup (s : State) (i : Nat) (v : Group) : (s.setGroup i v).arbs = s.arbs := rfl
@[simp] theorem State.queues_setGroup (s : State) (i : Nat) (v : Group) : (s.setGroup i v).queues = s.queues := rfl
@[simp] theorem State.fns_setGroup (s : State) (i : Nat) (v : Group) : (s.setGroup i v).fns = s.fns := rfl
@[simp] theorem State.locks_setGroup (s : State) (i : Nat) (v : Group) : (s.setGroup i v).locks = s.locks := rfl
@[simp] theorem State.pools_setGroup (s : State) (i : Nat) (v : Group) : (s.setGroup i v).pools = s.pools := rfl
@[simp] theorem State.slots_setGroup (s : State) (i : Nat) (v : Group) : (s.setGroup i v).slots = s.slots := rfl
@[simp] theorem State.ctxs_setGroup (s : State) (i : Nat) (v : Group) : (s.setGroup i v).ctxs = s.ctxs := rfl
@[simp] theorem State.epochs_setGroup (s : State) (i : Nat) (v : Group) : (s.setGroup i v).epochs = s.epochs := rfl
@[simp] theorem State.hbmStacks_setGroup (s : State) (i : Nat) (v : Group) : (s.setGroup i v).hbmStacks = s.hbmStacks := rfl
@[simp] theorem State.hbm_setGroup (s : State) (i : Nat) (v : Group) : (s.setGroup i v).hbm = s.hbm := rfl
@[simp] theorem State.hostMem_setGroup (s : State) (i : Nat) (v : Group) : (s.setGroup i v).hostMem = s.hostMem := rfl
@[simp] theorem State.hostIn_setGroup (s : State) (i : Nat) (v : Group) : (s.setGroup i v).hostIn = s.hostIn := rfl
@[simp] theorem State.yports_setGroup (s : State) (i : Nat) (v : Group) : (s.setGroup i v).yports = s.yports := rfl
@[simp] theorem State.eths_setGroup (s : State) (i : Nat) (v : Group) : (s.setGroup i v).eths = s.eths := rfl
@[simp] theorem State.senders_setGroup (s : State) (i : Nat) (v : Group) : (s.setGroup i v).senders = s.senders := rfl
@[simp] theorem State.eps_setGroup (s : State) (i : Nat) (v : Group) : (s.setGroup i v).eps = s.eps := rfl
@[simp] theorem State.vfMap_setGroup (s : State) (i : Nat) (v : Group) : (s.setGroup i v).vfMap = s.vfMap := rfl
@[simp] theorem State.vfEnable_setGroup (s : State) (i : Nat) (v : Group) : (s.setGroup i v).vfEnable = s.vfEnable := rfl
@[simp] theorem State.field_of_setGroup (s : State) (i k : Nat) (v : Group) : (s.setGroup i v).field k = s.field k := rfl
@[simp] theorem State.head_of_setGroup (s : State) (i k : Nat) (v : Group) : (s.setGroup i v).head k = s.head k := rfl
@[simp] theorem State.strm_of_setGroup (s : State) (i k : Nat) (v : Group) : (s.setGroup i v).strm k = s.strm k := rfl
@[simp] theorem State.unit_of_setGroup (s : State) (i k : Nat) (v : Group) : (s.setGroup i v).unit k = s.unit k := rfl
@[simp] theorem State.router_of_setGroup (s : State) (i k : Nat) (v : Group) : (s.setGroup i v).router k = s.router k := rfl
@[simp] theorem State.gate_of_setGroup (s : State) (i k : Nat) (v : Group) : (s.setGroup i v).gate k = s.gate k := rfl
@[simp] theorem State.origin_of_setGroup (s : State) (i k : Nat) (v : Group) : (s.setGroup i v).origin k = s.origin k := rfl
@[simp] theorem State.edgeEng_of_setGroup (s : State) (i k : Nat) (v : Group) : (s.setGroup i v).edgeEng k = s.edgeEng k := rfl
@[simp] theorem State.tailEng_of_setGroup (s : State) (i k : Nat) (v : Group) : (s.setGroup i v).tailEng k = s.tailEng k := rfl
@[simp] theorem State.arb_of_setGroup (s : State) (i k : Nat) (v : Group) : (s.setGroup i v).arb k = s.arb k := rfl
@[simp] theorem State.queue_of_setGroup (s : State) (i k : Nat) (v : Group) : (s.setGroup i v).queue k = s.queue k := rfl
@[simp] theorem State.fn_of_setGroup (s : State) (i k : Nat) (v : Group) : (s.setGroup i v).fn k = s.fn k := rfl
@[simp] theorem State.lock_of_setGroup (s : State) (i k : Nat) (v : Group) : (s.setGroup i v).lock k = s.lock k := rfl
@[simp] theorem State.pool_of_setGroup (s : State) (i k : Nat) (v : Group) : (s.setGroup i v).pool k = s.pool k := rfl
@[simp] theorem State.slot_of_setGroup (s : State) (i k : Nat) (v : Group) : (s.setGroup i v).slot k = s.slot k := rfl
@[simp] theorem State.ctx_of_setGroup (s : State) (i k : Nat) (v : Group) : (s.setGroup i v).ctx k = s.ctx k := rfl
@[simp] theorem State.epoch_of_setGroup (s : State) (i k : Nat) (v : Group) : (s.setGroup i v).epoch k = s.epoch k := rfl
@[simp] theorem State.stackOf_of_setGroup (s : State) (i k : Nat) (v : Group) : (s.setGroup i v).stackOf k = s.stackOf k := rfl
@[simp] theorem State.yport_of_setGroup (s : State) (i k : Nat) (v : Group) : (s.setGroup i v).yport k = s.yport k := rfl
@[simp] theorem State.eth_of_setGroup (s : State) (i k : Nat) (v : Group) : (s.setGroup i v).eth k = s.eth k := rfl
@[simp] theorem State.sender_of_setGroup (s : State) (i k : Nat) (v : Group) : (s.setGroup i v).sender k = s.sender k := rfl
@[simp] theorem State.ep_of_setGroup (s : State) (i k : Nat) (v : Group) : (s.setGroup i v).ep k = s.ep k := rfl

@[simp] theorem State.origin_setOrigin (s : State) (i : Nat) (v : Origin) : (s.setOrigin i v).origin i = v := Tab.get_set_same _ _ _ _
theorem State.origin_setOrigin_ne (s : State) (i k : Nat) (v : Origin) (h : i ≠ k) : (s.setOrigin i v).origin k = s.origin k := Tab.get_set_ne _ _ _ _ _ h
@[simp] theorem State.modOrigin_eq (s : State) (i : Nat) (f : Origin → Origin) : s.modOrigin i f = s.setOrigin i (f (s.origin i)) := rfl
@[simp] theorem State.pending_setOrigin (s : State) (i : Nat) (v : Origin) : (s.setOrigin i v).pending = s.pending := rfl
@[simp] theorem State.freeCount_setOrigin (s : State) (i : Nat) (v : Origin) : (s.setOrigin i v).freeCount = s.freeCount := rfl
@[simp] theorem State.kcycles_setOrigin (s : State) (i : Nat) (v : Origin) : (s.setOrigin i v).kcycles = s.kcycles := rfl
@[simp] theorem State.part_setOrigin (s : State) (i : Nat) (v : Origin) : (s.setOrigin i v).part = s.part := rfl
@[simp] theorem State.boot_setOrigin (s : State) (i : Nat) (v : Origin) : (s.setOrigin i v).boot = s.boot := rfl
@[simp] theorem State.modes_setOrigin (s : State) (i : Nat) (v : Origin) : (s.setOrigin i v).modes = s.modes := rfl
@[simp] theorem State.supply_setOrigin (s : State) (i : Nat) (v : Origin) : (s.setOrigin i v).supply = s.supply := rfl
@[simp] theorem State.dtb_setOrigin (s : State) (i : Nat) (v : Origin) : (s.setOrigin i v).dtb = s.dtb := rfl
@[simp] theorem State.seqr_setOrigin (s : State) (i : Nat) (v : Origin) : (s.setOrigin i v).seqr = s.seqr := rfl
@[simp] theorem State.greg_setOrigin (s : State) (i : Nat) (v : Origin) : (s.setOrigin i v).greg = s.greg := rfl
@[simp] theorem State.cspi_setOrigin (s : State) (i : Nat) (v : Origin) : (s.setOrigin i v).cspi = s.cspi := rfl
@[simp] theorem State.cap_setOrigin (s : State) (i : Nat) (v : Origin) : (s.setOrigin i v).cap = s.cap := rfl
@[simp] theorem State.fields_setOrigin (s : State) (i : Nat) (v : Origin) : (s.setOrigin i v).fields = s.fields := rfl
@[simp] theorem State.lostClocks_setOrigin (s : State) (i : Nat) (v : Origin) : (s.setOrigin i v).lostClocks = s.lostClocks := rfl
@[simp] theorem State.heads_setOrigin (s : State) (i : Nat) (v : Origin) : (s.setOrigin i v).heads = s.heads := rfl
@[simp] theorem State.store_setOrigin (s : State) (i : Nat) (v : Origin) : (s.setOrigin i v).store = s.store := rfl
@[simp] theorem State.streams_setOrigin (s : State) (i : Nat) (v : Origin) : (s.setOrigin i v).streams = s.streams := rfl
@[simp] theorem State.units_setOrigin (s : State) (i : Nat) (v : Origin) : (s.setOrigin i v).units = s.units := rfl
@[simp] theorem State.routers_setOrigin (s : State) (i : Nat) (v : Origin) : (s.setOrigin i v).routers = s.routers := rfl
@[simp] theorem State.gates_setOrigin (s : State) (i : Nat) (v : Origin) : (s.setOrigin i v).gates = s.gates := rfl
@[simp] theorem State.groups_setOrigin (s : State) (i : Nat) (v : Origin) : (s.setOrigin i v).groups = s.groups := rfl
@[simp] theorem State.edges_setOrigin (s : State) (i : Nat) (v : Origin) : (s.setOrigin i v).edges = s.edges := rfl
@[simp] theorem State.tails_setOrigin (s : State) (i : Nat) (v : Origin) : (s.setOrigin i v).tails = s.tails := rfl
@[simp] theorem State.arbs_setOrigin (s : State) (i : Nat) (v : Origin) : (s.setOrigin i v).arbs = s.arbs := rfl
@[simp] theorem State.queues_setOrigin (s : State) (i : Nat) (v : Origin) : (s.setOrigin i v).queues = s.queues := rfl
@[simp] theorem State.fns_setOrigin (s : State) (i : Nat) (v : Origin) : (s.setOrigin i v).fns = s.fns := rfl
@[simp] theorem State.locks_setOrigin (s : State) (i : Nat) (v : Origin) : (s.setOrigin i v).locks = s.locks := rfl
@[simp] theorem State.pools_setOrigin (s : State) (i : Nat) (v : Origin) : (s.setOrigin i v).pools = s.pools := rfl
@[simp] theorem State.slots_setOrigin (s : State) (i : Nat) (v : Origin) : (s.setOrigin i v).slots = s.slots := rfl
@[simp] theorem State.ctxs_setOrigin (s : State) (i : Nat) (v : Origin) : (s.setOrigin i v).ctxs = s.ctxs := rfl
@[simp] theorem State.epochs_setOrigin (s : State) (i : Nat) (v : Origin) : (s.setOrigin i v).epochs = s.epochs := rfl
@[simp] theorem State.hbmStacks_setOrigin (s : State) (i : Nat) (v : Origin) : (s.setOrigin i v).hbmStacks = s.hbmStacks := rfl
@[simp] theorem State.hbm_setOrigin (s : State) (i : Nat) (v : Origin) : (s.setOrigin i v).hbm = s.hbm := rfl
@[simp] theorem State.hostMem_setOrigin (s : State) (i : Nat) (v : Origin) : (s.setOrigin i v).hostMem = s.hostMem := rfl
@[simp] theorem State.hostIn_setOrigin (s : State) (i : Nat) (v : Origin) : (s.setOrigin i v).hostIn = s.hostIn := rfl
@[simp] theorem State.yports_setOrigin (s : State) (i : Nat) (v : Origin) : (s.setOrigin i v).yports = s.yports := rfl
@[simp] theorem State.eths_setOrigin (s : State) (i : Nat) (v : Origin) : (s.setOrigin i v).eths = s.eths := rfl
@[simp] theorem State.senders_setOrigin (s : State) (i : Nat) (v : Origin) : (s.setOrigin i v).senders = s.senders := rfl
@[simp] theorem State.eps_setOrigin (s : State) (i : Nat) (v : Origin) : (s.setOrigin i v).eps = s.eps := rfl
@[simp] theorem State.vfMap_setOrigin (s : State) (i : Nat) (v : Origin) : (s.setOrigin i v).vfMap = s.vfMap := rfl
@[simp] theorem State.vfEnable_setOrigin (s : State) (i : Nat) (v : Origin) : (s.setOrigin i v).vfEnable = s.vfEnable := rfl
@[simp] theorem State.field_of_setOrigin (s : State) (i k : Nat) (v : Origin) : (s.setOrigin i v).field k = s.field k := rfl
@[simp] theorem State.head_of_setOrigin (s : State) (i k : Nat) (v : Origin) : (s.setOrigin i v).head k = s.head k := rfl
@[simp] theorem State.strm_of_setOrigin (s : State) (i k : Nat) (v : Origin) : (s.setOrigin i v).strm k = s.strm k := rfl
@[simp] theorem State.unit_of_setOrigin (s : State) (i k : Nat) (v : Origin) : (s.setOrigin i v).unit k = s.unit k := rfl
@[simp] theorem State.router_of_setOrigin (s : State) (i k : Nat) (v : Origin) : (s.setOrigin i v).router k = s.router k := rfl
@[simp] theorem State.gate_of_setOrigin (s : State) (i k : Nat) (v : Origin) : (s.setOrigin i v).gate k = s.gate k := rfl
@[simp] theorem State.group_of_setOrigin (s : State) (i k : Nat) (v : Origin) : (s.setOrigin i v).group k = s.group k := rfl
@[simp] theorem State.edgeEng_of_setOrigin (s : State) (i k : Nat) (v : Origin) : (s.setOrigin i v).edgeEng k = s.edgeEng k := rfl
@[simp] theorem State.tailEng_of_setOrigin (s : State) (i k : Nat) (v : Origin) : (s.setOrigin i v).tailEng k = s.tailEng k := rfl
@[simp] theorem State.arb_of_setOrigin (s : State) (i k : Nat) (v : Origin) : (s.setOrigin i v).arb k = s.arb k := rfl
@[simp] theorem State.queue_of_setOrigin (s : State) (i k : Nat) (v : Origin) : (s.setOrigin i v).queue k = s.queue k := rfl
@[simp] theorem State.fn_of_setOrigin (s : State) (i k : Nat) (v : Origin) : (s.setOrigin i v).fn k = s.fn k := rfl
@[simp] theorem State.lock_of_setOrigin (s : State) (i k : Nat) (v : Origin) : (s.setOrigin i v).lock k = s.lock k := rfl
@[simp] theorem State.pool_of_setOrigin (s : State) (i k : Nat) (v : Origin) : (s.setOrigin i v).pool k = s.pool k := rfl
@[simp] theorem State.slot_of_setOrigin (s : State) (i k : Nat) (v : Origin) : (s.setOrigin i v).slot k = s.slot k := rfl
@[simp] theorem State.ctx_of_setOrigin (s : State) (i k : Nat) (v : Origin) : (s.setOrigin i v).ctx k = s.ctx k := rfl
@[simp] theorem State.epoch_of_setOrigin (s : State) (i k : Nat) (v : Origin) : (s.setOrigin i v).epoch k = s.epoch k := rfl
@[simp] theorem State.stackOf_of_setOrigin (s : State) (i k : Nat) (v : Origin) : (s.setOrigin i v).stackOf k = s.stackOf k := rfl
@[simp] theorem State.yport_of_setOrigin (s : State) (i k : Nat) (v : Origin) : (s.setOrigin i v).yport k = s.yport k := rfl
@[simp] theorem State.eth_of_setOrigin (s : State) (i k : Nat) (v : Origin) : (s.setOrigin i v).eth k = s.eth k := rfl
@[simp] theorem State.sender_of_setOrigin (s : State) (i k : Nat) (v : Origin) : (s.setOrigin i v).sender k = s.sender k := rfl
@[simp] theorem State.ep_of_setOrigin (s : State) (i k : Nat) (v : Origin) : (s.setOrigin i v).ep k = s.ep k := rfl

@[simp] theorem State.edgeEng_setEdgeEng (s : State) (i : Nat) (v : Engine) : (s.setEdgeEng i v).edgeEng i = v := Tab.get_set_same _ _ _ _
theorem State.edgeEng_setEdgeEng_ne (s : State) (i k : Nat) (v : Engine) (h : i ≠ k) : (s.setEdgeEng i v).edgeEng k = s.edgeEng k := Tab.get_set_ne _ _ _ _ _ h
@[simp] theorem State.modEdgeEng_eq (s : State) (i : Nat) (f : Engine → Engine) : s.modEdgeEng i f = s.setEdgeEng i (f (s.edgeEng i)) := rfl
@[simp] theorem State.pending_setEdgeEng (s : State) (i : Nat) (v : Engine) : (s.setEdgeEng i v).pending = s.pending := rfl
@[simp] theorem State.freeCount_setEdgeEng (s : State) (i : Nat) (v : Engine) : (s.setEdgeEng i v).freeCount = s.freeCount := rfl
@[simp] theorem State.kcycles_setEdgeEng (s : State) (i : Nat) (v : Engine) : (s.setEdgeEng i v).kcycles = s.kcycles := rfl
@[simp] theorem State.part_setEdgeEng (s : State) (i : Nat) (v : Engine) : (s.setEdgeEng i v).part = s.part := rfl
@[simp] theorem State.boot_setEdgeEng (s : State) (i : Nat) (v : Engine) : (s.setEdgeEng i v).boot = s.boot := rfl
@[simp] theorem State.modes_setEdgeEng (s : State) (i : Nat) (v : Engine) : (s.setEdgeEng i v).modes = s.modes := rfl
@[simp] theorem State.supply_setEdgeEng (s : State) (i : Nat) (v : Engine) : (s.setEdgeEng i v).supply = s.supply := rfl
@[simp] theorem State.dtb_setEdgeEng (s : State) (i : Nat) (v : Engine) : (s.setEdgeEng i v).dtb = s.dtb := rfl
@[simp] theorem State.seqr_setEdgeEng (s : State) (i : Nat) (v : Engine) : (s.setEdgeEng i v).seqr = s.seqr := rfl
@[simp] theorem State.greg_setEdgeEng (s : State) (i : Nat) (v : Engine) : (s.setEdgeEng i v).greg = s.greg := rfl
@[simp] theorem State.cspi_setEdgeEng (s : State) (i : Nat) (v : Engine) : (s.setEdgeEng i v).cspi = s.cspi := rfl
@[simp] theorem State.cap_setEdgeEng (s : State) (i : Nat) (v : Engine) : (s.setEdgeEng i v).cap = s.cap := rfl
@[simp] theorem State.fields_setEdgeEng (s : State) (i : Nat) (v : Engine) : (s.setEdgeEng i v).fields = s.fields := rfl
@[simp] theorem State.lostClocks_setEdgeEng (s : State) (i : Nat) (v : Engine) : (s.setEdgeEng i v).lostClocks = s.lostClocks := rfl
@[simp] theorem State.heads_setEdgeEng (s : State) (i : Nat) (v : Engine) : (s.setEdgeEng i v).heads = s.heads := rfl
@[simp] theorem State.store_setEdgeEng (s : State) (i : Nat) (v : Engine) : (s.setEdgeEng i v).store = s.store := rfl
@[simp] theorem State.streams_setEdgeEng (s : State) (i : Nat) (v : Engine) : (s.setEdgeEng i v).streams = s.streams := rfl
@[simp] theorem State.units_setEdgeEng (s : State) (i : Nat) (v : Engine) : (s.setEdgeEng i v).units = s.units := rfl
@[simp] theorem State.routers_setEdgeEng (s : State) (i : Nat) (v : Engine) : (s.setEdgeEng i v).routers = s.routers := rfl
@[simp] theorem State.gates_setEdgeEng (s : State) (i : Nat) (v : Engine) : (s.setEdgeEng i v).gates = s.gates := rfl
@[simp] theorem State.groups_setEdgeEng (s : State) (i : Nat) (v : Engine) : (s.setEdgeEng i v).groups = s.groups := rfl
@[simp] theorem State.origins_setEdgeEng (s : State) (i : Nat) (v : Engine) : (s.setEdgeEng i v).origins = s.origins := rfl
@[simp] theorem State.tails_setEdgeEng (s : State) (i : Nat) (v : Engine) : (s.setEdgeEng i v).tails = s.tails := rfl
@[simp] theorem State.arbs_setEdgeEng (s : State) (i : Nat) (v : Engine) : (s.setEdgeEng i v).arbs = s.arbs := rfl
@[simp] theorem State.queues_setEdgeEng (s : State) (i : Nat) (v : Engine) : (s.setEdgeEng i v).queues = s.queues := rfl
@[simp] theorem State.fns_setEdgeEng (s : State) (i : Nat) (v : Engine) : (s.setEdgeEng i v).fns = s.fns := rfl
@[simp] theorem State.locks_setEdgeEng (s : State) (i : Nat) (v : Engine) : (s.setEdgeEng i v).locks = s.locks := rfl
@[simp] theorem State.pools_setEdgeEng (s : State) (i : Nat) (v : Engine) : (s.setEdgeEng i v).pools = s.pools := rfl
@[simp] theorem State.slots_setEdgeEng (s : State) (i : Nat) (v : Engine) : (s.setEdgeEng i v).slots = s.slots := rfl
@[simp] theorem State.ctxs_setEdgeEng (s : State) (i : Nat) (v : Engine) : (s.setEdgeEng i v).ctxs = s.ctxs := rfl
@[simp] theorem State.epochs_setEdgeEng (s : State) (i : Nat) (v : Engine) : (s.setEdgeEng i v).epochs = s.epochs := rfl
@[simp] theorem State.hbmStacks_setEdgeEng (s : State) (i : Nat) (v : Engine) : (s.setEdgeEng i v).hbmStacks = s.hbmStacks := rfl
@[simp] theorem State.hbm_setEdgeEng (s : State) (i : Nat) (v : Engine) : (s.setEdgeEng i v).hbm = s.hbm := rfl
@[simp] theorem State.hostMem_setEdgeEng (s : State) (i : Nat) (v : Engine) : (s.setEdgeEng i v).hostMem = s.hostMem := rfl
@[simp] theorem State.hostIn_setEdgeEng (s : State) (i : Nat) (v : Engine) : (s.setEdgeEng i v).hostIn = s.hostIn := rfl
@[simp] theorem State.yports_setEdgeEng (s : State) (i : Nat) (v : Engine) : (s.setEdgeEng i v).yports = s.yports := rfl
@[simp] theorem State.eths_setEdgeEng (s : State) (i : Nat) (v : Engine) : (s.setEdgeEng i v).eths = s.eths := rfl
@[simp] theorem State.senders_setEdgeEng (s : State) (i : Nat) (v : Engine) : (s.setEdgeEng i v).senders = s.senders := rfl
@[simp] theorem State.eps_setEdgeEng (s : State) (i : Nat) (v : Engine) : (s.setEdgeEng i v).eps = s.eps := rfl
@[simp] theorem State.vfMap_setEdgeEng (s : State) (i : Nat) (v : Engine) : (s.setEdgeEng i v).vfMap = s.vfMap := rfl
@[simp] theorem State.vfEnable_setEdgeEng (s : State) (i : Nat) (v : Engine) : (s.setEdgeEng i v).vfEnable = s.vfEnable := rfl
@[simp] theorem State.field_of_setEdgeEng (s : State) (i k : Nat) (v : Engine) : (s.setEdgeEng i v).field k = s.field k := rfl
@[simp] theorem State.head_of_setEdgeEng (s : State) (i k : Nat) (v : Engine) : (s.setEdgeEng i v).head k = s.head k := rfl
@[simp] theorem State.strm_of_setEdgeEng (s : State) (i k : Nat) (v : Engine) : (s.setEdgeEng i v).strm k = s.strm k := rfl
@[simp] theorem State.unit_of_setEdgeEng (s : State) (i k : Nat) (v : Engine) : (s.setEdgeEng i v).unit k = s.unit k := rfl
@[simp] theorem State.router_of_setEdgeEng (s : State) (i k : Nat) (v : Engine) : (s.setEdgeEng i v).router k = s.router k := rfl
@[simp] theorem State.gate_of_setEdgeEng (s : State) (i k : Nat) (v : Engine) : (s.setEdgeEng i v).gate k = s.gate k := rfl
@[simp] theorem State.group_of_setEdgeEng (s : State) (i k : Nat) (v : Engine) : (s.setEdgeEng i v).group k = s.group k := rfl
@[simp] theorem State.origin_of_setEdgeEng (s : State) (i k : Nat) (v : Engine) : (s.setEdgeEng i v).origin k = s.origin k := rfl
@[simp] theorem State.tailEng_of_setEdgeEng (s : State) (i k : Nat) (v : Engine) : (s.setEdgeEng i v).tailEng k = s.tailEng k := rfl
@[simp] theorem State.arb_of_setEdgeEng (s : State) (i k : Nat) (v : Engine) : (s.setEdgeEng i v).arb k = s.arb k := rfl
@[simp] theorem State.queue_of_setEdgeEng (s : State) (i k : Nat) (v : Engine) : (s.setEdgeEng i v).queue k = s.queue k := rfl
@[simp] theorem State.fn_of_setEdgeEng (s : State) (i k : Nat) (v : Engine) : (s.setEdgeEng i v).fn k = s.fn k := rfl
@[simp] theorem State.lock_of_setEdgeEng (s : State) (i k : Nat) (v : Engine) : (s.setEdgeEng i v).lock k = s.lock k := rfl
@[simp] theorem State.pool_of_setEdgeEng (s : State) (i k : Nat) (v : Engine) : (s.setEdgeEng i v).pool k = s.pool k := rfl
@[simp] theorem State.slot_of_setEdgeEng (s : State) (i k : Nat) (v : Engine) : (s.setEdgeEng i v).slot k = s.slot k := rfl
@[simp] theorem State.ctx_of_setEdgeEng (s : State) (i k : Nat) (v : Engine) : (s.setEdgeEng i v).ctx k = s.ctx k := rfl
@[simp] theorem State.epoch_of_setEdgeEng (s : State) (i k : Nat) (v : Engine) : (s.setEdgeEng i v).epoch k = s.epoch k := rfl
@[simp] theorem State.stackOf_of_setEdgeEng (s : State) (i k : Nat) (v : Engine) : (s.setEdgeEng i v).stackOf k = s.stackOf k := rfl
@[simp] theorem State.yport_of_setEdgeEng (s : State) (i k : Nat) (v : Engine) : (s.setEdgeEng i v).yport k = s.yport k := rfl
@[simp] theorem State.eth_of_setEdgeEng (s : State) (i k : Nat) (v : Engine) : (s.setEdgeEng i v).eth k = s.eth k := rfl
@[simp] theorem State.sender_of_setEdgeEng (s : State) (i k : Nat) (v : Engine) : (s.setEdgeEng i v).sender k = s.sender k := rfl
@[simp] theorem State.ep_of_setEdgeEng (s : State) (i k : Nat) (v : Engine) : (s.setEdgeEng i v).ep k = s.ep k := rfl

@[simp] theorem State.tailEng_setTailEng (s : State) (i : Nat) (v : Engine) : (s.setTailEng i v).tailEng i = v := Tab.get_set_same _ _ _ _
theorem State.tailEng_setTailEng_ne (s : State) (i k : Nat) (v : Engine) (h : i ≠ k) : (s.setTailEng i v).tailEng k = s.tailEng k := Tab.get_set_ne _ _ _ _ _ h
@[simp] theorem State.modTailEng_eq (s : State) (i : Nat) (f : Engine → Engine) : s.modTailEng i f = s.setTailEng i (f (s.tailEng i)) := rfl
@[simp] theorem State.pending_setTailEng (s : State) (i : Nat) (v : Engine) : (s.setTailEng i v).pending = s.pending := rfl
@[simp] theorem State.freeCount_setTailEng (s : State) (i : Nat) (v : Engine) : (s.setTailEng i v).freeCount = s.freeCount := rfl
@[simp] theorem State.kcycles_setTailEng (s : State) (i : Nat) (v : Engine) : (s.setTailEng i v).kcycles = s.kcycles := rfl
@[simp] theorem State.part_setTailEng (s : State) (i : Nat) (v : Engine) : (s.setTailEng i v).part = s.part := rfl
@[simp] theorem State.boot_setTailEng (s : State) (i : Nat) (v : Engine) : (s.setTailEng i v).boot = s.boot := rfl
@[simp] theorem State.modes_setTailEng (s : State) (i : Nat) (v : Engine) : (s.setTailEng i v).modes = s.modes := rfl
@[simp] theorem State.supply_setTailEng (s : State) (i : Nat) (v : Engine) : (s.setTailEng i v).supply = s.supply := rfl
@[simp] theorem State.dtb_setTailEng (s : State) (i : Nat) (v : Engine) : (s.setTailEng i v).dtb = s.dtb := rfl
@[simp] theorem State.seqr_setTailEng (s : State) (i : Nat) (v : Engine) : (s.setTailEng i v).seqr = s.seqr := rfl
@[simp] theorem State.greg_setTailEng (s : State) (i : Nat) (v : Engine) : (s.setTailEng i v).greg = s.greg := rfl
@[simp] theorem State.cspi_setTailEng (s : State) (i : Nat) (v : Engine) : (s.setTailEng i v).cspi = s.cspi := rfl
@[simp] theorem State.cap_setTailEng (s : State) (i : Nat) (v : Engine) : (s.setTailEng i v).cap = s.cap := rfl
@[simp] theorem State.fields_setTailEng (s : State) (i : Nat) (v : Engine) : (s.setTailEng i v).fields = s.fields := rfl
@[simp] theorem State.lostClocks_setTailEng (s : State) (i : Nat) (v : Engine) : (s.setTailEng i v).lostClocks = s.lostClocks := rfl
@[simp] theorem State.heads_setTailEng (s : State) (i : Nat) (v : Engine) : (s.setTailEng i v).heads = s.heads := rfl
@[simp] theorem State.store_setTailEng (s : State) (i : Nat) (v : Engine) : (s.setTailEng i v).store = s.store := rfl
@[simp] theorem State.streams_setTailEng (s : State) (i : Nat) (v : Engine) : (s.setTailEng i v).streams = s.streams := rfl
@[simp] theorem State.units_setTailEng (s : State) (i : Nat) (v : Engine) : (s.setTailEng i v).units = s.units := rfl
@[simp] theorem State.routers_setTailEng (s : State) (i : Nat) (v : Engine) : (s.setTailEng i v).routers = s.routers := rfl
@[simp] theorem State.gates_setTailEng (s : State) (i : Nat) (v : Engine) : (s.setTailEng i v).gates = s.gates := rfl
@[simp] theorem State.groups_setTailEng (s : State) (i : Nat) (v : Engine) : (s.setTailEng i v).groups = s.groups := rfl
@[simp] theorem State.origins_setTailEng (s : State) (i : Nat) (v : Engine) : (s.setTailEng i v).origins = s.origins := rfl
@[simp] theorem State.edges_setTailEng (s : State) (i : Nat) (v : Engine) : (s.setTailEng i v).edges = s.edges := rfl
@[simp] theorem State.arbs_setTailEng (s : State) (i : Nat) (v : Engine) : (s.setTailEng i v).arbs = s.arbs := rfl
@[simp] theorem State.queues_setTailEng (s : State) (i : Nat) (v : Engine) : (s.setTailEng i v).queues = s.queues := rfl
@[simp] theorem State.fns_setTailEng (s : State) (i : Nat) (v : Engine) : (s.setTailEng i v).fns = s.fns := rfl
@[simp] theorem State.locks_setTailEng (s : State) (i : Nat) (v : Engine) : (s.setTailEng i v).locks = s.locks := rfl
@[simp] theorem State.pools_setTailEng (s : State) (i : Nat) (v : Engine) : (s.setTailEng i v).pools = s.pools := rfl
@[simp] theorem State.slots_setTailEng (s : State) (i : Nat) (v : Engine) : (s.setTailEng i v).slots = s.slots := rfl
@[simp] theorem State.ctxs_setTailEng (s : State) (i : Nat) (v : Engine) : (s.setTailEng i v).ctxs = s.ctxs := rfl
@[simp] theorem State.epochs_setTailEng (s : State) (i : Nat) (v : Engine) : (s.setTailEng i v).epochs = s.epochs := rfl
@[simp] theorem State.hbmStacks_setTailEng (s : State) (i : Nat) (v : Engine) : (s.setTailEng i v).hbmStacks = s.hbmStacks := rfl
@[simp] theorem State.hbm_setTailEng (s : State) (i : Nat) (v : Engine) : (s.setTailEng i v).hbm = s.hbm := rfl
@[simp] theorem State.hostMem_setTailEng (s : State) (i : Nat) (v : Engine) : (s.setTailEng i v).hostMem = s.hostMem := rfl
@[simp] theorem State.hostIn_setTailEng (s : State) (i : Nat) (v : Engine) : (s.setTailEng i v).hostIn = s.hostIn := rfl
@[simp] theorem State.yports_setTailEng (s : State) (i : Nat) (v : Engine) : (s.setTailEng i v).yports = s.yports := rfl
@[simp] theorem State.eths_setTailEng (s : State) (i : Nat) (v : Engine) : (s.setTailEng i v).eths = s.eths := rfl
@[simp] theorem State.senders_setTailEng (s : State) (i : Nat) (v : Engine) : (s.setTailEng i v).senders = s.senders := rfl
@[simp] theorem State.eps_setTailEng (s : State) (i : Nat) (v : Engine) : (s.setTailEng i v).eps = s.eps := rfl
@[simp] theorem State.vfMap_setTailEng (s : State) (i : Nat) (v : Engine) : (s.setTailEng i v).vfMap = s.vfMap := rfl
@[simp] theorem State.vfEnable_setTailEng (s : State) (i : Nat) (v : Engine) : (s.setTailEng i v).vfEnable = s.vfEnable := rfl
@[simp] theorem State.field_of_setTailEng (s : State) (i k : Nat) (v : Engine) : (s.setTailEng i v).field k = s.field k := rfl
@[simp] theorem State.head_of_setTailEng (s : State) (i k : Nat) (v : Engine) : (s.setTailEng i v).head k = s.head k := rfl
@[simp] theorem State.strm_of_setTailEng (s : State) (i k : Nat) (v : Engine) : (s.setTailEng i v).strm k = s.strm k := rfl
@[simp] theorem State.unit_of_setTailEng (s : State) (i k : Nat) (v : Engine) : (s.setTailEng i v).unit k = s.unit k := rfl
@[simp] theorem State.router_of_setTailEng (s : State) (i k : Nat) (v : Engine) : (s.setTailEng i v).router k = s.router k := rfl
@[simp] theorem State.gate_of_setTailEng (s : State) (i k : Nat) (v : Engine) : (s.setTailEng i v).gate k = s.gate k := rfl
@[simp] theorem State.group_of_setTailEng (s : State) (i k : Nat) (v : Engine) : (s.setTailEng i v).group k = s.group k := rfl
@[simp] theorem State.origin_of_setTailEng (s : State) (i k : Nat) (v : Engine) : (s.setTailEng i v).origin k = s.origin k := rfl
@[simp] theorem State.edgeEng_of_setTailEng (s : State) (i k : Nat) (v : Engine) : (s.setTailEng i v).edgeEng k = s.edgeEng k := rfl
@[simp] theorem State.arb_of_setTailEng (s : State) (i k : Nat) (v : Engine) : (s.setTailEng i v).arb k = s.arb k := rfl
@[simp] theorem State.queue_of_setTailEng (s : State) (i k : Nat) (v : Engine) : (s.setTailEng i v).queue k = s.queue k := rfl
@[simp] theorem State.fn_of_setTailEng (s : State) (i k : Nat) (v : Engine) : (s.setTailEng i v).fn k = s.fn k := rfl
@[simp] theorem State.lock_of_setTailEng (s : State) (i k : Nat) (v : Engine) : (s.setTailEng i v).lock k = s.lock k := rfl
@[simp] theorem State.pool_of_setTailEng (s : State) (i k : Nat) (v : Engine) : (s.setTailEng i v).pool k = s.pool k := rfl
@[simp] theorem State.slot_of_setTailEng (s : State) (i k : Nat) (v : Engine) : (s.setTailEng i v).slot k = s.slot k := rfl
@[simp] theorem State.ctx_of_setTailEng (s : State) (i k : Nat) (v : Engine) : (s.setTailEng i v).ctx k = s.ctx k := rfl
@[simp] theorem State.epoch_of_setTailEng (s : State) (i k : Nat) (v : Engine) : (s.setTailEng i v).epoch k = s.epoch k := rfl
@[simp] theorem State.stackOf_of_setTailEng (s : State) (i k : Nat) (v : Engine) : (s.setTailEng i v).stackOf k = s.stackOf k := rfl
@[simp] theorem State.yport_of_setTailEng (s : State) (i k : Nat) (v : Engine) : (s.setTailEng i v).yport k = s.yport k := rfl
@[simp] theorem State.eth_of_setTailEng (s : State) (i k : Nat) (v : Engine) : (s.setTailEng i v).eth k = s.eth k := rfl
@[simp] theorem State.sender_of_setTailEng (s : State) (i k : Nat) (v : Engine) : (s.setTailEng i v).sender k = s.sender k := rfl
@[simp] theorem State.ep_of_setTailEng (s : State) (i k : Nat) (v : Engine) : (s.setTailEng i v).ep k = s.ep k := rfl

@[simp] theorem State.arb_setArb (s : State) (i : Nat) (v : Arbiter) : (s.setArb i v).arb i = v := Tab.get_set_same _ _ _ _
theorem State.arb_setArb_ne (s : State) (i k : Nat) (v : Arbiter) (h : i ≠ k) : (s.setArb i v).arb k = s.arb k := Tab.get_set_ne _ _ _ _ _ h
@[simp] theorem State.modArb_eq (s : State) (i : Nat) (f : Arbiter → Arbiter) : s.modArb i f = s.setArb i (f (s.arb i)) := rfl
@[simp] theorem State.pending_setArb (s : State) (i : Nat) (v : Arbiter) : (s.setArb i v).pending = s.pending := rfl
@[simp] theorem State.freeCount_setArb (s : State) (i : Nat) (v : Arbiter) : (s.setArb i v).freeCount = s.freeCount := rfl
@[simp] theorem State.kcycles_setArb (s : State) (i : Nat) (v : Arbiter) : (s.setArb i v).kcycles = s.kcycles := rfl
@[simp] theorem State.part_setArb (s : State) (i : Nat) (v : Arbiter) : (s.setArb i v).part = s.part := rfl
@[simp] theorem State.boot_setArb (s : State) (i : Nat) (v : Arbiter) : (s.setArb i v).boot = s.boot := rfl
@[simp] theorem State.modes_setArb (s : State) (i : Nat) (v : Arbiter) : (s.setArb i v).modes = s.modes := rfl
@[simp] theorem State.supply_setArb (s : State) (i : Nat) (v : Arbiter) : (s.setArb i v).supply = s.supply := rfl
@[simp] theorem State.dtb_setArb (s : State) (i : Nat) (v : Arbiter) : (s.setArb i v).dtb = s.dtb := rfl
@[simp] theorem State.seqr_setArb (s : State) (i : Nat) (v : Arbiter) : (s.setArb i v).seqr = s.seqr := rfl
@[simp] theorem State.greg_setArb (s : State) (i : Nat) (v : Arbiter) : (s.setArb i v).greg = s.greg := rfl
@[simp] theorem State.cspi_setArb (s : State) (i : Nat) (v : Arbiter) : (s.setArb i v).cspi = s.cspi := rfl
@[simp] theorem State.cap_setArb (s : State) (i : Nat) (v : Arbiter) : (s.setArb i v).cap = s.cap := rfl
@[simp] theorem State.fields_setArb (s : State) (i : Nat) (v : Arbiter) : (s.setArb i v).fields = s.fields := rfl
@[simp] theorem State.lostClocks_setArb (s : State) (i : Nat) (v : Arbiter) : (s.setArb i v).lostClocks = s.lostClocks := rfl
@[simp] theorem State.heads_setArb (s : State) (i : Nat) (v : Arbiter) : (s.setArb i v).heads = s.heads := rfl
@[simp] theorem State.store_setArb (s : State) (i : Nat) (v : Arbiter) : (s.setArb i v).store = s.store := rfl
@[simp] theorem State.streams_setArb (s : State) (i : Nat) (v : Arbiter) : (s.setArb i v).streams = s.streams := rfl
@[simp] theorem State.units_setArb (s : State) (i : Nat) (v : Arbiter) : (s.setArb i v).units = s.units := rfl
@[simp] theorem State.routers_setArb (s : State) (i : Nat) (v : Arbiter) : (s.setArb i v).routers = s.routers := rfl
@[simp] theorem State.gates_setArb (s : State) (i : Nat) (v : Arbiter) : (s.setArb i v).gates = s.gates := rfl
@[simp] theorem State.groups_setArb (s : State) (i : Nat) (v : Arbiter) : (s.setArb i v).groups = s.groups := rfl
@[simp] theorem State.origins_setArb (s : State) (i : Nat) (v : Arbiter) : (s.setArb i v).origins = s.origins := rfl
@[simp] theorem State.edges_setArb (s : State) (i : Nat) (v : Arbiter) : (s.setArb i v).edges = s.edges := rfl
@[simp] theorem State.tails_setArb (s : State) (i : Nat) (v : Arbiter) : (s.setArb i v).tails = s.tails := rfl
@[simp] theorem State.queues_setArb (s : State) (i : Nat) (v : Arbiter) : (s.setArb i v).queues = s.queues := rfl
@[simp] theorem State.fns_setArb (s : State) (i : Nat) (v : Arbiter) : (s.setArb i v).fns = s.fns := rfl
@[simp] theorem State.locks_setArb (s : State) (i : Nat) (v : Arbiter) : (s.setArb i v).locks = s.locks := rfl
@[simp] theorem State.pools_setArb (s : State) (i : Nat) (v : Arbiter) : (s.setArb i v).pools = s.pools := rfl
@[simp] theorem State.slots_setArb (s : State) (i : Nat) (v : Arbiter) : (s.setArb i v).slots = s.slots := rfl
@[simp] theorem State.ctxs_setArb (s : State) (i : Nat) (v : Arbiter) : (s.setArb i v).ctxs = s.ctxs := rfl
@[simp] theorem State.epochs_setArb (s : State) (i : Nat) (v : Arbiter) : (s.setArb i v).epochs = s.epochs := rfl
@[simp] theorem State.hbmStacks_setArb (s : State) (i : Nat) (v : Arbiter) : (s.setArb i v).hbmStacks = s.hbmStacks := rfl
@[simp] theorem State.hbm_setArb (s : State) (i : Nat) (v : Arbiter) : (s.setArb i v).hbm = s.hbm := rfl
@[simp] theorem State.hostMem_setArb (s : State) (i : Nat) (v : Arbiter) : (s.setArb i v).hostMem = s.hostMem := rfl
@[simp] theorem State.hostIn_setArb (s : State) (i : Nat) (v : Arbiter) : (s.setArb i v).hostIn = s.hostIn := rfl
@[simp] theorem State.yports_setArb (s : State) (i : Nat) (v : Arbiter) : (s.setArb i v).yports = s.yports := rfl
@[simp] theorem State.eths_setArb (s : State) (i : Nat) (v : Arbiter) : (s.setArb i v).eths = s.eths := rfl
@[simp] theorem State.senders_setArb (s : State) (i : Nat) (v : Arbiter) : (s.setArb i v).senders = s.senders := rfl
@[simp] theorem State.eps_setArb (s : State) (i : Nat) (v : Arbiter) : (s.setArb i v).eps = s.eps := rfl
@[simp] theorem State.vfMap_setArb (s : State) (i : Nat) (v : Arbiter) : (s.setArb i v).vfMap = s.vfMap := rfl
@[simp] theorem State.vfEnable_setArb (s : State) (i : Nat) (v : Arbiter) : (s.setArb i v).vfEnable = s.vfEnable := rfl
@[simp] theorem State.field_of_setArb (s : State) (i k : Nat) (v : Arbiter) : (s.setArb i v).field k = s.field k := rfl
@[simp] theorem State.head_of_setArb (s : State) (i k : Nat) (v : Arbiter) : (s.setArb i v).head k = s.head k := rfl
@[simp] theorem State.strm_of_setArb (s : State) (i k : Nat) (v : Arbiter) : (s.setArb i v).strm k = s.strm k := rfl
@[simp] theorem State.unit_of_setArb (s : State) (i k : Nat) (v : Arbiter) : (s.setArb i v).unit k = s.unit k := rfl
@[simp] theorem State.router_of_setArb (s : State) (i k : Nat) (v : Arbiter) : (s.setArb i v).router k = s.router k := rfl
@[simp] theorem State.gate_of_setArb (s : State) (i k : Nat) (v : Arbiter) : (s.setArb i v).gate k = s.gate k := rfl
@[simp] theorem State.group_of_setArb (s : State) (i k : Nat) (v : Arbiter) : (s.setArb i v).group k = s.group k := rfl
@[simp] theorem State.origin_of_setArb (s : State) (i k : Nat) (v : Arbiter) : (s.setArb i v).origin k = s.origin k := rfl
@[simp] theorem State.edgeEng_of_setArb (s : State) (i k : Nat) (v : Arbiter) : (s.setArb i v).edgeEng k = s.edgeEng k := rfl
@[simp] theorem State.tailEng_of_setArb (s : State) (i k : Nat) (v : Arbiter) : (s.setArb i v).tailEng k = s.tailEng k := rfl
@[simp] theorem State.queue_of_setArb (s : State) (i k : Nat) (v : Arbiter) : (s.setArb i v).queue k = s.queue k := rfl
@[simp] theorem State.fn_of_setArb (s : State) (i k : Nat) (v : Arbiter) : (s.setArb i v).fn k = s.fn k := rfl
@[simp] theorem State.lock_of_setArb (s : State) (i k : Nat) (v : Arbiter) : (s.setArb i v).lock k = s.lock k := rfl
@[simp] theorem State.pool_of_setArb (s : State) (i k : Nat) (v : Arbiter) : (s.setArb i v).pool k = s.pool k := rfl
@[simp] theorem State.slot_of_setArb (s : State) (i k : Nat) (v : Arbiter) : (s.setArb i v).slot k = s.slot k := rfl
@[simp] theorem State.ctx_of_setArb (s : State) (i k : Nat) (v : Arbiter) : (s.setArb i v).ctx k = s.ctx k := rfl
@[simp] theorem State.epoch_of_setArb (s : State) (i k : Nat) (v : Arbiter) : (s.setArb i v).epoch k = s.epoch k := rfl
@[simp] theorem State.stackOf_of_setArb (s : State) (i k : Nat) (v : Arbiter) : (s.setArb i v).stackOf k = s.stackOf k := rfl
@[simp] theorem State.yport_of_setArb (s : State) (i k : Nat) (v : Arbiter) : (s.setArb i v).yport k = s.yport k := rfl
@[simp] theorem State.eth_of_setArb (s : State) (i k : Nat) (v : Arbiter) : (s.setArb i v).eth k = s.eth k := rfl
@[simp] theorem State.sender_of_setArb (s : State) (i k : Nat) (v : Arbiter) : (s.setArb i v).sender k = s.sender k := rfl
@[simp] theorem State.ep_of_setArb (s : State) (i k : Nat) (v : Arbiter) : (s.setArb i v).ep k = s.ep k := rfl

@[simp] theorem State.queue_setQueue (s : State) (i : Nat) (v : FQueue) : (s.setQueue i v).queue i = v := Tab.get_set_same _ _ _ _
theorem State.queue_setQueue_ne (s : State) (i k : Nat) (v : FQueue) (h : i ≠ k) : (s.setQueue i v).queue k = s.queue k := Tab.get_set_ne _ _ _ _ _ h
@[simp] theorem State.modQueue_eq (s : State) (i : Nat) (f : FQueue → FQueue) : s.modQueue i f = s.setQueue i (f (s.queue i)) := rfl
@[simp] theorem State.pending_setQueue (s : State) (i : Nat) (v : FQueue) : (s.setQueue i v).pending = s.pending := rfl
@[simp] theorem State.freeCount_setQueue (s : State) (i : Nat) (v : FQueue) : (s.setQueue i v).freeCount = s.freeCount := rfl
@[simp] theorem State.kcycles_setQueue (s : State) (i : Nat) (v : FQueue) : (s.setQueue i v).kcycles = s.kcycles := rfl
@[simp] theorem State.part_setQueue (s : State) (i : Nat) (v : FQueue) : (s.setQueue i v).part = s.part := rfl
@[simp] theorem State.boot_setQueue (s : State) (i : Nat) (v : FQueue) : (s.setQueue i v).boot = s.boot := rfl
@[simp] theorem State.modes_setQueue (s : State) (i : Nat) (v : FQueue) : (s.setQueue i v).modes = s.modes := rfl
@[simp] theorem State.supply_setQueue (s : State) (i : Nat) (v : FQueue) : (s.setQueue i v).supply = s.supply := rfl
@[simp] theorem State.dtb_setQueue (s : State) (i : Nat) (v : FQueue) : (s.setQueue i v).dtb = s.dtb := rfl
@[simp] theorem State.seqr_setQueue (s : State) (i : Nat) (v : FQueue) : (s.setQueue i v).seqr = s.seqr := rfl
@[simp] theorem State.greg_setQueue (s : State) (i : Nat) (v : FQueue) : (s.setQueue i v).greg = s.greg := rfl
@[simp] theorem State.cspi_setQueue (s : State) (i : Nat) (v : FQueue) : (s.setQueue i v).cspi = s.cspi := rfl
@[simp] theorem State.cap_setQueue (s : State) (i : Nat) (v : FQueue) : (s.setQueue i v).cap = s.cap := rfl
@[simp] theorem State.fields_setQueue (s : State) (i : Nat) (v : FQueue) : (s.setQueue i v).fields = s.fields := rfl
@[simp] theorem State.lostClocks_setQueue (s : State) (i : Nat) (v : FQueue) : (s.setQueue i v).lostClocks = s.lostClocks := rfl
@[simp] theorem State.heads_setQueue (s : State) (i : Nat) (v : FQueue) : (s.setQueue i v).heads = s.heads := rfl
@[simp] theorem State.store_setQueue (s : State) (i : Nat) (v : FQueue) : (s.setQueue i v).store = s.store := rfl
@[simp] theorem State.streams_setQueue (s : State) (i : Nat) (v : FQueue) : (s.setQueue i v).streams = s.streams := rfl
@[simp] theorem State.units_setQueue (s : State) (i : Nat) (v : FQueue) : (s.setQueue i v).units = s.units := rfl
@[simp] theorem State.routers_setQueue (s : State) (i : Nat) (v : FQueue) : (s.setQueue i v).routers = s.routers := rfl
@[simp] theorem State.gates_setQueue (s : State) (i : Nat) (v : FQueue) : (s.setQueue i v).gates = s.gates := rfl
@[simp] theorem State.groups_setQueue (s : State) (i : Nat) (v : FQueue) : (s.setQueue i v).groups = s.groups := rfl
@[simp] theorem State.origins_setQueue (s : State) (i : Nat) (v : FQueue) : (s.setQueue i v).origins = s.origins := rfl
@[simp] theorem State.edges_setQueue (s : State) (i : Nat) (v : FQueue) : (s.setQueue i v).edges = s.edges := rfl
@[simp] theorem State.tails_setQueue (s : State) (i : Nat) (v : FQueue) : (s.setQueue i v).tails = s.tails := rfl
@[simp] theorem State.arbs_setQueue (s : State) (i : Nat) (v : FQueue) : (s.setQueue i v).arbs = s.arbs := rfl
@[simp] theorem State.fns_setQueue (s : State) (i : Nat) (v : FQueue) : (s.setQueue i v).fns = s.fns := rfl
@[simp] theorem State.locks_setQueue (s : State) (i : Nat) (v : FQueue) : (s.setQueue i v).locks = s.locks := rfl
@[simp] theorem State.pools_setQueue (s : State) (i : Nat) (v : FQueue) : (s.setQueue i v).pools = s.pools := rfl
@[simp] theorem State.slots_setQueue (s : State) (i : Nat) (v : FQueue) : (s.setQueue i v).slots = s.slots := rfl
@[simp] theorem State.ctxs_setQueue (s : State) (i : Nat) (v : FQueue) : (s.setQueue i v).ctxs = s.ctxs := rfl
@[simp] theorem State.epochs_setQueue (s : State) (i : Nat) (v : FQueue) : (s.setQueue i v).epochs = s.epochs := rfl
@[simp] theorem State.hbmStacks_setQueue (s : State) (i : Nat) (v : FQueue) : (s.setQueue i v).hbmStacks = s.hbmStacks := rfl
@[simp] theorem State.hbm_setQueue (s : State) (i : Nat) (v : FQueue) : (s.setQueue i v).hbm = s.hbm := rfl
@[simp] theorem State.hostMem_setQueue (s : State) (i : Nat) (v : FQueue) : (s.setQueue i v).hostMem = s.hostMem := rfl
@[simp] theorem State.hostIn_setQueue (s : State) (i : Nat) (v : FQueue) : (s.setQueue i v).hostIn = s.hostIn := rfl
@[simp] theorem State.yports_setQueue (s : State) (i : Nat) (v : FQueue) : (s.setQueue i v).yports = s.yports := rfl
@[simp] theorem State.eths_setQueue (s : State) (i : Nat) (v : FQueue) : (s.setQueue i v).eths = s.eths := rfl
@[simp] theorem State.senders_setQueue (s : State) (i : Nat) (v : FQueue) : (s.setQueue i v).senders = s.senders := rfl
@[simp] theorem State.eps_setQueue (s : State) (i : Nat) (v : FQueue) : (s.setQueue i v).eps = s.eps := rfl
@[simp] theorem State.vfMap_setQueue (s : State) (i : Nat) (v : FQueue) : (s.setQueue i v).vfMap = s.vfMap := rfl
@[simp] theorem State.vfEnable_setQueue (s : State) (i : Nat) (v : FQueue) : (s.setQueue i v).vfEnable = s.vfEnable := rfl
@[simp] theorem State.field_of_setQueue (s : State) (i k : Nat) (v : FQueue) : (s.setQueue i v).field k = s.field k := rfl
@[simp] theorem State.head_of_setQueue (s : State) (i k : Nat) (v : FQueue) : (s.setQueue i v).head k = s.head k := rfl
@[simp] theorem State.strm_of_setQueue (s : State) (i k : Nat) (v : FQueue) : (s.setQueue i v).strm k = s.strm k := rfl
@[simp] theorem State.unit_of_setQueue (s : State) (i k : Nat) (v : FQueue) : (s.setQueue i v).unit k = s.unit k := rfl
@[simp] theorem State.router_of_setQueue (s : State) (i k : Nat) (v : FQueue) : (s.setQueue i v).router k = s.router k := rfl
@[simp] theorem State.gate_of_setQueue (s : State) (i k : Nat) (v : FQueue) : (s.setQueue i v).gate k = s.gate k := rfl
@[simp] theorem State.group_of_setQueue (s : State) (i k : Nat) (v : FQueue) : (s.setQueue i v).group k = s.group k := rfl
@[simp] theorem State.origin_of_setQueue (s : State) (i k : Nat) (v : FQueue) : (s.setQueue i v).origin k = s.origin k := rfl
@[simp] theorem State.edgeEng_of_setQueue (s : State) (i k : Nat) (v : FQueue) : (s.setQueue i v).edgeEng k = s.edgeEng k := rfl
@[simp] theorem State.tailEng_of_setQueue (s : State) (i k : Nat) (v : FQueue) : (s.setQueue i v).tailEng k = s.tailEng k := rfl
@[simp] theorem State.arb_of_setQueue (s : State) (i k : Nat) (v : FQueue) : (s.setQueue i v).arb k = s.arb k := rfl
@[simp] theorem State.fn_of_setQueue (s : State) (i k : Nat) (v : FQueue) : (s.setQueue i v).fn k = s.fn k := rfl
@[simp] theorem State.lock_of_setQueue (s : State) (i k : Nat) (v : FQueue) : (s.setQueue i v).lock k = s.lock k := rfl
@[simp] theorem State.pool_of_setQueue (s : State) (i k : Nat) (v : FQueue) : (s.setQueue i v).pool k = s.pool k := rfl
@[simp] theorem State.slot_of_setQueue (s : State) (i k : Nat) (v : FQueue) : (s.setQueue i v).slot k = s.slot k := rfl
@[simp] theorem State.ctx_of_setQueue (s : State) (i k : Nat) (v : FQueue) : (s.setQueue i v).ctx k = s.ctx k := rfl
@[simp] theorem State.epoch_of_setQueue (s : State) (i k : Nat) (v : FQueue) : (s.setQueue i v).epoch k = s.epoch k := rfl
@[simp] theorem State.stackOf_of_setQueue (s : State) (i k : Nat) (v : FQueue) : (s.setQueue i v).stackOf k = s.stackOf k := rfl
@[simp] theorem State.yport_of_setQueue (s : State) (i k : Nat) (v : FQueue) : (s.setQueue i v).yport k = s.yport k := rfl
@[simp] theorem State.eth_of_setQueue (s : State) (i k : Nat) (v : FQueue) : (s.setQueue i v).eth k = s.eth k := rfl
@[simp] theorem State.sender_of_setQueue (s : State) (i k : Nat) (v : FQueue) : (s.setQueue i v).sender k = s.sender k := rfl
@[simp] theorem State.ep_of_setQueue (s : State) (i k : Nat) (v : FQueue) : (s.setQueue i v).ep k = s.ep k := rfl

@[simp] theorem State.fn_setFn (s : State) (i : Nat) (v : Fn) : (s.setFn i v).fn i = v := Tab.get_set_same _ _ _ _
theorem State.fn_setFn_ne (s : State) (i k : Nat) (v : Fn) (h : i ≠ k) : (s.setFn i v).fn k = s.fn k := Tab.get_set_ne _ _ _ _ _ h
@[simp] theorem State.modFn_eq (s : State) (i : Nat) (f : Fn → Fn) : s.modFn i f = s.setFn i (f (s.fn i)) := rfl
@[simp] theorem State.pending_setFn (s : State) (i : Nat) (v : Fn) : (s.setFn i v).pending = s.pending := rfl
@[simp] theorem State.freeCount_setFn (s : State) (i : Nat) (v : Fn) : (s.setFn i v).freeCount = s.freeCount := rfl
@[simp] theorem State.kcycles_setFn (s : State) (i : Nat) (v : Fn) : (s.setFn i v).kcycles = s.kcycles := rfl
@[simp] theorem State.part_setFn (s : State) (i : Nat) (v : Fn) : (s.setFn i v).part = s.part := rfl
@[simp] theorem State.boot_setFn (s : State) (i : Nat) (v : Fn) : (s.setFn i v).boot = s.boot := rfl
@[simp] theorem State.modes_setFn (s : State) (i : Nat) (v : Fn) : (s.setFn i v).modes = s.modes := rfl
@[simp] theorem State.supply_setFn (s : State) (i : Nat) (v : Fn) : (s.setFn i v).supply = s.supply := rfl
@[simp] theorem State.dtb_setFn (s : State) (i : Nat) (v : Fn) : (s.setFn i v).dtb = s.dtb := rfl
@[simp] theorem State.seqr_setFn (s : State) (i : Nat) (v : Fn) : (s.setFn i v).seqr = s.seqr := rfl
@[simp] theorem State.greg_setFn (s : State) (i : Nat) (v : Fn) : (s.setFn i v).greg = s.greg := rfl
@[simp] theorem State.cspi_setFn (s : State) (i : Nat) (v : Fn) : (s.setFn i v).cspi = s.cspi := rfl
@[simp] theorem State.cap_setFn (s : State) (i : Nat) (v : Fn) : (s.setFn i v).cap = s.cap := rfl
@[simp] theorem State.fields_setFn (s : State) (i : Nat) (v : Fn) : (s.setFn i v).fields = s.fields := rfl
@[simp] theorem State.lostClocks_setFn (s : State) (i : Nat) (v : Fn) : (s.setFn i v).lostClocks = s.lostClocks := rfl
@[simp] theorem State.heads_setFn (s : State) (i : Nat) (v : Fn) : (s.setFn i v).heads = s.heads := rfl
@[simp] theorem State.store_setFn (s : State) (i : Nat) (v : Fn) : (s.setFn i v).store = s.store := rfl
@[simp] theorem State.streams_setFn (s : State) (i : Nat) (v : Fn) : (s.setFn i v).streams = s.streams := rfl
@[simp] theorem State.units_setFn (s : State) (i : Nat) (v : Fn) : (s.setFn i v).units = s.units := rfl
@[simp] theorem State.routers_setFn (s : State) (i : Nat) (v : Fn) : (s.setFn i v).routers = s.routers := rfl
@[simp] theorem State.gates_setFn (s : State) (i : Nat) (v : Fn) : (s.setFn i v).gates = s.gates := rfl
@[simp] theorem State.groups_setFn (s : State) (i : Nat) (v : Fn) : (s.setFn i v).groups = s.groups := rfl
@[simp] theorem State.origins_setFn (s : State) (i : Nat) (v : Fn) : (s.setFn i v).origins = s.origins := rfl
@[simp] theorem State.edges_setFn (s : State) (i : Nat) (v : Fn) : (s.setFn i v).edges = s.edges := rfl
@[simp] theorem State.tails_setFn (s : State) (i : Nat) (v : Fn) : (s.setFn i v).tails = s.tails := rfl
@[simp] theorem State.arbs_setFn (s : State) (i : Nat) (v : Fn) : (s.setFn i v).arbs = s.arbs := rfl
@[simp] theorem State.queues_setFn (s : State) (i : Nat) (v : Fn) : (s.setFn i v).queues = s.queues := rfl
@[simp] theorem State.locks_setFn (s : State) (i : Nat) (v : Fn) : (s.setFn i v).locks = s.locks := rfl
@[simp] theorem State.pools_setFn (s : State) (i : Nat) (v : Fn) : (s.setFn i v).pools = s.pools := rfl
@[simp] theorem State.slots_setFn (s : State) (i : Nat) (v : Fn) : (s.setFn i v).slots = s.slots := rfl
@[simp] theorem State.ctxs_setFn (s : State) (i : Nat) (v : Fn) : (s.setFn i v).ctxs = s.ctxs := rfl
@[simp] theorem State.epochs_setFn (s : State) (i : Nat) (v : Fn) : (s.setFn i v).epochs = s.epochs := rfl
@[simp] theorem State.hbmStacks_setFn (s : State) (i : Nat) (v : Fn) : (s.setFn i v).hbmStacks = s.hbmStacks := rfl
@[simp] theorem State.hbm_setFn (s : State) (i : Nat) (v : Fn) : (s.setFn i v).hbm = s.hbm := rfl
@[simp] theorem State.hostMem_setFn (s : State) (i : Nat) (v : Fn) : (s.setFn i v).hostMem = s.hostMem := rfl
@[simp] theorem State.hostIn_setFn (s : State) (i : Nat) (v : Fn) : (s.setFn i v).hostIn = s.hostIn := rfl
@[simp] theorem State.yports_setFn (s : State) (i : Nat) (v : Fn) : (s.setFn i v).yports = s.yports := rfl
@[simp] theorem State.eths_setFn (s : State) (i : Nat) (v : Fn) : (s.setFn i v).eths = s.eths := rfl
@[simp] theorem State.senders_setFn (s : State) (i : Nat) (v : Fn) : (s.setFn i v).senders = s.senders := rfl
@[simp] theorem State.eps_setFn (s : State) (i : Nat) (v : Fn) : (s.setFn i v).eps = s.eps := rfl
@[simp] theorem State.vfMap_setFn (s : State) (i : Nat) (v : Fn) : (s.setFn i v).vfMap = s.vfMap := rfl
@[simp] theorem State.vfEnable_setFn (s : State) (i : Nat) (v : Fn) : (s.setFn i v).vfEnable = s.vfEnable := rfl
@[simp] theorem State.field_of_setFn (s : State) (i k : Nat) (v : Fn) : (s.setFn i v).field k = s.field k := rfl
@[simp] theorem State.head_of_setFn (s : State) (i k : Nat) (v : Fn) : (s.setFn i v).head k = s.head k := rfl
@[simp] theorem State.strm_of_setFn (s : State) (i k : Nat) (v : Fn) : (s.setFn i v).strm k = s.strm k := rfl
@[simp] theorem State.unit_of_setFn (s : State) (i k : Nat) (v : Fn) : (s.setFn i v).unit k = s.unit k := rfl
@[simp] theorem State.router_of_setFn (s : State) (i k : Nat) (v : Fn) : (s.setFn i v).router k = s.router k := rfl
@[simp] theorem State.gate_of_setFn (s : State) (i k : Nat) (v : Fn) : (s.setFn i v).gate k = s.gate k := rfl
@[simp] theorem State.group_of_setFn (s : State) (i k : Nat) (v : Fn) : (s.setFn i v).group k = s.group k := rfl
@[simp] theorem State.origin_of_setFn (s : State) (i k : Nat) (v : Fn) : (s.setFn i v).origin k = s.origin k := rfl
@[simp] theorem State.edgeEng_of_setFn (s : State) (i k : Nat) (v : Fn) : (s.setFn i v).edgeEng k = s.edgeEng k := rfl
@[simp] theorem State.tailEng_of_setFn (s : State) (i k : Nat) (v : Fn) : (s.setFn i v).tailEng k = s.tailEng k := rfl
@[simp] theorem State.arb_of_setFn (s : State) (i k : Nat) (v : Fn) : (s.setFn i v).arb k = s.arb k := rfl
@[simp] theorem State.queue_of_setFn (s : State) (i k : Nat) (v : Fn) : (s.setFn i v).queue k = s.queue k := rfl
@[simp] theorem State.lock_of_setFn (s : State) (i k : Nat) (v : Fn) : (s.setFn i v).lock k = s.lock k := rfl
@[simp] theorem State.pool_of_setFn (s : State) (i k : Nat) (v : Fn) : (s.setFn i v).pool k = s.pool k := rfl
@[simp] theorem State.slot_of_setFn (s : State) (i k : Nat) (v : Fn) : (s.setFn i v).slot k = s.slot k := rfl
@[simp] theorem State.ctx_of_setFn (s : State) (i k : Nat) (v : Fn) : (s.setFn i v).ctx k = s.ctx k := rfl
@[simp] theorem State.epoch_of_setFn (s : State) (i k : Nat) (v : Fn) : (s.setFn i v).epoch k = s.epoch k := rfl
@[simp] theorem State.stackOf_of_setFn (s : State) (i k : Nat) (v : Fn) : (s.setFn i v).stackOf k = s.stackOf k := rfl
@[simp] theorem State.yport_of_setFn (s : State) (i k : Nat) (v : Fn) : (s.setFn i v).yport k = s.yport k := rfl
@[simp] theorem State.eth_of_setFn (s : State) (i k : Nat) (v : Fn) : (s.setFn i v).eth k = s.eth k := rfl
@[simp] theorem State.sender_of_setFn (s : State) (i k : Nat) (v : Fn) : (s.setFn i v).sender k = s.sender k := rfl
@[simp] theorem State.ep_of_setFn (s : State) (i k : Nat) (v : Fn) : (s.setFn i v).ep k = s.ep k := rfl

@[simp] theorem State.lock_setLock (s : State) (i : Nat) (v : Lock) : (s.setLock i v).lock i = v := Tab.get_set_same _ _ _ _
theorem State.lock_setLock_ne (s : State) (i k : Nat) (v : Lock) (h : i ≠ k) : (s.setLock i v).lock k = s.lock k := Tab.get_set_ne _ _ _ _ _ h
@[simp] theorem State.modLock_eq (s : State) (i : Nat) (f : Lock → Lock) : s.modLock i f = s.setLock i (f (s.lock i)) := rfl
@[simp] theorem State.pending_setLock (s : State) (i : Nat) (v : Lock) : (s.setLock i v).pending = s.pending := rfl
@[simp] theorem State.freeCount_setLock (s : State) (i : Nat) (v : Lock) : (s.setLock i v).freeCount = s.freeCount := rfl
@[simp] theorem State.kcycles_setLock (s : State) (i : Nat) (v : Lock) : (s.setLock i v).kcycles = s.kcycles := rfl
@[simp] theorem State.part_setLock (s : State) (i : Nat) (v : Lock) : (s.setLock i v).part = s.part := rfl
@[simp] theorem State.boot_setLock (s : State) (i : Nat) (v : Lock) : (s.setLock i v).boot = s.boot := rfl
@[simp] theorem State.modes_setLock (s : State) (i : Nat) (v : Lock) : (s.setLock i v).modes = s.modes := rfl
@[simp] theorem State.supply_setLock (s : State) (i : Nat) (v : Lock) : (s.setLock i v).supply = s.supply := rfl
@[simp] theorem State.dtb_setLock (s : State) (i : Nat) (v : Lock) : (s.setLock i v).dtb = s.dtb := rfl
@[simp] theorem State.seqr_setLock (s : State) (i : Nat) (v : Lock) : (s.setLock i v).seqr = s.seqr := rfl
@[simp] theorem State.greg_setLock (s : State) (i : Nat) (v : Lock) : (s.setLock i v).greg = s.greg := rfl
@[simp] theorem State.cspi_setLock (s : State) (i : Nat) (v : Lock) : (s.setLock i v).cspi = s.cspi := rfl
@[simp] theorem State.cap_setLock (s : State) (i : Nat) (v : Lock) : (s.setLock i v).cap = s.cap := rfl
@[simp] theorem State.fields_setLock (s : State) (i : Nat) (v : Lock) : (s.setLock i v).fields = s.fields := rfl
@[simp] theorem State.lostClocks_setLock (s : State) (i : Nat) (v : Lock) : (s.setLock i v).lostClocks = s.lostClocks := rfl
@[simp] theorem State.heads_setLock (s : State) (i : Nat) (v : Lock) : (s.setLock i v).heads = s.heads := rfl
@[simp] theorem State.store_setLock (s : State) (i : Nat) (v : Lock) : (s.setLock i v).store = s.store := rfl
@[simp] theorem State.streams_setLock (s : State) (i : Nat) (v : Lock) : (s.setLock i v).streams = s.streams := rfl
@[simp] theorem State.units_setLock (s : State) (i : Nat) (v : Lock) : (s.setLock i v).units = s.units := rfl
@[simp] theorem State.routers_setLock (s : State) (i : Nat) (v : Lock) : (s.setLock i v).routers = s.routers := rfl
@[simp] theorem State.gates_setLock (s : State) (i : Nat) (v : Lock) : (s.setLock i v).gates = s.gates := rfl
@[simp] theorem State.groups_setLock (s : State) (i : Nat) (v : Lock) : (s.setLock i v).groups = s.groups := rfl
@[simp] theorem State.origins_setLock (s : State) (i : Nat) (v : Lock) : (s.setLock i v).origins = s.origins := rfl
@[simp] theorem State.edges_setLock (s : State) (i : Nat) (v : Lock) : (s.setLock i v).edges = s.edges := rfl
@[simp] theorem State.tails_setLock (s : State) (i : Nat) (v : Lock) : (s.setLock i v).tails = s.tails := rfl
@[simp] theorem State.arbs_setLock (s : State) (i : Nat) (v : Lock) : (s.setLock i v).arbs = s.arbs := rfl
@[simp] theorem State.queues_setLock (s : State) (i : Nat) (v : Lock) : (s.setLock i v).queues = s.queues := rfl
@[simp] theorem State.fns_setLock (s : State) (i : Nat) (v : Lock) : (s.setLock i v).fns = s.fns := rfl
@[simp] theorem State.pools_setLock (s : State) (i : Nat) (v : Lock) : (s.setLock i v).pools = s.pools := rfl
@[simp] theorem State.slots_setLock (s : State) (i : Nat) (v : Lock) : (s.setLock i v).slots = s.slots := rfl
@[simp] theorem State.ctxs_setLock (s : State) (i : Nat) (v : Lock) : (s.setLock i v).ctxs = s.ctxs := rfl
@[simp] theorem State.epochs_setLock (s : State) (i : Nat) (v : Lock) : (s.setLock i v).epochs = s.epochs := rfl
@[simp] theorem State.hbmStacks_setLock (s : State) (i : Nat) (v : Lock) : (s.setLock i v).hbmStacks = s.hbmStacks := rfl
@[simp] theorem State.hbm_setLock (s : State) (i : Nat) (v : Lock) : (s.setLock i v).hbm = s.hbm := rfl
@[simp] theorem State.hostMem_setLock (s : State) (i : Nat) (v : Lock) : (s.setLock i v).hostMem = s.hostMem := rfl
@[simp] theorem State.hostIn_setLock (s : State) (i : Nat) (v : Lock) : (s.setLock i v).hostIn = s.hostIn := rfl
@[simp] theorem State.yports_setLock (s : State) (i : Nat) (v : Lock) : (s.setLock i v).yports = s.yports := rfl
@[simp] theorem State.eths_setLock (s : State) (i : Nat) (v : Lock) : (s.setLock i v).eths = s.eths := rfl
@[simp] theorem State.senders_setLock (s : State) (i : Nat) (v : Lock) : (s.setLock i v).senders = s.senders := rfl
@[simp] theorem State.eps_setLock (s : State) (i : Nat) (v : Lock) : (s.setLock i v).eps = s.eps := rfl
@[simp] theorem State.vfMap_setLock (s : State) (i : Nat) (v : Lock) : (s.setLock i v).vfMap = s.vfMap := rfl
@[simp] theorem State.vfEnable_setLock (s : State) (i : Nat) (v : Lock) : (s.setLock i v).vfEnable = s.vfEnable := rfl
@[simp] theorem State.field_of_setLock (s : State) (i k : Nat) (v : Lock) : (s.setLock i v).field k = s.field k := rfl
@[simp] theorem State.head_of_setLock (s : State) (i k : Nat) (v : Lock) : (s.setLock i v).head k = s.head k := rfl
@[simp] theorem State.strm_of_setLock (s : State) (i k : Nat) (v : Lock) : (s.setLock i v).strm k = s.strm k := rfl
@[simp] theorem State.unit_of_setLock (s : State) (i k : Nat) (v : Lock) : (s.setLock i v).unit k = s.unit k := rfl
@[simp] theorem State.router_of_setLock (s : State) (i k : Nat) (v : Lock) : (s.setLock i v).router k = s.router k := rfl
@[simp] theorem State.gate_of_setLock (s : State) (i k : Nat) (v : Lock) : (s.setLock i v).gate k = s.gate k := rfl
@[simp] theorem State.group_of_setLock (s : State) (i k : Nat) (v : Lock) : (s.setLock i v).group k = s.group k := rfl
@[simp] theorem State.origin_of_setLock (s : State) (i k : Nat) (v : Lock) : (s.setLock i v).origin k = s.origin k := rfl
@[simp] theorem State.edgeEng_of_setLock (s : State) (i k : Nat) (v : Lock) : (s.setLock i v).edgeEng k = s.edgeEng k := rfl
@[simp] theorem State.tailEng_of_setLock (s : State) (i k : Nat) (v : Lock) : (s.setLock i v).tailEng k = s.tailEng k := rfl
@[simp] theorem State.arb_of_setLock (s : State) (i k : Nat) (v : Lock) : (s.setLock i v).arb k = s.arb k := rfl
@[simp] theorem State.queue_of_setLock (s : State) (i k : Nat) (v : Lock) : (s.setLock i v).queue k = s.queue k := rfl
@[simp] theorem State.fn_of_setLock (s : State) (i k : Nat) (v : Lock) : (s.setLock i v).fn k = s.fn k := rfl
@[simp] theorem State.pool_of_setLock (s : State) (i k : Nat) (v : Lock) : (s.setLock i v).pool k = s.pool k := rfl
@[simp] theorem State.slot_of_setLock (s : State) (i k : Nat) (v : Lock) : (s.setLock i v).slot k = s.slot k := rfl
@[simp] theorem State.ctx_of_setLock (s : State) (i k : Nat) (v : Lock) : (s.setLock i v).ctx k = s.ctx k := rfl
@[simp] theorem State.epoch_of_setLock (s : State) (i k : Nat) (v : Lock) : (s.setLock i v).epoch k = s.epoch k := rfl
@[simp] theorem State.stackOf_of_setLock (s : State) (i k : Nat) (v : Lock) : (s.setLock i v).stackOf k = s.stackOf k := rfl
@[simp] theorem State.yport_of_setLock (s : State) (i k : Nat) (v : Lock) : (s.setLock i v).yport k = s.yport k := rfl
@[simp] theorem State.eth_of_setLock (s : State) (i k : Nat) (v : Lock) : (s.setLock i v).eth k = s.eth k := rfl
@[simp] theorem State.sender_of_setLock (s : State) (i k : Nat) (v : Lock) : (s.setLock i v).sender k = s.sender k := rfl
@[simp] theorem State.ep_of_setLock (s : State) (i k : Nat) (v : Lock) : (s.setLock i v).ep k = s.ep k := rfl

@[simp] theorem State.pool_setPool (s : State) (i : Nat) (v : Pool) : (s.setPool i v).pool i = v := Tab.get_set_same _ _ _ _
theorem State.pool_setPool_ne (s : State) (i k : Nat) (v : Pool) (h : i ≠ k) : (s.setPool i v).pool k = s.pool k := Tab.get_set_ne _ _ _ _ _ h
@[simp] theorem State.modPool_eq (s : State) (i : Nat) (f : Pool → Pool) : s.modPool i f = s.setPool i (f (s.pool i)) := rfl
@[simp] theorem State.pending_setPool (s : State) (i : Nat) (v : Pool) : (s.setPool i v).pending = s.pending := rfl
@[simp] theorem State.freeCount_setPool (s : State) (i : Nat) (v : Pool) : (s.setPool i v).freeCount = s.freeCount := rfl
@[simp] theorem State.kcycles_setPool (s : State) (i : Nat) (v : Pool) : (s.setPool i v).kcycles = s.kcycles := rfl
@[simp] theorem State.part_setPool (s : State) (i : Nat) (v : Pool) : (s.setPool i v).part = s.part := rfl
@[simp] theorem State.boot_setPool (s : State) (i : Nat) (v : Pool) : (s.setPool i v).boot = s.boot := rfl
@[simp] theorem State.modes_setPool (s : State) (i : Nat) (v : Pool) : (s.setPool i v).modes = s.modes := rfl
@[simp] theorem State.supply_setPool (s : State) (i : Nat) (v : Pool) : (s.setPool i v).supply = s.supply := rfl
@[simp] theorem State.dtb_setPool (s : State) (i : Nat) (v : Pool) : (s.setPool i v).dtb = s.dtb := rfl
@[simp] theorem State.seqr_setPool (s : State) (i : Nat) (v : Pool) : (s.setPool i v).seqr = s.seqr := rfl
@[simp] theorem State.greg_setPool (s : State) (i : Nat) (v : Pool) : (s.setPool i v).greg = s.greg := rfl
@[simp] theorem State.cspi_setPool (s : State) (i : Nat) (v : Pool) : (s.setPool i v).cspi = s.cspi := rfl
@[simp] theorem State.cap_setPool (s : State) (i : Nat) (v : Pool) : (s.setPool i v).cap = s.cap := rfl
@[simp] theorem State.fields_setPool (s : State) (i : Nat) (v : Pool) : (s.setPool i v).fields = s.fields := rfl
@[simp] theorem State.lostClocks_setPool (s : State) (i : Nat) (v : Pool) : (s.setPool i v).lostClocks = s.lostClocks := rfl
@[simp] theorem State.heads_setPool (s : State) (i : Nat) (v : Pool) : (s.setPool i v).heads = s.heads := rfl
@[simp] theorem State.store_setPool (s : State) (i : Nat) (v : Pool) : (s.setPool i v).store = s.store := rfl
@[simp] theorem State.streams_setPool (s : State) (i : Nat) (v : Pool) : (s.setPool i v).streams = s.streams := rfl
@[simp] theorem State.units_setPool (s : State) (i : Nat) (v : Pool) : (s.setPool i v).units = s.units := rfl
@[simp] theorem State.routers_setPool (s : State) (i : Nat) (v : Pool) : (s.setPool i v).routers = s.routers := rfl
@[simp] theorem State.gates_setPool (s : State) (i : Nat) (v : Pool) : (s.setPool i v).gates = s.gates := rfl
@[simp] theorem State.groups_setPool (s : State) (i : Nat) (v : Pool) : (s.setPool i v).groups = s.groups := rfl
@[simp] theorem State.origins_setPool (s : State) (i : Nat) (v : Pool) : (s.setPool i v).origins = s.origins := rfl
@[simp] theorem State.edges_setPool (s : State) (i : Nat) (v : Pool) : (s.setPool i v).edges = s.edges := rfl
@[simp] theorem State.tails_setPool (s : State) (i : Nat) (v : Pool) : (s.setPool i v).tails = s.tails := rfl
@[simp] theorem State.arbs_setPool (s : State) (i : Nat) (v : Pool) : (s.setPool i v).arbs = s.arbs := rfl
@[simp] theorem State.queues_setPool (s : State) (i : Nat) (v : Pool) : (s.setPool i v).queues = s.queues := rfl
@[simp] theorem State.fns_setPool (s : State) (i : Nat) (v : Pool) : (s.setPool i v).fns = s.fns := rfl
@[simp] theorem State.locks_setPool (s : State) (i : Nat) (v : Pool) : (s.setPool i v).locks = s.locks := rfl
@[simp] theorem State.slots_setPool (s : State) (i : Nat) (v : Pool) : (s.setPool i v).slots = s.slots := rfl
@[simp] theorem State.ctxs_setPool (s : State) (i : Nat) (v : Pool) : (s.setPool i v).ctxs = s.ctxs := rfl
@[simp] theorem State.epochs_setPool (s : State) (i : Nat) (v : Pool) : (s.setPool i v).epochs = s.epochs := rfl
@[simp] theorem State.hbmStacks_setPool (s : State) (i : Nat) (v : Pool) : (s.setPool i v).hbmStacks = s.hbmStacks := rfl
@[simp] theorem State.hbm_setPool (s : State) (i : Nat) (v : Pool) : (s.setPool i v).hbm = s.hbm := rfl
@[simp] theorem State.hostMem_setPool (s : State) (i : Nat) (v : Pool) : (s.setPool i v).hostMem = s.hostMem := rfl
@[simp] theorem State.hostIn_setPool (s : State) (i : Nat) (v : Pool) : (s.setPool i v).hostIn = s.hostIn := rfl
@[simp] theorem State.yports_setPool (s : State) (i : Nat) (v : Pool) : (s.setPool i v).yports = s.yports := rfl
@[simp] theorem State.eths_setPool (s : State) (i : Nat) (v : Pool) : (s.setPool i v).eths = s.eths := rfl
@[simp] theorem State.senders_setPool (s : State) (i : Nat) (v : Pool) : (s.setPool i v).senders = s.senders := rfl
@[simp] theorem State.eps_setPool (s : State) (i : Nat) (v : Pool) : (s.setPool i v).eps = s.eps := rfl
@[simp] theorem State.vfMap_setPool (s : State) (i : Nat) (v : Pool) : (s.setPool i v).vfMap = s.vfMap := rfl
@[simp] theorem State.vfEnable_setPool (s : State) (i : Nat) (v : Pool) : (s.setPool i v).vfEnable = s.vfEnable := rfl
@[simp] theorem State.field_of_setPool (s : State) (i k : Nat) (v : Pool) : (s.setPool i v).field k = s.field k := rfl
@[simp] theorem State.head_of_setPool (s : State) (i k : Nat) (v : Pool) : (s.setPool i v).head k = s.head k := rfl
@[simp] theorem State.strm_of_setPool (s : State) (i k : Nat) (v : Pool) : (s.setPool i v).strm k = s.strm k := rfl
@[simp] theorem State.unit_of_setPool (s : State) (i k : Nat) (v : Pool) : (s.setPool i v).unit k = s.unit k := rfl
@[simp] theorem State.router_of_setPool (s : State) (i k : Nat) (v : Pool) : (s.setPool i v).router k = s.router k := rfl
@[simp] theorem State.gate_of_setPool (s : State) (i k : Nat) (v : Pool) : (s.setPool i v).gate k = s.gate k := rfl
@[simp] theorem State.group_of_setPool (s : State) (i k : Nat) (v : Pool) : (s.setPool i v).group k = s.group k := rfl
@[simp] theorem State.origin_of_setPool (s : State) (i k : Nat) (v : Pool) : (s.setPool i v).origin k = s.origin k := rfl
@[simp] theorem State.edgeEng_of_setPool (s : State) (i k : Nat) (v : Pool) : (s.setPool i v).edgeEng k = s.edgeEng k := rfl
@[simp] theorem State.tailEng_of_setPool (s : State) (i k : Nat) (v : Pool) : (s.setPool i v).tailEng k = s.tailEng k := rfl
@[simp] theorem State.arb_of_setPool (s : State) (i k : Nat) (v : Pool) : (s.setPool i v).arb k = s.arb k := rfl
@[simp] theorem State.queue_of_setPool (s : State) (i k : Nat) (v : Pool) : (s.setPool i v).queue k = s.queue k := rfl
@[simp] theorem State.fn_of_setPool (s : State) (i k : Nat) (v : Pool) : (s.setPool i v).fn k = s.fn k := rfl
@[simp] theorem State.lock_of_setPool (s : State) (i k : Nat) (v : Pool) : (s.setPool i v).lock k = s.lock k := rfl
@[simp] theorem State.slot_of_setPool (s : State) (i k : Nat) (v : Pool) : (s.setPool i v).slot k = s.slot k := rfl
@[simp] theorem State.ctx_of_setPool (s : State) (i k : Nat) (v : Pool) : (s.setPool i v).ctx k = s.ctx k := rfl
@[simp] theorem State.epoch_of_setPool (s : State) (i k : Nat) (v : Pool) : (s.setPool i v).epoch k = s.epoch k := rfl
@[simp] theorem State.stackOf_of_setPool (s : State) (i k : Nat) (v : Pool) : (s.setPool i v).stackOf k = s.stackOf k := rfl
@[simp] theorem State.yport_of_setPool (s : State) (i k : Nat) (v : Pool) : (s.setPool i v).yport k = s.yport k := rfl
@[simp] theorem State.eth_of_setPool (s : State) (i k : Nat) (v : Pool) : (s.setPool i v).eth k = s.eth k := rfl
@[simp] theorem State.sender_of_setPool (s : State) (i k : Nat) (v : Pool) : (s.setPool i v).sender k = s.sender k := rfl
@[simp] theorem State.ep_of_setPool (s : State) (i k : Nat) (v : Pool) : (s.setPool i v).ep k = s.ep k := rfl

@[simp] theorem State.slot_setSlot (s : State) (i : Nat) (v : Slot) : (s.setSlot i v).slot i = v := Tab.get_set_same _ _ _ _
theorem State.slot_setSlot_ne (s : State) (i k : Nat) (v : Slot) (h : i ≠ k) : (s.setSlot i v).slot k = s.slot k := Tab.get_set_ne _ _ _ _ _ h
@[simp] theorem State.modSlot_eq (s : State) (i : Nat) (f : Slot → Slot) : s.modSlot i f = s.setSlot i (f (s.slot i)) := rfl
@[simp] theorem State.pending_setSlot (s : State) (i : Nat) (v : Slot) : (s.setSlot i v).pending = s.pending := rfl
@[simp] theorem State.freeCount_setSlot (s : State) (i : Nat) (v : Slot) : (s.setSlot i v).freeCount = s.freeCount := rfl
@[simp] theorem State.kcycles_setSlot (s : State) (i : Nat) (v : Slot) : (s.setSlot i v).kcycles = s.kcycles := rfl
@[simp] theorem State.part_setSlot (s : State) (i : Nat) (v : Slot) : (s.setSlot i v).part = s.part := rfl
@[simp] theorem State.boot_setSlot (s : State) (i : Nat) (v : Slot) : (s.setSlot i v).boot = s.boot := rfl
@[simp] theorem State.modes_setSlot (s : State) (i : Nat) (v : Slot) : (s.setSlot i v).modes = s.modes := rfl
@[simp] theorem State.supply_setSlot (s : State) (i : Nat) (v : Slot) : (s.setSlot i v).supply = s.supply := rfl
@[simp] theorem State.dtb_setSlot (s : State) (i : Nat) (v : Slot) : (s.setSlot i v).dtb = s.dtb := rfl
@[simp] theorem State.seqr_setSlot (s : State) (i : Nat) (v : Slot) : (s.setSlot i v).seqr = s.seqr := rfl
@[simp] theorem State.greg_setSlot (s : State) (i : Nat) (v : Slot) : (s.setSlot i v).greg = s.greg := rfl
@[simp] theorem State.cspi_setSlot (s : State) (i : Nat) (v : Slot) : (s.setSlot i v).cspi = s.cspi := rfl
@[simp] theorem State.cap_setSlot (s : State) (i : Nat) (v : Slot) : (s.setSlot i v).cap = s.cap := rfl
@[simp] theorem State.fields_setSlot (s : State) (i : Nat) (v : Slot) : (s.setSlot i v).fields = s.fields := rfl
@[simp] theorem State.lostClocks_setSlot (s : State) (i : Nat) (v : Slot) : (s.setSlot i v).lostClocks = s.lostClocks := rfl
@[simp] theorem State.heads_setSlot (s : State) (i : Nat) (v : Slot) : (s.setSlot i v).heads = s.heads := rfl
@[simp] theorem State.store_setSlot (s : State) (i : Nat) (v : Slot) : (s.setSlot i v).store = s.store := rfl
@[simp] theorem State.streams_setSlot (s : State) (i : Nat) (v : Slot) : (s.setSlot i v).streams = s.streams := rfl
@[simp] theorem State.units_setSlot (s : State) (i : Nat) (v : Slot) : (s.setSlot i v).units = s.units := rfl
@[simp] theorem State.routers_setSlot (s : State) (i : Nat) (v : Slot) : (s.setSlot i v).routers = s.routers := rfl
@[simp] theorem State.gates_setSlot (s : State) (i : Nat) (v : Slot) : (s.setSlot i v).gates = s.gates := rfl
@[simp] theorem State.groups_setSlot (s : State) (i : Nat) (v : Slot) : (s.setSlot i v).groups = s.groups := rfl
@[simp] theorem State.origins_setSlot (s : State) (i : Nat) (v : Slot) : (s.setSlot i v).origins = s.origins := rfl
@[simp] theorem State.edges_setSlot (s : State) (i : Nat) (v : Slot) : (s.setSlot i v).edges = s.edges := rfl
@[simp] theorem State.tails_setSlot (s : State) (i : Nat) (v : Slot) : (s.setSlot i v).tails = s.tails := rfl
@[simp] theorem State.arbs_setSlot (s : State) (i : Nat) (v : Slot) : (s.setSlot i v).arbs = s.arbs := rfl
@[simp] theorem State.queues_setSlot (s : State) (i : Nat) (v : Slot) : (s.setSlot i v).queues = s.queues := rfl
@[simp] theorem State.fns_setSlot (s : State) (i : Nat) (v : Slot) : (s.setSlot i v).fns = s.fns := rfl
@[simp] theorem State.locks_setSlot (s : State) (i : Nat) (v : Slot) : (s.setSlot i v).locks = s.locks := rfl
@[simp] theorem State.pools_setSlot (s : State) (i : Nat) (v : Slot) : (s.setSlot i v).pools = s.pools := rfl
@[simp] theorem State.ctxs_setSlot (s : State) (i : Nat) (v : Slot) : (s.setSlot i v).ctxs = s.ctxs := rfl
@[simp] theorem State.epochs_setSlot (s : State) (i : Nat) (v : Slot) : (s.setSlot i v).epochs = s.epochs := rfl
@[simp] theorem State.hbmStacks_setSlot (s : State) (i : Nat) (v : Slot) : (s.setSlot i v).hbmStacks = s.hbmStacks := rfl
@[simp] theorem State.hbm_setSlot (s : State) (i : Nat) (v : Slot) : (s.setSlot i v).hbm = s.hbm := rfl
@[simp] theorem State.hostMem_setSlot (s : State) (i : Nat) (v : Slot) : (s.setSlot i v).hostMem = s.hostMem := rfl
@[simp] theorem State.hostIn_setSlot (s : State) (i : Nat) (v : Slot) : (s.setSlot i v).hostIn = s.hostIn := rfl
@[simp] theorem State.yports_setSlot (s : State) (i : Nat) (v : Slot) : (s.setSlot i v).yports = s.yports := rfl
@[simp] theorem State.eths_setSlot (s : State) (i : Nat) (v : Slot) : (s.setSlot i v).eths = s.eths := rfl
@[simp] theorem State.senders_setSlot (s : State) (i : Nat) (v : Slot) : (s.setSlot i v).senders = s.senders := rfl
@[simp] theorem State.eps_setSlot (s : State) (i : Nat) (v : Slot) : (s.setSlot i v).eps = s.eps := rfl
@[simp] theorem State.vfMap_setSlot (s : State) (i : Nat) (v : Slot) : (s.setSlot i v).vfMap = s.vfMap := rfl
@[simp] theorem State.vfEnable_setSlot (s : State) (i : Nat) (v : Slot) : (s.setSlot i v).vfEnable = s.vfEnable := rfl
@[simp] theorem State.field_of_setSlot (s : State) (i k : Nat) (v : Slot) : (s.setSlot i v).field k = s.field k := rfl
@[simp] theorem State.head_of_setSlot (s : State) (i k : Nat) (v : Slot) : (s.setSlot i v).head k = s.head k := rfl
@[simp] theorem State.strm_of_setSlot (s : State) (i k : Nat) (v : Slot) : (s.setSlot i v).strm k = s.strm k := rfl
@[simp] theorem State.unit_of_setSlot (s : State) (i k : Nat) (v : Slot) : (s.setSlot i v).unit k = s.unit k := rfl
@[simp] theorem State.router_of_setSlot (s : State) (i k : Nat) (v : Slot) : (s.setSlot i v).router k = s.router k := rfl
@[simp] theorem State.gate_of_setSlot (s : State) (i k : Nat) (v : Slot) : (s.setSlot i v).gate k = s.gate k := rfl
@[simp] theorem State.group_of_setSlot (s : State) (i k : Nat) (v : Slot) : (s.setSlot i v).group k = s.group k := rfl
@[simp] theorem State.origin_of_setSlot (s : State) (i k : Nat) (v : Slot) : (s.setSlot i v).origin k = s.origin k := rfl
@[simp] theorem State.edgeEng_of_setSlot (s : State) (i k : Nat) (v : Slot) : (s.setSlot i v).edgeEng k = s.edgeEng k := rfl
@[simp] theorem State.tailEng_of_setSlot (s : State) (i k : Nat) (v : Slot) : (s.setSlot i v).tailEng k = s.tailEng k := rfl
@[simp] theorem State.arb_of_setSlot (s : State) (i k : Nat) (v : Slot) : (s.setSlot i v).arb k = s.arb k := rfl
@[simp] theorem State.queue_of_setSlot (s : State) (i k : Nat) (v : Slot) : (s.setSlot i v).queue k = s.queue k := rfl
@[simp] theorem State.fn_of_setSlot (s : State) (i k : Nat) (v : Slot) : (s.setSlot i v).fn k = s.fn k := rfl
@[simp] theorem State.lock_of_setSlot (s : State) (i k : Nat) (v : Slot) : (s.setSlot i v).lock k = s.lock k := rfl
@[simp] theorem State.pool_of_setSlot (s : State) (i k : Nat) (v : Slot) : (s.setSlot i v).pool k = s.pool k := rfl
@[simp] theorem State.ctx_of_setSlot (s : State) (i k : Nat) (v : Slot) : (s.setSlot i v).ctx k = s.ctx k := rfl
@[simp] theorem State.epoch_of_setSlot (s : State) (i k : Nat) (v : Slot) : (s.setSlot i v).epoch k = s.epoch k := rfl
@[simp] theorem State.stackOf_of_setSlot (s : State) (i k : Nat) (v : Slot) : (s.setSlot i v).stackOf k = s.stackOf k := rfl
@[simp] theorem State.yport_of_setSlot (s : State) (i k : Nat) (v : Slot) : (s.setSlot i v).yport k = s.yport k := rfl
@[simp] theorem State.eth_of_setSlot (s : State) (i k : Nat) (v : Slot) : (s.setSlot i v).eth k = s.eth k := rfl
@[simp] theorem State.sender_of_setSlot (s : State) (i k : Nat) (v : Slot) : (s.setSlot i v).sender k = s.sender k := rfl
@[simp] theorem State.ep_of_setSlot (s : State) (i k : Nat) (v : Slot) : (s.setSlot i v).ep k = s.ep k := rfl

@[simp] theorem State.ctx_setCtx (s : State) (i : Nat) (v : Option Ctx) : (s.setCtx i v).ctx i = v := Tab.get_set_same _ _ _ _
theorem State.ctx_setCtx_ne (s : State) (i k : Nat) (v : Option Ctx) (h : i ≠ k) : (s.setCtx i v).ctx k = s.ctx k := Tab.get_set_ne _ _ _ _ _ h
@[simp] theorem State.modCtx_eq (s : State) (i : Nat) (f : Option Ctx → Option Ctx) : s.modCtx i f = s.setCtx i (f (s.ctx i)) := rfl
@[simp] theorem State.pending_setCtx (s : State) (i : Nat) (v : Option Ctx) : (s.setCtx i v).pending = s.pending := rfl
@[simp] theorem State.freeCount_setCtx (s : State) (i : Nat) (v : Option Ctx) : (s.setCtx i v).freeCount = s.freeCount := rfl
@[simp] theorem State.kcycles_setCtx (s : State) (i : Nat) (v : Option Ctx) : (s.setCtx i v).kcycles = s.kcycles := rfl
@[simp] theorem State.part_setCtx (s : State) (i : Nat) (v : Option Ctx) : (s.setCtx i v).part = s.part := rfl
@[simp] theorem State.boot_setCtx (s : State) (i : Nat) (v : Option Ctx) : (s.setCtx i v).boot = s.boot := rfl
@[simp] theorem State.modes_setCtx (s : State) (i : Nat) (v : Option Ctx) : (s.setCtx i v).modes = s.modes := rfl
@[simp] theorem State.supply_setCtx (s : State) (i : Nat) (v : Option Ctx) : (s.setCtx i v).supply = s.supply := rfl
@[simp] theorem State.dtb_setCtx (s : State) (i : Nat) (v : Option Ctx) : (s.setCtx i v).dtb = s.dtb := rfl
@[simp] theorem State.seqr_setCtx (s : State) (i : Nat) (v : Option Ctx) : (s.setCtx i v).seqr = s.seqr := rfl
@[simp] theorem State.greg_setCtx (s : State) (i : Nat) (v : Option Ctx) : (s.setCtx i v).greg = s.greg := rfl
@[simp] theorem State.cspi_setCtx (s : State) (i : Nat) (v : Option Ctx) : (s.setCtx i v).cspi = s.cspi := rfl
@[simp] theorem State.cap_setCtx (s : State) (i : Nat) (v : Option Ctx) : (s.setCtx i v).cap = s.cap := rfl
@[simp] theorem State.fields_setCtx (s : State) (i : Nat) (v : Option Ctx) : (s.setCtx i v).fields = s.fields := rfl
@[simp] theorem State.lostClocks_setCtx (s : State) (i : Nat) (v : Option Ctx) : (s.setCtx i v).lostClocks = s.lostClocks := rfl
@[simp] theorem State.heads_setCtx (s : State) (i : Nat) (v : Option Ctx) : (s.setCtx i v).heads = s.heads := rfl
@[simp] theorem State.store_setCtx (s : State) (i : Nat) (v : Option Ctx) : (s.setCtx i v).store = s.store := rfl
@[simp] theorem State.streams_setCtx (s : State) (i : Nat) (v : Option Ctx) : (s.setCtx i v).streams = s.streams := rfl
@[simp] theorem State.units_setCtx (s : State) (i : Nat) (v : Option Ctx) : (s.setCtx i v).units = s.units := rfl
@[simp] theorem State.routers_setCtx (s : State) (i : Nat) (v : Option Ctx) : (s.setCtx i v).routers = s.routers := rfl
@[simp] theorem State.gates_setCtx (s : State) (i : Nat) (v : Option Ctx) : (s.setCtx i v).gates = s.gates := rfl
@[simp] theorem State.groups_setCtx (s : State) (i : Nat) (v : Option Ctx) : (s.setCtx i v).groups = s.groups := rfl
@[simp] theorem State.origins_setCtx (s : State) (i : Nat) (v : Option Ctx) : (s.setCtx i v).origins = s.origins := rfl
@[simp] theorem State.edges_setCtx (s : State) (i : Nat) (v : Option Ctx) : (s.setCtx i v).edges = s.edges := rfl
@[simp] theorem State.tails_setCtx (s : State) (i : Nat) (v : Option Ctx) : (s.setCtx i v).tails = s.tails := rfl
@[simp] theorem State.arbs_setCtx (s : State) (i : Nat) (v : Option Ctx) : (s.setCtx i v).arbs = s.arbs := rfl
@[simp] theorem State.queues_setCtx (s : State) (i : Nat) (v : Option Ctx) : (s.setCtx i v).queues = s.queues := rfl
@[simp] theorem State.fns_setCtx (s : State) (i : Nat) (v : Option Ctx) : (s.setCtx i v).fns = s.fns := rfl
@[simp] theorem State.locks_setCtx (s : State) (i : Nat) (v : Option Ctx) : (s.setCtx i v).locks = s.locks := rfl
@[simp] theorem State.pools_setCtx (s : State) (i : Nat) (v : Option Ctx) : (s.setCtx i v).pools = s.pools := rfl
@[simp] theorem State.slots_setCtx (s : State) (i : Nat) (v : Option Ctx) : (s.setCtx i v).slots = s.slots := rfl
@[simp] theorem State.epochs_setCtx (s : State) (i : Nat) (v : Option Ctx) : (s.setCtx i v).epochs = s.epochs := rfl
@[simp] theorem State.hbmStacks_setCtx (s : State) (i : Nat) (v : Option Ctx) : (s.setCtx i v).hbmStacks = s.hbmStacks := rfl
@[simp] theorem State.hbm_setCtx (s : State) (i : Nat) (v : Option Ctx) : (s.setCtx i v).hbm = s.hbm := rfl
@[simp] theorem State.hostMem_setCtx (s : State) (i : Nat) (v : Option Ctx) : (s.setCtx i v).hostMem = s.hostMem := rfl
@[simp] theorem State.hostIn_setCtx (s : State) (i : Nat) (v : Option Ctx) : (s.setCtx i v).hostIn = s.hostIn := rfl
@[simp] theorem State.yports_setCtx (s : State) (i : Nat) (v : Option Ctx) : (s.setCtx i v).yports = s.yports := rfl
@[simp] theorem State.eths_setCtx (s : State) (i : Nat) (v : Option Ctx) : (s.setCtx i v).eths = s.eths := rfl
@[simp] theorem State.senders_setCtx (s : State) (i : Nat) (v : Option Ctx) : (s.setCtx i v).senders = s.senders := rfl
@[simp] theorem State.eps_setCtx (s : State) (i : Nat) (v : Option Ctx) : (s.setCtx i v).eps = s.eps := rfl
@[simp] theorem State.vfMap_setCtx (s : State) (i : Nat) (v : Option Ctx) : (s.setCtx i v).vfMap = s.vfMap := rfl
@[simp] theorem State.vfEnable_setCtx (s : State) (i : Nat) (v : Option Ctx) : (s.setCtx i v).vfEnable = s.vfEnable := rfl
@[simp] theorem State.field_of_setCtx (s : State) (i k : Nat) (v : Option Ctx) : (s.setCtx i v).field k = s.field k := rfl
@[simp] theorem State.head_of_setCtx (s : State) (i k : Nat) (v : Option Ctx) : (s.setCtx i v).head k = s.head k := rfl
@[simp] theorem State.strm_of_setCtx (s : State) (i k : Nat) (v : Option Ctx) : (s.setCtx i v).strm k = s.strm k := rfl
@[simp] theorem State.unit_of_setCtx (s : State) (i k : Nat) (v : Option Ctx) : (s.setCtx i v).unit k = s.unit k := rfl
@[simp] theorem State.router_of_setCtx (s : State) (i k : Nat) (v : Option Ctx) : (s.setCtx i v).router k = s.router k := rfl
@[simp] theorem State.gate_of_setCtx (s : State) (i k : Nat) (v : Option Ctx) : (s.setCtx i v).gate k = s.gate k := rfl
@[simp] theorem State.group_of_setCtx (s : State) (i k : Nat) (v : Option Ctx) : (s.setCtx i v).group k = s.group k := rfl
@[simp] theorem State.origin_of_setCtx (s : State) (i k : Nat) (v : Option Ctx) : (s.setCtx i v).origin k = s.origin k := rfl
@[simp] theorem State.edgeEng_of_setCtx (s : State) (i k : Nat) (v : Option Ctx) : (s.setCtx i v).edgeEng k = s.edgeEng k := rfl
@[simp] theorem State.tailEng_of_setCtx (s : State) (i k : Nat) (v : Option Ctx) : (s.setCtx i v).tailEng k = s.tailEng k := rfl
@[simp] theorem State.arb_of_setCtx (s : State) (i k : Nat) (v : Option Ctx) : (s.setCtx i v).arb k = s.arb k := rfl
@[simp] theorem State.queue_of_setCtx (s : State) (i k : Nat) (v : Option Ctx) : (s.setCtx i v).queue k = s.queue k := rfl
@[simp] theorem State.fn_of_setCtx (s : State) (i k : Nat) (v : Option Ctx) : (s.setCtx i v).fn k = s.fn k := rfl
@[simp] theorem State.lock_of_setCtx (s : State) (i k : Nat) (v : Option Ctx) : (s.setCtx i v).lock k = s.lock k := rfl
@[simp] theorem State.pool_of_setCtx (s : State) (i k : Nat) (v : Option Ctx) : (s.setCtx i v).pool k = s.pool k := rfl
@[simp] theorem State.slot_of_setCtx (s : State) (i k : Nat) (v : Option Ctx) : (s.setCtx i v).slot k = s.slot k := rfl
@[simp] theorem State.epoch_of_setCtx (s : State) (i k : Nat) (v : Option Ctx) : (s.setCtx i v).epoch k = s.epoch k := rfl
@[simp] theorem State.stackOf_of_setCtx (s : State) (i k : Nat) (v : Option Ctx) : (s.setCtx i v).stackOf k = s.stackOf k := rfl
@[simp] theorem State.yport_of_setCtx (s : State) (i k : Nat) (v : Option Ctx) : (s.setCtx i v).yport k = s.yport k := rfl
@[simp] theorem State.eth_of_setCtx (s : State) (i k : Nat) (v : Option Ctx) : (s.setCtx i v).eth k = s.eth k := rfl
@[simp] theorem State.sender_of_setCtx (s : State) (i k : Nat) (v : Option Ctx) : (s.setCtx i v).sender k = s.sender k := rfl
@[simp] theorem State.ep_of_setCtx (s : State) (i k : Nat) (v : Option Ctx) : (s.setCtx i v).ep k = s.ep k := rfl

@[simp] theorem State.epoch_setEpoch (s : State) (i : Nat) (v : BitVec 2) : (s.setEpoch i v).epoch i = v := Tab.get_set_same _ _ _ _
theorem State.epoch_setEpoch_ne (s : State) (i k : Nat) (v : BitVec 2) (h : i ≠ k) : (s.setEpoch i v).epoch k = s.epoch k := Tab.get_set_ne _ _ _ _ _ h
@[simp] theorem State.modEpoch_eq (s : State) (i : Nat) (f : BitVec 2 → BitVec 2) : s.modEpoch i f = s.setEpoch i (f (s.epoch i)) := rfl
@[simp] theorem State.pending_setEpoch (s : State) (i : Nat) (v : BitVec 2) : (s.setEpoch i v).pending = s.pending := rfl
@[simp] theorem State.freeCount_setEpoch (s : State) (i : Nat) (v : BitVec 2) : (s.setEpoch i v).freeCount = s.freeCount := rfl
@[simp] theorem State.kcycles_setEpoch (s : State) (i : Nat) (v : BitVec 2) : (s.setEpoch i v).kcycles = s.kcycles := rfl
@[simp] theorem State.part_setEpoch (s : State) (i : Nat) (v : BitVec 2) : (s.setEpoch i v).part = s.part := rfl
@[simp] theorem State.boot_setEpoch (s : State) (i : Nat) (v : BitVec 2) : (s.setEpoch i v).boot = s.boot := rfl
@[simp] theorem State.modes_setEpoch (s : State) (i : Nat) (v : BitVec 2) : (s.setEpoch i v).modes = s.modes := rfl
@[simp] theorem State.supply_setEpoch (s : State) (i : Nat) (v : BitVec 2) : (s.setEpoch i v).supply = s.supply := rfl
@[simp] theorem State.dtb_setEpoch (s : State) (i : Nat) (v : BitVec 2) : (s.setEpoch i v).dtb = s.dtb := rfl
@[simp] theorem State.seqr_setEpoch (s : State) (i : Nat) (v : BitVec 2) : (s.setEpoch i v).seqr = s.seqr := rfl
@[simp] theorem State.greg_setEpoch (s : State) (i : Nat) (v : BitVec 2) : (s.setEpoch i v).greg = s.greg := rfl
@[simp] theorem State.cspi_setEpoch (s : State) (i : Nat) (v : BitVec 2) : (s.setEpoch i v).cspi = s.cspi := rfl
@[simp] theorem State.cap_setEpoch (s : State) (i : Nat) (v : BitVec 2) : (s.setEpoch i v).cap = s.cap := rfl
@[simp] theorem State.fields_setEpoch (s : State) (i : Nat) (v : BitVec 2) : (s.setEpoch i v).fields = s.fields := rfl
@[simp] theorem State.lostClocks_setEpoch (s : State) (i : Nat) (v : BitVec 2) : (s.setEpoch i v).lostClocks = s.lostClocks := rfl
@[simp] theorem State.heads_setEpoch (s : State) (i : Nat) (v : BitVec 2) : (s.setEpoch i v).heads = s.heads := rfl
@[simp] theorem State.store_setEpoch (s : State) (i : Nat) (v : BitVec 2) : (s.setEpoch i v).store = s.store := rfl
@[simp] theorem State.streams_setEpoch (s : State) (i : Nat) (v : BitVec 2) : (s.setEpoch i v).streams = s.streams := rfl
@[simp] theorem State.units_setEpoch (s : State) (i : Nat) (v : BitVec 2) : (s.setEpoch i v).units = s.units := rfl
@[simp] theorem State.routers_setEpoch (s : State) (i : Nat) (v : BitVec 2) : (s.setEpoch i v).routers = s.routers := rfl
@[simp] theorem State.gates_setEpoch (s : State) (i : Nat) (v : BitVec 2) : (s.setEpoch i v).gates = s.gates := rfl
@[simp] theorem State.groups_setEpoch (s : State) (i : Nat) (v : BitVec 2) : (s.setEpoch i v).groups = s.groups := rfl
@[simp] theorem State.origins_setEpoch (s : State) (i : Nat) (v : BitVec 2) : (s.setEpoch i v).origins = s.origins := rfl
@[simp] theorem State.edges_setEpoch (s : State) (i : Nat) (v : BitVec 2) : (s.setEpoch i v).edges = s.edges := rfl
@[simp] theorem State.tails_setEpoch (s : State) (i : Nat) (v : BitVec 2) : (s.setEpoch i v).tails = s.tails := rfl
@[simp] theorem State.arbs_setEpoch (s : State) (i : Nat) (v : BitVec 2) : (s.setEpoch i v).arbs = s.arbs := rfl
@[simp] theorem State.queues_setEpoch (s : State) (i : Nat) (v : BitVec 2) : (s.setEpoch i v).queues = s.queues := rfl
@[simp] theorem State.fns_setEpoch (s : State) (i : Nat) (v : BitVec 2) : (s.setEpoch i v).fns = s.fns := rfl
@[simp] theorem State.locks_setEpoch (s : State) (i : Nat) (v : BitVec 2) : (s.setEpoch i v).locks = s.locks := rfl
@[simp] theorem State.pools_setEpoch (s : State) (i : Nat) (v : BitVec 2) : (s.setEpoch i v).pools = s.pools := rfl
@[simp] theorem State.slots_setEpoch (s : State) (i : Nat) (v : BitVec 2) : (s.setEpoch i v).slots = s.slots := rfl
@[simp] theorem State.ctxs_setEpoch (s : State) (i : Nat) (v : BitVec 2) : (s.setEpoch i v).ctxs = s.ctxs := rfl
@[simp] theorem State.hbmStacks_setEpoch (s : State) (i : Nat) (v : BitVec 2) : (s.setEpoch i v).hbmStacks = s.hbmStacks := rfl
@[simp] theorem State.hbm_setEpoch (s : State) (i : Nat) (v : BitVec 2) : (s.setEpoch i v).hbm = s.hbm := rfl
@[simp] theorem State.hostMem_setEpoch (s : State) (i : Nat) (v : BitVec 2) : (s.setEpoch i v).hostMem = s.hostMem := rfl
@[simp] theorem State.hostIn_setEpoch (s : State) (i : Nat) (v : BitVec 2) : (s.setEpoch i v).hostIn = s.hostIn := rfl
@[simp] theorem State.yports_setEpoch (s : State) (i : Nat) (v : BitVec 2) : (s.setEpoch i v).yports = s.yports := rfl
@[simp] theorem State.eths_setEpoch (s : State) (i : Nat) (v : BitVec 2) : (s.setEpoch i v).eths = s.eths := rfl
@[simp] theorem State.senders_setEpoch (s : State) (i : Nat) (v : BitVec 2) : (s.setEpoch i v).senders = s.senders := rfl
@[simp] theorem State.eps_setEpoch (s : State) (i : Nat) (v : BitVec 2) : (s.setEpoch i v).eps = s.eps := rfl
@[simp] theorem State.vfMap_setEpoch (s : State) (i : Nat) (v : BitVec 2) : (s.setEpoch i v).vfMap = s.vfMap := rfl
@[simp] theorem State.vfEnable_setEpoch (s : State) (i : Nat) (v : BitVec 2) : (s.setEpoch i v).vfEnable = s.vfEnable := rfl
@[simp] theorem State.field_of_setEpoch (s : State) (i k : Nat) (v : BitVec 2) : (s.setEpoch i v).field k = s.field k := rfl
@[simp] theorem State.head_of_setEpoch (s : State) (i k : Nat) (v : BitVec 2) : (s.setEpoch i v).head k = s.head k := rfl
@[simp] theorem State.strm_of_setEpoch (s : State) (i k : Nat) (v : BitVec 2) : (s.setEpoch i v).strm k = s.strm k := rfl
@[simp] theorem State.unit_of_setEpoch (s : State) (i k : Nat) (v : BitVec 2) : (s.setEpoch i v).unit k = s.unit k := rfl
@[simp] theorem State.router_of_setEpoch (s : State) (i k : Nat) (v : BitVec 2) : (s.setEpoch i v).router k = s.router k := rfl
@[simp] theorem State.gate_of_setEpoch (s : State) (i k : Nat) (v : BitVec 2) : (s.setEpoch i v).gate k = s.gate k := rfl
@[simp] theorem State.group_of_setEpoch (s : State) (i k : Nat) (v : BitVec 2) : (s.setEpoch i v).group k = s.group k := rfl
@[simp] theorem State.origin_of_setEpoch (s : State) (i k : Nat) (v : BitVec 2) : (s.setEpoch i v).origin k = s.origin k := rfl
@[simp] theorem State.edgeEng_of_setEpoch (s : State) (i k : Nat) (v : BitVec 2) : (s.setEpoch i v).edgeEng k = s.edgeEng k := rfl
@[simp] theorem State.tailEng_of_setEpoch (s : State) (i k : Nat) (v : BitVec 2) : (s.setEpoch i v).tailEng k = s.tailEng k := rfl
@[simp] theorem State.arb_of_setEpoch (s : State) (i k : Nat) (v : BitVec 2) : (s.setEpoch i v).arb k = s.arb k := rfl
@[simp] theorem State.queue_of_setEpoch (s : State) (i k : Nat) (v : BitVec 2) : (s.setEpoch i v).queue k = s.queue k := rfl
@[simp] theorem State.fn_of_setEpoch (s : State) (i k : Nat) (v : BitVec 2) : (s.setEpoch i v).fn k = s.fn k := rfl
@[simp] theorem State.lock_of_setEpoch (s : State) (i k : Nat) (v : BitVec 2) : (s.setEpoch i v).lock k = s.lock k := rfl
@[simp] theorem State.pool_of_setEpoch (s : State) (i k : Nat) (v : BitVec 2) : (s.setEpoch i v).pool k = s.pool k := rfl
@[simp] theorem State.slot_of_setEpoch (s : State) (i k : Nat) (v : BitVec 2) : (s.setEpoch i v).slot k = s.slot k := rfl
@[simp] theorem State.ctx_of_setEpoch (s : State) (i k : Nat) (v : BitVec 2) : (s.setEpoch i v).ctx k = s.ctx k := rfl
@[simp] theorem State.stackOf_of_setEpoch (s : State) (i k : Nat) (v : BitVec 2) : (s.setEpoch i v).stackOf k = s.stackOf k := rfl
@[simp] theorem State.yport_of_setEpoch (s : State) (i k : Nat) (v : BitVec 2) : (s.setEpoch i v).yport k = s.yport k := rfl
@[simp] theorem State.eth_of_setEpoch (s : State) (i k : Nat) (v : BitVec 2) : (s.setEpoch i v).eth k = s.eth k := rfl
@[simp] theorem State.sender_of_setEpoch (s : State) (i k : Nat) (v : BitVec 2) : (s.setEpoch i v).sender k = s.sender k := rfl
@[simp] theorem State.ep_of_setEpoch (s : State) (i k : Nat) (v : BitVec 2) : (s.setEpoch i v).ep k = s.ep k := rfl

@[simp] theorem State.stackOf_setStackOf (s : State) (i : Nat) (v : Stack) : (s.setStackOf i v).stackOf i = v := Tab.get_set_same _ _ _ _
theorem State.stackOf_setStackOf_ne (s : State) (i k : Nat) (v : Stack) (h : i ≠ k) : (s.setStackOf i v).stackOf k = s.stackOf k := Tab.get_set_ne _ _ _ _ _ h
@[simp] theorem State.modStackOf_eq (s : State) (i : Nat) (f : Stack → Stack) : s.modStackOf i f = s.setStackOf i (f (s.stackOf i)) := rfl
@[simp] theorem State.pending_setStackOf (s : State) (i : Nat) (v : Stack) : (s.setStackOf i v).pending = s.pending := rfl
@[simp] theorem State.freeCount_setStackOf (s : State) (i : Nat) (v : Stack) : (s.setStackOf i v).freeCount = s.freeCount := rfl
@[simp] theorem State.kcycles_setStackOf (s : State) (i : Nat) (v : Stack) : (s.setStackOf i v).kcycles = s.kcycles := rfl
@[simp] theorem State.part_setStackOf (s : State) (i : Nat) (v : Stack) : (s.setStackOf i v).part = s.part := rfl
@[simp] theorem State.boot_setStackOf (s : State) (i : Nat) (v : Stack) : (s.setStackOf i v).boot = s.boot := rfl
@[simp] theorem State.modes_setStackOf (s : State) (i : Nat) (v : Stack) : (s.setStackOf i v).modes = s.modes := rfl
@[simp] theorem State.supply_setStackOf (s : State) (i : Nat) (v : Stack) : (s.setStackOf i v).supply = s.supply := rfl
@[simp] theorem State.dtb_setStackOf (s : State) (i : Nat) (v : Stack) : (s.setStackOf i v).dtb = s.dtb := rfl
@[simp] theorem State.seqr_setStackOf (s : State) (i : Nat) (v : Stack) : (s.setStackOf i v).seqr = s.seqr := rfl
@[simp] theorem State.greg_setStackOf (s : State) (i : Nat) (v : Stack) : (s.setStackOf i v).greg = s.greg := rfl
@[simp] theorem State.cspi_setStackOf (s : State) (i : Nat) (v : Stack) : (s.setStackOf i v).cspi = s.cspi := rfl
@[simp] theorem State.cap_setStackOf (s : State) (i : Nat) (v : Stack) : (s.setStackOf i v).cap = s.cap := rfl
@[simp] theorem State.fields_setStackOf (s : State) (i : Nat) (v : Stack) : (s.setStackOf i v).fields = s.fields := rfl
@[simp] theorem State.lostClocks_setStackOf (s : State) (i : Nat) (v : Stack) : (s.setStackOf i v).lostClocks = s.lostClocks := rfl
@[simp] theorem State.heads_setStackOf (s : State) (i : Nat) (v : Stack) : (s.setStackOf i v).heads = s.heads := rfl
@[simp] theorem State.store_setStackOf (s : State) (i : Nat) (v : Stack) : (s.setStackOf i v).store = s.store := rfl
@[simp] theorem State.streams_setStackOf (s : State) (i : Nat) (v : Stack) : (s.setStackOf i v).streams = s.streams := rfl
@[simp] theorem State.units_setStackOf (s : State) (i : Nat) (v : Stack) : (s.setStackOf i v).units = s.units := rfl
@[simp] theorem State.routers_setStackOf (s : State) (i : Nat) (v : Stack) : (s.setStackOf i v).routers = s.routers := rfl
@[simp] theorem State.gates_setStackOf (s : State) (i : Nat) (v : Stack) : (s.setStackOf i v).gates = s.gates := rfl
@[simp] theorem State.groups_setStackOf (s : State) (i : Nat) (v : Stack) : (s.setStackOf i v).groups = s.groups := rfl
@[simp] theorem State.origins_setStackOf (s : State) (i : Nat) (v : Stack) : (s.setStackOf i v).origins = s.origins := rfl
@[simp] theorem State.edges_setStackOf (s : State) (i : Nat) (v : Stack) : (s.setStackOf i v).edges = s.edges := rfl
@[simp] theorem State.tails_setStackOf (s : State) (i : Nat) (v : Stack) : (s.setStackOf i v).tails = s.tails := rfl
@[simp] theorem State.arbs_setStackOf (s : State) (i : Nat) (v : Stack) : (s.setStackOf i v).arbs = s.arbs := rfl
@[simp] theorem State.queues_setStackOf (s : State) (i : Nat) (v : Stack) : (s.setStackOf i v).queues = s.queues := rfl
@[simp] theorem State.fns_setStackOf (s : State) (i : Nat) (v : Stack) : (s.setStackOf i v).fns = s.fns := rfl
@[simp] theorem State.locks_setStackOf (s : State) (i : Nat) (v : Stack) : (s.setStackOf i v).locks = s.locks := rfl
@[simp] theorem State.pools_setStackOf (s : State) (i : Nat) (v : Stack) : (s.setStackOf i v).pools = s.pools := rfl
@[simp] theorem State.slots_setStackOf (s : State) (i : Nat) (v : Stack) : (s.setStackOf i v).slots = s.slots := rfl
@[simp] theorem State.ctxs_setStackOf (s : State) (i : Nat) (v : Stack) : (s.setStackOf i v).ctxs = s.ctxs := rfl
@[simp] theorem State.epochs_setStackOf (s : State) (i : Nat) (v : Stack) : (s.setStackOf i v).epochs = s.epochs := rfl
@[simp] theorem State.hbm_setStackOf (s : State) (i : Nat) (v : Stack) : (s.setStackOf i v).hbm = s.hbm := rfl
@[simp] theorem State.hostMem_setStackOf (s : State) (i : Nat) (v : Stack) : (s.setStackOf i v).hostMem = s.hostMem := rfl
@[simp] theorem State.hostIn_setStackOf (s : State) (i : Nat) (v : Stack) : (s.setStackOf i v).hostIn = s.hostIn := rfl
@[simp] theorem State.yports_setStackOf (s : State) (i : Nat) (v : Stack) : (s.setStackOf i v).yports = s.yports := rfl
@[simp] theorem State.eths_setStackOf (s : State) (i : Nat) (v : Stack) : (s.setStackOf i v).eths = s.eths := rfl
@[simp] theorem State.senders_setStackOf (s : State) (i : Nat) (v : Stack) : (s.setStackOf i v).senders = s.senders := rfl
@[simp] theorem State.eps_setStackOf (s : State) (i : Nat) (v : Stack) : (s.setStackOf i v).eps = s.eps := rfl
@[simp] theorem State.vfMap_setStackOf (s : State) (i : Nat) (v : Stack) : (s.setStackOf i v).vfMap = s.vfMap := rfl
@[simp] theorem State.vfEnable_setStackOf (s : State) (i : Nat) (v : Stack) : (s.setStackOf i v).vfEnable = s.vfEnable := rfl
@[simp] theorem State.field_of_setStackOf (s : State) (i k : Nat) (v : Stack) : (s.setStackOf i v).field k = s.field k := rfl
@[simp] theorem State.head_of_setStackOf (s : State) (i k : Nat) (v : Stack) : (s.setStackOf i v).head k = s.head k := rfl
@[simp] theorem State.strm_of_setStackOf (s : State) (i k : Nat) (v : Stack) : (s.setStackOf i v).strm k = s.strm k := rfl
@[simp] theorem State.unit_of_setStackOf (s : State) (i k : Nat) (v : Stack) : (s.setStackOf i v).unit k = s.unit k := rfl
@[simp] theorem State.router_of_setStackOf (s : State) (i k : Nat) (v : Stack) : (s.setStackOf i v).router k = s.router k := rfl
@[simp] theorem State.gate_of_setStackOf (s : State) (i k : Nat) (v : Stack) : (s.setStackOf i v).gate k = s.gate k := rfl
@[simp] theorem State.group_of_setStackOf (s : State) (i k : Nat) (v : Stack) : (s.setStackOf i v).group k = s.group k := rfl
@[simp] theorem State.origin_of_setStackOf (s : State) (i k : Nat) (v : Stack) : (s.setStackOf i v).origin k = s.origin k := rfl
@[simp] theorem State.edgeEng_of_setStackOf (s : State) (i k : Nat) (v : Stack) : (s.setStackOf i v).edgeEng k = s.edgeEng k := rfl
@[simp] theorem State.tailEng_of_setStackOf (s : State) (i k : Nat) (v : Stack) : (s.setStackOf i v).tailEng k = s.tailEng k := rfl
@[simp] theorem State.arb_of_setStackOf (s : State) (i k : Nat) (v : Stack) : (s.setStackOf i v).arb k = s.arb k := rfl
@[simp] theorem State.queue_of_setStackOf (s : State) (i k : Nat) (v : Stack) : (s.setStackOf i v).queue k = s.queue k := rfl
@[simp] theorem State.fn_of_setStackOf (s : State) (i k : Nat) (v : Stack) : (s.setStackOf i v).fn k = s.fn k := rfl
@[simp] theorem State.lock_of_setStackOf (s : State) (i k : Nat) (v : Stack) : (s.setStackOf i v).lock k = s.lock k := rfl
@[simp] theorem State.pool_of_setStackOf (s : State) (i k : Nat) (v : Stack) : (s.setStackOf i v).pool k = s.pool k := rfl
@[simp] theorem State.slot_of_setStackOf (s : State) (i k : Nat) (v : Stack) : (s.setStackOf i v).slot k = s.slot k := rfl
@[simp] theorem State.ctx_of_setStackOf (s : State) (i k : Nat) (v : Stack) : (s.setStackOf i v).ctx k = s.ctx k := rfl
@[simp] theorem State.epoch_of_setStackOf (s : State) (i k : Nat) (v : Stack) : (s.setStackOf i v).epoch k = s.epoch k := rfl
@[simp] theorem State.yport_of_setStackOf (s : State) (i k : Nat) (v : Stack) : (s.setStackOf i v).yport k = s.yport k := rfl
@[simp] theorem State.eth_of_setStackOf (s : State) (i k : Nat) (v : Stack) : (s.setStackOf i v).eth k = s.eth k := rfl
@[simp] theorem State.sender_of_setStackOf (s : State) (i k : Nat) (v : Stack) : (s.setStackOf i v).sender k = s.sender k := rfl
@[simp] theorem State.ep_of_setStackOf (s : State) (i k : Nat) (v : Stack) : (s.setStackOf i v).ep k = s.ep k := rfl

@[simp] theorem State.yport_setYport (s : State) (i : Nat) (v : Yport) : (s.setYport i v).yport i = v := Tab.get_set_same _ _ _ _
theorem State.yport_setYport_ne (s : State) (i k : Nat) (v : Yport) (h : i ≠ k) : (s.setYport i v).yport k = s.yport k := Tab.get_set_ne _ _ _ _ _ h
@[simp] theorem State.modYport_eq (s : State) (i : Nat) (f : Yport → Yport) : s.modYport i f = s.setYport i (f (s.yport i)) := rfl
@[simp] theorem State.pending_setYport (s : State) (i : Nat) (v : Yport) : (s.setYport i v).pending = s.pending := rfl
@[simp] theorem State.freeCount_setYport (s : State) (i : Nat) (v : Yport) : (s.setYport i v).freeCount = s.freeCount := rfl
@[simp] theorem State.kcycles_setYport (s : State) (i : Nat) (v : Yport) : (s.setYport i v).kcycles = s.kcycles := rfl
@[simp] theorem State.part_setYport (s : State) (i : Nat) (v : Yport) : (s.setYport i v).part = s.part := rfl
@[simp] theorem State.boot_setYport (s : State) (i : Nat) (v : Yport) : (s.setYport i v).boot = s.boot := rfl
@[simp] theorem State.modes_setYport (s : State) (i : Nat) (v : Yport) : (s.setYport i v).modes = s.modes := rfl
@[simp] theorem State.supply_setYport (s : State) (i : Nat) (v : Yport) : (s.setYport i v).supply = s.supply := rfl
@[simp] theorem State.dtb_setYport (s : State) (i : Nat) (v : Yport) : (s.setYport i v).dtb = s.dtb := rfl
@[simp] theorem State.seqr_setYport (s : State) (i : Nat) (v : Yport) : (s.setYport i v).seqr = s.seqr := rfl
@[simp] theorem State.greg_setYport (s : State) (i : Nat) (v : Yport) : (s.setYport i v).greg = s.greg := rfl
@[simp] theorem State.cspi_setYport (s : State) (i : Nat) (v : Yport) : (s.setYport i v).cspi = s.cspi := rfl
@[simp] theorem State.cap_setYport (s : State) (i : Nat) (v : Yport) : (s.setYport i v).cap = s.cap := rfl
@[simp] theorem State.fields_setYport (s : State) (i : Nat) (v : Yport) : (s.setYport i v).fields = s.fields := rfl
@[simp] theorem State.lostClocks_setYport (s : State) (i : Nat) (v : Yport) : (s.setYport i v).lostClocks = s.lostClocks := rfl
@[simp] theorem State.heads_setYport (s : State) (i : Nat) (v : Yport) : (s.setYport i v).heads = s.heads := rfl
@[simp] theorem State.store_setYport (s : State) (i : Nat) (v : Yport) : (s.setYport i v).store = s.store := rfl
@[simp] theorem State.streams_setYport (s : State) (i : Nat) (v : Yport) : (s.setYport i v).streams = s.streams := rfl
@[simp] theorem State.units_setYport (s : State) (i : Nat) (v : Yport) : (s.setYport i v).units = s.units := rfl
@[simp] theorem State.routers_setYport (s : State) (i : Nat) (v : Yport) : (s.setYport i v).routers = s.routers := rfl
@[simp] theorem State.gates_setYport (s : State) (i : Nat) (v : Yport) : (s.setYport i v).gates = s.gates := rfl
@[simp] theorem State.groups_setYport (s : State) (i : Nat) (v : Yport) : (s.setYport i v).groups = s.groups := rfl
@[simp] theorem State.origins_setYport (s : State) (i : Nat) (v : Yport) : (s.setYport i v).origins = s.origins := rfl
@[simp] theorem State.edges_setYport (s : State) (i : Nat) (v : Yport) : (s.setYport i v).edges = s.edges := rfl
@[simp] theorem State.tails_setYport (s : State) (i : Nat) (v : Yport) : (s.setYport i v).tails = s.tails := rfl
@[simp] theorem State.arbs_setYport (s : State) (i : Nat) (v : Yport) : (s.setYport i v).arbs = s.arbs := rfl
@[simp] theorem State.queues_setYport (s : State) (i : Nat) (v : Yport) : (s.setYport i v).queues = s.queues := rfl
@[simp] theorem State.fns_setYport (s : State) (i : Nat) (v : Yport) : (s.setYport i v).fns = s.fns := rfl
@[simp] theorem State.locks_setYport (s : State) (i : Nat) (v : Yport) : (s.setYport i v).locks = s.locks := rfl
@[simp] theorem State.pools_setYport (s : State) (i : Nat) (v : Yport) : (s.setYport i v).pools = s.pools := rfl
@[simp] theorem State.slots_setYport (s : State) (i : Nat) (v : Yport) : (s.setYport i v).slots = s.slots := rfl
@[simp] theorem State.ctxs_setYport (s : State) (i : Nat) (v : Yport) : (s.setYport i v).ctxs = s.ctxs := rfl
@[simp] theorem State.epochs_setYport (s : State) (i : Nat) (v : Yport) : (s.setYport i v).epochs = s.epochs := rfl
@[simp] theorem State.hbmStacks_setYport (s : State) (i : Nat) (v : Yport) : (s.setYport i v).hbmStacks = s.hbmStacks := rfl
@[simp] theorem State.hbm_setYport (s : State) (i : Nat) (v : Yport) : (s.setYport i v).hbm = s.hbm := rfl
@[simp] theorem State.hostMem_setYport (s : State) (i : Nat) (v : Yport) : (s.setYport i v).hostMem = s.hostMem := rfl
@[simp] theorem State.hostIn_setYport (s : State) (i : Nat) (v : Yport) : (s.setYport i v).hostIn = s.hostIn := rfl
@[simp] theorem State.eths_setYport (s : State) (i : Nat) (v : Yport) : (s.setYport i v).eths = s.eths := rfl
@[simp] theorem State.senders_setYport (s : State) (i : Nat) (v : Yport) : (s.setYport i v).senders = s.senders := rfl
@[simp] theorem State.eps_setYport (s : State) (i : Nat) (v : Yport) : (s.setYport i v).eps = s.eps := rfl
@[simp] theorem State.vfMap_setYport (s : State) (i : Nat) (v : Yport) : (s.setYport i v).vfMap = s.vfMap := rfl
@[simp] theorem State.vfEnable_setYport (s : State) (i : Nat) (v : Yport) : (s.setYport i v).vfEnable = s.vfEnable := rfl
@[simp] theorem State.field_of_setYport (s : State) (i k : Nat) (v : Yport) : (s.setYport i v).field k = s.field k := rfl
@[simp] theorem State.head_of_setYport (s : State) (i k : Nat) (v : Yport) : (s.setYport i v).head k = s.head k := rfl
@[simp] theorem State.strm_of_setYport (s : State) (i k : Nat) (v : Yport) : (s.setYport i v).strm k = s.strm k := rfl
@[simp] theorem State.unit_of_setYport (s : State) (i k : Nat) (v : Yport) : (s.setYport i v).unit k = s.unit k := rfl
@[simp] theorem State.router_of_setYport (s : State) (i k : Nat) (v : Yport) : (s.setYport i v).router k = s.router k := rfl
@[simp] theorem State.gate_of_setYport (s : State) (i k : Nat) (v : Yport) : (s.setYport i v).gate k = s.gate k := rfl
@[simp] theorem State.group_of_setYport (s : State) (i k : Nat) (v : Yport) : (s.setYport i v).group k = s.group k := rfl
@[simp] theorem State.origin_of_setYport (s : State) (i k : Nat) (v : Yport) : (s.setYport i v).origin k = s.origin k := rfl
@[simp] theorem State.edgeEng_of_setYport (s : State) (i k : Nat) (v : Yport) : (s.setYport i v).edgeEng k = s.edgeEng k := rfl
@[simp] theorem State.tailEng_of_setYport (s : State) (i k : Nat) (v : Yport) : (s.setYport i v).tailEng k = s.tailEng k := rfl
@[simp] theorem State.arb_of_setYport (s : State) (i k : Nat) (v : Yport) : (s.setYport i v).arb k = s.arb k := rfl
@[simp] theorem State.queue_of_setYport (s : State) (i k : Nat) (v : Yport) : (s.setYport i v).queue k = s.queue k := rfl
@[simp] theorem State.fn_of_setYport (s : State) (i k : Nat) (v : Yport) : (s.setYport i v).fn k = s.fn k := rfl
@[simp] theorem State.lock_of_setYport (s : State) (i k : Nat) (v : Yport) : (s.setYport i v).lock k = s.lock k := rfl
@[simp] theorem State.pool_of_setYport (s : State) (i k : Nat) (v : Yport) : (s.setYport i v).pool k = s.pool k := rfl
@[simp] theorem State.slot_of_setYport (s : State) (i k : Nat) (v : Yport) : (s.setYport i v).slot k = s.slot k := rfl
@[simp] theorem State.ctx_of_setYport (s : State) (i k : Nat) (v : Yport) : (s.setYport i v).ctx k = s.ctx k := rfl
@[simp] theorem State.epoch_of_setYport (s : State) (i k : Nat) (v : Yport) : (s.setYport i v).epoch k = s.epoch k := rfl
@[simp] theorem State.stackOf_of_setYport (s : State) (i k : Nat) (v : Yport) : (s.setYport i v).stackOf k = s.stackOf k := rfl
@[simp] theorem State.eth_of_setYport (s : State) (i k : Nat) (v : Yport) : (s.setYport i v).eth k = s.eth k := rfl
@[simp] theorem State.sender_of_setYport (s : State) (i k : Nat) (v : Yport) : (s.setYport i v).sender k = s.sender k := rfl
@[simp] theorem State.ep_of_setYport (s : State) (i k : Nat) (v : Yport) : (s.setYport i v).ep k = s.ep k := rfl

@[simp] theorem State.eth_setEth (s : State) (i : Nat) (v : Eth) : (s.setEth i v).eth i = v := Tab.get_set_same _ _ _ _
theorem State.eth_setEth_ne (s : State) (i k : Nat) (v : Eth) (h : i ≠ k) : (s.setEth i v).eth k = s.eth k := Tab.get_set_ne _ _ _ _ _ h
@[simp] theorem State.modEth_eq (s : State) (i : Nat) (f : Eth → Eth) : s.modEth i f = s.setEth i (f (s.eth i)) := rfl
@[simp] theorem State.pending_setEth (s : State) (i : Nat) (v : Eth) : (s.setEth i v).pending = s.pending := rfl
@[simp] theorem State.freeCount_setEth (s : State) (i : Nat) (v : Eth) : (s.setEth i v).freeCount = s.freeCount := rfl
@[simp] theorem State.kcycles_setEth (s : State) (i : Nat) (v : Eth) : (s.setEth i v).kcycles = s.kcycles := rfl
@[simp] theorem State.part_setEth (s : State) (i : Nat) (v : Eth) : (s.setEth i v).part = s.part := rfl
@[simp] theorem State.boot_setEth (s : State) (i : Nat) (v : Eth) : (s.setEth i v).boot = s.boot := rfl
@[simp] theorem State.modes_setEth (s : State) (i : Nat) (v : Eth) : (s.setEth i v).modes = s.modes := rfl
@[simp] theorem State.supply_setEth (s : State) (i : Nat) (v : Eth) : (s.setEth i v).supply = s.supply := rfl
@[simp] theorem State.dtb_setEth (s : State) (i : Nat) (v : Eth) : (s.setEth i v).dtb = s.dtb := rfl
@[simp] theorem State.seqr_setEth (s : State) (i : Nat) (v : Eth) : (s.setEth i v).seqr = s.seqr := rfl
@[simp] theorem State.greg_setEth (s : State) (i : Nat) (v : Eth) : (s.setEth i v).greg = s.greg := rfl
@[simp] theorem State.cspi_setEth (s : State) (i : Nat) (v : Eth) : (s.setEth i v).cspi = s.cspi := rfl
@[simp] theorem State.cap_setEth (s : State) (i : Nat) (v : Eth) : (s.setEth i v).cap = s.cap := rfl
@[simp] theorem State.fields_setEth (s : State) (i : Nat) (v : Eth) : (s.setEth i v).fields = s.fields := rfl
@[simp] theorem State.lostClocks_setEth (s : State) (i : Nat) (v : Eth) : (s.setEth i v).lostClocks = s.lostClocks := rfl
@[simp] theorem State.heads_setEth (s : State) (i : Nat) (v : Eth) : (s.setEth i v).heads = s.heads := rfl
@[simp] theorem State.store_setEth (s : State) (i : Nat) (v : Eth) : (s.setEth i v).store = s.store := rfl
@[simp] theorem State.streams_setEth (s : State) (i : Nat) (v : Eth) : (s.setEth i v).streams = s.streams := rfl
@[simp] theorem State.units_setEth (s : State) (i : Nat) (v : Eth) : (s.setEth i v).units = s.units := rfl
@[simp] theorem State.routers_setEth (s : State) (i : Nat) (v : Eth) : (s.setEth i v).routers = s.routers := rfl
@[simp] theorem State.gates_setEth (s : State) (i : Nat) (v : Eth) : (s.setEth i v).gates = s.gates := rfl
@[simp] theorem State.groups_setEth (s : State) (i : Nat) (v : Eth) : (s.setEth i v).groups = s.groups := rfl
@[simp] theorem State.origins_setEth (s : State) (i : Nat) (v : Eth) : (s.setEth i v).origins = s.origins := rfl
@[simp] theorem State.edges_setEth (s : State) (i : Nat) (v : Eth) : (s.setEth i v).edges = s.edges := rfl
@[simp] theorem State.tails_setEth (s : State) (i : Nat) (v : Eth) : (s.setEth i v).tails = s.tails := rfl
@[simp] theorem State.arbs_setEth (s : State) (i : Nat) (v : Eth) : (s.setEth i v).arbs = s.arbs := rfl
@[simp] theorem State.queues_setEth (s : State) (i : Nat) (v : Eth) : (s.setEth i v).queues = s.queues := rfl
@[simp] theorem State.fns_setEth (s : State) (i : Nat) (v : Eth) : (s.setEth i v).fns = s.fns := rfl
@[simp] theorem State.locks_setEth (s : State) (i : Nat) (v : Eth) : (s.setEth i v).locks = s.locks := rfl
@[simp] theorem State.pools_setEth (s : State) (i : Nat) (v : Eth) : (s.setEth i v).pools = s.pools := rfl
@[simp] theorem State.slots_setEth (s : State) (i : Nat) (v : Eth) : (s.setEth i v).slots = s.slots := rfl
@[simp] theorem State.ctxs_setEth (s : State) (i : Nat) (v : Eth) : (s.setEth i v).ctxs = s.ctxs := rfl
@[simp] theorem State.epochs_setEth (s : State) (i : Nat) (v : Eth) : (s.setEth i v).epochs = s.epochs := rfl
@[simp] theorem State.hbmStacks_setEth (s : State) (i : Nat) (v : Eth) : (s.setEth i v).hbmStacks = s.hbmStacks := rfl
@[simp] theorem State.hbm_setEth (s : State) (i : Nat) (v : Eth) : (s.setEth i v).hbm = s.hbm := rfl
@[simp] theorem State.hostMem_setEth (s : State) (i : Nat) (v : Eth) : (s.setEth i v).hostMem = s.hostMem := rfl
@[simp] theorem State.hostIn_setEth (s : State) (i : Nat) (v : Eth) : (s.setEth i v).hostIn = s.hostIn := rfl
@[simp] theorem State.yports_setEth (s : State) (i : Nat) (v : Eth) : (s.setEth i v).yports = s.yports := rfl
@[simp] theorem State.senders_setEth (s : State) (i : Nat) (v : Eth) : (s.setEth i v).senders = s.senders := rfl
@[simp] theorem State.eps_setEth (s : State) (i : Nat) (v : Eth) : (s.setEth i v).eps = s.eps := rfl
@[simp] theorem State.vfMap_setEth (s : State) (i : Nat) (v : Eth) : (s.setEth i v).vfMap = s.vfMap := rfl
@[simp] theorem State.vfEnable_setEth (s : State) (i : Nat) (v : Eth) : (s.setEth i v).vfEnable = s.vfEnable := rfl
@[simp] theorem State.field_of_setEth (s : State) (i k : Nat) (v : Eth) : (s.setEth i v).field k = s.field k := rfl
@[simp] theorem State.head_of_setEth (s : State) (i k : Nat) (v : Eth) : (s.setEth i v).head k = s.head k := rfl
@[simp] theorem State.strm_of_setEth (s : State) (i k : Nat) (v : Eth) : (s.setEth i v).strm k = s.strm k := rfl
@[simp] theorem State.unit_of_setEth (s : State) (i k : Nat) (v : Eth) : (s.setEth i v).unit k = s.unit k := rfl
@[simp] theorem State.router_of_setEth (s : State) (i k : Nat) (v : Eth) : (s.setEth i v).router k = s.router k := rfl
@[simp] theorem State.gate_of_setEth (s : State) (i k : Nat) (v : Eth) : (s.setEth i v).gate k = s.gate k := rfl
@[simp] theorem State.group_of_setEth (s : State) (i k : Nat) (v : Eth) : (s.setEth i v).group k = s.group k := rfl
@[simp] theorem State.origin_of_setEth (s : State) (i k : Nat) (v : Eth) : (s.setEth i v).origin k = s.origin k := rfl
@[simp] theorem State.edgeEng_of_setEth (s : State) (i k : Nat) (v : Eth) : (s.setEth i v).edgeEng k = s.edgeEng k := rfl
@[simp] theorem State.tailEng_of_setEth (s : State) (i k : Nat) (v : Eth) : (s.setEth i v).tailEng k = s.tailEng k := rfl
@[simp] theorem State.arb_of_setEth (s : State) (i k : Nat) (v : Eth) : (s.setEth i v).arb k = s.arb k := rfl
@[simp] theorem State.queue_of_setEth (s : State) (i k : Nat) (v : Eth) : (s.setEth i v).queue k = s.queue k := rfl
@[simp] theorem State.fn_of_setEth (s : State) (i k : Nat) (v : Eth) : (s.setEth i v).fn k = s.fn k := rfl
@[simp] theorem State.lock_of_setEth (s : State) (i k : Nat) (v : Eth) : (s.setEth i v).lock k = s.lock k := rfl
@[simp] theorem State.pool_of_setEth (s : State) (i k : Nat) (v : Eth) : (s.setEth i v).pool k = s.pool k := rfl
@[simp] theorem State.slot_of_setEth (s : State) (i k : Nat) (v : Eth) : (s.setEth i v).slot k = s.slot k := rfl
@[simp] theorem State.ctx_of_setEth (s : State) (i k : Nat) (v : Eth) : (s.setEth i v).ctx k = s.ctx k := rfl
@[simp] theorem State.epoch_of_setEth (s : State) (i k : Nat) (v : Eth) : (s.setEth i v).epoch k = s.epoch k := rfl
@[simp] theorem State.stackOf_of_setEth (s : State) (i k : Nat) (v : Eth) : (s.setEth i v).stackOf k = s.stackOf k := rfl
@[simp] theorem State.yport_of_setEth (s : State) (i k : Nat) (v : Eth) : (s.setEth i v).yport k = s.yport k := rfl
@[simp] theorem State.sender_of_setEth (s : State) (i k : Nat) (v : Eth) : (s.setEth i v).sender k = s.sender k := rfl
@[simp] theorem State.ep_of_setEth (s : State) (i k : Nat) (v : Eth) : (s.setEth i v).ep k = s.ep k := rfl

@[simp] theorem State.sender_setSender (s : State) (i : Nat) (v : Sender) : (s.setSender i v).sender i = v := Tab.get_set_same _ _ _ _
theorem State.sender_setSender_ne (s : State) (i k : Nat) (v : Sender) (h : i ≠ k) : (s.setSender i v).sender k = s.sender k := Tab.get_set_ne _ _ _ _ _ h
@[simp] theorem State.modSender_eq (s : State) (i : Nat) (f : Sender → Sender) : s.modSender i f = s.setSender i (f (s.sender i)) := rfl
@[simp] theorem State.pending_setSender (s : State) (i : Nat) (v : Sender) : (s.setSender i v).pending = s.pending := rfl
@[simp] theorem State.freeCount_setSender (s : State) (i : Nat) (v : Sender) : (s.setSender i v).freeCount = s.freeCount := rfl
@[simp] theorem State.kcycles_setSender (s : State) (i : Nat) (v : Sender) : (s.setSender i v).kcycles = s.kcycles := rfl
@[simp] theorem State.part_setSender (s : State) (i : Nat) (v : Sender) : (s.setSender i v).part = s.part := rfl
@[simp] theorem State.boot_setSender (s : State) (i : Nat) (v : Sender) : (s.setSender i v).boot = s.boot := rfl
@[simp] theorem State.modes_setSender (s : State) (i : Nat) (v : Sender) : (s.setSender i v).modes = s.modes := rfl
@[simp] theorem State.supply_setSender (s : State) (i : Nat) (v : Sender) : (s.setSender i v).supply = s.supply := rfl
@[simp] theorem State.dtb_setSender (s : State) (i : Nat) (v : Sender) : (s.setSender i v).dtb = s.dtb := rfl
@[simp] theorem State.seqr_setSender (s : State) (i : Nat) (v : Sender) : (s.setSender i v).seqr = s.seqr := rfl
@[simp] theorem State.greg_setSender (s : State) (i : Nat) (v : Sender) : (s.setSender i v).greg = s.greg := rfl
@[simp] theorem State.cspi_setSender (s : State) (i : Nat) (v : Sender) : (s.setSender i v).cspi = s.cspi := rfl
@[simp] theorem State.cap_setSender (s : State) (i : Nat) (v : Sender) : (s.setSender i v).cap = s.cap := rfl
@[simp] theorem State.fields_setSender (s : State) (i : Nat) (v : Sender) : (s.setSender i v).fields = s.fields := rfl
@[simp] theorem State.lostClocks_setSender (s : State) (i : Nat) (v : Sender) : (s.setSender i v).lostClocks = s.lostClocks := rfl
@[simp] theorem State.heads_setSender (s : State) (i : Nat) (v : Sender) : (s.setSender i v).heads = s.heads := rfl
@[simp] theorem State.store_setSender (s : State) (i : Nat) (v : Sender) : (s.setSender i v).store = s.store := rfl
@[simp] theorem State.streams_setSender (s : State) (i : Nat) (v : Sender) : (s.setSender i v).streams = s.streams := rfl
@[simp] theorem State.units_setSender (s : State) (i : Nat) (v : Sender) : (s.setSender i v).units = s.units := rfl
@[simp] theorem State.routers_setSender (s : State) (i : Nat) (v : Sender) : (s.setSender i v).routers = s.routers := rfl
@[simp] theorem State.gates_setSender (s : State) (i : Nat) (v : Sender) : (s.setSender i v).gates = s.gates := rfl
@[simp] theorem State.groups_setSender (s : State) (i : Nat) (v : Sender) : (s.setSender i v).groups = s.groups := rfl
@[simp] theorem State.origins_setSender (s : State) (i : Nat) (v : Sender) : (s.setSender i v).origins = s.origins := rfl
@[simp] theorem State.edges_setSender (s : State) (i : Nat) (v : Sender) : (s.setSender i v).edges = s.edges := rfl
@[simp] theorem State.tails_setSender (s : State) (i : Nat) (v : Sender) : (s.setSender i v).tails = s.tails := rfl
@[simp] theorem State.arbs_setSender (s : State) (i : Nat) (v : Sender) : (s.setSender i v).arbs = s.arbs := rfl
@[simp] theorem State.queues_setSender (s : State) (i : Nat) (v : Sender) : (s.setSender i v).queues = s.queues := rfl
@[simp] theorem State.fns_setSender (s : State) (i : Nat) (v : Sender) : (s.setSender i v).fns = s.fns := rfl
@[simp] theorem State.locks_setSender (s : State) (i : Nat) (v : Sender) : (s.setSender i v).locks = s.locks := rfl
@[simp] theorem State.pools_setSender (s : State) (i : Nat) (v : Sender) : (s.setSender i v).pools = s.pools := rfl
@[simp] theorem State.slots_setSender (s : State) (i : Nat) (v : Sender) : (s.setSender i v).slots = s.slots := rfl
@[simp] theorem State.ctxs_setSender (s : State) (i : Nat) (v : Sender) : (s.setSender i v).ctxs = s.ctxs := rfl
@[simp] theorem State.epochs_setSender (s : State) (i : Nat) (v : Sender) : (s.setSender i v).epochs = s.epochs := rfl
@[simp] theorem State.hbmStacks_setSender (s : State) (i : Nat) (v : Sender) : (s.setSender i v).hbmStacks = s.hbmStacks := rfl
@[simp] theorem State.hbm_setSender (s : State) (i : Nat) (v : Sender) : (s.setSender i v).hbm = s.hbm := rfl
@[simp] theorem State.hostMem_setSender (s : State) (i : Nat) (v : Sender) : (s.setSender i v).hostMem = s.hostMem := rfl
@[simp] theorem State.hostIn_setSender (s : State) (i : Nat) (v : Sender) : (s.setSender i v).hostIn = s.hostIn := rfl
@[simp] theorem State.yports_setSender (s : State) (i : Nat) (v : Sender) : (s.setSender i v).yports = s.yports := rfl
@[simp] theorem State.eths_setSender (s : State) (i : Nat) (v : Sender) : (s.setSender i v).eths = s.eths := rfl
@[simp] theorem State.eps_setSender (s : State) (i : Nat) (v : Sender) : (s.setSender i v).eps = s.eps := rfl
@[simp] theorem State.vfMap_setSender (s : State) (i : Nat) (v : Sender) : (s.setSender i v).vfMap = s.vfMap := rfl
@[simp] theorem State.vfEnable_setSender (s : State) (i : Nat) (v : Sender) : (s.setSender i v).vfEnable = s.vfEnable := rfl
@[simp] theorem State.field_of_setSender (s : State) (i k : Nat) (v : Sender) : (s.setSender i v).field k = s.field k := rfl
@[simp] theorem State.head_of_setSender (s : State) (i k : Nat) (v : Sender) : (s.setSender i v).head k = s.head k := rfl
@[simp] theorem State.strm_of_setSender (s : State) (i k : Nat) (v : Sender) : (s.setSender i v).strm k = s.strm k := rfl
@[simp] theorem State.unit_of_setSender (s : State) (i k : Nat) (v : Sender) : (s.setSender i v).unit k = s.unit k := rfl
@[simp] theorem State.router_of_setSender (s : State) (i k : Nat) (v : Sender) : (s.setSender i v).router k = s.router k := rfl
@[simp] theorem State.gate_of_setSender (s : State) (i k : Nat) (v : Sender) : (s.setSender i v).gate k = s.gate k := rfl
@[simp] theorem State.group_of_setSender (s : State) (i k : Nat) (v : Sender) : (s.setSender i v).group k = s.group k := rfl
@[simp] theorem State.origin_of_setSender (s : State) (i k : Nat) (v : Sender) : (s.setSender i v).origin k = s.origin k := rfl
@[simp] theorem State.edgeEng_of_setSender (s : State) (i k : Nat) (v : Sender) : (s.setSender i v).edgeEng k = s.edgeEng k := rfl
@[simp] theorem State.tailEng_of_setSender (s : State) (i k : Nat) (v : Sender) : (s.setSender i v).tailEng k = s.tailEng k := rfl
@[simp] theorem State.arb_of_setSender (s : State) (i k : Nat) (v : Sender) : (s.setSender i v).arb k = s.arb k := rfl
@[simp] theorem State.queue_of_setSender (s : State) (i k : Nat) (v : Sender) : (s.setSender i v).queue k = s.queue k := rfl
@[simp] theorem State.fn_of_setSender (s : State) (i k : Nat) (v : Sender) : (s.setSender i v).fn k = s.fn k := rfl
@[simp] theorem State.lock_of_setSender (s : State) (i k : Nat) (v : Sender) : (s.setSender i v).lock k = s.lock k := rfl
@[simp] theorem State.pool_of_setSender (s : State) (i k : Nat) (v : Sender) : (s.setSender i v).pool k = s.pool k := rfl
@[simp] theorem State.slot_of_setSender (s : State) (i k : Nat) (v : Sender) : (s.setSender i v).slot k = s.slot k := rfl
@[simp] theorem State.ctx_of_setSender (s : State) (i k : Nat) (v : Sender) : (s.setSender i v).ctx k = s.ctx k := rfl
@[simp] theorem State.epoch_of_setSender (s : State) (i k : Nat) (v : Sender) : (s.setSender i v).epoch k = s.epoch k := rfl
@[simp] theorem State.stackOf_of_setSender (s : State) (i k : Nat) (v : Sender) : (s.setSender i v).stackOf k = s.stackOf k := rfl
@[simp] theorem State.yport_of_setSender (s : State) (i k : Nat) (v : Sender) : (s.setSender i v).yport k = s.yport k := rfl
@[simp] theorem State.eth_of_setSender (s : State) (i k : Nat) (v : Sender) : (s.setSender i v).eth k = s.eth k := rfl
@[simp] theorem State.ep_of_setSender (s : State) (i k : Nat) (v : Sender) : (s.setSender i v).ep k = s.ep k := rfl

@[simp] theorem State.ep_setEp (s : State) (i : Nat) (v : Endpoint) : (s.setEp i v).ep i = v := Tab.get_set_same _ _ _ _
theorem State.ep_setEp_ne (s : State) (i k : Nat) (v : Endpoint) (h : i ≠ k) : (s.setEp i v).ep k = s.ep k := Tab.get_set_ne _ _ _ _ _ h
@[simp] theorem State.modEp_eq (s : State) (i : Nat) (f : Endpoint → Endpoint) : s.modEp i f = s.setEp i (f (s.ep i)) := rfl
@[simp] theorem State.pending_setEp (s : State) (i : Nat) (v : Endpoint) : (s.setEp i v).pending = s.pending := rfl
@[simp] theorem State.freeCount_setEp (s : State) (i : Nat) (v : Endpoint) : (s.setEp i v).freeCount = s.freeCount := rfl
@[simp] theorem State.kcycles_setEp (s : State) (i : Nat) (v : Endpoint) : (s.setEp i v).kcycles = s.kcycles := rfl
@[simp] theorem State.part_setEp (s : State) (i : Nat) (v : Endpoint) : (s.setEp i v).part = s.part := rfl
@[simp] theorem State.boot_setEp (s : State) (i : Nat) (v : Endpoint) : (s.setEp i v).boot = s.boot := rfl
@[simp] theorem State.modes_setEp (s : State) (i : Nat) (v : Endpoint) : (s.setEp i v).modes = s.modes := rfl
@[simp] theorem State.supply_setEp (s : State) (i : Nat) (v : Endpoint) : (s.setEp i v).supply = s.supply := rfl
@[simp] theorem State.dtb_setEp (s : State) (i : Nat) (v : Endpoint) : (s.setEp i v).dtb = s.dtb := rfl
@[simp] theorem State.seqr_setEp (s : State) (i : Nat) (v : Endpoint) : (s.setEp i v).seqr = s.seqr := rfl
@[simp] theorem State.greg_setEp (s : State) (i : Nat) (v : Endpoint) : (s.setEp i v).greg = s.greg := rfl
@[simp] theorem State.cspi_setEp (s : State) (i : Nat) (v : Endpoint) : (s.setEp i v).cspi = s.cspi := rfl
@[simp] theorem State.cap_setEp (s : State) (i : Nat) (v : Endpoint) : (s.setEp i v).cap = s.cap := rfl
@[simp] theorem State.fields_setEp (s : State) (i : Nat) (v : Endpoint) : (s.setEp i v).fields = s.fields := rfl
@[simp] theorem State.lostClocks_setEp (s : State) (i : Nat) (v : Endpoint) : (s.setEp i v).lostClocks = s.lostClocks := rfl
@[simp] theorem State.heads_setEp (s : State) (i : Nat) (v : Endpoint) : (s.setEp i v).heads = s.heads := rfl
@[simp] theorem State.store_setEp (s : State) (i : Nat) (v : Endpoint) : (s.setEp i v).store = s.store := rfl
@[simp] theorem State.streams_setEp (s : State) (i : Nat) (v : Endpoint) : (s.setEp i v).streams = s.streams := rfl
@[simp] theorem State.units_setEp (s : State) (i : Nat) (v : Endpoint) : (s.setEp i v).units = s.units := rfl
@[simp] theorem State.routers_setEp (s : State) (i : Nat) (v : Endpoint) : (s.setEp i v).routers = s.routers := rfl
@[simp] theorem State.gates_setEp (s : State) (i : Nat) (v : Endpoint) : (s.setEp i v).gates = s.gates := rfl
@[simp] theorem State.groups_setEp (s : State) (i : Nat) (v : Endpoint) : (s.setEp i v).groups = s.groups := rfl
@[simp] theorem State.origins_setEp (s : State) (i : Nat) (v : Endpoint) : (s.setEp i v).origins = s.origins := rfl
@[simp] theorem State.edges_setEp (s : State) (i : Nat) (v : Endpoint) : (s.setEp i v).edges = s.edges := rfl
@[simp] theorem State.tails_setEp (s : State) (i : Nat) (v : Endpoint) : (s.setEp i v).tails = s.tails := rfl
@[simp] theorem State.arbs_setEp (s : State) (i : Nat) (v : Endpoint) : (s.setEp i v).arbs = s.arbs := rfl
@[simp] theorem State.queues_setEp (s : State) (i : Nat) (v : Endpoint) : (s.setEp i v).queues = s.queues := rfl
@[simp] theorem State.fns_setEp (s : State) (i : Nat) (v : Endpoint) : (s.setEp i v).fns = s.fns := rfl
@[simp] theorem State.locks_setEp (s : State) (i : Nat) (v : Endpoint) : (s.setEp i v).locks = s.locks := rfl
@[simp] theorem State.pools_setEp (s : State) (i : Nat) (v : Endpoint) : (s.setEp i v).pools = s.pools := rfl
@[simp] theorem State.slots_setEp (s : State) (i : Nat) (v : Endpoint) : (s.setEp i v).slots = s.slots := rfl
@[simp] theorem State.ctxs_setEp (s : State) (i : Nat) (v : Endpoint) : (s.setEp i v).ctxs = s.ctxs := rfl
@[simp] theorem State.epochs_setEp (s : State) (i : Nat) (v : Endpoint) : (s.setEp i v).epochs = s.epochs := rfl
@[simp] theorem State.hbmStacks_setEp (s : State) (i : Nat) (v : Endpoint) : (s.setEp i v).hbmStacks = s.hbmStacks := rfl
@[simp] theorem State.hbm_setEp (s : State) (i : Nat) (v : Endpoint) : (s.setEp i v).hbm = s.hbm := rfl
@[simp] theorem State.hostMem_setEp (s : State) (i : Nat) (v : Endpoint) : (s.setEp i v).hostMem = s.hostMem := rfl
@[simp] theorem State.hostIn_setEp (s : State) (i : Nat) (v : Endpoint) : (s.setEp i v).hostIn = s.hostIn := rfl
@[simp] theorem State.yports_setEp (s : State) (i : Nat) (v : Endpoint) : (s.setEp i v).yports = s.yports := rfl
@[simp] theorem State.eths_setEp (s : State) (i : Nat) (v : Endpoint) : (s.setEp i v).eths = s.eths := rfl
@[simp] theorem State.senders_setEp (s : State) (i : Nat) (v : Endpoint) : (s.setEp i v).senders = s.senders := rfl
@[simp] theorem State.vfMap_setEp (s : State) (i : Nat) (v : Endpoint) : (s.setEp i v).vfMap = s.vfMap := rfl
@[simp] theorem State.vfEnable_setEp (s : State) (i : Nat) (v : Endpoint) : (s.setEp i v).vfEnable = s.vfEnable := rfl
@[simp] theorem State.field_of_setEp (s : State) (i k : Nat) (v : Endpoint) : (s.setEp i v).field k = s.field k := rfl
@[simp] theorem State.head_of_setEp (s : State) (i k : Nat) (v : Endpoint) : (s.setEp i v).head k = s.head k := rfl
@[simp] theorem State.strm_of_setEp (s : State) (i k : Nat) (v : Endpoint) : (s.setEp i v).strm k = s.strm k := rfl
@[simp] theorem State.unit_of_setEp (s : State) (i k : Nat) (v : Endpoint) : (s.setEp i v).unit k = s.unit k := rfl
@[simp] theorem State.router_of_setEp (s : State) (i k : Nat) (v : Endpoint) : (s.setEp i v).router k = s.router k := rfl
@[simp] theorem State.gate_of_setEp (s : State) (i k : Nat) (v : Endpoint) : (s.setEp i v).gate k = s.gate k := rfl
@[simp] theorem State.group_of_setEp (s : State) (i k : Nat) (v : Endpoint) : (s.setEp i v).group k = s.group k := rfl
@[simp] theorem State.origin_of_setEp (s : State) (i k : Nat) (v : Endpoint) : (s.setEp i v).origin k = s.origin k := rfl
@[simp] theorem State.edgeEng_of_setEp (s : State) (i k : Nat) (v : Endpoint) : (s.setEp i v).edgeEng k = s.edgeEng k := rfl
@[simp] theorem State.tailEng_of_setEp (s : State) (i k : Nat) (v : Endpoint) : (s.setEp i v).tailEng k = s.tailEng k := rfl
@[simp] theorem State.arb_of_setEp (s : State) (i k : Nat) (v : Endpoint) : (s.setEp i v).arb k = s.arb k := rfl
@[simp] theorem State.queue_of_setEp (s : State) (i k : Nat) (v : Endpoint) : (s.setEp i v).queue k = s.queue k := rfl
@[simp] theorem State.fn_of_setEp (s : State) (i k : Nat) (v : Endpoint) : (s.setEp i v).fn k = s.fn k := rfl
@[simp] theorem State.lock_of_setEp (s : State) (i k : Nat) (v : Endpoint) : (s.setEp i v).lock k = s.lock k := rfl
@[simp] theorem State.pool_of_setEp (s : State) (i k : Nat) (v : Endpoint) : (s.setEp i v).pool k = s.pool k := rfl
@[simp] theorem State.slot_of_setEp (s : State) (i k : Nat) (v : Endpoint) : (s.setEp i v).slot k = s.slot k := rfl
@[simp] theorem State.ctx_of_setEp (s : State) (i k : Nat) (v : Endpoint) : (s.setEp i v).ctx k = s.ctx k := rfl
@[simp] theorem State.epoch_of_setEp (s : State) (i k : Nat) (v : Endpoint) : (s.setEp i v).epoch k = s.epoch k := rfl
@[simp] theorem State.stackOf_of_setEp (s : State) (i k : Nat) (v : Endpoint) : (s.setEp i v).stackOf k = s.stackOf k := rfl
@[simp] theorem State.yport_of_setEp (s : State) (i k : Nat) (v : Endpoint) : (s.setEp i v).yport k = s.yport k := rfl
@[simp] theorem State.eth_of_setEp (s : State) (i k : Nat) (v : Endpoint) : (s.setEp i v).eth k = s.eth k := rfl
@[simp] theorem State.sender_of_setEp (s : State) (i k : Nat) (v : Endpoint) : (s.setEp i v).sender k = s.sender k := rfl

/-! What posting a record, drawing a free value, writing memory and finishing a command leave unchanged. -/

@[simp] theorem State.pending_post (s : State) (n : Nat) (r : Rec) : (s.post n r).pending = s.pending := rfl
@[simp] theorem State.freeCount_post (s : State) (n : Nat) (r : Rec) : (s.post n r).freeCount = s.freeCount := rfl
@[simp] theorem State.kcycles_post (s : State) (n : Nat) (r : Rec) : (s.post n r).kcycles = s.kcycles := rfl
@[simp] theorem State.part_post (s : State) (n : Nat) (r : Rec) : (s.post n r).part = s.part := rfl
@[simp] theorem State.boot_post (s : State) (n : Nat) (r : Rec) : (s.post n r).boot = s.boot := rfl
@[simp] theorem State.modes_post (s : State) (n : Nat) (r : Rec) : (s.post n r).modes = s.modes := rfl
@[simp] theorem State.supply_post (s : State) (n : Nat) (r : Rec) : (s.post n r).supply = s.supply := rfl
@[simp] theorem State.dtb_post (s : State) (n : Nat) (r : Rec) : (s.post n r).dtb = s.dtb := rfl
@[simp] theorem State.greg_post (s : State) (n : Nat) (r : Rec) : (s.post n r).greg = s.greg := rfl
@[simp] theorem State.cspi_post (s : State) (n : Nat) (r : Rec) : (s.post n r).cspi = s.cspi := rfl
@[simp] theorem State.cap_post (s : State) (n : Nat) (r : Rec) : (s.post n r).cap = s.cap := rfl
@[simp] theorem State.fields_post (s : State) (n : Nat) (r : Rec) : (s.post n r).fields = s.fields := rfl
@[simp] theorem State.lostClocks_post (s : State) (n : Nat) (r : Rec) : (s.post n r).lostClocks = s.lostClocks := rfl
@[simp] theorem State.heads_post (s : State) (n : Nat) (r : Rec) : (s.post n r).heads = s.heads := rfl
@[simp] theorem State.store_post (s : State) (n : Nat) (r : Rec) : (s.post n r).store = s.store := rfl
@[simp] theorem State.streams_post (s : State) (n : Nat) (r : Rec) : (s.post n r).streams = s.streams := rfl
@[simp] theorem State.units_post (s : State) (n : Nat) (r : Rec) : (s.post n r).units = s.units := rfl
@[simp] theorem State.routers_post (s : State) (n : Nat) (r : Rec) : (s.post n r).routers = s.routers := rfl
@[simp] theorem State.gates_post (s : State) (n : Nat) (r : Rec) : (s.post n r).gates = s.gates := rfl
@[simp] theorem State.groups_post (s : State) (n : Nat) (r : Rec) : (s.post n r).groups = s.groups := rfl
@[simp] theorem State.origins_post (s : State) (n : Nat) (r : Rec) : (s.post n r).origins = s.origins := rfl
@[simp] theorem State.edges_post (s : State) (n : Nat) (r : Rec) : (s.post n r).edges = s.edges := rfl
@[simp] theorem State.tails_post (s : State) (n : Nat) (r : Rec) : (s.post n r).tails = s.tails := rfl
@[simp] theorem State.arbs_post (s : State) (n : Nat) (r : Rec) : (s.post n r).arbs = s.arbs := rfl
@[simp] theorem State.queues_post (s : State) (n : Nat) (r : Rec) : (s.post n r).queues = s.queues := rfl
@[simp] theorem State.fns_post (s : State) (n : Nat) (r : Rec) : (s.post n r).fns = s.fns := rfl
@[simp] theorem State.locks_post (s : State) (n : Nat) (r : Rec) : (s.post n r).locks = s.locks := rfl
@[simp] theorem State.pools_post (s : State) (n : Nat) (r : Rec) : (s.post n r).pools = s.pools := rfl
@[simp] theorem State.slots_post (s : State) (n : Nat) (r : Rec) : (s.post n r).slots = s.slots := rfl
@[simp] theorem State.ctxs_post (s : State) (n : Nat) (r : Rec) : (s.post n r).ctxs = s.ctxs := rfl
@[simp] theorem State.epochs_post (s : State) (n : Nat) (r : Rec) : (s.post n r).epochs = s.epochs := rfl
@[simp] theorem State.hbmStacks_post (s : State) (n : Nat) (r : Rec) : (s.post n r).hbmStacks = s.hbmStacks := rfl
@[simp] theorem State.hbm_post (s : State) (n : Nat) (r : Rec) : (s.post n r).hbm = s.hbm := rfl
@[simp] theorem State.hostMem_post (s : State) (n : Nat) (r : Rec) : (s.post n r).hostMem = s.hostMem := rfl
@[simp] theorem State.hostIn_post (s : State) (n : Nat) (r : Rec) : (s.post n r).hostIn = s.hostIn := rfl
@[simp] theorem State.yports_post (s : State) (n : Nat) (r : Rec) : (s.post n r).yports = s.yports := rfl
@[simp] theorem State.eths_post (s : State) (n : Nat) (r : Rec) : (s.post n r).eths = s.eths := rfl
@[simp] theorem State.senders_post (s : State) (n : Nat) (r : Rec) : (s.post n r).senders = s.senders := rfl
@[simp] theorem State.eps_post (s : State) (n : Nat) (r : Rec) : (s.post n r).eps = s.eps := rfl
@[simp] theorem State.vfMap_post (s : State) (n : Nat) (r : Rec) : (s.post n r).vfMap = s.vfMap := rfl
@[simp] theorem State.vfEnable_post (s : State) (n : Nat) (r : Rec) : (s.post n r).vfEnable = s.vfEnable := rfl
@[simp] theorem State.field_post (s : State) (n : Nat) (r : Rec) (i : Nat) : (s.post n r).field i = s.field i := rfl
@[simp] theorem State.head_post (s : State) (n : Nat) (r : Rec) (i : Nat) : (s.post n r).head i = s.head i := rfl
@[simp] theorem State.strm_post (s : State) (n : Nat) (r : Rec) (i : Nat) : (s.post n r).strm i = s.strm i := rfl
@[simp] theorem State.unit_post (s : State) (n : Nat) (r : Rec) (i : Nat) : (s.post n r).unit i = s.unit i := rfl
@[simp] theorem State.router_post (s : State) (n : Nat) (r : Rec) (i : Nat) : (s.post n r).router i = s.router i := rfl
@[simp] theorem State.gate_post (s : State) (n : Nat) (r : Rec) (i : Nat) : (s.post n r).gate i = s.gate i := rfl
@[simp] theorem State.group_post (s : State) (n : Nat) (r : Rec) (i : Nat) : (s.post n r).group i = s.group i := rfl
@[simp] theorem State.origin_post (s : State) (n : Nat) (r : Rec) (i : Nat) : (s.post n r).origin i = s.origin i := rfl
@[simp] theorem State.edgeEng_post (s : State) (n : Nat) (r : Rec) (i : Nat) : (s.post n r).edgeEng i = s.edgeEng i := rfl
@[simp] theorem State.tailEng_post (s : State) (n : Nat) (r : Rec) (i : Nat) : (s.post n r).tailEng i = s.tailEng i := rfl
@[simp] theorem State.arb_post (s : State) (n : Nat) (r : Rec) (i : Nat) : (s.post n r).arb i = s.arb i := rfl
@[simp] theorem State.queue_post (s : State) (n : Nat) (r : Rec) (i : Nat) : (s.post n r).queue i = s.queue i := rfl
@[simp] theorem State.fn_post (s : State) (n : Nat) (r : Rec) (i : Nat) : (s.post n r).fn i = s.fn i := rfl
@[simp] theorem State.lock_post (s : State) (n : Nat) (r : Rec) (i : Nat) : (s.post n r).lock i = s.lock i := rfl
@[simp] theorem State.pool_post (s : State) (n : Nat) (r : Rec) (i : Nat) : (s.post n r).pool i = s.pool i := rfl
@[simp] theorem State.slot_post (s : State) (n : Nat) (r : Rec) (i : Nat) : (s.post n r).slot i = s.slot i := rfl
@[simp] theorem State.ctx_post (s : State) (n : Nat) (r : Rec) (i : Nat) : (s.post n r).ctx i = s.ctx i := rfl
@[simp] theorem State.epoch_post (s : State) (n : Nat) (r : Rec) (i : Nat) : (s.post n r).epoch i = s.epoch i := rfl
@[simp] theorem State.stackOf_post (s : State) (n : Nat) (r : Rec) (i : Nat) : (s.post n r).stackOf i = s.stackOf i := rfl
@[simp] theorem State.yport_post (s : State) (n : Nat) (r : Rec) (i : Nat) : (s.post n r).yport i = s.yport i := rfl
@[simp] theorem State.eth_post (s : State) (n : Nat) (r : Rec) (i : Nat) : (s.post n r).eth i = s.eth i := rfl
@[simp] theorem State.sender_post (s : State) (n : Nat) (r : Rec) (i : Nat) : (s.post n r).sender i = s.sender i := rfl
@[simp] theorem State.ep_post (s : State) (n : Nat) (r : Rec) (i : Nat) : (s.post n r).ep i = s.ep i := rfl

@[simp] theorem State.pending_log (s : State) (e : Ev) (n f a b : Nat) (x : Bytes) : (s.log e n f a b x).pending = s.pending := rfl
@[simp] theorem State.freeCount_log (s : State) (e : Ev) (n f a b : Nat) (x : Bytes) : (s.log e n f a b x).freeCount = s.freeCount := rfl
@[simp] theorem State.kcycles_log (s : State) (e : Ev) (n f a b : Nat) (x : Bytes) : (s.log e n f a b x).kcycles = s.kcycles := rfl
@[simp] theorem State.part_log (s : State) (e : Ev) (n f a b : Nat) (x : Bytes) : (s.log e n f a b x).part = s.part := rfl
@[simp] theorem State.boot_log (s : State) (e : Ev) (n f a b : Nat) (x : Bytes) : (s.log e n f a b x).boot = s.boot := rfl
@[simp] theorem State.modes_log (s : State) (e : Ev) (n f a b : Nat) (x : Bytes) : (s.log e n f a b x).modes = s.modes := rfl
@[simp] theorem State.supply_log (s : State) (e : Ev) (n f a b : Nat) (x : Bytes) : (s.log e n f a b x).supply = s.supply := rfl
@[simp] theorem State.dtb_log (s : State) (e : Ev) (n f a b : Nat) (x : Bytes) : (s.log e n f a b x).dtb = s.dtb := rfl
@[simp] theorem State.greg_log (s : State) (e : Ev) (n f a b : Nat) (x : Bytes) : (s.log e n f a b x).greg = s.greg := rfl
@[simp] theorem State.cspi_log (s : State) (e : Ev) (n f a b : Nat) (x : Bytes) : (s.log e n f a b x).cspi = s.cspi := rfl
@[simp] theorem State.cap_log (s : State) (e : Ev) (n f a b : Nat) (x : Bytes) : (s.log e n f a b x).cap = s.cap := rfl
@[simp] theorem State.fields_log (s : State) (e : Ev) (n f a b : Nat) (x : Bytes) : (s.log e n f a b x).fields = s.fields := rfl
@[simp] theorem State.lostClocks_log (s : State) (e : Ev) (n f a b : Nat) (x : Bytes) : (s.log e n f a b x).lostClocks = s.lostClocks := rfl
@[simp] theorem State.heads_log (s : State) (e : Ev) (n f a b : Nat) (x : Bytes) : (s.log e n f a b x).heads = s.heads := rfl
@[simp] theorem State.store_log (s : State) (e : Ev) (n f a b : Nat) (x : Bytes) : (s.log e n f a b x).store = s.store := rfl
@[simp] theorem State.streams_log (s : State) (e : Ev) (n f a b : Nat) (x : Bytes) : (s.log e n f a b x).streams = s.streams := rfl
@[simp] theorem State.units_log (s : State) (e : Ev) (n f a b : Nat) (x : Bytes) : (s.log e n f a b x).units = s.units := rfl
@[simp] theorem State.routers_log (s : State) (e : Ev) (n f a b : Nat) (x : Bytes) : (s.log e n f a b x).routers = s.routers := rfl
@[simp] theorem State.gates_log (s : State) (e : Ev) (n f a b : Nat) (x : Bytes) : (s.log e n f a b x).gates = s.gates := rfl
@[simp] theorem State.groups_log (s : State) (e : Ev) (n f a b : Nat) (x : Bytes) : (s.log e n f a b x).groups = s.groups := rfl
@[simp] theorem State.origins_log (s : State) (e : Ev) (n f a b : Nat) (x : Bytes) : (s.log e n f a b x).origins = s.origins := rfl
@[simp] theorem State.edges_log (s : State) (e : Ev) (n f a b : Nat) (x : Bytes) : (s.log e n f a b x).edges = s.edges := rfl
@[simp] theorem State.tails_log (s : State) (e : Ev) (n f a b : Nat) (x : Bytes) : (s.log e n f a b x).tails = s.tails := rfl
@[simp] theorem State.arbs_log (s : State) (e : Ev) (n f a b : Nat) (x : Bytes) : (s.log e n f a b x).arbs = s.arbs := rfl
@[simp] theorem State.queues_log (s : State) (e : Ev) (n f a b : Nat) (x : Bytes) : (s.log e n f a b x).queues = s.queues := rfl
@[simp] theorem State.fns_log (s : State) (e : Ev) (n f a b : Nat) (x : Bytes) : (s.log e n f a b x).fns = s.fns := rfl
@[simp] theorem State.locks_log (s : State) (e : Ev) (n f a b : Nat) (x : Bytes) : (s.log e n f a b x).locks = s.locks := rfl
@[simp] theorem State.pools_log (s : State) (e : Ev) (n f a b : Nat) (x : Bytes) : (s.log e n f a b x).pools = s.pools := rfl
@[simp] theorem State.slots_log (s : State) (e : Ev) (n f a b : Nat) (x : Bytes) : (s.log e n f a b x).slots = s.slots := rfl
@[simp] theorem State.ctxs_log (s : State) (e : Ev) (n f a b : Nat) (x : Bytes) : (s.log e n f a b x).ctxs = s.ctxs := rfl
@[simp] theorem State.epochs_log (s : State) (e : Ev) (n f a b : Nat) (x : Bytes) : (s.log e n f a b x).epochs = s.epochs := rfl
@[simp] theorem State.hbmStacks_log (s : State) (e : Ev) (n f a b : Nat) (x : Bytes) : (s.log e n f a b x).hbmStacks = s.hbmStacks := rfl
@[simp] theorem State.hbm_log (s : State) (e : Ev) (n f a b : Nat) (x : Bytes) : (s.log e n f a b x).hbm = s.hbm := rfl
@[simp] theorem State.hostMem_log (s : State) (e : Ev) (n f a b : Nat) (x : Bytes) : (s.log e n f a b x).hostMem = s.hostMem := rfl
@[simp] theorem State.hostIn_log (s : State) (e : Ev) (n f a b : Nat) (x : Bytes) : (s.log e n f a b x).hostIn = s.hostIn := rfl
@[simp] theorem State.yports_log (s : State) (e : Ev) (n f a b : Nat) (x : Bytes) : (s.log e n f a b x).yports = s.yports := rfl
@[simp] theorem State.eths_log (s : State) (e : Ev) (n f a b : Nat) (x : Bytes) : (s.log e n f a b x).eths = s.eths := rfl
@[simp] theorem State.senders_log (s : State) (e : Ev) (n f a b : Nat) (x : Bytes) : (s.log e n f a b x).senders = s.senders := rfl
@[simp] theorem State.eps_log (s : State) (e : Ev) (n f a b : Nat) (x : Bytes) : (s.log e n f a b x).eps = s.eps := rfl
@[simp] theorem State.vfMap_log (s : State) (e : Ev) (n f a b : Nat) (x : Bytes) : (s.log e n f a b x).vfMap = s.vfMap := rfl
@[simp] theorem State.vfEnable_log (s : State) (e : Ev) (n f a b : Nat) (x : Bytes) : (s.log e n f a b x).vfEnable = s.vfEnable := rfl
@[simp] theorem State.field_log (s : State) (e : Ev) (n f a b : Nat) (x : Bytes) (i : Nat) : (s.log e n f a b x).field i = s.field i := rfl
@[simp] theorem State.head_log (s : State) (e : Ev) (n f a b : Nat) (x : Bytes) (i : Nat) : (s.log e n f a b x).head i = s.head i := rfl
@[simp] theorem State.strm_log (s : State) (e : Ev) (n f a b : Nat) (x : Bytes) (i : Nat) : (s.log e n f a b x).strm i = s.strm i := rfl
@[simp] theorem State.unit_log (s : State) (e : Ev) (n f a b : Nat) (x : Bytes) (i : Nat) : (s.log e n f a b x).unit i = s.unit i := rfl
@[simp] theorem State.router_log (s : State) (e : Ev) (n f a b : Nat) (x : Bytes) (i : Nat) : (s.log e n f a b x).router i = s.router i := rfl
@[simp] theorem State.gate_log (s : State) (e : Ev) (n f a b : Nat) (x : Bytes) (i : Nat) : (s.log e n f a b x).gate i = s.gate i := rfl
@[simp] theorem State.group_log (s : State) (e : Ev) (n f a b : Nat) (x : Bytes) (i : Nat) : (s.log e n f a b x).group i = s.group i := rfl
@[simp] theorem State.origin_log (s : State) (e : Ev) (n f a b : Nat) (x : Bytes) (i : Nat) : (s.log e n f a b x).origin i = s.origin i := rfl
@[simp] theorem State.edgeEng_log (s : State) (e : Ev) (n f a b : Nat) (x : Bytes) (i : Nat) : (s.log e n f a b x).edgeEng i = s.edgeEng i := rfl
@[simp] theorem State.tailEng_log (s : State) (e : Ev) (n f a b : Nat) (x : Bytes) (i : Nat) : (s.log e n f a b x).tailEng i = s.tailEng i := rfl
@[simp] theorem State.arb_log (s : State) (e : Ev) (n f a b : Nat) (x : Bytes) (i : Nat) : (s.log e n f a b x).arb i = s.arb i := rfl
@[simp] theorem State.queue_log (s : State) (e : Ev) (n f a b : Nat) (x : Bytes) (i : Nat) : (s.log e n f a b x).queue i = s.queue i := rfl
@[simp] theorem State.fn_log (s : State) (e : Ev) (n f a b : Nat) (x : Bytes) (i : Nat) : (s.log e n f a b x).fn i = s.fn i := rfl
@[simp] theorem State.lock_log (s : State) (e : Ev) (n f a b : Nat) (x : Bytes) (i : Nat) : (s.log e n f a b x).lock i = s.lock i := rfl
@[simp] theorem State.pool_log (s : State) (e : Ev) (n f a b : Nat) (x : Bytes) (i : Nat) : (s.log e n f a b x).pool i = s.pool i := rfl
@[simp] theorem State.slot_log (s : State) (e : Ev) (n f a b : Nat) (x : Bytes) (i : Nat) : (s.log e n f a b x).slot i = s.slot i := rfl
@[simp] theorem State.ctx_log (s : State) (e : Ev) (n f a b : Nat) (x : Bytes) (i : Nat) : (s.log e n f a b x).ctx i = s.ctx i := rfl
@[simp] theorem State.epoch_log (s : State) (e : Ev) (n f a b : Nat) (x : Bytes) (i : Nat) : (s.log e n f a b x).epoch i = s.epoch i := rfl
@[simp] theorem State.stackOf_log (s : State) (e : Ev) (n f a b : Nat) (x : Bytes) (i : Nat) : (s.log e n f a b x).stackOf i = s.stackOf i := rfl
@[simp] theorem State.yport_log (s : State) (e : Ev) (n f a b : Nat) (x : Bytes) (i : Nat) : (s.log e n f a b x).yport i = s.yport i := rfl
@[simp] theorem State.eth_log (s : State) (e : Ev) (n f a b : Nat) (x : Bytes) (i : Nat) : (s.log e n f a b x).eth i = s.eth i := rfl
@[simp] theorem State.sender_log (s : State) (e : Ev) (n f a b : Nat) (x : Bytes) (i : Nat) : (s.log e n f a b x).sender i = s.sender i := rfl
@[simp] theorem State.ep_log (s : State) (e : Ev) (n f a b : Nat) (x : Bytes) (i : Nat) : (s.log e n f a b x).ep i = s.ep i := rfl

@[simp] theorem State.pending_draw (s : State) : (s.draw).pending = s.pending := rfl
@[simp] theorem State.kcycles_draw (s : State) : (s.draw).kcycles = s.kcycles := rfl
@[simp] theorem State.part_draw (s : State) : (s.draw).part = s.part := rfl
@[simp] theorem State.boot_draw (s : State) : (s.draw).boot = s.boot := rfl
@[simp] theorem State.modes_draw (s : State) : (s.draw).modes = s.modes := rfl
@[simp] theorem State.supply_draw (s : State) : (s.draw).supply = s.supply := rfl
@[simp] theorem State.dtb_draw (s : State) : (s.draw).dtb = s.dtb := rfl
@[simp] theorem State.seqr_draw (s : State) : (s.draw).seqr = s.seqr := rfl
@[simp] theorem State.greg_draw (s : State) : (s.draw).greg = s.greg := rfl
@[simp] theorem State.cspi_draw (s : State) : (s.draw).cspi = s.cspi := rfl
@[simp] theorem State.cap_draw (s : State) : (s.draw).cap = s.cap := rfl
@[simp] theorem State.fields_draw (s : State) : (s.draw).fields = s.fields := rfl
@[simp] theorem State.lostClocks_draw (s : State) : (s.draw).lostClocks = s.lostClocks := rfl
@[simp] theorem State.heads_draw (s : State) : (s.draw).heads = s.heads := rfl
@[simp] theorem State.store_draw (s : State) : (s.draw).store = s.store := rfl
@[simp] theorem State.streams_draw (s : State) : (s.draw).streams = s.streams := rfl
@[simp] theorem State.units_draw (s : State) : (s.draw).units = s.units := rfl
@[simp] theorem State.routers_draw (s : State) : (s.draw).routers = s.routers := rfl
@[simp] theorem State.gates_draw (s : State) : (s.draw).gates = s.gates := rfl
@[simp] theorem State.groups_draw (s : State) : (s.draw).groups = s.groups := rfl
@[simp] theorem State.origins_draw (s : State) : (s.draw).origins = s.origins := rfl
@[simp] theorem State.edges_draw (s : State) : (s.draw).edges = s.edges := rfl
@[simp] theorem State.tails_draw (s : State) : (s.draw).tails = s.tails := rfl
@[simp] theorem State.arbs_draw (s : State) : (s.draw).arbs = s.arbs := rfl
@[simp] theorem State.queues_draw (s : State) : (s.draw).queues = s.queues := rfl
@[simp] theorem State.fns_draw (s : State) : (s.draw).fns = s.fns := rfl
@[simp] theorem State.locks_draw (s : State) : (s.draw).locks = s.locks := rfl
@[simp] theorem State.pools_draw (s : State) : (s.draw).pools = s.pools := rfl
@[simp] theorem State.slots_draw (s : State) : (s.draw).slots = s.slots := rfl
@[simp] theorem State.ctxs_draw (s : State) : (s.draw).ctxs = s.ctxs := rfl
@[simp] theorem State.epochs_draw (s : State) : (s.draw).epochs = s.epochs := rfl
@[simp] theorem State.hbmStacks_draw (s : State) : (s.draw).hbmStacks = s.hbmStacks := rfl
@[simp] theorem State.hbm_draw (s : State) : (s.draw).hbm = s.hbm := rfl
@[simp] theorem State.hostMem_draw (s : State) : (s.draw).hostMem = s.hostMem := rfl
@[simp] theorem State.hostIn_draw (s : State) : (s.draw).hostIn = s.hostIn := rfl
@[simp] theorem State.yports_draw (s : State) : (s.draw).yports = s.yports := rfl
@[simp] theorem State.eths_draw (s : State) : (s.draw).eths = s.eths := rfl
@[simp] theorem State.senders_draw (s : State) : (s.draw).senders = s.senders := rfl
@[simp] theorem State.eps_draw (s : State) : (s.draw).eps = s.eps := rfl
@[simp] theorem State.vfMap_draw (s : State) : (s.draw).vfMap = s.vfMap := rfl
@[simp] theorem State.vfEnable_draw (s : State) : (s.draw).vfEnable = s.vfEnable := rfl
@[simp] theorem State.field_draw (s : State) (i : Nat) : (s.draw).field i = s.field i := rfl
@[simp] theorem State.head_draw (s : State) (i : Nat) : (s.draw).head i = s.head i := rfl
@[simp] theorem State.strm_draw (s : State) (i : Nat) : (s.draw).strm i = s.strm i := rfl
@[simp] theorem State.unit_draw (s : State) (i : Nat) : (s.draw).unit i = s.unit i := rfl
@[simp] theorem State.router_draw (s : State) (i : Nat) : (s.draw).router i = s.router i := rfl
@[simp] theorem State.gate_draw (s : State) (i : Nat) : (s.draw).gate i = s.gate i := rfl
@[simp] theorem State.group_draw (s : State) (i : Nat) : (s.draw).group i = s.group i := rfl
@[simp] theorem State.origin_draw (s : State) (i : Nat) : (s.draw).origin i = s.origin i := rfl
@[simp] theorem State.edgeEng_draw (s : State) (i : Nat) : (s.draw).edgeEng i = s.edgeEng i := rfl
@[simp] theorem State.tailEng_draw (s : State) (i : Nat) : (s.draw).tailEng i = s.tailEng i := rfl
@[simp] theorem State.arb_draw (s : State) (i : Nat) : (s.draw).arb i = s.arb i := rfl
@[simp] theorem State.queue_draw (s : State) (i : Nat) : (s.draw).queue i = s.queue i := rfl
@[simp] theorem State.fn_draw (s : State) (i : Nat) : (s.draw).fn i = s.fn i := rfl
@[simp] theorem State.lock_draw (s : State) (i : Nat) : (s.draw).lock i = s.lock i := rfl
@[simp] theorem State.pool_draw (s : State) (i : Nat) : (s.draw).pool i = s.pool i := rfl
@[simp] theorem State.slot_draw (s : State) (i : Nat) : (s.draw).slot i = s.slot i := rfl
@[simp] theorem State.ctx_draw (s : State) (i : Nat) : (s.draw).ctx i = s.ctx i := rfl
@[simp] theorem State.epoch_draw (s : State) (i : Nat) : (s.draw).epoch i = s.epoch i := rfl
@[simp] theorem State.stackOf_draw (s : State) (i : Nat) : (s.draw).stackOf i = s.stackOf i := rfl
@[simp] theorem State.yport_draw (s : State) (i : Nat) : (s.draw).yport i = s.yport i := rfl
@[simp] theorem State.eth_draw (s : State) (i : Nat) : (s.draw).eth i = s.eth i := rfl
@[simp] theorem State.sender_draw (s : State) (i : Nat) : (s.draw).sender i = s.sender i := rfl
@[simp] theorem State.ep_draw (s : State) (i : Nat) : (s.draw).ep i = s.ep i := rfl

@[simp] theorem State.pending_hostWrite (s : State) (a : B64) (b : Bytes) : (s.hostWrite a b).pending = s.pending := rfl
@[simp] theorem State.freeCount_hostWrite (s : State) (a : B64) (b : Bytes) : (s.hostWrite a b).freeCount = s.freeCount := rfl
@[simp] theorem State.kcycles_hostWrite (s : State) (a : B64) (b : Bytes) : (s.hostWrite a b).kcycles = s.kcycles := rfl
@[simp] theorem State.part_hostWrite (s : State) (a : B64) (b : Bytes) : (s.hostWrite a b).part = s.part := rfl
@[simp] theorem State.boot_hostWrite (s : State) (a : B64) (b : Bytes) : (s.hostWrite a b).boot = s.boot := rfl
@[simp] theorem State.modes_hostWrite (s : State) (a : B64) (b : Bytes) : (s.hostWrite a b).modes = s.modes := rfl
@[simp] theorem State.supply_hostWrite (s : State) (a : B64) (b : Bytes) : (s.hostWrite a b).supply = s.supply := rfl
@[simp] theorem State.dtb_hostWrite (s : State) (a : B64) (b : Bytes) : (s.hostWrite a b).dtb = s.dtb := rfl
@[simp] theorem State.seqr_hostWrite (s : State) (a : B64) (b : Bytes) : (s.hostWrite a b).seqr = s.seqr := rfl
@[simp] theorem State.greg_hostWrite (s : State) (a : B64) (b : Bytes) : (s.hostWrite a b).greg = s.greg := rfl
@[simp] theorem State.cspi_hostWrite (s : State) (a : B64) (b : Bytes) : (s.hostWrite a b).cspi = s.cspi := rfl
@[simp] theorem State.cap_hostWrite (s : State) (a : B64) (b : Bytes) : (s.hostWrite a b).cap = s.cap := rfl
@[simp] theorem State.fields_hostWrite (s : State) (a : B64) (b : Bytes) : (s.hostWrite a b).fields = s.fields := rfl
@[simp] theorem State.lostClocks_hostWrite (s : State) (a : B64) (b : Bytes) : (s.hostWrite a b).lostClocks = s.lostClocks := rfl
@[simp] theorem State.heads_hostWrite (s : State) (a : B64) (b : Bytes) : (s.hostWrite a b).heads = s.heads := rfl
@[simp] theorem State.store_hostWrite (s : State) (a : B64) (b : Bytes) : (s.hostWrite a b).store = s.store := rfl
@[simp] theorem State.streams_hostWrite (s : State) (a : B64) (b : Bytes) : (s.hostWrite a b).streams = s.streams := rfl
@[simp] theorem State.units_hostWrite (s : State) (a : B64) (b : Bytes) : (s.hostWrite a b).units = s.units := rfl
@[simp] theorem State.routers_hostWrite (s : State) (a : B64) (b : Bytes) : (s.hostWrite a b).routers = s.routers := rfl
@[simp] theorem State.gates_hostWrite (s : State) (a : B64) (b : Bytes) : (s.hostWrite a b).gates = s.gates := rfl
@[simp] theorem State.groups_hostWrite (s : State) (a : B64) (b : Bytes) : (s.hostWrite a b).groups = s.groups := rfl
@[simp] theorem State.origins_hostWrite (s : State) (a : B64) (b : Bytes) : (s.hostWrite a b).origins = s.origins := rfl
@[simp] theorem State.edges_hostWrite (s : State) (a : B64) (b : Bytes) : (s.hostWrite a b).edges = s.edges := rfl
@[simp] theorem State.tails_hostWrite (s : State) (a : B64) (b : Bytes) : (s.hostWrite a b).tails = s.tails := rfl
@[simp] theorem State.arbs_hostWrite (s : State) (a : B64) (b : Bytes) : (s.hostWrite a b).arbs = s.arbs := rfl
@[simp] theorem State.queues_hostWrite (s : State) (a : B64) (b : Bytes) : (s.hostWrite a b).queues = s.queues := rfl
@[simp] theorem State.fns_hostWrite (s : State) (a : B64) (b : Bytes) : (s.hostWrite a b).fns = s.fns := rfl
@[simp] theorem State.locks_hostWrite (s : State) (a : B64) (b : Bytes) : (s.hostWrite a b).locks = s.locks := rfl
@[simp] theorem State.pools_hostWrite (s : State) (a : B64) (b : Bytes) : (s.hostWrite a b).pools = s.pools := rfl
@[simp] theorem State.slots_hostWrite (s : State) (a : B64) (b : Bytes) : (s.hostWrite a b).slots = s.slots := rfl
@[simp] theorem State.ctxs_hostWrite (s : State) (a : B64) (b : Bytes) : (s.hostWrite a b).ctxs = s.ctxs := rfl
@[simp] theorem State.epochs_hostWrite (s : State) (a : B64) (b : Bytes) : (s.hostWrite a b).epochs = s.epochs := rfl
@[simp] theorem State.hbmStacks_hostWrite (s : State) (a : B64) (b : Bytes) : (s.hostWrite a b).hbmStacks = s.hbmStacks := rfl
@[simp] theorem State.hbm_hostWrite (s : State) (a : B64) (b : Bytes) : (s.hostWrite a b).hbm = s.hbm := rfl
@[simp] theorem State.hostIn_hostWrite (s : State) (a : B64) (b : Bytes) : (s.hostWrite a b).hostIn = s.hostIn := rfl
@[simp] theorem State.yports_hostWrite (s : State) (a : B64) (b : Bytes) : (s.hostWrite a b).yports = s.yports := rfl
@[simp] theorem State.eths_hostWrite (s : State) (a : B64) (b : Bytes) : (s.hostWrite a b).eths = s.eths := rfl
@[simp] theorem State.senders_hostWrite (s : State) (a : B64) (b : Bytes) : (s.hostWrite a b).senders = s.senders := rfl
@[simp] theorem State.eps_hostWrite (s : State) (a : B64) (b : Bytes) : (s.hostWrite a b).eps = s.eps := rfl
@[simp] theorem State.vfMap_hostWrite (s : State) (a : B64) (b : Bytes) : (s.hostWrite a b).vfMap = s.vfMap := rfl
@[simp] theorem State.vfEnable_hostWrite (s : State) (a : B64) (b : Bytes) : (s.hostWrite a b).vfEnable = s.vfEnable := rfl
@[simp] theorem State.field_hostWrite (s : State) (a : B64) (b : Bytes) (i : Nat) : (s.hostWrite a b).field i = s.field i := rfl
@[simp] theorem State.head_hostWrite (s : State) (a : B64) (b : Bytes) (i : Nat) : (s.hostWrite a b).head i = s.head i := rfl
@[simp] theorem State.strm_hostWrite (s : State) (a : B64) (b : Bytes) (i : Nat) : (s.hostWrite a b).strm i = s.strm i := rfl
@[simp] theorem State.unit_hostWrite (s : State) (a : B64) (b : Bytes) (i : Nat) : (s.hostWrite a b).unit i = s.unit i := rfl
@[simp] theorem State.router_hostWrite (s : State) (a : B64) (b : Bytes) (i : Nat) : (s.hostWrite a b).router i = s.router i := rfl
@[simp] theorem State.gate_hostWrite (s : State) (a : B64) (b : Bytes) (i : Nat) : (s.hostWrite a b).gate i = s.gate i := rfl
@[simp] theorem State.group_hostWrite (s : State) (a : B64) (b : Bytes) (i : Nat) : (s.hostWrite a b).group i = s.group i := rfl
@[simp] theorem State.origin_hostWrite (s : State) (a : B64) (b : Bytes) (i : Nat) : (s.hostWrite a b).origin i = s.origin i := rfl
@[simp] theorem State.edgeEng_hostWrite (s : State) (a : B64) (b : Bytes) (i : Nat) : (s.hostWrite a b).edgeEng i = s.edgeEng i := rfl
@[simp] theorem State.tailEng_hostWrite (s : State) (a : B64) (b : Bytes) (i : Nat) : (s.hostWrite a b).tailEng i = s.tailEng i := rfl
@[simp] theorem State.arb_hostWrite (s : State) (a : B64) (b : Bytes) (i : Nat) : (s.hostWrite a b).arb i = s.arb i := rfl
@[simp] theorem State.queue_hostWrite (s : State) (a : B64) (b : Bytes) (i : Nat) : (s.hostWrite a b).queue i = s.queue i := rfl
@[simp] theorem State.fn_hostWrite (s : State) (a : B64) (b : Bytes) (i : Nat) : (s.hostWrite a b).fn i = s.fn i := rfl
@[simp] theorem State.lock_hostWrite (s : State) (a : B64) (b : Bytes) (i : Nat) : (s.hostWrite a b).lock i = s.lock i := rfl
@[simp] theorem State.pool_hostWrite (s : State) (a : B64) (b : Bytes) (i : Nat) : (s.hostWrite a b).pool i = s.pool i := rfl
@[simp] theorem State.slot_hostWrite (s : State) (a : B64) (b : Bytes) (i : Nat) : (s.hostWrite a b).slot i = s.slot i := rfl
@[simp] theorem State.ctx_hostWrite (s : State) (a : B64) (b : Bytes) (i : Nat) : (s.hostWrite a b).ctx i = s.ctx i := rfl
@[simp] theorem State.epoch_hostWrite (s : State) (a : B64) (b : Bytes) (i : Nat) : (s.hostWrite a b).epoch i = s.epoch i := rfl
@[simp] theorem State.stackOf_hostWrite (s : State) (a : B64) (b : Bytes) (i : Nat) : (s.hostWrite a b).stackOf i = s.stackOf i := rfl
@[simp] theorem State.yport_hostWrite (s : State) (a : B64) (b : Bytes) (i : Nat) : (s.hostWrite a b).yport i = s.yport i := rfl
@[simp] theorem State.eth_hostWrite (s : State) (a : B64) (b : Bytes) (i : Nat) : (s.hostWrite a b).eth i = s.eth i := rfl
@[simp] theorem State.sender_hostWrite (s : State) (a : B64) (b : Bytes) (i : Nat) : (s.hostWrite a b).sender i = s.sender i := rfl
@[simp] theorem State.ep_hostWrite (s : State) (a : B64) (b : Bytes) (i : Nat) : (s.hostWrite a b).ep i = s.ep i := rfl

@[simp] theorem State.pending_hbmWrite (s : State) (a : Nat) (b : Bytes) : (s.hbmWrite a b).pending = s.pending := rfl
@[simp] theorem State.freeCount_hbmWrite (s : State) (a : Nat) (b : Bytes) : (s.hbmWrite a b).freeCount = s.freeCount := rfl
@[simp] theorem State.kcycles_hbmWrite (s : State) (a : Nat) (b : Bytes) : (s.hbmWrite a b).kcycles = s.kcycles := rfl
@[simp] theorem State.part_hbmWrite (s : State) (a : Nat) (b : Bytes) : (s.hbmWrite a b).part = s.part := rfl
@[simp] theorem State.boot_hbmWrite (s : State) (a : Nat) (b : Bytes) : (s.hbmWrite a b).boot = s.boot := rfl
@[simp] theorem State.modes_hbmWrite (s : State) (a : Nat) (b : Bytes) : (s.hbmWrite a b).modes = s.modes := rfl
@[simp] theorem State.supply_hbmWrite (s : State) (a : Nat) (b : Bytes) : (s.hbmWrite a b).supply = s.supply := rfl
@[simp] theorem State.dtb_hbmWrite (s : State) (a : Nat) (b : Bytes) : (s.hbmWrite a b).dtb = s.dtb := rfl
@[simp] theorem State.seqr_hbmWrite (s : State) (a : Nat) (b : Bytes) : (s.hbmWrite a b).seqr = s.seqr := rfl
@[simp] theorem State.greg_hbmWrite (s : State) (a : Nat) (b : Bytes) : (s.hbmWrite a b).greg = s.greg := rfl
@[simp] theorem State.cspi_hbmWrite (s : State) (a : Nat) (b : Bytes) : (s.hbmWrite a b).cspi = s.cspi := rfl
@[simp] theorem State.cap_hbmWrite (s : State) (a : Nat) (b : Bytes) : (s.hbmWrite a b).cap = s.cap := rfl
@[simp] theorem State.fields_hbmWrite (s : State) (a : Nat) (b : Bytes) : (s.hbmWrite a b).fields = s.fields := rfl
@[simp] theorem State.lostClocks_hbmWrite (s : State) (a : Nat) (b : Bytes) : (s.hbmWrite a b).lostClocks = s.lostClocks := rfl
@[simp] theorem State.heads_hbmWrite (s : State) (a : Nat) (b : Bytes) : (s.hbmWrite a b).heads = s.heads := rfl
@[simp] theorem State.store_hbmWrite (s : State) (a : Nat) (b : Bytes) : (s.hbmWrite a b).store = s.store := rfl
@[simp] theorem State.streams_hbmWrite (s : State) (a : Nat) (b : Bytes) : (s.hbmWrite a b).streams = s.streams := rfl
@[simp] theorem State.units_hbmWrite (s : State) (a : Nat) (b : Bytes) : (s.hbmWrite a b).units = s.units := rfl
@[simp] theorem State.routers_hbmWrite (s : State) (a : Nat) (b : Bytes) : (s.hbmWrite a b).routers = s.routers := rfl
@[simp] theorem State.gates_hbmWrite (s : State) (a : Nat) (b : Bytes) : (s.hbmWrite a b).gates = s.gates := rfl
@[simp] theorem State.groups_hbmWrite (s : State) (a : Nat) (b : Bytes) : (s.hbmWrite a b).groups = s.groups := rfl
@[simp] theorem State.origins_hbmWrite (s : State) (a : Nat) (b : Bytes) : (s.hbmWrite a b).origins = s.origins := rfl
@[simp] theorem State.edges_hbmWrite (s : State) (a : Nat) (b : Bytes) : (s.hbmWrite a b).edges = s.edges := rfl
@[simp] theorem State.tails_hbmWrite (s : State) (a : Nat) (b : Bytes) : (s.hbmWrite a b).tails = s.tails := rfl
@[simp] theorem State.arbs_hbmWrite (s : State) (a : Nat) (b : Bytes) : (s.hbmWrite a b).arbs = s.arbs := rfl
@[simp] theorem State.queues_hbmWrite (s : State) (a : Nat) (b : Bytes) : (s.hbmWrite a b).queues = s.queues := rfl
@[simp] theorem State.fns_hbmWrite (s : State) (a : Nat) (b : Bytes) : (s.hbmWrite a b).fns = s.fns := rfl
@[simp] theorem State.locks_hbmWrite (s : State) (a : Nat) (b : Bytes) : (s.hbmWrite a b).locks = s.locks := rfl
@[simp] theorem State.pools_hbmWrite (s : State) (a : Nat) (b : Bytes) : (s.hbmWrite a b).pools = s.pools := rfl
@[simp] theorem State.slots_hbmWrite (s : State) (a : Nat) (b : Bytes) : (s.hbmWrite a b).slots = s.slots := rfl
@[simp] theorem State.ctxs_hbmWrite (s : State) (a : Nat) (b : Bytes) : (s.hbmWrite a b).ctxs = s.ctxs := rfl
@[simp] theorem State.epochs_hbmWrite (s : State) (a : Nat) (b : Bytes) : (s.hbmWrite a b).epochs = s.epochs := rfl
@[simp] theorem State.hbmStacks_hbmWrite (s : State) (a : Nat) (b : Bytes) : (s.hbmWrite a b).hbmStacks = s.hbmStacks := rfl
@[simp] theorem State.hostMem_hbmWrite (s : State) (a : Nat) (b : Bytes) : (s.hbmWrite a b).hostMem = s.hostMem := rfl
@[simp] theorem State.hostIn_hbmWrite (s : State) (a : Nat) (b : Bytes) : (s.hbmWrite a b).hostIn = s.hostIn := rfl
@[simp] theorem State.yports_hbmWrite (s : State) (a : Nat) (b : Bytes) : (s.hbmWrite a b).yports = s.yports := rfl
@[simp] theorem State.eths_hbmWrite (s : State) (a : Nat) (b : Bytes) : (s.hbmWrite a b).eths = s.eths := rfl
@[simp] theorem State.senders_hbmWrite (s : State) (a : Nat) (b : Bytes) : (s.hbmWrite a b).senders = s.senders := rfl
@[simp] theorem State.eps_hbmWrite (s : State) (a : Nat) (b : Bytes) : (s.hbmWrite a b).eps = s.eps := rfl
@[simp] theorem State.vfMap_hbmWrite (s : State) (a : Nat) (b : Bytes) : (s.hbmWrite a b).vfMap = s.vfMap := rfl
@[simp] theorem State.vfEnable_hbmWrite (s : State) (a : Nat) (b : Bytes) : (s.hbmWrite a b).vfEnable = s.vfEnable := rfl
@[simp] theorem State.field_hbmWrite (s : State) (a : Nat) (b : Bytes) (i : Nat) : (s.hbmWrite a b).field i = s.field i := rfl
@[simp] theorem State.head_hbmWrite (s : State) (a : Nat) (b : Bytes) (i : Nat) : (s.hbmWrite a b).head i = s.head i := rfl
@[simp] theorem State.strm_hbmWrite (s : State) (a : Nat) (b : Bytes) (i : Nat) : (s.hbmWrite a b).strm i = s.strm i := rfl
@[simp] theorem State.unit_hbmWrite (s : State) (a : Nat) (b : Bytes) (i : Nat) : (s.hbmWrite a b).unit i = s.unit i := rfl
@[simp] theorem State.router_hbmWrite (s : State) (a : Nat) (b : Bytes) (i : Nat) : (s.hbmWrite a b).router i = s.router i := rfl
@[simp] theorem State.gate_hbmWrite (s : State) (a : Nat) (b : Bytes) (i : Nat) : (s.hbmWrite a b).gate i = s.gate i := rfl
@[simp] theorem State.group_hbmWrite (s : State) (a : Nat) (b : Bytes) (i : Nat) : (s.hbmWrite a b).group i = s.group i := rfl
@[simp] theorem State.origin_hbmWrite (s : State) (a : Nat) (b : Bytes) (i : Nat) : (s.hbmWrite a b).origin i = s.origin i := rfl
@[simp] theorem State.edgeEng_hbmWrite (s : State) (a : Nat) (b : Bytes) (i : Nat) : (s.hbmWrite a b).edgeEng i = s.edgeEng i := rfl
@[simp] theorem State.tailEng_hbmWrite (s : State) (a : Nat) (b : Bytes) (i : Nat) : (s.hbmWrite a b).tailEng i = s.tailEng i := rfl
@[simp] theorem State.arb_hbmWrite (s : State) (a : Nat) (b : Bytes) (i : Nat) : (s.hbmWrite a b).arb i = s.arb i := rfl
@[simp] theorem State.queue_hbmWrite (s : State) (a : Nat) (b : Bytes) (i : Nat) : (s.hbmWrite a b).queue i = s.queue i := rfl
@[simp] theorem State.fn_hbmWrite (s : State) (a : Nat) (b : Bytes) (i : Nat) : (s.hbmWrite a b).fn i = s.fn i := rfl
@[simp] theorem State.lock_hbmWrite (s : State) (a : Nat) (b : Bytes) (i : Nat) : (s.hbmWrite a b).lock i = s.lock i := rfl
@[simp] theorem State.pool_hbmWrite (s : State) (a : Nat) (b : Bytes) (i : Nat) : (s.hbmWrite a b).pool i = s.pool i := rfl
@[simp] theorem State.slot_hbmWrite (s : State) (a : Nat) (b : Bytes) (i : Nat) : (s.hbmWrite a b).slot i = s.slot i := rfl
@[simp] theorem State.ctx_hbmWrite (s : State) (a : Nat) (b : Bytes) (i : Nat) : (s.hbmWrite a b).ctx i = s.ctx i := rfl
@[simp] theorem State.epoch_hbmWrite (s : State) (a : Nat) (b : Bytes) (i : Nat) : (s.hbmWrite a b).epoch i = s.epoch i := rfl
@[simp] theorem State.stackOf_hbmWrite (s : State) (a : Nat) (b : Bytes) (i : Nat) : (s.hbmWrite a b).stackOf i = s.stackOf i := rfl
@[simp] theorem State.yport_hbmWrite (s : State) (a : Nat) (b : Bytes) (i : Nat) : (s.hbmWrite a b).yport i = s.yport i := rfl
@[simp] theorem State.eth_hbmWrite (s : State) (a : Nat) (b : Bytes) (i : Nat) : (s.hbmWrite a b).eth i = s.eth i := rfl
@[simp] theorem State.sender_hbmWrite (s : State) (a : Nat) (b : Bytes) (i : Nat) : (s.hbmWrite a b).sender i = s.sender i := rfl
@[simp] theorem State.ep_hbmWrite (s : State) (a : Nat) (b : Bytes) (i : Nat) : (s.hbmWrite a b).ep i = s.ep i := rfl

theorem State.foldl_postReply_frame (l : List (Bool × Rec)) (s : State) :
    l.foldl State.postReply s = { s with seqr := (l.foldl State.postReply s).seqr } := by
  induction l generalizing s with
  | nil => rfl
  | cons p t ih =>
    rw [List.foldl_cons, ih]
    rfl

/-- A command that finishes touches the sequencer's inputs and the packets in flight, and nothing else (R336, R337). -/
theorem State.finish_frame (s : State) (k : Pkt) (fast : Bool) (st : Status) (res : List Nat) (e : Option B64) :
    s.finish k fast st res e = { s with seqr := (s.finish k fast st res e).seqr, cspi := (s.finish k fast st res e).cspi
                                        fns := (s.finish k fast st res e).fns } := by
  have hr : ∀ l, s.setRing k.fn k.cspi l = { s with cspi := (s.setRing k.fn k.cspi l).cspi, fns := (s.setRing k.fn k.cspi l).fns } := by
    intro l
    unfold State.setRing
    split <;> rfl
  unfold State.finish
  extract_lets r out ring p
  split
  · rw [State.foldl_postReply_frame, hr]
  · cases out <;> rfl

@[simp] theorem State.pending_finish (s : State) (k : Pkt) (fast : Bool) (st : Status) (res : List Nat) (e : Option B64) : (s.finish k fast st res e).pending = s.pending := by rw [State.finish_frame]
@[simp] theorem State.freeCount_finish (s : State) (k : Pkt) (fast : Bool) (st : Status) (res : List Nat) (e : Option B64) : (s.finish k fast st res e).freeCount = s.freeCount := by rw [State.finish_frame]
@[simp] theorem State.kcycles_finish (s : State) (k : Pkt) (fast : Bool) (st : Status) (res : List Nat) (e : Option B64) : (s.finish k fast st res e).kcycles = s.kcycles := by rw [State.finish_frame]
@[simp] theorem State.part_finish (s : State) (k : Pkt) (fast : Bool) (st : Status) (res : List Nat) (e : Option B64) : (s.finish k fast st res e).part = s.part := by rw [State.finish_frame]
@[simp] theorem State.boot_finish (s : State) (k : Pkt) (fast : Bool) (st : Status) (res : List Nat) (e : Option B64) : (s.finish k fast st res e).boot = s.boot := by rw [State.finish_frame]
@[simp] theorem State.modes_finish (s : State) (k : Pkt) (fast : Bool) (st : Status) (res : List Nat) (e : Option B64) : (s.finish k fast st res e).modes = s.modes := by rw [State.finish_frame]
@[simp] theorem State.supply_finish (s : State) (k : Pkt) (fast : Bool) (st : Status) (res : List Nat) (e : Option B64) : (s.finish k fast st res e).supply = s.supply := by rw [State.finish_frame]
@[simp] theorem State.dtb_finish (s : State) (k : Pkt) (fast : Bool) (st : Status) (res : List Nat) (e : Option B64) : (s.finish k fast st res e).dtb = s.dtb := by rw [State.finish_frame]
@[simp] theorem State.greg_finish (s : State) (k : Pkt) (fast : Bool) (st : Status) (res : List Nat) (e : Option B64) : (s.finish k fast st res e).greg = s.greg := by rw [State.finish_frame]
@[simp] theorem State.cap_finish (s : State) (k : Pkt) (fast : Bool) (st : Status) (res : List Nat) (e : Option B64) : (s.finish k fast st res e).cap = s.cap := by rw [State.finish_frame]
@[simp] theorem State.fields_finish (s : State) (k : Pkt) (fast : Bool) (st : Status) (res : List Nat) (e : Option B64) : (s.finish k fast st res e).fields = s.fields := by rw [State.finish_frame]
@[simp] theorem State.lostClocks_finish (s : State) (k : Pkt) (fast : Bool) (st : Status) (res : List Nat) (e : Option B64) : (s.finish k fast st res e).lostClocks = s.lostClocks := by rw [State.finish_frame]
@[simp] theorem State.heads_finish (s : State) (k : Pkt) (fast : Bool) (st : Status) (res : List Nat) (e : Option B64) : (s.finish k fast st res e).heads = s.heads := by rw [State.finish_frame]
@[simp] theorem State.store_finish (s : State) (k : Pkt) (fast : Bool) (st : Status) (res : List Nat) (e : Option B64) : (s.finish k fast st res e).store = s.store := by rw [State.finish_frame]
@[simp] theorem State.streams_finish (s : State) (k : Pkt) (fast : Bool) (st : Status) (res : List Nat) (e : Option B64) : (s.finish k fast st res e).streams = s.streams := by rw [State.finish_frame]
@[simp] theorem State.units_finish (s : State) (k : Pkt) (fast : Bool) (st : Status) (res : List Nat) (e : Option B64) : (s.finish k fast st res e).units = s.units := by rw [State.finish_frame]
@[simp] theorem State.routers_finish (s : State) (k : Pkt) (fast : Bool) (st : Status) (res : List Nat) (e : Option B64) : (s.finish k fast st res e).routers = s.routers := by rw [State.finish_frame]
@[simp] theorem State.gates_finish (s : State) (k : Pkt) (fast : Bool) (st : Status) (res : List Nat) (e : Option B64) : (s.finish k fast st res e).gates = s.gates := by rw [State.finish_frame]
@[simp] theorem State.groups_finish (s : State) (k : Pkt) (fast : Bool) (st : Status) (res : List Nat) (e : Option B64) : (s.finish k fast st res e).groups = s.groups := by rw [State.finish_frame]
@[simp] theorem State.origins_finish (s : State) (k : Pkt) (fast : Bool) (st : Status) (res : List Nat) (e : Option B64) : (s.finish k fast st res e).origins = s.origins := by rw [State.finish_frame]
@[simp] theorem State.edges_finish (s : State) (k : Pkt) (fast : Bool) (st : Status) (res : List Nat) (e : Option B64) : (s.finish k fast st res e).edges = s.edges := by rw [State.finish_frame]
@[simp] theorem State.tails_finish (s : State) (k : Pkt) (fast : Bool) (st : Status) (res : List Nat) (e : Option B64) : (s.finish k fast st res e).tails = s.tails := by rw [State.finish_frame]
@[simp] theorem State.arbs_finish (s : State) (k : Pkt) (fast : Bool) (st : Status) (res : List Nat) (e : Option B64) : (s.finish k fast st res e).arbs = s.arbs := by rw [State.finish_frame]
@[simp] theorem State.queues_finish (s : State) (k : Pkt) (fast : Bool) (st : Status) (res : List Nat) (e : Option B64) : (s.finish k fast st res e).queues = s.queues := by rw [State.finish_frame]
@[simp] theorem State.locks_finish (s : State) (k : Pkt) (fast : Bool) (st : Status) (res : List Nat) (e : Option B64) : (s.finish k fast st res e).locks = s.locks := by rw [State.finish_frame]
@[simp] theorem State.pools_finish (s : State) (k : Pkt) (fast : Bool) (st : Status) (res : List Nat) (e : Option B64) : (s.finish k fast st res e).pools = s.pools := by rw [State.finish_frame]
@[simp] theorem State.slots_finish (s : State) (k : Pkt) (fast : Bool) (st : Status) (res : List Nat) (e : Option B64) : (s.finish k fast st res e).slots = s.slots := by rw [State.finish_frame]
@[simp] theorem State.ctxs_finish (s : State) (k : Pkt) (fast : Bool) (st : Status) (res : List Nat) (e : Option B64) : (s.finish k fast st res e).ctxs = s.ctxs := by rw [State.finish_frame]
@[simp] theorem State.epochs_finish (s : State) (k : Pkt) (fast : Bool) (st : Status) (res : List Nat) (e : Option B64) : (s.finish k fast st res e).epochs = s.epochs := by rw [State.finish_frame]
@[simp] theorem State.hbmStacks_finish (s : State) (k : Pkt) (fast : Bool) (st : Status) (res : List Nat) (e : Option B64) : (s.finish k fast st res e).hbmStacks = s.hbmStacks := by rw [State.finish_frame]
@[simp] theorem State.hbm_finish (s : State) (k : Pkt) (fast : Bool) (st : Status) (res : List Nat) (e : Option B64) : (s.finish k fast st res e).hbm = s.hbm := by rw [State.finish_frame]
@[simp] theorem State.hostMem_finish (s : State) (k : Pkt) (fast : Bool) (st : Status) (res : List Nat) (e : Option B64) : (s.finish k fast st res e).hostMem = s.hostMem := by rw [State.finish_frame]
@[simp] theorem State.hostIn_finish (s : State) (k : Pkt) (fast : Bool) (st : Status) (res : List Nat) (e : Option B64) : (s.finish k fast st res e).hostIn = s.hostIn := by rw [State.finish_frame]
@[simp] theorem State.yports_finish (s : State) (k : Pkt) (fast : Bool) (st : Status) (res : List Nat) (e : Option B64) : (s.finish k fast st res e).yports = s.yports := by rw [State.finish_frame]
@[simp] theorem State.eths_finish (s : State) (k : Pkt) (fast : Bool) (st : Status) (res : List Nat) (e : Option B64) : (s.finish k fast st res e).eths = s.eths := by rw [State.finish_frame]
@[simp] theorem State.senders_finish (s : State) (k : Pkt) (fast : Bool) (st : Status) (res : List Nat) (e : Option B64) : (s.finish k fast st res e).senders = s.senders := by rw [State.finish_frame]
@[simp] theorem State.eps_finish (s : State) (k : Pkt) (fast : Bool) (st : Status) (res : List Nat) (e : Option B64) : (s.finish k fast st res e).eps = s.eps := by rw [State.finish_frame]
@[simp] theorem State.vfMap_finish (s : State) (k : Pkt) (fast : Bool) (st : Status) (res : List Nat) (e : Option B64) : (s.finish k fast st res e).vfMap = s.vfMap := by rw [State.finish_frame]
@[simp] theorem State.vfEnable_finish (s : State) (k : Pkt) (fast : Bool) (st : Status) (res : List Nat) (e : Option B64) : (s.finish k fast st res e).vfEnable = s.vfEnable := by rw [State.finish_frame]
@[simp] theorem State.field_finish (s : State) (k : Pkt) (fast : Bool) (st : Status) (res : List Nat) (e : Option B64) (i : Nat) : (s.finish k fast st res e).field i = s.field i := by unfold State.field; rw [State.fields_finish]
@[simp] theorem State.head_finish (s : State) (k : Pkt) (fast : Bool) (st : Status) (res : List Nat) (e : Option B64) (i : Nat) : (s.finish k fast st res e).head i = s.head i := by unfold State.head; rw [State.heads_finish]
@[simp] theorem State.strm_finish (s : State) (k : Pkt) (fast : Bool) (st : Status) (res : List Nat) (e : Option B64) (i : Nat) : (s.finish k fast st res e).strm i = s.strm i := by unfold State.strm; rw [State.streams_finish]
@[simp] theorem State.unit_finish (s : State) (k : Pkt) (fast : Bool) (st : Status) (res : List Nat) (e : Option B64) (i : Nat) : (s.finish k fast st res e).unit i = s.unit i := by unfold State.unit; rw [State.units_finish]
@[simp] theorem State.router_finish (s : State) (k : Pkt) (fast : Bool) (st : Status) (res : List Nat) (e : Option B64) (i : Nat) : (s.finish k fast st res e).router i = s.router i := by unfold State.router; rw [State.routers_finish]
@[simp] theorem State.gate_finish (s : State) (k : Pkt) (fast : Bool) (st : Status) (res : List Nat) (e : Option B64) (i : Nat) : (s.finish k fast st res e).gate i = s.gate i := by unfold State.gate; rw [State.gates_finish]
@[simp] theorem State.group_finish (s : State) (k : Pkt) (fast : Bool) (st : Status) (res : List Nat) (e : Option B64) (i : Nat) : (s.finish k fast st res e).group i = s.group i := by unfold State.group; rw [State.groups_finish]
@[simp] theorem State.origin_finish (s : State) (k : Pkt) (fast : Bool) (st : Status) (res : List Nat) (e : Option B64) (i : Nat) : (s.finish k fast st res e).origin i = s.origin i := by unfold State.origin; rw [State.origins_finish]
@[simp] theorem State.edgeEng_finish (s : State) (k : Pkt) (fast : Bool) (st : Status) (res : List Nat) (e : Option B64) (i : Nat) : (s.finish k fast st res e).edgeEng i = s.edgeEng i := by unfold State.edgeEng; rw [State.edges_finish]
@[simp] theorem State.tailEng_finish (s : State) (k : Pkt) (fast : Bool) (st : Status) (res : List Nat) (e : Option B64) (i : Nat) : (s.finish k fast st res e).tailEng i = s.tailEng i := by unfold State.tailEng; rw [State.tails_finish]
@[simp] theorem State.arb_finish (s : State) (k : Pkt) (fast : Bool) (st : Status) (res : List Nat) (e : Option B64) (i : Nat) : (s.finish k fast st res e).arb i = s.arb i := by unfold State.arb; rw [State.arbs_finish]
@[simp] theorem State.queue_finish (s : State) (k : Pkt) (fast : Bool) (st : Status) (res : List Nat) (e : Option B64) (i : Nat) : (s.finish k fast st res e).queue i = s.queue i := by unfold State.queue; rw [State.queues_finish]
@[simp] theorem State.lock_finish (s : State) (k : Pkt) (fast : Bool) (st : Status) (res : List Nat) (e : Option B64) (i : Nat) : (s.finish k fast st res e).lock i = s.lock i := by unfold State.lock; rw [State.locks_finish]
@[simp] theorem State.pool_finish (s : State) (k : Pkt) (fast : Bool) (st : Status) (res : List Nat) (e : Option B64) (i : Nat) : (s.finish k fast st res e).pool i = s.pool i := by unfold State.pool; rw [State.pools_finish]
@[simp] theorem State.slot_finish (s : State) (k : Pkt) (fast : Bool) (st : Status) (res : List Nat) (e : Option B64) (i : Nat) : (s.finish k fast st res e).slot i = s.slot i := by unfold State.slot; rw [State.slots_finish]
@[simp] theorem State.ctx_finish (s : State) (k : Pkt) (fast : Bool) (st : Status) (res : List Nat) (e : Option B64) (i : Nat) : (s.finish k fast st res e).ctx i = s.ctx i := by unfold State.ctx; rw [State.ctxs_finish]
@[simp] theorem State.epoch_finish (s : State) (k : Pkt) (fast : Bool) (st : Status) (res : List Nat) (e : Option B64) (i : Nat) : (s.finish k fast st res e).epoch i = s.epoch i := by unfold State.epoch; rw [State.epochs_finish]
@[simp] theorem State.stackOf_finish (s : State) (k : Pkt) (fast : Bool) (st : Status) (res : List Nat) (e : Option B64) (i : Nat) : (s.finish k fast st res e).stackOf i = s.stackOf i := by unfold State.stackOf; rw [State.hbmStacks_finish]
@[simp] theorem State.yport_finish (s : State) (k : Pkt) (fast : Bool) (st : Status) (res : List Nat) (e : Option B64) (i : Nat) : (s.finish k fast st res e).yport i = s.yport i := by unfold State.yport; rw [State.yports_finish]
@[simp] theorem State.eth_finish (s : State) (k : Pkt) (fast : Bool) (st : Status) (res : List Nat) (e : Option B64) (i : Nat) : (s.finish k fast st res e).eth i = s.eth i := by unfold State.eth; rw [State.eths_finish]
@[simp] theorem State.sender_finish (s : State) (k : Pkt) (fast : Bool) (st : Status) (res : List Nat) (e : Option B64) (i : Nat) : (s.finish k fast st res e).sender i = s.sender i := by unfold State.sender; rw [State.senders_finish]
@[simp] theorem State.ep_finish (s : State) (k : Pkt) (fast : Bool) (st : Status) (res : List Nat) (e : Option B64) (i : Nat) : (s.finish k fast st res e).ep i = s.ep i := by unfold State.ep; rw [State.eps_finish]
end Sys2Proof.Machine
end

