-- ==== Sys2Proof/WellFormed.lean ====
section
/-! DEFINITION. Well-formed commands: the lengths the spec fixes for the byte operands of a command. The meanings are total and
never ask for it; it says which operands a sender can spell. -/

namespace Sys2Proof

/-- An optional byte string of a fixed length. -/
def optLen (n : Nat) (b : Option Bytes) : Bool := b.all (fun x => x.length == n)

/-- A Spore: 64 to 1,024 bytes, a multiple of 8 (R383). -/
def sporeLen (b : Bytes) : Bool := 64 ≤ b.length && b.length ≤ 1024 && b.length % 8 == 0

/-- The checks, one arm for every command whose operands the spec constrains. -/
def Instr.wf : Instr → Bool
  | .attachSettled _ r => optLen 640 r.passport
  | .authPoll _ sig => optLen 64 sig
  | .ledgerReadback _ copy => copy.length == 32
  | .arbitration _ present _ => decide present.Nodup
  | .poolDescriptorFetch _ b => 16 ≤ b.length && b.length ≤ 128 && b.length % 16 == 0
  | .cmdFetch _ p => p.all (fun b => b.length % 16 == 0 && 16 ≤ b.length && b.length ≤ 256)
  | .hbmBurst _ a => optLen 64 a.data
  | .sporeIdent _ b _ | .sporeFlit _ b | .sporeLine _ b | .sporeLock _ b _ | .sporeBind _ b _ | .sporeUnbind _ b _
  | .peerReset _ b | .sporeAck _ b | .sporeNak _ b | .sporeStall _ b | .sporeAlign _ b _ _ => sporeLen b
  | .registerWrite _ _ n _ => n == 1 || n == 2 || n == 4 || n == 8
  | .headAttach _ _ p => p.vc.length == 4
  | .sceneSet _ _ _ _ _ t => t.length == 16
  | .st2110Sender _ _ _ r => r.length == 208
  | .hbmWrite _ _ _ d => d.length == 224
  | .i3cRaw _ _ _ _ _ d _ => d.length == 64
  | .slotPatch _ _ es => es.all (fun l => decide (l.length < 65536))
  | .contextLoad _ _ _ _ _ _ bs | .loadPlaced _ _ _ _ _ _ bs _ => bs.length == 16
  | .yallekAlign _ _ r => r.length == 32
  | _ => true

end Sys2Proof
end

