-- ==== Sys2Proof/Tests/Slice0.lean ====
section
/-! SUPPORT. Small states, checks of one command each, the worked cases of the spec, and for each obligation with hypotheses a
witness: for every clause a state and operands that meet its hypotheses. -/
set_option maxRecDepth 20000

section Tests
open Sys2Proof Sys2Proof.Machine


/-- A part that is READY, with both endpoints up and every stack trained. -/
def live : State :=
  { State.reset with
    boot := { phase := .ready }, eps := [(0, { up := true, perst := false }), (1, { up := true, perst := false })]
    hbmStacks := [(0, { trained := true }), (1, { trained := true }), (2, { trained := true }), (3, { trained := true })] }

def vc0 : VcDecl := { dt := 0x2B, embDt := 0x12, width := 4, height := 2, expoMax := 100 }
def readyHead : Head := { present := true, pwrEn := true, state := .ready, params := some { vcMask := 1, vc := [vc0] } }
def withHead (x : Head) : State := live.setHead 0 x
def withStrm (x : Strm) : State := (live.setHead 0 readyHead).setStrm 0 x
def withCtx (c : Ctx) (x : Strm) : State := ((live.setHead 0 readyHead).setStrm 0 { x with ctx := some 0 }).setCtx 0 (some c)
def pk : Pkt := {}

/-- A running context of one stream. -/
def cx (d : StreamDecl) : Ctx := { state := .running, place := { image := { decl := { streams := [d] } } } }
def rep0 : Replay := { host := false, loop := true, frames := 1, frameBytes := 64, src := 0 }
def withPool (x : Strm) (p : Pool) : State := { withCtx (cx {}) x with pools := [(0, p)] }
def ethUp : State := live.setEth 0 { enabled := true, up := true, synced := true, record := List.replicate 64 1 }
/-- A sound Spore with sequence number 0. -/
def sp (typ : Nat) (body : Bytes) : Bytes := live.spore 0 typ 0 0 body
def yUp (y : Yport) : State := live.setYport 0 { y with up := true, locked := true }
def bm : BindMsg := { graph := 5, index := 1, owner := 2, epoch := 3 }
def lk : LinkDecl := { graph := 5, devices := 2, ports := [(0, 1)], cuts := [{ route := 4, port := 0, sync := true }] }
/-- Port 0 up and serving context 0, whose image has a LINK section. -/
def yBound (y : Yport) : State := (yUp { y with owner := some 0 }).setCtx 0 (some { state := .running, place := { image := { decl := { link := some lk } } } })
def m1 : PtpMaster := { priority1 := 5, clockId := 9 }
def ethPtp (d : Int) : State := { live.setEth 0 { enabled := true, up := true, synced := true, delay := d, master := some m1 } with dtb := { live.dtb with mode := .ptp } }
/-- An instruction word: an opcode and fields at their low bits. -/
def iw (op : Nat) (fs : List (Nat × Nat)) : Nat := op * 2 ^ 56 + (fs.map (fun f => f.2 * 2 ^ f.1)).sum
/-- A unit in a context, with a program at its first words. -/
def un (prog : List Nat) (u : Machine.Unit) : Machine.Unit :=
  { u with inCtx := true, hasProg := true, mem := u.mem ++ prog.zipIdx.map (fun e => (e.2, BitVec.ofNat 64 e.1)) }
/-- Context 0 runs and owns the unit. -/
def uS (site : Nat) (u : Machine.Unit) : State :=
  ((live.setStrm 0 { ctx := some 0, started := true }).setCtx 0 (some { cx {} with opened := true })).setUnit site u
/-- The unit when the instruction of its group issues. -/
def vO (s : State) (site word : Nat) (w : Waits) : Machine.Unit :=
  let u := (Unit.bindAll (needs (s.unit site).group.waits) (s.unit site)).2
  (u.advance (u.busyUntil word) w).untilCyc (u.busyUntil word)
def fl (line chan chunk : Nat) : Flit := mkFlit kData 0 0 line chan chunk 0 5
def ent (f : Flit) : QEnt := { flit := f, bound := true }
def wt0 : Waits := {}
def nx (o : Host.Outcome State Machine.Fault Machine.Refusal) : State := match o with | .next t => t | _ => live
/-- A model of one chain site (7, a T-unit) without groups. -/
def md (role link : Nat) : ModelDecl := { role := role, link := link, outputs := 2, chain := [7], base := [0x3F800000, 0x40000000], linkSite := 7, triggers := [0] }
def mdC (role link : Nat) (m : ModelSt) : Ctx :=
  { state := .running, opened := true, models := [(1, m)]
    place := { map := [(7, 7)], image := { decl := { streams := [{}], models := [{}, md role link] } } } }
def eS (c : Ctx) (x : Strm) : State := (live.setStrm 0 { x with ctx := some 0 }).setCtx 0 (some c)
def ecl0 : Eclosion := { kind := 0, place := { map := [(0, 33)] } }
def snap0 : Snapshot := { pkt := pk, stream := 0, next := false, vmask := 1, dest := 0, length := 8192 }
def snapC : Ctx := { state := .running, opened := true, snap := some snap0, place := { map := [(6, 6)], image := { decl := { streams := [{}], statsUnits := [6] } } } }
/-- A NOP packet. -/
def nopP : Packet := { bytes := [0, 0, 4, 1, 7, 0, 0, 0] ++ List.replicate 8 0, fn := 1, cspi := false }
def rc : Rec := { code := 2, source := 3 }
def noOwe : State := { live with boot := { phase := .ready, powerOnOwed := false } }
def capOn : State := { live with cap := { en := true, triggered := true, src := 255, prod := 25165823 } }
def starting (b : Boot) : State := { live with boot := { b with phase := .startup } }
/-- Stream 0 of a context, with a declared channel that its READY head has. -/
def bS (c : Ctx) (x : Strm) : State := { withCtx c x with pools := [(0, { ready := true })] }
def coc : Ctx := { cx { width := 4, height := 2 } with state := .cocoon }
def ent0 : EntityDecl := { parts := [(1, 0, 8)] }
def entC : Ctx := { state := .running, place := { map := [(1, 33)], image := { decl := { entities := [ent0], trims := [{ lo := -2, hi := 3 }], statsUnits := [6] } } } }
def ctxS (c : Ctx) : State := live.setCtx 0 (some c)
def dtbHost (d : Dtb) : State := { live with dtb := { d with mode := .host } }
def m0 : Image := { decl := { streams := [{}] } }
/-- Slot 5 holds a staged image. -/
def slotS (m : Image) : State := live.setSlot 5 { state := .staged, image := some m }
def b0 : List Bind := [{ stream := 0, source := 0 }]
def full : State := { slotS m0 with ctxs := (List.range 16).map (fun o => (o, some (cx {}))) }
/-- The bytes of an image of one empty section. -/
def imgBytes : Bytes :=
  [0x43, 0x48, 0x52, 0x59, 1, 0, 0, 0, 96, 0, 0, 0, 1, 0, 1, 0] ++ List.replicate 8 0 ++ [1, 1] ++ List.replicate 6 0
    ++ sha256 ([1, 0, 0, 0, 96, 0, 0, 0] ++ List.replicate 24 0) ++ ([1, 0, 0, 0, 96, 0, 0, 0] ++ List.replicate 24 0)
def scC : Ctx := { cx {} with place := { image := { decl := { streams := [{}], models := [{ link := 3, outputs := 2 }] } } } }
def varC : Ctx := { cx {} with variants := [{ slot := 5 }] }
def qd (c : Instr) : State := { live with pending := [c] }
/-- Eight staged images of the smallest size. -/
def eight : State := { live with slots := (1, { state := .stored, length := 96 }) :: (List.range 8).map (fun i => (2 + i, { state := .staged, length := 96 })) }
def held8 : State := live.setLock 3 { holder := 5, waiters := List.replicate 8 { code := 4, reply := none } }


-- The queue, and words.

/-- An empty queue: one KCLK tick, and the state keeps its commands. -/
theorem test_step_idle : ∃ t, step live = .next t ∧ t.pending = [] ∧ t.kcycles = live.kcycles + 1 := ⟨_, rfl, by decide⟩

/-- No row of the table has bits: no word spells a command, and none changes the queue. -/
theorem test_words : decodeTableWord 16 0x1001 = none ∧ State.reset.withFetchWord 16 0x1001 = State.reset := ⟨rfl, rfl⟩

-- Well-formed commands: for each check a command that it refuses.

theorem test_wf_attach : Instr.wf (.attachSettled 0 { passport := some [] }) = false := by decide
theorem test_wf_auth : Instr.wf (.authPoll 0 (some [0])) = false := by decide
theorem test_wf_readback : Instr.wf (.ledgerReadback 0 []) = false := by decide
theorem test_wf_arbitration : Instr.wf (.arbitration .cmdRing [1, 1] 0) = false := by decide
theorem test_wf_descriptors : Instr.wf (.poolDescriptorFetch 0 []) = false := by decide
theorem test_wf_fetch : Instr.wf (.cmdFetch 0 (some [0])) = false := by decide
theorem test_wf_burst : Instr.wf (.hbmBurst 0 { data := some [] }) = false := by decide
theorem test_wf_spore : Instr.wf (.sporeAck 0 [0x10]) = false := by decide
theorem test_wf_register : Instr.wf (.registerWrite .cspi 0 3 0) = false := by decide
theorem test_wf_params : Instr.wf (.headAttach pk 0 {}) = false := by decide
theorem test_wf_scenes : Instr.wf (.sceneSet pk 0 0 0 0 []) = false := by decide
theorem test_wf_sender : Instr.wf (.st2110Sender pk 0 0 []) = false := by decide
theorem test_wf_hbm_data : Instr.wf (.hbmWrite pk 0 0 []) = false := by decide
theorem test_wf_i3c_data : Instr.wf (.i3cRaw pk 0 0 0 0 [] none) = false := by decide
theorem test_wf_binds : Instr.wf (.contextLoad pk 0 0 0 0 0 []) = false := by decide
theorem test_wf_align : Instr.wf (.yallekAlign pk 0 []) = false := by decide
theorem test_wf_good : Instr.wf (.nop pk) = true ∧ Instr.wf (.sporeAck 0 (sp 0x10 [])) = true := by decide

-- Worked cases of the spec.

/-- Worked case 06-1, cycle 13: inputs 0 and 1 are FORCED after 12 cycles, 1 wins, and input 3 takes its first loss: it presents again
in cycle 18, five on. -/
theorem test_case_06_1 :
    let s := { live with greg := { wl := [(5, 12)] } }.setArb (arbCode (.service 1))
      { reqs := [(0, { present := true, wait := 11, losses := 2, backoff := 1 }), (1, { present := true, wait := 11, losses := 2, backoff := 1 })] }
    let a := (nx (exec (.arbitration (.service 1) [3] 1) s)).arb (arbCode (.service 1))
    a.holder = some 1 ∧ Tab.get {} a.reqs 0 = { present := true, wait := 12, losses := 2, forced := true } ∧
      Tab.get {} a.reqs 3 = { present := true, losses := 1, backoff := 5 } := by decide

/-- Worked case 06-2, cycle 2: a flush discards A and the open words of B, and B is poisoned to its end marker. -/
theorem test_case_06_2 :
    let q : QId := .reply 1
    let s := live.setQueue 1 { items := [[1, 2, 3]], opened := [4, 5, 6, 7], isOpen := true, flushEpoch := 6 }
    let t := nx (exec (.queueFlush { pk with fn := 0 } 0 1) s)
    let u := nx (exec (.queueWordWrite q { src := 0, word := 9 } true true) (t.setQueue 1 { t.queue 1 with poisoned := true, isOpen := true }))
    (u.queue 1).items = (t.queue 1).items ∧ (u.queue 1).lastReturn = 1 ∧ (u.queue 1).poisoned = false := by decide

/-- Worked case 07-1: codes expanded to SF12 and SF8. -/
theorem test_case_07_1 :
    [-93, 127, -128, 1, codeInt true 200].map sf12 = [0xD5D, 0x57F, 0xD80, 0x3C0, 0x548] ∧ [-8, 5, -1].map sf8 = [0xD0, 0x4A, 0xB8] := by decide

/-- Worked case 07-2: the products are added one after another. -/
theorem test_case_07_2 : [int32 1, int32 1].foldl add32 (int32 16777216) = int32 16777216 ∧
    add32 (add32 (int32 1) (int32 1)) (int32 16777216) = int32 16777218 := by decide

/-- Worked case 07-3, channel 0: 355.5 scaled by 2^-3 gives code 24 at zero point -20. -/
theorem test_case_07_3 : requant ((Real2.fin false 711 (-1)).scale (-3)) (-20) false = (24, false) := by decide

/-- Worked case 07-4: raw codes as binary16 behind a black level of 0x1000. -/
theorem test_case_07_4 :
    EdgeFrame.expand { fseq := 0, black := 0x1000 } { codes := [0x3A70, 0x3A74, 0x3A7C, 0x0F80] } 1 4 = [[0x314E, 0x314E, 0x3150, 0x9800]] := by decide

/-- Worked case 07-5: the rotation of size 4 and its codes. -/
theorem test_case_07_5 :
    (hadamard 2 ([3, 1, -2, 5].map int32)).map (fun v => (requant (v.scale 1) 0 false).1) = [7, 251, 1, 9] := by decide

/-- A group that holds the tree of worked case 09-1 and seven of padding. -/
def tree9 (b : Nat) : Nat :=
  if b < 2048 then
    (if b % 256 = 0 then (if b = 0 then 0 else 0x08000000)
     else if b = 4 then 0x56000340 else if b = 8 then 0x00020A80 else if b = 12 then 0x34000500 else 0x00000020)
  else if b < 2080 then 0x38003800 else if b < 2112 then 0x3D003D00 else if b < 2144 then 0xBC00BC00 else 0xB600B600

/-- Worked case 09-1: the leaves of vectors A, B and C, which are -0.375, 1.25 and 0.5. -/
theorem test_case_09_1 :
    let ext : Nat → Nat → Bool := fun e v => e = 2 && (v = 1 || v = 4)
    let vec : Nat → Nat → List Nat := fun x3 x10 => [0, 0, 0, x3, 0, 0x34CD, 0, 0, 0, 0, x10]
    addGroup tree9 ext (vec 0x7E00 0x4400) [0] = [0xBEC00000] ∧ addGroup tree9 ext (vec 0x5500 0x4400) [0] = [0x3FA00000] ∧
      addGroup tree9 ext (vec 0x5500 0x4480) [0] = [0x3F000000] := by decide

/-- The image of worked case 12-1. -/
def image12 : Image :=
  { fields := 2, vrows := [0, 8, 0, 0], vcols := [0, 6, 0, 0]
    decl := { streams := [{}], sideLinks := [(1, 1), (1, 2), (1, 4), (1, 5)]
              sites := (List.range 48).map (fun i => { vsite := vSite 1 (i / 6) (i % 6) })
              routes := [{ src := vSite 1 2 0, dst := vSite 1 7 1, slot := 60, hops := 6, path := [2, 2, 2, 2, 2, 1] }] } }

/-- Worked case 12-1: rows 0 to 4 and 6 to 8 around the fused site 178; the route takes 7 hops and ejects in slot 3. -/
theorem test_case_12_1 :
    (match ({ live with part := { fused := [178] } } : State).placeImage 0 5 image12 1 [] none none none with
      | .ok p => (p.map.length, p.site (vSite 1 4 5), p.site (vSite 1 5 2), p.entries.length,
          p.entries.any (fun e => e.1 == 176 && e.2.1 == 2 && e.2.2.1 == 63), p.entries.any (fun e => e.1 == 273 && e.2.1 == 4 && e.2.2.1 == 3))
      | .error _ => (0, none, none, 0, false, false)) = (48, some 149, some 210, 8, true, true) := by decide

/-- Worked case 13-1: the bytes of the reply. -/
theorem test_case_13_1 :
    replyBytes { isReply := true, cseq := 0x1A2B, esn := 0x123456, dtb := 0x12A05F200, result := [311] } =
      [0x2B, 0x1A, 0, 0, 0, 0, 0x56, 0x34, 0x12, 0, 0, 0, 0, 0xF2, 0x05, 0x2A, 1, 0, 0, 0, 0x37, 1, 0, 0, 0, 0, 0, 0, 0, 0, 0, 0] := by decide

/-- Worked case 14-1, cycle 4: TEMP_MAX written with 0x8000 holds the reading that meets it. -/
theorem test_case_14_1 :
    ((nx (exec (.tempReading 0x5A80) { live with supply := { tempMax := 0x8000 } })).supply.tempMax = 0x5A80) := by decide

/-- The word a CSPI register read gives, past its first byte. -/
def reg (off : B32) : Bytes := (nx (exec (.readReg off) live)).cspi.miso.drop 1

/-- Worked case 14-2: headers of the capability list. -/
theorem test_case_14_2 :
    reg 0x040 = toLe 4 0x00501001 ∧ reg 0x050 = toLe 4 0x00C01002 ∧ reg 0x160 = toLe 4 0x0190100D ∧ reg 0x190 = toLe 4 0x01B0100E ∧
      reg 0x1B0 = toLe 4 0x0000100F := by decide

/-- Worked case 15-1: the offset of a SYNC cut route. -/
theorem test_case_15_1 : alignOffset 40 1250000 1209 = 1320 := by decide

/-- Reset answers every read with its reset value: the VID code of 0.80 V, and part 00's commands change nothing before READY (R436). -/
theorem test_reset : State.reset.supply.vid = 60 ∧ exec (.nop pk) State.reset = .next State.reset := ⟨rfl, rfl⟩


-- Witnesses of the obligations.

theorem witness_StepRunsTheFront :
    ∃ (c : Instr) (rest : List Instr) (s : State), s.pending = c :: rest :=
  ⟨.nop pk, [.fwNop pk], { live with pending := [.nop pk, .fwNop pk] }, by decide⟩

theorem witness_MemoriesStayCanonical :
    ∃ (s : State) (t : State), (Memory.wf s.hbm = true) ∧ (Memory.wf s.hostMem = true) ∧ (step s = .next t) :=
  ⟨qd (.hbmWrite pk 2 4096 [0, 3]), nx (step (qd (.hbmWrite pk 2 4096 [0, 3]))), ⟨rfl, rfl, rfl⟩⟩

theorem witness_OtherEntriesStay :
    ∃ (c : Instr) (e : Entry) (s : State) (t : State), (entryOf c = some e) ∧ (exec c s = .next t) :=
  ⟨.headLens pk 3 7, .head 3, live, nx (exec (.headLens pk 3 7) live), ⟨rfl, rfl⟩⟩

theorem witness_CommandsAreChecked :
    (∃ (c : Instr) (k : Pkt) (op : Nat) (s : State), (packetOf c = some (k, op)) ∧ (s.ready = false)) ∧
    (∃ (c : Instr) (k : Pkt) (op : Nat) (s : State), (packetOf c = some (k, op)) ∧ (s.ready = true) ∧ (s.denied (who k) op = true)) ∧
    (∃ (k : Pkt) (fast : Bool) (st : Status) (res : List Nat) (s : State), s.ring k.fn k.cspi = []) ∧
    (∃ (k : Pkt) (fast : Bool) (st : Status) (res : List Nat) (s : State) (z : Zone), z ∉ Zone.replied) :=
  ⟨⟨.nop pk, pk, 0, State.reset, by decide⟩,
    ⟨.fieldReset { pk with fn := 1 } 3, { pk with fn := 1 }, 0x9005, live, by decide⟩,
    ⟨{ pk with reply := false }, true, .busy, [4], live, rfl⟩,
    ⟨pk, true, .ok, [4], live, .heads, by decide⟩⟩

theorem witness_StoreFits :
    (∃ (s : State) (t : State), (FitsStore s) ∧ (step s = .next t)) ∧
    (∃ (k : Pkt) (n : B8) (d : ImageDecl) (err : Bool) (s : State), (Allowed s k 0x1202) ∧ (OwnSlot s k n.toNat) ∧ ((s.slot n.toNat).state = .stored) ∧ (((stagedLengths s).length = 8 ∨ 256 < ((stagedLengths s).map granules).sum + granules (s.slot n.toNat).length))) :=
  ⟨⟨qd (.slotUnstage pk 5), nx (step (qd (.slotUnstage pk 5))), ⟨by decide, rfl⟩⟩,
    ⟨pk, 1, {}, false, eight, ⟨by decide, by decide, by decide, Or.inl (by decide)⟩⟩⟩

theorem witness_LockHolders :
    (∃ (k : Pkt), k.cspi = true) ∧
    (∃ (k : Pkt) (l : B8) (s : State), (Allowed s k 0x0006) ∧ (l.toNat < 64) ∧ ((s.lock l.toNat).holder = fnCode (who k))) ∧
    (∃ (k : Pkt) (q : Pkt) (l : B8) (w : Waiter) (m : List Waiter) (s : State), (Allowed s k 0x0006) ∧ (l.toNat < 64) ∧ ((s.lock l.toNat).holder = fnCode (who k)) ∧ ((s.lock l.toNat).waiters = w :: m) ∧ (w.reply = some q)) ∧
    (∃ (k : Pkt) (l : B8) (s : State), (Allowed s k 0x0006) ∧ (l.toNat < 64) ∧ ((s.lock l.toNat).holder ≠ fnCode (who k))) ∧
    (∃ (p : Path) (l : Fin 64) (s : State), (s.lock l).holder ≠ fnCode (pathFn p)) :=
  ⟨⟨{ pk with cspi := true }, by decide⟩,
    ⟨pk, 3, live.setLock 3 { holder := fnCode 0, epoch := 7, ownerLost := true, waiters := [{ code := 4, reply := none }] }, by decide⟩,
    ⟨pk, { pk with cseq := 9 }, 3, { code := 4, reply := some { pk with cseq := 9 } }, [], live.setLock 3 { holder := fnCode 0, epoch := 7, ownerLost := true, waiters := [{ code := 4, reply := some { pk with cseq := 9 } }] }, by decide⟩,
    ⟨pk, 63, live, by decide⟩,
    ⟨.cspi, 63, live.setLock 63 { holder := 7 }, by decide⟩⟩

theorem witness_LocksQueueEight :
    (∃ (s : State) (t : State), ((∀ l, (s.lock l).waiters.length ≤ 8)) ∧ (step s = .next t)) ∧
    (∃ (k : Pkt) (l : B8) (us : B16) (s : State), (Allowed s k 0x0005) ∧ (l.toNat < 48) ∧ (us ≠ 0) ∧ ((s.lock l.toNat).holder ≠ 0) ∧ ((s.lock l.toNat).holder ≠ fnCode (who k)) ∧ (8 ≤ (s.lock l.toNat).waiters.length)) :=
  ⟨⟨qd (.lockAcquire pk 3 1 5), nx (step (qd (.lockAcquire pk 3 1 5))), ⟨fun l => Nat.zero_le 8, rfl⟩⟩,
    ⟨pk, 3, 5, held8, by decide⟩⟩

theorem witness_HeadPinsAndFrameNumbers :
    (∃ (h : HeadId) (s : State), (s.linkUp h = true) ∧ ((s.head h).present = false)) ∧
    (∃ (h : HeadId) (s : State), (s.linkUp h = true) ∧ ((s.head h).present = true)) ∧
    (∃ (h : HeadId) (s : State), s.linkUp h = true) ∧
    (∃ (h : HeadId) (target : Fin 4) (data : B8) (s : State), (s.linkUp h = true) ∧ ((s.head h).pwrEn = true)) ∧
    (∃ (wrap : Nat) (last : Nat) (q : B16), (0 < last) ∧ (last < wrap)) ∧
    (∃ (wrap : Nat) (fn : Nat) (last : Nat) (q : B16), (0 < fn) ∧ (last < fn) ∧ (fn < wrap)) ∧
    (∃ (wrap : Nat) (fn : Nat) (last : Nat) (q : B16), (0 < fn) ∧ (fn < last) ∧ (last < wrap)) :=
  ⟨⟨0, live, by decide⟩,
    ⟨0, withHead readyHead, by decide⟩,
    ⟨0, live, by decide⟩,
    ⟨0, 1, 7, withHead readyHead, by decide⟩,
    ⟨5, 3, 9, by decide⟩,
    ⟨9, 5, 3, 7, by decide⟩,
    ⟨9, 2, 5, 7, by decide⟩⟩

theorem witness_FramesAndLinesArrive :
    (∃ (h : HeadId) (vc : Fin 4) (first : Bool) (fn : B16) (d : VcDecl) (s : State), (Receives s h vc d) ∧ ((s.head h).authFailed = false) ∧ ((s.strm (4 * h + vc)).frame = none)) ∧
    (∃ (h : HeadId) (vc : Fin 4) (first : Bool) (d : VcDecl) (f : LinkFrame) (s : State), (Receives s h vc d) ∧ ((s.strm (4 * h + vc)).frame = some f) ∧ ((s.strm (4 * h + vc)).stopNext = false)) ∧
    (∃ (st : StreamId) (f : LinkFrame) (s : State), (s.linkUp (st / 4) = true) ∧ ((s.strm st).frame = some f) ∧ ((s.strm st).source = 0)) ∧
    (∃ (st : StreamId) (l : Line) (m : List BufItem) (s : State), ((s.strm st).missing = .line l :: m) ∧ ((s.strm st).buf = []) ∧ (0 < (s.strm st).dropD)) ∧
    (∃ (st : StreamId) (q : B16) (m : List BufItem) (s : State), (s.strm st).missing = .eof q :: m) ∧
    (∃ (h : HeadId) (vc : Fin 4) (first : Bool) (number : B16) (err : Fin 21) (d : VcDecl) (f : LinkFrame) (s : State), (Receives s h vc d) ∧ ((s.strm (4 * h + vc)).frame = some f) ∧ (f.cur = none) ∧ ((s.strm (4 * h + vc)).untaken < (s.strm (4 * h + vc)).dropD)) ∧
    (∃ (h : HeadId) (vc : Fin 4) (first : Bool) (n : Nat) (stamp : B64) (d : VcDecl) (f : LinkFrame) (s : State), (Receives s h vc d) ∧ ((s.strm (4 * h + vc)).frame = some f) ∧ (f.cur = some (n, stamp)) ∧ ((s.strm (4 * h + vc)).stopNow = false)) ∧
    (∃ (h : HeadId) (vc : Fin 4) (first : Bool) (payload : Bytes) (crc : B16) (err : Fin 21) (d : VcDecl) (f : LinkFrame) (s : State), (Receives s h vc d) ∧ ((s.strm (4 * h + vc)).frame = some f) ∧ (f.cur = none) ∧ (f.dropping = false) ∧ (f.old = false) ∧ ((s.strm (4 * h + vc)).admitting = true) ∧ ((s.strm (4 * h + vc)).missing = []) ∧ ((s.strm (4 * h + vc)).stopNow = false) ∧ ((s.strm (4 * h + vc)).untaken < (s.strm (4 * h + vc)).dropD) ∧ (f.last = none) ∧ (0 < d.height.toNat) ∧ (crc16 payload = crc.toNat) ∧ ((unpackRaw (rawBits d.dt.toNat d.width.toNat payload.length) payload).length = d.width.toNat)) ∧
    (∃ (h : HeadId) (vc : Fin 4) (first : Bool) (payload : Bytes) (crc : B16) (d : VcDecl) (f : LinkFrame) (s : State), (Receives s h vc d) ∧ ((s.strm (4 * h + vc)).frame = some f) ∧ (d.embDt ≠ 0) ∧ (crc16 payload = crc.toNat)) :=
  ⟨⟨0, 0, true, 4, vc0, withHead readyHead, by decide⟩,
    ⟨0, 0, true, vc0, { fseq := 3, last := some 1 }, withStrm { admitting := true, frame := some { fseq := 3, last := some 1 } }, by decide⟩,
    ⟨0, { fseq := 3 }, withStrm { frame := some { fseq := 3 } }, by decide⟩,
    ⟨0, plainLine 3 0 [1], [.eof 3], withStrm { missing := [.line (plainLine 3 0 [1]), .eof 3] }, by decide⟩,
    ⟨0, 3, [.line (plainLine 4 0 [1])], withStrm { missing := [.eof 3, .line (plainLine 4 0 [1])] }, by decide⟩,
    ⟨0, 0, true, 0, 5, vc0, { fseq := 3 }, withStrm { frame := some { fseq := 3 } }, by decide⟩,
    ⟨0, 0, true, 1, 100, vc0, { fseq := 3, cur := some (1, 100) }, withStrm { frame := some { fseq := 3, cur := some (1, 100) } }, by decide⟩,
    ⟨0, 0, true, [1, 2, 3, 4, 0], BitVec.ofNat 16 (crc16 [1, 2, 3, 4, 0]), 5, vc0, { fseq := 3 }, withStrm { admitting := true, frame := some { fseq := 3 } }, by decide⟩,
    ⟨0, 0, true, [1, 2], BitVec.ofNat 16 (crc16 [1, 2]), vc0, { fseq := 3 }, withStrm { frame := some { fseq := 3 } }, by decide⟩⟩

theorem witness_PulsesWearAndDecisions :
    (∃ (h : HeadId) (s : State), (s.linkUp h = true) ∧ ((s.head h).fsyncNext = none)) ∧
    (∃ (h : HeadId) (n : Fsync) (t : Nat) (s : State), (s.linkUp h = true) ∧ ((s.head h).fsyncNext = some (n, t)) ∧ ((s.head h).fsync.on = false) ∧ (n.on = true) ∧ (n.nextAt (max (max (s.head h).fsyncFrom t) (s.dtb.now.toNat - 10)) ≤ s.dtb.now.toNat + 10)) ∧
    (∃ (h : HeadId) (s : State), (s.head h).fsyncPin = true) ∧
    (∃ (f : Fsync) (t : Nat), f.period ≠ 0) ∧
    (∃ (h : HeadId) (a : B8) (b : B8) (s : State), (s.linkUp h = true) ∧ ((s.head h).usable = true) ∧ (s.headStreaming h = true)) ∧
    (∃ (h : HeadId) (s : State), (s.linkUp h = true) ∧ ((s.head h).usable = true) ∧ (s.headStreaming h = true)) ∧
    (∃ (st : StreamId) (fseq : B16) (focus : B16) (conf : B16) (i : FrameInfo) (s : State), ((s.strm st).info fseq = some i) ∧ (i.has .dropped = false) ∧ (i.written = false) ∧ ((s.strm st).source = 0) ∧ (s.linkUp (st / 4) = true) ∧ ((s.head (st / 4)).usable = true) ∧ ((s.head (st / 4)).actSa ≠ 0) ∧ (isNan16 conf.toNat = false) ∧ (lt16 conf.toNat (s.head (st / 4)).actConfMin = false) ∧ ((s.head (st / 4)).actTrigger = 0) ∧ ((s.head (st / 4)).actAbs = false) ∧ (s.lastLineIn st fseq = true)) ∧
    (∃ (st : StreamId) (fseq : B16) (focus : B16) (conf : B16) (s : State), s.lastLineIn st fseq = false) ∧
    (∃ (st : StreamId) (fseq : B16) (focus : B16) (conf : B16) (i : FrameInfo) (s : State), ((s.strm st).info fseq = some i) ∧ (i.has .dropped = false) ∧ (i.written = false) ∧ (lt16 conf.toNat (s.head (st / 4)).actConfMin = true) ∧ (s.lastLineIn st fseq = true)) ∧
    (∃ (h : HeadId) (st : Nat) (fseq : B16) (ev : Nat) (i : FrameInfo) (s : State), ((s.head h).evPosted = some (st, fseq, ev)) ∧ ((s.strm st).info fseq = some i) ∧ (i.has .dropped = false) ∧ (isNan16 ev = false) ∧ (lt16 ev 0xC400 = false) ∧ (lt16 0x4400 ev = false) ∧ ((s.strm st).source = 0) ∧ (s.linkUp h = true) ∧ ((s.head h).usable = true) ∧ (s.lastLineIn st fseq = true) ∧ (s.focusOwed h fseq = false)) ∧
    (∃ (h : HeadId) (st : Nat) (fseq : B16) (ev : Nat) (s : State), ((s.head h).evPosted = some (st, fseq, ev)) ∧ (s.lastLineIn st fseq = false ∨ s.focusOwed h fseq = true)) ∧
    (∃ (h : HeadId) (s : State), (s.head h).sclHeld = true) ∧
    (∃ (h : HeadId) (s : State), (s.head h).sclHeld = false) :=
  ⟨⟨0, withHead { readyHead with fsync := { on := true, t0 := 0, period := 2000, width := 1 } }, by decide⟩,
    ⟨0, { on := true, t0 := 0, period := 2000, width := 1 }, 0, withHead { readyHead with fsyncNext := some ({ on := true, t0 := 0, period := 2000, width := 1 }, 0) }, by decide⟩,
    ⟨0, withHead { readyHead with fsyncPin := true }, by decide⟩,
    ⟨{ on := true, t0 := 7, period := 2000, width := 1 }, 4000, by decide⟩,
    ⟨0, 1, 44, withStrm { started := true }, by decide⟩,
    ⟨0, withStrm { started := true }, by decide⟩,
    ⟨0, 3, 5, 0x3C00, { fseq := 3 }, (live.setHead 0 { readyHead with passport := List.replicate 0x3E 0 ++ [1] ++ List.replicate 577 0 }).setStrm 0 { frames := [{ fseq := 3 }] }, by decide⟩,
    ⟨0, 3, 5, 0x3C00, withStrm { frame := some { fseq := 3 } }, by decide⟩,
    ⟨0, 3, 5, 0x3000, { fseq := 3 }, (live.setHead 0 { readyHead with actConfMin := 0x3C00 }).setStrm 0 { frames := [{ fseq := 3 }] }, by decide⟩,
    ⟨0, 0, 3, 0x3C00, { fseq := 3 }, (live.setHead 0 { readyHead with evPosted := some (0, 3, 0x3C00) }).setStrm 0 { frames := [{ fseq := 3 }] }, by decide⟩,
    ⟨0, 0, 3, 0x3C00, (live.setHead 0 { readyHead with evPosted := some (0, 3, 0x3C00) }).setStrm 0 { frame := some { fseq := 3 } }, by decide⟩,
    ⟨0, withHead { readyHead with sclHeld := true }, by decide⟩,
    ⟨0, withHead { readyHead with i3c := [{ target := 1 }, { target := 2 }] }, by decide⟩⟩

theorem witness_LedgerCommits :
    (∃ (h : HeadId) (s : State), (s.linkUp h = true) ∧ ((s.head h).commitDue = true) ∧ ((s.head h).state = .ready) ∧ ((s.head h).commit = none) ∧ (s.supply.diapause = false) ∧ ((s.head h).exhausted = false) ∧ ((s.head h).lastSeq < 190000) ∧ ((s.lock (48 + h)).holder = 0)) ∧
    (∃ (h : HeadId) (c : Commit) (s : State), (s.linkUp h = true) ∧ ((s.head h).commit = some c) ∧ ((s.head h).i3c = []) ∧ ((s.head h).detach = none)) ∧
    (∃ (h : HeadId) (c : Commit) (copy : Bytes) (s : State), (s.linkUp h = true) ∧ ((s.head h).commit = some c) ∧ ((s.head h).i3c = []) ∧ (copy ≠ c.data) ∧ (c.retried = false)) ∧
    (∃ (h : HeadId) (c : Commit) (copy : Bytes) (s : State), (s.linkUp h = true) ∧ ((s.head h).commit = some c) ∧ ((s.head h).i3c = []) ∧ (copy ≠ c.data) ∧ (c.retried = true) ∧ ((s.head h).detach = none)) :=
  ⟨⟨0, withHead { readyHead with commitDue := true }, by decide⟩,
    ⟨0, { copyB := true, seq := 1, data := List.replicate 64 1 }, withHead { readyHead with commit := some { copyB := true, seq := 1, data := List.replicate 64 1 } }, by decide⟩,
    ⟨0, { copyB := true, seq := 1, data := List.replicate 64 1 }, [2], withHead { readyHead with commit := some { copyB := true, seq := 1, data := List.replicate 64 1 } }, by decide⟩,
    ⟨0, { copyB := true, seq := 1, data := List.replicate 64 1, retried := true }, [2], withHead { readyHead with commit := some { copyB := true, seq := 1, data := List.replicate 64 1, retried := true } }, by decide⟩⟩

theorem witness_AttachAndAuthenticate :
    (∃ (h : HeadId) (r : AttachRead) (s : State), (s.linkUp h = true) ∧ ((s.head h).state = .powering) ∧ (r.passport = none)) ∧
    (∃ (h : HeadId) (r : AttachRead) (b : Bytes) (s : State), (s.linkUp h = true) ∧ ((s.head h).state = .powering) ∧ (r.passport = some b) ∧ (({ s.head h with passport := b.take 640 } : Head).passportOk = false)) ∧
    (∃ (h : HeadId) (b : Bytes) (e : Bytes) (g : Bytes) (a : Option Bytes) (p : Head) (s : State), (s.linkUp h = true) ∧ ((s.head h).state = .powering) ∧ (p = { s.head h with passport := b.take 640 })) ∧
    (∃ (h : HeadId) (a : AuthRun) (b : Bytes) (s : State), (s.linkUp h = true) ∧ ((s.head h).auth = some a) ∧ (a.again = false) ∧ (s.headStreaming h = false) ∧ ((s.head h).detach = none)) ∧
    (∃ (h : HeadId) (a : AuthRun) (s : State), (s.linkUp h = true) ∧ ((s.head h).auth = some a) ∧ (a.again = false) ∧ (s.headStreaming h = false) ∧ ((s.head h).detach = none)) ∧
    (∃ (h : HeadId) (s : State), (s.linkUp h = true) ∧ ((s.head h).usable = true) ∧ (s.headStreaming h = true) ∧ ((s.head h).auth = none) ∧ (3600 ≤ (s.head h).sinceAuth)) :=
  ⟨⟨0, {}, withHead { readyHead with state := .powering }, by decide⟩,
    ⟨0, { passport := some [1, 2] }, [1, 2], withHead { readyHead with state := .powering }, by decide⟩,
    ⟨0, [1, 2], [5], [6], none, { readyHead with state := .powering, passport := [1, 2] }, withHead { readyHead with state := .powering }, by decide⟩,
    ⟨0, { challenge := List.replicate 32 1, again := false, pkt := none }, [], withHead { readyHead with state := .auth, auth := some { challenge := List.replicate 32 1, again := false, pkt := none } }, by decide⟩,
    ⟨0, { challenge := List.replicate 32 1, again := false, pkt := none }, withHead { readyHead with state := .auth, auth := some { challenge := List.replicate 32 1, again := false, pkt := none } }, by decide⟩,
    ⟨0, (live.setHead 0 { readyHead with sinceAuth := 3600 }).setStrm 0 { started := true }, by decide⟩⟩

theorem witness_LinesThroughTheRegion :
    (∃ (st : StreamId) (i : BufItem) (m : List BufItem) (s : State), ((s.strm st).buf = i :: m) ∧ ((s.strm st).source = 0) ∧ ((s.strm st).atEdge = []) ∧ (s.admits st = true) ∧ (((s.strm st).scheduled = true → (s.strm st).held = none ∨ (s.strm st).held = some i.fseq))) ∧
    (∃ (st : StreamId) (i : BufItem) (q : B16) (s : State), (i.fseq ≠ q) ∧ ((s.strm st).scheduled = true) ∧ ((s.strm st).held = some q)) ∧
    (∃ (st : StreamId) (l : Line) (m : List BufItem) (s : State), ((s.strm st).atEdge = .line l :: m) ∧ (s.admits st = true) ∧ ((s.strm st).scheduled = false)) ∧
    (∃ (st : StreamId) (q : B16) (m : List BufItem) (s : State), ((s.strm st).atEdge = .eof q :: m) ∧ (s.admits st = true) ∧ ((s.strm st).scheduled = false) ∧ (s.hasTail st = true)) ∧
    (∃ (st : StreamId) (codes : List B16) (bad : Bool) (s : State), ((s.strm st).source ≠ 0) ∧ ((s.strm st).started = true) ∧ (s.admits st = true) ∧ (0 < (s.strm st).paceLine) ∧ ((s.strm st).paceLine + 1 < (s.sdecl st).height) ∧ ((s.strm st).pacedCodes ((s.sdecl st).width * (match (s.sdecl st).edge with | some e => e.cin | none => 1)) = some (codes, bad))) ∧
    (∃ (st : StreamId) (s : State), ((s.strm st).source ≠ 0) ∧ ((s.strm st).started = true) ∧ (s.admits st = true) ∧ (0 < (s.strm st).paceLine) ∧ ((s.sdecl st).height ≤ (s.strm st).paceLine)) ∧
    (∃ (st : StreamId) (r : Replay) (a : Nat) (n : Nat) (s : State), (s.nextReplayLine st = some (r, a, n)) ∧ (r.host = false) ∧ (s.ready = true) ∧ (s.stackOk (a / 17179869184) = true)) ∧
    (∃ (st : StreamId) (r : Replay) (a : Nat) (n : Nat) (s : State), (s.nextReplayLine st = some (r, a, n)) ∧ (r.host = false) ∧ (s.ready = true) ∧ (a % 64 = 0) ∧ (n = 64)) ∧
    (∃ (st : StreamId) (s : State), (s.strm st).frozen = true ∨ (s.strm st).ctx = none) ∧
    (∃ (st : StreamId) (f8 : Nat) (s : State), ((s.strm st).frozen = false) ∧ ((s.strm st).ctx.isSome = true) ∧ ((∀ stripe, Tab.get [] (s.tailEng (s.sdecl st).tail).queues stripe = [])) ∧ ((s.strm st).tailCur = some f8) ∧ ((List.range (s.ownedWidths st).length).all (fun i => (s.strm st).tailTag f8 i 8191) = false) ∧ (layerReady ((s.sdecl st).tailLayer.getD { k := 1 }) (fun i => s.tailHas st f8 i) (s.sdecl st).height (s.strm st).tailNext = true)) :=
  ⟨⟨0, .eof 3, [.eof 4], withCtx (cx {}) { scheduled := true, buf := [.eof 3, .eof 4] }, by decide⟩,
    ⟨0, .eof 3, 2, withCtx (cx {}) { scheduled := true, held := some 2, buf := [.eof 3] }, by decide⟩,
    ⟨0, { fseq := 3, line := 0, stamp := 7, codes := [1], flags := 1 }, [], withCtx (cx {}) { atEdge := [.line { fseq := 3, line := 0, stamp := 7, codes := [1], flags := 1 }] }, by decide⟩,
    ⟨0, 3, [.eof 4], withCtx { cx {} with place := { ends := [{ site := 5, slot := 0, sends := false, kind := 1, stream := 0, stripe := 0 }], image := { decl := { streams := [{}] } } } } { atEdge := [.eof 3, .eof 4], edge := some { fseq := 3 } }, by decide⟩,
    ⟨0, [7, 8], true, withCtx (cx { height := 8, width := 2, frameLines := 9 }) { source := 1, started := true, paceLine := 1, paceFrame := 2, prefetch := [([7, 8], true), ([9, 9], false)] }, by decide⟩,
    ⟨0, withCtx (cx { height := 8, width := 2, frameLines := 9 }) { source := 1, started := true, paceLine := 8, paceFrame := 2 }, by decide⟩,
    ⟨0, rep0, 0, 32, withCtx (cx {}) { source := 1, started := true, replay := some rep0 }, by decide⟩,
    ⟨0, rep0, 0, 64, withCtx (cx { width := 32 }) { source := 1, started := true, replay := some rep0 }, by decide⟩,
    ⟨0, withStrm {}, by decide⟩,
    ⟨0, 3, withCtx (cx { width := 16, height := 4 }) { tailNext := 1, tailTags := [(0, 3, 0), (0, 3, 1), (0, 3, 2), (0, 3, 3)] }, ⟨by decide, by decide, fun _ => rfl, by decide, by decide, by decide⟩⟩⟩

theorem witness_OutputsLeave :
    (∃ (st : StreamId) (l : OutLine) (m : List OutLine) (s : State), ((s.strm st).toOut = l :: m) ∧ (l.eof = false) ∧ ((s.strm st).frozen = false) ∧ ((s.strm st).oqHeld < (s.strm st).oqLines) ∧ ((s.strm st).outDrop ≠ some l.fseq)) ∧
    (∃ (st : StreamId) (l : OutLine) (m : List OutLine) (s : State), ((s.strm st).toOut = l :: m) ∧ (l.eof = false) ∧ ((s.strm st).frozen = false) ∧ ((s.strm st).oqLines ≤ (s.strm st).oqHeld) ∧ ((s.strm st).outDrop ≠ some l.fseq) ∧ ((s.strm st).stall = true) ∧ ((s.strm st).oqIn < 24) ∧ ((s.strm st).oqIn < l.flits)) ∧
    (∃ (st : StreamId) (l : OutLine) (m : List OutLine) (o : Nat) (c : Ctx) (s : State), ((s.strm st).toOut = l :: m) ∧ (l.eof = false) ∧ ((s.strm st).frozen = false) ∧ ((s.strm st).oqLines ≤ (s.strm st).oqHeld) ∧ ((s.strm st).outDrop ≠ some l.fseq) ∧ ((s.strm st).stall = true) ∧ ((s.strm st).oqIn = 24) ∧ (24 < l.flits) ∧ ((s.strm st).ctx = some o) ∧ (s.ctx o = some c) ∧ (c.state = .running)) ∧
    (∃ (st : StreamId) (l : OutLine) (m : List OutLine) (s : State), ((s.strm st).toOut = l :: m) ∧ (l.eof = false) ∧ ((s.strm st).frozen = false) ∧ ((s.strm st).oqLines ≤ (s.strm st).oqHeld) ∧ ((s.strm st).outDrop ≠ some l.fseq) ∧ ((s.strm st).stall = false) ∧ ((s.strm st).oqIn < l.flits)) ∧
    (∃ (st : StreamId) (l : OutLine) (m : List OutLine) (s : State), ((s.strm st).toOut = l :: m) ∧ (l.eof = false) ∧ ((s.strm st).frozen = false) ∧ ((s.strm st).outDrop = some l.fseq) ∧ ((s.strm st).oqIn = 0) ∧ (l.flits = 1)) ∧
    (∃ (st : StreamId) (s : State), (s.strm st).frozen = true ∨ (s.strm st).toOut = []) ∧
    (∃ (st : StreamId) (l : OutLine) (m : List OutLine) (s : State), ((s.strm st).toOut = l :: m) ∧ (l.eof = true) ∧ ((s.strm st).frozen = false) ∧ ((s.strm st).oqIn = 0)) ∧
    (∃ (st : StreamId) (l : OutLine) (m : List OutLine) (d : PoolDesc) (s : State), ((s.strm st).route = 0) ∧ ((s.strm st).oq = l :: m) ∧ (l.eof = false) ∧ ((s.strm st).openBuf = none) ∧ ((s.strm st).granted = some d) ∧ ((s.strm st).pool < 64) ∧ (s.portUp (dieOfStream st) = true) ∧ ((s.ep (s.epOf (s.pool (s.strm st).pool).fn)).up = true)) ∧
    (∃ (st : StreamId) (l : OutLine) (m : List OutLine) (s : State), ((s.strm st).route = 2) ∧ ((s.strm st).oq = l :: m) ∧ ((s.yport ((s.strm st).routeIx % 4)).up = true)) ∧
    (∃ (st : StreamId) (s : State), (s.strm st).route = 1) ∧
    (∃ (d : Fin 32) (st : Nat) (l : OutLine) (m : List OutLine) (f : B16 × B64) (s : State), (s.senderStream d = some st) ∧ ((s.sender d).enabled = true) ∧ (s.ethLive (d / 16) = true) ∧ ((s.eth (d / 16)).up = true) ∧ ((s.strm st).oq = l :: m) ∧ (l.eof = false) ∧ ((s.sender d).frame = some f) ∧ (((s.sender d).spans (s.sdecl st).outWidth ((s.sender d).next * 1260) (min ((s.sender d).next * 1260 + 1260) ((s.sender d).rowLen (s.sdecl st).outWidth * (s.sdecl st).height))) ≠ []) ∧ ((∀ q ∈ (s.sender d).spans (s.sdecl st).outWidth ((s.sender d).next * 1260) (min ((s.sender d).next * 1260 + 1260) ((s.sender d).rowLen (s.sdecl st).outWidth * (s.sdecl st).height)), ∃ o ∈ (s.strm st).oq, o.eof = false ∧ o.fseq = l.fseq ∧ o.line = q.1))) ∧
    (∃ (d : Fin 32) (st : Nat) (l : OutLine) (m : List OutLine) (s : State), (s.senderStream d = some st) ∧ ((s.sender d).enabled = true) ∧ (s.ethLive (d / 16) = true) ∧ ((s.eth (d / 16)).up = true) ∧ ((s.strm st).oq = l :: m) ∧ (l.eof = true)) ∧
    (∃ (p : Fin 2) (st : Nat) (fseq : B16) (f : FrameInfo) (m : List (Nat × B16)) (s : State), ((s.eth p).metaQ = (st, fseq) :: m) ∧ (s.ethLive p = true) ∧ ((s.eth p).up = true) ∧ ((s.strm st).info fseq = some f)) ∧
    (∃ (p : Fin 2) (e : Nat × B16) (m : List (Nat × B16)) (sent : Bool) (s : State), ((s.eth p).metaQ = e :: m) ∧ (sent = false ∨ (s.eth p).up = false)) ∧
    (∃ (st : StreamId) (q : Replay) (a : Nat) (n : Nat) (b : Bytes) (s : State), (s.nextReplayLine st = some (q, a, n)) ∧ (q.host = true)) :=
  ⟨⟨0, { fseq := 3, line := 5 }, [], withStrm { toOut := [{ fseq := 3, line := 5 }], oqLines := 4, ctx := some 0 }, by decide⟩,
    ⟨0, { fseq := 3, line := 5, vals := List.replicate 40 0 }, [], withStrm { toOut := [{ fseq := 3, line := 5, vals := List.replicate 40 0 }], oqLines := 0, stall := true, ctx := some 0 }, by decide⟩,
    ⟨0, { fseq := 3, line := 5, vals := List.replicate 400 0 }, [], 0, cx {}, withCtx (cx {}) { toOut := [{ fseq := 3, line := 5, vals := List.replicate 400 0 }], oqLines := 0, stall := true, oqIn := 24, skid := 24 }, by decide⟩,
    ⟨0, { fseq := 3, line := 5 }, [], withStrm { toOut := [{ fseq := 3, line := 5 }], oqLines := 0, frames := [{ fseq := 3 }] }, by decide⟩,
    ⟨0, { fseq := 3, line := 5 }, [], withStrm { toOut := [{ fseq := 3, line := 5 }], outDrop := some 3 }, by decide⟩,
    ⟨0, withStrm { frozen := true, toOut := [{ fseq := 3, line := 5 }] }, by decide⟩,
    ⟨0, { fseq := 3, eof := true }, [], withStrm { toOut := [{ fseq := 3, eof := true }], outDrop := some 3 }, by decide⟩,
    ⟨0, { fseq := 3, line := 5, vals := [1, 2] }, [], { addr := 4096, size := 4096 }, withPool { route := 0, oq := [{ fseq := 3, line := 5, vals := [1, 2] }], pool := 0, granted := some { addr := 4096, size := 4096 } } { ready := true }, by decide⟩,
    ⟨0, { fseq := 3, line := 5, vals := [1, 2] }, [], (withCtx (cx {}) { route := 2, oq := [{ fseq := 3, line := 5, vals := [1, 2] }] }).setYport 0 { up := true }, by decide⟩,
    ⟨0, withStrm { route := 1, oq := [{ fseq := 3 }] }, by decide⟩,
    ⟨0, 0, { fseq := 3, line := 0, vals := List.replicate 32 0 }, [], (3, 0), ((withCtx (cx { width := 16, outWidth := 16, height := 1 }) { route := 1, oq := [{ fseq := 3, line := 0, vals := List.replicate 32 0 }] }).setEth 0 { enabled := true, up := true, record := List.replicate 64 1 }).setSender 0 { enabled := true, frame := some (3, 0), record := List.replicate 64 0 }, by decide⟩,
    ⟨0, 0, { fseq := 3, eof := true }, [], ((withCtx (cx {}) { route := 1, oq := [{ fseq := 3, eof := true }] }).setEth 0 { enabled := true, up := true, record := List.replicate 64 1 }).setSender 0 { enabled := true, next := 3, late := 1, frame := some (3, 0) }, by decide⟩,
    ⟨0, 0, 3, { fseq := 3 }, [], (withStrm { frames := [{ fseq := 3 }] }).setEth 0 { up := true, metaQ := [(0, 3)], record := List.replicate 64 1 }, by decide⟩,
    ⟨0, (0, 3), [], false, live.setEth 0 { metaQ := [(0, 3)] }, by decide⟩,
    ⟨0, { rep0 with host := true }, 0, 32, List.replicate 32 1, withCtx (cx {}) { source := 1, started := true, replay := some { rep0 with host := true } }, by decide⟩⟩

theorem witness_HbmAccesses :
    (∃ (k : Fin 4) (i : Fin 11) (n : Fin 268435456) (d : Bytes) (ecc : Ecc) (s : State) (u : State), (s.ready = true) ∧ (s.stackOk k = true) ∧ (s.useArb (.hbm k) i = some u)) ∧
    (∃ (k : Fin 4) (i : Fin 11) (s : State), ((s.arb (arbCode (.hbm k))).holder = none) ∧ ((s.arb (arbCode (.hbm k))).reqs = [])) ∧
    (∃ (k : Fin 4) (a : HbmAcc) (s : State), s.useArb (.hbm k) a.input = none) ∧
    (∃ (k : Fin 4) (i : Fin 11) (n : Fin 268435456) (s : State) (u : State), (s.ready = true) ∧ (s.stackOk k = true) ∧ (s.useArb (.hbm k) i = some u)) ∧
    (∃ (k : Pkt) (n : B16) (a : B64) (data : Bytes) (s : State), (Allowed s k 0x1010) ∧ (1 ≤ n.toNat) ∧ (n.toNat ≤ 224) ∧ (n.toNat ≤ data.length) ∧ (s.hbmBad a.toNat n.toNat = false) ∧ (s.stackOk (a.toNat / 17179869184) = true) ∧ (Memory.wf s.hbm = true)) ∧
    (∃ (k : Pkt) (n : B16) (a : B64) (data : Bytes) (s : State), (Allowed s k 0x1010) ∧ (s.hbmBad a.toNat n.toNat = true)) ∧
    (∃ (a : Nat) (n : Nat) (s : State), (0x3C0000000 ≤ a) ∧ (a < 0x400000000) ∧ (0 < n)) :=
  ⟨⟨0, 9, 2, [1], .clean, live, (live.useArb (.hbm 0) 9).getD live, ⟨by decide, by decide, rfl⟩⟩,
    ⟨2, 10, live, by decide⟩,
    ⟨0, { input := 3, burst := 1 }, live.setArb (arbCode (.hbm 0)) { holder := some 5 }, by decide⟩,
    ⟨0, 9, 2, live, (live.useArb (.hbm 0) 9).getD live, ⟨by decide, by decide, rfl⟩⟩,
    ⟨pk, 2, 4096, [1, 0, 3], live, by decide⟩,
    ⟨pk, 2, 0x3C0000000, [1, 2], live, by decide⟩,
    ⟨0x3C0000000, 1, live, by decide⟩⟩

theorem witness_YallekLinks :
    (∃ (p : Fin 4) (s : State), (s.yLive p = true) ∧ ((s.yport p).up = false)) ∧
    (∃ (p : Fin 4) (s : State), (s.yLive p = true) ∧ ((s.yport p).locked = true) ∧ ((s.yport p).up = false)) ∧
    (∃ (p : Fin 4) (b : Bytes) (die : B64) (s : State), (s.yLive p = true) ∧ ((s.yport p).locked = true) ∧ ((s.yport p).up = false) ∧ (sporeOk b = true) ∧ (byteAt b 0 = 4)) ∧
    (∃ (p : Fin 4) (s : State), ((s.yport p).locked = true) ∧ ((s.yport p).up = false)) ∧
    (∃ (p : Fin 4) (cause : Fin 4) (s : State), (s.yLive p = true) ∧ ((s.yport p).up = true) ∧ (cause ≠ 0 ∨ (∃ r ∈ (s.yport p).replay, 8 ≤ r.2.1))) ∧
    (∃ (p : Fin 4) (b : Bytes) (s : State), SporeComes s p 0x10 false b) ∧
    (∃ (p : Fin 4) (b : Bytes) (s : State), SporeComes s p 0x12 false b) ∧
    (∃ (p : Fin 4) (b : Bytes) (s : State), (SporeComes s p 0x11 false b) ∧ ((s.yport p).tx = [])) ∧
    (∃ (p : Fin 4) (s : State), (s.yLive p = true) ∧ ((s.yport p).up = true) ∧ ((s.yport p).replay ≠ [])) ∧
    (∃ (p : Fin 4) (s : State), (s.yLive p = true) ∧ ((s.yport p).up = true) ∧ ((s.yport p).nak = true)) ∧
    (∃ (p : Fin 4) (s : State), (s.yLive p = true) ∧ ((s.yport p).up = true)) :=
  ⟨⟨0, live.setYport 0 { txSeq := 4, rxSeq := 5, credit := 3 }, by decide⟩,
    ⟨0, live.setYport 0 { locked := true }, by decide⟩,
    ⟨0, sp 4 [0], 77, live.setYport 0 { locked := true }, by decide⟩,
    ⟨0, live.setYport 0 { locked := true }, by decide⟩,
    ⟨0, 1, yUp { bound := true }, ⟨by decide, by decide, Or.inl (by decide)⟩⟩,
    ⟨0, sp 0x10 [1, 2], yUp {}, by decide⟩,
    ⟨0, sp 0x12 [1, 2], yUp {}, by decide⟩,
    ⟨0, sp 0x11 [1, 2], yUp { replay := [(65535, 0, [1]), (0, 0, [2])] }, by decide⟩,
    ⟨0, yUp { replay := [(0, 0, [1]), (1, 0, [2])] }, by decide⟩,
    ⟨0, yUp { nak := true }, by decide⟩,
    ⟨0, yUp {}, by decide⟩⟩

theorem witness_PeerFlitsAndLines :
    (∃ (p : Fin 4) (b : Bytes) (m : BindMsg) (s : State), (SporeComes s p 1 true b) ∧ ((b.length - 24) / 48 = 1) ∧ ((s.yport p).peer = some m)) ∧
    (∃ (p : Fin 4) (s : State), (s.yLive p = true) ∧ ((s.yport p).up = true) ∧ ((s.yport p).txFlits ≠ []) ∧ ((s.yport p).credit ≠ 0)) ∧
    (∃ (p : Fin 4) (route : B8) (v : Nat) (f : Flit) (m : List (Nat × Nat × Bool × Flit)) (s : State), ((s.yport p).rxFlits = (route.toNat, v, false, f) :: m) ∧ (((s.field (fieldOfYallek p)).fcyc - BitVec.ofNat 16 v).toNat < 32768)) ∧
    (∃ (p : Fin 4) (b : Bytes) (route : B8) (stamp : B16) (c : CutDecl) (s : State), (SporeComes s p 0x13 false b) ∧ (s.cut p route.toNat = some c) ∧ (c.sync = true) ∧ (Tab.get none (s.yport p).align route.toNat = none) ∧ ((Tab.get [] (s.yport p).probes route.toNat).length < 63)) ∧
    (∃ (p : Fin 4) (b : Bytes) (st : Nat) (f : LinkFrame) (s : State), (SporeComes s p 2 true b) ∧ (st = byteAt (sporeBody b) 0) ∧ (st < 64) ∧ ((s.strm st).ctx.isSome = true) ∧ ((s.strm st).source = 0) ∧ ((s.head (st / 4)).state = .absent) ∧ ((s.strm st).frame = some f) ∧ (f.fseq = BitVec.ofNat 16 (fieldLe (sporeBody b) 4 2)) ∧ (fieldLe (sporeBody b) 16 4 = 0) ∧ ((s.strm st).untaken < (s.strm st).dropD) ∧ ((((sporeBody b).drop 24).take (fieldLe (sporeBody b) 20 2)).length < (s.sdecl st).width * (match (s.sdecl st).edge with | some e => e.cin | none => 1) * 2)) :=
  ⟨⟨0, sp 1 (List.replicate 48 1), bm, yBound { peer := some bm, bound := true }, by decide⟩,
    ⟨0, yUp { txFlits := List.replicate 22 (4, 0, {}), credit := 21 }, by decide⟩,
    ⟨0, 4, 7, {}, [], (yBound { rxFlits := [(4, 7, false, {})] }).setField (fieldOfYallek 0) { fcyc := 9 }, by decide⟩,
    ⟨0, sp 0x13 [4], 4, 3, { route := 4, port := 0, sync := true }, yBound {}, by decide⟩,
    ⟨0, sp 2 ([0, 0, 3, 0, 7, 0, 0, 0] ++ toLe 8 99 ++ toLe 4 0 ++ toLe 4 2 ++ [8, 9]), 0, { fseq := 7 }, ((yBound {}).setCtx 0 (some (cx {}))).setStrm 0 { ctx := some 0, admitting := true, frame := some { fseq := 7 } }, by decide⟩⟩

theorem witness_PeersLockAndBind :
    (∃ (p : Fin 4) (b : Bytes) (fn : Fin 64) (l : B8) (s : State), (SporeComes s p 3 true b) ∧ (l.toNat < 48) ∧ ((s.lock l.toNat).holder = 0)) ∧
    (∃ (p : Fin 4) (b : Bytes) (fn : Fin 64) (l : B8) (s : State), (SporeComes s p 3 true b) ∧ (l.toNat < 48) ∧ ((s.lock l.toNat).holder ≠ 0) ∧ ((s.lock l.toNat).holder ≠ peerCode p fn) ∧ ((s.lock l.toNat).waiters.length < 8)) ∧
    (∃ (p : Fin 4) (b : Bytes) (fn : Fin 64) (l : B8) (s : State), (SporeComes s p 3 true b) ∧ (l.toNat < 48) ∧ ((s.lock l.toNat).holder = peerCode p fn)) ∧
    (∃ (p : Fin 4) (b : Bytes) (m : BindMsg) (o : Nat) (l : LinkDecl) (s : State), (SporeComes s p 4 true b) ∧ ((s.yport p).owner = some o) ∧ (s.portLink p = some l) ∧ ((s.yport p).bindSent = true) ∧ ((s.yport p).bound = false) ∧ (l.graph = m.graph)) ∧
    (∃ (p : Fin 4) (b : Bytes) (g : B32) (o : Nat) (l : LinkDecl) (s : State), (SporeComes s p 4 true b) ∧ ((s.yport p).owner = some o) ∧ (s.portLink p = some l) ∧ (l.graph = g)) ∧
    (∃ (p : Fin 4) (b : Bytes) (s : State), SporeComes s p 4 true b) :=
  ⟨⟨0, sp 3 [], 4, 47, yUp {}, by decide⟩,
    ⟨0, sp 3 [], 4, 47, (yUp {}).setLock 47 { holder := 3 }, by decide⟩,
    ⟨0, sp 3 [], 4, 47, (yUp {}).setLock 47 { holder := peerCode 0 4, waiters := [{ code := 3, reply := none }] }, by decide⟩,
    ⟨0, sp 4 [], bm, 0, lk, yBound { bindSent := true }, by decide⟩,
    ⟨0, sp 4 [], 5, 0, lk, yBound { bindSent := true, bound := true, peer := some bm }, by decide⟩,
    ⟨0, sp 4 [], yUp { bound := true, peer := some bm }, by decide⟩⟩

theorem witness_EthernetPorts :
    (∃ (p : Fin 2) (s : State), (s.ethLive p = true) ∧ ((s.eth p).enabled = true) ∧ ((s.eth p).up = false)) ∧
    (∃ (p : Fin 2) (s : State), (s.eth p).up = true) ∧
    (∃ (p : Fin 2) (mac : B48) (ip : B32) (target : B32) (s : State), (s.ethLive p = true) ∧ ((s.eth p).up = true) ∧ (target.toNat = (s.eth p).field 8 4)) ∧
    (∃ (p : Fin 2) (mac : B48) (ip : B32) (target : B32) (s : State), target.toNat ≠ (s.eth p).field 8 4) ∧
    (∃ (p : Fin 2) (s : State), (s.ethLive p = true) ∧ ((s.eth p).up = true) ∧ ((s.eth p).field 17 1 = 0)) ∧
    (∃ (p : Fin 2) (s : State), (s.ethLive p = true) ∧ ((s.eth p).up = true)) :=
  ⟨⟨0, live.setEth 0 { enabled := true }, by decide⟩,
    ⟨0, ethUp, by decide⟩,
    ⟨0, 7, 8, 0x01010101, ethUp, by decide⟩,
    ⟨0, 7, 8, 9, ethUp, by decide⟩,
    ⟨0, live.setEth 0 { enabled := true, up := true, record := List.replicate 64 0 }, by decide⟩,
    ⟨0, ethUp, by decide⟩⟩

theorem witness_TimeBaseAndClocks :
    (∃ (r : DtbStepReq) (s : State), (s.dtb.pendingStep = some r) ∧ (r.tApply.toNat ≤ s.dtb.now.toNat) ∧ (s.boot.phase ≠ .por)) ∧
    (∃ (r : DtbStepReq) (s : State), (s.dtb.pendingStep = some r) ∧ (s.dtb.now.toNat < r.tApply.toNat)) ∧
    (∃ (s : State), (s.boot.phase ≠ .por) ∧ (s.dtb.slew = 0)) ∧
    (∃ (s : State), s.dtb.slew ≠ 0) ∧
    (∃ (s : State), s.boot.phase ≠ .por) ∧
    (∃ (now : B64), now.toNat < 2 ^ 64 - 5000) ∧
    (∃ (p : Fin 2) (t1 : B64) (t2 : B64) (s : State), (s.ethLive p = true) ∧ ((s.eth p).up = true) ∧ ((s.eth p).master.isSome = true) ∧ (s.dtb.mode ≠ .ptp)) ∧
    (∃ (p : Fin 2) (t1 : B64) (t2 : B64) (s : State), (s.ethLive p = true) ∧ ((s.eth p).up = true) ∧ ((s.eth p).master.isSome = true) ∧ (s.dtb.mode = .ptp) ∧ (s.dtb.ptpPort = p.val) ∧ (((s.eth p).delay - (t2 - t1).toInt).natAbs ≤ s.dtb.threshold)) ∧
    (∃ (p : Fin 2) (t3 : B64) (t4 : B64) (s : State), (s.ethLive p = true) ∧ ((s.eth p).up = true) ∧ ((s.eth p).master.isSome = true)) ∧
    (∃ (p : Fin 2) (domain : B8) (m : PtpMaster) (s : State), (s.ethLive p = true) ∧ ((s.eth p).up = true) ∧ (domain.toNat = (s.eth p).field 16 1)) ∧
    (∃ (p : Fin 2) (s : State), (s.dtb.mode = .ptp) ∧ (s.dtb.ptpPort = p.val) ∧ ((s.eth (1 - p.val)).master = none)) ∧
    (∃ (s : State), (s.dtb.ptpPort = 0) ∧ ((s.eth 0).master = none) ∧ ((s.eth 1).master.isSome = true)) ∧
    (∃ (c : Fin 17) (n : B32) (s : State), (s.boot.phase ≠ .por) ∧ (s.lostClocks.contains c.val = false) ∧ (s.part.variant.hasClock c = true) ∧ (7 ≤ c.val) ∧ (c.val < 11)) ∧
    (∃ (c : Fin 17) (n : B32) (s : State), (s.boot.phase ≠ .por) ∧ (s.lostClocks.contains c.val = false) ∧ (c.val < 4) ∧ (s.liveCtxs = [])) ∧
    (∃ (c : Fin 4) (s : State), (s.field c).target = none) ∧
    (∃ (c : Fin 17) (n : B32) (s : State), s.lostClocks.contains c.val = true) ∧
    (∃ (c : Fin 17) (s : State), (s.lostClocks.contains c.val = true) ∧ (7 ≤ c.val) ∧ (c.val < 11)) ∧
    (∃ (s : State), (s.lostClocks.contains 15 = true ∨ s.lostClocks.contains 16 = true) ∧ (s.boot.phase = .clockHold) ∧ (s.supply.shutdown = true)) :=
  ⟨⟨{ tApply := 5, delta := -3, fn := 0, pkt := none }, { live with dtb := { live.dtb with now := 9, slew := 4, pendingStep := some { tApply := 5, delta := -3, fn := 0, pkt := none } } }, by decide⟩,
    ⟨{ tApply := 15, delta := -3, fn := 0, pkt := none }, { live with dtb := { live.dtb with now := 9, slew := 4, pendingStep := some { tApply := 15, delta := -3, fn := 0, pkt := none } } }, by decide⟩,
    ⟨live, by decide⟩,
    ⟨{ live with dtb := { live.dtb with slew := 5 } }, by decide⟩,
    ⟨{ live with dtb := { live.dtb with now := 9 } }, by decide⟩,
    ⟨0, by decide⟩,
    ⟨0, 7, 9, live.setEth 0 { enabled := true, up := true, master := some m1 }, by decide⟩,
    ⟨0, 7, 9, ethPtp 5, by decide⟩,
    ⟨0, 7, 9, ethPtp 5, by decide⟩,
    ⟨0, 0, { m1 with priority1 := 4, clockId := 3 }, ethPtp 5, by decide⟩,
    ⟨0, ethPtp 5, by decide⟩,
    ⟨live.setEth 1 { master := some m1 }, by decide⟩,
    ⟨7, 3, live, by decide⟩,
    ⟨1, 3, live, by decide⟩,
    ⟨2, { live with supply := { diapause := true } }, by decide⟩,
    ⟨1, 3, { live with lostClocks := [1] }, by decide⟩,
    ⟨8, { live with lostClocks := [8] }, by decide⟩,
    ⟨{ live with lostClocks := [15], boot := { phase := .clockHold }, supply := { live.supply with shutdown := true } }, by decide⟩⟩

theorem witness_MyceliumMovesFlits :
    (∃ (site : Site) (slot : Fin 64) (o : Nat) (n : Nat) (i : Nat) (e : B16) (f : Flit) (s : State), (s.ready = true) ∧ ((s.field (fieldOfSite site)).down = false) ∧ (slot ≠ 0) ∧ (o < 4) ∧ (Tab.get 0 (s.router site).slots (o * 64 + slot) = e) ∧ ((∀ o' < 5, slotValid (Tab.get 0 (s.router site).slots (o' * 64 + slot)) = (o' == o))) ∧ (s.offer site slot (slotSrc e) (slotLane e) = some f) ∧ (s.poisons (slotOwner e) = false) ∧ (s.sealed (slotOwner e) = false) ∧ (lead site o = .router n i)) ∧
    (∃ (site : Site) (slot : Fin 64) (e : B16) (f : Flit) (s : State), (s.ready = true) ∧ ((s.field (fieldOfSite site)).down = false) ∧ (slot ≠ 0) ∧ (Tab.get 0 (s.router site).slots (256 + slot) = e) ∧ ((∀ o < 5, slotValid (Tab.get 0 (s.router site).slots (o * 64 + slot)) = (o == 4))) ∧ (s.offer site slot (slotSrc e) (slotLane e) = some f) ∧ (s.poisons (slotOwner e) = false) ∧ (s.sealed (slotOwner e) = false)) ∧
    (∃ (site : Site) (slot : Fin 64) (o : Nat) (s : State), (s.ready = true) ∧ ((s.field (fieldOfSite site)).down = false) ∧ (slot ≠ 0) ∧ (o < 5) ∧ (s.sealed (slotOwner (Tab.get 0 (s.router site).slots (o * 64 + slot))) = true) ∧ ((∀ o' < 5, slotValid (Tab.get 0 (s.router site).slots (o' * 64 + slot)) = (o' == o)))) ∧
    (∃ (site : Site) (slot : Fin 64) (i : Nat) (s : State), (s.ready = true) ∧ ((s.field (fieldOfSite site)).down = false) ∧ (slot ≠ 0) ∧ (i < 4) ∧ ((∀ o < 5, slotValid (Tab.get 0 (s.router site).slots (o * 64 + slot)) = false)) ∧ (gateInto site i = none) ∧ ((i = 3 → edgeAt site = none))) ∧
    (∃ (site : Site) (ecc : Ecc) (q : Nat) (o : Nat) (slot : Nat) (f : Flit) (g : Flit) (fixed : Bool) (par : Bool) (m : List (Nat × Nat × Nat × Flit)) (s : State), ((s.router site).eject = (q, o, slot, f) :: m) ∧ (s.works site = true) ∧ (kindOf site ≠ .p) ∧ (arrive (s.epoch (if (s.unit site).inCtx then (s.unit site).owner else o)) ecc f = .take g fixed par) ∧ ((Tab.get [] (s.unit site).queues q).length < 64)) ∧
    (∃ (site : Site) (n : Nat) (f : Flit) (g : Flit) (fixed : Bool) (par : Bool) (m : List (Bool × Flit)) (s : State), ((s.modes.hazard && s.modes.hazFault) = false) ∧ ((s.unit site).side = (true, f) :: m) ∧ ((s.unit n).rot = none) ∧ (site.val % 16 ≠ 15) ∧ (n = site.val + 1) ∧ (s.works n = true) ∧ (kindOf n ≠ .p) ∧ (kindOf n ≠ .t) ∧ (arrive (s.epoch (if (s.unit n).inCtx then (s.unit n).owner else (s.unit site).owner)) .clean f = .take g fixed par) ∧ ((Tab.get [] (s.unit n).queues 0).length < 64)) ∧
    (∃ (site : Site) (n : Nat) (f : Flit) (g : Flit) (fixed : Bool) (par : Bool) (m : List (Bool × Flit)) (s : State), ((s.modes.hazard && s.modes.hazFault) = false) ∧ ((s.unit site).side = (false, f) :: m) ∧ ((s.unit n).rot = none) ∧ (site.val % 16 ≠ 0) ∧ (n = site.val - 1) ∧ (s.works n = true) ∧ (kindOf n ≠ .p) ∧ (arrive (s.epoch (if (s.unit n).inCtx then (s.unit n).owner else (s.unit site).owner)) .clean f = .take g fixed par) ∧ ((Tab.get [] (s.unit n).queues 0).length < 64)) ∧
    (∃ (g : Fin 112) (o : Nat) (k : Nat) (f : Flit) (m : List (Nat × Nat × Flit)) (s : State), ((s.router (gateWriter g).1).border = (o, k, f) :: m) ∧ (o = (gateWriter g).2) ∧ (flitKind f ≠ kBubble) ∧ ((s.gate g).q.length + (s.gate g).freed < 96)) ∧
    (∃ (g : Fin 112) (a : List (Flit × Bool)) (b : List (Flit × Bool)) (f : Flit) (s : State), ((s.gate g).q = a ++ (f, false) :: b) ∧ ((∀ x ∈ a, x.2 = true))) ∧
    (∃ (g : Fin 112) (s : State), (s.gate g).freed ≠ 0) ∧
    (∃ (site : Site) (lane : Fin 4) (n : Fin 64) (c : Nat) (m : Nat) (s : State), (s.units.find? (fun e : Nat × Machine.Unit => decide (0 < Tab.get 0 e.2.backs (4 * site.val + lane.val))) = some (c, s.unit c)) ∧ (m = min n.val (Tab.get 0 (s.unit c).backs (4 * site.val + lane.val)))) ∧
    (∃ (site : Site) (lane : Fin 4) (n : Fin 64) (s : State), (∀ e ∈ s.units, Tab.get 0 e.2.backs (4 * site.val + lane.val) = 0)) :=
  ⟨⟨33, 5, 1, 34, 3, 0xC000, fl 1 2 3, (live.setRouter 33 { slots := [(69, 0xC000)] }).setUnit 33 { lanes := [(0, [fl 1 2 3])] }, by decide⟩,
    ⟨33, 5, 0xC000, fl 1 2 3, (live.setRouter 33 { slots := [(261, 0xC000)] }).setUnit 33 { lanes := [(0, [fl 1 2 3])] }, by decide⟩,
    ⟨33, 5, 1, ((live.setRouter 33 { slots := [(69, 0xC000)] }).setUnit 33 { lanes := [(0, [fl 1 2 3])] }).setCtx (slotOwner 0xC000) (some { cx {} with state := .eclosing, ecl := some { ecl0 with started := true } }), by decide⟩,
    ⟨33, 5, 1, live.setRouter 33 { regs := [(1, [(4, fl 1 2 3)])] }, by decide⟩,
    ⟨33, .clean, 1, 0, 5, fl 1 2 3, fl 1 2 3, false, false, [], live.setRouter 33 { eject := [(1, 0, 5, fl 1 2 3)] }, by decide⟩,
    ⟨33, 34, fl 1 2 3, fl 1 2 3, false, false, [], live.setUnit 33 { side := [(true, fl 1 2 3)] }, by decide⟩,
    ⟨33, 32, fl 1 2 3, fl 1 2 3, false, false, [], live.setUnit 33 { side := [(false, fl 1 2 3)] }, by decide⟩,
    ⟨0, 1, 5, fl 1 2 3, [], (live.setRouter 15 { border := [(1, 5, fl 1 2 3)] }).setGate 0 { q := List.replicate 71 (fl 0 0 0, true) }, by decide⟩,
    ⟨0, [(fl 0 0 0, true)], [(fl 2 0 0, false)], fl 1 0 0, live.setGate 0 { q := [(fl 0 0 0, true), (fl 1 0 0, false), (fl 2 0 0, false)] }, by decide⟩,
    ⟨0, live.setGate 0 { freed := 1, hold := true, q := List.replicate 64 (fl 0 0 0, true) }, by decide⟩,
    ⟨33, 2, 5, 34, 1, (live.setUnit 33 { credits := [(1, 3), (2, 38)] }).setUnit 34 { backs := [(134, 1)] }, by decide⟩,
    ⟨33, 2, 5, live.setUnit 33 { credits := [(1, 3), (2, 38)] }, by decide⟩⟩

theorem witness_GroupsStall :
    (∃ (g : Owner) (s : State), ((s.group g).asserted = false) ∧ ((s.group g).masked = false) ∧ (s.groupWanted g = true) ∧ (s.running g = true)) ∧
    (∃ (site : Site) (g : Nat) (s : State), (s.memberGroup (.unit site) = some g) ∧ ((s.group g).asserted = true) ∧ ((s.group g).masked = false)) ∧
    (∃ (st : StreamId) (g : Nat) (s : State), (s.memberGroup (.stream st) = some g) ∧ ((s.group g).asserted = true) ∧ ((s.group g).masked = false)) ∧
    (∃ (i : Fin 112) (g : Nat) (s : State), (s.memberGroup (.gate i) = some g) ∧ ((s.group g).asserted = true) ∧ ((s.group g).masked = false)) ∧
    (∃ (g : Owner) (s : State), (s.group g).asserted = true) ∧
    (∃ (site : Site) (cycles : B64) (g : Nat) (s : State), (s.memberGroup (.unit site) = some g) ∧ ((s.group g).asserted = false) ∧ ((s.unit site).frozen = true) ∧ ((s.modes.hazard && s.modes.hazFault) = false)) ∧
    (∃ (i : Fin 112) (cycles : B64) (g : Nat) (s : State), (s.memberGroup (.gate i) = some g) ∧ ((s.group g).asserted = false)) ∧
    (∃ (g : Owner) (x : Nat) (n : Nat) (s : State), ((s.group g).off = some (x, n)) ∧ ((s.group g).asserted = false)) :=
  ⟨⟨0, ((uS 0 {}).setGroup 0 {}).setOrigin 3 { en := true, req := true, group := 0 }, by decide⟩,
    ⟨0, 0, (uS 0 (un [] {})).setGroup 0 { asserted := true }, by decide⟩,
    ⟨0, 0, (live.setStrm 0 { ctx := some 0 }).setGroup 0 { asserted := true }, by decide⟩,
    ⟨0, 0, (live.setGate 0 { owner := some 0 }).setGroup 0 { asserted := true }, by decide⟩,
    ⟨0, live.setGroup 0 { asserted := true, minHold := true }, by decide⟩,
    ⟨0, 7, 0, uS 0 (un [] { frozen := true, stallCyc := 4 }), by decide⟩,
    ⟨0, 7, 0, live.setGate 0 { owner := some 0, frozen := true }, by decide⟩,
    ⟨0, 30, 2, live.setGroup 0 { off := some (30, 2) }, by decide⟩⟩

theorem witness_ProgramsRunAndQueuesPop :
    (∃ (site : Site) (w : Waits) (pc : Nat) (word : Nat) (v : Machine.Unit) (s : State), (Issues s site w pc word v) ∧ (fOp word = 0x00)) ∧
    (∃ (site : Site) (w : Waits) (pc : Nat) (word : Nat) (v : Machine.Unit) (s : State), (Issues s site w pc word v) ∧ (fOp word = 0x11) ∧ (v.synced word = true)) ∧
    (∃ (site : Site) (w : Waits) (pc : Nat) (word : Nat) (v : Machine.Unit) (s : State), (Issues s site w pc word v) ∧ (fOp word = 0x0E)) ∧
    (∃ (site : Site) (w : Waits) (pc : Nat) (word : Nat) (l : Nat) (m : List Nat) (c : Loop) (v : Machine.Unit) (s : State), (Issues s site w pc word v) ∧ (fOp word = 0x0F) ∧ (v.loops = l :: m) ∧ (Tab.get { index := 0, count := 0, start := 0, finish := 0 } v.lc l = c)) ∧
    (∃ (site : Site) (w : Waits) (pc : Nat) (word : Nat) (q : Nat) (e : QEnt) (v : Machine.Unit) (s : State), (Issues s site w pc word v) ∧ (fOp word = 0x02) ∧ (q < 3) ∧ (bits word 45 3 = 2 ^ q) ∧ (v.bound q = some e) ∧ (flitKind e.flit ≠ kEof)) ∧
    (∃ (site : Site) (w : Waits) (pc : Nat) (word : Nat) (q : Nat) (e : QEnt) (v : Machine.Unit) (s : State), (Issues s site w pc word v) ∧ (fOp word = 0x03) ∧ (bits word 43 4 = 8 + q) ∧ (q < 3) ∧ (fFlag word 0 = false) ∧ (v.bound q = some e) ∧ (flitKind e.flit = kData)) ∧
    (∃ (site : Site) (w : Waits) (pc : Nat) (word : Nat) (g : Nat) (v : Machine.Unit) (s : State), (Issues s site w pc word v) ∧ (fOp word = 0x03) ∧ (fFlag word 0 = true) ∧ (g = (if bit word 47 then 1 else 0)) ∧ ((Tab.get [] v.gens g).length < 2)) :=
  ⟨⟨0, wt0, 0, iw 0 [(0, 9)], vO (uS 0 (un [iw 0 [(0, 9)]] {})) 0 (iw 0 [(0, 9)]) wt0, uS 0 (un [iw 0 [(0, 9)]] {}), ⟨⟨_, by decide, by decide, by decide, by decide, rfl, rfl, by decide⟩, by decide⟩⟩,
    ⟨0, wt0, 0, iw 0x11 [(46, 1)], vO (uS 0 (un [iw 0x11 [(46, 1)]] {})) 0 (iw 0x11 [(46, 1)]) wt0, uS 0 (un [iw 0x11 [(46, 1)]] {}), ⟨⟨_, by decide, by decide, by decide, by decide, rfl, rfl, by decide⟩, by decide⟩⟩,
    ⟨0, wt0, 0, iw 0x0E [(46, 2), (30, 3), (20, 1)], vO (uS 0 (un [iw 0x0E [(46, 2), (30, 3), (20, 1)], iw 0x0F []] {})) 0 (iw 0x0E [(46, 2), (30, 3), (20, 1)]) wt0, uS 0 (un [iw 0x0E [(46, 2), (30, 3), (20, 1)], iw 0x0F []] {}), ⟨⟨_, by decide, by decide, by decide, by decide, rfl, rfl, by decide⟩, by decide⟩⟩,
    ⟨0, wt0, 1, iw 0x0F [], 2, [], { index := 0, count := 2, start := 1, finish := 1 }, vO (uS 0 (un [0, iw 0x0F []] { pc := 1, loops := [2], lc := [(2, { index := 0, count := 2, start := 1, finish := 1 })] })) 0 (iw 0x0F []) wt0, uS 0 (un [0, iw 0x0F []] { pc := 1, loops := [2], lc := [(2, { index := 0, count := 2, start := 1, finish := 1 })] }), ⟨⟨_, by decide, by decide, by decide, by decide, rfl, rfl, by decide⟩, by decide⟩⟩,
    ⟨0, wt0, 0, iw 2 [(45, 2)], 1, ent (fl 1 2 3), vO (uS 0 (un [iw 2 [(45, 2)]] { queues := [(1, [ent (fl 1 2 3)])] })) 0 (iw 2 [(45, 2)]) wt0, uS 0 (un [iw 2 [(45, 2)]] { queues := [(1, [ent (fl 1 2 3)])] }), ⟨⟨_, by decide, by decide, by decide, by decide, rfl, rfl, by decide⟩, by decide⟩⟩,
    ⟨0, wt0, 0, iw 3 [(43, 9), (47, 1)], 1, ent (fl 1 2 3), vO (uS 0 (un [iw 3 [(43, 9), (47, 1)]] { queues := [(1, [ent (fl 1 2 3)])] })) 0 (iw 3 [(43, 9), (47, 1)]) wt0, uS 0 (un [iw 3 [(43, 9), (47, 1)]] { queues := [(1, [ent (fl 1 2 3)])] }), ⟨⟨_, by decide, by decide, by decide, by decide, rfl, rfl, by decide⟩, by decide⟩⟩,
    ⟨1, wt0, 0, iw 3 [(48, 1), (47, 1), (40, 2), (28, 4)], 1, vO (uS 1 (un [iw 3 [(48, 1), (47, 1), (40, 2), (28, 4)]] {})) 1 (iw 3 [(48, 1), (47, 1), (40, 2), (28, 4)]) wt0, uS 1 (un [iw 3 [(48, 1), (47, 1), (40, 2), (28, 4)]] {}), ⟨⟨_, by decide, by decide, by decide, by decide, rfl, rfl, by decide⟩, by decide⟩⟩⟩

theorem witness_Moves :
    (∃ (site : Site) (w : Waits) (pc : Nat) (word : Nat) (v : Machine.Unit) (s : State), (Issues s site w pc word v) ∧ (fOp word = 0x0D) ∧ (bits word 46 2 = 1)) ∧
    (∃ (site : Site) (w : Waits) (pc : Nat) (word : Nat) (v : Machine.Unit) (s : State), (Issues s site w pc word v) ∧ (fOp word = 0x0D) ∧ (bits word 46 2 = 2)) ∧
    (∃ (site : Site) (w : Waits) (pc : Nat) (word : Nat) (v : Machine.Unit) (s : State), (Issues s site w pc word v) ∧ (fOp word = 0x0D) ∧ (bits word 46 2 = 0) ∧ (kindOf site = .v) ∧ (bits word 42 4 < 8) ∧ (bits word 38 4 < 8)) ∧
    (∃ (site : Site) (w : Waits) (pc : Nat) (word : Nat) (q : Nat) (v : Machine.Unit) (s : State), (Issues s site w pc word v) ∧ (fOp word = 0x0D) ∧ (bits word 46 2 = 3) ∧ (kindOf site = .s) ∧ (v.boundQ = some q)) :=
  ⟨⟨0, wt0, 0, iw 0x0D [(46, 1), (42, 3), (0, 7)], vO (uS 0 (un [iw 0x0D [(46, 1), (42, 3), (0, 7)]] {})) 0 (iw 0x0D [(46, 1), (42, 3), (0, 7)]) wt0, uS 0 (un [iw 0x0D [(46, 1), (42, 3), (0, 7)]] {}), ⟨⟨_, by decide, by decide, by decide, by decide, rfl, rfl, by decide⟩, by decide⟩⟩,
    ⟨0, wt0, 0, iw 0x0D [(46, 2), (42, 3), (38, 4), (0, 7)], vO (uS 0 (un [iw 0x0D [(46, 2), (42, 3), (38, 4), (0, 7)]] { x := [(4, 0xFFFFFFFF)] })) 0 (iw 0x0D [(46, 2), (42, 3), (38, 4), (0, 7)]) wt0, uS 0 (un [iw 0x0D [(46, 2), (42, 3), (38, 4), (0, 7)]] { x := [(4, 0xFFFFFFFF)] }), ⟨⟨_, by decide, by decide, by decide, by decide, rfl, rfl, by decide⟩, by decide⟩⟩,
    ⟨6, wt0, 0, iw 0x0D [(42, 3), (38, 4)], vO (uS 6 (un [iw 0x0D [(42, 3), (38, 4)]] { h := [(4, [0x3C00, 0xBC00])] })) 6 (iw 0x0D [(42, 3), (38, 4)]) wt0, uS 6 (un [iw 0x0D [(42, 3), (38, 4)]] { h := [(4, [0x3C00, 0xBC00])] }), ⟨⟨_, by decide, by decide, by decide, by decide, rfl, rfl, by decide⟩, by decide⟩⟩,
    ⟨1, wt0, 0, iw 0x0D [(46, 3), (43, 1)], 0, vO (uS 1 (un [iw 0x0D [(46, 3), (43, 1)]] { gills := [(1, {})], queues := [(0, [ent (fl 0 0 0)])] })) 1 (iw 0x0D [(46, 3), (43, 1)]) wt0, uS 1 (un [iw 0x0D [(46, 3), (43, 1)]] { gills := [(1, {})], queues := [(0, [ent (fl 0 0 0)])] }), ⟨⟨_, by decide, by decide, by decide, by decide, rfl, rfl, by decide⟩, by decide⟩⟩⟩

theorem witness_BlocksReduce :
    (∃ (site : Site) (w : Waits) (pc : Nat) (word : Nat) (v : Machine.Unit) (s : State), (Issues s site w pc word v) ∧ (fOp word = 0x04)) ∧
    (∃ (site : Site) (w : Waits) (pc : Nat) (word : Nat) (v : Machine.Unit) (s : State), (Issues s site w pc word v) ∧ (fOp word = 0x06) ∧ (kindOf site = .m) ∧ (fFlag word 0 = false)) ∧
    (∃ (site : Site) (w : Waits) (pc : Nat) (word : Nat) (v : Machine.Unit) (s : State), (Issues s site w pc word v) ∧ (fOp word = 0x07)) ∧
    (∃ (site : Site) (w : Waits) (pc : Nat) (word : Nat) (b : Block) (v : Machine.Unit) (s : State), (Issues s site w pc word v) ∧ (fOp word = 0x05) ∧ (v.block = some b) ∧ (b.psum = none) ∧ (b.done + 1 < b.k)) ∧
    (∃ (site : Site) (w : Waits) (pc : Nat) (word : Nat) (r : Nat) (b : Block) (v : Machine.Unit) (s : State), (Issues s site w pc word v) ∧ (fOp word = 0x05) ∧ (v.block = some b) ∧ (b.psum = none) ∧ (b.done + 1 = b.k) ∧ (b.req = some r) ∧ (v.drainFree = true)) ∧
    (∃ (site : Site) (w : Waits) (pc : Nat) (word : Nat) (b : Block) (v : Machine.Unit) (s : State), (Issues s site w pc word v) ∧ (fOp word = 0x08) ∧ (v.block = some b) ∧ (b.done < b.k)) ∧
    (∃ (site : Site) (b : Block) (s : State), (s.mayIssue site = true) ∧ ((s.unit site).drain = some b) ∧ (b.psum = none) ∧ ((s.modes.hazard && s.modes.hazFault) = false)) :=
  ⟨⟨0, wt0, 0, iw 4 [(38, 9)], vO (uS 0 (un [iw 4 [(38, 9)]] { queues := [(2, [ent (fl 0 0 0)])] })) 0 (iw 4 [(38, 9)]) wt0, uS 0 (un [iw 4 [(38, 9)]] { queues := [(2, [ent (fl 0 0 0)])] }), ⟨⟨_, by decide, by decide, by decide, by decide, rfl, rfl, by decide⟩, by decide⟩⟩,
    ⟨0, wt0, 0, iw 6 [(32, 2), (22, 8)], vO (uS 0 (un [iw 6 [(32, 2), (22, 8)]] {})) 0 (iw 6 [(32, 2), (22, 8)]) wt0, uS 0 (un [iw 6 [(32, 2), (22, 8)]] {}), ⟨⟨_, by decide, by decide, by decide, by decide, rfl, rfl, by decide⟩, by decide⟩⟩,
    ⟨0, wt0, 0, iw 7 [(40, 6)], vO (uS 0 (un [iw 7 [(40, 6)]] {})) 0 (iw 7 [(40, 6)]) wt0, uS 0 (un [iw 7 [(40, 6)]] {}), ⟨⟨_, by decide, by decide, by decide, by decide, rfl, rfl, by decide⟩, by decide⟩⟩,
    ⟨0, wt0, 0, iw 5 [], { k := 3, done := 1 }, vO (uS 0 (un [iw 5 []] { block := some { k := 3, done := 1 }, queues := [(0, [ent (fl 0 0 0)])] })) 0 (iw 5 []) wt0, uS 0 (un [iw 5 []] { block := some { k := 3, done := 1 }, queues := [(0, [ent (fl 0 0 0)])] }), ⟨⟨_, by decide, by decide, by decide, by decide, rfl, rfl, by decide⟩, by decide⟩⟩,
    ⟨0, wt0, 0, iw 5 [], iw 8 [], { k := 3, done := 2, req := some (iw 8 []) }, vO (uS 0 (un [iw 5 []] { block := some { k := 3, done := 2, req := some (iw 8 []) }, queues := [(0, [ent (fl 0 0 0)])] })) 0 (iw 5 []) wt0, uS 0 (un [iw 5 []] { block := some { k := 3, done := 2, req := some (iw 8 []) }, queues := [(0, [ent (fl 0 0 0)])] }), ⟨⟨_, by decide, by decide, by decide, by decide, rfl, rfl, by decide⟩, by decide⟩⟩,
    ⟨0, wt0, 0, iw 8 [(42, 1)], { k := 3, done := 1 }, vO (uS 0 (un [iw 8 [(42, 1)]] { block := some { k := 3, done := 1 } })) 0 (iw 8 [(42, 1)]) wt0, uS 0 (un [iw 8 [(42, 1)]] { block := some { k := 3, done := 1 } }), ⟨⟨_, by decide, by decide, by decide, by decide, rfl, rfl, by decide⟩, by decide⟩⟩,
    ⟨0, { k := 1, done := 1, c0 := 0, sf8 := some false, steps := [(5, 6)], req := some (iw 8 [(46, 1)]) }, uS 0 (un [0] { drain := some { k := 1, done := 1, c0 := 0, sf8 := some false, steps := [(5, 6)], req := some (iw 8 [(46, 1)]) } }), by decide⟩⟩

theorem witness_VectorUnitsCompute :
    (∃ (site : Site) (w : Waits) (pc : Nat) (word : Nat) (lo : Nat) (v : Machine.Unit) (s : State), (Issues s site w pc word v) ∧ (fOp word = 0x09) ∧ (bits word 44 4 < 8) ∧ (lo = hiLane word)) ∧
    (∃ (site : Site) (w : Waits) (pc : Nat) (word : Nat) (lo : Nat) (v : Machine.Unit) (s : State), (Issues s site w pc word v) ∧ (fOp word = 0x0B) ∧ (bits word 44 4 < 8) ∧ (lo = hiLane word)) ∧
    (∃ (site : Site) (w : Waits) (pc : Nat) (word : Nat) (lo : Nat) (v : Machine.Unit) (s : State), (Issues s site w pc word v) ∧ (fOp word = 0x0C) ∧ (12 ≤ bits word 44 4) ∧ (lo = hiLane word)) ∧
    (∃ (site : Site) (w : Waits) (pc : Nat) (word : Nat) (k : Nat) (v : Machine.Unit) (s : State), (Issues s site w pc word v) ∧ (fOp word = 0x0A) ∧ (bits word 42 2 < 2) ∧ (12 ≤ bits word 44 4) ∧ (k = (if bit word 41 then 3 else 2)) ∧ (v.rot = none)) ∧
    (∃ (site : Site) (w : Waits) (pc : Nat) (word : Nat) (v : Machine.Unit) (s : State), (Issues s site w pc word v) ∧ (fOp word = 0x0A) ∧ (bits word 42 2 = 2) ∧ (v.rot = none)) ∧
    (∃ (site : Site) (w : Waits) (pc : Nat) (word : Nat) (v : Machine.Unit) (s : State), (Issues s site w pc word v) ∧ (fOp word = 0x10) ∧ (kindOf site = .v) ∧ ((bits word 42 4 < 8 ∨ 12 ≤ bits word 42 4)) ∧ (bits word 39 3 = kData) ∧ (fFlag word 1 = false) ∧ (fFlag word 2 = false) ∧ (v.laneRoom (bits word 46 2) 1 = true)) ∧
    (∃ (site : Site) (w : Waits) (pc : Nat) (word : Nat) (q : Nat) (v : Machine.Unit) (s : State), (Issues s site w pc word v) ∧ (fOp word = 0x10) ∧ (kindOf site ≠ .v) ∧ (bits word 42 4 = 8 + q) ∧ (q < 3) ∧ (v.laneRoom (bits word 46 2) (emitCount site word) = true) ∧ (fFlag word 1 = false)) ∧
    (∃ (site : Site) (w : Waits) (pc : Nat) (word : Nat) (chunk : Nat) (v : Machine.Unit) (s : State), (Issues s site w pc word v) ∧ (fOp word = 0x14) ∧ (v.laneRoom (bits word 46 2) 1 = true) ∧ (v.rot = none) ∧ (chunk = (v.key (bits word 35 4)).2.2.getD 0)) ∧
    (∃ (site : Site) (w : Waits) (pc : Nat) (word : Nat) (v : Machine.Unit) (u : Machine.Unit) (c : Cur) (r : RotRun) (s : State), (Issues s site w pc word v) ∧ (fOp word = 0x13) ∧ (v.laneRoom (bits word 46 2) 1 = true) ∧ (v.rot = none) ∧ (v.rotCur word = some c) ∧ (u = (issueState s site v).unit site) ∧ ((Unit.rotTake 64 { u with rot := some (u.rotStart word c), cur := c }).rot = some r)) :=
  ⟨⟨6, wt0, 0, iw 9 [(44, 3), (40, 2), (38, 0)], 0, (vO (uS 6 (un [iw 9 [(44, 3), (40, 2), (38, 0)]] { h := [(2, [0x3C00])] })) 6 (iw 9 [(44, 3), (40, 2), (38, 0)]) (wt0 : Waits)), (uS 6 (un [iw 9 [(44, 3), (40, 2), (38, 0)]] { h := [(2, [0x3C00])] })), ⟨⟨_, by decide, by decide, by decide, by decide, rfl, rfl, by decide⟩, by decide⟩⟩,
    ⟨6, wt0, 0, iw 0x0B [(44, 3), (40, 2), (36, 2)], 0, (vO (uS 6 (un [iw 0x0B [(44, 3), (40, 2), (36, 2)]] { h := [(2, [0x3C00])] })) 6 (iw 0x0B [(44, 3), (40, 2), (36, 2)]) (wt0 : Waits)), (uS 6 (un [iw 0x0B [(44, 3), (40, 2), (36, 2)]] { h := [(2, [0x3C00])] })), ⟨⟨_, by decide, by decide, by decide, by decide, rfl, rfl, by decide⟩, by decide⟩⟩,
    ⟨6, wt0, 0, iw 0x0C [(44, 13), (40, 2), (36, 2), (48, 1)], 32, (vO (uS 6 (un [iw 0x0C [(44, 13), (40, 2), (36, 2), (48, 1)]] { h := [(2, [0x3C00])] })) 6 (iw 0x0C [(44, 13), (40, 2), (36, 2), (48, 1)]) (wt0 : Waits)), (uS 6 (un [iw 0x0C [(44, 13), (40, 2), (36, 2), (48, 1)]] { h := [(2, [0x3C00])] })), ⟨⟨_, by decide, by decide, by decide, by decide, rfl, rfl, by decide⟩, by decide⟩⟩,
    ⟨6, wt0, 0, iw 0x0A [(44, 13), (42, 1), (40, 0)], 2, (vO (uS 6 (un [iw 0x0A [(44, 13), (42, 1), (40, 0)]] { row := [(0, [[0x3C00, 0x4000], [0x3C00]])] })) 6 (iw 0x0A [(44, 13), (42, 1), (40, 0)]) (wt0 : Waits)), (uS 6 (un [iw 0x0A [(44, 13), (42, 1), (40, 0)]] { row := [(0, [[0x3C00, 0x4000], [0x3C00]])] })), ⟨⟨_, by decide, by decide, by decide, by decide, rfl, rfl, by decide⟩, by decide⟩⟩,
    ⟨6, wt0, 0, iw 0x0A [(44, 3), (42, 2)], (vO (uS 6 (un [iw 0x0A [(44, 3), (42, 2)]] { h := [(2, [0x3C00])] })) 6 (iw 0x0A [(44, 3), (42, 2)]) (wt0 : Waits)), (uS 6 (un [iw 0x0A [(44, 3), (42, 2)]] { h := [(2, [0x3C00])] })), ⟨⟨_, by decide, by decide, by decide, by decide, rfl, rfl, by decide⟩, by decide⟩⟩,
    ⟨6, wt0, 0, iw 0x10 [(46, 1), (42, 2), (39, 1)], (vO (uS 6 (un [iw 0x10 [(46, 1), (42, 2), (39, 1)]] { h := [(2, [0x3C00])] })) 6 (iw 0x10 [(46, 1), (42, 2), (39, 1)]) (wt0 : Waits)), (uS 6 (un [iw 0x10 [(46, 1), (42, 2), (39, 1)]] { h := [(2, [0x3C00])] })), ⟨⟨_, by decide, by decide, by decide, by decide, rfl, rfl, by decide⟩, by decide⟩⟩,
    ⟨0, wt0, 0, iw 0x10 [(46, 1), (42, 8), (39, 0)], 0, (vO (uS 0 (un [iw 0x10 [(46, 1), (42, 8), (39, 0)]] { queues := [(0, [ent (fl 0 0 0)])] })) 0 (iw 0x10 [(46, 1), (42, 8), (39, 0)]) (wt0 : Waits)), (uS 0 (un [iw 0x10 [(46, 1), (42, 8), (39, 0)]] { queues := [(0, [ent (fl 0 0 0)])] })), ⟨⟨_, by decide, by decide, by decide, by decide, rfl, rfl, by decide⟩, by decide⟩⟩,
    ⟨6, wt0, 0, iw 0x14 [(46, 1)], 0, (vO (uS 6 (un [iw 0x14 [(46, 1)]] { row := [(0, [[0x3C00, 0x4000], [0x3C00]])] })) 6 (iw 0x14 [(46, 1)]) (wt0 : Waits)), (uS 6 (un [iw 0x14 [(46, 1)]] { row := [(0, [[0x3C00, 0x4000], [0x3C00]])] })), ⟨⟨_, by decide, by decide, by decide, by decide, rfl, rfl, by decide⟩, by decide⟩⟩,
    ⟨6, wt0, 0, iw 0x13 [(46, 1), (41, 1)], (vO (uS 6 (un [iw 0x13 [(46, 1), (41, 1)]] { queues := [(0, [{ flit := fl 0 0 0 }, { flit := fl 0 1 0 }, { flit := fl 0 2 0 }, { flit := fl 0 3 0 }])] })) 6 (iw 0x13 [(46, 1), (41, 1)]) (wt0 : Waits)), (issueState (uS 6 (un [iw 0x13 [(46, 1), (41, 1)]] { queues := [(0, [{ flit := fl 0 0 0 }, { flit := fl 0 1 0 }, { flit := fl 0 2 0 }, { flit := fl 0 3 0 }])] })) 6 (vO (uS 6 (un [iw 0x13 [(46, 1), (41, 1)]] { queues := [(0, [{ flit := fl 0 0 0 }, { flit := fl 0 1 0 }, { flit := fl 0 2 0 }, { flit := fl 0 3 0 }])] })) 6 (iw 0x13 [(46, 1), (41, 1)]) (wt0 : Waits))).unit 6, { stream := 0, fseq := 0, opened := true }, (Unit.rotTake 64 { (issueState (uS 6 (un [iw 0x13 [(46, 1), (41, 1)]] { queues := [(0, [{ flit := fl 0 0 0 }, { flit := fl 0 1 0 }, { flit := fl 0 2 0 }, { flit := fl 0 3 0 }])] })) 6 (vO (uS 6 (un [iw 0x13 [(46, 1), (41, 1)]] { queues := [(0, [{ flit := fl 0 0 0 }, { flit := fl 0 1 0 }, { flit := fl 0 2 0 }, { flit := fl 0 3 0 }])] })) 6 (iw 0x13 [(46, 1), (41, 1)]) (wt0 : Waits))).unit 6 with rot := some (((issueState (uS 6 (un [iw 0x13 [(46, 1), (41, 1)]] { queues := [(0, [{ flit := fl 0 0 0 }, { flit := fl 0 1 0 }, { flit := fl 0 2 0 }, { flit := fl 0 3 0 }])] })) 6 (vO (uS 6 (un [iw 0x13 [(46, 1), (41, 1)]] { queues := [(0, [{ flit := fl 0 0 0 }, { flit := fl 0 1 0 }, { flit := fl 0 2 0 }, { flit := fl 0 3 0 }])] })) 6 (iw 0x13 [(46, 1), (41, 1)]) (wt0 : Waits))).unit 6).rotStart (iw 0x13 [(46, 1), (41, 1)]) { stream := 0, fseq := 0, opened := true }), cur := { stream := 0, fseq := 0, opened := true } }).rot.getD (((issueState (uS 6 (un [iw 0x13 [(46, 1), (41, 1)]] { queues := [(0, [{ flit := fl 0 0 0 }, { flit := fl 0 1 0 }, { flit := fl 0 2 0 }, { flit := fl 0 3 0 }])] })) 6 (vO (uS 6 (un [iw 0x13 [(46, 1), (41, 1)]] { queues := [(0, [{ flit := fl 0 0 0 }, { flit := fl 0 1 0 }, { flit := fl 0 2 0 }, { flit := fl 0 3 0 }])] })) 6 (iw 0x13 [(46, 1), (41, 1)]) (wt0 : Waits))).unit 6).rotStart (iw 0x13 [(46, 1), (41, 1)]) { stream := 0, fseq := 0, opened := true }), (uS 6 (un [iw 0x13 [(46, 1), (41, 1)]] { queues := [(0, [{ flit := fl 0 0 0 }, { flit := fl 0 1 0 }, { flit := fl 0 2 0 }, { flit := fl 0 3 0 }])] })), ⟨⟨_, by decide, by decide, by decide, by decide, rfl, rfl, by decide⟩, by decide⟩⟩⟩

theorem witness_TreesCompute :
    (∃ (site : Site) (w : Waits) (pc : Nat) (word : Nat) (i : Nat) (n : Nat) (g : Nat) (v : Machine.Unit) (s : State), (Issues s site w pc word v) ∧ (fOp word = 0x16) ∧ (g = bits word 43 5) ∧ ((g = 31 → 96 ≤ v.streamed.length)) ∧ (w.ecc ≠ .bad) ∧ (i < 8) ∧ (n < 63)) ∧
    (∃ (site : Site) (w : Waits) (pc : Nat) (word : Nat) (g : Nat) (v : Machine.Unit) (s : State), (Issues s site w pc word v) ∧ (fOp word = 0x16) ∧ (g = bits word 43 5) ∧ ((g = 31 → 96 ≤ v.streamed.length)) ∧ (w.ecc = .bad) ∧ ((g ≠ 31 ∧ w.eccAt.val / 96 = g) ∨ 2016 ≤ w.eccAt.val)) ∧
    (∃ (site : Site) (w : Waits) (pc : Nat) (word : Nat) (v : Machine.Unit) (s : State), (Issues s site w pc word v) ∧ (fOp word = 0x17) ∧ (w.ecc ≠ .bad)) ∧
    (∃ (site : Site) (w : Waits) (pc : Nat) (word : Nat) (i : Nat) (v : Machine.Unit) (s : State), (Issues s site w pc word v) ∧ (fOp word = 0x06) ∧ (kindOf site = .t) ∧ (fFlag word 1 = false) ∧ (i < 16)) :=
  ⟨⟨7, wt0, 0, iw 0x16 [(43, 31)], 1, 2, 31, (vO (uS 7 (un [iw 0x16 [(43, 31)]] { streamed := List.replicate 96 5 })) 7 (iw 0x16 [(43, 31)]) (wt0 : Waits)), (uS 7 (un [iw 0x16 [(43, 31)]] { streamed := List.replicate 96 5 })), ⟨⟨_, by decide, by decide, by decide, by decide, rfl, rfl, by decide⟩, by decide⟩⟩,
    ⟨7, { ecc := .bad, eccAt := 2040 }, 0, iw 0x16 [(43, 31)], 31, (vO (uS 7 (un [iw 0x16 [(43, 31)]] { streamed := List.replicate 96 5 })) 7 (iw 0x16 [(43, 31)]) ({ ecc := .bad, eccAt := 2040 } : Waits)), (uS 7 (un [iw 0x16 [(43, 31)]] { streamed := List.replicate 96 5 })), ⟨⟨_, by decide, by decide, by decide, by decide, rfl, rfl, by decide⟩, by decide⟩⟩,
    ⟨7, wt0, 0, iw 0x17 [(43, 0)], (vO (uS 7 (un [iw 0x17 [(43, 0)]] { fv := [(0, 0x3C00)] })) 7 (iw 0x17 [(43, 0)]) (wt0 : Waits)), (uS 7 (un [iw 0x17 [(43, 0)]] { fv := [(0, 0x3C00)] })), ⟨⟨_, by decide, by decide, by decide, by decide, rfl, rfl, by decide⟩, by decide⟩⟩,
    ⟨7, wt0, 0, iw 0x06 [], 5, (vO (uS 7 (un [iw 0x06 []] { fv := [(0, 0x3C00)] })) 7 (iw 0x06 []) (wt0 : Waits)), (uS 7 (un [iw 0x06 []] { fv := [(0, 0x3C00)] })), ⟨⟨_, by decide, by decide, by decide, by decide, rfl, rfl, by decide⟩, by decide⟩⟩⟩

theorem witness_StatisticsAndMemories :
    (∃ (site : Site) (w : Waits) (pc : Nat) (word : Nat) (v : Machine.Unit) (s : State), (Issues s site w pc word v) ∧ (fOp word = 0x15) ∧ (kindOf site = .m)) ∧
    (∃ (site : Site) (w : Waits) (pc : Nat) (word : Nat) (v : Machine.Unit) (s : State), (Issues s site w pc word v) ∧ (fOp word = 0x15) ∧ (kindOf site = .v)) ∧
    (∃ (site : Site) (st : Nat) (f8 : Nat) (lane : Nat) (kd : Nat) (s : State), (kindOf site = .m) ∧ (s.mayIssue site = true) ∧ ((s.unit site).statsDue = some (st, f8)) ∧ ((s.unit site).drain = none) ∧ ((s.unit site).block = none) ∧ ((s.unit site).statsTo = some (lane, kd)) ∧ ((s.modes.hazard && s.modes.hazFault) = false)) ∧
    (∃ (site : Site) (st : Nat) (f8 : Nat) (s : State), (kindOf site = .v) ∧ ((s.unit site).inCtx = true) ∧ ((s.unit site).frozen = false) ∧ ((s.unit site).statsDue = some (st, f8)) ∧ ((s.unit site).bankC = none) ∧ ((s.unit site).bankHeld = false)) ∧
    (∃ (site : Site) (st : Nat) (f8 : Nat) (b : Bank) (s : State), (kindOf site = .v) ∧ ((s.unit site).inCtx = true) ∧ ((s.unit site).frozen = false) ∧ ((s.unit site).statsDue = some (st, f8)) ∧ ((s.unit site).bankC = some b)) ∧
    (∃ (site : Site) (b : Bank) (s : State), ((s.unit site).bankC = some b) ∧ (b.readers = []) ∧ ((s.unit site).bankHeld = false)) ∧
    (∃ (site : Site) (gen : Fin 2) (n : Fin 65) (q : GenSeq) (m : List GenSeq) (d : WinDesc) (k : Nat) (s : State), (s.mayIssue site = true) ∧ (Tab.get [] (s.unit site).gens gen.val = q :: m) ∧ (d = Tab.get {} (s.unit site).wins q.wd) ∧ (k = min n.val (q.nchunk * max (d.kh * d.kw * d.cin) 1 - q.pos)) ∧ ((s.modes.hazard && s.modes.hazFault) = false)) ∧
    (∃ (u : Machine.Unit) (t : Nat) (rank : Nat) (b : Nat), (u.port = [(t, b, 2)]) ∧ (rank < 2) ∧ (u.bankConf.toNat < 2 ^ 32 - 1)) ∧
    (∃ (site : Site) (i : Fin 8) (s : State), ((s.arb (arbCode (.service site))).holder = none) ∧ ((s.arb (arbCode (.service site))).reqs = []) ∧ (i < arbInputs (.service site))) ∧
    (∃ (site : Site) (s : State) (u : State), (s.ready = true) ∧ (s.works site = true) ∧ (kindOf site = .s) ∧ (s.useArb (.service site) 0 = some u)) ∧
    (∃ (site : Site) (a : ServiceAcc) (v : BitVec 256) (s : State) (u : State), (s.ready = true) ∧ (s.works site = true) ∧ (kindOf site = .s) ∧ (a.data = some v) ∧ (s.useArb (.service site) a.input = some u)) ∧
    (∃ (site : Site) (a : ServiceAcc) (s : State) (u : State), (s.ready = true) ∧ (s.works site = true) ∧ (kindOf site = .s) ∧ (a.data = none) ∧ (a.ecc = .corrected) ∧ (s.useArb (.service site) a.input = some u)) :=
  ⟨⟨0, wt0, 0, iw 0x15 [(46, 2), (42, 3)], (vO (uS 0 (un [iw 0x15 [(46, 2), (42, 3)]] {  })) 0 (iw 0x15 [(46, 2), (42, 3)]) (wt0 : Waits)), (uS 0 (un [iw 0x15 [(46, 2), (42, 3)]] {  })), ⟨⟨_, by decide, by decide, by decide, by decide, rfl, rfl, by decide⟩, by decide⟩⟩,
    ⟨6, wt0, 0, iw 0x15 [(37, 5)], (vO (uS 6 (un [iw 0x15 [(37, 5)]] {  })) 6 (iw 0x15 [(37, 5)]) (wt0 : Waits)), (uS 6 (un [iw 0x15 [(37, 5)]] {  })), ⟨⟨_, by decide, by decide, by decide, by decide, rfl, rfl, by decide⟩, by decide⟩⟩,
    ⟨0, 0, 3, 1, 2, uS 0 (un [0] { statsDue := some (0, 3), statsTo := some (1, 2), satcount := [(5, 3), (260, 7)] }), by decide⟩,
    ⟨6, 0, 3, uS 6 (un [0] { statsDue := some (0, 3), bankA := { sum := [(1, 7)] } }), by decide⟩,
    ⟨6, 0, 3, { stream := 0, fseq := 2 }, uS 6 (un [0] { statsDue := some (0, 3), bankC := some { stream := 0, fseq := 2 } }), by decide⟩,
    ⟨6, { stream := 0, fseq := 2 }, uS 6 (un [0] { bankC := some { stream := 0, fseq := 2 } }), by decide⟩,
    ⟨1, 1, 2, { wd := 0, kd := 0, nchunk := 1, half := false, stream := 0, fseq := 0, line := 0, chunk := 0 }, [], { kh := 3 }, 2, uS 1 (un [0] { wins := [(0, { kh := 3 })], gens := [(1, [{ wd := 0, kd := 0, nchunk := 1, half := false, stream := 0, fseq := 0, line := 0, chunk := 0 }])] }), by decide⟩,
    ⟨{ port := [(7, 3, 2)] }, 7, 1, 3, by decide⟩,
    ⟨1, 3, live, by decide⟩,
    ⟨1, uS 1 (un [0] { scrub := 16383 }), ((uS 1 (un [0] { scrub := 16383 })).useArb (.service 1) 0).getD live, ⟨by decide, by decide, by decide, rfl⟩⟩,
    ⟨1, { data := some 7, word := 3 }, 7, live, (live.useArb (.service 1) 0).getD live, ⟨by decide, by decide, by decide, rfl, rfl⟩⟩,
    ⟨1, { ecc := .corrected, word := 3 }, live, (live.useArb (.service 1) 0).getD live, ⟨by decide, by decide, by decide, rfl, rfl, rfl⟩⟩⟩

theorem witness_ProgramsFault :
    (∃ (site : Site) (w : Waits) (u : Machine.Unit) (s : State), (s.mayIssue site = true) ∧ ((s.unit site).badWait (kindOf site) (s.unit site).group = false) ∧ (Unit.bindAll (needs (s.unit site).group.waits) (s.unit site) = (none, u)) ∧ ((u.advance (u.busyUntil (s.unit site).group.word) w).illegal (kindOf site) (s.unit site).group.word = true) ∧ (fOp (s.unit site).group.word ≠ 0x12)) ∧
    (∃ (site : Site) (w : Waits) (s : State), (s.mayIssue site = true) ∧ ((s.unit site).badWait (kindOf site) (s.unit site).group = true)) ∧
    (∃ (site : Site) (w : Waits) (u : Machine.Unit) (s : State), (s.mayIssue site = true) ∧ ((s.unit site).badWait (kindOf site) (s.unit site).group = false) ∧ (Unit.bindAll (needs (s.unit site).group.waits) (s.unit site) = (none, u)) ∧ (fOp (s.unit site).group.word = 0x12)) ∧
    (∃ (site : Site) (s : State), s.mayIssue site = true) ∧
    (∃ (site : Site) (ws : Waits) (w : Nat) (q : Nat) (u : Machine.Unit) (s : State), (s.mayIssue site = true) ∧ (2 ^ s.greg.tagTimeout ≤ ws.tag) ∧ (Unit.bindAll (needs (s.unit site).group.waits) (s.unit site) = (some (w, q), u)) ∧ ((∀ i ∈ maskQueues (bits w 45 3), waitWindow w ≤ (Tab.get [] (s.unit site).queues i).length))) :=
  ⟨⟨0, wt0, (uS 0 (un [iw 0xFF []] {})).unit 0, uS 0 (un [iw 0xFF []] {}), ⟨by decide, by decide, rfl, by decide⟩⟩,
    ⟨0, wt0, uS 0 (un [iw 1 [(55, 1)], 0] {}), by decide⟩,
    ⟨0, wt0, (uS 0 (un [iw 0x12 []] {})).unit 0, uS 0 (un [iw 0x12 []] {}), ⟨by decide, by decide, rfl, by decide⟩⟩,
    ⟨0, uS 0 (un [0] {}), by decide⟩,
    ⟨0, { tag := 1099511627776 }, iw 1 [(45, 1)], 0, (uS 0 (un [iw 1 [(45, 1)], 0] { queues := [(0, List.replicate 64 { flit := fl 1 1 1 })] })).unit 0, uS 0 (un [iw 1 [(45, 1)], 0] { queues := [(0, List.replicate 64 { flit := fl 1 1 1 })] }), ⟨by decide, by decide, rfl, by decide⟩⟩⟩

theorem witness_ModelsAndScenes :
    (∃ (o : Owner) (m : B8) (st : Nat) (fseq : B16) (c : Ctx) (d : ModelDecl) (err : Option SramErr) (s : State) (r : State), (s.ctx o = some c) ∧ (c.model m.toNat = some d) ∧ ((Tab.get {} c.models m.toNat).pending = [(st, fseq)]) ∧ ((Tab.get {} c.models m.toNat).running = none) ∧ ((∀ i ∈ d.chain.filterMap c.place.site, (s.unit i).frozen = false)) ∧ ((s.modes.hazard && s.modes.hazFault) = false) ∧ (r = s.spoiled (err.filter (fun e => (c.evalSites d).contains e.site.val)))) ∧
    (∃ (o : Owner) (m : B8) (st : Nat) (fseq : B16) (z : List Nat) (c : Ctx) (d : ModelDecl) (s : State), (s.ctx o = some c) ∧ ((Tab.get {} c.models m.toNat).running = some (st, fseq, z, d)) ∧ ((∀ i, c.place.site d.linkSite = some i → (s.unit i).frozen = false)) ∧ (d.role = 0) ∧ (((s.strm st).info fseq).any (fun i => i.has .dropped) = false)) ∧
    (∃ (o : Owner) (m : B8) (st : Nat) (fseq : B16) (z : List Nat) (c : Ctx) (d : ModelDecl) (s : State), (s.ctx o = some c) ∧ ((Tab.get {} c.models m.toNat).running = some (st, fseq, z, d)) ∧ ((∀ i, c.place.site d.linkSite = some i → (s.unit i).frozen = false)) ∧ (d.role ≠ 0) ∧ (d.link = 3) ∧ (s.sceneSource st = some o.val) ∧ (((s.strm st).info fseq).any (fun i => i.has .dropped) = false) ∧ ((s.strm st).scheduled = true) ∧ ((s.strm st).scene.model = m.toNat) ∧ ((s.strm st).scene.hold = 0) ∧ ((s.strm st).runClass ≠ some (topClass (linkOut 3 z)).1) ∧ (lt16 (topClass (linkOut 3 z)).2 (s.strm st).scene.confMin = false)) ∧
    (∃ (st : StreamId) (f : B16) (p : B16) (cls : Nat) (o : Nat) (c : Ctx) (v : Placement) (b : B8) (s : State), ((s.strm st).tailDone = some f) ∧ ((s.strm st).posted = some (p, some cls)) ∧ (((s.strm st).info p).any (fun i => i.has .dropped) = false) ∧ ((s.strm st).scheduled = true) ∧ ((s.strm st).ctx = some o) ∧ (s.ctx o = some c) ∧ ((s.strm st).scene.table[cls]? = some b) ∧ (b.toNat ≠ 255) ∧ (b.toNat ≠ c.place.slot) ∧ (c.variants.find? (fun q => q.slot == b.toNat) = some v) ∧ ((s.slot b.toNat).state = .staged) ∧ (c.ecl = none) ∧ (c.state = .running)) :=
  ⟨⟨0, 1, 0, 3, mdC 0 0 { pending := [(0, 3)] }, md 0 0, none, eS (mdC 0 0 { pending := [(0, 3)] }) { frames := [{ fseq := 3 }] }, eS (mdC 0 0 { pending := [(0, 3)] }) { frames := [{ fseq := 3 }] }, ⟨rfl, rfl, rfl, rfl, by decide, by decide, rfl⟩⟩,
    ⟨0, 1, 0, 3, [0x3F800000, 0], mdC 0 0 { running := some (0, 3, [0x3F800000, 0], md 0 0) }, md 0 0, eS (mdC 0 0 { running := some (0, 3, [0x3F800000, 0], md 0 0) }) { frames := [{ fseq := 3 }] }, ⟨rfl, rfl, fun i _ => (by cases i <;> rfl), rfl, rfl⟩⟩,
    ⟨0, 1, 0, 3, [0x3F800000, 0], mdC 1 3 { running := some (0, 3, [0x3F800000, 0], md 1 3) }, md 1 3, eS (mdC 1 3 { running := some (0, 3, [0x3F800000, 0], md 1 3) }) { scheduled := true, scene := { model := 1 }, frames := [{ fseq := 3 }] }, ⟨rfl, rfl, fun i _ => (by cases i <;> rfl), by decide⟩⟩,
    ⟨0, 3, 3, 1, 0, { cx {} with variants := [{ slot := 5 }] }, { slot := 5 }, 5, { eS { cx {} with variants := [{ slot := 5 }] } { scheduled := true, tailDone := some 3, posted := some (3, some 1), scene := { table := [0, 5] }, frames := [{ fseq := 3 }] } with slots := [(5, { state := .staged })] }, by decide⟩⟩

theorem witness_ContextsEclose :
    (∃ (o : Owner) (c : Ctx) (e : Eclosion) (s : State) (u : State), (s.ctx o = some c) ∧ (c.ecl = some e) ∧ (e.started = false) ∧ (e.due = true) ∧ ((∀ x ∈ s.ctxs, ∀ y, x.2 = some y → y.ecl.any (fun z => z.started) = false)) ∧ ((s.field 0).down = false) ∧ ((s.arb (arbCode .broadcast)).holder = none) ∧ (s.holdArb .broadcast o = some u)) ∧
    (∃ (o : Owner) (s : State), ((s.arb (arbCode .broadcast)).holder = none) ∧ ((s.arb (arbCode .broadcast)).reqs = [])) ∧
    (∃ (o : Owner) (c : Ctx) (e : Eclosion) (s : State), (s.ctx o = some c) ∧ (c.ecl = some e) ∧ (e.started = true) ∧ (c.abortPend = none) ∧ ((∀ st ∈ s.ctxStreams o, (s.strm st).started = false))) ∧
    (∃ (o : Owner) (st : Nat) (c : Ctx) (e : Eclosion) (s : State), (s.ctx o = some c) ∧ (c.ecl = some e) ∧ (e.started = true) ∧ (c.abortPend = none) ∧ (st ∈ s.ctxStreams o) ∧ ((s.strm st).started = true) ∧ ((s.strm st).stopNext = false) ∧ ((s.strm st).stopNow = false)) :=
  ⟨⟨0, { cx {} with ecl := some ecl0 }, ecl0, eS { cx {} with ecl := some ecl0 } {}, ((eS { cx {} with ecl := some ecl0 } {}).holdArb .broadcast 0).getD live, ⟨rfl, rfl, rfl, rfl, by decide, rfl, rfl, rfl⟩⟩,
    ⟨5, live, by decide⟩,
    ⟨0, { cx {} with state := .eclosing, ecl := some { ecl0 with started := true } }, { ecl0 with started := true }, eS { cx {} with state := .eclosing, ecl := some { ecl0 with started := true } } {}, by decide⟩,
    ⟨0, 0, { cx {} with state := .eclosing, ecl := some { ecl0 with started := true, place := (cx {}).place } }, { ecl0 with started := true, place := (cx {}).place }, eS { cx {} with state := .eclosing, ecl := some { ecl0 with started := true, place := (cx {}).place } } { started := true }, by decide⟩⟩

theorem witness_ContextsAndSnapshotsEnd :
    (∃ (o : Owner) (c : Ctx) (s : State), (s.ctx o = some c) ∧ (c.state = .stopping) ∧ (s.regionEmpty o = true) ∧ ((s.group o).asserted = false) ∧ (c.replace = none)) ∧
    (∃ (o : Owner) (c : Ctx) (s : State), (s.ctx o = some c) ∧ (c.state = .aborting) ∧ (c.replace = none)) ∧
    (∃ (o : Owner) (c : Ctx) (s : State), (s.ctx o = some c) ∧ (c.state = .releasing)) ∧
    (∃ (o : Owner) (c : Ctx) (r : ReplaceReq) (s : State), (s.ctx o = some c) ∧ (c.replace = some r) ∧ (c.state = .stopping)) ∧
    (∃ (o : Owner) (c : Ctx) (n : Snapshot) (s : State), (s.ctx o = some c) ∧ (c.snap = some n) ∧ ((∀ e ∈ c.maskSites n.vmask, (s.unit e.2).bankHeld = true ∧ (s.unit e.2).lastClosed.isSome = true))) :=
  ⟨⟨0, { cx {} with state := .stopping }, eS { cx {} with state := .stopping } {}, by decide⟩,
    ⟨0, { cx {} with state := .aborting, abortPkts := [pk] }, eS { cx {} with state := .aborting, abortPkts := [pk] } {}, by decide⟩,
    ⟨0, { cx {} with state := .releasing, region := [33] }, eS { cx {} with state := .releasing, region := [33] } {}, by decide⟩,
    ⟨0, { cx {} with state := .stopping, replace := some { slot := 1, replicas := 1, pkt := pk, dest := 0, binds := [] } }, { slot := 1, replicas := 1, pkt := pk, dest := 0, binds := [] }, eS { cx {} with state := .stopping, replace := some { slot := 1, replicas := 1, pkt := pk, dest := 0, binds := [] } } {}, by decide⟩,
    ⟨0, snapC, snap0, (eS snapC {}).setUnit 6 { bankHeld := true, lastClosed := some {} }, by decide⟩⟩

theorem witness_ArbitersGrant :
    (∃ (a : ArbId) (present : List (Fin 64)) (cycles : B16) (g : Arbiter) (s : State), (s.hasArb a = true) ∧ ((∀ p, a ≠ .pool p)) ∧ (g = (s.arb (arbCode a)).gather (s.waitLimit a) cycles.toNat (arbInputs a) (if a = .sequencer then (present.map (fun i => i.val)).filter s.seqPresents else present.map (fun i => i.val))) ∧ ((∃ e ∈ g.reqs, e.2.contends = true)) ∧ ((s.arb (arbCode a)).holder = none)) ∧
    (∃ (a : ArbId) (i : Fin 64) (r : Requester) (s : State), ((s.arb (arbCode a)).holder ≠ some i.val) ∧ ((i.val, r) ∈ (s.arb (arbCode a)).reqs)) ∧
    (∃ (a : ArbId) (i : Fin 64) (s : State), (s.hasArb a = true) ∧ (i.val < arbInputs a) ∧ ((s.arb (arbCode a)).holder ≠ some i.val)) ∧
    (∃ (a : ArbId) (i : Fin 64) (s : State), ((∀ p, a ≠ .pool p)) ∧ ((s.arb (arbCode a)).holder = some i.val)) ∧
    (∃ (a : ArbId) (i : Fin 64) (s : State), (s.arb (arbCode a)).holder ≠ some i.val) :=
  ⟨⟨.cmdRing, [1, 2], 5, { reqs := [(1, { present := true, wait := 5 }), (2, { present := true })] }, live.setArb 5000 { reqs := [(1, { wait := 0, present := true })] }, by decide⟩,
    ⟨.cmdRing, 1, { present := true, backoff := 7 }, live.setArb 5000 { reqs := [(1, { present := true, backoff := 7 })] }, by decide⟩,
    ⟨.cmdRing, 1, live, by decide⟩,
    ⟨.cmdRing, 1, live.setArb 5000 { holder := some 1 }, by decide⟩,
    ⟨.cmdRing, 1, live.setArb 5000 { reqs := [(1, { present := true })] }, by decide⟩⟩

theorem witness_QueuesAndPools :
    (∃ (q : QId) (src : Fin 17) (word : B64) (w : B64) (x : FQueue) (s : State), (commitMode q = true) ∧ (s.queue (queueCode q) = x) ∧ (x.poisoned = false) ∧ (x.tooLong = false) ∧ ((∀ a, prodArb q = some a → ∃ u, s.holdArb a src = some u)) ∧ (x.opened.length < itemLimit q) ∧ ((x.items.map List.length).sum + x.opened.length < capacity q) ∧ (w = (if words32 q then BitVec.ofNat 64 (word.toNat % 2 ^ 32) else word))) ∧
    (∃ (q : QId) (a : ArbId) (src : Fin 17) (word : B64) (e : Bool) (c : Bool) (s : State), (prodArb q = some a) ∧ (s.holdArb a src = none)) ∧
    (∃ (q : QId) (s : State), (commitMode q = true) ∧ ((s.queue (queueCode q)).isOpen = true)) ∧
    (∃ (q : QId) (pr : B8) (len : B16) (s : State), (commitMode q = false) ∧ (len ≠ 0)) ∧
    (∃ (q : QId) (pr : B8) (slot : B32) (body : List B32) (a : List LpItem) (b : List LpItem) (i : LpItem) (s : State), (commitMode q = false) ∧ (slot.getLsbD 31 = false) ∧ (pr.toNat ∉ (s.queue (queueCode q)).lpPoisoned) ∧ ((s.queue (queueCode q)).lp = a ++ i :: b) ∧ ((∀ x ∈ a, x.producer ≠ pr.toNat)) ∧ (i.producer = pr.toNat) ∧ (i.slot = none)) ∧
    (∃ (q : QId) (i : List B64) (m : List (List B64)) (s : State), (commitMode q = true) ∧ ((s.queue (queueCode q)).items = i :: m) ∧ ((∀ f, q = .reply f → (s.fn f).replyQ = [])) ∧ ((∀ x o, q = .ctrl x o → ctrlNext x o = none))) ∧
    (∃ (q : QId) (s : State), (commitMode q = true) ∧ ((s.queue (queueCode q)).items = []) ∧ ((∀ f, q = .reply f → (s.fn f).replyQ = []))) ∧
    (∃ (q : QId) (i : LpItem) (m : List LpItem) (s : State), (commitMode q = false) ∧ ((s.queue (queueCode q)).lp = i :: m) ∧ (i.slot = none) ∧ ((q = .eventLog → s.seqr.logQ = []))) ∧
    (∃ (f : FnId) (r : Rec) (m : List Rec) (s : State), ((s.fn f).replyQ = r :: m) ∧ (s.fnUp f = true) ∧ ((s.fn f).enable = true) ∧ ((s.fn f).reset = false) ∧ (((s.fn f).rplProd + 1) % 2 ^ (s.fn f).rplOrder ≠ (s.fn f).rplCons)) ∧
    (∃ (r : Rec) (m : List Rec) (s : State), s.seqr.logQ = r :: m) ∧
    (∃ (p : Fin 64) (data : Bytes) (ds : List PoolDesc) (k : Nat) (s : State), ((s.pool p).ready = true) ∧ ((s.pool p).cache.length < 8) ∧ (poolDescs data = ds) ∧ (k = min ds.length (min 8 (((s.pool p).prod + 2 ^ (s.pool p).order - (s.pool p).cons) % 2 ^ (s.pool p).order)))) ∧
    (∃ (f : FnId) (v : B32) (p : Nat) (s : State), (s.ready = true) ∧ ((s.fn f).reset = false) ∧ (p = bits v.toNat 16 6) ∧ (p < 32 * s.part.variant.ports) ∧ (mayAct f (s.pool p).fn = true) ∧ ((s.pool p).ready = true) ∧ (bits v.toNat 0 16 < 2 ^ (s.pool p).order)) ∧
    (∃ (f : FnId) (v : B32) (p : Nat) (s : State), (s.ready = true) ∧ ((s.fn f).reset = false) ∧ (p = bits v.toNat 16 6) ∧ (2 ^ (s.pool p).order ≤ bits v.toNat 0 16)) :=
  ⟨⟨.reply 1, 1, 0x123456789, 0x23456789, { opened := [4] }, live.setQueue 1 { opened := [4] }, ⟨by decide, rfl, by decide, by decide, fun a h => (by cases h; exact ⟨_, rfl⟩), by decide, by decide, by decide⟩⟩,
    ⟨.mailbox, .port .mailbox, 3, 7, true, true, live.setArb (arbCode (.port .mailbox)) { holder := some 5 }, by decide⟩,
    ⟨.reply 1, live.setQueue 1 { opened := [4], isOpen := true }, by decide⟩,
    ⟨.eventLog, 3, 2, live, by decide⟩,
    ⟨.eventLog, 3, 7, [1, 2], [], [], { producer := 3, len := 2, slot := none, body := [] }, live.setQueue 111 { lp := [{ producer := 3, len := 2, slot := none, body := [] }] }, by decide⟩,
    ⟨.reply 1, [4], [], live.setQueue 1 { items := [[4]] }, by decide⟩,
    ⟨.reply 1, live, by decide⟩,
    ⟨.eventLog, { producer := 3, len := 2, slot := none, body := [] }, [], live.setQueue 111 { lp := [{ producer := 3, len := 2, slot := none, body := [] }] }, by decide⟩,
    ⟨1, rc, [], live.setFn 1 { enable := true, replyQ := [rc] }, by decide⟩,
    ⟨rc, [], { live with seqr := { logQ := [rc] } }, by decide⟩,
    ⟨3, List.replicate 32 1, poolDescs (List.replicate 32 1), 2, live.setPool 3 { ready := true, prod := 3 }, by decide⟩,
    ⟨1, 0x3000F, 3, live.setPool 3 { ready := true, fn := 1, order := 4 }, by decide⟩,
    ⟨1, 0x30010, 3, live.setPool 3 { ready := true, fn := 1, order := 4 }, by decide⟩⟩

theorem witness_CommandRings :
    (∃ (f : FnId) (v : B32) (s : State), (s.ready = true) ∧ ((s.fn f).reset = false) ∧ (v.toNat % 4096 < 2 ^ (s.fn f).cmdOrder)) ∧
    (∃ (f : FnId) (v : B32) (s : State), (s.ready = true) ∧ ((s.fn f).reset = false) ∧ (2 ^ (s.fn f).cmdOrder ≤ v.toNat % 4096)) ∧
    (∃ (f : FnId) (b : Bytes) (s : State), (s.fnUp f = true) ∧ ((s.fn f).enable = true) ∧ ((s.fn f).reset = false) ∧ ((s.fn f).fetchErr = false) ∧ ((s.fn f).cmdHead ≠ (s.fn f).cmdTail)) ∧
    (∃ (f : FnId) (p : Packet) (m : List Packet) (s : State) (u : State), ((s.fn f).fetched = p :: m) ∧ (s.mayDispatch f false p = true) ∧ (p.badHeader = false) ∧ (s.useArb .cmdRing f = some u) ∧ (listedOpcode p.opcode = true) ∧ (p.badLayout = false) ∧ (p.opcode ≠ 0x1300)) ∧
    (∃ (f : FnId) (s : State), s.useArb .cmdRing f = none) ∧
    (∃ (f : FnId) (s : State), (s.ready = true) ∧ ((s.fn f).reset = false)) ∧
    (∃ (f : FnId) (s : State), ((s.fn f).reset = true) ∧ ((s.fn f).inFlight = [])) :=
  ⟨⟨1, 0x100F, live, by decide⟩,
    ⟨1, 0x10, live, by decide⟩,
    ⟨1, [1, 2], live.setFn 1 { enable := true, cmdTail := 2 }, by decide⟩,
    ⟨1, nopP, [], live.setFn 1 { enable := true, fetched := [nopP] }, ((live.setFn 1 { enable := true, fetched := [nopP] }).useArb .cmdRing 1).getD live, ⟨rfl, by decide, by decide, rfl, by decide⟩⟩,
    ⟨1, (live.setFn 1 { enable := true, fetched := [nopP] }).setArb (arbCode .cmdRing) { holder := some 5 }, by decide⟩,
    ⟨1, live, by decide⟩,
    ⟨1, live.setFn 1 { reset := true }, by decide⟩⟩

theorem witness_RepliesReachTheHost :
    (∃ (f : FnId) (r : Rec) (m : List Rec) (s : State), ((s.fn f).replyQ = r :: m) ∧ (s.fnUp f = true) ∧ ((s.fn f).enable = true) ∧ ((s.fn f).reset = false) ∧ (((s.fn f).rplProd + 1) % 2 ^ (s.fn f).rplOrder ≠ (s.fn f).rplCons) ∧ ((s.fn f).rplWb = 0) ∧ (Memory.wf s.hostMem = true)) ∧
    (∃ (f : FnId) (r : Rec) (m : List Rec) (s : State), ((s.fn f).replyQ = r :: m) ∧ (s.fnUp f = true) ∧ ((s.fn f).enable = true) ∧ ((s.fn f).reset = false) ∧ (((s.fn f).rplProd + 1) % 2 ^ (s.fn f).rplOrder ≠ (s.fn f).rplCons)) ∧
    (∃ (f : FnId) (s : State), (s.fn f).unsigReplies ≠ 0) ∧
    (∃ (f : FnId) (s : State), (s.fn f).unsigLogs ≠ 0) ∧
    (∃ (f : FnId) (s : State), (s.fn f).unsigCpls ≠ 0) :=
  ⟨⟨1, rc, [], live.setFn 1 { enable := true, replyQ := [rc], rplBase := 64 }, by decide⟩,
    ⟨1, rc, [], live.setFn 1 { enable := true, replyQ := [rc], rplBase := 64 }, by decide⟩,
    ⟨1, live.setFn 1 { unsigReplies := 3 }, by decide⟩,
    ⟨1, live.setFn 1 { unsigLogs := 3 }, by decide⟩,
    ⟨1, live.setFn 1 { unsigCpls := 3 }, by decide⟩⟩

theorem witness_EventsAndCaptures :
    (∃ (i : Fin 28) (r : Rec) (m : List Rec) (s : State) (u : State), ((s.seqr.input i).dcq = r :: m) ∧ (s.seqPresents i = true) ∧ (r.isReply = false) ∧ (s.useArb .sequencer i ((List.range 28).filter s.seqPresents) = some u)) ∧
    (∃ (i : Fin 28) (s : State), s.seqPresents i = false ∨ s.useArb .sequencer i ((List.range 28).filter s.seqPresents) = none) ∧
    (∃ (i : Fin 28) (r : Rec) (m : List Rec) (s : State), (s.seqr.input i).dcq = r :: m) ∧
    (∃ (i : Fin 28) (r : Rec) (m : List Rec) (f : Nat) (s : State) (u : State), ((s.seqr.input i).dcq = r :: m) ∧ (s.seqPresents i = true) ∧ (r.isReply = true) ∧ (s.useArb .sequencer i ((List.range 28).filter s.seqPresents) = some u) ∧ (r.cspi = false) ∧ (r.esnTo = none) ∧ (f = r.fn.toNat % 64) ∧ ((s.fn f).reset = false) ∧ ((s.fn f).replyQ.length < 64)) ∧
    (∃ (i : Fin 28) (x : SeqInput) (s : State), (x = (s.seqr.input i).pump) ∧ (x.lost ≠ 0) ∧ (x.buf.length < 16)) ∧
    (∃ (r : Rec) (m : List Rec) (s : State), s.seqr.logQ = r :: m) ∧
    (∃ (st : StreamId) (f : FrameInfo) (s : State), ((s.strm st).frames.find? (fun f => !f.written) = some f) ∧ (f.out = true) ∧ ((f.has .dropped = true ∨ s.settled st f.fseq = true))) ∧
    (∃ (r : CapRec) (u : Nat) (n : Nat) (pad : Nat) (s : State), (s.ready = true) ∧ (s.cap.takes r = true) ∧ (s.cap.stop = false) ∧ (u = s.cap.prod.toNat) ∧ (n = 1 + (r.payload.length + 31) / 32) ∧ (pad = (if 25165824 - u % 25165824 < n then 25165824 - u % 25165824 else 0))) ∧
    (∃ (r : CapRec) (s : State), (s.ready = true) ∧ (s.cap.takes r = true)) ∧
    (∃ (s : State), (s.ready = true) ∧ (s.cap.en = false) ∧ (s.cap.trig ≠ 0)) ∧
    (∃ (s : State), (s.ready = true) ∧ (s.cap.en = true)) ∧
    (∃ (s : State), s.ready = true) ∧
    (∃ (s : State), (s.cap.dumpGo = true) ∧ (s.dumpValid = true) ∧ (s.cap.dumpDst = 0)) ∧
    (∃ (s : State), s.cap.dumpGo = true) :=
  ⟨⟨3, rc, [], { noOwe with seqr := { inputs := [(3, { dcq := [rc] })], esn := 0xFFFFFFFFFFFE } }, (({ noOwe with seqr := { inputs := [(3, { dcq := [rc] })], esn := 0xFFFFFFFFFFFE } } : State).useArb .sequencer 3 [3]).getD live, ⟨rfl, by decide, rfl, rfl⟩⟩,
    ⟨3, { live with seqr := { inputs := [(3, { dcq := [rc] })] } }, by decide⟩,
    ⟨3, rc, [], { noOwe with seqr := { inputs := [(3, { dcq := [rc] })] } }, by decide⟩,
    ⟨3, { rc with isReply := true, fn := 1 }, [], 1, { noOwe with seqr := { inputs := [(3, { dcq := [{ rc with isReply := true, fn := 1 }] })] } }, (({ noOwe with seqr := { inputs := [(3, { dcq := [{ rc with isReply := true, fn := 1 }] })] } } : State).useArb .sequencer 3 [3]).getD live, ⟨rfl, by decide, rfl, rfl, by decide⟩⟩,
    ⟨3, { dcq := [rc], lost := 3 }, { noOwe with seqr := { inputs := [(3, { dcq := [rc], lost := 3 })] } }, by decide⟩,
    ⟨rc, [], { noOwe with seqr := { logQ := [rc], winProd := 4095 } }, by decide⟩,
    ⟨0, { fseq := 3, out := true }, withStrm { frames := [{ fseq := 2, written := true }, { fseq := 3, out := true }] }, by decide⟩,
    ⟨{ typ := 3, payload := [1] }, 25165823, 2, 1, capOn, by decide⟩,
    ⟨{ typ := 3, payload := [1] }, capOn, by decide⟩,
    ⟨{ live with cap := { trig := 1, prod := 7 } }, by decide⟩,
    ⟨capOn, by decide⟩,
    ⟨{ live with cap := { dumpGo := true } }, by decide⟩,
    ⟨{ live with cap := { dumpGo := true, dumpLen := 32, dumpSrc := 64 } }, by decide⟩,
    ⟨{ live with cap := { dumpGo := true, dumpAgain := true } }, by decide⟩⟩

theorem witness_SupplyAndHeat :
    (∃ (s : State), (s.supply.settling = true) ∧ (s.supply.vrPgood = true) ∧ ((∀ e ∈ s.fields, e.2.lowering = false))) ∧
    (∃ (f : Fin 4) (p : Nat) (s : State), ((s.field f).target = some p) ∧ ((s.field f).raising = false) ∧ ((s.field f).lowering = false)) ∧
    (∃ (mv : B16) (s : State), (s.pllsRun = true) ∧ (s.supply.diapause = false)) ∧
    (∃ (f : Fin 4) (mv : B16) (s : State), (s.pllsRun = true) ∧ (s.supply.diapause = false) ∧ (mv.toNat < s.supply.warnLevel)) ∧
    (∃ (mv : B16) (s : State), (s.pllsRun = true) ∧ (s.supply.diapause = false)) ∧
    (∃ (s : State), s.supply.diapause = true) ∧
    (∃ (x : B16) (s : State), (s.boot.phase ≠ .por) ∧ (x.toInt < 26880)) ∧
    (∃ (x : B16) (s : State), (s.boot.phase ≠ .por) ∧ (26880 ≤ x.toInt) ∧ (x.toInt < 30720)) ∧
    (∃ (x : B16) (s : State), (s.boot.phase ≠ .por) ∧ (s.boot.phase ≠ .borHold) ∧ (s.boot.phase ≠ .clockHold) ∧ (30720 ≤ x.toInt) ∧ (s.supply.shutdown = false)) ∧
    (∃ (s : State), (s.supply.throttle = true) ∧ (s.supply.temp.toInt ≤ 25600)) ∧
    (∃ (s : State), (s.supply.shutdown = true) ∧ (s.supply.temp.toInt ≤ 24320) ∧ (s.boot.phase = .thermalHold) ∧ (s.lostClocks.any (fun c => c == 15 || c == 16) = false) ∧ (s.boot.bootSrc.toNat < 2)) :=
  ⟨⟨{ live with supply := { settling := true } }, by decide⟩,
    ⟨1, 3, live.setField 1 { target := some 3 }, by decide⟩,
    ⟨800, live, by decide⟩,
    ⟨0, 1, live, by decide⟩,
    ⟨1, live, by decide⟩,
    ⟨{ live with supply := { diapause := true } }, by decide⟩,
    ⟨0x6000, { live with supply := { tempMax := 0x5000 } }, by decide⟩,
    ⟨0x6900, live, by decide⟩,
    ⟨0x7800, live, by decide⟩,
    ⟨{ live with supply := { throttle := true, temp := 0x6400 } }, by decide⟩,
    ⟨{ live with supply := { shutdown := true, temp := 0x5F00 }, boot := { phase := .thermalHold, resetCause := 8 } }, by decide⟩⟩

theorem witness_ResetsOfThePart :
    (∃ (b : BitVec 2) (s : State), (s.boot.phase = .por) ∧ (b.toNat < 2)) ∧
    (∃ (rail : Fin 3) (s : State), s.boot.phase ≠ .por) ∧
    (∃ (s : State), (s.boot.phase = .borHold) ∧ (s.supply.shutdown = false) ∧ (s.lostClocks.any (fun c => c == 15 || c == 16) = false) ∧ (s.boot.bootSrc.toNat < 2)) ∧
    (∃ (s : State), (s.ready = true) ∧ (s.boot.bootSrc.toNat < 2)) ∧
    (∃ (s : State), (s.ready = true) ∧ (s.boot.bootSrc.toNat < 2)) ∧
    (∃ (fault : Bool) (s : State), s.ready = true) ∧
    (∃ (f : FnId) (s : State), (s.ready = true) ∧ (f ≠ 0)) ∧
    (∃ (ep : Fin 2) (s : State), ep.val < s.part.variant.ports) ∧
    (∃ (ep : Fin 2) (s : State), (s.ready = true) ∧ (ep.val < s.part.variant.ports) ∧ (s.lostClocks = [])) :=
  ⟨⟨1, State.reset, by decide⟩,
    ⟨1, uS 0 {}, by decide⟩,
    ⟨{ live with boot := { phase := .borHold } }, by decide⟩,
    ⟨uS 0 {}, by decide⟩,
    ⟨uS 0 {}, by decide⟩,
    ⟨true, live.setLock 3 { holder := mcCode }, by decide⟩,
    ⟨1, live.setSlot 3 { state := .staged, fn := 1 }, by decide⟩,
    ⟨0, live, by decide⟩,
    ⟨0, live.setEp 0 {}, by decide⟩⟩

theorem witness_FirmwareBoots :
    (∃ (b : Option Bytes) (s : State), (s.boot.phase = .startup) ∧ (s.boot.bootStep = 2) ∧ (s.boot.bootErr = 0)) ∧
    (∃ (b : Option Bytes) (s : State), (s.boot.phase = .startup) ∧ (s.boot.bootStep = 2) ∧ (s.boot.bootErr ≠ 0)) ∧
    (∃ (s : State), (s.ready = false) ∧ (s.boot.phase ≠ .por)) ∧
    (∃ (b : Bytes) (s : State), (s.boot.phase = .waitHost) ∧ (s.boot.bootGo = true) ∧ (b.length = s.boot.bootLen.toNat)) ∧
    (∃ (k : Fin 4) (ok : Bool) (s : State), k.val ∈ s.boot.trainLeft) ∧
    (∃ (s : State), (s.boot.phase = .startup) ∧ (s.boot.bootStep = 6)) :=
  ⟨⟨some [1, 2], starting { bootStep := 2 }, by decide⟩,
    ⟨none, starting { bootStep := 2, bootErr := 1 }, by decide⟩,
    ⟨starting { bootStep := 2 }, by decide⟩,
    ⟨[], { live with boot := { phase := .waitHost, bootGo := true } }, by decide⟩,
    ⟨1, false, starting { bootStep := 5, trainLeft := [1, 2] }, by decide⟩,
    ⟨starting { bootStep := 6 }, by decide⟩⟩

theorem witness_LocksChangeHands :
    (∃ (p : Path) (l : Fin 64) (s : State), (s.ready = true) ∧ (s.reachable p = true) ∧ (s.rawLock (pathFn p) l = true) ∧ ((s.lock l).holder = 0)) ∧
    (∃ (p : Path) (l : Fin 64) (s : State), (s.ready = true) ∧ (s.reachable p = true) ∧ (s.rawLock (pathFn p) l = true) ∧ ((s.lock l).holder ≠ 0)) ∧
    (∃ (p : Path) (l : Fin 64) (s : State), (s.ready = true) ∧ (s.reachable p = true) ∧ (s.expertOk (pathFn p) = true) ∧ ((s.lock l).holder = fnCode (pathFn p))) ∧
    (∃ (p : Path) (l : Fin 64) (s : State), (s.ready = true) ∧ (s.reachable p = true) ∧ (pathFn p = 0) ∧ (l.val < 48) ∧ ((s.lock l).holder ≠ 0)) ∧
    (∃ (l : Fin 64) (cseq : B32) (w : Waiter) (k : Pkt) (m : List Waiter) (s : State), ((s.lock l).waiters = w :: m) ∧ (w.reply = some k) ∧ (k.cseq = cseq)) :=
  ⟨⟨.cspi, 47, live, by decide⟩,
    ⟨.cspi, 47, live.setLock 47 { holder := fnCode 0 }, by decide⟩,
    ⟨.cspi, 47, live.setLock 47 { holder := fnCode 0, waiters := [{ code := 3, reply := none }] }, by decide⟩,
    ⟨.cspi, 47, live.setLock 47 { holder := 3, epoch := 0xFFFF }, by decide⟩,
    ⟨3, 9, { code := 3, reply := some { pk with cseq := 9 } }, { pk with cseq := 9 }, [], live.setLock 3 { holder := 7, waiters := [{ code := 3, reply := some { pk with cseq := 9 } }] }, by decide⟩⟩

theorem witness_RegistersAndUnitWindows :
    (∃ (v : B64) (s : State), (s.ready = true) ∧ ((s.ep 0).up = true)) ∧
    (∃ (off : B32) (v : B64) (s : State), (s.ready = true) ∧ ((s.ep 0).up = true) ∧ (off.toNat % 4 ≠ 0)) ∧
    (∃ (s : State), (s.ready = true) ∧ ((s.ep 0).up = true)) ∧
    (∃ (site : Site) (s : State), (s.ready = true) ∧ ((s.ep 0).up = true) ∧ (s.works site = true)) ∧
    (∃ (s : State), (s.ready = true) ∧ ((s.ep 0).up = true)) ∧
    (∃ (f : FnId) (s : State), (s.ready = true) ∧ ((s.ep (s.epOf f)).up = true)) ∧
    (∃ (site : Site) (v : B64) (ecc : Ecc) (s : State), (s.ready = true) ∧ (s.works site = true) ∧ ((s.unit site).memAddr < memWords (kindOf site) (s.unit site).memSel) ∧ (((s.unit site).memSel < 3 → s.progOpen site = true))) ∧
    (∃ (site : Site) (v : B64) (ecc : Ecc) (s : State), (s.ready = true) ∧ (s.works site = true) ∧ ((s.unit site).memSel < 3) ∧ (s.progOpen site = false)) ∧
    (∃ (site : Site) (s : State), (s.ready = true) ∧ (s.works site = true) ∧ ((s.unit site).memAddr < memWords (kindOf site) (s.unit site).memSel) ∧ ((s.unit site).memSel ≠ 5)) ∧
    (∃ (site : Site) (s : State), (s.ready = true) ∧ (s.works site = true)) :=
  ⟨⟨0x7FFF, live, by decide⟩,
    ⟨0x10002, 7, live, by decide⟩,
    ⟨{ live with dtb := { live.dtb with now := 0x123456789 } }, by decide⟩,
    ⟨33, live.setUnit 33 { fc := { valid := true, frame := 9 } }, by decide⟩,
    ⟨{ live with greg := { badAccess := 7 } }, by decide⟩,
    ⟨1, live.setFn 1 { logDrop := 7 }, by decide⟩,
    ⟨33, 7, .clean, live.setUnit 33 { memSel := 0, memAddr := 1023 }, by decide⟩,
    ⟨33, 7, .clean, (ctxS (cx {})).setUnit 33 { inCtx := true, mem := [(0, 4)] }, by decide⟩,
    ⟨33, live.setUnit 33 { mem := [(0, 4)] }, by decide⟩,
    ⟨33, live.setUnit 33 { pc := 7, mem := [(0, 4)], halted := true }, by decide⟩⟩

theorem witness_ControlSpi :
    (∃ (b : Bytes) (s : State), (s.ready = true) ∧ (packetCause s.cspi.pktQ b = none)) ∧
    (∃ (b : Bytes) (c : Nat) (s : State), (s.ready = true) ∧ (packetCause s.cspi.pktQ b = some c)) ∧
    (∃ (r : Rec) (m : List Rec) (s : State), (s.ready = true) ∧ (s.cspi.replyQ = r :: m)) ∧
    (∃ (s : State), (s.ready = true) ∧ (s.cspi.replyQ = [])) ∧
    (∃ (s : State), s.ready = true) ∧
    (∃ (s : State), s.ready = true) ∧
    (∃ (v : B32) (s : State), s.ready = true) ∧
    (∃ (off : B16) (n : B16) (s : State), (s.ready = true) ∧ (off.toNat + n.toNat ≤ 4096)) :=
  ⟨⟨nopP.bytes, live, by decide⟩,
    ⟨[1], 0, live, by decide⟩,
    ⟨rc, [], { live with cspi := { replyQ := [rc] } }, by decide⟩,
    ⟨live, by decide⟩,
    ⟨{ live with cspi := { pktErr := true } }, by decide⟩,
    ⟨live, by decide⟩,
    ⟨0, live, by decide⟩,
    ⟨1, 2, { live with cspi := { result := [1, 2, 3] } }, by decide⟩⟩

theorem witness_StreamCommands :
    (∃ (k : Pkt) (s : State), Allowed s k 0x0000) ∧
    (∃ (k : Pkt) (st : B8) (pol : B8) (oq : B8) (p : B8) (c : Ctx) (v : VcDecl) (s : State), (Allowed s k 0x0001) ∧ (BoundStream s k st.toNat c) ∧ (pol.toNat ≤ 1) ∧ (oq.toNat ≤ 8) ∧ (oq.toNat ≠ 1) ∧ (c.state = .cocoon) ∧ ((s.strm st.toNat).started = false) ∧ (c.bindImage.multi = false) ∧ ((s.strm st.toNat).source = 0) ∧ ((s.head (st.toNat / 4)).usable = true) ∧ ((s.head (st.toNat / 4)).detach = none) ∧ ((s.head (st.toNat / 4)).chan (st.toNat % 4) = some v) ∧ (v.width.toNat = (s.bindDecl st.toNat).width) ∧ (v.height.toNat = (s.bindDecl st.toNat).height) ∧ ((s.strm st.toNat).route = 0) ∧ (p.toNat < 64) ∧ (p.toNat < s.part.variant.streams) ∧ (dieOfPool p.toNat = dieOfStream st.toNat) ∧ (mayAct (who k) (s.pool p.toNat).fn = true) ∧ ((s.pool p.toNat).ready = true) ∧ ((s.strm st.toNat).pool = p.toNat) ∧ (s.queueBytes st.toNat (if oq.toNat = 0 then 4 else oq.toNat) ≤ 2097152)) ∧
    (∃ (k : Pkt) (st : B8) (c : Ctx) (s : State), (Allowed s k 0x0001) ∧ (BoundStream s k st.toNat c) ∧ (c.state = .cocoon) ∧ ((s.strm st.toNat).started = false) ∧ (c.bindImage.multi = false) ∧ ((s.strm st.toNat).source = 2) ∧ ((s.strm st.toNat).route ≠ 0) ∧ (s.queueBytes st.toNat 4 ≤ 2097152)) ∧
    (∃ (k : Pkt) (st : B8) (imm : B8) (c : Ctx) (s : State), (Allowed s k 0x0002) ∧ (BoundStream s k st.toNat c) ∧ (imm.toNat ≤ 1) ∧ ((s.strm st.toNat).started = true) ∧ ((s.strm st.toNat).admitting = false)) ∧
    (∃ (k : Pkt) (st : B8) (c : Ctx) (f : LinkFrame) (s : State), (Allowed s k 0x0002) ∧ (BoundStream s k st.toNat c) ∧ ((s.strm st.toNat).started = true) ∧ ((s.strm st.toNat).source = 0) ∧ ((s.strm st.toNat).admitting = true) ∧ ((s.strm st.toNat).frame = some f) ∧ (f.dropping = false)) ∧
    (∃ (k : Pkt) (st : B8) (n : B8) (c : Ctx) (s : State), (Allowed s k 0x8003) ∧ (BoundStream s k st.toNat c) ∧ (1 ≤ n.toNat) ∧ (n.toNat ≤ 8) ∧ ((s.strm st.toNat).source = 0)) :=
  ⟨⟨pk, live, by decide⟩,
    ⟨pk, 0, 1, 0, 0, coc, vc0, bS coc { pool := 0 }, by decide⟩,
    ⟨pk, 0, coc, bS coc { route := 1, source := 2 }, by decide⟩,
    ⟨pk, 0, 1, cx {}, bS (cx {}) { started := true }, by decide⟩,
    ⟨pk, 0, cx {}, { fseq := 3 }, bS (cx {}) { started := true, admitting := true, frame := some { fseq := 3 } }, by decide⟩,
    ⟨pk, 0, 3, cx {}, bS (cx {}) {}, by decide⟩⟩

theorem witness_ContextFastCommands :
    (∃ (k : Pkt) (o : B8) (n : B8) (c : Ctx) (p : Placement) (s : State), (Allowed s k 0x0003) ∧ (OwnContext s k o.toNat c) ∧ (n.toNat < 64) ∧ (c.state = .cocoon) ∧ (c.variants.find? (fun q => q.slot == n.toNat) = some p) ∧ ((s.slot n.toNat).state = .staged) ∧ (c.ecl = none) ∧ ((∀ st ∈ s.ctxStreams o.toNat, (s.strm st).started = false))) ∧
    (∃ (k : Pkt) (o : B8) (st : B8) (vmask : B32) (len : B32) (c : Ctx) (s : State), (Allowed s k 0x0004) ∧ (OwnContext s k o.toNat c) ∧ (c.state ≠ .fault) ∧ (st.toNat < 64) ∧ (vmask ≠ 0) ∧ (vmask.toNat < 2 ^ c.place.image.decl.statsUnits.length) ∧ (c.snap = none)) ∧
    (∃ (k : Pkt) (o : B8) (c : Ctx) (s : State), (Allowed s k 0x8001) ∧ (OwnContext s k o.toNat c)) ∧
    (∃ (k : Pkt) (o : B8) (g : B8) (t : B8) (c : Ctx) (d : TrimDecl) (s : State), (Allowed s k 0x8006) ∧ (OwnContext s k o.toNat c) ∧ (c.state ≠ .fault) ∧ (c.state ≠ .eclosing) ∧ (c.ecl = none) ∧ (c.place.image.decl.trims[g.toNat]? = some d) ∧ (d.lo ≤ t.toInt) ∧ (t.toInt ≤ d.hi)) ∧
    (∃ (k : Pkt) (o : B8) (dest : B64) (len : B32) (c : Ctx) (s : State), (Allowed s k 0x8004) ∧ (OwnContext s k o.toNat c) ∧ (k.cspi = false) ∧ (16 ≤ len.toNat) ∧ (Memory.wf s.hostMem = true)) ∧
    (∃ (k : Pkt) (o : B8) (tb : B8) (row : B16) (src : B64) (b : Bytes) (c : Ctx) (e : EntityDecl) (v : Nat) (w : Nat) (site : Nat) (s : State), (Allowed s k 0x8005) ∧ (k.cspi = false) ∧ (OwnContext s k o.toNat c) ∧ (c.state ≠ .fault) ∧ (c.place.image.decl.entities[tb.toNat]? = some e) ∧ (row.toNat < entityRows e) ∧ (s.hostTaken src 128 = some b) ∧ (entityRow e.parts row.toNat = some (v, w)) ∧ (c.place.site v = some site) ∧ (w + 4 ≤ 16384)) :=
  ⟨⟨pk, 0, 5, { coc with variants := [{ slot := 5 }] }, { slot := 5 }, (bS { coc with variants := [{ slot := 5 }] } {}).setSlot 5 { state := .staged }, by decide⟩,
    ⟨pk, 0, 0, 1, 100, entC, ctxS entC, by decide⟩,
    ⟨pk, 0, entC, ctxS entC, by decide⟩,
    ⟨pk, 0, 0, 2, entC, { lo := -2, hi := 3 }, ctxS entC, by decide⟩,
    ⟨pk, 0, 64, 16, entC, ctxS entC, by decide⟩,
    ⟨pk, 0, 0, 2, 64, List.replicate 128 7, entC, ent0, 1, 8, 33, { ctxS entC with hostIn := [(64, some (List.replicate 128 7))] }, by decide⟩⟩

theorem witness_LockAndFlushCommands :
    (∃ (k : Pkt) (l : B8) (us : B16) (s : State), (Allowed s k 0x0005) ∧ (l.toNat < 48) ∧ ((s.lock l.toNat).holder = 0)) ∧
    (∃ (k : Pkt) (l : B8) (us : B16) (s : State), (Allowed s k 0x0005) ∧ (l.toNat < 48) ∧ (us ≠ 0) ∧ ((s.lock l.toNat).holder ≠ 0) ∧ ((s.lock l.toNat).holder ≠ fnCode (who k)) ∧ ((s.lock l.toNat).waiters.length < 8)) ∧
    (∃ (k : Pkt) (l : B8) (s : State), (Allowed s k 0x0006) ∧ (l.toNat < 64) ∧ ((s.lock l.toNat).holder = fnCode (who k))) ∧
    (∃ (k : Pkt) (l : B8) (s : State), (Allowed s k 0x0007) ∧ (l.toNat < 64)) ∧
    (∃ (k : Pkt) (i : B8) (s : State), (Allowed s k 0x8002) ∧ (i.toNat < 64) ∧ (mayAct (who k) i.toNat = true)) ∧
    (∃ (k : Pkt) (i : B8) (s : State), (Allowed s k 0x8002) ∧ (i.toNat < 64) ∧ (i.toNat < s.part.variant.streams) ∧ (mayAct (who k) (s.streamFn i.toNat) = true)) ∧
    (∃ (k : Pkt) (i : B8) (s : State), (Allowed s k 0x8002) ∧ (i.toNat < 64) ∧ (i.toNat < s.part.variant.streams) ∧ (mayAct (who k) (s.pool i.toNat).fn = true)) ∧
    (∃ (k : Pkt) (i : B8) (s : State), (Allowed s k 0x8002) ∧ (i.toNat < 4) ∧ (i.toNat < s.part.variant.yalleks)) :=
  ⟨⟨pk, 3, 0, live.setLock 3 { ownerLost := true, epoch := 5 }, by decide⟩,
    ⟨pk, 3, 7, live.setLock 3 { holder := 5 }, by decide⟩,
    ⟨pk, 3, live.setLock 3 { holder := fnCode 0, waiters := [{ code := 4, reply := none }] }, by decide⟩,
    ⟨pk, 63, live.setLock 63 { holder := 5 }, by decide⟩,
    ⟨pk, 3, live.setFn 3 { replyQ := [rc] }, by decide⟩,
    ⟨pk, 0, bS (cx {}) { oq := [{ fseq := 3 }] }, by decide⟩,
    ⟨pk, 0, live.setPool 0 { cache := [{}] }, by decide⟩,
    ⟨pk, 3, live.setYport 3 { tx := [[1]] }, by decide⟩⟩

theorem witness_OwnershipCommands :
    (∃ (k : Pkt) (s : State), Allowed s k 0x1000) ∧
    (∃ (k : Pkt) (f : B8) (e : B8) (s : State), (Allowed s k 0x1001) ∧ (f.toNat < 64) ∧ (e.toNat ≤ 1)) ∧
    (∃ (k : Pkt) (m : B64) (s : State), (Allowed s k 0x1002) ∧ (s.part.variant ≠ .k1108) ∧ (s.vfEnable = false)) ∧
    (∃ (k : Pkt) (h : B8) (f : B8) (s : State), (Allowed s k 0x1003) ∧ (OwnHead s k h.toNat) ∧ (f.toNat < 64) ∧ ((∀ v < 4, (s.strm (4 * h.toNat + v)).started = false))) ∧
    (∃ (k : Pkt) (h : B8) (f : B8) (v : Nat) (s : State), (Allowed s k 0x1003) ∧ (OwnHead s k h.toNat) ∧ (f.toNat < 64) ∧ (v < 4) ∧ ((s.strm (4 * h.toNat + v)).started = true)) ∧
    (∃ (k : Pkt) (p : B8) (f : B8) (s : State), (Allowed s k 0x1004) ∧ (p.toNat < 64) ∧ (p.toNat < s.part.variant.streams) ∧ (mayAct (who k) (s.pool p.toNat).fn = true) ∧ (f.toNat < 64) ∧ (s.poolNamed p.toNat = false)) ∧
    (∃ (k : Pkt) (p : B8) (ro : B8) (co : B8) (ring : B64) (cpl : B64) (s : State), (Allowed s k 0x1005) ∧ (p.toNat < 64) ∧ (p.toNat < s.part.variant.streams) ∧ (mayAct (who k) (s.pool p.toNat).fn = true) ∧ (4 ≤ ro.toNat) ∧ (ro.toNat ≤ 12) ∧ (4 ≤ co.toNat) ∧ (co.toNat ≤ 12) ∧ (k.cspi = false) ∧ (s.poolNamed p.toNat = false)) ∧
    (∃ (k : Pkt) (order : B8) (filter : B8) (dest : B64) (s : State), (Allowed s k 0x1008) ∧ ((bit filter.toNat 2 = true → who k = 0)) ∧ (8 ≤ order.toNat) ∧ (order.toNat ≤ 16) ∧ (filter.toNat ≤ 7) ∧ (k.cspi = false)) :=
  ⟨⟨pk, live, by decide⟩,
    ⟨pk, 3, 1, live, by decide⟩,
    ⟨pk, 0xFF, live, by decide⟩,
    ⟨pk, 3, 5, live, by decide⟩,
    ⟨pk, 0, 5, 1, live.setStrm 1 { started := true }, by decide⟩,
    ⟨pk, 3, 5, live, by decide⟩,
    ⟨pk, 3, 12, 4, 64, 128, live.setPool 3 { prod := 4, fn := 2 }, by decide⟩,
    ⟨pk, 16, 7, 64, live, by decide⟩⟩

theorem witness_ModeCommands :
    (∃ (k : Pkt) (v : B8) (s : State), (Allowed s k 0x1006) ∧ (v.toNat ≤ 1) ∧ (s.ctxs.any (fun e : Nat × Option Ctx => e.2.any (fun c => c.opened)) = false)) ∧
    (∃ (k : Pkt) (v : B8) (s : State), (Allowed s k 0x1006) ∧ (v.toNat ≤ 1) ∧ (s.ctxs.any (fun e : Nat × Option Ctx => e.2.any (fun c => c.opened)) = true)) ∧
    (∃ (k : Pkt) (v : B8) (s : State), (Allowed s k 0x1006) ∧ (v.toNat ≤ 1)) ∧
    (∃ (k : Pkt) (v : B8) (s : State), (Allowed s k 0x1006) ∧ (v.toNat ≤ 1)) ∧
    (∃ (k : Pkt) (v : B8) (s : State), (Allowed s k 0x1006) ∧ (v.toNat ≤ 1)) ∧
    (∃ (k : Pkt) (m : B8) (s : State), (Allowed s k 0x1007) ∧ (m.toNat ≤ 1)) :=
  ⟨⟨pk, 1, live, by decide⟩,
    ⟨pk, 1, ctxS { entC with opened := true }, by decide⟩,
    ⟨pk, 0, { live with modes := { openTrust := true }, heads := [(3, { state := .untrusted, openTrust := true })] }, by decide⟩,
    ⟨pk, 1, live, by decide⟩,
    ⟨pk, 1, live, by decide⟩,
    ⟨pk, 0, { live with modes := { eco := true }, hbmStacks := [(0, { trained := true, down := true })] }, by decide⟩⟩

theorem witness_TimeAndSenderCommands :
    (∃ (k : Pkt) (mode : B8) (pol : B8) (slew : B16) (thr : B32) (s : State), (Allowed s k 0x1400) ∧ (mode.toNat ≤ 2) ∧ (pol.toNat ≤ 1) ∧ (1 ≤ slew.toNat) ∧ (slew.toNat ≤ 1000) ∧ (thr.toNat ≤ 1000000000)) ∧
    (∃ (k : Pkt) (v : B64) (s : State), (Allowed s k 0x1401) ∧ (s.dtb.mode = .host) ∧ (s.dtb.pendingStep = none)) ∧
    (∃ (k : Pkt) (v : B64) (s : State), (Allowed s k 0x1401) ∧ (s.dtb.mode = .host) ∧ ((v.toInt.natAbs ≤ s.dtb.threshold ∨ s.dtb.slewOnly = true))) ∧
    (∃ (k : Pkt) (v : B64) (s : State), (Allowed s k 0x1401) ∧ (s.dtb.mode = .host) ∧ (s.dtb.threshold < v.toInt.natAbs) ∧ (s.dtb.slewOnly = false) ∧ (s.dtb.pendingStep = none)) ∧
    (∃ (k : Pkt) (v : B64) (s : State), (Allowed s k 0x1401) ∧ (s.dtb.mode = .host) ∧ ((v.toInt - addendNominal).natAbs ≤ addendBound)) ∧
    (∃ (k : Pkt) (d : B8) (en : B8) (b : Bytes) (s : State), (Allowed s k 0x1500) ∧ (d.toNat < 32) ∧ (en.toNat ≤ 1) ∧ (b.length = 208) ∧ ((en = 1 → senderRecordOk b = true)) ∧ (d.toNat / 16 < s.part.variant.ports)) ∧
    (∃ (k : Pkt) (i : Nat) (en : B8) (b : Bytes) (s : State), (Allowed s k 0x1500) ∧ (i < s.part.variant.ports) ∧ (en.toNat ≤ 1) ∧ (b.length = 208) ∧ ((en = 1 → portRecordOk b = true))) :=
  ⟨⟨pk, 2, 1, 1000, 1000000000, { live with dtb := { live.dtb with slew := 5 } }, by decide⟩,
    ⟨pk, 5, dtbHost {}, by decide⟩,
    ⟨pk, 100000, dtbHost { uncertain := true }, by decide⟩,
    ⟨pk, 100001, dtbHost {}, by decide⟩,
    ⟨pk, 0x500000001, dtbHost { slew := 5 }, by decide⟩,
    ⟨pk, 3, 0, List.replicate 208 7, live, by decide⟩,
    ⟨pk, 1, 0, List.replicate 208 7, live.setEth 1 { up := true }, by decide⟩⟩

theorem witness_AttachCommands :
    (∃ (k : Pkt) (h : B8) (p : AttachParams) (s : State), (Allowed s k 0x1100) ∧ (OwnHead s k h.toNat) ∧ (attachOk p = true) ∧ (destBad k p.report = false) ∧ ((s.head h.toNat).attaching = false) ∧ ((s.head h.toNat).detach = none) ∧ (s.headStreaming h.toNat = false) ∧ ((s.head h.toNat).present = true)) ∧
    (∃ (k : Pkt) (h : B8) (p : AttachParams) (s : State), (Allowed s k 0x1100) ∧ (OwnHead s k h.toNat) ∧ (attachOk p = true) ∧ (destBad k p.report = false) ∧ ((s.head h.toNat).attaching = false) ∧ ((s.head h.toNat).detach = none) ∧ (s.headStreaming h.toNat = false) ∧ ((s.head h.toNat).present = false)) ∧
    (∃ (k : Pkt) (h : B8) (s : State), (Allowed s k 0x1101) ∧ (OwnHead s k h.toNat) ∧ ((s.head h.toNat).attaching = false) ∧ ((s.head h.toNat).detach = none) ∧ ((∀ v < 4, (s.strm (4 * h.toNat + v)).started = false)) ∧ ((s.head h.toNat).commit = none)) ∧
    (∃ (k : Pkt) (h : B8) (s : State), (Allowed s k 0x1102) ∧ (OwnHead s k h.toNat) ∧ ((s.head h.toNat).attaching = false) ∧ ((s.head h.toNat).auth = none) ∧ ((s.head h.toNat).detach = none) ∧ (((s.head h.toNat).usable = true ∨ (s.head h.toNat).state = .fault ∧ (s.head h.toNat).cause = 2))) ∧
    (∃ (k : Pkt) (h : B8) (s : State), (Allowed s k 0x1101) ∧ (OwnHead s k h.toNat) ∧ (((s.head h.toNat).attaching = true ∨ (s.head h.toNat).detach.isSome = true))) :=
  ⟨⟨pk, 3, { auto := 1 }, live.setHead 3 { present := true }, by decide⟩,
    ⟨pk, 3, { auto := 1 }, live, by decide⟩,
    ⟨pk, 0, withHead readyHead, by decide⟩,
    ⟨pk, 0, withHead readyHead, by decide⟩,
    ⟨pk, 0, withHead { readyHead with state := .auth }, by decide⟩⟩

theorem witness_HeadSettings :
    (∃ (k : Pkt) (h : B8) (en : B8) (w : B8) (p : B32) (t0 : B64) (s : State), (Allowed s k 0x1103) ∧ (OwnHead s k h.toNat) ∧ (en.toNat ≤ 1) ∧ (1 ≤ w.toNat) ∧ (2000 ≤ p.toNat) ∧ (p.toNat ≤ 1000000000) ∧ (1000 * w.toNat + 1000 ≤ p.toNat)) ∧
    (∃ (k : Pkt) (h : B8) (g : B16) (s : State), (Allowed s k 0x1104) ∧ (OwnHead s k h.toNat) ∧ ((s.head h.toNat).usable = true) ∧ (g ≠ 0) ∧ (g.toNat < 0x7C00)) ∧
    (∃ (k : Pkt) (h : B8) (g : B16) (lines : B32) (n : Nat) (code : Nat) (clamped : Bool) (s : State), (Allowed s k 0x1105) ∧ (OwnHead s k h.toNat) ∧ ((s.head h.toNat).usable = true) ∧ (isNan16 g.toNat = false) ∧ ((s.head h.toNat).hostExposure g.toNat lines.toNat (s.limiting h.toNat) = (n, code, clamped))) ∧
    (∃ (k : Pkt) (h : B8) (mode : B8) (line : B16) (conf : B16) (lo : B32) (hi : B32) (s : State), (Allowed s k 0x1106) ∧ (OwnHead s k h.toNat) ∧ ((s.head h.toNat).usable = true) ∧ (mode.toNat ≤ 1) ∧ (line.toNat ≤ 8191) ∧ (isNan16 conf.toNat = false) ∧ (lo.toInt ≤ hi.toInt)) ∧
    (∃ (k : Pkt) (h : B8) (lens : B16) (s : State), (Allowed s k 0x1107) ∧ (OwnHead s k h.toNat)) :=
  ⟨⟨pk, 0, 1, 1, 2000, 5, live, by decide⟩,
    ⟨pk, 0, 0x3C00, withHead readyHead, by decide⟩,
    ⟨pk, 0, 0x3C00, 5, (readyHead.hostExposure 0x3C00 5 false).1, (readyHead.hostExposure 0x3C00 5 false).2.1, (readyHead.hostExposure 0x3C00 5 false).2.2, withHead readyHead, by decide⟩,
    ⟨pk, 0, 1, 8191, 0x3C00, 0xFFFFFFFF, 5, withHead readyHead, by decide⟩,
    ⟨pk, 0, 9, live, by decide⟩⟩

theorem witness_SlotCommands :
    (∃ (k : Pkt) (n : B8) (pl : B8) (len : B32) (src : B64) (s : State), (Allowed s k 0x1200) ∧ (n.toNat < 64) ∧ ((s.slot n.toNat).state = .empty) ∧ (1 ≤ len.toNat) ∧ (len.toNat ≤ 16777216) ∧ (s.sourceBad k pl.toNat src len.toNat = false)) ∧
    (∃ (k : Pkt) (n : B8) (s : State), (Allowed s k 0x1201) ∧ (OwnSlot s k n.toNat) ∧ ((s.slot n.toNat).state ≠ .empty) ∧ (s.slotBusy n.toNat = false)) ∧
    (∃ (k : Pkt) (n : B8) (d : ImageDecl) (err : Bool) (s : State), (Allowed s k 0x1202) ∧ (OwnSlot s k n.toNat) ∧ ((s.slot n.toNat).state = .stored) ∧ (s.storeFull (s.slot n.toNat).length = false)) ∧
    (∃ (b : Bytes) (len : Nat) (d : ImageDecl) (m : Image), stageCheck b len d = .ok m) ∧
    (∃ (k : Pkt) (n : B8) (s : State), (Allowed s k 0x1203) ∧ (OwnSlot s k n.toNat) ∧ ((s.slot n.toNat).state = .staged) ∧ (s.slotBusy n.toNat = false)) ∧
    (∃ (k : Pkt) (n : B8) (s : State), (Allowed s k 0x1203) ∧ (OwnSlot s k n.toNat) ∧ ((s.slot n.toNat).state = .staged) ∧ (s.slotBusy n.toNat = true)) :=
  ⟨⟨pk, 5, 0, 96, 4096, live, by decide⟩,
    ⟨pk, 5, slotS m0, by decide⟩,
    ⟨pk, 5, { streams := [{}] }, false, { live.setSlot 5 { state := .stored, host := true, src := 64, length := 96 } with hostIn := [(64, some imgBytes)] }, by decide⟩,
    ⟨imgBytes, 96, { streams := [{}] }, imageOf imgBytes { streams := [{}] }, by decide⟩,
    ⟨pk, 5, slotS m0, by decide⟩,
    ⟨pk, 5, (slotS m0).setCtx 0 (some { cx {} with ecl := some { kind := 2, place := { slot := 5 } } }), by decide⟩⟩

theorem witness_ContextsLoad :
    (∃ (k : Pkt) (n : B8) (rep : B8) (ow : B8) (dest : B64) (binds : List Bind) (m : Image) (o : Nat) (s : State), (Allowed s k 0x1204) ∧ (Loadable s k n.toNat rep.toNat 16 dest binds m) ∧ (o < 16) ∧ (s.ctx o = none) ∧ ((∀ j < o, s.ctx j ≠ none))) ∧
    (∃ (k : Pkt) (n : B8) (rep : B8) (ow : B8) (dest : B64) (binds : List Bind) (m : Image) (s : State), (Allowed s k 0x1204) ∧ (Loadable s k n.toNat rep.toNat 16 dest binds m) ∧ ((∀ j < 16, s.ctx j ≠ none))) ∧
    (∃ (k : Pkt) (n : B8) (rep : B8) (o : B8) (dest : B64) (binds : List Bind) (m : Image) (c : Ctx) (s : State), (Allowed s k 0x1204) ∧ (Loadable s k n.toNat rep.toNat o.toNat dest binds m) ∧ (OwnContext s k o.toNat c) ∧ (c.state = .running) ∧ (c.ecl = none) ∧ (c.replace = none)) ∧
    (∃ (k : Pkt) (o : B8) (c : Ctx) (s : State), (Allowed s k 0x1205) ∧ (OwnContext s k o.toNat c) ∧ ((c.state = .cocoon ∨ c.state = .fault)) ∧ (c.ecl = none) ∧ (c.replace = none)) :=
  ⟨⟨pk, 5, 1, 0, 0, b0, m0, 1, (slotS m0).setCtx 0 (some (cx {})), by decide⟩,
    ⟨pk, 5, 1, 0, 0, b0, m0, full, by decide⟩,
    ⟨pk, 5, 1, 0, 0, b0, m0, cx {}, (slotS m0).setCtx 0 (some (cx {})), by decide⟩,
    ⟨pk, 0, coc, ctxS coc, by decide⟩⟩

theorem witness_VariantsAndPlacement :
    (∃ (k : Pkt) (o : B8) (n : B8) (c : Ctx) (m : Image) (s : State), (Allowed s k 0x1206) ∧ (OwnContext s k o.toNat c) ∧ (c.state ≠ .fault) ∧ (OwnSlot s k n.toNat) ∧ ((s.slot n.toNat).state = .staged) ∧ ((s.slot n.toNat).image = some m) ∧ (m.variant = true) ∧ (m.streams = c.place.image.streams) ∧ (m.repMin ≤ c.place.replicas) ∧ (c.place.replicas ≤ m.repMax) ∧ ((∀ p ∈ c.variants, p.slot ≠ n.toNat)) ∧ (c.ecl = none)) ∧
    (∃ (k : Pkt) (o : B8) (n : B8) (c : Ctx) (p : Placement) (s : State), (Allowed s k 0x1207) ∧ (OwnContext s k o.toNat c) ∧ (c.state ≠ .fault) ∧ (n.toNat < 64) ∧ (p ∈ c.variants) ∧ (p.slot = n.toNat) ∧ (c.ecl = none)) ∧
    (∃ (k : Pkt) (n : B8) (rep : B8) (ow : B8) (dest : B64) (binds : List Bind) (lists : Lists) (m : Image) (o : Nat) (s : State), (Allowed s k 0x9000) ∧ (k.cspi = false) ∧ (Loadable s k n.toNat rep.toNat 16 dest binds m) ∧ (o < 16) ∧ (s.ctx o = none) ∧ ((∀ j < o, s.ctx j ≠ none))) ∧
    (∃ (k : Pkt) (o : B8) (n : B8) (lists : Lists) (c : Ctx) (m : Image) (s : State), (Allowed s k 0x9001) ∧ (k.cspi = false) ∧ (OwnContext s k o.toNat c) ∧ (c.state ≠ .fault) ∧ (OwnSlot s k n.toNat) ∧ ((s.slot n.toNat).state = .staged) ∧ ((s.slot n.toNat).image = some m) ∧ (m.variant = true) ∧ (m.streams = c.place.image.streams) ∧ (m.repMin ≤ c.place.replicas) ∧ (c.place.replicas ≤ m.repMax) ∧ ((∀ p ∈ c.variants, p.slot ≠ n.toNat)) ∧ (c.ecl = none)) ∧
    (∃ (k : Pkt) (o : B8) (e : PatchEntry) (c : Ctx) (s : State), (Allowed s k 0x9002) ∧ (k.cspi = false) ∧ (OwnContext s k o.toNat c) ∧ (c.state ≠ .fault) ∧ (e.site.toNat < 768) ∧ (e.output.toNat < 5) ∧ (e.slot.toNat < 64) ∧ ((s.takenEntries o.toNat).contains (e.site.toNat, e.output.toNat, e.slot.toNat) = false)) ∧
    (∃ (k : Pkt) (o : B8) (es : List PatchEntry) (e : PatchEntry) (c : Ctx) (s : State), (Allowed s k 0x9002) ∧ (k.cspi = false) ∧ (OwnContext s k o.toNat c) ∧ (c.state ≠ .fault) ∧ (e ∈ es) ∧ (es.length ≤ 4096) ∧ (es.all patchOk = true) ∧ ((s.takenEntries o.toNat).contains (e.site.toNat, e.output.toNat, e.slot.toNat) = true)) :=
  ⟨⟨pk, 0, 5, cx {}, { m0 with variant := true }, (slotS { m0 with variant := true }).setCtx 0 (some (cx {})), by decide⟩,
    ⟨pk, 0, 5, varC, { slot := 5 }, ctxS varC, by decide⟩,
    ⟨pk, 5, 1, 0, 0, b0, {}, m0, 0, slotS m0, by decide⟩,
    ⟨pk, 0, 5, {}, cx {}, { m0 with variant := true }, (slotS { m0 with variant := true }).setCtx 0 (some (cx {})), by decide⟩,
    ⟨pk, 0, { site := 767, output := 4, slot := 63, entry := 0x8000 }, cx {}, ctxS (cx {}), by decide⟩,
    ⟨pk, 0, [{ site := 767, output := 4, slot := 63, entry := 0x8000 }], { site := 767, output := 4, slot := 63, entry := 0x8000 }, cx {}, (ctxS (cx {})).setRouter 767 { slots := [(319, 0x8100)] }, by decide⟩⟩

theorem witness_SceneAndModelCommands :
    (∃ (k : Pkt) (st : B8) (model : B8) (hold : B8) (conf : B16) (table : List B8) (c : Ctx) (cs : Ctx) (d : ModelDecl) (s : State), (Allowed s k 0x1208) ∧ (BoundStream s k st.toNat c) ∧ (hold.toNat ≤ 7) ∧ (isNan16 conf.toNat = false) ∧ (table.length = 16) ∧ ((∀ b ∈ table, b.toNat ≤ 63 ∨ b = 255)) ∧ (s.sceneCtx st.toNat = some cs) ∧ (cs.place.image.decl.models[model.toNat]? = some d) ∧ (d.link = 3)) ∧
    (∃ (k : Pkt) (st : B8) (loop : B8) (frames : B32) (bytes : B32) (src : B64) (c : Ctx) (s : State), (Allowed s k 0x1209) ∧ (BoundStream s k st.toNat c) ∧ (loop.toNat ≤ 1) ∧ (frames ≠ 0) ∧ ((s.strm st.toNat).source = 1) ∧ ((s.strm st.toNat).started = false) ∧ (2 * (s.bindDecl st.toNat).width * (s.bindDecl st.toNat).height ≤ bytes.toNat) ∧ (s.sourceBad k 0 src (frames.toNat * bytes.toNat) = false)) ∧
    (∃ (k : Pkt) (st : B8) (pattern : B8) (seed : B16) (c : Ctx) (s : State), (Allowed s k 0x120A) ∧ (BoundStream s k st.toNat c) ∧ (pattern.toNat ≤ 2) ∧ ((s.strm st.toNat).source = 2)) ∧
    (∃ (k : Pkt) (o : B8) (m : B8) (pl : B8) (len : B32) (src : B64) (err : Bool) (c : Ctx) (d : ModelDecl) (s : State), (Allowed s k 0x1300) ∧ (OwnContext s k o.toNat c) ∧ (c.state ≠ .fault) ∧ (pl.toNat ≤ 1) ∧ (c.model m.toNat = some d) ∧ (s.sourceBad k pl.toNat src len.toNat = false)) ∧
    (∃ (k : Pkt) (o : B8) (tb : B8) (key : B16) (c : Ctx) (s : State), (Allowed s k 0x1301) ∧ (OwnContext s k o.toNat c) ∧ (c.state ≠ .fault) ∧ (tb.toNat < c.place.image.decl.entities.length)) :=
  ⟨⟨pk, 0, 0, 7, 0x3C00, List.replicate 15 63 ++ [255], scC, scC, { link := 3, outputs := 2 }, bS scC {}, by decide⟩,
    ⟨pk, 0, 1, 2, 32, 4096, cx {}, bS (cx {}) { source := 1 }, by decide⟩,
    ⟨pk, 0, 2, 9, cx {}, bS (cx {}) { source := 2 }, by decide⟩,
    ⟨pk, 0, 0, 0, 64, 4096, false, scC, { link := 3, outputs := 2 }, ctxS scC, by decide⟩,
    ⟨pk, 0, 0, 9, entC, ctxS entC, by decide⟩⟩

theorem witness_BoardCommands :
    (∃ (k : Pkt) (h : B8) (ad : B8) (wlen : B8) (rlen : B8) (data : Bytes) (reply : Option Bytes) (s : State), (Allowed s k 0x9003) ∧ (OwnHead s k h.toNat) ∧ (ad.toNat ≤ 127) ∧ (wlen.toNat ≤ 64) ∧ (rlen.toNat ≤ 12) ∧ (((s.head h.toNat).usable = true ∨ (s.head h.toNat).state = .fault))) ∧
    (∃ (k : Pkt) (f : B8) (p : B8) (s : State), (Allowed s k 0x9004) ∧ (f.toNat < 4) ∧ (p.toNat ≤ 6)) ∧
    (∃ (k : Pkt) (f : B8) (s : State), (Allowed s k 0x9005) ∧ (f.toNat < 4)) ∧
    (∃ (k : Pkt) (site : B16) (s : State), (Allowed s k 0x9006) ∧ (site.toNat < 768) ∧ (s.works site.toNat = true)) ∧
    (∃ (k : Pkt) (p : B8) (len : B16) (src : B64) (b : Bytes) (s : State), (Allowed s k 0x9007) ∧ (k.cspi = false) ∧ (p.toNat < 2) ∧ (p.toNat < s.part.variant.ports) ∧ (60 ≤ len.toNat) ∧ (len.toNat ≤ 1514) ∧ (s.ethLive p.toNat = true) ∧ ((s.eth p.toNat).up = true) ∧ (s.hostTaken src len.toNat = some b)) ∧
    (∃ (k : Pkt) (p : B8) (record : Bytes) (route : Nat) (c : CutDecl) (s : State), (Allowed s k 0x9008) ∧ (p.toNat < 4) ∧ (p.toNat < s.part.variant.yalleks) ∧ (record.length = 32) ∧ (fieldLe record 0 1 = 0) ∧ (fieldLe record 1 1 = route) ∧ ((∀ x ∈ record.drop 4, x = 0)) ∧ ((s.yport p.toNat).up = true) ∧ ((s.portLink p.toNat).isSome = true) ∧ (s.cut p.toNat route = some c) ∧ (c.sync = true) ∧ ((s.yport p.toNat).alignPkt = none)) ∧
    (∃ (k : Pkt) (p : B8) (record : Bytes) (route : Nat) (c : CutDecl) (s : State), (Allowed s k 0x9008) ∧ (p.toNat < 4) ∧ (p.toNat < s.part.variant.yalleks) ∧ (record.length = 32) ∧ (fieldLe record 0 1 = 1) ∧ (fieldLe record 1 1 = route) ∧ ((∀ x ∈ record.drop 4, x = 0)) ∧ ((s.yport p.toNat).up = true) ∧ ((s.portLink p.toNat).isSome = true) ∧ (s.cut p.toNat route = some c) ∧ (c.sync = true) ∧ ((s.yport p.toNat).alignPkt = none)) :=
  ⟨⟨pk, 0, 0x7F, 2, 12, [1, 2], some [3, 4], withHead readyHead, by decide⟩,
    ⟨pk, 3, 5, live, by decide⟩,
    ⟨pk, 3, live, by decide⟩,
    ⟨pk, 767, live.setUnit 767 { pc := 4 }, by decide⟩,
    ⟨pk, 1, 60, 64, List.replicate 60 1, { live.setEth 1 { enabled := true, up := true } with hostIn := [(64, some (List.replicate 60 1))] }, by decide⟩,
    ⟨pk, 0, [0, 4] ++ List.replicate 30 0, 4, { route := 4, port := 0, sync := true }, yBound { probes := [(4, [1])] }, by decide⟩,
    ⟨pk, 0, [1, 4, 7, 0] ++ List.replicate 28 0, 4, { route := 4, port := 0, sync := true }, yBound { probes := [(4, [1])] }, by decide⟩⟩

theorem witness_HarvestGradeHolds :
    ∃ (s : State) (t : State), (s.gradeOk = true) ∧ (step s = .next t) :=
  ⟨qd (.nop pk), nx (step (qd (.nop pk))), ⟨by decide, rfl⟩⟩

theorem witness_HazardsAreCounted :
    (∃ (site : Nat) (kind : Nat) (st : Nat) (f8 : Nat) (line : Nat) (pc : Option Nat) (s : State), s.modes.hazard = false) ∧
    (∃ (site : Nat) (kind : Nat) (st : Nat) (f8 : Nat) (line : Nat) (pc : Option Nat) (s : State), (s.modes.hazard = true) ∧ (s.modes.hazFault = false) ∧ ((s.unit site).inCtx = true) ∧ (s.running (s.unit site).owner = true)) :=
  ⟨⟨5, 1, 0, 0, 3, none, live, by decide⟩,
    ⟨0, 1, 0, 0, 3, none, { uS 0 (un [0] {}) with modes := { hazard := true } }, by decide⟩⟩

end Tests
end

/-! What one command may change, for every command: the components that `writes` lists for it. -/

namespace Sys2Proof.Machine
variable {wz : Nat} {s₀ : State}

/-- A set of components as a set of bits, bit i for component i of `Zone`. -/
def zoneMask (l : List Zone) : Nat := l.foldl (fun m z => m ||| 2 ^ z.ctorIdx) 0

/-- A command keeps every component outside a set that holds its `writes`, and both memories' canonical form. -/
theorem exec_keeps (c : Instr) (hW : Within (zoneMask (writes c)) wz) (s : State) (hm : Keeps wz s₀ s) :
    ∀ t, exec c s = .next t → Keeps wz s₀ t := by
  cases c with
  | headInserted h => exact execHeadInserted_keeps hW h s hm
  | headRemoved h => exact execHeadRemoved_keeps hW h s hm
  | headInt h => exact execHeadInt_keeps hW h s hm
  | headIbi h target data => exact execHeadIbi_keeps hW h target data s hm
  | frameStart h vc hdr fn => exact execFrameStart_keeps hW h vc hdr fn s hm
  | frameEnd h vc hdr => exact execFrameEnd_keeps hW h vc hdr s hm
  | lineStartPacket h vc hdr number err => exact execLineStartPacket_keeps hW h vc hdr number err s hm
  | lineEndPacket h vc hdr => exact execLineEndPacket_keeps hW h vc hdr s hm
  | linePayload h vc hdr dt payload crc err => exact execLinePayload_keeps hW h vc hdr dt payload crc err s hm
  | embeddedData h vc hdr dt payload crc => exact execEmbeddedData_keeps hW h vc hdr dt payload crc s hm
  | linkTimeout st => exact execLinkTimeout_keeps hW st s hm
  | missingLineSupply st => exact execMissingLineSupply_keeps hW st s hm
  | lineTake st => exact execLineTake_keeps hW st s hm
  | fsyncPulse h => exact execFsyncPulse_keeps hW h s hm
  | fsyncPulseEnd h => exact execFsyncPulseEnd_keeps hW h s hm
  | headTempRead h value => exact execHeadTempRead_keeps hW h value s hm
  | ledgerCommit h => exact execLedgerCommit_keeps hW h s hm
  | ledgerReadback h copy => exact execLedgerReadback_keeps hW h copy s hm
  | attachSettled h r => exact execAttachSettled_keeps hW h r s hm
  | authPoll h signature => exact execAuthPoll_keeps hW h signature s hm
  | authTimeout h => exact execAuthTimeout_keeps hW h s hm
  | reauthentication h => exact execReauthentication_keeps hW h s hm
  | focusWrite st fseq focus conf => exact execFocusWrite_keeps hW st fseq focus conf s hm
  | exposureWrite h => exact execExposureWrite_keeps hW h s hm
  | i3cTransferComplete h => exact execI3cTransferComplete_keeps hW h s hm
  | edgeLineAdmit st => exact execEdgeLineAdmit_keeps hW st s hm
  | pacedLineStart st => exact execPacedLineStart_keeps hW st s hm
  | replayPrefetch st ecc => exact execReplayPrefetch_keeps hW st ecc s hm
  | flitForward site slot => exact execFlitForward_keeps hW site slot s hm
  | flitEject dst ecc => exact execFlitEject_keeps hW dst ecc s hm
  | sideLinkFlit site east => exact execSideLinkFlit_keeps hW site east s hm
  | gateWrite g => exact execGateWrite_keeps hW g s hm
  | gateFlitVisible g => exact execGateFlitVisible_keeps hW g s hm
  | gateSlotFreed g => exact execGateSlotFreed_keeps hW g s hm
  | exchangeCreditReturn site lane n => exact execExchangeCreditReturn_keeps hW site lane n s hm
  | tagDeadlock site => exact execTagDeadlock_keeps hW site s hm
  | microNop site w => exact execMicroNop_keeps hW site w s hm
  | pop site w => exact execPop_keeps hW site w s hm
  | push site w => exact execPush_keeps hW site w s hm
  | ldw site w => exact execLdw_keeps hW site w s hm
  | mac site w => exact execMac_keeps hW site w s hm
  | acc site w => exact execAcc_keeps hW site w s hm
  | bias site w => exact execBias_keeps hW site w s hm
  | req site w => exact execReq_keeps hW site w s hm
  | reqDrain site => exact execReqDrain_keeps hW site s hm
  | act site w => exact execAct_keeps hW site w s hm
  | pool site w => exact execPool_keeps hW site w s hm
  | add site w => exact execAdd_keeps hW site w s hm
  | mul site w => exact execMul_keeps hW site w s hm
  | mov site w => exact execMov_keeps hW site w s hm
  | loop site w => exact execLoop_keeps hW site w s hm
  | endl site w => exact execEndl_keeps hW site w s hm
  | emit site w => exact execEmit_keeps hW site w s hm
  | sync site w => exact execSync_keeps hW site w s hm
  | spill site w => exact execSpill_keeps hW site w s hm
  | rot site w => exact execRot_keeps hW site w s hm
  | dwc site w => exact execDwc_keeps hW site w s hm
  | stats site w => exact execStats_keeps hW site w s hm
  | tcmp site w => exact execTcmp_keeps hW site w s hm
  | tleaf site w => exact execTleaf_keeps hW site w s hm
  | illegalOp site w => exact execIllegalOp_keeps hW site w s hm
  | progUe site => exact execProgUe_keeps hW site s hm
  | generatorSequence site gen n ecc => exact execGeneratorSequence_keeps hW site gen n ecc s hm
  | statsRecordSend site => exact execStatsRecordSend_keeps hW site s hm
  | statsBankClose site => exact execStatsBankClose_keeps hW site s hm
  | statsBankRelease site => exact execStatsBankRelease_keeps hW site s hm
  | scrubRead site ecc raced => exact execScrubRead_keeps hW site ecc raced s hm
  | serviceAccess site a => exact execServiceAccess_keeps hW site a s hm
  | tailLineRelease st => exact execTailLineRelease_keeps hW st s hm
  | treeEvalStart o model => exact execTreeEvalStart_keeps hW o model s hm
  | treeResultPost o model => exact execTreeResultPost_keeps hW o model s hm
  | sceneLatch st => exact execSceneLatch_keeps hW st s hm
  | eclosionStart o => exact execEclosionStart_keeps hW o s hm
  | eclosionDone o => exact execEclosionDone_keeps hW o s hm
  | contextCocoon o => exact execContextCocoon_keeps hW o s hm
  | contextAborted o => exact execContextAborted_keeps hW o s hm
  | contextReleased o => exact execContextReleased_keeps hW o s hm
  | ecloseTimeout o => exact execEcloseTimeout_keeps hW o s hm
  | stallAssert g => exact execStallAssert_keeps hW g s hm
  | freezeSet m => exact execFreezeSet_keeps hW m s hm
  | stallMinHoldEnd g => exact execStallMinHoldEnd_keeps hW g s hm
  | freezeClear m cycles => exact execFreezeClear_keeps hW m cycles s hm
  | stallOff g => exact execStallOff_keeps hW g s hm
  | arbitration a present cycles => exact execArbitration_keeps hW a present cycles s hm
  | backoffEnd a input => exact execBackoffEnd_keeps hW a input s hm
  | forced a input => exact execForced_keeps hW a input s hm
  | withdraw a input => exact execWithdraw_keeps hW a input s hm
  | queueWordWrite q word endMark crcOk => exact execQueueWordWrite_keeps hW q word endMark crcOk s hm
  | queueAbort q => exact execQueueAbort_keeps hW q s hm
  | queueReserve q producer len => exact execQueueReserve_keeps hW q producer len s hm
  | queueSlotWrite q producer slot body => exact execQueueSlotWrite_keeps hW q producer slot body s hm
  | queueRead q => exact execQueueRead_keeps hW q s hm
  | outputFlit st => exact execOutputFlit_keeps hW st s hm
  | outputLineSend st => exact execOutputLineSend_keeps hW st s hm
  | poolDescriptorFetch p data => exact execPoolDescriptorFetch_keeps hW p data s hm
  | cmdFetch f packet => exact execCmdFetch_keeps hW f packet s hm
  | cmdDispatch f cspi => exact execCmdDispatch_keeps hW f cspi s hm
  | replyWrite f ok => exact execReplyWrite_keeps hW f ok s hm
  | replyInterrupt f => exact execReplyInterrupt_keeps hW f s hm
  | logInterrupt f => exact execLogInterrupt_keeps hW f s hm
  | completionInterrupt f => exact execCompletionInterrupt_keeps hW f s hm
  | eventRecord input => exact execEventRecord_keeps hW input s hm
  | overrun input => exact execOverrun_keeps hW input s hm
  | logDistribute => exact execLogDistribute_keeps hW s hm
  | frameRecord st => exact execFrameRecord_keeps hW st s hm
  | clkLoss clk count => exact execClkLoss_keeps hW clk count s hm
  | clkFast clk count => exact execClkFast_keeps hW clk count s hm
  | clkRestored clk => exact execClkRestored_keeps hW clk s hm
  | xinRestored => exact execXinRestored_keeps hW s hm
  | dtbStep => exact execDtbStep_keeps hW s hm
  | dtbShadowRealign => exact execDtbShadowRealign_keeps hW s hm
  | ptpSync port t1 t2 => exact execPtpSync_keeps hW port t1 t2 s hm
  | ptpDelayReq port t3 t4 => exact execPtpDelayReq_keeps hW port t3 t4 s hm
  | ptpAnnounce port domain m => exact execPtpAnnounce_keeps hW port domain m s hm
  | ptpHoldover port => exact execPtpHoldover_keeps hW port s hm
  | ptpPort => exact execPtpPort_keeps hW s hm
  | vidSettled => exact execVidSettled_keeps hW s hm
  | dvfsSlewDone f => exact execDvfsSlewDone_keeps hW f s hm
  | pwarn mv => exact execPwarn_keeps hW mv s hm
  | vddArrWarning f mv => exact execVddArrWarning_keeps hW f mv s hm
  | vrFault mv => exact execVrFault_keeps hW mv s hm
  | diapauseExit => exact execDiapauseExit_keeps hW s hm
  | bor rail => exact execBor_keeps hW rail s hm
  | borRelease => exact execBorRelease_keeps hW s hm
  | por pin => exact execPor_keeps hW pin s hm
  | startupComplete => exact execStartupComplete_keeps hW s hm
  | qspiBootRead copy image => exact execQspiBootRead_keeps hW copy image s hm
  | hostBootRead image => exact execHostBootRead_keeps hW image s hm
  | tempReading t => exact execTempReading_keeps hW t s hm
  | thermalClear => exact execThermalClear_keeps hW s hm
  | thermalRecovery => exact execThermalRecovery_keeps hW s hm
  | mcRestart firmwareFault verified => exact execMcRestart_keeps hW firmwareFault verified s hm
  | flr f => exact execFlr_keeps hW f s hm
  | pcieAPerst => exact execPcieAPerst_keeps hW s hm
  | pcieBPerst => exact execPcieBPerst_keeps hW s hm
  | pcieLinkDown ep => exact execPcieLinkDown_keeps hW ep s hm
  | hbmBurst k a => exact execHbmBurst_keeps hW k a s hm
  | hbmPowerDown k => exact execHbmPowerDown_keeps hW k s hm
  | hbmRefresh k => exact execHbmRefresh_keeps hW k s hm
  | yallekIdentSend p => exact execYallekIdentSend_keeps hW p s hm
  | yallekBringupTimeout p => exact execYallekBringupTimeout_keeps hW p s hm
  | sporeIdent p spore die => exact execSporeIdent_keeps hW p spore die s hm
  | sporeFlit p spore => exact execSporeFlit_keeps hW p spore s hm
  | sporeLine p spore => exact execSporeLine_keeps hW p spore s hm
  | sporeLock p spore op => exact execSporeLock_keeps hW p spore op s hm
  | sporeBind p spore b => exact execSporeBind_keeps hW p spore b s hm
  | sporeUnbind p spore graph => exact execSporeUnbind_keeps hW p spore graph s hm
  | peerReset p spore => exact execPeerReset_keeps hW p spore s hm
  | sporeAck p spore => exact execSporeAck_keeps hW p spore s hm
  | sporeNak p spore => exact execSporeNak_keeps hW p spore s hm
  | sporeStall p spore => exact execSporeStall_keeps hW p spore s hm
  | sporeAlign p spore route stamp => exact execSporeAlign_keeps hW p spore route stamp s hm
  | sporeRetransmitTimeout p => exact execSporeRetransmitTimeout_keeps hW p s hm
  | nakRepeat p => exact execNakRepeat_keeps hW p s hm
  | ackSend p => exact execAckSend_keeps hW p s hm
  | flitSporeClose p => exact execFlitSporeClose_keeps hW p s hm
  | yallekDown p cause => exact execYallekDown_keeps hW p cause s hm
  | syncEntryVisible p route => exact execSyncEntryVisible_keeps hW p route s hm
  | ethLinkChange p up => exact execEthLinkChange_keeps hW p up s hm
  | arpRequest p mac ip target => exact execArpRequest_keeps hW p mac ip target s hm
  | igmpReport p => exact execIgmpReport_keeps hW p s hm
  | ethFrameDiscard p => exact execEthFrameDiscard_keeps hW p s hm
  | st2110Packet d => exact execSt2110Packet_keeps hW d s hm
  | metadataDatagram p sent => exact execMetadataDatagram_keeps hW p sent s hm
  | captureRecord r room => exact execCaptureRecord_keeps hW r room s hm
  | dumpDone ok => exact execDumpDone_keeps hW ok s hm
  | snapshotComplete o => exact execSnapshotComplete_keeps hW o s hm
  | lockWaitTimeout l cseq => exact execLockWaitTimeout_keeps hW l cseq s hm
  | ringResetDone f => exact execRingResetDone_keeps hW f s hm
  | cmdTail f v => exact execCmdTail_keeps hW f v s hm
  | ringReset f => exact execRingReset_keeps hW f s hm
  | poolDoorbell f v => exact execPoolDoorbell_keeps hW f v s hm
  | registerWrite p off bytes v => exact execRegisterWrite_keeps hW p off bytes v s hm
  | registerLowRead p off => exact execRegisterLowRead_keeps hW p off s hm
  | fcFseqRead site => exact execFcFseqRead_keeps hW site s hm
  | badAccessRead => exact execBadAccessRead_keeps hW s hm
  | logDropRead f => exact execLogDropRead_keeps hW f s hm
  | capDropRead => exact execCapDropRead_keeps hW s hm
  | lockAcq p l => exact execLockAcq_keeps hW p l s hm
  | lockReleaseWrite p l => exact execLockReleaseWrite_keeps hW p l s hm
  | lockForceWrite p l => exact execLockForceWrite_keeps hW p l s hm
  | memData site w ecc => exact execMemData_keeps hW site w ecc s hm
  | unitCtrlUnitReset site => exact execUnitCtrlUnitReset_keeps hW site s hm
  | warmReset => exact execWarmReset_keeps hW s hm
  | capEn on => exact execCapEn_keeps hW on s hm
  | dumpGo => exact execDumpGo_keeps hW s hm
  | bootGo => exact execBootGo_keeps hW s hm
  | writePacket bytes => exact execWritePacket_keeps hW bytes s hm
  | readReply => exact execReadReply_keeps hW s hm
  | readStatus => exact execReadStatus_keeps hW s hm
  | readReg off => exact execReadReg_keeps hW off s hm
  | writeReg off v => exact execWriteReg_keeps hW off v s hm
  | readResult off n => exact execReadResult_keeps hW off n s hm
  | nop k => exact execNop_keeps hW k s hm
  | streamStart k stream policy switching oqLines pool when_ atDtb => exact execStreamStart_keeps hW k stream policy switching oqLines pool when_ atDtb s hm
  | streamStop k target kind immediate => exact execStreamStop_keeps hW k target kind immediate s hm
  | ecloseVariant k owner slot when_ => exact execEcloseVariant_keeps hW k owner slot when_ s hm
  | statsSnapshot k owner stream which vmask dest length => exact execStatsSnapshot_keeps hW k owner stream which vmask dest length s hm
  | lockAcquire k lock wait timeoutUs => exact execLockAcquire_keeps hW k lock wait timeoutUs s hm
  | lockRelease k lock => exact execLockRelease_keeps hW k lock s hm
  | lockQuery k lock => exact execLockQuery_keeps hW k lock s hm
  | contextAbort k owner => exact execContextAbort_keeps hW k owner s hm
  | queueFlush k cls index => exact execQueueFlush_keeps hW k cls index s hm
  | dropThreshold k stream lines => exact execDropThreshold_keeps hW k stream lines s hm
  | unitCounters k owner dest length => exact execUnitCounters_keeps hW k owner dest length s hm
  | entityWrite k owner table row count src => exact execEntityWrite_keeps hW k owner table row count src s hm
  | exponentTrim k owner group t => exact execExponentTrim_keeps hW k owner group t s hm
  | fwNop k => exact execFwNop_keeps hW k s hm
  | fnGrant k fn expert => exact execFnGrant_keeps hW k fn expert s hm
  | vfMap k map => exact execVfMap_keeps hW k map s hm
  | headAssign k head fn => exact execHeadAssign_keeps hW k head fn s hm
  | poolAssign k pool fn => exact execPoolAssign_keeps hW k pool fn s hm
  | poolSetup k pool ringOrder cplOrder ring cpl => exact execPoolSetup_keeps hW k pool ringOrder cplOrder ring cpl s hm
  | modeSet k axis value => exact execModeSet_keeps hW k axis value s hm
  | powerMode k mode => exact execPowerMode_keeps hW k mode s hm
  | logRing k order filter dest => exact execLogRing_keeps hW k order filter dest s hm
  | hbmWrite k length hbm data => exact execHbmWrite_keeps hW k length hbm data s hm
  | headAttach k head params => exact execHeadAttach_keeps hW k head params s hm
  | headDetach k head => exact execHeadDetach_keeps hW k head s hm
  | headAuth k head => exact execHeadAuth_keeps hW k head s hm
  | headFsync k head enable widthUs periodNs t0 => exact execHeadFsync_keeps hW k head enable widthUs periodNs t0 s hm
  | headGain k head gain => exact execHeadGain_keeps hW k head gain s hm
  | headExposure k head gain lines => exact execHeadExposure_keeps hW k head gain lines s hm
  | headActuator k head mode triggerLine confMin actMin actMax => exact execHeadActuator_keeps hW k head mode triggerLine confMin actMin actMax s hm
  | headLens k head lens => exact execHeadLens_keeps hW k head lens s hm
  | slotDefine k slot where_ length src => exact execSlotDefine_keeps hW k slot where_ length src s hm
  | slotUndefine k slot => exact execSlotUndefine_keeps hW k slot s hm
  | slotStage k slot decl memError => exact execSlotStage_keeps hW k slot decl memError s hm
  | slotUnstage k slot => exact execSlotUnstage_keeps hW k slot s hm
  | contextLoad k slot replicas flags owner dest binds => exact execContextLoad_keeps hW k slot replicas flags owner dest binds s hm
  | contextUnload k owner => exact execContextUnload_keeps hW k owner s hm
  | placeVariant k owner slot => exact execPlaceVariant_keeps hW k owner slot s hm
  | unplaceVariant k owner slot => exact execUnplaceVariant_keeps hW k owner slot s hm
  | sceneSet k stream model hold confMin table => exact execSceneSet_keeps hW k stream model hold confMin table s hm
  | replaySet k stream where_ loop frames frameBytes src => exact execReplaySet_keeps hW k stream where_ loop frames frameBytes src s hm
  | patternSet k stream pattern seed => exact execPatternSet_keeps hW k stream pattern seed s hm
  | modelLoad k owner model where_ length src memError => exact execModelLoad_keeps hW k owner model where_ length src memError s hm
  | entityKey k owner table key => exact execEntityKey_keeps hW k owner table key s hm
  | timeMode k mode policy slewPpm thresholdNs => exact execTimeMode_keeps hW k mode policy slewPpm thresholdNs s hm
  | timeAdjust k kind value => exact execTimeAdjust_keeps hW k kind value s hm
  | st2110Sender k sender enable record => exact execSt2110Sender_keeps hW k sender enable record s hm
  | loadPlaced k slot replicas flags owner dest binds lists => exact execLoadPlaced_keeps hW k slot replicas flags owner dest binds lists s hm
  | placeVariantPlaced k owner slot lists => exact execPlaceVariantPlaced_keeps hW k owner slot lists s hm
  | slotPatch k owner entries => exact execSlotPatch_keeps hW k owner entries s hm
  | i3cRaw k head address wlen rlen data reply => exact execI3cRaw_keeps hW k head address wlen rlen data reply s hm
  | dvfsSet k field point => exact execDvfsSet_keeps hW k field point s hm
  | fieldReset k field => exact execFieldReset_keeps hW k field s hm
  | unitReset k site => exact execUnitReset_keeps hW k site s hm
  | ethRaw k port length src => exact execEthRaw_keeps hW k port length src s hm
  | yallekAlign k port record => exact execYallekAlign_keeps hW k port record s hm
  | porRelease bootSrc => exact execPorRelease_keeps hW bootSrc s hm
  | yallekBlockLock p => exact execYallekBlockLock_keeps hW p s hm
  | dtbOffsetRemoved => exact execDtbOffsetRemoved_keeps hW s hm
  | hostMemoryRead r data => exact execHostMemoryRead_keeps hW r data s hm
  | pcieLinkUp ep => exact execPcieLinkUp_keeps hW ep s hm
  | pciePerstRelease => exact execPciePerstRelease_keeps hW s hm
  | hbmTrainingDone k ok => exact execHbmTrainingDone_keeps hW k ok s hm

theorem zone_ctorIdx_injective : Function.Injective Zone.ctorIdx := by
  have hall : ∀ z : Zone, Zone.all[z.ctorIdx]? = some z := by intro z; cases z <;> rfl
  intro a b hab
  exact Option.some_injective _ ((hall a).symm.trans (hab ▸ hall b))

theorem testBit_zoneMask_foldl (l : List Zone) (m : Nat) (z : Zone) :
    (l.foldl (fun m z => m ||| 2 ^ z.ctorIdx) m).testBit z.ctorIdx = (m.testBit z.ctorIdx || l.contains z) := by
  induction l generalizing m with
  | nil => simp
  | cons a l ih =>
    have hbit : (2 ^ a.ctorIdx).testBit z.ctorIdx = (z == a) := by
      by_cases h : z = a
      · simp [h, Nat.testBit_two_pow_self]
      · simp [h, Nat.testBit_two_pow_of_ne (fun e => h (zone_ctorIdx_injective e).symm)]
    rw [List.foldl_cons, ih, Nat.testBit_or, hbit, List.contains_cons, Bool.or_assoc]

theorem testBit_zoneMask (l : List Zone) (z : Zone) : (zoneMask l).testBit z.ctorIdx = l.contains z := by
  simp [zoneMask, testBit_zoneMask_foldl]

/-- A command leaves every component that `writes` does not list for it. -/
theorem exec_same {c : Instr} {s t : State} {z : Zone} (ht : exec c s = .next t) (hz : (writes c).contains z = false) : z.same s t :=
  (exec_keeps c (Nat.and_self _) s (Keeps.refl _ s) t ht).1 z ((testBit_zoneMask _ z).trans hz)

end Sys2Proof.Machine

/-! The table of Chrysalis slots: what resets and register accesses leave of its entries, a sublist of them. -/

namespace Sys2Proof.Machine
variable {s t : State}

theorem slots_of_keeps {w : Nat} (h : Keeps w s t) (hw : w.testBit Zone.slots.ctorIdx = false) : t.slots = s.slots :=
  (h.1 .slots hw).symm

theorem slots_sublist_of_keeps {w : Nat} (h : Keeps w s t) (hw : w.testBit Zone.slots.ctorIdx = false) : t.slots.Sublist s.slots := by
  rw [slots_of_keeps h hw]

@[simp] theorem State.slots_modRunning (s : State) (o : Nat) (f : Ctx → Ctx) : (s.modRunning o f).slots = s.slots :=
  slots_of_keeps (State.modRunning_keeps (Nat.and_self _) s o f (Keeps.refl _ s)) rfl
@[simp] theorem State.slots_clearContext (s : State) (o cause fl : Nat) : (s.clearContext o cause fl).slots = s.slots :=
  slots_of_keeps (State.clearContext_keeps (Nat.and_self _) s o cause fl (Keeps.refl _ s)) rfl
@[simp] theorem State.slots_faultCtx (s : State) (o : Nat) (c : Cause) : (s.faultCtx o c).slots = s.slots :=
  slots_of_keeps (State.faultCtx_keeps (Nat.and_self _) s o c (Keeps.refl _ s)) rfl
@[simp] theorem State.slots_flushPool (s : State) (p st c : Nat) : (s.flushPool p st c).slots = s.slots :=
  slots_of_keeps (State.flushPool_keeps (Nat.and_self _) s p st c (Keeps.refl _ s)) rfl
@[simp] theorem State.slots_resetHolder (s : State) (p : BitVec 10 → Bool) : (s.resetHolder p).slots = s.slots :=
  slots_of_keeps (State.resetHolder_keeps (Nat.and_self _) s p (Keeps.refl _ s)) rfl
@[simp] theorem State.slots_startUp (s : State) : s.startUp.slots = s.slots :=
  slots_of_keeps (State.startUp_keeps (Nat.and_self _) s (Keeps.refl _ s)) rfl
@[simp] theorem State.slots_retargetAll (s : State) : s.retargetAll.slots = s.slots :=
  slots_of_keeps (State.retargetAll_keeps (Nat.and_self _) s (Keeps.refl _ s)) rfl
@[simp] theorem State.slots_logCap (s old : State) (cap : Nat) (a : Bool) : (s.logCap old cap a).slots = s.slots :=
  slots_of_keeps (State.logCap_keeps (Nat.and_self _) s old cap a (Keeps.refl _ s)) rfl
@[simp] theorem State.slots_failFirmware (s : State) : s.failFirmware.slots = s.slots :=
  slots_of_keeps (State.failFirmware_keeps (Nat.and_self _) s (Keeps.refl _ s)) rfl
@[simp] theorem State.slots_resetMcLocks (s : State) : s.resetMcLocks.slots = s.slots :=
  slots_of_keeps (State.resetMcLocks_keeps (Nat.and_self _) s (Keeps.refl _ s)) rfl
@[simp] theorem State.slots_ethLink (s : State) (p : Nat) (up : Bool) : (s.ethLink p up).slots = s.slots :=
  slots_of_keeps (State.ethLink_keeps (Nat.and_self _) s p up (Keeps.refl _ s)) rfl
@[simp] theorem State.slots_losePort (s : State) (d : Nat) : (s.losePort d).slots = s.slots :=
  slots_of_keeps (State.losePort_keeps (Nat.and_self _) s d (Keeps.refl _ s)) rfl
@[simp] theorem State.slots_cspiLogRead (s : State) (o : Nat) : (s.cspiLogRead o).slots = s.slots :=
  slots_of_keeps (State.cspiLogRead_keeps (Nat.and_self _) s o (Keeps.refl _ s)) rfl
@[simp] theorem State.slots_returned (s : State) (v : Nat) : (s.returned v).slots = s.slots := rfl
@[simp] theorem State.slots_drive (s : State) (b : Bytes) : (s.drive b).slots = s.slots := rfl
@[simp] theorem slots_kclkCycle (s : State) : (kclkCycle s).slots = s.slots :=
  slots_of_keeps (kclkCycle_keeps (Nat.and_self _) s (Keeps.refl _ s)) rfl

theorem slots_foldl {α : Type} {f : State → α → State} (hf : ∀ s a, (f s a).slots = s.slots) (l : List α) (s : State) :
    (l.foldl f s).slots = s.slots := by
  induction l generalizing s with
  | nil => rfl
  | cons a l ih => exact (ih _).trans (hf s a)

theorem slots_foldl_sublist {α : Type} {f : State → α → State} {l : List α}
    (hf : ∀ a ∈ l, ∀ s, (f s a).slots.Sublist s.slots) (s : State) : (l.foldl f s).slots.Sublist s.slots := by
  induction l generalizing s with
  | nil => exact List.Sublist.refl _
  | cons a l ih =>
    exact (ih (fun b hb => hf b (List.mem_cons_of_mem _ hb)) _).trans (hf a List.mem_cons_self s)

theorem slots_ite_sublist {p : Prop} [Decidable p] {a b : State} {l : List (Nat × Slot)} (ha : a.slots.Sublist l)
    (hb : b.slots.Sublist l) : (if p then a else b).slots.Sublist l := by
  split
  · exact ha
  · exact hb

-- Resets of the dies (R424): no slot is left.

@[simp] theorem State.slots_dieReset (s : State) (cause : Nat) (kept : Bool) : (s.dieReset cause kept).slots = [] := rfl
@[simp] theorem State.slots_warmReset (s : State) (cause : Nat) (kept : Bool) : (s.warmReset cause kept).slots = [] := by
  simp [State.warmReset]
@[simp] theorem State.slots_holdReset (s : State) (cause : Nat) (kept : Bool) (ph : Phase) :
    (s.holdReset cause kept ph).slots = [] := rfl

-- Function level reset (R318): the slots of the function are EMPTY.

theorem State.slots_flrFn (s : State) (f : Nat) :
    (s.flrFn f).slots = s.slots.filter (fun e : Nat × Slot => e.2.state == SlotState.empty || e.2.fn.val != f) := by
  unfold State.flrFn
  extract_lets owned s1 s2 pools s3 s4 s5
  have h1 : s1.slots = s.slots := by
    refine slots_foldl (fun s o => ?_) owned s
    split
    · rfl
    · extract_lets s' s'' c'
      have hs' : s''.slots = s.slots := by
        simp only [s'', State.slots_modRunning, s']
        split <;> simp
      split <;> simp [hs']
  calc (s5.modFn f Fn.resetRing).slots = s4.slots := by simp [s5, State.modFn]
    _ = s3.slots := slots_foldl (fun s p => State.slots_setPool s p _) pools s3
    _ = s2.slots := slots_foldl (fun s p => State.slots_flushPool s p 2 2) pools s2
    _ = _ := by simp only [s2, h1]

theorem State.slots_flrFn_sublist (s : State) (f : Nat) : (s.flrFn f).slots.Sublist s.slots :=
  s.slots_flrFn f ▸ List.filter_sublist

theorem State.slots_flr_sublist (s : State) (f : Nat) : (s.flr f).slots.Sublist s.slots :=
  slots_foldl_sublist (fun g _ s => s.slots_flrFn_sublist g) s

theorem State.slots_resetEpB_sublist (s : State) : s.resetEpB.slots.Sublist s.slots :=
  slots_foldl_sublist (fun g _ s => s.slots_flrFn_sublist g) s

-- Clocks and temperature (R85, R417).

theorem State.slots_loseClock_sublist (s : State) (c : Nat) : (s.loseClock c).slots.Sublist s.slots := by
  have hfault (l : List Nat) (s : State) := slots_foldl (fun s o => State.slots_faultCtx s o .clkLoss) l s
  unfold State.loseClock
  split
  · extract_lets s'
    split
    · exact List.Sublist.refl _
    · simp
  · repeat' split
    all_goals simp [hfault, State.modField]

theorem State.slots_declareClock_sublist (s : State) (e : Ev) (c n : Nat) : (s.declareClock e c n).slots.Sublist s.slots := by
  unfold State.declareClock
  split
  · exact List.Sublist.refl _
  · exact (State.slots_loseClock_sublist _ c).trans (by simp)

theorem slots_tempReading_sublist (r : B16) (s : State) : (tempReading r s).slots.Sublist s.slots := by
  unfold tempReading
  refine slots_ite_sublist (slots_ite_sublist ?_ ?_) ?_ <;> simp [apply_ite State.slots]

theorem slots_xinRestored_sublist (s : State) : (xinRestored s).slots.Sublist s.slots := by
  have same := List.Sublist.refl s.slots
  exact slots_ite_sublist same (slots_ite_sublist same (slots_ite_sublist same (by simp)))

-- Register accesses (R352-R355): only WARM_RESET reaches the slots.

/-- Writes and reads of a register leave a sublist of the slots' entries. -/
def RegShrinks (r : Reg) : Prop :=
  (∀ v s, (r.put v s).slots.Sublist s.slots) ∧ (∀ s, (r.onRead s).slots.Sublist s.slots)

theorem regShrinks_of_keeps {w : Nat} {r : Reg} (h : ∀ s, RegKeeps w s r) (hw : w.testBit Zone.slots.ctorIdx = false) : RegShrinks r :=
  ⟨fun v s => slots_sublist_of_keeps ((h s).1 v s (Keeps.refl w s)) hw, fun s => slots_sublist_of_keeps ((h s).2 s (Keeps.refl w s)) hw⟩

theorem regsShrink_of_keeps {w : Nat} {l : List Reg} (h : ∀ s, RegsKeeps w s l) (hw : w.testBit Zone.slots.ctorIdx = false) :
    ∀ r ∈ l, RegShrinks r :=
  fun r hr => regShrinks_of_keeps (fun s => h s r hr) hw

theorem regShrinks_ro (off lo w : Nat) (get : State → Nat) : RegShrinks (roReg off lo w get) :=
  ⟨fun _ _ => List.Sublist.refl _, fun _ => List.Sublist.refl _⟩

theorem regsShrink_absent (l : List Reg) : ∀ r ∈ l.map Reg.absent, RegShrinks r :=
  List.forall_mem_map.2 fun _ _ => regShrinks_ro _ _ _ _

/-- A register whose write leaves the slots, and whose read does nothing besides. -/
theorem regShrinks_put {off lo w : Nat} {cls : Cls} {get : State → Nat} {put : Nat → State → State}
    (h : ∀ v s, (put v s).slots.Sublist s.slots) : RegShrinks { off := off, lo := lo, w := w, cls := cls, get := get, put := put } :=
  ⟨h, fun _ => List.Sublist.refl _⟩

theorem regShrinks_wl (s : State) (off i : Nat) : RegShrinks (wlReg s off i) :=
  regShrinks_of_keeps (fun _ => wlReg_keeps (Nat.and_self _) s off i) rfl

theorem regShrinks_event (lo : Nat) (get : GReg → Bool) (clear : GReg → GReg) : RegShrinks (eventReg lo get clear) :=
  regShrinks_of_keeps (fun _ => eventReg_keeps (Nat.and_self _) lo get clear) rfl

theorem regsShrink_status (s : State) : ∀ r ∈ statusRegs s, RegShrinks r := by
  have ro := regShrinks_ro
  have ev := regShrinks_event
  have wl := regShrinks_wl s
  simp only [statusRegs, List.forall_mem_append, List.forall_mem_cons, List.not_mem_nil, false_implies, implies_true, and_true]
  refine ⟨⟨ro .., ro .., ro .., ro .., ro .., ro .., ro .., ev .., ev .., ev .., ev .., ev .., ev .., ro ..,
      regShrinks_put fun v s => slots_ite_sublist ?_ ?_, regShrinks_put ?_, ro .., ro .., ro ..⟩,
    regShrinks_put ?_, regShrinks_put ?_, ro .., regShrinks_put ?_, regShrinks_put ?_,
    wl .., wl .., wl .., wl .., wl .., wl .., wl .., wl .., wl .., wl ..⟩
  all_goals simp

theorem regsShrink_regsAt (s : State) (f : Nat) (b : RBlock) (o : Nat) : ∀ r ∈ s.regsAt f b o, RegShrinks r := by
  cases b with
  | ident => exact regsShrink_of_keeps (fun _ => identRegs_keeps (Nat.and_self _) o) rfl
  | ring g => exact regsShrink_of_keeps (fun _ => ringRegs_keeps (Nat.and_self _) g) rfl
  | global =>
    simp only [State.regsAt]
    split
    · exact regsShrink_status s
    · split
      · exact regsShrink_of_keeps (fun _ => powerRegs_keeps (Nat.and_self _)) rfl
      · exact regsShrink_of_keeps (fun _ => captureRegs_keeps (Nat.and_self _)) rfl
  | hub => exact regsShrink_of_keeps (fun _ => hubRegs_keeps (Nat.and_self _) s o) rfl
  | lock => exact regsShrink_of_keeps (fun _ => lockRegs_keeps (Nat.and_self _) f (o / 16)) rfl
  | head h =>
    simp only [State.regsAt]
    split
    · exact regsShrink_of_keeps (fun _ => headRegs_keeps (Nat.and_self _) h) rfl
    · exact regsShrink_absent _
  | strm st =>
    simp only [State.regsAt]
    split
    · exact regsShrink_of_keeps (fun _ => streamRegs_keeps (Nat.and_self _) st) rfl
    · exact regsShrink_absent _
  | logWin => exact regsShrink_of_keeps (fun _ => logRegs_keeps (Nat.and_self _) o) rfl
  | unit site =>
    simp only [State.regsAt]
    split
    · exact regsShrink_of_keeps (fun _ => unitRegs_keeps (Nat.and_self _) site) rfl
    · exact regsShrink_absent _
  | engine t n => exact regsShrink_of_keeps (fun _ => engineRegs_keeps (Nat.and_self _) t n) rfl
  | none => exact fun _ hr => nomatch hr

theorem RegShrinks.write {r : Reg} (h : RegShrinks r) (o n v : Nat) (s : State) : (r.write o n v s).slots.Sublist s.slots := by
  unfold Reg.write
  cases r.cls with
  | rw | cnt | max | w1c | w1s => exact h.1 _ _
  | ro | rcl => exact List.Sublist.refl _

theorem RegShrinks.readEffect {r : Reg} (h : RegShrinks r) (s : State) : (r.readEffect s).slots.Sublist s.slots :=
  slots_ite_sublist (h.1 0 s) (h.2 s)

theorem State.slots_regWrite_sublist (s : State) (p : Path) (o n v : Nat) : (s.regWrite p o n v).slots.Sublist s.slots := by
  unfold State.regWrite
  extract_lets l rs
  have hregs : ∀ r ∈ rs, ∀ t, (r.write l.2 n v t).slots.Sublist t.slots := fun r hr =>
    (regsShrink_regsAt s (pathFn p) l.1 l.2 r (List.mem_of_mem_filter hr)).write l.2 n v
  have same := List.Sublist.refl s.slots
  exact slots_ite_sublist same (slots_ite_sublist same (slots_ite_sublist same (slots_ite_sublist same (slots_foldl_sublist hregs s))))

theorem State.slots_regRead_sublist (s : State) (p : Path) (o n : Nat) : (s.regRead p o n).2.slots.Sublist s.slots := by
  unfold State.regRead
  split
  · exact List.Sublist.refl _
  · extract_lets l rs v t
    have ht : t.slots.Sublist s.slots :=
      slots_foldl_sublist (fun r hr t => (regsShrink_regsAt s (pathFn p) l.1 l.2 r (List.mem_of_mem_filter hr)).readEffect t) s
    split
    · exact List.Sublist.refl _
    · repeat' split
      all_goals exact ht

end Sys2Proof.Machine

/-! The Chrysalis store (R293-R296): its staged images stay within 8 slots and 256 granules. -/

namespace Sys2Proof

/-- A written table is the old one with the entry put in, before a part of what stood there. -/
theorem Tab.set_eq_append {α : Type} (t : List (Nat × α)) (i : Nat) (v : α) :
    ∃ a b c, t = a ++ b ∧ Tab.set t i v = a ++ (i, v) :: c ∧ c.Sublist b := by
  induction t with
  | nil => exact ⟨[], [], [], rfl, rfl, List.Sublist.refl _⟩
  | cons e t ih =>
    obtain ⟨j, w⟩ := e
    obtain ⟨a, b, c, ht, hset, hc⟩ := ih
    by_cases heq : j = i
    · exact ⟨[], (j, w) :: t, t, rfl, by simp [Tab.set, heq], List.sublist_cons_self _ _⟩
    · by_cases hlt : i < j
      · exact ⟨[], (j, w) :: t, (j, w) :: t, rfl, by simp [Tab.set, heq, hlt], List.Sublist.refl _⟩
      · exact ⟨(j, w) :: a, b, c, by simp [ht], by simp [Tab.set, heq, hlt, hset], hc⟩

end Sys2Proof

namespace Sys2Proof.Machine
variable {s t : State}

-- The staged images under each change of the slots.

theorem stagedLengths_sublist (h : t.slots.Sublist s.slots) : (stagedLengths t).Sublist (stagedLengths s) := h.filterMap _

theorem stagedLengths_setSlot_sublist (s : State) (i : Nat) {v : Slot} (hv : v.state ≠ .staged) :
    (stagedLengths (s.setSlot i v)).Sublist (stagedLengths s) := by
  obtain ⟨a, b, c, hold, hnew, hc⟩ := Tab.set_eq_append s.slots i v
  simp only [stagedLengths, State.setSlot, hnew, List.filterMap_append, List.filterMap_cons, beq_iff_eq, hv, if_false]
  rw [hold, List.filterMap_append]
  exact (List.Sublist.refl _).append (hc.filterMap _)

theorem stagedLengths_setSlot_staged (s : State) (i : Nat) {v : Slot} (hv : v.state = .staged) :
    ∃ a b c, stagedLengths s = a ++ b ∧ stagedLengths (s.setSlot i v) = a ++ v.length :: c ∧ c.Sublist b := by
  obtain ⟨a, b, c, hold, hnew, hc⟩ := Tab.set_eq_append s.slots i v
  refine ⟨_, _, _, by rw [stagedLengths, hold, List.filterMap_append], ?_, hc.filterMap _⟩
  simp [stagedLengths, State.setSlot, hnew, hv]

theorem granules_sum_le_of_sublist {a b : List Nat} (h : a.Sublist b) : (a.map granules).sum ≤ (b.map granules).sum :=
  (h.map granules).sum_le_sum fun _ _ => Nat.zero_le _

theorem fitsStore_of_stagedLengths_sublist (hs : FitsStore s) (h : (stagedLengths t).Sublist (stagedLengths s)) : FitsStore t :=
  ⟨h.length_le.trans hs.1, (granules_sum_le_of_sublist h).trans hs.2⟩

theorem fitsStore_of_slots_sublist (hs : FitsStore s) (h : t.slots.Sublist s.slots) : FitsStore t :=
  fitsStore_of_stagedLengths_sublist hs (stagedLengths_sublist h)

theorem State.storeFull_iff (s : State) (len : Nat) :
    s.storeFull len = true ↔ 8 ≤ (stagedLengths s).length ∨ 256 < ((stagedLengths s).map granules).sum + granules len := by
  simp only [State.storeFull, stagedLengths, Bool.or_eq_true, decide_eq_true_eq]

/-- The one change that adds to the store: an image for which there is room. -/
theorem fitsStore_stage (i : Nat) {v : Slot} (hv : v.state = .staged) (hroom : s.storeFull v.length = false) :
    FitsStore (s.setSlot i v) := by
  obtain ⟨a, b, c, hold, hnew, hc⟩ := stagedLengths_setSlot_staged s i hv
  have hlen := hc.length_le
  have hsum := granules_sum_le_of_sublist hc
  rw [← Bool.not_eq_true, State.storeFull_iff, hold] at hroom
  rw [FitsStore, hnew]
  simp only [List.map_append, List.map_cons, List.sum_append, List.sum_cons, List.length_append, List.length_cons] at hroom ⊢
  omega

-- Command packets: the outcomes of their checks (R335, R344, R436).

theorem firstFail_eq_none_iff (l : List (Bool × Status)) : firstFail l = none ↔ ∀ c ∈ l, c.1 = false := by
  induction l with
  | nil => simp [firstFail]
  | cons c l ih => cases hc : c.1 <;> simp [firstFail, hc, ih]

theorem State.verdict_eq_none_iff (s : State) (k : Pkt) (op : Nat) (checks : List (Bool × Status)) :
    s.verdict k op checks = none ↔ s.denied (who k) op = false ∧ ∀ c ∈ checks, c.1 = false := by
  unfold State.verdict
  split <;> simp_all [firstFail_eq_none_iff]

/-- A command keeps what its replies keep and its act keeps once every check has passed. -/
theorem State.command_induction {P : State → Prop} (s : State) (k : Pkt) (op : Nat) (checks : List (Bool × Status)) (act : State → State)
    (hs : P s) (hfinish : ∀ st, P (s.finish k (fastOpcode op) st)) (hact : (∀ c ∈ checks, c.1 = false) → P (act s)) :
    P (s.command k op checks act) := by
  unfold State.command
  split
  · exact hs
  · cases hv : s.verdict k op checks with
    | some st => exact hfinish st
    | none => exact hact ((State.verdict_eq_none_iff s k op checks).1 hv).2

theorem State.command_failed {k : Pkt} {op : Nat} {checks : List (Bool × Status)} {st : Status} (act : State → State)
    (hk : Allowed s k op) (hfail : firstFail checks = some st) : s.command k op checks act = s.finish k (fastOpcode op) st := by
  obtain ⟨hready, hperm⟩ := hk
  simp [State.command, State.verdict, hready, hperm, hfail]

-- The slot commands (R293-R295).

theorem fitsStore_finish (k : Pkt) (fast : Bool) (st : Status) (res : List Nat) (hs : FitsStore s) : FitsStore (s.finish k fast st res) :=
  fitsStore_of_slots_sublist hs (by simp)

theorem fitsStore_setSlot_finish (k : Pkt) (i : Nat) {v : Slot} (hv : v.state ≠ .staged) (hs : FitsStore s) :
    FitsStore ((s.setSlot i v).finish k false .ok) :=
  fitsStore_finish _ _ _ _ (fitsStore_of_stagedLengths_sublist hs (stagedLengths_setSlot_sublist s i hv))

theorem fitsStore_slotDefine (k : Pkt) (n place len : Nat) (src : B64) (hs : FitsStore s) : FitsStore (slotDefine k n place len src s) :=
  State.command_induction s _ _ _ _ hs (fun _ => fitsStore_finish _ _ _ _ hs) fun _ => fitsStore_setSlot_finish k n (by simp) hs

theorem fitsStore_slotUndefine (k : Pkt) (n : Nat) (hs : FitsStore s) : FitsStore (slotUndefine k n s) :=
  State.command_induction s _ _ _ _ hs (fun _ => fitsStore_finish _ _ _ _ hs) fun _ => fitsStore_setSlot_finish k n (by simp) hs

theorem fitsStore_slotUnstage (k : Pkt) (n : Nat) (hs : FitsStore s) : FitsStore (slotUnstage k n s) :=
  State.command_induction s _ _ _ _ hs (fun _ => fitsStore_finish _ _ _ _ hs) fun _ => fitsStore_setSlot_finish k n (by simp) hs

theorem fitsStore_slotStage (k : Pkt) (n : Nat) (d : ImageDecl) (err : Bool) (hs : FitsStore s) : FitsStore (slotStage k n d err s) := by
  refine State.command_induction s _ _ _ _ hs (fun _ => fitsStore_finish _ _ _ _ hs) fun hchecks => ?_
  have hroom : s.storeFull (s.slot n).length = false := hchecks _ (List.mem_append_right _ (List.mem_cons_of_mem _ List.mem_cons_self))
  extract_lets s'
  have hslots : s'.slots = s.slots := by simp only [s']; split <;> rfl
  have hs' : FitsStore s' := fitsStore_of_slots_sublist hs (hslots ▸ List.Sublist.refl _)
  have hroom' : s'.storeFull (s.slot n).length = false := by rw [← hroom]; simp only [State.storeFull, hslots]
  split
  · exact fitsStore_finish _ _ _ _ hs'
  · split
    · exact fitsStore_finish _ _ _ _ hs'
    · exact fitsStore_finish _ _ _ _ (fitsStore_stage n rfl hroom')

/-- A STAGE for which there is no room is turned away (R294). -/
theorem slotStage_full (k : Pkt) (n : Nat) (d : ImageDecl) (err : Bool) (hk : Allowed s k 0x1202) (hown : OwnSlot s k n)
    (hstored : (s.slot n).state = .stored) (hfull : s.storeFull (s.slot n).length = true) :
    slotStage k n d err s = s.finish k false .storeFull := by
  obtain ⟨hn, hfn⟩ := hown
  have hmay : mayAct (who k) (s.slot n).fn = true := hfn.resolve_left (by simp [hstored])
  unfold slotStage
  refine State.command_failed _ hk ?_
  simp [State.slotChecks, firstFail, hstored, hmay, hfull, Nat.not_le.2 hn]

-- Every step.

/-- A command that may write the slots is a slot command, or a reset or register access that leaves a sublist of their entries; `writes` keeps
every other command from them. -/
theorem fitsStore_exec {c : Instr} (hs : FitsStore s) (ht : exec c s = .next t) : FitsStore t := by
  have same := List.Sublist.refl s.slots
  have keep {u : State} (h : u.slots.Sublist s.slots) : FitsStore u := fitsStore_of_slots_sublist hs h
  by_cases hz : (writes c).contains .slots = true
  · cases c with
    | slotDefine k n place len src => cases ht; exact fitsStore_slotDefine _ _ _ _ _ hs
    | slotUndefine k n => cases ht; exact fitsStore_slotUndefine _ _ hs
    | slotStage k n d err => cases ht; exact fitsStore_slotStage _ _ _ _ hs
    | slotUnstage k n => cases ht; exact fitsStore_slotUnstage _ _ hs
    | clkLoss clk count => cases ht; exact keep (s.slots_declareClock_sublist _ _ _)
    | clkFast clk count => cases ht; exact keep (s.slots_declareClock_sublist _ _ _)
    | xinRestored => cases ht; exact keep (slots_xinRestored_sublist s)
    | bor rail => cases ht; exact keep (slots_ite_sublist same (by simp))
    | por pin => cases ht; exact keep (List.nil_sublist _)
    | tempReading r => cases ht; exact keep (slots_ite_sublist same (slots_tempReading_sublist r s))
    | thermalRecovery =>
      cases ht
      exact keep (slots_ite_sublist same (slots_ite_sublist same (slots_ite_sublist same (by simp))))
    | mcRestart fw ok => cases ht; exact keep (slots_ite_sublist same (slots_ite_sublist (by simp) (by simp)))
    | pcieAPerst => cases ht; exact keep (slots_ite_sublist (by simp) same)
    | pcieBPerst => cases ht; exact keep (slots_ite_sublist (State.slots_resetEpB_sublist _) same)
    | pcieLinkDown ep =>
      cases ht
      exact keep (slots_ite_sublist (slots_ite_sublist same
        (slots_ite_sublist (State.slots_flr_sublist _ 0) (State.slots_resetEpB_sublist _))) same)
    | flr f => cases ht; exact keep (slots_ite_sublist (s.slots_flr_sublist f) same)
    | warmReset => cases ht; exact keep (slots_ite_sublist (by simp) same)
    | registerWrite p off bytes v => cases ht; exact keep (slots_ite_sublist (s.slots_regWrite_sublist _ _ _ _) same)
    | registerLowRead p off => cases ht; exact keep (slots_ite_sublist (s.slots_regRead_sublist _ _ _) same)
    | fcFseqRead site => cases ht; exact keep (slots_ite_sublist (s.slots_regRead_sublist _ _ _) same)
    | badAccessRead => cases ht; exact keep (slots_ite_sublist (s.slots_regRead_sublist _ _ _) same)
    | logDropRead f => cases ht; exact keep (slots_ite_sublist (s.slots_regRead_sublist _ _ _) same)
    | readReg off =>
      cases ht
      exact keep (slots_ite_sublist same (by simpa using s.slots_regRead_sublist .cspi off.toNat 4))
    | writeReg off v => cases ht; exact keep (slots_ite_sublist (s.slots_regWrite_sublist _ _ _ _) same)
    | _ => exact absurd hz Bool.false_ne_true
  · exact keep ((exec_same ht (Bool.eq_false_iff.2 hz) : s.slots = t.slots) ▸ same)

theorem fitsStore_step (hs : FitsStore s) (ht : step s = .next t) : FitsStore t := by
  unfold step at ht
  split at ht
  · cases ht
    exact fitsStore_of_slots_sublist hs (by simp)
  · next c rest _ => exact fitsStore_exec (s := { s with pending := rest }) hs ht

/-- Settles O7: only SLOT_STAGE adds an image to the store, after the check of its room; every other command leaves a sublist of what it holds. -/
theorem storeFits : Obligations.StoreFits := by
  unfold Obligations.StoreFits
  refine ⟨fun n => ?_, by decide, fun s t hs ht => fitsStore_step hs ht, fun k n d err s hk hown hstored hfull => ?_⟩
  · unfold granules
    omega
  · have hfull' : s.storeFull (s.slot n.toNat).length = true := (State.storeFull_iff _ _).2 (hfull.imp_left fun h => h.ge)
    exact congrArg _ (slotStage_full k n.toNat d err hk hown hstored hfull')

end Sys2Proof.Machine

/-! The holder codes, and the release of a lock (R366, R368). -/

namespace Sys2Proof.Machine
variable {s : State}

-- Holder codes (R366).

theorem toNat_fnCode {f : Nat} (hf : f < 64) : (fnCode f).toNat = 2 * 256 + f := Nat.mod_eq_of_lt (by omega)

theorem toNat_peerCode {p f : Nat} (hp : p < 4) (hf : f < 64) : (peerCode p f).toNat = 256 + p * 64 + f := Nat.mod_eq_of_lt (by omega)

theorem bits_fnCode {f : Nat} (hf : f < 64) :
    bits (fnCode f).toNat 8 2 = 2 ∧ bits (fnCode f).toNat 6 2 = 0 ∧ bits (fnCode f).toNat 0 6 = f := by
  rw [toNat_fnCode hf]
  unfold bits
  omega

theorem bits_peerCode {p f : Nat} (hp : p < 4) (hf : f < 64) :
    bits (peerCode p f).toNat 8 2 = 1 ∧ bits (peerCode p f).toNat 6 2 = p ∧ bits (peerCode p f).toNat 0 6 = f := by
  rw [toNat_peerCode hp hf]
  unfold bits
  omega

-- A lock handed on (R367, R368).

@[simp] theorem State.lock_queueSpore (s : State) (p typ epoch : Nat) (body : Bytes) (l : Nat) : (s.queueSpore p typ epoch body).lock l = s.lock l :=
  rfl

/-- What a lock becomes when it passes to its oldest waiter, or becomes free. -/
def Lock.handed (x : Lock) : Lock :=
  match x.waiters with
  | [] => { x with holder := 0 }
  | w :: m => { x with holder := w.code, ownerLost := false, waiters := m }

theorem Lock.handed_of_nil {x : Lock} (hx : x.waiters = []) : x.handed = { x with holder := 0 } := by
  simp [Lock.handed, hx]

theorem Lock.handed_of_cons {x : Lock} {w : Waiter} {m : List Waiter} (hx : x.waiters = w :: m) :
    x.handed = { x with holder := w.code, ownerLost := false, waiters := m } := by
  simp [Lock.handed, hx]

@[simp] theorem Lock.epoch_handed (x : Lock) : x.handed.epoch = x.epoch := by
  cases hx : x.waiters with
  | nil => rw [Lock.handed_of_nil hx]
  | cons w m => rw [Lock.handed_of_cons hx]

@[simp] theorem Lock.waiters_handed (x : Lock) : x.handed.waiters = x.waiters.drop 1 := by
  cases hx : x.waiters with
  | nil => simp [Lock.handed_of_nil hx, hx]
  | cons w m => simp [Lock.handed_of_cons hx]

/-- The answer to the waiter, a reply or a LOCK Spore, leaves the lock as it was handed. -/
@[simp] theorem State.lock_handLock (s : State) (l : Nat) : (s.handLock l).lock l = (s.lock l).handed := by
  unfold State.handLock
  cases hx : (s.lock l).waiters with
  | nil => simp [hx, Lock.handed_of_nil hx]
  | cons w m =>
    rw [Lock.handed_of_cons hx]
    cases hreply : w.reply with
    | some q => simp [hx, hreply]
    | none => by_cases hpeer : bits w.code.toNat 8 2 = 1 <;> simp [hx, hreply, hpeer]

/-- The queued LOCK_ACQUIRE that is granted replies with the epoch, and OK_LOST where the lock was lost. -/
theorem State.handLock_of_reply {l : Nat} {w : Waiter} {m : List Waiter} {q : Pkt} (hx : (s.lock l).waiters = w :: m) (hq : w.reply = some q) :
    s.handLock l = (s.setLock l { s.lock l with holder := w.code, ownerLost := false, waiters := m }).finish q true
      (if (s.lock l).ownerLost then .okLost else .ok) [(s.lock l).epoch.toNat] := by
  simp [State.handLock, hx, hq]

-- LOCK_RELEASE and the RELEASE word (R368).

theorem State.command_passed {k : Pkt} {op : Nat} {checks : List (Bool × Status)} (act : State → State) (hk : Allowed s k op)
    (hpass : firstFail checks = none) : s.command k op checks act = act s := by
  obtain ⟨hready, hperm⟩ := hk
  simp [State.command, State.verdict, hready, hperm, hpass]

theorem exec_lockRelease_of_holder {k : Pkt} {l : B8} (hk : Allowed s k 0x0006) (hl : l.toNat < 64)
    (hheld : (s.lock l.toNat).holder = fnCode (who k)) : exec (.lockRelease k l) s = .next ((s.handLock l.toNat).finish k true .ok) :=
  congrArg Host.Outcome.next (State.command_passed _ hk (by simp [firstFail, hheld, hl]))

theorem exec_lockRelease_of_other {k : Pkt} {l : B8} (hk : Allowed s k 0x0006) (hl : l.toNat < 64)
    (hother : (s.lock l.toNat).holder ≠ fnCode (who k)) : exec (.lockRelease k l) s = .next (s.finish k true .badState) :=
  congrArg Host.Outcome.next (State.command_failed _ hk (by simp [firstFail, hother, hl]))

theorem State.releaseRaw_of_other {f l : Nat} (hother : (s.lock l).holder ≠ fnCode f) : s.releaseRaw f l = s := by
  simp [State.releaseRaw, hother]

theorem exec_lockReleaseWrite_of_other {p : Path} {l : Fin 64} (hother : (s.lock l).holder ≠ fnCode (pathFn p)) :
    exec (.lockReleaseWrite p l) s = .next s :=
  congrArg Host.Outcome.next (ite_eq_right_iff.2 fun _ => State.releaseRaw_of_other hother)

/-- Settles O8: the codes are sums of disjoint fields; a release by the holder hands the lock on, which keeps its epoch, and a release by another
party fails its check. -/
theorem lockHolders : Obligations.LockHolders := by
  unfold Obligations.LockHolders
  refine ⟨fun f hf => bits_fnCode hf, fun p hp f hf => bits_peerCode hp hf, by decide, fun k hk => if_pos hk, rfl,
    fun k l s hk hl hheld => ⟨_, exec_lockRelease_of_holder hk hl hheld, ?_⟩, fun k q l w m s hk hl hheld hx hq => ?_,
    fun k l s hk hl hother => exec_lockRelease_of_other hk hl hother, fun p l s hother => exec_lockReleaseWrite_of_other hother⟩
  · rw [State.lock_finish, State.lock_handLock]
    refine ⟨Lock.epoch_handed _, Lock.waiters_handed _, fun w m hx => ?_, fun hx => ?_⟩
    · rw [Lock.handed_of_cons hx]
      exact ⟨rfl, rfl⟩
    · rw [Lock.handed_of_nil hx]
  · rw [exec_lockRelease_of_holder hk hl hheld, State.handLock_of_reply hx hq]

end Sys2Proof.Machine

/-! Every command: it answers a next state, it writes only the components listed for it, and a command packet is checked before it acts. -/

namespace Sys2Proof.Machine
set_option Elab.async false
variable {s t : State}

/-- Every arm of the dispatch answers a next state. -/
theorem exec_completes (c : Instr) (s : State) : ∃ t, exec c s = .next t := by
  cases c <;> exact ⟨_, rfl⟩

theorem pending_part_not_mem_writes (c : Instr) : Zone.pending ∉ writes c ∧ Zone.part ∉ writes c := by
  have h : (writes c).contains .pending = false ∧ (writes c).contains .part = false := by cases c <;> exact ⟨rfl, rfl⟩
  simpa using h

/-- A command packet is one `State.command`: the checks of its opcode, then its act. MODEL_LOAD first ends a load in course. -/
theorem exec_packet {c : Instr} {k : Pkt} {op : Nat} (hc : packetOf c = some (k, op)) (hop : op ≠ 0x1300) (s : State) :
    ∃ checks act, exec c s = .next (s.command k op checks act) := by
  cases c <;> cases hc
  -- The meanings that name parts of the state before their checks unfold one by one.
  case streamStart.refl => dsimp only [exec, execStreamStart, streamStart]; exact ⟨_, _, rfl⟩
  case ecloseVariant.refl => dsimp only [exec, execEcloseVariant, ecloseVariant]; exact ⟨_, _, rfl⟩
  case statsSnapshot.refl => dsimp only [exec, execStatsSnapshot, statsSnapshot]; exact ⟨_, _, rfl⟩
  case queueFlush.refl => dsimp only [exec, execQueueFlush, queueFlush]; exact ⟨_, _, rfl⟩
  case entityWrite.refl => dsimp only [exec, execEntityWrite, entityWrite]; exact ⟨_, _, rfl⟩
  case exponentTrim.refl => dsimp only [exec, execExponentTrim, exponentTrim]; exact ⟨_, _, rfl⟩
  case modeSet.refl => dsimp only [exec, execModeSet, modeSet]; exact ⟨_, _, rfl⟩
  case headAuth.refl => dsimp only [exec, execHeadAuth, headAuth]; exact ⟨_, _, rfl⟩
  case headExposure.refl => dsimp only [exec, execHeadExposure, headExposure]; exact ⟨_, _, rfl⟩
  case slotStage.refl => dsimp only [exec, execSlotStage, slotStage]; exact ⟨_, _, rfl⟩
  case contextUnload.refl => dsimp only [exec, execContextUnload, contextUnload]; exact ⟨_, _, rfl⟩
  case unplaceVariant.refl => dsimp only [exec, execUnplaceVariant, unplaceVariant]; exact ⟨_, _, rfl⟩
  case sceneSet.refl => dsimp only [exec, execSceneSet, sceneSet]; exact ⟨_, _, rfl⟩
  case replaySet.refl => dsimp only [exec, execReplaySet, replaySet]; exact ⟨_, _, rfl⟩
  case entityKey.refl => dsimp only [exec, execEntityKey, entityKey]; exact ⟨_, _, rfl⟩
  case timeAdjust.refl => dsimp only [exec, execTimeAdjust, timeAdjust]; exact ⟨_, _, rfl⟩
  case st2110Sender.refl => dsimp only [exec, execSt2110Sender, st2110Sender]; exact ⟨_, _, rfl⟩
  case slotPatch.refl => dsimp only [exec, execSlotPatch, slotPatch]; exact ⟨_, _, rfl⟩
  case i3cRaw.refl => dsimp only [exec, execI3cRaw, i3cRaw]; exact ⟨_, _, rfl⟩
  case yallekAlign.refl => dsimp only [exec, execYallekAlign, yallekAlign]; exact ⟨_, _, rfl⟩
  case modelLoad.refl => exact absurd rfl hop
  all_goals exact ⟨_, _, rfl⟩

/-- MODEL_LOAD is neither an opcode of the PF nor an expert one. -/
theorem State.denied_modelLoad (s : State) (f : Nat) : s.denied f 0x1300 = false := rfl

theorem State.command_of_not_ready {k : Pkt} {op : Nat} (checks : List (Bool × Status)) (act : State → State) (hready : s.ready = false) :
    s.command k op checks act = s := by
  simp [State.command, hready]

theorem State.command_of_denied {k : Pkt} {op : Nat} (checks : List (Bool × Status)) (act : State → State) (hready : s.ready = true)
    (hdenied : s.denied (who k) op = true) : s.command k op checks act = s.finish k (fastOpcode op) .notPermitted := by
  simp [State.command, State.verdict, hready, hdenied]

/-- A command that no ring holds replies at once, or not at all (R336). -/
theorem State.finish_of_ring_empty (s : State) (k : Pkt) (fast : Bool) (st : Status) (res : List Nat) (hring : s.ring k.fn k.cspi = []) :
    s.finish k fast st res = (if k.reply = true ∨ st ≠ .ok then s.postReply (fast, { isReply := true, cspi := k.cspi, urgent := k.urgent, fn := BitVec.ofNat 16 k.fn, cseq := k.cseq, status := BitVec.ofNat 16 st.code, result := res.map (BitVec.ofNat 32), after := (s.seqr.row, s.seqr.posts) }) else s) := by
  by_cases hout : k.reply = true ∨ st ≠ .ok <;> simp [State.finish, hring, hout]

theorem State.finish_same (s : State) (k : Pkt) (fast : Bool) (st : Status) (res : List Nat) {z : Zone} (hz : z ∉ Zone.replied) :
    z.same s (s.finish k fast st res) := by
  rw [State.finish_frame]
  cases z <;> first | rfl | exact absurd (by decide) hz

/-- Settles O1: a step on a queue that is not empty is the dispatch of its front. -/
theorem stepRunsTheFront : Obligations.StepRunsTheFront := by
  intro c rest s hs
  rw [step, hs]

/-- Settles O2: the reset state is a literal. -/
theorem resetLeaves : Obligations.ResetLeaves := by
  refine ⟨rfl, rfl, rfl, rfl, rfl, rfl, rfl, rfl, rfl, rfl, rfl, rfl, rfl, fun _ => rfl, fun _ => rfl, fun _ => rfl, fun _ => rfl⟩

/-- Settles O3: `exec_keeps` carries both memories through every command, and a cycle without a command writes neither. -/
theorem memoriesStayCanonical : Obligations.MemoriesStayCanonical := by
  intro s t hhbm hhost ht
  unfold step at ht
  split at ht
  · cases ht
    obtain ⟨-, hkeepHbm, hkeepHost⟩ := kclkCycle_keeps (Nat.and_self _) s (Keeps.refl _ s)
    exact ⟨hkeepHbm hhbm, hkeepHost hhost⟩
  · next c rest _ =>
    obtain ⟨-, hkeepHbm, hkeepHost⟩ := exec_keeps c (Nat.and_self _) { s with pending := rest } (Keeps.refl _ _) t ht
    exact ⟨hkeepHbm hhbm, hkeepHost hhost⟩

/-- Settles O4: each arm completes, and `exec_keeps` bounds what it writes. -/
theorem commandsChangeOnly : Obligations.CommandsChangeOnly := by
  refine ⟨fun c s => ?_, pending_part_not_mem_writes⟩
  obtain ⟨t, ht⟩ := exec_completes c s
  exact ⟨t, ht, fun z hz => exec_same ht (by simpa using hz)⟩

theorem exec_packet_of_not_ready {c : Instr} {k : Pkt} {op : Nat} (hc : packetOf c = some (k, op)) (hready : s.ready = false) :
    exec c s = .next s := by
  by_cases hop : op = 0x1300
  · subst hop
    cases c <;> cases hc
    case modelLoad.refl =>
      dsimp only [exec, execModelLoad, modelLoad]
      simp only [hready, Bool.false_eq_true, if_false]
      rw [State.command_of_not_ready _ _ hready]
  · obtain ⟨checks, act, hexec⟩ := exec_packet hc hop s
    rw [hexec, State.command_of_not_ready checks act hready]

theorem exec_packet_of_denied {c : Instr} {k : Pkt} {op : Nat} (hc : packetOf c = some (k, op)) (hready : s.ready = true)
    (hdenied : s.denied (who k) op = true) : exec c s = .next (s.finish k (fastOpcode op) .notPermitted) := by
  have hop : op ≠ 0x1300 := fun h => by rw [h, State.denied_modelLoad] at hdenied; exact nomatch hdenied
  obtain ⟨checks, act, hexec⟩ := exec_packet hc hop s
  rw [hexec, State.command_of_denied checks act hready hdenied]

/-- Settles O6: every command packet runs through `State.command`, and `State.finish_frame` says what its end touches. -/
theorem commandsAreChecked : Obligations.CommandsAreChecked :=
  ⟨fun _ _ _ _ hc hready => exec_packet_of_not_ready hc hready, fun _ _ _ _ hc hready hdenied => exec_packet_of_denied hc hready hdenied,
    fun k fast st res s hring => State.finish_of_ring_empty s k fast st res hring, fun k fast st res s _ hz => State.finish_same s k fast st res hz⟩

end Sys2Proof.Machine

/-! What a command's frame says of one component: the fields of `Keeps`. -/

namespace Sys2Proof.Machine
set_option Elab.async false
variable {w : Nat} {s t : State}

namespace Keeps

theorem pending_eq (h : Keeps w s t) (hw : w.testBit Zone.pending.ctorIdx = false := by rfl) : t.pending = s.pending := (h.1 .pending hw).symm
theorem freeCount_eq (h : Keeps w s t) (hw : w.testBit Zone.freeCount.ctorIdx = false := by rfl) : t.freeCount = s.freeCount := (h.1 .freeCount hw).symm
theorem kcycles_eq (h : Keeps w s t) (hw : w.testBit Zone.kcycles.ctorIdx = false := by rfl) : t.kcycles = s.kcycles := (h.1 .kcycles hw).symm
theorem part_eq (h : Keeps w s t) (hw : w.testBit Zone.part.ctorIdx = false := by rfl) : t.part = s.part := (h.1 .part hw).symm
theorem boot_eq (h : Keeps w s t) (hw : w.testBit Zone.boot.ctorIdx = false := by rfl) : t.boot = s.boot := (h.1 .boot hw).symm
theorem modes_eq (h : Keeps w s t) (hw : w.testBit Zone.modes.ctorIdx = false := by rfl) : t.modes = s.modes := (h.1 .modes hw).symm
theorem supply_eq (h : Keeps w s t) (hw : w.testBit Zone.supply.ctorIdx = false := by rfl) : t.supply = s.supply := (h.1 .supply hw).symm
theorem dtb_eq (h : Keeps w s t) (hw : w.testBit Zone.dtb.ctorIdx = false := by rfl) : t.dtb = s.dtb := (h.1 .dtb hw).symm
theorem seqr_eq (h : Keeps w s t) (hw : w.testBit Zone.seqr.ctorIdx = false := by rfl) : t.seqr = s.seqr := (h.1 .seqr hw).symm
theorem greg_eq (h : Keeps w s t) (hw : w.testBit Zone.greg.ctorIdx = false := by rfl) : t.greg = s.greg := (h.1 .greg hw).symm
theorem cspi_eq (h : Keeps w s t) (hw : w.testBit Zone.cspi.ctorIdx = false := by rfl) : t.cspi = s.cspi := (h.1 .cspi hw).symm
theorem cap_eq (h : Keeps w s t) (hw : w.testBit Zone.cap.ctorIdx = false := by rfl) : t.cap = s.cap := (h.1 .cap hw).symm
theorem fields_eq (h : Keeps w s t) (hw : w.testBit Zone.fields.ctorIdx = false := by rfl) : t.fields = s.fields := (h.1 .fields hw).symm
theorem lostClocks_eq (h : Keeps w s t) (hw : w.testBit Zone.lostClocks.ctorIdx = false := by rfl) : t.lostClocks = s.lostClocks := (h.1 .lostClocks hw).symm
theorem heads_eq (h : Keeps w s t) (hw : w.testBit Zone.heads.ctorIdx = false := by rfl) : t.heads = s.heads := (h.1 .heads hw).symm
theorem store_eq (h : Keeps w s t) (hw : w.testBit Zone.store.ctorIdx = false := by rfl) : t.store = s.store := (h.1 .store hw).symm
theorem streams_eq (h : Keeps w s t) (hw : w.testBit Zone.streams.ctorIdx = false := by rfl) : t.streams = s.streams := (h.1 .streams hw).symm
theorem units_eq (h : Keeps w s t) (hw : w.testBit Zone.units.ctorIdx = false := by rfl) : t.units = s.units := (h.1 .units hw).symm
theorem routers_eq (h : Keeps w s t) (hw : w.testBit Zone.routers.ctorIdx = false := by rfl) : t.routers = s.routers := (h.1 .routers hw).symm
theorem gates_eq (h : Keeps w s t) (hw : w.testBit Zone.gates.ctorIdx = false := by rfl) : t.gates = s.gates := (h.1 .gates hw).symm
theorem groups_eq (h : Keeps w s t) (hw : w.testBit Zone.groups.ctorIdx = false := by rfl) : t.groups = s.groups := (h.1 .groups hw).symm
theorem origins_eq (h : Keeps w s t) (hw : w.testBit Zone.origins.ctorIdx = false := by rfl) : t.origins = s.origins := (h.1 .origins hw).symm
theorem edges_eq (h : Keeps w s t) (hw : w.testBit Zone.edges.ctorIdx = false := by rfl) : t.edges = s.edges := (h.1 .edges hw).symm
theorem tails_eq (h : Keeps w s t) (hw : w.testBit Zone.tails.ctorIdx = false := by rfl) : t.tails = s.tails := (h.1 .tails hw).symm
theorem arbs_eq (h : Keeps w s t) (hw : w.testBit Zone.arbs.ctorIdx = false := by rfl) : t.arbs = s.arbs := (h.1 .arbs hw).symm
theorem queues_eq (h : Keeps w s t) (hw : w.testBit Zone.queues.ctorIdx = false := by rfl) : t.queues = s.queues := (h.1 .queues hw).symm
theorem fns_eq (h : Keeps w s t) (hw : w.testBit Zone.fns.ctorIdx = false := by rfl) : t.fns = s.fns := (h.1 .fns hw).symm
theorem locks_eq (h : Keeps w s t) (hw : w.testBit Zone.locks.ctorIdx = false := by rfl) : t.locks = s.locks := (h.1 .locks hw).symm
theorem pools_eq (h : Keeps w s t) (hw : w.testBit Zone.pools.ctorIdx = false := by rfl) : t.pools = s.pools := (h.1 .pools hw).symm
theorem slots_eq (h : Keeps w s t) (hw : w.testBit Zone.slots.ctorIdx = false := by rfl) : t.slots = s.slots := (h.1 .slots hw).symm
theorem ctxs_eq (h : Keeps w s t) (hw : w.testBit Zone.ctxs.ctorIdx = false := by rfl) : t.ctxs = s.ctxs := (h.1 .ctxs hw).symm
theorem epochs_eq (h : Keeps w s t) (hw : w.testBit Zone.epochs.ctorIdx = false := by rfl) : t.epochs = s.epochs := (h.1 .epochs hw).symm
theorem hbmStacks_eq (h : Keeps w s t) (hw : w.testBit Zone.hbmStacks.ctorIdx = false := by rfl) : t.hbmStacks = s.hbmStacks := (h.1 .hbmStacks hw).symm
theorem hbm_eq (h : Keeps w s t) (hw : w.testBit Zone.hbm.ctorIdx = false := by rfl) : t.hbm = s.hbm := (h.1 .hbm hw).symm
theorem hostMem_eq (h : Keeps w s t) (hw : w.testBit Zone.hostMem.ctorIdx = false := by rfl) : t.hostMem = s.hostMem := (h.1 .hostMem hw).symm
theorem hostIn_eq (h : Keeps w s t) (hw : w.testBit Zone.hostIn.ctorIdx = false := by rfl) : t.hostIn = s.hostIn := (h.1 .hostIn hw).symm
theorem yports_eq (h : Keeps w s t) (hw : w.testBit Zone.yports.ctorIdx = false := by rfl) : t.yports = s.yports := (h.1 .yports hw).symm
theorem eths_eq (h : Keeps w s t) (hw : w.testBit Zone.eths.ctorIdx = false := by rfl) : t.eths = s.eths := (h.1 .eths hw).symm
theorem senders_eq (h : Keeps w s t) (hw : w.testBit Zone.senders.ctorIdx = false := by rfl) : t.senders = s.senders := (h.1 .senders hw).symm
theorem eps_eq (h : Keeps w s t) (hw : w.testBit Zone.eps.ctorIdx = false := by rfl) : t.eps = s.eps := (h.1 .eps hw).symm
theorem vfMap_eq (h : Keeps w s t) (hw : w.testBit Zone.vfMap.ctorIdx = false := by rfl) : t.vfMap = s.vfMap := (h.1 .vfMap hw).symm
theorem vfEnable_eq (h : Keeps w s t) (hw : w.testBit Zone.vfEnable.ctorIdx = false := by rfl) : t.vfEnable = s.vfEnable := (h.1 .vfEnable hw).symm
theorem field_eq (h : Keeps w s t) (i : Nat) (hw : w.testBit Zone.fields.ctorIdx = false := by rfl) : t.field i = s.field i := by
  unfold State.field; rw [h.fields_eq hw]
theorem head_eq (h : Keeps w s t) (i : Nat) (hw : w.testBit Zone.heads.ctorIdx = false := by rfl) : t.head i = s.head i := by
  unfold State.head; rw [h.heads_eq hw]
theorem strm_eq (h : Keeps w s t) (i : Nat) (hw : w.testBit Zone.streams.ctorIdx = false := by rfl) : t.strm i = s.strm i := by
  unfold State.strm; rw [h.streams_eq hw]
theorem unit_eq (h : Keeps w s t) (i : Nat) (hw : w.testBit Zone.units.ctorIdx = false := by rfl) : t.unit i = s.unit i := by
  unfold State.unit; rw [h.units_eq hw]
theorem router_eq (h : Keeps w s t) (i : Nat) (hw : w.testBit Zone.routers.ctorIdx = false := by rfl) : t.router i = s.router i := by
  unfold State.router; rw [h.routers_eq hw]
theorem gate_eq (h : Keeps w s t) (i : Nat) (hw : w.testBit Zone.gates.ctorIdx = false := by rfl) : t.gate i = s.gate i := by
  unfold State.gate; rw [h.gates_eq hw]
theorem group_eq (h : Keeps w s t) (i : Nat) (hw : w.testBit Zone.groups.ctorIdx = false := by rfl) : t.group i = s.group i := by
  unfold State.group; rw [h.groups_eq hw]
theorem origin_eq (h : Keeps w s t) (i : Nat) (hw : w.testBit Zone.origins.ctorIdx = false := by rfl) : t.origin i = s.origin i := by
  unfold State.origin; rw [h.origins_eq hw]
theorem edgeEng_eq (h : Keeps w s t) (i : Nat) (hw : w.testBit Zone.edges.ctorIdx = false := by rfl) : t.edgeEng i = s.edgeEng i := by
  unfold State.edgeEng; rw [h.edges_eq hw]
theorem tailEng_eq (h : Keeps w s t) (i : Nat) (hw : w.testBit Zone.tails.ctorIdx = false := by rfl) : t.tailEng i = s.tailEng i := by
  unfold State.tailEng; rw [h.tails_eq hw]
theorem arb_eq (h : Keeps w s t) (i : Nat) (hw : w.testBit Zone.arbs.ctorIdx = false := by rfl) : t.arb i = s.arb i := by
  unfold State.arb; rw [h.arbs_eq hw]
theorem queue_eq (h : Keeps w s t) (i : Nat) (hw : w.testBit Zone.queues.ctorIdx = false := by rfl) : t.queue i = s.queue i := by
  unfold State.queue; rw [h.queues_eq hw]
theorem fn_eq (h : Keeps w s t) (i : Nat) (hw : w.testBit Zone.fns.ctorIdx = false := by rfl) : t.fn i = s.fn i := by
  unfold State.fn; rw [h.fns_eq hw]
theorem lock_eq (h : Keeps w s t) (i : Nat) (hw : w.testBit Zone.locks.ctorIdx = false := by rfl) : t.lock i = s.lock i := by
  unfold State.lock; rw [h.locks_eq hw]
theorem pool_eq (h : Keeps w s t) (i : Nat) (hw : w.testBit Zone.pools.ctorIdx = false := by rfl) : t.pool i = s.pool i := by
  unfold State.pool; rw [h.pools_eq hw]
theorem slot_eq (h : Keeps w s t) (i : Nat) (hw : w.testBit Zone.slots.ctorIdx = false := by rfl) : t.slot i = s.slot i := by
  unfold State.slot; rw [h.slots_eq hw]
theorem ctx_eq (h : Keeps w s t) (i : Nat) (hw : w.testBit Zone.ctxs.ctorIdx = false := by rfl) : t.ctx i = s.ctx i := by
  unfold State.ctx; rw [h.ctxs_eq hw]
theorem epoch_eq (h : Keeps w s t) (i : Nat) (hw : w.testBit Zone.epochs.ctorIdx = false := by rfl) : t.epoch i = s.epoch i := by
  unfold State.epoch; rw [h.epochs_eq hw]
theorem stackOf_eq (h : Keeps w s t) (i : Nat) (hw : w.testBit Zone.hbmStacks.ctorIdx = false := by rfl) : t.stackOf i = s.stackOf i := by
  unfold State.stackOf; rw [h.hbmStacks_eq hw]
theorem yport_eq (h : Keeps w s t) (i : Nat) (hw : w.testBit Zone.yports.ctorIdx = false := by rfl) : t.yport i = s.yport i := by
  unfold State.yport; rw [h.yports_eq hw]
theorem eth_eq (h : Keeps w s t) (i : Nat) (hw : w.testBit Zone.eths.ctorIdx = false := by rfl) : t.eth i = s.eth i := by
  unfold State.eth; rw [h.eths_eq hw]
theorem sender_eq (h : Keeps w s t) (i : Nat) (hw : w.testBit Zone.senders.ctorIdx = false := by rfl) : t.sender i = s.sender i := by
  unfold State.sender; rw [h.senders_eq hw]
theorem ep_eq (h : Keeps w s t) (i : Nat) (hw : w.testBit Zone.eps.ctorIdx = false := by rfl) : t.ep i = s.ep i := by
  unfold State.ep; rw [h.eps_eq hw]
end Keeps
end Sys2Proof.Machine

/-! The queue of a lock (R367): no step leaves more than 8 waiters, and a ninth acquire is BUSY. -/

namespace Sys2Proof
set_option Elab.async false

theorem Tab.get_mapVals {α : Type} (d : α) (f : α → α) (hd : f d = d) (t : List (Nat × α)) (i : Nat) :
    Tab.get d (Tab.mapVals f t) i = f (Tab.get d t i) := by
  induction t with
  | nil => exact hd.symm
  | cons e t ih =>
    obtain ⟨j, v⟩ := e
    by_cases h : j = i
    · simp [Tab.mapVals, Tab.get, h]
    · simpa [Tab.mapVals, Tab.get, h] using ih

theorem Tab.get_set {α : Type} (d v : α) (t : List (Nat × α)) (i k : Nat) :
    Tab.get d (Tab.set t i v) k = if i = k then v else Tab.get d t k := by
  by_cases h : i = k
  · subst h; simp
  · simp [h, Tab.get_set_ne]

end Sys2Proof

namespace Sys2Proof.Machine
set_option Elab.async false
variable {s t : State}

/-- Handing a lock on writes that lock alone: the answer to the waiter writes none (R368). -/
theorem State.locks_handLock (s : State) (l : Nat) : (s.handLock l).locks = (s.setLock l (s.lock l).handed).locks := by
  unfold State.handLock
  cases hx : (s.lock l).waiters with
  | nil => simp [hx, Lock.handed_of_nil hx]
  | cons w m =>
    rw [Lock.handed_of_cons hx]
    cases hreply : w.reply with
    | some q => simp [hx, hreply]
    | none => by_cases hpeer : bits w.code.toNat 8 2 = 1 <;> simp [hx, hreply, hpeer, State.queueSpore]

/-- Every lock of a table has at most 8 waiting acquirers (R367). -/
def LocksOk (t : List (Nat × Lock)) : Prop := ∀ l, (Tab.get {} t l).waiters.length ≤ 8

namespace LocksOk

theorem of_eq {a b : List (Nat × Lock)} (ha : LocksOk a) (h : b = a) : LocksOk b := h ▸ ha

theorem of_keeps {w : Nat} (hs : LocksOk s.locks) (h : Keeps w s t) (hw : w.testBit Zone.locks.ctorIdx = false := by rfl) : LocksOk t.locks :=
  hs.of_eq (h.locks_eq hw)

theorem set {a : List (Nat × Lock)} (ha : LocksOk a) (l : Nat) (v : Lock) (hv : v.waiters.length ≤ 8) : LocksOk (Tab.set a l v) := by
  intro j
  rw [Tab.get_set]
  split
  · exact hv
  · exact ha j

theorem mapVals {a : List (Nat × Lock)} (ha : LocksOk a) (f : Lock → Lock) (h0 : f {} = {})
    (hf : ∀ x, (f x).waiters.length ≤ x.waiters.length) : LocksOk (Tab.mapVals f a) := by
  intro l
  rw [Tab.get_mapVals _ _ h0]
  exact (hf _).trans (ha l)

theorem ite {p : Prop} [Decidable p] {a b : State} (ha : LocksOk a.locks) (hb : LocksOk b.locks) : LocksOk (if p then a else b).locks := by
  split
  · exact ha
  · exact hb

theorem foldl {α : Type} {f : State → α → State} {l : List α} (hf : ∀ a ∈ l, ∀ s, LocksOk s.locks → LocksOk (f s a).locks)
    (hs : LocksOk s.locks) : LocksOk (l.foldl f s).locks := by
  induction l generalizing s with
  | nil => exact hs
  | cons a l ih => exact ih (fun b hb => hf b (List.mem_cons_of_mem _ hb)) (hf a List.mem_cons_self s hs)

theorem finish (hs : LocksOk s.locks) (k : Pkt) (fast : Bool) (st : Status) (res : List Nat) : LocksOk (s.finish k fast st res).locks :=
  hs.of_eq (State.locks_finish ..)

-- What hands a lock on (R368, R370, R371).

theorem handLock (hs : LocksOk s.locks) (l : Nat) : LocksOk (s.handLock l).locks := by
  rw [State.locks_handLock]
  refine hs.set l _ ?_
  rw [Lock.waiters_handed, List.length_drop]
  exact (Nat.sub_le _ _).trans (hs l)

theorem forceLock (hs : LocksOk s.locks) (l : Nat) : LocksOk (s.forceLock l).locks := by
  unfold State.forceLock
  extract_lets x s1 g s2
  exact ite hs (handLock (s := s2) (hs.set l _ (hs l)) l)

theorem resetHolder (hs : LocksOk s.locks) (p : BitVec 10 → Bool) : LocksOk (s.resetHolder p).locks := by
  unfold State.resetHolder
  extract_lets gone s1 s2
  have h1 : LocksOk s1.locks := foldl (fun k _ s hs => hs.of_keeps (State.silence_keeps (Nat.and_self _) s k true (Keeps.refl _ s))) hs
  have h2 : LocksOk s2.locks :=
    h1.mapVals (fun x => { x with waiters := x.waiters.filter (fun w => !p w.code) }) rfl (fun x => List.length_filter_le _ _)
  exact foldl (fun l _ s hs => hs.forceLock l) h2

theorem tryLock (hs : LocksOk s.locks) (l : Nat) (code : BitVec 10) : LocksOk (s.tryLock l code).2.locks := by
  unfold State.tryLock
  extract_lets x
  split
  · exact hs.set l _ (hs l)
  · split <;> exact hs

theorem acquireRaw (hs : LocksOk s.locks) (f l : Nat) : LocksOk (s.acquireRaw f l).2.locks := by
  have htry := hs.tryLock l (fnCode f)
  unfold State.acquireRaw
  extract_lets r x
  split
  · exact hs
  · split <;> exact htry

theorem releaseRaw (hs : LocksOk s.locks) (f l : Nat) : LocksOk (s.releaseRaw f l).locks := ite (hs.handLock l) hs

theorem forceRaw (hs : LocksOk s.locks) (f l : Nat) : LocksOk (s.forceRaw f l).locks := ite (hs.forceLock l) (hs.releaseRaw f l)

-- The resets (R318, R424, R428), and what drops a commit or a peer (R48, R373, R448).

theorem dropCommit (hs : LocksOk s.locks) (h : Nat) : LocksOk (s.dropCommit h).locks := by
  refine ite (handLock ?_ (48 + h)) hs
  exact hs

theorem losePeer (hs : LocksOk s.locks) (p : Nat) : LocksOk (s.losePeer p).locks := by
  unfold State.losePeer
  extract_lets o s1 s2
  have h1 : LocksOk s1.locks := hs.of_keeps (State.unbindPort_keeps (Nat.and_self _) s p (Keeps.refl _ s))
  have h2 : LocksOk s2.locks := by
    cases ho : o with
    | some o' => simpa only [s2, ho] using h1.of_keeps (State.faultCtx_keeps (Nat.and_self _) s1 o' .linkTimeout (Keeps.refl _ s1))
    | none => simpa only [s2, ho] using h1
  exact h2.resetHolder _

theorem linkDown (hs : LocksOk s.locks) (p cause : Nat) : LocksOk (s.linkDown p cause).locks := by
  unfold State.linkDown
  extract_lets s1 s2 s3 s4
  have h3 : LocksOk s3.locks := of_keeps (s := s2.modQueue (100 + p) FQueue.flush) hs (State.yHold_keeps (Nat.and_self _) _ p (Keeps.refl _ _))
  exact ite hs (losePeer (s := s4) h3 p)

theorem dieReset (hs : LocksOk s.locks) (cause : Nat) (kept : Bool) : LocksOk (s.dieReset cause kept).locks := by
  unfold State.dieReset
  extract_lets up s1 s2 s3 s4
  have h1 : LocksOk s1.locks := foldl (fun p _ s hs => hs) hs
  clear_value s1
  have h2 : LocksOk s2.locks := foldl (fun i _ s hs => hs) h1
  clear_value s2
  have h4 : LocksOk s4.locks := resetHolder (s := s3) h2 _
  clear_value s4
  exact h4

theorem warmReset (hs : LocksOk s.locks) (cause : Nat) (kept : Bool) : LocksOk (s.warmReset cause kept).locks :=
  (hs.dieReset cause kept).of_keeps (State.startUp_keeps (Nat.and_self _) _ (Keeps.refl _ _))

theorem holdReset (hs : LocksOk s.locks) (cause : Nat) (kept : Bool) (ph : Phase) : LocksOk (s.holdReset cause kept ph).locks := by
  unfold State.holdReset
  extract_lets s1
  have hdie : LocksOk s1.locks := hs.dieReset cause kept
  clear_value s1
  exact hdie

theorem resetMcLocks (hs : LocksOk s.locks) : LocksOk s.resetMcLocks.locks := by
  unfold State.resetMcLocks
  extract_lets busy s1
  exact resetHolder (s := s1) hs _

theorem flrFn (hs : LocksOk s.locks) (f : Nat) : LocksOk (s.flrFn f).locks := by
  unfold State.flrFn
  extract_lets owned s1 s2 pools s3 s4 s5
  have h1 : LocksOk s1.locks := by
    refine foldl (fun o _ s hs => ?_) hs
    split
    · exact hs
    · next c _ =>
      extract_lets s' s'' c'
      have hs' : LocksOk s''.locks := by
        cases hr : c.replace with
        | some r =>
          simp only [s'', s', hr]
          exact hs.finish r.pkt false .badState []
        | none =>
          simp only [s'', s', hr]
          exact hs
      clear_value s''
      split
      · exact hs'
      · exact hs'
      · exact hs'
      · exact hs'
      · exact of_keeps (t := s''.clearContext o Cause.flr.code 2) hs' (State.clearContext_keeps (Nat.and_self _) _ _ _ _ (Keeps.refl _ _))
  clear_value s1
  have h3 : LocksOk s3.locks :=
    foldl (s := s2) (fun p _ s hs => hs.of_keeps (State.flushPool_keeps (Nat.and_self _) s p 2 2 (Keeps.refl _ s))) h1
  clear_value s3
  have h4 : LocksOk s4.locks := foldl (fun p _ s hs => hs) h3
  clear_value s4
  exact h4.resetHolder _

theorem flr (hs : LocksOk s.locks) (f : Nat) : LocksOk (s.flr f).locks := foldl (fun g _ _ hs => hs.flrFn g) hs

theorem resetEpB (hs : LocksOk s.locks) : LocksOk s.resetEpB.locks := foldl (fun g _ _ hs => hs.flrFn g) hs

-- Clocks, ports and temperature (R85, R417).

theorem faultCtxs (hs : LocksOk s.locks) (l : List Nat) (c : Cause) : LocksOk (l.foldl (fun s o => s.faultCtx o c) s).locks :=
  foldl (fun o _ s hs => hs.of_keeps (State.faultCtx_keeps (Nat.and_self _) s o c (Keeps.refl _ s))) hs

theorem losePort (hs : LocksOk s.locks) (d : Nat) : LocksOk (s.losePort d).locks := by
  unfold State.losePort
  extract_lets s1 s2 s3 s4
  have h1 : LocksOk s1.locks :=
    foldl (fun st _ s hs => ite (hs.of_keeps (State.loseStream_keeps (Nat.and_self _) s st (Keeps.refl _ s))) hs) hs
  clear_value s1
  have h2 : LocksOk s2.locks := by
    refine foldl (fun h _ s hs => ite hs ?_) h1
    exact of_keeps (t := (s.dropCommit h).dropHeadCmds h .headFault .hwError) (hs.dropCommit h)
      (State.dropHeadCmds_keeps (Nat.and_self _) _ h _ _ (Keeps.refl _ _))
  clear_value s2
  have h4 : LocksOk s4.locks := of_keeps (s := s3) h2 (State.ethLink_keeps (Nat.and_self _) _ d false (Keeps.refl _ _))
  clear_value s4
  exact foldl (fun p _ s hs => hs.linkDown p 2) h4

theorem loseClock (hs : LocksOk s.locks) (c : Nat) : LocksOk (s.loseClock c).locks := by
  unfold State.loseClock
  extract_lets d s1 s2
  have hall : LocksOk (s.liveCtxs.foldl (fun s o => s.faultCtx o .clkLoss) s).locks := hs.faultCtxs _ _
  refine ite (ite hs ?_) (ite ?_ (ite hall (ite ?_ (ite hs (ite ?_ ?_)))))
  · exact holdReset (s := s1) hs _ _ _
  · exact faultCtxs (s := s2) hs _ _
  · exact hs.losePort _
  · exact hs.of_keeps (State.ethLink_keeps (Nat.and_self _) s _ _ (Keeps.refl _ s))
  · exact hs.faultCtxs _ _

theorem declareClock (hs : LocksOk s.locks) (e : Ev) (c n : Nat) : LocksOk (s.declareClock e c n).locks := by
  unfold State.declareClock
  extract_lets s1 g s2
  exact ite hs (loseClock (s := s2) hs c)

theorem tempReading (hs : LocksOk s.locks) (r : B16) : LocksOk (tempReading r s).locks := by
  unfold Machine.tempReading
  extract_lets p p' s0 old g s1 s2 s3 v s4 s5 s6
  have h3 : LocksOk s3.locks := ite (of_keeps (s := s2) hs (State.retargetAll_keeps (Nat.and_self _) _ (Keeps.refl _ _))) hs
  clear_value s3
  have h6 : LocksOk s6.locks := holdReset (s := s5) h3 _ _ _
  clear_value s6
  exact ite (ite h3 h6) h3

theorem xinRestored (hs : LocksOk s.locks) : LocksOk (xinRestored s).locks := by
  unfold Machine.xinRestored
  extract_lets s1
  exact ite hs (ite hs (ite hs (warmReset (s := s1) hs _ _)))

-- The ledger (R45, R48), a head that goes (R37), and peers (R367, R388).

theorem detachStep (hs : LocksOk s.locks) (h : Nat) : LocksOk (s.detachStep h).locks :=
  hs.of_keeps (State.detachStep_keeps (Nat.and_self _) s h (Keeps.refl _ s))

theorem checkBudget (hs : LocksOk s.locks) (h : Nat) : LocksOk (s.checkBudget h).locks :=
  hs.of_keeps (State.checkBudget_keeps (Nat.and_self _) s h (Keeps.refl _ s))

theorem ledgerCommit (hs : LocksOk s.locks) (h : Nat) : LocksOk (ledgerCommit h s).locks := by
  unfold Machine.ledgerCommit
  extract_lets s1 s2 q b s3 data
  have h1 : LocksOk s1.locks := hs.checkBudget h
  clear_value s1
  have h3 : LocksOk s3.locks := of_keeps (s := s2) (h1.set (48 + h) _ (h1 (48 + h))) (State.touchEntry_keeps (Nat.and_self _) _ h _ (Keeps.refl _ _))
  clear_value s3
  refine ite hs (ite (detachStep ?_ h) (ite h1 h3))
  exact h1

theorem ledgerReadback (hs : LocksOk s.locks) (h : Nat) (copy : Bytes) : LocksOk (ledgerReadback h copy s).locks := by
  unfold Machine.ledgerReadback
  extract_lets x
  split
  · exact hs
  · extract_lets addr s1 w left s2 s3 s4 s5
    have h2 : LocksOk s2.locks := of_keeps (s := s1) hs (State.touchEntry_keeps (Nat.and_self _) _ h _ (Keeps.refl _ _))
    clear_value s2
    have h3 : LocksOk s3.locks := ite h2 h2
    clear_value s3
    refine ite hs (ite ((handLock (s := s4) h3 (48 + h)).checkBudget h |>.detachStep h) (ite ?_ (detachStep (handLock ?_ (48 + h)) h)))
    · refine of_keeps ?_ (State.sclSettle_keeps (Nat.and_self _) _ h (Keeps.refl _ _))
      exact hs
    · exact hs

theorem headRemoved (hs : LocksOk s.locks) (h : Nat) : LocksOk (headRemoved h s).locks := by
  unfold Machine.headRemoved
  extract_lets s1 s2
  have h1 : LocksOk s1.locks :=
    (hs.of_keeps (State.loseFrames_keeps (Nat.and_self _) s h .headLost (Keeps.refl _ s))).dropCommit h
  clear_value s1
  have h2 : LocksOk s2.locks := h1.of_keeps (State.dropHeadCmds_keeps (Nat.and_self _) s1 h _ _ (Keeps.refl _ s1))
  clear_value s2
  exact ite hs h2

theorem rxSpore (hs : LocksOk s.locks) (p typ : Nat) (seqd : Bool) (b : Bytes) : LocksOk (s.rxSpore p typ seqd b).2.locks :=
  hs.of_keeps (State.rxSpore_keeps (Nat.and_self _) s p typ seqd b (Keeps.refl _ s))

theorem peerReset (hs : LocksOk s.locks) (p : Nat) (b : Bytes) : LocksOk (peerReset p b s).locks := by
  have hrx := hs.rxSpore p 4 true b
  unfold Machine.peerReset
  split
  · next s' heq => rw [heq] at hrx; exact hrx
  · next s' heq =>
    rw [heq] at hrx
    refine losePeer ?_ p
    exact hrx

/-- A queued acquire, with fewer than 8 before it. -/
theorem enqueue (hs : LocksOk s.locks) {l : Nat} (w : Waiter) (hroom : (s.lock l).waiters.length < 8) :
    LocksOk (s.setLock l { s.lock l with waiters := (s.lock l).waiters ++ [w] }).locks :=
  hs.set l _ (by simpa using hroom)

theorem sporeLock (hs : LocksOk s.locks) (p : Nat) (b : Bytes) (op : PeerLock) : LocksOk (sporeLock p b op s).locks := by
  have hrx := hs.rxSpore p 3 true b
  unfold Machine.sporeLock
  split
  · next s' heq => rw [heq] at hrx; exact hrx
  · next s' heq =>
    rw [heq] at hrx
    extract_lets answer
    cases op with
    | result x => exact hrx
    | acquire fn lock =>
      have htry := hrx.tryLock lock.toNat (peerCode p fn)
      dsimp only
      split
      · exact hrx
      · split
        · next heq' => rw [heq'] at htry; exact htry
        · next heq' => rw [heq'] at htry; exact htry
        · next heq' =>
          rw [heq'] at htry
          split
          · next hroom => exact htry.enqueue _ hroom
          · exact htry
    | release fn lock => exact ite hrx (hrx.handLock _)

theorem lockAcquire (hs : LocksOk s.locks) (k : Pkt) (l wait us : Nat) : LocksOk (lockAcquire k l wait us s).locks := by
  unfold Machine.lockAcquire
  refine State.command_induction (P := fun s => LocksOk s.locks) s _ _ _ _ hs (fun _ => hs.finish _ _ _ _) fun _ => ?_
  extract_lets r x
  have hr : LocksOk r.2.locks := hs.tryLock l (fnCode (who k))
  split
  · exact hr.finish _ _ _ _
  · exact hr.finish _ _ _ _
  · next hheld =>
    have hsame : r.2 = s := by
      simp only [r, State.tryLock] at hheld ⊢
      split_ifs at hheld ⊢
      rfl
    refine ite (hs.finish _ _ _ _) ?_
    split
    · exact hs.finish _ _ _ _
    · next hroom =>
      simp only [x, hsame] at hroom ⊢
      exact hs.enqueue _ (Nat.lt_of_not_le hroom)

theorem headAttach (hs : LocksOk s.locks) (k : Pkt) (h : Nat) (a : AttachParams) : LocksOk (headAttach k h a s).locks := by
  unfold Machine.headAttach
  refine State.command_induction (P := fun s => LocksOk s.locks) s _ _ _ _ hs (fun _ => hs.finish _ _ _ _) fun _ => ?_
  extract_lets s1 s2
  have h2 : LocksOk s2.locks := of_keeps (dropCommit (s := s1) hs h) (State.dropHeadCmds_keeps (Nat.and_self _) _ h _ _ (Keeps.refl _ _))
  clear_value s2
  exact ite (finish (s := s1) hs _ _ _ _) h2

theorem lockRelease (hs : LocksOk s.locks) (k : Pkt) (l : Nat) : LocksOk (lockRelease k l s).locks :=
  State.command_induction (P := fun s => LocksOk s.locks) s _ _ _ _ hs (fun _ => hs.finish _ _ _ _) fun _ => (hs.handLock l).finish _ _ _ _

end LocksOk

-- Register accesses (R352-R355, R369): the lock registers and WARM_RESET reach the locks.

/-- Writes and reads of a register leave at most 8 waiters. -/
def RegLocksOk (r : Reg) : Prop :=
  (∀ v s, LocksOk s.locks → LocksOk (r.put v s).locks) ∧ (∀ s, LocksOk s.locks → LocksOk (r.onRead s).locks)

theorem regLocksOk_of_keeps {w : Nat} {r : Reg} (h : ∀ s, RegKeeps w s r) (hw : w.testBit Zone.locks.ctorIdx = false := by rfl) : RegLocksOk r :=
  ⟨fun v s hs => hs.of_keeps ((h s).1 v s (Keeps.refl w s)) hw, fun s hs => hs.of_keeps ((h s).2 s (Keeps.refl w s)) hw⟩

theorem regsLocksOk_of_keeps {w : Nat} {l : List Reg} (h : ∀ s, RegsKeeps w s l) (hw : w.testBit Zone.locks.ctorIdx = false := by rfl) :
    ∀ r ∈ l, RegLocksOk r :=
  fun r hr => regLocksOk_of_keeps (fun s => h s r hr) hw

theorem regLocksOk_ro (off lo w : Nat) (get : State → Nat) : RegLocksOk (roReg off lo w get) := ⟨fun _ _ hs => hs, fun _ hs => hs⟩

theorem regsLocksOk_absent (l : List Reg) : ∀ r ∈ l.map Reg.absent, RegLocksOk r :=
  List.forall_mem_map.2 fun _ _ => regLocksOk_ro _ _ _ _

theorem regLocksOk_put {off lo w : Nat} {cls : Cls} {get : State → Nat} {put : Nat → State → State}
    (h : ∀ v s, LocksOk s.locks → LocksOk (put v s).locks) : RegLocksOk { off := off, lo := lo, w := w, cls := cls, get := get, put := put } :=
  ⟨h, fun _ hs => hs⟩

theorem regsLocksOk_status (s : State) : ∀ r ∈ statusRegs s, RegLocksOk r := by
  have ro := regLocksOk_ro
  have ev (lo : Nat) (get : GReg → Bool) (clear : GReg → GReg) : RegLocksOk (eventReg lo get clear) :=
    regLocksOk_of_keeps (fun _ => eventReg_keeps (Nat.and_self _) lo get clear)
  have wl (off i : Nat) : RegLocksOk (wlReg s off i) := regLocksOk_of_keeps (fun _ => wlReg_keeps (Nat.and_self _) s off i)
  have same {off lo w : Nat} {cls : Cls} {get : State → Nat} {put : Nat → State → State} (h : ∀ v s, (put v s).locks = s.locks) :
      RegLocksOk { off := off, lo := lo, w := w, cls := cls, get := get, put := put } := regLocksOk_put fun v s hs => hs.of_eq (h v s)
  simp only [statusRegs, List.forall_mem_append, List.forall_mem_cons, List.not_mem_nil, false_implies, implies_true, and_true]
  exact ⟨⟨ro .., ro .., ro .., ro .., ro .., ro .., ro .., ev .., ev .., ev .., ev .., ev .., ev .., ro ..,
      regLocksOk_put fun v s hs => LocksOk.ite (hs.warmReset 2 true) hs, same fun _ _ => rfl, ro .., ro .., ro ..⟩,
    same fun _ _ => rfl, same fun _ _ => rfl, ro .., same fun _ _ => rfl, same fun _ _ => rfl,
    wl .., wl .., wl .., wl .., wl .., wl .., wl .., wl .., wl .., wl ..⟩

theorem regsLocksOk_lock (f l : Nat) : ∀ r ∈ lockRegs f l, RegLocksOk r := by
  have acq (off : Nat) : RegLocksOk
      { off := off, lo := 0, w := 32, cls := .ro, get := fun s => (s.acquireRaw f l).1, onRead := fun s => (s.acquireRaw f l).2 } :=
    ⟨fun _ _ hs => hs, fun _ hs => hs.acquireRaw f l⟩
  simp only [lockRegs, List.forall_mem_cons, List.not_mem_nil, false_implies, implies_true, and_true]
  exact ⟨acq _, regLocksOk_put fun v s hs => LocksOk.ite hs (LocksOk.ite (hs.forceRaw f l) (hs.releaseRaw f l)), regLocksOk_ro ..⟩

theorem regsLocksOk_regsAt (s : State) (f : Nat) (b : RBlock) (o : Nat) : ∀ r ∈ s.regsAt f b o, RegLocksOk r := by
  cases b with
  | ident => exact regsLocksOk_of_keeps (fun _ => identRegs_keeps (Nat.and_self _) o)
  | ring g => exact regsLocksOk_of_keeps (fun _ => ringRegs_keeps (Nat.and_self _) g)
  | global =>
    simp only [State.regsAt]
    split
    · exact regsLocksOk_status s
    · split
      · exact regsLocksOk_of_keeps (fun _ => powerRegs_keeps (Nat.and_self _))
      · exact regsLocksOk_of_keeps (fun _ => captureRegs_keeps (Nat.and_self _))
  | hub => exact regsLocksOk_of_keeps (fun _ => hubRegs_keeps (Nat.and_self _) s o)
  | lock => exact regsLocksOk_lock f (o / 16)
  | head h =>
    simp only [State.regsAt]
    split
    · exact regsLocksOk_of_keeps (fun _ => headRegs_keeps (Nat.and_self _) h)
    · exact regsLocksOk_absent _
  | strm st =>
    simp only [State.regsAt]
    split
    · exact regsLocksOk_of_keeps (fun _ => streamRegs_keeps (Nat.and_self _) st)
    · exact regsLocksOk_absent _
  | logWin => exact regsLocksOk_of_keeps (fun _ => logRegs_keeps (Nat.and_self _) o)
  | unit site =>
    simp only [State.regsAt]
    split
    · exact regsLocksOk_of_keeps (fun _ => unitRegs_keeps (Nat.and_self _) site)
    · exact regsLocksOk_absent _
  | engine t n => exact regsLocksOk_of_keeps (fun _ => engineRegs_keeps (Nat.and_self _) t n)
  | none => exact fun _ hr => nomatch hr

theorem RegLocksOk.write {r : Reg} (h : RegLocksOk r) (o n v : Nat) (hs : LocksOk s.locks) : LocksOk (r.write o n v s).locks := by
  unfold Reg.write
  cases r.cls with
  | rw | cnt | max | w1c | w1s => exact h.1 _ _ hs
  | ro | rcl => exact hs

theorem RegLocksOk.readEffect {r : Reg} (h : RegLocksOk r) (hs : LocksOk s.locks) : LocksOk (r.readEffect s).locks :=
  LocksOk.ite (h.1 0 s hs) (h.2 s hs)

namespace LocksOk

theorem regWrite (hs : LocksOk s.locks) (p : Path) (o n v : Nat) : LocksOk (s.regWrite p o n v).locks := by
  unfold State.regWrite
  extract_lets l rs
  refine ite hs (ite hs (ite hs (ite hs (foldl (fun r hr t ht => ?_) hs))))
  exact (regsLocksOk_regsAt s (pathFn p) l.1 l.2 r (List.mem_of_mem_filter hr)).write l.2 n v ht

theorem regRead (hs : LocksOk s.locks) (p : Path) (o n : Nat) : LocksOk (s.regRead p o n).2.locks := by
  unfold State.regRead
  extract_lets l rs v t
  have ht : LocksOk t.locks :=
    foldl (fun r hr t ht => (regsLocksOk_regsAt s (pathFn p) l.1 l.2 r (List.mem_of_mem_filter hr)).readEffect ht) hs
  clear_value t
  repeat' split
  all_goals first | exact hs | exact ht

-- Commands whose effect takes several steps.

theorem execThermalRecovery (hs : LocksOk s.locks) (ht : Machine.execThermalRecovery s = .next t) : LocksOk t.locks := by
  unfold Machine.execThermalRecovery at ht
  extract_lets g s1 at ht
  have h1 : LocksOk s1.locks := hs
  clear_value s1
  cases ht
  exact ite hs (ite h1 (ite h1 (h1.warmReset _ _)))

theorem execLockWaitTimeout (hs : LocksOk s.locks) (l : Fin 64) (q : B32) (ht : Machine.execLockWaitTimeout l q s = .next t) : LocksOk t.locks := by
  unfold Machine.execLockWaitTimeout at ht
  extract_lets x mine at ht
  cases ht
  split
  · split
    · refine finish (hs.set l _ ?_) _ _ _ _
      exact List.eraseP_sublist.length_le.trans (hs l)
    · exact hs
  · exact hs

theorem execMcRestart (hs : LocksOk s.locks) (fw ok : Bool) (ht : Machine.execMcRestart fw ok s = .next t) : LocksOk t.locks := by
  unfold Machine.execMcRestart at ht
  extract_lets s1 at ht
  have h1 : LocksOk s1.locks := resetMcLocks (hs.of_keeps (State.failFirmware_keeps (Nat.and_self _) s (Keeps.refl _ s)))
  clear_value s1
  cases ht
  exact ite hs (ite h1 (h1.warmReset _ _))

theorem execPcieAPerst (hs : LocksOk s.locks) (ht : Machine.execPcieAPerst s = .next t) : LocksOk t.locks := by
  unfold Machine.execPcieAPerst at ht
  extract_lets s1 at ht
  have h1 : LocksOk s1.locks := hs
  clear_value s1
  cases ht
  exact ite (h1.warmReset _ _) h1

theorem execPcieBPerst (hs : LocksOk s.locks) (ht : Machine.execPcieBPerst s = .next t) : LocksOk t.locks := by
  unfold Machine.execPcieBPerst at ht
  extract_lets s1 at ht
  have h1 : LocksOk s1.locks := hs
  clear_value s1
  cases ht
  exact ite h1.resetEpB h1

theorem execPcieLinkDown (hs : LocksOk s.locks) (ep : Fin 2) (ht : Machine.execPcieLinkDown ep s = .next t) : LocksOk t.locks := by
  unfold Machine.execPcieLinkDown at ht
  extract_lets s1 at ht
  have h1 : LocksOk s1.locks := hs
  clear_value s1
  cases ht
  exact ite (ite h1 (ite (h1.flr 0) h1.resetEpB)) hs

theorem execReadReg (hs : LocksOk s.locks) (off : B32) (ht : Machine.execReadReg off s = .next t) : LocksOk t.locks := by
  unfold Machine.execReadReg at ht
  extract_lets r n at ht
  have hr : LocksOk r.2.locks := hs.regRead _ _ _
  clear_value r
  have h1 : LocksOk ((r.2.draw.returned r.1).cspiLogRead off.toNat).locks :=
    of_keeps (s := r.2.draw.returned r.1) hr (State.cspiLogRead_keeps (Nat.and_self _) _ _ (Keeps.refl _ _))
  cases ht
  exact ite hs h1

/-- A command that may write the locks hands them on, resets or queues at them; `writes` keeps every other command from them. -/
theorem exec {c : Instr} (hs : LocksOk s.locks) (ht : exec c s = .next t) : LocksOk t.locks := by
  by_cases hz : (writes c).contains .locks = true
  · cases c with
    | lockAcquire k l w us => cases ht; exact hs.lockAcquire _ _ _ _
    | lockRelease k l => cases ht; exact hs.lockRelease _ _
    | lockWaitTimeout l q => exact hs.execLockWaitTimeout l q ht
    | lockAcq p l => cases ht; exact ite (hs.acquireRaw _ _) hs
    | lockReleaseWrite p l => cases ht; exact ite (hs.releaseRaw _ _) hs
    | lockForceWrite p l => cases ht; exact ite (hs.forceRaw _ _) hs
    | sporeLock p b op => cases ht; exact hs.sporeLock _ _ _
    | peerReset p b => cases ht; exact hs.peerReset _ _
    | yallekDown p cause => cases ht; exact ite hs (hs.linkDown _ _)
    | headRemoved h => cases ht; exact hs.headRemoved _
    | headAttach k h a => cases ht; exact hs.headAttach _ _ _
    | ledgerCommit h => cases ht; exact hs.ledgerCommit _
    | ledgerReadback h b => cases ht; exact hs.ledgerReadback _ _
    | clkLoss clk count => cases ht; exact hs.declareClock _ _ _
    | clkFast clk count => cases ht; exact hs.declareClock _ _ _
    | xinRestored => cases ht; exact hs.xinRestored
    | bor rail => cases ht; exact ite hs (hs.holdReset _ _ _)
    | por pin => cases ht; exact fun _ => Nat.zero_le _
    | tempReading r => cases ht; exact ite hs (hs.tempReading _)
    | thermalRecovery => exact hs.execThermalRecovery ht
    | mcRestart fw ok => exact hs.execMcRestart fw ok ht
    | pcieAPerst => exact hs.execPcieAPerst ht
    | pcieBPerst => exact hs.execPcieBPerst ht
    | pcieLinkDown ep => exact hs.execPcieLinkDown ep ht
    | flr f => cases ht; exact ite (hs.flr f) hs
    | warmReset => cases ht; exact ite (hs.warmReset _ _) hs
    | registerWrite p off bytes v => cases ht; exact ite (hs.regWrite _ _ _ _) hs
    | registerLowRead p off => cases ht; exact ite (hs.regRead _ _ _) hs
    | fcFseqRead site => cases ht; exact ite (hs.regRead _ _ _) hs
    | badAccessRead => cases ht; exact ite (hs.regRead _ _ _) hs
    | logDropRead f => cases ht; exact ite (hs.regRead _ _ _) hs
    | readReg off => exact hs.execReadReg off ht
    | writeReg off v => cases ht; exact ite (hs.regWrite _ _ _ _) hs
    | _ => exact absurd hz Bool.false_ne_true
  · exact hs.of_eq (exec_same ht (Bool.eq_false_iff.2 hz) : s.locks = t.locks).symm

theorem step (hs : LocksOk s.locks) (ht : Machine.step s = .next t) : LocksOk t.locks := by
  unfold Machine.step at ht
  split at ht
  · cases ht
    exact hs.of_keeps (kclkCycle_keeps (Nat.and_self _) s (Keeps.refl _ s))
  · next c rest _ => exact exec (s := { s with pending := rest }) hs ht

end LocksOk

theorem State.tryLock_of_held {l : Nat} {code : BitVec 10} (hheld : (s.lock l).holder ≠ 0) (hother : (s.lock l).holder ≠ code) :
    s.tryLock l code = (.held, s) := by
  simpa [State.tryLock, hother] using hheld

theorem lockAcquire_of_full {k : Pkt} {l us : Nat} (hk : Allowed s k 0x0005) (hl : l < 48) (hus : us ≠ 0) (hheld : (s.lock l).holder ≠ 0)
    (hother : (s.lock l).holder ≠ fnCode (who k)) (hfull : 8 ≤ (s.lock l).waiters.length) : lockAcquire k l 1 us s = s.finish k true .busy := by
  unfold lockAcquire
  rw [State.command_passed _ hk (by simp [firstFail, hl, hus])]
  simp [State.tryLock_of_held hheld hother, hfull]

/-- Settles O9: the commands that add a waiter look for room among the 8 first; a full queue answers BUSY. -/
theorem locksQueueEight : Obligations.LocksQueueEight := by
  unfold Obligations.LocksQueueEight
  refine ⟨fun s t hs ht => LocksOk.step hs ht, fun k l us s hk hl hus hheld hother hfull => ?_⟩
  have hus' : us.toNat ≠ 0 := fun h => hus (BitVec.eq_of_toNat_eq h)
  exact congrArg Host.Outcome.next (lockAcquire_of_full hk hl hus' hheld hother hfull)

end Sys2Proof.Machine

/-! The harvest grade (R4, Table 00-3): the part of a machine never changes. -/

namespace Sys2Proof.Machine
set_option Elab.async false
variable {s t : State}

theorem part_exec {c : Instr} (ht : exec c s = .next t) : t.part = s.part := by
  have hkeep := (pending_part_not_mem_writes c).2
  exact (exec_same (z := .part) ht (by simpa using hkeep) : s.part = t.part).symm

theorem part_step (ht : step s = .next t) : t.part = s.part := by
  unfold step at ht
  split at ht
  · cases ht
    exact (kclkCycle_keeps (Nat.and_self _) s (Keeps.refl _ s)).part_eq
  · next c rest _ => exact part_exec (s := { s with pending := rest }) ht

theorem State.gradeOk_iff (s : State) : s.gradeOk = true ↔ ∀ k : UKind, guaranteed s.part.gradeB k ≤ s.working k := by
  constructor
  · intro h k
    have hall := List.all_eq_true.1 h k (by cases k <;> simp)
    simpa using hall
  · exact fun h => List.all_eq_true.2 fun k _ => decide_eq_true (h k)

theorem State.gradeOk_of_part (h : t.part = s.part) : t.gradeOk = s.gradeOk := by
  have hworks : t.works = s.works := funext fun i => by rw [State.works, State.works, h]
  have hworking : t.working = s.working := funext fun k => by rw [State.working, State.working, hworks]
  rw [State.gradeOk, State.gradeOk, h, hworking]

/-- Settles O59: the guarantee speaks of the part alone, and no step writes the part. -/
theorem harvestGradeHolds : Obligations.HarvestGradeHolds :=
  ⟨by decide, State.gradeOk_iff, by decide +kernel, fun _ _ hs ht => (State.gradeOk_of_part (part_step ht)).trans hs⟩

end Sys2Proof.Machine

/-! LOCK_ACQUIRE, LOCK_RELEASE, LOCK_QUERY and QUEUE_FLUSH (R340, R367). -/

namespace Sys2Proof.Machine
set_option Elab.async false
variable {s : State}

-- Checks in order (R335): a list passes when each of its checks does.

@[simp] theorem firstFail_nil : firstFail [] = none := rfl

@[simp] theorem firstFail_cons_eq_none {c : Bool × Status} {l : List (Bool × Status)} : firstFail (c :: l) = none ↔ c.1 = false ∧ firstFail l = none := by
  simp [firstFail_eq_none_iff]

@[simp] theorem firstFail_append_eq_none {l m : List (Bool × Status)} : firstFail (l ++ m) = none ↔ firstFail l = none ∧ firstFail m = none := by
  simp [firstFail_eq_none_iff, or_imp, forall_and]

theorem State.streamChecks_pass {k : Pkt} {st : Nat} (hst : st < 64) (hon : st < s.part.variant.streams) (hfn : mayAct (who k) (s.streamFn st) = true) :
    firstFail (s.streamChecks k st) = none := by
  simp [State.streamChecks, hst, hon, hfn]

theorem State.poolChecks_pass {k : Pkt} {p : Nat} (hp : p < 64) (hon : p < s.part.variant.streams) (hfn : mayAct (who k) (s.pool p).fn = true) :
    firstFail (s.poolChecks k p) = none := by
  simp [State.poolChecks, hp, hon, hfn]

-- Locks (R366-R368).

theorem State.lock_handLock_ne (s : State) {l j : Nat} (h : j ≠ l) : (s.handLock l).lock j = s.lock j := by
  unfold State.lock
  rw [State.locks_handLock]
  exact State.lock_setLock_ne s _ _ _ (Ne.symm h)

theorem Lock.holder_handed (x : Lock) : x.handed.holder = match x.waiters with | w :: _ => w.code | [] => 0 := by
  unfold Lock.handed
  split <;> rename_i hx <;> simp [hx]

theorem State.tryLock_of_free {l : Nat} {code : BitVec 10} (hfree : (s.lock l).holder = 0) :
    s.tryLock l code = (.granted (s.lock l).ownerLost, s.setLock l { s.lock l with holder := code, ownerLost := false }) := by
  simp [State.tryLock, hfree]

theorem lockAcquire_of_free {k : Pkt} {l us : Nat} (hk : Allowed s k 0x0005) (hl : l < 48) (hfree : (s.lock l).holder = 0) :
    lockAcquire k l 0 us s = (s.setLock l { s.lock l with holder := fnCode (who k), ownerLost := false }).finish k true
      (if (s.lock l).ownerLost then .okLost else .ok) [(s.lock l).epoch.toNat] := by
  unfold lockAcquire
  rw [State.command_passed _ hk (by simp [hl])]
  simp [State.tryLock_of_free hfree]

theorem lockAcquire_of_room {k : Pkt} {l us : Nat} (hk : Allowed s k 0x0005) (hl : l < 48) (hus : us ≠ 0) (hheld : (s.lock l).holder ≠ 0)
    (hother : (s.lock l).holder ≠ fnCode (who k)) (hroom : (s.lock l).waiters.length < 8) :
    lockAcquire k l 1 us s =
      s.setLock l { s.lock l with waiters := (s.lock l).waiters ++ [{ code := fnCode (who k), reply := some k }] } := by
  unfold lockAcquire
  rw [State.command_passed _ hk (by simp [hl, hus])]
  simp [State.tryLock_of_held hheld hother, hroom]

-- Flushes (R340): what the return of descriptors and completion records leaves of a stream.

theorem State.strm_writeCpl (s : State) (p t : Nat) (r : Bytes) (i : Nat) : (s.writeCpl p t r).strm i = s.strm i :=
  (State.writeCpl_keeps (Nat.and_self _) s p t r (Keeps.refl _ s)).strm_eq i

theorem State.strm_returnDesc (s : State) (p x : Nat) (d : PoolDesc) (i : Nat) : (s.returnDesc p x d).strm i = s.strm i :=
  (State.returnDesc_keeps (Nat.and_self _) s p x d (Keeps.refl _ s)).strm_eq i

theorem State.strm_request (s : State) (o : Nat) (on : Bool) (i : Nat) : (s.request o on).strm i = s.strm i :=
  (State.request_keeps (Nat.and_self _) s o on (Keeps.refl _ s)).strm_eq i

theorem State.strm_closeBuf (s : State) (st x : Nat) (eof : Bool) : (s.closeBuf st x eof).strm st = { s.strm st with openBuf := none } := by
  unfold State.closeBuf
  extract_lets x0
  split
  · next h =>
    rw [show none = (s.strm st).openBuf from h.symm]
  · rw [State.strm_writeCpl]
    exact State.strm_setStrm _ _ _

theorem State.strm_closeRing (s : State) (st x : Nat) (eof : Bool) : (s.closeRing st x eof).strm st = { s.strm st with ringBuf := none } := by
  unfold State.closeRing
  extract_lets x0
  split
  · next h =>
    rw [show none = (s.strm st).ringBuf from h.symm]
  · rw [State.strm_writeCpl]
    exact State.strm_setStrm _ _ _

theorem State.strm_flushOutput (s : State) (st x cause : Nat) :
    ((s.flushOutput st x cause).strm st).oq = [] ∧ ((s.flushOutput st x cause).strm st).ring = [] ∧ ((s.flushOutput st x cause).strm st).openBuf = none ∧
      ((s.flushOutput st x cause).strm st).flushEpoch = BitVec.ofNat 8 ((s.strm st).flushEpoch.toNat + 1) := by
  unfold State.flushOutput
  extract_lets p s1 s2 s3 s4 s5
  have h1 : s1.strm st = { s.strm st with openBuf := none, ringBuf := none } := by
    simp only [s1, State.strm_closeRing, State.strm_closeBuf]
  have h2 : s2.strm st = s1.strm st := by
    simp only [s2]
    split
    · exact State.strm_returnDesc ..
    · rfl
  have h3 : s3.strm st = s2.strm st := by
    simp only [s3]
    split <;> rfl
  have h4 : (s4.strm st).oq = [] ∧ (s4.strm st).ring = [] ∧ (s4.strm st).openBuf = none ∧
      (s4.strm st).flushEpoch = BitVec.ofNat 8 ((s.strm st).flushEpoch.toNat + 1) := by
    simp [s4, h3, h2, h1]
  simpa only [State.strm_log, s5, State.strm_request] using h4

/-- The end of a command moves packets of a ring, and leaves a function's interface otherwise as it is (R337). -/
theorem State.fn_finish (s : State) (k : Pkt) (fast : Bool) (st : Status) (res : List Nat) (e : Option B64) (i : Nat) :
    (s.finish k fast st res e).fn i = { s.fn i with inFlight := ((s.finish k fast st res e).fn i).inFlight } := by
  have hring (l : List InFlight) : (s.setRing k.fn k.cspi l).fn i = { s.fn i with inFlight := ((s.setRing k.fn k.cspi l).fn i).inFlight } := by
    unfold State.setRing State.modFn
    split
    · rfl
    · by_cases h : (k.fn : Nat) = i
      · subst h; simp
      · simp [State.fn_setFn_ne _ _ _ _ h]
  unfold State.finish
  extract_lets r out ring p
  split
  · rw [State.foldl_postReply_frame]
    exact hring _
  · cases out <;> rfl

@[simp] theorem State.replyQ_finish (s : State) (k : Pkt) (fast : Bool) (st : Status) (res : List Nat) (e : Option B64) (i : Nat) :
    ((s.finish k fast st res e).fn i).replyQ = (s.fn i).replyQ := by rw [State.fn_finish]

@[simp] theorem State.replyEpoch_finish (s : State) (k : Pkt) (fast : Bool) (st : Status) (res : List Nat) (e : Option B64) (i : Nat) :
    ((s.finish k fast st res e).fn i).replyEpoch = (s.fn i).replyEpoch := by rw [State.fn_finish]

theorem State.fn_flushReplies (s : State) (f cause : Nat) :
    (s.flushReplies f cause).fn f = { s.fn f with replyQ := [], replyEpoch := (s.fn f).replyEpoch + 1 } := by
  simp [State.flushReplies]

-- Completion records (R171) leave the FLUSH_EPOCH of every pool.

theorem State.pool_modPool (s : State) (p : Nat) (f : Pool → Pool) (i : Nat) : (s.modPool p f).pool i = if p = i then f (s.pool p) else s.pool i := by
  rw [State.modPool]
  exact Tab.get_set _ _ _ _ _

/-- Two states whose pools have the same FLUSH_EPOCHs. -/
def SameFlushes (s t : State) : Prop := ∀ i, (t.pool i).flushEpoch = (s.pool i).flushEpoch

theorem SameFlushes.refl (s : State) : SameFlushes s s := fun _ => rfl

theorem SameFlushes.trans {s t u : State} (h : SameFlushes s t) (h' : SameFlushes t u) : SameFlushes s u := fun i => (h' i).trans (h i)

theorem SameFlushes.modPool (s : State) (p : Nat) (f : Pool → Pool) (hf : ∀ x, (f x).flushEpoch = x.flushEpoch) : SameFlushes s (s.modPool p f) := by
  intro i
  rw [State.pool_modPool]
  split
  · next h => rw [hf, h]
  · rfl

theorem SameFlushes.foldl {α : Type} {f : State → α → State} (hf : ∀ s x, SameFlushes s (f s x)) (l : List α) (s : State) :
    SameFlushes s (l.foldl f s) := by
  induction l generalizing s with
  | nil => exact .refl s
  | cons x l ih => exact (hf s x).trans (ih _)

theorem SameFlushes.deliverCpl (s : State) (p : Nat) : SameFlushes s (s.deliverCpl p) := by
  unfold State.deliverCpl
  extract_lets x r s1 s2
  have h1 : SameFlushes s s1 := foldl (by intro s b; exact modPool (s.hostWrite _ b) p _ (by intro _; rfl)) _ _
  clear_value s1
  exact h1.trans (modPool s1 p (fun z => { z with cpl := r.2 }) fun _ => rfl)

theorem SameFlushes.writeCpl (s : State) (p t : Nat) (r : Bytes) : SameFlushes s (s.writeCpl p t r) := by
  unfold State.writeCpl
  exact (modPool s p _ (by intro _; rfl)).trans (deliverCpl _ p)

theorem SameFlushes.returnDesc (s : State) (p x : Nat) (d : PoolDesc) : SameFlushes s (s.returnDesc p x d) := by
  unfold State.returnDesc
  extract_lets u v r
  have hr : SameFlushes s r.2 := modPool s.draw.draw p _ (by intro _; rfl)
  exact hr.trans (writeCpl _ p _ _)

theorem SameFlushes.closeBuf (s : State) (st x : Nat) (eof : Bool) : SameFlushes s (s.closeBuf st x eof) := by
  unfold State.closeBuf
  extract_lets y
  split
  · exact .refl s
  · exact writeCpl (s.modStrm st _) _ _ _

theorem SameFlushes.closeRing (s : State) (st x : Nat) (eof : Bool) : SameFlushes s (s.closeRing st x eof) := by
  unfold State.closeRing
  extract_lets y
  split
  · exact .refl s
  · exact writeCpl (s.modStrm st _) _ _ _

theorem State.pool_flushPool (s : State) (p x cause : Nat) :
    ((s.flushPool p x cause).pool p).cache = [] ∧ ((s.flushPool p x cause).pool p).flushEpoch = (s.pool p).flushEpoch + 1 := by
  unfold State.flushPool
  extract_lets owned s1 held s2 s3 s4
  have h1 : SameFlushes s s1 := .foldl (fun s st => (SameFlushes.closeBuf s st x false).trans (.closeRing _ st x false)) _ _
  have h2 : SameFlushes s1 s2 := .foldl (by intro s st i; rfl) _ _
  have h3 : SameFlushes s2 s3 := .foldl (fun s d => .returnDesc s p x d) _ _
  have hs : (s3.pool p).flushEpoch = (s.pool p).flushEpoch := ((h1.trans h2).trans h3) p
  clear_value s3
  simp [s4, hs]

theorem State.yport_flushSpores (s : State) (p cause : Nat) : ((s.flushSpores p cause).yport p).tx = [] := by
  simp [State.flushSpores]

theorem queueFlush_replies {k : Pkt} {i : Nat} (hk : Allowed s k 0x8002) (hi : i < 64) (hfn : mayAct (who k) i = true) :
    queueFlush k 0 i s = (s.flushReplies i 0).finish k true .ok := by
  unfold queueFlush
  exact State.command_passed _ hk (by simp [hi, hfn])

theorem queueFlush_output {k : Pkt} {i : Nat} (hk : Allowed s k 0x8002) (hi : i < 64) (hon : i < s.part.variant.streams)
    (hfn : mayAct (who k) (s.streamFn i) = true) : queueFlush k 1 i s = (s.flushOutput i 2 0).finish k true .ok := by
  unfold queueFlush
  exact State.command_passed _ hk (State.streamChecks_pass hi hon hfn)

theorem queueFlush_pool {k : Pkt} {i : Nat} (hk : Allowed s k 0x8002) (hi : i < 64) (hon : i < s.part.variant.streams)
    (hfn : mayAct (who k) (s.pool i).fn = true) : queueFlush k 2 i s = (s.flushPool i 2 0).finish k true .ok := by
  unfold queueFlush
  exact State.command_passed _ hk (State.poolChecks_pass hi hon hfn)

theorem queueFlush_spores {k : Pkt} {i : Nat} (hk : Allowed s k 0x8002) (hi : i < 4) (hon : i < s.part.variant.yalleks) :
    queueFlush k 3 i s = (s.flushSpores i 0).finish k true .ok := by
  unfold queueFlush
  exact State.command_passed _ hk (by simp [hi, hon])

/-- Settles O48. -/
theorem lockAndFlushCommands : Obligations.LockAndFlushCommands := by
  unfold Obligations.LockAndFlushCommands
  refine ⟨fun k l us s hk hl hfree => congrArg Host.Outcome.next (lockAcquire_of_free hk hl hfree), fun k l us s hk hl hus hheld hother hroom => ?_,
    fun k l s hk hl hheld => ⟨_, exec_lockRelease_of_holder hk hl hheld, ?_⟩, fun k l s hk hl => ?_,
    fun k i s hk hi hfn => ⟨(s.flushReplies i.toNat 0).finish k true .ok, ?_, ?_⟩,
    fun k i s hk hi hon hfn => ⟨(s.flushOutput i.toNat 2 0).finish k true .ok, ?_, ?_⟩,
    fun k i s hk hi hon hfn => ⟨(s.flushPool i.toNat 2 0).finish k true .ok, ?_, ?_⟩,
    fun k i s hk hi hon => ⟨(s.flushSpores i.toNat 0).finish k true .ok, ?_, ?_⟩⟩
  · have hus' : us.toNat ≠ 0 := fun h => hus (BitVec.eq_of_toNat_eq h)
    exact congrArg Host.Outcome.next (lockAcquire_of_room hk hl hus' hheld hother hroom)
  · simp only [State.lock_finish, State.lock_handLock]
    exact ⟨Lock.waiters_handed _, Lock.holder_handed _, fun j hj => s.lock_handLock_ne hj⟩
  · exact congrArg Host.Outcome.next (State.command_passed _ hk (by simp [hl]))
  · exact congrArg Host.Outcome.next (queueFlush_replies hk hi hfn)
  · simp [State.fn_flushReplies]
  · exact congrArg Host.Outcome.next (queueFlush_output hk hi hon hfn)
  · simp [State.strm_flushOutput]
  · exact congrArg Host.Outcome.next (queueFlush_pool hk hi hon hfn)
  · simp [State.pool_flushPool]
  · exact congrArg Host.Outcome.next (queueFlush_spores hk hi hon)
  · simp [State.yport_flushSpores]

end Sys2Proof.Machine

/-! NOP, STREAM_START, STREAM_STOP and DROP_THRESHOLD (R308-R313, Table 13-7). -/

namespace Sys2Proof.Machine
set_option Elab.async false
variable {s : State}

theorem State.ctx_of_boundCtx {st o : Nat} {c : Ctx} (h : s.boundCtx st = some c) (ho : (s.strm st).ctx = some o) : s.ctx o = some c := by
  unfold State.boundCtx at h
  rw [ho] at h
  cases hc : s.ctx o with
  | none => simp [hc] at h
  | some d =>
    by_cases hrel : d.state = .releasing
    · simp [hc, hrel] at h
    · simpa [hc, hrel] using h

theorem State.boundChecks_pass {k : Pkt} {st : Nat} {c : Ctx} (hb : BoundStream s k st c) : firstFail (s.boundChecks k st) = none := by
  obtain ⟨hon, hst, hfn, hctx⟩ := hb
  simp [State.boundChecks, State.streamChecks_pass hst hon hfn, hctx]

@[simp] theorem State.strm_modRunning (s : State) (o : Nat) (f : Ctx → Ctx) (i : Nat) : (s.modRunning o f).strm i = s.strm i := rfl

theorem State.ctx_modRunning (s : State) (o : Nat) (f : Ctx → Ctx) : (s.modRunning o f).ctx o = (s.ctx o).map f := State.ctx_setCtx _ _ _

-- STREAM_START.

theorem State.startSource_pass_live {st : Nat} {v : VcDecl} (hsrc : (s.strm st).source = 0) (huse : (s.head (st / 4)).usable = true)
    (hdet : (s.head (st / 4)).detach = none) (hv : (s.head (st / 4)).chan (st % 4) = some v) (hw : v.width.toNat = (s.bindDecl st).width)
    (hh : v.height.toNat = (s.bindDecl st).height) : firstFail (s.startSource st) = none := by
  simp [State.startSource, hsrc, hv, huse, hdet, hw, hh]

theorem State.startPool_pass_pcie {k : Pkt} {st p : Nat} (hroute : (s.strm st).route = 0) (hp : p < 64) (hon : p < s.part.variant.streams)
    (hdie : dieOfPool p = dieOfStream st) (hfn : mayAct (who k) (s.pool p).fn = true) (hready : (s.pool p).ready = true)
    (hsame : (s.strm st).pool = p) : firstFail (s.startPool k st p) = none := by
  have h255 : p ≠ 255 := by omega
  simp [State.startPool, State.poolChecks, hroute, hp, hon, hdie, hfn, hready, hsame, h255]

-- STREAM_STOP.

theorem State.strm_stopCommit (s : State) (h i : Nat) : (s.stopCommit h).strm i = s.strm i :=
  (State.stopCommit_keeps (Nat.and_self _) s h (Keeps.refl _ s)).strm_eq i

theorem State.strm_checkStopping (s : State) (o i : Nat) : (s.checkStopping o).strm i = s.strm i :=
  (State.checkStopping_keeps (Nat.and_self _) s o (Keeps.refl _ s)).strm_eq i

theorem State.strm_endStream (s : State) (st : Nat) : (s.endStream st).strm st =
    { s.strm st with started := false, admitting := false, startAt := none, stopNext := false, stopNow := false } := by
  unfold State.endStream
  extract_lets was s1 s2
  have h2 : s2.strm st = { s.strm st with started := false, admitting := false, startAt := none, stopNext := false, stopNow := false } := by
    simp [s2, s1]
  split
  · rw [State.strm_stopCommit, h2]
  · exact h2

/-- A stream between frames stops at once. -/
theorem State.started_stopStream_of_between {st : Nat} {imm : Bool} (hstart : (s.strm st).started = true) (hadm : (s.strm st).admitting = false) :
    ((s.stopStream st imm).strm st).started = false := by
  unfold State.stopStream
  extract_lets x live inFrame s1 s2 y s3
  have hin : inFrame = false := by simp [inFrame, x, hadm]
  have h3 : (s3.strm st).started = false := by simp [s3, hin, State.strm_endStream]
  clear_value s3
  rw [show x.started = true from hstart, Bool.not_true, if_neg Bool.false_ne_true]
  split
  · rw [State.strm_checkStopping, h3]
  · exact h3

/-- A stream within a frame stops when the frame has ended. -/
theorem State.stopNext_stopStream_of_within {st : Nat} {f : LinkFrame} (hstart : (s.strm st).started = true) (hsrc : (s.strm st).source = 0)
    (hadm : (s.strm st).admitting = true) (hframe : (s.strm st).frame = some f) (hdrop : f.dropping = false) :
    ((s.stopStream st false).strm st).started = true ∧ ((s.stopStream st false).strm st).stopNext = true := by
  unfold State.stopStream
  extract_lets x live inFrame s1 s2 y s3
  have hin : inFrame = true := by simp [inFrame, live, x, hsrc, hadm, hframe, hdrop]
  have h3 : (s3.strm st).started = true ∧ (s3.strm st).stopNext = true := by simp [s3, hin, hstart]
  clear_value s3
  rw [show x.started = true from hstart, Bool.not_true, if_neg Bool.false_ne_true]
  split
  · rw [State.strm_checkStopping]
    exact h3
  · exact h3

theorem State.stopTargets_stream {st : Nat} (hstart : (s.strm st).started = true) : s.stopTargets 0 st = [st] := by
  simp [State.stopTargets, hstart]

/-- Settles O46. -/
theorem streamCommands : Obligations.StreamCommands := by
  unfold Obligations.StreamCommands
  refine ⟨fun k s hk => congrArg Host.Outcome.next (State.command_passed _ hk rfl), ?_, ?_, ?_, ?_, ?_⟩
  · intro k st pol oq p c v s hk hb hpol hoq hoq1 hcoc hstart hmulti hsrc huse hdet hv hw hh hroute hp hon hdie hfn hready hsame hq
    refine ⟨_, rfl, ?_⟩
    dsimp only [streamStart]
    rw [State.command_passed _ hk (by
      simp [hpol, hoq, hoq1, State.boundChecks_pass hb, hb.2.2.2, hcoc, hstart, hmulti, State.startSource_pass_live hsrc huse hdet hv hw hh,
        State.startPool_pass_pcie hroute hp hon hdie hfn hready hsame, hq])]
    refine ⟨?_, ?_, ?_, ?_, ?_, fun o ho => ?_⟩
    case refine_6 => simp [hb.2.2.2, hcoc, ho, State.ctx_modRunning, State.ctx_of_boundCtx hb.2.2.2 ho]
    all_goals simp [hsrc, hb.2.2.2, hcoc, BitVec.toNat_eq]
  · intro k st c s hk hb hcoc hstart hmulti hsrc hroute hq
    refine ⟨_, rfl, ?_⟩
    dsimp only [streamStart]
    rw [State.command_passed _ hk (by
      simp [State.boundChecks_pass hb, hb.2.2.2, hcoc, hstart, hmulti, State.startSource, hsrc, State.startPool, hroute, hq])]
    simp [hsrc, hb.2.2.2, hcoc]
  · intro k st imm c s hk hb himm hstart hadm
    refine ⟨_, rfl, ?_⟩
    dsimp only [streamStop]
    rw [State.command_passed _ hk (by simp [himm, State.boundChecks_pass hb, State.stopTargets_stream hstart])]
    simp [State.stopTargets_stream hstart, State.started_stopStream_of_between hstart hadm]
  · intro k st c f s hk hb hstart hsrc hadm hframe hdrop
    refine ⟨_, rfl, ?_⟩
    dsimp only [streamStop]
    rw [State.command_passed _ hk (by simp [State.boundChecks_pass hb, State.stopTargets_stream hstart])]
    simp [State.stopTargets_stream hstart, State.stopNext_stopStream_of_within hstart hsrc hadm hframe hdrop]
  · intro k st n c s hk hb hn1 hn8 hsrc
    refine congrArg Host.Outcome.next ?_
    rw [dropThreshold, State.command_passed _ hk (by simp [hn8, State.boundChecks_pass hb]; omega)]
    simp [hsrc]


end Sys2Proof.Machine

/-! Ownership, pools and log rings (R335, R340, R347), and the modes of the machine (R435, R437, R442). -/

namespace Sys2Proof.Machine
set_option Elab.async false
variable {s : State}

theorem val_fnId {f : Nat} (hf : f < 64) : (fnId f).val = f := Nat.mod_eq_of_lt hf

@[simp] theorem State.logRing_finish (s : State) (k : Pkt) (fast : Bool) (st : Status) (res : List Nat) (e : Option B64) (i : Nat) :
    ((s.finish k fast st res e).fn i).logRing = (s.fn i).logRing := by rw [State.fn_finish]

@[simp] theorem State.logProd_finish (s : State) (k : Pkt) (fast : Bool) (st : Status) (res : List Nat) (e : Option B64) (i : Nat) :
    ((s.finish k fast st res e).fn i).logProd = (s.fn i).logProd := by rw [State.fn_finish]

@[simp] theorem State.logCons_finish (s : State) (k : Pkt) (fast : Bool) (st : Status) (res : List Nat) (e : Option B64) (i : Nat) :
    ((s.finish k fast st res e).fn i).logCons = (s.fn i).logCons := by rw [State.fn_finish]

/-- A head, or a pool, passes to a function as a field of its own record. -/
theorem State.head_modHead (s : State) (h : Nat) (f : Head → Head) (j : Nat) : (s.modHead h f).head j = if h = j then f (s.head h) else s.head j := by
  rw [State.modHead]
  exact Tab.get_set _ _ _ _ _

theorem toNat_beq_one (b : B8) : (b.toNat == 1) = (b == 1) := by
  rw [Bool.eq_iff_iff, beq_iff_eq, beq_iff_eq, BitVec.toNat_eq]
  rfl

-- Two commands of ownership (R335): the checks pass while nothing of the object runs.

theorem headAssign_of_idle {k : Pkt} {h f : Nat} (hk : Allowed s k 0x1003) (ho : OwnHead s k h) (hf : f < 64)
    (hidle : ∀ v < 4, (s.strm (4 * h + v)).started = false) :
    headAssign k h f s = (s.modHead h (fun x => { x with fn := fnId f })).finish k false .ok := by
  have hbusy : ([0, 1, 2, 3].any fun v => (s.strm (4 * h + v)).started) = false := by
    simp only [List.any_eq_false, List.mem_cons, List.not_mem_nil, or_false, Bool.not_eq_true]
    exact fun v hv => hidle v (by omega)
  obtain ⟨hh, hon, hfn⟩ := ho
  exact State.command_passed _ hk (by simp [State.headChecks, hh, hon, hfn, hf, hbusy])

theorem headAssign_of_started {k : Pkt} {h f v : Nat} (hk : Allowed s k 0x1003) (ho : OwnHead s k h) (hf : f < 64) (hv : v < 4)
    (hstart : (s.strm (4 * h + v)).started = true) : headAssign k h f s = s.finish k false .busy := by
  have hbusy : ([0, 1, 2, 3].any fun v => (s.strm (4 * h + v)).started) = true :=
    List.any_eq_true.2 ⟨v, by simp; omega, hstart⟩
  obtain ⟨hh, hon, hfn⟩ := ho
  exact State.command_failed _ hk (by simp [State.headChecks, firstFail, Nat.not_le.2 hh, Nat.not_le.2 hon, hfn, Nat.not_le.2 hf, hbusy])

theorem poolAssign_of_idle {k : Pkt} {p f : Nat} (hk : Allowed s k 0x1004) (hp : p < 64) (hon : p < s.part.variant.streams)
    (hfn : mayAct (who k) (s.pool p).fn = true) (hf : f < 64) (hidle : s.poolNamed p = false) :
    poolAssign k p f s = (s.modPool p (fun x => { x with fn := fnId f })).finish k false .ok :=
  State.command_passed _ hk (by simp [State.poolChecks, hp, hon, hfn, hf, hidle])

theorem poolSetup_of_idle {k : Pkt} {p ro co : Nat} {ring cpl : B64} (hk : Allowed s k 0x1005) (hp : p < 64) (hon : p < s.part.variant.streams)
    (hfn : mayAct (who k) (s.pool p).fn = true) (hro : 4 ≤ ro ∧ ro ≤ 12) (hco : 4 ≤ co ∧ co ≤ 12) (hring : k.cspi = false)
    (hidle : s.poolNamed p = false) : poolSetup k p ro co ring cpl s = (s.modPool p (fun x => { x with
      ready := true, ring := ring, order := ro, cplRing := cpl, cplOrder := co, prod := 0, cons := 0, cache := [], cpl := [], cplProd := 0 })).finish
      k false .ok :=
  State.command_passed _ hk (by simp [State.poolChecks, hp, hon, hfn, hro, hco, hring, hidle])

theorem logRing_of_pcie {k : Pkt} {order filter : Nat} {dest : B64} (hk : Allowed s k 0x1008) (hcounter : bit filter 2 = true → who k = 0)
    (horder : 8 ≤ order ∧ order ≤ 16) (hfilter : filter ≤ 7) (hring : k.cspi = false) :
    logRing k order filter dest s = (s.modFn (who k) (fun x => { x with
      logRing := some { dest := dest, order := order, filter := filter }, logProd := 0, logCons := 0, logDrop := 0, gapCount := 0 })).finish
      k false .ok :=
  State.command_passed _ hk (by simpa [horder, hfilter, hring] using hcounter)

/-- Settles O49: each command passes its checks, and ends with one field, or one ring, of the object replaced. -/
theorem ownershipCommands : Obligations.OwnershipCommands := by
  unfold Obligations.OwnershipCommands
  refine ⟨fun k s hk => congrArg Host.Outcome.next (State.command_passed _ hk rfl), fun k f e s hk hf he => congrArg Host.Outcome.next ?_,
    fun k m s hk hvar hvf => congrArg Host.Outcome.next (State.command_passed _ hk (by simp [hvar, hvf])), fun k h f s hk ho hf hidle => ?_,
    fun k h f v s hk ho hf hv hstart => congrArg Host.Outcome.next (headAssign_of_started hk ho hf hv hstart), fun k p f s hk hp hon hfn hf hidle => ?_,
    fun k p ro co ring cpl s hk hp hon hfn hro hro' hco hco' hring hidle => ?_, fun k order filter dest s hk hcounter horder horder' hfilter hring => ?_⟩
  · rw [fnGrant, State.command_passed _ hk (by simp [hf, he]), toNat_beq_one]
  · refine ⟨_, congrArg Host.Outcome.next (headAssign_of_idle hk ho hf hidle), ?_, fun j hj => ?_⟩
    · simp [val_fnId hf]
    · rw [State.head_finish, State.head_modHead, if_neg hj.symm]
  · refine ⟨_, congrArg Host.Outcome.next (poolAssign_of_idle hk hp hon hfn hf hidle), ?_, fun j hj => ?_⟩
    · simp [val_fnId hf]
    · rw [State.pool_finish, State.pool_modPool, if_neg hj.symm]
  · refine ⟨_, congrArg Host.Outcome.next (poolSetup_of_idle hk hp hon hfn ⟨hro, hro'⟩ ⟨hco, hco'⟩ hring hidle), ?_⟩
    simp
  · refine ⟨_, congrArg Host.Outcome.next (logRing_of_pcie hk hcounter ⟨horder, horder'⟩ hfilter hring), ?_⟩
    simp

-- The trust mode (R437): each head that does not stream takes the mode, and one in use without trust goes to FAULT.

/-- A head that does not stream, under a new trust mode. -/
def Head.trusted (v : Bool) (x : Head) : Head :=
  if x.state == .untrusted && !v then { x with openTrust := v, state := .fault, cause := 2, authFailed := false } else { x with openTrust := v }

/-- What MODE_SET does to one head. -/
def State.trustHead (v : Bool) (s : State) (h : Nat) : State :=
  if s.headStreaming h then s
  else
    let s := s.modHead h (fun x => { x with openTrust := v })
    if (s.head h).state == .untrusted && !v then s.authFail h else s

theorem State.setTrust_eq (s : State) (v : Bool) :
    s.setTrust v = (List.range 16).foldl (State.trustHead v) { s with modes := { s.modes with openTrust := v } } := rfl

theorem State.headStreaming_of_strm {t : State} (h : ∀ i, t.strm i = s.strm i) (n : Nat) : t.headStreaming n = s.headStreaming n := by
  simp only [State.headStreaming, h]

theorem State.stopHead_of_idle {h : Nat} (hidle : s.headStreaming h = false) : s.stopHead h = s := by
  have hstop : ∀ v ∈ [0, 1, 2, 3], (if (s.strm (4 * h + v)).source == 0 then s.stopStream (4 * h + v) false else s) = s := by
    intro v hv
    have hv' := List.any_eq_false.1 hidle v hv
    by_cases hsrc : (s.strm (4 * h + v)).source = 0
    · have hstart : (s.strm (4 * h + v)).started = false := by simpa [hsrc] using hv'
      simp [hsrc, State.stopStream, hstart]
    · simp [hsrc]
  simp only [List.forall_mem_cons] at hstop
  obtain ⟨h0, h1, h2, h3, -⟩ := hstop
  unfold State.stopHead
  rw [List.foldl_cons, h0, List.foldl_cons, h1, List.foldl_cons, h2, List.foldl_cons, h3, List.foldl_nil]

theorem State.trustHead_of_streaming {v : Bool} {h : Nat} (hstream : s.headStreaming h = true) : s.trustHead v h = s := by
  simp [State.trustHead, hstream]

/-- A head without trust, in use before, fails as an authentication does; none of its streams runs. -/
theorem State.authFail_of_idle {h : Nat} (hidle : s.headStreaming h = false) (htrust : (s.head h).openTrust = false) :
    s.authFail h = s.modHead h (fun y => { y with state := .fault, cause := 2, authFailed := false }) := by
  unfold State.authFail
  extract_lets x
  have hstop : (s.modHead h fun y => { y with state := .fault, cause := 2, authFailed := false }).headStreaming h = false := hidle
  simp only [x, htrust, Bool.false_eq_true, if_false]
  exact State.stopHead_of_idle hstop

theorem State.trustHead_of_idle {v : Bool} {h : Nat} (hidle : s.headStreaming h = false) :
    s.trustHead v h = if ((s.head h).state == .untrusted && !v) = true
      then (s.modHead h (fun x => { x with openTrust := v })).modHead h (fun y => { y with state := .fault, cause := 2, authFailed := false })
      else s.modHead h (fun x => { x with openTrust := v }) := by
  unfold State.trustHead
  extract_lets s1
  have hst : (s1.head h).state = (s.head h).state := by simp [s1]
  rw [hidle, if_neg Bool.false_ne_true, hst]
  split
  · next hfail =>
    have htrust : (s1.head h).openTrust = false := by
      simp only [Bool.and_eq_true, Bool.not_eq_true'] at hfail
      simp [s1, hfail.2]
    exact State.authFail_of_idle hidle htrust
  · rfl

theorem State.head_trustHead (v : Bool) (s : State) (h j : Nat) :
    (s.trustHead v h).head j = if h = j ∧ s.headStreaming h = false then (s.head h).trusted v else s.head j := by
  cases hstream : s.headStreaming h with
  | true => simp [State.trustHead_of_streaming hstream]
  | false =>
    rw [State.trustHead_of_idle hstream, Head.trusted]
    by_cases hj : h = j
    · subst hj
      split <;> simp
    · split <;> simp only [State.head_modHead, hj, false_and, if_false]

theorem State.strm_trustHead (v : Bool) (s : State) (h i : Nat) : (s.trustHead v h).strm i = s.strm i := by
  cases hstream : s.headStreaming h with
  | true => rw [State.trustHead_of_streaming hstream]
  | false =>
    rw [State.trustHead_of_idle hstream]
    split <;> rfl

theorem State.head_foldl_trustHead (v : Bool) (l : List Nat) (hl : l.Nodup) (s : State) (h : Nat) :
    (l.foldl (State.trustHead v) s).head h = if h ∈ l ∧ s.headStreaming h = false then (s.head h).trusted v else s.head h := by
  induction l generalizing s with
  | nil => simp
  | cons x l ih =>
    obtain ⟨hx, hl⟩ := List.nodup_cons.1 hl
    have hstrm := State.headStreaming_of_strm (State.strm_trustHead v s x) h
    rw [List.foldl_cons, ih hl, hstrm, State.head_trustHead]
    by_cases hxh : x = h
    · subst hxh
      simp [hx]
    · simp [hxh, Ne.symm hxh]

theorem State.head_setTrust {h : Nat} (v : Bool) (hh : h < 16) (hidle : s.headStreaming h = false) : (s.setTrust v).head h = (s.head h).trusted v := by
  have hmem : h ∈ List.range 16 := List.mem_range.2 hh
  rw [State.setTrust_eq, State.head_foldl_trustHead v _ List.nodup_range, if_pos ⟨hmem, hidle⟩]
  rfl

theorem State.modes_trustHead (v : Bool) (s : State) (h : Nat) : (s.trustHead v h).modes = s.modes := by
  cases hstream : s.headStreaming h with
  | true => rw [State.trustHead_of_streaming hstream]
  | false =>
    rw [State.trustHead_of_idle hstream]
    split <;> rfl

theorem State.modes_setTrust (s : State) (v : Bool) : (s.setTrust v).modes = { s.modes with openTrust := v } :=
  List.foldlRecOn _ _ (motive := fun t : State => t.modes = { s.modes with openTrust := v }) rfl
    fun t ht h _ => (State.modes_trustHead v t h).trans ht

-- The check mode (R435) and the power mode (R442): a Field retargets, and no mode changes with it.

theorem State.modes_logCap (s old : State) (cap : Nat) (added : Bool) : (s.logCap old cap added).modes = s.modes :=
  (State.logCap_keeps (Nat.and_self _) s old cap added (Keeps.refl _ s)).modes_eq

theorem State.modes_retargetAll (s : State) : s.retargetAll.modes = s.modes :=
  (State.retargetAll_keeps (Nat.and_self _) s (Keeps.refl _ s)).modes_eq

theorem State.modes_setCheck (s : State) (v : Bool) : (s.setCheck v).modes = { s.modes with hazard := v } := by
  unfold State.setCheck
  extract_lets t
  split
  · rfl
  · rw [State.modes_retargetAll, State.modes_logCap]

theorem State.modes_setPower (s : State) (eco : Bool) : (s.setPower eco).modes = { s.modes with eco := eco } := by
  unfold State.setPower
  extract_lets m t1 t2 t3
  have h3 : t3.modes = { s.modes with eco := eco } := by
    simp only [t3, State.modes_retargetAll, State.modes_logCap]
    rfl
  clear_value t3
  split
  · next heq => rw [← (beq_iff_eq.1 heq : s.modes.eco = eco)]
  · split
    · exact h3
    · exact h3

theorem State.stackOf_setPower_full (heco : s.modes.eco = true) (i : Nat) : ((s.setPower false).stackOf i).down = false := by
  unfold State.setPower
  extract_lets m t1 t2 t3
  rw [heco, if_neg (by decide), if_neg Bool.false_ne_true]
  simp only [State.stackOf]
  rw [Tab.get_mapVals _ _ rfl]

/-- The effect of MODE_SET on one axis, once its checks have passed. -/
def State.setMode (s : State) (axis : Nat) (v : Bool) : State :=
  match axis with
  | 0 => s.setCheck v
  | 1 => s.setTrust v
  | 2 => { s with modes := { s.modes with limit := v } }
  | _ => { s with modes := { s.modes with hazFault := v } }

theorem modeSet_passed {k : Pkt} {axis v : Nat} (hk : Allowed s k 0x1006) (haxis : axis ≤ 3) (hv : v ≤ 1)
    (hclosed : axis = 0 → s.ctxs.any (fun e : Nat × Option Ctx => e.2.any (fun c => c.opened)) = false) :
    modeSet k axis v s = (s.setMode axis (v == 1)).finish k false .ok := by
  unfold modeSet
  extract_lets on
  exact State.command_passed _ hk (by simpa [haxis, hv] using hclosed)

theorem modeSet_of_open {k : Pkt} {v : Nat} (hk : Allowed s k 0x1006) (hv : v ≤ 1)
    (hopen : s.ctxs.any (fun e : Nat × Option Ctx => e.2.any (fun c => c.opened)) = true) : modeSet k 0 v s = s.finish k false .busy := by
  unfold modeSet
  extract_lets on
  refine State.command_failed _ hk ?_
  simp only [firstFail, hopen]
  simp [Nat.not_lt.2 hv]

theorem powerMode_passed {k : Pkt} {m : Nat} (hk : Allowed s k 0x1007) (hm : m ≤ 1) : powerMode k m s = (s.setPower (m == 1)).finish k false .ok :=
  State.command_passed _ hk (by simp [hm])

/-- Settles O50: `State.modes_setCheck`, `State.head_setTrust` and their companions say what each mode command leaves. -/
theorem modeCommands : Obligations.ModeCommands := by
  unfold Obligations.ModeCommands
  refine ⟨fun k v s hk hv hclosed => ⟨_, congrArg Host.Outcome.next (modeSet_passed (axis := 0) hk (by decide) hv fun _ => hclosed), ?_⟩,
    fun k v s hk hv hopen => congrArg Host.Outcome.next (modeSet_of_open hk hv hopen),
    fun k v s hk hv => ⟨_, congrArg Host.Outcome.next (modeSet_passed (axis := 1) hk (by decide) hv nofun), ?_, fun h hh hidle => ?_⟩,
    fun k v s hk hv => congrArg Host.Outcome.next ?_, fun k v s hk hv => congrArg Host.Outcome.next ?_,
    fun k m s hk hm => ⟨_, congrArg Host.Outcome.next (powerMode_passed hk hm), ?_, fun heco hm0 i => ?_⟩⟩
  · simp only [State.modes_finish, State.setMode, State.modes_setCheck, toNat_beq_one]
  · simp only [State.modes_finish, State.setMode, State.modes_setTrust, toNat_beq_one]
  · simp only [State.head_finish, State.setMode, State.head_setTrust _ hh hidle, toNat_beq_one]
    refine ⟨?_, fun hv0 hun => ?_⟩
    · unfold Head.trusted
      split <;> rfl
    · subst hv0
      simp [Head.trusted, hun]
  · exact (modeSet_passed (axis := 2) hk (by decide) hv nofun).trans (by simp only [State.setMode, toNat_beq_one])
  · exact (modeSet_passed (axis := 3) hk (by decide) hv nofun).trans (by simp only [State.setMode, toNat_beq_one])
  · simp only [State.modes_finish, State.modes_setPower, toNat_beq_one]
  · subst hm0
    rw [State.stackOf_finish]
    exact State.stackOf_setPower_full heco i

end Sys2Proof.Machine

/-! SLOT_DEFINE, SLOT_UNDEFINE, SLOT_STAGE and SLOT_UNSTAGE (R293-R295). -/

namespace Sys2Proof.Machine
set_option Elab.async false
variable {s : State}

theorem State.slotChecks_pass {k : Pkt} {n : Nat} (ho : OwnSlot s k n) : firstFail (s.slotChecks k n) = none := by
  obtain ⟨hn, hown⟩ := ho
  simpa [State.slotChecks, hn, or_iff_not_imp_left] using hown

theorem slotDefine_of_empty {k : Pkt} {n pl len : Nat} {src : B64} (hk : Allowed s k 0x1200) (hn : n < 64) (hempty : (s.slot n).state = .empty)
    (hlen : 1 ≤ len) (hlen' : len ≤ 16777216) (hsrc : s.sourceBad k pl src len = false) : slotDefine k n pl len src s =
      (s.setSlot n { state := .stored, fn := fnId (who k), host := pl == 1, length := len, src := src }).finish k false .ok := by
  have hlen0 : len ≠ 0 := by omega
  exact State.command_passed _ hk (by simp [hn, hlen0, hlen', hsrc, hempty, State.slotChecks])

theorem slotUndefine_of_defined {k : Pkt} {n : Nat} (hk : Allowed s k 0x1201) (ho : OwnSlot s k n) (hdef : (s.slot n).state ≠ .empty)
    (hidle : s.slotBusy n = false) : slotUndefine k n s = (s.setSlot n {}).finish k false .ok :=
  State.command_passed _ hk (by simp [State.slotChecks_pass ho, hdef, hidle])

theorem slotUnstage_of_staged {k : Pkt} {n : Nat} (hk : Allowed s k 0x1203) (ho : OwnSlot s k n) (hstaged : (s.slot n).state = .staged)
    (hidle : s.slotBusy n = false) :
    slotUnstage k n s = (s.modSlot n (fun x => { x with state := .stored, image := none })).finish k false .ok :=
  State.command_passed _ hk (by simp [State.slotChecks_pass ho, hstaged, hidle])

theorem slotUnstage_of_busy {k : Pkt} {n : Nat} (hk : Allowed s k 0x1203) (ho : OwnSlot s k n) (hstaged : (s.slot n).state = .staged)
    (hbusy : s.slotBusy n = true) : slotUnstage k n s = s.finish k false .busy := by
  obtain ⟨hn, hown⟩ := ho
  have hfn : mayAct (who k) (s.slot n).fn = true := hown.resolve_left (by simp [hstaged])
  exact State.command_failed _ hk (by simp [firstFail, State.slotChecks, Nat.not_le.2 hn, hstaged, hfn, hbusy])

/-- The digest is checked before the static checks, which come before OK (R294). -/
theorem sha256_of_stageCheck {b : Bytes} {len : Nat} {d : ImageDecl} {m : Image} (h : stageCheck b len d = .ok m) :
    sha256 (b.drop 64) = (b.drop 32).take 32 := by
  unfold stageCheck at h
  split at h
  · cases h
  · split at h
    · cases h
    · next hdigest => simpa using hdigest

/-- Settles O54. -/
theorem slotCommands : Obligations.SlotCommands := by
  unfold Obligations.SlotCommands
  refine ⟨fun k n pl len src s hk hn hempty hlen hlen' hsrc => congrArg Host.Outcome.next ?_,
    fun k n s hk ho hdef hidle => congrArg Host.Outcome.next (slotUndefine_of_defined hk ho hdef hidle), fun k n d err s hk ho hstored hroom => ?_,
    fun b len d m h => sha256_of_stageCheck h, fun k n s hk ho hstaged hidle => congrArg Host.Outcome.next (slotUnstage_of_staged hk ho hstaged hidle),
    fun k n s hk ho hstaged hbusy => congrArg Host.Outcome.next (slotUnstage_of_busy hk ho hstaged hbusy)⟩
  · rw [slotDefine_of_empty hk hn hempty hlen hlen' hsrc, toNat_beq_one]
  · refine ⟨_, rfl, ?_⟩
    unfold slotStage
    extract_lets x
    rw [State.command_passed _ hk (by simp [State.slotChecks_pass ho, x, hstored, hroom])]
    extract_lets s'
    have hs' : s'.slot n.toNat = s.slot n.toNat := by
      simp only [s']
      split <;> rfl
    clear_value s'
    simp only [x]
    cases hdata : s.sourceData (if (s.slot n.toNat).host then 1 else 0) (s.slot n.toNat).src (s.slot n.toNat).length err with
    | none => exact (State.slot_finish _ _ _ _ _ _ _).trans hs'
    | some b =>
      cases hcheck : stageCheck b (s.slot n.toNat).length d with
      | error e =>
        simp only [hcheck]
        exact (State.slot_finish _ _ _ _ _ _ _).trans hs'
      | ok m =>
        simp only [hcheck, State.slot_finish, State.slot_setSlot]

end Sys2Proof.Machine

/-! TIME_MODE, TIME_ADJUST and ST2110_SENDER (R84-R88, R403). -/

namespace Sys2Proof.Machine
set_option Elab.async false
variable {s : State}

theorem who_lt (k : Pkt) : who k < 64 := by
  unfold who
  split
  · decide
  · exact k.fn.isLt

theorem State.sender_modSender_ne (s : State) {d j : Nat} (f : Sender → Sender) (h : j ≠ d) : (s.modSender d f).sender j = s.sender j :=
  State.sender_setSender_ne _ _ _ _ (Ne.symm h)

theorem timeAdjust_step {k : Pkt} {v : Int} (hk : Allowed s k 0x1401) (hmode : s.dtb.mode = .host) (hpend : s.dtb.pendingStep = none) :
    timeAdjust k 0 v s = s.requestStep v (BitVec.ofNat 16 (who k)) (some k) := by
  unfold timeAdjust
  exact State.command_passed _ hk (by simp [hmode, hpend])

theorem timeAdjust_slew {k : Pkt} {v : Int} (hk : Allowed s k 0x1401) (hmode : s.dtb.mode = .host) (hslew : s.dtb.steps v = false) :
    timeAdjust k 1 v s = (s.slewBy v).finish k false .ok := by
  rw [timeAdjust, State.command_passed _ hk (by simp [hmode, hslew])]
  simp [hslew]

theorem timeAdjust_offset_step {k : Pkt} {v : Int} (hk : Allowed s k 0x1401) (hmode : s.dtb.mode = .host) (hstep : s.dtb.steps v = true)
    (hpend : s.dtb.pendingStep = none) : timeAdjust k 1 v s =
      State.requestStep { s with dtb := { s.dtb with slew := 0, slewing := false } } v (BitVec.ofNat 16 (who k)) (some k) := by
  rw [timeAdjust, State.command_passed _ hk (by simp [hmode, hpend])]
  simp [hstep]

theorem timeAdjust_rate {k : Pkt} {v : Int} (hk : Allowed s k 0x1401) (hmode : s.dtb.mode = .host)
    (hbound : (v - addendNominal).natAbs ≤ addendBound) :
    timeAdjust k 2 v s = State.finish { s with dtb := { s.dtb with base := v.toNat, slew := 0, slewing := false } } k false .ok := by
  rw [timeAdjust, State.command_passed _ hk (by simpa [hmode] using hbound)]
  rfl

theorem ports_le (v : Variant) : v.ports ≤ 2 := by
  cases v <;> decide

theorem st2110Sender_sender {k : Pkt} {d en : Nat} {b : Bytes} (hk : Allowed s k 0x1500) (hd : d < 32) (hen : en ≤ 1) (hb : b.length = 208)
    (hrec : en = 1 → senderRecordOk b = true) (hport : d / 16 < s.part.variant.ports) : st2110Sender k d en b s =
      (s.modSender d (fun x => { x with enabled := en == 1, fn := fnId (who k), record := b, next := 0, frame := none, late := 0 })).finish
        k false .ok := by
  have hd' : ¬ 0xF0 ≤ d := by omega
  have hd'' : ¬ 0xF1 < d := by omega
  rw [st2110Sender, State.command_passed _ hk (by simpa [hd, hd', hd'', hen, hb, hport] using hrec)]
  simp [hd']

theorem st2110Sender_port {k : Pkt} {i en : Nat} {b : Bytes} (hk : Allowed s k 0x1500) (hi : i < s.part.variant.ports) (hi2 : i < 2) (hen : en ≤ 1)
    (hb : b.length = 208) (hrec : en = 1 → portRecordOk b = true) : st2110Sender k (0xF0 + i) en b s =
      ((if en == 0 then s.ethLink i false else s).modEth i (fun e =>
        { e with enabled := en == 1, record := b, master := if en == 1 then e.master else none, synced := en == 1 && e.synced })).finish
          k false .ok := by
  have hi' : 0xF0 ≤ 0xF0 + i ∧ ¬ 0xF1 < 0xF0 + i ∧ 0xF0 + i - 0xF0 = i := by omega
  rw [st2110Sender, State.command_passed _ hk (by simpa [hi', hen, hb, hi] using hrec)]
  simp [hi']

theorem State.up_ethLink (s : State) (p : Nat) (up : Bool) : ((s.ethLink p up).eth p).up = up := by
  unfold State.ethLink
  extract_lets e
  split
  · next h => exact beq_iff_eq.1 h
  · simp

/-- Settles O51. -/
theorem timeAndSenderCommands : Obligations.TimeAndSenderCommands := by
  unfold Obligations.TimeAndSenderCommands
  refine ⟨fun k mode pol slew thr s hk hmode hpol hslew hslew' hthr => ⟨_, rfl, ?_⟩, fun k v s hk hmode hpend => congrArg Host.Outcome.next ?_,
    fun k v s hk hmode hslew => ⟨_, rfl, ?_⟩, fun k v s hk hmode hthr hpol hpend => ⟨_, rfl, ?_⟩, fun k v s hk hmode hbound => ⟨_, rfl, ?_⟩,
    fun k d en b s hk hd hen hb hrec hport => ⟨_, rfl, ?_⟩, fun k i en b s hk hi hen hb hrec => ⟨_, rfl, ?_⟩⟩
  · have hslew0 : slew.toNat ≠ 0 := by omega
    unfold timeMode
    rw [State.command_passed _ hk (by simp [hmode, hpol, hslew0, hslew', hthr])]
    have hcases : mode = 0 ∨ mode = 1 ∨ mode = 2 := by
      simp only [BitVec.toNat_eq]
      change mode.toNat = 0 ∨ mode.toNat = 1 ∨ mode.toNat = 2
      omega
    rcases hcases with rfl | rfl | rfl
    all_goals simp +contextual [toNat_beq_one]
  · exact timeAdjust_step hk hmode hpend
  · have hsteps : s.dtb.steps v.toInt = false := by
      simpa [Dtb.steps, or_iff_not_imp_left] using hslew
    simp only [show BitVec.toNat (1 : B8) = 1 from rfl, timeAdjust_slew hk hmode hsteps, State.dtb_finish]
    rfl
  · have hsteps : s.dtb.steps v.toInt = true := by
      simp [Dtb.steps, hthr, hpol]
    simp only [show BitVec.toNat (1 : B8) = 1 from rfl, timeAdjust_offset_step hk hmode hsteps hpend]
    exact ⟨rfl, rfl, rfl⟩
  · simp only [show BitVec.toNat (2 : B8) = 2 from rfl, timeAdjust_rate hk hmode hbound, State.dtb_finish]
  · have hrec' : en.toNat = 1 → senderRecordOk b = true := fun h => hrec (BitVec.eq_of_toNat_eq h)
    simp only [st2110Sender_sender hk hd hen hb hrec' hport, State.sender_finish, toNat_beq_one]
    refine ⟨?_, ?_, ?_, fun j hj => State.sender_modSender_ne _ _ hj⟩
    all_goals simp [val_fnId (who_lt k)]
  · have hrec' : en.toNat = 1 → portRecordOk b = true := fun h => hrec (BitVec.eq_of_toNat_eq h)
    have hi2 : i < 2 := hi.trans_le (ports_le _)
    have hd : (BitVec.ofNat 8 (0xF0 + i)).toNat = 0xF0 + i := Nat.mod_eq_of_lt (by omega)
    simp only [hd, st2110Sender_port hk hi hi2 hen hb hrec', State.eth_finish, toNat_beq_one]
    refine ⟨by simp, by simp, fun h0 => ?_⟩
    subst h0
    simp [State.up_ethLink]

end Sys2Proof.Machine

/-! HEAD_ATTACH, HEAD_DETACH and HEAD_AUTH (R36, R37, R42). -/

namespace Sys2Proof.Machine
set_option Elab.async false
variable {s : State}

theorem State.head_handLock (s : State) (l i : Nat) : (s.handLock l).head i = s.head i :=
  (State.handLock_keeps (Nat.and_self _) s l (Keeps.refl _ s)).head_eq i

theorem State.head_foldl_finish (l : List Pkt) (fast : Bool) (st : Status) (s : State) (i : Nat) :
    (l.foldl (fun s k => s.finish k fast st) s).head i = s.head i := by
  induction l generalizing s with
  | nil => rfl
  | cons k l ih => rw [List.foldl_cons, ih, State.head_finish]

theorem State.head_dropHeadCmds (s : State) (h : Nat) (st dst : Status) :
    (s.dropHeadCmds h st dst).head h = { s.head h with attachPkt := none, auth := none, detach := none } := by
  unfold State.dropHeadCmds
  extract_lets x k1 k2 s1 s2
  have h1 : s1.head h = { s.head h with attachPkt := none, auth := none, detach := none } := by simp [s1]
  have h2 : s2.head h = s1.head h := by
    simp only [s2]
    split
    · exact State.head_finish ..
    · rfl
  rw [State.head_foldl_finish, h2, h1]

theorem State.head_dropCommit (s : State) (h : Nat) : (s.dropCommit h).head h = { s.head h with commit := none } := by
  unfold State.dropCommit
  split
  · simp [State.head_handLock]
  · next hnone =>
    rw [← Option.not_isSome_iff_eq_none.1 hnone]

theorem length_toLe (n v : Nat) : (toLe n v).length = n := by
  induction n generalizing v with
  | zero => rfl
  | succ n ih => simp [toLe, ih]

theorem headAttach_of_present {k : Pkt} {h : Nat} {p : AttachParams} (hk : Allowed s k 0x1100) (ho : OwnHead s k h) (hp : attachOk p = true)
    (hdest : destBad k p.report = false) (hidle : (s.head h).attaching = false) (hdet : (s.head h).detach = none) (hstr : s.headStreaming h = false)
    (hpres : (s.head h).present = true) : (headAttach k h p s).head h =
      { s.head h with
        params := some p, autoAttach := p.auto == 1, paramsFn := fnId (who k), paramsCspi := k.cspi, commit := none, attachPkt := some k, auth := none
        detach := none, i3c := [], sclHeld := false, focusHeld := none, evPosted := none, pwrEn := true, state := .powering, cause := 0
        autoRun := false, authFailed := false } := by
  obtain ⟨hh, hon, hfn⟩ := ho
  unfold headAttach
  rw [State.command_passed _ hk (by simp [State.headChecks, hh, hon, hfn, hp, hdest, hidle, hdet, hstr])]
  extract_lets s1 s2
  have h1 : s1.head h = { s.head h with params := some p, autoAttach := p.auto == 1, paramsFn := fnId (who k), paramsCspi := k.cspi } := by simp [s1]
  have h2 : s2.head h = { s1.head h with commit := none, attachPkt := none, auth := none, detach := none } := by
    simp only [s2, State.head_dropHeadCmds, State.head_dropCommit]
  have hpres1 : (s1.head h).present = true := by rw [h1]; exact hpres
  rw [hpres1, Bool.not_true, if_neg Bool.false_ne_true]
  rw [State.startAttach, State.modHead, State.head_setHead, State.modHead, State.head_setHead, h2, h1]
  rfl

theorem headAttach_of_absent {k : Pkt} {h : Nat} {p : AttachParams} (hk : Allowed s k 0x1100) (ho : OwnHead s k h) (hp : attachOk p = true)
    (hdest : destBad k p.report = false) (hidle : (s.head h).attaching = false) (hdet : (s.head h).detach = none) (hstr : s.headStreaming h = false)
    (hpres : (s.head h).present = false) : headAttach k h p s =
      (s.modHead h (fun x => { x with params := some p, autoAttach := p.auto == 1, paramsFn := fnId (who k), paramsCspi := k.cspi })).finish
        k false .ok [0, 0, 0] := by
  obtain ⟨hh, hon, hfn⟩ := ho
  unfold headAttach
  rw [State.command_passed _ hk (by simp [State.headChecks, hh, hon, hfn, hp, hdest, hidle, hdet, hstr])]
  extract_lets s1 s2
  have hpres1 : (s1.head h).present = false := by simpa [s1] using hpres
  rw [hpres1, Bool.not_false, if_pos rfl]

theorem State.headStreaming_of_stopped {h : Nat} (hstop : ∀ v < 4, (s.strm (4 * h + v)).started = false) : s.headStreaming h = false := by
  simp only [State.headStreaming, List.any_eq_false, List.mem_cons, List.not_mem_nil, or_false]
  intro v hv
  simp [hstop v (by omega)]

/-- A detach waits for the ledger's commit, where the head has a ledger to write (R45). -/
theorem State.detachStep_of_due {h : Nat} {k : Pkt} (hdet : (s.head h).detach = some k) (hdue : (s.head h).commitDue = true)
    (hready : (s.head h).state = .ready) (hlife : (s.head h).exhausted = false) : s.detachStep h = s := by
  simp [State.detachStep, hdet, hdue, hready, hlife]

/-- With nothing to wait for the power goes off. -/
theorem State.head_detachStep_of_free {h : Nat} {k : Pkt} (hdet : (s.head h).detach = some k) (hstr : s.headStreaming h = false)
    (hcommit : (s.head h).commit = none) (hfree : (s.head h).state ≠ .ready ∨ (s.head h).exhausted = true) :
    (s.detachStep h).head h = { (s.head h).off with auth := none } := by
  have hnot : ((s.head h).commitDue && (s.head h).state == .ready && !(s.head h).exhausted) = false := by
    rcases hfree with hst | hlife
    · simp [hst]
    · simp [hlife]
  unfold State.detachStep
  extract_lets x s1 _
  have h1 : s1.head h = s.head h := by
    simp only [s1]
    split
    · split
      · exact State.head_finish ..
      · rfl
    · rfl
  clear_value s1
  rw [show x.detach = some k from hdet]
  simp only [x, hstr, hcommit, hnot, Option.isSome_none, Bool.or_self, Bool.false_eq_true, if_false]
  rw [State.head_finish, State.modHead, State.head_setHead, h1]

/-- Settles O52. -/
theorem attachCommands : Obligations.AttachCommands := by
  unfold Obligations.AttachCommands
  refine ⟨fun k h p s hk ho hp hdest hidle hdet hstr hpres => ⟨_, rfl, ?_⟩,
    fun k h p s hk ho hp hdest hidle hdet hstr hpres => congrArg Host.Outcome.next (headAttach_of_absent hk ho hp hdest hidle hdet hstr hpres),
    fun k h s hk ho hidle hdet hstop hcommit => ⟨_, rfl, ?_⟩, fun k h s hk ho hidle hauth hdet huse => ⟨_, toLe 32 (Config.challenge s.freeCount).toNat, rfl, length_toLe _ _, ?_⟩,
    fun k h s hk ho hbusy => congrArg Host.Outcome.next ?_⟩
  · rw [headAttach_of_present hk ho hp hdest hidle hdet hstr hpres]
    exact ⟨rfl, rfl, rfl, rfl, rfl, rfl⟩
  · obtain ⟨hh, hon, hfn⟩ := ho
    rw [headDetach, State.command_passed _ hk (by simp [State.headChecks, hh, hon, hfn, hidle, hdet])]
    extract_lets s1
    have hstr1 : s1.headStreaming h.toNat = false := State.headStreaming_of_stopped hstop
    have h1 : s1.head h.toNat = { s.head h.toNat with autoAttach := false, detach := some k, commitDue := true } := by
      simp [s1, hcommit]
    clear_value s1
    rw [State.stopHead_of_idle hstr1]
    have hdet1 : (s1.head h.toNat).detach = some k := by rw [h1]
    have hcommit1 : (s1.head h.toNat).commit = none := by rw [h1]; exact hcommit
    by_cases hwait : (s.head h.toNat).state = .ready ∧ (s.head h.toNat).exhausted = false
    · obtain ⟨hready, hlife⟩ := hwait
      rw [State.detachStep_of_due hdet1 (by rw [h1]) (by rw [h1]; exact hready) (by rw [h1]; exact hlife), h1]
      exact ⟨rfl, fun _ => ⟨hready, rfl, rfl⟩, fun hfree => by simp [hready, hlife] at hfree⟩
    · have hfree : (s.head h.toNat).state ≠ .ready ∨ (s.head h.toNat).exhausted = true := by
        simpa [or_iff_not_imp_left] using hwait
      rw [State.head_detachStep_of_free hdet1 hstr1 hcommit1 (by rw [h1]; exact hfree), h1]
      exact ⟨rfl, fun hw => absurd hw hwait, fun _ => ⟨rfl, rfl, rfl⟩⟩
  · obtain ⟨hh, hon, hfn⟩ := ho
    have huse' : ((s.head h.toNat).usable || ((s.head h.toNat).state == .fault && (s.head h.toNat).cause == 2)) = true := by simpa using huse
    rw [headAuth, State.command_passed _ hk (by simp [State.headChecks, hh, hon, hfn, hidle, hauth, hdet, huse'])]
    simp [State.startAuth, Head.i3cPut, seAddr]
  · obtain ⟨hh, hon, hfn⟩ := ho
    have hbusy' : ((s.head h.toNat).attaching || (s.head h.toNat).detach.isSome) = true := by simpa using hbusy
    exact State.command_failed _ hk (by simp [firstFail, State.headChecks, Nat.not_le.2 hh, Nat.not_le.2 hon, hfn, hbusy'])

end Sys2Proof.Machine

/-! CONTEXT_LOAD and CONTEXT_UNLOAD (R300-R304), and the commands of variants and placement (R306, R307). -/

namespace Sys2Proof.Machine
set_option Elab.async false
variable {s t : State}

theorem State.ctxUp_of_own {k : Pkt} {o : Nat} {c : Ctx} (ho : OwnContext s k o c) : s.ctxUp o = some c := by
  obtain ⟨-, hc, hrel, -⟩ := ho
  simp [State.ctxUp, hc, hrel]

theorem State.ctxChecks_pass {k : Pkt} {o : Nat} {c : Ctx} (ho : OwnContext s k o c) : firstFail (s.ctxChecks k o) = none := by
  have hup := State.ctxUp_of_own ho
  obtain ⟨ho16, hc, -, hfn⟩ := ho
  simp [State.ctxChecks, ho16, hc, State.ctxFn, hfn, hup]

theorem State.soundChecks_pass {k : Pkt} {o : Nat} {c : Ctx} (ho : OwnContext s k o c) (hsound : c.state ≠ .fault) :
    firstFail (s.soundChecks k o) = none := by
  simp [State.soundChecks, State.ctxChecks_pass ho, State.ctxUp_of_own ho, hsound]

-- Which context a stream is bound to (R303) outlasts an unbound port and a change of clocks.

/-- Two states whose streams are bound to the same contexts. -/
def SameBinds (s t : State) : Prop := ∀ i, (t.strm i).ctx = (s.strm i).ctx

namespace SameBinds

theorem refl (s : State) : SameBinds s s := fun _ => rfl

theorem trans {u : State} (h : SameBinds s t) (h' : SameBinds t u) : SameBinds s u := fun i => (h' i).trans (h i)

theorem of_keeps {w : Nat} (h : Keeps w s t) (hw : w.testBit Zone.streams.ctorIdx = false := by rfl) : SameBinds s t :=
  fun i => by rw [h.strm_eq i hw]

theorem foldl {α : Type} {f : State → α → State} (hf : ∀ s x, SameBinds s (f s x)) (l : List α) (s : State) : SameBinds s (l.foldl f s) := by
  induction l generalizing s with
  | nil => exact refl s
  | cons x l ih => exact (hf s x).trans (ih _)

theorem markClkChg (s : State) (f : Nat) : SameBinds s (s.markClkChg f) := by
  unfold State.markClkChg
  extract_lets s1 os
  have h1 : SameBinds s s1 := of_keeps (State.unalign_keeps (Nat.and_self _) s f (Keeps.refl _ s))
  clear_value s1
  refine h1.trans fun i => ?_
  have hget := Tab.get_mapVals {} (fun x : Strm => match x.ctx with | some o => if os.contains o then x.flagOpen .clkChg else x | none => x)
    rfl s1.streams i
  refine (congrArg Strm.ctx hget).trans ?_
  unfold State.strm
  split
  · split <;> rfl
  · rfl

theorem retarget (s : State) (f : Nat) (fn : B16) : SameBinds s (s.retarget f fn) := by
  unfold State.retarget
  extract_lets x e up s1 wait s2
  have h2 : SameBinds s s2 := by
    intro i
    simp only [s2, s1]
    split <;> rfl
  clear_value s2
  split
  · exact refl s
  · split
    · exact h2
    · exact h2.trans (markClkChg s2 f)

theorem retargetAll (s : State) : SameBinds s s.retargetAll := foldl (fun s f => retarget s f 0xFFFF) _ _

theorem unbindPort (s : State) (p : Nat) : SameBinds s (s.unbindPort p) := by
  unfold State.unbindPort
  extract_lets s1 y old s2 s3 s4
  have h1 : SameBinds s s1 := of_keeps (State.alignReply_keeps (Nat.and_self _) s p .badState (Keeps.refl _ s))
  have h3 : SameBinds s1 s3 := by
    intro i
    simp only [s3]
    split <;> rfl
  clear_value s3
  have h4 : SameBinds s3 s4 := by
    have hlog : SameBinds s3 (s3.logCap old 3 false) := of_keeps (State.logCap_keeps (Nat.and_self _) s3 old 3 false (Keeps.refl _ s3))
    simp only [s4]
    split
    · exact hlog.trans (retargetAll _)
    · exact refl s3
  clear_value s4
  exact ((h1.trans h3).trans h4).trans (of_keeps (State.yRequest_keeps (Nat.and_self _) s4 p (Keeps.refl _ s4)))

theorem takePorts (s : State) (o : Nat) (old new : Option LinkDecl) : SameBinds s (s.takePorts o old new) := by
  unfold State.takePorts
  extract_lets ports same gone s1
  have h1 : SameBinds s s1 :=
    foldl (f := fun s p => (s.unbindPort p).modYport p fun y => { y with owner := none }) (fun s p => unbindPort s p) _ _
  clear_value s1
  exact h1.trans (foldl (f := fun s p => s.modYport p fun y => { y with owner := some o }) (fun _ _ _ => rfl) ports s1)

end SameBinds

/-- Two states whose contexts differ in the ports their links bind, and in nothing else. -/
def SameButPorts (s t : State) : Prop := ∀ o c, s.ctx o = some c → ∃ ports, t.ctx o = some { c with boundPorts := ports }

namespace SameButPorts

theorem of_ctx (h : ∀ o, t.ctx o = s.ctx o) : SameButPorts s t := fun o c hc => ⟨c.boundPorts, (h o).trans hc⟩

theorem trans {u : State} (h : SameButPorts s t) (h' : SameButPorts t u) : SameButPorts s u := by
  intro o c hc
  obtain ⟨ports, hc'⟩ := h o c hc
  obtain ⟨ports', hc''⟩ := h' o _ hc'
  exact ⟨ports', hc''⟩

theorem of_keeps {w : Nat} (h : Keeps w s t) (hw : w.testBit Zone.ctxs.ctorIdx = false := by rfl) : SameButPorts s t :=
  of_ctx fun o => h.ctx_eq o hw

theorem foldl {α : Type} {f : State → α → State} (hf : ∀ s x, SameButPorts s (f s x)) (l : List α) (s : State) : SameButPorts s (l.foldl f s) := by
  induction l generalizing s with
  | nil => exact of_ctx fun _ => rfl
  | cons x l ih => exact (hf s x).trans (ih _)

theorem modRunning (s : State) (o : Nat) (f : List Nat → List Nat) :
    SameButPorts s (s.modRunning o (fun c => { c with boundPorts := f c.boundPorts })) := by
  intro i c hc
  by_cases hi : o = i
  · subst hi
    exact ⟨f c.boundPorts, by rw [State.ctx_modRunning, hc]; rfl⟩
  · exact ⟨c.boundPorts, (State.ctx_setCtx_ne _ _ _ _ hi).trans hc⟩

theorem unbindPort (s : State) (p : Nat) : SameButPorts s (s.unbindPort p) := by
  unfold State.unbindPort
  extract_lets s1 y old s2 s3 s4
  have h1 : SameButPorts s s1 := of_keeps (State.alignReply_keeps (Nat.and_self _) s p .badState (Keeps.refl _ s))
  have h3 : SameButPorts s1 s3 := by
    simp only [s3]
    split
    · exact modRunning s2 _ (List.filter fun q => q != p)
    · exact of_ctx fun _ => rfl
  clear_value s3
  have h4 : SameButPorts s3 s4 := by
    have hlog : SameButPorts s3 (s3.logCap old 3 false) := of_keeps (State.logCap_keeps (Nat.and_self _) s3 old 3 false (Keeps.refl _ s3))
    simp only [s4]
    split
    · exact hlog.trans (of_keeps (State.retargetAll_keeps (Nat.and_self _) _ (Keeps.refl _ _)))
    · exact of_ctx fun _ => rfl
  clear_value s4
  exact ((h1.trans h3).trans h4).trans (of_keeps (State.yRequest_keeps (Nat.and_self _) s4 p (Keeps.refl _ s4)))

theorem takePorts (s : State) (o : Nat) (old new : Option LinkDecl) : SameButPorts s (s.takePorts o old new) := by
  unfold State.takePorts
  extract_lets ports same gone s1
  have h1 : SameButPorts s s1 :=
    foldl (f := fun s p => (s.unbindPort p).modYport p fun y => { y with owner := none }) (fun s p => unbindPort s p) _ _
  clear_value s1
  exact h1.trans (foldl (f := fun s p => s.modYport p fun y => { y with owner := some o }) (fun s p => of_ctx fun _ => rfl) ports s1)

end SameButPorts

theorem State.ctx_bindStreams (s : State) (o : Nat) (bs : List Bind) (i : Nat) : (s.bindStreams o bs).ctx i = s.ctx i :=
  (State.bindStreams_keeps (Nat.and_self _) s o bs (Keeps.refl _ s)).ctx_eq i

/-- The bind of one stream, with its index. -/
def State.bindOne (o : Nat) (s : State) (p : Bind × Nat) : State :=
  s.modStrm p.1.stream.toNat (fun x =>
    { x with ctx := some o, slotIx := p.2, source := p.1.source.toNat, route := p.1.route.toNat, routeIx := p.1.routeIndex.toNat
             paceFrame := 0, paceLine := 0, fetchFrame := 0, fetchLine := 0, prefetch := [] })

theorem State.strm_ctx_bindOne (s : State) (o : Nat) (p : Bind × Nat) (i : Nat) :
    ((s.bindOne o p).strm i).ctx = if p.1.stream.toNat = i then some o else (s.strm i).ctx := by
  by_cases h : p.1.stream.toNat = i
  · subst h
    simp [State.bindOne]
  · simp [State.bindOne, State.strm_setStrm_ne _ _ _ _ h, h]

theorem State.strm_ctx_foldl_bindOne (o i : Nat) (l : List (Bind × Nat)) (s : State) (h : (s.strm i).ctx = some o ∨ ∃ p ∈ l, p.1.stream.toNat = i) :
    ((l.foldl (State.bindOne o) s).strm i).ctx = some o := by
  induction l generalizing s with
  | nil => simpa using h
  | cons p l ih =>
    refine ih _ ?_
    rw [State.strm_ctx_bindOne]
    by_cases hp : p.1.stream.toNat = i
    · exact .inl (if_pos hp)
    · simpa [hp] using h

/-- A stream that a load names is bound to its context. -/
theorem State.strm_ctx_bindStreams (s : State) (o : Nat) (bs : List Bind) {b : Bind} (hb : b ∈ bs) :
    ((s.bindStreams o bs).strm b.stream.toNat).ctx = some o := by
  obtain ⟨n, hn, rfl⟩ := List.getElem_of_mem hb
  exact State.strm_ctx_foldl_bindOne o _ bs.zipIdx s (.inr (List.exists_mem_zipIdx'.2 ⟨n, hn, rfl⟩))

theorem State.loadChecks_pass {k : Pkt} {r : LoadReq} {m : Image} (hl : Loadable s k r.slot r.replicas 16 r.dest r.binds m) (hflags : r.flags = 0) :
    firstFail (s.loadChecks k r) = none := by
  obtain ⟨hslot, hstaged, himg, hvar, hmin, hmax, hdest, hbind, hok⟩ := hl
  have hn := hslot.1
  simp [State.loadChecks, hflags, hn, hdest, State.slotChecks_pass hslot, hstaged, himg, hvar, hmin, hmax, LoadReq.bound, hbind, hok, bit]

/-- The lowest free OWNER (R302). -/
theorem State.find?_free {o : Nat} (ho : o < 16) (hfree : s.ctx o = none) (hlow : ∀ j < o, s.ctx j ≠ none) :
    (List.range 16).find? (fun o => (s.ctx o).isNone) = some o := by
  rw [List.find?_range_eq_some]
  refine ⟨by simp [hfree], List.mem_range.2 ho, fun j hj => ?_⟩
  simpa [Option.isSome_iff_ne_none] using hlow j hj

theorem State.find?_none_free (hfull : ∀ j < 16, s.ctx j ≠ none) : (List.range 16).find? (fun o => (s.ctx o).isNone) = none := by
  rw [List.find?_eq_none]
  intro j hj
  simpa using hfull j (List.mem_range.1 hj)

/-- The context that a load makes, which waits to eclose (R302). -/
def LoadReq.context (r : LoadReq) (k : Pkt) (m : Image) (p : Placement) : Ctx :=
  { fn := fnId (who k), place := p, region := p.map.map (fun e => e.2)
    ecl := some { kind := 0, place := p, pkt := some k, dest := r.dest, binds := r.bound m } }

/-- A placed image takes its OWNER, its streams and its ports (R302-R304). -/
theorem State.newContext_placed {k : Pkt} {r : LoadReq} {m : Image} {lists : Option Lists} {o : Nat} {p : Placement} (ho : o < 16)
    (hfree : s.ctx o = none) (hlow : ∀ j < o, s.ctx j ≠ none)
    (hplace : s.placeImage o r.slot m r.replicas ((r.bound m).map (fun b : Bind => b.stream.toNat)) lists none none = .ok p) :
    s.newContext k r m lists = ((s.setCtx o (some (r.context k m p))).bindStreams o (r.bound m)).takePorts o none m.decl.link := by
  unfold State.newContext
  rw [State.find?_free ho hfree hlow]
  simp only [hplace]
  rfl

theorem State.ctx_newContext {k : Pkt} {r : LoadReq} {m : Image} {lists : Option Lists} {o : Nat} {p : Placement} (ho : o < 16)
    (hfree : s.ctx o = none) (hlow : ∀ j < o, s.ctx j ≠ none)
    (hplace : s.placeImage o r.slot m r.replicas ((r.bound m).map (fun b : Bind => b.stream.toNat)) lists none none = .ok p) :
    ∃ ports, (s.newContext k r m lists).ctx o = some { r.context k m p with boundPorts := ports } := by
  have hctx : ((s.setCtx o (some (r.context k m p))).bindStreams o (r.bound m)).ctx o = some (r.context k m p) := by
    rw [State.ctx_bindStreams, State.ctx_setCtx]
  rw [State.newContext_placed ho hfree hlow hplace]
  exact SameButPorts.takePorts _ o none m.decl.link o _ hctx

theorem State.strm_ctx_newContext {k : Pkt} {r : LoadReq} {m : Image} {lists : Option Lists} {o : Nat} {p : Placement} (ho : o < 16)
    (hfree : s.ctx o = none) (hlow : ∀ j < o, s.ctx j ≠ none)
    (hplace : s.placeImage o r.slot m r.replicas ((r.bound m).map (fun b : Bind => b.stream.toNat)) lists none none = .ok p)
    {b : Bind} (hb : b ∈ r.bound m) : ((s.newContext k r m lists).strm b.stream.toNat).ctx = some o := by
  rw [State.newContext_placed ho hfree hlow hplace]
  exact (SameBinds.takePorts _ o none m.decl.link _).trans (State.strm_ctx_bindStreams _ o _ hb)

theorem State.newContext_unplaced {k : Pkt} {r : LoadReq} {m : Image} {lists : Option Lists} {o : Nat} {st : Status} (ho : o < 16)
    (hfree : s.ctx o = none) (hlow : ∀ j < o, s.ctx j ≠ none)
    (hplace : s.placeImage o r.slot m r.replicas ((r.bound m).map (fun b : Bind => b.stream.toNat)) lists none none = .error st) :
    s.newContext k r m lists = s.finish k false st := by
  unfold State.newContext
  rw [State.find?_free ho hfree hlow]
  simp only [hplace]

theorem State.load_new {k : Pkt} {r : LoadReq} {m : Image} {lists : Option Lists} (himg : (s.slot r.slot).image = some m) (hflags : r.flags = 0) :
    s.load k r lists = s.newContext k r m lists := by
  simp [State.load, himg, hflags, bit]

-- REPLACE (R308): a context that runs first stops its streams, each of which may take it to STOPPING.

/-- Two states whose contexts differ in their state and their models, and in nothing else. -/
def SameButStopping (s t : State) : Prop := ∀ o c, s.ctx o = some c → ∃ st models, t.ctx o = some { c with state := st, models := models }

namespace SameButStopping

theorem of_ctx (h : ∀ o, t.ctx o = s.ctx o) : SameButStopping s t := fun o c hc => ⟨c.state, c.models, (h o).trans hc⟩

theorem trans {u : State} (h : SameButStopping s t) (h' : SameButStopping t u) : SameButStopping s u := by
  intro o c hc
  obtain ⟨st, models, hc'⟩ := h o c hc
  obtain ⟨st', models', hc''⟩ := h' o _ hc'
  exact ⟨st', models', hc''⟩

theorem foldl {α : Type} {f : State → α → State} (hf : ∀ s x, SameButStopping s (f s x)) (l : List α) (s : State) :
    SameButStopping s (l.foldl f s) := by
  induction l generalizing s with
  | nil => exact of_ctx fun _ => rfl
  | cons x l ih => exact (hf s x).trans (ih _)

theorem checkStopping (s : State) (o : Nat) : SameButStopping s (s.checkStopping o) := by
  unfold State.checkStopping
  split
  · exact of_ctx fun _ => rfl
  · next c hc =>
    split
    · intro i d hd
      by_cases hi : o = i
      · subst hi
        cases hc.symm.trans hd
        exact ⟨_, _, State.ctx_setCtx _ _ _⟩
      · exact ⟨_, _, (State.ctx_setCtx_ne _ _ _ _ hi).trans hd⟩
    · exact of_ctx fun _ => rfl

theorem endStream (s : State) (st : Nat) : SameButStopping s (s.endStream st) :=
  of_ctx fun o => (State.endStream_keeps (Nat.and_self _) s st (Keeps.refl _ s)).ctx_eq o

theorem stopStream (s : State) (st : Nat) (imm : Bool) : SameButStopping s (s.stopStream st imm) := by
  unfold State.stopStream
  extract_lets x live inFrame s1 fs y s2
  have hlate : ∀ o, s1.ctx o = s.ctx o := fun o => (State.dropLate_keeps (Nat.and_self _) s st (Keeps.refl _ s)).ctx_eq o
  have htrunc : ∀ o, (s.truncate st .stopped).ctx o = s.ctx o := fun o => (State.truncate_keeps (Nat.and_self _) s st .stopped (Keeps.refl _ s)).ctx_eq o
  clear_value s1
  have h2 : SameButStopping s s2 := by
    simp only [s2]
    split
    · exact endStream s st
    · split
      · exact of_ctx fun _ => rfl
      · split
        · split
          · exact of_ctx fun _ => rfl
          · exact (of_ctx htrunc).trans (endStream _ st)
        · exact (of_ctx hlate).trans (endStream (s1.setStrm st _) st)
  clear_value s2
  split
  · exact of_ctx fun _ => rfl
  · split
    · exact h2.trans (checkStopping s2 _)
    · exact h2

end SameButStopping

/-- A load without REPLACE: its checks pass, and the image enters a new context. -/
theorem contextLoad_new {k : Pkt} {r : LoadReq} {m : Image} (hk : Allowed s k 0x1204)
    (hl : Loadable s k r.slot r.replicas 16 r.dest r.binds m) (hflags : r.flags = 0) : contextLoad k r s = s.newContext k r m none := by
  have himg := hl.2.2.1
  rw [contextLoad, State.command_passed _ hk (State.loadChecks_pass hl hflags), State.load_new himg hflags]

theorem State.newContext_full {k : Pkt} {r : LoadReq} {m : Image} {lists : Option Lists} (hfull : ∀ j < 16, s.ctx j ≠ none) :
    s.newContext k r m lists = s.finish k false .noContext := by
  unfold State.newContext
  rw [State.find?_none_free hfull]

theorem State.loadChecks_pass_replace {k : Pkt} {r : LoadReq} {m : Image} {c : Ctx} (hl : Loadable s k r.slot r.replicas r.owner r.dest r.binds m)
    (ho : OwnContext s k r.owner c) (hrun : c.state = .running) (hecl : c.ecl = none) (hrepl : c.replace = none) (hflags : r.flags = 1) :
    firstFail (s.loadChecks k r) = none := by
  obtain ⟨hslot, hstaged, himg, hvar, hmin, hmax, hdest, hbind, hok⟩ := hl
  have hn := hslot.1
  have ho16 := ho.1
  simp [State.loadChecks, hflags, hn, hdest, State.slotChecks_pass hslot, hstaged, himg, hvar, hmin, hmax, LoadReq.bound, hbind, hok, bit,
    State.ctxChecks_pass ho, State.ctxUp_of_own ho, hrun, hecl, hrepl, ho16]

/-- A REPLACE of a context that runs is kept while its streams stop. -/
theorem State.ctx_replaceContext {k : Pkt} {r : LoadReq} {m : Image} {c : Ctx} (hc : s.ctx r.owner = some c) (hrun : c.state = .running) :
    ∃ c', (s.replaceContext k r m none).ctx r.owner = some c' ∧ c'.place = c.place ∧
      c'.replace = some { slot := r.slot, replicas := r.replicas, pkt := k, dest := r.dest, binds := r.bound m } := by
  unfold State.replaceContext
  extract_lets o s1
  have h1 : s1.ctx o = some { c with
      replace := some { slot := r.slot, replicas := r.replicas, pkt := k, dest := r.dest, binds := r.bound m, lists := none } } := by
    rw [show s1 = _ from rfl, State.ctx_modRunning, show s.ctx o = some c from hc]
    rfl
  clear_value s1
  rw [h1]
  simp only [hrun]
  obtain ⟨st, models, h2⟩ := SameButStopping.foldl (f := fun s st => s.stopStream st (bit r.flags 1)) (fun s st => .stopStream s st _)
    (s1.ctxStreams o) s1 o _ h1
  exact ⟨_, h2, rfl, rfl⟩

theorem State.ctx_sendUnbind (s : State) (o i : Nat) : (s.sendUnbind o).ctx i = s.ctx i :=
  (State.sendUnbind_keeps (Nat.and_self _) s o (Keeps.refl _ s)).ctx_eq i

theorem ctx_contextUnload {k : Pkt} {o : Nat} {c : Ctx} (hk : Allowed s k 0x1205) (ho : OwnContext s k o c)
    (hst : c.state = .cocoon ∨ c.state = .fault) (hecl : c.ecl = none) (hrepl : c.replace = none) :
    (contextUnload k o s).ctx o = some { c with state := .releasing, snap := none, unload := some k } := by
  have hst' : (c.state == .cocoon || c.state == .fault) = true := by simpa using hst
  have hup := State.ctxUp_of_own ho
  have hpass : firstFail (s.ctxChecks k o ++ [(!(c.state == .cocoon || c.state == .fault) || c.ecl.isSome || c.replace.isSome, .busy)]) = none := by
    simp [State.ctxChecks_pass ho, hst', hecl, hrepl]
  unfold contextUnload
  rw [hup]
  dsimp only [Option.getD_some]
  rw [State.command_passed _ hk hpass, State.ctx_modRunning]
  have hunbind : (s.sendUnbind o).ctx o = some c := (State.ctx_sendUnbind s o o).trans ho.2.1
  cases c.snap with
  | none => simp [hunbind]
  | some n => simp [hunbind]

/-- Settles O55: the checks of a load pass, and its image enters a free context, or waits on the context it replaces. -/
theorem contextsLoad : Obligations.ContextsLoad := by
  unfold Obligations.ContextsLoad
  refine ⟨fun k n rep ow dest binds m o s hk hl ho hfree hlow => ?_, fun k n rep ow dest binds m s hk hl hfull => congrArg Host.Outcome.next ?_,
    fun k n rep o dest binds m c s hk hl ho hrun hecl hrepl => ?_,
    fun k o c s hk ho hst hecl hrepl => ⟨_, rfl, ctx_contextUnload hk ho hst hecl hrepl⟩⟩
  · have hload := contextLoad_new (r := ⟨n.toNat, rep.toNat, 0, ow.toNat, dest, binds⟩) hk hl rfl
    split
    · next st hplace => exact congrArg Host.Outcome.next (hload.trans (State.newContext_unplaced ho hfree hlow hplace))
    · next p hplace =>
      obtain ⟨ports, hctx⟩ := State.ctx_newContext (k := k) (r := ⟨n.toNat, rep.toNat, 0, ow.toNat, dest, binds⟩) ho hfree hlow hplace
      exact ⟨_, _, congrArg Host.Outcome.next hload, hctx, rfl, val_fnId (who_lt k), rfl, rfl,
        fun b hb => State.strm_ctx_newContext (r := ⟨n.toNat, rep.toNat, 0, ow.toNat, dest, binds⟩) ho hfree hlow hplace hb⟩
  · exact (contextLoad_new (r := ⟨n.toNat, rep.toNat, 0, ow.toNat, dest, binds⟩) hk hl rfl).trans (State.newContext_full hfull)
  · obtain ⟨c', hc', hplace, hrep⟩ := State.ctx_replaceContext (k := k) (r := ⟨n.toNat, rep.toNat, 1, o.toNat, dest, binds⟩) (m := m) ho.2.1 hrun
    have himg := hl.2.2.1
    have hpass := State.loadChecks_pass_replace (r := ⟨n.toNat, rep.toNat, 1, o.toNat, dest, binds⟩) hl ho hrun hecl hrepl rfl
    refine ⟨_, c', congrArg Host.Outcome.next (State.command_passed _ hk hpass), ?_, hplace, hrep⟩
    simpa [State.load, himg, bit] using hc'

end Sys2Proof.Machine

/-! PLACE_VARIANT, UNPLACE_VARIANT, LOAD_PLACED, PLACE_VARIANT_PLACED and SLOT_PATCH (R305-R307, R125). -/

namespace Sys2Proof.Machine
set_option Elab.async false
variable {s : State}

theorem firstFail_append_of_pass {l m : List (Bool × Status)} (hl : firstFail l = none) : firstFail (l ++ m) = firstFail m := by
  induction l with
  | nil => rfl
  | cons c l ih =>
    obtain ⟨hc, hl⟩ := firstFail_cons_eq_none.1 hl
    simp [firstFail, hc, ih hl]

/-- A variant that may be placed in its context (R305): a staged variant image of the context's shape, not placed yet, and no load in course. -/
def Placeable (s : State) (k : Pkt) (o n : Nat) (c : Ctx) (m : Image) : Prop :=
  OwnContext s k o c ∧ c.state ≠ .fault ∧ OwnSlot s k n ∧ (s.slot n).state = .staged ∧ (s.slot n).image = some m ∧ m.variant = true ∧
    m.streams = c.place.image.streams ∧ m.repMin ≤ c.place.replicas ∧ c.place.replicas ≤ m.repMax ∧ (∀ p ∈ c.variants, p.slot ≠ n) ∧ c.ecl = none

theorem State.variantChecks_pass {k : Pkt} {o n : Nat} {c : Ctx} {m : Image} (hp : Placeable s k o n c m) : firstFail (s.variantChecks k o n) = none := by
  obtain ⟨ho, hsound, hslot, hstaged, himg, hvar, hstr, hmin, hmax, hnew, hecl⟩ := hp
  have hn := hslot.1
  simpa [State.variantChecks, State.ctxUp_of_own ho, hn, State.soundChecks_pass ho hsound, State.slotChecks_pass hslot, hstaged, himg, hvar, hstr,
    hmin, hmax, hecl] using hnew

theorem State.placeVariantOn_placed {k : Pkt} {o n : Nat} {c : Ctx} {m : Image} {lists : Option Lists} {p : Placement} (hp : Placeable s k o n c m)
    (hplace : s.placeImage o n m c.place.replicas (s.slotStreams o m.streams) lists (some c.region) none = .ok p) :
    s.placeVariantOn k o n lists = (s.setCtx o (some { c with variants := c.variants ++ [p] })).finish k false .ok := by
  obtain ⟨ho, -, -, -, himg, -⟩ := hp
  unfold State.placeVariantOn
  simp [State.ctxUp_of_own ho, himg, hplace, State.modRunning, ho.2.1]

theorem State.placeVariantOn_unplaced {k : Pkt} {o n : Nat} {c : Ctx} {m : Image} {lists : Option Lists} {st : Status} (hp : Placeable s k o n c m)
    (hplace : s.placeImage o n m c.place.replicas (s.slotStreams o m.streams) lists (some c.region) none = .error st) :
    s.placeVariantOn k o n lists = s.finish k false st := by
  obtain ⟨ho, -, -, -, himg, -⟩ := hp
  unfold State.placeVariantOn
  simp [State.ctxUp_of_own ho, himg, hplace]

theorem placeVariant_passed {k : Pkt} {o n : Nat} {c : Ctx} {m : Image} (hk : Allowed s k 0x1206) (hp : Placeable s k o n c m) :
    placeVariant k o n s = s.placeVariantOn k o n none :=
  State.command_passed _ hk (State.variantChecks_pass hp)

theorem placeVariantPlaced_passed {k : Pkt} {o n : Nat} {c : Ctx} {m : Image} {lists : Lists} (hk : Allowed s k 0x9001) (hring : k.cspi = false)
    (hp : Placeable s k o n c m) : placeVariantPlaced k o n (some lists) s = s.placeVariantOn k o n (some lists) :=
  State.command_passed _ hk (by simp [hring, State.variantChecks_pass hp])

theorem unplaceVariant_passed {k : Pkt} {o n : Nat} {c : Ctx} {p : Placement} (hk : Allowed s k 0x1207) (ho : OwnContext s k o c)
    (hsound : c.state ≠ .fault) (hn : n < 64) (hp : p ∈ c.variants) (hslot : p.slot = n) (hecl : c.ecl = none) : unplaceVariant k o n s =
      (s.setCtx o (some { c with variants := c.variants.filter (fun q => q.slot != n) })).finish k false .ok := by
  have hany : c.variants.any (fun p : Placement => p.slot == n) = true := List.any_eq_true.2 ⟨p, hp, by simp [hslot]⟩
  unfold unplaceVariant
  rw [State.command_passed _ hk (by simp [hn, State.soundChecks_pass ho hsound, State.ctxUp_of_own ho, hany, hecl])]
  simp [State.modRunning, ho.2.1]

theorem loadPlaced_new {k : Pkt} {r : LoadReq} {m : Image} {lists : Lists} (hk : Allowed s k 0x9000) (hring : k.cspi = false)
    (hl : Loadable s k r.slot r.replicas 16 r.dest r.binds m) (hflags : r.flags = 0) :
    loadPlaced k r (some lists) s = s.newContext k r m (some lists) := by
  have himg := hl.2.2.1
  rw [loadPlaced, State.command_passed _ hk (by simp [hring, State.loadChecks_pass hl hflags]), State.load_new himg hflags]

theorem slotPatch_passed {k : Pkt} {o : Nat} {e : PatchEntry} {c : Ctx} (hk : Allowed s k 0x9002) (hring : k.cspi = false)
    (ho : OwnContext s k o c) (hsound : c.state ≠ .fault) (he : patchOk e = true)
    (hfree : (s.takenEntries o).contains (e.site.toNat, e.output.toNat, e.slot.toNat) = false) : slotPatch k o (some [e]) s =
      (s.modRouter e.site.toNat (fun r => { r with patch := r.patch ++ [(64 * e.output.toNat + e.slot.toNat, e.entry)] })).finish k false .ok := by
  unfold slotPatch
  rw [State.command_passed _ hk (by simpa [hring, State.soundChecks_pass ho hsound, he] using hfree)]
  rfl

theorem slotPatch_taken {k : Pkt} {o : Nat} {es : List PatchEntry} {e : PatchEntry} {c : Ctx} (hk : Allowed s k 0x9002) (hring : k.cspi = false)
    (ho : OwnContext s k o c) (hsound : c.state ≠ .fault) (he : e ∈ es) (hlen : es.length ≤ 4096) (hok : es.all patchOk = true)
    (htaken : (s.takenEntries o).contains (e.site.toNat, e.output.toNat, e.slot.toNat) = true) :
    slotPatch k o (some es) s = s.finish k false .notOwner := by
  have hany : es.any (fun e : PatchEntry => (s.takenEntries o).contains (e.site.toNat, e.output.toNat, e.slot.toNat)) = true :=
    List.any_eq_true.2 ⟨e, he, htaken⟩
  have hne : es ≠ [] := List.ne_nil_of_mem he
  unfold slotPatch
  refine State.command_failed _ hk ?_
  rw [firstFail_append_of_pass (by simp [hring, hne, hlen, State.soundChecks_pass ho hsound])]
  simp only [Option.getD_some, firstFail, hok, hany]
  rfl

/-- Settles O56. -/
theorem variantsAndPlacement : Obligations.VariantsAndPlacement := by
  unfold Obligations.VariantsAndPlacement
  refine ⟨⟨fun k o n c m s hk ho hsound hslot hstaged himg hvar hstr hmin hmax hnew hecl => ?_, fun k o n c p s hk ho hsound hn hp hslot hecl =>
      congrArg Host.Outcome.next (unplaceVariant_passed hk ho hsound hn hp hslot hecl)⟩,
    fun k n rep ow dest binds lists m o s hk hring hl ho hfree hlow => ?_,
    fun k o n lists c m s hk hring ho hsound hslot hstaged himg hvar hstr hmin hmax hnew hecl => ?_,
    fun k o e c s hk hring ho hsound hsite hout hsl hfree => congrArg Host.Outcome.next ?_,
    fun k o es e c s hk hring ho hsound he hlen hok htaken => congrArg Host.Outcome.next (slotPatch_taken hk hring ho hsound he hlen hok htaken)⟩
  · have hp : Placeable s k o.toNat n.toNat c m := ⟨ho, hsound, hslot, hstaged, himg, hvar, hstr, hmin, hmax, hnew, hecl⟩
    split
    · next st hplace => exact congrArg Host.Outcome.next ((placeVariant_passed hk hp).trans (State.placeVariantOn_unplaced hp hplace))
    · next p hplace => exact congrArg Host.Outcome.next ((placeVariant_passed hk hp).trans (State.placeVariantOn_placed hp hplace))
  · have hload := loadPlaced_new (r := ⟨n.toNat, rep.toNat, 0, ow.toNat, dest, binds⟩) (lists := lists) hk hring hl rfl
    split
    · next st hplace => exact congrArg Host.Outcome.next (hload.trans (State.newContext_unplaced ho hfree hlow hplace))
    · next p hplace =>
      obtain ⟨ports, hctx⟩ := State.ctx_newContext (k := k) (r := ⟨n.toNat, rep.toNat, 0, ow.toNat, dest, binds⟩) ho hfree hlow hplace
      exact ⟨_, _, congrArg Host.Outcome.next hload, hctx, rfl, rfl, rfl⟩
  · have hp : Placeable s k o.toNat n.toNat c m := ⟨ho, hsound, hslot, hstaged, himg, hvar, hstr, hmin, hmax, hnew, hecl⟩
    have hon := placeVariantPlaced_passed (lists := lists) hk hring hp
    split
    · next st hplace => exact congrArg Host.Outcome.next (hon.trans (State.placeVariantOn_unplaced hp hplace))
    · next p hplace => exact congrArg Host.Outcome.next (hon.trans (State.placeVariantOn_placed hp hplace))
  · exact slotPatch_passed hk hring ho hsound (by simp [patchOk, hsite, hout, hsl]) hfree

end Sys2Proof.Machine

/-! SCENE_SET, REPLAY_SET, PATTERN_SET, MODEL_LOAD and ENTITY_KEY (R240-R246, R320). -/

namespace Sys2Proof.Machine
set_option Elab.async false
variable {s t : State}

theorem sceneSet_passed {k : Pkt} {st model hold conf : Nat} {table : List B8} {c cs : Ctx} {d : ModelDecl} (hk : Allowed s k 0x1208)
    (hb : BoundStream s k st c) (hhold : hold ≤ 7) (hconf : isNan16 conf = false) (hlen : table.length = 16)
    (htable : ∀ b ∈ table, b.toNat ≤ 63 ∨ b = 255) (hcs : s.sceneCtx st = some cs) (hd : cs.place.image.decl.models[model]? = some d)
    (hlink : d.link = 3) : sceneSet k st model hold conf table s = (s.modStrm st (fun x => { x with
      scene := { model := model, hold := hold, confMin := conf, table := table }, heldClass := none })).finish k false .ok := by
  have hany : table.any (fun b => decide (63 < b.toNat) && b != 255) = false := by
    rw [List.any_eq_false]
    intro b hb
    rcases htable b hb with h | h <;> simp [h]
  unfold sceneSet
  rw [State.command_passed _ hk (by
    simp only [List.cons_append, List.nil_append, firstFail_cons_eq_none, firstFail_append_eq_none, State.boundChecks_pass hb, hany, hconf]
    simp [hhold, hlen, hcs, hd, hlink])]

theorem replaySet_passed {k : Pkt} {st loop frames bytes : Nat} {src : B64} {c : Ctx} (hk : Allowed s k 0x1209) (hb : BoundStream s k st c)
    (hloop : loop ≤ 1) (hframes : frames ≠ 0) (hsrc : (s.strm st).source = 1) (hstop : (s.strm st).started = false)
    (hsize : 2 * (s.bindDecl st).width * (s.bindDecl st).height ≤ bytes) (hbad : s.sourceBad k 0 src (frames * bytes) = false) :
    replaySet k st 0 loop frames bytes src s = (s.modStrm st (fun x => { x with
      replay := some { host := false, loop := loop == 1, frames := frames, frameBytes := bytes, src := src.toNat } })).finish k false .ok := by
  unfold replaySet
  rw [State.command_passed _ hk (by simp [State.boundChecks_pass hb, hloop, hframes, hsrc, hstop, hsize, hbad])]
  rfl

theorem patternSet_passed {k : Pkt} {st pattern : Nat} {seed : B16} {c : Ctx} (hk : Allowed s k 0x120A) (hb : BoundStream s k st c)
    (hpat : pattern ≤ 2) (hsrc : (s.strm st).source = 2) :
    patternSet k st pattern seed s = (s.modStrm st (fun x => { x with pattern := some (pattern, seed) })).finish k false .ok :=
  State.command_passed _ hk (by simp [State.boundChecks_pass hb, hpat, hsrc])

theorem entityKey_passed {k : Pkt} {o tb : Nat} {key : B16} {c : Ctx} (hk : Allowed s k 0x1301) (ho : OwnContext s k o c) (hsound : c.state ≠ .fault)
    (htb : tb < c.place.image.decl.entities.length) :
    entityKey k o tb key s = (s.setCtx o (some { c with keys := Tab.set c.keys tb key })).finish k false .ok := by
  unfold entityKey
  rw [State.command_passed _ hk (by simp [State.soundChecks_pass ho hsound, State.ctxUp_of_own ho, htb]), State.modRunning, ho.2.1]
  rfl

-- MODEL_LOAD (R245, R246).

theorem Tab.get_upd_one {α : Type} (d : α) (f : α → α) (t : List (Nat × α)) (i : Nat) : Tab.get d (Tab.upd d f t [i]) i = f (Tab.get d t i) :=
  Tab.get_set_same _ _ _ _

/-- The end of a load of model `m`, however it ends, in the record of its context. -/
def Ctx.loaded (m : Nat) (c : Ctx) : Ctx :=
  if (Tab.get {} c.models m : ModelSt).loading then { c with models := Tab.set c.models m { Tab.get {} c.models m with loading := false } } else c

theorem Ctx.loading_loaded (m : Nat) (c : Ctx) : (Tab.get {} (c.loaded m).models m : ModelSt).loading = false := by
  unfold Ctx.loaded
  split
  · rw [Tab.get_set_same]
  · next h => simpa using h

theorem Ctx.model_loaded (m : Nat) (c : Ctx) : (c.loaded m).model m = c.model m := by
  unfold Ctx.loaded
  split
  · simp only [Ctx.model, Tab.get_set_same]
  · rfl

theorem Ctx.state_loaded (m : Nat) (c : Ctx) : (c.loaded m).state = c.state := by
  unfold Ctx.loaded
  split <;> rfl

theorem Ctx.fn_loaded (m : Nat) (c : Ctx) : (c.loaded m).fn = c.fn := by
  unfold Ctx.loaded
  split <;> rfl

theorem State.endLoading_own {k : Pkt} {o m : Nat} {c : Ctx} (ho : OwnContext s k o c) : s.endLoading k o m = s.modRunning o (Ctx.loaded m) := by
  obtain ⟨-, hc, -, hfn⟩ := ho
  have hfn' : mayAct (who k) (s.ctxFn o) = true := by simpa [State.ctxFn, hc] using hfn
  exact if_pos hfn'

/-- A model of a context that holds `new` and is not being loaded. -/
def Holds (o m : Nat) (new : ModelDecl) (s : State) : Prop :=
  ∃ c, s.ctx o = some c ∧ (Tab.get {} c.models m : ModelSt).decl = some new ∧ (Tab.get {} c.models m : ModelSt).loading = false

namespace Holds
variable {o m : Nat} {new : ModelDecl}

theorem of_ctx (h : Holds o m new s) (hctx : t.ctx o = s.ctx o) : Holds o m new t := by
  obtain ⟨c, hc, hm⟩ := h
  exact ⟨c, hctx.trans hc, hm⟩

theorem modModel (h : Holds o m new s) (f : ModelSt → ModelSt) (hdecl : ∀ x, (f x).decl = x.decl) (hload : ∀ x, (f x).loading = x.loading) :
    Holds o m new (s.modModel o m f) := by
  obtain ⟨c, hc, hd, hl⟩ := h
  refine ⟨_, (State.ctx_modRunning ..).trans (by rw [hc]; rfl), ?_, ?_⟩
  · rw [Tab.get_upd_one, hdecl, hd]
  · rw [Tab.get_upd_one, hload, hl]

theorem treeSkipped (h : Holds o m new s) (st : Nat) (fseq : B16) (cause : Nat) : Holds o m new (s.treeSkipped o m st fseq cause) :=
  h.of_ctx ((State.treeSkipped_keeps (Nat.and_self _) s o m st fseq cause (Keeps.refl _ s)).ctx_eq o)

theorem foldl {α : Type} {f : State → α → State} (hf : ∀ s x, Holds o m new s → Holds o m new (f s x)) (l : List α) (h : Holds o m new s) :
    Holds o m new (l.foldl f s) := by
  induction l generalizing s with
  | nil => exact h
  | cons x l ih => exact ih (hf s x h)

/-- A model whose load ends takes the new trees, and its evaluations wait again, or are skipped. -/
theorem reloadModel {c : Ctx} (hc : s.ctx o = some c) (hl : (Tab.get {} c.models m : ModelSt).loading = false) :
    Holds o m new (s.reloadModel o m new) := by
  unfold State.reloadModel
  extract_lets old s1 s2
  have h1 : s1.ctx o = some c := by
    have hfold (l : List (Nat × BitVec 16)) (s : State) :
        (l.foldl (fun s p => s.doneReading o m p.1 (p.2.toNat % 256)) s).ctx o = s.ctx o := by
      induction l generalizing s with
      | nil => rfl
      | cons p l ih =>
        rw [List.foldl_cons, ih]
        exact (State.doneReading_keeps (Nat.and_self _) s o m _ _ (Keeps.refl _ s)).ctx_eq o
    exact (hfold old s).trans hc
  clear_value s1
  have h2 : Holds o m new s2 := by
    refine ⟨_, (State.ctx_modRunning ..).trans (by rw [h1]; rfl), ?_, ?_⟩
    · rw [Tab.get_upd_one]
    · rw [Tab.get_upd_one, hl]
  clear_value s2
  refine foldl (fun s p h => ?_) old h2
  extract_lets f8 sites s'
  have h' : Holds o m new s' := by
    refine foldl (fun s i h => ?_) sites h
    exact h.of_ctx rfl
  split
  · exact h'.modModel _ (fun _ => rfl) fun _ => rfl
  · exact h.treeSkipped _ _ _

end Holds

/-- The end of MODEL_LOAD on the blob it read, for the model `d` of a context placed at `p`. -/
def State.takeModel (s : State) (k : Pkt) (o m len : Nat) (p : Placement) (d : ModelDecl) (data : Option Bytes) : State :=
  match data with
  | none => s.finish k false .memError
  | some b =>
    match blobCheck b len d with
    | .error e => s.finish k false e.1 e.2
    | .ok new => ((s.writeModel p new b).reloadModel o m new).finish k false .ok

section
variable (k : Pkt) (o m : Nat) (p : Placement)

theorem State.takeModel_none (len : Nat) (d : ModelDecl) : s.takeModel k o m len p d none = s.finish k false .memError := by
  unfold State.takeModel
  rfl

theorem State.takeModel_error {len : Nat} {d : ModelDecl} {b : Bytes} {e : Status × List Nat} (hcheck : blobCheck b len d = .error e) :
    s.takeModel k o m len p d (some b) = s.finish k false e.1 e.2 := by
  unfold State.takeModel
  simp only [hcheck]

theorem State.takeModel_ok {len : Nat} {d new : ModelDecl} {b : Bytes} (hcheck : blobCheck b len d = .ok new) :
    s.takeModel k o m len p d (some b) = ((s.writeModel p new b).reloadModel o m new).finish k false .ok := by
  unfold State.takeModel
  simp only [hcheck]

end

/-- The state on which MODEL_LOAD works: no load of the model is in course, and the host's data are taken. -/
def State.modelLoadState (s : State) (o m pl : Nat) (src : B64) : State :=
  if pl = 1 then (s.modRunning o (Ctx.loaded m)).hostUsed src else s.modRunning o (Ctx.loaded m)

theorem State.units_modelLoadState (s : State) (o m pl : Nat) (src : B64) : (s.modelLoadState o m pl src).units = s.units := by
  unfold State.modelLoadState
  split <;> rfl

theorem State.ctx_modelLoadState (m pl : Nat) (src : B64) {o : Nat} {c : Ctx} (hc : s.ctx o = some c) :
    (s.modelLoadState o m pl src).ctx o = some (c.loaded m) := by
  have h : (s.modRunning o (Ctx.loaded m)).ctx o = some (c.loaded m) := by rw [State.ctx_modRunning, hc]; rfl
  unfold State.modelLoadState
  split
  · exact h
  · exact h

theorem ownContext_loaded {k : Pkt} {o : Nat} {c : Ctx} (ho : OwnContext s k o c) (m : Nat) :
    OwnContext (s.modRunning o (Ctx.loaded m)) k o (c.loaded m) := by
  obtain ⟨ho16, hc, hrel, hfn⟩ := ho
  exact ⟨ho16, by rw [State.ctx_modRunning, hc]; rfl, by rwa [Ctx.state_loaded], by rwa [Ctx.fn_loaded]⟩

theorem modelLoad_passed {k : Pkt} {o m pl len : Nat} {src : B64} {err : Bool} {c : Ctx} {d : ModelDecl} (hk : Allowed s k 0x1300)
    (ho : OwnContext s k o c) (hsound : c.state ≠ .fault) (hpl : pl ≤ 1) (hd : c.model m = some d) (hsrc : s.sourceBad k pl src len = false) :
    modelLoad k o m pl len src err s =
      (s.modelLoadState o m pl src).takeModel k o m len (c.loaded m).place d (s.sourceData pl src len err) := by
  have hd' : (c.loaded m).model m = some d := (Ctx.model_loaded m c).trans hd
  have hsound' : (c.loaded m).state ≠ .fault := by rwa [Ctx.state_loaded]
  unfold modelLoad
  rw [hk.1, if_pos rfl, State.endLoading_own ho]
  extract_lets s1 c1
  have hloaded : OwnContext s1 k o (c.loaded m) := ownContext_loaded ho m
  have hk1 : Allowed s1 k 0x1300 := ⟨hk.1, State.denied_modelLoad _ _⟩
  have hsrc1 : s1.sourceBad k pl src len = false := hsrc
  have hc1 : c1 = c.loaded m := by simp only [c1, State.ctxUp_of_own hloaded, Option.getD_some]
  clear_value c1
  subst hc1
  rw [State.command_passed _ hk1 (by simp [hpl, State.soundChecks_pass hloaded hsound', hd', hsrc1])]
  extract_lets s'
  have hs' : s' = s.modelLoadState o m pl src := rfl
  have hdata : s1.sourceData pl src len err = s.sourceData pl src len err := rfl
  rw [hdata, hd', hs']
  cases s.sourceData pl src len err with
  | none => rw [State.takeModel_none]
  | some b =>
    cases hcheck : blobCheck b len d with
    | error e => simp only [hcheck, State.takeModel_error k o m _ hcheck]
    | ok new => simp only [hcheck, State.takeModel_ok k o m _ hcheck]

theorem State.ctx_writeModel (s : State) (p : Placement) (d : ModelDecl) (b : Bytes) (i : Nat) : (s.writeModel p d b).ctx i = s.ctx i :=
  (State.writeModel_keeps (Nat.and_self _) s p d b (Keeps.refl _ s)).ctx_eq i

/-- Settles O57. -/
theorem sceneAndModelCommands : Obligations.SceneAndModelCommands := by
  unfold Obligations.SceneAndModelCommands
  refine ⟨fun k st model hold conf table c cs d s hk hb hhold hconf hlen htable hcs hd hlink => congrArg Host.Outcome.next
      (sceneSet_passed hk hb hhold hconf hlen htable hcs hd hlink), fun k st loop frames bytes src c s hk hb hloop hframes hsrc hstop hsize hbad => ?_,
    fun k st pattern seed c s hk hb hpat hsrc => congrArg Host.Outcome.next (patternSet_passed hk hb hpat hsrc),
    fun k o m pl len src err c d s hk ho hsound hpl hd hsrc => ?_,
    fun k o tb key c s hk ho hsound htb => congrArg Host.Outcome.next (entityKey_passed hk ho hsound htb)⟩
  · have hframes' : frames.toNat ≠ 0 := fun h => hframes (BitVec.eq_of_toNat_eq h)
    refine congrArg Host.Outcome.next ((replaySet_passed hk hb hloop hframes' hsrc hstop hsize hbad).trans ?_)
    rw [toNat_beq_one]
  · have hload := modelLoad_passed (err := err) hk ho hsound hpl hd hsrc
    have hctx := State.ctx_modelLoadState m.toNat pl.toNat src ho.2.1
    have hunits := State.units_modelLoadState s o.toNat m.toNat pl.toNat src
    generalize s.modelLoadState o.toNat m.toNat pl.toNat src = s' at hload hctx hunits
    have hfail (st : Status) (res : List Nat) : (s'.finish k false st res).ctx o.toNat = some (c.loaded m.toNat) ∧ (s'.finish k false st res).units = s.units :=
      ⟨(State.ctx_finish ..).trans hctx, (State.units_finish ..).trans hunits⟩
    have hmodel : (c.loaded m.toNat).model m.toNat = some d := (Ctx.model_loaded _ c).trans hd
    cases hdata : s.sourceData pl.toNat src len.toNat err with
    | none =>
      obtain ⟨hfctx, hfunits⟩ := hfail .memError []
      rw [hdata, State.takeModel_none] at hload
      exact ⟨_, _, congrArg Host.Outcome.next hload, hfctx, Ctx.loading_loaded _ c, hfunits, hmodel⟩
    | some b =>
      rw [hdata] at hload
      cases hcheck : blobCheck b len.toNat d with
      | error e =>
        obtain ⟨hfctx, hfunits⟩ := hfail e.1 e.2
        rw [State.takeModel_error _ _ _ _ hcheck] at hload
        simp only [hcheck]
        exact ⟨_, _, congrArg Host.Outcome.next hload, hfctx, Ctx.loading_loaded _ c, hfunits, hmodel⟩
      | ok new =>
        rw [State.takeModel_ok _ _ _ _ hcheck] at hload
        simp only [hcheck]
        obtain ⟨c', hc', hdecl, hnot⟩ := Holds.reloadModel (new := new)
          ((State.ctx_writeModel s' (c.loaded m.toNat).place new b _).trans hctx) (Ctx.loading_loaded _ c)
        refine ⟨_, c', congrArg Host.Outcome.next hload, (State.ctx_finish ..).trans hc', hnot, ?_⟩
        rw [Ctx.model, hdecl]

end Sys2Proof.Machine

/-! I3C_RAW, DVFS_SET, FIELD_RESET, UNIT_RESET, ETH_RAW and YALLEK_ALIGN (Table 17-3). -/

namespace Sys2Proof.Machine
set_option Elab.async false
variable {s t : State}

theorem i3cRaw_passed {k : Pkt} {h address wlen rlen : Nat} {data : Bytes} {reply : Option Bytes} (hk : Allowed s k 0x9003) (ho : OwnHead s k h)
    (had : address ≤ 127) (hwlen : wlen ≤ 64) (hrlen : rlen ≤ 12) (huse : (s.head h).usable = true ∨ (s.head h).state = .fault) :
    i3cRaw k h address wlen rlen data reply s =
      (s.modHead h (fun x => x.i3cPut { target := address, data := data.take wlen, rlen := rlen, raw := true })).finish k false
        (if reply.isSome then .ok else .i3cNack)
        (match reply with
          | some b => [fieldLe (b.take rlen) 0 4, fieldLe (b.take rlen) 4 4, fieldLe (b.take rlen) 8 4]
          | none => []) := by
  obtain ⟨hh, hon, hfn⟩ := ho
  have huse' : ((s.head h).usable || (s.head h).state == .fault) = true := by simpa using huse
  unfold i3cRaw
  extract_lets x
  rw [State.command_passed _ hk (by simp [State.headChecks, hh, hon, hfn, had, hwlen, hrlen, x, huse'])]
  cases reply <;> rfl

-- DVFS (R76, R79): a new point asked of a Field.

/-- A table whose entry at `i` satisfies `p` has an entry that does. -/
theorem Tab.any_of_get {α : Type} {d : α} {p : α → Bool} {i : Nat} (hd : p d = false) (t : List (Nat × α)) (h : p (Tab.get d t i) = true) :
    t.any (fun e => p e.2) = true := by
  induction t with
  | nil => simp [Tab.get, hd] at h
  | cons e t ih =>
    obtain ⟨j, w⟩ := e
    by_cases hj : j = i
    · simp_all [Tab.get]
    · simp only [Tab.get, hj, if_false] at h
      simp [ih h]

/-- Whether some entry satisfies `p` stays as it is where an entry changes within `p`. -/
theorem Tab.any_set {α : Type} {d v : α} {p : α → Bool} {i : Nat} (hd : p d = false) (t : List (Nat × α)) (hv : p v = p (Tab.get d t i)) :
    (Tab.set t i v).any (fun e => p e.2) = t.any (fun e => p e.2) := by
  induction t with
  | nil => simpa [Tab.set, Tab.get, hd] using hv
  | cons e t ih =>
    obtain ⟨j, w⟩ := e
    by_cases hj : j = i
    · simp_all [Tab.set, Tab.get]
    · have hget : Tab.get d ((j, w) :: t) i = Tab.get d t i := by simp [Tab.get, hj]
      rw [hget] at hv
      by_cases hlt : i < j
      · have hin : p v = true → t.any (fun e => p e.2) = true := fun h => Tab.any_of_get hd t (hv.symm.trans h)
        cases hpv : p v with
        | false => simp [Tab.set, hj, hlt, hpv]
        | true => simp [Tab.set, hj, hlt, hpv, hin hpv]
      · simp [Tab.set, hj, hlt, ih hv]

theorem Tab.keys_ne_nil {α : Type} (p : α → Bool) (t : List (Nat × α)) : (Tab.keys t p != []) = t.any (fun e => p e.2) := by
  rw [Bool.eq_iff_iff]
  simp [Tab.keys, List.filter_eq_nil_iff]

/-- Whether a peer in HAZARD mode is bound does not hang on the alignment of its lanes (R79, R392). -/
theorem State.hazardPeer_unalign (s : State) (f : Nat) : (s.unalign f).hazardPeer = s.hazardPeer := by
  unfold State.unalign
  generalize [0, 1, 2, 3] = ps
  induction ps generalizing s with
  | nil => rfl
  | cons p ps ih =>
    rw [List.foldl_cons, ih]
    split
    · simp only [State.hazardPeer, Tab.keys_ne_nil]
      exact Tab.any_set (p := fun y : Yport => y.bound && (match y.peer with | some b => b.hazard | none => false)) (d := {}) rfl s.yports rfl
    · rfl

theorem State.capPoint_markClkChg (s : State) (f : Nat) : (s.markClkChg f).capPoint = s.capPoint := by
  have hmodes : (s.unalign f).modes = s.modes := (State.unalign_keeps (Nat.and_self _) s f (Keeps.refl _ s)).modes_eq
  have hsupply : (s.unalign f).supply = s.supply := (State.unalign_keeps (Nat.and_self _) s f (Keeps.refl _ s)).supply_eq
  have hpeer := State.hazardPeer_unalign s f
  unfold State.markClkChg
  extract_lets s1 os
  rw [show s.unalign f = s1 from rfl] at hmodes hsupply hpeer
  clear_value s1
  have hcap3 : s1.cap3 = s.cap3 := by rw [State.cap3, State.cap3, State.graphCap, State.graphCap, hpeer, hmodes, hsupply]
  have hcap : s1.capPoint = s.capPoint := by rw [State.capPoint, State.capPoint, hcap3, hmodes]
  exact hcap

theorem State.field_markClkChg (s : State) (f i : Nat) : (s.markClkChg f).field i = s.field i :=
  (State.markClkChg_keeps (Nat.and_self _) s f (Keeps.refl _ s)).field_eq i

theorem State.requested_retarget (s : State) (f : Nat) (fn : B16) (j : Nat) : ((s.retarget f fn).field j).requested = (s.field j).requested := by
  unfold State.retarget
  extract_lets x e up s1 wait s2
  have h1 : s1.field j = s.field j := by
    simp only [s1]
    split <;> rfl
  have h2 : (s2.field j).requested = (s.field j).requested := by
    rw [← h1]
    by_cases hj : f = j
    · subst hj
      rw [show s2.field f = _ from State.field_setField _ _ _, h1]
    · rw [show s2.field j = s1.field j from State.field_setField_ne _ _ _ _ hj]
  clear_value s2
  split
  · rfl
  · split
    · exact h2
    · rw [State.field_markClkChg, h2]

theorem State.capPoint_retarget (s : State) (f : Nat) (fn : B16) : (s.retarget f fn).capPoint = s.capPoint := by
  unfold State.retarget
  extract_lets x e up s1 wait s2
  have h2 : s2.capPoint = s.capPoint := by
    simp only [s2, s1]
    split <;> rfl
  clear_value s2
  split
  · rfl
  · split
    · exact h2
    · rw [State.capPoint_markClkChg, h2]

theorem State.target_retarget {f : Nat} (fn : B16) (hidle : (s.field f).target = none) (hup : (s.field f).down = false)
    (hmove : (s.field f).point ≠ s.effective f) : ((s.retarget f fn).field f).target = some (s.effective f) := by
  unfold State.retarget
  extract_lets x e up s1 wait s2
  have h2 : (s2.field f).target = some (s.effective f) := by rw [show s2.field f = _ from State.field_setField _ _ _]
  clear_value s2
  have hstay : (x.target.isSome || x.down || e == x.point) = false := by simpa [x, hidle, hup, e] using Ne.symm hmove
  rw [hstay, if_neg Bool.false_ne_true]
  split
  · exact h2
  · rw [State.field_markClkChg, h2]

theorem State.field_modField (s : State) (i : Nat) (f : FieldClk → FieldClk) (j : Nat) :
    (s.modField i f).field j = if i = j then f (s.field i) else s.field j := by
  rw [State.modField]
  exact Tab.get_set _ _ _ _ _

theorem State.effective_finish (s : State) (k : Pkt) (fast : Bool) (st : Status) (res : List Nat) (e : Option B64) (f : Nat) :
    (s.finish k fast st res e).effective f = s.effective f := by
  rw [State.finish_frame]
  rfl

theorem dvfsSet_passed {k : Pkt} {f p : Nat} (hk : Allowed s k 0x9004) (hf : f < 4) (hp : p ≤ 6) :
    ∃ st, dvfsSet k f p s = ((s.modField f (fun x => { x with requested := p })).retarget f (BitVec.ofNat 16 (who k))).finish k false st := by
  unfold dvfsSet
  rw [State.command_passed _ hk (by simp [hf, hp])]
  exact ⟨_, rfl⟩

-- FIELD_RESET (R86): the units of one Field.

theorem Tab.get_map_if {α : Type} {d : α} {f : α → α} (hf : f d = d) (p : Nat → Bool) (t : List (Nat × α)) (i : Nat) :
    Tab.get d (t.map (fun e => if p e.1 then (e.1, f e.2) else e)) i = if p i then f (Tab.get d t i) else Tab.get d t i := by
  induction t with
  | nil => simp [Tab.get, hf]
  | cons e t ih =>
    obtain ⟨j, v⟩ := e
    by_cases hj : j = i
    · subst hj
      by_cases hp : p j <;> simp [Tab.get, hp]
    · by_cases hp : p j <;> simpa [Tab.get, hp, hj] using ih

theorem State.unit_fieldReset {f : Nat} (fn cause : Nat) (hidle : s.liveCtxs = []) {site : Nat} (hsite : fieldOfSite site = f) :
    (s.fieldReset f fn cause).unit site = (s.unit site).reset := by
  unfold State.fieldReset
  rw [hidle]
  extract_lets os s1 s2 s3 s4
  have h2 : s2.unit site = (s.unit site).reset := by
    refine (Tab.get_map_if (d := {}) (f := Unit.reset) rfl (fun i => fieldOfSite i == f) s.units site).trans ?_
    rw [if_pos (beq_iff_eq.2 hsite)]
    rfl
  clear_value s2
  have h3 : s3.unit site = s2.unit site := (State.unalign_keeps (Nat.and_self _) (s2.modField f _) f (Keeps.refl _ _)).unit_eq site
  have h4 : s4.unit site = s3.unit site := by
    simp only [s4]
    split <;> rfl
  rw [State.unit_log, h4, h3, h2]

-- YALLEK_ALIGN (R392).

/-- What a YALLEK_ALIGN with a good record does. -/
theorem yallekAlign_passed {k : Pkt} {p : Nat} {b : Bytes} {c : CutDecl} (hk : Allowed s k 0x9008) (hp : p < 4) (hon : p < s.part.variant.yalleks)
    (hlen : b.length = 32) (hop : fieldLe b 0 1 ≤ 1) (hzero : ∀ x ∈ b.drop 4, x = 0) (hup : (s.yport p).up = true)
    (hlink : (s.portLink p).isSome = true) (hcut : s.cut p (fieldLe b 1 1) = some c) (hsync : c.sync = true) (hidle : (s.yport p).alignPkt = none) :
    yallekAlign k p b s =
      let t := s.modYport p (fun y => { y with
        probes := Tab.set y.probes (fieldLe b 1 1) []
        align := Tab.set y.align (fieldLe b 1 1) (if fieldLe b 0 1 = 1 then some (BitVec.ofNat 16 (fieldLe b 2 2)) else none)
        alignPkt := some (fieldLe b 1 1, k) })
      if fieldLe b 0 1 = 1 then t.alignReply p .ok else t := by
  have hzero' : (b.drop 4).any (fun x => x != 0) = false := by
    simpa [List.any_eq_false] using hzero
  unfold yallekAlign
  extract_lets op route
  rw [State.command_passed _ hk (by
    simp only [firstFail_cons_eq_none, hzero']
    simp [hp, hlen, op, hop, hon, hup, hlink, route, hcut, hsync, hidle])]

theorem State.yport_alignReply_same (s : State) (p : Nat) (st : Status) :
    ((s.alignReply p st).yport p).alignPkt = none ∧ ((s.alignReply p st).yport p).align = (s.yport p).align := by
  unfold State.alignReply
  extract_lets y
  split
  · next h => exact ⟨h, rfl⟩
  · simp [y]

/-- Settles O58: each command's checks pass, and what it asks of a Field, a unit or a port is done. -/
theorem boardCommands : Obligations.BoardCommands := by
  unfold Obligations.BoardCommands
  refine ⟨fun k h ad wlen rlen data reply s hk ho had hwlen hrlen huse => congrArg Host.Outcome.next (i3cRaw_passed hk ho had hwlen hrlen huse),
    fun k f p s hk hf hp => ?_, fun k f s hk hf => ⟨?_, fun hidle site hsite => State.unit_fieldReset 0 0 hidle hsite⟩,
    fun k site s hk hsite hworks => ⟨?_, fun hctx => ?_⟩,
    fun k p len src b s hk hring hp hon hlen hlen' hlive hup hdata => congrArg Host.Outcome.next ?_,
    fun k p record route c s hk hp hon hlen hop hroute hzero hup hlink hcut hsync hidle => ⟨_, rfl, ?_⟩,
    fun k p record route c s hk hp hon hlen hop hroute hzero hup hlink hcut hsync hidle => ⟨_, rfl, ?_⟩⟩
  · obtain ⟨st, hset⟩ := dvfsSet_passed (s := s) (f := f.toNat) (p := p.toNat) hk hf hp
    refine ⟨_, congrArg Host.Outcome.next hset, ?_⟩
    generalize hs1 : s.modField f.toNat (fun x => { x with requested := p.toNat }) = s1
    have hfield (j : Nat) : s1.field j = if f.toNat = j then { s.field f.toNat with requested := p.toNat } else s.field j := by
      rw [← hs1, State.field_modField]
    have hreq : ((s1.retarget f.toNat (BitVec.ofNat 16 (who k))).field f.toNat).requested = p.toNat := by
      rw [State.requested_retarget, hfield, if_pos rfl]
    have heff : (s1.retarget f.toNat (BitVec.ofNat 16 (who k))).effective f.toNat = s1.effective f.toNat := by
      rw [State.effective, State.effective, State.requested_retarget, State.capPoint_retarget]
    simp only [State.field_finish, State.effective_finish, hreq, heff, true_and]
    refine ⟨?_, fun hidle hup hmove => ?_, fun j _ hj => ?_⟩
    · rw [State.effective, hfield, if_pos rfl]
      exact Nat.min_le_left _ _
    · refine State.target_retarget _ ?_ ?_ ?_
      · rw [hfield, if_pos rfl]; exact hidle
      · rw [hfield, if_pos rfl]; exact hup
      · rw [hfield, if_pos rfl]; exact hmove
    · rw [State.requested_retarget, hfield, if_neg hj.symm]
  · exact congrArg Host.Outcome.next (State.command_passed _ hk (by simp [hf]))
  · refine congrArg Host.Outcome.next ((State.command_passed _ hk (by simp [hsite])).trans ?_)
    rw [if_pos hworks]
  · simp [State.unitReset, hctx, State.logSite]
  · rw [ethRaw, State.command_passed _ hk (by simp [hring, hp, hon, Nat.not_lt.2 hlen, hlen', hlive, hup]), hdata]
  · subst hroute
    rw [yallekAlign_passed hk hp hon hlen (by omega) hzero hup hlink hcut hsync hidle]
    simp [hop]
  · subst hroute
    rw [yallekAlign_passed hk hp hon hlen (by omega) hzero hup hlink hcut hsync hidle]
    simp only [hop, if_true]
    obtain ⟨hpkt, halign⟩ := State.yport_alignReply_same (s.modYport p.toNat _) p.toNat .ok
    refine ⟨hpkt, ?_⟩
    rw [halign]
    simp

end Sys2Proof.Machine

/-! The reasoning rules of a memory (`Memory`): what a read returns after a write. -/

namespace Sys2Proof.Machine
set_option Elab.async false
open Sys2Proof
variable {m : List Host.Cell} {lo a j : Nat}

theorem Memory.read_of_wfFrom (hm : Memory.wfFrom lo m = true) (ha : a < lo) : Memory.read m a = 0 := by
  induction m generalizing lo with
  | nil => rfl
  | cons e t ih =>
    obtain ⟨k, d⟩ := e
    obtain ⟨⟨hk, -⟩, ht⟩ := (wfFrom_cons lo k d t).1 hm
    rw [Memory.read, if_neg (by omega), ih ht (by omega)]

/-- A byte put before the rest of a memory; a 0 is not listed. -/
theorem Memory.read_put (b : B8) (hm : Memory.wfFrom (a + 1) m = true) :
    Memory.read (if b = 0 then m else (a, b) :: m) j = if a = j then b else Memory.read m j := by
  by_cases hj : a = j
  · subst hj
    split
    · next hb => rw [Memory.read_of_wfFrom hm (Nat.lt_succ_self a), if_pos rfl, hb]
    · rfl
  · rw [if_neg hj]
    split
    · rfl
    · exact if_neg hj

theorem Memory.read_write (b : B8) (hm : Memory.wfFrom lo m = true) : Memory.read (Memory.write m a b) j = if a = j then b else Memory.read m j := by
  induction m generalizing lo with
  | nil => exact Memory.read_put b rfl
  | cons e t ih =>
    obtain ⟨k, d⟩ := e
    obtain ⟨⟨hk, hd⟩, ht⟩ := (wfFrom_cons lo k d t).1 hm
    by_cases hka : k = a
    · subst hka
      rw [Memory.write, if_pos rfl, Memory.read_put b ht]
      by_cases hj : k = j
      · rw [if_pos hj, if_pos hj]
      · rw [if_neg hj, if_neg hj, Memory.read, if_neg hj]
    · by_cases hlt : a < k
      · rw [Memory.write, if_neg hka, if_pos hlt]
        exact Memory.read_put b ((wfFrom_cons (a + 1) k d t).2 ⟨⟨hlt, hd⟩, ht⟩)
      · rw [Memory.write, if_neg hka, if_neg hlt, Memory.read, ih ht, Memory.read]
        by_cases hj : k = j
        · rw [if_pos hj, if_neg (fun h => hka (hj.trans h.symm)), if_pos hj]
        · rw [if_neg hj, if_neg hj]

theorem Memory.wf_write (a : Nat) (b : B8) (hm : Memory.wf m = true) : Memory.wf (Memory.write m a b) = true :=
  write_wfFrom m 0 a b (Nat.zero_le a) hm

/-- A write of bytes leaves every other byte. -/
theorem Memory.read_writeBytes_of_out (bs : Bytes) (hm : Memory.wf m = true) (hj : j < a ∨ a + bs.length ≤ j) :
    Memory.read (Memory.writeBytes m a bs) j = Memory.read m j := by
  induction bs generalizing m a with
  | nil => rfl
  | cons b bs ih =>
    simp only [List.length_cons] at hj
    rw [Memory.writeBytes, ih (Memory.wf_write a b hm) (by omega), Memory.read_write b hm, if_neg (by omega)]

/-- The bytes written are the bytes read. -/
theorem Memory.readBytes_writeBytes (bs : Bytes) (hm : Memory.wf m = true) : Memory.readBytes (Memory.writeBytes m a bs) a bs.length = bs := by
  induction bs generalizing m a with
  | nil => rfl
  | cons b bs ih =>
    have hwf := Memory.wf_write a b hm
    rw [List.length_cons, Memory.readBytes, Memory.writeBytes, ih hwf, Memory.read_writeBytes_of_out bs hwf (.inl (Nat.lt_succ_self a)),
      Memory.read_write b hm, if_pos rfl]

end Sys2Proof.Machine

/-! ECLOSE_VARIANT, STATS_SNAPSHOT, CONTEXT_ABORT, EXPONENT_TRIM, UNIT_COUNTERS and ENTITY_WRITE (Table 13-7). -/

namespace Sys2Proof.Machine
set_option Elab.async false
variable {s t : State}

-- The words of a unit's data memory (R89).

/-- The four 64-bit words that a 256-bit word takes. -/
theorem Unit.get_setWide_mem (u : Unit) (sel w : Nat) (v : BitVec 256) {i : Nat} (hi : i < 4) :
    Tab.get 0 (u.setWide sel w v).mem (memAt sel (4 * w + i)) = BitVec.ofNat 64 (bits v.toNat (64 * i) 64) := by
  simp only [Unit.setWide, List.range, List.range.loop, List.foldl, Tab.get_set, memAt]
  have hcases : i = 0 ∨ i = 1 ∨ i = 2 ∨ i = 3 := by omega
  rcases hcases with rfl | rfl | rfl | rfl
  all_goals simp

theorem Unit.get_setWide_mem_of_out (u : Unit) (sel w : Nat) (v : BitVec 256) {i : Nat}
    (hi : i < memAt sel (4 * w) ∨ memAt sel (4 * w) + 4 ≤ i) : Tab.get 0 (u.setWide sel w v).mem i = Tab.get 0 u.mem i := by
  simp only [memAt] at hi
  simp only [Unit.setWide, List.range, List.range.loop, List.foldl, Tab.get_set, memAt]
  rw [if_neg (by omega), if_neg (by omega), if_neg (by omega), if_neg (by omega)]

theorem wide_words (v : BitVec 256) :
    BitVec.ofNat 256 ((BitVec.ofNat 64 (bits v.toNat 0 64)).toNat + 2 ^ 64 * ((BitVec.ofNat 64 (bits v.toNat 64 64)).toNat +
      2 ^ 64 * ((BitVec.ofNat 64 (bits v.toNat 128 64)).toNat + 2 ^ 64 * (BitVec.ofNat 64 (bits v.toNat 192 64)).toNat))) = v := by
  have hv := v.isLt
  apply BitVec.eq_of_toNat_eq
  simp only [BitVec.toNat_ofNat, bits]
  generalize v.toNat = a at hv
  omega

theorem Unit.wide_setWide_same (u : Unit) (sel w : Nat) (v : BitVec 256) : (u.setWide sel w v).wide sel w = v := by
  simp only [Unit.wide, Unit.get_setWide_mem u sel w v (show 0 < 4 by decide), Unit.get_setWide_mem u sel w v (show 1 < 4 by decide),
    Unit.get_setWide_mem u sel w v (show 2 < 4 by decide), Unit.get_setWide_mem u sel w v (show 3 < 4 by decide)]
  exact wide_words v

theorem Unit.wide_setWide_ne (u : Unit) (sel : Nat) {w x : Nat} (v : BitVec 256) (h : x ≠ w) : (u.setWide sel w v).wide sel x = u.wide sel x := by
  have hout (i : Nat) (hi : i < 4) : memAt sel (4 * x + i) < memAt sel (4 * w) ∨ memAt sel (4 * w) + 4 ≤ memAt sel (4 * x + i) := by
    simp only [memAt]
    omega
  simp only [Unit.wide, Unit.get_setWide_mem_of_out u sel w v (hout _ (show 0 < 4 by decide)),
    Unit.get_setWide_mem_of_out u sel w v (hout _ (show 1 < 4 by decide)), Unit.get_setWide_mem_of_out u sel w v (hout _ (show 2 < 4 by decide)),
    Unit.get_setWide_mem_of_out u sel w v (hout _ (show 3 < 4 by decide))]

@[simp] theorem Unit.load_place_same (u : Unit) (w : Nat) (v : BitVec 256) : (u.place w v).load w = v := by
  have hz : ((u.place w v).zeroed.contains (w % 16384)) = false := by simp [Unit.place]
  rw [Unit.load, hz, if_neg Bool.false_ne_true]
  exact Unit.wide_setWide_same u 5 (w % 16384) v

theorem Unit.load_place_ne (u : Unit) {w x : Nat} (v : BitVec 256) (h : x % 16384 ≠ w % 16384) : (u.place w v).load x = u.load x := by
  have hz : (u.place w v).zeroed.contains (x % 16384) = u.zeroed.contains (x % 16384) := by
    rw [Bool.eq_iff_iff]
    simp [Unit.place, h]
  rw [Unit.load, Unit.load, hz]
  congr 1
  exact Unit.wide_setWide_ne u 5 v h

-- ENTITY_WRITE.

/-- The bytes a command takes from the host have the length it asked for. -/
theorem State.length_hostTaken {src : B64} {n : Nat} {b : Bytes} (h : s.hostTaken src n = some b) : b.length = n := by
  unfold State.hostTaken at h
  split at h
  · split at h
    · cases h
      simpa using by assumption
    · cases h
  · cases h

theorem State.load_writeRow {p : Placement} {e : EntityDecl} {row v w site : Nat} (b : Bytes) (hrow : entityRow e.parts row = some (v, w))
    (hsite : p.site v = some site) (hw : w + 4 ≤ 16384) {i : Nat} (hi : i < 4) :
    ((s.writeRow p e row b).unit site).load (w + i) = BitVec.ofNat 256 (fieldLe b (32 * i) 32) := by
  unfold State.writeRow
  simp only [hrow, hsite, List.range, List.range.loop, List.foldl]
  simp only [State.modUnit, State.unit_setUnit]
  have hcases : i = 0 ∨ i = 1 ∨ i = 2 ∨ i = 3 := by omega
  rcases hcases with rfl | rfl | rfl | rfl
  · rw [Unit.load_place_ne, Unit.load_place_ne, Unit.load_place_ne, Unit.load_place_same] <;> omega
  · rw [Unit.load_place_ne, Unit.load_place_ne, Unit.load_place_same] <;> omega
  · rw [Unit.load_place_ne, Unit.load_place_same]
    omega
  · rw [Unit.load_place_same]

-- CONTEXT_ABORT (R316).

theorem State.masked_settleGroup (s : State) (g i : Nat) : ((s.settleGroup g).group i).masked = (s.group i).masked := by
  unfold State.settleGroup
  extract_lets x
  split
  · rw [(State.stallChanged_keeps (Nat.and_self _) _ g (Keeps.refl _ _)).group_eq i]
    by_cases h : g = i
    · subst h
      rw [State.group_setGroup]
      unfold Group.release
      split <;> rfl
    · rw [State.group_setGroup_ne _ _ _ _ h]
  · rfl

theorem State.masked_request (s : State) (o : Nat) (on : Bool) (i : Nat) : ((s.request o on).group i).masked = (s.group i).masked := by
  unfold State.request
  extract_lets x
  split
  · rfl
  · split
    · rfl
    · exact State.masked_settleGroup _ _ _

theorem State.masked_dropLate (s : State) (st i : Nat) : ((s.dropLate st).group i).masked = (s.group i).masked := by
  unfold State.dropLate
  split
  · unfold State.setLate
    extract_lets s1 other
    exact State.masked_request s1 _ _ i
  · rfl

theorem State.masked_flushOutput (s : State) (st x cause i : Nat) : ((s.flushOutput st x cause).group i).masked = (s.group i).masked := by
  unfold State.flushOutput
  extract_lets p s1 s2 s3 s4 s5
  have h1 : s1.group i = s.group i :=
    ((State.closeRing_keeps (Nat.and_self _) _ st x false (Keeps.refl _ _)).group_eq i).trans
      ((State.closeBuf_keeps (Nat.and_self _) s st x false (Keeps.refl _ s)).group_eq i)
  clear_value s1
  have h2 : s2.group i = s1.group i := by
    simp only [s2]
    split
    · exact (State.returnDesc_keeps (Nat.and_self _) s1 p x _ (Keeps.refl _ s1)).group_eq i
    · rfl
  clear_value s2
  have h4 : s4.group i = s2.group i := by
    simp only [s4, s3]
    split <;> rfl
  clear_value s4
  rw [State.group_log, State.masked_request, h4, h2, h1]

theorem State.masked_maskGroup (s : State) (g : Nat) : ((s.maskGroup g).group g).masked = true := by
  unfold State.maskGroup
  extract_lets was s1
  have h1 : (s1.group g).masked = true := by simp [s1]
  clear_value s1
  rw [(State.unfreezeGroup_keeps (Nat.and_self _) _ g (Keeps.refl _ _)).group_eq g]
  split
  · rw [(State.stallChanged_keeps (Nat.and_self _) s1 g (Keeps.refl _ s1)).group_eq g, h1]
  · exact h1

/-- A property of a state that each step of a list keeps. -/
theorem foldl_same {α β : Type} {f : State → α → State} {g : State → β} (hf : ∀ s x, g (f s x) = g s) (l : List α) (s : State) :
    g (l.foldl f s) = g s := by
  induction l generalizing s with
  | nil => rfl
  | cons x l ih => rw [List.foldl_cons, ih, hf]

/-- A context with its record `c`, whose group is masked. -/
def Masked (o : Nat) (c : Ctx) (s : State) : Prop := s.ctx o = some c ∧ (s.group o).masked = true

namespace Masked
variable {o : Nat} {c : Ctx}

theorem of_same (h : Masked o c s) (hctx : t.ctx o = s.ctx o) (hgroup : (t.group o).masked = (s.group o).masked) : Masked o c t :=
  ⟨hctx.trans h.1, hgroup.trans h.2⟩

theorem foldl {α : Type} {f : State → α → State} (hf : ∀ s x, Masked o c s → Masked o c (f s x)) (l : List α) (h : Masked o c s) :
    Masked o c (l.foldl f s) := by
  induction l generalizing s with
  | nil => exact h
  | cons x l ih => exact ih (hf s x h)

theorem maskGroup (hc : s.ctx o = some c) : Masked o c (s.maskGroup o) :=
  ⟨((State.maskGroup_keeps (Nat.and_self _) s o (Keeps.refl _ s)).ctx_eq o).trans hc, State.masked_maskGroup s o⟩

theorem dropLate (h : Masked o c s) (st : Nat) : Masked o c (s.dropLate st) :=
  h.of_same ((State.dropLate_keeps (Nat.and_self _) s st (Keeps.refl _ s)).ctx_eq o) (State.masked_dropLate s st o)

theorem stopCommit (h : Masked o c s) (n : Nat) : Masked o c (s.stopCommit n) :=
  h.of_same ((State.stopCommit_keeps (Nat.and_self _) s n (Keeps.refl _ s)).ctx_eq o)
    (congrArg Group.masked ((State.stopCommit_keeps (Nat.and_self _) s n (Keeps.refl _ s)).group_eq o))

theorem finish (h : Masked o c s) (k : Pkt) (fast : Bool) (st : Status) : Masked o c (s.finish k fast st) :=
  h.of_same (State.ctx_finish ..) (congrArg Group.masked (State.group_finish ..))

theorem flushOutput (h : Masked o c s) (st x cause : Nat) : Masked o c (s.flushOutput st x cause) :=
  h.of_same ((State.flushOutput_keeps (Nat.and_self _) s st x cause (Keeps.refl _ s)).ctx_eq o) (State.masked_flushOutput s st x cause o)

/-- A context that is cleared keeps its record but for its snapshot, its eclosion and its evaluations; its group is masked. -/
theorem clearContext (cause flush : Nat) (hc : s.ctx o = some c) :
    ∃ models, Masked o { c with models := models, snap := none, ecl := none } (s.clearContext o cause flush) := by
  unfold State.clearContext
  rw [hc]
  dsimp -zeta only
  extract_lets s1 sts s2 heads s3 s4 s5 s6 s7 s8 s9 s10 s11 s12
  have h1 : Masked o c s1 := maskGroup ((State.ctx_sendUnbind s o o).trans hc)
  clear_value s1
  have h2 : Masked o c s2 := foldl (fun s st h => h.dropLate st) sts h1
  clear_value s2
  have h4 : Masked o c s4 := foldl (fun s n h => h.stopCommit n) heads (of_same (t := s3) h2 rfl rfl)
  clear_value s4
  have h8 : Masked o c s8 := h4
  clear_value s8
  have h9 : Masked o c s9 := by
    simp only [s9]
    split
    · exact h8.finish _ _ _
    · exact h8
  clear_value s9
  have h10 : Masked o c s10 := by
    simp only [s10]
    split
    · split
      · exact h9.finish _ _ _
      · exact h9
    · exact h9
  clear_value s10
  have h11 : Masked o c s11 := by
    refine foldl (fun s st h => ?_) sts h10
    exact h
  clear_value s11
  have h12 : Masked o { c with
      models := Tab.mapVals (fun m : ModelSt => { m with pending := [], running := none }) c.models, snap := none, ecl := none } s12 :=
    ⟨(State.ctx_modRunning ..).trans (by rw [h11.1]; rfl), h11.2⟩
  exact ⟨_, foldl (fun s st h => h.flushOutput st 3 flush) sts h12⟩

end Masked

/-- An abort of a context that has not failed: it is cleared, and waits for its flits to be gone. -/
theorem State.abortCtx_of_live {o cause flush : Nat} {c : Ctx} (hc : s.ctx o = some c)
    (hst : c.state = .running ∨ c.state = .stopping ∨ c.state = .cocoon) :
    s.abortCtx o cause flush = (s.clearContext o cause flush).modRunning o (fun c => { c with state := .aborting, cause := cause }) := by
  unfold State.abortCtx
  rw [hc]
  rcases hst with h | h | h <;> simp only [h]

section
variable {k : Pkt} {o : Nat} {c : Ctx} (hk : Allowed s k 0x8001) (ho : OwnContext s k o c)
include hk ho

theorem contextAbort_of_fault (hst : c.state = .fault) : contextAbort k o s = s.finish k true .ok := by
  rw [contextAbort, State.command_passed _ hk (State.ctxChecks_pass ho), State.ctxUp_of_own ho]
  simp only [Option.getD_some, hst]

theorem contextAbort_of_eclosing (hst : c.state = .eclosing) : contextAbort k o s =
    s.setCtx o (some { c with abortPend := some (c.abortPend.getD Cause.aborted.code), abortPkts := c.abortPkts ++ [k] }) := by
  rw [contextAbort, State.command_passed _ hk (State.ctxChecks_pass ho), State.ctxUp_of_own ho]
  simp only [Option.getD_some, hst]

theorem contextAbort_of_aborting (hst : c.state = .aborting) : contextAbort k o s = s.setCtx o (some { c with abortPkts := c.abortPkts ++ [k] }) := by
  rw [contextAbort, State.command_passed _ hk (State.ctxChecks_pass ho), State.ctxUp_of_own ho]
  simp only [Option.getD_some, hst]

theorem contextAbort_of_live (hst : c.state = .running ∨ c.state = .stopping ∨ c.state = .cocoon) :
    contextAbort k o s = (s.setCtx o (some { c with abortPkts := c.abortPkts ++ [k] })).abortCtx o Cause.aborted.code 1 := by
  rw [contextAbort, State.command_passed _ hk (State.ctxChecks_pass ho), State.ctxUp_of_own ho]
  rcases hst with hst | hst | hst <;> simp only [Option.getD_some, hst]

/-- An abort keeps the packet for the reply, and masks the group (R316). -/
theorem ctx_contextAbort_of_live (hst : c.state = .running ∨ c.state = .stopping ∨ c.state = .cocoon) :
    ∃ c', (contextAbort k o s).ctx o = some c' ∧ c'.state = .aborting ∧ c'.cause = Cause.aborted.code ∧ k ∈ c'.abortPkts ∧
      ((contextAbort k o s).group o).masked = true := by
  have hctx := State.ctx_setCtx s o (some { c with abortPkts := c.abortPkts ++ [k] })
  rw [contextAbort_of_live hk ho hst, State.abortCtx_of_live hctx hst]
  obtain ⟨models, hclear, hmask⟩ := Masked.clearContext Cause.aborted.code 1 hctx
  refine ⟨_, (State.ctx_modRunning ..).trans (by rw [hclear]; rfl), rfl, rfl, ?_, hmask⟩
  exact List.mem_append_right _ (List.mem_singleton_self k)

end

theorem State.hostMem_hostWrite (s : State) (a : B64) (b : Bytes) : (s.hostWrite a b).hostMem = Memory.writeBytes s.hostMem a.toNat b := rfl

theorem unitCounters_passed {k : Pkt} {o len : Nat} {dest : B64} {c : Ctx} (hk : Allowed s k 0x8004) (ho : OwnContext s k o c)
    (hring : k.cspi = false) (hlen : 16 ≤ len) : ∃ esn : Bytes, esn.length = 6 ∧
      (unitCounters k o dest len s).hostMem = Memory.writeBytes s.hostMem dest.toNat (s.counterBytes o len esn).1 := by
  refine ⟨toLe 6 (Config.unstated s.freeCount).toNat, length_toLe _ _, ?_⟩
  unfold unitCounters
  rw [State.command_passed _ hk (by simp [destBad, hring, State.ctxChecks_pass ho])]
  extract_lets u b out r cut
  have hout : out = b := if_neg (Nat.not_lt.2 hlen)
  have hr : r.2 = s.draw.hostWrite dest b.1 := by
    simp only [r, hout, State.deliver, hring, Bool.false_eq_true, if_false]
  clear_value r
  rw [State.hostMem_finish, hr, State.hostMem_hostWrite, State.hostMem_draw]

theorem entityWrite_row {k : Pkt} {o tb row v w site : Nat} {src : B64} {b : Bytes} {c : Ctx} {e : EntityDecl} (hk : Allowed s k 0x8005)
    (hring : k.cspi = false) (ho : OwnContext s k o c) (hsound : c.state ≠ .fault) (he : c.place.image.decl.entities[tb]? = some e)
    (hrow : row < entityRows e) (hb : s.hostTaken src 128 = some b) (hparts : entityRow e.parts row = some (v, w))
    (hsite : c.place.site v = some site) (hw : w + 4 ≤ 16384) {i : Nat} (hi : i < 4) :
    ((entityWrite k o tb row 1 src s).unit site).load (w + i) = BitVec.ofNat 256 (fieldLe b (32 * i) 32) := by
  have hlen := State.length_hostTaken hb
  have hrow' : row + 1 ≤ entityRows e := hrow
  unfold entityWrite
  rw [State.ctxUp_of_own ho]
  dsimp only [Option.getD_some]
  rw [he, State.command_passed _ hk (by simp [hring, State.soundChecks_pass ho hsound, hrow])]
  simp only [hb, List.range, List.range.loop, List.foldl, State.unit_finish]
  have htake : (b.drop (128 * 0)).take 128 = b := by
    rw [Nat.mul_zero, List.drop_zero]
    exact List.take_of_length_le hlen.le
  rw [htake]
  exact State.load_writeRow b hparts hsite hw hi

/-- Settles O47. -/
theorem contextFastCommands : Obligations.ContextFastCommands := by
  unfold Obligations.ContextFastCommands
  refine ⟨fun k o n c p s hk ho hn hst hv hstaged hecl hstop => congrArg Host.Outcome.next ?_,
    fun k o st vmask len c s hk ho hsound hst hv hv' hsnap => congrArg Host.Outcome.next ?_, fun k o c s hk ho => ?_,
    fun k o g t c d s hk ho hsound hecl hecl' hd hlo hhi => congrArg Host.Outcome.next ?_, fun k o dest len c s hk ho hring hlen hwf => ?_,
    fun k o tb row src b c e v w site s hk hring ho hsound he hrow hb hparts hsite hw => ⟨_, rfl, fun i hi => ?_⟩⟩
  · have hnone : (s.ctxStreams o.toNat).any (fun i => (s.strm i).scheduled && (s.strm i).started) = false := by
      rw [List.any_eq_false]
      intro i hi
      simp [hstop i hi]
    rw [ecloseVariant, State.ctxUp_of_own ho]
    dsimp only [Option.getD_some]
    rw [hv, State.command_passed _ hk (by
      simp only [firstFail_append_eq_none, firstFail_cons_eq_none, hnone]
      simp [hn, State.ctxChecks_pass ho, hstaged, hst, hecl])]
    rfl
  · rw [statsSnapshot, State.ctxUp_of_own ho]
    dsimp only [Option.getD_some]
    rw [State.command_passed _ hk (by
      simp only [firstFail_append_eq_none, firstFail_cons_eq_none, State.soundChecks_pass ho hsound]
      simpa [hst, hv', hsnap, destBad] using hv)]
    rfl
  · have hctx := ho.2.1
    cases hst : c.state with
    | fault => exact ⟨_, c, congrArg Host.Outcome.next (contextAbort_of_fault hk ho hst), by simpa using hctx, fun _ => rfl, by simp, by simp⟩
    | eclosing => exact ⟨_, _, congrArg Host.Outcome.next (contextAbort_of_eclosing hk ho hst), State.ctx_setCtx .., by simp, by simp, fun _ => ⟨hst, rfl⟩⟩
    | aborting => exact ⟨_, _, congrArg Host.Outcome.next (contextAbort_of_aborting hk ho hst), State.ctx_setCtx .., by simp, by simp, by simp⟩
    | releasing => exact absurd hst ho.2.2.1
    | _ =>
      obtain ⟨c', hc', habort, hcause, hmem, hmask⟩ := ctx_contextAbort_of_live hk ho (by simp [hst])
      exact ⟨_, c', rfl, hc', by simp, fun _ => ⟨habort, hcause, hmem, hmask⟩, by simp⟩
  · have hecl0 : (c.state == .eclosing || c.ecl.any fun e => e.started) = false := by simp [hecl, hecl']
    rw [exponentTrim, State.ctxUp_of_own ho]
    dsimp only [Option.getD_some]
    rw [State.command_passed _ hk (by simp [State.soundChecks_pass ho hsound, hecl0, hd, hlo, hhi])]
  · obtain ⟨esn, hesn, hmem⟩ := unitCounters_passed (dest := dest) hk ho hring hlen
    refine ⟨_, esn, rfl, hesn, ?_, fun a ha => ?_⟩
    · exact hmem ▸ Memory.readBytes_writeBytes _ hwf
    · exact hmem ▸ Memory.read_writeBytes_of_out _ hwf ha
  · exact entityWrite_row hk hring ho hsound he hrow hb hparts hsite hw hi

end Sys2Proof.Machine

/-! The registers of locks and the waits that run out (R366-R372). -/

namespace Sys2Proof.Machine
set_option Elab.async false
variable {s t : State}

theorem State.acquireRaw_of_free {f l : Nat} (hraw : s.rawLock f l = true) (hfree : (s.lock l).holder = 0) :
    s.acquireRaw f l = (lockResult true (s.lock l).ownerLost false (fnCode f) (s.lock l).epoch,
      s.setLock l { s.lock l with holder := fnCode f, ownerLost := false }) := by
  simp [State.acquireRaw, hraw, State.tryLock_of_free hfree]

theorem State.acquireRaw_of_held {f l : Nat} (hraw : s.rawLock f l = true) (hheld : (s.lock l).holder ≠ 0) :
    s.acquireRaw f l = (lockResult ((s.lock l).holder == fnCode f) false ((s.lock l).holder == fnCode f) (s.lock l).holder (s.lock l).epoch, s) := by
  have hzero : ((s.lock l).holder == 0) = false := by simpa using hheld
  by_cases hown : (s.lock l).holder = fnCode f
  · have hcode : (fnCode f == (0 : BitVec 10)) = false := by rwa [hown] at hzero
    simp only [State.acquireRaw, hraw, State.tryLock, hown, hcode, beq_self_eq_true]
    simp [hown]
  · have hother : ((s.lock l).holder == fnCode f) = false := by simpa using hown
    simp [State.acquireRaw, hraw, State.tryLock_of_held hheld hown, hother]

theorem State.releaseRaw_of_holder {f l : Nat} (hexpert : s.expertOk f = true) (hheld : (s.lock l).holder = fnCode f) :
    s.releaseRaw f l = s.handLock l := by
  simp [State.releaseRaw, hexpert, hheld]

theorem State.greg_handLock (s : State) (l : Nat) : (s.handLock l).greg = s.greg :=
  (State.handLock_keeps (Nat.and_self _) s l (Keeps.refl _ s)).greg_eq

/-- A forced release hands on a lock whose EPOCH counts once more and whose last owner is lost. -/
theorem State.lock_forceLock_of_held {l : Nat} (hheld : (s.lock l).holder ≠ 0) :
    (s.forceLock l).lock l = ({ s.lock l with epoch := (s.lock l).epoch + 1, ownerLost := true, holder := 0 } : Lock).handed := by
  have hzero : ((s.lock l).holder == 0) = false := by simpa using hheld
  simp only [State.forceLock, hzero]
  exact (State.lock_handLock _ l).trans (congrArg Lock.handed (State.lock_setLock s l _))

theorem State.lockLost_forceLock_of_held {l : Nat} (hheld : (s.lock l).holder ≠ 0) : (s.forceLock l).greg.lockLost = true := by
  have hzero : ((s.lock l).holder == 0) = false := by simpa using hheld
  simp only [State.forceLock, hzero]
  exact congrArg GReg.lockLost (State.greg_handLock _ l)

theorem Lock.ownerLost_handed (x : Lock) : x.handed.ownerLost = match x.waiters with | _ :: _ => false | [] => x.ownerLost := by
  unfold Lock.handed
  split <;> rename_i hx <;> simp [hx]

theorem execLockWaitTimeout_of_first {l : Fin 64} {cseq : B32} {w : Waiter} {k : Pkt} {m : List Waiter} (hx : (s.lock l).waiters = w :: m)
    (hreply : w.reply = some k) (hcseq : k.cseq = cseq) :
    execLockWaitTimeout l cseq s = .next ((s.setLock l { s.lock l with waiters := m }).finish k true .timeout) := by
  simp [execLockWaitTimeout, hx, hreply, hcseq]

theorem State.lock_returned (s : State) (v l : Nat) : (s.returned v).lock l = s.lock l := rfl

/-- Settles O43: each register answers with the lock as `acquireRaw`, `releaseRaw` or `forceRaw` leaves it. -/
theorem locksChangeHands : Obligations.LocksChangeHands := by
  unfold Obligations.LocksChangeHands
  refine ⟨fun p l s hready hreach hraw hfree => ?_, fun p l s hready hreach hraw hheld => ?_, fun p l s hready hreach hexpert hheld => ?_,
    fun p l s hready hreach hfn hl hheld => ?_, fun l cseq w k m s hx hreply hcseq => ?_⟩
  · refine ⟨_, rfl, ?_⟩
    rw [hready, hreach, State.acquireRaw_of_free hraw hfree]
    simp only [Bool.and_self, if_true]
    refine ⟨?_, ?_, rfl⟩
    · rw [State.lock_returned, State.lock_setLock]
    · rw [State.lock_returned, State.lock_setLock]
  · refine ⟨_, rfl, ?_⟩
    rw [hready, hreach, State.acquireRaw_of_held hraw hheld]
    exact ⟨rfl, rfl⟩
  · refine ⟨_, rfl, ?_⟩
    rw [hready, hreach, State.releaseRaw_of_holder hexpert hheld]
    simp only [Bool.and_self, if_true, State.lock_handLock]
    exact ⟨Lock.waiters_handed _, Lock.epoch_handed _, Lock.holder_handed _⟩
  · refine ⟨_, rfl, ?_⟩
    have hforce : s.forceRaw (pathFn p) l = s.forceLock l := by simp [State.forceRaw, hfn, hl]
    rw [hready, hreach, hforce]
    simp only [Bool.and_self, if_true, State.lock_forceLock_of_held hheld]
    exact ⟨Lock.epoch_handed _, State.lockLost_forceLock_of_held hheld, Lock.holder_handed _, Lock.ownerLost_handed _⟩
  · refine ⟨_, execLockWaitTimeout_of_first hx hreply hcseq, ?_⟩
    rw [State.lock_finish, State.lock_setLock]
    exact ⟨rfl, rfl⟩

end Sys2Proof.Machine

/-! Registers by their offset, and the operations of the Control SPI (R352-R360, R345-R349). -/

namespace Sys2Proof.Machine
set_option Elab.async false
variable {s t : State}

-- One register hit by an access (R354).

/-- Whatever the part has of WAIT_LIMIT registers, each stands at its offset with 16 bits. -/
theorem Reg.hit_wlReg (s : State) (off i o n : Nat) :
    (wlReg s off i).hit o n = (decide (8 * off + 0 < 8 * (o + n)) && decide (8 * o < 8 * off + 0 + 16)) := by
  have hplace : ∀ b : Bool, ((if b then { off := off, lo := 0, w := 16, cls := .rw, get := fun s => s.wlReg i, put := fun v s => s.writeWl i v }
      else roReg off 0 16 (fun _ => 0)) : Reg).hit o n = (decide (8 * off + 0 < 8 * (o + n)) && decide (8 * o < 8 * off + 0 + 16)) := by
    intro b
    cases b <;> rfl
  exact hplace _

theorem Reg.hit_mk (off lo w : Nat) (cls : Cls) (get : State → Nat) (put : Nat → State → State) (onRead : State → State) (o n : Nat) :
    (Reg.mk off lo w cls get put onRead).hit o n = (decide (8 * off + lo < 8 * (o + n)) && decide (8 * o < 8 * off + lo + w)) := rfl

theorem State.regRead_of_one {p : Path} {o k : Nat} {b : RBlock} {r : Reg} (hready : s.ready = true) (hok : accessOk o 4 = true)
    (hat : locate p o = (b, k)) (hregs : (s.regsAt (pathFn p) b k).filter (fun r => r.hit k 4) = [r]) (hlatch : r.latches = false) :
    s.regRead p o 4 = (r.part s k 4, r.readEffect s) := by
  simp [State.regRead, hready, hok, hat, hregs, hlatch]

theorem State.regWrite_of_one {p : Path} {o n v k : Nat} {b : RBlock} {r : Reg} (hready : s.ready = true) (hok : accessOk o n = true)
    (hat : locate p o = (b, k)) (hregs : (s.regsAt (pathFn p) b k).filter (fun r => r.hit k n) = [r]) (hopen : s.writeHeld b = false) :
    s.regWrite p o n v = r.write k n v s := by
  simp [State.regWrite, hready, hok, hat, hregs, hopen]

theorem State.regWrite_of_misaligned {p : Path} {o n v : Nat} (hready : s.ready = true) (hok : accessOk o n = false) :
    s.regWrite p o n v = s.badAccess := by
  simp [State.regWrite, hready, hok]

def ecloseTimeoutReg : Reg :=
  { off := 0x034, lo := 0, w := 14, cls := .rw, get := fun s => s.greg.ecloseTimeout
    put := fun v s => { s with greg := { s.greg with ecloseTimeout := max 1 (min 10000 v) } } }

/-- ECLOSE_TIMEOUT is the register at 0x034 of the global block. -/
theorem statusRegs_ecloseTimeout (s : State) : (statusRegs s).filter (fun r => r.hit 0x034 4) = [ecloseTimeoutReg] := by
  simp [statusRegs, Reg.hit_wlReg, Reg.hit_mk, roReg, eventReg, ecloseTimeoutReg]

theorem ecloseTimeoutReg_write (s : State) (v : Nat) :
    ecloseTimeoutReg.write 0x034 4 v s = { s with greg := { s.greg with ecloseTimeout := max 1 (min 10000 (v % 2 ^ 14)) } } := by
  simp [Reg.write, ecloseTimeoutReg, Reg.pos, bits]

/-- A write of ECLOSE_TIMEOUT over either path of function 0. -/
theorem State.regWrite_ecloseTimeout {p : Path} (hready : s.ready = true) (hfn : pathFn p = 0) (v : Nat) :
    s.regWrite p 0x10034 4 v = { s with greg := { s.greg with ecloseTimeout := max 1 (min 10000 (v % 2 ^ 14)) } } := by
  rw [State.regWrite_of_one (b := .global) (k := 0x034) hready rfl (by simp [locate, hfn, locatePf]) (statusRegs_ecloseTimeout s) rfl]
  exact ecloseTimeoutReg_write s v

-- READ_REG and READ_RESULT.

theorem State.reachable_cspi (hready : s.ready = true) : s.reachable .cspi = true := by
  simp [State.reachable, hready]

def idReg : Reg := roReg 0x000 0 32 (fun _ => 0x4449344B)

theorem identRegs_id : (identRegs 0).filter (fun r => r.hit 0 4) = [idReg] := by
  simp [identRegs, Reg.hit_mk, roReg, idReg]

theorem State.regRead_id (hready : s.ready = true) : s.regRead .cspi 0 4 = (0x4449344B, s) := by
  rw [State.regRead_of_one (b := .ident) (k := 0) hready rfl rfl identRegs_id rfl]
  simp [Reg.part, idReg, roReg, Reg.pos, Reg.readEffect]

theorem execReadReg_id (hready : s.ready = true) :
    execReadReg 0 s = .next (((s.draw.returned 0x4449344B).cspiLogRead 0).drive (Config.turnaround s.freeCount :: toLe 4 0x4449344B)) := by
  simp [execReadReg, State.reachable_cspi hready, State.regRead_id hready]

theorem execWriteReg_ecloseTimeout (v : B32) (hready : s.ready = true) :
    execWriteReg 0x10034 v s =
      .next (({ s with greg := { s.greg with ecloseTimeout := max 1 (min 10000 (v.toNat % 2 ^ 14)) } }).drive []) := by
  have hwrite := State.regWrite_ecloseTimeout (p := .cspi) hready rfl v.toNat
  simp only [execWriteReg, State.reachable_cspi hready, if_true]
  exact congrArg (fun x => Host.Outcome.next (State.drive x [])) hwrite

/-- READ_RESULT drives the bytes of the result buffer that lie inside its 4,096. -/
theorem execReadResult_inside {off n : B16} (hready : s.ready = true) (hin : off.toNat + n.toNat ≤ 4096) :
    execReadResult off n s = .next (({ s with freeCount := s.freeCount + 1 + off.toNat + n.toNat }).drive
      (Config.turnaround s.freeCount :: (List.range n.toNat).map (fun i => s.cspi.result.getD (off.toNat + i) 0))) := by
  have hbytes : (List.range n.toNat).map (fun i => if off.toNat + i < 4096 then s.cspi.result.getD (off.toNat + i) 0
      else Config.turnaround (s.freeCount + 1 + (off.toNat + i))) = (List.range n.toNat).map (fun i => s.cspi.result.getD (off.toNat + i) 0) := by
    refine List.map_congr_left fun i hi => if_pos ?_
    have := List.mem_range.mp hi
    omega
  simp only [execReadResult, State.reachable_cspi hready, Bool.not_true, Bool.false_eq_true, if_false, hbytes]

-- WRITE_PACKET, READ_REPLY and READ_STATUS.

theorem execWritePacket_accepted {b : Bytes} (hready : s.ready = true) (hgood : packetCause s.cspi.pktQ b = none) :
    execWritePacket b s =
      .next { s with cspi := { s.cspi with pktQ := s.cspi.pktQ ++ [{ bytes := b, fn := 0, cspi := true }], miso := [] } } := by
  simp [execWritePacket, State.reachable_cspi hready, hready, hgood]

theorem execWritePacket_refused {b : Bytes} {c : Nat} (hready : s.ready = true) (hbad : packetCause s.cspi.pktQ b = some c) :
    execWritePacket b s = .next (({ s with cspi := { s.cspi with pktErr := true, miso := [] } } : State).log .cspiPktErr inFast 0 0 c) := by
  simp [execWritePacket, State.reachable_cspi hready, hready, hbad]

theorem execReadReply_of_waiting {r : Rec} {m : List Rec} (hready : s.ready = true) (hq : s.cspi.replyQ = r :: m) :
    execReadReply s = .next (({ s with cspi := { s.cspi with replyQ := m } } : State).drive (replyBytes r)) := by
  simp [execReadReply, State.reachable_cspi hready, hq]

theorem execReadReply_of_empty (hready : s.ready = true) (hq : s.cspi.replyQ = []) :
    execReadReply s = .next (s.drive ((List.range 8).flatMap (fun _ => toLe 4 0xFFFF0000))) := by
  simp only [execReadReply, State.reachable_cspi hready, hq, Bool.not_true, Bool.false_eq_true, if_false]

theorem execReadStatus_of_ready (hready : s.ready = true) :
    execReadStatus s = .next (({ s with cspi := { s.cspi with pktErr := false } } : State).drive (toLe 4 s.cspiStatus)) := by
  simp [execReadStatus, State.reachable_cspi hready]

/-- Settles O45: what each operation drives on MISO, and what it leaves of the packet and reply queues. -/
theorem controlSpi : Obligations.ControlSpi := by
  unfold Obligations.ControlSpi
  refine ⟨fun b s hready hgood => ?_, fun b c s hready hbad => ?_, fun r m s hready hq => ?_, fun s hready hq => ?_, fun s hready => ?_,
    fun s hready => ?_, fun v s hready => ?_, fun off n s hready hin => ?_⟩
  · exact ⟨_, execWritePacket_accepted hready hgood, rfl, rfl⟩
  · refine ⟨_, execWritePacket_refused hready hbad, ?_⟩
    rw [State.cspi_log]
    exact ⟨rfl, rfl⟩
  · exact ⟨_, execReadReply_of_waiting hready hq, rfl, rfl⟩
  · exact ⟨_, execReadReply_of_empty hready hq, rfl⟩
  · exact ⟨_, execReadStatus_of_ready hready, rfl, rfl⟩
  · exact ⟨_, execReadReg_id hready, rfl⟩
  · exact ⟨_, execWriteReg_ecloseTimeout v hready, rfl, rfl⟩
  · exact ⟨_, execReadResult_inside hready hin, rfl, rfl⟩

end Sys2Proof.Machine

/-! Ethernet ports (R391-R394) and command rings (R326-R334). -/

namespace Sys2Proof.Machine
set_option Elab.async false
variable {s t : State}

-- Ethernet.

theorem State.ethSend_eq (s : State) (p : Nat) (b : Bytes) :
    s.ethSend p b = s.setEth p { s.eth p with sent := (b ++ List.replicate (60 - b.length) 0) :: (s.eth p).sent } := rfl

theorem Eth.take_head (e : Eth) {dst : Bytes} (hdst : dst.length = 6) (typ : Nat) (rest : Bytes) : (e.head dst typ ++ rest).take 6 = dst := by
  simp only [Eth.head, List.append_assoc]
  exact List.take_left' hdst

/-- What a port sends starts with the destination of its header. -/
theorem State.sent_ethSend (s : State) (p : Nat) {dst : Bytes} (hdst : dst.length = 6) (e : Eth) (typ : Nat) (body : Bytes) :
    ∃ f, ((s.ethSend p (e.head dst typ ++ body)).eth p).sent = f :: (s.eth p).sent ∧ f.take 6 = dst := by
  refine ⟨e.head dst typ ++ (body ++ List.replicate (60 - (e.head dst typ ++ body).length) 0), ?_, e.take_head hdst typ _⟩
  rw [State.ethSend_eq, State.eth_setEth, List.append_assoc]

/-- Settles O21. -/
theorem ethernetPorts : Obligations.EthernetPorts := by
  unfold Obligations.EthernetPorts
  refine ⟨fun p s hlive henabled hdown => ?_, fun p s hup => ?_, fun p mac ip target s hlive hup hmine => ?_, fun p mac ip target s hother => ?_,
    fun p s hlive hup hudp => ?_, fun p s hlive hup => ?_⟩
  · change execEthLinkChange p true s = _
    simp only [execEthLinkChange, State.ethLink, hlive, henabled, hdown]
    simp
  · change execEthLinkChange p false s = _
    simp only [execEthLinkChange, State.ethLink, hup]
    simp
  · obtain ⟨f, hsent, hdst⟩ := s.sent_ethSend p (length_toLe 6 mac.toNat) (s.eth p) 0x0806
      ([0, 1, 8, 0, 6, 4, 0, 2] ++ (s.eth p).record.take 6 ++ ((s.eth p).record.drop 8).take 4 ++ toLe 6 mac.toNat ++ toLe 4 ip.toNat)
    refine ⟨_, f, ?_, hsent, hdst⟩
    change execArpRequest p mac ip target s = _
    simp only [execArpRequest, hlive, hup, hmine, List.append_assoc]
    simp
  · change execArpRequest p mac ip target s = _
    simp only [execArpRequest]
    simp [hother]
  · obtain ⟨f, hsent, hdst⟩ := s.sent_ethSend p (dst := [0x01, 0, 0x5E, 0, 0x01, 0x81]) rfl (s.eth p) 0x0800
      (ipv4 0 1 2 (((s.eth p).record.drop 8).take 4) [224, 0, 1, 129] ([0x16, 0] ++ inetCheck ([0x16, 0] ++ [0, 0] ++ [224, 0, 1, 129]) ++ [224, 0, 1, 129]))
    refine ⟨_, f, ?_, hsent, hdst⟩
    change execIgmpReport p s = _
    simp only [execIgmpReport, hlive, hup, hudp]
    simp
  · change execEthFrameDiscard p s = _
    simp only [execEthFrameDiscard, hlive, hup, Bool.and_self, if_true, State.modEth_eq]

-- Command rings.

theorem State.fn_raiseIrq (s : State) (f v : Nat) :
    (s.raiseIrq f v).fn f = { s.fn f with irqs := Tab.set (s.fn f).irqs v (Tab.get 0 (s.fn f).irqs v + 1) } := by
  simp [State.raiseIrq]

/-- A status bit that rises signals an interrupt; the rest of the function is as the change leaves it. -/
theorem State.fn_ringStatus (s : State) (f : Nat) (g : Fn → Fn) : ∃ irqs, (s.ringStatus f g).fn f = { g (s.fn f) with irqs := irqs } := by
  unfold State.ringStatus
  extract_lets old s1
  have h1 : s1.fn f = g (s.fn f) := State.fn_setFn _ _ _
  split
  · exact ⟨(g (s.fn f)).irqs, h1⟩
  · exact ⟨_, (State.fn_raiseIrq s1 f 3).trans (by rw [h1])⟩

theorem cmdTail_inside {f v : Nat} (hready : s.ready = true) (hrun : (s.fn f).reset = false) (hin : v % 4096 < 2 ^ (s.fn f).cmdOrder) :
    cmdTail f v s = s.setFn f { s.fn f with cmdTail := v % 4096 } := by
  simp [cmdTail, hready, hrun, hin]

theorem cmdTail_outside {f v : Nat} (hready : s.ready = true) (hrun : (s.fn f).reset = false) (hout : 2 ^ (s.fn f).cmdOrder ≤ v % 4096) :
    cmdTail f v s = s.ringStatus f (fun x => { x with badDoorbell := true }) := by
  simp [cmdTail, hready, hrun, hout]

theorem cmdFetch_of_read {f : Nat} (b : Bytes) (hup : s.fnUp f = true) (hen : (s.fn f).enable = true) (hrun : (s.fn f).reset = false)
    (hok : (s.fn f).fetchErr = false) (hmore : (s.fn f).cmdHead ≠ (s.fn f).cmdTail) :
    cmdFetch f (some b) s = s.setFn f { s.fn f with cmdHead := ((s.fn f).cmdHead + 1) % 2 ^ (s.fn f).cmdOrder
                                                    fetched := (s.fn f).fetched ++ [{ bytes := b, fn := f, cspi := false }] } := by
  simp [cmdFetch, hup, hen, hrun, hok, hmore]

theorem cmdFetch_of_failed {f : Nat} (hup : s.fnUp f = true) (hen : (s.fn f).enable = true) (hrun : (s.fn f).reset = false)
    (hok : (s.fn f).fetchErr = false) (hmore : (s.fn f).cmdHead ≠ (s.fn f).cmdTail) :
    cmdFetch f none s = (s.ringStatus f (fun x => { x with fetchErr := true })).log .cmdFetchErr inFast f f 0 := by
  simp [cmdFetch, hup, hen, hrun, hok, hmore]

theorem State.useArb_eq_some {u : State} {a : ArbId} {i : Nat} {present : List Nat} (hu : s.useArb a i present = some u) :
    ∃ x, u = s.setArb (arbCode a) x := by
  obtain ⟨x, -, rfl⟩ := Option.map_eq_some_iff.mp hu
  exact ⟨x.free, rfl⟩

theorem cmdDispatch_of_held {f : Nat} (hheld : s.useArb .cmdRing f = none) : cmdDispatch f false s = s := by
  simp only [cmdDispatch, Bool.false_eq_true, if_false, hheld, ite_self]
  cases s.waiting f false <;> rfl

/-- A well-formed packet leaves the fetched packets for the ring, behind those in flight. -/
theorem fn_cmdDispatch {f : Nat} {p : Packet} {m : List Packet} {u : State} (hq : (s.fn f).fetched = p :: m)
    (hmay : s.mayDispatch f false p = true) (hhead : p.badHeader = false) (harb : s.useArb .cmdRing f = some u)
    (hlisted : listedOpcode p.opcode = true) (hlayout : p.badLayout = false) (hmodel : p.opcode ≠ 0x1300) :
    (cmdDispatch f false s).fn f = { s.fn f with
      fetched := m
      inFlight := (s.fn f).inFlight ++ [{ cseq := p.cseq, opcode := p.opcode, cspi := false, fence := p.fence, at_ := s.seqr.posts }] } := by
  obtain ⟨x, rfl⟩ := State.useArb_eq_some harb
  have hwait : s.waiting f false = p :: m := hq
  unfold cmdDispatch
  extract_lets f0 g
  have hf0 : f0 = f := rfl
  clear_value f0
  subst f
  rw [hwait]
  dsimp -zeta only
  rw [if_pos hmay, harb]
  dsimp -zeta only
  extract_lets q s1 c2 s2 c3 s3 e s4
  have h2 : s2.fn f0 = { s.fn f0 with fetched := m } := State.fn_setFn _ _ _
  have h3 : s3.fn f0 = { s.fn f0 with fetched := m } := by
    rw [← h2]
    simp only [s3]
    split <;> rfl
  have h4 : s4.fn f0 = { s3.fn f0 with inFlight := (s3.fn f0).inFlight ++ [e] } := State.fn_setFn _ _ _
  have he : e = { cseq := p.cseq, opcode := p.opcode, cspi := false, fence := p.fence, at_ := s.seqr.posts } := by
    simp only [e, s3]
    split <;> rfl
  clear_value s4 s3
  simp [g, h4, h3, he, hhead, hlisted, hlayout, hmodel]

theorem ringReset_of_ready {f : Nat} (hready : s.ready = true) (hrun : (s.fn f).reset = false) :
    ringReset f s = s.setFn f { s.fn f with reset := true, fetched := [] } := by
  simp [ringReset, hready, hrun]

theorem fn_ringResetDone {f : Nat} (hreset : (s.fn f).reset = true) (hdone : (s.fn f).inFlight = []) :
    (ringResetDone f s).fn f = { s.fn f with
      replyQ := [], replyEpoch := (s.fn f).replyEpoch + 1, cmdHead := 0, cmdTail := 0, rplProd := 0, rplCons := 0, enable := false
      fetchErr := false, reset := false, flr := false, fetched := [], unsigReplies := 0 } := by
  simp [ringResetDone, hreset, hdone, State.fn_flushReplies]

/-- Settles O37. -/
theorem commandRings : Obligations.CommandRings := by
  unfold Obligations.CommandRings
  refine ⟨fun f v s hready hrun hin => ?_, fun f v s hready hrun hout => ?_, fun f b s hup hen hrun hok hmore => ?_,
    fun f p m s u hq hmay hhead harb hlisted hlayout hmodel => ?_, fun f s hheld => ?_, fun f s hready hrun => ?_, fun f s hreset hdone => ?_⟩
  · refine ⟨_, congrArg Host.Outcome.next (cmdTail_inside hready hrun hin), ?_⟩
    rw [State.fn_setFn]
    exact ⟨rfl, rfl⟩
  · obtain ⟨irqs, hfn⟩ := s.fn_ringStatus f (fun x => { x with badDoorbell := true })
    refine ⟨_, congrArg Host.Outcome.next (cmdTail_outside hready hrun hout), ?_⟩
    rw [hfn]
    exact ⟨rfl, rfl⟩
  · obtain ⟨irqs, hfn⟩ := s.fn_ringStatus f (fun x => { x with fetchErr := true })
    refine ⟨_, _, congrArg Host.Outcome.next (cmdFetch_of_read b hup hen hrun hok hmore),
      congrArg Host.Outcome.next (cmdFetch_of_failed hup hen hrun hok hmore), ?_⟩
    rw [State.fn_setFn, State.fn_log, hfn]
    exact ⟨rfl, rfl, rfl, rfl, rfl⟩
  · refine ⟨_, rfl, ?_⟩
    rw [fn_cmdDispatch hq hmay hhead harb hlisted hlayout hmodel]
    exact ⟨rfl, rfl⟩
  · exact congrArg Host.Outcome.next (cmdDispatch_of_held hheld)
  · refine ⟨_, congrArg Host.Outcome.next (ringReset_of_ready hready hrun), ?_⟩
    rw [State.fn_setFn]
    exact ⟨rfl, rfl, rfl⟩
  · refine ⟨_, rfl, ?_⟩
    rw [fn_ringResetDone hreset hdone]
    exact ⟨rfl, rfl, rfl, rfl, rfl, rfl, rfl, rfl, rfl⟩

end Sys2Proof.Machine

/-! The fault of a context (R316) and the faults of a unit's program (R97, R258-R262). -/

namespace Sys2Proof.Machine
set_option Elab.async false
variable {s t : State}

-- A context that is cleared leaves the memories of its units, and their halts.

/-- What `g` sees of an entry stays when it sees nothing of the update. -/
theorem Tab.get_upd_same {α β : Type} {d : α} {f : α → α} {g : α → β} (hf : ∀ x, g (f x) = g x) (t : List (Nat × α)) (l : List Nat) (i : Nat) :
    g (Tab.get d (Tab.upd d f t l) i) = g (Tab.get d t i) := by
  unfold Tab.upd
  induction l generalizing t with
  | nil => rfl
  | cons k l ih =>
    rw [List.foldl_cons, ih, Tab.get_set]
    split
    · next h => rw [hf, h]
    · rfl

/-- The memory of a unit, and whether its program is halted. -/
def State.kept (s : State) (i : Nat) : Tab B64 × Bool := ((s.unit i).mem, (s.unit i).halted)

theorem State.kept_of_units (h : t.units = s.units) (i : Nat) : t.kept i = s.kept i := by
  unfold State.kept State.unit
  rw [h]

theorem State.kept_unfreezeGroup (s : State) (o i : Nat) : (s.unfreezeGroup o).kept i = s.kept i := by
  unfold State.unfreezeGroup
  extract_lets region s1 s2
  have h1 : s1.kept i = s.kept i := by
    refine foldl_same (g := fun s => s.kept i) (fun s j => ?_) _ s
    refine Tab.get_upd_same (g := fun u : Machine.Unit => (u.mem, u.halted)) (fun u => ?_) s.units [j] i
    unfold Unit.unfreeze
    split <;> rfl
  exact h1

theorem State.kept_maskGroup (s : State) (g i : Nat) : (s.maskGroup g).kept i = s.kept i := by
  unfold State.maskGroup
  extract_lets was s1
  have h1 : s1.kept i = s.kept i := rfl
  rw [State.kept_unfreezeGroup]
  split
  · exact (State.kept_of_units (State.stallChanged_keeps (Nat.and_self _) s1 g (Keeps.refl _ s1)).units_eq i).trans h1
  · exact h1

theorem Unit.owe_fold (l : List QEnt) (u : Machine.Unit) : ∃ backs, l.foldl Unit.owe u = { u with backs := backs } := by
  induction l generalizing u with
  | nil => exact ⟨u.backs, rfl⟩
  | cons e l ih =>
    have hstep : ∃ backs, u.owe e = { u with backs := backs } := by
      unfold Unit.owe
      split
      · exact ⟨_, rfl⟩
      · exact ⟨u.backs, rfl⟩
    obtain ⟨b, hb⟩ := hstep
    obtain ⟨b', hb'⟩ := ih (u.owe e)
    rw [hb] at hb'
    exact ⟨b', by rw [List.foldl_cons, hb, hb']⟩

theorem Unit.kept_abort (u : Machine.Unit) : (u.abort.mem, u.abort.halted) = (u.mem, u.halted) := by
  obtain ⟨b, hb⟩ := Unit.owe_fold (u.queues.flatMap (fun e : Nat × List QEnt => e.2)) u
  simp only [Unit.abort, hb]

theorem State.units_modEdgeEng (s : State) (k : Nat) (f : Engine → Engine) : (s.modEdgeEng k f).units = s.units :=
  (State.modEdgeEng_keeps (Nat.and_self _) s k f (Keeps.refl _ s)).units_eq

theorem State.kept_clearContext (s : State) (o cause flush i : Nat) : (s.clearContext o cause flush).kept i = s.kept i := by
  unfold State.clearContext
  split
  · rfl
  · extract_lets s1 sts s2 heads s3 s4 s5 s6 s7 s8 s9 s10 s11 s12
    have h1 : s1.kept i = s.kept i :=
      (State.kept_maskGroup _ _ _).trans (State.kept_of_units (State.sendUnbind_keeps (Nat.and_self _) s o (Keeps.refl _ s)).units_eq i)
    clear_value s1
    have h2 : s2.kept i = s.kept i := (foldl_same (g := fun s => s.kept i) (fun s st =>
      State.kept_of_units (State.dropLate_keeps (Nat.and_self _) s st (Keeps.refl _ s)).units_eq i) sts s1).trans h1
    clear_value s2
    have h4 : s4.kept i = s.kept i := (foldl_same (g := fun s => s.kept i) (fun s h =>
      State.kept_of_units (State.stopCommit_keeps (Nat.and_self _) s h (Keeps.refl _ s)).units_eq i) heads s3).trans h2
    clear_value s4
    have h5 : s5.kept i = s.kept i :=
      (Tab.get_upd_same (g := fun u : Machine.Unit => (u.mem, u.halted)) Unit.kept_abort s4.units _ i).trans h4
    clear_value s5
    have h6 : s6.kept i = s.kept i :=
      (congrArg (fun u : Machine.Unit => (u.mem, u.halted))
        (Tab.get_mapVals ({} : Machine.Unit) (fun u => { u with portQ := u.portQ.filter (fun p => p.2.1 != o) }) rfl s5.units i)).trans h5
    clear_value s6
    have h8 : s8.kept i = s.kept i := h6
    clear_value s8
    have h9 : s9.kept i = s.kept i := by
      refine Eq.trans ?_ h8
      simp only [s9]
      split
      · exact State.kept_of_units (State.units_finish ..) i
      · rfl
    clear_value s9
    have h10 : s10.kept i = s.kept i := by
      refine Eq.trans ?_ h9
      simp only [s10]
      split
      · split
        · exact State.kept_of_units (State.units_finish ..) i
        · rfl
      · rfl
    clear_value s10
    have h11 : s11.kept i = s.kept i :=
      (foldl_same (g := fun s => s.kept i) (fun s st => State.kept_of_units (State.units_modEdgeEng ..) i) sts s10).trans h10
    clear_value s11
    have h12 : s12.kept i = s.kept i := h11
    clear_value s12
    exact (foldl_same (g := fun s => s.kept i) (fun s st =>
      State.kept_of_units (State.flushOutput_keeps (Nat.and_self _) s st 3 flush (Keeps.refl _ s)).units_eq i) sts s12).trans h12

theorem State.kept_faultCtx (s : State) (o : Nat) (cause : Cause) (i : Nat) : (s.faultCtx o cause).kept i = s.kept i := by
  unfold State.faultCtx
  split
  · rfl
  · split
    · rfl
    · rfl
    · rfl
    · split <;> rfl
    · exact State.kept_clearContext s o _ 1 i

/-- A context that runs, stops or is in COCOON enters FAULT with the cause (R316). -/
theorem State.ctx_faultCtx_of_live {o : Nat} {cause : Cause} {c : Ctx} (hc : s.ctx o = some c)
    (hst : c.state = .running ∨ c.state = .stopping ∨ c.state = .cocoon) :
    ∃ c', (s.faultCtx o cause).ctx o = some c' ∧ c'.state = .fault ∧ c'.cause = cause.code := by
  obtain ⟨models, hclear, -⟩ := Masked.clearContext cause.code 1 hc
  refine ⟨{ { c with models := models, snap := none, ecl := none } with state := .fault, cause := cause.code }, ?_, rfl, rfl⟩
  unfold State.faultCtx
  rw [hc]
  have hmod : ((s.clearContext o cause.code 1).modRunning o (fun c => { c with state := .fault, cause := cause.code })).ctx o =
      some { { c with models := models, snap := none, ecl := none } with state := .fault, cause := cause.code } :=
    (State.ctx_modRunning ..).trans (by rw [hclear]; rfl)
  rcases hst with h | h | h <;> simp only [h] <;> exact hmod

theorem State.ctx_of_mayIssue {site : Nat} (h : s.mayIssue site = true) :
    ∃ c, s.ctx (s.unit site).owner = some c ∧ (c.state = .running ∨ c.state = .stopping ∨ c.state = .cocoon) := by
  simp only [State.mayIssue, Bool.and_eq_true] at h
  obtain ⟨-, hctx⟩ := h
  split at hctx
  · next c hc => exact ⟨c, hc, by simpa [or_assoc] using (Bool.and_eq_true_iff.mp hctx).2⟩
  · cases hctx

/-- A unit that is halted for its context's fault. -/
theorem State.haltUnit_of_live {site pc : Nat} {e : Ev} {cause : Cause} {c : Ctx} (hc : s.ctx (s.unit site).owner = some c)
    (hst : c.state = .running ∨ c.state = .stopping ∨ c.state = .cocoon) :
    ((s.haltUnit site pc e cause).unit site).halted = true ∧
      ∃ c', (s.haltUnit site pc e cause).ctx (s.unit site).owner = some c' ∧ c'.state = .fault ∧ c'.cause = cause.code := by
  unfold State.haltUnit
  extract_lets u
  refine ⟨?_, State.ctx_faultCtx_of_live hc hst⟩
  refine (congrArg Prod.snd (State.kept_faultCtx _ _ _ site)).trans ?_
  exact congrArg Machine.Unit.halted (State.unit_setUnit ..)

-- Units: what the waits of an issue change (R259), and what time changes (R263).

theorem Unit.bindOne_eq_some {u v : Machine.Unit} {w q : Nat} (h : u.bindOne w q = some v) :
    ∃ queues line cur, v = { u with queues := queues, line := line, cur := cur } := by
  simp only [Unit.bindOne] at h
  split at h
  · cases h
  · split at h
    · cases h
    · exact ⟨_, _, _, (Option.some.inj h).symm⟩

theorem Unit.bindAll_eq {l : List (Nat × Nat)} {u v : Machine.Unit} {r : Option (Nat × Nat)} (h : Unit.bindAll l u = (r, v)) :
    ∃ queues line cur, v = { u with queues := queues, line := line, cur := cur } := by
  induction l generalizing u with
  | nil => exact ⟨u.queues, u.line, u.cur, (congrArg Prod.snd h).symm⟩
  | cons e l ih =>
    obtain ⟨w, q⟩ := e
    rw [Unit.bindAll] at h
    split at h
    · exact ⟨u.queues, u.line, u.cur, (congrArg Prod.snd h).symm⟩
    · next x hx =>
      obtain ⟨a, b, c, rfl⟩ := Unit.bindOne_eq_some hx
      obtain ⟨a', b', c', hv⟩ := ih h
      exact ⟨a', b', c', hv⟩

theorem Unit.settle_eq (u : Machine.Unit) (at_ : Nat) : ∃ h z pend, u.settle at_ = { u with h := h, z := z, pend := pend } := by
  have hfold : ∀ (l : List PendW) (v : Machine.Unit), ∃ h z, l.foldl (fun v p => v.writeReg p.reg p.lo p.vals) v = { v with h := h, z := z } := by
    intro l
    induction l with
    | nil => exact fun v => ⟨v.h, v.z, rfl⟩
    | cons p l ih =>
      intro v
      have hstep : ∃ h z, v.writeReg p.reg p.lo p.vals = { v with h := h, z := z } := by
        unfold Unit.writeReg
        split
        · exact ⟨_, v.z, rfl⟩
        · exact ⟨v.h, _, rfl⟩
      obtain ⟨h, z, hv⟩ := hstep
      obtain ⟨h', z', hl⟩ := ih (v.writeReg p.reg p.lo p.vals)
      exact ⟨h', z', by rw [List.foldl_cons, hl, hv]⟩
  obtain ⟨h, z, hv⟩ := hfold (u.pend.filter (fun p => decide (p.at_ ≤ at_))) u
  exact ⟨h, z, u.pend.filter (fun p => !decide (p.at_ ≤ at_)), by simp only [Unit.settle, hv]⟩

theorem Unit.owner_advance (u : Machine.Unit) (busy : Nat) (w : Waits) : (u.advance busy w).owner = u.owner := by
  obtain ⟨h, z, pend, hu⟩ := u.settle_eq (u.cyc + w.tag + w.x + w.active)
  simp only [Unit.advance, hu]

-- The faults of a program.

/-- The unit that halts has its owner's context in FAULT. -/
theorem State.haltUnit_setUnit {site pc : Nat} {v : Machine.Unit} {e : Ev} {cause : Cause} (hmay : s.mayIssue site = true)
    (howner : v.owner = (s.unit site).owner) :
    ∃ c, (((s.setUnit site v).haltUnit site pc e cause).unit site).halted = true ∧
      ((s.setUnit site v).haltUnit site pc e cause).ctx (s.unit site).owner = some c ∧ c.state = .fault ∧ c.cause = cause.code := by
  obtain ⟨c, hc, hst⟩ := State.ctx_of_mayIssue hmay
  have hunit : (s.setUnit site v).unit site = v := State.unit_setUnit ..
  have hlive : (s.setUnit site v).ctx ((s.setUnit site v).unit site).owner = some c := by rw [hunit, howner]; exact hc
  obtain ⟨hhalt, c', hc', hfault⟩ := State.haltUnit_of_live (pc := pc) (e := e) (cause := cause) hlive hst
  rw [hunit, howner] at hc'
  exact ⟨c', hhalt, hc', hfault⟩

theorem illegalOp_of_badWait {site : Nat} (w : Waits) (hmay : s.mayIssue site = true)
    (hbad : (s.unit site).badWait (kindOf site) (s.unit site).group = true) :
    illegalOp site false w s =
      (s.setUnit site ((s.unit site).advance (s.unit site).cyc w)).haltUnit site (s.unit site).pc .illegalOp .illegalOp := by
  simp [illegalOp, hmay, hbad]

theorem illegalOp_of_bound {site : Nat} {spill : Bool} {w : Waits} {u : Machine.Unit} (hmay : s.mayIssue site = true)
    (hwait : (s.unit site).badWait (kindOf site) (s.unit site).group = false)
    (hbind : Unit.bindAll (needs (s.unit site).group.waits) (s.unit site) = (none, u))
    (hop : (fOp (s.unit site).group.word == 0x12) = spill)
    (hill : (u.advance (u.busyUntil (s.unit site).group.word) w).illegal (kindOf site) (s.unit site).group.word = true) :
    illegalOp site spill w s =
      (s.setUnit site (u.advance (u.busyUntil (s.unit site).group.word) w)).haltUnit site (s.unit site).group.pc .illegalOp .illegalOp := by
  simp [illegalOp, hmay, hwait, hbind, hop, hill]

/-- No kind of unit has an operation of code 0x12 (Table 10-2). -/
theorem Unit.illegal_spill (u : Machine.Unit) (k : UKind) {w : Nat} (hop : fOp w = 0x12) : u.illegal k w = true := by
  have hnone : definedRanges k w = none := by
    unfold definedRanges
    rw [hop]
    cases k <;> rfl
  simp [Unit.illegal, hnone]

theorem tagDeadlock_of_filled {site w q : Nat} {ws : Waits} {u : Machine.Unit} (hmay : s.mayIssue site = true)
    (hlate : 2 ^ s.greg.tagTimeout ≤ ws.tag) (hbind : Unit.bindAll (needs (s.unit site).group.waits) (s.unit site) = (some (w, q), u))
    (hfull : ∀ i ∈ maskQueues (bits w 45 3), waitWindow w ≤ (Tab.get [] (s.unit site).queues i).length) :
    tagDeadlock site ws s = ((s.setUnit site ((s.unit site).advance (s.unit site).cyc ws)).logSite .tagDeadlock site (s.unit site).owner
      (s.unit site).cur.stream (s.unit site).cur.fseq (((s.unit site).key (bits w 41 4)).1.getD 0) 0).faultCtx (s.unit site).owner .tagDeadlock := by
  have hall : (maskQueues (bits w 45 3)).all (fun q => decide (waitWindow w ≤ (Tab.get [] (s.unit site).queues q).length)) = true := by
    simpa using hfull
  simp only [tagDeadlock, hmay, hbind, hlate, hall]
  simp

/-- Settles O31. -/
theorem programsFault : Obligations.ProgramsFault := by
  unfold Obligations.ProgramsFault
  refine ⟨fun site w u s hmay hwait hbind hill hop => ?_, fun site w s hmay hbad => ?_, fun site w u s hmay hwait hbind hop => ?_,
    fun site s hmay => ?_, fun site ws w q u s hmay hlate hbind hfull => ?_⟩
  · obtain ⟨queues, line, cur, hu⟩ := Unit.bindAll_eq hbind
    obtain ⟨c, h⟩ := State.haltUnit_setUnit (pc := (s.unit site).group.pc) (e := .illegalOp) (cause := .illegalOp) hmay
      ((Unit.owner_advance u (u.busyUntil (s.unit site).group.word) w).trans (by rw [hu]))
    exact ⟨_, c, congrArg Host.Outcome.next (illegalOp_of_bound hmay hwait hbind (by simpa using hop) hill), h⟩
  · obtain ⟨c, h⟩ := State.haltUnit_setUnit (pc := (s.unit site).pc) (e := .illegalOp) (cause := .illegalOp) hmay
      (Unit.owner_advance (s.unit site) (s.unit site).cyc w)
    exact ⟨_, c, congrArg Host.Outcome.next (illegalOp_of_badWait w hmay hbad), h⟩
  · obtain ⟨queues, line, cur, hu⟩ := Unit.bindAll_eq hbind
    obtain ⟨c, h⟩ := State.haltUnit_setUnit (pc := (s.unit site).group.pc) (e := .illegalOp) (cause := .illegalOp) hmay
      ((Unit.owner_advance u (u.busyUntil (s.unit site).group.word) w).trans (by rw [hu]))
    exact ⟨_, c, congrArg Host.Outcome.next (illegalOp_of_bound hmay hwait hbind (by simp [hop]) (Unit.illegal_spill _ _ hop)), h⟩
  · obtain ⟨c, hc, hst⟩ := State.ctx_of_mayIssue hmay
    have hlive : ({ s with greg := { s.greg with ue := true } } : State).ctx
        (({ s with greg := { s.greg with ue := true } } : State).unit site).owner = some c := hc
    obtain ⟨hhalt, c', hc', hfault⟩ := State.haltUnit_of_live (pc := (s.unit site).pc) (e := .progUe) (cause := .progUe) hlive hst
    refine ⟨_, c', ?_, hhalt, ?_, hc', hfault⟩
    · change execProgUe site s = _
      simp only [execProgUe, hmay, Bool.not_true, Bool.false_eq_true, if_false]
    · exact congrArg GReg.ue (State.haltUnit_keeps (Nat.and_self _) _ _ _ _ _ (Keeps.refl _ _)).greg_eq
  · obtain ⟨c, hc, hst⟩ := State.ctx_of_mayIssue hmay
    obtain ⟨c', hc', hfault⟩ := State.ctx_faultCtx_of_live (cause := .tagDeadlock) (s := (s.setUnit site ((s.unit site).advance (s.unit site).cyc ws)).logSite
      .tagDeadlock site (s.unit site).owner (s.unit site).cur.stream (s.unit site).cur.fseq (((s.unit site).key (bits w 41 4)).1.getD 0) 0) hc hst
    exact ⟨_, c', congrArg Host.Outcome.next (tagDeadlock_of_filled hmay hlate hbind hfull), hc', hfault⟩

end Sys2Proof.Machine

/-! Register accesses, MEM_DATA and the unit reset by register (R352-R361, R89, R97). -/

namespace Sys2Proof.Machine
set_option Elab.async false
variable {s t : State}

-- Reads that latch no high word (R354).

theorem State.regRead_of_narrow {p : Path} {o k : Nat} {b : RBlock} {rs : List Reg} (hready : s.ready = true) (hok : accessOk o 4 = true)
    (hat : locate p o = (b, k)) (hregs : (s.regsAt (pathFn p) b k).filter (fun r => r.hit k 4) = rs) (hlatch : rs.find? Reg.latches = none) :
    s.regRead p o 4 = ((rs.map (Reg.part s k 4)).sum, rs.foldl Reg.readEffect s) := by
  simp only [State.regRead, hready, hok, hat, hregs, hlatch]
  simp

-- DTB: its low word latches the high one.

def dtbReg : Reg := roReg 0x018 0 64 (fun s => s.dtb.now.toNat)

theorem statusRegs_dtbLow (s : State) : (statusRegs s).filter (fun r => r.hit 0x018 4) = [dtbReg] := by
  simp [statusRegs, Reg.hit_wlReg, Reg.hit_mk, roReg, eventReg, dtbReg]

theorem statusRegs_dtbHigh (s : State) : (statusRegs s).filter (fun r => r.hit 0x01C 4) = [dtbReg] := by
  simp [statusRegs, Reg.hit_wlReg, Reg.hit_mk, roReg, eventReg, dtbReg]

-- BAD_ACCESS.

def badAccessReg : Reg :=
  { off := 0x010, lo := 0, w := 32, cls := .rcl, get := fun s => s.greg.badAccess.toNat
    put := fun _ s => { s with greg := { s.greg with badAccess := 0 } } }

theorem statusRegs_badAccess (s : State) : (statusRegs s).filter (fun r => r.hit 0x010 4) = [badAccessReg] := by
  simp [statusRegs, Reg.hit_wlReg, Reg.hit_mk, roReg, eventReg, badAccessReg]

-- LOG_DROP.

def logDropReg (f : Nat) : Reg :=
  { off := 0x48, lo := 0, w := 32, cls := .rcl, get := fun s => (s.fn f).logDrop.toNat
    put := fun _ s => s.modFn f (fun x => { x with logDrop := 0 }) }

theorem ringRegs_logDrop (f : Nat) : (ringRegs f).filter (fun r => r.hit 0x48 4) = [logDropReg f] := by
  simp [ringRegs, Reg.hit_mk, roReg, logDropReg]

-- FC_FSEQ.

def fcFseqReg (site : Nat) : Reg :=
  { off := 0x034, lo := 0, w := 8, cls := .ro, get := fun s => (s.unit site).fc.fseq
    onRead := fun s => s.modUnit site (fun u => { u with fcLatched := u.fc }) }

theorem unitRegs_fcFseq (site : Nat) : (unitRegs site).filter (fun r => r.hit 0x034 4) =
    [fcFseqReg site, roReg 0x034 8 6 (fun s => (s.unit site).fc.stream), roReg 0x034 31 1 (fun s => oneIf (s.unit site).fc.valid)] := by
  have hbank : ∀ (p : Prop) [Decidable p] (r : Reg), (if p then r else r.absent).hit 0x034 4 = r.hit 0x034 4 := by
    intro p _ r
    split <;> rfl
  cases hk : kindOf site == UKind.p <;>
    simp [unitRegs, hk, hbank, Reg.hit_mk, roReg, cntReg, fcFseqReg, List.range, List.range.loop]

-- The accesses.

theorem State.reachable_bar {f : FnId} (hready : s.ready = true) (hup : (s.ep (s.epOf f)).up = true) : s.reachable (.bar f) = true := by
  simp [State.reachable, hready, hup]

theorem State.epOf_zero (s : State) : s.epOf 0 = 0 := by
  simp [State.epOf, State.fnOnB]

theorem State.reachable_pf (hready : s.ready = true) (hup : (s.ep 0).up = true) : s.reachable (.bar 0) = true := by
  refine State.reachable_bar hready ?_
  rw [show ((0 : FnId) : Nat) = 0 from rfl, State.epOf_zero]
  exact hup

theorem State.regRead_dtbLow {p : Path} (hready : s.ready = true) (hfn : pathFn p = 0) :
    s.regRead p 0x10018 4 = (s.dtb.now.toNat % 2 ^ 32, { s.noShadow p 0x1001C with
      greg := { (s.noShadow p 0x1001C).greg with
        hiShadow := (pathCode p, 0x1001C, BitVec.ofNat 32 (s.dtb.now.toNat / 2 ^ 32)) :: (s.noShadow p 0x1001C).greg.hiShadow } }) := by
  have hat : locate p 0x10018 = (.global, 0x18) := by simp [locate, hfn, locatePf]
  have hregs : (s.regsAt (pathFn p) .global 0x18).filter (fun r => r.hit 0x18 4) = [dtbReg] := statusRegs_dtbLow s
  have hnow := s.dtb.now.isLt
  have hpart : Reg.part s 0x18 4 dtbReg = s.dtb.now.toNat % 2 ^ 32 := by
    simp [Reg.part, dtbReg, roReg, Reg.pos]
  have hlatch : [dtbReg].find? Reg.latches = some dtbReg := rfl
  simp only [State.regRead, hready, hat, hregs, hlatch, List.map_cons, List.map_nil, hpart]
  rfl

theorem State.regRead_dtbHigh {p : Path} {h : B32} (hready : s.ready = true) (hfn : pathFn p = 0) (hshadow : s.shadowOf p 0x1001C = some h) :
    s.regRead p 0x1001C 4 = (h.toNat, s.noShadow p 0x1001C) := by
  have hat : locate p 0x1001C = (.global, 0x1C) := by simp [locate, hfn, locatePf]
  have hregs : (s.regsAt (pathFn p) .global 0x1C).filter (fun r => r.hit 0x1C 4) = [dtbReg] := statusRegs_dtbHigh s
  have hlatch : [dtbReg].find? Reg.latches = some dtbReg := rfl
  simp only [State.regRead, hready, hat, hregs, hlatch, hshadow]
  rfl

theorem execRegisterLowRead_of_reachable {p : Path} {off : B32} {v : Nat} (hreach : s.reachable p = true) (hread : s.regRead p off.toNat 4 = (v, t)) :
    execRegisterLowRead p off s = .next (t.returned v) := by
  simp only [execRegisterLowRead, hreach, hread, if_true]

theorem State.regRead_badAccess {p : Path} (hready : s.ready = true) (hfn : pathFn p = 0) :
    s.regRead p 0x10010 4 = (s.greg.badAccess.toNat, { s with greg := { s.greg with badAccess := 0 } }) := by
  have hat : locate p 0x10010 = (.global, 0x10) := by simp [locate, hfn, locatePf]
  have hpart : Reg.part s 0x10 4 badAccessReg = s.greg.badAccess.toNat := by
    have := s.greg.badAccess.isLt
    simpa [Reg.part, badAccessReg, Reg.pos] using this
  rw [State.regRead_of_one hready rfl hat (statusRegs_badAccess s) rfl, hpart]
  rfl

theorem locate_ring_logDrop (f : FnId) : locate (.bar f) 0x1048 = (.ring f, 0x48) := by
  by_cases hf : (f : Nat) = 0
  · simp [locate, pathFn, hf, locatePf]
  · simp [locate, pathFn, hf, locateVf]

theorem State.regRead_logDrop (f : FnId) (hready : s.ready = true) :
    s.regRead (.bar f) 0x1048 4 = ((s.fn f).logDrop.toNat, s.modFn f (fun x => { x with logDrop := 0 })) := by
  have hpart : Reg.part s 0x48 4 (logDropReg f) = (s.fn f).logDrop.toNat := by
    have := (s.fn f).logDrop.isLt
    simpa [Reg.part, logDropReg, Reg.pos] using this
  rw [State.regRead_of_one hready rfl (locate_ring_logDrop f) (ringRegs_logDrop f) rfl, hpart]
  rfl

theorem locate_fcFseq (site : Site) : locate (.bar 0) (0x100000 + 0x400 * site + 0x034) = (.unit site, 0x034) := by
  have hsite := site.isLt
  have hblock : ((0x100000 + 0x400 * (site : Nat) + 0x034) - 0x100000) / 0x400 = site := by omega
  have hoff : (0x100000 + 0x400 * (site : Nat) + 0x034) % 0x400 = 0x034 := by omega
  change locatePf _ = _
  unfold locatePf
  rw [if_neg (by omega), if_neg (by omega), if_neg (by simp; omega), if_neg (by simp; omega), if_neg (by simp; omega), if_neg (by simp; omega),
    if_neg (by simp; omega), if_neg (by simp; omega), if_pos (by simp; omega), hblock, hoff]

/-- The read of FC_FSEQ latches the unit's counts. -/
theorem State.regRead_fcFseq (site : Site) (hready : s.ready = true) (hworks : s.works site = true) :
    (s.regRead (.bar 0) (0x100000 + 0x400 * site + 0x034) 4).2 = s.modUnit site (fun u => { u with fcLatched := u.fc }) := by
  have hok : accessOk (0x100000 + 0x400 * (site : Nat) + 0x034) 4 = true := by
    have : (0x100000 + 0x400 * (site : Nat) + 0x034) % 4 = 0 := by omega
    simp [accessOk, this]
  have hregs : (s.regsAt 0 (.unit site) 0x034).filter (fun r => r.hit 0x034 4) =
      [fcFseqReg site, roReg 0x034 8 6 (fun s => (s.unit site).fc.stream), roReg 0x034 31 1 (fun s => oneIf (s.unit site).fc.valid)] := by
    simp only [State.regsAt, hworks, if_true]
    exact unitRegs_fcFseq site
  rw [State.regRead_of_narrow hready hok (locate_fcFseq site) hregs rfl]
  rfl

-- MEM_DATA and the reset of a unit.

theorem State.unit_debugGrant (s : State) (site i : Nat) : (s.debugGrant site).unit i = s.unit i := by
  unfold State.debugGrant
  split
  · cases h : s.useArb (.service (Fin.ofNat 768 site)) 1 with
    | none => rfl
    | some u => obtain ⟨x, rfl⟩ := State.useArb_eq_some h; rfl
  · rfl

theorem State.progOpen_debugGrant (s : State) (site : Nat) : (s.debugGrant site).progOpen site = s.progOpen site := by
  simp only [State.progOpen, State.unit_debugGrant]
  rw [(State.debugGrant_keeps (Nat.and_self _) s site (Keeps.refl _ s)).ctx_eq]

theorem State.unit_memNext (s : State) (site : Nat) :
    (s.memNext site).unit site = { s.unit site with memAddr := ((s.unit site).memAddr + 1) % 16777216 } := by
  simp [State.memNext]

/-- A word written within a memory's size, of a program that is open or of another memory. -/
theorem State.unit_memWrite {site : Nat} (v : B64) (hin : (s.unit site).memAddr < memWords (kindOf site) (s.unit site).memSel)
    (hopen : (s.unit site).memSel < 3 → s.progOpen site = true) :
    Tab.get 0 ((s.memWrite site v).unit site).mem (memAt (s.unit site).memSel (s.unit site).memAddr) = v ∧
      ((s.memWrite site v).unit site).memAddr = ((s.unit site).memAddr + 1) % 16777216 := by
  unfold State.memWrite
  extract_lets s1 u k w put n x y s2
  have hu : u = s.unit site := State.unit_debugGrant s site site
  have hs2 : s2 = s1.setUnit site put := by
    have hclosed : (decide (u.memSel < 3) && !s1.progOpen site) = false := by
      rw [hu, show s1.progOpen site = s.progOpen site from State.progOpen_debugGrant s site]
      by_cases hsel : (s.unit site).memSel < 3 <;> simp [hsel, hopen]
    simp only [s2, hclosed, Bool.false_eq_true, if_false]
    rw [if_pos (by rw [hu]; exact hin)]
  rw [State.unit_memNext, hs2, State.unit_setUnit]
  refine ⟨?_, ?_⟩
  · simp only [put, hu, Tab.get_set_same]
  · simp only [put, hu]

theorem State.mem_memWrite_of_closed {site : Nat} (v : B64) (hsel : (s.unit site).memSel < 3) (hopen : s.progOpen site = false) :
    ((s.memWrite site v).unit site).mem = (s.unit site).mem := by
  unfold State.memWrite
  extract_lets s1 u k w put n x y s2
  have hu : u = s.unit site := State.unit_debugGrant s site site
  have hs2 : s2.unit site = s.unit site := by
    have hclosed : (decide (u.memSel < 3) && !s1.progOpen site) = true := by
      rw [hu, show s1.progOpen site = s.progOpen site from State.progOpen_debugGrant s site, hopen]
      simp [hsel]
    simp only [s2, hclosed, if_true]
    exact hu
  rw [State.unit_memNext, hs2]

theorem State.unit_memRead_clean (s : State) (site : Nat) :
    (s.memRead site .clean).unit site = { s.unit site with memAddr := ((s.unit site).memAddr + 1) % 16777216 } := by
  unfold State.memRead
  extract_lets s1 u s2
  have hs2 : s2.draw.unit site = s.unit site := by
    have h1 : s1.unit site = s.unit site := State.unit_debugGrant s site site
    simp only [s2]
    split <;> exact h1
  rw [State.unit_memNext, hs2]

theorem State.memPeek_clean {site : Nat} (hin : (s.unit site).memAddr < memWords (kindOf site) (s.unit site).memSel) (hsel : (s.unit site).memSel ≠ 5) :
    s.memPeek site .clean = (Tab.get 0 (s.unit site).mem (memAt (s.unit site).memSel (s.unit site).memAddr)).toNat := by
  have hclean : (Ecc.clean == Ecc.bad) = false := rfl
  simp [State.memPeek, hin, hsel, hclean]

theorem Unit.reset_fields (u : Machine.Unit) : u.reset.queues = [] ∧ u.reset.pc = 0 ∧ u.reset.halted = false ∧ u.reset.mem = u.mem := by
  obtain ⟨b, hb⟩ := Unit.owe_fold (u.queues.flatMap (fun e : Nat × List QEnt => e.2)) u
  refine ⟨rfl, rfl, rfl, ?_⟩
  simp only [Unit.reset, hb]
  rfl

theorem State.unit_unitReset (s : State) (site : Nat) : ∃ u : Machine.Unit, u.mem = (s.unit site).mem ∧ (s.unitReset site).unit site = u.reset := by
  unfold State.unitReset
  extract_lets u s1 s2
  refine ⟨s1.unit site, ?_, State.unit_setUnit ..⟩
  simp only [s1]
  split
  · exact congrArg Prod.fst (State.kept_faultCtx s u.owner .unitReset site)
  · rfl

/-- Settles O44. -/
theorem registersAndUnitWindows : Obligations.RegistersAndUnitWindows := by
  unfold Obligations.RegistersAndUnitWindows
  refine ⟨⟨fun v s hready hup => ?_, fun off v s hready hup hmis => ?_, fun s hready hup => ?_, fun site s hready hup hworks => ?_,
    fun s hready hup => ?_, fun f s hready hup => ?_⟩, fun site v ecc s hready hworks hin hopen => ?_, fun site v ecc s hready hworks hsel hopen => ?_,
    fun site s hready hworks hin hsel => ?_, fun site s hready hworks => ?_⟩
  · refine ⟨{ s with greg := { s.greg with ecloseTimeout := max 1 (min 10000 (v.toNat % 2 ^ 14)) } }, ?_, rfl, rfl, rfl⟩
    have hwrite := State.regWrite_ecloseTimeout (p := .bar 0) hready rfl v.toNat
    change execRegisterWrite (.bar 0) _ 4 v s = _
    simp only [execRegisterWrite, State.reachable_pf hready hup, if_true]
    exact congrArg Host.Outcome.next hwrite
  · refine ⟨s.badAccess, ?_, rfl, rfl⟩
    have hok : accessOk off.toNat 4 = false := by simp [accessOk, hmis]
    have hwrite := State.regWrite_of_misaligned (p := .bar 0) (v := v.toNat) hready hok
    change execRegisterWrite (.bar 0) _ 4 v s = _
    simp only [execRegisterWrite, State.reachable_pf hready hup, if_true]
    exact congrArg Host.Outcome.next hwrite
  · have hlow := State.regRead_dtbLow (p := .bar 0) hready rfl
    refine ⟨_, _, execRegisterLowRead_of_reachable (State.reachable_pf hready hup) hlow, rfl,
      execRegisterLowRead_of_reachable (v := (BitVec.ofNat 32 (s.dtb.now.toNat / 2 ^ 32)).toNat) (State.reachable_pf hready hup)
        (State.regRead_dtbHigh hready rfl ?_), ?_⟩
    · simp [State.shadowOf, State.returned]
    · have hnow := s.dtb.now.isLt
      refine congrArg (BitVec.ofNat 64) ?_
      rw [BitVec.toNat_ofNat]
      omega
  · refine ⟨_, rfl, ?_⟩
    rw [State.reachable_pf hready hup, if_pos rfl]
    exact (congrArg (fun t : State => (t.unit site).fcLatched) (State.regRead_fcFseq site hready hworks)).trans
      (congrArg Machine.Unit.fcLatched (State.unit_setUnit s site _))
  · refine ⟨_, rfl, ?_⟩
    rw [State.reachable_pf hready hup, if_pos rfl, State.regRead_badAccess hready rfl]
    exact ⟨rfl, rfl⟩
  · refine ⟨_, rfl, ?_⟩
    rw [State.reachable_bar hready hup, if_pos rfl, State.regRead_logDrop f hready]
    exact ⟨rfl, congrArg Fn.logDrop (State.fn_setFn s f _)⟩
  · refine ⟨s.memWrite site v, ?_, State.unit_memWrite v hin hopen⟩
    change execMemData site (some v) ecc s = _
    simp [execMemData, hready, hworks]
  · refine ⟨s.memWrite site v, ?_, State.mem_memWrite_of_closed v hsel hopen⟩
    change execMemData site (some v) ecc s = _
    simp [execMemData, hready, hworks]
  · refine ⟨(s.memRead site .clean).returned (s.memPeek site .clean), ?_, ?_, ?_⟩
    · change execMemData site none .clean s = _
      simp [execMemData, hready, hworks]
    · exact congrArg Machine.Unit.memAddr (s.unit_memRead_clean site)
    · rw [State.memPeek_clean hin hsel]
      exact BitVec.ofNat_toNat ..
  · obtain ⟨u, hmem, hu⟩ := s.unit_unitReset site
    obtain ⟨hq, hpc, hhalt, hkept⟩ := u.reset_fields
    refine ⟨s.unitReset site, ?_, ?_⟩
    · change execUnitCtrlUnitReset site s = _
      simp [execUnitCtrlUnitReset, hready, hworks]
    · rw [hu]
      exact ⟨hq, hpc, hhalt, hkept.trans hmem⟩

end Sys2Proof.Machine

/-! What the issue of an instruction leaves of its unit (R94, R203, R259, R274). -/

namespace Sys2Proof.Machine
set_option Elab.async false
variable {s t r : State}

-- The counts of a unit that a window or a detection touches.

/-- The frame counters' window and the detections of a unit: what an issue marks besides the instruction's own effect. -/
structure Marks where
  fc : Window
  eclCyc : BitVec 32
  winFirst : Bool
  winEof : Option Window
  winBase : Window
  haz : Tab (BitVec 32)
  hazLogged : List Nat

def Unit.marked (u : Machine.Unit) (m : Marks) : Machine.Unit :=
  { u with fc := m.fc, eclCyc := m.eclCyc, winFirst := m.winFirst, winEof := m.winEof, winBase := m.winBase, haz := m.haz, hazLogged := m.hazLogged }

def Unit.marks (u : Machine.Unit) : Marks := ⟨u.fc, u.eclCyc, u.winFirst, u.winEof, u.winBase, u.haz, u.hazLogged⟩

theorem Unit.marked_marks (u : Machine.Unit) : u.marked u.marks = u := rfl

theorem Unit.marked_marked (u : Machine.Unit) (m m' : Marks) : (u.marked m).marked m' = u.marked m' := rfl

theorem Unit.exists_openWindow (u : Machine.Unit) : ∃ m, u.openWindow = u.marked m := ⟨u.openWindow.marks, rfl⟩

-- A detection that faults no context (R286, R289).

/-- A detection that puts no context in FAULT: the unit is marked, and of the streams no trim changes. -/
structure Quiet (site : Nat) (s t : State) : Prop where
  unit : ∃ m, t.unit site = (s.unit site).marked m
  modes : t.modes = s.modes
  ctxs : t.ctxs = s.ctxs
  epochs : t.epochs = s.epochs
  trims : ∀ st, (t.strm st).frameTrims = (s.strm st).frameTrims
  ue : t.greg.ue = s.greg.ue

namespace Quiet
variable {site : Nat}

theorem refl (site : Nat) (s : State) : Quiet site s s := ⟨⟨_, (Unit.marked_marks _).symm⟩, rfl, rfl, rfl, fun _ => rfl, rfl⟩

theorem trans (h : Quiet site s t) (h' : Quiet site t r) : Quiet site s r where
  unit := by
    obtain ⟨m, hm⟩ := h.unit
    obtain ⟨m', hm'⟩ := h'.unit
    exact ⟨m', by rw [hm', hm, Unit.marked_marked]⟩
  modes := h'.modes.trans h.modes
  ctxs := h'.ctxs.trans h.ctxs
  epochs := h'.epochs.trans h.epochs
  trims st := (h'.trims st).trans (h.trims st)
  ue := h'.ue.trans h.ue

end Quiet

theorem State.frameTrims_modFrame (s : State) (st : Nat) (fseq : B16) (f : FrameInfo → FrameInfo) (i : Nat) :
    ((s.modFrame st fseq f).strm i).frameTrims = (s.strm i).frameTrims := by
  by_cases h : st = i
  · subst h
    exact (congrArg Strm.frameTrims (State.strm_setStrm s st ((s.strm st).modFrame fseq f))).trans rfl
  · exact congrArg Strm.frameTrims (State.strm_setStrm_ne s st i _ h)

theorem State.quiet_hazard {site : Nat} (hlog : (s.modes.hazard && s.modes.hazFault) = false) (kind st f8 line : Nat) (pc : Option Nat) :
    Quiet site s (s.hazard site kind st f8 line pc) := by
  unfold State.hazard
  extract_lets u o first n s1
  clear_value o
  split
  · exact Quiet.refl site s
  · next own =>
    split
    · exact Quiet.refl site s
    · next hrun =>
      have hhaz : s.modes.hazard = true := by
        cases h : s.modes.hazard
        · simp [h] at hrun
        · rfl
      have hfault : s.modes.hazFault = false := by simpa [hhaz] using hlog
      extract_lets s2 g s3 s4
      have h1 : Quiet site s s1 := ⟨⟨{ u.marks with
        haz := Tab.set u.haz kind (BitVec.ofNat 32 (min (n + 1) 0xFFFFFFFF)), hazLogged := if first then u.hazLogged ++ [kind] else u.hazLogged },
        State.unit_setUnit ..⟩, rfl, rfl, rfl, fun _ => rfl, rfl⟩
      have h2 : Quiet site s1 s2 := by
        simp only [s2]
        split
        · exact ⟨⟨_, (Unit.marked_marks _).symm⟩, rfl, rfl, rfl, fun _ => rfl, rfl⟩
        · exact Quiet.refl site s1
      have h3 : Quiet site s2 s3 := ⟨⟨_, (Unit.marked_marks _).symm⟩, rfl, rfl, rfl, fun _ => rfl, rfl⟩
      have h4 : Quiet site s3 s4 := ⟨⟨_, (Unit.marked_marks _).symm⟩, rfl, rfl, rfl, State.frameTrims_modFrame s3 st _ _, rfl⟩
      have hmodes : s4.modes = s.modes := (((h1.trans h2).trans h3).trans h4).modes
      rw [hmodes, hfault]
      exact ((h1.trans h2).trans h3).trans h4

-- The issue.

theorem State.unit_issueState (s : State) (site : Site) (v : Machine.Unit) :
    ∃ m, (issueState s site v).unit site = ({ v with issuePc := ((s.unit site).pc, (s.unit site).group.pc) } : Machine.Unit).marked m := by
  unfold issueState
  extract_lets u
  have hset : (s.setUnit site u).unit site = u := State.unit_setUnit ..
  split
  · unfold State.unitOpens
    extract_lets x
    split
    · obtain ⟨m, hm⟩ := u.exists_openWindow
      refine ⟨m, ?_⟩
      rw [State.unit_setUnit, show x = u from hset, hm]
    · exact ⟨u.marks, hset⟩
  · exact ⟨u.marks, hset⟩

/-- The state in which the instruction at `pc` takes effect: its program counter has moved on. -/
def State.issued (s : State) (site : Site) (v : Machine.Unit) (pc : Nat) : State :=
  (issueState s site v).modUnit site (fun x => { x with pc := x.nextPc pc })

theorem State.unit_issued (s : State) (site : Site) (v : Machine.Unit) (pc : Nat) :
    ∃ m, (s.issued site v pc).unit site =
      ({ v with issuePc := ((s.unit site).pc, (s.unit site).group.pc), pc := v.nextPc pc } : Machine.Unit).marked m := by
  obtain ⟨m, hm⟩ := s.unit_issueState site v
  refine ⟨m, ?_⟩
  rw [State.issued, State.modUnit_eq, State.unit_setUnit, hm]
  rfl

/-- Only units differ. -/
theorem State.issued_eq (s : State) (site : Site) (v : Machine.Unit) (pc : Nat) : ∃ units, s.issued site v pc = { s with units := units } := by
  have h : ∃ units, issueState s site v = { s with units := units } := by
    unfold issueState State.unitOpens
    extract_lets u x
    split
    · split
      · exact ⟨_, rfl⟩
      · exact ⟨_, rfl⟩
    · exact ⟨_, rfl⟩
  obtain ⟨units, h⟩ := h
  rw [State.issued, h]
  exact ⟨_, rfl⟩

theorem State.modes_issued (s : State) (site : Site) (v : Machine.Unit) (pc : Nat) : (s.issued site v pc).modes = s.modes := by
  obtain ⟨units, h⟩ := s.issued_eq site v pc
  rw [h]

theorem State.epoch_issued (s : State) (site : Site) (v : Machine.Unit) (pc o : Nat) : (s.issued site v pc).epoch o = s.epoch o := by
  obtain ⟨units, h⟩ := s.issued_eq site v pc
  rw [h]
  rfl

/-- An instruction that issues: its effect, its cycles, and what a detection of a missed entry marks. -/
theorem Issues.effect {site : Site} {w : Waits} {pc word : Nat} {v : Machine.Unit} {op : Nat} {can : Machine.Unit → Nat → Bool}
    {cost : Nat → Nat} {act : State → Nat → State} (h : Issues s site w pc word v) (hop : fOp word = op) (hcan : can v word = true)
    (hmodes : (act (s.issued site v pc) word).modes = (s.issued site v pc).modes) :
    Quiet site ((act (s.issued site v pc) word).modUnit site (fun x => x.spend (cost word))) (s.issue site w op can cost act) := by
  obtain ⟨u, hmay, rfl, rfl, hbad, hbind, hv, hill, hlog⟩ := h
  unfold State.issue
  rw [hmay, if_neg (by simp)]
  extract_lets x g k
  rw [if_neg (by simp [hop, g, x, k, hbad]), show Unit.bindAll (needs g.waits) x = (none, u) from hbind]
  dsimp -zeta only
  extract_lets busy y s1 s2 s3 s4
  have hy : y = v := hv.symm
  rw [if_neg (by rw [hy, show v.illegal k g.word = false from hill, show can v g.word = true from hcan]; simp)]
  have h3 : s3 = s.issued site v (s.unit site).group.pc := by
    simp only [s3, s2, s1, hy]
    rfl
  have h4 : s4 = (act (s.issued site v (s.unit site).group.pc) (s.unit site).group.word).modUnit site
      (fun x => x.spend (cost (s.unit site).group.word)) := by
    simp only [s4, h3, g, x]
  have hquiet : (s4.modes.hazard && s4.modes.hazFault) = false := by
    rw [h4, State.modUnit_eq, State.modes_setUnit, hmodes, State.modes_issued]
    exact hlog
  rw [← h4]
  split
  · exact State.quiet_hazard hquiet _ _ _ _ _
  · exact Quiet.refl site s4

-- What the cycles and the marks leave.

theorem Unit.mem_spent (x : Machine.Unit) (n : Nat) (m : Marks) : ((x.spend n).marked m).mem = x.mem := rfl
theorem Unit.lanes_spent (x : Machine.Unit) (n : Nat) (m : Marks) : ((x.spend n).marked m).lanes = x.lanes := rfl
theorem Unit.pipe_spent (x : Machine.Unit) (n : Nat) (m : Marks) : ((x.spend n).marked m).pipe = x.pipe := rfl
theorem Unit.pend_spent (x : Machine.Unit) (n : Nat) (m : Marks) : ((x.spend n).marked m).pend = x.pend := rfl
theorem Unit.rowOut_spent (x : Machine.Unit) (n : Nat) (m : Marks) : ((x.spend n).marked m).rowOut = x.rowOut := rfl
theorem Unit.block_spent (x : Machine.Unit) (n : Nat) (m : Marks) : ((x.spend n).marked m).block = x.block := rfl
theorem Unit.drain_spent (x : Machine.Unit) (n : Nat) (m : Marks) : ((x.spend n).marked m).drain = x.drain := rfl
theorem Unit.wp_spent (x : Machine.Unit) (n : Nat) (m : Marks) : ((x.spend n).marked m).wp = x.wp := rfl
theorem Unit.rot_spent (x : Machine.Unit) (n : Nat) (m : Marks) : ((x.spend n).marked m).rot = x.rot := rfl
theorem Unit.tacc_spent (x : Machine.Unit) (n : Nat) (m : Marks) : ((x.spend n).marked m).tacc = x.tacc := rfl
theorem Unit.dirs_spent (x : Machine.Unit) (n : Nat) (m : Marks) : ((x.spend n).marked m).dirs = x.dirs := rfl
theorem Unit.bankA_spent (x : Machine.Unit) (n : Nat) (m : Marks) : ((x.spend n).marked m).bankA = x.bankA := rfl

/-- The unit as an instruction's effect `x` leaves it, its cycles spent. -/
theorem Issues.unit_issue {site : Site} {w : Waits} {pc word : Nat} {v x : Machine.Unit} {op : Nat} {can : Machine.Unit → Nat → Bool}
    {cost : Nat → Nat} {act : State → Nat → State} (h : Issues s site w pc word v) (hop : fOp word = op) (hcan : can v word = true)
    (hmodes : (act (s.issued site v pc) word).modes = (s.issued site v pc).modes) (hact : (act (s.issued site v pc) word).unit site = x) :
    ∃ m, (s.issue site w op can cost act).unit site = (x.spend (cost word)).marked m := by
  obtain ⟨m, hm⟩ := (Issues.effect (cost := cost) h hop hcan hmodes).unit
  refine ⟨m, hm.trans ?_⟩
  rw [State.modUnit_eq, State.unit_setUnit, hact]

/-- An effect that leaves the course of the program to the issue. -/
theorem Issues.goesOn {site : Site} {w : Waits} {pc word : Nat} {v x : Machine.Unit} {op : Nat} {can : Machine.Unit → Nat → Bool}
    {cost : Nat → Nat} {act : State → Nat → State} (h : Issues s site w pc word v) (hop : fOp word = op) (hcan : can v word = true)
    (hmodes : (act (s.issued site v pc) word).modes = (s.issued site v pc).modes) (hact : (act (s.issued site v pc) word).unit site = x)
    (hpc : x.pc = v.nextPc pc) (hactive : x.active = v.active) (hcyc : x.cyc = v.cyc) :
    GoesOn v ((s.issue site w op can cost act).unit site) pc (cost word) ∧
      ∃ m, (s.issue site w op can cost act).unit site = (x.spend (cost word)).marked m := by
  obtain ⟨m, hm⟩ := Issues.unit_issue (cost := cost) h hop hcan hmodes hact
  refine ⟨⟨?_, ?_, ?_⟩, m, hm⟩
  · rw [hm]; exact hpc
  · rw [hm]; exact congrArg (· + BitVec.ofNat 64 (cost word)) hactive
  · rw [hm]; exact congrArg (· + cost word) hcyc

-- Effects that read a register or take an entry.

theorem State.quiet_rawCheck {site : Nat} (hlog : (s.modes.hazard && s.modes.hazFault) = false) (lo at_ : Nat) (cs : List Nat) :
    Quiet site s (s.rawCheck site lo at_ cs) := by
  unfold State.rawCheck
  split
  · exact State.quiet_hazard hlog _ _ _ _ _
  · exact Quiet.refl site s

theorem Issues.log {site : Site} {w : Waits} {pc word : Nat} {v : Machine.Unit} (h : Issues s site w pc word v) :
    (s.modes.hazard && s.modes.hazFault) = false := by
  obtain ⟨u, -, -, -, -, -, -, -, hlog⟩ := h
  exact hlog

theorem Issues.log_issued {site : Site} {w : Waits} {pc word : Nat} {v : Machine.Unit} (h : Issues s site w pc word v) :
    ((s.issued site v pc).modes.hazard && (s.issued site v pc).modes.hazFault) = false := by
  rw [s.modes_issued]
  exact Issues.log h

/-- The unit of a bound entry that is taken: the entry leaves its queue, what it owes is noted, and the queue may no longer skid. -/
def Unit.took (u : Machine.Unit) (q : Nat) (e : QEnt) : Machine.Unit :=
  ({ u with queues := Tab.set u.queues q ((Tab.get [] u.queues q).eraseP (fun x => x.bound)) }.owe e).relax

theorem State.removeQ_of_data {site q : Nat} {e : QEnt} (hbound : (s.unit site).bound q = some e) (hkind : flitKind e.flit ≠ kEof) :
    s.removeQ site q = s.setUnit site ((s.unit site).took q e) := by
  simp [State.removeQ, hbound, hkind, Unit.took]

theorem Unit.owe_eq (u : Machine.Unit) (e : QEnt) : ∃ backs, u.owe e = { u with backs := backs } := by
  obtain ⟨backs, h⟩ := Unit.owe_fold [e] u
  exact ⟨backs, h⟩

theorem Unit.took_eq (u : Machine.Unit) (q : Nat) (e : QEnt) : ∃ backs skidding, u.took q e =
    { u with queues := Tab.set u.queues q ((Tab.get [] u.queues q).eraseP (fun x => x.bound)), backs := backs, skidding := skidding } := by
  obtain ⟨backs, h⟩ := Unit.owe_eq { u with queues := Tab.set u.queues q ((Tab.get [] u.queues q).eraseP (fun x => x.bound)) } e
  exact ⟨backs, _, by rw [Unit.took, h]; rfl⟩

/-- What the use of a queue's bound entry can leave of a unit: its queues, what it owes and its skids; after an end of frame more. -/
theorem State.useQ_of_data {site q : Nat} {e : QEnt} (hbound : (s.unit site).bound q = some e) (hkind : flitKind e.flit ≠ kEof) :
    (s.useQ site q).modes = s.modes ∧ ∃ queues backs skidding, (s.useQ site q).unit site =
      { s.unit site with queues := queues, backs := backs, skidding := skidding } := by
  unfold State.useQ
  rw [hbound]
  dsimp only
  split
  · exact ⟨rfl, (s.unit site).queues, (s.unit site).backs, (s.unit site).skidding, rfl⟩
  · obtain ⟨backs, skidding, h⟩ := (s.unit site).took_eq q e
    rw [State.removeQ_of_data hbound hkind, h]
    exact ⟨rfl, _, backs, skidding, State.unit_setUnit ..⟩

-- What the use of queues leaves of a unit, whatever the entries are.

/-- The parts of a unit that no use of a queue changes: its course, its results in flight, its memory, its lanes and its blocks. -/
structure Unit.Used (u v : Machine.Unit) : Prop where
  pc : v.pc = u.pc
  active : v.active = u.active
  cyc : v.cyc = u.cyc
  pend : v.pend = u.pend
  mem : v.mem = u.mem
  lanes : v.lanes = u.lanes
  pipe : v.pipe = u.pipe
  rowOut : v.rowOut = u.rowOut
  block : v.block = u.block
  drain : v.drain = u.drain
  wp : v.wp = u.wp
  c0 : v.c0 = u.c0
  rot : v.rot = u.rot
  tacc : v.tacc = u.tacc
  side : v.side = u.side

namespace Unit.Used
variable {u v x : Machine.Unit}

theorem refl (u : Machine.Unit) : Unit.Used u u := by constructor <;> rfl

theorem trans (h : Unit.Used u v) (h' : Unit.Used v x) : Unit.Used u x :=
  ⟨h'.pc.trans h.pc, h'.active.trans h.active, h'.cyc.trans h.cyc, h'.pend.trans h.pend, h'.mem.trans h.mem, h'.lanes.trans h.lanes,
    h'.pipe.trans h.pipe, h'.rowOut.trans h.rowOut, h'.block.trans h.block, h'.drain.trans h.drain, h'.wp.trans h.wp, h'.c0.trans h.c0,
    h'.rot.trans h.rot, h'.tacc.trans h.tacc, h'.side.trans h.side⟩

theorem marked (u : Machine.Unit) (m : Marks) : Unit.Used u (u.marked m) := by constructor <;> rfl

theorem writeReg (u : Machine.Unit) (r : RegRef) (lo : Nat) (v : List Nat) : Unit.Used u (u.writeReg r lo v) := by
  cases r <;> constructor <;> rfl

theorem took (u : Machine.Unit) (q : Nat) (e : QEnt) : Unit.Used u (u.took q e) := by
  obtain ⟨backs, skidding, h⟩ := u.took_eq q e
  rw [h]
  constructor <;> rfl

theorem closeGap (u : Machine.Unit) (q : Nat) : Unit.Used u (u.closeGap q) := by
  unfold Unit.closeGap
  extract_lets n seen sum gap b u1
  split
  · constructor <;> rfl
  · have hb : Unit.Used u u1 := by constructor <;> rfl
    clear_value u1
    split
    · exact hb
    · split
      · exact hb.trans (writeReg _ _ _ _)
      · exact hb.trans (writeReg _ _ _ _)

end Unit.Used

theorem State.used_endFrameAt {site : Nat} (hlog : (s.modes.hazard && s.modes.hazFault) = false) (q : Nat) (f : Flit) :
    (s.endFrameAt site q f).modes = s.modes ∧ Unit.Used (s.unit site) ((s.endFrameAt site q f).unit site) := by
  unfold State.endFrameAt
  extract_lets u st f8 left k c u1 u2 s1
  have h1 : Unit.Used u u1 := by constructor <;> rfl
  have h2 : Unit.Used u1 u2 := by
    simp only [u2]
    split
    · exact Unit.Used.closeGap u1 q
    · exact Unit.Used.refl u1
  have hs1 : s1.unit site = u2 := State.unit_setUnit ..
  split
  · have hquiet : Quiet site s1 (s1.hazard site 4 st f8 (flitLine f) (some u2.issuePc.1)) :=
      State.quiet_hazard (s := s1) hlog _ _ _ _ _
    obtain ⟨m, hm⟩ := hquiet.unit
    refine ⟨hquiet.modes, ?_⟩
    rw [hm, hs1]
    exact (h1.trans h2).trans (Unit.Used.marked u2 m)
  · exact ⟨rfl, hs1 ▸ h1.trans h2⟩

theorem State.used_removeQ {site : Nat} (hlog : (s.modes.hazard && s.modes.hazFault) = false) (q : Nat) :
    (s.removeQ site q).modes = s.modes ∧ Unit.Used (s.unit site) ((s.removeQ site q).unit site) := by
  unfold State.removeQ
  extract_lets u
  split
  · exact ⟨rfl, Unit.Used.refl _⟩
  · next e he =>
    extract_lets s1
    have h1 : Unit.Used u (s1.unit site) := by
      rw [show s1.unit site = u.took q e from State.unit_setUnit ..]
      exact Unit.Used.took u q e
    split
    · obtain ⟨hmodes, hused⟩ := State.used_endFrameAt (s := s1) (site := site) hlog q e.flit
      exact ⟨hmodes, h1.trans hused⟩
    · exact ⟨rfl, h1⟩

theorem State.used_useQ {site : Nat} (hlog : (s.modes.hazard && s.modes.hazFault) = false) (q : Nat) :
    (s.useQ site q).modes = s.modes ∧ Unit.Used (s.unit site) ((s.useQ site q).unit site) := by
  unfold State.useQ
  split
  · split
    · exact ⟨rfl, Unit.Used.refl _⟩
    · exact State.used_removeQ hlog q
  · exact ⟨rfl, Unit.Used.refl _⟩

theorem State.used_useCodes {site : Nat} (hlog : (s.modes.hazard && s.modes.hazFault) = false) (cs : List Nat) :
    (s.useCodes site cs).modes = s.modes ∧ Unit.Used (s.unit site) ((s.useCodes site cs).unit site) := by
  unfold State.useCodes
  induction codeQueues cs generalizing s with
  | nil => exact ⟨rfl, Unit.Used.refl _⟩
  | cons q l ih =>
    obtain ⟨hmodes, hused⟩ := State.used_useQ (site := site) hlog q
    obtain ⟨hmodes', hused'⟩ := ih (s := s.useQ site q) (by rw [hmodes]; exact hlog)
    exact ⟨hmodes'.trans hmodes, hused.trans hused'⟩

-- The registers of a V-unit, as the results in flight reach them (R263).

theorem Unit.writeReg_congr {u v : Machine.Unit} (r : RegRef) (lo : Nat) (l : List Nat) (hh : v.h = u.h) (hz : v.z = u.z) :
    (v.writeReg r lo l).h = (u.writeReg r lo l).h ∧ (v.writeReg r lo l).z = (u.writeReg r lo l).z := by
  cases r <;> simp [Unit.writeReg, hh, hz]

/-- What the registers hold at a time depends on the registers and on the results in flight alone. -/
theorem Unit.settle_congr {u v : Machine.Unit} (hh : v.h = u.h) (hz : v.z = u.z) (hpend : v.pend = u.pend) (at_ : Nat) :
    (v.settle at_).h = (u.settle at_).h ∧ (v.settle at_).z = (u.settle at_).z := by
  have hfold : ∀ (l : List PendW) (a b : Machine.Unit), b.h = a.h → b.z = a.z →
      (l.foldl (fun v p => v.writeReg p.reg p.lo p.vals) b).h = (l.foldl (fun v p => v.writeReg p.reg p.lo p.vals) a).h ∧
      (l.foldl (fun v p => v.writeReg p.reg p.lo p.vals) b).z = (l.foldl (fun v p => v.writeReg p.reg p.lo p.vals) a).z := by
    intro l
    induction l with
    | nil => exact fun a b ha hb => ⟨ha, hb⟩
    | cons p l ih =>
      intro a b ha hb
      refine ih _ _ ?_ ?_
      · exact (Unit.writeReg_congr p.reg p.lo p.vals ha hb).1
      · exact (Unit.writeReg_congr p.reg p.lo p.vals ha hb).2
  simp only [Unit.settle, hpend]
  exact hfold _ u v hh hz

end Sys2Proof.Machine

/-! NOP, SYNC, LOOP, ENDL, POP and PUSH of unit programs (R264-R266, R273, R274). -/

namespace Sys2Proof.Machine
set_option Elab.async false
variable {s t : State}

theorem Unit.endLoop_of_more {u : Machine.Unit} {l : Nat} {m : List Nat} {c : Loop} (hl : u.loops = l :: m)
    (hc : Tab.get { index := 0, count := 0, start := 0, finish := 0 } u.lc l = c) (hmore : c.count = 0 ∨ c.index + 1 < c.count) :
    u.endLoop = { u with lc := Tab.set u.lc l { c with index := (c.index + 1) % 65536 }, pc := c.start } := by
  simp [Unit.endLoop, hl, hc, hmore]

theorem Unit.endLoop_of_last {u : Machine.Unit} {l : Nat} {m : List Nat} {c : Loop} (hl : u.loops = l :: m)
    (hc : Tab.get { index := 0, count := 0, start := 0, finish := 0 } u.lc l = c) (hlast : ¬(c.count = 0 ∨ c.index + 1 < c.count)) :
    u.endLoop = { u with loops := m } := by
  simp [Unit.endLoop, hl, hc, hlast]

theorem maskQueues_one {q : Nat} (hq : q < 3) : maskQueues (2 ^ q) = [q] := by
  interval_cases q <;> rfl

theorem kData_ne_kEof : kData ≠ kEof := by decide

theorem Unit.readQ_of_bound {u : Machine.Unit} {q : Nat} {e : QEnt} (h : u.bound q = some e) : u.readQ q = e.flit := by
  simp [Unit.readQ, h]

/-- The window sequence that PUSH queues for a generator (R266). -/
def Unit.winSeq (u : Machine.Unit) (w : Nat) : GenSeq :=
  { wd := bits w 40 3, kd := bits w 36 4, nchunk := bits w 28 8, half := fFlag w 1, stream := u.cur.stream, fseq := u.cur.fseq
    line := (u.key (bits w 36 4)).1.getD 0, chunk := (u.key (bits w 36 4)).2.2.getD 0, at_ := u.cyc + 3 }

/-- PUSH of a bound data entry sends it on with its own key (R266). -/
theorem State.pushValue_of_data {site q : Nat} {e : QEnt} {east : Bool} (hlog : (s.modes.hazard && s.modes.hazFault) = false) (hq : q < 3)
    (hbound : (s.unit site).bound q = some e) (hkind : flitKind e.flit = kData) :
    (s.pushValue site (8 + q) east).modes = s.modes ∧ ∃ m queues backs skidding, (s.pushValue site (8 + q) east).unit site =
      ({ s.unit site with
          side := (s.unit site).side ++ [(east, mkFlit kData (s.unit site).cur.stream (s.unit site).cur.fseq (flitLine e.flit) (flitChan e.flit)
            (flitChunk e.flit) (s.epoch (s.unit site).owner) e.flit.pay)]
          queues := queues, backs := backs, skidding := skidding } : Machine.Unit).marked m := by
  unfold State.pushValue
  extract_lets u s1 f s2
  have hquiet : Quiet site s s1 := State.quiet_rawCheck hlog _ _ _
  obtain ⟨m, hm⟩ := hquiet.unit
  have hb1 : (s1.unit site).bound q = some e := by rw [hm]; exact hbound
  have hf : f = e.flit := Unit.readQ_of_bound (by rw [show 8 + q - 8 = q by omega]; exact hbound)
  rw [if_pos (by simp; omega), show 8 + q - 8 = q by omega]
  have hs2 : s2 = s1.toSide site east (mkFlit kData u.cur.stream u.cur.fseq (flitLine e.flit) (flitChan e.flit) (flitChunk e.flit)
      (s1.epoch u.owner) e.flit.pay) := by
    simp only [s2, hf, hkind]
    rw [if_neg (by decide)]
  have hepoch : s1.epoch u.owner = s.epoch u.owner := congrArg (fun t => Tab.get 0 t u.owner) hquiet.epochs
  have hu2 : s2.unit site = { s1.unit site with side := (s1.unit site).side ++ [(east, mkFlit kData u.cur.stream u.cur.fseq (flitLine e.flit)
      (flitChan e.flit) (flitChunk e.flit) (s.epoch u.owner) e.flit.pay)] } := by
    rw [hs2, hepoch]
    exact State.unit_setUnit ..
  have hb2 : (s2.unit site).bound q = some e := by rw [hu2]; exact hb1
  obtain ⟨hmodes, queues, backs, skidding, huse⟩ := State.useQ_of_data hb2 (hkind ▸ kData_ne_kEof)
  refine ⟨?_, m, queues, backs, skidding, ?_⟩
  · rw [hmodes, hs2]
    exact hquiet.modes
  · rw [huse, hu2, hm]
    rfl

/-- Settles O25. -/
theorem programsRunAndQueuesPop : Obligations.ProgramsRunAndQueuesPop := by
  unfold Obligations.ProgramsRunAndQueuesPop
  refine ⟨⟨fun site w pc word v s h hop => ?_, fun site w pc word v s h hop hsync => ?_, fun site w pc word v s h hop => ?_,
    fun site w pc word l m c v s h hop hl hc => ?_⟩, fun site w pc word q e v s h hop hq hmask hbound hkind => ?_,
    fun site w pc word q e v s h hop hsrc hq hflag hbound hkind => ?_, fun site w pc word g v s h hop hflag hg hroom => ?_⟩
  all_goals obtain ⟨a, hissued⟩ := s.unit_issued site v pc
  · obtain ⟨hgo, b, hx⟩ := Issues.goesOn (cost := fun w => bits w 0 16 + 1) (act := fun s _ => s) (can := always) h hop rfl rfl hissued rfl rfl rfl
    exact ⟨_, rfl, hgo, by rw [hx]; rfl⟩
  · obtain ⟨hgo, b, hx⟩ := Issues.goesOn (cost := fun _ => 1) (act := fun s _ => s) (can := Unit.synced) h hop hsync rfl hissued rfl rfl rfl
    exact ⟨_, rfl, hgo, by rw [hx]; rfl⟩
  · obtain ⟨hgo, b, hx⟩ := Issues.goesOn (cost := fun _ => 1) (act := fun s w => s.modUnit site (fun u => u.openLoop w)) (can := always) h hop rfl rfl
      (State.unit_setUnit ..) (by rw [hissued]; rfl) (by rw [hissued]; rfl) (by rw [hissued]; rfl)
    rw [hissued] at hx
    exact ⟨_, rfl, hgo, congrArg Machine.Unit.loops hx, congrArg Machine.Unit.lc hx⟩
  · obtain ⟨b, hx⟩ := Issues.unit_issue (cost := fun _ => 0) (act := fun s _ => s.modUnit site Unit.endLoop) (can := always) h hop rfl rfl
      (State.unit_setUnit ..)
    have hl' : ((s.issued site v pc).unit site).loops = l :: m := by rw [hissued]; exact hl
    have hc' : Tab.get { index := 0, count := 0, start := 0, finish := 0 } ((s.issued site v pc).unit site).lc l = c := by rw [hissued]; exact hc
    refine ⟨_, rfl, ?_⟩
    by_cases hmore : c.count = 0 ∨ c.index + 1 < c.count
    · rw [Unit.endLoop_of_more hl' hc' hmore, hissued] at hx
      rw [hx, if_pos hmore]
      exact ⟨BitVec.add_zero _, rfl, rfl, congrArg Loop.index (Tab.get_set_same ..)⟩
    · rw [Unit.endLoop_of_last hl' hc' hmore, hissued] at hx
      rw [hx, if_neg hmore]
      exact ⟨BitVec.add_zero _, rfl, rfl⟩
  · have hbound' : ((s.issued site v pc).unit site).bound q = some e := by rw [hissued]; exact hbound
    have htake : (maskQueues (bits word 45 3)).foldl (fun s q => s.removeQ site q) (s.issued site v pc) =
        (s.issued site v pc).setUnit site (((s.issued site v pc).unit site).took q e) := by
      rw [hmask, maskQueues_one hq]
      exact State.removeQ_of_data hbound' hkind
    obtain ⟨backs, skidding, htook⟩ := ((s.issued site v pc).unit site).took_eq q e
    rw [htook, hissued] at htake
    obtain ⟨hgo, b, hx⟩ := Issues.goesOn (cost := fun _ => 1) (act := fun s w => (maskQueues (bits w 45 3)).foldl (fun s q => s.removeQ site q) s)
      (can := always) h hop rfl ((congrArg State.modes htake).trans rfl)
      ((congrArg (fun r : State => r.unit site) htake).trans (State.unit_setUnit ..)) rfl rfl rfl
    refine ⟨_, rfl, hgo, ?_⟩
    rw [hx]
    exact Tab.get_set_same ..
  · have hbound' : ((s.issued site v pc).unit site).bound q = some e := by rw [hissued]; exact hbound
    obtain ⟨hmodes, m, queues, backs, skidding, hpush⟩ :=
      State.pushValue_of_data (east := bit word 47) (Issues.log_issued h) hq hbound' hkind
    have hact : (if fFlag word 0 then (s.issued site v pc).modUnit site (fun u => u.pushWin word)
        else (s.issued site v pc).pushValue site (bits word 43 4) (bit word 47)) = (s.issued site v pc).pushValue site (8 + q) (bit word 47) := by
      rw [hflag, hsrc]
      rfl
    rw [hissued] at hpush
    obtain ⟨hgo, b, hx⟩ := Issues.goesOn (cost := fun _ => 1)
      (act := fun s w => if fFlag w 0 then s.modUnit site (fun u => u.pushWin w) else s.pushValue site (bits w 43 4) (bit w 47))
      (can := fun u w => !fFlag w 0 || decide ((Tab.get [] u.gens (if bit w 47 then 1 else 0)).length < 2))
      h hop (by simp [hflag]) ((congrArg State.modes hact).trans hmodes) ((congrArg (fun r : State => r.unit site) hact).trans hpush) rfl rfl rfl
    exact ⟨_, rfl, hgo, by rw [hx, State.epoch_issued]; rfl⟩
  · subst hg
    have hact : (if fFlag word 0 then (s.issued site v pc).modUnit site (fun u => u.pushWin word)
        else (s.issued site v pc).pushValue site (bits word 43 4) (bit word 47)) = (s.issued site v pc).modUnit site (fun u => u.pushWin word) := by
      rw [hflag]
      rfl
    obtain ⟨hgo, b, hx⟩ := Issues.goesOn (cost := fun _ => 1)
      (act := fun s w => if fFlag w 0 then s.modUnit site (fun u => u.pushWin w) else s.pushValue site (bits w 43 4) (bit w 47))
      (can := fun u w => !fFlag w 0 || decide ((Tab.get [] u.gens (if bit w 47 then 1 else 0)).length < 2))
      h hop (by simp [hroom]) ((congrArg State.modes hact).trans rfl)
      ((congrArg (fun r : State => r.unit site) hact).trans (State.unit_setUnit ..)) (by rw [hissued]; rfl) (by rw [hissued]; rfl) (by rw [hissued]; rfl)
    rw [hissued] at hx
    refine ⟨_, v.winSeq word, rfl, hgo, ?_, rfl, rfl, rfl, rfl, rfl, rfl⟩
    rw [hx]
    exact Tab.get_set_same ..

end Sys2Proof.Machine

/-! MOV of unit programs (R257, R266). -/

namespace Sys2Proof.Machine
set_option Elab.async false
variable {s t : State}

-- Stores into a gill (R256): they do not look at the program's course, and leave the cycle.

/-- A unit with another course: its program counters, active cycles and marks. -/
def Unit.onCourse (u : Machine.Unit) (pc : Nat) (ip : Nat × Nat) (active : BitVec 64) (m : Marks) : Machine.Unit :=
  ({ u with pc := pc, issuePc := ip, active := active } : Machine.Unit).marked m

section Course
variable (u : Machine.Unit) (pc : Nat) (ip : Nat × Nat) (active : BitVec 64) (m : Marks)

theorem Unit.portUse_onCourse (n at_ rank : Nat) (banks : List Nat) :
    Unit.portUse n (u.onCourse pc ip active m) at_ rank banks =
      ((Unit.portUse n u at_ rank banks).1.onCourse pc ip active m, (Unit.portUse n u at_ rank banks).2) := by
  induction n generalizing u at_ with
  | zero => rfl
  | succ n ih =>
    simp only [Unit.portUse]
    rw [show (u.onCourse pc ip active m).port = u.port from rfl]
    split
    · exact ih { u with bankConf := sat32 u.bankConf 1 } (at_ + 1)
    · have hfold := List.foldl_hom (fun u : Machine.Unit => u.onCourse pc ip active m)
        (g₁ := fun u g => { u with bankConf := sat32 u.bankConf 1, gens := Tab.set u.gens g (slipGen (Tab.get [] u.gens g)) })
        (g₂ := fun u g => { u with bankConf := sat32 u.bankConf 1, gens := Tab.set u.gens g (slipGen (Tab.get [] u.gens g)) })
        (l := (((u.port.filter (fun e : Nat × Nat × Nat => e.1 == at_ && banks.contains e.2.1)).filter (fun e => decide (e.2.2 < rank))).map
          (fun e => e.2.2)).eraseDups) (init := u) (fun _ _ => rfl)
      rw [hfold]
      rfl

theorem Unit.place_onCourse (w : Nat) (x : BitVec 256) : (u.onCourse pc ip active m).place w x = (u.place w x).onCourse pc ip active m := by
  unfold Unit.place
  rfl

theorem Unit.store_onCourse (w : Nat) (x : BitVec 256) : (u.onCourse pc ip active m).store w x = (u.store w x).onCourse pc ip active m := by
  simp only [Unit.store]
  rw [show (u.onCourse pc ip active m).writeAt = u.writeAt from rfl, show (u.onCourse pc ip active m).bankOf (w % 16384) = u.bankOf (w % 16384) from rfl,
    Unit.portUse_onCourse]
  exact Unit.place_onCourse _ pc ip active m w x

theorem Unit.storeCodes_onCourse (seg col : Nat) (codes : List Nat) :
    (u.onCourse pc ip active m).storeCodes seg col codes = (u.storeCodes seg col codes).onCourse pc ip active m := by
  unfold Unit.storeCodes
  refine List.foldl_hom (fun u : Machine.Unit => u.onCourse pc ip active m) (fun u i => ?_)
  exact Unit.store_onCourse u pc ip active m _ _

theorem Unit.storeCols_onCourse (g : GillDesc) (seg col : Nat) (codes : List Nat) :
    (u.onCourse pc ip active m).storeCols g seg col codes = (u.storeCols g seg col codes).onCourse pc ip active m := by
  unfold Unit.storeCols
  split
  · simp only [Unit.storeCodes_onCourse]
  · exact Unit.storeCodes_onCourse u pc ip active m _ _ _

theorem Unit.storeGill_onCourse (gd q : Nat) (f : Flit) :
    (u.onCourse pc ip active m).storeGill gd q f = (u.storeGill gd q f).onCourse pc ip active m := by
  unfold Unit.storeGill
  extract_lets g y seg c u1 a fit n first same held pair p g' y' seg' u1' fit' n' first' same' held' pair' p'
  have hp : p = p' := rfl
  have hpair : pair = pair'.onCourse pc ip active m := rfl
  have hheld : held = held'.onCourse pc ip active m := rfl
  have hsame : same = same' := rfl
  have hfirst : first = first' := rfl
  have hn : n = n' := rfl
  have hfit : fit = fit' := rfl
  have hu : u1 = u1'.onCourse pc ip active m := rfl
  have hseg : seg = seg' := rfl
  have hg : g = g' := rfl
  clear_value p pair held same first n fit u1 seg g
  subst hp hpair hheld hsame hfirst hn hfit hu hseg hg
  split_ifs
  · exact Unit.storeCols_onCourse ..
  · exact Unit.storeCols_onCourse ..
  · rfl
  · exact Unit.storeCols_onCourse ..
  · rfl
  · exact Unit.storeCodes_onCourse ..
  · rfl
  · exact Unit.storeCodes_onCourse ..

end Course

theorem Unit.cyc_portUse (n : Nat) (u : Machine.Unit) (at_ rank : Nat) (banks : List Nat) : (Unit.portUse n u at_ rank banks).1.cyc = u.cyc := by
  induction n generalizing u at_ with
  | zero => rfl
  | succ n ih =>
    simp only [Unit.portUse]
    split
    · exact ih _ _
    · exact List.foldlRecOn (motive := fun x : Machine.Unit => x.cyc = u.cyc) _ _ rfl fun x hx g _ => hx

theorem Unit.cyc_storeCodes (u : Machine.Unit) (seg col : Nat) (codes : List Nat) : (u.storeCodes seg col codes).cyc = u.cyc := by
  refine List.foldlRecOn (motive := fun x : Machine.Unit => x.cyc = u.cyc) _ _ rfl fun x hx i _ => ?_
  exact (Unit.cyc_portUse 8 x _ 2 _).trans hx

theorem Unit.cyc_storeCols (u : Machine.Unit) (g : GillDesc) (seg col : Nat) (codes : List Nat) : (u.storeCols g seg col codes).cyc = u.cyc := by
  unfold Unit.storeCols
  split
  · exact (Unit.cyc_storeCodes ..).trans (Unit.cyc_storeCodes ..)
  · exact Unit.cyc_storeCodes ..

theorem Unit.cyc_storeGill (u : Machine.Unit) (gd q : Nat) (f : Flit) : (u.storeGill gd q f).cyc = u.cyc := by
  unfold Unit.storeGill
  extract_lets g y seg c u1 a fit n first same held pair p
  split_ifs
  · exact Unit.cyc_storeCols ..
  · exact Unit.cyc_storeCols ..
  · rfl
  · exact Unit.cyc_storeCols ..
  · rfl
  · exact Unit.cyc_storeCodes ..
  · rfl
  · exact Unit.cyc_storeCodes ..

-- Moves of a vector register (R257).

theorem setLanes_whole {old v : List Nat} (hv : v.length = 64) {i : Nat} (hi : i < 64) : (setLanes old 0 v).getD i 0 = v.getD i 0 := by
  simp [setLanes, List.getD_eq_getElem?_getD, hi, hv]

theorem State.src32_of_vector (s : State) (site lo at_ : Nat) {c : Nat} (hc : c < 8) :
    s.src32 site c lo at_ = (List.range 32).map (fun i => to32 ((Tab.get [] ((s.unit site).settle at_).h c).getD (lo + i) 0)) := by
  simp [State.src32, hc]

theorem vector_lanes (l : List Nat) {i : Nat} (hi : i < 64) :
    ((((List.range 32).map (fun j => to32 (l.getD (0 + j) 0)) ++ (List.range 32).map (fun j => to32 (l.getD (32 + j) 0))).map to16)).getD i 0 =
      to16 (to32 (l.getD i 0)) := by
  simp only [List.getD_eq_getElem?_getD, List.getElem?_map]
  by_cases h : i < 32
  · rw [List.getElem?_append_left (by simpa using h)]
    simp [h]
  · rw [List.getElem?_append_right (by simpa using h)]
    have hlt : i - 32 < 32 := by omega
    simp [hlt, show 32 + (i - 32) = i by omega]

/-- A vector register is copied whole, as its lanes stand at the issue cycle. -/
theorem State.movV_of_vectors {site dst src : Nat} (hlog : (s.modes.hazard && s.modes.hazFault) = false) (hdst : dst < 8) (hsrc : src < 8) :
    (s.movV site dst src).modes = s.modes ∧ ∃ x m, (s.movV site dst src).unit site = ({ s.unit site with h := Tab.set (s.unit site).h dst x } : Machine.Unit).marked m ∧
      ∀ i < 64, x.getD i 0 = to16 (to32 ((Tab.get [] ((s.unit site).settle (s.unit site).cyc).h src).getD i 0)) := by
  unfold State.movV
  extract_lets u at_ s1 s2 lo c hi v s3
  have h1 : Quiet site s s1 := State.quiet_rawCheck hlog _ _ _
  have h2 : Quiet site s1 s2 := by
    simp only [s2]
    split
    · exact Quiet.refl site s1
    · exact State.quiet_rawCheck (h1.modes ▸ hlog) _ _ _
  obtain ⟨m, hm⟩ := (h1.trans h2).unit
  have hregs : ((s2.unit site).settle at_).h = (u.settle at_).h := by
    rw [hm]
    exact (Unit.settle_congr (u := s.unit site) (v := (s.unit site).marked m) rfl rfl rfl at_).1
  have hlo : lo = (List.range 32).map (fun i => to32 ((Tab.get [] (u.settle at_).h src).getD (0 + i) 0)) := by
    rw [← hregs]
    exact State.src32_of_vector s2 site 0 at_ hsrc
  have hhi : hi = (List.range 32).map (fun i => to32 ((Tab.get [] (u.settle at_).h src).getD (32 + i) 0)) := by
    rw [← hregs]
    simp only [hi]
    rw [if_neg (by simp; omega)]
    exact State.src32_of_vector s2 site 32 at_ hsrc
  have hs3 : s3 = s2.modUnit site (fun u => u.writeReg (.h dst) 0 (v.map to16)) := by
    simp only [s3]
    rw [if_neg (by omega)]
    simp only [hdst, if_true]
  have hcodes : s3.useCodes site [src] = s3 := by
    simp [State.useCodes, codeQueues, show ¬8 ≤ src by omega]
  rw [hcodes, hs3]
  refine ⟨(h1.trans h2).modes, setLanes (Tab.get [] u.h dst) 0 (v.map to16), m, ?_, fun i hi64 => ?_⟩
  · rw [State.modUnit_eq, State.unit_setUnit, hm]
    rfl
  · rw [setLanes_whole (by simp [v, hlo, hhi]) hi64]
    simp only [v, hlo, hhi]
    exact vector_lanes _ hi64

/-- MOV of a bound entry to a gill (R256). -/
theorem State.movStore_of_gill {site w q : Nat} (hlog : (s.modes.hazard && s.modes.hazFault) = false) (hkind : kindOf site = .s)
    (hq : (s.unit site).boundQ = some q) :
    (s.movStore site w).modes = s.modes ∧
      Unit.Used ((s.unit site).storeGill (bits w 43 3) q ((s.unit site).readQ q)) ((s.movStore site w).unit site) := by
  unfold State.movStore
  extract_lets u
  rw [show u.boundQ = some q from hq]
  dsimp -zeta only
  extract_lets f c s1
  have h1 : s1 = s.setUnit site (u.storeGill (bits w 43 3) q f) := by
    simp only [s1]
    rw [if_pos hkind]
  obtain ⟨hmodes, hused⟩ := State.used_useQ (s := s1) (site := site) (by rw [h1]; exact hlog) q
  rw [h1, State.unit_setUnit] at hused
  rw [h1] at hmodes ⊢
  exact ⟨hmodes, hused⟩

/-- Settles O26. -/
theorem moves : Obligations.Moves := by
  unfold Obligations.Moves
  refine ⟨fun site w pc word v s h hop hsel => ?_, fun site w pc word v s h hop hsel => ?_, fun site w pc word v s h hop hsel hkind hdst hsrc => ?_,
    fun site w pc word q v s h hop hsel hkind hq => ?_⟩
  all_goals obtain ⟨a, hissued⟩ := s.unit_issued site v pc
  · have hact : (s.issued site v pc).mov site word = (s.issued site v pc).modUnit site
        (fun u => { u with x := Tab.set u.x (bits word 42 4) (BitVec.ofNat 32 (bits word 0 32)) }) := by
      simp only [State.mov, hsel]
    obtain ⟨hgo, b, hx⟩ := Issues.goesOn (cost := fun _ => 1) (act := fun s w => s.mov site w) (can := always) h hop rfl
      ((congrArg State.modes hact).trans rfl) ((congrArg (fun r : State => r.unit site) hact).trans (State.unit_setUnit ..))
      (by rw [hissued]; rfl) (by rw [hissued]; rfl) (by rw [hissued]; rfl)
    rw [hissued] at hx
    exact ⟨_, rfl, hgo, by rw [hx]; rfl⟩
  · have hact : (s.issued site v pc).mov site word = (s.issued site v pc).modUnit site
        (fun u => { u with x := Tab.set u.x (bits word 42 4) (Tab.get 0 u.x (bits word 38 4) + BitVec.ofNat 32 (bits word 0 32)) }) := by
      simp only [State.mov, hsel]
    obtain ⟨hgo, b, hx⟩ := Issues.goesOn (cost := fun _ => 1) (act := fun s w => s.mov site w) (can := always) h hop rfl
      ((congrArg State.modes hact).trans rfl) ((congrArg (fun r : State => r.unit site) hact).trans (State.unit_setUnit ..))
      (by rw [hissued]; rfl) (by rw [hissued]; rfl) (by rw [hissued]; rfl)
    rw [hissued] at hx
    exact ⟨_, rfl, hgo, by rw [hx]; rfl⟩
  · have hact : (s.issued site v pc).mov site word = (s.issued site v pc).movV site (bits word 42 4) (bits word 38 4) := by
      simp [State.mov, hsel, hkind]
    obtain ⟨hmodes, x, m, hunit, hlanes⟩ := State.movV_of_vectors (site := site) (Issues.log_issued h) hdst hsrc
    obtain ⟨hgo, b, hx⟩ := Issues.goesOn (cost := fun _ => 1) (act := fun s w => s.mov site w) (can := always) h hop rfl
      ((congrArg State.modes hact).trans hmodes) ((congrArg (fun r : State => r.unit site) hact).trans hunit)
      (by rw [hissued]; rfl) (by rw [hissued]; rfl) (by rw [hissued]; rfl)
    refine ⟨_, rfl, hgo, fun i hi => ?_⟩
    have hreg : Tab.get [] ((s.issue site w 0x0D always (fun _ => 1) (fun s w => s.mov site w)).unit site).h (bits word 42 4) = x := by
      rw [hx]
      exact Tab.get_set_same ..
    have hregs : (((s.issued site v pc).unit site).settle ((s.issued site v pc).unit site).cyc).h = (v.settle v.cyc).h := by
      have hcyc : ((s.issued site v pc).unit site).cyc = v.cyc := by rw [hissued]; rfl
      rw [hcyc]
      exact (Unit.settle_congr (u := v) (by rw [hissued]; rfl) (by rw [hissued]; rfl) (by rw [hissued]; rfl) v.cyc).1
    refine (congrArg (fun l : List Nat => l.getD i 0) hreg).trans ((hlanes i hi).trans ?_)
    rw [hregs]
  · have hact : (s.issued site v pc).mov site word = (s.issued site v pc).movStore site word := by
      simp only [State.mov, hsel]
    have hq' : ((s.issued site v pc).unit site).boundQ = some q := by rw [hissued]; exact hq
    obtain ⟨hmodes, hused⟩ := State.movStore_of_gill (site := site) (w := word) (Issues.log_issued h) hkind hq'
    have hstore : ((s.issued site v pc).unit site).storeGill (bits word 43 3) q (((s.issued site v pc).unit site).readQ q) =
        (v.storeGill (bits word 43 3) q (v.readQ q)).onCourse (v.nextPc pc) ((s.unit site).pc, (s.unit site).group.pc) v.active a := by
      rw [hissued]
      exact Unit.storeGill_onCourse v _ _ _ a _ _ _
    rw [hstore] at hused
    have hcyc := Unit.cyc_storeGill v (bits word 43 3) q (v.readQ q)
    generalize v.storeGill (bits word 43 3) q (v.readQ q) = g at hused hcyc ⊢
    obtain ⟨hgo, b, hx⟩ := Issues.goesOn (x := ((s.issued site v pc).movStore site word).unit site) (cost := fun _ => 1)
      (act := fun s w => s.mov site w) (can := always) h hop rfl
      ((congrArg State.modes hact).trans hmodes) (congrArg (fun r : State => r.unit site) hact) hused.pc hused.active (hused.cyc.trans hcyc)
    refine ⟨_, rfl, hgo, ?_⟩
    rw [hx, Unit.mem_spent]
    exact hused.mem

end Sys2Proof.Machine

/-! The inject lanes of a unit (R129, R130). -/

namespace Sys2Proof.Machine
set_option Elab.async false
variable {s t : State}

/-- The lanes, and what fills them. -/
structure Lanes where
  pipe : List (Nat × Flit)
  lanes : Tab (List Flit)
  lanePeak : Nat

def Unit.withLanes (u : Machine.Unit) (l : Lanes) : Machine.Unit := { u with pipe := l.pipe, lanes := l.lanes, lanePeak := l.lanePeak }

theorem Unit.withLanes_withLanes (u : Machine.Unit) (a b : Lanes) : (u.withLanes a).withLanes b = u.withLanes b := rfl

/-- The flits of one lane that still wait for it. -/
def pipeOf (pipe : List (Nat × Flit)) (lane : Nat) : List Flit := (pipe.filter (fun p => p.1 == lane)).map (fun p => p.2)

theorem pipeOf_append (a b : List (Nat × Flit)) (lane : Nat) : pipeOf (a ++ b) lane = pipeOf a lane ++ pipeOf b lane := by
  simp [pipeOf]

theorem pipeOf_nil_of_forall {a : List (Nat × Flit)} {lane : Nat} (h : ∀ p ∈ a, p.1 ≠ lane) : pipeOf a lane = [] := by
  simp only [pipeOf, List.map_eq_nil_iff, List.filter_eq_nil_iff]
  intro p hp
  simpa using h p hp

/-- The first flit that a test on lanes alone finds is the first of its lane. -/
theorem pipeOf_eraseIdx {pipe : List (Nat × Flit)} {i : Nat} {p : Nat × Flit} {ok : Nat → Bool}
    (hi : pipe.findIdx? (fun p => ok p.1) = some i) (hp : pipe[i]? = some p) (lane : Nat) :
    pipeOf pipe lane = (if lane = p.1 then [p.2] else []) ++ pipeOf (pipe.eraseIdx i) lane := by
  obtain ⟨hlt, hok, hfirst⟩ := List.findIdx?_eq_some_iff_getElem.mp hi
  have hget : pipe[i] = p := by simpa [hlt] using hp
  have hsplit : pipe = pipe.take i ++ p :: pipe.drop (i + 1) := by
    rw [← hget, ← List.drop_eq_getElem_cons hlt, List.take_append_drop]
  have hbefore : ∀ q ∈ pipe.take i, q.1 ≠ p.1 := by
    intro q hq heq
    obtain ⟨j, hj, rfl⟩ := List.mem_iff_getElem.mp hq
    have hji : j < i := by simp at hj; omega
    have hnot := hfirst j hji
    rw [List.getElem_take] at heq
    rw [heq, ← hget] at hnot
    exact hnot hok
  have herase : pipe.eraseIdx i = pipe.take i ++ pipe.drop (i + 1) := List.eraseIdx_eq_take_drop_succ ..
  rw [herase, pipeOf_append]
  conv_lhs => rw [hsplit, pipeOf_append, show p :: pipe.drop (i + 1) = [p] ++ pipe.drop (i + 1) from rfl, pipeOf_append]
  by_cases hl : lane = p.1
  · subst hl
    rw [pipeOf_nil_of_forall hbefore]
    simp [pipeOf]
  · simp [hl, pipeOf, Ne.symm hl]

theorem laneFlits_eq (u : Machine.Unit) (lane : Nat) : laneFlits u lane = Tab.get [] u.lanes lane ++ pipeOf u.pipe lane := rfl

/-- The fill moves flits from the pipe to their lanes, and no lane's order changes. -/
theorem Unit.fill_lanes (n : Nat) (u : Machine.Unit) :
    ∃ l, Unit.fill n u = u.withLanes l ∧ ∀ lane, laneFlits (u.withLanes l) lane = laneFlits u lane := by
  induction n generalizing u with
  | zero => exact ⟨⟨u.pipe, u.lanes, u.lanePeak⟩, rfl, fun lane => rfl⟩
  | succ n ih =>
    rw [Unit.fill]
    split
    · exact ⟨⟨u.pipe, u.lanes, u.lanePeak⟩, rfl, fun lane => rfl⟩
    · next i hi =>
      split
      · exact ⟨⟨u.pipe, u.lanes, u.lanePeak⟩, rfl, fun lane => rfl⟩
      · next p hp =>
        extract_lets l
        obtain ⟨l', hfill, hsame⟩ := ih (u.withLanes ⟨u.pipe.eraseIdx i, Tab.set u.lanes p.1 l, if u.frozen then u.lanePeak else max u.lanePeak l.length⟩)
        refine ⟨l', hfill, fun lane => ?_⟩
        rw [← Unit.withLanes_withLanes u _ l', hsame, laneFlits_eq, laneFlits_eq,
          pipeOf_eraseIdx (ok := fun i => decide ((Tab.get [] u.lanes i).length < 16)) hi hp lane]
        by_cases hl : lane = p.1
        · subst hl
          simp [Unit.withLanes, l]
        · simp [Unit.withLanes, hl, Tab.get_set, Ne.symm hl]

theorem Quiet.foldl {α : Type} {site : Nat} {f : State → α → State}
    (hf : ∀ s x, (s.modes.hazard && s.modes.hazFault) = false → Quiet site s (f s x)) (l : List α)
    (hlog : (s.modes.hazard && s.modes.hazFault) = false) : Quiet site s (l.foldl f s) := by
  induction l generalizing s with
  | nil => exact Quiet.refl site s
  | cons x l ih =>
    have h := hf s x hlog
    exact h.trans (ih (h.modes ▸ hlog))

theorem State.lanes_fillLanes {site : Nat} (hlog : (s.modes.hazard && s.modes.hazFault) = false) :
    (s.fillLanes site).modes = s.modes ∧ ∃ l m, (s.fillLanes site).unit site = ((s.unit site).withLanes l).marked m ∧
      ∀ lane, laneFlits ((s.unit site).withLanes l) lane = laneFlits (s.unit site) lane := by
  unfold State.fillLanes
  extract_lets u v s1
  obtain ⟨l, hfill, hsame⟩ := Unit.fill_lanes 512 u
  have hquiet : ∀ (s : State) (x : Nat), (s.modes.hazard && s.modes.hazFault) = false → Quiet site s
      (if (Tab.get [] u.lanes x).length < (Tab.get [] v.lanes x).length && Tab.get 16 v.laneBound x < (Tab.get [] v.lanes x).length &&
          !v.skidding.contains (3 + x) then
        match (Tab.get [] v.lanes x).getLast? with
        | some f => s.hazard site 6 (flitStream f) (flitFseq f) (flitLine f)
        | none => s
      else s) := by
    intro s x hlog
    split
    · split
      · exact State.quiet_hazard hlog _ _ _ _ _
      · exact Quiet.refl site s
    · exact Quiet.refl site s
  have hfold := Quiet.foldl (s := s1) hquiet [0, 1, 2, 3] hlog
  obtain ⟨m, hm⟩ := hfold.unit
  refine ⟨hfold.modes, l, m, ?_, hsame⟩
  refine hm.trans ?_
  rw [show s1.unit site = v from State.unit_setUnit .., show v = u.withLanes l from hfill]

/-- Flits join a lane behind those already there. -/
theorem State.lanes_toLane {site : Nat} (hlog : (s.modes.hazard && s.modes.hazFault) = false) (lane : Nat) (fs : List Flit) :
    (s.toLane site lane fs).modes = s.modes ∧ ∃ l m, (s.toLane site lane fs).unit site = ((s.unit site).withLanes l).marked m ∧
      laneFlits ((s.unit site).withLanes l) lane = laneFlits (s.unit site) lane ++ fs := by
  obtain ⟨hmodes, l, m, hunit, hsame⟩ := State.lanes_fillLanes (site := site)
    (s := s.modUnit site (fun u => { u with pipe := u.pipe ++ fs.map (fun f => (lane, f)) })) hlog
  rw [State.modUnit_eq, State.unit_setUnit] at hunit hsame
  refine ⟨hmodes, l, m, hunit, ?_⟩
  refine (hsame lane).trans ?_
  have hnew : pipeOf (fs.map (fun f => (lane, f))) lane = fs := by
    simp [pipeOf, List.filter_map, Function.comp_def]
  rw [laneFlits_eq, laneFlits_eq, pipeOf_append, hnew, List.append_assoc]

end Sys2Proof.Machine

/-! LDW, ACC, BIAS, MAC, REQ and REQ_DRAIN of M-units (R100-R103, R183-R188, R260-R262). -/

namespace Sys2Proof.Machine
set_option Elab.async false
variable {s t : State}

-- LDW.

theorem Unit.wide_of_mem {u v : Machine.Unit} (h : v.mem = u.mem) (sel w : Nat) : v.wide sel w = u.wide sel w := by
  simp only [Unit.wide, h]

/-- LDW leaves the flit's word in the weight memory. -/
theorem State.used_ldw {site w : Nat} (hlog : (s.modes.hazard && s.modes.hazFault) = false) :
    (s.ldw site w).modes = s.modes ∧ ∃ m,
      Unit.Used (((s.unit site).marked m).setWide 4 (bits w 38 10) ((s.unit site).readQ 2).pay) ((s.ldw site w).unit site) := by
  unfold State.ldw
  extract_lets u a s1
  have h1 : Quiet site s s1 := by
    simp only [s1]
    split
    · exact State.quiet_hazard hlog _ _ _ _ _
    · exact Quiet.refl site s
  obtain ⟨m, hm⟩ := h1.unit
  clear_value s1
  have hset : (s1.modUnit site (fun u => u.setWide 4 a (u.readQ 2).pay)).unit site =
      ((s.unit site).marked m).setWide 4 a ((s.unit site).readQ 2).pay := by
    rw [State.modUnit_eq, State.unit_setUnit, hm]
    rfl
  obtain ⟨hmodes, hused⟩ := State.used_useQ (site := site) (s := s1.modUnit site (fun u => u.setWide 4 a (u.readQ 2).pay)) (h1.modes ▸ hlog) 2
  rw [hset] at hused
  exact ⟨hmodes.trans h1.modes, m, hused⟩

-- MAC.

theorem Unit.takePsums_of_none (n : Nat) (u : Machine.Unit) {b : Block} (h : b.psum = none) : Unit.takePsums n u b = (u, b) := by
  cases n with
  | zero => rfl
  | succ n => rw [Unit.takePsums, h]

/-- The block after one more step. -/
def Block.stepped (b : Block) (u : Machine.Unit) (w : Nat) : Block :=
  { b with sf8 := some (fFlag w 0), steps := ((u.readQ 0).pay, u.wide 4 u.wp) :: b.steps, done := b.done + 1 }

/-- The unit after a step that is not the last of its block. -/
def Unit.stepped (u : Machine.Unit) (b : Block) (w : Nat) : Machine.Unit :=
  { u with wp := (u.wp + 1) % 1024, macAt := some (u.cyc, u.wp), block := some (b.stepped u w) }

/-- The drain set after the last step of an armed block. -/
def Block.drained (b : Block) (u : Machine.Unit) (w : Nat) : Block :=
  { b.stepped u w with closeAt := u.cyc + 2, stream := u.cur.stream, fseq := u.cur.fseq }

/-- The unit after the last step of an armed block. -/
def Unit.closed (u : Machine.Unit) (b : Block) (w : Nat) : Machine.Unit :=
  { u with wp := (u.wp + 1) % 1024, macAt := some (u.cyc, u.wp), block := none, drain := some (b.drained u w) }

theorem State.mac_of_more {site w : Nat} {b : Block} (hb : (s.unit site).block = some b) (hp : b.psum = none) (hmore : b.done + 1 < b.k) :
    s.mac site w = (s.setUnit site ((s.unit site).stepped b w)).useQ site 0 := by
  unfold State.mac
  extract_lets u act wgt u1 u2
  have h2 : u2 = u.stepped b w := by
    simp only [u2, show u1.block = some b from hb]
    rw [if_neg (by omega), Unit.takePsums_of_none _ _ (b := { b with sf8 := some (fFlag w 0), steps := (act, wgt) :: b.steps, done := b.done + 1 }) hp]
    simp only
    rw [if_pos hmore]
    rfl
  rw [h2]

theorem State.mac_of_last {site w r : Nat} {b : Block} (hb : (s.unit site).block = some b) (hp : b.psum = none) (hlast : b.done + 1 = b.k)
    (hr : b.req = some r) :
    s.mac site w = (s.setUnit site ((s.unit site).closed b w)).useQ site 0 := by
  unfold State.mac
  extract_lets u act wgt u1 u2
  have h2 : u2 = u.closed b w := by
    simp only [u2, show u1.block = some b from hb]
    rw [if_neg (by omega), Unit.takePsums_of_none _ _ (b := { b with sf8 := some (fFlag w 0), steps := (act, wgt) :: b.steps, done := b.done + 1 }) hp]
    dsimp only
    rw [if_neg (by omega), if_pos (by simp [hr])]
    rfl
  rw [h2]

-- REQ_DRAIN.

/-- A drain whose block waits for no partial sum sends a flit for each channel, four where the accumulators leave unrounded (R187, R221). -/
theorem reqDrain_sends {site : Nat} {b : Block} (hmay : s.mayIssue site = true) (hd : (s.unit site).drain = some b) (hp : b.psum = none)
    (P : State → Prop) (hP : ∀ (v : Machine.Unit) (fs : List Flit), v.drain = none → v.lanes = (s.unit site).lanes → v.pipe = (s.unit site).pipe →
      fs.length = (if fFlag (b.req.getD 0) 3 then 4 * b.chans else b.chans) →
      P ((s.setUnit site v).toLane site (bits (b.req.getD 0) 46 2) fs)) : P (reqDrain site s) := by
  unfold reqDrain
  extract_lets u0
  rw [show u0.drain = some b from hd]
  dsimp -zeta only
  rw [Unit.takePsums_of_none 256 u0 hp]
  extract_lets r u1 b1 w lane ep flit u2 fs t kd zo n set out u3 fs'
  rw [if_neg (by simp [hmay, b1, r, hp])]
  split
  · next hraw =>
    refine hP u2 fs rfl rfl rfl ?_
    rw [show fFlag (b.req.getD 0) 3 = true from hraw, if_pos rfl]
    simp [fs, b1, r, List.length_flatMap, Nat.mul_comm]
  · next hraw =>
    have hstats : u3.drain = none ∧ u3.lanes = (s.unit site).lanes ∧ u3.pipe = (s.unit site).pipe :=
      List.foldlRecOn (motive := fun x : Machine.Unit => x.drain = none ∧ x.lanes = (s.unit site).lanes ∧ x.pipe = (s.unit site).pipe) out _
        ⟨rfl, rfl, rfl⟩ fun x hx e _ => hx
    obtain ⟨hdrain3, hlanes3, hpipe3⟩ := hstats
    refine hP u3 fs' hdrain3 hlanes3 hpipe3 ?_
    rw [show fFlag (b.req.getD 0) 3 = false from Bool.eq_false_iff.mpr hraw]
    simp [fs', b1, r]

/-- What a drain leaves in its lane. -/
theorem lanes_reqDrain {site : Nat} {b : Block} (hmay : s.mayIssue site = true) (hd : (s.unit site).drain = some b) (hp : b.psum = none)
    (hlog : (s.modes.hazard && s.modes.hazFault) = false) :
    ((reqDrain site s).unit site).drain = none ∧ ∃ fs : List Flit,
      laneFlits ((reqDrain site s).unit site) (bits (b.req.getD 0) 46 2) = laneFlits (s.unit site) (bits (b.req.getD 0) 46 2) ++ fs ∧
      fs.length = (if fFlag (b.req.getD 0) 3 then 4 * b.chans else b.chans) := by
  refine reqDrain_sends hmay hd hp (fun t => (t.unit site).drain = none ∧ ∃ fs : List Flit,
    laneFlits (t.unit site) (bits (b.req.getD 0) 46 2) = laneFlits (s.unit site) (bits (b.req.getD 0) 46 2) ++ fs ∧ fs.length = _) ?_
  intro v fs hdrain hlanes hpipe hlen
  obtain ⟨-, l, m, hunit, hflits⟩ := State.lanes_toLane (s := s.setUnit site v) (site := site) hlog (bits (b.req.getD 0) 46 2) fs
  rw [State.unit_setUnit] at hunit hflits
  rw [hunit]
  refine ⟨hdrain, fs, hflits.trans ?_, hlen⟩
  rw [laneFlits_eq, laneFlits_eq, hlanes, hpipe]

/-- A block with the drain's key. -/
def Block.armed (b : Block) (u : Machine.Unit) (w : Nat) : Block :=
  { b with req := some w, line := (u.key (bits w 42 4)).1.getD 0, chan := (u.key (bits w 42 4)).2.1.getD 0, chunk := (u.key (bits w 42 4)).2.2.getD 0 }

/-- A block that is not yet complete takes the drain's key. -/
theorem Unit.armDrain_of_open {u : Machine.Unit} {w : Nat} {b : Block} (hb : u.block = some b) (hopen : b.done < b.k) :
    u.armDrain w = { u with block := some (b.armed u w) } := by
  simp [Unit.armDrain, hb, hopen, Block.armed]

/-- Settles O27. -/
theorem blocksReduce : Obligations.BlocksReduce := by
  unfold Obligations.BlocksReduce
  refine ⟨fun site w pc word v s h hop => ?_, fun site w pc word v s h hop hkind hflag => ?_, fun site w pc word v s h hop => ?_,
    fun site w pc word b v s h hop hb hp hmore => ?_, fun site w pc word r b v s h hop hb hp hlast hr hfree => ?_,
    fun site w pc word b v s h hop hb hopen => ?_, fun site b s hmay hd hp hlog => ?_⟩
  case refine_7 =>
    obtain ⟨hdrain, hfs⟩ := lanes_reqDrain hmay hd hp hlog
    exact ⟨_, rfl, hdrain, hfs⟩
  all_goals obtain ⟨a, hissued⟩ := s.unit_issued site v pc
  · obtain ⟨hmodes, m, hused⟩ := State.used_ldw (site := site) (w := word) (Issues.log_issued h)
    rw [hissued] at hused
    obtain ⟨hgo, b, hx⟩ := Issues.goesOn (x := ((s.issued site v pc).ldw site word).unit site) (cost := fun _ => 1)
      (act := fun s w => s.ldw site w) (can := always) h hop rfl hmodes rfl hused.pc hused.active hused.cyc
    refine ⟨_, rfl, hgo, ?_⟩
    rw [hx, Unit.wide_of_mem ((Unit.mem_spent ..).trans hused.mem)]
    exact Unit.wide_setWide_same ..
  · have hact : (if kindOf site = .t then (s.issued site v pc).accTree site word else (s.issued site v pc).accBlock site word) =
        (s.issued site v pc).setUnit site { (s.issued site v pc).unit site with
          block := some { k := bits word 32 16, psum := none, c0 := ((s.issued site v pc).unit site).c0, psums := [] }, wp := bits word 22 10 } := by
      simp [hkind, State.accBlock, hflag]
    obtain ⟨hgo, b, hx⟩ := Issues.goesOn (cost := fun _ => 1)
      (act := fun s w => if kindOf site = .t then s.accTree site w else s.accBlock site w)
      (can := fun u w => kindOf site != .t || !fFlag w 1 || u.chainFlits.isSome) h hop (by simp [hkind])
      ((congrArg State.modes hact).trans rfl) ((congrArg (fun r : State => r.unit site) hact).trans (State.unit_setUnit ..))
      (by rw [hissued]; rfl) (by rw [hissued]; rfl) (by rw [hissued]; rfl)
    rw [hissued] at hx
    exact ⟨_, rfl, hgo, by rw [hx]; rfl, by rw [hx]; rfl⟩
  · obtain ⟨hgo, b, hx⟩ := Issues.goesOn (cost := fun _ => 1) (act := fun s w => s.modUnit site (fun u => { u with c0 := bits w 40 8 }))
      (can := always) h hop rfl rfl (State.unit_setUnit ..) (by rw [hissued]; rfl) (by rw [hissued]; rfl) (by rw [hissued]; rfl)
    exact ⟨_, rfl, hgo, by rw [hx]; rfl⟩
  · have hb' : ((s.issued site v pc).unit site).block = some b := by rw [hissued]; exact hb
    have hact := State.mac_of_more (w := word) hb' hp hmore
    obtain ⟨hmodes, hused⟩ := State.used_useQ (site := site)
      (s := (s.issued site v pc).setUnit site (((s.issued site v pc).unit site).stepped b word)) (Issues.log_issued h) 0
    rw [← hact] at hmodes hused
    rw [State.unit_setUnit, hissued] at hused
    obtain ⟨hgo, b', hx⟩ := Issues.goesOn (x := ((s.issued site v pc).mac site word).unit site) (cost := fun _ => 1)
      (act := fun s w => s.mac site w) (can := Unit.macCan) h hop (by simp [Unit.macCan, hb]; omega) hmodes rfl hused.pc hused.active hused.cyc
    refine ⟨_, rfl, hgo, ?_, ?_, ?_⟩
    · rw [hx, Unit.wp_spent]; exact hused.wp
    · rw [hx, Unit.drain_spent]; exact hused.drain
    · rw [hx, Unit.block_spent]; exact hused.block
  · have hb' : ((s.issued site v pc).unit site).block = some b := by rw [hissued]; exact hb
    have hact := State.mac_of_last (w := word) hb' hp hlast hr
    obtain ⟨hmodes, hused⟩ := State.used_useQ (site := site)
      (s := (s.issued site v pc).setUnit site (((s.issued site v pc).unit site).closed b word)) (Issues.log_issued h) 0
    rw [← hact] at hmodes hused
    rw [State.unit_setUnit, hissued] at hused
    obtain ⟨hgo, b', hx⟩ := Issues.goesOn (x := ((s.issued site v pc).mac site word).unit site) (cost := fun _ => 1)
      (act := fun s w => s.mac site w) (can := Unit.macCan) h hop (by simp [Unit.macCan, hb, hfree]) hmodes rfl hused.pc hused.active hused.cyc
    refine ⟨_, b.drained v word, rfl, hgo, ?_, ?_, rfl, rfl, rfl, hr⟩
    · rw [hx, Unit.block_spent]; exact hused.block
    · rw [hx, Unit.drain_spent]; exact hused.drain
  · have hb' : ((s.issued site v pc).unit site).block = some b := by rw [hissued]; exact hb
    have hopened := Unit.armDrain_of_open (w := word) hb' hopen
    obtain ⟨hgo, b', hx⟩ := Issues.goesOn (x := ((s.issued site v pc).unit site).armDrain word) (cost := fun _ => 1)
      (act := fun s w => s.modUnit site (fun u => u.armDrain w))
      (can := fun u _ => u.drainFree || u.block.all (fun b : Block => decide (b.done < b.k) || decide (b.closeAt ≤ u.cyc))) h hop (by simp [hb, hopen])
      rfl (State.unit_setUnit ..) (by rw [hopened, hissued]; rfl) (by rw [hopened, hissued]; rfl) (by rw [hopened, hissued]; rfl)
    rw [hopened, hissued] at hx
    exact ⟨_, rfl, hgo, by rw [hx]; rfl⟩

end Sys2Proof.Machine

/-! TCMP, TLEAF and ACC of T-units (R232-R237). -/

namespace Sys2Proof.Machine
set_option Elab.async false
variable {s t : State}

-- A read of a memory word with the error it met (R110, R112).

/-- What a read's error leaves of the unit: a count, or a word that reads as zeros. -/
theorem State.unit_wordRead (s : State) (site w : Nat) (e : Ecc) (st f8 line : Nat) :
    (s.wordRead site w e st f8 line).modes = s.modes ∧ ∃ eccCe zeroed, (s.wordRead site w e st f8 line).unit site =
      { s.unit site with eccCe := eccCe, zeroed := zeroed } := by
  cases e with
  | clean => exact ⟨rfl, (s.unit site).eccCe, (s.unit site).zeroed, rfl⟩
  | corrected => exact ⟨rfl, _, (s.unit site).zeroed, State.unit_setUnit ..⟩
  | bad =>
    change (s.sramUe site w st f8 line).modes = s.modes ∧ ∃ eccCe zeroed, (s.sramUe site w st f8 line).unit site = _
    unfold State.sramUe
    extract_lets u o g s1 s2
    have h2 : s2.modes = s.modes ∧ s2.unit site = s.unit site := ⟨rfl, rfl⟩
    obtain ⟨hmodes, hunit⟩ := h2
    have hsame : ∃ eccCe zeroed, s.unit site = { s.unit site with eccCe := eccCe, zeroed := zeroed } :=
      ⟨(s.unit site).eccCe, (s.unit site).zeroed, rfl⟩
    split
    · split
      · exact ⟨hmodes, hsame⟩
      · exact ⟨hmodes, hsame⟩
    · split
      · exact ⟨hmodes, hsame⟩
      · exact ⟨hmodes, hsame⟩
    · exact ⟨hmodes, (s.unit site).eccCe, _, (State.unit_setUnit ..).trans (by rw [hunit])⟩
    · exact ⟨hmodes, hsame⟩

theorem State.ue_wordRead_bad (s : State) (site w st f8 line : Nat) : (s.wordRead site w .bad st f8 line).greg.ue = true := by
  change (s.sramUe site w st f8 line).greg.ue = true
  unfold State.sramUe
  extract_lets u o g s1 s2
  have h2 : s2.greg.ue = true := rfl
  split
  · split <;> exact h2
  · split <;> exact h2
  · exact h2
  · exact h2

/-- An operation on node words, whose read met no uncorrectable error in a word it takes. -/
theorem State.unit_nodeRead_of_good {site g : Nat} {ext : Bool} {ws : Waits} {op : Machine.Unit → Machine.Unit} (hgood : ws.ecc ≠ .bad) :
    (s.nodeRead site g ext ws op).modes = s.modes ∧ ∃ eccCe zeroed, (s.nodeRead site g ext ws op).unit site =
      { op (s.unit site) with mem := (s.unit site).mem, eccCe := eccCe, zeroed := zeroed } := by
  unfold State.nodeRead
  extract_lets u hit e v
  have he : (e == Ecc.bad) = false := by
    simp only [e]
    split
    · simpa using hgood
    · rfl
  have hv : v = op u := by simp only [v, he, Bool.false_eq_true, if_false]
  obtain ⟨hmodes, eccCe, zeroed, hunit⟩ := State.unit_wordRead (s.setUnit site { v with mem := u.mem }) site ws.eccAt e u.cur.stream u.cur.fseq u.line
  rw [State.unit_setUnit] at hunit
  exact ⟨hmodes, eccCe, zeroed, by rw [hunit, hv]⟩

/-- The same, whose read met one: the word reads as zeros, and the error is reported. -/
theorem State.unit_nodeRead_of_bad {site g : Nat} {ext : Bool} {ws : Waits} {op : Machine.Unit → Machine.Unit} (hbad : ws.ecc = .bad)
    (hhit : ((g != 31 && ws.eccAt.val / 96 == g) || (ext && decide (2016 ≤ ws.eccAt.val))) = true) :
    (s.nodeRead site g ext ws op).modes = s.modes ∧ (s.nodeRead site g ext ws op).greg.ue = true ∧
      ∃ eccCe zeroed, (s.nodeRead site g ext ws op).unit site =
        { op ((s.unit site).setWide 6 ws.eccAt 0) with mem := (s.unit site).mem, eccCe := eccCe, zeroed := zeroed } := by
  unfold State.nodeRead
  extract_lets u hit e v
  have he : e = .bad := by simp only [e, hit, hhit, hbad, if_true]
  have hv : v = op (u.setWide 6 ws.eccAt 0) := by simp [v, he]
  rw [he]
  obtain ⟨hmodes, eccCe, zeroed, hunit⟩ := State.unit_wordRead (s.setUnit site { v with mem := u.mem }) site ws.eccAt .bad u.cur.stream u.cur.fseq u.line
  rw [State.unit_setUnit] at hunit
  exact ⟨hmodes, State.ue_wordRead_bad .., eccCe, zeroed, by rw [hunit, hv]⟩

-- The values of the operations.

theorem Unit.dirs_tcmp (u : Machine.Unit) (g : Nat) {i n : Nat} (hi : i < 8) (hn : n < 63) :
    ((u.tcmp g).dirs.getD i []).getD n false = nodeDir (u.nodeWord (decide (g = 31)) (groupBase g + 256 * i + 4 + 4 * n))
      (Tab.get 0x7E00 u.fv (bits (u.nodeWord (decide (g = 31)) (groupBase g + 256 * i + 4 + 4 * n)) 8 8)) u.extBit := by
  simp [Unit.tcmp, List.getD_eq_getElem?_getD, hi, hn]

/-- Padding trees add nothing (R237). -/
theorem Unit.tacc_tleaf_of_padding (u : Machine.Unit) (g : Nat)
    (hpad : ∀ i < 8, bit (u.nodeWord (decide (g = 31)) (groupBase g + 256 * i)) 27 = true) : (u.tleaf g).tacc = u.tacc := by
  unfold Unit.tleaf
  dsimp only
  refine List.foldlRecOn (motive := fun x : Tab Nat => x = u.tacc) (List.range 8) _ rfl fun x hx i hi => ?_
  exact (if_pos (hpad i (List.mem_range.mp hi))).trans hx

theorem Tab.get_map_range {α : Type} (d : α) (f : Nat → α) (n : Nat) {i : Nat} (hi : i < n) :
    Tab.get d ((List.range n).map (fun i => (i, f i))) i = f i := by
  have hlist : ∀ l : List Nat, i ∈ l → Tab.get d (l.map (fun i => (i, f i))) i = f i := by
    intro l
    induction l with
    | nil => simp
    | cons j l ih =>
      intro hmem
      by_cases hj : j = i
      · simp [Tab.get, hj]
      · have hl : i ∈ l := by simpa [Ne.symm hj] using hmem
        simp [Tab.get, hj, ih hl]
  exact hlist _ (List.mem_range.mpr hi)

theorem Issues.owner {site : Site} {w : Waits} {pc word : Nat} {v : Machine.Unit} (h : Issues s site w pc word v) :
    v.owner = (s.unit site).owner := by
  obtain ⟨u, -, -, -, -, hbind, hv, -, -⟩ := h
  obtain ⟨queues, line, cur, hu⟩ := Unit.bindAll_eq hbind
  have huntil : ∀ (x : Machine.Unit) (at_ : Nat), (x.untilCyc at_).owner = x.owner := by
    intro x at_
    unfold Unit.untilCyc
    split
    · obtain ⟨a, b, c, hs⟩ := (x.spend (at_ - x.cyc)).settle_eq at_
      rw [hs]
      rfl
    · rfl
  rw [hv, huntil, Unit.owner_advance, hu]

theorem State.modelBase_issued {site : Site} {w : Waits} {pc word : Nat} {v : Machine.Unit} (h : Issues s site w pc word v) :
    (s.issued site v pc).modelBase site = s.modelBase site := by
  obtain ⟨a, hissued⟩ := s.unit_issued site v pc
  obtain ⟨units, heq⟩ := s.issued_eq site v pc
  have hvsite : (s.issued site v pc).vsite site = s.vsite site := by
    have howner : ((s.issued site v pc).unit site).owner = (s.unit site).owner := by
      rw [hissued, ← Issues.owner h]
      rfl
    have hctx : (s.issued site v pc).ctx (s.unit site).owner = s.ctx (s.unit site).owner := by rw [heq]; rfl
    unfold State.vsite
    rw [howner, hctx]
  unfold State.modelBase
  rw [hvsite]

/-- Settles O29. -/
theorem treesCompute : Obligations.TreesCompute := by
  unfold Obligations.TreesCompute
  refine ⟨fun site w pc word i n g v s h hop hg hstream hgood hi hn => ?_, fun site w pc word g v s h hop hg hstream hbad hhit => ?_,
    fun site w pc word v s h hop hgood => ?_, fun site w pc word i v s h hop hkind hflag hi => ?_⟩
  all_goals obtain ⟨a, hissued⟩ := s.unit_issued site v pc
  · subst hg
    obtain ⟨hmodes, eccCe, zeroed, hunit⟩ := State.unit_nodeRead_of_good (s := s.issued site v pc) (site := site) (g := bits word 43 5) (ext := true)
      (op := fun u => u.tcmp (bits word 43 5)) hgood
    rw [hissued] at hunit
    obtain ⟨hgo, b, hx⟩ := Issues.goesOn (cost := fun _ => 1)
      (act := fun s x => s.nodeRead site (bits x 43 5) true w (fun u => u.tcmp (bits x 43 5)))
      (can := fun u x => bits x 43 5 != 31 || decide (96 ≤ u.streamed.length)) h hop (by simpa [imp_iff_not_or] using hstream) hmodes hunit rfl rfl rfl
    refine ⟨_, rfl, hgo, ?_⟩
    rw [hx, Unit.dirs_spent]
    exact Unit.dirs_tcmp _ _ hi hn
  · subst hg
    have hread : ((bits word 43 5 != 31 && w.eccAt.val / 96 == bits word 43 5) || (true && decide (2016 ≤ w.eccAt.val))) = true := by
      simpa using hhit
    obtain ⟨hmodes, hue, eccCe, zeroed, hunit⟩ := State.unit_nodeRead_of_bad (s := s.issued site v pc) (site := site)
      (op := fun u => u.tcmp (bits word 43 5)) hbad hread
    rw [hissued] at hunit
    have hcan : (bits word 43 5 != 31 || decide (96 ≤ v.streamed.length)) = true := by simpa [imp_iff_not_or] using hstream
    obtain ⟨hgo, b, hx⟩ := Issues.goesOn (cost := fun _ => 1)
      (act := fun s x => s.nodeRead site (bits x 43 5) true w (fun u => u.tcmp (bits x 43 5)))
      (can := fun u x => bits x 43 5 != 31 || decide (96 ≤ u.streamed.length)) h hop hcan hmodes hunit rfl rfl rfl
    have hquiet := Issues.effect (cost := fun _ => 1)
      (act := fun s x => s.nodeRead site (bits x 43 5) true w (fun u => u.tcmp (bits x 43 5)))
      (can := fun u x => bits x 43 5 != 31 || decide (96 ≤ u.streamed.length)) h hop hcan hmodes
    refine ⟨_, rfl, hgo, ?_, hquiet.ue.trans hue, ?_⟩
    · rw [hx, Unit.mem_spent]
      rfl
    · rw [hx, Unit.dirs_spent]
      rfl
  · obtain ⟨hmodes, eccCe, zeroed, hunit⟩ := State.unit_nodeRead_of_good (s := s.issued site v pc) (site := site) (g := bits word 43 5) (ext := false)
      (op := fun u => u.tleaf (bits word 43 5)) hgood
    rw [hissued] at hunit
    obtain ⟨hgo, b, hx⟩ := Issues.goesOn (cost := fun _ => 1)
      (act := fun s x => s.nodeRead site (bits x 43 5) false w (fun u => u.tleaf (bits x 43 5))) (can := always) h hop rfl hmodes hunit rfl rfl rfl
    have htacc : ((s.issue site w 0x17 always (fun _ => 1)
        (fun s x => s.nodeRead site (bits x 43 5) false w (fun u => u.tleaf (bits x 43 5)))).unit site).tacc = (v.tleaf (bits word 43 5)).tacc := by
      rw [hx, Unit.tacc_spent]
      rfl
    exact ⟨_, rfl, hgo, htacc, fun hpad => htacc.trans (Unit.tacc_tleaf_of_padding v _ hpad)⟩
  · have hact : (if kindOf site = .t then (s.issued site v pc).accTree site word else (s.issued site v pc).accBlock site word) =
        (s.issued site v pc).setUnit site (((s.issued site v pc).unit site).setAccs (s.modelBase site)) := by
      simp [hkind, State.accTree, hflag, State.modelBase_issued h]
    obtain ⟨hgo, b, hx⟩ := Issues.goesOn (cost := fun _ => 1)
      (act := fun s w => if kindOf site = .t then s.accTree site w else s.accBlock site w)
      (can := fun u w => kindOf site != .t || !fFlag w 1 || u.chainFlits.isSome) h hop (by simp [hflag])
      ((congrArg State.modes hact).trans rfl) ((congrArg (fun r : State => r.unit site) hact).trans (State.unit_setUnit ..))
      (by rw [hissued]; rfl) (by rw [hissued]; rfl) (by rw [hissued]; rfl)
    refine ⟨_, rfl, hgo, ?_⟩
    rw [hx, Unit.tacc_spent]
    exact Tab.get_map_range 0 (fun i => (s.modelBase site).getD i 0) 16 hi

end Sys2Proof.Machine

/-! ACT, ADD, MUL and POOL of V-units (R189-R193, R266, R267, R275). -/

namespace Sys2Proof.Machine
set_option Elab.async false
variable {s t r : State}

-- What the operands of an operation do not depend on.

/-- Two states whose unit differs in its course alone, and whose contexts and trims agree. -/
structure SameSources (site : Nat) (s t : State) : Prop where
  unit : ∃ pc active m, t.unit site = (s.unit site).onCourse pc (s.unit site).issuePc active m
  modes : t.modes = s.modes
  ctxs : t.ctxs = s.ctxs
  epochs : t.epochs = s.epochs
  trims : ∀ st, (t.strm st).frameTrims = (s.strm st).frameTrims

theorem Quiet.sources {site : Nat} (h : Quiet site s t) : SameSources site s t where
  unit := by
    obtain ⟨m, hm⟩ := h.unit
    exact ⟨(s.unit site).pc, (s.unit site).active, m, hm⟩
  modes := h.modes
  ctxs := h.ctxs
  epochs := h.epochs
  trims := h.trims

theorem SameSources.trans {site : Nat} (h : SameSources site s t) (h' : SameSources site t r) : SameSources site s r where
  unit := by
    obtain ⟨pc, active, m, hm⟩ := h.unit
    obtain ⟨pc', active', m', hm'⟩ := h'.unit
    exact ⟨pc', active', m', by rw [hm', hm]; rfl⟩
  modes := h'.modes.trans h.modes
  ctxs := h'.ctxs.trans h.ctxs
  epochs := h'.epochs.trans h.epochs
  trims st := (h'.trims st).trans (h.trims st)

theorem State.sources_issued (s : State) (site : Site) (v : Machine.Unit) (pc : Nat) : SameSources site (issueState s site v) (s.issued site v pc) where
  unit := ⟨((issueState s site v).unit site).nextPc pc, ((issueState s site v).unit site).active, ((issueState s site v).unit site).marks,
    State.unit_setUnit ..⟩
  modes := rfl
  ctxs := rfl
  epochs := rfl
  trims _ := rfl

theorem Unit.settle_onCourse (u : Machine.Unit) (pc : Nat) (ip : Nat × Nat) (active : BitVec 64) (m : Marks) (at_ : Nat) :
    (u.onCourse pc ip active m).settle at_ = (u.settle at_).onCourse pc ip active m := by
  simp only [Unit.settle]
  rw [show (u.onCourse pc ip active m).pend = u.pend from rfl,
    List.foldl_hom (fun u : Machine.Unit => u.onCourse pc ip active m) (g₁ := fun v (p : PendW) => v.writeReg p.reg p.lo p.vals) ?_]
  · rfl
  · intro x p
    cases hreg : p.reg <;> rfl

namespace SameSources
variable {site : Nat}

theorem trimSum (h : SameSources site s t) (st f8 : Nat) (p : Nat → TrimDecl → Bool) : t.trimSum site st f8 p = s.trimSum site st f8 p := by
  obtain ⟨pc, active, m, hm⟩ := h.unit
  have hvsite : t.vsite site = s.vsite site := by
    unfold State.vsite State.ctx
    rw [h.ctxs, hm]
    rfl
  have htrim : ∀ i, (t.strm st).trimFor f8 i = (s.strm st).trimFor f8 i := by
    intro i
    unfold Strm.trimFor
    rw [h.trims]
  unfold State.trimSum
  rw [hvsite]
  simp only [htrim]

theorem src32 (h : SameSources site s t) (c lo at_ : Nat) : t.src32 site c lo at_ = s.src32 site c lo at_ := by
  obtain ⟨pc, active, m, hm⟩ := h.unit
  have htrim : ∀ q st f8, t.consTrim site q st f8 = s.consTrim site q st f8 := fun q st f8 => h.trimSum st f8 _
  unfold State.src32
  rw [hm, Unit.settle_onCourse]
  simp only [htrim]
  obtain ⟨a, b, d, hs⟩ := (s.unit site).settle_eq at_
  rw [hs]
  rfl

theorem src16 (h : SameSources site s t) (c lo at_ : Nat) : t.src16 site c lo at_ = s.src16 site c lo at_ :=
  congrArg (List.map to16) (h.src32 c lo at_)

theorem keyFlit (h : SameSources site s t) (kind kd dChan dChunk : Nat) (pay : BitVec 256) :
    t.keyFlit site kind kd dChan dChunk pay = s.keyFlit site kind kd dChan dChunk pay := by
  obtain ⟨pc, active, m, hm⟩ := h.unit
  have hepoch : ∀ o, t.epoch o = s.epoch o := fun o => congrArg (fun l => Tab.get 0 l o) h.epochs
  unfold State.keyFlit
  rw [hm]
  simp only [hepoch]
  rfl

end SameSources

-- Results in flight.

def Unit.withPend (u : Machine.Unit) (p : PendW) : Machine.Unit := { u with pend := insertPend p u.pend }

theorem State.result_of_h (s : State) (site lo at_ : Nat) (v : List Nat) {dst : Nat} (hdst : dst < 8) :
    s.result site dst lo at_ v = s.setUnit site ((s.unit site).withPend { reg := .h dst, at_ := at_, lo := lo, vals := v.map to16 }) := by
  simp [State.result, hdst, Unit.withPend]

theorem State.result_of_z (s : State) (site lo at_ : Nat) (v : List Nat) {dst : Nat} (hdst : 12 ≤ dst) :
    s.result site dst lo at_ v = s.setUnit site ((s.unit site).withPend { reg := .z (dst - 12), at_ := at_, lo := lo, vals := v }) := by
  simp [State.result, show ¬dst < 8 by omega, Unit.withPend]

/-- ACT leaves its result in flight. -/
theorem State.used_act {site w : Nat} (hlog : (s.modes.hazard && s.modes.hazFault) = false) (hdst : bits w 44 4 < 8) :
    (s.act site w).modes = s.modes ∧ ∃ m, Unit.Used (((s.unit site).marked m).withPend
      { reg := .h (bits w 44 4), at_ := (s.unit site).cyc + (if bits w 38 2 = 0 then 4 else 6), lo := hiLane w
        vals := (s.src16 site (bits w 40 4) (hiLane w) (s.unit site).cyc).map (fun x =>
          to16 (to32 (if bits w 38 2 = 0 then actLook (s.unit site).vtab x else if bits w 38 2 = 1 then recip16 x else exp16 x))) })
      ((s.act site w).unit site) := by
  unfold State.act
  extract_lets u lo src fn s1 v
  have h1 : Quiet site s s1 := State.quiet_rawCheck hlog _ _ _
  obtain ⟨m, hm⟩ := h1.unit
  rw [State.result_of_h s1 site lo _ _ hdst]
  obtain ⟨hmodes, hused⟩ := State.used_useCodes (site := site) (s := s1.setUnit site ((s1.unit site).withPend
    { reg := .h (bits w 44 4), at_ := u.cyc + (if fn = 0 then 4 else 6), lo := lo, vals := (v.map to32).map to16 })) (h1.modes ▸ hlog) [src]
  rw [State.unit_setUnit, hm] at hused
  refine ⟨hmodes.trans h1.modes, m, ?_⟩
  have hvals : (v.map to32).map to16 = (s.src16 site src lo u.cyc).map (fun x =>
      to16 (to32 (if fn = 0 then actLook u.vtab x else if fn = 1 then recip16 x else exp16 x))) := by
    simp only [v, h1.sources.src16, List.map_map]
    rfl
  rw [hvals] at hused
  rw [hm, hvals]
  exact hused

/-- ADD and MUL leave the results of `op` in flight. -/
theorem State.used_elementwise {site w : Nat} {op : Nat → Nat → Nat} (hlog : (s.modes.hazard && s.modes.hazFault) = false) :
    (s.elementwise site w op).modes = s.modes ∧ ∃ m v, v = ((s.src16 site (bits w 40 4) (hiLane w) ((s.unit site).cyc + hiLane w / 32)).zip
        (s.src16 site (bits w 36 4) (hiLane w) ((s.unit site).cyc + hiLane w / 32))).map (fun p => op (to32 p.1) (to32 p.2)) ∧
      (bits w 44 4 < 8 → Unit.Used (((s.unit site).marked m).withPend
        { reg := .h (bits w 44 4), at_ := (s.unit site).cyc + 3, lo := hiLane w, vals := v.map to16 }) ((s.elementwise site w op).unit site)) ∧
      (12 ≤ bits w 44 4 → Unit.Used (((s.unit site).marked m).withPend
        { reg := .z (bits w 44 4 - 12), at_ := (s.unit site).cyc + 3, lo := hiLane w, vals := v }) ((s.elementwise site w op).unit site)) := by
  unfold State.elementwise
  extract_lets u lo a b at_ s1 v
  have h1 : Quiet site s s1 := State.quiet_rawCheck hlog _ _ _
  obtain ⟨m, hm⟩ := h1.unit
  have hv : v = ((s.src16 site a lo at_).zip (s.src16 site b lo at_)).map (fun p => op (to32 p.1) (to32 p.2)) := by
    simp only [v, h1.sources.src16]
  obtain ⟨hmodes, hused⟩ := State.used_useCodes (site := site) (s := s1.result site (bits w 44 4) lo (u.cyc + 3) v) (h1.modes ▸ hlog) [a, b]
  refine ⟨hmodes.trans h1.modes, m, v, hv, fun hdst => ?_, fun hdst => ?_⟩
  · rw [State.result_of_h s1 site lo _ _ hdst, State.unit_setUnit, hm] at hused
    rw [State.result_of_h s1 site lo _ _ hdst, hm]
    exact hused
  · rw [State.result_of_z s1 site lo _ _ hdst, State.unit_setUnit, hm] at hused
    rw [State.result_of_z s1 site lo _ _ hdst, hm]
    exact hused

end Sys2Proof.Machine

/-! EMIT, DWC and ROT of unit programs (R129, R194, R263, R266, R267). -/

namespace Sys2Proof.Machine
set_option Elab.async false
variable {s t : State}

-- What an operation that sends flits leaves of its unit.

/-- The unit's course stays, and the flits `fs` join the lane behind those already there. -/
structure Unit.Sends (lane : Nat) (u v : Machine.Unit) (fs : List Flit) : Prop where
  pc : v.pc = u.pc
  active : v.active = u.active
  cyc : v.cyc = u.cyc
  rot : v.rot = u.rot
  flits : laneFlits v lane = laneFlits u lane ++ fs

namespace Unit.Sends
variable {lane : Nat} {u v x : Machine.Unit} {fs fs' : List Flit}

theorem trans (h : Unit.Sends lane u v fs) (h' : Unit.Sends lane v x fs') : Unit.Sends lane u x (fs ++ fs') :=
  ⟨h'.pc.trans h.pc, h'.active.trans h.active, h'.cyc.trans h.cyc, h'.rot.trans h.rot, by rw [h'.flits, h.flits, List.append_assoc]⟩

theorem of_used (h : Unit.Used u v) : Unit.Sends lane u v [] :=
  ⟨h.pc, h.active, h.cyc, h.rot, by rw [laneFlits_eq, laneFlits_eq, h.lanes, h.pipe, List.append_nil]⟩

theorem marked (m : Marks) : Unit.Sends lane u (u.marked m) [] := of_used (Unit.Used.marked u m)

theorem before (h : Unit.Sends lane u v []) (h' : Unit.Sends lane v x fs) : Unit.Sends lane u x fs := h.trans h'

theorem after (h : Unit.Sends lane u v fs) (h' : Unit.Sends lane v x []) : Unit.Sends lane u x fs := List.append_nil fs ▸ h.trans h'

end Unit.Sends

/-- A state change that sends flits from a unit's lane, and puts no context in FAULT. -/
structure Sends (site lane : Nat) (s t : State) (fs : List Flit) : Prop where
  modes : t.modes = s.modes
  unit : Unit.Sends lane (s.unit site) (t.unit site) fs

namespace Sends
variable {site lane : Nat} {fs fs' : List Flit} {r : State}

theorem trans (h : Sends site lane s t fs) (h' : Sends site lane t r fs') : Sends site lane s r (fs ++ fs') :=
  ⟨h'.modes.trans h.modes, h.unit.trans h'.unit⟩

theorem before (h : Sends site lane s t []) (h' : Sends site lane t r fs) : Sends site lane s r fs := h.trans h'

theorem after (h : Sends site lane s t fs) (h' : Sends site lane t r []) : Sends site lane s r fs :=
  ⟨h'.modes.trans h.modes, h.unit.after h'.unit⟩

theorem of_quiet (h : Quiet site s t) : Sends site lane s t [] := by
  obtain ⟨m, hm⟩ := h.unit
  exact ⟨h.modes, hm ▸ Unit.Sends.marked m⟩

theorem useCodes (hlog : (s.modes.hazard && s.modes.hazFault) = false) (cs : List Nat) : Sends site lane s (s.useCodes site cs) [] := by
  obtain ⟨hmodes, hused⟩ := State.used_useCodes (site := site) hlog cs
  exact ⟨hmodes, Unit.Sends.of_used hused⟩

theorem toLane (hlog : (s.modes.hazard && s.modes.hazFault) = false) (fs : List Flit) : Sends site lane s (s.toLane site lane fs) fs := by
  obtain ⟨hmodes, l, m, hunit, hflits⟩ := State.lanes_toLane (site := site) hlog lane fs
  refine ⟨hmodes, ?_⟩
  rw [hunit]
  exact ⟨rfl, rfl, rfl, rfl, hflits⟩

theorem sendAs (hlog : (s.modes.hazard && s.modes.hazFault) = false) (kd st f8 line chan chunk : Nat) (zo : Int) (u8 : Bool) (codes : List Nat) :
    Sends site lane s (s.sendAs site lane kd st f8 line chan chunk zo u8 codes)
      [mkFlit kData st f8 line chan chunk (s.epoch (s.unit site).owner) (payOf ((s.unit site).fillUp kd chunk zo codes))] := by
  unfold State.sendAs
  extract_lets u f
  have h1 : Sends site lane s (s.modUnit site (fun u => u.histogram (flitChan f) u8 codes)) [] := by
    refine ⟨rfl, ?_⟩
    rw [State.modUnit_eq, State.unit_setUnit]
    unfold Unit.histogram
    split
    · exact Unit.Sends.of_used (Unit.Used.refl _)
    · exact Unit.Sends.of_used (by constructor <;> rfl)
  exact h1.before (Sends.toLane (s := s.modUnit site (fun u => u.histogram (flitChan f) u8 codes)) hlog [f])

/-- Codes leave under a key descriptor: the flit that the key forms, with the chunk filled up past the stripe's width (R207). -/
theorem sendCodes (hlog : (s.modes.hazard && s.modes.hazFault) = false) (kd : Nat) (zo : Int) (u8 : Bool) (codes : List Nat) :
    Sends site lane s (s.sendCodes site lane kd 0 0 zo u8 codes)
      [s.keyFlit site kData kd 0 0 (payOf ((s.unit site).fillUp kd (((s.unit site).key kd).2.2.getD 0) zo codes))] :=
  Sends.sendAs hlog kd (s.unit site).cur.stream (s.unit site).cur.fseq (((s.unit site).key kd).1.getD 0) (((s.unit site).key kd).2.1.getD 0)
    (((s.unit site).key kd).2.2.getD 0) zo u8 codes

end Sends

/-- An instruction that sends flits, issued. -/
theorem Issues.sends {site : Site} {w : Waits} {pc word lane : Nat} {v : Machine.Unit} {op : Nat} {can : Machine.Unit → Nat → Bool}
    {cost : Nat → Nat} {act : State → Nat → State} {fs : List Flit} (h : Issues s site w pc word v) (hop : fOp word = op) (hcan : can v word = true)
    (hsends : Sends site lane (s.issued site v pc) (act (s.issued site v pc) word) fs) :
    GoesOn v ((s.issue site w op can cost act).unit site) pc (cost word) ∧
      laneFlits ((s.issue site w op can cost act).unit site) lane = laneFlits v lane ++ fs := by
  obtain ⟨a, hissued⟩ := s.unit_issued site v pc
  have hunit := hsends.unit
  rw [hissued] at hunit
  obtain ⟨hgo, b, hx⟩ := Issues.goesOn (x := (act (s.issued site v pc) word).unit site) (cost := cost) h hop hcan hsends.modes rfl
    hunit.pc hunit.active hunit.cyc
  refine ⟨hgo, ?_⟩
  rw [hx, laneFlits_eq, Unit.lanes_spent, Unit.pipe_spent, ← laneFlits_eq]
  exact hunit.flits

-- EMIT.

/-- EMIT of a vector register's low lanes as codes. -/
theorem Sends.emit_codes {site w : Nat} (hlog : (s.modes.hazard && s.modes.hazFault) = false) (hkind : kindOf site = .v)
    (hsrc : bits w 42 4 < 8 ∨ 12 ≤ bits w 42 4) (hdata : bits w 39 3 = kData) (hwide : fFlag w 1 = false) (hraw : fFlag w 2 = false) :
    Sends site (bits w 46 2) s (s.emit site w)
      [s.keyFlit site kData (bits w 35 4) 0 0 (payOf ((s.unit site).fillUp (bits w 35 4) (((s.unit site).key (bits w 35 4)).2.2.getD 0)
        (zoOf (fFlag w 0) (bits w 21 8)) (codesOf (s.src32 site (bits w 42 4) 0 (s.unit site).cyc)
        (sext 6 (bits w 29 6)) (zoOf (fFlag w 0) (bits w 21 8)) (fFlag w 0))))] := by
  have hqueue : (decide (8 ≤ bits w 42 4) && decide (bits w 42 4 < 11)) = false := by
    rcases hsrc with h | h <;> simp <;> omega
  have h1 : Quiet site s (s.rawCheck site 0 (s.unit site).cyc [bits w 42 4]) := State.quiet_rawCheck hlog _ _ _
  have hemit : s.emit site w = ((s.rawCheck site 0 (s.unit site).cyc [bits w 42 4]).sendCodes site (bits w 46 2) (bits w 35 4) 0 0
      (zoOf (fFlag w 0) (bits w 21 8)) (fFlag w 0) (codesOf ((s.rawCheck site 0 (s.unit site).cyc [bits w 42 4]).src32 site (bits w 42 4) 0
        (((s.rawCheck site 0 (s.unit site).cyc [bits w 42 4]).unit site).cyc)) (sext 6 (bits w 29 6)) (zoOf (fFlag w 0) (bits w 21 8)) (fFlag w 0))).useCodes
      site [bits w 42 4] := by
    simp only [State.emit, hqueue, hwide, hraw, hkind, State.emitLanes, hdata]
    simp
  rw [hemit]
  generalize s.rawCheck site 0 (s.unit site).cyc [bits w 42 4] = s1 at h1 ⊢
  have hlog1 : (s1.modes.hazard && s1.modes.hazFault) = false := h1.modes ▸ hlog
  have hsend := Sends.sendCodes (site := site) (lane := bits w 46 2) hlog1 (bits w 35 4) (zoOf (fFlag w 0) (bits w 21 8)) (fFlag w 0)
    (codesOf (s1.src32 site (bits w 42 4) 0 (s1.unit site).cyc) (sext 6 (bits w 29 6)) (zoOf (fFlag w 0) (bits w 21 8)) (fFlag w 0))
  have huse := Sends.useCodes (site := site) (lane := bits w 46 2) (hsend.modes ▸ hlog1) [bits w 42 4]
  have hall := ((Sends.of_quiet h1).before hsend).after huse
  obtain ⟨m, hm⟩ := h1.unit
  have hcyc : (s1.unit site).cyc = (s.unit site).cyc := by rw [hm]; rfl
  rw [hcyc, h1.sources.keyFlit, h1.sources.src32, hm] at hall
  rw [hcyc, h1.sources.src32]
  exact hall

/-- EMIT of a bound entry's payload. -/
theorem Sends.emit_entry {site w q : Nat} (hlog : (s.modes.hazard && s.modes.hazFault) = false) (hkind : kindOf site ≠ .v)
    (hsrc : bits w 42 4 = 8 + q) (hq : q < 3) (hwide : fFlag w 1 = false) :
    Sends site (bits w 46 2) s (s.emit site w) [s.keyFlit site (bits w 39 3) (bits w 35 4) 0 0 ((s.unit site).readQ q).pay] := by
  have h1 : Quiet site s (s.rawCheck site 0 (s.unit site).cyc [8 + q]) := State.quiet_rawCheck hlog _ _ _
  have hemit : s.emit site w = ((s.rawCheck site 0 (s.unit site).cyc [8 + q]).toLane site (bits w 46 2)
      [(s.rawCheck site 0 (s.unit site).cyc [8 + q]).keyFlit site (bits w 39 3) (bits w 35 4) 0 0 ((s.unit site).readQ q).pay]).useCodes site [8 + q] := by
    simp only [State.emit, hsrc, hwide, State.emitPay]
    simp [hkind, show 8 + q < 11 by omega]
  rw [hemit]
  generalize s.rawCheck site 0 (s.unit site).cyc [8 + q] = s1 at h1 ⊢
  have hlog1 : (s1.modes.hazard && s1.modes.hazFault) = false := h1.modes ▸ hlog
  rw [h1.sources.keyFlit]
  have hsend := Sends.toLane (site := site) (lane := bits w 46 2) hlog1 [s.keyFlit site (bits w 39 3) (bits w 35 4) 0 0 ((s.unit site).readQ q).pay]
  have huse := Sends.useCodes (site := site) (lane := bits w 46 2) (hsend.modes ▸ hlog1) [8 + q]
  exact ((Sends.of_quiet h1).before hsend).after huse

/-- DWC sends the convolution's codes (R267). -/
theorem Sends.dwcOp {site w : Nat} (hlog : (s.modes.hazard && s.modes.hazFault) = false) :
    Sends site (bits w 46 2) s (s.dwcOp site w)
      [s.keyFlit site kData (bits w 35 4) 0 0 (payOf ((s.unit site).fillUp (bits w 35 4) (((s.unit site).key (bits w 35 4)).2.2.getD 0)
        (zoOf (fFlag w 0) (bits w 21 8)) (codesOf
          ((s.unit site).dwcY w ((s.unit site).lastRows (if bit w 45 then 5 else 3)) (((s.unit site).key (bits w 35 4)).2.2.getD 0))
          (sext 6 (bits w 29 6)) (zoOf (fFlag w 0) (bits w 21 8)) (fFlag w 0))))] := by
  unfold State.dwcOp
  extract_lets u k chunk rows u8 s1
  have h1 := Sends.sendCodes (site := site) (lane := bits w 46 2) hlog (bits w 35 4) (zoOf u8 (bits w 21 8)) u8
    (codesOf (u.dwcY w rows chunk) (sext 6 (bits w 29 6)) (zoOf u8 (bits w 21 8)) u8)
  refine h1.after ⟨rfl, ?_⟩
  rw [State.modUnit_eq, State.unit_setUnit]
  exact Unit.Sends.of_used (by constructor <;> rfl)

-- ROT.

theorem Unit.relax_onCourse (u : Machine.Unit) (pc : Nat) (ip : Nat × Nat) (active : BitVec 64) (m : Marks) :
    (u.onCourse pc ip active m).relax = u.relax.onCourse pc ip active m := rfl

theorem Unit.owe_onCourse (u : Machine.Unit) (e : QEnt) (pc : Nat) (ip : Nat × Nat) (active : BitVec 64) (m : Marks) :
    (u.onCourse pc ip active m).owe e = (u.owe e).onCourse pc ip active m := by
  unfold Unit.owe
  split <;> rfl

/-- The unit after a ROT has taken a flit. -/
def Unit.rotTook (u : Machine.Unit) (r : RotRun) (j : Nat) (e : QEnt) : Machine.Unit :=
  ({ u with queues := Tab.set u.queues r.queue ((Tab.get [] u.queues r.queue).eraseIdx j), rot := some { r with got := r.got ++ [e.flit] } }.owe e).relax

theorem Unit.rotTook_eq (u : Machine.Unit) (r : RotRun) (j : Nat) (e : QEnt) : ∃ queues backs skidding, u.rotTook r j e =
    { u with queues := queues, rot := some { r with got := r.got ++ [e.flit] }, backs := backs, skidding := skidding } := by
  obtain ⟨backs, h⟩ := Unit.owe_eq { u with
    queues := Tab.set u.queues r.queue ((Tab.get [] u.queues r.queue).eraseIdx j), rot := some { r with got := r.got ++ [e.flit] } } e
  exact ⟨_, backs, _, by rw [Unit.rotTook, h]; rfl⟩

theorem Unit.rotTook_onCourse (u : Machine.Unit) (r : RotRun) (j : Nat) (e : QEnt) (pc : Nat) (ip : Nat × Nat) (active : BitVec 64) (m : Marks) :
    (u.onCourse pc ip active m).rotTook r j e = (u.rotTook r j e).onCourse pc ip active m := by
  unfold Unit.rotTook
  rw [← Unit.relax_onCourse, ← Unit.owe_onCourse]
  rfl

theorem Unit.rotTake_onCourse (n : Nat) (u : Machine.Unit) (pc : Nat) (ip : Nat × Nat) (active : BitVec 64) (m : Marks) :
    Unit.rotTake n (u.onCourse pc ip active m) = (Unit.rotTake n u).onCourse pc ip active m := by
  induction n generalizing u with
  | zero => rfl
  | succ n ih =>
    simp only [Unit.rotTake]
    rw [show (u.onCourse pc ip active m).rot = u.rot from rfl]
    split
    · rfl
    · next r hr =>
      split
      · rfl
      · rw [show (u.onCourse pc ip active m).rotNext r = u.rotNext r from rfl]
        split
        · rfl
        · next j hj =>
          rw [show (u.onCourse pc ip active m).queues = u.queues from rfl]
          split
          · rfl
          · next e he =>
            refine Eq.trans ?_ (ih (u.rotTook r j e))
            exact congrArg (Unit.rotTake n) (u.rotTook_onCourse r j e pc ip active m)

/-- A ROT in course takes flits, and stays the ROT it is. -/
theorem Unit.rotTake_keeps (n : Nat) (u : Machine.Unit) {r : RotRun} (hr : u.rot = some r) :
    ∃ r', (Unit.rotTake n u).rot = some r' ∧ r'.word = r.word ∧ (Unit.rotTake n u).pc = u.pc ∧ (Unit.rotTake n u).active = u.active ∧
      (Unit.rotTake n u).cyc = u.cyc ∧ (Unit.rotTake n u).lanes = u.lanes ∧ (Unit.rotTake n u).pipe = u.pipe := by
  induction n generalizing u r with
  | zero => exact ⟨r, hr, rfl, rfl, rfl, rfl, rfl, rfl⟩
  | succ n ih =>
    simp only [Unit.rotTake, hr]
    split
    · exact ⟨r, hr, rfl, rfl, rfl, rfl, rfl, rfl⟩
    · split
      · exact ⟨r, hr, rfl, rfl, rfl, rfl, rfl, rfl⟩
      · next j hj =>
        split
        · exact ⟨r, hr, rfl, rfl, rfl, rfl, rfl, rfl⟩
        · next e he =>
          obtain ⟨queues, backs, skidding, htook⟩ := u.rotTook_eq r j e
          obtain ⟨r', hrot, hword, hpc, hactive, hcyc, hlanes, hpipe⟩ := ih (u.rotTook r j e) (r := { r with got := r.got ++ [e.flit] }) (by rw [htook])
          exact ⟨r', hrot, hword, hpc.trans (by rw [htook]), hactive.trans (by rw [htook]), hcyc.trans (by rw [htook]), hlanes.trans (by rw [htook]),
            hpipe.trans (by rw [htook])⟩

/-- Several flits sent one after the other. -/
theorem Sends.foldl {site lane : Nat} {f : State → Nat → State}
    (hf : ∀ (s : State) (j : Nat), (s.modes.hazard && s.modes.hazFault) = false → ∃ x, Sends site lane s (f s j) [x])
    (hlog : (s.modes.hazard && s.modes.hazFault) = false) (l : List Nat) :
    ∃ fs, fs.length = l.length ∧ Sends site lane s (l.foldl f s) fs := by
  induction l generalizing s with
  | nil => exact ⟨[], rfl, rfl, rfl, rfl, rfl, rfl, (List.append_nil _).symm⟩
  | cons j l ih =>
    obtain ⟨x, h1⟩ := hf s j hlog
    obtain ⟨fs, hlen, h2⟩ := ih (h1.modes ▸ hlog)
    exact ⟨_, by simp [hlen], h1.trans h2⟩

/-- The unit once its ROT has taken its last flit. -/
def Unit.rotEnded (u : Machine.Unit) (r : RotRun) : Machine.Unit :=
  { u with rot := none, rowOp := some { at_ := r.at_, k := rotSize r.word, word := r.word, rows := [], chunk := 0 } }

/-- A ROT in course (R266): the unit has taken flits, and with the last of them the ROT ends and sends its transform. -/
theorem State.rotRun_of_course {site : Nat} {u : Machine.Unit} {r : RotRun} (hu : Unit.rotTake 64 (s.unit site) = u) (hr : u.rot = some r) :
    (r.got.length < rotSize r.word → s.rotRun site = s.setUnit site u) ∧
      (¬r.got.length < rotSize r.word → ∃ codes : Nat → List Nat, s.rotRun site = (List.range (rotSize r.word)).foldl (fun s j =>
        s.sendAs site (bits r.word 46 2) (bits r.word 33 4) r.stream r.fseq r.outLine (r.outChan + j) r.outChunk
          (zoOf (fFlag r.word 0) (bits r.word 19 8)) (fFlag r.word 0) (codes j)) (s.setUnit site (u.rotEnded r))) := by
  unfold State.rotRun
  rw [hu]
  extract_lets u'
  simp only [u', hr]
  refine ⟨fun hless => if_pos hless, fun hfull => ?_⟩
  rw [if_neg hfull]
  exact ⟨_, rfl⟩

/-- A ROT in course (R266): it stays in course while flits are missing, and sends its transform with the last. -/
theorem State.sends_rotRun {site : Nat} (hlog : (s.modes.hazard && s.modes.hazFault) = false) {r₀ r : RotRun} (hr₀ : (s.unit site).rot = some r₀)
    (hr : (Unit.rotTake 64 (s.unit site)).rot = some r) :
    ∃ fs, (s.rotRun site).modes = s.modes ∧ ((s.rotRun site).unit site).pc = (s.unit site).pc ∧
      ((s.rotRun site).unit site).active = (s.unit site).active ∧ ((s.rotRun site).unit site).cyc = (s.unit site).cyc ∧
      laneFlits ((s.rotRun site).unit site) (bits r₀.word 46 2) = laneFlits (s.unit site) (bits r₀.word 46 2) ++ fs ∧
      (if r.got.length < rotSize r₀.word then ((s.rotRun site).unit site).rot = some r ∧ fs = []
        else ((s.rotRun site).unit site).rot = none ∧ fs.length = rotSize r₀.word) := by
  obtain ⟨r', hr', hword, hpc, hactive, hcyc, hlanes, hpipe⟩ := Unit.rotTake_keeps 64 (s.unit site) hr₀
  obtain rfl : r = r' := Option.some.inj (hr.symm.trans hr')
  have hflits : ∀ x : Machine.Unit, x.lanes = (Unit.rotTake 64 (s.unit site)).lanes → x.pipe = (Unit.rotTake 64 (s.unit site)).pipe →
      ∀ lane, laneFlits x lane = laneFlits (s.unit site) lane := by
    intro x hl hp lane
    rw [laneFlits_eq, laneFlits_eq, hl, hp, hlanes, hpipe]
  rw [← hword]
  obtain ⟨hless, hfull⟩ := State.rotRun_of_course rfl hr
  generalize Unit.rotTake 64 (s.unit site) = u at hpc hactive hcyc hr hflits hless hfull
  by_cases hlt : r.got.length < rotSize r.word
  · refine ⟨[], ?_⟩
    rw [hless hlt, State.unit_setUnit, if_pos hlt]
    exact ⟨rfl, hpc, hactive, hcyc, by rw [hflits u rfl rfl, List.append_nil], hr, rfl⟩
  · obtain ⟨codes, hrun⟩ := hfull hlt
    obtain ⟨fs, hlen, hsends⟩ := Sends.foldl (s := s.setUnit site (u.rotEnded r)) (site := site) (lane := bits r.word 46 2)
      (fun s j hlog => ⟨_, Sends.sendAs hlog (bits r.word 33 4) r.stream r.fseq r.outLine (r.outChan + j) r.outChunk
        (zoOf (fFlag r.word 0) (bits r.word 19 8)) (fFlag r.word 0) (codes j)⟩) hlog (List.range (rotSize r.word))
    rw [← hrun] at hsends
    obtain ⟨hm, hpc', hactive', hcyc', hrot', hflits'⟩ := hsends
    rw [State.unit_setUnit] at hpc' hactive' hcyc' hrot' hflits'
    refine ⟨fs, ?_⟩
    rw [if_neg hlt]
    exact ⟨hm, hpc'.trans hpc, hactive'.trans hactive, hcyc'.trans hcyc, hflits'.trans (by rw [hflits (u.rotEnded r) rfl rfl]), hrot',
      by rw [hlen, List.length_range]⟩

/-- The unit at the start of a ROT. -/
def Unit.rotBegun (u : Machine.Unit) (w : Nat) (c : Cur) : Machine.Unit := { u with rot := some (u.rotStart w c), cur := c }

theorem State.unit_unitOpens (s : State) (site : Nat) : (s.unitOpens site).modes = s.modes ∧ ∃ m, (s.unitOpens site).unit site = (s.unit site).marked m := by
  unfold State.unitOpens
  extract_lets u
  split
  · obtain ⟨m, hm⟩ := u.exists_openWindow
    exact ⟨rfl, m, (State.unit_setUnit ..).trans hm⟩
  · exact ⟨rfl, u.marks, rfl⟩

theorem State.rot_eq {site w : Nat} {c : Cur} (hc : (s.unit site).rotCur w = some c) :
    s.rot site w = (if !(s.unit site).cur.opened then (s.setUnit site ((s.unit site).rotBegun w c)).unitOpens site
      else s.setUnit site ((s.unit site).rotBegun w c)).rotRun site := by
  unfold State.rot
  extract_lets u
  simp only [u, hc]
  rfl

/-- A ROT that starts: what it leaves of its unit is what the ROT in course leaves. -/
theorem State.sends_rot {site w : Nat} (hlog : (s.modes.hazard && s.modes.hazFault) = false) {c : Cur} {r : RotRun}
    (hc : (s.unit site).rotCur w = some c)
    (hr : (Unit.rotTake 64 ((s.unit site).rotBegun w c)).rot = some r) :
    ∃ fs, (s.rot site w).modes = s.modes ∧ ((s.rot site w).unit site).pc = (s.unit site).pc ∧
      ((s.rot site w).unit site).active = (s.unit site).active ∧ ((s.rot site w).unit site).cyc = (s.unit site).cyc ∧
      laneFlits ((s.rot site w).unit site) (bits w 46 2) = laneFlits (s.unit site) (bits w 46 2) ++ fs ∧
      (if r.got.length < rotSize w then ((s.rot site w).unit site).rot = some r ∧ fs = []
        else ((s.rot site w).unit site).rot = none ∧ fs.length = rotSize w) := by
  have hopened : ∃ (t : State) (m : Marks), s.rot site w = t.rotRun site ∧ t.modes = s.modes ∧ t.unit site = ((s.unit site).rotBegun w c).marked m := by
    rw [State.rot_eq hc]
    split
    · obtain ⟨hmodes, m, hm⟩ := (s.setUnit site ((s.unit site).rotBegun w c)).unit_unitOpens site
      exact ⟨_, m, rfl, hmodes, hm.trans (by rw [State.unit_setUnit])⟩
    · exact ⟨_, ((s.unit site).rotBegun w c).marks, rfl, rfl, State.unit_setUnit ..⟩
  obtain ⟨t, m, ht, hmodes, hunit⟩ := hopened
  have htake : (Unit.rotTake 64 (t.unit site)).rot = some r := by
    rw [hunit]
    exact (congrArg Machine.Unit.rot (Unit.rotTake_onCourse 64 _ (s.unit site).pc (s.unit site).issuePc (s.unit site).active m)).trans hr
  obtain ⟨fs, hm, hpc, hactive, hcyc, hflits, hrot⟩ := State.sends_rotRun (hmodes ▸ hlog) (by rw [hunit]; rfl) htake
  rw [hunit] at hpc hactive hcyc hflits
  rw [ht]
  exact ⟨fs, hm.trans hmodes, hpc, hactive, hcyc, hflits, hrot⟩

-- What an instruction that leaves a result in flight does, issued.

theorem Issues.pends {site : Site} {w : Waits} {pc word : Nat} {v : Machine.Unit} {op : Nat} {act : State → Nat → State} {p : PendW}
    (h : Issues s site w pc word v) (hop : fOp word = op) (hmodes : (act (s.issued site v pc) word).modes = (s.issued site v pc).modes)
    (hused : ∃ m, Unit.Used ((((s.issued site v pc).unit site).marked m).withPend p) ((act (s.issued site v pc) word).unit site)) :
    GoesOn v ((s.issue site w op always (fun _ => 1) act).unit site) pc 1 ∧
      ((s.issue site w op always (fun _ => 1) act).unit site).pend = insertPend p v.pend := by
  obtain ⟨m, hused⟩ := hused
  obtain ⟨a, hissued⟩ := s.unit_issued site v pc
  rw [hissued] at hused
  obtain ⟨hgo, b, hx⟩ := Issues.goesOn (x := (act (s.issued site v pc) word).unit site) (cost := fun _ => 1) (can := always) h hop rfl hmodes rfl
    hused.pc hused.active hused.cyc
  refine ⟨hgo, ?_⟩
  rw [hx, Unit.pend_spent, hused.pend]
  rfl

theorem Unit.gapAdd_eq (u : Machine.Unit) (dst : Nat) : ∃ bankA gapDst, u.gapAdd dst = { u with bankA := bankA, gapDst := gapDst } := by
  unfold Unit.gapAdd
  split
  · exact ⟨_, _, rfl⟩
  · exact ⟨_, _, rfl⟩

theorem Unit.gapAdd_onCourse (u : Machine.Unit) (dst pc : Nat) (ip : Nat × Nat) (active : BitVec 64) (m : Marks) :
    (u.onCourse pc ip active m).gapAdd dst = (u.gapAdd dst).onCourse pc ip active m := by
  unfold Unit.gapAdd
  rw [show (u.onCourse pc ip active m).rowLast = u.rowLast from rfl]
  split
  · rfl
  · rfl

/-- The unit once POOL has taken a window of rows (R264). -/
def Unit.pooled (u : Machine.Unit) (w k : Nat) : Machine.Unit :=
  { u.withPend { reg := .z (bits w 44 4 - 12), at_ := u.cyc + k + 4, lo := hiLane w
                 vals := u.poolY w (u.lastRows k) (u.poolChunk (if bit w 40 then 2 else 1)) } with
    rowOp := some { at_ := u.cyc, k := k, word := w, rows := u.lastRows k, chunk := u.poolChunk (if bit w 40 then 2 else 1) }
    rowOut := (u.rowOut + 1) % 256 }

theorem State.poolOp_of_window {site w : Nat} (hkind : bits w 42 2 < 2) (hdst : 12 ≤ bits w 44 4) :
    (s.poolOp site w).modes = s.modes ∧ (s.poolOp site w).unit site = (s.unit site).pooled w (if bit w 41 then 3 else 2) := by
  unfold State.poolOp
  extract_lets u k dst rows chunk s1
  rw [if_neg (by omega : bits w 42 2 ≠ 2)]
  have h1 : s1 = s.setUnit site (u.withPend { reg := .z (dst - 12), at_ := u.cyc + k + 4, lo := hiLane w, vals := u.poolY w rows chunk }) :=
    State.result_of_z s site (hiLane w) (u.cyc + k + 4) (u.poolY w rows chunk) hdst
  rw [h1, State.modUnit_eq, State.unit_setUnit, State.unit_setUnit]
  exact ⟨rfl, rfl⟩

theorem State.poolOp_of_gap {site w : Nat} (hkind : bits w 42 2 = 2) : s.poolOp site w = s.setUnit site ((s.unit site).gapAdd (bits w 44 4)) := by
  simp only [State.poolOp, hkind, if_pos]

/-- Settles O28: a V-unit's results become usable at their latency (R263, R265), and EMIT, DWC and ROT send their flits behind those of the lane. -/
theorem vectorUnitsCompute : Obligations.VectorUnitsCompute := by
  unfold Obligations.VectorUnitsCompute
  refine ⟨⟨?_, ?_, ?_, ?_, ?_⟩, ?_, ?_, ?_, ?_⟩
  · intro site w pc word lo v s h hop hdst hlo
    subst hlo
    obtain ⟨a, hissued⟩ := s.unit_issued site v pc
    obtain ⟨hmodes, hused⟩ := State.used_act (s := s.issued site v pc) (site := site) (w := word) (Issues.log_issued h) hdst
    rw [(State.sources_issued s site v pc).src16, show ((s.issued site v pc).unit site).cyc = v.cyc by rw [hissued]; rfl,
      show ((s.issued site v pc).unit site).vtab = v.vtab by rw [hissued]; rfl] at hused
    exact ⟨_, rfl, Issues.pends (act := fun s w => s.act site w) h hop hmodes hused⟩
  · intro site w pc word lo v s h hop hdst hlo
    subst hlo
    obtain ⟨a, hissued⟩ := s.unit_issued site v pc
    obtain ⟨hmodes, m, vals, hvals, hused, -⟩ := State.used_elementwise (s := s.issued site v pc) (site := site) (w := word) (op := add32)
      (Issues.log_issued h)
    rw [(State.sources_issued s site v pc).src16, (State.sources_issued s site v pc).src16,
      show ((s.issued site v pc).unit site).cyc = v.cyc by rw [hissued]; rfl] at hvals
    have hused := hused hdst
    rw [hvals, List.map_map, show ((s.issued site v pc).unit site).cyc = v.cyc by rw [hissued]; rfl] at hused
    exact ⟨_, rfl, Issues.pends (act := fun s w => s.elementwise site w add32) h hop hmodes ⟨m, hused⟩⟩
  · intro site w pc word lo v s h hop hdst hlo
    subst hlo
    obtain ⟨a, hissued⟩ := s.unit_issued site v pc
    obtain ⟨hmodes, m, vals, hvals, -, hused⟩ := State.used_elementwise (s := s.issued site v pc) (site := site) (w := word) (op := mul32)
      (Issues.log_issued h)
    rw [(State.sources_issued s site v pc).src16, (State.sources_issued s site v pc).src16,
      show ((s.issued site v pc).unit site).cyc = v.cyc by rw [hissued]; rfl] at hvals
    have hused := hused hdst
    rw [hvals, show ((s.issued site v pc).unit site).cyc = v.cyc by rw [hissued]; rfl] at hused
    exact ⟨_, rfl, Issues.pends (act := fun s w => s.elementwise site w mul32) h hop hmodes ⟨m, hused⟩⟩
  · intro site w pc word k v s h hop hkind hdst hk hrot
    subst hk
    obtain ⟨a, hissued⟩ := s.unit_issued site v pc
    obtain ⟨hmodes, hunit⟩ := State.poolOp_of_window (s := s.issued site v pc) (site := site) hkind hdst
    rw [hissued] at hunit
    obtain ⟨hgo, b, hx⟩ := Issues.goesOn (cost := fun _ => 1) (can := fun u _ => u.rot.isNone) (act := fun s w => s.poolOp site w) h hop
      (by simp [hrot]) hmodes hunit rfl rfl rfl
    refine ⟨_, rfl, hgo, ?_, ?_⟩
    · rw [hx, Unit.rowOut_spent]
      rfl
    · rw [hx, Unit.pend_spent]
      rfl
  · intro site w pc word v s h hop hkind hrot
    obtain ⟨a, hissued⟩ := s.unit_issued site v pc
    have hact : (s.issued site v pc).poolOp site word = _ := State.poolOp_of_gap hkind
    obtain ⟨bankA, gapDst, hgap⟩ := v.gapAdd_eq (bits word 44 4)
    have hunit : ((s.issued site v pc).poolOp site word).unit site =
        (v.gapAdd (bits word 44 4)).onCourse (v.nextPc pc) ((s.unit site).pc, (s.unit site).group.pc) v.active a := by
      rw [hact, State.unit_setUnit, hissued]
      exact Unit.gapAdd_onCourse ..
    obtain ⟨hgo, b, hx⟩ := Issues.goesOn (cost := fun _ => 1) (can := fun u _ => u.rot.isNone) (act := fun s w => s.poolOp site w) h hop
      (by simp [hrot]) (by rw [hact]; rfl) hunit rfl rfl (by rw [hgap]; rfl)
    refine ⟨_, rfl, hgo, ?_, ?_⟩
    · rw [hx, Unit.bankA_spent]
      rfl
    · rw [hx, Unit.pend_spent, hgap]
      rfl
  · intro site w pc word v s h hop hkind hsrc hdata hwide hraw hroom
    obtain ⟨a, hissued⟩ := s.unit_issued site v pc
    have hsends := Sends.emit_codes (s := s.issued site v pc) (site := site) (Issues.log_issued h) hkind hsrc hdata hwide hraw
    rw [(State.sources_issued s site v pc).keyFlit, (State.sources_issued s site v pc).src32, hissued] at hsends
    have hcount : emitCount site word = 1 := by simp [emitCount, hwide, hraw]
    have hgo := Issues.sends (cost := fun w => if fFlag w 1 then 2 else 1) (can := fun u w => u.laneRoom (bits w 46 2) (emitCount site w))
      (act := fun s w => s.emit site w) h hop
      (by simpa [hcount] using hroom) hsends
    rw [hwide] at hgo
    exact ⟨_, rfl, hgo⟩
  · intro site w pc word q v s h hop hkind hsrc hq hroom hwide
    obtain ⟨a, hissued⟩ := s.unit_issued site v pc
    have hsends := Sends.emit_entry (s := s.issued site v pc) (site := site) (Issues.log_issued h) hkind hsrc hq hwide
    rw [(State.sources_issued s site v pc).keyFlit, hissued] at hsends
    have hgo := Issues.sends (cost := fun w => if fFlag w 1 then 2 else 1) (can := fun u w => u.laneRoom (bits w 46 2) (emitCount site w))
      (act := fun s w => s.emit site w) h hop
      hroom hsends
    rw [hwide] at hgo
    exact ⟨_, rfl, hgo⟩
  · intro site w pc word chunk v s h hop hroom hrot hchunk
    subst hchunk
    obtain ⟨a, hissued⟩ := s.unit_issued site v pc
    have hsends := Sends.dwcOp (s := s.issued site v pc) (site := site) (w := word) (Issues.log_issued h)
    rw [(State.sources_issued s site v pc).keyFlit, hissued] at hsends
    exact ⟨_, rfl, Issues.sends (cost := fun _ => 1) (can := fun u w => u.laneRoom (bits w 46 2) 1 && u.rot.isNone)
      (act := fun s w => s.dwcOp site w) h hop
      (by simp [hroom, hrot]) hsends⟩
  · intro site w pc word v u c r s h hop hroom hrot hcur hu hr
    subst hu
    obtain ⟨m, hstate⟩ := s.unit_issueState site v
    obtain ⟨a, hissued⟩ := s.unit_issued site v pc
    have hc : ((s.issued site v pc).unit site).rotCur word = some c := by rw [hissued]; exact hcur
    have htake : (Unit.rotTake 64 (((s.issued site v pc).unit site).rotBegun word c)).rot = some r := by
      rw [hissued]
      rw [hstate] at hr
      rw [show (({ v with issuePc := ((s.unit site).pc, (s.unit site).group.pc), pc := v.nextPc pc } : Machine.Unit).marked a).rotBegun word c =
        ((({ v with issuePc := ((s.unit site).pc, (s.unit site).group.pc) } : Machine.Unit).marked m).rotBegun word c).onCourse (v.nextPc pc)
          ((s.unit site).pc, (s.unit site).group.pc) v.active a from rfl, Unit.rotTake_onCourse]
      exact hr
    obtain ⟨fs, hmodes, hpc, hactive, hcyc, hflits, hrotNow⟩ := State.sends_rot (Issues.log_issued h) hc htake
    rw [hissued] at hpc hactive hcyc hflits
    obtain ⟨hgo, b, hx⟩ := Issues.goesOn (cost := fun _ => 1) (act := fun s w => s.rot site w)
      (can := fun u w => u.laneRoom (bits w 46 2) 1 && u.rot.isNone && (u.rotCur w).isSome) h hop (by simp [hroom, hrot, hcur]) hmodes rfl hpc hactive hcyc
    refine ⟨_, fs, rfl, hgo, ?_, ?_⟩
    · rw [hx, laneFlits_eq, Unit.lanes_spent, Unit.pipe_spent, ← laneFlits_eq]
      exact hflits
    · rw [hx, Unit.rot_spent]
      exact hrotNow

end Sys2Proof.Machine

/-! Yallek links: what the operations of the machine leave of a port (R383-R388). -/

namespace Sys2Proof.Machine
set_option Elab.async false
variable {s t : State}

-- A port but for the Spores it sends.

/-- A port but for its transmitter and its alignments. -/
def Yport.base (y : Yport) : Yport := { y with tx := [], sent := [], replay := [], txSeq := 0, align := [], probes := [] }

def State.base (s : State) (p : Nat) : Yport := (s.yport p).base

theorem State.yport_of_yports (h : t.yports = s.yports) (p : Nat) : t.yport p = s.yport p := by
  unfold State.yport
  rw [h]

theorem State.base_of_yports (h : t.yports = s.yports) (p : Nat) : t.base p = s.base p := congrArg Yport.base (State.yport_of_yports h p)

/-- The Spores that `pump` sends. -/
theorem Yport.pump_eq (n : Nat) (y : Yport) : ∃ tx sent replay, y.pump n = { y with tx := tx, sent := sent, replay := replay } := by
  induction n generalizing y with
  | zero => exact ⟨y.tx, y.sent, y.replay, rfl⟩
  | succ n ih =>
    unfold Yport.pump
    split
    · exact ⟨y.tx, y.sent, y.replay, rfl⟩
    · next b t h =>
      split
      · obtain ⟨tx, sent, replay, hp⟩ := ih { y with tx := t, sent := b :: y.sent, replay := y.replay ++ [(BitVec.ofNat 16 (fieldLe b 4 2), 0, b)] }
        exact ⟨tx, sent, replay, hp⟩
      · exact ⟨y.tx, y.sent, y.replay, rfl⟩

theorem Yport.pump_of_nil (n : Nat) {y : Yport} (h : y.tx = []) : y.pump n = y := by
  cases n with
  | zero => rfl
  | succ n => simp only [Yport.pump, h]

theorem State.yport_modYport (s : State) (p q : Nat) (f : Yport → Yport) :
    (s.modYport q f).yport p = if p = q then f (s.yport q) else s.yport p := by
  rw [State.modYport_eq]
  split
  · next h => rw [h, State.yport_setYport]
  · next h => exact State.yport_setYport_ne s q p _ (Ne.symm h)

theorem State.base_modYport {f : Yport → Yport} (hf : ∀ y : Yport, (f y).base = y.base) (s : State) (p q : Nat) : (s.modYport q f).base p = s.base p := by
  unfold State.base
  rw [State.yport_modYport]
  split
  · next h => rw [hf, h]
  · rfl

theorem State.base_queueSpore (s : State) (q typ epoch : Nat) (body : Bytes) (p : Nat) : (s.queueSpore q typ epoch body).base p = s.base p := by
  refine State.base_modYport (fun y => ?_) s p q
  obtain ⟨tx, sent, replay, h⟩ := Yport.pump_eq 64 { y with
    tx := y.tx ++ [s.spore q typ epoch (s.yport q).txSeq.toNat body], txSeq := y.txSeq + 1 }
  rw [h]
  rfl

-- A request of a stall sends STALL Spores and nothing else (R395).

/-- A port but for the Spores on its link. -/
def Yport.quiet (y : Yport) : Yport := { y with sent := [] }

def State.quietPort (s : State) (p : Nat) : Yport := (s.yport p).quiet

theorem State.base_of_quietPort {p : Nat} (h : t.quietPort p = s.quietPort p) : t.base p = s.base p := by
  have hbase : (t.quietPort p).base = (s.quietPort p).base := by rw [h]
  exact hbase

theorem State.quietPort_sendSpore (s : State) (q typ : Nat) (body : Bytes) (p : Nat) : (s.sendSpore q typ body).quietPort p = s.quietPort p := by
  unfold State.quietPort State.sendSpore
  rw [State.yport_modYport]
  split
  · next h =>
    rw [h]
    rfl
  · rfl

theorem State.quietPort_stallChanged (s : State) (g p : Nat) : (s.stallChanged g).quietPort p = s.quietPort p :=
  foldl_same (g := fun s => s.quietPort p) (fun s q => (State.quietPort_sendSpore _ _ _ _ _).trans (State.quietPort_sendSpore _ _ _ _ _)) _ s

theorem State.quietPort_settleGroup (s : State) (g p : Nat) : (s.settleGroup g).quietPort p = s.quietPort p := by
  unfold State.settleGroup
  extract_lets x
  split
  · exact (State.quietPort_stallChanged _ _ _).trans rfl
  · rfl

theorem State.quietPort_request (s : State) (o : Nat) (on : Bool) (p : Nat) : (s.request o on).quietPort p = s.quietPort p := by
  unfold State.request
  extract_lets x
  split
  · rfl
  · split
    · rfl
    · exact (State.quietPort_settleGroup _ _ _).trans rfl

theorem State.quietPort_yRequest (s : State) (q p : Nat) : (s.yRequest q).quietPort p = s.quietPort p := State.quietPort_request ..

-- The deeper operations.

theorem State.base_yRequest (s : State) (q p : Nat) : (s.yRequest q).base p = s.base p := State.base_of_quietPort (State.quietPort_yRequest s q p)

theorem State.base_maskGroup (s : State) (g p : Nat) : (s.maskGroup g).base p = s.base p := by
  unfold State.maskGroup
  extract_lets was s1
  rw [State.base_of_yports (State.unfreezeGroup_keeps (Nat.and_self _) _ g (Keeps.refl _ _)).yports_eq]
  split
  · exact (State.base_of_quietPort (State.quietPort_stallChanged s1 g p)).trans rfl
  · rfl

theorem State.base_sendUnbind (s : State) (o p : Nat) : (s.sendUnbind o).base p = s.base p := by
  unfold State.sendUnbind
  split
  · rfl
  · exact foldl_same (g := fun s => s.base p) (fun s q => State.base_queueSpore ..) _ s

theorem State.base_dropLate (s : State) (st p : Nat) : (s.dropLate st).base p = s.base p := by
  unfold State.dropLate
  split
  · exact State.base_of_quietPort (State.quietPort_request ..)
  · rfl

theorem State.base_flushOutput (s : State) (st status cause p : Nat) : (s.flushOutput st status cause).base p = s.base p := by
  unfold State.flushOutput
  extract_lets q s1 s2 s3 s4 s5
  have h1 : s1.base p = s.base p := (State.base_of_yports (State.closeRing_keeps (Nat.and_self _) _ st status false (Keeps.refl _ _)).yports_eq p).trans
    (State.base_of_yports (State.closeBuf_keeps (Nat.and_self _) s st status false (Keeps.refl _ s)).yports_eq p)
  clear_value s1
  have h2 : s2.base p = s.base p := by
    refine Eq.trans ?_ h1
    simp only [s2]
    split
    · exact State.base_of_yports (State.returnDesc_keeps (Nat.and_self _) s1 _ _ _ (Keeps.refl _ s1)).yports_eq p
    · rfl
  clear_value s2
  have h3 : s3.base p = s.base p := by
    refine Eq.trans ?_ h2
    simp only [s3]
    split
    · exact State.base_of_yports (State.modQueue_keeps (Nat.and_self _) s2 _ _ (Keeps.refl _ s2)).yports_eq p
    · rfl
  clear_value s3
  have h5 : s5.base p = s.base p := (State.base_of_quietPort (State.quietPort_request s4 _ _ p)).trans h3
  exact (State.base_of_yports (State.yports_log ..) p).trans h5

theorem State.base_clearContext (s : State) (o cause flush p : Nat) : (s.clearContext o cause flush).base p = s.base p := by
  unfold State.clearContext
  split
  · rfl
  · extract_lets s1 sts s2 heads s3 s4 s5 s6 s7 s8 s9 s10 s11 s12
    have h1 : s1.base p = s.base p := (State.base_maskGroup _ _ _).trans (State.base_sendUnbind _ _ _)
    clear_value s1
    have h2 : s2.base p = s.base p := (foldl_same (g := fun s => s.base p) (fun s st => State.base_dropLate s st p) sts s1).trans h1
    clear_value s2
    have h4 : s4.base p = s.base p := (foldl_same (g := fun s => s.base p) (fun s h =>
      State.base_of_yports (State.stopCommit_keeps (Nat.and_self _) s h (Keeps.refl _ s)).yports_eq p) heads s3).trans h2
    clear_value s4
    have h8 : s8.base p = s.base p := h4
    clear_value s8
    have h9 : s9.base p = s.base p := by
      refine Eq.trans ?_ h8
      simp only [s9]
      split
      · exact State.base_of_yports (State.yports_finish ..) p
      · rfl
    clear_value s9
    have h10 : s10.base p = s.base p := by
      refine Eq.trans ?_ h9
      simp only [s10]
      split
      · split
        · exact State.base_of_yports (State.yports_finish ..) p
        · rfl
      · rfl
    clear_value s10
    have h11 : s11.base p = s.base p :=
      (foldl_same (g := fun s => s.base p) (fun s st => State.base_of_yports
        (State.modEdgeEng_keeps (Nat.and_self _) s _ _ (Keeps.refl _ s)).yports_eq p) sts s10).trans h10
    clear_value s11
    have h12 : s12.base p = s.base p := h11
    clear_value s12
    exact (foldl_same (g := fun s => s.base p) (fun s st => State.base_flushOutput s st 3 flush p) sts s12).trans h12

theorem State.base_faultCtx (s : State) (o : Nat) (cause : Cause) (p : Nat) : (s.faultCtx o cause).base p = s.base p := by
  unfold State.faultCtx
  split
  · rfl
  · split
    · rfl
    · rfl
    · rfl
    · split <;> rfl
    · exact (State.base_of_yports (State.logCtx_keeps (Nat.and_self _) _ _ _ _ _ _ (Keeps.refl _ _)).yports_eq p).trans
        (State.base_clearContext s o _ 1 p)

theorem State.base_handLock (s : State) (l p : Nat) : (s.handLock l).base p = s.base p := by
  unfold State.handLock
  extract_lets x lost
  split
  · rfl
  · split
    · exact State.base_of_yports (State.yports_finish ..) p
    · split
      · exact (State.base_queueSpore _ _ _ _ _ p).trans rfl
      · rfl

theorem State.base_forceLock (s : State) (l p : Nat) : (s.forceLock l).base p = s.base p := by
  unfold State.forceLock
  extract_lets x s1 greg s2
  split
  · rfl
  · exact (State.base_handLock s2 l p).trans rfl

theorem State.base_resetHolder (s : State) (f : BitVec 10 → Bool) (p : Nat) : (s.resetHolder f).base p = s.base p := by
  unfold State.resetHolder
  extract_lets gone s1 s2
  have h1 : s1.base p = s.base p := foldl_same (g := fun s => s.base p) (fun s k => State.base_of_yports
    (State.silence_keeps (Nat.and_self _) s k true (Keeps.refl _ s)).yports_eq p) gone s
  exact (foldl_same (g := fun s => s.base p) (fun s l => State.base_forceLock s l p) _ s2).trans h1

theorem State.base_unalign (s : State) (f p : Nat) : (s.unalign f).base p = s.base p := by
  refine foldl_same (g := fun s => s.base p) (fun s q => ?_) _ s
  split
  · refine State.base_modYport (fun _ => ?_) s p q
    rfl
  · rfl

theorem State.base_retarget (s : State) (f : Nat) (fn : B16) (p : Nat) : (s.retarget f fn).base p = s.base p := by
  unfold State.retarget
  extract_lets x e up s1 wait s2
  have h2 : s2.base p = s.base p := by
    have h1 : s1.base p = s.base p := by
      simp only [s1]
      split <;> rfl
    exact h1
  clear_value s2
  split
  · rfl
  · split
    · exact h2
    · exact (State.base_unalign s2 f p).trans h2

theorem State.base_retargetAll (s : State) (p : Nat) : s.retargetAll.base p = s.base p :=
  foldl_same (g := fun s => s.base p) (fun s f => State.base_retarget s f 0xFFFF p) _ s

end Sys2Proof.Machine

/-! Yallek links come up and down, carry Spores and flits, and peers take locks, bind and unbind (R382-R395, R447, R448). -/

namespace Sys2Proof.Machine
set_option Elab.async false
variable {s t : State}

-- An accepted Spore.

/-- A port that has accepted a Spore (R384, R385). -/
def Yport.accepted (y : Yport) (seqd : Bool) (b : Bytes) : Yport :=
  let y := y.header b
  if seqd then { y with rxSeq := y.rxSeq + 1, nak := false } else y

/-- The state once a port has accepted a Spore. -/
def State.rxTook (s : State) (p : Nat) (seqd : Bool) (b : Bytes) : State :=
  (s.setYport p (((s.yport p).accepted seqd b).pump 64)).yRequest p

theorem State.rxSpore_of_comes {p : Fin 4} {typ : Nat} {seqd : Bool} {b : Bytes} (h : SporeComes s p typ seqd b) :
    s.rxSpore p typ seqd b = (true, s.rxTook p seqd b) := by
  obtain ⟨hlive, hup, hok, htyp, hseq⟩ := h
  have hno : (seqd && BitVec.ofNat 16 (fieldLe b 4 2) != (s.yport p).rxSeq) = false := by
    cases seqd with
    | false => rfl
    | true => simp [hseq rfl]
  unfold State.rxSpore
  rw [if_neg (by simp [hlive, hup]), if_neg (by simp [hok]), if_neg (by simp [htyp]), if_neg (by simp [hno])]
  rfl

/-- What an accepted Spore changes outside its port and the stall groups: nothing. -/
theorem State.rxTook_keeps (s : State) (p : Nat) (seqd : Bool) (b : Bytes) : Keeps 68722622464 s (s.rxTook p seqd b) :=
  State.yRequest_keeps (Nat.and_self _) _ p (State.setYport_keeps (by unfold Within; decide) s p _ (Keeps.refl _ s))

/-- The port of an accepted Spore, but for the Spores on its link. -/
theorem State.yport_rxTook (s : State) (p : Nat) (seqd : Bool) (b : Bytes) :
    ∃ tx sent replay, (s.rxTook p seqd b).yport p = { (s.yport p).accepted seqd b with tx := tx, sent := sent, replay := replay } := by
  obtain ⟨tx, sent, replay, hpump⟩ := Yport.pump_eq 64 ((s.yport p).accepted seqd b)
  have hq : ((s.rxTook p seqd b).yport p).quiet = (((s.yport p).accepted seqd b).pump 64).quiet :=
    (State.quietPort_yRequest (s.setYport p (((s.yport p).accepted seqd b).pump 64)) p p).trans (by rw [State.quietPort, State.yport_setYport])
  rw [hpump] at hq
  refine ⟨tx, ((s.rxTook p seqd b).yport p).sent, replay, ?_⟩
  have hself : (s.rxTook p seqd b).yport p = { ((s.rxTook p seqd b).yport p).quiet with sent := ((s.rxTook p seqd b).yport p).sent } := rfl
  rw [hself]
  exact congrArg (fun y : Yport => { y with sent := ((s.rxTook p seqd b).yport p).sent }) hq

theorem State.portLink_rxTook (s : State) (p : Nat) (seqd : Bool) (b : Bytes) : (s.rxTook p seqd b).portLink p = s.portLink p := by
  obtain ⟨tx, sent, replay, hport⟩ := s.yport_rxTook p seqd b
  unfold State.portLink
  rw [hport]
  simp only [(s.rxTook_keeps p seqd b).ctx_eq]
  cases seqd <;> rfl

-- Bindings (R390, R447, R448).

theorem State.base_setYport (s : State) (p : Nat) (y : Yport) : (s.setYport p y).base p = y.base := by
  rw [State.base, State.yport_setYport]

theorem State.bound_of_base {p : Nat} {y : Yport} (h : s.base p = y) : (s.yport p).bound = y.bound := by
  rw [← h]
  rfl

theorem State.peer_of_base {p : Nat} {y : Yport} (h : s.base p = y) : (s.yport p).peer = y.peer := by
  rw [← h]
  rfl

theorem State.base_modRunning (s : State) (o : Nat) (f : Ctx → Ctx) (p : Nat) : (s.modRunning o f).base p = s.base p := rfl

/-- A port after its binding. -/
def Yport.unbound (y : Yport) (k : Option (Nat × Pkt)) : Yport := { y with bound := false, peer := none, bindSent := false, stallIn := 0, alignPkt := k }

theorem State.base_alignReply (s : State) (p : Nat) (st : Status) :
    ∃ k, (s.alignReply p st).base p = { s.base p with alignPkt := k } := by
  unfold State.alignReply
  extract_lets y
  split
  · exact ⟨(s.yport p).alignPkt, rfl⟩
  · exact ⟨none, (State.base_of_yports (State.yports_finish ..) p).trans (State.base_setYport ..)⟩

theorem State.base_unbindPort (s : State) (p : Nat) : ∃ k, (s.unbindPort p).base p = (s.base p).unbound k := by
  unfold State.unbindPort
  extract_lets s1 y old s2 s3 s4
  obtain ⟨k, h1⟩ : ∃ k, s1.base p = { s.base p with alignPkt := k } := State.base_alignReply s p .badState
  clear_value s1
  have h2 : s2.base p = (s.base p).unbound k := by
    refine (State.base_setYport ..).trans ?_
    have hy : y.base = { s.base p with alignPkt := k } := h1
    exact (congrArg (fun x : Yport => { x with bound := false, peer := none, bindSent := false, stallIn := 0 }) hy :)
  clear_value s2 y
  have h3 : s3.base p = (s.base p).unbound k := by
    refine Eq.trans ?_ h2
    simp only [s3]
    split <;> rfl
  clear_value s3
  have h4 : s4.base p = (s.base p).unbound k := by
    refine Eq.trans ?_ h3
    simp only [s4]
    split
    · exact (State.base_retargetAll _ p).trans (State.base_of_yports (State.logCap_keeps (Nat.and_self _) s3 old 3 false (Keeps.refl _ s3)).yports_eq p)
    · rfl
  exact ⟨k, (State.base_yRequest s4 p p).trans h4⟩

theorem State.base_losePeer (s : State) (p : Nat) : ∃ k, (s.losePeer p).base p = (s.base p).unbound k := by
  unfold State.losePeer
  extract_lets o s1 s2
  obtain ⟨k, h1⟩ : ∃ k, s1.base p = (s.base p).unbound k := s.base_unbindPort p
  clear_value s1 o
  have h2 : s2.base p = s1.base p := by
    simp only [s2]
    split
    · exact State.base_faultCtx s1 _ .linkTimeout p
    · rfl
  exact ⟨k, (State.base_resetHolder s2 _ p).trans (h2.trans h1)⟩

/-- A port whose BIND has been sent, and whose peer's BIND is of our graph, is bound exactly when the peer names the port we want (R390). -/
theorem State.base_tryBind {p o : Nat} {m : BindMsg} {l : LinkDecl} (howner : (s.yport p).owner = some o) (hpeer : (s.yport p).peer = some m)
    (hlink : s.portLink p = some l) (hsent : (s.yport p).bindSent = true) (hfree : (s.yport p).bound = false) (hgraph : l.graph = m.graph) :
    (s.tryBind p).base p = { s.base p with
      bound := (l.ports.find? (fun e => e.1 == p)).map (fun e : Nat × Nat => e.2) == some m.index.toNat } := by
  unfold State.tryBind
  extract_lets y
  simp only [y, howner, hpeer, hlink]
  split
  · next hno =>
    have hwant : ((l.ports.find? (fun e => e.1 == p)).map (fun e : Nat × Nat => e.2) == some m.index.toNat) = false := by
      simpa [hsent, hfree, hgraph] using hno
    rw [hwant]
    exact (congrArg (fun b => ({ s.base p with bound := b } : Yport)) hfree :)
  · next hyes =>
    have hwant : ((l.ports.find? (fun e => e.1 == p)).map (fun e : Nat × Nat => e.2) == some m.index.toNat) = true := by
      simpa [hsent, hfree, hgraph] using hyes
    rw [hwant, State.base_yRequest]
    split
    · rw [State.base_retargetAll, State.base_of_yports (State.logCap_keeps (Nat.and_self _) _ _ 3 true (Keeps.refl _ _)).yports_eq,
        State.base_of_yports (State.yports_log ..), State.base_modRunning, State.base_setYport]
      rfl
    · rw [State.base_of_yports (State.yports_log ..), State.base_modRunning, State.base_setYport]
      rfl

/-- Settles O20: an accepted LOCK, BIND, UNBIND or RESET of a peer. -/
theorem peersLockAndBind : Obligations.PeersLockAndBind := by
  unfold Obligations.PeersLockAndBind
  refine ⟨⟨?_, ?_, ?_⟩, ?_, ?_, ?_⟩
  · intro p b fn l s h hl hfree
    refine ⟨sporeLock p b (.acquire fn l) s, rfl, ?_⟩
    rw [← (s.rxTook_keeps p true b).lock_eq l.toNat] at hfree
    simp only [sporeLock, State.rxSpore_of_comes h, if_neg (by omega : ¬48 ≤ l.toNat), State.tryLock_of_free hfree, State.lock_queueSpore,
      State.lock_setLock, and_self]
  · intro p b fn l s h hl hheld hother hroom
    refine ⟨sporeLock p b (.acquire fn l) s, rfl, ?_⟩
    rw [← (s.rxTook_keeps p true b).lock_eq l.toNat] at hheld hother hroom ⊢
    simp only [sporeLock, State.rxSpore_of_comes h, if_neg (by omega : ¬48 ≤ l.toNat), State.tryLock_of_held hheld hother, if_pos hroom,
      State.lock_setLock, and_self]
  · intro p b fn l s h hl hholder
    refine ⟨sporeLock p b (.release fn l) s, rfl, ?_⟩
    rw [← (s.rxTook_keeps p true b).lock_eq l.toNat] at hholder ⊢
    have hgo : (decide (48 ≤ l.toNat) || ((s.rxTook p true b).lock l.toNat).holder != peerCode p fn) = false := by
      simp [hholder, hl]
    simp only [sporeLock, State.rxSpore_of_comes h, hgo, Bool.false_eq_true, if_false, State.lock_handLock, Lock.waiters_handed]
    exact ⟨Lock.holder_handed _, trivial⟩
  · intro p b m o l s h howner hlink hsent hfree hgraph
    refine ⟨sporeBind p b m s, rfl, ?_⟩
    simp only [sporeBind, State.rxSpore_of_comes h]
    obtain ⟨tx, sent, replay, hport⟩ := s.yport_rxTook p true b
    have hlink' := (s.portLink_rxTook p true b).trans hlink
    generalize s.rxTook p true b = s1 at hport hlink'
    have hport2 : (s1.modYport p (fun y => { y with peer := some m })).yport p =
        { (s.yport p).accepted true b with tx := tx, sent := sent, replay := replay, peer := some m } := by
      rw [State.modYport_eq, State.yport_setYport, hport]
    have hlink2 : (s1.modYport p (fun y => { y with peer := some m })).portLink p = some l := by
      unfold State.portLink at hlink' ⊢
      rw [hport2]
      rw [hport] at hlink'
      exact hlink'
    have hbase := State.base_tryBind (m := m) (by rw [hport2]; exact howner) (by rw [hport2]) hlink2 (by rw [hport2]; exact hsent)
      (by rw [hport2]; exact hfree) hgraph
    refine ⟨(State.peer_of_base hbase).trans ?_, State.bound_of_base hbase⟩
    rw [State.base, hport2]
    rfl
  · intro p b g o l s h howner hlink hgraph
    refine ⟨sporeUnbind p b g s, rfl, ?_⟩
    obtain ⟨tx, sent, replay, hport⟩ := s.yport_rxTook p true b
    have howner' : ((s.rxTook p true b).yport p).owner = some o := by rw [hport]; exact howner
    have hlink' := (s.portLink_rxTook p true b).trans hlink
    simp only [sporeUnbind, State.rxSpore_of_comes h, howner', hlink', hgraph, beq_self_eq_true, if_true]
    obtain ⟨k, hbase⟩ := (s.rxTook p true b).base_unbindPort p
    have hall := (State.base_faultCtx _ o .aborted p).trans hbase
    exact ⟨State.bound_of_base hall, State.peer_of_base hall⟩
  · intro p b s h
    refine ⟨peerReset p b s, rfl, ?_⟩
    simp only [peerReset, State.rxSpore_of_comes h]
    obtain ⟨k, hbase⟩ := ((s.rxTook p true b).log .peerReset (inPort (dieOfYallek p)) noFn p 0).base_losePeer p
    exact ⟨State.bound_of_base hbase, State.peer_of_base hbase⟩

end Sys2Proof.Machine

/-! Yallek links come up and down, and their Spores, flits and lines arrive (R382-R387, R390-R393, R399). -/

namespace Sys2Proof.Machine
set_option Elab.async false
variable {s t : State}

theorem State.yHold_eq (s : State) (p : Nat) : ∃ hold, (s.yHold p).yport p = { s.yport p with holding := hold } := by
  unfold State.yHold
  extract_lets y want lanes s1
  split
  · exact ⟨(s.yport p).holding, rfl⟩
  · have hfold : (lanes.foldl (fun (s : State) (x : Nat × Nat × Nat) =>
        s.modUnit x.2.1 (fun u => { u with hold := if want then x.2.2 :: u.hold else u.hold.erase x.2.2 })) s1).yport p = s1.yport p :=
      foldl_same (g := fun s => s.yport p) (fun s x => State.yport_of_setUnit s _ p _) lanes s1
    exact ⟨want, hfold.trans (State.yport_setYport ..)⟩

theorem State.yport_queueSpore (s : State) (p typ epoch : Nat) (body : Bytes) : ∃ tx sent replay, (s.queueSpore p typ epoch body).yport p =
    { s.yport p with tx := tx, sent := sent, replay := replay, txSeq := (s.yport p).txSeq + 1 } := by
  obtain ⟨tx, sent, replay, h⟩ := Yport.pump_eq 64 { s.yport p with
    tx := (s.yport p).tx ++ [s.spore p typ epoch (s.yport p).txSeq.toNat body], txSeq := (s.yport p).txSeq + 1 }
  refine ⟨tx, sent, replay, ?_⟩
  rw [State.queueSpore, State.modYport_eq, State.yport_setYport]
  exact h

theorem State.retransmit_of_nil {p : Nat} (h : (s.yport p).replay = []) : s.retransmit p = s := by
  unfold State.retransmit
  extract_lets y
  rw [if_pos (by rw [show y.replay = [] from h]; rfl)]

/-- Every unacknowledged Spore goes out again, the oldest first (R385). -/
theorem State.yport_retransmit {p : Nat} (h : (s.yport p).replay ≠ []) :
    ((s.retransmit p).yport p).replay = (s.yport p).replay.map (fun r => (r.1, r.2.1 + 1, r.2.2)) ∧
      ((s.retransmit p).yport p).sent = ((s.yport p).replay.map (fun r => r.2.2)).reverse ++ (s.yport p).sent := by
  unfold State.retransmit
  extract_lets y n due y' s1
  rw [if_neg (by simpa [y] using h)]
  have h1 : s1.yport p = y' := State.yport_setYport ..
  split
  · rw [State.yport_log, h1]
    exact ⟨rfl, rfl⟩
  · rw [h1]
    exact ⟨rfl, rfl⟩

/-- A link that is declared down is down, locked no more, with no binding (R387). -/
theorem State.base_linkDown {p : Nat} (cause : Nat) (hup : (s.yport p).up = true) :
    ∃ y : Yport, (s.linkDown p cause).base p = y ∧ y.up = false ∧ y.locked = false ∧ y.bound = false := by
  unfold State.linkDown
  rw [if_neg (by simp [hup])]
  extract_lets s1 s2 s3 s4
  have h2 : (s2.yport p).up = false ∧ (s2.yport p).locked = false := by
    simp only [s2, State.modYport_eq, State.yport_setYport, and_self]
  clear_value s2
  obtain ⟨hold, h3⟩ := (s2.modQueue (100 + p) FQueue.flush).yHold_eq p
  obtain ⟨k, hbase⟩ := s4.base_losePeer p
  have h4 : s4.base p = ({ s2.yport p with holding := hold } : Yport).base :=
    (State.base_of_yports (State.yports_log ..) p).trans (congrArg Yport.base h3)
  rw [h4] at hbase
  exact ⟨_, hbase, h2.1, h2.2, rfl⟩

theorem State.up_of_base {p : Nat} {y : Yport} (h : s.base p = y) : (s.yport p).up = y.up := by
  rw [← h]
  rfl

theorem State.locked_of_base {p : Nat} {y : Yport} (h : s.base p = y) : (s.yport p).locked = y.locked := by
  rw [← h]
  rfl

/-- The replay buffer of a port with nothing to send, once it has accepted a Spore (R384). -/
theorem State.replay_rxTook {p : Nat} {b : Bytes} (htx : (s.yport p).tx = []) : ((s.rxTook p false b).yport p).replay =
    (s.yport p).replay.filter (fun r => 32768 ≤ (BitVec.ofNat 16 (fieldLe b 6 2) - r.1).toNat) := by
  have hq := State.quietPort_yRequest (s.setYport p (((s.yport p).accepted false b).pump 64)) p p
  have hpump : ((s.yport p).accepted false b).pump 64 = (s.yport p).accepted false b := Yport.pump_of_nil 64 htx
  refine Eq.trans (b := (((s.rxTook p false b).yport p).quiet).replay) rfl ?_
  refine (congrArg Yport.replay (hq :)).trans ?_
  rw [State.quietPort, State.yport_setYport, hpump]
  rfl

-- Flits and lines.

theorem State.rxFlit_of_stale {p epoch : Nat} {e : Bytes} {m : BindMsg} (hpeer : (s.yport p).peer = some m)
    (hstale : ¬((s.yport p).bound = true ∧ m.epoch.toNat = epoch)) :
    s.rxFlit p epoch e = s.setYport p { s.yport p with epochDisc := (s.yport p).epochDisc + 1 } := by
  unfold State.rxFlit
  extract_lets y good
  have hgood : good = false := by simpa [good, y, hpeer] using hstale
  rw [if_pos (by rw [hgood]; rfl)]

theorem State.yport_rxFlit {p epoch : Nat} {e : Bytes} {m : BindMsg} (hpeer : (s.yport p).peer = some m) (hbound : (s.yport p).bound = true)
    (hepoch : m.epoch.toNat = epoch) : ∃ x late, (s.rxFlit p epoch e).yport p =
      { s.yport p with rxFlits := (s.yport p).rxFlits ++ [x], linkLate := late } := by
  unfold State.rxFlit
  extract_lets y good route f f' sync now
  have hgood : good = true := by simp [good, y, hpeer, hbound, hepoch]
  rw [if_neg (by rw [hgood]; decide)]
  split
  · exact ⟨_, (s.yport p).linkLate, State.yport_setYport ..⟩
  · exact ⟨_, _, State.yport_setYport ..⟩

/-- The oldest entry of a SYNC route becomes visible once its cycle is reached (R392). -/
theorem State.yport_syncVisible {p route v : Nat} {f : Flit} {m : List (Nat × Nat × Bool × Flit)}
    (hfirst : (s.yport p).rxFlits = (route, v, false, f) :: m)
    (hdue : ((s.field (fieldOfYallek p)).fcyc - BitVec.ofNat 16 v).toNat < 32768) :
    ((syncVisible p route s).yport p).rxFlits = (route, v, true, f) :: m := by
  simp only [syncVisible, State.modYport_eq, State.yport_setYport, hfirst, syncVisible.go, beq_self_eq_true, Bool.not_false, Bool.and_self, hdue,
    decide_true, if_true]

/-- Settles O18: a Yallek link comes up, goes down, acknowledges and retransmits. -/
theorem yallekLinks : Obligations.YallekLinks := by
  unfold Obligations.YallekLinks
  refine ⟨⟨?_, ?_, ?_, ?_, ?_⟩, ?_, ?_, ?_, ?_, ?_, ?_⟩
  · intro p s hlive hup
    refine ⟨_, rfl, ?_⟩
    simp only [hlive, hup, Bool.not_false, Bool.and_self, if_true, State.modYport_eq, State.yport_setYport, and_self]
  · intro p s hlive hlocked hup
    refine congrArg Host.Outcome.next (if_pos ?_)
    simp [hlive, hlocked, hup]
  · intro p b die s hlive hlocked hup hok htyp
    refine congrArg Host.Outcome.next ?_
    unfold sporeIdent
    extract_lets y
    rw [if_neg (by simp [y, hlive, hlocked]), if_neg (by simp [hok]), if_neg (by simp [y, htyp, hup])]
  · intro p s hlocked hup
    refine congrArg Host.Outcome.next (if_pos ?_)
    simp [hlocked, hup]
  · intro p cause s hlive hup hcause
    have hgo : (!s.yLive p || (cause.val == 0 && !(s.yport p).replay.any (fun r => 8 ≤ r.2.1))) = false := by
      rcases hcause with h | ⟨r, hr, h8⟩
      · have hval : cause.val ≠ 0 := fun h0 => h (Fin.ext h0)
        simp [hlive, hval]
      · have hany : (s.yport p).replay.any (fun r => 8 ≤ r.2.1) = true := List.any_eq_true.2 ⟨r, hr, decide_eq_true h8⟩
        simp only [hlive, hany, Bool.not_true, Bool.and_false, Bool.or_false]
    obtain ⟨y, hbase, hy, hl, hb⟩ := State.base_linkDown (s := s) cause.val hup
    refine ⟨s.linkDown p cause, congrArg Host.Outcome.next (if_neg (by simp [hgo])), ?_⟩
    exact ⟨(State.up_of_base hbase).trans hy, (State.locked_of_base hbase).trans hl, (State.bound_of_base hbase).trans hb⟩
  · intro p b s h
    refine ⟨(s.rxSpore p 0x10 false b).2, rfl, ?_⟩
    obtain ⟨tx, sent, replay, hport⟩ := s.yport_rxTook p false b
    rw [State.rxSpore_of_comes h, hport]
    exact ⟨rfl, rfl, rfl⟩
  · intro p b s h
    refine ⟨(s.rxSpore p 0x12 false b).2, rfl, ?_⟩
    obtain ⟨tx, sent, replay, hport⟩ := s.yport_rxTook p false b
    rw [State.rxSpore_of_comes h, hport]
    exact ⟨rfl, rfl⟩
  · intro p b s h htx
    refine ⟨(s.rxTook p false b).retransmit p, ?_, ?_⟩
    · refine congrArg Host.Outcome.next ?_
      rw [State.rxSpore_of_comes h]
    · rw [← State.replay_rxTook htx]
      by_cases hnil : ((s.rxTook p false b).yport p).replay = []
      · rw [State.retransmit_of_nil hnil, hnil, List.map_nil]
      · exact (State.yport_retransmit hnil).1
  · intro p s hlive hup hreplay
    refine ⟨s.retransmit p, congrArg Host.Outcome.next (if_pos ?_), State.yport_retransmit hreplay⟩
    simp [hlive, hup]
  · intro p s hlive hup hnak
    refine congrArg Host.Outcome.next (if_pos ?_)
    simp [hlive, hup, hnak]
  · intro p s hlive hup
    refine congrArg Host.Outcome.next (if_pos ?_)
    simp [hlive, hup]

theorem State.cut_rxTook (s : State) (p : Nat) (seqd : Bool) (b : Bytes) (route : Nat) : (s.rxTook p seqd b).cut p route = s.cut p route := by
  unfold State.cut
  rw [State.portLink_rxTook]

/-- A line that begins with a segment of its frame in course (R399). -/
def rxBegun (y : Bytes) (fl : Nat) : Line :=
  { fseq := BitVec.ofNat 16 (fieldLe y 4 2), line := fieldLe y 2 2, stamp := BitVec.ofNat 64 (fieldLe y 8 8), flags := 16 + (if bit fl 1 then 8 else 0) }

theorem State.lineBegins_of_room {st : Nat} (hroom : (s.strm st).untaken < (s.strm st).dropD) : s.lineBegins st = s := by
  unfold State.lineBegins
  extract_lets x
  rw [if_neg]
  simp [x, hroom]

/-- The first segment of a line begins the line in its stream (R399). -/
theorem State.sporeLine_of_first {p : Nat} {b : Bytes} {s1 : State} {st : Nat} {f : LinkFrame} (hrx : s.rxSpore p 2 true b = (true, s1))
    (hst : st = byteAt (sporeBody b) 0) (hlt : st < 64) (hctx : (s1.strm st).ctx.isSome = true) (hsource : (s1.strm st).source = 0)
    (habsent : (s1.head (st / 4)).state = .absent) (hframe : (s1.strm st).frame = some f)
    (hfseq : f.fseq = BitVec.ofNat 16 (fieldLe (sporeBody b) 4 2)) (hoff : fieldLe (sporeBody b) 16 4 = 0)
    (hroom : (s1.strm st).untaken < (s1.strm st).dropD)
    (hpart : (((sporeBody b).drop 24).take (fieldLe (sporeBody b) 20 2)).length <
      (s1.sdecl st).width * (match (s1.sdecl st).edge with | some e => e.cin | none => 1) * 2) :
    (sporeLine p b s).yports = s1.yports ∧ ((sporeLine p b s).strm st).rxLine =
      some (rxBegun (sporeBody b) (fieldLe (sporeBody b) 6 2), ((sporeBody b).drop 24).take (fieldLe (sporeBody b) 20 2)) := by
  have hnone : (s1.strm st).ctx.isNone = false := by simpa [Option.isNone_eq_false_iff] using hctx
  subst hst
  simp only [sporeLine, hrx, hframe, hfseq, hoff, beq_self_eq_true, if_true, State.lineBegins_of_room hroom]
  rw [if_neg (by simp [hsource, habsent, hnone, hlt])]
  simp only [State.modStrm_eq, State.strm_setStrm]
  rw [if_neg (by simp), if_pos (by rw [List.nil_append]; exact hpart), State.strm_setStrm]
  exact ⟨rfl, rfl⟩

/-- Settles O19: flits and lines of a peer, by what an accepted Spore leaves of its port. -/
theorem peerFlitsAndLines : Obligations.PeerFlitsAndLines := by
  unfold Obligations.PeerFlitsAndLines
  refine ⟨⟨?_, ?_, ?_, ?_⟩, ?_⟩
  · intro p b m s h hone hpeer
    refine ⟨sporeFlit p b s, rfl, ?_⟩
    have hflit : sporeFlit p b s = (s.rxTook p true b).rxFlit p (byteAt b 1) ((b.drop (16 + 48 * 0)).take 48) := by
      simp only [sporeFlit, State.rxSpore_of_comes h, hone]
      rfl
    rw [hflit]
    obtain ⟨tx, sent, replay, hport⟩ := s.yport_rxTook p true b
    have hpeer' : ((s.rxTook p true b).yport p).peer = some m := by rw [hport]; exact hpeer
    by_cases hgood : (s.yport p).bound = true ∧ m.epoch.toNat = byteAt b 1
    · obtain ⟨x, late, hrx⟩ := State.yport_rxFlit (e := (b.drop (16 + 48 * 0)).take 48) hpeer' (by rw [hport]; exact hgood.1) hgood.2
      rw [if_pos hgood, hrx, hport]
      exact ⟨rfl, List.length_append, rfl⟩
    · rw [if_neg hgood, State.rxFlit_of_stale hpeer' (by rw [hport]; exact hgood), State.yport_setYport, hport]
      exact ⟨rfl, rfl, rfl⟩
  · intro p s hlive hup hflits hcredit
    have hn : min 20 (min (s.yport p).txFlits.length (s.yport p).credit) ≠ 0 := by
      have := List.length_pos_iff.2 hflits
      omega
    refine ⟨flitClose p s, rfl, ?_⟩
    unfold flitClose
    extract_lets y n epoch body s1
    rw [if_neg (by simpa [y, n, hlive, hup] using hn)]
    have h1 : s1.yport p = { y with txFlits := y.txFlits.drop n, credit := y.credit - n } := State.yport_setYport ..
    clear_value s1 epoch body
    obtain ⟨tx, sent, replay, h2⟩ := s1.yport_queueSpore p 1 epoch body
    obtain ⟨hold, h3⟩ := (s1.queueSpore p 1 epoch body).yHold_eq p
    rw [h3, h2, h1]
    exact ⟨rfl, rfl, rfl⟩
  · intro p route v f m s hfirst hdue
    exact ⟨syncVisible p route.toNat s, rfl, State.yport_syncVisible hfirst hdue⟩
  · intro p b route stamp c s h hcut hsync hopen hfew
    refine ⟨sporeAlign p b route.toNat stamp s, rfl, ?_⟩
    obtain ⟨tx, sent, replay, hport⟩ := s.yport_rxTook p false b
    have hfield := (s.rxTook_keeps p false b).field_eq (fieldOfYallek p)
    have hcut' := (s.cut_rxTook p false b route.toNat).trans hcut
    simp only [sporeAlign, State.rxSpore_of_comes h, hcut', hsync, hfield]
    generalize s.rxTook p false b = s1 at hport
    have halign : (s1.yport p).align = (s.yport p).align := by rw [hport]; rfl
    have hprobes : (s1.yport p).probes = (s.yport p).probes := by rw [hport]; rfl
    simp only [halign, hprobes, hopen, Option.isSome_none, Bool.not_true, Bool.or_false, Bool.false_eq_true, if_false, List.length_append,
      List.length_singleton]
    rw [if_pos (by omega), State.modYport_eq, State.yport_setYport, Tab.get_set_same]
  · intro p b st f s h hst hlt hctx hsource habsent hframe hfseq hoff hroom hpart
    refine ⟨sporeLine p b s, rfl, ?_⟩
    obtain ⟨tx, sent, replay, hport⟩ := s.yport_rxTook p true b
    have hkeep := s.rxTook_keeps p true b
    have hstrm := hkeep.strm_eq st
    have hrx : ((s.rxTook p true b).yport p).rxSeq = (s.yport p).rxSeq + 1 := by rw [hport]; rfl
    have hdecl : (s.rxTook p true b).sdecl st = s.sdecl st := by
      unfold State.sdecl
      simp only [hstrm, hkeep.ctx_eq]
    obtain ⟨hports, hline⟩ := State.sporeLine_of_first (State.rxSpore_of_comes h) hst hlt (by rw [hstrm]; exact hctx) (by rw [hstrm]; exact hsource) (by rw [hkeep.head_eq]; exact habsent)
      (by rw [hstrm]; exact hframe) hfseq hoff (by rw [hstrm]; exact hroom) (by rw [hdecl]; exact hpart)
    rw [State.yport_of_yports hports]
    exact ⟨hrx, _, hline, hfseq.symm, rfl, rfl⟩

end Sys2Proof.Machine

/-! Replies and signals to the host (R171, R328-R331), and the boot of the firmware (R403, R404, R427-R430). -/

namespace Sys2Proof.Machine
set_option Elab.async false
variable {s t : State}

-- Replies.

theorem length_replyBytes (r : Rec) : (replyBytes r).length = 32 := by
  simp [replyBytes, length_toLe, List.range_succ]

theorem State.fnUp_ready {f : Nat} (h : s.fnUp f = true) : s.ready = true := (Bool.and_eq_true_iff.1 h).1

theorem State.hostMem_raiseIrq (s : State) (f v : Nat) : (s.raiseIrq f v).hostMem = s.hostMem := rfl

/-- The oldest reply of a function that takes replies goes to its ring (R329). -/
theorem replyWrite_taken {f : Nat} {r : Rec} {m : List Rec} (hq : (s.fn f).replyQ = r :: m) (hup : s.fnUp f = true) (hen : (s.fn f).enable = true)
    (hreset : (s.fn f).reset = false) (hroom : ((s.fn f).rplProd + 1) % 2 ^ (s.fn f).rplOrder ≠ (s.fn f).rplCons) (hwb : (s.fn f).rplWb = 0) :
    (replyWrite f true s).hostMem =
        Memory.writeBytes s.hostMem ((s.fn f).rplBase + BitVec.ofNat 64 (32 * (s.fn f).rplProd)).toNat (replyBytes r) ∧
      ((replyWrite f true s).fn f).replyQ = m ∧ ((replyWrite f true s).fn f).rplProd = ((s.fn f).rplProd + 1) % 2 ^ (s.fn f).rplOrder := by
  unfold replyWrite
  extract_lets x next
  simp only [x, hq]
  rw [if_neg (by simp [next, x, State.fnUp_ready hup, hen, hreset, hroom]), if_neg (by simp [hup]),
    if_pos (show ((s.fn f).rplWb == 0) = true by rw [hwb]; rfl)]
  split
  · rw [State.fn_raiseIrq, State.fn_setFn, State.hostMem_raiseIrq, State.hostMem_setFn, State.hostMem_hostWrite]
    exact ⟨rfl, rfl, rfl⟩
  · rw [State.fn_setFn, State.hostMem_setFn, State.hostMem_hostWrite]
    exact ⟨rfl, rfl, rfl⟩

/-- A reply whose write fails stays, and the ring reports it. -/
theorem replyWrite_failed {f : Nat} {r : Rec} {m : List Rec} (hq : (s.fn f).replyQ = r :: m) (hup : s.fnUp f = true) (hen : (s.fn f).enable = true)
    (hreset : (s.fn f).reset = false) (hroom : ((s.fn f).rplProd + 1) % 2 ^ (s.fn f).rplOrder ≠ (s.fn f).rplCons) :
    replyWrite f false s = s.ringStatus f (fun x => { x with wbErr := true }) := by
  unfold replyWrite
  extract_lets x next
  simp only [x, hq]
  rw [if_neg (by simp [next, x, State.fnUp_ready hup, hen, hreset, hroom]), if_pos (by simp)]

theorem State.hostMem_ringStatus (s : State) (f : Nat) (g : Fn → Fn) : (s.ringStatus f g).hostMem = s.hostMem :=
  (State.ringStatus_keeps (Nat.and_self _) s f g (Keeps.refl _ s)).hostMem_eq

/-- Settles O38: the oldest reply reaches its ring, and what has gathered is signalled. -/
theorem repliesReachTheHost : Obligations.RepliesReachTheHost := by
  unfold Obligations.RepliesReachTheHost
  refine ⟨?_, ?_, ?_, ?_, ?_⟩
  · intro f r m s hq hup hen hreset hroom hwb hwf
    obtain ⟨hmem, hrest, hprod⟩ := replyWrite_taken hq hup hen hreset hroom hwb
    refine ⟨replyWrite f true s, rfl, hrest, hprod, ?_, fun a ha => ?_⟩
    · rw [hmem, ← length_replyBytes r]
      exact Memory.readBytes_writeBytes _ hwf
    · rw [hmem]
      exact Memory.read_writeBytes_of_out _ hwf (by rw [length_replyBytes]; exact ha)
  · intro f r m s hq hup hen hreset hroom
    refine ⟨_, congrArg Host.Outcome.next (replyWrite_failed hq hup hen hreset hroom), ?_⟩
    obtain ⟨irqs, hfn⟩ := s.fn_ringStatus f (fun x => { x with wbErr := true })
    rw [hfn]
    exact ⟨rfl, hq, State.hostMem_ringStatus ..⟩
  · intro f s hgot
    refine ⟨(s.modFn f (fun x => { x with unsigReplies := 0 })).raiseIrq f 0, congrArg Host.Outcome.next (if_neg (by simpa using hgot)), ?_⟩
    rw [State.fn_raiseIrq, State.modFn_eq, State.fn_setFn]
    exact ⟨rfl, Tab.get_set_same ..⟩
  · intro f s hgot
    refine ⟨(s.modFn f (fun x => { x with unsigLogs := 0 })).raiseIrq f 1, congrArg Host.Outcome.next (if_neg (by simpa using hgot)), ?_⟩
    rw [State.fn_raiseIrq, State.modFn_eq, State.fn_setFn]
    exact ⟨rfl, Tab.get_set_same ..⟩
  · intro f s hgot
    refine ⟨(s.modFn f (fun x => { x with unsigCpls := 0 })).raiseIrq f 2, congrArg Host.Outcome.next (if_neg (by simpa using hgot)), ?_⟩
    rw [State.fn_raiseIrq, State.modFn_eq, State.fn_setFn]
    exact ⟨rfl, Tab.get_set_same ..⟩

-- Boot.

/-- An accepted image is loaded, and start-up goes on (R404). -/
theorem fwAccepted_boot (s : State) (b : Bytes) : (fwAccepted s b).boot.phase = .startup ∧ (fwAccepted s b).boot.fwLoaded = true ∧
    (fwAccepted s b).boot.bootGo = false ∧ (fwAccepted s b).boot.bootStep = (if s.boot.trainHbm then 5 else 6) := by
  unfold fwAccepted
  extract_lets old s1 s2
  have h2 : s2.boot = s1.boot :=
    foldl_same (g := State.boot) (fun (s : State) (f : Nat) => State.boot_setField s f { point := min 6 s.capPoint }) _ s1
  have hold : s2.boot.phase = .startup ∧ s2.boot.fwLoaded = true ∧ s2.boot.bootGo = false ∧ s2.boot.trainHbm = s.boot.trainHbm := by
    rw [h2]
    exact ⟨rfl, rfl, rfl, rfl⟩
  clear_value s2
  obtain ⟨hphase, hloaded, hgo, htrain⟩ := hold
  rw [← htrain]
  split
  · exact ⟨hphase, hloaded, hgo, rfl⟩
  · exact ⟨hphase, hloaded, hgo, rfl⟩

/-- The state after an image in QSPI that is not accepted. -/
def State.fwRejected (s : State) (copy : Fin 2) (e : Nat) : State :=
  let s := ({ s with boot := { s.boot with bootErr := BitVec.ofNat 8 e } } : State).log .bootFail inMc noFn copy e
  if copy.val == 0 then s
  else if s.boot.bootSrc == 1 then { s with boot := { s.boot with phase := .waitHost, bootStep := 0xF0 } }
  else { s with boot := { s.boot with phase := .halted } }

theorem State.fwRejected_first (s : State) (e : Nat) :
    (s.fwRejected 0 e).boot = { s.boot with bootErr := BitVec.ofNat 8 e } := rfl

theorem State.fwRejected_second (s : State) (e : Nat) :
    (s.fwRejected 1 e).boot.phase = if s.boot.bootSrc = 1 then .waitHost else .halted := by
  by_cases hsrc : s.boot.bootSrc = 1
  · rw [if_pos hsrc, State.fwRejected, if_neg (by decide), if_pos (by simpa using hsrc)]
  · rw [if_neg hsrc, State.fwRejected, if_neg (by decide), if_neg (by simpa using hsrc)]

/-- The copy that is due is read (R404). -/
theorem execQspiBootRead_of_due {copy : Fin 2} {b : Option Bytes} (hphase : s.boot.phase = .startup) (hstep : s.boot.bootStep = 2)
    (hdue : (copy.val != if s.boot.bootErr == 0 then 0 else 1) = false) :
    (fwError s.part.minSecver.toNat b = 0 → execQspiBootRead copy b s = .next (fwAccepted s (b.getD []))) ∧
      (fwError s.part.minSecver.toNat b ≠ 0 → execQspiBootRead copy b s = .next (s.fwRejected copy (fwError s.part.minSecver.toNat b))) := by
  have hgo : (s.boot.phase != .startup || s.boot.bootStep != 2 || copy.val != if s.boot.bootErr == 0 then 0 else 1) = false := by
    rw [hdue, hphase, hstep]
    rfl
  refine ⟨fun h => congrArg Host.Outcome.next ?_, fun h => congrArg Host.Outcome.next ?_⟩
  · refine (if_neg (by rw [hgo]; decide)).trans ?_
    rw [h]
    rfl
  · refine (if_neg (by rw [hgo]; decide)).trans ?_
    split
    · next h0 => exact absurd h0 h
    · rfl

/-- The image that the host offers is read (R428). -/
theorem execHostBootRead_of_wait {b : Bytes} (hphase : s.boot.phase = .waitHost) (hgo : s.boot.bootGo = true) (hlen : b.length = s.boot.bootLen.toNat) :
    (fwError s.part.minSecver.toNat (some b) = 0 → execHostBootRead (some b) s = .next (fwAccepted s b)) ∧
      (fwError s.part.minSecver.toNat (some b) ≠ 0 → execHostBootRead (some b) s = .next (({ s with boot := { s.boot with
        bootErr := BitVec.ofNat 8 (fwError s.part.minSecver.toNat (some b)), bootGo := false } } : State).log .bootFail inMc noFn 2
          (fwError s.part.minSecver.toNat (some b)))) := by
  have himg : (some b).bind (fun b => if b.length < s.boot.bootLen.toNat then none else some (b.take s.boot.bootLen.toNat)) = some b := by
    simp [← hlen]
  refine ⟨fun h => congrArg Host.Outcome.next ?_, fun h => congrArg Host.Outcome.next ?_⟩
  · refine (if_neg (by simp [hphase, hgo])).trans ?_
    extract_lets img
    rw [show img = some b from himg, h]
    rfl
  · refine (if_neg (by simp [hphase, hgo])).trans ?_
    extract_lets img
    rw [show img = some b from himg]
    split
    · next h0 => exact absurd h0 h
    · rfl

/-- The effect of HBM_TRAINING_DONE. -/
def State.trainingDone (s : State) (k : Fin 4) (ok : Bool) : State :=
  if !s.boot.trainLeft.contains k.val then s
  else
    let s := s.modStackOf k (fun x => { x with trained := ok, selfRefresh := false, down := false })
    let s := { s with boot := { s.boot with trainLeft := s.boot.trainLeft.filter (· != k.val) } }
    let s := if ok then s else s.log .hbmTrainFail inHbm noFn k 0
    if s.boot.phase != .startup || s.boot.trainLeft != [] then s
    else if Tab.keys s.hbmStacks (fun x => x.trained) == [] then { s with boot := { s.boot with phase := .halted, bootErr := 6 } }
    else { s with boot := { s.boot with bootStep := 6 } }

theorem State.trainingDone_stack {k : Fin 4} {ok : Bool} (hk : k.val ∈ s.boot.trainLeft) : ((s.trainingDone k ok).stackOf k).trained = ok ∧
    ((s.trainingDone k ok).stackOf k).down = false ∧ k.val ∉ (s.trainingDone k ok).boot.trainLeft := by
  unfold State.trainingDone
  extract_lets s1 boot s2 s3 b1
  have h3 : (s3.stackOf k).trained = ok ∧ (s3.stackOf k).down = false ∧ s3.boot.trainLeft = s.boot.trainLeft.filter (· != k.val) := by
    have h2 : (s2.stackOf k).trained = ok ∧ (s2.stackOf k).down = false ∧ s2.boot.trainLeft = s.boot.trainLeft.filter (· != k.val) := by
      have h1 : s1.stackOf k = { s.stackOf k with trained := ok, selfRefresh := false, down := false } := State.stackOf_setStackOf ..
      refine ⟨(congrArg Stack.trained h1 :), (congrArg Stack.down h1 :), rfl⟩
    simp only [s3]
    split <;> exact h2
  clear_value s3
  obtain ⟨htrained, hdown, hleft⟩ := h3
  have hgone : k.val ∉ s3.boot.trainLeft := by simp [hleft]
  rw [if_neg (by simpa using hk)]
  split
  · exact ⟨htrained, hdown, hgone⟩
  · split
    · exact ⟨htrained, hdown, hgone⟩
    · exact ⟨htrained, hdown, hgone⟩

/-- Settles O42: an image that is accepted is loaded; start-up ends with READY. -/
theorem firmwareBoots : Obligations.FirmwareBoots := by
  unfold Obligations.FirmwareBoots
  refine ⟨?_, ?_, ?_, ?_, ?_, ?_⟩
  · intro b s hphase hstep herr
    obtain ⟨haccept, hreject⟩ := execQspiBootRead_of_due (copy := 0) (b := b) hphase hstep (by rw [herr]; rfl)
    by_cases h : fwError s.part.minSecver.toNat b = 0
    · obtain ⟨hstart, hloaded, -, hnext⟩ := fwAccepted_boot s (b.getD [])
      refine ⟨_, haccept h, hstart, ?_⟩
      rw [if_pos h]
      exact ⟨hloaded, hnext⟩
    · refine ⟨_, hreject h, ?_⟩
      rw [if_neg h, State.fwRejected_first]
      exact ⟨hphase, rfl, hstep⟩
  · intro b s hphase hstep herr
    obtain ⟨haccept, hreject⟩ := execQspiBootRead_of_due (copy := 1) (b := b) hphase hstep (by rw [beq_eq_false_iff_ne.2 herr]; rfl)
    by_cases h : fwError s.part.minSecver.toNat b = 0
    · obtain ⟨hstart, hloaded, -, -⟩ := fwAccepted_boot s (b.getD [])
      refine ⟨_, haccept h, ?_⟩
      rw [if_pos h]
      exact ⟨hloaded, hstart⟩
    · refine ⟨_, hreject h, ?_⟩
      rw [if_neg h]
      exact s.fwRejected_second _
  · intro s hready hpor
    refine ⟨_, rfl, ?_⟩
    rw [if_neg (by simp [hready, hpor])]
  · intro b s hphase hgo hlen
    obtain ⟨haccept, hreject⟩ := execHostBootRead_of_wait hphase hgo hlen
    by_cases h : fwError s.part.minSecver.toNat (some b) = 0
    · obtain ⟨hstart, hloaded, hgone, -⟩ := fwAccepted_boot s b
      refine ⟨_, haccept h, hgone, ?_⟩
      rw [if_pos h]
      exact ⟨hloaded, hstart⟩
    · refine ⟨_, hreject h, rfl, ?_⟩
      rw [if_neg h]
      exact ⟨hphase, rfl⟩
  · intro k ok s hk
    exact ⟨s.trainingDone k ok, rfl, State.trainingDone_stack hk⟩
  · intro s hphase hstep
    refine ⟨_, rfl, ?_⟩
    rw [if_neg (by simp [hphase, hstep])]
    exact ⟨rfl, rfl⟩

end Sys2Proof.Machine

/-! Supply, Diapause and heat (R62, R412-R423), and what the resets of the dies leave (R424, R425). -/

namespace Sys2Proof.Machine
set_option Elab.async false
variable {s t : State}

-- What a change of target points leaves of the supply.

/-- The supply but for its VID code. -/
def Supply.still (p : Supply) : Supply := { p with vid := 0, vidOld := 0, settling := false }

theorem State.still_retarget (s : State) (f : Nat) (fn : B16) : (s.retarget f fn).supply.still = s.supply.still := by
  unfold State.retarget
  extract_lets x e up s1 wait s2
  have h2 : s2.supply.still = s.supply.still := by
    have h1 : s1.supply.still = s.supply.still := by
      simp only [s1]
      split <;> rfl
    exact h1
  clear_value s2
  split
  · rfl
  · split
    · exact h2
    · exact (congrArg Supply.still (State.markClkChg_keeps (Nat.and_self _) s2 f (Keeps.refl _ s2)).supply_eq).trans h2

theorem State.still_retargetAll (s : State) : s.retargetAll.supply.still = s.supply.still :=
  foldl_same (g := fun s => s.supply.still) (fun s f => State.still_retarget s f 0xFFFF) _ s

theorem State.capPoint_retargetAll (s : State) : s.retargetAll.capPoint = s.capPoint :=
  foldl_same (g := State.capPoint) (fun s f => State.capPoint_retarget s f 0xFFFF) _ s

-- Changes of the supply.

theorem State.fields_markClkChg (s : State) (f : Nat) : (s.markClkChg f).fields = s.fields :=
  (State.markClkChg_keeps (Nat.and_self _) s f (Keeps.refl _ s)).fields_eq

theorem State.supply_markClkChg (s : State) (f : Nat) : (s.markClkChg f).supply = s.supply :=
  (State.markClkChg_keeps (Nat.and_self _) s f (Keeps.refl _ s)).supply_eq

theorem vidSettle_of_raising (hsettling : s.supply.settling = true) (hgood : s.supply.vrPgood = true) (hlow : ∀ e ∈ s.fields, e.2.lowering = false) :
    (vidSettle s).supply.settling = false ∧ (vidSettle s).supply.vid = s.supply.vid ∧ ∀ f, ((vidSettle s).field f).raising = false := by
  unfold vidSettle
  extract_lets p s1 up s2 s3
  rw [if_neg (by simp [hsettling, hgood])]
  have h3 : s3.fields = s2.fields := foldl_same (g := State.fields) (fun s f => State.fields_markClkChg s f) up s2
  have h3' : s3.supply = s2.supply := foldl_same (g := State.supply) (fun s f => State.supply_markClkChg s f) up s2
  clear_value s3
  have hnone : Tab.keys s3.fields (fun x => x.lowering) = [] := by
    rw [h3]
    simp only [Tab.keys, List.map_eq_nil_iff, List.filter_eq_nil_iff]
    intro e he
    obtain ⟨e', he', rfl⟩ := List.mem_map.1 he
    simpa using hlow e' he'
  rw [hnone, List.foldl_nil, h3']
  refine ⟨rfl, rfl, fun f => ?_⟩
  unfold State.field
  rw [h3]
  exact (congrArg FieldClk.raising (Tab.get_mapVals ({} : FieldClk) (fun x => { x with raising := false }) rfl s1.fields f) :)

theorem State.point_retarget (s : State) (f : Nat) (fn : B16) (j : Nat) : ((s.retarget f fn).field j).point = (s.field j).point := by
  unfold State.retarget
  extract_lets x e up s1 wait s2
  have h2 : (s2.field j).point = (s.field j).point := by
    have h1 : s1.field j = s.field j := by
      simp only [s1]
      split <;> rfl
    simp only [s2]
    by_cases hj : f = j
    · subst hj
      rw [State.field_setField]
    · rw [State.field_setField_ne _ _ _ _ hj, h1]
  clear_value s2
  split
  · rfl
  · split
    · exact h2
    · exact (congrArg FieldClk.point ((State.markClkChg_keeps (Nat.and_self _) s2 f (Keeps.refl _ s2)).field_eq j)).trans h2

/-- A Field runs at its target point when its slew ends (R62). -/
theorem point_slewDone {f p : Nat} (htarget : (s.field f).target = some p) (hup : (s.field f).raising = false) (hdown : (s.field f).lowering = false) :
    ((slewDone f s).field f).point = p := by
  unfold slewDone
  extract_lets x
  split
  · next h => simp [show x.target = some p from htarget] at h
  · next q h =>
    obtain rfl : p = q := Option.some.inj (htarget.symm.trans h)
    extract_lets s1
    have h1 : (s1.field f).point = p := by
      simp only [s1]
      rw [State.field, State.fields_markClkChg]
      exact (congrArg FieldClk.point (State.field_setField s f _) :)
    clear_value s1
    rw [if_neg (by simp [x, hup, hdown])]
    split
    · rw [State.modField_eq, State.field_setField]
      exact h1
    · rw [State.dvfsEnd, State.point_retarget, State.field_log, State.field_setField]
      exact h1

/-- A supply warning while the PLLs run, outside Diapause, enters Diapause (R417, R418). -/
theorem State.warning_enters {source field mv : Nat} (hruns : s.pllsRun = true) (hout : s.supply.diapause = false) :
    (s.warning source field mv).supply = { s.supply with vddMv := mv, diapause := true, dipNow := 0, dipLow := mv, dipCount := s.supply.dipCount + 1 } ∧
      (s.warning source field mv).greg.dip = true := by
  have hruns' : ({ s with supply := { s.supply with vddMv := mv } } : State).pllsRun = true := hruns
  unfold State.warning
  extract_lets p s1 p' g s2 s3 s4 s5
  rw [if_neg (by rw [hruns']; decide), if_neg (by rw [hout]; decide)]
  have h5 : s5.supply = s4.supply ∧ s5.greg = s4.greg :=
    ⟨foldl_same (g := State.supply) (fun s f => (State.unalign_keeps (Nat.and_self _) s f (Keeps.refl _ s)).supply_eq) _ s4,
      foldl_same (g := State.greg) (fun s f => (State.unalign_keeps (Nat.and_self _) s f (Keeps.refl _ s)).greg_eq) _ s4⟩
  clear_value s5
  rw [State.supply_log, State.greg_log, h5.1, h5.2]
  exact ⟨rfl, rfl⟩

/-- Diapause ends (R419). -/
theorem diapauseExit_leaves (hin : s.supply.diapause = true) : ∃ t, execDiapauseExit s = .next t ∧ t.supply.diapause = false ∧
    t.supply.dipCount = s.supply.dipCount ∧ t.ctxs = s.ctxs := by
  refine ⟨_, rfl, ?_⟩
  rw [if_neg (by rw [hin]; decide)]
  extract_lets p s1 s2
  have h2 : s2.supply = s1.supply ∧ s2.ctxs = s1.ctxs :=
    ⟨foldl_same (g := State.supply) (fun s f => (State.unalign_keeps (Nat.and_self _) s f (Keeps.refl _ s)).supply_eq) _ s1,
      foldl_same (g := State.ctxs) (fun s f => (State.unalign_keeps (Nat.and_self _) s f (Keeps.refl _ s)).ctxs_eq) _ s1⟩
  clear_value s2
  rw [State.supply_log, State.ctxs_log, h2.1, h2.2]
  exact ⟨rfl, rfl, rfl⟩

-- The state that every reset of the dies leaves.

theorem State.esn_postReply (s : State) (x : Bool × Rec) : (s.postReply x).seqr.esn = s.seqr.esn := rfl

theorem State.esn_queueSpore (s : State) (p typ epoch : Nat) (body : Bytes) : (s.queueSpore p typ epoch body).seqr.esn = s.seqr.esn := rfl

theorem State.esn_resetSource (s : State) (i : Nat) : (s.resetSource i).seqr.esn = s.seqr.esn := rfl

theorem State.esn_finish (s : State) (k : Pkt) (fast : Bool) (st : Status) (res : List Nat) (e : Option B64) :
    (s.finish k fast st res e).seqr.esn = s.seqr.esn := by
  have hset : ∀ (s : State) (l : List InFlight), (s.setRing k.fn k.cspi l).seqr.esn = s.seqr.esn := by
    intro s l
    unfold State.setRing
    split <;> rfl
  unfold State.finish
  extract_lets r out ring p
  split
  · exact (foldl_same (g := fun s => s.seqr.esn) (fun s x => State.esn_postReply s x) p.2 _).trans (hset s p.1)
  · clear_value out
    split <;> rfl

theorem State.esn_silence (s : State) (k : Pkt) (fast : Bool) : (s.silence k fast).seqr.esn = s.seqr.esn := by
  unfold State.silence
  extract_lets p
  refine (foldl_same (g := fun s => s.seqr.esn) (fun s x => State.esn_postReply s x) p.2 _).trans ?_
  unfold State.setRing
  split <;> rfl

theorem State.esn_handLock (s : State) (l : Nat) : (s.handLock l).seqr.esn = s.seqr.esn := by
  unfold State.handLock
  extract_lets x
  split
  · rfl
  · split
    · exact (State.esn_finish _ _ _ _ _ _).trans rfl
    · split <;> rfl

theorem State.esn_forceLock (s : State) (l : Nat) : (s.forceLock l).seqr.esn = s.seqr.esn := by
  unfold State.forceLock
  extract_lets x s1 greg s2
  split
  · rfl
  · exact (State.esn_handLock s2 l).trans rfl

theorem State.esn_resetHolder (s : State) (f : BitVec 10 → Bool) : (s.resetHolder f).seqr.esn = s.seqr.esn := by
  unfold State.resetHolder
  extract_lets gone s1 s2
  have h1 : s1.seqr.esn = s.seqr.esn := foldl_same (g := fun s => s.seqr.esn) (fun s k => State.esn_silence s k true) gone s
  exact (foldl_same (g := fun s => s.seqr.esn) (fun s l => State.esn_forceLock s l) _ s2).trans h1

/-- The zones that a reset of the dies takes over from the state before it. -/
def State.alwaysOn (s : State) : Boot × Supply × Dtb × Part × List Host.Cell × List Nat × List (Nat × Endpoint) :=
  (s.boot, s.supply, s.dtb, s.part, s.hbm, s.lostClocks, s.eps)

theorem Keeps.alwaysOn_eq {w : Nat} (h : Keeps w s t) (hboot : w.testBit Zone.boot.ctorIdx = false := by rfl)
    (hsupply : w.testBit Zone.supply.ctorIdx = false := by rfl) (hdtb : w.testBit Zone.dtb.ctorIdx = false := by rfl)
    (hpart : w.testBit Zone.part.ctorIdx = false := by rfl) (hhbm : w.testBit Zone.hbm.ctorIdx = false := by rfl)
    (hlost : w.testBit Zone.lostClocks.ctorIdx = false := by rfl) (heps : w.testBit Zone.eps.ctorIdx = false := by rfl) :
    t.alwaysOn = s.alwaysOn := by
  unfold State.alwaysOn
  rw [h.boot_eq hboot, h.supply_eq hsupply, h.dtb_eq hdtb, h.part_eq hpart, h.hbm_eq hhbm, h.lostClocks_eq hlost, h.eps_eq heps]

/-- What a reset of the dies does to the state. -/
structure DiesReset (s t : State) (cause : Nat) (hbmKept : Bool) : Prop where
  phase : t.boot.phase = s.boot.phase
  bootSrc : t.boot.bootSrc = s.boot.bootSrc
  resetCause : t.boot.resetCause = BitVec.ofNat 4 cause
  supply : t.supply = { s.supply with diapause := false, dipNow := 0, vidSettle := 10 }
  esn : t.seqr.esn = s.seqr.esn
  dtb : t.dtb.now = s.dtb.now
  part : t.part = s.part
  ctxs : t.ctxs = []
  units : t.units = []
  fns : t.fns = []
  hbm : hbmKept = true → t.hbm = s.hbm
  lostClocks : t.lostClocks = s.lostClocks.filter (fun c => c == 15 || c == 16)
  eps : t.eps = Tab.mapVals (fun e : Endpoint => { perst := e.perst }) s.eps

theorem State.diesReset (s : State) (cause : Nat) (hbmKept : Bool) : DiesReset s (s.dieReset cause hbmKept) cause hbmKept := by
  unfold State.dieReset
  extract_lets up s1 s2 s3 s4
  have h1 : s1.alwaysOn = s.alwaysOn ∧ s1.seqr.esn = s.seqr.esn :=
    ⟨foldl_same (g := State.alwaysOn) (fun s q => (State.queueSpore_keeps (Nat.and_self _) s q 4 0 _ (Keeps.refl _ s)).alwaysOn_eq) up s,
      foldl_same (g := fun s => s.seqr.esn) (fun s q => State.esn_queueSpore s q 4 0 _) up s⟩
  clear_value s1
  have h2 : s2.alwaysOn = s1.alwaysOn ∧ s2.seqr.esn = s1.seqr.esn :=
    ⟨foldl_same (g := State.alwaysOn) (fun s i => (State.resetSource_keeps (Nat.and_self _) s i (Keeps.refl _ s)).alwaysOn_eq) _ s1,
      foldl_same (g := fun s => s.seqr.esn) (fun s i => State.esn_resetSource s i) _ s1⟩
  clear_value s2
  have h4 : s4.alwaysOn = s3.alwaysOn ∧ s4.seqr.esn = s3.seqr.esn :=
    ⟨(State.resetHolder_keeps (Nat.and_self _) s3 _ (Keeps.refl _ s3)).alwaysOn_eq, State.esn_resetHolder ..⟩
  clear_value s4
  obtain ⟨hon, hesn⟩ : s4.alwaysOn = s.alwaysOn ∧ s4.seqr.esn = s.seqr.esn :=
    ⟨h4.1.trans (h2.1.trans h1.1), h4.2.trans (h2.2.trans h1.2)⟩
  unfold State.alwaysOn at hon
  simp only [Prod.mk.injEq] at hon
  obtain ⟨hboot, hsupply, hdtb, hpart, hhbm, hlost, heps⟩ := hon
  exact ⟨by rw [← hboot], by rw [← hboot], rfl, by rw [← hsupply], by rw [← hesn]; cases hbmKept <;> rfl, by rw [← hdtb], hpart, rfl, rfl, rfl,
    fun hkept => by rw [← hhbm, hkept]; rfl, by rw [← hlost], by rw [← heps]⟩

end Sys2Proof.Machine

/-! Supply and heat (R412-R423), and the resets of the part (R318, R424-R428, R435, R436). -/

namespace Sys2Proof.Machine
set_option Elab.async false
variable {s t : State}

-- Start-up.

/-- What start-up sets: it begins at step 2, with a boot from QSPI (R431, R435). -/
structure StartsUp (s t : State) : Prop where
  phase : t.boot.phase = .startup
  bootStep : t.boot.bootStep = 2
  bootSrc : t.boot.bootSrc = s.boot.bootSrc
  resetCause : t.boot.resetCause = s.boot.resetCause
  vid : t.supply.vid = 60
  shutdown : t.supply.shutdown = s.supply.shutdown
  ctxs : t.ctxs = s.ctxs
  units : t.units = s.units
  fns : t.fns = s.fns
  hbm : t.hbm = s.hbm
  seqr : t.seqr = s.seqr
  dtb : t.dtb = s.dtb
  ep : (s.ep 0).perst = true → t.eps = s.eps

theorem State.startsUp (h : s.boot.bootSrc.toNat < 2) : StartsUp s s.startUp := by
  unfold State.startUp
  extract_lets p s1 s2 b
  have h2 : (s.ep 0).perst = true → s2.eps = s.eps := fun hlow => by
    rw [show s2 = s1 from if_pos hlow]
  have hs2 : Keeps 549755813888 s1 s2 := by
    simp only [s2]
    split
    · exact Keeps.refl _ s1
    · exact State.modEp_keeps (Nat.and_self _) s1 0 _ (Keeps.refl _ s1)
  have hb : b = s.boot := hs2.boot_eq
  have hsup : s2.supply = s1.supply := hs2.supply_eq
  have hne3 : (b.bootSrc == 3) = false := by
    rw [hb, beq_eq_false_iff_ne]
    intro h3
    rw [h3] at h
    exact absurd h (by decide)
  have hne2 : (b.bootSrc == 2) = false := by
    rw [hb, beq_eq_false_iff_ne]
    intro h2
    rw [h2] at h
    exact absurd h (by decide)
  have hctxs : s2.ctxs = s.ctxs := hs2.ctxs_eq
  have hunits : s2.units = s.units := hs2.units_eq
  have hfns : s2.fns = s.fns := hs2.fns_eq
  have hhbm : s2.hbm = s.hbm := hs2.hbm_eq
  have hseqr : s2.seqr = s.seqr := hs2.seqr_eq
  have hdtb : s2.dtb = s.dtb := hs2.dtb_eq
  rw [if_neg (by rw [hne3]; decide), if_neg (by rw [hne2]; decide)]
  clear_value s2 b
  exact ⟨rfl, rfl, by rw [hb], by rw [hb], by rw [hsup], by rw [hsup], hctxs, hunits, hfns, hhbm, hseqr, hdtb, h2⟩

theorem State.startsUp_warmReset (cause : Nat) (hbmKept : Bool) (h : s.boot.bootSrc.toNat < 2) :
    DiesReset s (s.dieReset cause hbmKept) cause hbmKept ∧ StartsUp (s.dieReset cause hbmKept) (s.warmReset cause hbmKept) :=
  ⟨s.diesReset cause hbmKept, State.startsUp (by rw [(s.diesReset cause hbmKept).bootSrc]; exact h)⟩

-- Heat.

/-- The supply with a new temperature. -/
def Supply.read (p : Supply) (x : B16) : Supply := { p with temp := x, tempMax := if p.tempMax.toInt < x.toInt then x else p.tempMax }

/-- The throttle begins at a temperature (R420). -/
def State.throttled (s : State) (x : B16) : State :=
  let old := ({ s with supply := s.supply.read x } : State)
  let s := { s with supply := { s.supply.read x with throttle := true }, greg := { s.greg with thermal := true } }
  ((s.log .thermalThrottle inPower noFn (packBits [(16, x.toNat)]) 0).logCap old 2 true).retargetAll

/-- The state once a temperature has been read, before the shutdown it may call for. -/
def State.tempRead (s : State) (x : B16) : State :=
  if 26880 ≤ x.toInt && !s.supply.throttle then s.throttled x else { s with supply := s.supply.read x }

/-- The shutdown (R422). -/
def State.heatShut (s : State) (x : B16) : State :=
  let s := { s with supply := { s.supply with shutdown := true } }
  let s := s.log .thermalShutdown inPower noFn (packBits [(16, x.toNat)]) 0
  if s.boot.phase == .borHold || s.boot.phase == .clockHold then s
  else
    let s := s.holdReset 8 (!s.boot.trainHbm || s.ready) .thermalHold
    { s with hbmStacks := Tab.mapVals (fun k : Stack => { k with selfRefresh := true }) s.hbmStacks }

theorem tempReading_eq (x : B16) (s : State) : tempReading x s =
    if 30720 ≤ x.toInt && !(s.tempRead x).supply.shutdown then (s.tempRead x).heatShut x else s.tempRead x := rfl

theorem State.throttled_eq (s : State) (x : B16) : (s.throttled x).supply.still = { (s.supply.read x).still with throttle := true } ∧
    (s.throttled x).capPoint = 3 ∧ (s.throttled x).boot = s.boot := by
  unfold State.throttled
  extract_lets old p g s1
  refine ⟨(State.still_retargetAll _).trans ?_, (State.capPoint_retargetAll _).trans ?_, ?_⟩
  · rw [(State.logCap_keeps (Nat.and_self _) _ old 2 true (Keeps.refl _ _)).supply_eq, State.supply_log]
    rfl
  · have hcap : (s1.log .thermalThrottle inPower noFn (packBits [(16, x.toNat)]) 0).capPoint = 3 := by
      have hhot : s1.cap3 = true := by simp [State.cap3, s1]
      exact if_pos hhot
    exact hcap
  · exact (State.retargetAll_keeps (Nat.and_self _) _ (Keeps.refl _ _)).boot_eq.trans
      ((State.logCap_keeps (Nat.and_self _) _ old 2 true (Keeps.refl _ _)).boot_eq.trans rfl)

theorem State.tempRead_hot {x : B16} (hhot : 26880 ≤ x.toInt) :
    (s.tempRead x).supply.temp = x ∧ (s.tempRead x).supply.throttle = true ∧ (s.tempRead x).capPoint = 3 := by
  obtain ⟨hstill, hcap, -⟩ := s.throttled_eq x
  by_cases hthrottle : s.supply.throttle = true
  · have hread : s.tempRead x = { s with supply := s.supply.read x } := if_neg (by simp [hthrottle])
    rw [hread]
    exact ⟨rfl, hthrottle, if_pos (by simp [State.cap3, Supply.read, hthrottle])⟩
  · have hread : s.tempRead x = s.throttled x := if_pos (by simp [hthrottle, hhot])
    rw [hread]
    exact ⟨(congrArg Supply.temp hstill :), (congrArg Supply.throttle hstill :), hcap⟩

theorem State.tempRead_leaves (s : State) (x : B16) :
    (s.tempRead x).supply.shutdown = s.supply.shutdown ∧ (s.tempRead x).boot = s.boot := by
  obtain ⟨hstill, -, hboot⟩ := s.throttled_eq x
  unfold State.tempRead
  split
  · exact ⟨(congrArg Supply.shutdown hstill :), hboot⟩
  · exact ⟨rfl, rfl⟩

theorem State.phase_of_pllsRun (h : s.pllsRun = true) : ¬(s.boot.phase == .por) = true := by
  intro hpor
  have hpor' : s.boot.phase = .por := by simpa using hpor
  simp [State.pllsRun, hpor'] at h

theorem State.heatShut_holds {x : B16} (hbor : s.boot.phase ≠ .borHold) (hclock : s.boot.phase ≠ .clockHold) :
    (s.heatShut x).supply.shutdown = true ∧ (s.heatShut x).boot.phase = .thermalHold ∧ (s.heatShut x).boot.resetCause = 8 ∧
      (s.heatShut x).ctxs = [] := by
  unfold State.heatShut
  extract_lets p s1 s2 s3
  have hphase : (s2.boot.phase == .borHold || s2.boot.phase == .clockHold) = false := by
    have hboot : s2.boot = s.boot := rfl
    simp [hboot, hbor, hclock]
  rw [if_neg (by rw [hphase]; decide)]
  have hreset := s2.diesReset 8 (!s2.boot.trainHbm || s2.ready)
  refine ⟨(congrArg Supply.shutdown hreset.supply :), rfl, hreset.resetCause, hreset.ctxs⟩

theorem thermalClear_leaves (s : State) :
    ((({ s with supply := { s.supply with throttle := false } } : State).log .thermalClear inPower noFn (packBits [(16, s.supply.temp.toNat)]) 0).logCap
      s 2 false).retargetAll.supply.throttle = false := by
  refine (congrArg Supply.throttle (State.still_retargetAll _) :).trans ?_
  exact (congrArg Supply.throttle (State.logCap_keeps (Nat.and_self _) _ s 2 false (Keeps.refl _ _)).supply_eq :).trans rfl

/-- Settles O40: what the supply and the temperature sensors report. -/
theorem supplyAndHeat : Obligations.SupplyAndHeat := by
  unfold Obligations.SupplyAndHeat
  refine ⟨⟨?_, ?_, ?_, ?_, ?_, ?_⟩, ?_, ?_, ?_, ?_, ?_⟩
  · intro s hsettling hgood hlow
    exact ⟨vidSettle s, rfl, vidSettle_of_raising hsettling hgood hlow⟩
  · intro f p s htarget hup hdown
    exact ⟨slewDone f s, rfl, point_slewDone htarget hup hdown⟩
  · intro mv s hruns hout
    obtain ⟨hsupply, hdip⟩ := State.warning_enters (s := { s with supply := { s.supply with pwarnLow := true } }) (source := 1) (field := 255)
      (mv := mv.toNat) hruns hout
    refine ⟨_, congrArg Host.Outcome.next (if_neg (State.phase_of_pllsRun hruns)), ?_⟩
    rw [hsupply]
    exact ⟨rfl, rfl, rfl, rfl, hdip⟩
  · intro f mv s hruns hout hlow
    obtain ⟨hsupply, -⟩ := State.warning_enters (s := s) (source := 0) (field := f.val) (mv := mv.toNat) hruns hout
    refine ⟨_, congrArg Host.Outcome.next (if_neg ?_), ?_⟩
    · have hpor := State.phase_of_pllsRun hruns
      simpa [hlow] using hpor
    · rw [hsupply]
      exact ⟨rfl, rfl, rfl⟩
  · intro mv s hruns hout
    obtain ⟨hsupply, -⟩ := State.warning_enters (source := 2) (field := 255) (mv := mv.toNat)
      (s := ({ s with supply := { s.supply with vrPgood := false } } : State).log .vrFault inPower noFn s.supply.vid 0) hruns hout
    refine ⟨_, congrArg Host.Outcome.next (if_neg (State.phase_of_pllsRun hruns)), ?_⟩
    rw [hsupply]
    exact ⟨rfl, rfl, rfl⟩
  · intro s hin
    exact diapauseExit_leaves hin
  · intro x s hpor hcool
    refine ⟨tempReading x s, congrArg Host.Outcome.next (if_neg (by simpa using hpor)), ?_⟩
    have hread : s.tempRead x = { s with supply := s.supply.read x } := if_neg (by simp; omega)
    rw [tempReading_eq, if_neg (by simp; omega), hread]
    exact ⟨rfl, rfl, rfl⟩
  · intro x s hpor hhot hcool
    refine ⟨tempReading x s, congrArg Host.Outcome.next (if_neg (by simpa using hpor)), ?_⟩
    rw [tempReading_eq, if_neg (by simp; omega)]
    exact State.tempRead_hot hhot
  · intro x s hpor hbor hclock hhot hon
    refine ⟨tempReading x s, congrArg Host.Outcome.next (if_neg (by simpa using hpor)), ?_⟩
    obtain ⟨hshut, hboot⟩ := s.tempRead_leaves x
    rw [tempReading_eq, if_pos (by rw [hshut, hon]; simpa using hhot)]
    exact State.heatShut_holds (by rw [hboot]; exact hbor) (by rw [hboot]; exact hclock)
  · intro s hthrottle hcool
    refine ⟨_, rfl, ?_⟩
    rw [if_neg (by simp [hthrottle]; omega)]
    exact thermalClear_leaves s
  · intro s hshut hcool hhold hclocks hsrc
    refine ⟨({ s with supply := { s.supply with shutdown := false } } : State).warmReset 8 (!s.boot.trainHbm), ?_, ?_⟩
    · refine congrArg Host.Outcome.next ((if_neg (by simp [hshut]; omega)).trans ?_)
      exact (if_neg (by simp [hhold])).trans (if_neg (by simpa using hclocks))
    · obtain ⟨hreset, hstart⟩ := State.startsUp_warmReset (s := { s with supply := { s.supply with shutdown := false } }) 8 (!s.boot.trainHbm) hsrc
      exact ⟨hstart.shutdown.trans (by rw [hreset.supply]), hstart.phase, hstart.resetCause.trans hreset.resetCause⟩

end Sys2Proof.Machine

/-! The resets of the part: POR, brown-out, warm reset, the restart of the MC, FLR and the PCIe events (R318, R424-R428, R436). -/

namespace Sys2Proof.Machine
set_option Elab.async false
variable {s t : State}

-- A reset of the holders leaves them no lock.

theorem Tab.mem_keys_of_get {α : Type} {d : α} {q : α → Bool} {t : List (Nat × α)} {i : Nat} (hd : q d = false) (h : q (Tab.get d t i) = true) :
    i ∈ Tab.keys t q := by
  induction t with
  | nil => exact absurd (h.symm.trans hd) (by decide)
  | cons e t ih =>
    obtain ⟨j, v⟩ := e
    rw [Tab.get] at h
    by_cases hj : j = i
    · rw [if_pos hj] at h
      exact List.mem_map.2 ⟨(j, v), List.mem_filter.2 ⟨List.mem_cons_self, h⟩, hj⟩
    · rw [if_neg hj] at h
      obtain ⟨x, hx, hxi⟩ := List.mem_map.1 (ih h)
      obtain ⟨hmem, hq⟩ := List.mem_filter.1 hx
      exact List.mem_map.2 ⟨x, List.mem_filter.2 ⟨List.mem_cons_of_mem _ hmem, hq⟩, hxi⟩

theorem State.lock_forceLock_ne (s : State) {l j : Nat} (h : j ≠ l) : (s.forceLock l).lock j = s.lock j := by
  unfold State.forceLock
  extract_lets x s1 greg s2
  split
  · rfl
  · exact (State.lock_handLock_ne s2 h).trans (State.lock_setLock_ne s l j _ (Ne.symm h))

/-- No acquirer of the party waits for a lock. -/
def State.NoWaiter (s : State) (p : BitVec 10 → Bool) : Prop := ∀ l, ∀ w ∈ (s.lock l).waiters, p w.code = false

theorem Lock.holder_handed_of_none {x : Lock} {p : BitVec 10 → Bool} (h0 : p 0 = false) (hx : ∀ w ∈ x.waiters, p w.code = false) :
    p x.handed.holder = false := by
  rw [Lock.holder_handed]
  split
  · next w t h => exact hx w (h ▸ List.mem_cons_self)
  · exact h0

theorem State.holder_forceLock {p : BitVec 10 → Bool} (h0 : p 0 = false) (hw : s.NoWaiter p) (l : Nat) :
    (s.forceLock l).NoWaiter p ∧ p ((s.forceLock l).lock l).holder = false := by
  by_cases hfree : (s.lock l).holder = 0
  · have hself : s.forceLock l = s := if_pos (by rw [hfree]; rfl)
    rw [hself, hfree]
    exact ⟨hw, h0⟩
  · have hlock := State.lock_forceLock_of_held hfree
    refine ⟨fun j w hj => ?_, ?_⟩
    · by_cases hjl : j = l
      · subst hjl
        rw [hlock, Lock.waiters_handed] at hj
        exact hw j w (List.mem_of_mem_drop hj)
      · rw [State.lock_forceLock_ne s hjl] at hj
        exact hw j w hj
    · rw [hlock]
      exact Lock.holder_handed_of_none h0 (fun w h => hw l w h)

theorem State.holder_forceLocks {p : BitVec 10 → Bool} (h0 : p 0 = false) (L : List Nat) (hw : s.NoWaiter p)
    (hout : ∀ l, l ∉ L → p (s.lock l).holder = false) (l : Nat) : p ((L.foldl (fun s l => s.forceLock l) s).lock l).holder = false := by
  induction L generalizing s with
  | nil => exact hout l (List.not_mem_nil)
  | cons k L ih =>
    obtain ⟨hw', hk⟩ := State.holder_forceLock h0 hw k
    refine ih hw' (fun j hj => ?_)
    by_cases hjk : j = k
    · rw [hjk]
      exact hk
    · rw [State.lock_forceLock_ne s hjk]
      exact hout j (by simp [hjk, hj])

/-- A reset of a party leaves it no lock (R370). -/
theorem State.holder_resetHolder {p : BitVec 10 → Bool} (h0 : p 0 = false) (l : Nat) : p ((s.resetHolder p).lock l).holder = false := by
  unfold State.resetHolder
  extract_lets gone s1 s2
  have hlock : ∀ j, s2.lock j = { s1.lock j with waiters := (s1.lock j).waiters.filter (fun w => !p w.code) } := fun j =>
    Tab.get_mapVals ({} : Lock) (fun x => { x with waiters := x.waiters.filter (fun w => !p w.code) }) rfl s1.locks j
  refine State.holder_forceLocks h0 _ (fun j w hj => ?_) (fun j hj => ?_) l
  · rw [hlock] at hj
    simpa using (List.mem_filter.1 hj).2
  · by_contra hp
    have hheld : (s2.lock j).holder ≠ 0 := by
      intro hzero
      rw [hzero] at hp
      exact hp h0
    refine hj (Tab.mem_keys_of_get (d := ({} : Lock)) rfl ?_)
    exact Bool.and_eq_true_iff.2 ⟨bne_iff_ne.2 hheld, Bool.of_not_eq_false hp⟩

-- FLR of a function (R318).

/-- Every slot of a function is empty. -/
def State.NoSlot (s : State) (f : FnId) : Prop := ∀ i, (s.slot i).fn = f → (s.slot i).state = .empty

theorem Tab.get_mem {α : Type} (d : α) (t : List (Nat × α)) (i : Nat) : Tab.get d t i = d ∨ ∃ j, (j, Tab.get d t i) ∈ t := by
  induction t with
  | nil => exact Or.inl rfl
  | cons e t ih =>
    obtain ⟨j, v⟩ := e
    rw [Tab.get]
    split
    · exact Or.inr ⟨j, List.mem_cons_self⟩
    · exact ih.imp id (fun ⟨k, hk⟩ => ⟨k, List.mem_cons_of_mem _ hk⟩)

theorem State.noSlot_of_filter {f : FnId} {slots : List (Nat × Slot)}
    (h : s.slots = slots.filter (fun e => e.2.state == SlotState.empty || e.2.fn.val != f.val)) : s.NoSlot f := by
  intro i hfn
  rcases Tab.get_mem ({} : Slot) s.slots i with hd | ⟨j, hj⟩
  · rw [State.slot, hd]
  · rw [h] at hj
    have hkept := (List.mem_filter.1 hj).2
    rw [← h] at hkept
    have hne : ((Tab.get ({} : Slot) s.slots i).fn.val != f.val) = false := by
      have hval : (s.slot i).fn.val = f.val := congrArg Fin.val hfn
      simpa [State.slot] using hval
    simp only [hne, Bool.or_false] at hkept
    exact eq_of_beq hkept

theorem fnCode_ne_zero : ∀ f : FnId, ((0 : BitVec 10) == fnCode f) = false := by decide

theorem State.flrFn_leaves (s : State) {f : FnId} (hf : f ≠ 0) : ((s.flrFn f).fn f).reset = true ∧ ((s.flrFn f).fn f).enable = false ∧
    ((s.flrFn f).fn f).fetched = [] ∧ (s.flrFn f).NoSlot f ∧ ∀ l, ((s.flrFn f).lock l).holder ≠ fnCode f := by
  unfold State.flrFn
  extract_lets owned s1 s2 pools s3 s4 s5
  have h2 : s2.NoSlot f := State.noSlot_of_filter (slots := s1.slots) rfl
  clear_value s2
  have h5 : s5.slots = s2.slots := (State.resetHolder_keeps (Nat.and_self _) s4 _ (Keeps.refl _ s4)).slots_eq.trans
    ((foldl_same (g := State.slots) (fun s p => (State.modPool_keeps (Nat.and_self _) s p _ (Keeps.refl _ s)).slots_eq) pools s3).trans
      (foldl_same (g := State.slots) (fun s p => (State.flushPool_keeps (Nat.and_self _) s p 2 2 (Keeps.refl _ s)).slots_eq) pools s2))
  have hlocks : ∀ l, (s5.lock l).holder ≠ fnCode f := fun l =>
    beq_eq_false_iff_ne.1 (State.holder_resetHolder (s := s4) (p := fun c => c == fnCode f) (fnCode_ne_zero f) l)
  clear_value s5
  rw [State.modFn_eq, State.fn_setFn]
  refine ⟨rfl, rfl, rfl, fun i => ?_, hlocks⟩
  rw [State.slot_of_setFn, State.slot, h5]
  exact h2 i

theorem State.eps_resetEpB (s : State) : s.resetEpB.eps = s.eps := (State.resetEpB_keeps (Nat.and_self _) s (Keeps.refl _ s)).eps_eq

/-- PCIE_A_PERST_N is low: endpoint A is down. -/
def State.perstA (s : State) : State := s.modEp 0 (fun e => { e with perst := true, config := false, up := false })

theorem execPcieAPerst_of_ready (h : s.ready = true) :
    execPcieAPerst s = .next (s.perstA.warmReset 3 (!s.perstA.boot.trainHbm || s.perstA.ready)) := by
  have hready : s.perstA.ready = true := h
  exact congrArg Host.Outcome.next (if_pos (by rw [show (s.modEp 0 _).ready = true from hready]; rfl))

/-- Settles O41: what each reset of the part, or of a function, leaves. -/
theorem resetsOfThePart : Obligations.ResetsOfThePart := by
  unfold Obligations.ResetsOfThePart
  refine ⟨⟨?_, ?_, ?_, ?_, ?_, ?_⟩, ?_, ?_, ?_, ?_, ?_, ?_⟩
  · intro pin s
    exact ⟨_, rfl, rfl, rfl, rfl, rfl, rfl, rfl, rfl, rfl⟩
  · intro b s hpor hb
    refine ⟨_, congrArg Host.Outcome.next (if_neg (by simp [hpor])), ?_⟩
    have hstart := State.startsUp (s := ({ s with boot := { s.boot with bootSrc := b, trainHbm := true } } : State).log .powerOn inPower noFn 0 0) hb
    exact ⟨hstart.phase, hstart.bootStep, hstart.bootSrc⟩
  · intro rail s hpor
    have hreset := s.diesReset (5 + rail) false
    refine ⟨s.holdReset (5 + rail) false .borHold, congrArg Host.Outcome.next (if_neg (by simpa using hpor)), ?_⟩
    unfold State.holdReset
    generalize s.dieReset (5 + rail) false = u at hreset
    refine ⟨rfl, ?_⟩
    exact ⟨hreset.resetCause, hreset.ctxs, hreset.units, hreset.fns, hreset.esn, hreset.dtb, hreset.bootSrc⟩
  · intro s hhold hshut hclocks hsrc
    have hstart := State.startsUp hsrc
    refine ⟨s.startUp, congrArg Host.Outcome.next ?_, hstart.phase, hstart.bootStep, hstart.vid⟩
    rw [if_neg (by simp [hhold]), if_neg (by simp [hshut]), if_neg (by simpa using hclocks)]
  · intro s hready hsrc
    obtain ⟨hreset, hstart⟩ := State.startsUp_warmReset 2 true hsrc
    refine ⟨s.warmReset 2 true, congrArg Host.Outcome.next (if_pos hready), hstart.phase, hstart.resetCause.trans hreset.resetCause,
      hstart.ctxs.trans hreset.ctxs, hstart.units.trans hreset.units, hstart.fns.trans hreset.fns, hstart.hbm.trans (hreset.hbm rfl), ?_, ?_⟩
    · rw [hstart.seqr, hreset.esn]
    · rw [hstart.dtb, hreset.dtb]
  · intro s hready hsrc
    obtain ⟨hreset, hstart⟩ := State.startsUp_warmReset (s := s.perstA) 3 (!s.perstA.boot.trainHbm || s.perstA.ready) hsrc
    refine ⟨_, execPcieAPerst_of_ready hready, hstart.phase, hstart.resetCause.trans hreset.resetCause, ?_⟩
    generalize s.perstA.dieReset 3 (!s.perstA.boot.trainHbm || s.perstA.ready) = u at hreset hstart
    have hep : u.ep 0 = { perst := true } := by
      rw [State.ep, hreset.eps, Tab.get_mapVals ({} : Endpoint) (fun e => { perst := e.perst }) rfl]
      exact congrArg (fun e : Endpoint => ({ perst := e.perst } : Endpoint)) (State.ep_setEp s 0 _)
    have hsame : (s.perstA.warmReset 3 (!s.perstA.boot.trainHbm || s.perstA.ready)).ep 0 = u.ep 0 :=
      congrArg (fun l => Tab.get ({} : Endpoint) l 0) (hstart.ep (by rw [hep]))
    rw [hsame, hep]
    exact ⟨rfl, rfl, rfl, hstart.ctxs.trans hreset.ctxs⟩
  · intro fault s hready
    refine ⟨_, congrArg Host.Outcome.next ((if_neg (by simp [hready])).trans (if_pos rfl)), ?_, fun l => ?_⟩
    · have hboot : s.failFirmware.resetMcLocks.boot = s.boot := (State.resetMcLocks_keeps (Nat.and_self _) _ (Keeps.refl _ _)).boot_eq.trans
        (State.failFirmware_keeps (Nat.and_self _) s (Keeps.refl _ s)).boot_eq
      rw [State.boot_log, hboot]
      exact eq_of_beq hready
    · rw [State.lock_log]
      exact beq_eq_false_iff_ne.1 (State.holder_resetHolder (p := fun c => c == mcCode) rfl l)
  · intro f s hready hf
    refine ⟨s.flrFn f, congrArg Host.Outcome.next ((if_pos hready).trans ?_), s.flrFn_leaves hf⟩
    have hval : f.val ≠ 0 := fun h => hf (Fin.ext h)
    rw [State.flr, flrTargets, if_neg hval]
    rfl
  · intro s
    refine ⟨_, rfl, ?_⟩
    extract_lets s1
    have h1 : s1.ep 1 = { s.ep 1 with perst := true, config := false, up := false } := State.ep_setEp ..
    clear_value s1
    split
    · rw [State.ep, State.eps_resetEpB]
      exact ⟨(congrArg Endpoint.perst h1 :), (congrArg Endpoint.up h1 :), (congrArg Endpoint.config h1 :)⟩
    · rw [h1]
      exact ⟨rfl, rfl, rfl⟩
  · intro ep s hep
    refine ⟨_, congrArg Host.Outcome.next (if_pos hep), ?_⟩
    extract_lets s1
    have h1 : (s1.ep ep).up = false := (congrArg Endpoint.up (State.ep_setEp s ep _) :)
    clear_value s1
    split
    · exact h1
    · split
      · rw [State.ep, (State.flr_keeps (Nat.and_self _) s1 0 (Keeps.refl _ s1)).eps_eq]
        exact h1
      · rw [State.ep, State.eps_resetEpB]
        exact h1
  · intro ep s hready hep hclocks
    refine ⟨s.modEp ep (fun e => { e with up := true, config := true }), congrArg Host.Outcome.next ?_, (congrArg Endpoint.up (State.ep_setEp s ep _) :)⟩
    refine if_pos ?_
    simp [hep, hclocks, hready]
  · intro s
    refine ⟨_, rfl, ?_⟩
    rw [State.modEp, State.ep_setEp]
    exact ⟨rfl, rfl⟩

end Sys2Proof.Machine

/-! The arbiter rule set (R150-R155). -/

namespace Sys2Proof.Machine
set_option Elab.async false
variable {s t : State}

-- The winner of an arbitration.

theorem highest_append (l : List Nat) (i : Nat) : highest (l ++ [i]) = some (match highest l with | some j => max i j | none => i) := by
  unfold highest
  rw [List.foldl_append]
  simp only [List.foldl_cons, List.foldl_nil]
  split <;> simp_all

/-- The highest input of a list that has one. -/
theorem highest_of_ne_nil {l : List Nat} (h : l ≠ []) : ∃ w, highest l = some w ∧ w ∈ l ∧ ∀ i ∈ l, i ≤ w := by
  induction l using List.reverseRecOn with
  | nil => exact absurd rfl h
  | append_singleton l i ih =>
    by_cases hl : l = []
    · subst hl
      exact ⟨i, rfl, by simp, by simp⟩
    · obtain ⟨w, hw, hmem, hmax⟩ := ih hl
      refine ⟨max i w, by rw [highest_append, hw], ?_, fun j hj => ?_⟩
      · rcases le_total i w with hle | hle
        · rw [max_eq_right hle]
          exact List.mem_append_left _ hmem
        · rw [max_eq_left hle]
          simp
      · rcases List.mem_append.1 hj with hj | hj
        · exact (hmax j hj).trans (le_max_right i w)
        · rw [List.mem_singleton.1 hj]
          exact le_max_left i w

/-- The winner is the highest FORCED contender, or the highest one where none is FORCED (R151, R152). -/
theorem Arbiter.winner_of_contender {a : Arbiter} (h : ∃ e ∈ a.reqs, e.2.contends = true) :
    ∃ w r, a.winner = some w ∧ (w, r) ∈ a.reqs ∧ r.contends = true ∧
      ∀ e ∈ a.reqs, e.2.contends = true → (e.2.forced = true → r.forced = true) ∧ (e.2.forced = r.forced → e.1 ≤ w) := by
  obtain ⟨e₀, he₀, hc₀⟩ := h
  have hin : ∀ e, e ∈ a.reqs.filter (fun e => e.2.contends) ↔ e ∈ a.reqs ∧ e.2.contends = true := fun e => List.mem_filter
  unfold Arbiter.winner
  extract_lets c f
  have hcne : c ≠ [] := List.ne_nil_of_mem ((hin e₀).2 ⟨he₀, hc₀⟩)
  by_cases hf : f = []
  · have hnone : ∀ e ∈ c, e.2.forced = false := by
      intro e he
      simpa using List.filter_eq_nil_iff.1 hf e he
    rw [hf, if_pos List.isEmpty_nil]
    obtain ⟨w, hw, hmem, hmax⟩ := highest_of_ne_nil (l := c.map (fun e => e.1)) (by simpa using hcne)
    obtain ⟨x, hx, rfl⟩ := List.mem_map.1 hmem
    obtain ⟨hxa, hxc⟩ := (hin x).1 hx
    refine ⟨x.1, x.2, hw, hxa, hxc, fun e he hc => ?_⟩
    have hec := (hin e).2 ⟨he, hc⟩
    refine ⟨fun hforced => absurd (hforced.symm.trans (hnone e hec)) (by decide), fun _ => ?_⟩
    exact hmax e.1 (List.mem_map_of_mem hec)
  · rw [if_neg (by simpa [List.isEmpty_iff] using hf)]
    obtain ⟨w, hw, hmem, hmax⟩ := highest_of_ne_nil (l := f.map (fun e => e.1)) (by simpa using hf)
    obtain ⟨x, hx, rfl⟩ := List.mem_map.1 hmem
    obtain ⟨hxc', hxf⟩ := List.mem_filter.1 hx
    obtain ⟨hxa, hxc⟩ := (hin x).1 hxc'
    refine ⟨x.1, x.2, hw, hxa, hxc, fun e he hc => ⟨fun _ => hxf, fun heq => ?_⟩⟩
    exact hmax e.1 (List.mem_map_of_mem (List.mem_filter.2 ⟨(hin e).2 ⟨he, hc⟩, heq.trans hxf⟩))

theorem Arbiter.arbitrate_of_free {limit n inputs w : Nat} {present : List Nat} {a : Arbiter} (hfree : a.holder = none)
    (hw : (a.gather limit n inputs present).winner = some w) :
    a.arbitrate limit n inputs present = ({ a.gather limit n inputs present with dead := none } : Arbiter).grant w := by
  have hheld : (a.gather limit n inputs present).holder = none := hfree
  have hwin : ({ a.gather limit n inputs present with dead := none } : Arbiter).winner = some w := hw
  unfold Arbiter.arbitrate
  extract_lets b b'
  rw [if_neg (by rw [show b.holder = none from hheld]; decide), show b'.winner = some w from hwin]

/-- Every other contender that is not FORCED loses (R153). -/
theorem Arbiter.mem_grant {a : Arbiter} {w : Nat} {e : Nat × Requester} (he : e ∈ a.reqs) (hc : e.2.contends = true) (hforced : e.2.forced = false)
    (hne : e.1 ≠ w) : (e.1, { e.2 with losses := e.2.losses + 1, backoff := backoffFor (e.2.losses + 1) }) ∈ (a.grant w).reqs := by
  refine List.mem_map.2 ⟨e, he, ?_⟩
  rw [if_pos (by simp [hne, hc]), Requester.lose, if_neg (by rw [hforced]; decide)]

theorem arbitration_of_other {a : ArbId} {present : List Nat} {n : Nat} (harb : s.hasArb a = true) (hpool : ∀ p, a ≠ .pool p) :
    arbitration a present n s = s.modArb (arbCode a) (Arbiter.arbitrate (s.waitLimit a) n (arbInputs a)
      (if a = .sequencer then present.filter s.seqPresents else present)) := by
  unfold arbitration
  rw [if_neg (by rw [harb]; decide)]
  cases a with
  | pool p => exact absurd rfl (hpool p)
  | _ => rfl

/-- Settles O35: the winner of an arbitration, and what back-off, FORCED and withdrawal leave. -/
theorem arbitersGrant : Obligations.ArbitersGrant := by
  unfold Obligations.ArbitersGrant
  refine ⟨?_, ?_, ?_, ?_, ?_⟩
  · intro a present cycles g s harb hpool hg hsome hfree
    obtain ⟨w, r, hw, hmem, hc, hbest⟩ := Arbiter.winner_of_contender hsome
    refine ⟨_, w, r, congrArg Host.Outcome.next (arbitration_of_other harb hpool), hmem, hc, ?_⟩
    rw [State.modArb_eq, State.arb_setArb, Arbiter.arbitrate_of_free hfree (hg ▸ hw), ← hg]
    exact ⟨rfl, hbest, fun e he hec hforced hne => Arbiter.mem_grant he hec hforced hne⟩
  · intro a i r s hheld hmem
    refine ⟨_, rfl, ?_⟩
    rw [State.modArb_eq, State.arb_setArb, Arbiter.modWaiting, if_neg (by simpa using hheld)]
    exact List.mem_map.2 ⟨_, hmem, if_pos (by simp)⟩
  · intro a i s harb hin hheld
    refine ⟨_, congrArg Host.Outcome.next (if_neg (by simp [harb, hin])), ?_⟩
    rw [State.modArb_eq, State.arb_setArb, if_neg (by simpa using hheld)]
    extract_lets r
    rw [Tab.get_set_same]
    exact ⟨rfl, rfl, rfl, rfl⟩
  · intro a i s hpool hheld
    refine ⟨withdraw a i s, rfl, ?_⟩
    unfold withdraw
    extract_lets x y
    rw [if_pos (by rw [show x.holder = some i.val from hheld]; simp)]
    cases a with
    | pool p => exact absurd rfl (hpool p)
    | _ =>
      rw [State.arb_setArb]
      exact ⟨rfl, rfl⟩
  · intro a i s hheld
    refine ⟨withdraw a i s, rfl, fun e he => ?_⟩
    unfold withdraw at he
    extract_lets x y at he
    rw [if_neg (by simpa [x] using hheld), State.arb_setArb] at he
    simpa [Tab.drop] using (List.mem_filter.1 he).2

end Sys2Proof.Machine

/-! Framed queues (R158-R167), and the fetch and the doorbell of descriptor pools (R169, R325). -/

namespace Sys2Proof.Machine
set_option Elab.async false
variable {s t : State}

-- Words of a commit-mode queue.

/-- A word that fits goes to the open item, or commits it with its end marker (R158, R160). -/
theorem FQueue.write_of_room {cap lim : Nat} {w : B64} {crcOk : Bool} {x : FQueue} (hpoison : x.poisoned = false) (hlong : x.tooLong = false)
    (hlim : x.opened.length < lim) (hcap : (x.items.map List.length).sum + x.opened.length < cap) :
    FQueue.write cap lim w true true x = { x with items := x.items ++ [x.opened ++ [w]], opened := [], isOpen := false, lastReturn := 0 } ∧
      FQueue.write cap lim w false crcOk x = { x with opened := x.opened ++ [w], isOpen := true, lastReturn := 0 } := by
  unfold FQueue.write
  rw [hpoison, hlong]
  simp only [Bool.false_eq_true, if_false, if_neg (Nat.not_le.2 hlim), if_neg (Nat.not_le.2 hcap)]
  exact ⟨rfl, rfl⟩

/-- The machine in which a source may write a word of its item. -/
theorem queueWordWrite_of_granted {q : QId} {src : Nat} (w : B64) (e c : Bool) (hgrant : ∀ a, prodArb q = some a → ∃ u, s.holdArb a src = some u) :
    (queueWordWrite q src w e c s).queue (queueCode q) = FQueue.write (capacity q) (itemLimit q) w e c (s.queue (queueCode q)) := by
  have hput : ∀ r : State, (r.modQueue (queueCode q) (FQueue.write (capacity q) (itemLimit q) w e c)).queue (queueCode q) =
      FQueue.write (capacity q) (itemLimit q) w e c (r.queue (queueCode q)) := fun r => by
    rw [State.modQueue_eq, State.queue_setQueue]
  unfold queueWordWrite
  extract_lets put
  split
  · exact hput s
  · next a ha =>
    obtain ⟨u, hu⟩ := hgrant a ha
    have hqueue : u.queue (queueCode q) = s.queue (queueCode q) := by
      unfold State.holdArb at hu
      obtain ⟨x, -, rfl⟩ := Option.map_eq_some_iff.1 hu
      rfl
    rw [hu]
    have ht : (put u).queue (queueCode q) = FQueue.write (capacity q) (itemLimit q) w e c (s.queue (queueCode q)) := (hput u).trans (by rw [hqueue])
    change (if (e && ((put u).queue (queueCode q)).lastReturn != 3) = true then (put u).freeArb a src else put u).queue (queueCode q) = _
    generalize put u = t at ht
    split
    · exact (State.queue_of_setArb ..).trans ht
    · exact ht

theorem fillSlot_of_first {unit producer : Nat} {slot : B32} {body : List B32} {a b : List LpItem} {i : LpItem} (ha : ∀ x ∈ a, x.producer ≠ producer)
    (hi : i.producer = producer) (hopen : i.slot = none) :
    fillSlot unit producer slot body (a ++ i :: b) = a ++ { i with slot := some slot, body := body.take (unit * i.len - 1) } :: b := by
  induction a with
  | nil => simp [fillSlot, hi, hopen]
  | cons x a ih =>
    have hx : x.producer ≠ producer := ha x List.mem_cons_self
    rw [List.cons_append, fillSlot, if_neg (by simp [hx]), ih (fun y hy => ha y (List.mem_cons_of_mem _ hy))]
    rfl

-- Reads.

/-- A commit-mode queue that no other consumer serves is read as itself. -/
theorem queueRead_of_commit {q : QId} (hcommit : commitMode q = true) (hreply : ∀ f, q = .reply f → (s.fn f).replyQ = [])
    (hctrl : ∀ x o, q = .ctrl x o → ctrlNext x o = none ∨ (s.queue (queueCode q)).items = []) :
    queueRead q s = s.modQueue (queueCode q) (FQueue.read true (idleItem q)) := by
  cases q with
  | reply f =>
    unfold queueRead
    simp only [hreply f rfl]
  | ctrl x o =>
    have hx : (Fin.ofNat 768 x.val, Fin.ofNat 5 o.val) = (x, o) := by
      ext <;> simp
    obtain ⟨h1, h2⟩ := Prod.mk.inj hx
    change ctrlForward x.val o.val s = _
    unfold ctrlForward
    extract_lets q
    have hq : q = .ctrl x o := by rw [← h1, ← h2]
    clear_value q
    subst hq
    split
    · rfl
    · next i t hitems =>
      rcases hctrl x o rfl with hnone | hnil
      · rw [hnone]
      · exact absurd (hnil.symm.trans hitems) (by simp)
  | eventLog => exact (Bool.false_ne_true hcommit).elim
  | completion p => exact (Bool.false_ne_true hcommit).elim
  | spore p => rfl
  | mailbox => rfl

theorem State.queue_modQueue (s : State) (i : Nat) (f : FQueue → FQueue) : (s.modQueue i f).queue i = f (s.queue i) := by
  rw [State.modQueue_eq, State.queue_setQueue]

/-- The oldest reply of a function that takes replies leaves its queue (R329). -/
theorem replyQ_replyWrite {f : Nat} {r : Rec} {m : List Rec} (hq : (s.fn f).replyQ = r :: m) (hup : s.fnUp f = true) (hen : (s.fn f).enable = true)
    (hreset : (s.fn f).reset = false) (hroom : ((s.fn f).rplProd + 1) % 2 ^ (s.fn f).rplOrder ≠ (s.fn f).rplCons) :
    ((replyWrite f true s).fn f).replyQ = m := by
  unfold replyWrite
  extract_lets x next
  simp only [x, hq]
  rw [if_neg (by simp [next, x, State.fnUp_ready hup, hen, hreset, hroom]), if_neg (by simp [hup])]
  split
  · rw [State.fn_raiseIrq, State.fn_setFn]
  · rw [State.fn_setFn]

theorem State.logQ_longLog (s : State) (us : List Bytes) : (s.longLog us).seqr.logQ = s.seqr.logQ := by
  unfold State.longLog
  split
  · rfl
  · extract_lets s1
    have h1 : s1.seqr.logQ = s.seqr.logQ := by
      refine foldl_same (g := fun s => s.seqr.logQ) (fun s u => ?_) us s
      rfl
    exact h1

theorem State.logQ_logWindow (s : State) (us : List Bytes) : (s.logWindow us).seqr.logQ = s.seqr.logQ := by
  refine foldl_same (g := fun s => s.seqr.logQ) (fun s u => ?_) us s
  rfl

/-- The distributor takes the oldest numbered record (R345). -/
theorem logQ_logDistribute {r : Rec} {m : List Rec} (hq : s.seqr.logQ = r :: m) : (logDistribute s).seqr.logQ = m := by
  unfold logDistribute
  split
  · next h => exact absurd (h.symm.trans hq) (by simp)
  · next r' m' h =>
    obtain ⟨-, rfl⟩ := List.cons.inj (h.symm.trans hq)
    extract_lets sq s1 us s2
    have h2 : s2.seqr.logQ = m' := (State.logQ_logWindow _ us).trans (State.logQ_longLog s1 us)
    clear_value s2
    refine Eq.trans (foldl_same (g := fun s => s.seqr.logQ) (fun s f => ?_) _ s2) h2
    split
    · split
      · rw [(State.ringLog_keeps (Nat.and_self _) s f _ r' (Keeps.refl _ s)).seqr_eq]
      · rfl
    · rfl

-- Pools.

theorem leNat_toLe (n v : Nat) : leNat (toLe n v) = v % 256 ^ n := by
  induction n generalizing v with
  | zero => simp [toLe, leNat, Nat.mod_one]
  | succ n ih =>
    rw [toLe, leNat, ih, BitVec.toNat_ofNat, pow_succ' 256 n, Nat.mod_mul (x := v) (a := 256)]

/-- A descriptor is read back from its 16 bytes (R169). -/
theorem poolDescs_of_bytes (d : PoolDesc) : poolDescs (toLe 8 d.addr.toNat ++ toLe 4 d.size.toNat ++ toLe 4 d.tag.toNat) = [d] := by
  have haddr : leNat (toLe 8 d.addr.toNat) = d.addr.toNat := by rw [leNat_toLe]; exact Nat.mod_eq_of_lt d.addr.isLt
  have hsize : leNat (toLe 4 d.size.toNat) = d.size.toNat := by rw [leNat_toLe]; exact Nat.mod_eq_of_lt d.size.isLt
  have htag : leNat (toLe 4 d.tag.toNat) = d.tag.toNat := by rw [leNat_toLe]; exact Nat.mod_eq_of_lt d.tag.isLt
  have h8 := length_toLe 8 d.addr.toNat
  have h4 := length_toLe 4 d.size.toNat
  have h4' := length_toLe 4 d.tag.toNat
  generalize toLe 8 d.addr.toNat = a at haddr h8
  generalize toLe 4 d.size.toNat = b at hsize h4
  generalize toLe 4 d.tag.toNat = c at htag h4'
  have hlen : (a ++ b ++ c).length / 16 = 1 := by simp [h8, h4, h4']
  have hfield : fieldLe (a ++ b ++ c) 0 8 = d.addr.toNat ∧ fieldLe (a ++ b ++ c) 8 4 = d.size.toNat ∧ fieldLe (a ++ b ++ c) 12 4 = d.tag.toNat := by
    refine ⟨?_, ?_, ?_⟩
    · rw [fieldLe, List.drop_zero, List.append_assoc, List.take_left' h8, haddr]
    · rw [fieldLe, List.append_assoc, List.drop_left' h8, List.take_left' h4, hsize]
    · rw [fieldLe, List.drop_left' (by simp [h8, h4]), List.take_of_length_le (by simp [h4']), htag]
  obtain ⟨h0, h8, h12⟩ := hfield
  simp only [poolDescs, hlen, List.range_one, List.map_cons, List.map_nil, Nat.mul_zero, Nat.zero_add, h0, h8, h12, BitVec.ofNat_toNat,
    BitVec.setWidth_eq]

/-- A fetch takes at most 8 of the descriptors that the producer index offers (R169). -/
theorem poolDescriptorFetch_of_ready {p k : Nat} {data : Bytes} {ds : List PoolDesc} (hready : (s.pool p).ready = true)
    (hroom : (s.pool p).cache.length < 8) (hds : poolDescs data = ds)
    (hk : k = min ds.length (min 8 (((s.pool p).prod + 2 ^ (s.pool p).order - (s.pool p).cons) % 2 ^ (s.pool p).order))) :
    poolDescriptorFetch p data s = s.setPool p { s.pool p with
      cache := (s.pool p).cache ++ ds.take k, cons := ((s.pool p).cons + k) % 2 ^ (s.pool p).order } := by
  unfold poolDescriptorFetch
  extract_lets x ds' avail got
  have hgot : got = ds.take k := by
    rw [hk, show got = ds.take (min 8 avail) from by simp only [got, ds', hds]]
    exact (List.take_eq_take_iff.2 (by simp only [avail, x]; omega))
  rw [if_neg (by simp [x, hready, hroom]), hgot]
  have hlen : (ds.take k).length = k := by
    rw [List.length_take, hk]
    omega
  rw [hlen]

theorem poolDoorbell_of_good {f : Nat} {v : B32} {p : Nat} (hready : s.ready = true) (hreset : (s.fn f).reset = false) (hp : p = bits v.toNat 16 6)
    (hbad : (32 * s.part.variant.ports ≤ p || !mayAct f (s.pool p).fn || !(s.pool p).ready || 2 ^ (s.pool p).order ≤ bits v.toNat 0 16) = false) :
    poolDoorbell f v s = (s.setFn f { s.fn f with poolDoorbell := BitVec.ofNat 32 (v.toNat % 2 ^ 22) }).setPool p
      { s.pool p with prod := bits v.toNat 0 16 } := by
  subst hp
  unfold poolDoorbell
  extract_lets x p i y s1
  rw [if_neg (by simp [x, hready, hreset])]
  exact if_neg (Bool.eq_false_iff.1 hbad)

theorem poolDoorbell_of_bad {f : Nat} {v : B32} {p : Nat} (hready : s.ready = true) (hreset : (s.fn f).reset = false) (hp : p = bits v.toNat 16 6)
    (hout : 2 ^ (s.pool p).order ≤ bits v.toNat 0 16) :
    poolDoorbell f v s = (s.setFn f { s.fn f with poolDoorbell := BitVec.ofNat 32 (v.toNat % 2 ^ 22) }).ringStatus f
      (fun x => { x with badDoorbell := true }) := by
  subst hp
  unfold poolDoorbell
  extract_lets x p i y s1
  rw [if_neg (by simp [x, hready, hreset])]
  exact if_pos (by simp [y, i, p, hout])

/-- Settles O36: what words, reservations, reads, fetches and doorbells leave of a queue or a pool. -/
theorem queuesAndPools : Obligations.QueuesAndPools := by
  unfold Obligations.QueuesAndPools
  refine ⟨⟨?_, ?_, ?_, ?_, ?_, ?_, ?_, ?_, ?_, ?_⟩, poolDescs_of_bytes, ?_, ?_, ?_⟩
  · intro q src word w x s hcommit hx hpoison hlong hgrant hlim hcap hw
    subst hx
    have hon : ¬(!commitMode q) = true := by simp [hcommit]
    obtain ⟨hend, hopen⟩ := FQueue.write_of_room (w := w) (crcOk := true || !checksCrc q) hpoison hlong hlim hcap
    refine ⟨_, _, congrArg Host.Outcome.next (if_neg hon), congrArg Host.Outcome.next (if_neg hon), ?_⟩
    rw [queueWordWrite_of_granted _ _ _ hgrant, queueWordWrite_of_granted _ _ _ hgrant, ← hw]
    rw [Bool.true_or] at hopen ⊢
    rw [hend, hopen]
    exact ⟨rfl, rfl, rfl, rfl⟩
  · intro q a src word e c s ha hheld
    refine congrArg Host.Outcome.next ?_
    split
    · rfl
    · unfold queueWordWrite
      extract_lets put
      rw [ha]
      change (match s.holdArb a src with | none => s | some s => _) = s
      rw [hheld]
  · intro q s hcommit hopen
    have habort : ((queueAbort q s).queue (queueCode q)) = (s.queue (queueCode q)).abort := by
      unfold queueAbort
      rw [if_pos (by rw [hcommit, hopen]; rfl)]
      extract_lets s1
      have h1 : s1.queue (queueCode q) = (s.queue (queueCode q)).abort := State.queue_modQueue ..
      clear_value s1
      split
      · exact (State.queue_of_setArb ..).trans h1
      · exact h1
    refine ⟨queueAbort q s, rfl, ?_⟩
    rw [habort]
    exact ⟨rfl, rfl, rfl⟩
  · intro q pr len s hcommit hlen
    refine ⟨_, congrArg Host.Outcome.next (if_neg (by simpa [hcommit] using hlen)), ?_⟩
    rw [State.queue_modQueue]
    unfold FQueue.reserve
    split
    · next h => rw [if_neg (by omega)]
    · split
      · next h => rw [if_neg (by omega)]
      · next h => rw [if_pos (by omega)]
  · intro q pr slot body a b i s hcommit hslot hpoison hlp ha hi hopen
    refine ⟨_, congrArg Host.Outcome.next (if_neg (by rw [hcommit, hslot]; decide)), ?_⟩
    rw [State.queue_modQueue, FQueue.writeSlot, if_neg (by simpa using hpoison), hlp]
    exact fillSlot_of_first ha hi hopen
  · intro q i m s hcommit hitems hreply hctrl
    refine ⟨queueRead q s, rfl, ?_⟩
    rw [queueRead_of_commit hcommit hreply (fun x o h => Or.inl (hctrl x o h)), State.queue_modQueue, FQueue.read, if_pos rfl, hitems]
    exact ⟨rfl, rfl⟩
  · intro q s hcommit hitems hreply
    refine ⟨queueRead q s, rfl, ?_⟩
    rw [queueRead_of_commit hcommit hreply (fun x o h => Or.inr hitems), State.queue_modQueue]
    simp only [FQueue.read, if_pos, hitems, and_self]
  · intro q i m s hcommit hlp hslot hlog
    have hread : queueRead q s = s.modQueue (queueCode q) (FQueue.read false (idleItem q)) := by
      cases q with
      | eventLog =>
        change (match s.seqr.logQ with | r :: _ => _ | [] => _) = _
        rw [hlog rfl]
      | completion p => rfl
      | reply f => exact (Bool.false_ne_true hcommit.symm).elim
      | spore p => exact (Bool.false_ne_true hcommit.symm).elim
      | mailbox => exact (Bool.false_ne_true hcommit.symm).elim
      | ctrl x o => exact (Bool.false_ne_true hcommit.symm).elim
    refine ⟨queueRead q s, rfl, ?_⟩
    have hskip : dropSkipped (i :: m) = i :: m := by rw [dropSkipped, hslot]
    rw [hread, State.queue_modQueue, FQueue.read, if_neg Bool.false_ne_true, hlp, hskip]
    simp only [hslot, and_self]
  · intro f r m s hq hup hen hreset hroom
    have hread : queueRead (.reply f) s = replyWrite f true (s.showRead (.reply f) (wordsOf 4 (replyBytes r))) := by
      change (match (s.fn f).replyQ with | r :: _ => _ | [] => _) = _
      rw [hq]
    refine ⟨queueRead (.reply f) s, rfl, ?_⟩
    rw [hread]
    refine ⟨replyQ_replyWrite (s := s.showRead (.reply f) (wordsOf 4 (replyBytes r))) hq hup hen hreset hroom, ?_⟩
    rw [(replyWrite_keeps (Nat.and_self _) f true _ (Keeps.refl _ _)).queue_eq]
    exact (congrArg FQueue.lastRead (State.queue_modQueue s _ _) :)
  · intro r m s hq
    have hread : queueRead .eventLog s = logDistribute (s.showRead .eventLog (wordsOf 8 (recBytes r))) := by
      change (match s.seqr.logQ with | r :: _ => _ | [] => _) = _
      rw [hq]
    refine ⟨queueRead .eventLog s, rfl, ?_⟩
    rw [hread]
    refine ⟨logQ_logDistribute (s := s.showRead .eventLog (wordsOf 8 (recBytes r))) hq, ?_⟩
    rw [(logDistribute_keeps (Nat.and_self _) _ (Keeps.refl _ _)).queue_eq]
    exact (congrArg FQueue.lastRead (State.queue_modQueue s _ _) :)
  · intro p data ds k s hready hroom hds hk
    refine ⟨_, congrArg Host.Outcome.next (poolDescriptorFetch_of_ready hready hroom hds hk), ?_⟩
    rw [State.pool_setPool]
    exact ⟨rfl, rfl⟩
  · intro f v p s hready hreset hp hlt hown hon hin
    refine ⟨_, congrArg Host.Outcome.next (poolDoorbell_of_good hready hreset hp (by simp [hlt, hown, hon, hin])), ?_⟩
    rw [State.pool_setPool]
    rw [State.fn_of_setPool, State.fn_setFn]
    exact ⟨rfl, rfl⟩
  · intro f v p s hready hreset hp hout
    refine ⟨_, congrArg Host.Outcome.next (poolDoorbell_of_bad hready hreset hp hout), ?_, ?_⟩
    · obtain ⟨irqs, hfn⟩ := (s.setFn f { s.fn f with poolDoorbell := BitVec.ofNat 32 (v.toNat % 2 ^ 22) }).fn_ringStatus f
        (fun x => { x with badDoorbell := true })
      rw [hfn]
    · exact (State.ringStatus_keeps (Nat.and_self _) _ _ _ (Keeps.refl _ _)).pools_eq

end Sys2Proof.Machine

/-! The Event Sequencer and the distributor (R76-R80, R345, R349), frame records (R346), captures and dumps (R457-R461). -/

namespace Sys2Proof.Machine
set_option Elab.async false
variable {s t : State}

-- The Event Sequencer.

theorem State.useArb_leaves {a : ArbId} {i : Nat} {present : List Nat} {u : State} (h : s.useArb a i present = some u) :
    ∃ n x, u = s.setArb n x := by
  unfold State.useArb at h
  obtain ⟨x, -, rfl⟩ := Option.map_eq_some_iff.1 h
  exact ⟨_, _, rfl⟩

theorem State.seqr_capEvent (s : State) (code : Nat) : (s.capEvent code).seqr.esn = s.seqr.esn ∧ (s.capEvent code).seqr.logQ = s.seqr.logQ := by
  unfold State.capEvent
  split
  · unfold State.capFire
    split
    · exact ⟨rfl, rfl⟩
    · exact ⟨rfl, rfl⟩
  · exact ⟨rfl, rfl⟩

/-- The state once a record has its number. -/
def State.numbered (s : State) (inp : Nat) (m : List Rec) : State :=
  { s with seqr := { s.seqr with esn := nextEsn s.seqr.esn, inputs := Tab.set s.seqr.inputs inp ({ s.seqr.input inp with dcq := m } : SeqInput).pump }
           boot := { s.boot with powerOnOwed := false } }

/-- A record with its number. -/
def State.stamped (s : State) (r : Rec) : Rec := { r with esn := nextEsn s.seqr.esn, dtb := s.dtb.now }

theorem eventRecord_of_granted {i : Nat} {r : Rec} {m : List Rec} {u : State} (hr : (s.seqr.input i).dcq = r :: m) (hpres : s.seqPresents i = true)
    (harb : s.useArb .sequencer i ((List.range 28).filter s.seqPresents) = some u) :
    (r.isReply = true → eventRecord i s = (u.numbered i m).takeReply (s.stamped r)) ∧
      (r.isReply = false → (eventRecord i s).seqr.esn = nextEsn s.seqr.esn ∧ (eventRecord i s).seqr.logQ = s.seqr.logQ ++ [s.stamped r]) := by
  obtain ⟨n, x, hu⟩ := State.useArb_leaves harb
  have hseqr : u.seqr = s.seqr := by rw [hu]; rfl
  have hdtb : u.dtb = s.dtb := by rw [hu]; rfl
  have hinput : (s.seqr.input i) = u.seqr.input i := by rw [hseqr]
  have hstamp : s.stamped r = u.stamped r := by rw [State.stamped, State.stamped, hseqr, hdtb]
  have hgo : eventRecord i s = if r.isReply then (u.numbered i m).takeReply (u.stamped r)
      else
        let s := { u.numbered i m with seqr := { (u.numbered i m).seqr with logQ := (u.numbered i m).seqr.logQ ++ [u.stamped r] } }
        let s := s.capEvent (u.stamped r).code
        if (u.stamped r).typ == 1 then s.frameNumbered (u.stamped r) else s := by
    unfold eventRecord
    simp only [hr, hpres, if_true, harb]
    rw [hinput]
    rfl
  refine ⟨fun hreply => ?_, fun hreply => ?_⟩
  · rw [hgo, if_pos hreply, hstamp]
  · rw [hgo, if_neg (by rw [hreply]; decide), hstamp]
    extract_lets n' sq s1 s2
    obtain ⟨hesn, hlog⟩ := s1.seqr_capEvent (u.stamped r).code
    have h1 : s1.seqr.esn = nextEsn s.seqr.esn ∧ s1.seqr.logQ = s.seqr.logQ ++ [u.stamped r] := by
      rw [← hseqr]
      exact ⟨rfl, rfl⟩
    have h2 : s2.seqr.esn = nextEsn s.seqr.esn ∧ s2.seqr.logQ = s.seqr.logQ ++ [u.stamped r] := ⟨hesn.trans h1.1, hlog.trans h1.2⟩
    clear_value s2
    split
    · exact h2
    · exact h2

theorem eventRecord_of_none {i : Nat} (h : s.seqPresents i = false ∨ s.useArb .sequencer i ((List.range 28).filter s.seqPresents) = none) :
    eventRecord i s = s := by
  have hnone : (if s.seqPresents i then s.useArb .sequencer i ((List.range 28).filter s.seqPresents) else none) = none := by
    rcases h with h | h
    · rw [if_neg (by rw [h]; decide)]
    · rw [h, ite_self]
  unfold eventRecord
  extract_lets x
  rw [hnone]
  split
  · next h => exact absurd h (by simp)
  · rfl

/-- A reply with no other place for its ESN joins its function's queue (R327). -/
theorem State.replyQ_takeReply {r : Rec} {f : Nat} (hcspi : r.cspi = false) (hto : r.esnTo = none) (hf : f = r.fn.toNat % 64)
    (hreset : (s.fn f).reset = false) :
    (s.takeReply r).seqr = s.seqr ∧ ((s.takeReply r).fn f).replyQ = (s.fn f).replyQ ++ [r] := by
  subst hf
  have hput : s.putEsn r = s := by rw [State.putEsn, hto]
  unfold State.takeReply
  extract_lets f s1 s2
  have h2 : s2 = s.setFn f { s.fn f with inFlight := (s1.ring f r.cspi).eraseP (fun e => e.posted && e.cseq == r.cseq) } := by
    simp only [s2, s1, hput, hcspi]
    rfl
  clear_value s2
  rw [if_neg (by rw [hcspi]; decide), h2, State.fn_setFn, if_neg (by rw [show (s.fn f).reset = false from hreset]; decide), State.modFn_eq,
    State.fn_setFn, State.fn_setFn]
  exact ⟨rfl, rfl⟩

theorem seqPresents_iff {i : Nat} {r : Rec} {m : List Rec} (hr : (s.seqr.input i).dcq = r :: m) :
    s.seqPresents i = true ↔ (s.boot.powerOnOwed = true → i = inPower) ∧ s.replyRoom r = true ∧ s.causeWaits r = false := by
  unfold State.seqPresents
  rw [hr]
  simp only [Bool.and_eq_true, Bool.not_eq_true', Bool.and_eq_false_imp, bne_eq_false_iff_eq, and_assoc]

theorem SeqInput.all_pump (x : SeqInput) : x.pump.dcq ++ x.pump.buf = x.dcq ++ x.buf := by
  simp only [SeqInput.pump]
  rw [List.append_assoc, List.take_append_drop]

/-- A source that lost records says so behind those it kept (R78). -/
theorem overrun_of_room {i : Nat} {x : SeqInput} (hx : x = (s.seqr.input i).pump) (hlost : x.lost ≠ 0) (hroom : x.buf.length < 16) :
    ((overrun i s).seqr.input i).lost = 0 ∧ ((overrun i s).seqr.input i).dcq ++ ((overrun i s).seqr.input i).buf =
      x.dcq ++ x.buf ++ [overrunRec i (min x.lost 0xFFFFFFFE)] := by
  have hinput : (overrun i s).seqr.input i =
      ({ x with buf := x.buf ++ [overrunRec i (min x.lost 0xFFFFFFFE)], lost := 0 } : SeqInput).pump := by
    subst hx
    unfold overrun
    extract_lets y j
    rw [if_neg (by simp [y, hlost, hroom])]
    exact Tab.get_set_same ..
  rw [hinput, SeqInput.all_pump, List.append_assoc]
  exact ⟨rfl, rfl⟩

-- The log window.

theorem unitsOf_succ (n : Nat) (b : Bytes) : unitsOf (n + 1) b = unitsOf n b ++ [(b.drop (16 * n)).take 16] := by
  induction n generalizing b with
  | zero => rfl
  | succ n ih =>
    rw [unitsOf, ih, unitsOf, List.drop_drop, List.cons_append, Nat.mul_succ, Nat.add_comm]

theorem length_unitsOf (n : Nat) (b : Bytes) : (unitsOf n b).length = n := by
  induction n generalizing b with
  | zero => rfl
  | succ n ih => rw [unitsOf, List.length_cons, ih]

theorem State.winProd_logWindow (s : State) (us : List Bytes) : (s.logWindow us).seqr.winProd % 2 ^ 32 = (s.seqr.winProd + us.length) % 2 ^ 32 := by
  induction us generalizing s with
  | nil => rfl
  | cons u us ih =>
    refine (ih _).trans ?_
    rw [List.length_cons, Nat.mod_add_mod]
    congr 1
    omega

theorem State.logWindow_append (s : State) (us : List Bytes) (u : Bytes) :
    (s.logWindow (us ++ [u])).seqr.winProd = (s.seqr.winProd + us.length + 1) % 2 ^ 32 ∧
      Tab.get 0 (s.logWindow (us ++ [u])).seqr.window ((s.seqr.winProd + us.length) % 2 ^ 32 % 4096) = BitVec.ofNat 128 (leNat u) := by
  have hprod := s.winProd_logWindow us
  unfold State.logWindow at hprod ⊢
  rw [List.foldl_append, List.foldl_cons, List.foldl_nil]
  generalize List.foldl _ s us = s1 at hprod
  refine ⟨?_, ?_⟩
  · change (s1.seqr.winProd + 1) % 2 ^ 32 = _
    rw [← Nat.mod_add_mod, hprod, Nat.mod_add_mod]
  · rw [← hprod, Nat.mod_mod_of_dvd _ (by decide)]
    exact Tab.get_set_same ..

theorem State.seqr_longLog (s : State) (us : List Bytes) : (s.longLog us).seqr.logQ = s.seqr.logQ ∧ (s.longLog us).seqr.winProd = s.seqr.winProd := by
  unfold State.longLog
  split
  · exact ⟨rfl, rfl⟩
  · extract_lets s1
    have h1 : (s1.seqr.logQ, s1.seqr.winProd) = (s.seqr.logQ, s.seqr.winProd) := by
      refine foldl_same (g := fun s => (s.seqr.logQ, s.seqr.winProd)) (fun s u => ?_) us s
      rfl
    exact Prod.mk.inj h1

/-- The distributor copies the oldest numbered record to the log window (R345, R349). -/
theorem logDistribute_window {r : Rec} {m : List Rec} (hq : s.seqr.logQ = r :: m) :
    (logDistribute s).seqr.winProd = (s.seqr.winProd + r.units) % 2 ^ 32 ∧
      Tab.get 0 (logDistribute s).seqr.window ((s.seqr.winProd + r.units + 2 ^ 32 - 1) % 2 ^ 32 % 4096) =
        BitVec.ofNat 128 (leNat (((recBytes r).drop (16 * (r.units - 1))).take 16)) := by
  obtain ⟨n, hn⟩ : ∃ n, r.units = n + 1 := ⟨1 + (r.ext.length + 15) / 16, by rw [Rec.units]; omega⟩
  unfold logDistribute
  split
  · next h => exact absurd (h.symm.trans hq) (by simp)
  · next r' m' h =>
    obtain ⟨rfl, rfl⟩ := List.cons.inj (h.symm.trans hq)
    extract_lets sq s1 us s2
    have hus : us = unitsOf n (recBytes r') ++ [((recBytes r').drop (16 * n)).take 16] := by
      rw [show us = unitsOf r'.units (recBytes r') from rfl, hn, unitsOf_succ]
    have h2 := (s1.longLog us).logWindow_append (unitsOf n (recBytes r')) (((recBytes r').drop (16 * n)).take 16)
    rw [← hus, (s1.seqr_longLog us).2, length_unitsOf] at h2
    obtain ⟨hprod, hwindow⟩ := h2
    generalize hs3 : List.foldl _ s2 (Tab.keys s2.fns fun x => x.logRing.isSome) = s3
    have h3 : s3.seqr = s2.seqr := by
      rw [← hs3]
      refine foldl_same (g := State.seqr) (fun s f => ?_) _ s2
      split
      · split
        · exact (State.ringLog_keeps (Nat.and_self _) s f _ r' (Keeps.refl _ s)).seqr_eq
        · rfl
      · rfl
    rw [h3, hn, Nat.add_sub_cancel]
    refine ⟨hprod.trans (by rw [Nat.add_assoc]), ?_⟩
    rw [show s.seqr.winProd + (n + 1) + 2 ^ 32 - 1 = s.seqr.winProd + n + 2 ^ 32 by omega, Nat.add_mod_right]
    exact hwindow

-- Frame records (R346).

/-- The Field of the Tail engine that writes a stream's frame records. -/
def State.recField (s : State) (st : Nat) : Nat := if (s.sdecl st).tail < 8 then 1 else 3

/-- The record of a frame (Table 13-10). -/
def State.frameRec (s : State) (st : Nat) (f : FrameInfo) : Rec :=
  { evRec .frame (inField (s.recField st)) (s.streamFn st) (packBits [(8, st), (8, f.cause), (16, f.fseq.toNat)]) (leNat (f.body.take 8))
    (f.body.drop 8) with typ := 1 }

/-- The account of a stream whose oldest settled frame has its record. -/
def Strm.recorded (x : Strm) (f : FrameInfo) : Strm :=
  { x with frameCount := x.frameCount + 1
           frames := ((x.frames.filter (fun g => g.written)).reverse.take 3).reverse ++ [{ f with written := true }]
             ++ (x.frames.filter (fun g => !g.written)).drop 1 }

theorem frameRecord_of_settled {st : Nat} {f : FrameInfo} (hf : (s.strm st).frames.find? (fun f => !f.written) = some f) (hout : f.out = true)
    (hdone : f.has .dropped = true ∨ s.settled st f.fseq = true) :
    frameRecord st s = (s.setStrm st ((s.strm st).recorded f)).post (inField (s.recField st)) (s.frameRec st f) := by
  unfold frameRecord
  extract_lets x
  split
  · next h => exact absurd (h.symm.trans hf) (by simp)
  · next g h =>
    obtain rfl := Option.some.inj (h.symm.trans hf)
    rw [if_neg (by rcases hdone with h | h <;> simp [hout, h])]
    rfl

-- Captures and dumps.

theorem State.cap_capWrite (s : State) (u : Nat) (b : Bytes) : (s.capWrite u b).cap = s.cap := by
  unfold State.capWrite
  split <;> rfl

theorem captureRecord_of_room {r : CapRec} {u n pad : Nat} (hready : s.ready = true) (htakes : s.cap.takes r = true) (hstop : s.cap.stop = false)
    (hu : u = s.cap.prod.toNat) (hn : n = 1 + (r.payload.length + 31) / 32)
    (hpad : pad = if 25165824 - u % 25165824 < n then 25165824 - u % 25165824 else 0) :
    (captureRecord r true s).cap = { s.cap with prod := s.cap.prod + BitVec.ofNat 64 (pad + n) } := by
  subst hu hn
  unfold captureRecord
  extract_lets c n' due n u left pad' s1 b s2
  rw [if_neg (by simp [hready, htakes]), if_neg (by decide), if_neg (by simp [hstop])]
  have hp : pad' = pad := by rw [hpad]; rfl
  have h2 : s2.cap = s.cap := by
    have h1 : s1.cap = s.cap := by
      simp only [s1]
      split
      · rfl
      · exact State.cap_capWrite ..
    exact (State.cap_capWrite ..).trans h1
  clear_value s2 pad'
  subst hp
  have hprod : BitVec.ofNat 64 (u + pad' + n) = s.cap.prod + BitVec.ofNat 64 (pad' + n) := by
    rw [Nat.add_assoc, BitVec.ofNat_add, show BitVec.ofNat 64 u = s.cap.prod from BitVec.eq_of_toNat_eq (by simp [u])]
  change ({ s2.cap with prod := BitVec.ofNat 64 (u + pad' + n) } : Capture) = _
  rw [h2, hprod]

theorem captureRecord_dropped {r : CapRec} (hready : s.ready = true) (htakes : s.cap.takes r = true) :
    (captureRecord r false s).cap.prod = s.cap.prod ∧ (captureRecord r false s).cap.drop = s.cap.drop + 1 := by
  unfold captureRecord
  extract_lets c n due
  rw [if_neg (by simp [hready, htakes]), if_pos (by decide)]
  split
  · exact ⟨rfl, rfl⟩
  · exact ⟨rfl, rfl⟩

/-- A dump that succeeds to the CSPI result buffer (R461). -/
theorem dumpDone_ok (hgo : s.cap.dumpGo = true) (hvalid : s.dumpValid = true) (hdst : s.cap.dumpDst = 0) :
    (dumpDone true s).cap = { s.cap with dumpGo := s.cap.dumpAgain, dumpAgain := false } ∧
      (dumpDone true s).cspi.result = Memory.readBytes s.hbm s.cap.dumpSrc.toNat s.cap.dumpLen := by
  have hvalid' : ({ s with cap := { s.cap with dumpGo := s.cap.dumpAgain, dumpAgain := false } } : State).dumpValid = true := hvalid
  have hzero : (s.cap.dumpDst == 0) = true := by rw [hdst]; rfl
  unfold dumpDone
  extract_lets c s1 b cs s2
  rw [if_neg (by simp [c, hgo]), if_pos (by rw [show s1.dumpValid = true from hvalid', show (c.dumpDst == 0) = true from hzero]; rfl)]
  have h2 : s2 = { s1 with cspi := { s1.cspi with result := b } } := if_pos hzero
  rw [h2]
  exact ⟨rfl, rfl⟩

theorem dumpDone_failed (hgo : s.cap.dumpGo = true) :
    (dumpDone false s).cap = { s.cap with dumpGo := s.cap.dumpAgain, dumpAgain := false, dumpErr := true } ∧ (dumpDone false s).cspi = s.cspi := by
  unfold dumpDone
  extract_lets c s1
  rw [if_neg (by simp [c, hgo]), if_neg (by simp)]
  exact ⟨rfl, rfl⟩

/-- Settles O39: records are numbered, distributed and written, and captures and dumps go on. -/
theorem eventsAndCaptures : Obligations.EventsAndCaptures := by
  unfold Obligations.EventsAndCaptures
  refine ⟨⟨?_, ?_, ?_, ?_, ?_, ?_, ?_⟩, ?_, ?_, ?_, ?_, ?_, ?_, ?_, ?_⟩
  · intro i r m s u hr hpres hevent harb
    exact ⟨eventRecord i s, rfl, (eventRecord_of_granted hr hpres harb).2 hevent⟩
  · intro i s h
    exact congrArg Host.Outcome.next (eventRecord_of_none h)
  · intro i r m s hr
    exact seqPresents_iff hr
  · intro i r m f s u hr hpres hreply harb hcspi hto hf hreset hroom
    obtain ⟨n, x, hu⟩ := State.useArb_leaves harb
    have hfn : (u.numbered i m).fn f = s.fn f := by rw [hu]; rfl
    obtain ⟨hseqr, hq⟩ := State.replyQ_takeReply (s := u.numbered i m) (r := s.stamped r) hcspi hto hf (by rw [hfn]; exact hreset)
    refine ⟨_, congrArg Host.Outcome.next ((eventRecord_of_granted hr hpres harb).1 hreply), ?_, ?_⟩
    · rw [hseqr, hu]
      rfl
    · rw [hq, hfn]
      rfl
  · intro i x s hx hlost hroom
    exact ⟨overrun i s, rfl, overrun_of_room hx hlost hroom⟩
  · intro r m s hq
    exact ⟨logDistribute s, rfl, logQ_logDistribute hq, logDistribute_window hq⟩
  · intro st f s hf hout hdone
    refine ⟨_, { s.frameRec st f with seq := s.seqr.posts + 1, row := s.seqr.row }, congrArg Host.Outcome.next (frameRecord_of_settled hf hout hdone),
      ?_, rfl, rfl, rfl, Tab.get_set_same ..⟩
    exact (congrArg Strm.frameCount (State.strm_setStrm s st _) :)
  · intro r u n pad s hready htakes hstop hu hn hpad
    refine ⟨captureRecord r true s, rfl, ?_⟩
    rw [captureRecord_of_room hready htakes hstop hu hn hpad]
    exact ⟨rfl, rfl⟩
  · intro r s hready htakes
    exact ⟨captureRecord r false s, rfl, captureRecord_dropped hready htakes⟩
  · intro s hready hoff htrig
    refine ⟨_, congrArg Host.Outcome.next ((if_neg (by simp [hready, hoff])).trans ((if_pos rfl).trans (if_neg (by simpa using htrig)))), rfl, rfl, rfl⟩
  · intro s hready hon
    exact ⟨_, congrArg Host.Outcome.next ((if_neg (by simp [hready, hon])).trans (if_neg (by decide))), rfl, rfl⟩
  · intro s
    exact ⟨_, rfl, rfl, rfl⟩
  · intro s hready
    by_cases hgo : s.cap.dumpGo = true
    · exact ⟨_, congrArg Host.Outcome.next ((if_neg (by simp [hready])).trans (if_pos hgo)), hgo, fun _ => rfl⟩
    · exact ⟨_, congrArg Host.Outcome.next ((if_neg (by simp [hready])).trans (if_neg hgo)), rfl, fun h => absurd h hgo⟩
  · intro s hgo hvalid hdst
    obtain ⟨hcap, hresult⟩ := dumpDone_ok hgo hvalid hdst
    refine ⟨dumpDone true s, rfl, ?_, hresult, ?_⟩ <;> rw [hcap]
  · intro s hgo
    obtain ⟨hcap, hcspi⟩ := dumpDone_failed hgo
    refine ⟨dumpDone false s, rfl, ?_, ?_, hcspi⟩ <;> rw [hcap]

end Sys2Proof.Machine

/-! The ends of contexts: COCOON, aborts, releases, time-outs (R300-R307), and snapshots. -/

namespace Sys2Proof.Machine
set_option Elab.async false
variable {s : State}

/-- An entry that a list of changes names holds what every change gives. -/
theorem Tab.get_upd_of_mem {α : Type} {d : α} {f : α → α} {P : α → Prop} (hf : ∀ x, P (f x)) (t : List (Nat × α)) {l : List Nat} {i : Nat}
    (hi : i ∈ l) : P (Tab.get d (Tab.upd d f t l) i) := by
  unfold Tab.upd
  induction l using List.reverseRecOn with
  | nil => simp at hi
  | append_singleton l k ih =>
    rw [List.foldl_append, List.foldl_cons, List.foldl_nil, Tab.get_set]
    split
    · exact hf _
    · next hne => exact ih (by simpa [Ne.symm hne] using hi)

theorem State.startReplace_of_none {o : Nat} {c : Ctx} (hc : s.ctx o = some c) (hr : c.replace = none) : s.startReplace o = s := by
  unfold State.startReplace
  rw [hc]
  dsimp only
  rw [hr]

theorem contextCocoon_of_stopping {o : Nat} {c : Ctx} (hc : s.ctx o = some c) (hst : c.state = .stopping) (he : s.regionEmpty o = true)
    (hg : (s.group o).asserted = false) (hr : c.replace = none) :
    (contextCocoon o s).ctx o = some { c with
      state := .cocoon, models := Tab.mapVals (fun m : ModelSt => { m with running := none, pending := [] }) c.models } := by
  unfold contextCocoon
  rw [hc]
  refine (congrArg (State.ctx · o) (if_neg (by simp [hst, he, hg]))).trans ?_
  extract_lets s1 s2
  have h2 : s2.ctx o = some { c with
      state := .cocoon, models := Tab.mapVals (fun m : ModelSt => { m with running := none, pending := [] }) c.models } :=
    (State.ctx_log ..).trans (State.ctx_setCtx ..)
  clear_value s2
  rw [State.startReplace_of_none h2 hr, h2]

theorem contextAborted_of_aborting {o : Nat} {c : Ctx} (hc : s.ctx o = some c) (hst : c.state = .aborting) (hr : c.replace = none) :
    (contextAborted o s).ctx o = some { c with state := if c.releaseAfter then .releasing else .cocoon, cause := 0, abortPkts := [] } ∧
      ((contextAborted o s).group o).masked = false := by
  generalize ht : contextAborted o s = t
  unfold contextAborted at ht
  rw [hc] at ht
  replace ht := (if_neg (by simp [hst])).symm.trans ht
  extract_lets s1 s2 s3 at ht
  have h1 : s2.ctx o = some { c with state := if c.releaseAfter then .releasing else .cocoon, cause := 0, abortPkts := [] } ∧
      (s2.group o).masked = false :=
    ⟨(State.ctx_log ..).trans (State.ctx_setCtx ..),
      congrArg Group.masked ((State.group_log ..).trans ((State.group_of_setCtx ..).trans (State.group_setGroup ..)))⟩
  have h3 : s3.ctx o = s2.ctx o ∧ s3.group o = s2.group o :=
    ⟨foldl_same (g := fun s => s.ctx o) (fun s k => State.ctx_finish ..) _ _,
      foldl_same (g := fun s => s.group o) (fun s k => State.group_finish ..) _ _⟩
  rw [← h3.1, ← h3.2] at h1
  clear_value s3
  rw [State.startReplace_of_none h1.1 hr, ite_self] at ht
  exact ht ▸ h1

/-- What the release of a context (R302) leaves of context `o` and of its region `l`: no record, empty units, no stream, no stall. -/
structure State.Released (s t : State) (o : Nat) (l : List Nat) : Prop where
  ctx : t.ctx o = none
  units : ∀ i ∈ l, (t.unit i).inCtx = false ∧ (t.unit i).mem = [] ∧ (t.unit i).queues = []
  streams : ∀ st, (s.strm st).ctx = some o → (t.strm st).ctx = none
  group : (t.group o).asserted = false

theorem State.Released.finish {t : State} {o : Nat} {l : List Nat} (h : s.Released t o l) (k : Pkt) (st : Status) :
    s.Released (t.finish k false st) o l where
  ctx := (State.ctx_finish ..).trans h.ctx
  units := fun i hi => by rw [State.unit_finish]; exact h.units i hi
  streams := fun st hst => by rw [State.strm_finish]; exact h.streams st hst
  group := by rw [State.group_finish]; exact h.group

theorem State.strm_unbindStreams {o i : Nat} (h : (s.strm i).ctx = some o) : ((s.unbindStreams o).strm i).ctx = none := by
  refine (congrArg Strm.ctx (Tab.get_mapVals {} (fun x : Strm => if x.ctx == some o then { x with ctx := none, frozen := false } else x) rfl s.streams i)).trans ?_
  exact congrArg Strm.ctx (if_pos (beq_iff_eq.2 h))

theorem State.units_unbindPort (s : State) (p i : Nat) : (s.unbindPort p).unit i = s.unit i :=
  (State.unbindPort_keeps (Nat.and_self _) s p (Keeps.refl _ s)).unit_eq i

theorem contextReleased_of_releasing {o : Nat} {c : Ctx} (hc : s.ctx o = some c) (hst : c.state = .releasing) :
    s.Released (contextReleased o s) o c.region := by
  generalize ht : contextReleased o s = t
  unfold contextReleased at ht
  rw [hc] at ht
  replace ht := (if_neg (by simp [hst])).symm.trans ht
  extract_lets s1 s2 s3 s4 s5 s6 s7 s8 s9 at ht
  have hbinds : SameBinds s s4 :=
    (SameBinds.refl s : SameBinds s s3).trans (SameBinds.foldl
      (f := fun s p => (s.unbindPort p).modYport p fun y => { y with owner := none }) (fun s p => SameBinds.unbindPort s p) _ _)
  have hunit : ∀ i, s4.unit i = s1.unit i := fun i =>
    foldl_same (g := fun s => s.unit i) (fun s p => (State.unit_of_setYport ..).trans (State.units_unbindPort ..)) _ _
  have h9 : s.Released s9 o c.region :=
    { ctx := State.ctx_setCtx ..
      units := fun i hi => by
        have h1 : s9.unit i = s4.unit i := (State.unit_of_setCtx ..).trans ((State.unit_log ..).trans (State.unit_of_setGroup ..))
        rw [h1, hunit]
        exact Tab.get_upd_of_mem (P := fun u : Unit => u.inCtx = false ∧ u.mem = [] ∧ u.queues = []) (fun _ => ⟨rfl, rfl, rfl⟩) _ hi
      streams := fun st hst => by
        have h1 : s9.strm st = s5.strm st := (State.strm_of_setCtx ..).trans ((State.strm_log ..).trans (State.strm_of_setGroup ..))
        rw [h1]
        exact State.strm_unbindStreams ((hbinds st).trans hst)
      group := congrArg Group.asserted ((State.group_of_setCtx ..).trans ((State.group_log ..).trans (State.group_setGroup ..))) }
  clear_value s9
  rw [← ht]
  split
  · exact h9.finish _ _
  · exact h9

theorem ecloseTimeout_of_stopping {o : Nat} {c : Ctx} {r : ReplaceReq} (hc : s.ctx o = some c) (hr : c.replace = some r)
    (hst : c.state = .stopping) : ecloseTimeout o s = (s.setCtx o (some { c with replace := none })).finish r.pkt false .stalled := by
  unfold ecloseTimeout
  rw [hc]
  dsimp only
  rw [hr]
  exact if_neg (by simp [hst])

theorem snapshotComplete_of_held {o : Nat} {c : Ctx} {n : Snapshot} (hc : s.ctx o = some c) (hn : c.snap = some n)
    (hheld : ∀ e ∈ c.maskSites n.vmask, (s.unit e.2).bankHeld = true ∧ (s.unit e.2).lastClosed.isSome = true) :
    (snapshotComplete o s).ctx o = some { c with snap := none } ∧
      ∀ e ∈ c.maskSites n.vmask, ((snapshotComplete o s).unit e.2).bankHeld = false := by
  generalize ht : snapshotComplete o s = t
  unfold snapshotComplete at ht
  rw [hc] at ht
  dsimp -zeta only at ht
  rw [hn] at ht
  dsimp -zeta only at ht
  extract_lets sites banks fseq blocks whole r r2 s1 s2 sent at ht
  have hall : (sites.all fun e => (s.unit e.2).bankHeld && (s.unit e.2).lastClosed.isSome) = true :=
    List.all_eq_true.2 fun e he => Bool.and_eq_true_iff.2 (hheld e he)
  replace ht := (if_neg (by rw [hall]; decide)).symm.trans ht
  have hr : r.2.ctx o = s.ctx o := (State.deliver_keeps (Nat.and_self _) s n.pkt n.dest _ (Keeps.refl _ s)).ctx_eq o
  clear_value r fseq
  refine ht ▸ ⟨(State.ctx_finish ..).trans ((State.ctx_modRunning ..).trans ?_), fun e he => ?_⟩
  · rw [show s1.ctx o = s.ctx o from hr, hc]
    rfl
  · rw [State.unit_finish]
    exact Tab.get_upd_of_mem (f := fun u : Unit => { u with bankHeld := false }) (P := fun u => u.bankHeld = false) (fun _ => rfl) _ (List.mem_map_of_mem he)

/-- Settles O34. -/
theorem contextsAndSnapshotsEnd : Obligations.ContextsAndSnapshotsEnd := by
  unfold Obligations.ContextsAndSnapshotsEnd
  refine ⟨⟨fun o c s hc hst he hg hr => ?_, fun o c s hc hst hr => ?_, fun o c s hc hst => ?_, fun o c r s hc hr hst => ?_⟩,
    fun o c n s hc hn hheld => ?_⟩
  · exact ⟨_, rfl, contextCocoon_of_stopping hc hst he hg hr⟩
  · obtain ⟨hctx, hgroup⟩ := contextAborted_of_aborting hc hst hr
    exact ⟨_, _, rfl, hctx, rfl, rfl, hgroup⟩
  · obtain ⟨hctx, hunits, hstreams, hgroup⟩ := contextReleased_of_releasing hc hst
    exact ⟨_, rfl, hctx, hunits, hstreams, hgroup⟩
  · have ht := ecloseTimeout_of_stopping hc hr hst
    exact ⟨_, rfl, ht, by rw [ht, State.ctx_finish, State.ctx_setCtx]⟩
  · exact ⟨_, rfl, snapshotComplete_of_held hc hn hheld⟩

end Sys2Proof.Machine

/-! HBM: bursts, power-down, refresh and HBM_WRITE (R374, R375). -/

namespace Sys2Proof.Machine
set_option Elab.async false
variable {s u : State}

/-- A lone input of a free arbiter takes it. -/
theorem Arbiter.take_of_lone {limit inputs i : Nat} {a : Arbiter} (hfree : a.holder = none) (hreqs : a.reqs = []) (hi : i < inputs) :
    ∃ b, a.take limit inputs [] i = some b := by
  unfold Arbiter.take
  extract_lets b
  have hb : b.winner = some i := by
    simp [b, Arbiter.gather, Arbiter.ready, Arbiter.winner, Requester.contends, hfree, hreqs, hi, Tab.mapVals, Tab.set, Tab.get]
    rfl
  rw [hfree, if_neg (by simp), if_neg (by simp), hb, if_pos (by simp)]
  exact ⟨_, rfl⟩

theorem State.useArb_of_lone {a : ArbId} {i : Nat} (hfree : (s.arb (arbCode a)).holder = none) (hreqs : (s.arb (arbCode a)).reqs = [])
    (hi : i < arbInputs a) : ∃ u, s.useArb a i = some u := by
  obtain ⟨b, hb⟩ := Arbiter.take_of_lone (limit := s.waitLimit a) hfree hreqs hi
  exact ⟨_, by rw [State.useArb, hb]; rfl⟩

/-- A burst whose input the arbiter does not grant changes nothing. -/
theorem hbmBurst_of_held {k : Fin 4} {a : HbmAcc} (harb : s.useArb (.hbm k) a.input = none) : hbmBurst k a s = s := by
  unfold hbmBurst
  extract_lets addr
  split
  · rfl
  · rw [harb]

/-- The access of a burst to stack `k`, once its input is granted and the stack is out of power-down. -/
def State.burst (s : State) (k : Fin 4) (a : HbmAcc) : State :=
  let addr := stackBase k + 64 * a.burst
  match a.data with
  | some d => if s.stackOk k && hbmInputWrites a.input addr then s.hbmWrite addr ((d ++ List.replicate 64 0).take 64) else s
  | none =>
    if !s.stackOk k || a.ecc == .bad then s.log .hbmUe inHbm noFn k addr
    else if a.ecc == .corrected then s.hbmCe k else s

theorem State.stackOk_modStackOf {n : Nat} {x : Arbiter} {k : Nat} :
    ((s.setArb n x).modStackOf k fun y => { y with down := false }).stackOk k = s.stackOk k := by
  rw [State.modStackOf_eq, State.stackOk, State.stackOf_setStackOf]
  rfl

theorem hbmBurst_of_granted {k : Fin 4} {a : HbmAcc} (hready : s.ready = true) (hok : s.stackOk k = true) (harb : s.useArb (.hbm k) a.input = some u) :
    hbmBurst k a s = (u.modStackOf k fun x => { x with down := false }).burst k a := by
  have htrained : (s.stackOf k).trained = true := (Bool.and_eq_true_iff.1 hok).1
  unfold hbmBurst
  rw [if_neg (by simp [hready, htrained]), harb]
  rfl

/-- A stack that is out of power-down after its grant, with HBM and the sequencer as they were. -/
theorem State.stack_granted {k : Fin 4} {i : Nat} (harb : s.useArb (.hbm k) i = some u) (hok : s.stackOk k = true) :
    ((u.modStackOf k fun x => { x with down := false }).stackOf k).down = false ∧
      (u.modStackOf k fun x => { x with down := false }).hbm = s.hbm ∧ (u.modStackOf k fun x => { x with down := false }).seqr = s.seqr ∧
      (u.modStackOf k fun x => { x with down := false }).stackOk k = true := by
  obtain ⟨n, x, rfl⟩ := State.useArb_leaves harb
  exact ⟨by rw [State.modStackOf_eq, State.stackOf_setStackOf], rfl, rfl, State.stackOk_modStackOf.trans hok⟩

/-- A write stores its 64 bytes where its input may write. -/
theorem State.burst_write {k i : Fin 4} {a : HbmAcc} {d : Bytes} (hd : a.data = some d) (hok : s.stackOk k = true) :
    ((s.burst k a).stackOf i) = s.stackOf i ∧ (s.burst k a).hbm = if hbmInputWrites a.input (stackBase k + 64 * a.burst) then
      Memory.writeBytes s.hbm (stackBase k + 64 * a.burst) ((d ++ List.replicate 64 0).take 64) else s.hbm := by
  unfold State.burst
  extract_lets addr
  rw [hd]
  dsimp only
  rw [hok, Bool.true_and]
  split
  · exact ⟨rfl, rfl⟩
  · exact ⟨rfl, rfl⟩

theorem State.burst_clean {k : Fin 4} {a : HbmAcc} (hd : a.data = none) (hecc : a.ecc = .clean) (hok : s.stackOk k = true) : s.burst k a = s := by
  simp [State.burst, hd, hecc, hok]

theorem State.burst_bad {k : Fin 4} {a : HbmAcc} (hd : a.data = none) (hecc : a.ecc = .bad) :
    s.burst k a = s.log .hbmUe inHbm noFn k (stackBase k + 64 * a.burst) := by
  simp [State.burst, hd, hecc]

/-- The last 1 GiB region of a stack below its top 256 MiB are the log's and the debugger's (R375): no command reaches them. -/
theorem State.hbmBad_of_kept {a n : Nat} (h : 0x3C0000000 ≤ a) (h' : a < 0x400000000) (hn : 0 < n) : s.hbmBad a n = true := by
  simp only [State.hbmBad, Bool.or_eq_true, Bool.and_eq_true, decide_eq_true_eq]
  exact Or.inr ⟨by omega, h'⟩

theorem hbmWrite_of_allowed {k : Pkt} {n : Nat} {a : B64} {data : Bytes} (hk : Allowed s k 0x1010) (h1 : 1 ≤ n) (h2 : n ≤ 224)
    (hlen : n ≤ data.length) (hgood : s.hbmBad a.toNat n = false) (hok : s.stackOk (a.toNat / 17179869184) = true) :
    hbmWrite k n a data s = ((s.hbmWrite a.toNat (data.take n)).modStackOf (a.toNat / 17179869184)
      (fun x => { x with down := false })).finish k false .ok :=
  State.command_passed _ hk (by simp [firstFail, hgood, hok]; omega)

/-- Settles O17. -/
theorem hbmAccesses : Obligations.HbmAccesses := by
  unfold Obligations.HbmAccesses
  refine ⟨⟨fun k i n d ecc s u hready hok harb => ?_, fun k i s hfree hreqs => State.useArb_of_lone hfree hreqs i.isLt,
    fun k a s harb => congrArg Host.Outcome.next (hbmBurst_of_held harb), fun k i n s u hready hok harb => ⟨?_, ?_⟩, fun k s => ?_, fun k s => ?_⟩,
    fun k n a data s hk h1 h2 hlen hgood hok hwf => ?_, fun k n a data s hk hbad => ?_, fun a n s h h' hn => State.hbmBad_of_kept h h' hn⟩
  · obtain ⟨hdown, hhbm, -, hok'⟩ := State.stack_granted harb hok
    obtain ⟨hstack, hwrite⟩ := State.burst_write (i := k) (a := { input := i, burst := n, data := some d, ecc := ecc }) rfl hok'
    exact ⟨_, congrArg Host.Outcome.next (hbmBurst_of_granted hready hok harb), by rw [hstack, hdown], by rw [hwrite, hhbm]⟩
  · obtain ⟨-, hhbm, hseqr, hok'⟩ := State.stack_granted harb hok
    refine ⟨_, congrArg Host.Outcome.next ((hbmBurst_of_granted hready hok harb).trans (State.burst_clean rfl rfl hok')), hhbm, hseqr⟩
  · obtain ⟨-, hhbm, -, -⟩ := State.stack_granted harb hok
    exact ⟨_, congrArg Host.Outcome.next ((hbmBurst_of_granted hready hok harb).trans (State.burst_bad rfl rfl)), hhbm, rfl⟩
  · refine congrArg Host.Outcome.next (if_congr ?_ (State.modStackOf_eq ..) rfl)
    simp [and_assoc]
  · refine congrArg Host.Outcome.next (if_congr ?_ (State.modStackOf_eq ..) rfl)
    simp [and_assoc]
  · have hlen' : (data.take n.toNat).length = n.toNat := by simpa using hlen
    refine ⟨_, congrArg Host.Outcome.next (hbmWrite_of_allowed hk h1 h2 hlen hgood hok), ?_, fun b hb => ?_, ?_, ?_⟩
    · have hread := Memory.readBytes_writeBytes (a := a.toNat) (data.take n.toNat) hwf
      rw [hlen'] at hread
      rw [State.hbm_finish]
      exact hread
    · rw [State.hbm_finish]
      exact Memory.read_writeBytes_of_out _ hwf (by rwa [hlen'])
    · rw [State.hostMem_finish]
      rfl
    · rw [State.stackOf_finish, State.modStackOf_eq, State.stackOf_setStackOf]
  · exact congrArg Host.Outcome.next (State.command_failed _ hk (by simp [firstFail, hbad]))

end Sys2Proof.Machine

/-! The time base and its steps (R70-R75), PTP (R402-R404), and the loss and return of clocks (R84, R85). -/

namespace Sys2Proof.Machine
set_option Elab.async false
variable {s : State}

-- The time base.

/-- A change of every entry, seen at one index whose default changes alike. -/
theorem Tab.get_mapVals_default {α : Type} (d : α) (f : α → α) (t : List (Nat × α)) (i : Nat) :
    Tab.get (f d) (Tab.mapVals f t) i = f (Tab.get d t i) := by
  induction t with
  | nil => rfl
  | cons e t ih =>
    obtain ⟨j, v⟩ := e
    by_cases h : j = i
    · simp [Tab.mapVals, Tab.get, h]
    · simpa [Tab.mapVals, Tab.get, h] using ih

/-- The time base after a step by `v` (R72). -/
def Dtb.stepped (d : Dtb) (v : B64) : Dtb :=
  { d with now := d.now + v, shadows := Tab.mapVals (fun x : B64 => x + v) d.shadows, slew := 0
           slewing := false, uncertain := false, pendingStep := none }

theorem dtbStep_of_due {r : DtbStepReq} (hr : s.dtb.pendingStep = some r) (hdue : r.tApply.toNat ≤ s.dtb.now.toNat) (hpor : s.boot.phase ≠ .por) :
    (dtbStep s).dtb = s.dtb.stepped (BitVec.ofInt 64 r.delta) := by
  generalize ht : dtbStep s = t
  unfold dtbStep at ht
  rw [hr] at ht
  replace ht := (if_neg (by simpa [hpor] using hdue)).symm.trans ht
  extract_lets dv d s1 s2 s3 s4 at ht
  have h4 : s4.dtb = s.dtb.stepped (BitVec.ofInt 64 r.delta) := rfl
  clear_value s4
  rw [← ht]
  split
  · exact (State.dtb_finish ..).trans h4
  · exact h4

theorem dtbStep_of_early {r : DtbStepReq} (hr : s.dtb.pendingStep = some r) (hearly : s.dtb.now.toNat < r.tApply.toNat) : dtbStep s = s := by
  unfold dtbStep
  rw [hr]
  exact if_pos (by simp [hearly])

theorem toNat_stepTime {now : B64} (h : now.toNat < 2 ^ 64 - 5000) : (stepTime now).toNat = (now.toNat + 4999) / 1000 * 1000 := by
  rw [stepTime, BitVec.toNat_ofNat, Nat.mod_eq_of_lt]
  omega

-- PTP.

theorem ptpSync_of_master {p : Nat} {t1 t2 : B64} (hlive : s.ethLive p = true) (hup : (s.eth p).up = true) (hm : (s.eth p).master.isSome = true) :
    ptpSync p t1 t2 s = if s.dtb.mode != .ptp || s.dtb.ptpPort != p then s.setEth p { s.eth p with t1 := t1, t2 := t2, synced := true }
      else (s.setEth p { s.eth p with t1 := t1, t2 := t2, synced := true }).servo ((s.eth p).delay - (t2 - t1).toInt) :=
  if_neg (by simp_all [Option.isSome_iff_ne_none])

/-- The servo slews away an offset within the threshold (R71). -/
theorem State.dtb_servo {x : Int} (h : x.natAbs ≤ s.dtb.threshold) :
    (s.servo x).dtb.slew = x * 4294967296 ∧ (s.servo x).dtb.holdover = false ∧ (s.servo x).dtb.now = s.dtb.now ∧
      (s.servo x).dtb.pendingStep = s.dtb.pendingStep := by
  unfold State.servo
  extract_lets s1 d s2
  rw [if_pos (Bool.or_eq_true_iff.2 (Or.inl (decide_eq_true h)))]
  exact ⟨rfl, rfl, rfl, rfl⟩

/-- A master that is better than the present one, or the present one anew, is taken (R402). -/
theorem ptpAnnounce_takes {p : Nat} {domain : B8} {m : PtpMaster} (hlive : s.ethLive p = true) (hup : (s.eth p).up = true)
    (hdom : domain.toNat = (s.eth p).field 16 1) :
    ((s.eth p).master = none → ((ptpAnnounce p domain m s).eth p).master = some m) ∧
    (∀ b, (s.eth p).master = some b →
      ((ptpAnnounce p domain m s).eth p).master = if m.clockId = b.clockId ∨ betterMaster m b = true then some m else some b) := by
  unfold ptpAnnounce
  extract_lets e
  rw [if_neg (by simp [e, hlive, hup, hdom])]
  refine ⟨fun hm => ?_, fun b hm => ?_⟩
  · rw [show e.master = none from hm]
    exact congrArg Eth.master ((State.eth_log ..).trans (State.eth_setEth ..))
  · rw [show e.master = some b from hm]
    dsimp only
    by_cases hid : m.clockId = b.clockId
    · rw [if_pos (beq_iff_eq.2 hid), if_pos (Or.inl hid), State.eth_setEth]
    · rw [if_neg (by simpa using hid)]
      by_cases hb : betterMaster m b = true
      · rw [if_pos hb, if_pos (Or.inr hb), State.eth_log, State.eth_setEth]
      · rw [if_neg hb, if_neg (by simp [hid, hb])]
        exact hm

theorem ptpHoldover_of_alone {p : Nat} (hmode : s.dtb.mode = .ptp) (hport : s.dtb.ptpPort = p) (hother : (s.eth (1 - p)).master = none)
    (hp : 1 - p ≠ p) :
    ((ptpHoldover p s).eth p).synced = false ∧ ((ptpHoldover p s).eth p).master = none ∧ (ptpHoldover p s).dtb.holdover = true := by
  unfold ptpHoldover
  extract_lets s1
  have hp1 : s1.eth p = { s.eth p with synced := false, master := none } := State.eth_setEth ..
  have ho1 : s1.eth (1 - p) = s.eth (1 - p) := State.eth_setEth_ne _ _ _ _ hp.symm
  have hd1 : s1.dtb = s.dtb := rfl
  clear_value s1
  by_cases hh : s1.dtb.holdover = true
  · rw [if_neg (by simp [hh]), hp1]
    exact ⟨rfl, rfl, hh⟩
  · rw [if_pos (by simp [hd1 ▸ hmode, hd1 ▸ hport, ho1, hother, hh])]
    exact ⟨congrArg Eth.synced hp1, congrArg Eth.master hp1, rfl⟩

-- Clocks.

/-- A clock whose loss, or whose excess, the count of a window shows is declared once (R84): it is lost, CLK_EVENT is set, and what its loss
does follows. -/
theorem State.declareClock_of_off {e : Ev} {c n : Nat} (hpor : s.boot.phase ≠ .por) (hnot : s.lostClocks.contains c = false)
    (hhas : s.part.variant.hasClock c = true) (hoff : s.clockOff e c n = true) :
    s.declareClock e c n = ({ s.log e inClk noFn c n with greg := { (s.log e inClk noFn c n).greg with clkEvent := true }
                                                          lostClocks := s.lostClocks ++ [c] } : State).loseClock c :=
  if_neg (by rw [hnot, hhas, hoff]; simp [hpor])

theorem State.declareClock_of_not_off {e : Ev} {c n : Nat} (h : s.clockOff e c n = false) : s.declareClock e c n = s :=
  if_pos (by simp [h])

theorem State.declareClock_of_lost {e : Ev} {c n : Nat} (h : s.lostClocks.contains c = true) : s.declareClock e c n = s :=
  if_pos (by rw [h]; simp)

/-- The loss of a HCLK or an ECLK takes its endpoint or its link down, and no more of the clocks. -/
theorem State.loseClock_of_port {c : Nat} (h : 7 ≤ c) (h' : c < 11) : (s.loseClock c).lostClocks = s.lostClocks ∧ (s.loseClock c).greg = s.greg := by
  unfold State.loseClock
  rw [if_neg (by omega), if_neg (by omega), if_neg (by omega), if_neg (by omega)]
  split
  · exact ⟨rfl, rfl⟩
  · have hk := State.ethLink_keeps (Nat.and_self _) s (c - 9) false (Keeps.refl _ s)
    exact ⟨hk.lostClocks_eq, hk.greg_eq⟩

/-- The loss of a Field clock with no context running takes the Field down. -/
theorem State.loseClock_of_field {c : Nat} (h : c < 4) (hnone : s.liveCtxs = []) :
    (s.loseClock c).lostClocks = s.lostClocks ∧ ((s.loseClock c).field c).down = true := by
  unfold State.loseClock
  rw [if_neg (by omega), if_pos h]
  extract_lets s1
  have hnone1 : s1.liveCtxs = [] := hnone
  have h1 : s1.lostClocks = s.lostClocks ∧ (s1.field c).down = true := ⟨rfl, congrArg FieldClk.down (State.field_setField ..)⟩
  clear_value s1
  rw [hnone1]
  exact h1

theorem State.expectedCount_of_port {c : Nat} (h : 7 ≤ c) (h' : c < 11) :
    s.expectedCount c = (if c < 9 then 1000000 else 390625, if c < 9 then 1000000 else 390625) := by
  simp [State.expectedCount, show ¬ c < 4 by omega, show ¬ c = 4 by omega, h']

theorem State.expectedCount_of_settled {c : Nat} (h : c < 4) (ht : (s.field c).target = none) :
    s.expectedCount c = (if s.supply.diapause then (pointKhz (s.field c).point / 2, pointKhz (s.field c).point / 2)
      else (pointKhz (s.field c).point, pointKhz (s.field c).point)) := by
  unfold State.expectedCount
  rw [if_pos h]
  extract_lets x a b g
  have hb : b = a := by
    simp only [b]
    rw [show x.target = none from ht]
  rw [hb, min_self, max_self]
  simp only [g]
  split <;> rfl

theorem State.declareClock_of_port {e : Ev} {c n : Nat} (hpor : s.boot.phase ≠ .por) (hnot : s.lostClocks.contains c = false)
    (hhas : s.part.variant.hasClock c = true) (h : 7 ≤ c) (h' : c < 11) (hoff : s.clockOff e c n = true) :
    (s.declareClock e c n).lostClocks = s.lostClocks ++ [c] ∧ (s.declareClock e c n).greg.clkEvent = true := by
  rw [State.declareClock_of_off hpor hnot hhas hoff, (State.loseClock_of_port h h').1, (State.loseClock_of_port h h').2]
  exact ⟨rfl, rfl⟩

theorem State.declareClock_of_field {e : Ev} {c n : Nat} (hpor : s.boot.phase ≠ .por) (hnot : s.lostClocks.contains c = false)
    (h : c < 4) (hnone : s.liveCtxs = []) (hoff : s.clockOff e c n = true) :
    (s.declareClock e c n).lostClocks = s.lostClocks ++ [c] ∧ ((s.declareClock e c n).field c).down = true := by
  rw [State.declareClock_of_off hpor hnot (if_pos (by simp; omega)) hoff]
  exact State.loseClock_of_field h hnone

theorem clkRestored_of_port {c : Nat} (hlost : s.lostClocks.contains c = true) (h : 7 ≤ c) (h' : c < 11) :
    clkRestored c s = ({ s with lostClocks := s.lostClocks.filter (fun x => x != c) }).log .clkRestored inClk noFn c 0 := by
  unfold clkRestored
  rw [if_neg (by rw [hlost]; simp; omega)]
  extract_lets s1 s2
  rw [if_neg (by omega), if_neg (by omega), if_neg (by omega), if_pos h']

/-- The return of XIN and KCLK in a shutdown: the device waits for its temperature (R85, R423). -/
theorem xinRestored_of_shutdown (hlost : s.lostClocks.contains 15 = true ∨ s.lostClocks.contains 16 = true) (hphase : s.boot.phase = .clockHold)
    (hdown : s.supply.shutdown = true) :
    (xinRestored s).boot.phase = .thermalHold ∧ (xinRestored s).lostClocks = s.lostClocks.filter (fun c => c != 15 && c != 16) := by
  have hany : s.lostClocks.any (fun c => c == 15 || c == 16) = true := by
    simp only [List.any_eq_true]
    rcases hlost with h | h
    · exact ⟨15, by simpa using h, by decide⟩
    · exact ⟨16, by simpa using h, by decide⟩
  unfold xinRestored
  rw [if_neg (by rw [hany]; decide)]
  extract_lets s1 b
  rw [if_neg (by rw [show s1.boot = s.boot from rfl, hphase]; decide), if_pos hdown]
  exact ⟨rfl, rfl⟩

/-- Settles O22: steps of the time base, PTP, and the loss and return of clocks. -/
theorem timeBaseAndClocks : Obligations.TimeBaseAndClocks := by
  unfold Obligations.TimeBaseAndClocks
  refine ⟨⟨fun r s hr hdue hpor => ?_, fun r s hr hearly => congrArg Host.Outcome.next (dtbStep_of_early hr hearly), fun s hpor hslew => ?_,
      fun s hslew => ?_, fun s hpor => ?_, fun now hnow => ?_⟩,
    ⟨fun p t1 t2 s hlive hup hm hmode => ?_, fun p t1 t2 s hlive hup hm hmode hport hsmall => ?_, fun p t3 t4 s hlive hup hm => ?_,
      fun p domain m s hlive hup hdom => ?_, fun p s hmode hport hother => ?_, fun s hport h0 h1 => ?_⟩,
    fun c n s hpor hnot hhas h h' => ⟨fun hoff => ?_, fun hoff => ?_⟩, fun c n s hpor hnot h hnone => ⟨fun hoff => ?_, fun hoff => ?_⟩,
    fun c s ht => State.expectedCount_of_settled c.isLt ht, fun c n s => ⟨fun hin => ?_, fun hin => ?_⟩,
    fun c n s hlost => ⟨congrArg Host.Outcome.next (State.declareClock_of_lost hlost), congrArg Host.Outcome.next (State.declareClock_of_lost hlost)⟩,
    fun c s hlost h h' => congrArg Host.Outcome.next (clkRestored_of_port hlost h h'), fun s hlost hphase hdown => ⟨_, rfl, xinRestored_of_shutdown hlost hphase hdown⟩⟩
  · have hd := dtbStep_of_due hr hdue hpor
    refine ⟨_, rfl, congrArg Dtb.now hd, congrArg Dtb.pendingStep hd, congrArg Dtb.slew hd, fun i => ?_⟩
    rw [State.shadow, hd]
    exact Tab.get_mapVals_default s.dtb.now (fun x : B64 => x + BitVec.ofInt 64 r.delta) s.dtb.shadows i
  · exact congrArg Host.Outcome.next (if_neg (by simp [hpor, hslew]))
  · exact congrArg Host.Outcome.next (if_pos (by simp [hslew]))
  · refine ⟨_, congrArg Host.Outcome.next (if_neg (by simpa using hpor)), rfl, fun i hi => ?_⟩
    interval_cases i <;> rfl
  · rw [toNat_stepTime hnow]
    omega
  · exact congrArg Host.Outcome.next ((ptpSync_of_master hlive hup hm).trans (if_pos (by simp [hmode])))
  · refine ⟨_, congrArg Host.Outcome.next ((ptpSync_of_master hlive hup hm).trans (if_neg (by simp [hmode, hport]))), ?_⟩
    exact State.dtb_servo hsmall
  · exact congrArg Host.Outcome.next (if_neg (by simp_all [Option.isSome_iff_ne_none]))
  · obtain ⟨hnone, hsome⟩ := ptpAnnounce_takes (m := m) hlive hup hdom
    refine ⟨_, rfl, ?_⟩
    cases hm : (s.eth p).master with
    | none => exact hnone hm
    | some b => exact hsome b hm
  · exact ⟨_, rfl, ptpHoldover_of_alone hmode hport hother (by omega)⟩
  · refine congrArg Host.Outcome.next ?_
    extract_lets m0 m1 port
    have hp : port = 1 := by simp [port, m0, m1, hport, h0, h1]
    rw [hp, if_neg (by simp [hport])]
  · have hex := State.expectedCount_of_port (s := s) h h'
    exact ⟨_, rfl, State.declareClock_of_port hpor hnot hhas h h' (decide_eq_true (by rwa [hex]))⟩
  · have hex := State.expectedCount_of_port (s := s) h h'
    exact ⟨_, rfl, State.declareClock_of_port hpor hnot hhas h h' (decide_eq_true (by rwa [hex]))⟩
  · exact ⟨_, rfl, State.declareClock_of_field hpor hnot h hnone (decide_eq_true hoff)⟩
  · exact ⟨_, rfl, State.declareClock_of_field hpor hnot h hnone (decide_eq_true hoff)⟩
  · exact congrArg Host.Outcome.next (State.declareClock_of_not_off (decide_eq_false (not_lt.2 hin)))
  · exact congrArg Host.Outcome.next (State.declareClock_of_not_off (decide_eq_false (not_lt.2 hin)))

end Sys2Proof.Machine

/-! Head pins and frame numbers (R27, R31, R34), and the commits of the ledger (R45-R49, R373). -/

namespace Sys2Proof.Machine
set_option Elab.async false
variable {s : State}

-- Frame numbers.

theorem fseqNext_of_wrap {wrap fn last : Nat} {q : B16} (hfn : 0 < fn) (hwrap : 0 < wrap) (hlast : last < wrap) :
    fseqNext wrap fn last true q = if (fn + wrap - last) % wrap = 0 then (q + 1, 0, true)
      else (q + BitVec.ofNat 16 ((fn + wrap - last) % wrap), (fn + wrap - last) % wrap - 1, false) := by
  simp [fseqNext, hfn.ne', hwrap.ne', Nat.mod_eq_of_lt hlast]

theorem fseqNext_of_advance {wrap fn last : Nat} {q : B16} (hlast : last < fn) (hwrap : fn < wrap) :
    fseqNext wrap fn last true q = (q + BitVec.ofNat 16 (fn - last), fn - last - 1, false) := by
  have hd : (fn + wrap - last) % wrap = fn - last := by
    rw [show fn + wrap - last = fn - last + wrap by omega, Nat.add_mod_right, Nat.mod_eq_of_lt (by omega)]
  rw [fseqNext_of_wrap (by omega) (by omega) (by omega), hd, if_neg (by omega)]

theorem fseqNext_of_wrapped {wrap fn last : Nat} {q : B16} (hfn : 0 < fn) (hlast : fn < last) (hwrap : last < wrap) :
    fseqNext wrap fn last true q = (q + BitVec.ofNat 16 (fn + wrap - last), fn + wrap - last - 1, false) := by
  rw [fseqNext_of_wrap hfn (by omega) hwrap, Nat.mod_eq_of_lt (by omega), if_neg (by omega)]

theorem fseqNext_of_repeat {wrap last : Nat} {q : B16} (hlast : 0 < last) (hwrap : last < wrap) :
    fseqNext wrap last last true q = (q + 1, 0, true) := by
  rw [fseqNext_of_wrap hlast (by omega) hwrap, Nat.add_sub_cancel_left, Nat.mod_self, if_pos rfl]

-- Head pins.

theorem headRemoved_of_present {h : Nat} (hup : s.linkUp h = true) (hpres : (s.head h).present = true) :
    ∃ x, (headRemoved h s).head h = { (x : Head).off with present := false } := by
  unfold headRemoved
  rw [if_neg (by simp [hup, hpres])]
  exact ⟨_, by rw [State.modHead_eq, State.head_setHead]⟩

/-- Settles O10: head insertion, removal and interrupts, and FSEQ from the frame number. -/
theorem headPinsAndFrameNumbers : Obligations.HeadPinsAndFrameNumbers := by
  unfold Obligations.HeadPinsAndFrameNumbers
  refine ⟨⟨fun h s hup hpres => congrArg Host.Outcome.next ?_, fun h s hup hpres => ?_, fun h s hup => congrArg Host.Outcome.next (if_pos hup),
      fun h target data s hup hpwr => congrArg Host.Outcome.next (if_pos (by rw [hup, hpwr]; rfl))⟩,
    fun _ _ _ _ => rfl, fun _ _ _ => rfl, fun _ _ _ => by simp [fseqNext], fun _ _ _ hlast hwrap => fseqNext_of_repeat hlast hwrap,
    fun _ _ _ _ _ hlast hwrap => fseqNext_of_advance hlast hwrap, fun _ _ _ _ hfn hlast hwrap => fseqNext_of_wrapped hfn hlast hwrap⟩
  · unfold headInserted
    rw [if_neg (by simp [hup, hpres])]
    extract_lets s1
    have h1 : s1.head h = { s.head h with present := true } := State.head_setHead ..
    rw [h1]
  · obtain ⟨x, hx⟩ := headRemoved_of_present hup hpres
    refine ⟨_, rfl, ?_⟩
    rw [hx]
    exact ⟨rfl, rfl, rfl, rfl⟩

-- The pending store.

theorem State.head_touchEntry (s : State) (h : Nat) (f : Pending → Pending) (i : Nat) : (s.touchEntry h f).head i = s.head i :=
  (State.touchEntry_keeps (Nat.and_self _) s h f (Keeps.refl _ s)).head_eq i

/-- What the pending store holds of a head after a change of its entry. -/
theorem State.entry_touchEntry {h : Nat} {f : Pending → Pending} (hf : ∀ e, (f e).id = e.id) :
    (s.touchEntry h f).entry h = some { f ((s.entry h).getD { id := (s.head h).id }) with head := h } := by
  have hold : ((s.entry h).getD { id := (s.head h).id }).id = (s.head h).id := by
    cases he : s.entry h with
    | none => rfl
    | some e => simpa using List.find?_some he
  have hfind : ∀ (l : List Pending), (∀ e ∈ l, (e.id == (s.head h).id) = false) →
      (l ++ [{ f ((s.entry h).getD { id := (s.head h).id }) with head := h }]).find? (fun e => e.id == (s.head h).id) =
        some { f ((s.entry h).getD { id := (s.head h).id }) with head := h } := by
    intro l hl
    rw [List.find?_append, List.find?_eq_none.2 (by simpa using hl), Option.none_or, List.find?_cons_of_pos]
    simp [hf, hold]
  rw [State.entry, State.head_touchEntry]
  unfold State.touchEntry
  extract_lets id old rest e0 e
  have hrest : ∀ e ∈ rest, (e.id == (s.head h).id) = false := by
    intro e he
    have h' : e ∈ s.store.filter (fun e => e.id != id) := he
    simpa [bne] using (List.mem_filter.1 h').2
  clear_value rest
  split
  · exact hfind rest hrest
  · cases rest with
    | nil => exact hfind [] (by simp)
    | cons v t => exact hfind t fun e he => hrest e (List.mem_cons_of_mem v he)

-- The ledger.

/-- A check of the commit budget marks a head that has crossed a bound, and no more (R49). -/
theorem State.head_checkBudget (s : State) (h : Nat) :
    ∃ b e, (s.checkBudget h).head h = { s.head h with budget := b, exhausted := e } := by
  unfold State.checkBudget
  extract_lets x s1
  have h1 : ∃ b, s1.head h = { s.head h with budget := b } := by
    simp only [s1]
    split
    · exact ⟨true, State.head_setHead ..⟩
    · exact ⟨_, rfl⟩
  clear_value s1
  obtain ⟨b, hb⟩ := h1
  split
  · exact ⟨b, true, (State.head_setHead ..).trans (by rw [State.head_log, hb])⟩
  · exact ⟨b, _, hb⟩

theorem State.checkBudget_of_low {h : Nat} (hlow : (s.head h).lastSeq < 190000) : s.checkBudget h = s := by
  simp [State.checkBudget, show ¬ 190000 ≤ (s.head h).lastSeq by omega, show ¬ 200000 ≤ (s.head h).lastSeq by omega]

theorem State.detachStep_of_none {h : Nat} (hdet : (s.head h).detach = none) : s.detachStep h = s := by
  simp [State.detachStep, hdet]

/-- A commit that is due and may be made opens its record and queues its bytes, under the ledger lock (R45, R48, R373). -/
theorem ledgerCommit_of_due {h : Nat} (hup : s.linkUp h = true) (hdue : (s.head h).commitDue = true) (hready : (s.head h).state = .ready)
    (hnone : (s.head h).commit = none) (hdia : s.supply.diapause = false) (hlife : (s.head h).exhausted = false)
    (hlow : (s.head h).lastSeq < 190000) (hlock : (s.lock (48 + h)).holder = 0) :
    ∃ data, (ledgerCommit h s).head h = ({ s.head h with
        commit := some { copyB := s.commitSeq h % 2 == 1, seq := s.commitSeq h, data := data }, commitDue := false, sinceCommit := 0 } : Head).i3cPut
          { target := nvmAddr, reg := if s.commitSeq h % 2 == 1 then 0x240 else 0x200, data := data } ∧
      ((ledgerCommit h s).lock (48 + h)).holder = mcCode ∧
      ((ledgerCommit h s).entry h).map (fun e => e.opened) = some (some (s.commitSeq h % 2 == 1, s.commitSeq h)) := by
  generalize ht : ledgerCommit h s = t
  unfold ledgerCommit at ht
  rw [if_neg (by simp [hup, hdue, hready, hnone, hdia]), State.checkBudget_of_low hlow, if_neg (by simp [hlife]), if_neg (by simp [hlock])] at ht
  extract_lets s1 q b s2 data at ht
  have h1 : (s1.lock (48 + h)).holder = mcCode ∧ s1.head h = s.head h ∧ q = s.commitSeq h :=
    ⟨congrArg Lock.holder (State.lock_setLock ..), rfl, rfl⟩
  have h2 : s2.head h = s1.head h ∧ s2.lock (48 + h) = s1.lock (48 + h) ∧ (s2.entry h).map (fun e => e.opened) = some (some (b, q)) :=
    ⟨State.head_touchEntry .., (State.touchEntry_keeps (Nat.and_self _) s1 h _ (Keeps.refl _ s1)).lock_eq _,
      by rw [State.entry_touchEntry (f := fun e => { e with opened := some (b, q), forced := false }) fun _ => rfl]; rfl⟩
  obtain ⟨hlock1, hhead1, hq⟩ := h1
  have hb : b = (s.commitSeq h % 2 == 1) := congrArg (fun q => q % 2 == 1) hq
  obtain ⟨hhead2, hlock2, hentry2⟩ := h2
  clear_value s2 s1 data b q
  subst ht hb hq
  refine ⟨data, ?_, ?_, ?_⟩
  · rw [State.modHead_eq, State.head_setHead, hhead2, hhead1]
  · rw [State.modHead_eq, State.lock_of_setHead, hlock2, hlock1]
  · have hid : ((s2.modHead h fun x => ({ x with
        commit := some { copyB := s.commitSeq h % 2 == 1, seq := s.commitSeq h, data := data }, commitDue := false, sinceCommit := 0 } : Head).i3cPut
          { target := nvmAddr, reg := if s.commitSeq h % 2 == 1 then 0x240 else 0x200, data := data }).head h).id = (s2.head h).id := by
      rw [State.modHead_eq, State.head_setHead]
      rfl
    rw [State.entry, hid]
    exact hentry2

/-- A ledger write is not in flight in course of a commit whose bus is idle; its read-back is that of the copy (R45). -/
theorem ledgerReadback_of_good {h : Nat} {c : Commit} (hup : s.linkUp h = true) (hcommit : (s.head h).commit = some c) (hidle : (s.head h).i3c = [])
    (hdet : (s.head h).detach = none) :
    ((ledgerReadback h c.data s).head h).commit = none ∧ ((ledgerReadback h c.data s).head h).lastSeq = c.seq ∧
      ((ledgerReadback h c.data s).head h).wear = fieldLe c.data 4 4 := by
  generalize ht : ledgerReadback h c.data s = t
  unfold ledgerReadback at ht
  extract_lets x at ht
  rw [show x.commit = some c from hcommit] at ht
  dsimp -zeta only at ht
  extract_lets addr s1 w left s2 s3 s4 at ht
  replace ht := (if_neg (by simp [hup, x, hidle])).symm.trans ht
  replace ht := (if_pos (by simp)).symm.trans ht
  have h4 : s4.head h = { s3.head h with
      commit := none, lastSeq := c.seq, wear := w, lflags := BitVec.ofNat 8 (fieldLe c.data 8 1), untrustedUse := false } := State.head_setHead ..
  have h3 : s3.head h = s2.head h := by
    simp only [s3]
    split <;> rfl
  have h2 : s2.head h = s1.head h := State.head_touchEntry ..
  have h1 : s1.head h = (s.head h).i3cRead nvmAddr addr 16 := State.head_setHead ..
  obtain ⟨b, e, hbudget⟩ := State.head_checkBudget (s4.handLock (48 + h)) h
  rw [State.head_handLock, h4, h3, h2, h1] at hbudget
  rw [State.detachStep_of_none (by rw [hbudget]; exact hdet)] at ht
  rw [← ht, hbudget]
  exact ⟨rfl, rfl, rfl⟩

/-- The transfer of 16 bytes that reads a copy of the ledger back (R45; log 40). -/
theorem readXfers_ledger (b : Bool) : readXfers nvmAddr (if b then 0x240 else 0x200) 16 =
    [{ target := 0x08, reg := if b then 0x240 else 0x200, rlen := 16 }] := by
  cases b <;> rfl

theorem ledgerReadback_of_bad {h : Nat} {c : Commit} {copy : Bytes} (hup : s.linkUp h = true) (hcommit : (s.head h).commit = some c)
    (hidle : (s.head h).i3c = []) (hbad : copy ≠ c.data) (hretried : c.retried = false) :
    ((ledgerReadback h copy s).head h).commit = some { c with retried := true } ∧
      ((ledgerReadback h copy s).head h).i3c = [{ target := 0x08, reg := if c.copyB then 0x240 else 0x200, rlen := 16 },
        { target := 0x08, reg := if c.copyB then 0x240 else 0x200, data := c.data }] := by
  generalize ht : ledgerReadback h copy s = t
  unfold ledgerReadback at ht
  extract_lets x at ht
  rw [show x.commit = some c from hcommit] at ht
  dsimp -zeta only at ht
  extract_lets addr s1 w left s2 s3 s4 at ht
  replace ht := (if_neg (by simp [hup, x, hidle])).symm.trans ht
  replace ht := (if_neg (by simpa using hbad)).symm.trans ht
  replace ht := (if_pos (by simp [hretried])).symm.trans ht
  have h1 : s1.head h = (s.head h).i3cRead nvmAddr addr 16 := State.head_setHead ..
  rw [← ht, State.sclSettle, State.modHead_eq, State.head_setHead, State.modHead_eq, State.head_setHead, h1]
  refine ⟨rfl, ?_⟩
  change (s.head h).i3c ++ readXfers nvmAddr addr 16 ++ _ = _
  rw [hidle, readXfers_ledger]
  rfl

theorem ledgerReadback_of_bad_again {h : Nat} {c : Commit} {copy : Bytes} (hup : s.linkUp h = true) (hcommit : (s.head h).commit = some c)
    (hidle : (s.head h).i3c = []) (hbad : copy ≠ c.data) (hretried : c.retried = true) (hdet : (s.head h).detach = none) :
    ((ledgerReadback h copy s).head h).commit = none ∧ ((ledgerReadback h copy s).head h).lastSeq = (s.head h).lastSeq := by
  generalize ht : ledgerReadback h copy s = t
  unfold ledgerReadback at ht
  extract_lets x at ht
  rw [show x.commit = some c from hcommit] at ht
  dsimp -zeta only at ht
  extract_lets addr s1 w left s2 s3 s4 s5 at ht
  replace ht := (if_neg (by simp [hup, x, hidle])).symm.trans ht
  replace ht := (if_neg (by simpa using hbad)).symm.trans ht
  replace ht := (if_neg (by simp [hretried])).symm.trans ht
  have h5 : s5.head h = (s.head h).i3cRead nvmAddr addr 16 := (State.head_log ..).trans (State.head_setHead ..)
  have hhead : ((s5.modHead h fun y => { y with commit := none }).handLock (48 + h)).head h =
      { (s.head h).i3cRead nvmAddr addr 16 with commit := none } := by
    rw [State.head_handLock, State.modHead_eq, State.head_setHead, h5]
  rw [State.detachStep_of_none (by rw [hhead]; exact hdet)] at ht
  rw [← ht, hhead]
  exact ⟨rfl, rfl⟩

/-- Settles O13. -/
theorem ledgerCommits : Obligations.LedgerCommits := by
  unfold Obligations.LedgerCommits
  refine ⟨fun h s hup hdue hready hnone hdia hlife hlow hlock => ?_, fun h c s hup hcommit hidle hdet => ?_,
    fun h c copy s hup hcommit hidle hbad hretried => ?_, fun h c copy s hup hcommit hidle hbad hretried hdet => ?_⟩
  · obtain ⟨data, hhead, hholder, hentry⟩ := ledgerCommit_of_due hup hdue hready hnone hdia hlife hlow hlock
    exact ⟨_, _, rfl, by rw [hhead]; rfl, rfl, rfl, rfl, by rw [hhead]; rfl, hholder, hentry, by rw [hhead]; rfl⟩
  · exact ⟨_, rfl, ledgerReadback_of_good hup hcommit hidle hdet⟩
  · exact ⟨_, rfl, ledgerReadback_of_bad hup hcommit hidle hbad hretried⟩
  · exact ⟨_, rfl, ledgerReadback_of_bad_again hup hcommit hidle hbad hretried hdet⟩

end Sys2Proof.Machine

/-! FSYNC pulses (R33), wear by temperature (R44), focus and exposure decisions (R20, R56, R57), and the transfers of a bus (R22). -/

namespace Sys2Proof.Machine
set_option Elab.async false
variable {s : State}

-- FSYNC.

theorem Fsync.nextAt_spec {f : Fsync} (t : Nat) (hp : f.period ≠ 0) :
    t ≤ f.nextAt t ∧ f.t0 ≤ f.nextAt t ∧ (f.nextAt t - f.t0) % f.period = 0 := by
  unfold Fsync.nextAt
  split
  · next h => exact ⟨by simpa [hp] using h, le_rfl, by simp⟩
  · next h =>
    have hlt : f.t0 < t := by simp [hp] at h; omega
    have hup : t - f.t0 ≤ (t - f.t0 + f.period - 1) / f.period * f.period := by
      have hdiv := Nat.div_add_mod (t - f.t0 + f.period - 1) f.period
      have hmod := Nat.mod_lt (t - f.t0 + f.period - 1) (Nat.pos_of_ne_zero hp)
      rw [Nat.mul_comm] at hdiv
      omega
    refine ⟨by omega, by omega, ?_⟩
    rw [Nat.add_sub_cancel_left, Nat.mul_mod_left]

theorem fsyncPulse_of_settled {h : Nat} (hup : s.linkUp h = true) (hnext : (s.head h).fsyncNext = none) :
    fsyncPulse h s =
      if (s.head h).fsync.on && (s.head h).fsync.nextAt (max (s.head h).fsyncFrom (s.dtb.now.toNat - 10)) ≤ s.dtb.now.toNat + 10 then
        s.setHead h { s.head h with fsyncPin := true, fsyncFrom := (s.head h).fsync.nextAt (max (s.head h).fsyncFrom (s.dtb.now.toNat - 10)) + 1 }
      else s := by
  unfold fsyncPulse
  rw [if_neg (by simp [hup])]
  extract_lets x now from_ x' due
  have hx : x' = s.head h := by
    simp only [x']
    rw [show x.fsyncNext = none from hnext]
  simp only [due, from_, hx]
  rfl

/-- A setting that waits takes over where no generator runs (R33). -/
theorem fsyncPulse_of_waiting {h t : Nat} {n : Fsync} (hup : s.linkUp h = true) (hnext : (s.head h).fsyncNext = some (n, t))
    (hoff : (s.head h).fsync.on = false) (hon : n.on = true)
    (hdue : n.nextAt (max (max (s.head h).fsyncFrom t) (s.dtb.now.toNat - 10)) ≤ s.dtb.now.toNat + 10) :
    ((fsyncPulse h s).head h).fsync = n ∧ ((fsyncPulse h s).head h).fsyncNext = none ∧ ((fsyncPulse h s).head h).fsyncPin = true := by
  unfold fsyncPulse
  rw [if_neg (by simp [hup])]
  extract_lets x now from_ x' due
  have hx : x' = { s.head h with fsync := n, fsyncNext := none, fsyncFrom := max (s.head h).fsyncFrom t } := by
    simp only [x']
    rw [show x.fsyncNext = some (n, t) from hnext]
    exact if_neg (by simp [x, hoff])
  have hgo : (x'.fsync.on && due ≤ now + 10) = true := by
    simp only [due, from_, hx, hon, Bool.true_and, decide_eq_true_eq]
    exact hdue
  rw [if_pos hgo, State.head_setHead, hx]
  exact ⟨rfl, rfl, rfl⟩

-- Temperature and wear.

theorem wearWeight_eq (t : Int) : wearWeight t = if t ≤ 40 * 256 then 10 else if t ≤ 55 * 256 then 16 else if t ≤ 70 * 256 then 28 else 50 := rfl

theorem Head.tempValue_two (x : Head) (a b : B8) :
    x.tempValue [a, b] = some (if x.pp 0x142 1 = 0 then sext 8 a.toNat * 256 else sext 16 (256 * a.toNat + b.toNat)) := by
  by_cases h : x.pp 0x142 1 = 0 <;> simp [Head.tempValue, h, sensorValue, beNat, leNat, Nat.add_comm]

/-- The check of a head's life marks what the head has crossed, and no more (R51). -/
theorem State.head_checkLife (s : State) (h : Nat) :
    (∃ a b, (s.checkLife h).head h = { s.head h with warnSeen := a, lifeSeen := b }) ∧ (s.checkLife h).store = s.store := by
  unfold State.checkLife
  extract_lets x w args s1
  have h1 : (∃ a, s1.head h = { s.head h with warnSeen := a }) ∧ s1.store = s.store := by
    simp only [s1]
    split
    · exact ⟨⟨true, State.head_setHead ..⟩, rfl⟩
    · exact ⟨⟨_, rfl⟩, rfl⟩
  clear_value s1
  obtain ⟨⟨a, ha⟩, hstore⟩ := h1
  split
  · exact ⟨⟨a, true, (State.head_setHead ..).trans (by rw [State.head_log, ha])⟩, hstore⟩
  · exact ⟨⟨a, _, ha⟩, hstore⟩

theorem State.wear_checkLife (s : State) (h : Nat) : (s.checkLife h).wear h = s.wear h := by
  obtain ⟨⟨a, b, hhead⟩, hstore⟩ := State.head_checkLife s h
  rw [State.wear, State.entry, hstore, hhead]
  rfl

theorem State.wear_touchEntry {h n : Nat} {f : Pending → Pending} (hf : ∀ e, (f e).id = e.id) (hw : ∀ e, (f e).wear = e.wear + n) :
    (s.touchEntry h f).wear h = s.wear h + n := by
  rw [State.wear, State.entry_touchEntry hf, State.head_touchEntry]
  simp only [Option.map_some, Option.getD_some, hw, State.wear]
  cases s.entry h with
  | none => simp
  | some e => simp; omega

theorem State.wear_modHead {h : Nat} {f : Head → Head} (hid : (f (s.head h)).id = (s.head h).id) (hw : (f (s.head h)).wear = (s.head h).wear) :
    (s.modHead h f).wear h = s.wear h := by
  rw [State.wear, State.entry, State.modHead_eq, State.head_setHead, hid, hw]
  rfl

/-- The reading's transfer goes on the bus; the head's temperature, counts and wear are not touched by it (log 40). -/
def State.tempQueued (s : State) (h : Nat) : State :=
  s.modHead h (fun y => y.i3cRead sensorAddr (y.pp 0x140 2) (if y.pp 0x142 1 == 0 then 1 else 2))

/-- A second of streaming, of the weight `w`, is counted (R44). -/
def State.secondCounted (s : State) (h w : Nat) : State :=
  ((s.touchEntry h (fun e => { e with wear := e.wear + w })).modHead h (fun y => { y with
    sinceCommit := y.sinceCommit + 1, sinceAuth := y.sinceAuth + 1, commitDue := y.commitDue || y.commitEvery ≤ y.sinceCommit + 1 })).checkLife h

theorem State.secondCounted_spec (s : State) (h w : Nat) :
    ((s.secondCounted h w).head h).temp = (s.head h).temp ∧ ((s.secondCounted h w).head h).tempFails = (s.head h).tempFails ∧
      ((s.secondCounted h w).head h).sinceCommit = (s.head h).sinceCommit + 1 ∧ (s.secondCounted h w).wear h = s.wear h + w := by
  unfold State.secondCounted
  generalize hs1 : s.touchEntry h (fun e => { e with wear := e.wear + w }) = s1
  have hhead : s1.head h = s.head h := by rw [← hs1, State.head_touchEntry]
  have hwear : s1.wear h = s.wear h + w := by
    rw [← hs1]
    exact State.wear_touchEntry (fun _ => rfl) fun _ => rfl
  generalize hs2 : s1.modHead h _ = s2
  have hhead2 : s2.head h = { s.head h with
      sinceCommit := (s.head h).sinceCommit + 1, sinceAuth := (s.head h).sinceAuth + 1
      commitDue := (s.head h).commitDue || (s.head h).commitEvery ≤ (s.head h).sinceCommit + 1 } := by
    rw [← hs2, State.modHead_eq, State.head_setHead, hhead]
  have hwear2 : s2.wear h = s.wear h + w := by
    rw [← hs2, ← hwear]
    exact State.wear_modHead rfl rfl
  obtain ⟨⟨a, b, hlife⟩, -⟩ := State.head_checkLife s2 h
  rw [hlife, State.wear_checkLife, hhead2]
  exact ⟨rfl, rfl, rfl, hwear2⟩

theorem tempRead_of_good {h : Nat} {v : Bytes} {t : Int} (hup : s.linkUp h = true) (huse : (s.head h).usable = true)
    (hstr : s.headStreaming h = true) (hv : (s.head h).tempValue v = some t) :
    tempRead h (some v) s = ((s.tempQueued h).modHead h (fun y => { y with temp := t, tempFails := 0, maxTemp := max y.maxTemp (t / 256) })).secondCounted
      h (wearWeight t) := by
  unfold tempRead
  rw [if_neg (by simp [hup, huse, hstr])]
  extract_lets x s1
  rw [show Option.bind (some v) x.tempValue = some t from hv]
  rfl

theorem tempRead_of_none {h : Nat} (hup : s.linkUp h = true) (huse : (s.head h).usable = true) (hstr : s.headStreaming h = true) :
    tempRead h none s = (if (s.head h).tempFails + 1 == 3 then
      ((s.tempQueued h).modHead h (fun y => { y with tempFails := y.tempFails + 1 })).log .tempFail inMc (s.head h).fn h 0
      else (s.tempQueued h).modHead h (fun y => { y with tempFails := y.tempFails + 1 })).secondCounted h 50 := by
  unfold tempRead
  rw [if_neg (by simp [hup, huse, hstr])]
  rfl

theorem State.tempQueued_spec (s : State) (h : Nat) :
    (s.tempQueued h).head h = (s.head h).i3cRead sensorAddr ((s.head h).pp 0x140 2) (if (s.head h).pp 0x142 1 == 0 then 1 else 2) ∧
      (s.tempQueued h).wear h = s.wear h :=
  ⟨State.head_setHead .., State.wear_modHead rfl rfl⟩

theorem tempRead_good_spec {h : Nat} {v : Bytes} {t : Int} (hup : s.linkUp h = true) (huse : (s.head h).usable = true)
    (hstr : s.headStreaming h = true) (hv : (s.head h).tempValue v = some t) :
    ((tempRead h (some v) s).head h).temp = t ∧ ((tempRead h (some v) s).head h).tempFails = 0 ∧
      ((tempRead h (some v) s).head h).sinceCommit = (s.head h).sinceCommit + 1 ∧ (tempRead h (some v) s).wear h = s.wear h + wearWeight t := by
  rw [tempRead_of_good hup huse hstr hv]
  obtain ⟨hhead, hwear⟩ := State.tempQueued_spec s h
  generalize hs2 : (s.tempQueued h).modHead h _ = s2
  have hwear2 : s2.wear h = s.wear h := by
    rw [← hs2, ← hwear]
    exact State.wear_modHead rfl rfl
  have hhead2 : (s2.head h).temp = t ∧ (s2.head h).tempFails = 0 ∧ (s2.head h).sinceCommit = (s.head h).sinceCommit := by
    rw [← hs2, State.modHead_eq, State.head_setHead, hhead]
    exact ⟨rfl, rfl, rfl⟩
  obtain ⟨htemp, hfails, hsince, hw⟩ := State.secondCounted_spec s2 h (wearWeight t)
  obtain ⟨htemp2, hfails2, hsince2⟩ := hhead2
  exact ⟨htemp.trans htemp2, hfails.trans hfails2, by rw [hsince, hsince2], by rw [hw, hwear2]⟩

theorem tempRead_none_spec {h : Nat} (hup : s.linkUp h = true) (huse : (s.head h).usable = true) (hstr : s.headStreaming h = true) :
    ((tempRead h none s).head h).temp = (s.head h).temp ∧ ((tempRead h none s).head h).tempFails = (s.head h).tempFails + 1 ∧
      (tempRead h none s).wear h = s.wear h + 50 := by
  rw [tempRead_of_none hup huse hstr]
  obtain ⟨hhead, hwear⟩ := State.tempQueued_spec s h
  generalize hs2 : (s.tempQueued h).modHead h _ = s2
  have hwear2 : s2.wear h = s.wear h := by
    rw [← hs2, ← hwear]
    exact State.wear_modHead rfl rfl
  have hhead2 : (s2.head h).temp = (s.head h).temp ∧ (s2.head h).tempFails = (s.head h).tempFails + 1 := by
    rw [← hs2, State.modHead_eq, State.head_setHead, hhead]
    exact ⟨rfl, rfl⟩
  clear hs2
  generalize hs3 : (if (s.head h).tempFails + 1 == 3 then s2.log .tempFail inMc (s.head h).fn h 0 else s2) = s3
  have h3 : s3.head h = s2.head h ∧ s3.wear h = s2.wear h := by
    rw [← hs3]
    split <;> exact ⟨rfl, rfl⟩
  obtain ⟨htemp, hfails, -, hw⟩ := State.secondCounted_spec s3 h 50
  rw [h3.1] at htemp hfails
  exact ⟨htemp.trans hhead2.1, hfails.trans hhead2.2, by rw [hw, h3.2, hwear2]⟩

-- Focus decisions.

theorem State.head_modFrame (s : State) (st : Nat) (fseq : B16) (f : FrameInfo → FrameInfo) (i : Nat) : (s.modFrame st fseq f).head i = s.head i := rfl

theorem Strm.info_modFrame {x : Strm} {fseq : B16} {f : FrameInfo → FrameInfo} (hf : ∀ i, (f i).fseq = i.fseq) :
    (x.modFrame fseq f).info fseq = (x.info fseq).map f := by
  unfold Strm.info Strm.modFrame
  dsimp only
  induction x.frames with
  | nil => rfl
  | cons i l ih =>
    by_cases hi : i.fseq = fseq
    · simp [hi, hf]
    · simpa [hi] using ih

theorem State.strm_modFrame (s : State) (st : Nat) (fseq : B16) (f : FrameInfo → FrameInfo) :
    (s.modFrame st fseq f).strm st = (s.strm st).modFrame fseq f := State.strm_setStrm ..

/-- The transfer that carries a focus decision as a relative step. -/
def Head.focusXfer (x : Head) (v : Int) : I3cXfer := { target := actAddr, reg := x.pp 0x14E 1, data := x.actData v, decision := true }

theorem State.head_issueFocus {st : Nat} {fseq : B16} {step : Int} {i : FrameInfo} (huse : (s.head (st / 4)).usable = true)
    (hi : (s.strm st).info fseq = some i) (hgood : i.has .dropped = false) (habs : (s.head (st / 4)).actAbs = false) :
    (s.issueFocus st fseq step).head (st / 4) =
      { (s.head (st / 4)).i3cDecision ((s.head (st / 4)).focusXfer step) with actPos := step } := by
  unfold State.issueFocus
  extract_lets h y v
  have hv : v = step := if_neg (by rw [show y.actAbs = false from habs]; decide)
  rw [if_neg (by simp [y, h, huse, hi, hgood]), State.head_modFrame, State.modHead_eq, State.head_setHead, hv]
  rfl

/-- The record of a focus decision in its frame. -/
def FrameInfo.focusSet (focus conf : Nat) (i : FrameInfo) : FrameInfo := { i with focus := BitVec.ofNat 16 focus, afConf := conf, focused := true }

theorem FrameInfo.focusSet_bits (focus : B16) (conf : Nat) :
    FrameInfo.focusSet focus.toNat conf = fun i => { i with focus := focus, afConf := conf, focused := true } := by
  funext i
  rw [FrameInfo.focusSet, BitVec.ofNat_toNat, BitVec.setWidth_eq]

theorem focusWrite_of_open {st focus conf : Nat} {fseq : B16} (hopen : s.lastLineIn st fseq = false) : focusWrite st fseq focus conf s = s := by
  unfold focusWrite
  extract_lets h x
  split
  · rfl
  · exact if_pos (by simp [hopen])

/-- A decision with too little confidence is only recorded (R57). -/
theorem focusWrite_of_unsure {st focus conf : Nat} {fseq : B16} {i : FrameInfo} (hi : (s.strm st).info fseq = some i) (hgood : i.has .dropped = false)
    (hnew : i.written = false) (hconf : lt16 conf (s.head (st / 4)).actConfMin = true) (hin : s.lastLineIn st fseq = true) :
    focusWrite st fseq focus conf s = s.modFrame st fseq (FrameInfo.focusSet focus conf) := by
  unfold focusWrite
  extract_lets h x
  rw [hi]
  refine (if_neg (by simp [hgood, hnew, hin])).trans ?_
  exact if_pos (by simp [x, h, hconf])

theorem focusWrite_of_sure {st focus conf : Nat} {fseq : B16} {i : FrameInfo} (hi : (s.strm st).info fseq = some i) (hgood : i.has .dropped = false)
    (hnew : i.written = false) (hsrc : (s.strm st).source = 0) (hup : s.linkUp (st / 4) = true) (huse : (s.head (st / 4)).usable = true)
    (hsa : (s.head (st / 4)).actSa ≠ 0) (hnan : isNan16 conf = false) (hconf : lt16 conf (s.head (st / 4)).actConfMin = false)
    (htrig : (s.head (st / 4)).actTrigger = 0) (hin : s.lastLineIn st fseq = true) :
    focusWrite st fseq focus conf s = (s.modFrame st fseq (FrameInfo.focusSet focus conf)).issueFocus st fseq (sext 16 focus) := by
  unfold focusWrite
  extract_lets h x
  rw [hi]
  refine (if_neg (by simp [hgood, hnew, hin])).trans ?_
  have hsrc1 : ((s.modFrame st fseq (FrameInfo.focusSet focus conf)).strm st).source = 0 :=
    (congrArg Strm.source (State.strm_modFrame ..)).trans hsrc
  refine (if_neg ?_).trans ?_
  · change ¬ (((s.modFrame st fseq (FrameInfo.focusSet focus conf)).strm st).source != 0 || !s.linkUp h || !x.usable || x.actSa == 0 ||
      isNan16 conf || lt16 conf x.actConfMin) = true
    simp [hsrc1, hup, x, h, huse, hsa, hnan, hconf]
  · exact if_pos (by simp [x, h, htrig])

-- Exposure decisions.

/-- The gain code of the low-gain ceiling, and the gain it stands for (R51). -/
def Head.ceilingCode (y : Head) : Nat := min (round32 (mul32 (to32 y.ceiling) (int32 y.gainUnit))).toNat (2 ^ (8 * y.gainBytes) - 1)
def Head.ceilingGain (y : Head) : Nat := div32 (int32 y.ceilingCode) (int32 y.gainUnit)

/-- The head once the ceiling is written. -/
def Head.atCeiling (y : Head) : Head :=
  { y.i3cDecision { target := sensorAddr, reg := y.pp 0x146 2, data := beBytes y.gainBytes y.ceilingCode, decision := true } with g := y.ceilingGain }

theorem Head.toCeiling_eq (y : Head) : y.toCeiling = if lt32 y.ceilingGain y.g then y.atCeiling else y := rfl

theorem Head.i3cDecision_evPosted (x : Head) (y : I3cXfer) :
    ({ x with evPosted := none } : Head).i3cDecision y = { x.i3cDecision y with evPosted := none } := by
  unfold Head.i3cDecision
  dsimp only
  cases x.i3c <;> rfl

theorem Head.atCeiling_evPosted (x : Head) : ({ x with evPosted := none } : Head).atCeiling = { x.atCeiling with evPosted := none } := by
  unfold Head.atCeiling
  rw [Head.i3cDecision_evPosted]
  rfl

theorem Head.toCeiling_evPosted (x : Head) : ({ x with evPosted := none } : Head).toCeiling = { x.toCeiling with evPosted := none } := by
  have hgain : ({ x with evPosted := none } : Head).ceilingGain = x.ceilingGain := rfl
  rw [Head.toCeiling_eq, Head.toCeiling_eq, hgain, Head.atCeiling_evPosted]
  by_cases hb : lt32 x.ceilingGain x.g = true
  · rw [if_pos hb, if_pos hb]
  · rw [if_neg hb, if_neg hb]

theorem Head.exposure_evPosted (x : Head) (ev : Nat) (lim : Bool) : ({ x with evPosted := none } : Head).exposure ev lim = x.exposure ev lim := by
  unfold Head.exposure
  rfl

/-- A posted exposure correction of a frame that is not ended, or that owes a focus decision, waits (R20). -/
theorem exposureWrite_of_waiting {h st ev : Nat} {fseq : B16} (hev : (s.head h).evPosted = some (st, fseq, ev))
    (hwait : s.lastLineIn st fseq = false ∨ s.focusOwed h fseq = true) : exposureWrite h s = s := by
  unfold exposureWrite
  extract_lets x
  rw [show x.evPosted = some (st, fseq, ev) from hev]
  exact if_pos (by rcases hwait with hw | hw <;> simp [hw])

theorem Head.evPosted_i3cDecision (x : Head) (y : I3cXfer) : (x.i3cDecision y).evPosted = x.evPosted := by
  unfold Head.i3cDecision
  split <;> rfl

theorem State.head_writeExposure (s : State) (h lines code : Nat) :
    ((s.writeExposure h lines code).head h).x = lines ∧ ((s.writeExposure h lines code).head h).evPosted = (s.head h).evPosted := by
  unfold State.writeExposure
  rw [State.modHead_eq, State.head_setHead]
  exact ⟨rfl, (Head.evPosted_i3cDecision ..).trans (Head.evPosted_i3cDecision ..)⟩

theorem exposureWrite_of_posted {h st ev : Nat} {fseq : B16} {i : FrameInfo} (hev : (s.head h).evPosted = some (st, fseq, ev))
    (hi : (s.strm st).info fseq = some i) (hgood : i.has .dropped = false) (hnan : isNan16 ev = false) (hlo : lt16 ev 0xC400 = false)
    (hhi : lt16 0x4400 ev = false) (hsrc : (s.strm st).source = 0) (hup : s.linkUp h = true) (huse : (s.head h).usable = true)
    (hin : s.lastLineIn st fseq = true) (howed : s.focusOwed h fseq = false) :
    ((exposureWrite h s).head h).evPosted = none ∧ ((exposureWrite h s).head h).evLast = ev ∧
      ((exposureWrite h s).head h).x = ((if s.limiting h then (s.head h).toCeiling else s.head h).exposure ev (s.limiting h)).1 := by
  generalize ht : exposureWrite h s = t
  unfold exposureWrite at ht
  extract_lets x s1 at ht
  rw [show x.evPosted = some (st, fseq, ev) from hev] at ht
  dsimp -zeta only at ht
  replace ht := (if_neg (by simp [hin, howed])).symm.trans ht
  extract_lets c s2 lim s3 r at ht
  have hhead1 : s1.head h = { s.head h with evPosted := none } := State.head_setHead ..
  rw [show (s1.strm st).info fseq = some i from hi] at ht
  replace ht := (if_neg (by simp [hgood, hnan])).symm.trans ht
  have hc : c = ev := by simp [c, hlo, hhi]
  have hhead2 : s2.head h = s1.head h := rfl
  have hsrc2 : (s2.strm st).source = 0 := (congrArg Strm.source (State.strm_modFrame ..)).trans hsrc
  have hup2 : s2.linkUp h = true := hup
  have hlim : lim = s.limiting h := by
    simp only [lim, State.limiting, hhead2, hhead1]
  have hhead3 : s3.head h = if lim then (s2.head h).toCeiling else s2.head h := State.head_setHead ..
  have hr : r = (s3.head h).exposure c lim := rfl
  clear_value r s3 lim s2 c s1
  subst hc hlim hr
  replace ht := (if_neg (by simp [hsrc2, hup2, x, huse])).symm.trans ht
  have hhead : s3.head h = { (if s.limiting h then (s.head h).toCeiling else s.head h : Head) with evPosted := none } := by
    rw [hhead3, hhead2, hhead1, Head.toCeiling_evPosted]
    split <;> rfl
  obtain ⟨hx, hposted⟩ := State.head_writeExposure s3 h ((s3.head h).exposure c (s.limiting h)).1 ((s3.head h).exposure c (s.limiting h)).2
  replace hposted := hposted.trans (congrArg Head.evPosted hhead)
  generalize State.writeExposure s3 h _ _ = s4 at ht hx hposted
  rw [← ht, State.head_modFrame, State.modHead_eq, State.head_setHead]
  refine ⟨hposted, rfl, hx.trans ?_⟩
  rw [hhead, Head.exposure_evPosted]

-- The transfers of a bus.

theorem i3cComplete_spec (s : State) (h : Nat) :
    (((s.modHead h (fun x => { x with i3c := x.i3c.drop 1 })).sclSettle h).head h).i3c = (s.head h).i3c.drop 1 ∧
      (((s.modHead h (fun x => { x with i3c := x.i3c.drop 1 })).sclSettle h).head h).sclHeld =
        (s.supply.diapause && (((s.modHead h (fun x => { x with i3c := x.i3c.drop 1 })).sclSettle h).head h).ledgerInFlight) := by
  rw [State.sclSettle, State.modHead_eq, State.modHead_eq, State.head_setHead, State.head_setHead]
  exact ⟨rfl, rfl⟩

/-- Settles O12. -/
theorem pulsesWearAndDecisions : Obligations.PulsesWearAndDecisions := by
  unfold Obligations.PulsesWearAndDecisions
  refine ⟨⟨fun h s hup hnext => ?_, fun h n t s hup hnext hoff hon hdue => ⟨_, rfl, fsyncPulse_of_waiting hup hnext hoff hon hdue⟩,
      fun h s hpin => ?_, fun f t hp => Fsync.nextAt_spec t hp⟩,
    ⟨fun h a b s hup huse hstr => ?_, fun h s hup huse hstr => ?_, fun t => ?_⟩,
    fun st fseq focus conf i s hi hgood hnew hsrc hup huse hsa hnan hconf htrig habs hin => ?_,
    fun st fseq focus conf s hopen => congrArg Host.Outcome.next (focusWrite_of_open hopen),
    fun st fseq focus conf i s hi hgood hnew hconf hin => congrArg Host.Outcome.next
      ((focusWrite_of_unsure hi hgood hnew hconf hin).trans (by rw [FrameInfo.focusSet_bits])),
    fun h st fseq ev i s hev hi hgood hnan hlo hhi hsrc hup huse hin howed =>
      ⟨_, rfl, exposureWrite_of_posted hev hi hgood hnan hlo hhi hsrc hup huse hin howed⟩,
    fun h st fseq ev s hev hwait => congrArg Host.Outcome.next (exposureWrite_of_waiting hev hwait),
    fun h s hheld => congrArg Host.Outcome.next (if_pos hheld), fun h s hfree => ?_⟩
  · refine congrArg Host.Outcome.next ((fsyncPulse_of_settled hup hnext).trans (if_congr ?_ rfl rfl))
    rw [Bool.and_eq_true, decide_eq_true_eq]
  · exact congrArg Host.Outcome.next (if_pos hpin)
  · obtain ⟨htemp, hfails, hsince, hwear⟩ := tempRead_good_spec hup huse hstr (Head.tempValue_two (s.head h) a b)
    exact ⟨_, rfl, htemp, hfails, hsince, by rw [hwear, htemp]⟩
  · exact ⟨_, rfl, tempRead_none_spec hup huse hstr⟩
  · rw [wearWeight_eq]
    refine ⟨fun h => if_pos h, fun h h' => ?_, fun h h' => ?_, fun h => ?_⟩
    · rw [if_neg (by omega), if_pos h']
    · rw [if_neg (by omega), if_neg (by omega), if_pos h']
    · rw [if_neg (by omega), if_neg (by omega), if_neg (by omega)]
  · have hset := Strm.info_modFrame (x := s.strm st) (fseq := fseq) (f := FrameInfo.focusSet focus.toNat conf.toNat) fun _ => rfl
    refine ⟨_, congrArg Host.Outcome.next (focusWrite_of_sure hi hgood hnew hsrc hup huse hsa hnan hconf htrig hin), ?_⟩
    exact State.head_issueFocus (i := i.focusSet focus.toNat conf.toNat) huse
      (by rw [State.strm_modFrame, hset, hi]; rfl) hgood habs
  · exact ⟨_, congrArg Host.Outcome.next (if_neg (by simp [hfree])), i3cComplete_spec s h⟩

end Sys2Proof.Machine

/-! Eclosions start and end (R302, R305, R307; Table 12-8). -/

namespace Sys2Proof.Machine
set_option Elab.async false
variable {s t u : State}

-- What the new BINDs of a context's ports leave alone (R390).

theorem Tab.mem_keys_set {α : Type} {d v : α} {p : α → Bool} {i k : Nat} {t : List (Nat × α)} (hv : p (Tab.get d t i) = true → p v = true)
    (hk : k ∈ Tab.keys t p) : k ∈ Tab.keys (Tab.set t i v) p := by
  induction t with
  | nil => simp [Tab.keys] at hk
  | cons e t ih =>
    obtain ⟨j, w⟩ := e
    rw [Tab.get] at hv
    rw [Tab.set]
    have hsplit : (p w = true ∧ k = j) ∨ k ∈ Tab.keys t p := by
      simp only [Tab.keys, List.mem_map, List.mem_filter, List.mem_cons] at hk ⊢
      obtain ⟨e, ⟨rfl | he, hp⟩, rfl⟩ := hk
      · exact Or.inl ⟨hp, rfl⟩
      · exact Or.inr ⟨e, ⟨he, hp⟩, rfl⟩
    by_cases hj : j = i
    · subst hj
      rw [if_pos rfl] at hv ⊢
      rcases hsplit with ⟨hw, rfl⟩ | hk'
      · simp [Tab.keys, hv hw]
      · simp only [Tab.keys, List.mem_map, List.mem_filter, List.mem_cons] at hk' ⊢
        obtain ⟨e, ⟨he, hp⟩, rfl⟩ := hk'
        exact ⟨e, ⟨Or.inr he, hp⟩, rfl⟩
    · rw [if_neg hj] at hv ⊢
      split
      · simp only [Tab.keys, List.mem_map, List.mem_filter, List.mem_cons] at hk ⊢
        obtain ⟨e, ⟨he, hp⟩, rfl⟩ := hk
        exact ⟨e, ⟨Or.inr he, hp⟩, rfl⟩
      · rcases hsplit with ⟨hw, rfl⟩ | hk'
        · simp [Tab.keys, hw]
        · have hrest := ih hv hk'
          simp only [Tab.keys, List.mem_map, List.mem_filter, List.mem_cons] at hrest ⊢
          obtain ⟨e, ⟨he, hp⟩, rfl⟩ := hrest
          exact ⟨e, ⟨Or.inr he, hp⟩, rfl⟩

theorem Tab.keys_mapVals {α : Type} {f : α → α} {p : α → Bool} (hf : ∀ x, p (f x) = p x) (t : List (Nat × α)) :
    Tab.keys (Tab.mapVals f t) p = Tab.keys t p := by
  simp only [Tab.keys, Tab.mapVals, List.filter_map, List.map_map]
  congr 1
  exact List.filter_congr fun e _ => hf e.2

/-- What a change of clocks marks in a stream of one of the contexts `os` (R61). -/
def Strm.clkFlagged (os : List Nat) (x : Strm) : Strm :=
  match x.ctx with
  | some o => if os.contains o then x.flagOpen .clkChg else x
  | none => x

theorem Strm.ctx_clkFlagged (os : List Nat) (x : Strm) : (x.clkFlagged os).ctx = x.ctx := by
  unfold Strm.clkFlagged
  split
  · split <;> rfl
  · rfl

theorem Strm.stopping_clkFlagged (os : List Nat) (x : Strm) : (x.clkFlagged os).stopping = x.stopping := by
  unfold Strm.clkFlagged
  split
  · split <;> rfl
  · rfl

theorem State.streams_markClkChg (s : State) (f : Nat) : ∃ os, (s.markClkChg f).streams = Tab.mapVals (Strm.clkFlagged os) s.streams := by
  unfold State.markClkChg
  extract_lets s1 os
  rw [← (State.unalign_keeps (Nat.and_self _) s f (Keeps.refl _ s)).streams_eq]
  exact ⟨os, rfl⟩

/-- A stream of context `o` that runs, with no stop in force (R313). -/
def State.RunsOn (s : State) (o st : Nat) : Prop := st ∈ s.ctxStreams o ∧ (s.strm st).stopping = false

/-- What BINDs change of contexts, groups and streams: the bound ports of a context, no mask, and no stream's course. -/
structure SameRun (s t : State) : Prop where
  ports : SameButPorts s t
  masked : ∀ i, (t.group i).masked = (s.group i).masked
  runs : ∀ o st, s.RunsOn o st → t.RunsOn o st

namespace SameRun

theorem refl (s : State) : SameRun s s := ⟨.of_ctx fun _ => rfl, fun _ => rfl, fun _ _ h => h⟩

theorem trans (h : SameRun s t) (h' : SameRun t u) : SameRun s u :=
  ⟨h.ports.trans h'.ports, fun i => (h'.masked i).trans (h.masked i), fun o st hr => h'.runs o st (h.runs o st hr)⟩

theorem foldl {α : Type} {f : State → α → State} (hf : ∀ s x, SameRun s (f s x)) (l : List α) (s : State) : SameRun s (l.foldl f s) := by
  induction l generalizing s with
  | nil => exact refl s
  | cons x l ih => exact (hf s x).trans (ih _)

theorem of_keeps {w : Nat} (h : Keeps w s t) (hc : w.testBit Zone.ctxs.ctorIdx = false := by rfl)
    (hg : w.testBit Zone.groups.ctorIdx = false := by rfl) (hs : w.testBit Zone.streams.ctorIdx = false := by rfl) : SameRun s t where
  ports := .of_keeps h hc
  masked := fun i => by rw [h.group_eq i hg]
  runs := fun o st hr => by
    unfold State.RunsOn State.ctxStreams at hr ⊢
    rwa [h.streams_eq hs, h.strm_eq st hs]

theorem markClkChg (s : State) (f : Nat) : SameRun s (s.markClkChg f) := by
  have hk := State.markClkChg_keeps (Nat.and_self _) s f (Keeps.refl _ s)
  refine ⟨.of_keeps hk, fun i => by rw [hk.group_eq i], fun o st hr => ?_⟩
  obtain ⟨os, hos⟩ := State.streams_markClkChg s f
  obtain ⟨hmem, hstop⟩ := hr
  refine ⟨?_, ?_⟩
  · rw [State.ctxStreams, hos, Tab.keys_mapVals fun x => by rw [Strm.ctx_clkFlagged]]
    exact hmem
  · rw [State.strm, hos, Tab.get_mapVals {} (Strm.clkFlagged os) rfl, Strm.stopping_clkFlagged]
    exact hstop

theorem retarget (s : State) (f : Nat) (fn : B16) : SameRun s (s.retarget f fn) := by
  unfold State.retarget
  extract_lets x e up s1 wait s2
  have h2 : SameRun s s2 := by
    simp only [s2, s1]
    split <;> exact ⟨.of_ctx fun _ => rfl, fun _ => rfl, fun _ _ h => h⟩
  clear_value s2
  split
  · exact refl s
  · split
    · exact h2
    · exact h2.trans (markClkChg s2 f)

theorem retargetAll (s : State) : SameRun s s.retargetAll := foldl (fun s f => retarget s f 0xFFFF) _ _

theorem yRequest (s : State) (p : Nat) : SameRun s (s.yRequest p) where
  ports := .of_keeps (State.yRequest_keeps (Nat.and_self _) s p (Keeps.refl _ s))
  masked := fun i => State.masked_request s _ _ i
  runs := fun o st hr => by
    have hk := State.yRequest_keeps (Nat.and_self _) s p (Keeps.refl _ s)
    unfold State.RunsOn State.ctxStreams at hr ⊢
    rwa [hk.streams_eq, hk.strm_eq st]

theorem modYport (s : State) (p : Nat) (f : Yport → Yport) : SameRun s (s.modYport p f) := ⟨.of_ctx fun _ => rfl, fun _ => rfl, fun _ _ h => h⟩

theorem tryBind (s : State) (p : Nat) : SameRun s (s.tryBind p) := by
  unfold State.tryBind
  extract_lets y old s1
  split
  · next o b l _ _ _ =>
    extract_lets want s2 s3 s4
    split
    · exact refl s
    · have h2 : SameRun s1 s2 := ⟨SameButPorts.modRunning s1 o (· ++ [p]), fun _ => rfl, fun _ _ h => h⟩
      have h1 : SameRun s s1 := modYport s p fun _ => { y with bound := true, align := [], probes := [] }
      have h3 : SameRun s2 s3 := of_keeps (State.log_keeps (Nat.and_self _) s2 _ _ _ _ _ _ (Keeps.refl _ s2))
      clear_value s3 s2 s1
      have h4 : SameRun s3 s4 := by
        simp only [s4]
        split
        · exact (of_keeps (State.logCap_keeps (Nat.and_self _) s3 old 3 true (Keeps.refl _ s3))).trans (retargetAll _)
        · exact refl s3
      clear_value s4
      exact (((h1.trans h2).trans h3).trans h4).trans (yRequest s4 p)
  · exact refl s

theorem sendBind (s : State) (p o : Nat) : SameRun s (s.sendBind p o) := by
  unfold State.sendBind
  split
  · exact refl s
  · split
    · exact refl s
    · extract_lets s1
      have h1 : SameRun s s1 := of_keeps (State.queueSpore_keeps (Nat.and_self _) s p _ _ _ (Keeps.refl _ s))
      clear_value s1
      exact (h1.trans (modYport s1 p _)).trans (tryBind _ p)

theorem bindPorts (s : State) (o : Nat) : SameRun s (s.bindPorts o) := foldl (fun s p => sendBind s p o) _ s

theorem startClass (s : State) (sts : List Nat) (cls : Option Nat) : SameRun s (s.startClass sts cls) where
  ports := .of_ctx fun _ => rfl
  masked := fun _ => rfl
  runs := fun o st hr => by
    obtain ⟨hmem, hstop⟩ := hr
    have hkeys : ∀ t : Tab Strm, st ∈ Tab.keys t (fun x => x.ctx == some o) →
        st ∈ Tab.keys (Tab.upd {} (fun x : Strm => { x with runClass := cls }) t sts) (fun x => x.ctx == some o) := by
      unfold Tab.upd
      induction sts with
      | nil => exact fun t h => h
      | cons i l ih => exact fun t h => ih _ (Tab.mem_keys_set (fun h => h) h)
    exact ⟨hkeys s.streams hmem, (Tab.get_upd_same (f := fun x : Strm => { x with runClass := cls }) (g := Strm.stopping) (fun _ => rfl) s.streams sts st).trans hstop⟩

theorem eclosionReply (s : State) (o : Nat) (c : Ctx) (e : Eclosion) : SameRun s (s.eclosionReply o c e) :=
  of_keeps (State.eclosionReply_keeps (Nat.and_self _) s o c e (Keeps.refl _ s))

end SameRun

-- The start.

theorem State.asserted_maskGroup (s : State) (g : Nat) : ((s.maskGroup g).group g).asserted = false := by
  unfold State.maskGroup
  extract_lets was s1
  have h1 : (s1.group g).asserted = false := by
    simp only [s1, State.modGroup_eq, State.group_setGroup, Group.release]
    split
    · rfl
    · next h => exact Bool.eq_false_iff.2 h
  clear_value s1
  rw [(State.unfreezeGroup_keeps (Nat.and_self _) _ g (Keeps.refl _ _)).group_eq g]
  split
  · rw [(State.stallChanged_keeps (Nat.and_self _) s1 g (Keeps.refl _ s1)).group_eq g, h1]
  · exact h1

theorem State.epoch_maskGroup (s : State) (g i : Nat) : (s.maskGroup g).epoch i = s.epoch i :=
  (State.maskGroup_keeps (Nat.and_self _) s g (Keeps.refl _ s)).epoch_eq i

/-- What Seal, Broadcast and Commit leave of context `o` (Table 12-8). -/
theorem State.seal_spec (s : State) (o : Nat) (c : Ctx) (e : Eclosion) :
    (∃ c', (s.seal o c e).ctx o = some c' ∧ c'.state = .eclosing ∧ c'.ecl.any (fun z => z.started) = true) ∧
      (s.seal o c e).epoch o = s.epoch o + 1 ∧ ((s.seal o c e).group o).masked = true ∧ ((s.seal o c e).group o).asserted = false := by
  unfold State.seal
  extract_lets s1 s2 s3 s4 s5 place p fresh s6 s7 s8 s9
  have h1 : (s1.group o).masked = true ∧ (s1.group o).asserted = false ∧ s1.epoch o = s.epoch o :=
    ⟨State.masked_maskGroup .., State.asserted_maskGroup .., State.epoch_maskGroup ..⟩
  have h4 : s4.group o = s1.group o ∧ s4.epoch o = s1.epoch o + 1 := ⟨rfl, State.epoch_setEpoch ..⟩
  clear_value s4 s1
  have h7 : s7.group o = s4.group o ∧ s7.epoch o = s4.epoch o ∧ s7.ctx o = some { c with
      state := .eclosing, ecl := some { e with started := true, place := p }, place := p, trims := [], bindEpoch := c.bindEpoch + 1
      models := if fresh then Tab.mapVals (fun m : ModelSt => { running := m.running }) c.models else c.models, ueFault := [] } :=
    ⟨rfl, rfl, State.ctx_setCtx ..⟩
  have h9 : s9.group o = s7.group o ∧ s9.epoch o = s7.epoch o ∧ s9.ctx o = s7.ctx o := by
    simp only [s9]
    split <;> exact ⟨rfl, rfl, rfl⟩
  clear_value s9 s7
  have hk := State.setOrigins_keeps (Nat.and_self _) s9 o (Keeps.refl _ s9)
  rw [hk.ctx_eq o, hk.epoch_eq o, hk.group_eq o, h9.1, h9.2.1, h9.2.2, h7.1, h7.2.1, h7.2.2, h4.1, h4.2, h1.2.2]
  exact ⟨⟨_, rfl, rfl, rfl⟩, rfl, h1.1, h1.2.1⟩

/-- An arbiter that is set to itself is held by the same input. -/
theorem State.holdArb_setArb {a : ArbId} {i : Nat} (h : s.holdArb a i = some u) :
    ∃ x, (s.setArb (arbCode a) (s.arb (arbCode a))).holdArb a i = some ((s.setArb (arbCode a) (s.arb (arbCode a))).setArb (arbCode a) x) := by
  unfold State.holdArb at h ⊢
  obtain ⟨x, hx, -⟩ := Option.map_eq_some_iff.1 h
  have hlimit : (s.setArb (arbCode a) (s.arb (arbCode a))).waitLimit a = s.waitLimit a := by
    cases a <;> rfl
  rw [State.arb_setArb, hlimit, hx]
  exact ⟨x, rfl⟩

theorem eclosionStart_of_due {o : Nat} {c : Ctx} {e : Eclosion} (hc : s.ctx o = some c) (he : c.ecl = some e) (hnew : e.started = false)
    (hdue : e.due = true) (hone : ∀ x ∈ s.ctxs, ∀ y, x.2 = some y → y.ecl.any (fun z => z.started) = false) (hclk : (s.field 0).down = false)
    (hfree : (s.arb (arbCode .broadcast)).holder = none) (hhold : s.holdArb .broadcast o = some u) :
    ∃ n x y, eclosionStart o s = ((s.setArb n x).setArb n y).seal o c e := by
  obtain ⟨y, hy⟩ := State.holdArb_setArb hhold
  have hsame : s.modArb (arbCode .broadcast) (fun x => if x.holder == some o || x.holder.isNone then x else x.free) =
      s.setArb (arbCode .broadcast) (s.arb (arbCode .broadcast)) := by
    rw [State.modArb_eq, if_pos (by simp [hfree])]
  have hheld : s.ctxs.any (fun x : Nat × Option Ctx => match x.2 with
      | some y => y.ecl.any (fun z : Eclosion => z.started) | none => false) = false := by
    rw [List.any_eq_false]
    intro x hx
    split
    · next z hz => rw [hone x hx z hz]; decide
    · decide
  refine ⟨arbCode .broadcast, s.arb (arbCode .broadcast), y, ?_⟩
  unfold eclosionStart
  extract_lets s1 held s2
  have hs1 : s1 = s := by
    simp only [s1, hc]
    exact if_neg (by simp [he])
  have hheld' : held = false := by
    simp only [held, hs1]
    exact hheld
  have hs2 : s2 = s.setArb (arbCode .broadcast) (s.arb (arbCode .broadcast)) := by
    simp only [s2, hs1]
    exact hsame
  clear_value s2 held s1
  subst hs1
  rw [hc]
  dsimp -zeta only
  rw [he]
  refine (if_neg (by simp [hnew, hdue, hheld', hclk])).trans ?_
  rw [hs2, hy]

-- The end.

theorem Tab.get_upd_of_not_mem {α : Type} {d : α} (f : α → α) (t : List (Nat × α)) {l : List Nat} {i : Nat} (hi : i ∉ l) :
    Tab.get d (Tab.upd d f t l) i = Tab.get d t i := by
  unfold Tab.upd
  induction l generalizing t with
  | nil => rfl
  | cons k l ih =>
    rw [List.mem_cons, not_or] at hi
    rw [List.foldl_cons, ih _ hi.2, Tab.get_set, if_neg (Ne.symm hi.1)]

/-- The units of a placement as Open leaves them: at their first word, with empty queues. -/
theorem State.openSites_spec (s : State) (o : Nat) (c : Ctx) (sites : List Nat) (b : Bool) :
    (∀ i ∈ sites, ((s.openSites o c sites b).unit i).pc = 0 ∧ ((s.openSites o c sites b).unit i).queues = [] ∧
      ((s.openSites o c sites b).unit i).halted = false) ∧ ((s.openSites o c sites b).group o).masked = false := by
  unfold State.openSites
  extract_lets rest s1 s2 s3
  refine ⟨fun i hi => ?_, congrArg Group.masked (State.group_setGroup ..)⟩
  have hopen : (s1.unit i).pc = 0 ∧ (s1.unit i).queues = [] ∧ (s1.unit i).halted = false :=
    Tab.get_upd_of_mem (f := Unit.open) (P := fun u : Machine.Unit => u.pc = 0 ∧ u.queues = [] ∧ u.halted = false) (fun _ => ⟨rfl, rfl, rfl⟩) _ hi
  have hrest : i ∉ rest := by simp [rest, hi]
  have h2 : s2.unit i = s1.unit i := Tab.get_upd_of_not_mem (fun u : Machine.Unit => if b then { u.open with hasProg := false } else u.release) s1.units hrest
  have h3 : (s3.modGroup o fun g => { g with masked := false }).unit i = s2.unit i := rfl
  rw [h3, h2]
  exact hopen

/-- The record of a context whose eclosion `e` has ended. -/
def Ctx.eclosed (c : Ctx) (e : Eclosion) (live : Bool) : Ctx :=
  { c with state := if live then .running else .cocoon, opened := true, ecl := none
           region := if 2 ≤ e.kind then c.region else c.place.map.map (fun x => x.2), cause := 0 }

/-- The machine once Open is over, before what waited for it. -/
def State.opened (s : State) (o : Nat) (c : Ctx) (e : Eclosion) (live : Bool) : State :=
  let sts := ((s.openSites o c (c.place.map.map (fun x => x.2)) (decide (2 ≤ e.kind))).freeArb .broadcast o).ctxStreams o
  let s := ((s.openSites o c (c.place.map.map (fun x => x.2)) (decide (2 ≤ e.kind))).freeArb .broadcast o).setCtx o (some (c.eclosed e live))
  let s := s.log .eclosionDone 16 c.fn o (packBits [(8, c.place.slot), (8, (s.epoch o).toNat), (8, e.kind)])
  ((s.startClass sts e.cls).bindPorts o).eclosionReply o c e

theorem eclosionDone_of_started {o : Nat} {c : Ctx} {e : Eclosion} {live : Bool} (hc : s.ctx o = some c) (he : c.ecl = some e) (hst : e.started = true)
    (hlive : live = (s.ctxStreams o).any (fun st => (s.strm st).started)) :
    eclosionDone o s = if live then ((s.opened o c e live).checkStopping o).afterOpen o else (s.opened o c e live).afterOpen o := by
  subst hlive
  unfold eclosionDone
  rw [hc]
  dsimp -zeta only
  rw [he]
  exact if_neg (by simp [hst])

/-- What the end of an eclosion leaves of the units, the group, the context and its streams. -/
theorem State.opened_spec (s : State) (o : Nat) (c : Ctx) (e : Eclosion) (live : Bool) :
    (∀ i ∈ c.place.map.map (fun x => x.2), ((s.opened o c e live).unit i).pc = 0 ∧ ((s.opened o c e live).unit i).queues = [] ∧
      ((s.opened o c e live).unit i).halted = false) ∧ ((s.opened o c e live).group o).masked = false ∧
    (∃ ports, (s.opened o c e live).ctx o = some { c.eclosed e live with boundPorts := ports }) ∧
    ∀ st, s.RunsOn o st → (s.opened o c e live).RunsOn o st := by
  obtain ⟨hunits, hmask⟩ := State.openSites_spec s o c (c.place.map.map (fun x => x.2)) (decide (2 ≤ e.kind))
  unfold State.opened
  extract_lets sts s1 s2
  have h2 : s2.ctx o = some (c.eclosed e live) ∧ s2.group o = (s.openSites o c (c.place.map.map (fun x => x.2)) (decide (2 ≤ e.kind))).group o ∧
      s2.streams = s.streams ∧ s2.units = (s.openSites o c (c.place.map.map (fun x => x.2)) (decide (2 ≤ e.kind))).units :=
    ⟨State.ctx_setCtx .., rfl, rfl, rfl⟩
  clear_value s2 s1 sts
  obtain ⟨hctx2, hgroup2, hstr2, hunit2⟩ := h2
  have hrun := ((SameRun.startClass s2 sts e.cls).trans (SameRun.bindPorts _ o)).trans (SameRun.eclosionReply _ o c e)
  have hunit : ∀ i, (((s2.startClass sts e.cls).bindPorts o).eclosionReply o c e).unit i = s2.unit i := fun i =>
    ((State.eclosionReply_keeps (Nat.and_self _) _ o c e (Keeps.refl _ _)).unit_eq i).trans
      ((State.bindPorts_keeps (Nat.and_self _) _ o (Keeps.refl _ _)).unit_eq i)
  refine ⟨fun i hi => ?_, (hrun.masked o).trans (by rw [hgroup2, hmask]), hrun.ports o _ hctx2, fun st hr => hrun.runs o st ?_⟩
  · rw [hunit, State.unit, hunit2]
    exact hunits i hi
  · unfold State.RunsOn State.ctxStreams State.strm at hr ⊢
    rwa [hstr2]

theorem State.afterOpen_of_none {o : Nat} {c : Ctx} (hc : s.ctx o = some c) (hnone : c.abortPend = none) : s.afterOpen o = s := by
  unfold State.afterOpen
  rw [hc]
  dsimp only
  rw [hnone]

theorem State.checkStopping_of_running {o st : Nat} (hr : s.RunsOn o st) : s.checkStopping o = s := by
  obtain ⟨hmem, hstop⟩ := hr
  unfold State.checkStopping
  split
  · rfl
  · have hall : ((s.ctxStreams o).all fun st => (s.strm st).stopping) = false := by
      rw [List.all_eq_false]
      exact ⟨st, hmem, by rw [hstop]; decide⟩
    rw [hall, Bool.and_false, if_neg Bool.false_ne_true]

/-- Settles O33. -/
theorem contextsEclose : Obligations.ContextsEclose := by
  unfold Obligations.ContextsEclose
  refine ⟨fun o c e s u hc he hnew hdue hone hclk hfree hhold => ?_, fun o s hfree hreqs => ?_, fun o c e s hc he hst hab hstop => ?_,
    fun o st c e s hc he hst hab hmem hon hnext hnow => ?_⟩
  · obtain ⟨n, x, y, heq⟩ := eclosionStart_of_due hc he hnew hdue hone hclk hfree hhold
    obtain ⟨⟨c', hc', hstate, hecl⟩, hepoch, hmasked, hasserted⟩ := State.seal_spec ((s.setArb n x).setArb n y) o c e
    exact ⟨_, c', congrArg Host.Outcome.next heq, hc', hstate, hecl, hepoch, hmasked, hasserted⟩
  · obtain ⟨b, hb⟩ := Arbiter.take_of_lone (limit := s.waitLimit .broadcast) (inputs := arbInputs .broadcast) hfree hreqs o.isLt
    exact ⟨_, by rw [State.holdArb, hb]; rfl⟩
  · have hlive : false = (s.ctxStreams o).any fun st => (s.strm st).started := (List.any_eq_false.2 fun st h => by simp [hstop st h]).symm
    obtain ⟨hunits, hmask, ⟨ports, hctx⟩, -⟩ := State.opened_spec s o c e false
    have hdone := (eclosionDone_of_started hc he hst hlive).trans (if_neg Bool.false_ne_true)
    rw [State.afterOpen_of_none hctx hab] at hdone
    exact ⟨_, _, congrArg Host.Outcome.next hdone, hctx, rfl, rfl, rfl, rfl, hunits, hmask⟩
  · have hlive : true = (s.ctxStreams o).any fun st => (s.strm st).started := (List.any_eq_true.2 ⟨st, hmem, hon⟩).symm
    obtain ⟨-, -, ⟨ports, hctx⟩, hruns⟩ := State.opened_spec s o c e true
    have hdone := (eclosionDone_of_started hc he hst hlive).trans (if_pos rfl)
    rw [State.checkStopping_of_running (hruns st ⟨hmem, by simp [Strm.stopping, hon, hnext, hnow]⟩), State.afterOpen_of_none hctx hab] at hdone
    exact ⟨_, _, congrArg Host.Outcome.next hdone, hctx, rfl, rfl, rfl⟩

end Sys2Proof.Machine

/-! Tree evaluations start and post, and scenes are latched (R112, R238-R249). -/

namespace Sys2Proof.Machine
set_option Elab.async false
variable {s t u : State}

-- A flit made by the model passes the tag check of its unit (R126).

theorem tagSyndromeBits_lt (tag : BitVec 48) : tagSyndromeBits tag < 64 := by
  have h : ∀ k, (if tagCheckBit tag k then 2 ^ k else 0) ≤ 2 ^ k := fun k => by split <;> simp
  have h0 := h 0; have h1 := h 1; have h2 := h 2; have h3 := h 3; have h4 := h 4; have h5 := h 5
  simp only [tagSyndromeBits, List.range, List.range.loop, List.foldl_cons, List.foldl_nil]
  omega

theorem tagDecode_tagCode (tag : BitVec 48) : tagDecode tag (tagCode tag) = .good ∨ tagDecode tag (tagCode tag) = .fixed tag := by
  have hlow : (tagCode tag).toNat % 64 = tagSyndromeBits tag := by
    have hlt := tagSyndromeBits_lt tag
    simp only [tagCode, BitVec.toNat_ofNat]
    split <;> omega
  unfold tagDecode
  rw [hlow]
  extract_lets c p
  rw [if_pos (show c = 0 from Nat.xor_self _)]
  split
  · exact Or.inr rfl
  · exact Or.inl rfl

theorem flitKind_mkFlit (st f8 line chan chunk : Nat) (ep : BitVec 2) (pay : BitVec 256) :
    flitKind (mkFlit kData st f8 line chan chunk ep pay) = 1 := by
  simp only [flitKind, mkFlit, bits, packBits, kData, BitVec.toNat_ofNat]
  omega

theorem arrive_of_good {e : BitVec 2} {f : Flit} (hd : tagDecode f.tag f.chk = .good ∨ tagDecode f.tag f.chk = .fixed f.tag) (hkind : flitKind f = 1) :
    arrive e .clean f ≠ .tagUe := by
  unfold arrive
  split
  · nofun
  · rw [if_neg (by decide)]
    generalize tagDecode f.tag f.chk = d at hd
    have hgood : ∀ g fixed, flitKind g = 1 → (if 5 ≤ flitKind g then Arrival.tagUe else if flitKind g = kBubble then .bubble
        else if flitEpoch g != e.toNat then .stale else if flitKind g = kPoison then .poison
        else .take (if payParity g.pay == g.par then g else { g with pay := 0, par := 0 }) fixed !(payParity g.pay == g.par)) ≠ .tagUe := by
      intro g fixed hg
      rw [hg, if_neg (by decide)]
      repeat' split
      all_goals nofun
    have hfix : ∀ c : BitVec 7, flitKind { f with tag := f.tag, chk := c } = 1 := fun c => by
      unfold flitKind at hkind ⊢
      exact hkind
    rcases hd with rfl | rfl
    · exact hgood f _ hkind
    · exact hgood _ _ (hfix (tagCode f.tag))

theorem arrive_mkFlit (e ep : BitVec 2) (st f8 line chan chunk : Nat) (pay : BitVec 256) :
    arrive e .clean (mkFlit kData st f8 line chan chunk ep pay) ≠ .tagUe := by
  have hkind := flitKind_mkFlit st f8 line chan chunk ep pay
  have hchk : (mkFlit kData st f8 line chan chunk ep pay).chk = tagCode (mkFlit kData st f8 line chan chunk ep pay).tag := rfl
  generalize mkFlit kData st f8 line chan chunk ep pay = f at hkind hchk
  have hd := tagDecode_tagCode f.tag
  rw [← hchk] at hd
  exact arrive_of_good hd hkind

theorem Unit.queues_histogram (u : Machine.Unit) (chan : Nat) (u8 : Bool) (codes : List Nat) : (u.histogram chan u8 codes).queues = u.queues := by
  unfold Unit.histogram
  split <;> rfl

-- A state whose contexts stand, and whose queues at a unit are no longer (R286).

/-- Steps at a unit that put no context in FAULT and lengthen none of its input queues. -/
structure Calm (site : Nat) (s t : State) : Prop where
  ctxs : t.ctxs = s.ctxs
  modes : t.modes = s.modes
  queues : ∀ q, (Tab.get [] (t.unit site).queues q).length ≤ (Tab.get [] (s.unit site).queues q).length

namespace Calm
variable {site : Nat}

theorem refl (site : Nat) (s : State) : Calm site s s := ⟨rfl, rfl, fun _ => le_rfl⟩

theorem trans (h : Calm site s t) (h' : Calm site t u) : Calm site s u :=
  ⟨h'.ctxs.trans h.ctxs, h'.modes.trans h.modes, fun q => (h'.queues q).trans (h.queues q)⟩

theorem of_quiet (h : Quiet site s t) : Calm site s t where
  ctxs := h.ctxs
  modes := h.modes
  queues := fun q => by
    obtain ⟨m, hm⟩ := h.unit
    rw [hm]
    exact le_rfl

theorem of_keeps {w : Nat} (h : Keeps w s t) (hc : w.testBit Zone.ctxs.ctorIdx = false := by rfl)
    (hm : w.testBit Zone.modes.ctorIdx = false := by rfl) (hu : w.testBit Zone.units.ctorIdx = false := by rfl) : Calm site s t :=
  ⟨h.ctxs_eq hc, h.modes_eq hm, fun q => by rw [h.unit_eq site hu]⟩

theorem setUnit (s : State) (v : Machine.Unit) (h : ∀ q, (Tab.get [] v.queues q).length ≤ (Tab.get [] (s.unit site).queues q).length) :
    Calm site s (s.setUnit site v) :=
  ⟨rfl, rfl, fun q => by rw [State.unit_setUnit]; exact h q⟩

theorem foldl {α : Type} {f : State → α → State} (hf : ∀ s x, (s.modes.hazard && s.modes.hazFault) = false → Calm site s (f s x)) (l : List α)
    (hlog : (s.modes.hazard && s.modes.hazFault) = false) : Calm site s (l.foldl f s) := by
  induction l generalizing s with
  | nil => exact refl site s
  | cons x l ih =>
    have h := hf s x hlog
    exact h.trans (ih (h.modes ▸ hlog))

theorem hazard (hlog : (s.modes.hazard && s.modes.hazFault) = false) (kind st f8 line : Nat) : Calm site s (s.hazard site kind st f8 line) :=
  of_quiet (State.quiet_hazard hlog kind st f8 line none)

theorem fillLanes (hlog : (s.modes.hazard && s.modes.hazFault) = false) : Calm site s (s.fillLanes site) := by
  unfold State.fillLanes
  extract_lets u v s1
  obtain ⟨l, hfill, -⟩ := Unit.fill_lanes 512 u
  have h1 : Calm site s s1 := setUnit s v fun q => by
    rw [show v = u.withLanes l from hfill]
    exact le_rfl
  refine h1.trans (foldl (fun s x hlog => ?_) _ hlog)
  extract_lets was now
  split
  · split
    · exact hazard hlog _ _ _ _
    · exact refl site s
  · exact refl site s

theorem toLane (hlog : (s.modes.hazard && s.modes.hazFault) = false) (lane : Nat) (fs : List Flit) : Calm site s (s.toLane site lane fs) := by
  unfold State.toLane
  have h1 : Calm site s (s.modUnit site (fun u => { u with pipe := u.pipe ++ fs.map (fun f => (lane, f)) })) := setUnit s _ fun q => le_rfl
  exact h1.trans (fillLanes (h1.modes ▸ hlog))

theorem sendAs (hlog : (s.modes.hazard && s.modes.hazFault) = false) (lane kd st f8 line chan chunk : Nat) (zo : Int) (u8 : Bool) (codes : List Nat) :
    Calm site s (s.sendAs site lane kd st f8 line chan chunk zo u8 codes) := by
  unfold State.sendAs
  extract_lets u f
  clear_value f
  have h1 : Calm site s (s.modUnit site (fun u => u.histogram (flitChan f) u8 codes)) :=
    setUnit s ((s.unit site).histogram (flitChan f) u8 codes) fun q =>
      le_of_eq (congrArg (fun x => (Tab.get [] x q).length) (Unit.queues_histogram (s.unit site) (flitChan f) u8 codes))
  exact h1.trans (toLane (h1.modes ▸ hlog) lane [f])

end Calm

theorem Unit.length_rotTake (n : Nat) (u : Machine.Unit) (q : Nat) :
    (Tab.get [] (Unit.rotTake n u).queues q).length ≤ (Tab.get [] u.queues q).length := by
  induction n generalizing u with
  | zero => exact le_rfl
  | succ n ih =>
    rw [Unit.rotTake]
    split
    · exact le_rfl
    · next r hr =>
      split
      · exact le_rfl
      · split
        · exact le_rfl
        · next j hj =>
          extract_lets l
          split
          · exact le_rfl
          · next e he =>
            refine (ih _).trans ?_
            have howe : ∀ x : Machine.Unit, ((x.owe e).relax).queues = x.queues := by
              intro x
              unfold Unit.owe
              split <;> rfl
            rw [howe, Tab.get_set]
            split
            · next hq =>
              subst hq
              exact List.length_eraseIdx_le ..
            · exact le_rfl

theorem Calm.rotRun {site : Nat} (hlog : (s.modes.hazard && s.modes.hazFault) = false) : Calm site s (s.rotRun site) := by
  unfold State.rotRun
  extract_lets v
  have hv : ∀ q, (Tab.get [] v.queues q).length ≤ (Tab.get [] (s.unit site).queues q).length := Unit.length_rotTake 64 (s.unit site)
  clear_value v
  split
  · exact Calm.refl site s
  · next r hr =>
    extract_lets n s1 xs cols u8 zo
    split
    · exact Calm.setUnit s v hv
    · have h1 : Calm site s s1 := Calm.setUnit s _ hv
      clear_value s1
      exact h1.trans (Calm.foldl (fun s x hlog => Calm.sendAs hlog ..) _ (h1.modes ▸ hlog))

theorem Calm.unitCheck {site : Nat} {f : Flit} (o : Nat) (hf : ∀ e, arrive e .clean f ≠ .tagUe) : Calm site s (s.unitCheck site o .clean f).2 := by
  unfold State.unitCheck
  have hmod : ∀ (s : State) (g : Machine.Unit → Machine.Unit), (∀ u, (g u).queues = u.queues) → Calm site s (s.modUnit site g) := fun s g hg =>
    Calm.setUnit s (g (s.unit site)) fun q => le_of_eq (congrArg (fun x => (Tab.get [] x q).length) (hg (s.unit site)))
  have hne := hf (s.epoch o)
  generalize arrive (s.epoch o) Ecc.clean f = a at hne
  cases a with
  | bubble => exact Calm.refl site s
  | tagUe => exact absurd rfl hne
  | stale =>
    have h1 := hmod s (fun u => { u with epochDisc := sat32 u.epochDisc 1 }) fun _ => rfl
    exact h1.trans (.of_keeps (State.logSite_keeps (Nat.and_self _) _ _ _ _ _ _ _ _ (Keeps.refl _ _)))
  | poison =>
    have h1 := hmod s (fun u => { u with poisonDisc := sat32 u.poisonDisc 1 }) fun _ => rfl
    exact h1
  | take g fixed par =>
    dsimp -zeta only
    extract_lets s1
    have h1 : Calm site s s1 := by
      simp only [s1]
      split
      · exact hmod s (fun u => { u with tagCe := sat32 u.tagCe 1 }) fun _ => rfl
      · exact Calm.refl site s
    clear_value s1
    refine h1.trans ?_
    dsimp only
    split
    · exact .of_keeps (State.parErr_keeps (Nat.and_self _) s1 site o g (Keeps.refl _ s1))
    · exact Calm.refl site s1

/-- A flit enters an input queue with room: the contexts stand, and the queue is longer by one at most. -/
theorem State.unitEnter_calm {site q o : Nat} {f : Flit} (hf : ∀ e, arrive e .clean f ≠ .tagUe)
    (hlog : (s.modes.hazard && s.modes.hazFault) = false) (hroom : (Tab.get [] (s.unit site).queues q).length < 64) :
    (s.unitEnter site q o .clean f none).ctxs = s.ctxs ∧ (s.unitEnter site q o .clean f none).modes = s.modes ∧
      (Tab.get [] ((s.unitEnter site q o .clean f none).unit site).queues q).length ≤ (Tab.get [] (s.unit site).queues q).length + 1 := by
  unfold State.unitEnter
  extract_lets u own
  have hcheck : Calm site s (s.unitCheck site own .clean f).2 := Calm.unitCheck own hf
  generalize s.unitCheck site own .clean f = r at hcheck
  obtain ⟨g, s1⟩ := r
  cases g with
  | none => exact ⟨hcheck.ctxs, hcheck.modes, (hcheck.queues q).trans (Nat.le_succ _)⟩
  | some g =>
    dsimp -zeta only
    extract_lets u1 l st f8 s2 s3 haz s4 s5 s6 s7
    have hl : l.length ≤ (Tab.get [] (s.unit site).queues q).length := hcheck.queues q
    rw [if_neg (by omega)]
    have hlog1 : (s1.modes.hazard && s1.modes.hazFault) = false := hcheck.modes ▸ hlog
    have h2 : s2.ctxs = s1.ctxs ∧ s2.modes = s1.modes ∧ (Tab.get [] (s2.unit site).queues q).length = l.length + 1 :=
      ⟨rfl, rfl, by
        rw [show s2.unit site = u1.enqueue q { flit := g, ex := none } from State.unit_setUnit .., Unit.enqueue]
        simp [l]⟩
    have h3 : Calm site s2 s3 := by
      simp only [s3]
      split
      · exact .of_keeps (State.enterTrims_keeps (Nat.and_self _) s2 site st f8 (Keeps.refl _ s2))
      · exact Calm.refl site s2
    have hhaz : ∀ s k c, (s.modes.hazard && s.modes.hazFault) = false → Calm site s (haz s k c) := by
      intro s k c hlog
      simp only [haz]
      split
      · exact Calm.hazard hlog _ _ _ _
      · exact Calm.refl site s
    clear_value haz
    have h7 : Calm site s2 s7 := by
      have h4 : Calm site s3 s4 := hhaz s3 3 _ (h3.modes ▸ h2.2.1 ▸ hlog1)
      have h34 := h3.trans h4
      have h5 : Calm site s4 s5 := hhaz s4 5 _ (h34.modes ▸ h2.2.1 ▸ hlog1)
      have h35 := h34.trans h5
      have h6 : Calm site s5 s6 := hhaz s5 6 _ (h35.modes ▸ h2.2.1 ▸ hlog1)
      have h36 := h35.trans h6
      exact h36.trans (hhaz s6 7 _ (h36.modes ▸ h2.2.1 ▸ hlog1))
    clear_value s7
    have hend : Calm site s2 (if s7.mayIssue site then s7.rotRun site else s7) := by
      split
      · exact h7.trans (Calm.rotRun (h7.modes ▸ h2.2.1 ▸ hlog1))
      · exact h7
    have hq := hend.queues q
    rw [h2.2.2] at hq
    exact ⟨hend.ctxs.trans (h2.1.trans hcheck.ctxs), hend.modes.trans (h2.2.1.trans hcheck.modes), hq.trans (Nat.succ_le_succ hl)⟩

/-- A feature vector goes to a unit's queue only with room for all of it (R112), and no context falls. -/
theorem State.ctxs_sendFeatures {o site st f8 : Nat} {vec : List Nat} (hlog : (s.modes.hazard && s.modes.hazFault) = false) :
    (s.sendFeatures o site st f8 vec).ctxs = s.ctxs ∧ (s.sendFeatures o site st f8 vec).modes = s.modes := by
  unfold State.sendFeatures
  extract_lets n u
  split
  · exact ⟨rfl, rfl⟩
  · next hroom =>
    have hroom' : (Tab.get [] (s.unit site).queues 0).length + (List.range n).length ≤ 64 := by
      simp only [Bool.or_eq_true, decide_eq_true_eq, not_or, Nat.not_lt] at hroom
      rw [List.length_range]
      exact hroom.2
    clear hroom
    generalize List.range n = l at hroom'
    induction l generalizing s with
    | nil => exact ⟨rfl, rfl⟩
    | cons i l ih =>
      rw [List.foldl_cons]
      rw [List.length_cons] at hroom'
      have hstep := State.unitEnter_calm (site := site) (q := 0) (o := o)
        (f := mkFlit kData st f8 0 i 0 (s.epoch o) (BitVec.ofNat 256 (packBits ((List.range 16).map (fun j => (16, vec.getD (16 * i + j) 0x7E00))))))
        (fun e => arrive_mkFlit e _ _ _ _ _ _ _) hlog (by omega)
      obtain ⟨hctxs, hmodes, hlen⟩ := hstep
      obtain ⟨hctxs', hmodes'⟩ := ih (by rw [hmodes]; exact hlog) (by omega)
      exact ⟨hctxs'.trans hctxs, hmodes'.trans hmodes⟩

theorem State.ctxs_sendFeatures_foldl {o st f8 : Nat} {vec : List Nat} (l : List Nat) (hlog : (s.modes.hazard && s.modes.hazFault) = false) :
    (l.foldl (fun s i => s.sendFeatures o i st f8 vec) s).ctxs = s.ctxs := by
  induction l generalizing s with
  | nil => rfl
  | cons i l ih =>
    obtain ⟨hctxs, hmodes⟩ := State.ctxs_sendFeatures (s := s) (o := o) (site := i) (st := st) (f8 := f8) (vec := vec) hlog
    rw [List.foldl_cons]
    exact (ih (by rw [hmodes]; exact hlog)).trans hctxs

theorem State.ctx_wordRead {o site w : Nat} {e : Ecc} {st f8 line : Nat} {c : Ctx} (hc : s.ctx o = some c) :
    ∃ c', (s.wordRead site w e st f8 line).ctx o = some c' ∧ c'.models = c.models := by
  have hmod : ∀ (s : State) (i : Nat), s.ctx o = some c →
      ∃ c', (s.modRunning i (fun c => { c with ueFault := (st, f8) :: c.ueFault })).ctx o = some c' ∧ c'.models = c.models := by
    intro s i hc
    by_cases hi : i = o
    · subst hi
      exact ⟨{ c with ueFault := (st, f8) :: c.ueFault }, (State.ctx_modRunning ..).trans (by rw [hc]; rfl), rfl⟩
    · exact ⟨c, (State.ctx_setCtx_ne _ _ _ _ hi).trans hc, rfl⟩
  cases e with
  | clean => exact ⟨c, hc, rfl⟩
  | corrected => exact ⟨c, hc, rfl⟩
  | bad =>
    change ∃ c', (s.sramUe site w st f8 line).ctx o = some c' ∧ c'.models = c.models
    unfold State.sramUe
    extract_lets u own s1 s2
    have h2 : s2.ctx o = some c := hc
    clear_value s2
    split
    · split
      · exact hmod s2 _ h2
      · exact ⟨c, h2, rfl⟩
    · split
      · exact hmod s2 _ h2
      · exact ⟨c, h2, rfl⟩
    · exact ⟨c, h2, rfl⟩
    · exact ⟨c, h2, rfl⟩

/-- The evaluation of a frame in the state of its model (R244). -/
def ModelSt.evaluating (p : Nat × B16) (z : List Nat) (d : ModelDecl) (y : ModelSt) : ModelSt :=
  { y with pending := y.pending.filter (fun e => e != p), running := some (p.1, p.2, z, d) }

theorem State.model_modModel {o m : Nat} {f : ModelSt → ModelSt} {c : Ctx} (hc : s.ctx o = some c) :
    ∃ c', (s.modModel o m f).ctx o = some c' ∧ Tab.get {} c'.models m = f (Tab.get {} c.models m) :=
  ⟨_, (State.ctx_modRunning ..).trans (by rw [hc]; rfl), Tab.get_upd_one _ _ _ _⟩

theorem treeEvalStart_of_pending {o m st : Nat} {fseq : B16} {c : Ctx} {d : ModelDecl} {err : Option SramErr} (hc : s.ctx o = some c)
    (hd : c.model m = some d) (hpend : (Tab.get {} c.models m).pending = [(st, fseq)]) (hidle : (Tab.get {} c.models m).running = none)
    (hwarm : ∀ i ∈ d.chain.filterMap c.place.site, (s.unit i).frozen = false) (hlog : (s.modes.hazard && s.modes.hazFault) = false) :
    ∃ c', (treeEvalStart o m err s).ctx o = some c' ∧ (Tab.get {} c'.models m).pending = [] ∧
      (Tab.get {} c'.models m).running = some (st, fseq, (s.spoiled (err.filter fun e => (c.evalSites d).contains e.site)).rawOutputs c d
        ((s.spoiled (err.filter fun e => (c.evalSites d).contains e.site)).assemble c d st fseq), d) := by
  generalize ht : treeEvalStart o m err s = t
  unfold treeEvalStart at ht
  rw [hc] at ht
  dsimp -zeta only at ht
  rw [hd] at ht
  dsimp -zeta only at ht
  extract_lets x sites e seen at ht
  rw [show x.pending = [(st, fseq)] from hpend] at ht
  replace ht := (if_neg (by
    have hany : (sites.any fun i => (s.unit i).frozen) = false := List.any_eq_false.2 fun i hi => by rw [hwarm i hi]; decide
    rw [hany, show x.running = none from hidle]
    decide)).symm.trans ht
  extract_lets p vec z s1 s2 s3 at ht
  have h1 : s1.modes = s.modes ∧ ∃ c', s1.ctx o = some c' ∧ c'.models = c.models := by
    simp only [s1]
    generalize e = e'
    cases e' with
    | some e' => exact ⟨(State.wordRead_keeps (Nat.and_self _) s _ _ _ _ _ _ (Keeps.refl _ s)).modes_eq, State.ctx_wordRead hc⟩
    | none => exact ⟨rfl, c, hc, rfl⟩
  clear_value s1
  obtain ⟨hmodes1, c1, hc1, hmodels1⟩ := h1
  obtain ⟨c2, hc2, hmodel2⟩ : ∃ c', s2.ctx o = some c' ∧ Tab.get {} c'.models m = (Tab.get {} c1.models m : ModelSt).evaluating p z d :=
    State.model_modModel hc1
  have hmodes2 : s2.modes = s.modes := hmodes1
  clear_value s2
  have h3 : s3.ctxs = s2.ctxs := State.ctxs_sendFeatures_foldl sites (hmodes2 ▸ hlog)
  clear_value s3
  refine ⟨c2, ?_, ?_, ?_⟩
  · rw [← ht, (State.doneReading_keeps (Nat.and_self _) s3 o m _ _ (Keeps.refl _ s3)).ctx_eq o, State.ctx, h3]
    exact hc2
  · rw [hmodel2, hmodels1]
    simp [ModelSt.evaluating, hpend, p]
  · rw [hmodel2]
    rfl

-- The results of an evaluation.

theorem State.posted_scenePost (s : State) (i : Nat) (fseq : B16) (p : List Nat) (st : Nat) (h : st ≠ i) :
    (s.scenePost i fseq p).strm st = s.strm st := by
  unfold State.scenePost
  extract_lets x late
  split
  extract_lets n sel s1
  have h1 : s1.strm st = s.strm st := State.strm_setStrm_ne _ _ _ _ h.symm
  clear_value s1
  split
  · exact h1
  · exact h1

theorem State.posted_scenePost_same {st : Nat} {fseq : B16} {p : List Nat} (hhold : (s.strm st).scene.hold = 0)
    (hnew : (s.strm st).runClass ≠ some (topClass p).1) (hsure : lt16 (topClass p).2 (s.strm st).scene.confMin = false) :
    ((s.scenePost st fseq p).strm st).posted = some (fseq, some (topClass p).1) := by
  unfold State.scenePost
  extract_lets x late
  generalize topClass p = top at hnew hsure
  obtain ⟨cls, v⟩ := top
  dsimp -zeta only at hnew hsure ⊢
  extract_lets n sel s1
  have hn : 1 ≤ n := by
    simp only [n]
    split
    · split <;> omega
    · exact le_rfl
  have hsel : sel = some cls := if_neg (by simp [x, hhold, hnew, hsure]; omega)
  have h1 : (s1.strm st).posted = some (fseq, some cls) := by
    rw [← hsel]
    exact congrArg Strm.posted (State.strm_setStrm ..)
  clear_value s1
  split
  · exact h1
  · exact h1

/-- The posted class reaches each stream of the list, and what reaches one leaves the others. -/
theorem State.posted_scenePost_foldl {st : Nat} {fseq : B16} {p l : List Nat} (hl : l.Nodup) (hmem : st ∈ l) (hhold : (s.strm st).scene.hold = 0)
    (hnew : (s.strm st).runClass ≠ some (topClass p).1) (hsure : lt16 (topClass p).2 (s.strm st).scene.confMin = false) :
    ((l.foldl (fun s i => s.scenePost i fseq p) s).strm st).posted = some (fseq, some (topClass p).1) := by
  have hother : ∀ (l : List Nat) (s : State), st ∉ l → (l.foldl (fun s i => s.scenePost i fseq p) s).strm st = s.strm st := by
    intro l
    induction l with
    | nil => exact fun _ _ => rfl
    | cons i l ih =>
      intro s hnot
      rw [List.mem_cons, not_or] at hnot
      rw [List.foldl_cons, ih _ hnot.2, State.posted_scenePost s i fseq p st hnot.1]
  induction l generalizing s with
  | nil => simp at hmem
  | cons i l ih =>
    obtain ⟨hi, hl'⟩ := List.nodup_cons.1 hl
    rw [List.foldl_cons]
    by_cases heq : st = i
    · subst heq
      rw [hother l _ hi]
      exact State.posted_scenePost_same hhold hnew hsure
    · have hsame := State.posted_scenePost s i fseq p st heq
      exact ih hl' ((List.mem_cons.1 hmem).resolve_left heq) (by rw [hsame]; exact hhold) (by rw [hsame]; exact hnew) (by rw [hsame]; exact hsure)

/-- The record of a result in the frame that triggered its evaluation (R247). -/
def FrameInfo.withResult (d : ModelDecl) (z : List Nat) (i : FrameInfo) : FrameInfo :=
  if d.role == 0 then { i with evRaw := z.getD 0 0 }
  else if d.role == 1 then { i with linked := linkOut d.link z, scene := (topClass (linkOut d.link z)).1 } else i

/-- The machine with the result of model `m` in its frame, the evaluation over. -/
def State.resultIn (s : State) (o m st : Nat) (fseq : B16) (d : ModelDecl) (z : List Nat) : State :=
  (s.modModel o m (fun y => { y with running := none })).modFrame st fseq (FrameInfo.withResult d z)

/-- As it is once an AE-T model's result waits for its exposure write (R56). -/
def State.resultSeen (s : State) (o m st : Nat) (fseq : B16) (d : ModelDecl) (z : List Nat) : State :=
  if d.role == 0 then (s.resultIn o m st fseq d z).modHead (st / 4) (fun h => { h with evPosted := some (st, fseq, (linkOut d.link z).getD 0 0) })
  else s.resultIn o m st fseq d z

theorem treeResultPost_of_running {o m st : Nat} {fseq : B16} {z : List Nat} {c : Ctx} {d : ModelDecl} (hc : s.ctx o = some c)
    (hrun : (Tab.get {} c.models m).running = some (st, fseq, z, d)) (hwarm : ∀ i, c.place.site d.linkSite = some i → (s.unit i).frozen = false)
    (hgood : ((s.strm st).info fseq).any (fun i => i.has .dropped) = false) :
    treeResultPost o m s = if d.link == 3 then
      ((s.resultSeen o m st fseq d z).sceneStreams o m st).foldl (fun s i => s.scenePost i fseq (linkOut d.link z)) (s.resultSeen o m st fseq d z)
      else s.resultSeen o m st fseq d z := by
  have hfrozen : ¬ ((c.place.site d.linkSite).any fun i => (s.unit i).frozen) = true := by
    cases hsite : c.place.site d.linkSite with
    | none => simp
    | some i => simp [hwarm i hsite]
  unfold treeResultPost
  rw [hc]
  dsimp -zeta only
  rw [hrun]
  refine (if_neg hfrozen).trans ?_
  exact if_neg (c := ((s.strm st).info fseq).any (fun i => i.has .dropped) = true) (by rw [hgood]; decide)

theorem Tab.mem_keys_set_iff {α : Type} {d v : α} {q : α → Bool} {t : List (Nat × α)} {i : Nat} (hd : q d = false) (hv : q v = q (Tab.get d t i))
    (k : Nat) : k ∈ Tab.keys (Tab.set t i v) q ↔ k ∈ Tab.keys t q := by
  refine ⟨fun hk => ?_, Tab.mem_keys_set fun h => hv.trans h⟩
  have hentry : ∀ (t : List (Nat × α)) (e : Nat × α), e ∈ Tab.set t i v → e = (i, v) ∨ e ∈ t := by
    intro t
    induction t with
    | nil => simp [Tab.set]
    | cons x t ih =>
      obtain ⟨j, w⟩ := x
      intro e he
      rw [Tab.set] at he
      split at he
      · rcases List.mem_cons.1 he with rfl | he
        · exact Or.inl rfl
        · exact Or.inr (List.mem_cons_of_mem _ he)
      · split at he
        · rcases List.mem_cons.1 he with rfl | he
          · exact Or.inl rfl
          · exact Or.inr he
        · rcases List.mem_cons.1 he with rfl | he
          · exact Or.inr List.mem_cons_self
          · exact (ih e he).imp_right (List.mem_cons_of_mem _)
  simp only [Tab.keys, List.mem_map, List.mem_filter] at hk
  obtain ⟨e, ⟨he, hq⟩, rfl⟩ := hk
  rcases hentry t e he with rfl | he
  · exact Tab.mem_keys_of_get hd (hv.symm.trans hq)
  · exact List.mem_map_of_mem (List.mem_filter.2 ⟨he, hq⟩)

section ResultIn
variable {o m st : Nat} {fseq : B16} {d : ModelDecl} {z : List Nat}

theorem State.strm_resultIn (k : Nat) : ((s.resultIn o m st fseq d z).strm k).ctx = (s.strm k).ctx ∧
    ((s.resultIn o m st fseq d z).strm k).scene = (s.strm k).scene ∧ ((s.resultIn o m st fseq d z).strm k).slotIx = (s.strm k).slotIx ∧
    ((s.resultIn o m st fseq d z).strm k).scheduled = (s.strm k).scheduled ∧ ((s.resultIn o m st fseq d z).strm k).runClass = (s.strm k).runClass := by
  unfold State.resultIn State.modFrame
  by_cases hk : st = k
  · subst hk
    rw [State.modStrm_eq, State.strm_setStrm]
    exact ⟨rfl, rfl, rfl, rfl, rfl⟩
  · rw [State.modStrm_eq, State.strm_setStrm_ne _ _ _ _ hk]
    exact ⟨rfl, rfl, rfl, rfl, rfl⟩

theorem State.mem_ctxStreams_resultIn (i k : Nat) : k ∈ (s.resultIn o m st fseq d z).ctxStreams i ↔ k ∈ s.ctxStreams i :=
  Tab.mem_keys_set_iff (d := ({} : Strm)) (v := (s.strm st).modFrame fseq (FrameInfo.withResult d z)) (q := fun x : Strm => x.ctx == some i) rfl rfl k

/-- What a context declares of its models does not hang on what runs. -/
theorem State.model_resultIn (i k : Nat) : ((s.resultIn o m st fseq d z).ctx i).bind (fun c => c.model k) = (s.ctx i).bind (fun c => c.model k) := by
  have hctx : (s.resultIn o m st fseq d z).ctx i = (s.modModel o m (fun y => { y with running := none })).ctx i := rfl
  rw [hctx, State.modModel]
  by_cases hi : o = i
  · subst hi
    rw [State.ctx_modRunning]
    cases s.ctx o with
    | none => rfl
    | some c =>
      have hdecl := Tab.get_upd_same (d := ({} : ModelSt)) (f := fun y => { y with running := none }) (g := ModelSt.decl) (fun _ => rfl) c.models [m] k
      simp only [Option.map_some, Option.bind_some, Ctx.model]
      rw [hdecl]
  · rw [State.modRunning, State.ctx_setCtx_ne _ _ _ _ hi]

theorem State.classifies_eq (i k h : Nat) : s.classifies i k h = ((s.ctx i).bind (fun c => c.model k)).any (fun d =>
    d.link == 3 && (s.ctxStreams i).any (fun st => st / 4 == h && d.triggers.contains (s.strm st).slotIx)) := by
  unfold State.classifies
  cases s.ctx i with
  | none => rfl
  | some c =>
    dsimp only [Option.bind_some]
    cases c.model k <;> rfl

theorem State.classifies_resultIn (i k h : Nat) : (s.resultIn o m st fseq d z).classifies i k h = s.classifies i k h := by
  rw [State.classifies_eq, State.classifies_eq, State.model_resultIn]
  congr 1
  funext e
  congr 1
  rw [Bool.eq_iff_iff, List.any_eq_true, List.any_eq_true]
  refine exists_congr fun j => ?_
  rw [State.mem_ctxStreams_resultIn, (State.strm_resultIn (s := s) j).2.2.1]

theorem State.sceneSource_resultIn (i : Nat) : (s.resultIn o m st fseq d z).sceneSource i = s.sceneSource i := by
  obtain ⟨hctx, hscene, -⟩ := State.strm_resultIn (s := s) (o := o) (m := m) (st := st) (fseq := fseq) (d := d) (z := z) i
  unfold State.sceneSource
  dsimp only
  rw [hctx, hscene]
  simp only [State.classifies_resultIn]

end ResultIn

theorem State.mem_sceneStreams {o m st : Nat} (hsched : (s.strm st).scheduled = true) (hmodel : (s.strm st).scene.model = m)
    (hsource : s.sceneSource st = some o) : st ∈ s.sceneStreams o m st := by
  refine List.mem_filter.2 ⟨List.mem_map.2 ⟨st % 4, ?_, by omega⟩, by simp [hsched, hmodel, hsource]⟩
  have := Nat.mod_lt st (show 0 < 4 by decide)
  interval_cases st % 4 <;> decide

theorem State.nodup_sceneStreams (s : State) (o m st : Nat) : (s.sceneStreams o m st).Nodup :=
  List.Nodup.filter _ (by simp)

theorem State.kept_scenePost_foldl (s : State) (l : List Nat) (fseq : B16) (p : List Nat) (o h : Nat) :
    (l.foldl (fun s i => s.scenePost i fseq p) s).ctx o = s.ctx o ∧ (l.foldl (fun s i => s.scenePost i fseq p) s).head h = s.head h :=
  ⟨foldl_same (g := fun s => s.ctx o) (fun s i => (State.scenePost_keeps (Nat.and_self _) s i fseq p (Keeps.refl _ s)).ctx_eq o) l s,
    foldl_same (g := fun s => s.head h) (fun s i => (State.scenePost_keeps (Nat.and_self _) s i fseq p (Keeps.refl _ s)).head_eq h) l s⟩

-- Scenes.

/-- A class whose variant is placed and staged, and does not run, waits for its eclosion (R249, R310). -/
theorem State.switchTo_of_staged {st cls o : Nat} {f : B16} {c : Ctx} {v : Placement} {b : B8} (hctx : (s.strm st).ctx = some o)
    (hc : s.ctx o = some c) (hb : (s.strm st).scene.table[cls]? = some b) (hany : b.toNat ≠ 255) (hnew : b.toNat ≠ c.place.slot)
    (hv : c.variants.find? (fun q => q.slot == b.toNat) = some v) (hstaged : (s.slot b.toNat).state = .staged) (hecl : c.ecl = none)
    (hrun : c.state = .running) :
    s.switchTo st f cls = s.setCtx o (some { c with ecl := some { kind := 3, place := v, cls := some cls } }) := by
  have he : (((s.strm st).scene.table[cls]?).map (fun b : B8 => b.toNat)).getD 255 = b.toNat := by rw [hb]; rfl
  unfold State.switchTo
  dsimp only
  rw [hctx]
  dsimp only
  rw [hc]
  dsimp only
  rw [he, if_neg (by simpa using hany), if_neg (by simpa using hnew), hv]
  exact if_pos (by simp [hstaged, hecl, hrun])

theorem sceneLatch_of_scheduled {st cls o : Nat} {f p : B16} {c : Ctx} {v : Placement} {b : B8} (hdone : (s.strm st).tailDone = some f)
    (hposted : (s.strm st).posted = some (p, some cls)) (hgood : ((s.strm st).info p).any (fun i => i.has .dropped) = false)
    (hsched : (s.strm st).scheduled = true) (hctx : (s.strm st).ctx = some o) (hc : s.ctx o = some c) (hb : (s.strm st).scene.table[cls]? = some b)
    (hany : b.toNat ≠ 255) (hnew : b.toNat ≠ c.place.slot) (hv : c.variants.find? (fun q => q.slot == b.toNat) = some v)
    (hstaged : (s.slot b.toNat).state = .staged) (hecl : c.ecl = none) (hrun : c.state = .running) :
    ((sceneLatch st s).strm st).latched = some f ∧ ((sceneLatch st s).strm st).posted = none ∧
      (sceneLatch st s).ctx o = some { c with ecl := some { kind := 3, place := v, cls := some cls } } := by
  generalize ht : sceneLatch st s = t
  unfold sceneLatch at ht
  extract_lets x at ht
  rw [show x.tailDone = some f from hdone] at ht
  dsimp -zeta only at ht
  extract_lets s1 at ht
  rw [show x.posted = some (p, some cls) from hposted] at ht
  dsimp -zeta only at ht
  replace ht := (if_neg (by rw [show (x.info p).any (fun i => i.has .dropped) = false from hgood, show x.scheduled = true from hsched]; decide)).symm.trans ht
  extract_lets s2 at ht
  have h1 : s1.strm st = { s.strm st with
      tailDone := none, latched := some f, posted := none, held := if x.held == some f then none else x.held } := State.strm_setStrm ..
  have h2 : s2.strm st = (s1.strm st).modFrame p (fun i => { i with dec := orBit i.dec 2 }) := State.strm_modFrame ..
  have hc2 : s2.ctx o = some c := hc
  have hslot2 : (s2.slot b.toNat).state = .staged := hstaged
  rw [h1] at h2
  clear_value s2
  rw [State.switchTo_of_staged (by rw [h2]; exact hctx) hc2 (by rw [h2]; exact hb) hany hnew hv hslot2 hecl hrun] at ht
  rw [← ht, State.strm_of_setCtx, h2]
  exact ⟨rfl, rfl, State.ctx_setCtx ..⟩

/-- Settles O32. -/
theorem modelsAndScenes : Obligations.ModelsAndScenes := by
  unfold Obligations.ModelsAndScenes
  refine ⟨⟨fun o m st fseq c d err s r hc hd hpend hidle hwarm hlog hr => ?_, fun o m st fseq z c d s hc hrun hwarm hrole hgood => ?_,
      fun o m st fseq z c d s hc hrun hwarm hrole hlink hsource hgood hsched hmodel hhold hnew hsure => ?_⟩,
    fun st f p cls o c v b s hdone hposted hgood hsched hctx hc hb hany hnew hv hstaged hecl hrun =>
      ⟨_, rfl, sceneLatch_of_scheduled hdone hposted hgood hsched hctx hc hb hany hnew hv hstaged hecl hrun⟩⟩
  · subst hr
    obtain ⟨c', hc', hpend', hrun'⟩ := treeEvalStart_of_pending (err := err) hc hd hpend hidle hwarm hlog
    exact ⟨_, c', rfl, hc', hpend', hrun'⟩
  · obtain ⟨c', hc', hmodel'⟩ := State.model_modModel (s := s) (o := o) (m := m.toNat) (f := fun y => { y with running := none }) hc
    have ht := treeResultPost_of_running hc hrun hwarm hgood
    have h1 : (s.resultSeen o m.toNat st fseq d z).ctx o = some c' ∧
        ((s.resultSeen o m.toNat st fseq d z).head (st / 4)).evPosted = some (st, fseq, (linkOut d.link z).getD 0 0) := by
      rw [State.resultSeen, if_pos (by simp [hrole]), State.modHead_eq, State.head_setHead]
      exact ⟨hc', rfl⟩
    generalize s.resultSeen o m.toNat st fseq d z = s1 at ht h1
    refine ⟨_, c', rfl, ?_, by rw [hmodel'], ?_⟩
    · rw [show treeResultPost o m.toNat s = _ from ht]
      split
      · exact (State.kept_scenePost_foldl _ _ _ _ _ 0).1.trans h1.1
      · exact h1.1
    · rw [show treeResultPost o m.toNat s = _ from ht]
      split
      · exact (congrArg Head.evPosted (State.kept_scenePost_foldl _ _ _ _ o _).2).trans h1.2
      · exact h1.2
  · have ht := treeResultPost_of_running hc hrun hwarm hgood
    have hseen : s.resultSeen o m.toNat st fseq d z = s.resultIn o m.toNat st fseq d z := if_neg (by simpa using hrole)
    rw [hseen, if_pos (by simp [hlink]), hlink] at ht
    obtain ⟨-, hscene', -, hsched', hclass'⟩ := State.strm_resultIn (s := s) (o := o) (m := m.toNat) (st := st) (fseq := fseq) (d := d) (z := z) st
    refine ⟨_, congrArg Host.Outcome.next ht, ?_⟩
    refine State.posted_scenePost_foldl (State.nodup_sceneStreams ..)
      (State.mem_sceneStreams (by rw [hsched']; exact hsched) (by rw [hscene']; exact hmodel) ?_) (by rw [hscene']; exact hhold)
      (by rw [hclass']; exact hnew) (by rw [hscene']; exact hsure)
    rw [State.sceneSource_resultIn]
    exact hsource

end Sys2Proof.Machine

/-! An attach settles (R34-R39), and authentication decides the state of the head (R40-R43). -/

namespace Sys2Proof.Machine
set_option Elab.async false
variable {s : State}

theorem State.head_attachDone (s : State) (h : Nat) : (s.attachDone h).head h = { s.head h with attachPkt := none } := by
  unfold State.attachDone
  extract_lets x sc w s1
  have h1 : s1.head h = { s.head h with attachPkt := none } := State.head_setHead ..
  clear_value s1
  split
  · split
    · exact (State.head_finish ..).trans h1
    · exact (State.head_finish ..).trans h1
  · split
    · exact (State.head_log ..).trans h1
    · exact h1

/-- An attach that ends in FAULT leaves its cause in the head, and its passport. -/
theorem State.head_attachFault (s : State) (h cause : Nat) :
    (s.attachFault h cause).head h = { s.head h with state := .fault, cause := cause, auth := none, attachPkt := none } := by
  rw [State.attachFault, State.head_attachDone, State.modHead_eq, State.head_setHead]

theorem Head.passportOk_of_passport {x y : Head} (h : x.passport = y.passport) : x.passportOk = y.passportOk := by
  have hof : ∀ x : Head, x.passportOk = ({ passport := x.passport } : Head).passportOk := fun _ => rfl
  rw [hof x, hof y, h]

theorem State.head_passportReport (s : State) (h : Nat) (b : Bytes) (i : Nat) : (s.passportReport h b).head i = s.head i :=
  (State.passportReport_keeps (Nat.and_self _) s h b (Keeps.refl _ s)).head_eq i

/-- What the ledger gives a head leaves its passport (R45). -/
theorem State.passport_recover (s : State) (h : Nat) : ((s.recover h).head h).passport = (s.head h).passport := by
  unfold State.recover
  extract_lets x a b named okA okB blankA blankB qa qb take q s1
  have hmod : ∀ (s : State) (f : Head → Head), (∀ y, (f y).passport = y.passport) → ((s.modHead h f).head h).passport = (s.head h).passport := by
    intro s f hf
    rw [State.modHead_eq, State.head_setHead, hf]
  have htake : ∀ (s : State) c, ((take s c).head h).passport = (s.head h).passport := fun s c => hmod s _ fun _ => rfl
  clear_value take
  have h1 : (s1.head h).passport = (s.head h).passport := by
    simp only [s1]
    split
    · exact htake _ _
    · split
      · exact htake _ _
      · split
        · exact htake _ _
        · split
          · exact hmod s _ fun _ => rfl
          · rw [State.head_log]
            exact hmod s _ fun _ => rfl
  exact h1

/-- The attach once the passport is in the head. -/
def State.identified (s : State) (h : Nat) (b : Bytes) : State :=
  let id := (s.head h).id
  ((s.modHead h (fun x => { x with passport := b.take 640 })).passportReport h b).modHead h
    (fun x => { x with untrustedUse := x.untrustedUse && x.id == id })

theorem State.passport_identified (s : State) (h : Nat) (b : Bytes) : ((s.identified h b).head h).passport = b.take 640 := by
  unfold State.identified
  extract_lets id
  rw [State.modHead_eq, State.head_setHead]
  exact (congrArg Head.passport (State.head_passportReport ..)).trans (congrArg Head.passport (State.head_setHead ..))

/-- The machine at the reads of an attach (R34): the passport's transfer is on the bus. -/
def State.attachRead (s : State) (h : Nat) : State := s.modHead h (fun x => { x.i3cRead nvmStatic 0 640 with state := .ident })

theorem attachSettled_of_unread {h : Nat} {r : AttachRead} (hup : s.linkUp h = true) (hst : (s.head h).state = .powering) (hr : r.passport = none) :
    attachSettled h r s = (s.attachRead h).attachFault h 3 := by
  unfold attachSettled
  rw [if_neg (by simp [hup, hst]), hr]
  rfl

theorem attachSettled_of_bad {h : Nat} {r : AttachRead} {b : Bytes} (hup : s.linkUp h = true) (hst : (s.head h).state = .powering)
    (hr : r.passport = some b) (hbad : ({ passport := b.take 640 } : Head).passportOk = false) :
    attachSettled h r s = ((s.attachRead h).identified h b).attachFault h 1 := by
  unfold attachSettled
  rw [if_neg (by simp [hup, hst]), hr]
  refine if_pos ?_
  have hok := Head.passportOk_of_passport (y := { passport := b.take 640 }) (State.passport_identified (s.attachRead h) h b)
  change (!(((s.attachRead h).identified h b).head h).passportOk) = true
  rw [hok, hbad]
  rfl

/-- The set-points that an attach read, in the head (R34, R52), and its streams afresh. -/
def State.setPoints (s : State) (h e g : Nat) (a : Option Nat) : State :=
  let s := s.modHead h (fun x =>
    let g32 := div32 (int32 g) (int32 x.gainUnit)
    { x with x := e, g := g32, gain := to16 g32, hostGain := none, actPos := (a.getD 0 : Nat), tempFails := 0, sinceCommit := 0
             sinceAuth := 0, commitDue := false, exhausted := false, budget := false, authFailed := false, lifeInForce := false
             openTrust := s.modes.openTrust, limit := s.modes.limit })
  let s := [0, 1, 2, 3].foldl (fun s v => s.modStrm (4 * h + v) (fun y => { y with
    fnSeen := false, fseq := 0, fnLast := 0, tMeas := 250000, frame := none, latched := none, hdrSince := false, stampLast := none })) s
  let s := (s.recover h).checkBudget h
  let worn := s.worn h
  (s.modHead h (fun x => { x with state := .auth, lifeInForce := worn })).startAuth h false none

/-- The reads of a head's set-points, on the bus. -/
def State.setPointReads (s : State) (h : Nat) : State :=
  s.modHead h (fun x =>
    let x := (x.i3cRead sensorAddr (x.pp 0x144 2) x.expoBytes).i3cRead sensorAddr (x.pp 0x146 2) x.gainBytes
    if x.actSa == 0 then x else x.i3cRead actAddr (x.pp 0x14E 1) x.actBytes)

/-- The targets of a head get their addresses (R34). -/
def State.assigns (s : State) (h : Nat) : State := s.modHead h (fun x => { x with i3c := x.i3c ++ x.setdasas })

section Good
variable {h : Nat} {b e g : Bytes} {a : Option Bytes}

theorem State.passportOk_identified (hgood : ({ passport := b.take 640 } : Head).passportOk = true) :
    ¬ (!(((s.attachRead h).identified h b).head h).passportOk) = true := by
  have hok := Head.passportOk_of_passport (y := { passport := b.take 640 }) (State.passport_identified (s.attachRead h) h b)
  rw [hok, hgood]
  decide

/-- A set-point that cannot be read ends the attach. -/
theorem attachSettled_of_short (hup : s.linkUp h = true) (hst : (s.head h).state = .powering)
    (hgood : ({ passport := b.take 640 } : Head).passportOk = true)
    (hshort : sensorValue (((s.attachRead h).identified h b).head h).expoBytes e = none ∨
      sensorValue (((s.attachRead h).identified h b).head h).gainBytes g = none) :
    attachSettled h { passport := some b, assigned := true, expo := some e, gain := some g, act := a } s =
      (((s.attachRead h).identified h b).assigns h).attachFault h 3 := by
  unfold attachSettled
  rw [if_neg (by simp [hup, hst])]
  refine (if_neg (State.passportOk_identified hgood)).trans ?_
  change (match true, sensorValue (((s.attachRead h).identified h b).head h).expoBytes e,
    sensorValue (((s.attachRead h).identified h b).head h).gainBytes g with | true, some e, some g => _ | _, _, _ => _) = _
  rcases hshort with hnone | hnone
  · rw [hnone]
    rfl
  · rw [hnone]
    cases sensorValue (((s.attachRead h).identified h b).head h).expoBytes e <;> rfl

theorem attachSettled_of_read {ve vg : Nat} (hup : s.linkUp h = true) (hst : (s.head h).state = .powering)
    (hgood : ({ passport := b.take 640 } : Head).passportOk = true)
    (he : sensorValue (((s.attachRead h).identified h b).head h).expoBytes e = some ve)
    (hg : sensorValue (((s.attachRead h).identified h b).head h).gainBytes g = some vg) :
    attachSettled h { passport := some b, assigned := true, expo := some e, gain := some g, act := a } s =
      if (((s.attachRead h).identified h b).head h).actSa != 0 && (a.bind (((s.attachRead h).identified h b).head h).actValue).isNone then
        ((((s.attachRead h).identified h b).assigns h).setPointReads h).attachFault h 3
      else ((((s.attachRead h).identified h b).assigns h).setPointReads h).setPoints h ve vg
        (a.bind (((s.attachRead h).identified h b).head h).actValue) := by
  unfold attachSettled
  rw [if_neg (by simp [hup, hst])]
  refine (if_neg (State.passportOk_identified hgood)).trans ?_
  change (match true, sensorValue (((s.attachRead h).identified h b).head h).expoBytes e,
    sensorValue (((s.attachRead h).identified h b).head h).gainBytes g with | true, some e, some g => _ | _, _, _ => _) = _
  rw [he, hg]
  rfl

end Good

theorem sensorValue_eq_none {n : Nat} {bs : Bytes} : sensorValue n bs = none ↔ bs.length < n := by
  unfold sensorValue
  split <;> simp_all

theorem State.head_startAuth (s : State) (h : Nat) (b : Bool) (k : Option Pkt) :
    (s.startAuth h b k).head h = { s.head h with
      auth := some { challenge := toLe 32 (Config.challenge s.freeCount).toNat, again := b, pkt := k }
      i3c := (s.head h).i3c ++ [{ target := seAddr, reg := 0x10, data := (toLe 32 (Config.challenge s.freeCount).toNat).take 16 }] ++
        [{ target := seAddr, reg := 0x20, data := (toLe 32 (Config.challenge s.freeCount).toNat).drop 16 }] ++
        [{ target := seAddr, reg := 0x00, data := [0x01] }] } := by
  have hd : s.draw.head h = s.head h := rfl
  unfold State.startAuth
  rw [State.modHead_eq, State.head_setHead, hd]
  generalize toLe 32 (Config.challenge s.freeCount).toNat = c
  rfl

theorem State.head_setPoints (s : State) (h e g : Nat) (a : Option Nat) :
    ((s.setPoints h e g a).head h).state = .auth ∧ ((s.setPoints h e g a).head h).passport = (s.head h).passport := by
  unfold State.setPoints
  extract_lets s1 s2 s3 worn
  have h1 : (s1.head h).passport = (s.head h).passport := by
    simp only [s1, State.modHead_eq, State.head_setHead]
  have h2 : s2.head h = s1.head h := by
    refine foldl_same (g := fun s => s.head h) (fun s v => ?_) _ _
    rfl
  have h3 : (s3.head h).passport = (s2.head h).passport := by
    obtain ⟨b, c, hbudget⟩ := State.head_checkBudget (s2.recover h) h
    simp only [s3, hbudget]
    exact State.passport_recover s2 h
  clear_value s3 s2 s1 worn
  rw [State.head_startAuth, State.modHead_eq, State.head_setHead]
  exact ⟨rfl, by rw [h3, h2, h1]⟩

theorem State.passport_assigns (s : State) (h : Nat) : ((s.assigns h).head h).passport = (s.head h).passport := by
  rw [State.assigns, State.modHead_eq, State.head_setHead]

theorem State.passport_setPointReads (s : State) (h : Nat) : ((s.setPointReads h).head h).passport = (s.head h).passport := by
  have hread : ∀ (y : Head) (a r n : Nat), (y.i3cRead a r n).passport = y.passport := fun _ _ _ _ => rfl
  rw [State.setPointReads, State.modHead_eq, State.head_setHead]
  extract_lets x
  have hx : x.passport = (s.head h).passport := (hread ..).trans (hread ..)
  clear_value x
  split
  · exact hx
  · exact (hread ..).trans hx

theorem State.attachFault_spec (s : State) (h cause : Nat) :
    ((s.attachFault h cause).head h).state = .fault ∧ ((s.attachFault h cause).head h).cause = cause ∧
      ((s.attachFault h cause).head h).passport = (s.head h).passport := by
  rw [State.head_attachFault]
  exact ⟨rfl, rfl, rfl⟩

/-- What a passport says does not hang on the rest of its head. -/
theorem Head.pp_of_passport {x y : Head} (h : x.passport = y.passport) (n m : Nat) : x.pp n m = y.pp n m := by rw [Head.pp, Head.pp, h]

theorem Head.actValue_of_passport {x y : Head} (h : x.passport = y.passport) (bs : Bytes) : x.actValue bs = y.actValue bs := by
  have hof : ∀ x : Head, x.actValue bs = ({ passport := x.passport } : Head).actValue bs := fun _ => rfl
  rw [hof x, hof y, h]

/-- The state in which an attach with a full read ends (R36-R39). -/
theorem attachSettled_spec {h : Nat} {b e g : Bytes} {a : Option Bytes} {p : Head} (hup : s.linkUp h = true) (hst : (s.head h).state = .powering)
    (hp : p.passport = b.take 640) :
    ((attachSettled h { passport := some b, assigned := true, expo := some e, gain := some g, act := a } s).head h).passport = b.take 640 ∧
      ((attachSettled h { passport := some b, assigned := true, expo := some e, gain := some g, act := a } s).head h).state =
        if p.passportOk = false ∨ e.length < p.expoBytes ∨ g.length < p.gainBytes ∨ (p.actSa ≠ 0 ∧ a.bind p.actValue = none) then .fault else .auth := by
  have hpass := State.passport_identified (s.attachRead h) h b
  have hsame : (((s.attachRead h).identified h b).head h).passport = p.passport := hpass.trans hp.symm
  have hok : p.passportOk = ({ passport := b.take 640 } : Head).passportOk := Head.passportOk_of_passport hp
  have hexpo : (((s.attachRead h).identified h b).head h).expoBytes = p.expoBytes := Head.pp_of_passport hsame _ _
  have hgain : (((s.attachRead h).identified h b).head h).gainBytes = p.gainBytes := Head.pp_of_passport hsame _ _
  have hsa : (((s.attachRead h).identified h b).head h).actSa = p.actSa := Head.pp_of_passport hsame _ _
  have hact : (((s.attachRead h).identified h b).head h).actValue = p.actValue := funext (Head.actValue_of_passport hsame)
  by_cases hbad : p.passportOk = false
  · obtain ⟨hstate, -, hpassport⟩ := State.attachFault_spec ((s.attachRead h).identified h b) h 1
    rw [attachSettled_of_bad hup hst rfl (hok ▸ hbad), if_pos (Or.inl hbad)]
    exact ⟨hpassport.trans hpass, hstate⟩
  · have hgood : ({ passport := b.take 640 } : Head).passportOk = true := by rw [← hok]; exact Bool.of_not_eq_false hbad
    by_cases hshort : e.length < p.expoBytes ∨ g.length < p.gainBytes
    · obtain ⟨hstate, -, hpassport⟩ := State.attachFault_spec (((s.attachRead h).identified h b).assigns h) h 3
      rw [attachSettled_of_short hup hst hgood (by rw [hexpo, hgain, sensorValue_eq_none, sensorValue_eq_none]; exact hshort),
        if_pos (Or.inr (hshort.imp_right Or.inl))]
      exact ⟨hpassport.trans ((State.passport_assigns ..).trans hpass), hstate⟩
    · have hread : (∃ ve, sensorValue p.expoBytes e = some ve) ∧ ∃ vg, sensorValue p.gainBytes g = some vg := by
        rw [← Option.ne_none_iff_exists', ← Option.ne_none_iff_exists', Ne, Ne, sensorValue_eq_none, sensorValue_eq_none]
        exact not_or.1 hshort
      obtain ⟨⟨ve, hve⟩, vg, hvg⟩ := hread
      have ht := attachSettled_of_read (a := a) hup hst hgood (by rw [hexpo]; exact hve) (by rw [hgain]; exact hvg)
      rw [hsa, hact] at ht
      rw [ht]
      have hreads : (((((s.attachRead h).identified h b).assigns h).setPointReads h).head h).passport = b.take 640 :=
        (State.passport_setPointReads ..).trans ((State.passport_assigns ..).trans hpass)
      by_cases hno : p.actSa ≠ 0 ∧ a.bind p.actValue = none
      · obtain ⟨hstate, -, hpassport⟩ := State.attachFault_spec ((((s.attachRead h).identified h b).assigns h).setPointReads h) h 3
        rw [if_pos (by simp [hno.1, hno.2]), if_pos (Or.inr (Or.inr (Or.inr hno)))]
        exact ⟨hpassport.trans hreads, hstate⟩
      · obtain ⟨hstate, hpassport⟩ := State.head_setPoints ((((s.attachRead h).identified h b).assigns h).setPointReads h) h ve vg (a.bind p.actValue)
        rw [if_neg (by simpa using hno),
          if_neg (by rintro (h | h | h | h); exacts [hbad h, hshort (Or.inl h), hshort (Or.inr h), hno h])]
        exact ⟨hpassport.trans hreads, hstate⟩

-- Authentication.

theorem State.state_authFail_of_idle {h : Nat} {b : Bool} (hidle : s.headStreaming h = false) (hb : (s.head h).openTrust = b) :
    ((s.authFail h).head h).state = if b then .untrusted else .fault := by
  subst hb
  by_cases hopen : (s.head h).openTrust = true
  · unfold State.authFail
    rw [if_pos hopen, if_pos hopen, State.modHead_eq, State.head_setHead]
  · rw [State.authFail_of_idle hidle (Bool.eq_false_iff.2 hopen), if_neg hopen, State.modHead_eq, State.head_setHead]

/-- The first authentication of an idle head decides its state (R40, R41, R442). -/
theorem State.authEnd_of_first {h : Nat} {a : AuthRun} {ok : Bool} {cause : Nat} (ha : (s.head h).auth = some a) (hfirst : a.again = false)
    (hidle : s.headStreaming h = false) :
    ((s.authEnd h ok cause).head h).state = if ok then .ready else if s.modes.openTrust then .untrusted else .fault := by
  generalize ht : s.authEnd h ok cause = t
  unfold State.authEnd at ht
  extract_lets x s1 s2 s3 s4 s5 at ht
  rw [show x.auth = some a from ha] at ht
  replace ht := (if_pos (by rw [hfirst]; rfl)).symm.trans ht
  have h2 : (s2.head h).openTrust = s.modes.openTrust ∧ s2.headStreaming h = false := by
    have h1 : s1.headStreaming h = false ∧ s1.modes = s.modes := ⟨hidle, rfl⟩
    simp only [s2]
    rw [if_neg (by rw [h1.1]; decide), State.modHead_eq, State.head_setHead, h1.2]
    exact ⟨rfl, h1.1⟩
  clear_value s2 s1
  have h3 : (s3.head h).openTrust = s.modes.openTrust ∧ s3.headStreaming h = false := by
    simp only [s3]
    split
    · exact h2
    · exact ⟨(congrArg Head.openTrust (State.head_log ..)).trans h2.1, h2.2⟩
  clear_value s3
  rw [← ht, State.head_attachDone]
  simp only [s4]
  cases ok with
  | true => rw [if_pos rfl, if_pos rfl, State.modHead_eq, State.head_setHead]
  | false =>
    rw [if_neg Bool.false_ne_true, if_neg Bool.false_ne_true]
    exact State.state_authFail_of_idle h3.2 h3.1

theorem authPoll_of_auth {h : Nat} {a : AuthRun} {b : Option Bytes} (hup : s.linkUp h = true) (ha : (s.head h).auth = some a) :
    authPoll h b s = match b with
      | none => (s.modHead h (fun y => (y.i3cRead seAddr 0x01 1).i3cRead seAddr 0x40 64)).authEnd h false 2
      | some b => (s.modHead h (fun y => (y.i3cRead seAddr 0x01 1).i3cRead seAddr 0x40 64)).authEnd h
        (ecdsaOk ((s.head h).pp 0x150 32) ((s.head h).pp 0x170 32) (fieldLe b 0 32) (fieldLe b 32 32) (authMessage a.challenge (s.head h).id)) 0 := by
  unfold authPoll
  extract_lets x
  rw [show x.auth = some a from ha]
  refine (if_neg (by rw [hup]; decide)).trans ?_
  cases b <;> rfl

/-- The poll's reads go on the bus; the authentication is the same. -/
theorem State.auth_polled {h : Nat} {a : AuthRun} (ha : (s.head h).auth = some a) (hidle : s.headStreaming h = false) :
    ((s.modHead h (fun y => (y.i3cRead seAddr 0x01 1).i3cRead seAddr 0x40 64)).head h).auth = some a ∧
      (s.modHead h (fun y => (y.i3cRead seAddr 0x01 1).i3cRead seAddr 0x40 64)).headStreaming h = false := by
  rw [State.modHead_eq, State.head_setHead]
  exact ⟨ha, hidle⟩

/-- Settles O14. -/
theorem attachAndAuthenticate : Obligations.AttachAndAuthenticate := by
  unfold Obligations.AttachAndAuthenticate
  refine ⟨⟨fun h r s hup hst hr => ?_, fun h r b s hup hst hr hbad => ?_, fun h b e g a p s hup hst hp => ?_⟩,
    fun h a b s hup ha hfirst hidle hdet => ?_, fun h a s hup ha hfirst hidle hdet => ⟨?_, ?_⟩, fun h s hup huse hstr hnone hlong => ?_⟩
  · obtain ⟨hstate, hcause, -⟩ := State.attachFault_spec (s.attachRead h) h 3
    exact ⟨_, congrArg Host.Outcome.next (attachSettled_of_unread hup hst hr), hstate, hcause⟩
  · have hbad' : ({ passport := b.take 640 } : Head).passportOk = false :=
      (Head.passportOk_of_passport (y := { s.head h with passport := b.take 640 }) rfl).trans hbad
    obtain ⟨hstate, hcause, hpassport⟩ := State.attachFault_spec ((s.attachRead h).identified h b) h 1
    exact ⟨_, congrArg Host.Outcome.next (attachSettled_of_bad hup hst hr hbad'), hstate, hcause, hpassport.trans (State.passport_identified ..)⟩
  · exact ⟨_, rfl, attachSettled_spec hup hst (by rw [hp])⟩
  · obtain ⟨ha', hidle'⟩ := State.auth_polled ha hidle
    exact ⟨_, congrArg Host.Outcome.next (authPoll_of_auth hup ha), State.authEnd_of_first ha' hfirst hidle'⟩
  · obtain ⟨ha', hidle'⟩ := State.auth_polled ha hidle
    exact ⟨_, congrArg Host.Outcome.next (authPoll_of_auth hup ha), (State.authEnd_of_first ha' hfirst hidle').trans (if_neg Bool.false_ne_true)⟩
  · exact ⟨_, congrArg Host.Outcome.next (if_pos hup), (State.authEnd_of_first ha hfirst hidle).trans (if_neg Bool.false_ne_true)⟩
  · refine ⟨_, congrArg Host.Outcome.next (if_pos (by simp [hup, huse, hstr, hnone, hlong])), rfl, ?_, ?_⟩
    · rw [State.head_startAuth]
    · rw [State.head_startAuth, List.append_assoc, List.append_assoc, List.drop_left]
      rfl

end Sys2Proof.Machine

/-! Frames and lines arrive on a Head Link (R29-R33, R55, R73, R74, R146). -/

namespace Sys2Proof.Machine
set_option Elab.async false
variable {s t : State}

-- What a packet with a good header reaches (R29).

/-- Two states that agree on the streams, the time base and the parts of a head that a packet reads. -/
structure SamePins (h : Nat) (s t : State) : Prop where
  streams : t.streams = s.streams
  dtb : t.dtb = s.dtb
  head : t.head h = s.head h
  modes : t.modes = s.modes

theorem State.packet_of_receives {h vc : Nat} {first : Bool} {d : VcDecl} (hup : s.linkUp h = true) (hst : (s.head h).state = .ready)
    (hlisten : (s.head h).hsDiscard = false) (hd : (s.head h).chan vc = some d) :
    ∃ t, s.packet h vc { first := first } = (some d, t) ∧ SamePins h s t := by
  have hsame : ({ s.head h with hsDiscard := false } : Head) = s.head h := by rw [← hlisten]
  have hpins : SamePins h s (if first then s.modHead h (fun x => { x with hsDiscard := false }) else s) := by
    split
    · exact ⟨rfl, rfl, by rw [State.modHead_eq, State.head_setHead, hsame], rfl⟩
    · exact ⟨rfl, rfl, rfl, rfl⟩
  refine ⟨_, ?_, hpins⟩
  generalize hs1 : (if first then s.modHead h (fun x => { x with hsDiscard := false }) else s) = s1 at hpins
  have hheader : s.header h { first := first } = (true, s1) := by
    unfold State.header
    dsimp only
    rw [hs1, hpins.head, hlisten]
    rfl
  unfold State.packet
  rw [if_neg (by simp [hup, Head.receives, Head.usable, hst]), hheader]
  dsimp only
  rw [hpins.head, hd]
  rfl

/-- A stream but for the accounts of its frames. -/
def Strm.bare (x : Strm) : Strm := { x with frames := [] }

theorem State.bare_modFrame (s : State) (st : Nat) (fseq : B16) (f : FrameInfo → FrameInfo) (i : Nat) :
    ((s.modFrame st fseq f).strm i).bare = (s.strm i).bare := by
  unfold State.modFrame
  by_cases hi : st = i
  · subst hi
    rw [State.modStrm_eq, State.strm_setStrm]
    rfl
  · rw [State.modStrm_eq, State.strm_setStrm_ne _ _ _ _ hi]

/-- A focus write that issues marks a frame, and changes no more of the streams (R55). -/
theorem State.bare_issueFocus (s : State) (st : Nat) (fseq : B16) (step : Int) (i : Nat) :
    ((s.issueFocus st fseq step).strm i).bare = (s.strm i).bare := by
  unfold State.issueFocus
  extract_lets h y v
  split
  · rfl
  · exact State.bare_modFrame _ _ _ _ _

theorem State.bare_focusLines (s : State) (st : Nat) (fseq : B16) (lo hi i : Nat) :
    ((s.focusLines st fseq lo hi).strm i).bare = (s.strm i).bare := by
  unfold State.focusLines
  extract_lets y
  split
  · split
    · exact State.bare_issueFocus _ _ _ _ _
    · rfl
  · rfl

theorem State.strm_focusEnd (s : State) (st : Nat) (fseq : B16) (i : Nat) : (s.focusEnd st fseq).strm i = s.strm i := rfl

-- Frames.

/-- A head that streams on at a frame's edge keeps its streams (R42). -/
theorem State.frameEdge_of_ready {h : Nat} (hst : (s.head h).state = .ready) (hgood : (s.head h).authFailed = false) :
    ∀ i, (s.frameEdge h).strm i = s.strm i := by
  intro i
  unfold State.frameEdge
  extract_lets s1 x
  have h1 : s1.head h = { s.head h with openTrust := s.modes.openTrust, limit := s.modes.limit, lifeInForce := s.worn h } := State.head_setHead ..
  have hx : x.authFailed = false ∧ x.state = .ready := by
    simp only [x, h1]
    exact ⟨hgood, hst⟩
  rw [if_neg (by rw [hx.1]; decide), if_neg (by simp [hx.2])]
  rfl

theorem State.openFrame_spec (s : State) (st h : Nat) (fseq : B16) :
    (∃ f, ((s.openFrame st h fseq).strm st).frame = some f ∧ f.fseq = fseq) ∧ ((s.openFrame st h fseq).strm st).fseq = (s.strm st).fseq ∧
      ((s.openFrame st h fseq).strm st).fnLast = (s.strm st).fnLast ∧ ((s.openFrame st h fseq).strm st).fnSeen = (s.strm st).fnSeen := by
  unfold State.openFrame
  extract_lets x y z dead keep z' w
  have hy : y.fseq = x.fseq ∧ y.fnLast = x.fnLast ∧ y.fnSeen = x.fnSeen := by
    simp only [y]
    split <;> exact ⟨rfl, rfl, rfl⟩
  have hw : w.frame = z.frame ∧ w.fseq = y.fseq ∧ w.fnLast = y.fnLast ∧ w.fnSeen = y.fnSeen := by
    simp only [w]
    split <;> exact ⟨rfl, rfl, rfl, rfl⟩
  have hstrm : ((((s.setStrm st w).focusBegin st fseq).capFrameStart st fseq).strm st) = w :=
    ((State.capFrameStart_keeps (Nat.and_self _) _ st fseq (Keeps.refl _ _)).strm_eq st).trans (State.strm_setStrm ..)
  rw [hstrm, hw.1, hw.2.1, hw.2.2.1, hw.2.2.2]
  exact ⟨⟨_, rfl, rfl⟩, hy⟩

theorem frameStart_of_receives {h vc fn : Nat} {first : Bool} {d : VcDecl} (hup : s.linkUp h = true) (hst : (s.head h).state = .ready)
    (hlisten : (s.head h).hsDiscard = false) (hd : (s.head h).chan vc = some d) (hgood : (s.head h).authFailed = false)
    (hnone : (s.strm (4 * h + vc)).frame = none) :
    (∃ f, ((frameStart h vc { first := first } fn s).strm (4 * h + vc)).frame = some f ∧
      f.fseq = (fseqNext d.fnWrap.toNat fn (s.strm (4 * h + vc)).fnLast (s.strm (4 * h + vc)).fnSeen (s.strm (4 * h + vc)).fseq).1) ∧
    ((frameStart h vc { first := first } fn s).strm (4 * h + vc)).fseq =
      (fseqNext d.fnWrap.toNat fn (s.strm (4 * h + vc)).fnLast (s.strm (4 * h + vc)).fnSeen (s.strm (4 * h + vc)).fseq).1 ∧
    ((frameStart h vc { first := first } fn s).strm (4 * h + vc)).fnLast = fn ∧
    ((frameStart h vc { first := first } fn s).strm (4 * h + vc)).fnSeen = true := by
  obtain ⟨s1, hpacket, hpins⟩ := State.packet_of_receives (first := first) hup hst hlisten hd
  generalize ht : frameStart h vc { first := first } fn s = t
  unfold frameStart at ht
  rw [hpacket] at ht
  dsimp -zeta only at ht
  extract_lets st s2 x r s3 s4 s5 at ht
  have h1 : s1.strm st = s.strm st := by rw [State.strm, hpins.streams]; rfl
  have h2 : s2 = s1 := if_neg (by rw [h1, hnone]; decide)
  have hx : x = s.strm st := by simp only [x, h2, h1]
  have hr : r = fseqNext d.fnWrap.toNat fn (s.strm st).fnLast (s.strm st).fnSeen (s.strm st).fseq := by simp only [r, hx]
  have h3 : s3.strm st = { s.strm st with fseq := r.1, fnLast := fn, fnSeen := true } ∧ s3.head h = s.head h := by
    refine ⟨(State.strm_setStrm ..).trans ?_, ?_⟩
    · rw [h2, h1]
    · rw [← hpins.head, ← h2]
      rfl
  clear_value s3
  have h4 : s4.strm st = s3.strm st ∧ s4.head h = s3.head h := by
    simp only [s4]
    split <;> exact ⟨rfl, rfl⟩
  clear_value s4
  have h5 : s5.strm st = s4.strm st ∧ s5.head h = s4.head h := by
    simp only [s5]
    split <;> exact ⟨rfl, rfl⟩
  clear_value s5
  have hhead : s5.head h = s.head h := h5.2.trans (h4.2.trans h3.2)
  have hstrm : (s5.frameEdge h).strm st = { s.strm st with fseq := r.1, fnLast := fn, fnSeen := true } := by
    rw [State.frameEdge_of_ready (by rw [hhead]; exact hst) (by rw [hhead]; exact hgood), h5.1, h4.1, h3.1]
  obtain ⟨hframe, hfseq, hlast, hseen⟩ := State.openFrame_spec (s5.frameEdge h) st h r.1
  rw [hstrm] at hfseq hlast hseen
  rw [← ht, ← hr]
  exact ⟨hframe, hfseq, hlast, hseen⟩

/-- A stream's open frame closes (R32): with every line in and none missing, its end-of-frame tag is the next item. -/
theorem State.closeFrame_spec {st height : Nat} {f : LinkFrame} (hf : (s.strm st).frame = some f) (hstop : (s.strm st).stopNext = false) :
    ((s.closeFrame st height).strm st).frame = none ∧
      ((s.strm st).admitting = true → f.dropping = false → height - f.count = 0 → (s.strm st).missing = [] →
        ((s.closeFrame st height).strm st).buf = (s.strm st).buf ++ [.eof f.fseq]) := by
  generalize ht : s.closeFrame st height = t
  unfold State.closeFrame at ht
  extract_lets x now at ht
  rw [show x.frame = some f from hf] at ht
  dsimp -zeta only at ht
  extract_lets next owed clean tm supplied x1 items x2 x3 x4 s1 s2 s3 at ht
  have h1 : x1.frame = none ∧ x1.stopNext = false ∧ x1.admitting = x.admitting ∧ x1.missing = x.missing ∧ x1.buf = x.buf := ⟨rfl, hstop, rfl, rfl, rfl⟩
  clear_value x1
  have h3 : x3.frame = none ∧ x3.stopNext = false ∧ x3.buf = x.buf ∧
      (x.admitting = true → f.dropping = false → owed = [] → x.missing = [] → x3.missing = [.eof f.fseq]) := by
    simp only [x3]
    split
    next hadm => exact ⟨h1.1, h1.2.1, h1.2.2.2.2, fun _ _ howed hmiss => by
      show x1.missing ++ items ++ [BufItem.eof f.fseq] = _
      rw [h1.2.2.2.1, hmiss]
      simp only [items, howed, List.map_nil, List.nil_append]⟩
    next hadm => exact ⟨h1.1, h1.2.1, h1.2.2.2.2, fun ha hd _ _ => absurd (by rw [h1.2.2.1, ha, hd]; rfl) hadm⟩
  clear_value x3
  have h4 : x4.frame = none ∧ x4.stopNext = false ∧ (x3.missing = [.eof f.fseq] → x4.buf = x3.buf ++ [.eof f.fseq]) := by
    simp only [x4]
    split
    next q hq => exact ⟨h3.1, h3.2.1, fun hm => by rw [hm] at hq; cases hq; rfl⟩
    next hne => exact ⟨h3.1, h3.2.1, fun hm => absurd hm (hne _)⟩
  clear_value x4
  have hs2 : (s2.strm st).bare = x4.bare := by
    have hs1 : s1.strm st = x4 := State.strm_setStrm ..
    simp only [s2]
    rw [State.strm_focusEnd]
    split
    · rw [State.bare_focusLines, hs1]
    · rw [hs1]
  replace ht := (if_neg (by rw [h4.2.1]; decide)).symm.trans ht
  rw [← ht]
  refine ⟨(congrArg Strm.frame hs2).trans h4.1, fun ha hd hheight hmiss => ?_⟩
  have howed : owed = [] := by
    show List.range (height - f.count) = []
    rw [hheight]
    rfl
  exact (congrArg Strm.buf hs2).trans ((h4.2.2 (h3.2.2.2 ha hd howed hmiss)).trans (by rw [h3.2.2.1]))

theorem frameEnd_of_receives {h vc : Nat} {first : Bool} {d : VcDecl} {f : LinkFrame} (hup : s.linkUp h = true)
    (hst : (s.head h).state = .ready) (hlisten : (s.head h).hsDiscard = false) (hd : (s.head h).chan vc = some d)
    (hf : (s.strm (4 * h + vc)).frame = some f) (hstop : (s.strm (4 * h + vc)).stopNext = false) :
    ((frameEnd h vc { first := first } s).strm (4 * h + vc)).frame = none ∧
      ((s.strm (4 * h + vc)).admitting = true → f.dropping = false → f.last = some (d.height.toNat - 1) → 0 < d.height.toNat →
        (s.strm (4 * h + vc)).missing = [] →
        ((frameEnd h vc { first := first } s).strm (4 * h + vc)).buf = (s.strm (4 * h + vc)).buf ++ [.eof f.fseq]) := by
  obtain ⟨s1, hpacket, hpins⟩ := State.packet_of_receives (first := first) hup hst hlisten hd
  have h1 : s1.strm (4 * h + vc) = s.strm (4 * h + vc) := by rw [State.strm, hpins.streams]; rfl
  have heq : frameEnd h vc { first := first } s = s1.closeFrame (4 * h + vc) d.height.toNat := by
    unfold frameEnd
    rw [hpacket]
    exact if_neg (by rw [h1, hf]; exact Bool.false_ne_true)
  rw [heq, ← h1]
  obtain ⟨hnone, hbuf⟩ := State.closeFrame_spec (s := s1) (height := d.height.toNat) (by rw [h1]; exact hf) (by rw [h1]; exact hstop)
  refine ⟨hnone, fun ha hd hlast hpos hmiss => hbuf ha hd ?_ hmiss⟩
  have hcount : f.count = d.height.toNat - 1 + 1 := by rw [LinkFrame.count, hlast]
  omega

-- A frame that times out, and what is missing (R32, R33).

theorem State.strm_endStream_frame (s : State) (st i : Nat) : ((s.endStream st).strm i).frame = (s.strm i).frame := by
  unfold State.endStream
  extract_lets was s1 s2
  have h2 : (s2.strm i).frame = (s.strm i).frame := by
    simp only [s2]
    by_cases hi : st = i
    · subst hi
      rw [State.modStrm_eq, State.strm_setStrm]
      rfl
    · rw [State.modStrm_eq, State.strm_setStrm_ne _ _ _ _ hi]
      rfl
  clear_value s2
  split
  · exact (congrArg Strm.frame ((State.stopCommit_keeps (Nat.and_self _) _ _ (Keeps.refl _ _)).strm_eq i)).trans h2
  · exact h2

theorem linkTimeout_frame {st : Nat} {f : LinkFrame} (hup : s.linkUp (st / 4) = true) (hf : (s.strm st).frame = some f)
    (hsource : (s.strm st).source = 0) : ((linkTimeout st s).strm st).frame = none := by
  generalize ht : linkTimeout st s = t
  unfold linkTimeout at ht
  extract_lets x s1 s2 s3 at ht
  have hx : x.frame = some f := hf
  replace ht := (if_neg (by rw [hup, hx, show x.source = 0 from hsource]; exact Bool.false_ne_true)).symm.trans ht
  have h1 : (s1.strm st).frame = none := congrArg Strm.frame (State.strm_setStrm ..)
  clear_value s1
  have h2 : (s2.strm st).frame = none := by
    simp only [s2, hx]
    exact h1
  clear_value s2
  have h3 : (s3.strm st).frame = none := (State.strm_endStream_frame ..).trans h2
  clear_value s3
  rw [← ht]
  split
  · cases x.ctx with
    | none => exact h3
    | some o => exact (congrArg Strm.frame ((State.checkStopping_keeps (Nat.and_self _) _ _ (Keeps.refl _ _)).strm_eq st)).trans h3
  · exact h2

theorem missingLine_line {st : Nat} {l : Line} {m : List BufItem} (hm : (s.strm st).missing = .line l :: m) (hbuf : (s.strm st).buf = [])
    (hroom : 0 < (s.strm st).dropD) : ((missingLine st s).strm st).missing = m ∧ ((missingLine st s).strm st).buf = [.line l] := by
  unfold missingLine
  extract_lets x held
  rw [show x.missing = .line l :: m from hm]
  dsimp -zeta only
  extract_lets x1
  have hheld : held = 0 := by
    simp only [held, show x.buf = [] from hbuf]
    rfl
  rw [if_neg (by rw [hheld]; exact Nat.not_le.2 hroom), State.strm_setStrm]
  have hx1 : x1.missing = m ∧ x1.buf = [.line l] := ⟨rfl, congrArg (· ++ [BufItem.line l]) hbuf⟩
  split <;> exact hx1

theorem missingLine_eof {st : Nat} {q : B16} {m : List BufItem} (hm : (s.strm st).missing = .eof q :: m) :
    missingLine st s = s.modStrm st (fun x => { x with missing := m, buf := x.buf ++ [.eof q] }) := by
  unfold missingLine
  extract_lets x
  rw [show x.missing = .eof q :: m from hm, State.modStrm_eq]

-- Lines (R30, R32, R146).

theorem Strm.deliver_keeps (x : Strm) (l : Line) : (x.deliver l).stopNow = x.stopNow := by
  unfold Strm.deliver
  split
  · unfold Strm.push
    extract_lets y
    show y.stopNow = x.stopNow
    simp only [y]
    split <;> rfl
  · rfl

theorem Strm.buf_deliver {x : Strm} {l : Line} {f : LinkFrame} (hadm : x.admitting = true) (hf : x.frame = some f)
    (hlive : f.dropping = false) (hnone : x.missing = []) : (x.deliver l).buf = x.buf ++ [.line l] := by
  unfold Strm.deliver
  rw [if_pos (by rw [hadm, hf]; simp [hlive])]
  unfold Strm.push
  extract_lets y
  show y.buf = _
  simp only [y]
  rw [if_pos (by rw [hnone]; rfl)]

/-- A line placed in the open frame leaves no line in progress (R32). -/
theorem State.placeLine_closes {st number height fl : Nat} {stamp : B64} {codes : List B16} {f : LinkFrame}
    (hf : (s.strm st).frame = some f) :
    (∃ f', ((s.placeLine st number height stamp codes fl).strm st).frame = some f' ∧ f'.cur = none) ∧
      ((s.placeLine st number height stamp codes fl).strm st).stopNow = (s.strm st).stopNow := by
  generalize ht : s.placeLine st number height stamp codes fl = t
  unfold State.placeLine at ht
  extract_lets x hdr at ht
  rw [show x.frame = some f from hf] at ht
  dsimp -zeta only at ht
  extract_lets next n pre f1 skipped skFlags gap good x1 x2 x3 f2 at ht
  have hfold : ∀ (is : List Nat) (y : Strm),
      (is.foldl (fun y i => y.deliver { fseq := f.fseq, line := next + i, stamp := stamp, flags := skFlags, supplied := true }) y).stopNow = y.stopNow := by
    intro is
    induction is with
    | nil => exact fun _ => rfl
    | cons i is ih => exact fun y => (ih _).trans (Strm.deliver_keeps ..)
  have h2 : x2.stopNow = x.stopNow := (Strm.deliver_keeps ..).trans (hfold skipped x)
  clear_value x2
  have h3 : x3.stopNow = x.stopNow := by
    simp only [x3]
    split <;> exact h2
  clear_value x3
  rw [← ht]
  split
  · rw [State.strm_setStrm]
    exact ⟨⟨f1, rfl, rfl⟩, rfl⟩
  · rw [State.strm_setStrm]
    exact ⟨⟨f2, rfl, rfl⟩, h3⟩

theorem State.afterLine_of_not {st : Nat} (h : (s.strm st).stopNow = false) : s.afterLine st = s := if_neg (by rw [h]; decide)

theorem lineEnd_of_receives {h vc n : Nat} {stamp : B64} {first : Bool} {d : VcDecl} {f : LinkFrame} (hup : s.linkUp h = true)
    (hst : (s.head h).state = .ready) (hlisten : (s.head h).hsDiscard = false) (hd : (s.head h).chan vc = some d)
    (hf : (s.strm (4 * h + vc)).frame = some f) (hcur : f.cur = some (n, stamp)) (hstop : (s.strm (4 * h + vc)).stopNow = false) :
    ∃ f', ((lineEnd h vc { first := first } s).strm (4 * h + vc)).frame = some f' ∧ f'.cur = none := by
  obtain ⟨s1, hpacket, hpins⟩ := State.packet_of_receives (first := first) hup hst hlisten hd
  have h1 : s1.strm (4 * h + vc) = s.strm (4 * h + vc) := by rw [State.strm, hpins.streams]; rfl
  have hf1 : (s1.strm (4 * h + vc)).frame = some f := by rw [h1]; exact hf
  obtain ⟨hcloses, hkeep⟩ := State.placeLine_closes (number := n) (height := d.height.toNat) (stamp := stamp) (codes := []) (fl := 4) hf1
  have heq : lineEnd h vc { first := first } s = s1.placeLine (4 * h + vc) n d.height.toNat stamp [] 4 := by
    unfold lineEnd
    rw [hpacket]
    refine (if_neg (by rw [hf1]; exact Bool.false_ne_true)).trans ?_
    unfold State.flushCur
    rw [hf1]
    dsimp only
    rw [hcur]
    exact State.afterLine_of_not (hkeep.trans (by rw [h1]; exact hstop))
  rw [heq]
  exact hcloses

theorem lineStart_of_receives {h vc number err : Nat} {first : Bool} {d : VcDecl} {f : LinkFrame} (hup : s.linkUp h = true)
    (hst : (s.head h).state = .ready) (hlisten : (s.head h).hsDiscard = false) (hd : (s.head h).chan vc = some d)
    (hf : (s.strm (4 * h + vc)).frame = some f) (hcur : f.cur = none)
    (hroom : (s.strm (4 * h + vc)).untaken < (s.strm (4 * h + vc)).dropD) :
    ((lineStart h vc { first := first } number err s).strm (4 * h + vc)).frame =
      some { f with cur := some (number, s.stamp (4 * h + vc) err), old := false } := by
  obtain ⟨s1, hpacket, hpins⟩ := State.packet_of_receives (first := first) hup hst hlisten hd
  have h1 : s1.strm (4 * h + vc) = s.strm (4 * h + vc) := by rw [State.strm, hpins.streams]; rfl
  have hf1 : (s1.strm (4 * h + vc)).frame = some f := by rw [h1]; exact hf
  have hstamp : s1.stamp (4 * h + vc) err = s.stamp (4 * h + vc) err := by
    unfold State.stamp
    rw [h1, State.shadow, hpins.dtb]
    rfl
  have hflush : s1.flushCur (4 * h + vc) d.height.toNat = s1 := by
    unfold State.flushCur
    rw [hf1]
    dsimp only
    rw [hcur]
  generalize ht : lineStart h vc { first := first } number err s = t
  unfold lineStart at ht
  rw [hpacket] at ht
  dsimp -zeta only at ht
  extract_lets st s2 stamp at ht
  replace ht := (if_neg (by rw [hf1]; exact Bool.false_ne_true)).symm.trans ht
  have hs2 : s2 = s1 := hflush
  have hst2 : stamp = s.stamp (4 * h + vc) err := (congrArg (State.stamp · st err) hs2).trans hstamp
  clear_value s2 stamp
  subst hs2 hst2
  rw [show (s2.strm st).frame = some f from hf1] at ht
  dsimp -zeta only at ht
  extract_lets s2 n s3 at ht
  have h2 : s2.strm st = { s.strm st with
      frame := some { f with cur := some (number, s.stamp (4 * h + vc) err), old := false }, stampLast := some (s.stamp (4 * h + vc) err) } :=
    (State.strm_setStrm ..).trans (by rw [h1])
  clear_value s2
  have h3 : (s3.strm st).bare = (s2.strm st).bare := by
    simp only [s3]
    split
    · exact State.bare_focusLines ..
    · rfl
  clear_value s3
  have hbare := h3.trans (congrArg Strm.bare h2)
  have huntaken : (s3.strm st).untaken = (s.strm st).untaken := by
    show (s3.strm st).bare.untaken = _
    rw [hbare]
    rfl
  have hdrop : (s3.strm st).dropD = (s.strm st).dropD := by
    show (s3.strm st).bare.dropD = _
    rw [hbare]
    rfl
  rw [← ht, State.lineBegins_of_room (by rw [huntaken, hdrop]; exact hroom)]
  exact congrArg Strm.frame hbare

/-- The first line of a frame goes to the stream buffer as it comes (R30, R32). -/
theorem State.placeLine_first {st height : Nat} {stamp : B64} {codes : List B16} {f : LinkFrame} (hf : (s.strm st).frame = some f)
    (hcur : f.cur = none) (hlast : f.last = none) (hpos : 0 < height) (hadm : (s.strm st).admitting = true) (hlive : f.dropping = false)
    (hnone : (s.strm st).missing = []) :
    ((s.placeLine st 0 height stamp codes 0).strm st).buf = (s.strm st).buf ++ [.line (plainLine f.fseq stamp codes)] := by
  generalize ht : s.placeLine st 0 height stamp codes 0 = t
  unfold State.placeLine at ht
  extract_lets x hdr at ht
  rw [show x.frame = some f from hf] at ht
  dsimp -zeta only at ht
  extract_lets next n pre f1 skipped skFlags gap good x1 x2 x3 f2 at ht
  have hnext : next = 0 := by
    simp only [next, LinkFrame.count, hlast]
  have hn : n = 0 := by
    simp only [n, LinkFrame.place, LinkFrame.count, hlast, beq_self_eq_true, if_true]
  have hpre : pre = false := by simp only [pre, hcur, Option.isSome_none, Bool.and_false]
  have hskip : skipped = [] := by
    simp only [skipped, hn, hnext]
    rfl
  have hx1 : x1 = x := by
    simp only [x1, hskip]
    rfl
  have h2 : x2.buf = x.buf ++ [.line (plainLine f.fseq stamp codes)] := by
    simp only [x2]
    rw [hx1, hn, hpre]
    exact Strm.buf_deliver hadm hf hlive hnone
  clear_value x2
  have h3 : x3 = x2 := if_pos (by rw [hskip]; rfl)
  replace ht := (if_neg (by rw [hn, hnext]; simp [hpos.ne'])).symm.trans ht
  rw [← ht, State.strm_setStrm]
  exact (congrArg Strm.buf h3).trans h2

theorem linePayload_of_receives {h vc err crc : Nat} {first : Bool} {payload : Bytes} {d : VcDecl} {f : LinkFrame} (hup : s.linkUp h = true)
    (hst : (s.head h).state = .ready) (hlisten : (s.head h).hsDiscard = false) (hd : (s.head h).chan vc = some d)
    (hf : (s.strm (4 * h + vc)).frame = some f) (hcur : f.cur = none) (hlive : f.dropping = false)
    (hadm : (s.strm (4 * h + vc)).admitting = true) (hnone : (s.strm (4 * h + vc)).missing = [])
    (hstop : (s.strm (4 * h + vc)).stopNow = false) (hroom : (s.strm (4 * h + vc)).untaken < (s.strm (4 * h + vc)).dropD)
    (hlast : f.last = none) (hpos : 0 < d.height.toNat) (hcrc : crc16 payload = crc)
    (hwidth : (unpackRaw (rawBits d.dt.toNat d.width.toNat payload.length) payload).length = d.width.toNat) :
    ((linePayload h vc { first := first } d.dt.toNat payload crc err s).strm (4 * h + vc)).buf = (s.strm (4 * h + vc)).buf ++
      [.line (plainLine f.fseq (s.stamp (4 * h + vc) err) (unpackRaw (rawBits d.dt.toNat d.width.toNat payload.length) payload))] := by
  obtain ⟨s1, hpacket, hpins⟩ := State.packet_of_receives (first := first) hup hst hlisten hd
  have h1 : s1.strm (4 * h + vc) = s.strm (4 * h + vc) := by rw [State.strm, hpins.streams]; rfl
  have hf1 : (s1.strm (4 * h + vc)).frame = some f := by rw [h1]; exact hf
  have hstamp : s1.stamp (4 * h + vc) err = s.stamp (4 * h + vc) err := by
    unfold State.stamp
    rw [h1, State.shadow, hpins.dtb]
    rfl
  generalize ht : linePayload h vc { first := first } d.dt.toNat payload crc err s = t
  unfold linePayload at ht
  rw [hpacket] at ht
  dsimp -zeta only at ht
  extract_lets st w codes bad s2 fl at ht
  replace ht := (if_neg (by rw [bne_self_eq_false]; exact Bool.false_ne_true)).symm.trans ht
  rw [show (s1.strm st).frame = some f from hf1] at ht
  dsimp -zeta only at ht
  rw [hcur] at ht
  dsimp -zeta only at ht
  extract_lets at_ s3 at ht
  have hbad : bad = false := by
    simp only [bad, hcrc, bne_self_eq_false]
  have hfl : fl = 0 := by
    simp only [fl, hbad, codes, w, hwidth, beq_self_eq_true, if_true, Bool.false_eq_true, if_false]
  have htake : codes.take w = codes := List.take_of_length_le hwidth.le
  have h2 : s2 = s1 := if_neg (by rw [hbad]; exact Bool.false_ne_true)
  have hat : at_ = (0, s.stamp (4 * h + vc) err) := by
    simp only [at_, h2]
    rw [← hstamp]
  clear_value bad fl at_ s2
  subst h2 hat
  rw [hfl, htake] at ht
  -- the packet's stamp is the stream's last one, and no more of the stream changes before the line
  have h3 : (s3.strm st).bare = { s.strm st with stampLast := some (s.stamp (4 * h + vc) err) }.bare := by
    have heq : s3 = ((s2.modStrm st (fun x => { x with stampLast := some (s.stamp (4 * h + vc) err) })).focusLines st f.fseq f.count
        (min f.count (d.height.toNat - 1))).lineBegins st := if_pos rfl
    rw [heq]
    generalize hs4 : s2.modStrm st (fun x => { x with stampLast := some (s.stamp (4 * h + vc) err) }) = s4
    have h4 : s4.strm st = { s.strm st with stampLast := some (s.stamp (4 * h + vc) err) } := by
      rw [← hs4, ← h1]
      exact State.strm_setStrm ..
    generalize hs5 : s4.focusLines st f.fseq f.count (min f.count (d.height.toNat - 1)) = s5
    have h5 : (s5.strm st).bare = { s.strm st with stampLast := some (s.stamp (4 * h + vc) err) }.bare := by
      rw [← hs5, State.bare_focusLines, h4]
    have huntaken : (s5.strm st).untaken < (s5.strm st).dropD := by
      show (s5.strm st).bare.untaken < (s5.strm st).bare.dropD
      rw [h5]
      exact hroom
    rw [State.lineBegins_of_room huntaken, h5]
  clear_value s3
  have hf3 : (s3.strm st).frame = some f := by
    show (s3.strm st).bare.frame = _
    rw [h3]
    exact hf
  have hkeep := (State.placeLine_closes (number := 0) (height := d.height.toNat) (stamp := s.stamp (4 * h + vc) err) (codes := codes) (fl := 0) hf3).2
  have hstop3 : (s3.strm st).stopNow = false := by
    show (s3.strm st).bare.stopNow = _
    rw [h3]
    exact hstop
  rw [State.afterLine_of_not (hkeep.trans hstop3)] at ht
  rw [← ht, State.placeLine_first hf3 hcur hlast hpos (by show (s3.strm st).bare.admitting = _; rw [h3]; exact hadm) hlive
    (by show (s3.strm st).bare.missing = _; rw [h3]; exact hnone)]
  show (s3.strm st).bare.buf ++ _ = _
  rw [h3]
  rfl

theorem embedded_of_receives {h vc crc : Nat} {first : Bool} {payload : Bytes} {d : VcDecl} {f : LinkFrame} (hup : s.linkUp h = true)
    (hst : (s.head h).state = .ready) (hlisten : (s.head h).hsDiscard = false) (hd : (s.head h).chan vc = some d)
    (hf : (s.strm (4 * h + vc)).frame = some f) (hdt : d.embDt.toNat ≠ 0) (hcrc : crc16 payload = crc) :
    (embedded h vc { first := first } d.embDt.toNat payload crc s).strm (4 * h + vc) =
      (s.strm (4 * h + vc)).modFrame f.fseq (fun i => { i with emb := i.emb ++ [payload] }) := by
  obtain ⟨s1, hpacket, hpins⟩ := State.packet_of_receives (first := first) hup hst hlisten hd
  have h1 : s1.strm (4 * h + vc) = s.strm (4 * h + vc) := by rw [State.strm, hpins.streams]; rfl
  generalize ht : embedded h vc { first := first } d.embDt.toNat payload crc s = t
  unfold embedded at ht
  rw [hpacket] at ht
  dsimp -zeta only at ht
  extract_lets st s2 at ht
  replace ht := (if_neg (by simp [hdt])).symm.trans ht
  rw [show (s1.strm st).frame = some f from h1 ▸ hf] at ht
  dsimp -zeta only at ht
  have h2 : s2 = s1 := if_neg (by rw [hcrc, bne_self_eq_false]; exact Bool.false_ne_true)
  rw [← ht, State.strm_modFrame, h2]
  exact congrArg (Strm.modFrame · f.fseq _) h1

/-- Settles O11: frames and lines, by what a packet of a listening head reaches. -/
theorem framesAndLinesArrive : Obligations.FramesAndLinesArrive := by
  unfold Obligations.FramesAndLinesArrive
  refine ⟨⟨?_, ?_, ?_, ?_, ?_⟩, ?_, ?_, ?_, ?_⟩
  · intro h vc first fn d s ⟨hup, hst, hlisten, hd⟩ hgood hnone
    obtain ⟨⟨f, hf, hfseq⟩, hst, hlast, hseen⟩ := frameStart_of_receives (first := first) (fn := fn.toNat) hup hst hlisten hd hgood hnone
    exact ⟨_, f, rfl, hf, hst, hfseq.trans hst.symm, hlast, hseen⟩
  · intro h vc first d f s ⟨hup, hst, hlisten, hd⟩ hf hstop
    exact ⟨_, rfl, frameEnd_of_receives hup hst hlisten hd hf hstop⟩
  · intro st f s hup hf hsource
    exact ⟨_, rfl, linkTimeout_frame hup hf hsource⟩
  · intro st l m s hm hbuf hroom
    exact ⟨_, rfl, missingLine_line hm hbuf hroom⟩
  · intro st q m s hm
    exact congrArg Host.Outcome.next (missingLine_eof hm)
  · intro h vc first number err d f s ⟨hup, hst, hlisten, hd⟩ hf hcur hroom
    exact ⟨_, rfl, lineStart_of_receives hup hst hlisten hd hf hcur hroom⟩
  · intro h vc first n stamp d f s ⟨hup, hst, hlisten, hd⟩ hf hcur hstop
    obtain ⟨f', hf', hcur'⟩ := lineEnd_of_receives (first := first) hup hst hlisten hd hf hcur hstop
    exact ⟨_, f', rfl, hf', hcur'⟩
  · intro h vc first payload crc err d f s ⟨hup, hst, hlisten, hd⟩ hf hcur hlive _ hadm hnone hstop hroom hlast hpos hcrc hwidth
    exact ⟨_, rfl, linePayload_of_receives hup hst hlisten hd hf hcur hlive hadm hnone hstop hroom hlast hpos hcrc hwidth⟩
  · intro h vc first payload crc d f s ⟨hup, hst, hlisten, hd⟩ hf hdt hcrc
    exact ⟨_, rfl, embedded_of_receives hup hst hlisten hd hf (fun h0 => hdt (BitVec.eq_of_toNat_eq h0)) hcrc⟩

end Sys2Proof.Machine

/-! Lines leave the part: the output queues, and the host buffers, links, senders and datagrams that empty them
(chapters 06, 13 and 15). -/

namespace Sys2Proof.Machine
set_option Elab.async false
variable {s t : State}

-- The output queue fills (R168, R173).

/-- A stream with the flits that have arrived in its skid. -/
def Strm.inSkid (x : Strm) : Strm := { x with skid := if x.oqHeld < x.oqLines then 0 else x.oqIn }

theorem OutLine.flits_pos (l : OutLine) : 0 < l.flits := by
  unfold OutLine.flits
  split
  · exact Nat.one_pos
  · exact Nat.lt_of_lt_of_le Nat.one_pos (Nat.le_max_left _ _)

/-- Nothing enters the queue before an item's flits have all arrived. -/
theorem State.oqFill_of_short {st : Nat} (n : Nat) (h : ∀ l m, (s.strm st).toOut = l :: m → (s.strm st).oqIn < l.flits) :
    State.oqFill n st s = s := by
  cases n with
  | zero => rfl
  | succ n =>
    unfold State.oqFill
    extract_lets x
    cases hx : x.toOut with
    | nil => rfl
    | cons l m => exact if_pos (h l m hx)

theorem State.oqFill_of_empty {st : Nat} (n : Nat) (h : (s.strm st).oqIn = 0) : State.oqFill n st s = s :=
  State.oqFill_of_short n fun l _ _ => by rw [h]; exact l.flits_pos

/-- The last flit of a line enters it in a queue with room. -/
theorem State.oqFill_line {st n : Nat} {l : OutLine} {m : List OutLine} (hto : (s.strm st).toOut = l :: m) (hin : (s.strm st).oqIn = l.flits)
    (heof : l.eof = false) (hdrop : (s.strm st).outDrop ≠ some l.fseq) (hroom : (s.strm st).oqHeld < (s.strm st).oqLines) :
    State.oqFill (n + 1) st s = s.setStrm st { s.strm st with toOut := m, oqIn := 0, oq := (s.strm st).oq ++ [l] } := by
  unfold State.oqFill
  extract_lets x
  rw [show x.toOut = l :: m from hto]
  dsimp only
  rw [if_neg (Nat.not_lt.2 hin.ge), if_neg (by rw [heof]; decide), if_neg (by simpa using hdrop), if_pos hroom, show x.oqIn = l.flits from hin,
    Nat.sub_self]
  exact State.oqFill_of_empty n (congrArg Strm.oqIn (State.strm_setStrm ..))

/-- The last flit of a line of a frame that is discarded takes the line away. -/
theorem State.oqFill_drop {st n : Nat} {l : OutLine} {m : List OutLine} (hto : (s.strm st).toOut = l :: m) (hin : (s.strm st).oqIn = l.flits)
    (heof : l.eof = false) (hdrop : (s.strm st).outDrop = some l.fseq) :
    State.oqFill (n + 1) st s =
      s.setStrm st { s.strm st with toOut := m, oqIn := 0, linesDropped := (s.strm st).linesDropped + 1 } := by
  unfold State.oqFill
  extract_lets x
  rw [show x.toOut = l :: m from hto]
  dsimp only
  rw [if_neg (Nat.not_lt.2 hin.ge), if_neg (by rw [heof]; decide), if_pos (by rw [show x.outDrop = _ from hdrop, beq_self_eq_true]),
    show x.oqIn = l.flits from hin, Nat.sub_self]
  exact State.oqFill_of_empty n (congrArg Strm.oqIn (State.strm_setStrm ..))

/-- No line enters a queue without room. -/
theorem State.oqFill_of_full {st : Nat} {l : OutLine} {m : List OutLine} (n : Nat) (hto : (s.strm st).toOut = l :: m) (heof : l.eof = false)
    (hdrop : (s.strm st).outDrop ≠ some l.fseq) (hfull : (s.strm st).oqLines ≤ (s.strm st).oqHeld) : State.oqFill n st s = s := by
  cases n with
  | zero => rfl
  | succ n =>
    unfold State.oqFill
    extract_lets x
    rw [show x.toOut = l :: m from hto]
    dsimp only
    rw [if_neg (c := l.eof = true) (by rw [heof]; decide), if_neg (c := (x.outDrop == some l.fseq) = true) (by simpa using hdrop),
      if_neg (Nat.not_lt.2 hfull), ite_self]

/-- A frame's end enters the queue always. -/
theorem State.oqFill_eof {st n : Nat} {l : OutLine} {m : List OutLine} (hto : (s.strm st).toOut = l :: m) (hin : (s.strm st).oqIn = l.flits)
    (heof : l.eof = true) :
    State.oqFill (n + 1) st s = (s.setStrm st { s.strm st with
      toOut := m, oqIn := 0, oq := (s.strm st).oq ++ [{ l with drop := (s.strm st).outDrop == some l.fseq }], outDrop := none }).modFrame st l.fseq
        (fun i => { i with out := true }) := by
  unfold State.oqFill
  extract_lets x
  rw [show x.toOut = l :: m from hto]
  dsimp only
  rw [if_neg (Nat.not_lt.2 hin.ge), if_pos heof, show x.oqIn = l.flits from hin, Nat.sub_self]
  refine State.oqFill_of_empty n (congrArg Strm.oqIn (State.strm_modFrame ..) |>.trans ?_)
  exact congrArg Strm.oqIn (State.strm_setStrm ..)

theorem State.strm_oqUpdate (s : State) (st : Nat) :
    (s.oqUpdate st).strm st = ((State.oqFill ((s.strm st).toOut.length + 1) st s).strm st).inSkid := State.strm_setStrm ..

/-- What the arrival of lines leaves of a stream: the buffer that is open, and the descriptor that is granted. -/
theorem State.oqFill_buf (n st : Nat) (s : State) :
    ((State.oqFill n st s).strm st).openBuf = (s.strm st).openBuf ∧ ((State.oqFill n st s).strm st).granted = (s.strm st).granted := by
  induction n generalizing s with
  | zero => exact ⟨rfl, rfl⟩
  | succ n ih =>
    unfold State.oqFill
    extract_lets x
    cases x.toOut with
    | nil => exact ⟨rfl, rfl⟩
    | cons l m =>
      dsimp only
      split
      · exact ⟨rfl, rfl⟩
      split
      · obtain ⟨hbuf, hgrant⟩ := ih ((s.setStrm st { x with toOut := m, oqIn := x.oqIn - l.flits
                                                            oq := x.oq ++ [{ l with drop := x.outDrop == some l.fseq }], outDrop := none }).modFrame st l.fseq
                                    (fun i => { i with out := true }))
        rw [hbuf, hgrant, State.strm_modFrame, State.strm_setStrm]
        exact ⟨rfl, rfl⟩
      split
      · obtain ⟨hbuf, hgrant⟩ := ih (s.setStrm st { x with toOut := m, oqIn := x.oqIn - l.flits, linesDropped := x.linesDropped + 1 })
        rw [hbuf, hgrant, State.strm_setStrm]
        exact ⟨rfl, rfl⟩
      split
      · obtain ⟨hbuf, hgrant⟩ := ih (s.setStrm st { x with toOut := m, oqIn := x.oqIn - l.flits, oq := x.oq ++ [l] })
        rw [hbuf, hgrant, State.strm_setStrm]
        exact ⟨rfl, rfl⟩
      · exact ⟨rfl, rfl⟩

/-- What becomes of a stream as its output queue settles, where no flit has arrived that waits. -/
theorem State.strm_oqSettle (s : State) (st : Nat) :
    (s.oqSettle st).strm st = ((State.oqFill ((s.strm st).toOut.length + 1) st s).strm st).inSkid := by
  unfold State.oqSettle
  extract_lets s1
  have h1 : s1.strm st = ((State.oqFill ((s.strm st).toOut.length + 1) st s).strm st).inSkid := State.strm_oqUpdate ..
  clear_value s1
  split
  · exact ((State.request_keeps (Nat.and_self _) s1 _ _ (Keeps.refl _ _)).strm_eq st).trans h1
  · exact h1

-- A flit reaches the output queue (R144, R173, R174).

theorem outputFlit_of_idle {st : Nat} (h : (s.strm st).frozen = true ∨ (s.strm st).toOut = []) : outputFlit st s = s := by
  refine if_pos ?_
  rcases h with h | h <;> simp [h]

/-- A stream of which a flit may come: it is not frozen, and the item in course is not all there. -/
theorem outputFlit_goes {st : Nat} {l : OutLine} {m : List OutLine} (hto : (s.strm st).toOut = l :: m) (hlive : (s.strm st).frozen = false)
    (hin : (s.strm st).oqIn < l.flits) :
    ¬ ((s.strm st).frozen || decide (((s.strm st).toOut.map OutLine.flits).sum ≤ (s.strm st).oqIn)) = true := by
  rw [hlive, hto, List.map_cons, List.sum_cons, Bool.false_or, decide_eq_true_eq]
  omega

theorem outputFlit_of_room {st : Nat} {l : OutLine} {m : List OutLine} (hto : (s.strm st).toOut = l :: m) (hlive : (s.strm st).frozen = false)
    (hin : (s.strm st).oqIn < l.flits)
    (hroom : (s.strm st).oqHeld < (s.strm st).oqLines ∨ (s.strm st).oqIn = 0 ∧ (l.eof = true ∨ (s.strm st).outDrop = some l.fseq)) :
    outputFlit st s = (s.setStrm st { s.strm st with oqIn := (s.strm st).oqIn + 1 }).oqUpdate st := by
  refine (if_neg (outputFlit_goes hto hlive hin)).trans (if_pos ?_)
  rw [hto]
  rcases hroom with h | ⟨h0, h | h⟩
  · simp [h]
  · simp [h0, h]
  · simp [h0, h]

section
variable {st : Nat} {l : OutLine} {m : List OutLine} (hto : (s.strm st).toOut = l :: m) (heof : l.eof = false)
  (hlive : (s.strm st).frozen = false) (hin : (s.strm st).oqIn < l.flits) (hfull : (s.strm st).oqLines ≤ (s.strm st).oqHeld)
  (hdrop : (s.strm st).outDrop ≠ some l.fseq)
include hto heof hlive hin hfull hdrop

/-- Without room a flit of a STALL stream requests a stall, and lies in the skid. -/
theorem outputFlit_of_stall (hstall : (s.strm st).stall = true) (hskid : (s.strm st).oqIn < 24) :
    outputFlit st s = ((s.request (outOrigin st) true).modStrm st (fun y => { y with oqIn := y.oqIn + 1 })).oqUpdate st := by
  refine (if_neg (outputFlit_goes hto hlive hin)).trans ((if_neg ?_).trans ((if_pos hstall).trans (if_neg (Nat.not_le.2 hskid))))
  rw [hto]
  simp [Nat.not_lt.2 hfull, heof, hdrop]

theorem outputFlit_of_skidOvf (hstall : (s.strm st).stall = true) (hskid : 24 ≤ (s.strm st).oqIn) :
    ∃ site f, outputFlit st s = (s.request (outOrigin st) true).skidOvf site ((s.strm st).ctx.getD 255) f := by
  refine ⟨_, _, (if_neg (outputFlit_goes hto hlive hin)).trans ((if_neg ?_).trans ((if_pos hstall).trans (if_pos hskid)))⟩
  rw [hto]
  simp [Nat.not_lt.2 hfull, heof, hdrop]

/-- Without room a flit of a DROP stream discards its line, and marks its frame. -/
theorem outputFlit_of_drop (hstall : (s.strm st).stall = false) :
    outputFlit st s =
      ((s.setStrm st { s.strm st with oqIn := (s.strm st).oqIn + 1, outDrop := some l.fseq }).modFrame st l.fseq (fun i => i.flag .outDrop)).oqUpdate st := by
  have hnext : (s.strm st).toOut.headD { fseq := 0, line := 0, stamp := 0 } = l := by rw [hto]; rfl
  unfold outputFlit
  extract_lets x room next s1 o
  have hn : next = l := hnext
  clear_value next
  subst hn
  refine (if_neg (outputFlit_goes hto hlive hin)).trans ((if_neg ?_).trans (if_neg ?_))
  · simp [room, x, Nat.not_lt.2 hfull, heof, hdrop]
  · rw [show x.stall = false from hstall]
    decide

end

theorem bit_orBit_self (v i : Nat) : bit (orBit v i) i = true := by
  unfold orBit
  split
  · assumption
  · next h =>
    unfold bit at *
    rw [Nat.add_div_right v (Nat.two_pow_pos i)]
    simp only [beq_iff_eq] at *
    omega

theorem State.origin_request (s : State) (o : Nat) : ((s.request o true).origin o).req = true := by
  unfold State.request
  extract_lets x
  split
  · next h => exact (beq_iff_eq.1 h).symm
  · rw [if_pos rfl, State.origin_setOrigin]

/-- What the next flit of an item leaves of its stream, where it finds room. -/
theorem outputFlit_enters {st : Nat} {l : OutLine} {m : List OutLine} (hto : (s.strm st).toOut = l :: m) (heof : l.eof = false)
    (hlive : (s.strm st).frozen = false) (hroom : (s.strm st).oqHeld < (s.strm st).oqLines) (hdrop : (s.strm st).outDrop ≠ some l.fseq) :
    ((s.strm st).oqIn + 1 = l.flits → ((outputFlit st s).strm st).toOut = m ∧ ((outputFlit st s).strm st).oq = (s.strm st).oq ++ [l] ∧
        ((outputFlit st s).strm st).oqIn = 0) ∧
      ((s.strm st).oqIn + 1 < l.flits → ((outputFlit st s).strm st).toOut = l :: m ∧ ((outputFlit st s).strm st).oq = (s.strm st).oq ∧
        ((outputFlit st s).strm st).oqIn = (s.strm st).oqIn + 1 ∧ ((outputFlit st s).strm st).skid = 0) := by
  have h1 : (s.setStrm st { s.strm st with oqIn := (s.strm st).oqIn + 1 }).strm st = { s.strm st with oqIn := (s.strm st).oqIn + 1 } :=
    State.strm_setStrm ..
  constructor
  · intro hlast
    rw [outputFlit_of_room hto hlive (by omega) (.inl hroom), State.strm_oqUpdate,
      State.oqFill_line (by rw [h1]; exact hto) (by rw [h1]; exact hlast) heof (by rw [h1]; exact hdrop) (by rw [h1]; exact hroom),
      State.strm_setStrm, h1]
    exact ⟨rfl, rfl, rfl⟩
  · intro hmore
    rw [outputFlit_of_room hto hlive (by omega) (.inl hroom), State.strm_oqUpdate,
      State.oqFill_of_short _ (fun l' m' h => by rw [h1] at h ⊢; cases hto.symm.trans h; exact hmore), h1]
    exact ⟨hto, rfl, rfl, if_pos hroom⟩

/-- The settled stream of a line that its discarded frame takes with it. -/
theorem State.oqUpdate_discards {st : Nat} {l : OutLine} {m : List OutLine} (hto : (s.strm st).toOut = l :: m) (heof : l.eof = false)
    (hin : (s.strm st).oqIn ≤ l.flits) (hdrop : (s.strm st).outDrop = some l.fseq) :
    ((s.oqUpdate st).strm st).outDrop = some l.fseq ∧ ((s.oqUpdate st).strm st).oq = (s.strm st).oq ∧
      ((s.oqUpdate st).strm st).frames = (s.strm st).frames ∧
      (if (s.strm st).oqIn = l.flits then ((s.oqUpdate st).strm st).toOut = m ∧ ((s.oqUpdate st).strm st).linesDropped = (s.strm st).linesDropped + 1
        else ((s.oqUpdate st).strm st).toOut = l :: m ∧ ((s.oqUpdate st).strm st).linesDropped = (s.strm st).linesDropped) := by
  rw [State.strm_oqUpdate]
  by_cases hlast : (s.strm st).oqIn = l.flits
  · rw [State.oqFill_drop hto hlast heof hdrop, State.strm_setStrm, if_pos hlast]
    exact ⟨hdrop, rfl, rfl, rfl, rfl⟩
  · rw [State.oqFill_of_short _ (fun l' m' h => by cases hto.symm.trans h; omega), if_neg hlast]
    exact ⟨hdrop, rfl, rfl, hto, rfl⟩

/-- Without room a DROP stream discards the line and the rest of its frame (R174). -/
theorem outputFlit_discards : ∀ (st : StreamId) (l : OutLine) (m : List OutLine) (s : State), (s.strm st).toOut = l :: m → l.eof = false → (s.strm st).frozen = false →
    (s.strm st).oqLines ≤ (s.strm st).oqHeld → (s.strm st).outDrop ≠ some l.fseq → (s.strm st).stall = false → (s.strm st).oqIn < l.flits →
    ∃ t, exec (.outputFlit st) s = .next t ∧ (t.strm st).outDrop = some l.fseq ∧ (t.strm st).oq = (s.strm st).oq ∧
      ((t.strm st).info l.fseq).all (fun i => i.has .outDrop) = true ∧
      (if (s.strm st).oqIn + 1 = l.flits then (t.strm st).toOut = m ∧ (t.strm st).linesDropped = (s.strm st).linesDropped + 1
        else (t.strm st).toOut = l :: m ∧ (t.strm st).linesDropped = (s.strm st).linesDropped) := by
  intro st l m s hto heof hlive hfull hdrop hstall hin
  refine ⟨_, congrArg Host.Outcome.next (outputFlit_of_drop hto heof hlive hin hfull hdrop hstall), ?_⟩
  generalize hs1 : (s.setStrm st { s.strm st with oqIn := (s.strm st).oqIn + 1, outDrop := some l.fseq }).modFrame st l.fseq (fun i => i.flag .outDrop) = s1
  have h1 : s1.strm st = ({ s.strm st with oqIn := (s.strm st).oqIn + 1, outDrop := some l.fseq } : Strm).modFrame l.fseq (fun i => i.flag .outDrop) := by
    rw [← hs1, State.strm_modFrame, State.strm_setStrm]
  clear hs1
  obtain ⟨hout, hoq, hframes, hgone⟩ := State.oqUpdate_discards (s := s1) (l := l) (m := m) (by rw [h1]; exact hto) heof (by rw [h1]; exact hin) (by rw [h1]; rfl)
  rw [h1] at hoq hframes hgone
  refine ⟨hout, hoq, ?_, hgone⟩
  have hinfo : ((s1.oqUpdate st).strm st).info l.fseq = ((s.strm st).info l.fseq).map (fun i => i.flag .outDrop) := by
    unfold Strm.info at *
    rw [hframes]
    exact Strm.info_modFrame (fun _ => rfl)
  rw [hinfo]
  cases (s.strm st).info l.fseq with
  | none => rfl
  | some i => exact bit_orBit_self _ _

-- Lines leave the output queue (R170, R399).

theorem Strm.countLat_oq (x : Strm) (fseq : B16) (drop : Bool) : (x.countLat fseq drop).oq = x.oq := by
  have hfold : ∀ (ts : List Nat) (y : Strm), (ts.foldl (fun (y : Strm) (t : Nat) => { y with
      latMax := max y.latMax (min t 0xFFFFFFFF), latLast := min t 0xFFFFFFFF
      latSum := y.latSum + BitVec.ofNat 64 t, latCount := y.latCount + 1 }) y).oq = y.oq := by
    intro ts
    induction ts with
    | nil => exact fun _ => rfl
    | cons t ts ih => exact fun y => ih _
  unfold Strm.countLat
  extract_lets mine y
  split
  · rfl
  · exact hfold mine y

/-- What the timing of a line's last byte leaves: all of the stream but its accounts of latency. -/
theorem Strm.sendAt_keeps (x : Strm) (now : B64) (fseq : B16) (stamp : B64) (untimed : Bool) :
    (x.sendAt now fseq stamp untimed).oq = x.oq ∧ (x.sendAt now fseq stamp untimed).oqIn = x.oqIn ∧
      (x.sendAt now fseq stamp untimed).granted = x.granted ∧ (x.sendAt now fseq stamp untimed).openBuf = x.openBuf := by
  unfold Strm.sendAt
  split <;> exact ⟨rfl, rfl, rfl, rfl⟩

/-- A queue that settles keeps its lines while no flit waits, and its buffer. -/
theorem State.oqSettle_spec (s : State) (st : Nat) :
    ((s.strm st).oqIn = 0 → ((s.oqSettle st).strm st).oq = (s.strm st).oq) ∧ ((s.oqSettle st).strm st).openBuf = (s.strm st).openBuf ∧
      ((s.oqSettle st).strm st).granted = (s.strm st).granted ∧ (s.oqSettle st).hostMem = s.hostMem ∧ (s.oqSettle st).senders = s.senders := by
  obtain ⟨hbuf, hgrant⟩ := State.oqFill_buf ((s.strm st).toOut.length + 1) st s
  have hkeep := State.oqSettle_keeps (Nat.and_self _) s st (Keeps.refl _ _)
  refine ⟨fun h0 => ?_, ?_, ?_, hkeep.hostMem_eq, hkeep.senders_eq⟩
  · rw [State.strm_oqSettle, State.oqFill_of_empty _ h0]
    rfl
  · rw [State.strm_oqSettle]
    exact hbuf
  · rw [State.strm_oqSettle]
    exact hgrant

/-- A line is written at the address of the descriptor that its buffer opens with (R170). -/
theorem sendHost_opens {st : Nat} {l : OutLine} {m : List OutLine} {d : PoolDesc} (hoq : (s.strm st).oq = l :: m) (heof : l.eof = false)
    (hbuf : (s.strm st).openBuf = none) (hgrant : (s.strm st).granted = some d) (hpool : (s.strm st).pool < 64)
    (hport : s.portUp (dieOfStream st) = true) (hep : (s.ep (s.epOf (s.pool (s.strm st).pool).fn)).up = true) :
    ((s.strm st).oqIn = 0 → ((s.sendHost st).strm st).oq = m) ∧ ((s.sendHost st).strm st).granted = none ∧
      (s.sendHost st).hostMem = Memory.writeBytes s.hostMem d.addr.toNat l.data ∧
      ∃ b, ((s.sendHost st).strm st).openBuf = some b ∧ b.desc = d ∧ b.fseq = l.fseq ∧ b.first = l.line ∧ b.lines = 1 ∧
        b.bytes = l.data.length := by
  generalize ht : s.sendHost st = t
  unfold State.sendHost at ht
  extract_lets x at ht
  replace ht := (if_neg (by simp [hep, hport, x, Nat.not_le.2 hpool])).symm.trans ht
  rw [show x.oq = l :: m from hoq] at ht
  dsimp -zeta only at ht
  replace ht := (if_neg (by rw [heof]; decide)).symm.trans ht
  generalize hput : s.putLine st false l.fseq l.line l.stamp l.recFlags l.data = r at ht
  unfold State.putLine at hput
  extract_lets r1 at hput
  rw [show x.bufOf false = none from hbuf] at hput
  dsimp -zeta only at hput
  rw [show x.granted = some d from hgrant] at hput
  dsimp -zeta only at hput
  have hr1 : r1.2.hostMem = s.hostMem ∧ r1.2.strm st = s.strm st :=
    have hkeep := State.reserveCpl_keeps (Nat.and_self _) s x.pool (Keeps.refl _ _)
    ⟨hkeep.hostMem_eq, hkeep.strm_eq st⟩
  clear_value r1
  subst hput
  dsimp -zeta only at ht
  generalize hs2 : (r1.2.hostWrite d.addr l.data).modStrm st _ = s2 at ht
  have h2 : s2.hostMem = Memory.writeBytes s.hostMem d.addr.toNat l.data ∧ (s2.strm st).granted = none ∧
      (s2.strm st).oqIn = (s.strm st).oqIn ∧ ∃ b, (s2.strm st).openBuf = some b ∧ b.desc = d ∧ b.fseq = l.fseq ∧ b.first = l.line ∧
        b.lines = 1 ∧ b.bytes = l.data.length := by
    have hstrm : (r1.2.strm st).oqIn = (s.strm st).oqIn := congrArg Strm.oqIn hr1.2
    rw [← hs2, State.modStrm_eq, State.strm_setStrm]
    refine ⟨congrArg (Memory.writeBytes · d.addr.toNat l.data) hr1.1, rfl, hstrm, _, rfl, rfl, rfl, rfl, rfl, rfl⟩
  obtain ⟨hmem, hgrant2, hin2, b, hb, hfields⟩ := h2
  clear hs2
  generalize hs3 : s2.modStrm st _ = s3 at ht
  obtain ⟨hq, hin, hg, ho⟩ := Strm.sendAt_keeps { s2.strm st with oq := m } s2.dtb.now l.fseq l.stamp l.untimed
  have h3 : s3.strm st = ({ s2.strm st with oq := m } : Strm).sendAt s2.dtb.now l.fseq l.stamp l.untimed := by
    rw [← hs3, State.modStrm_eq, State.strm_setStrm]
  have hmem3 : s3.hostMem = s2.hostMem := by
    rw [← hs3]
    rfl
  clear hs3
  obtain ⟨hoq3, hopen3, hgrant3, hmem4, -⟩ := State.oqSettle_spec s3 st
  rw [← ht]
  refine ⟨fun h0 => ?_, ?_, ?_, b, ?_, hfields⟩
  · rw [hoq3 (by rw [h3, hin]; exact hin2.trans h0), h3, hq]
  · rw [hgrant3, h3, hg]
    exact hgrant2
  · rw [hmem4, hmem3, hmem]
  · rw [hopen3, h3, ho]
    exact hb

/-- Over a Yallek link that is up the oldest item leaves (R399). -/
theorem sendYallek_leaves {st : Nat} {l : OutLine} {m : List OutLine} (hoq : (s.strm st).oq = l :: m)
    (hup : (s.yport ((s.strm st).routeIx % 4)).up = true) :
    ((s.strm st).oqIn = 0 → ((s.sendYallek st).strm st).oq = m) ∧ (s.sendYallek st).hostMem = s.hostMem := by
  refine ⟨fun h0 => ?_, (State.sendYallek_keeps (Nat.and_self _) s st (Keeps.refl _ _)).hostMem_eq⟩
  generalize ht : s.sendYallek st = t
  unfold State.sendYallek at ht
  extract_lets x p ep at ht
  replace ht := (if_neg (by simp [hup, p, x])).symm.trans ht
  rw [show x.oq = l :: m from hoq] at ht
  dsimp -zeta only at ht
  split at ht
  · rw [← ht, State.modStrm_eq, State.strm_setStrm, Strm.countLat_oq]
  · extract_lets last fl s1 at ht
    have h1 : s1.strm st = s.strm st := by
      simp only [s1]
      exact foldl_same (g := fun s => s.strm st) (fun s g => (State.queueSpore_keeps (Nat.and_self _) s _ _ _ _ (Keeps.refl _ _)).strm_eq st) _ _
    clear_value s1
    rw [← ht]
    generalize hs2 : s1.modStrm st _ = s2
    obtain ⟨hq, hin, -, -⟩ := Strm.sendAt_keeps { s1.strm st with oq := m } s1.dtb.now l.fseq l.stamp l.untimed
    have h2 : s2.strm st = ({ s1.strm st with oq := m } : Strm).sendAt s1.dtb.now l.fseq l.stamp l.untimed := by
      rw [← hs2, State.modStrm_eq, State.strm_setStrm]
    clear hs2
    rw [(State.oqSettle_spec s2 st).1 (by rw [h2, hin, h1]; exact h0), h2, hq]

-- ST 2110 senders (R405, R407).

theorem st2110Packet_ends {d st : Nat} {l : OutLine} {m : List OutLine} (hserve : s.senderStream d = some st) (hon : (s.sender d).enabled = true)
    (hlive : s.ethLive (d / 16) = true) (hup : (s.eth (d / 16)).up = true) (hoq : (s.strm st).oq = l :: m) (heof : l.eof = true) :
    ((st2110Packet d s).strm st).oq = m ∧ ((st2110Packet d s).sender d).next = 0 ∧ ((st2110Packet d s).sender d).frame = none ∧
      ((st2110Packet d s).sender d).late = 0 := by
  generalize ht : st2110Packet d s = t
  unfold st2110Packet at ht
  extract_lets v p at ht
  rw [hserve] at ht
  dsimp -zeta only at ht
  extract_lets x at ht
  replace ht := (if_neg (by simp [hon, hlive, hup, v, p])).symm.trans ht
  rw [show x.oq = l :: m from hoq] at ht
  dsimp -zeta only at ht
  replace ht := (if_pos heof).symm.trans ht
  generalize hs1 : s.modStrm st (fun y => { y with oq := m }) = s1 at ht
  have h1 : (s1.strm st).oq = m := by rw [← hs1]; exact congrArg Strm.oq (State.strm_setStrm ..)
  clear hs1
  unfold State.endSent at ht
  extract_lets v1 s2 at ht
  have h2 : s2.strm st = s1.strm st := by
    simp only [s2]
    split <;> rfl
  clear_value s2
  rw [← ht, State.modStrm_eq, State.strm_setStrm]
  refine ⟨(Strm.countLat_oq ..).trans ((congrArg Strm.oq h2).trans h1), ?_⟩
  rw [State.sender_of_setStrm, State.sender_setSender]
  exact ⟨rfl, rfl, rfl⟩

/-- A packet of which every row waits in the queue goes out at its time, and not before (R407). -/
theorem st2110Packet_sends {d st : Nat} {l : OutLine} {m : List OutLine} {f : B16 × B64} (hserve : s.senderStream d = some st)
    (hon : (s.sender d).enabled = true) (hlive : s.ethLive (d / 16) = true) (hup : (s.eth (d / 16)).up = true)
    (hoq : (s.strm st).oq = l :: m) (heof : l.eof = false) (hf : (s.sender d).frame = some f)
    (hspans : (s.sender d).spans (s.sdecl st).outWidth ((s.sender d).next * 1260)
      (min ((s.sender d).next * 1260 + 1260) ((s.sender d).rowLen (s.sdecl st).outWidth * (s.sdecl st).height)) ≠ [])
    (hrows : ∀ q ∈ (s.sender d).spans (s.sdecl st).outWidth ((s.sender d).next * 1260)
        (min ((s.sender d).next * 1260 + 1260) ((s.sender d).rowLen (s.sdecl st).outWidth * (s.sdecl st).height)),
      ∃ o ∈ (s.strm st).oq, o.eof = false ∧ o.fseq = l.fseq ∧ o.line = q.1) :
    if s.dtb.now.toNat + 100 < f.2.toNat + (s.sender d).field 28 4 + (s.sender d).next * (s.sender d).trs (s.sdecl st).outWidth (s.sdecl st).height
      then st2110Packet d s = s
      else ((st2110Packet d s).sender d).next = (s.sender d).next + 1 ∧ ((st2110Packet d s).sender d).seq = (s.sender d).seq + 1 := by
  generalize ht : st2110Packet d s = t
  unfold st2110Packet at ht
  extract_lets v p lo e at ht
  rw [hserve] at ht
  dsimp -zeta only at ht
  extract_lets x w h hi spans last at ht
  replace ht := (if_neg (by simp [hon, hlive, hup, v, p])).symm.trans ht
  rw [show x.oq = l :: m from hoq] at ht
  dsimp -zeta only at ht
  replace ht := (if_neg (by rw [heof]; decide)).symm.trans ht
  rw [show v.frame = some f from hf] at ht
  dsimp -zeta only at ht
  extract_lets stamp row due data bytes rtp s1 s2 done s3 at ht
  have hempty : spans.isEmpty = false := by
    rw [List.isEmpty_eq_false_iff]
    exact hspans
  have hall : spans.all (fun q => (row q.1).isSome) = true := by
    refine List.all_eq_true.2 fun q hq => ?_
    obtain ⟨o, ho, heof', hfseq, hline⟩ := hrows q hq
    simp only [row, List.find?_isSome]
    exact ⟨o, hoq ▸ ho, by simp [heof', hfseq, hline]⟩
  replace ht := (if_neg (by rw [hempty, hall]; decide)).symm.trans ht
  have h2 : s2.sender d = { v with
      seq := v.seq + 1, next := v.next + 1, frame := some (l.fseq, stamp)
      late := if due + 100 < s1.dtb.now.toNat then v.late + 1 else v.late } := State.sender_setSender ..
  have h3 : s3.senders = s2.senders := rfl
  have hkeep : (s3.oqSettle st).sender d = s2.sender d := by
    rw [State.sender, (State.oqSettle_spec s3 st).2.2.2.2, h3]
    rfl
  clear_value s3 s2 row
  split
  · next hearly => exact ht.symm.trans (if_pos hearly)
  · next hdue =>
    rw [← (if_neg hdue).symm.trans ht, hkeep, h2]
    exact ⟨rfl, rfl⟩

-- Metadata datagrams and reads of host memory (R378, R408).

theorem metadataDatagram_sent {p st : Nat} {fseq : B16} {f : FrameInfo} {m : List (Nat × B16)} (hq : (s.eth p).metaQ = (st, fseq) :: m)
    (hlive : s.ethLive p = true) (hup : (s.eth p).up = true) (hf : (s.strm st).info fseq = some f) :
    ((metadataDatagram p true s).eth p).metaQ = m ∧ ((metadataDatagram p true s).eth p).metaDrop = (s.eth p).metaDrop := by
  generalize ht : metadataDatagram p true s = t
  unfold metadataDatagram at ht
  extract_lets e n due at ht
  rw [show e.metaQ = (st, fseq) :: m from hq] at ht
  dsimp -zeta only at ht
  replace ht := (if_pos (by simp [hlive, hup, e])).symm.trans ht
  rw [hf] at ht
  dsimp -zeta only at ht
  extract_lets body s1 at ht
  have h1 : s1.eth p = { s.eth p with metaQ := m } := State.eth_setEth ..
  clear_value s1 body
  rw [← ht, State.ethSend, State.modEth_eq, State.eth_setEth, h1]
  exact ⟨rfl, rfl⟩

theorem State.hostData_set (s : State) (addr : B64) (data : Option Bytes) :
    (hostMemoryRead (.source addr) data s).hostData addr = some data ∧
      ∀ a : B64, a ≠ addr → (hostMemoryRead (.source addr) data s).hostData a = s.hostData a := by
  unfold State.hostData hostMemoryRead
  refine ⟨by simp, fun a ha => ?_⟩
  have hne : addr.toNat ≠ a.toNat := fun h => ha (BitVec.eq_of_toNat_eq h.symm)
  dsimp only
  rw [List.find?_cons_of_neg (by simpa using hne), List.find?_filter]
  congr 2
  funext e
  by_cases h : e.1 = a.toNat
  · simp [h, Ne.symm hne]
  · simp [h]

theorem State.strm_setLate (s : State) (st : Nat) (r : Replay) (on : Bool) : ((s.setLate st r on).strm st) = { s.strm st with late := on } := by
  unfold State.setLate
  extract_lets s1 other
  exact ((State.request_keeps (Nat.and_self _) s1 _ _ (Keeps.refl _ _)).strm_eq st).trans (State.strm_setStrm ..)

/-- A line of a replay segment joins what waits in the prefetch buffer. -/
theorem State.prefetch_putReplay (s : State) (st : Nat) (r : Replay) (codes : List B16) (bad : Bool) :
    ((s.putReplay st r codes bad).strm st).prefetch = (s.strm st).prefetch ++ [(codes, bad)] := by
  unfold State.putReplay
  extract_lets last s1
  have h1 : (s1.strm st).prefetch = (s.strm st).prefetch ++ [(codes, bad)] := congrArg Strm.prefetch (State.strm_setStrm ..)
  clear_value s1
  split
  · rw [State.strm_setLate]
    exact h1
  · exact h1

/-- Settles O16: the output queues, the routes that take their lines, the datagrams, and the reads of host memory. -/
theorem outputsLeave : Obligations.OutputsLeave := by
  unfold Obligations.OutputsLeave
  refine ⟨⟨?_, ?_, ?_, outputFlit_discards, ?_, ?_, ?_⟩, ⟨?_, ?_, ?_⟩, ⟨?_, ?_⟩, ?_, ?_, ?_, ?_⟩
  · intro st l m s hto heof hlive hroom hdrop
    exact ⟨_, rfl, outputFlit_enters hto heof hlive hroom hdrop⟩
  · intro st l m s hto heof hlive hfull hdrop hstall hskid hin
    refine ⟨_, congrArg Host.Outcome.next (outputFlit_of_stall hto heof hlive hin hfull hdrop hstall hskid), ?_⟩
    generalize hs1 : (s.request (outOrigin st) true).modStrm st (fun y => { y with oqIn := y.oqIn + 1 }) = s1
    have h1 : s1.strm st = { s.strm st with oqIn := (s.strm st).oqIn + 1 } := by
      rw [← hs1, State.modStrm_eq, State.strm_setStrm, (State.request_keeps (Nat.and_self _) s _ _ (Keeps.refl _ _)).strm_eq]
    have horigin : (s1.origin (outOrigin st)).req = true := by
      rw [← hs1]
      exact State.origin_request s _
    clear hs1
    have hfull' : (s1.strm st).oqLines ≤ (s1.strm st).oqHeld := by rw [h1]; exact hfull
    have hstrm : (s1.oqUpdate st).strm st = (s1.strm st).inSkid := by
      rw [State.strm_oqUpdate, State.oqFill_of_full _ (by rw [h1]; exact hto) heof (by rw [h1]; exact hdrop) hfull']
    have hreq := (congrArg Origin.req ((State.oqUpdate_keeps (Nat.and_self _) s1 st (Keeps.refl _ _)).origin_eq (outOrigin st))).trans horigin
    have hin1 : (s1.strm st).oqIn = (s.strm st).oqIn + 1 := congrArg Strm.oqIn h1
    have hoq1 : (s1.strm st).oq = (s.strm st).oq := by rw [h1]
    rw [hstrm]
    exact ⟨(congrArg Strm.toOut h1).trans hto, hoq1, hin1, (if_neg (Nat.not_lt.2 hfull')).trans hin1, hreq⟩
  · intro st l m o c s hto heof hlive hfull hdrop hstall hskid hin hctx hc hrun
    obtain ⟨site, f, hflit⟩ := outputFlit_of_skidOvf hto heof hlive (by omega) hfull hdrop hstall hskid.ge
    rw [hctx] at hflit
    have hc1 : ((s.request (outOrigin st) true).logSite .skidOvf site o (flitStream f) (flitFseq f) (flitLine f) 0).ctx o = some c := by
      rw [(State.logSite_keeps (Nat.and_self _) _ _ _ _ _ _ _ _ (Keeps.refl _ _)).ctx_eq,
        (State.request_keeps (Nat.and_self _) s _ _ (Keeps.refl _ _)).ctx_eq, hc]
    obtain ⟨c', hc', hfault, hcause⟩ := State.ctx_faultCtx_of_live (cause := .skidOvf) hc1 (.inl hrun)
    exact ⟨_, c', congrArg Host.Outcome.next hflit, hc', hfault, hcause⟩
  · intro st l m s hto heof hlive hdrop h0 hone
    refine ⟨_, congrArg Host.Outcome.next (outputFlit_of_room hto hlive (by omega) (.inr ⟨h0, .inr hdrop⟩)), ?_⟩
    generalize hs1 : s.setStrm st { s.strm st with oqIn := (s.strm st).oqIn + 1 } = s1
    have h1 : s1.strm st = { s.strm st with oqIn := (s.strm st).oqIn + 1 } := by rw [← hs1, State.strm_setStrm]
    have hlast : (s1.strm st).oqIn = l.flits := by
      rw [h1, hone]
      exact congrArg (· + 1) h0
    obtain ⟨-, hoq, -, hgone⟩ := State.oqUpdate_discards (s := s1) (l := l) (m := m) (by rw [h1]; exact hto) heof hlast.le (by rw [h1]; exact hdrop)
    rw [if_pos hlast, h1] at hgone
    rw [h1] at hoq
    exact ⟨hgone.1, hoq, hgone.2⟩
  · intro st s hidle
    exact congrArg Host.Outcome.next (outputFlit_of_idle hidle)
  · intro st l m s hto heof hlive h0
    have hone : l.flits = 1 := if_pos heof
    refine ⟨_, congrArg Host.Outcome.next (outputFlit_of_room hto hlive (by omega) (.inr ⟨h0, .inl heof⟩)), ?_⟩
    generalize hs1 : s.setStrm st { s.strm st with oqIn := (s.strm st).oqIn + 1 } = s1
    have h1 : s1.strm st = { s.strm st with oqIn := (s.strm st).oqIn + 1 } := by rw [← hs1, State.strm_setStrm]
    have hlast : (s1.strm st).oqIn = l.flits := by
      rw [h1, hone]
      exact congrArg (· + 1) h0
    rw [State.strm_oqUpdate, State.oqFill_eof (by rw [h1]; exact hto) hlast heof, State.strm_modFrame, State.strm_setStrm, h1]
    exact ⟨rfl, rfl, rfl⟩
  · intro st l m d s hroute hoq heof hbuf hgrant hpool hport hep
    exact ⟨_, congrArg Host.Outcome.next (if_pos (by rw [hroute]; rfl)), sendHost_opens hoq heof hbuf hgrant hpool hport hep⟩
  · intro st l m s hroute hoq hup
    exact ⟨_, congrArg Host.Outcome.next ((if_neg (by rw [hroute]; decide)).trans (if_pos (by rw [hroute]; rfl))), sendYallek_leaves hoq hup⟩
  · intro st s hroute
    exact congrArg Host.Outcome.next ((if_neg (by rw [hroute]; decide)).trans (if_neg (by rw [hroute]; decide)))
  · intro d st l m f s hserve hon hlive hup hoq heof hf hspans hrows
    exact ⟨_, rfl, st2110Packet_sends hserve hon hlive hup hoq heof hf hspans hrows⟩
  · intro d st l m s hserve hon hlive hup hoq heof
    exact ⟨_, rfl, st2110Packet_ends hserve hon hlive hup hoq heof⟩
  · intro p st fseq f m s hq hlive hup hf
    exact ⟨_, rfl, metadataDatagram_sent hq hlive hup hf⟩
  · intro p e m sent s hq hno
    refine congrArg Host.Outcome.next ?_
    unfold metadataDatagram
    extract_lets x n due
    rw [show x.metaQ = e :: m from hq]
    refine (if_neg ?_).trans rfl
    rcases hno with h | h <;> simp [h, x]
  · intro addr data s
    exact ⟨_, rfl, State.hostData_set s addr data⟩
  · intro st q a n b s hq hhost
    have heq : hostMemoryRead (.replay st) (some b) s = s.putReplay st q (codes16 (b.take n)) false := by
      unfold hostMemoryRead
      dsimp only
      rw [hq]
      exact if_pos hhost
    exact ⟨_, congrArg Host.Outcome.next heq, State.prefetch_putReplay ..⟩

end Sys2Proof.Machine

/-! A flit that a router forwards can leave as poison although its context ran when the slot began: taking it refills the lane, and with
HAZ_POLICY at FAULT a hazard found there faults the context before the flit is put out (R125, R288, R289). -/

namespace Sys2Proof.Machine
set_option Elab.async false

/-- A data flit of stream 0. -/
def dataFlit : Flit := { tag := BitVec.ofNat 48 (kData * 2 ^ 45), chk := 0 }

/-- In HAZARD mode with HAZ_POLICY at FAULT, unit 33 of context 0 has one flit in lane 0, whose stated bound is 0, and one behind it; slot 5
of its router sends lane 0 to the east. -/
def refillState : State :=
  { boot := { phase := .ready }, modes := { hazard := true, hazFault := true }
    routers := [(33, { slots := [(69, 0xC000)] })]
    units := [(33, { inCtx := true, lanes := [(0, [dataFlit])], pipe := [(0, dataFlit)], laneBound := [(0, 0)] })]
    ctxs := [(0, some { state := .running, opened := true })] }

/-- The flit that reaches the neighbour is poison. -/
theorem refillState_forwards_poison :
    (Tab.get [] ((flitForward 33 5 refillState).router 34).regs 3).map (fun x : Nat × Flit => flitKind x.2) = [kPoison] := by decide

/-- Refutes O23: the flit that slot 5 takes from a lane is forwarded as poison, for the refill of the lane puts its context in FAULT. -/
theorem not_myceliumMovesFlits : ¬ Obligations.MyceliumMovesFlits := by
  unfold Obligations.MyceliumMovesFlits
  intro h
  obtain ⟨t, hexec, hregs⟩ := h.1.1 33 5 1 34 3 0xC000 dataFlit refillState (by decide) (by decide) (by decide) (by decide) (by decide)
    (by decide) (by decide) (by decide) (by decide) (by decide)
  have ht : flitForward 33 5 refillState = t := Host.Outcome.next.inj hexec
  have hkind := congrArg (List.map (fun x : Nat × Flit => flitKind x.2)) hregs
  rw [← ht] at hkind
  exact absurd (refillState_forwards_poison.symm.trans hkind) (by decide)

end Sys2Proof.Machine

/-! A stream that holds a frame still takes the items of that frame (R312): O15's second clause leaves open which item is the oldest. -/

namespace Sys2Proof.Machine
set_option Elab.async false

/-- Stream 0, SCHEDULED, of a context that runs: frame 0 is held, and its end-of-frame tag is the oldest item of the buffer. -/
def heldFrameState : State :=
  { streams := [(0, { ctx := some 0, scheduled := true, held := some 0, buf := [.eof 0] })]
    ctxs := [(0, some { state := .running })] }

/-- The tag goes to the Edge engine. -/
theorem heldFrameState_takes_tag : ((lineTake 0 heldFrameState).strm 0).buf = [] := by decide

/-- Refutes O15: its clause on a SCHEDULED stream names an item of another frame, but does not say that it is the oldest of the buffer; the
item that is the oldest here belongs to the frame held, and is taken. -/
theorem not_linesThroughTheRegion : ¬ Obligations.LinesThroughTheRegion := by
  unfold Obligations.LinesThroughTheRegion
  intro h
  have hstays : exec (.lineTake 0) heldFrameState = .next heldFrameState := h.1.2.1 0 (.eof 1) 0 heldFrameState (by decide) (by decide) (by decide)
  have hsame : lineTake 0 heldFrameState = heldFrameState := Host.Outcome.next.inj hstays
  have hbuf := congrArg (fun s : State => (s.strm 0).buf) hsame
  exact absurd (heldFrameState_takes_tag.symm.trans hbuf) (by decide)

end Sys2Proof.Machine

/-! What a command on one entry of a component leaves of the other entries. -/

namespace Sys2Proof.Machine
set_option Elab.async false
variable {s t u : State}

/-- Two states agree on every entry of a component but one. -/
structure SameBut {α : Type} (get : State → Nat → α) (n : Nat) (s t : State) : Prop where
  same : ∀ j, j ≠ n → get t j = get s j

namespace SameBut
variable {α β : Type} {get : State → Nat → α} {n : Nat}

theorem refl (s : State) : SameBut get n s s := ⟨fun _ _ => rfl⟩

theorem trans (h : SameBut get n s t) (h' : SameBut get n t u) : SameBut get n s u := ⟨fun j hj => (h'.same j hj).trans (h.same j hj)⟩

theorem of_eq (h : ∀ j, get t j = get s j) : SameBut get n s t := ⟨fun j _ => h j⟩

theorem foldl {f : State → β → State} (hf : ∀ s x, SameBut get n s (f s x)) (l : List β) (s : State) : SameBut get n s (l.foldl f s) := by
  induction l generalizing s with
  | nil => exact refl s
  | cons x l ih => exact (hf s x).trans (ih _)

theorem ite {c : Prop} [Decidable c] (h : SameBut get n s t) (h' : SameBut get n s u) : SameBut get n s (if c then t else u) := by
  split
  · exact h
  · exact h'

/-- A command whose act leaves the other entries leaves them, for its reply touches no entry of the component. -/
theorem command (hfin : ∀ (s : State) (k : Pkt) (fast : Bool) (st : Status) (res : List Nat) j, get (s.finish k fast st res) j = get s j)
    {s : State} {k : Pkt} {op : Nat} {checks : List (Bool × Status)} {act : State → State} (hact : SameBut get n s (act s)) :
    SameBut get n s (s.command k op checks act) :=
  State.command_induction (P := fun t => SameBut get n s t) s k op checks act (refl s) (fun st => of_eq (hfin s k _ st [])) (fun _ => hact)

end SameBut

-- Heads.

section Heads
variable {h : Nat}

theorem State.sameBut_setHead (s : State) (h : Nat) (x : Head) : SameBut State.head h s (s.setHead h x) :=
  ⟨fun j hj => State.head_setHead_ne s h j x (Ne.symm hj)⟩

theorem State.sameBut_modHead (s : State) (h : Nat) (f : Head → Head) : SameBut State.head h s (s.modHead h f) := State.sameBut_setHead s h _

theorem State.head_finish_all (s : State) (k : Pkt) (fast : Bool) (st : Status) (res : List Nat) (j : Nat) :
    (s.finish k fast st res).head j = s.head j := (State.finish_keeps (Nat.and_self _) s k fast st res none (Keeps.refl _ _)).head_eq j

theorem State.sameBut_head_finish (s : State) (k : Pkt) (fast : Bool) (st : Status) (res : List Nat) :
    SameBut State.head h s (s.finish k fast st res) := .of_eq (State.head_finish_all s k fast st res)

theorem State.sameBut_head_log (s : State) (e : Ev) (i f a b : Nat) (x : Bytes) : SameBut State.head h s (s.log e i f a b x) :=
  .of_eq fun _ => rfl

theorem State.sameBut_head_modStrm (s : State) (i : Nat) (f : Strm → Strm) : SameBut State.head h s (s.modStrm i f) := .of_eq fun _ => rfl

theorem State.sameBut_head_checkStopping (s : State) (o : Nat) : SameBut State.head h s (s.checkStopping o) :=
  .of_eq (State.checkStopping_keeps (Nat.and_self _) s o (Keeps.refl _ _)).head_eq

theorem State.sameBut_head_finishAll (l : List Pkt) (fast : Bool) (st : Status) (s : State) :
    SameBut State.head h s (l.foldl (fun s k => s.finish k fast st) s) := .foldl (fun s k => State.sameBut_head_finish s k fast st []) l s

theorem State.sameBut_detachStep (s : State) (h : Nat) : SameBut State.head h s (s.detachStep h) := by
  unfold State.detachStep
  extract_lets x s1
  cases x.detach with
  | none => exact .refl s
  | some k =>
    have h1 : SameBut State.head h s s1 := by
      simp only [s1]
      cases x.auth with
      | none => exact .refl s
      | some a =>
        dsimp only
        cases a.pkt with
        | none => exact .refl s
        | some q => exact State.sameBut_head_finish ..
    exact .ite (.refl s) ((h1.trans (State.sameBut_modHead _ h _)).trans (State.sameBut_head_finish ..))

theorem State.sameBut_stopCommit (s : State) (h : Nat) : SameBut State.head h s (s.stopCommit h) :=
  .ite (.refl s) ((State.sameBut_modHead s h _).trans (State.sameBut_detachStep _ h))

theorem State.sameBut_endStream (s : State) {st : Nat} (hst : st / 4 = h) : SameBut State.head h s (s.endStream st) := by
  subst hst
  unfold State.endStream
  extract_lets was s1 s2
  have h2 : SameBut State.head (st / 4) s s2 := (State.sameBut_modHead s (st / 4) _).trans (State.sameBut_head_modStrm s1 st _)
  exact .ite (h2.trans (State.sameBut_stopCommit _ _)) h2

theorem State.sameBut_truncate (s : State) {st : Nat} (c : Cause) (hst : st / 4 = h) : SameBut State.head h s (s.truncate st c) := by
  subst hst
  unfold State.truncate
  extract_lets x
  cases x.frame with
  | none => exact .refl s
  | some f => exact .ite (.refl s) (.trans (t := s.setStrm st _) (.of_eq fun _ => rfl) (State.sameBut_modHead _ _ _))

theorem State.sameBut_focusEnd (s : State) {st : Nat} (fseq : B16) (hst : st / 4 = h) : SameBut State.head h s (s.focusEnd st fseq) := by
  subst hst
  exact State.sameBut_modHead s _ _

theorem stream_div {v : Nat} (hv : v < 4) : (4 * h + v) / 4 = h := by omega

theorem State.sameBut_stopStream (s : State) {st : Nat} (imm : Bool) (hst : st / 4 = h) : SameBut State.head h s (s.stopStream st imm) := by
  unfold State.stopStream
  extract_lets x live inFrame s1 fs y s2
  have h1 : SameBut State.head h s s1 := .of_eq (State.dropLate_keeps (Nat.and_self _) s st (Keeps.refl _ _)).head_eq
  have h2 : SameBut State.head h s s2 :=
    .ite (State.sameBut_endStream s hst) (.ite (State.sameBut_head_modStrm ..) (.ite (.ite (State.sameBut_head_modStrm ..)
      ((State.sameBut_truncate s .stopped hst).trans (State.sameBut_endStream _ hst)))
      ((h1.trans (t := s1) (.of_eq (t := s1.setStrm st (y.modFrame fs (FrameInfo.drop Cause.stopped.code))) fun _ => rfl)).trans
        (State.sameBut_endStream _ hst))))
  refine .ite (.refl s) ?_
  cases x.ctx with
  | none => exact h2
  | some o => exact h2.trans (State.sameBut_head_checkStopping ..)

/-- What is done to each of a head's four streams leaves the other heads. -/
theorem SameBut.head_streams {f : State → Nat → State} (hf : ∀ (s : State) (v : Nat), v < 4 → SameBut State.head h s (f s v)) (s : State) :
    SameBut State.head h s ([0, 1, 2, 3].foldl f s) :=
  (((hf s 0 (by decide)).trans (hf _ 1 (by decide))).trans (hf _ 2 (by decide))).trans (hf _ 3 (by decide))

theorem State.sameBut_stopHead (s : State) (h : Nat) : SameBut State.head h s (s.stopHead h) :=
  SameBut.head_streams (fun s _ hv => .ite (State.sameBut_stopStream s false (stream_div hv)) (.refl s)) s

theorem State.sameBut_loseFrames (s : State) (h : Nat) (c : Cause) : SameBut State.head h s (s.loseFrames h c) := by
  refine SameBut.head_streams (fun s v hv => ?_) s
  extract_lets st x s1 s2 s3
  have hst : st / 4 = h := stream_div hv
  have h1 : SameBut State.head h s s1 := (State.sameBut_truncate s c hst).trans (State.sameBut_head_modStrm ..)
  have h2 : SameBut State.head h s1 s2 := by
    simp only [s2]
    cases x.frame with
    | none => exact .refl s1
    | some f => exact State.sameBut_focusEnd s1 f.fseq hst
  have h3 : SameBut State.head h s2 s3 := .ite (State.sameBut_endStream s2 hst) (.refl s2)
  refine .ite (.refl s) ?_
  cases x.ctx with
  | none => exact (h1.trans h2).trans h3
  | some o => exact ((h1.trans h2).trans h3).trans (State.sameBut_head_checkStopping ..)

theorem State.sameBut_dropCommit (s : State) (h : Nat) : SameBut State.head h s (s.dropCommit h) :=
  .ite ((State.sameBut_modHead s h _).trans (.of_eq (State.head_handLock _ _))) (.refl s)

theorem State.sameBut_dropHeadCmds (s : State) (h : Nat) (st dst : Status) : SameBut State.head h s (s.dropHeadCmds h st dst) := by
  unfold State.dropHeadCmds
  extract_lets x k1 k2 s1 s2
  have h1 : SameBut State.head h s s1 := State.sameBut_modHead s h _
  have h2 : SameBut State.head h s1 s2 := by
    simp only [s2]
    cases x.detach with
    | none => exact .refl s1
    | some k => exact State.sameBut_head_finish ..
  exact (h1.trans h2).trans (State.sameBut_head_finishAll ..)

theorem State.sameBut_attachDone (s : State) (h : Nat) : SameBut State.head h s (s.attachDone h) := by
  unfold State.attachDone
  extract_lets x sc w s1
  have h1 : SameBut State.head h s s1 := State.sameBut_modHead s h _
  cases x.attachPkt with
  | none => exact h1.trans (.ite (State.sameBut_head_log ..) (.refl s1))
  | some k => exact h1.trans (.ite (State.sameBut_head_finish ..) (State.sameBut_head_finish ..))

theorem State.sameBut_attachFault (s : State) (h cause : Nat) : SameBut State.head h s (s.attachFault h cause) :=
  (State.sameBut_modHead s h _).trans (State.sameBut_attachDone _ h)

theorem State.sameBut_startAuth (s : State) (h : Nat) (again : Bool) (k : Option Pkt) : SameBut State.head h s (s.startAuth h again k) := by
  unfold State.startAuth
  extract_lets c
  exact .trans (t := s.draw) (.of_eq fun _ => rfl) (State.sameBut_modHead _ h _)

theorem State.sameBut_checkBudget (s : State) (h : Nat) : SameBut State.head h s (s.checkBudget h) := by
  unfold State.checkBudget
  extract_lets x s1
  have h1 : SameBut State.head h s s1 := .ite (.trans (State.sameBut_head_log ..) (State.sameBut_modHead _ h _)) (.refl s)
  exact h1.trans (.ite (.trans (State.sameBut_head_log ..) (State.sameBut_modHead _ h _)) (.refl s1))

theorem State.sameBut_checkLife (s : State) (h : Nat) : SameBut State.head h s (s.checkLife h) := by
  unfold State.checkLife
  extract_lets x w args s1
  have h1 : SameBut State.head h s s1 := .ite (.trans (State.sameBut_head_log ..) (State.sameBut_modHead _ h _)) (.refl s)
  exact h1.trans (.ite (.trans (State.sameBut_head_log ..) (State.sameBut_modHead _ h _)) (.refl s1))

theorem State.sameBut_head_touchEntry (s : State) (i : Nat) (f : Pending → Pending) : SameBut State.head h s (s.touchEntry i f) :=
  .of_eq (State.head_touchEntry s i f)

theorem State.sameBut_sclSettle (s : State) (h : Nat) : SameBut State.head h s (s.sclSettle h) := State.sameBut_modHead s h _

-- The events of a head.

theorem headInserted_sameBut (s : State) : SameBut State.head h s (headInserted h s) := by
  unfold headInserted
  extract_lets s1
  have h1 : SameBut State.head h s s1 := State.sameBut_modHead s h _
  exact .ite (.refl s) (.ite (h1.trans (State.sameBut_modHead _ h _)) h1)

theorem headRemoved_sameBut (s : State) : SameBut State.head h s (headRemoved h s) :=
  .ite (.refl s) ((((State.sameBut_loseFrames s h _).trans (State.sameBut_dropCommit _ h)).trans (State.sameBut_dropHeadCmds _ h _ _)).trans
    (State.sameBut_modHead _ h _))

theorem fsyncPulse_sameBut (s : State) : SameBut State.head h s (fsyncPulse h s) :=
  .ite (.refl s) (.ite (State.sameBut_setHead s h _) (.refl s))

theorem tempRead_sameBut (value : Option Bytes) (s : State) : SameBut State.head h s (tempRead h value s) := by
  have hread : ∀ (u : State) (w : Nat), SameBut State.head h s u → SameBut State.head h s
      (((u.touchEntry h (fun e => { e with wear := e.wear + w })).modHead h (fun y => { y with
        sinceCommit := y.sinceCommit + 1, sinceAuth := y.sinceAuth + 1, commitDue := y.commitDue || y.commitEvery ≤ y.sinceCommit + 1 })).checkLife h) :=
    fun u w hu => ((hu.trans (State.sameBut_head_touchEntry ..)).trans (State.sameBut_modHead _ h _)).trans (State.sameBut_checkLife _ h)
  unfold tempRead
  extract_lets x s1 s2
  refine .ite (.refl s) ?_
  have h1 : SameBut State.head h s s1 := State.sameBut_modHead s h _
  cases value.bind x.tempValue with
  | none => exact hread _ _ (h1.trans (.ite ((State.sameBut_modHead _ h _).trans (State.sameBut_head_log ..)) (State.sameBut_modHead _ h _)))
  | some v => exact hread _ _ (h1.trans (State.sameBut_modHead _ h _))

theorem ledgerCommit_sameBut (s : State) : SameBut State.head h s (ledgerCommit h s) := by
  unfold ledgerCommit
  extract_lets s1 s2 q b s3 data
  have h1 : SameBut State.head h s s1 := State.sameBut_checkBudget s h
  have h2 : SameBut State.head h s1 s2 := .of_eq fun _ => rfl
  have h3 : SameBut State.head h s2 s3 := State.sameBut_head_touchEntry ..
  exact .ite (.refl s) (.ite ((h1.trans (State.sameBut_modHead _ h _)).trans (State.sameBut_detachStep _ h))
    (.ite h1 (((h1.trans h2).trans h3).trans (State.sameBut_modHead _ h _))))

theorem State.sameBut_head_handLock (s : State) (l : Nat) : SameBut State.head h s (s.handLock l) := .of_eq (State.head_handLock s l)

theorem ledgerReadback_sameBut (copy : Bytes) (s : State) : SameBut State.head h s (ledgerReadback h copy s) := by
  unfold ledgerReadback
  extract_lets x
  cases x.commit with
  | none => exact .refl s
  | some c =>
    dsimp -zeta only
    extract_lets addr s1 w left s2 s3 s4 s5
    have h1 : SameBut State.head h s s1 := State.sameBut_modHead s h _
    have h2 : SameBut State.head h s1 s2 := State.sameBut_head_touchEntry ..
    have h3 : SameBut State.head h s2 s3 := .ite (.of_eq fun _ => rfl) (.refl s2)
    have h4 : SameBut State.head h s s4 := ((h1.trans h2).trans h3).trans (State.sameBut_modHead _ h _)
    have h5 : SameBut State.head h s s5 := h1.trans (State.sameBut_head_log ..)
    exact .ite (.refl s) (.ite
      (((h4.trans (State.sameBut_head_handLock ..)).trans (State.sameBut_checkBudget _ h)).trans (State.sameBut_detachStep _ h))
      (.ite ((h1.trans (State.sameBut_modHead _ h _)).trans (State.sameBut_sclSettle _ h))
        (((h5.trans (State.sameBut_modHead _ h _)).trans (State.sameBut_head_handLock ..)).trans (State.sameBut_detachStep _ h))))

theorem State.sameBut_recover (s : State) (h : Nat) : SameBut State.head h s (s.recover h) := by
  have hlog : ∀ (f : Head → Head) (e : Ev) (i g a b : Nat), SameBut State.head h s ((s.modHead h f).log e i g a b) :=
    fun f e i g a b => (State.sameBut_modHead s h f).trans (State.sameBut_head_log ..)
  unfold State.recover
  extract_lets x a b named okA okB blankA blankB qa qb take q s1
  have h1 : SameBut State.head h s s1 :=
    .ite (State.sameBut_modHead s h _) (.ite (hlog ..) (.ite (hlog ..) (.ite (State.sameBut_modHead s h _) (hlog ..))))
  exact h1.trans (.of_eq fun _ => rfl)

theorem State.sameBut_authFail (s : State) (h : Nat) : SameBut State.head h s (s.authFail h) :=
  .ite (State.sameBut_modHead s h _) ((State.sameBut_modHead s h _).trans (State.sameBut_stopHead _ h))

theorem State.sameBut_authEnd (s : State) (h : Nat) (ok : Bool) (cause : Nat) : SameBut State.head h s (s.authEnd h ok cause) := by
  unfold State.authEnd
  extract_lets x s1 s2 s3 s4 s5
  cases x.auth with
  | none => exact .refl s
  | some a =>
    dsimp -zeta only
    extract_lets s6
    have h1 : SameBut State.head h s s1 := State.sameBut_modHead s h _
    have h2 : SameBut State.head h s1 s2 := .ite (.refl s1) (State.sameBut_modHead _ h _)
    have h3 : SameBut State.head h s s3 := (h1.trans h2).trans (.ite (.refl s2) (State.sameBut_head_log ..))
    have h4 : SameBut State.head h s3 s4 := .ite (State.sameBut_modHead _ h _) (State.sameBut_authFail ..)
    have h5 : SameBut State.head h s3 s5 :=
      .ite (State.sameBut_modHead _ h _) (.ite (State.sameBut_modHead _ h _) (State.sameBut_authFail ..))
    have h6 : SameBut State.head h s5 s6 := by
      simp only [s6]
      cases a.pkt with
      | none => exact .refl s5
      | some k => exact State.sameBut_head_finish ..
    exact .ite ((h3.trans h4).trans (State.sameBut_attachDone _ h)) (((h3.trans h5).trans h6).trans (State.sameBut_detachStep _ h))

theorem authPoll_sameBut (sig : Option Bytes) (s : State) : SameBut State.head h s (authPoll h sig s) := by
  unfold authPoll
  extract_lets x s1
  cases x.auth with
  | none => exact .refl s
  | some a =>
    have h1 : SameBut State.head h s s1 := State.sameBut_modHead s h _
    refine .ite (.refl s) ?_
    cases sig with
    | none => exact h1.trans (State.sameBut_authEnd ..)
    | some b => exact h1.trans (State.sameBut_authEnd ..)

theorem attachSettled_sameBut (r : AttachRead) (s : State) : SameBut State.head h s (attachSettled h r s) := by
  unfold attachSettled
  extract_lets s1 id
  have h1 : SameBut State.head h s s1 := State.sameBut_modHead s h _
  refine .ite (.refl s) ?_
  cases r.passport with
  | none => exact h1.trans (State.sameBut_attachFault ..)
  | some b =>
    dsimp -zeta only
    extract_lets s2 s3 x s4 a s5
    have h2 : SameBut State.head h s s2 := (h1.trans (State.sameBut_modHead _ h _)).trans (.of_eq fun j => State.head_passportReport _ h b j)
    have h3 : SameBut State.head h s s3 := h2.trans (State.sameBut_modHead _ h _)
    have h4 : SameBut State.head h s s4 := h3.trans (State.sameBut_modHead _ h _)
    have h5 : SameBut State.head h s s5 := h4.trans (State.sameBut_modHead _ h _)
    refine .ite (h3.trans (State.sameBut_attachFault ..)) ?_
    split
    · refine .ite (h5.trans (State.sameBut_attachFault ..)) ?_
      extract_lets s6 s7 s8 worn
      have h6 : SameBut State.head h s s6 := h5.trans (State.sameBut_modHead _ h _)
      have h7 : SameBut State.head h s6 s7 := .foldl (fun s _ => State.sameBut_head_modStrm ..) _ _
      have h8 : SameBut State.head h s7 s8 := (State.sameBut_recover _ h).trans (State.sameBut_checkBudget _ h)
      exact (((h6.trans h7).trans h8).trans (State.sameBut_modHead _ h _)).trans (State.sameBut_startAuth ..)
    · exact h4.trans (State.sameBut_attachFault ..)

theorem exposureWrite_sameBut (s : State) : SameBut State.head h s (exposureWrite h s) := by
  unfold exposureWrite
  extract_lets x s1
  cases x.evPosted with
  | none => exact .refl s
  | some e =>
    obtain ⟨st, fseq, ev⟩ := e
    dsimp -zeta only
    extract_lets c s2 lim s3 r
    have h1 : SameBut State.head h s s1 := State.sameBut_modHead s h _
    have h2 : SameBut State.head h s s2 := h1.trans (.of_eq fun _ => rfl)
    have h3 : SameBut State.head h s s3 := h2.trans (State.sameBut_modHead _ h _)
    have h4 := (h3.trans (State.sameBut_modHead _ h _ : SameBut State.head h s3 (s3.writeExposure h r.1 r.2))).trans
      (State.sameBut_modHead _ h (fun y => { y with evLast := c }))
    refine .ite (.refl s) ?_
    cases (s1.strm st).info fseq with
    | none => exact h1
    | some i => exact .ite h1 (.ite h2 (h4.trans (.of_eq fun _ => rfl)))

/-- A packet on a Head Link counts, and opens or discards the burst, at its own head. -/
theorem State.sameBut_header (s : State) (h : Nat) (hdr : CsiHdr) : SameBut State.head h s (s.header h hdr).2 := by
  unfold State.header
  extract_lets s1 s2
  have h1 : SameBut State.head h s s1 := .ite (State.sameBut_modHead s h _) (.refl s)
  have h2 : SameBut State.head h s s2 := h1.trans (State.sameBut_modHead _ h _)
  split
  · exact h1
  · split
    · exact h2.trans (.foldl (fun s _ => State.sameBut_head_modStrm ..) _ _)
    · exact h1

theorem State.sameBut_packet (s : State) (h vc : Nat) (hdr : CsiHdr) : SameBut State.head h s (s.packet h vc hdr).2 := by
  unfold State.packet
  extract_lets r
  have hr : SameBut State.head h s r.2 := State.sameBut_header ..
  clear_value r
  split
  · exact .refl s
  · split
    · exact hr
    · generalize (r.2.head h).chan vc = d
      cases d with
      | none =>
        dsimp only
        exact hr.trans (State.sameBut_modHead r.2 h _)
      | some d => exact hr

theorem embedded_sameBut (vc : Nat) (hdr : CsiHdr) (dt : Nat) (payload : Bytes) (crc : Nat) (s : State) :
    SameBut State.head h s (embedded h vc hdr dt payload crc s) := by
  unfold embedded
  have hp := State.sameBut_packet s h vc hdr
  generalize s.packet h vc hdr = p at hp
  obtain ⟨d, s1⟩ := p
  cases d with
  | none => exact hp
  | some d =>
    dsimp -zeta only
    extract_lets st s2
    have h2 : SameBut State.head h s s2 := hp.trans (.ite (State.sameBut_modHead _ h _) (.refl s1))
    refine .ite (.ite hp (hp.trans (State.sameBut_modHead _ h _))) ?_
    cases (s1.strm st).frame with
    | none => exact hp.trans (State.sameBut_modHead _ h _)
    | some f => exact h2.trans (.of_eq fun _ => rfl)

-- The commands on a head.

/-- A command whose act leaves the other heads leaves them. -/
theorem SameBut.headCommand {k : Pkt} {op : Nat} {checks : List (Bool × Status)} {act : State → State} (hact : SameBut State.head h s (act s)) :
    SameBut State.head h s (s.command k op checks act) := .command State.head_finish_all hact

/-- A command that sets something of one head, and ends. -/
theorem State.sameBut_modHead_finish (s : State) (h : Nat) (f : Head → Head) (k : Pkt) (fast : Bool) (st : Status) (res : List Nat) :
    SameBut State.head h s ((s.modHead h f).finish k fast st res) := (State.sameBut_modHead s h f).trans (State.sameBut_head_finish ..)

theorem headAttach_sameBut (k : Pkt) (p : AttachParams) (s : State) : SameBut State.head h s (headAttach k h p s) := by
  refine .headCommand ?_
  extract_lets s1 s2
  have h1 : SameBut State.head h s s1 := State.sameBut_modHead s h _
  have h2 : SameBut State.head h s s2 := (h1.trans (State.sameBut_dropCommit _ h)).trans (State.sameBut_dropHeadCmds _ h _ _)
  exact .ite (h1.trans (State.sameBut_head_finish ..)) ((h2.trans (State.sameBut_modHead _ h _)).trans (State.sameBut_modHead _ h _))

theorem headDetach_sameBut (k : Pkt) (s : State) : SameBut State.head h s (headDetach k h s) :=
  .headCommand (((State.sameBut_modHead s h _).trans (State.sameBut_stopHead _ h)).trans (State.sameBut_detachStep _ h))

theorem i3cRaw_sameBut (k : Pkt) (a w n : Nat) (data : Bytes) (reply : Option Bytes) (s : State) :
    SameBut State.head h s (i3cRaw k h a w n data reply s) := by
  unfold i3cRaw
  refine .headCommand ?_
  cases reply with
  | none => exact State.sameBut_modHead_finish ..
  | some b => exact State.sameBut_modHead_finish ..

end Heads

end Sys2Proof.Machine

/-! An instruction of one unit leaves the other units, unless HAZ_POLICY puts its context in FAULT (R289). -/

namespace Sys2Proof.Machine
set_option Elab.async false
variable {s t u : State}

/-- Two states agree on every unit but one while HAZ_POLICY is LOG; no instruction changes the modes. -/
structure Beside (n : Nat) (s t : State) : Prop where
  modes : t.modes = s.modes
  units : s.modes.hazFault = false → SameBut State.unit n s t

namespace Beside
variable {β : Type} {n : Nat}

theorem refl (s : State) : Beside n s s := ⟨rfl, fun _ => .refl s⟩

theorem trans (h : Beside n s t) (h' : Beside n t u) : Beside n s u :=
  ⟨h'.modes.trans h.modes, fun hlog => (h.units hlog).trans (h'.units (by rw [h.modes]; exact hlog))⟩

theorem of_eq (hm : t.modes = s.modes) (hu : ∀ j, t.unit j = s.unit j) : Beside n s t := ⟨hm, fun _ => .of_eq hu⟩

theorem ite {c : Prop} [Decidable c] (h : Beside n s t) (h' : Beside n s u) : Beside n s (if c then t else u) := by
  split
  · exact h
  · exact h'

theorem foldl {f : State → β → State} (hf : ∀ s x, Beside n s (f s x)) (l : List β) (s : State) : Beside n s (l.foldl f s) := by
  induction l generalizing s with
  | nil => exact refl s
  | cons x l ih => exact (hf s x).trans (ih _)

end Beside

variable {n : Nat}

theorem State.beside_setUnit (s : State) (n : Nat) (v : Unit) : Beside n s (s.setUnit n v) :=
  ⟨rfl, fun _ => ⟨fun j hj => State.unit_setUnit_ne s n j v (Ne.symm hj)⟩⟩

theorem State.beside_modUnit (s : State) (n : Nat) (f : Unit → Unit) : Beside n s (s.modUnit n f) := State.beside_setUnit s n _

/-- A detection counts at its unit, and is reported; under LOG that is all (R288, R289). -/
theorem State.beside_hazard (s : State) (n kind st f8 line : Nat) (pc : Option Nat) : Beside n s (s.hazard n kind st f8 line pc) := by
  unfold State.hazard
  extract_lets v o first k s1
  cases o with
  | none => exact .refl s
  | some o =>
    refine .ite (.refl s) ?_
    extract_lets s2 g s3 s4
    have h1 : Beside n s s1 := State.beside_setUnit s n _
    have h2 : Beside n s1 s2 := .ite (.of_eq rfl fun _ => rfl) (.refl s1)
    have h4 : Beside n s s4 := (h1.trans h2).trans (.of_eq rfl fun _ => rfl)
    clear_value s4
    split
    · next hfault =>
      refine h4.trans ⟨(State.faultCtx_keeps (Nat.and_self _) s4 o .hazard (Keeps.refl _ _)).modes_eq, fun hlog => ?_⟩
      rw [hlog] at hfault
      exact nomatch hfault
    · exact h4

theorem State.beside_hazardNow (s : State) (n kind : Nat) : Beside n s (s.hazardNow n kind) := State.beside_hazard ..

-- Entries that are consumed (R258, R259).

theorem State.beside_unitOpens (s : State) (n : Nat) : Beside n s (s.unitOpens n) := .ite (State.beside_setUnit s n _) (.refl s)

theorem State.beside_endFrameAt (s : State) (n q : Nat) (f : Flit) : Beside n s (s.endFrameAt n q f) := by
  unfold State.endFrameAt
  extract_lets v st f8 left k w v1 v2 s1
  have h1 : Beside n s s1 := State.beside_setUnit s n _
  exact .ite (h1.trans (State.beside_hazard ..)) h1

theorem State.beside_removeQ (s : State) (n q : Nat) : Beside n s (s.removeQ n q) := by
  unfold State.removeQ
  extract_lets v
  cases v.bound q with
  | none => exact .refl s
  | some e =>
    dsimp -zeta only
    extract_lets s1
    have h1 : Beside n s s1 := State.beside_setUnit s n _
    exact .ite (h1.trans (State.beside_endFrameAt ..)) h1

theorem State.beside_useQ (s : State) (n q : Nat) : Beside n s (s.useQ n q) := by
  unfold State.useQ
  cases (s.unit n).bound q with
  | none => exact .refl s
  | some e => exact .ite (.refl s) (State.beside_removeQ s n q)

theorem State.beside_useCodes (s : State) (n : Nat) (cs : List Nat) : Beside n s (s.useCodes n cs) :=
  .foldl (fun s q => State.beside_useQ s n q) _ s

theorem State.beside_rawCheck (s : State) (n lo t : Nat) (cs : List Nat) : Beside n s (s.rawCheck n lo t cs) :=
  .ite (State.beside_hazardNow s n 1) (.refl s)

theorem State.beside_result (s : State) (n dst lo t : Nat) (v : List Nat) : Beside n s (s.result n dst lo t v) := by
  unfold State.result
  exact State.beside_modUnit s n _

-- Flits that are sent (R98, R129).

theorem State.beside_fillLanes (s : State) (n : Nat) : Beside n s (s.fillLanes n) := by
  unfold State.fillLanes
  extract_lets v w s1
  have h1 : Beside n s s1 := State.beside_setUnit s n _
  refine h1.trans (.foldl (fun s l => ?_) _ s1)
  extract_lets was now
  refine .ite ?_ (.refl s)
  cases now.getLast? with
  | none => exact .refl s
  | some f => exact State.beside_hazard ..

theorem State.beside_toLane (s : State) (n lane : Nat) (fs : List Flit) : Beside n s (s.toLane n lane fs) :=
  (State.beside_modUnit s n _).trans (State.beside_fillLanes _ n)

theorem State.beside_toSide (s : State) (n : Nat) (east : Bool) (f : Flit) : Beside n s (s.toSide n east f) := State.beside_modUnit s n _

theorem State.beside_sendAs (s : State) (n lane kd st f8 line chan chunk : Nat) (zo : Int) (u8 : Bool) (codes : List Nat) :
    Beside n s (s.sendAs n lane kd st f8 line chan chunk zo u8 codes) := by
  unfold State.sendAs
  extract_lets v f
  clear_value f
  exact (State.beside_modUnit s n _).trans (State.beside_toLane _ n lane [f])

theorem State.beside_sendCodes (s : State) (n lane kd dChan dChunk : Nat) (zo : Int) (u8 : Bool) (codes : List Nat) :
    Beside n s (s.sendCodes n lane kd dChan dChunk zo u8 codes) := State.beside_sendAs ..

theorem State.beside_emitPay (s : State) (n w dChan dChunk : Nat) (p : BitVec 256) : Beside n s (s.emitPay n w dChan dChunk p) :=
  State.beside_toLane ..

theorem State.beside_draw (s : State) (n : Nat) : Beside n s s.draw := .of_eq rfl fun _ => rfl

theorem State.beside_emitFree (s : State) (n w : Nat) : Beside n s (s.emitFree n w) :=
  (State.beside_draw s n).trans (State.beside_emitPay ..)

theorem State.beside_emitLanes (s : State) (n w lo : Nat) : Beside n s (s.emitLanes n w lo) := by
  unfold State.emitLanes
  extract_lets v c x u8 zo codes
  exact .ite (State.beside_emitPay ..) (.ite (State.beside_sendCodes ..) (State.beside_emitPay ..))

theorem State.beside_emit (s : State) (n w : Nat) : Beside n s (s.emit n w) := by
  unfold State.emit
  extract_lets v c raw wide queue s1 s2 s3 s4
  have h1 : Beside n s s1 := State.beside_rawCheck ..
  have h2 : Beside n s s2 := h1.trans (.ite (State.beside_rawCheck ..) (.refl s1))
  have h3 : Beside n s2 s3 := .ite (State.beside_emitPay ..) (.ite (State.beside_emitPay ..) (State.beside_emitLanes ..))
  have h4 : Beside n s2 s4 := .ite ((State.beside_emitPay ..).trans (State.beside_emitPay ..))
    (h3.trans (.ite (.refl s3) (.ite (State.beside_emitLanes ..) (State.beside_emitFree ..))))
  exact (h2.trans h4).trans (State.beside_useCodes ..)

theorem State.beside_pushValue (s : State) (n c : Nat) (east : Bool) : Beside n s (s.pushValue n c east) := by
  unfold State.pushValue
  extract_lets v s1 f s2 r x
  have h1 : Beside n s s1 := State.beside_rawCheck ..
  have h2 : Beside n s1 s2 := .ite (.refl s1) (State.beside_toSide ..)
  exact .ite ((h1.trans h2).trans (State.beside_useQ ..)) ((h1.trans (State.beside_draw s1 n)).trans (State.beside_toSide ..))

-- The acts of the instructions.

theorem State.beside_ldw (s : State) (n w : Nat) : Beside n s (s.ldw n w) := by
  unfold State.ldw
  extract_lets v a s1
  have h1 : Beside n s s1 := .ite (State.beside_hazardNow ..) (.refl s)
  exact (h1.trans (State.beside_modUnit _ n _)).trans (State.beside_useQ ..)

theorem State.beside_mac (s : State) (n w : Nat) : Beside n s (s.mac n w) := by
  unfold State.mac
  extract_lets v act wgt v1 v2
  exact (State.beside_setUnit s n v2).trans (State.beside_useQ ..)

theorem State.beside_accTree (s : State) (n w : Nat) : Beside n s (s.accTree n w) := by
  unfold State.accTree
  extract_lets v
  refine .ite (State.beside_setUnit s n _) ?_
  cases v.chainFlits with
  | none => exact .refl s
  | some e => exact State.beside_setUnit s n _

theorem State.beside_accBlock (s : State) (n w : Nat) : Beside n s (s.accBlock n w) := by
  unfold State.accBlock
  extract_lets v p first b s1
  have h1 : Beside n s s1 := State.beside_setUnit s n _
  exact .ite (h1.trans (State.beside_useQ ..)) h1

theorem State.beside_act (s : State) (n w : Nat) : Beside n s (s.act n w) := by
  unfold State.act
  extract_lets v lo src fn s1 x
  have h1 : Beside n s s1 := State.beside_rawCheck ..
  exact (h1.trans (State.beside_result ..)).trans (State.beside_useCodes ..)

theorem State.beside_elementwise (s : State) (n w : Nat) (op : Nat → Nat → Nat) : Beside n s (s.elementwise n w op) := by
  unfold State.elementwise
  extract_lets v lo a b t s1 x
  have h1 : Beside n s s1 := State.beside_rawCheck ..
  exact (h1.trans (State.beside_result ..)).trans (State.beside_useCodes ..)

theorem State.beside_poolOp (s : State) (n w : Nat) : Beside n s (s.poolOp n w) := by
  unfold State.poolOp
  extract_lets v k dst rows chunk s1
  have h1 : Beside n s s1 := State.beside_result ..
  exact .ite (State.beside_setUnit s n _) (h1.trans (State.beside_modUnit _ n _))

theorem State.beside_dwcOp (s : State) (n w : Nat) : Beside n s (s.dwcOp n w) := by
  unfold State.dwcOp
  extract_lets v k chunk rows u8 s1
  have h1 : Beside n s s1 := State.beside_sendCodes ..
  exact h1.trans (State.beside_modUnit _ n _)

theorem State.beside_rotRun (s : State) (n : Nat) : Beside n s (s.rotRun n) := by
  unfold State.rotRun
  generalize Unit.rotTake 64 (s.unit n) = v
  extract_lets v1
  have hv : v1 = v := rfl
  clear_value v1
  cases v1.rot with
  | none => exact .refl s
  | some r =>
    dsimp -zeta only
    extract_lets k s1 xs cols u8 zo
    have h1 : Beside n s s1 := State.beside_setUnit s n _
    exact .ite (State.beside_setUnit s n _) (h1.trans (.foldl (fun s j => State.beside_sendAs ..) _ _))

theorem State.beside_rot (s : State) (n w : Nat) : Beside n s (s.rot n w) := by
  unfold State.rot
  extract_lets v
  cases v.rotCur w with
  | none => exact .refl s
  | some c =>
    dsimp -zeta only
    extract_lets s1 s2
    have h1 : Beside n s s1 := State.beside_setUnit s n _
    have h2 : Beside n s1 s2 := .ite (State.beside_unitOpens ..) (.refl s1)
    exact (h1.trans h2).trans (State.beside_rotRun ..)

theorem State.beside_rowWar (s : State) (n : Nat) : Beside n s (s.rowWar n) := by
  unfold State.rowWar
  extract_lets v
  cases v.rowOp with
  | none => exact .refl s
  | some r =>
    dsimp -zeta only
    extract_lets now rows s1 y d w u8 codes f fix s2
    have h1 : Beside n s s1 := State.beside_setUnit s n _
    have h2 : Beside n s1 s2 := .ite (State.beside_modUnit ..) (State.beside_modUnit ..)
    exact .ite (.refl s) ((h1.trans h2).trans (State.beside_hazardNow ..))

theorem State.beside_movV (s : State) (n dst src : Nat) : Beside n s (s.movV n dst src) := by
  unfold State.movV
  extract_lets v t s1 s2 lo c hi x s3
  have h1 : Beside n s s1 := State.beside_rawCheck ..
  have h2 : Beside n s1 s2 := .ite (.refl s1) (State.beside_rawCheck ..)
  have h3 : Beside n s2 s3 := .ite ((State.beside_modUnit s2 n _).trans (State.beside_rowWar ..)) (State.beside_modUnit ..)
  exact ((h1.trans h2).trans h3).trans (State.beside_useCodes ..)

theorem State.beside_movT (s : State) (n src : Nat) : Beside n s (s.movT n src) :=
  .ite ((State.beside_setUnit s n _).trans (State.beside_useQ ..)) (.refl s)

theorem State.beside_movStore (s : State) (n w : Nat) : Beside n s (s.movStore n w) := by
  unfold State.movStore
  extract_lets v
  cases v.boundQ with
  | none => exact .refl s
  | some q =>
    dsimp -zeta only
    extract_lets f c s1
    have h1 : Beside n s s1 := .ite (State.beside_setUnit ..) (State.beside_setUnit ..)
    exact h1.trans (State.beside_useQ ..)

theorem State.beside_mov (s : State) (n w : Nat) : Beside n s (s.mov n w) := by
  unfold State.mov
  extract_lets x imm
  split
  · exact .ite (State.beside_movT ..) (State.beside_movV ..)
  · exact State.beside_modUnit ..
  · exact State.beside_modUnit ..
  · exact State.beside_movStore ..

theorem State.beside_statsOp (s : State) (n w : Nat) : Beside n s (s.statsOp n w) := by
  unfold State.statsOp
  extract_lets s1
  refine .ite (State.beside_modUnit ..) ?_
  have h1 : Beside n s s1 := .foldl (fun s q => by
    cases (s.unit n).bound q with
    | none => exact .refl s
    | some e =>
      dsimp -zeta only
      extract_lets s2
      have h2 : Beside n s s2 := .ite (State.beside_modUnit ..) (.refl s)
      exact h2.trans (State.beside_useQ ..)) _ s
  exact h1.trans (State.beside_modUnit ..)

theorem State.beside_sramUe (s : State) (n w st f8 line : Nat) : Beside n s (s.sramUe n w st f8 line) := by
  unfold State.sramUe
  extract_lets v o g s1 s2
  have h2 : Beside n s s2 := .of_eq rfl fun _ => rfl
  split
  · exact .ite (h2.trans (.of_eq rfl fun _ => rfl)) h2
  · exact .ite (h2.trans (.of_eq rfl fun _ => rfl)) h2
  · exact h2.trans (State.beside_modUnit ..)
  · exact h2

theorem State.beside_wordRead (s : State) (n w : Nat) (e : Ecc) (st f8 line : Nat) : Beside n s (s.wordRead n w e st f8 line) := by
  cases e with
  | clean => exact .refl s
  | corrected =>
    unfold State.wordRead
    exact State.beside_modUnit s n _
  | bad => exact State.beside_sramUe ..

theorem State.beside_nodeRead (s : State) (n g : Nat) (ext : Bool) (ws : Waits) (op : Unit → Unit) : Beside n s (s.nodeRead n g ext ws op) :=
  (State.beside_setUnit s n _).trans (State.beside_wordRead ..)

-- The issue of an instruction (R259), and what a unit does between instructions.

theorem State.beside_issue (s : State) (n : Nat) (w : Waits) (op : Nat) (can : Unit → Nat → Bool) (cost : Nat → Nat) {act : State → Nat → State}
    (hact : ∀ s x, Beside n s (act s x)) : Beside n s (s.issue n w op can cost act) := by
  unfold State.issue
  extract_lets v g k
  refine .ite (.refl s) (.ite (.refl s) ?_)
  generalize Unit.bindAll (needs g.waits) v = b
  obtain ⟨o, x⟩ := b
  cases o with
  | some e => exact .refl s
  | none =>
    dsimp -zeta only
    extract_lets busy y s1 s2 s3 s4
    have h1 : Beside n s s1 := State.beside_setUnit s n _
    have h2 : Beside n s1 s2 := .ite (State.beside_unitOpens ..) (.refl s1)
    have h3 : Beside n s2 s3 := State.beside_modUnit ..
    have h4 : Beside n s s4 := (((h1.trans h2).trans h3).trans (hact s3 g.word)).trans (State.beside_modUnit ..)
    clear_value s4
    refine .ite (.refl s) ?_
    cases (s4.unit n).missed with
    | none => exact h4
    | some f => exact h4.trans (State.beside_hazard ..)

theorem reqDrain_beside (s : State) : Beside n s (reqDrain n s) := by
  unfold reqDrain
  extract_lets v
  cases v.drain with
  | none => exact .refl s
  | some b =>
    dsimp -zeta only
    generalize Unit.takePsums 256 v b = r
    extract_lets r' x y w lane ep flit x1 fs t kd zo k set out x2 fs2
    clear_value flit fs2 fs x2
    exact .ite (.refl s) (.ite ((State.beside_setUnit s n x1).trans (State.beside_toLane _ n lane fs))
      ((State.beside_setUnit s n x2).trans (State.beside_toLane _ n lane fs2)))

theorem statsRecordSend_beside (s : State) : Beside n s (statsRecordSend n s) := by
  unfold statsRecordSend
  extract_lets v
  cases v.statsDue with
  | none => exact .refl s
  | some e =>
    obtain ⟨st, f8⟩ := e
    dsimp -zeta only
    extract_lets busy set sum s1 u1 clear s2
    have h1 : Beside n s s1 := .ite (State.beside_hazard ..) (.refl s)
    have h2 : Beside n s1 s2 := State.beside_setUnit ..
    refine .ite (.refl s) ?_
    cases u1.statsTo with
    | none => exact h1.trans h2
    | some e =>
      obtain ⟨lane, kd⟩ := e
      dsimp -zeta only
      extract_lets k
      generalize List.map _ _ = fs
      exact (h1.trans h2).trans (State.beside_toLane s2 n lane fs)

end Sys2Proof.Machine

/-! The commands on one lock, one arbiter, one framed queue, one stream, one slot and one context. -/

namespace Sys2Proof.Machine
set_option Elab.async false
variable {s t u : State}

-- Locks.

theorem State.sameBut_setLock (s : State) (l : Nat) (x : Lock) : SameBut State.lock l s (s.setLock l x) :=
  ⟨fun j hj => State.lock_setLock_ne s l j x (Ne.symm hj)⟩

theorem State.sameBut_handLock (s : State) (l : Nat) : SameBut State.lock l s (s.handLock l) := ⟨fun _ hj => State.lock_handLock_ne s hj⟩

theorem State.lock_finish_all (s : State) (k : Pkt) (fast : Bool) (st : Status) (res : List Nat) (j : Nat) :
    (s.finish k fast st res).lock j = s.lock j := (State.finish_keeps (Nat.and_self _) s k fast st res none (Keeps.refl _ _)).lock_eq j

theorem State.sameBut_lock_finish (s : State) (l : Nat) (k : Pkt) (fast : Bool) (st : Status) (res : List Nat) :
    SameBut State.lock l s (s.finish k fast st res) := .of_eq (State.lock_finish_all s k fast st res)

theorem State.sameBut_tryLock (s : State) (l : Nat) (c : BitVec 10) : SameBut State.lock l s (s.tryLock l c).2 := by
  unfold State.tryLock
  extract_lets x
  split
  · exact State.sameBut_setLock s l _
  · split
    · exact .refl s
    · exact .refl s

theorem lockAcquire_sameBut (k : Pkt) (l wait us : Nat) (s : State) : SameBut State.lock l s (lockAcquire k l wait us s) := by
  refine .command State.lock_finish_all ?_
  extract_lets r x
  have hr : SameBut State.lock l s r.2 := State.sameBut_tryLock s l _
  cases r.1 with
  | granted lost => exact hr.trans (State.sameBut_lock_finish ..)
  | self => exact hr.trans (State.sameBut_lock_finish ..)
  | held => exact .ite (State.sameBut_lock_finish ..) (.ite (State.sameBut_lock_finish ..) (State.sameBut_setLock s l _))

theorem lockRelease_sameBut (k : Pkt) (l : Nat) (s : State) : SameBut State.lock l s (lockRelease k l s) :=
  .command State.lock_finish_all ((State.sameBut_handLock s l).trans (State.sameBut_lock_finish ..))

theorem State.sameBut_acquireRaw (s : State) (f l : Nat) : SameBut State.lock l s (s.acquireRaw f l).2 := by
  unfold State.acquireRaw
  split
  · exact .refl s
  · extract_lets r x
    have hr : SameBut State.lock l s r.2 := State.sameBut_tryLock s l _
    cases r.1 with
    | granted lost => exact hr
    | self => exact hr
    | held => exact hr

theorem lockAcq_sameBut (s : State) (p : Path) (l : Nat) :
    SameBut State.lock l s (if s.ready && s.reachable p then (s.acquireRaw (pathFn p) l).2.returned (s.acquireRaw (pathFn p) l).1 else s) :=
  .ite ((State.sameBut_acquireRaw s _ l).trans (.of_eq fun _ => rfl)) (.refl s)

theorem State.sameBut_releaseRaw (s : State) (f l : Nat) : SameBut State.lock l s (s.releaseRaw f l) :=
  .ite (State.sameBut_handLock s l) (.refl s)

theorem State.sameBut_forceRaw (s : State) (f l : Nat) : SameBut State.lock l s (s.forceRaw f l) :=
  .ite ⟨fun _ hj => State.lock_forceLock_ne s hj⟩ (State.sameBut_releaseRaw s f l)

-- Arbiters.

theorem State.sameBut_setArb (s : State) (a : Nat) (x : Arbiter) : SameBut State.arb a s (s.setArb a x) :=
  ⟨fun j hj => State.arb_setArb_ne s a j x (Ne.symm hj)⟩

theorem State.sameBut_modArb (s : State) (a : Nat) (f : Arbiter → Arbiter) : SameBut State.arb a s (s.modArb a f) := State.sameBut_setArb s a _

theorem State.sameBut_setArb_of_eq (h : ∀ j, t.arb j = s.arb j) (a : Nat) (x : Arbiter) : SameBut State.arb a s (t.setArb a x) :=
  (SameBut.of_eq h).trans (State.sameBut_setArb t a x)

theorem State.arb_writeCpl_reserveCpl (s : State) (p w : Nat) (b : Bytes) (j : Nat) : ((s.reserveCpl p).2.writeCpl p w b).arb j = s.arb j :=
  ((State.writeCpl_keeps (Nat.and_self _) (s.reserveCpl p).2 p w b (Keeps.refl _ _)).arb_eq j).trans
    ((State.reserveCpl_keeps (Nat.and_self _) s p (Keeps.refl _ _)).arb_eq j)

theorem State.sameBut_handOut (s : State) (p w : Nat) (a : Arbiter) :
    SameBut State.arb (arbCode (.pool (Fin.ofNat 64 p))) s (s.handOut p w a) := by
  unfold State.handOut
  cases (s.pool p).cache with
  | nil => exact State.sameBut_setArb s _ a
  | cons d ds =>
    dsimp -zeta only
    extract_lets s1
    have h1 : SameBut State.arb (arbCode (.pool (Fin.ofNat 64 p))) s s1 := .of_eq fun _ => rfl
    clear_value s1
    cases (s1.strm w).nextLine with
    | none => exact h1
    | some x =>
      refine h1.trans (.ite ?_ ?_)
      · exact State.sameBut_setArb_of_eq (State.arb_writeCpl_reserveCpl s1 p _ _) _ _
      · refine State.sameBut_setArb_of_eq (t := s1.modStrm w (fun x => { x with granted := some d })) ?_ _ _
        exact fun _ => rfl

theorem State.sameBut_arbitratePool (s : State) (p n : Nat) (present : List Nat) :
    SameBut State.arb (arbCode (.pool (Fin.ofNat 64 p))) s (s.arbitratePool p n present) := by
  unfold State.arbitratePool
  extract_lets wants code a0 a1 a
  refine .ite (State.sameBut_setArb s _ _) ?_
  cases a.winner with
  | none => exact State.sameBut_setArb s _ _
  | some w => exact State.sameBut_handOut s p w _

theorem arbitration_sameBut (a : ArbId) (present : List Nat) (n : Nat) (s : State) : SameBut State.arb (arbCode a) s (arbitration a present n s) := by
  unfold arbitration
  refine .ite (.refl s) ?_
  cases a with
  | pool p =>
    have hp : Fin.ofNat 64 p.val = p := Fin.ofNat_val_eq_self p
    have h := State.sameBut_arbitratePool s p.val n present
    rw [hp] at h
    exact h
  | _ => exact State.sameBut_modArb s _ _

theorem withdraw_sameBut (a : ArbId) (i : Nat) (s : State) : SameBut State.arb (arbCode a) s (withdraw a i s) := by
  unfold withdraw
  extract_lets x y
  refine .ite ?_ (State.sameBut_setArb s _ _)
  cases a with
  | pool p =>
    dsimp only
    cases (s.strm i).granted with
    | none => exact .refl s
    | some d =>
      refine State.sameBut_setArb_of_eq (t := (s.modStrm i (fun z => { z with granted := none })).modPool p
        (fun z => { z with cache := d :: z.cache })) ?_ _ _
      exact fun _ => rfl
  | _ => exact State.sameBut_setArb s _ _

-- Framed queues.

theorem State.sameBut_modQueue (s : State) (q : Nat) (f : FQueue → FQueue) : SameBut State.queue q s (s.modQueue q f) :=
  ⟨fun j hj => State.queue_setQueue_ne s q j _ (Ne.symm hj)⟩

theorem State.queue_holdArb {a : ArbId} {i : Nat} (h : s.holdArb a i = some t) (j : Nat) : t.queue j = s.queue j := by
  obtain ⟨x, -, rfl⟩ := Option.map_eq_some_iff.mp h
  rfl

theorem queueWordWrite_sameBut (q : QId) (src : Nat) (w : B64) (endMark crcOk : Bool) (s : State) :
    SameBut State.queue (queueCode q) s (queueWordWrite q src w endMark crcOk s) := by
  unfold queueWordWrite
  extract_lets put
  have hput : ∀ s : State, SameBut State.queue (queueCode q) s (put s) := fun s => State.sameBut_modQueue s _ _
  cases prodArb q with
  | none => exact hput s
  | some a =>
    dsimp only
    cases hs : s.holdArb a src with
    | none => exact .refl s
    | some s1 =>
      have h1 : SameBut State.queue (queueCode q) s (put s1) := (SameBut.of_eq (State.queue_holdArb hs)).trans (hput s1)
      exact .ite (h1.trans (.of_eq fun _ => rfl)) h1

theorem queueAbort_sameBut (q : QId) (s : State) : SameBut State.queue (queueCode q) s (queueAbort q s) := by
  unfold queueAbort
  refine .ite ?_ (.refl s)
  extract_lets s1
  have h1 : SameBut State.queue (queueCode q) s s1 := State.sameBut_modQueue s _ _
  clear_value s1
  cases prodArb q with
  | none => exact h1
  | some a => exact h1.trans (.of_eq fun _ => rfl)

theorem queueRead_sameBut {q : QId} (hq : ∀ site out, q ≠ .ctrl site out) (s : State) : SameBut State.queue (queueCode q) s (queueRead q s) := by
  unfold queueRead
  cases q with
  | reply f =>
    dsimp only
    cases (s.fn f).replyQ with
    | nil => exact State.sameBut_modQueue s _ _
    | cons r l =>
      exact (State.sameBut_modQueue s _ _).trans (.of_eq (replyWrite_keeps (Nat.and_self _) f true _ (Keeps.refl _ _)).queue_eq)
  | eventLog =>
    dsimp only
    cases s.seqr.logQ with
    | nil => exact State.sameBut_modQueue s _ _
    | cons r l => exact (State.sameBut_modQueue s _ _).trans (.of_eq (logDistribute_keeps (Nat.and_self _) _ (Keeps.refl _ _)).queue_eq)
  | ctrl site out => exact absurd rfl (hq site out)
  | _ => exact State.sameBut_modQueue s _ _

end Sys2Proof.Machine

/-! The commands on one stream, one slot, one context, one pool, one port, one function and one stack. -/

namespace Sys2Proof.Machine
set_option Elab.async false
variable {s t u : State}

-- Streams.

theorem State.sameBut_setStrm (s : State) (i : Nat) (x : Strm) : SameBut State.strm i s (s.setStrm i x) :=
  ⟨fun j hj => State.strm_setStrm_ne s i j x (Ne.symm hj)⟩

theorem State.strm_finish_all (s : State) (k : Pkt) (fast : Bool) (st : Status) (res : List Nat) (j : Nat) :
    (s.finish k fast st res).strm j = s.strm j := (State.finish_keeps (Nat.and_self _) s k fast st res none (Keeps.refl _ _)).strm_eq j

theorem State.sameBut_setStrm_finish (s : State) (i : Nat) (x : Strm) (k : Pkt) (fast : Bool) (st : Status) (res : List Nat) :
    SameBut State.strm i s ((s.setStrm i x).finish k fast st res) :=
  (State.sameBut_setStrm s i x).trans (.of_eq (State.strm_finish_all _ k fast st res))

theorem missingLine_sameBut (st : Nat) (s : State) : SameBut State.strm st s (missingLine st s) := by
  unfold missingLine
  extract_lets x
  cases x.missing with
  | nil => exact .refl s
  | cons i l =>
    dsimp -zeta only
    extract_lets held
    cases i with
    | eof f => exact State.sameBut_setStrm s st _
    | line l => exact .ite (.refl s) (State.sameBut_setStrm s st _)

theorem lineTake_sameBut (st : Nat) (s : State) : SameBut State.strm st s (lineTake st s) := by
  unfold lineTake
  extract_lets x
  cases x.buf with
  | nil => exact .refl s
  | cons i l => exact .ite (.refl s) (State.sameBut_setStrm s st _)

theorem sceneSet_sameBut (k : Pkt) (st model hold conf : Nat) (table : List B8) (s : State) :
    SameBut State.strm st s (sceneSet k st model hold conf table s) := by
  unfold sceneSet
  extract_lets c
  exact .command State.strm_finish_all (State.sameBut_setStrm_finish ..)

theorem replaySet_sameBut (k : Pkt) (st place loop frames bytes : Nat) (src : B64) (s : State) :
    SameBut State.strm st s (replaySet k st place loop frames bytes src s) := by
  unfold replaySet
  extract_lets d
  exact .command State.strm_finish_all (State.sameBut_setStrm_finish ..)

theorem patternSet_sameBut (k : Pkt) (st pattern : Nat) (seed : B16) (s : State) : SameBut State.strm st s (patternSet k st pattern seed s) :=
  .command State.strm_finish_all (State.sameBut_setStrm_finish ..)

theorem dropThreshold_sameBut (k : Pkt) (st n : Nat) (s : State) : SameBut State.strm st s (dropThreshold k st n s) :=
  .command State.strm_finish_all ((SameBut.ite (State.sameBut_setStrm s st _) (.refl s)).trans (.of_eq (State.strm_finish_all _ k true .ok [])))

theorem streamStart_sameBut (k : Pkt) (st pol sw oq pool at' : Nat) (time : B64) (s : State) :
    SameBut State.strm st s (streamStart k st pol sw oq pool at' time s) := by
  unfold streamStart
  extract_lets x o c n ports
  refine .command State.strm_finish_all ?_
  extract_lets s1 s2
  have h1 : SameBut State.strm st s s1 := State.sameBut_setStrm s st _
  have h2 : SameBut State.strm st s1 s2 := .ite (.of_eq fun _ => rfl) (.refl s1)
  exact (h1.trans h2).trans (.of_eq (State.strm_finish_all s2 k true .ok []))

-- Slots.

theorem State.sameBut_setSlot (s : State) (n : Nat) (x : Slot) : SameBut State.slot n s (s.setSlot n x) :=
  ⟨fun j hj => State.slot_setSlot_ne s n j x (Ne.symm hj)⟩

theorem State.slot_finish_all (s : State) (k : Pkt) (fast : Bool) (st : Status) (res : List Nat) (j : Nat) :
    (s.finish k fast st res).slot j = s.slot j := (State.finish_keeps (Nat.and_self _) s k fast st res none (Keeps.refl _ _)).slot_eq j

theorem State.sameBut_slot_finish (s : State) (n : Nat) (k : Pkt) (fast : Bool) (st : Status) (res : List Nat) :
    SameBut State.slot n s (s.finish k fast st res) := .of_eq (State.slot_finish_all s k fast st res)

theorem slotDefine_sameBut (k : Pkt) (n place len : Nat) (src : B64) (s : State) : SameBut State.slot n s (slotDefine k n place len src s) :=
  .command State.slot_finish_all ((State.sameBut_setSlot s n _).trans (State.sameBut_slot_finish ..))

theorem slotUndefine_sameBut (k : Pkt) (n : Nat) (s : State) : SameBut State.slot n s (slotUndefine k n s) :=
  .command State.slot_finish_all ((State.sameBut_setSlot s n _).trans (State.sameBut_slot_finish ..))

theorem slotUnstage_sameBut (k : Pkt) (n : Nat) (s : State) : SameBut State.slot n s (slotUnstage k n s) :=
  .command State.slot_finish_all ((State.sameBut_setSlot s n _).trans (State.sameBut_slot_finish ..))

theorem slotStage_sameBut (k : Pkt) (n : Nat) (d : ImageDecl) (err : Bool) (s : State) : SameBut State.slot n s (slotStage k n d err s) := by
  unfold slotStage
  extract_lets x
  refine .command State.slot_finish_all ?_
  extract_lets s1
  have h1 : SameBut State.slot n s s1 := .ite (.of_eq fun _ => rfl) (.refl s)
  clear_value s1
  cases s.sourceData (if x.host then 1 else 0) x.src x.length err with
  | none => exact h1.trans (State.sameBut_slot_finish ..)
  | some b =>
    dsimp only
    cases stageCheck b x.length d with
    | error e => exact h1.trans (State.sameBut_slot_finish ..)
    | ok m => exact (h1.trans (State.sameBut_setSlot s1 n _)).trans (State.sameBut_slot_finish ..)

-- Contexts.

theorem State.sameBut_setCtx (s : State) (o : Nat) (x : Option Ctx) : SameBut State.ctx o s (s.setCtx o x) :=
  ⟨fun j hj => State.ctx_setCtx_ne s o j x (Ne.symm hj)⟩

theorem State.sameBut_modRunning (s : State) (o : Nat) (f : Ctx → Ctx) : SameBut State.ctx o s (s.modRunning o f) := State.sameBut_setCtx s o _

theorem State.ctx_finish_all (s : State) (k : Pkt) (fast : Bool) (st : Status) (res : List Nat) (j : Nat) :
    (s.finish k fast st res).ctx j = s.ctx j := (State.finish_keeps (Nat.and_self _) s k fast st res none (Keeps.refl _ _)).ctx_eq j

theorem State.sameBut_ctx_finish (s : State) (o : Nat) (k : Pkt) (fast : Bool) (st : Status) (res : List Nat) :
    SameBut State.ctx o s (s.finish k fast st res) := .of_eq (State.ctx_finish_all s k fast st res)

theorem State.sameBut_setCtx_finish (s : State) (o : Nat) (x : Option Ctx) (k : Pkt) (fast : Bool) (st : Status) (res : List Nat) :
    SameBut State.ctx o s ((s.setCtx o x).finish k fast st res) := (State.sameBut_setCtx s o x).trans (State.sameBut_ctx_finish ..)

theorem ecloseVariant_sameBut (k : Pkt) (o n at' : Nat) (s : State) : SameBut State.ctx o s (ecloseVariant k o n at' s) := by
  unfold ecloseVariant
  extract_lets c v
  refine .command State.ctx_finish_all ?_
  cases v with
  | none => exact .refl s
  | some p => exact State.sameBut_setCtx s o _

theorem statsSnapshot_sameBut (k : Pkt) (o st which : Nat) (vmask : B32) (dest : B64) (len : Nat) (s : State) :
    SameBut State.ctx o s (statsSnapshot k o st which vmask dest len s) := by
  unfold statsSnapshot
  extract_lets c sites
  refine .command State.ctx_finish_all ?_
  extract_lets s1
  have h1 : SameBut State.ctx o s s1 := State.sameBut_setCtx s o _
  exact h1.trans (.ite (.of_eq fun _ => rfl) (.refl s1))

theorem exponentTrim_sameBut (k : Pkt) (o g : Nat) (v : Int) (s : State) : SameBut State.ctx o s (exponentTrim k o g v s) := by
  unfold exponentTrim
  extract_lets c bad
  exact .command State.ctx_finish_all (State.sameBut_setCtx_finish ..)

theorem State.sameBut_placeVariantOn (s : State) (k : Pkt) (o n : Nat) (lists : Option Lists) :
    SameBut State.ctx o s (s.placeVariantOn k o n lists) := by
  unfold State.placeVariantOn
  extract_lets c m
  cases s.placeImage o n m c.place.replicas (s.slotStreams o m.streams) lists (some c.region) none with
  | error st => exact State.sameBut_ctx_finish ..
  | ok p => exact State.sameBut_setCtx_finish ..

theorem placeVariant_sameBut (k : Pkt) (o n : Nat) (s : State) : SameBut State.ctx o s (placeVariant k o n s) :=
  .command State.ctx_finish_all (State.sameBut_placeVariantOn ..)

theorem placeVariantPlaced_sameBut (k : Pkt) (o n : Nat) (lists : Option Lists) (s : State) :
    SameBut State.ctx o s (placeVariantPlaced k o n lists s) := .command State.ctx_finish_all (State.sameBut_placeVariantOn ..)

theorem unplaceVariant_sameBut (k : Pkt) (o n : Nat) (s : State) : SameBut State.ctx o s (unplaceVariant k o n s) := by
  unfold unplaceVariant
  extract_lets c
  exact .command State.ctx_finish_all (State.sameBut_setCtx_finish ..)

theorem entityKey_sameBut (k : Pkt) (o e : Nat) (key : B16) (s : State) : SameBut State.ctx o s (entityKey k o e key s) := by
  unfold entityKey
  extract_lets c
  exact .command State.ctx_finish_all (State.sameBut_setCtx_finish ..)

theorem State.sameBut_endLoading (s : State) (k : Pkt) (o m : Nat) : SameBut State.ctx o s (s.endLoading k o m) :=
  .ite (State.sameBut_modRunning s o _) (.refl s)

theorem State.sameBut_doneReading (s : State) (o m st f8 : Nat) : SameBut State.ctx o s (s.doneReading o m st f8) :=
  .of_eq (State.doneReading_keeps (Nat.and_self _) s o m st f8 (Keeps.refl _ _)).ctx_eq

theorem State.sameBut_treeSkipped (s : State) (o m st : Nat) (fseq : B16) (cause : Nat) : SameBut State.ctx o s (s.treeSkipped o m st fseq cause) :=
  .of_eq (State.treeSkipped_keeps (Nat.and_self _) s o m st fseq cause (Keeps.refl _ _)).ctx_eq

theorem State.sameBut_reloadModel (s : State) (o m : Nat) (new : ModelDecl) : SameBut State.ctx o s (s.reloadModel o m new) := by
  unfold State.reloadModel
  extract_lets old s1 s2
  have h1 : SameBut State.ctx o s s1 := .foldl (fun s p => State.sameBut_doneReading s o m _ _) old s
  have h2 : SameBut State.ctx o s1 s2 := State.sameBut_modRunning s1 o _
  refine (h1.trans h2).trans (.foldl (fun s p => ?_) old s2)
  extract_lets f8 sites s3
  have h3 : SameBut State.ctx o s s3 := .foldl (f := fun s i => s.modUnit i _) (fun s i => .of_eq fun _ => rfl) sites s
  exact .ite (h3.trans (State.sameBut_modRunning s3 o _)) (State.sameBut_treeSkipped s o m _ _ 2)

theorem modelLoad_sameBut (k : Pkt) (o m place len : Nat) (src : B64) (err : Bool) (s : State) :
    SameBut State.ctx o s (modelLoad k o m place len src err s) := by
  unfold modelLoad
  extract_lets s1 c
  have h1 : SameBut State.ctx o s s1 := .ite (State.sameBut_endLoading s k o m) (.refl s)
  refine h1.trans (.command State.ctx_finish_all ?_)
  extract_lets s2
  have h2 : SameBut State.ctx o s1 s2 := .ite (.of_eq fun _ => rfl) (.refl s1)
  clear_value s2
  cases s1.sourceData place src len err with
  | none => exact h2.trans (State.sameBut_ctx_finish ..)
  | some b =>
    cases c.model m with
    | none => exact h2.trans (State.sameBut_ctx_finish ..)
    | some d =>
      dsimp only
      cases blobCheck b len d with
      | error e => exact h2.trans (State.sameBut_ctx_finish ..)
      | ok new =>
        have h3 : SameBut State.ctx o s2 (s2.writeModel c.place new b) :=
          .of_eq (State.writeModel_keeps (Nat.and_self _) s2 c.place new b (Keeps.refl _ _)).ctx_eq
        exact ((h2.trans h3).trans (State.sameBut_reloadModel _ o m new)).trans (State.sameBut_ctx_finish ..)

theorem contextUnload_sameBut (k : Pkt) (o : Nat) (s : State) : SameBut State.ctx o s (contextUnload k o s) := by
  unfold contextUnload
  extract_lets c
  refine .command State.ctx_finish_all ?_
  extract_lets s1 s2
  have h1 : SameBut State.ctx o s s1 := .of_eq (State.sendUnbind_keeps (Nat.and_self _) s o (Keeps.refl _ _)).ctx_eq
  have h2 : SameBut State.ctx o s1 s2 := by
    simp only [s2]
    cases c.snap with
    | none => exact .refl s1
    | some n => exact State.sameBut_ctx_finish ..
  exact (h1.trans h2).trans (State.sameBut_modRunning s2 o _)

-- Pools.

theorem State.sameBut_setPool (s : State) (p : Nat) (x : Pool) : SameBut State.pool p s (s.setPool p x) :=
  ⟨fun j hj => State.pool_setPool_ne s p j x (Ne.symm hj)⟩

theorem State.pool_finish_all (s : State) (k : Pkt) (fast : Bool) (st : Status) (res : List Nat) (j : Nat) :
    (s.finish k fast st res).pool j = s.pool j := (State.finish_keeps (Nat.and_self _) s k fast st res none (Keeps.refl _ _)).pool_eq j

theorem poolAssign_sameBut (k : Pkt) (p f : Nat) (s : State) : SameBut State.pool p s (poolAssign k p f s) :=
  .command State.pool_finish_all ((State.sameBut_setPool s p _).trans (.of_eq (State.pool_finish_all _ k false .ok [])))

theorem poolSetup_sameBut (k : Pkt) (p ro co : Nat) (ring cpl : B64) (s : State) : SameBut State.pool p s (poolSetup k p ro co ring cpl s) :=
  .command State.pool_finish_all ((State.sameBut_setPool s p _).trans (.of_eq (State.pool_finish_all _ k false .ok [])))

theorem poolDescriptorFetch_sameBut (p : Nat) (data : Bytes) (s : State) : SameBut State.pool p s (poolDescriptorFetch p data s) := by
  unfold poolDescriptorFetch
  extract_lets x ds avail got
  exact .ite (.refl s) (State.sameBut_setPool s p _)

-- Yallek ports.

theorem State.sameBut_setYport (s : State) (p : Nat) (y : Yport) : SameBut State.yport p s (s.setYport p y) :=
  ⟨fun j hj => State.yport_setYport_ne s p j y (Ne.symm hj)⟩

theorem State.sameBut_modYport (s : State) (p : Nat) (f : Yport → Yport) : SameBut State.yport p s (s.modYport p f) := State.sameBut_setYport s p _

theorem State.sameBut_sendSpore (s : State) (p typ : Nat) (b : Bytes) : SameBut State.yport p s (s.sendSpore p typ b) := State.sameBut_setYport s p _

theorem State.yport_finish_all (s : State) (k : Pkt) (fast : Bool) (st : Status) (res : List Nat) (j : Nat) :
    (s.finish k fast st res).yport j = s.yport j := (State.finish_keeps (Nat.and_self _) s k fast st res none (Keeps.refl _ _)).yport_eq j

theorem State.sameBut_alignReply (s : State) (p : Nat) (st : Status) : SameBut State.yport p s (s.alignReply p st) := by
  unfold State.alignReply
  extract_lets y
  cases y.alignPkt with
  | none => exact .refl s
  | some a => exact (State.sameBut_setYport s p _).trans (.of_eq (State.yport_finish_all _ a.2 false st _))

theorem yallekAlign_sameBut (k : Pkt) (p : Nat) (b : Bytes) (s : State) : SameBut State.yport p s (yallekAlign k p b s) := by
  unfold yallekAlign
  extract_lets op route
  refine .command State.yport_finish_all ?_
  extract_lets s1
  have h1 : SameBut State.yport p s s1 := State.sameBut_modYport s p _
  exact .ite (h1.trans (State.sameBut_alignReply s1 p .ok)) h1

-- Ethernet ports.

theorem State.sameBut_setEth (s : State) (p : Nat) (e : Eth) : SameBut State.eth p s (s.setEth p e) :=
  ⟨fun j hj => State.eth_setEth_ne s p j e (Ne.symm hj)⟩

theorem State.sameBut_ethSend (s : State) (p : Nat) (b : Bytes) : SameBut State.eth p s (s.ethSend p b) := State.sameBut_setEth s p _

theorem State.sameBut_ethLink (s : State) (p : Nat) (up : Bool) : SameBut State.eth p s (s.ethLink p up) :=
  .ite (.refl s) ((State.sameBut_setEth s p _).trans (.of_eq fun _ => rfl))

-- Functions.

theorem State.sameBut_setFn (s : State) (f : Nat) (x : Fn) : SameBut State.fn f s (s.setFn f x) :=
  ⟨fun j hj => State.fn_setFn_ne s f j x (Ne.symm hj)⟩

theorem State.sameBut_modFn (s : State) (f : Nat) (g : Fn → Fn) : SameBut State.fn f s (s.modFn f g) := State.sameBut_setFn s f _

theorem State.sameBut_raiseIrq (s : State) (f v : Nat) : SameBut State.fn f s (s.raiseIrq f v) := State.sameBut_setFn s f _

theorem State.sameBut_modFn_raiseIrq (s : State) (f v : Nat) (g : Fn → Fn) : SameBut State.fn f s ((s.modFn f g).raiseIrq f v) :=
  (State.sameBut_modFn s f g).trans (State.sameBut_raiseIrq _ f v)

theorem State.sameBut_ringStatus (s : State) (f : Nat) (g : Fn → Fn) : SameBut State.fn f s (s.ringStatus f g) := by
  unfold State.ringStatus
  extract_lets old s1
  have h1 : SameBut State.fn f s s1 := State.sameBut_modFn s f g
  exact .ite h1 (h1.trans (State.sameBut_raiseIrq s1 f 3))

theorem State.sameBut_fn_hostWrite (s : State) (f : Nat) (a : B64) (b : Bytes) : SameBut State.fn f s (s.hostWrite a b) := .of_eq fun _ => rfl

theorem replyWrite_sameBut (f : Nat) (ok : Bool) (s : State) : SameBut State.fn f s (replyWrite f ok s) := by
  unfold replyWrite
  extract_lets x next
  cases x.replyQ with
  | nil => exact .refl s
  | cons r l =>
    dsimp -zeta only
    extract_lets s1 s2 s3
    have h1 : SameBut State.fn f s s1 := State.sameBut_fn_hostWrite ..
    have h2 : SameBut State.fn f s1 s2 := .ite (.refl s1) (State.sameBut_fn_hostWrite ..)
    have h3 : SameBut State.fn f s s3 := (h1.trans h2).trans (State.sameBut_setFn s2 f _)
    exact .ite (.refl s) (.ite (State.sameBut_ringStatus s f _) (.ite (h3.trans (State.sameBut_raiseIrq s3 f 0)) h3))

theorem cmdTail_sameBut (f v : Nat) (s : State) : SameBut State.fn f s (cmdTail f v s) :=
  .ite (.refl s) (.ite (State.sameBut_ringStatus s f _) (State.sameBut_setFn s f _))

theorem ringReset_sameBut (f : Nat) (s : State) : SameBut State.fn f s (ringReset f s) := .ite (.refl s) (State.sameBut_modFn s f _)

-- HBM stacks.

theorem State.sameBut_setStackOf (s : State) (i : Nat) (x : Stack) : SameBut State.stackOf i s (s.setStackOf i x) :=
  ⟨fun j hj => Tab.get_set_ne _ x s.hbmStacks i j (Ne.symm hj)⟩

theorem State.sameBut_modStackOf (s : State) (i : Nat) (f : Stack → Stack) : SameBut State.stackOf i s (s.modStackOf i f) :=
  State.sameBut_setStackOf s i _

theorem State.sameBut_hbmCe (s : State) (i : Nat) : SameBut State.stackOf i s (s.hbmCe i) :=
  .ite ((State.sameBut_setStackOf s i _).trans (.of_eq fun _ => rfl)) (State.sameBut_setStackOf s i _)

theorem State.stackOf_useArb {a : ArbId} {i : Nat} {present : List Nat} (h : s.useArb a i present = some t) (j : Nat) :
    t.stackOf j = s.stackOf j := by
  obtain ⟨x, -, rfl⟩ := Option.map_eq_some_iff.mp h
  rfl

theorem hbmBurst_sameBut (k : Fin 4) (a : HbmAcc) (s : State) : SameBut State.stackOf k s (hbmBurst k a s) := by
  unfold hbmBurst
  extract_lets addr
  refine .ite (.refl s) ?_
  cases hs : s.useArb (.hbm k) a.input with
  | none => exact .refl s
  | some s1 =>
    dsimp -zeta only
    extract_lets s2
    have h2 : SameBut State.stackOf k s s2 := (SameBut.of_eq (State.stackOf_useArb hs)).trans (State.sameBut_modStackOf s1 k _)
    refine h2.trans ?_
    clear_value s2
    cases a.data with
    | some d => exact .ite (.of_eq fun _ => rfl) (.refl s2)
    | none => exact .ite (.of_eq fun _ => rfl) (.ite (State.sameBut_hbmCe s2 k) (.refl s2))

end Sys2Proof.Machine

/-! A command on one entry of a component leaves the other entries (O5). -/

namespace Sys2Proof.Machine
set_option Elab.async false
variable {s t u : State}

-- The remaining instructions of a unit.

theorem statsBankRelease_beside (s : State) (n : Nat) :
    Beside n s (match (s.unit n).bankC with
      | none => s
      | some b => if b.readers.isEmpty && !(s.unit n).bankHeld then s.setUnit n { s.unit n with bankC := none } else s) := by
  cases (s.unit n).bankC with
  | none => exact .refl s
  | some b => exact .ite (State.beside_setUnit s n _) (.refl s)

-- The remaining commands of a head.

theorem headAuth_sameBut (k : Pkt) (h : Nat) (s : State) : SameBut State.head h s (headAuth k h s) := by
  unfold headAuth
  extract_lets x
  exact .headCommand (State.sameBut_startAuth ..)

theorem headExposure_sameBut (k : Pkt) (h gain lines : Nat) (s : State) : SameBut State.head h s (headExposure k h gain lines s) := by
  unfold headExposure
  extract_lets r
  exact .headCommand (State.sameBut_modHead_finish ..)

theorem State.sameBut_modHead_sclSettle (s : State) (h : Nat) (f : Head → Head) : SameBut State.head h s ((s.modHead h f).sclSettle h) :=
  (State.sameBut_modHead s h f).trans (State.sameBut_sclSettle _ h)

-- From a lemma on the state a command leaves to the obligation.

theorem SameBut.ite_left {α : Type} {get : State → Nat → α} {n : Nat} {c : Prop} [Decidable c] (h : SameBut get n s t) :
    SameBut get n s (if c then t else s) := .ite h (.refl s)

theorem SameBut.ite_right {α : Type} {get : State → Nat → α} {n : Nat} {c : Prop} [Decidable c] (h : SameBut get n s t) :
    SameBut get n s (if c then s else t) := .ite (.refl s) h

theorem Beside.othersSame {n : Nat} (h : Beside n s t) : (Entry.unit n).othersSame s t := fun hlog => (h.units hlog).same

/-- A command that names an entry ends in a state with the other entries as they were, if the state it computes has them so. -/
theorem othersSame_of_next {e e' : Entry} {t t' : State} (he : some e = some e') (ht : Host.Outcome.next t = (.next t' : Host.Outcome State Fault Refusal))
    (h : e.othersSame s t) : e'.othersSame s t' := by
  cases he
  cases ht
  exact h

end Sys2Proof.Machine

namespace Sys2Proof
set_option Elab.async false
open Sys2Proof.Machine

theorem issue_othersSame {s t : State} {e : Entry} {n : Nat} {w : Waits} {op : Nat} {can : Machine.Unit → Nat → Bool} {cost : Nat → Nat}
    {act : State → Nat → State} (he : some (Entry.unit n) = some e)
    (ht : Host.Outcome.next (s.issue n w op can cost act) = (.next t : Host.Outcome State Fault Refusal)) (hact : ∀ s x, Beside n s (act s x)) :
    e.othersSame s t := othersSame_of_next he ht (State.beside_issue s n w op can cost hact).othersSame

/-- Settles O5: for each command that names an entry, what it leaves of that entry's component. -/
theorem otherEntriesStay : Obligations.OtherEntriesStay := by
  intro c e s t he ht
  cases c
  case microNop x w => exact issue_othersSame he ht fun s _ => .refl s
  case pop x w => exact issue_othersSame he ht fun s w => .foldl (fun s q => State.beside_removeQ s x q) _ s
  case push x w => exact issue_othersSame he ht fun s w => .ite (State.beside_modUnit ..) (State.beside_pushValue ..)
  case ldw x w => exact issue_othersSame he ht fun s w => State.beside_ldw s x w
  case mac x w => exact issue_othersSame he ht fun s w => State.beside_mac s x w
  case acc x w => exact issue_othersSame he ht fun s w => .ite (State.beside_accTree s x w) (State.beside_accBlock s x w)
  case bias x w => exact issue_othersSame he ht fun s w => State.beside_modUnit ..
  case req x w => exact issue_othersSame he ht fun s w => State.beside_modUnit ..
  case reqDrain x => exact othersSame_of_next he ht (reqDrain_beside s).othersSame
  case act x w => exact issue_othersSame he ht fun s w => State.beside_act s x w
  case pool x w => exact issue_othersSame he ht fun s w => State.beside_poolOp s x w
  case add x w => exact issue_othersSame he ht fun s w => State.beside_elementwise s x w _
  case mul x w => exact issue_othersSame he ht fun s w => State.beside_elementwise s x w _
  case mov x w => exact issue_othersSame he ht fun s w => State.beside_mov s x w
  case loop x w => exact issue_othersSame he ht fun s w => State.beside_modUnit ..
  case endl x w => exact issue_othersSame he ht fun s w => State.beside_modUnit ..
  case emit x w => exact issue_othersSame he ht fun s w => State.beside_emit s x w
  case sync x w => exact issue_othersSame he ht fun s _ => .refl s
  case rot x w => exact issue_othersSame he ht fun s w => State.beside_rot s x w
  case dwc x w => exact issue_othersSame he ht fun s w => State.beside_dwcOp s x w
  case stats x w => exact issue_othersSame he ht fun s w => State.beside_statsOp s x w
  case tcmp x w => exact issue_othersSame he ht fun s y => State.beside_nodeRead s x (bits y 43 5) true w _
  case tleaf x w => exact issue_othersSame he ht fun s y => State.beside_nodeRead s x (bits y 43 5) false w _
  case statsRecordSend x => exact othersSame_of_next he ht (statsRecordSend_beside s).othersSame
  case statsBankRelease x => exact othersSame_of_next he ht (statsBankRelease_beside s x).othersSame
  case lockAcq p l => exact othersSame_of_next he ht (lockAcq_sameBut s p l).same
  case lockReleaseWrite p l => exact othersSame_of_next he ht (SameBut.ite_left (State.sameBut_releaseRaw s (pathFn p) l)).same
  case lockForceWrite p l => exact othersSame_of_next he ht (SameBut.ite_left (State.sameBut_forceRaw s (pathFn p) l)).same
  case lockAcquire k l w us => exact othersSame_of_next he ht (lockAcquire_sameBut k l.toNat w.toNat us.toNat s).same
  case lockRelease k l => exact othersSame_of_next he ht (lockRelease_sameBut k l.toNat s).same
  case arbitration a p n => exact othersSame_of_next he ht (arbitration_sameBut a _ n.toNat s).same
  case backoffEnd a i => exact othersSame_of_next he ht (State.sameBut_modArb s (arbCode a) _).same
  case forced a i => exact othersSame_of_next he ht (SameBut.ite_right (State.sameBut_modArb s (arbCode a) _)).same
  case withdraw a i => exact othersSame_of_next he ht (withdraw_sameBut a i s).same
  case queueWordWrite q w m crc => exact othersSame_of_next he ht (SameBut.ite_right (queueWordWrite_sameBut q _ _ _ _ s)).same
  case queueAbort q => exact othersSame_of_next he ht (queueAbort_sameBut q s).same
  case queueReserve q p n => exact othersSame_of_next he ht (SameBut.ite_right (State.sameBut_modQueue s (queueCode q) _)).same
  case queueSlotWrite q p i b => exact othersSame_of_next he ht (SameBut.ite_right (State.sameBut_modQueue s (queueCode q) _)).same
  case queueRead q =>
    cases q
    case ctrl site out => cases he
    all_goals
      refine othersSame_of_next he ht (queueRead_sameBut (fun _ _ h => ?_) s).same
      cases h
  case headInserted h => exact othersSame_of_next he ht (headInserted_sameBut s).same
  case headRemoved h => exact othersSame_of_next he ht (headRemoved_sameBut s).same
  case fsyncPulse h => exact othersSame_of_next he ht (fsyncPulse_sameBut s).same
  case fsyncPulseEnd h => exact othersSame_of_next he ht (SameBut.ite_left (State.sameBut_modHead s h _)).same
  case headTempRead h v => exact othersSame_of_next he ht (tempRead_sameBut v s).same
  case ledgerCommit h => exact othersSame_of_next he ht (ledgerCommit_sameBut s).same
  case ledgerReadback h b => exact othersSame_of_next he ht (ledgerReadback_sameBut b s).same
  case attachSettled h r => exact othersSame_of_next he ht (attachSettled_sameBut r s).same
  case authPoll h b => exact othersSame_of_next he ht (authPoll_sameBut b s).same
  case reauthentication h => exact othersSame_of_next he ht (SameBut.ite_left (State.sameBut_startAuth s h true none)).same
  case exposureWrite h => exact othersSame_of_next he ht (exposureWrite_sameBut s).same
  case i3cTransferComplete h => exact othersSame_of_next he ht (SameBut.ite_right (State.sameBut_modHead_sclSettle s h _)).same
  case embeddedData h vc hdr dt b crc => exact othersSame_of_next he ht (embedded_sameBut vc hdr dt.toNat b crc.toNat s).same
  case headAssign k h f => exact othersSame_of_next he ht (SameBut.headCommand (State.sameBut_modHead_finish ..)).same
  case headAttach k h p => exact othersSame_of_next he ht (headAttach_sameBut k p s).same
  case headDetach k h => exact othersSame_of_next he ht (headDetach_sameBut k s).same
  case headAuth k h => exact othersSame_of_next he ht (headAuth_sameBut k h.toNat s).same
  case headFsync k h en w p t0 => exact othersSame_of_next he ht (SameBut.headCommand (State.sameBut_modHead_finish ..)).same
  case headGain k h g => exact othersSame_of_next he ht (SameBut.headCommand (State.sameBut_modHead_finish ..)).same
  case headExposure k h g n => exact othersSame_of_next he ht (headExposure_sameBut k h.toNat g.toNat n.toNat s).same
  case headActuator k h m n cf lo hi => exact othersSame_of_next he ht (SameBut.headCommand (State.sameBut_modHead_finish ..)).same
  case headLens k h v => exact othersSame_of_next he ht (SameBut.headCommand (State.sameBut_modHead_finish ..)).same
  case i3cRaw k h a w n d r => exact othersSame_of_next he ht (i3cRaw_sameBut k a.toNat w.toNat n.toNat d r s).same
  case lineTake st => exact othersSame_of_next he ht (lineTake_sameBut st s).same
  case missingLineSupply st => exact othersSame_of_next he ht (missingLine_sameBut st s).same
  case sceneSet k st m hd cf tb => exact othersSame_of_next he ht (sceneSet_sameBut k st.toNat m.toNat hd.toNat cf.toNat tb s).same
  case replaySet k st p l f b src => exact othersSame_of_next he ht (replaySet_sameBut k st.toNat p.toNat l.toNat f.toNat b.toNat src s).same
  case patternSet k st p sd => exact othersSame_of_next he ht (patternSet_sameBut k st.toNat p.toNat sd s).same
  case dropThreshold k st n => exact othersSame_of_next he ht (dropThreshold_sameBut k st.toNat n.toNat s).same
  case streamStart k st pol sw oq p w at' =>
    exact othersSame_of_next he ht (streamStart_sameBut k st.toNat pol.toNat sw.toNat oq.toNat p.toNat w.toNat at' s).same
  case slotDefine k n p l src => exact othersSame_of_next he ht (slotDefine_sameBut k n.toNat p.toNat l.toNat src s).same
  case slotUndefine k n => exact othersSame_of_next he ht (slotUndefine_sameBut k n.toNat s).same
  case slotStage k n d err => exact othersSame_of_next he ht (slotStage_sameBut k n.toNat d err s).same
  case slotUnstage k n => exact othersSame_of_next he ht (slotUnstage_sameBut k n.toNat s).same
  case ecloseVariant k o n w => exact othersSame_of_next he ht (ecloseVariant_sameBut k o.toNat n.toNat w.toNat s).same
  case statsSnapshot k o st w vm d l =>
    exact othersSame_of_next he ht (statsSnapshot_sameBut k o.toNat st.toNat w.toNat vm d l.toNat s).same
  case exponentTrim k o g v => exact othersSame_of_next he ht (exponentTrim_sameBut k o.toNat g.toNat v.toInt s).same
  case placeVariant k o n => exact othersSame_of_next he ht (placeVariant_sameBut k o.toNat n.toNat s).same
  case placeVariantPlaced k o n l => exact othersSame_of_next he ht (placeVariantPlaced_sameBut k o.toNat n.toNat l s).same
  case unplaceVariant k o n => exact othersSame_of_next he ht (unplaceVariant_sameBut k o.toNat n.toNat s).same
  case modelLoad k o m p l src err =>
    exact othersSame_of_next he ht (modelLoad_sameBut k o.toNat m.toNat p.toNat l.toNat src err s).same
  case entityKey k o tb key => exact othersSame_of_next he ht (entityKey_sameBut k o.toNat tb.toNat key s).same
  case contextUnload k o => exact othersSame_of_next he ht (contextUnload_sameBut k o.toNat s).same
  case poolAssign k p f => exact othersSame_of_next he ht (poolAssign_sameBut k p.toNat f.toNat s).same
  case poolSetup k p ro co r c => exact othersSame_of_next he ht (poolSetup_sameBut k p.toNat ro.toNat co.toNat r c s).same
  case poolDescriptorFetch p d => exact othersSame_of_next he ht (poolDescriptorFetch_sameBut p d s).same
  case yallekIdentSend p => exact othersSame_of_next he ht (SameBut.ite_left (State.sameBut_sendSpore s p 4 _)).same
  case yallekBringupTimeout p => exact othersSame_of_next he ht (SameBut.ite_left (State.sameBut_modYport s p _)).same
  case nakRepeat p => exact othersSame_of_next he ht (SameBut.ite_left (State.sameBut_sendSpore s p 0x11 _)).same
  case ackSend p => exact othersSame_of_next he ht (SameBut.ite_left (State.sameBut_sendSpore s p 0x10 _)).same
  case syncEntryVisible p r => exact othersSame_of_next he ht (State.sameBut_modYport s p _).same
  case yallekBlockLock p => exact othersSame_of_next he ht (SameBut.ite_left (State.sameBut_modYport s p _)).same
  case yallekAlign k p b => exact othersSame_of_next he ht (yallekAlign_sameBut k p.toNat b s).same
  case ptpDelayReq p t3 t4 => exact othersSame_of_next he ht (SameBut.ite_right (State.sameBut_setEth s p _)).same
  case arpRequest p mac ip target => exact othersSame_of_next he ht (SameBut.ite_right (State.sameBut_ethSend s p _)).same
  case igmpReport p => exact othersSame_of_next he ht (SameBut.ite_right (State.sameBut_ethSend s p _)).same
  case ethFrameDiscard p => exact othersSame_of_next he ht (SameBut.ite_left (State.sameBut_setEth s p _)).same
  case ethLinkChange p up => exact othersSame_of_next he ht (SameBut.ite_right (State.sameBut_ethLink s p up)).same
  case replyWrite f ok => exact othersSame_of_next he ht (replyWrite_sameBut f ok s).same
  case replyInterrupt f => exact othersSame_of_next he ht (SameBut.ite_right (State.sameBut_modFn_raiseIrq s f 0 _)).same
  case logInterrupt f => exact othersSame_of_next he ht (SameBut.ite_right (State.sameBut_modFn_raiseIrq s f 1 _)).same
  case completionInterrupt f => exact othersSame_of_next he ht (SameBut.ite_right (State.sameBut_modFn_raiseIrq s f 2 _)).same
  case cmdTail f v => exact othersSame_of_next he ht (cmdTail_sameBut f v.toNat s).same
  case ringReset f => exact othersSame_of_next he ht (ringReset_sameBut f s).same
  case hbmBurst k a => exact othersSame_of_next he ht (hbmBurst_sameBut k a s).same
  case hbmPowerDown k => exact othersSame_of_next he ht (SameBut.ite_left (State.sameBut_modStackOf s k _)).same
  case hbmRefresh k => exact othersSame_of_next he ht (SameBut.ite_left (State.sameBut_modStackOf s k _)).same
  all_goals cases he

end Sys2Proof
